-- ==== Sys2Proof/Word.lean ====
section
/-! DEFINITION. The word types of the KZ7420 and the plainest arithmetic on them (spec/00_scope.md R2, R5). -/

namespace Sys2Proof

/-- One byte of storage. -/
abbrev Byte := BitVec 8
/-- A 32-bit register or lane word (R30). -/
abbrev Word := BitVec 32
/-- A 64-bit value: an address, a register pair, device time (R28). -/
abbrev Word64 := BitVec 64
/-- A mask with one bit for each of the 96 lanes (R29, R147). -/
abbrev Mask := BitVec 96

/-- The number of lanes of a wave (R147). -/
abbrev laneCount : Nat := 96

/-- Wrap(x, n) of R5: x mod 2^n as an n-bit pattern. -/
def wrap (n : Nat) (x : Int) : BitVec n := BitVec.ofInt n x

/-- SatI(x, n) of R5. -/
def satI (n : Nat) (x : Int) : Int := max (-(2 ^ (n - 1) : Int)) (min x (2 ^ (n - 1) - 1))

/-- SatN(x, n) of R5. -/
def satN (n : Nat) (x : Int) : Int := max 0 (min x (2 ^ n - 1))

/-- The low half of a pair. -/
def lo32 (x : Word64) : Word := x.setWidth 32
/-- The high half of a pair. -/
def hi32 (x : Word64) : Word := (x >>> 32).setWidth 32
/-- A pair from its two halves: cat(hi, lo). -/
def pair32 (lo hi : Word) : Word64 := hi ++ lo

/-- ceil(a / b) on natural numbers. -/
def ceilDiv (a b : Nat) : Nat := (a + b - 1) / b

/-- The natural number whose little-endian bytes are given (R2). -/
def natOfBytes : List Byte → Nat
  | [] => 0
  | b :: bs => b.toNat + 256 * natOfBytes bs

/-- The n little-endian bytes of a natural number (R2). -/
def bytesOfNat : Nat → Nat → List Byte
  | 0, _ => []
  | n + 1, x => BitVec.ofNat 8 x :: bytesOfNat n (x / 256)

theorem bytesOfNat_length (n x : Nat) : (bytesOfNat n x).length = n := by
  induction n generalizing x with
  | zero => rfl
  | succ n ih => simp [bytesOfNat, ih]

end Sys2Proof
end

