-- ==== Sys2Proof/Syntax.lean ====
section
/-! DEFINITION. The syntax of the SZX instruction set (spec/02_formats.md, spec/03_opcodes.md) and of the device's
events: one constructor of Instr for each row of spec/opcode_table.json. A wave instruction carries its decoded
fields; an event carries what it names (a wave, a queue slot, a port) and what reaches the device from outside. -/

namespace Sys2Proof

/-- The special registers of R29 that are read by value (masks, conditions and index registers are operand classes
of their own). -/
inductive SpecReg where
  | laneid | waveid | wavecount | cordid | cordcount | coreid | rickid | dieid | partition | side
  | time | fpflags | horizon | srseed | frame
  | trapcause | trapmask | trappc | trapinfo | rgndepth
  deriving DecidableEq, Repr, Inhabited

/-- What a 10-bit operand field names (R23, R24, R29). -/
inductive Opnd where
  /-- v0-v255. -/
  | v (n : BitVec 8)
  /-- o0-o7, the operand file. -/
  | o (n : BitVec 3)
  /-- l0 (0) and l1 (1), the last results. -/
  | l (n : BitVec 1)
  /-- pop q0-q3. -/
  | q (n : BitVec 2)
  /-- integer constant -32 to 31, as a 6-bit two's-complement number. -/
  | int (n : BitVec 6)
  /-- FP32 constant of the table of R25. -/
  | fconst (n : BitVec 4)
  /-- none: reads as zero, discards a result. -/
  | none
  /-- s0-s127. -/
  | s (n : BitVec 7)
  /-- the pair s2n:s2n+1. -/
  | sp (n : BitVec 6)
  /-- k0-k7; k0 is exec. -/
  | k (n : BitVec 3)
  /-- c0-c7. -/
  | c (n : BitVec 3)
  /-- x0-x3. -/
  | x (n : BitVec 2)
  /-- a special register read by value. -/
  | spec (r : SpecReg)
  deriving DecidableEq, Repr, Inhabited

/-- The length of an instruction other than P64, with what the longer formats add (R18, R21, R35, R36). -/
inductive Fmt where
  /-- V64, 8 bytes. -/
  | v64
  /-- W96, 12 bytes, with IMM32. -/
  | w96 (imm : Word)
  /-- X128, 16 bytes, with the extension E64. -/
  | x128 (ext : Word64)
  deriving DecidableEq, Repr, Inhabited

/-- The fields of a V64, W96 or X128 instruction (R21, R35, R36). W96 has no C field: `c` is then `v 0`, the operand
whose field is all zeros, which is also what an unused field must hold (R22). `m` is M17 in W96 and M, zero
extended, otherwise. -/
structure Fields where
  fmt : Fmt
  g   : BitVec 4
  d   : Opnd
  a   : Opnd
  b   : Opnd
  c   : Opnd
  pol : BitVec 3
  m   : BitVec 17
  deriving DecidableEq, Repr, Inhabited

/-- The VB operand of a pair (R38). -/
inductive PairVB where
  | o (n : BitVec 3)
  | l (n : BitVec 1)
  | q (n : BitVec 2)
  /-- s0-s15, broadcast. -/
  | s (n : BitVec 4)
  /-- integer constant 0-15. -/
  | int (n : BitVec 4)
  | fconst (n : BitVec 4)
  deriving DecidableEq, Repr, Inhabited

/-- The scalar pair operations of R52. -/
inductive SPairOp where
  | nop | add | sub | mul | mulhI | mulhN | and | or | xor | andn | shl | shr | sar | rot | minI | minN
  | maxI | maxN | mov | addSatI | subSatI | addSatN | subSatN | popc | clz
  deriving DecidableEq, Repr, Inhabited

/-- The vector pair operations of R53. -/
inductive VPairOp where
  | nop | add | sub | mul | mad | and | or | xor | andn | shl | shr | sar | minI | minN | maxI | maxN
  | faddF32 | fsubF32 | fmulF32 | ffmaF32 | fminF32 | fmaxF32 | faddF16 | fmulF16 | ffmaF16
  | faddBf16 | fmulBf16 | ffmaBf16 | mov
  deriving DecidableEq, Repr, Inhabited

/-- The SB operand of a pair: s0-s127, or a 7-bit signed immediate (R37). -/
inductive PairSB where
  | s (n : BitVec 7)
  | imm (n : BitVec 7)
  deriving DecidableEq, Repr, Inhabited

/-- The fields of a P64 instruction (R37). -/
structure PairFields where
  g   : BitVec 4
  sop : SPairOp
  sd  : BitVec 7
  sa  : BitVec 7
  sb  : PairSB
  vop : VPairOp
  vd  : BitVec 8
  va  : BitVec 8
  vb  : PairVB
  pol : Bool
  deriving DecidableEq, Repr, Inhabited

/-- The place of a resident wave: core, partition of the core, slot of the partition (R10, R100). -/
structure WaveId where
  core : Nat
  part : Nat
  slot : Nat
  deriving DecidableEq, Repr, Inhabited

/-- A root of the tile directory: its context and its handle index (R322). -/
structure RootId where
  tag   : Nat
  index : Nat
  deriving DecidableEq, Repr, Inhabited

/-- A copy in progress: a wave's closed batch by number, or a COPY record by the record's id (R246, R121). -/
inductive CopyRef where
  | batch (wave : Nat) (number : Word)
  | record (rec : Nat)
  deriving DecidableEq, Repr, Inhabited

/-- The debug registers of R437, by core or die. -/
inductive HwReg where
  | dbgctl (core : Nat) | stopreq (core : Nat) | stopmode (core : Nat) | halted (core : Nat)
  | cancelled (core : Nat) | resume (core : Nat) | bp (core : Nat) (n : BitVec 3)
  | sampper (die : Nat) | ring (die : Nat) | drop (die : Nat)
  | trialctl | triallo | trialhi | prog (n : BitVec 3) | cordret | insin | insout
  deriving DecidableEq, Repr, Inhabited

/-- What a rank other than the device's own brings to a collective (R417, R419, R420): its descriptor bytes, the elements of
its source as raw bits, whether one of its buffers has failed translation, and the status with which it has ended the
collective for want of another rank: 3 TIMEOUT or 4 LINKDOWN. -/
structure RankInput where
  rank  : Nat
  desc  : List Byte
  data  : List Word64
  fault : Bool
  ends  : Option Nat
  deriving DecidableEq, Repr, Inhabited

/-- A request packet of the peer protocol as the responder meets it (R410, R412, R414). -/
structure Packet where
  psn   : BitVec 24
  op    : BitVec 8
  aop   : BitVec 8
  size  : BitVec 8
  len   : Nat
  raddr : Word64
  opnd1 : Word64
  opnd2 : Word64
  data  : List Byte
  deriving DecidableEq, Repr, Inhabited

/-- An acknowledgement or response as the requester meets it (R412): the packet's number, whether the peer refused
the access, and the data or old value it carries. -/
structure Ack where
  psn     : BitVec 24
  refused : Bool
  data    : List Byte
  result  : Word64
  deriving DecidableEq, Repr, Inhabited

/-- A host access through BAR2 (R401), at a virtual address of context 0, or through BAR0. -/
inductive HostAccess where
  | read (va : Word64) (n : Nat)
  | write (va : Word64) (bytes : List Byte)
  /-- BAR0 (R401, R430, R437, R451). -/
  | bar0Read (off n : Nat)
  | bar0Write (off : Nat) (bytes : List Byte)
  /-- A doorbell in BAR0 of a context's queue; no rule gives its offset (log 12). -/
  | doorbell (tag q : Nat)
  /-- The host resizes BAR2 to 2^log2 bytes. -/
  | resize (log2 : Nat)
  deriving DecidableEq, Repr, Inhabited

/-- A PCIe AtomicOp (R401); `wide` is the 64-bit form. -/
inductive HostAtomic where
  | fetchAdd (va : Word64) (wide : Bool) (x : Word64)
  | swap (va : Word64) (wide : Bool) (x : Word64)
  | cas (va : Word64) (wide : Bool) (cmp x : Word64)
  deriving DecidableEq, Repr, Inhabited

/-- The transports of management messages (R433): the management I2C port, or PCIe VDM on a host port. -/
inductive MgmtPort where
  | i2c
  | vdm (port : Nat)
  deriving DecidableEq, Repr, Inhabited

/-- The settable power and thermal limits of R448, and TTRIP, which is fixed. -/
inductive PowerLimit where
  | psust | ppeak | tstep | ttrip
  deriving DecidableEq, Repr, Inhabited

/-- A request for a MEASUREMENTS block (R433): its transport, the SPDM version and the block's index. -/
structure SpdmRequest where
  via     : MgmtPort
  version : Nat
  index   : Nat
  deriving DecidableEq, Repr, Inhabited

/-- What a PLDM Type 2 message names (R433, R448): a limit to write, a limit to read, or a sensor: module power, a rail's
power, a rick's junction temperature, the clock. -/
inductive PldmItem where
  | set (l : PowerLimit)
  | get (l : PowerLimit)
  | power
  | rail (n : Nat)
  | temp (rick : Nat)
  | clock
  deriving DecidableEq, Repr, Inhabited

/-- A PLDM Type 2 message: what it names (R448), and the transport that it comes by (R433). -/
structure LimitName where
  via  : MgmtPort
  item : PldmItem
  deriving DecidableEq, Repr, Inhabited

/-- A PLDM Type 5 update (R433): its transport and the image. -/
structure FirmwareUpdate where
  via   : MgmtPort
  image : List Byte
  deriving DecidableEq, Repr, Inhabited

/-- A pool device's snoop (R402): a sector, and the bytes that the device has made coherent there. -/
structure PoolSnoop where
  sector : Nat
  bytes  : List Byte
  deriving DecidableEq, Repr, Inhabited

/-- The telemetry of R448: module power, rail powers, each rick's junction temperature. -/
structure Telemetry where
  power : Nat
  rails : List Nat
  temps : List Nat
  deriving DecidableEq, Repr, Inhabited

/-- The custom CSRs of R427. -/
inductive NkCsr where
  | nkctxtab | nkcmd | nkwake | nkevt | nkevthart | nkqpbase
  deriving DecidableEq, Repr, Inhabited

/-- AMO operations of a hart (R250: they perform at home as R243 gives). -/
inductive AmoOp where
  | swap | add | and | or | xor | min | max | minu | maxu
  deriving DecidableEq, Repr, Inhabited

/-- What a hart's RV64 instruction does to the device (R424 to R427). Register operands are hart registers; the
address operand of a memory access is its virtual address before translation. -/
inductive HartOp where
  | load (rd : BitVec 5) (va : Word64) (log2 : Nat) (signed : Bool)
  | store (rs : BitVec 5) (va : Word64) (log2 : Nat)
  | amo (op : AmoOp) (rd rs : BitVec 5) (va : Word64) (wide : Bool)
  | fence (predWrites : Bool)
  | sfenceVma (va : Option Word64) (asid : Option (BitVec 16))
  | writeSatp (rs : BitVec 5)
  | readTime (rd : BitVec 5)
  | readHartid (rd : BitVec 5)
  | csrWrite (csr : NkCsr) (rs : BitVec 5)
  | csrRead (csr : NkCsr) (rd : BitVec 5)
  /-- an instruction of the standard ISA by its word. -/
  | standard (word : Word)
  /-- the instruction that the hart fetches at its PC. -/
  | run
  deriving DecidableEq, Repr, Inhabited

/-- The instructions and events of the device, one constructor for each row of spec/opcode_table.json. -/
inductive Instr where
  /-- NOP (R22): Does nothing except advance the program counter by 8. -/
  | nop (f : Fields)
  /-- TRAP (R104): Raises TRAP_INSN with the code operand, whatever exec holds. -/
  | trap (f : Fields)
  /-- TRET (R105): Restores s0-s15, k, c and the repeat count from the trap frame, leaves supervisor state and resumes at the frame PC. -/
  | tret (f : Fields)
  /-- UPCALL (R108): Posts a mailbox entry, interrupts the kindling cores and sleeps until the answer, then reads RESULT into D. -/
  | upcall (f : Fields)
  /-- SYS_RD (R106): Reads a system register, named by number, into an s register or s pair. -/
  | sysRd (f : Fields)
  /-- SYS_WR (R106): Writes a writable system register, named by number, from a scalar operand. -/
  | sysWr (f : Fields)
  /-- SLEEP (R109): Stops the wave from issuing until a deadline in device time or a wake, and reports which one ended the sleep. -/
  | sleep (f : Fields)
  /-- BRA (R159): Branches wave-wide to a relative target. -/
  | bra (f : Fields)
  /-- BREZ (R159): Branches to a relative target when all 96 bits of a mask are zero. -/
  | brez (f : Fields)
  /-- BRX (R159): Branches to the absolute address held in an s pair. -/
  | brx (f : Fields)
  /-- RET (R159): Branches to the address in an s pair and feeds the return predictor. -/
  | ret (f : Fields)
  /-- CALL (R159): Writes the return address and branches to an absolute or relative target. -/
  | call (f : Fields)
  /-- EXIT (R160): Removes the exec lanes from the live mask and ends the wave when no live lane remains. -/
  | exit (f : Fields)
  /-- REP (R157): Loads the repeat count so that the next instruction executes n times with advancing register fields. -/
  | rep (f : Fields)
  /-- LOOP_PIN (R158): Sets the wave's pinned-loop state to the body from its successor to its last instruction. -/
  | loopPin (f : Fields)
  /-- LOOP_END (R158): Returns to the start of the pinned body when the loop state names this instruction, and otherwise falls through. -/
  | loopEnd (f : Fields)
  /-- YIELD (R161): Keeps the wave from issuing until the other ready waves have issued once or 64 clocks have passed. -/
  | yield (f : Fields)
  /-- K_AND (R162): Writes the AND of two masks. -/
  | kAnd (f : Fields)
  /-- K_OR (R162): Writes the OR of two masks. -/
  | kOr (f : Fields)
  /-- K_XOR (R162): Writes the XOR of two masks. -/
  | kXor (f : Fields)
  /-- K_ANDN (R162): Writes a AND NOT b over two masks. -/
  | kAndn (f : Fields)
  /-- K_NOT (R162): Writes the complement of a mask. -/
  | kNot (f : Fields)
  /-- K_MOV (R162): Copies a mask. -/
  | kMov (f : Fields)
  /-- K_LD (R164): Loads a 96-bit mask from memory. -/
  | kLd (f : Fields)
  /-- K_ST (R164): Stores a 96-bit mask to memory. -/
  | kSt (f : Fields)
  /-- K_POPC (R163): Counts the set bits of a mask into an s register. -/
  | kPopc (f : Fields)
  /-- K_FIRST (R163): Writes the index of the lowest set bit of a mask, or 96 when the mask is empty. -/
  | kFirst (f : Fields)
  /-- K_TEST_ANY (R163): Sets a condition bit when a AND b is nonzero. -/
  | kTestAny (f : Fields)
  /-- K_TEST_ALL (R163): Sets a condition bit when a AND b equals b. -/
  | kTestAll (f : Fields)
  /-- MOVX_RD (R166): Reads a v register selected per lane through an index register. -/
  | movxRd (f : Fields)
  /-- MOVX_WR (R166): Writes a v register selected per lane through an index register. -/
  | movxWr (f : Fields)
  /-- XSET (R165): Writes an index register from a vector source plus an offset. -/
  | xset (f : Fields)
  /-- XADD (R165): Adds an offset to an index register and writes an x, v or o register. -/
  | xadd (f : Fields)
  /-- REG_GROW (R154): Asks for the wave's register span to grow in place, blocking until the granules are free. -/
  | regGrow (f : Fields)
  /-- REG_SHRINK (R156): Releases the top granules of the wave's register span. -/
  | regShrink (f : Fields)
  /-- FE_WAIT (R167): Blocks until a range of v registers is full. -/
  | feWait (f : Fields)
  /-- FE_WAIT_ALL (R167): Blocks until every register of the allocation is full. -/
  | feWaitAll (f : Fields)
  /-- IC_INV (R144): Invalidates a code range in every instruction cache and loop buffer and waits for every core to acknowledge. -/
  | icInv (f : Fields)
  /-- GRP_INFO (R220): Reads a field of the cord's group table. -/
  | grpInfo (f : Fields)
  /-- S_ADD (R172): Scalar add. -/
  | sAdd (f : Fields)
  /-- S_SUB (R172): Scalar subtract. -/
  | sSub (f : Fields)
  /-- S_MUL (R172): Scalar multiply, low part. -/
  | sMul (f : Fields)
  /-- S_MULH (R172): Scalar multiply, high 32 bits. -/
  | sMulh (f : Fields)
  /-- S_AND (R172): Scalar bitwise AND. -/
  | sAnd (f : Fields)
  /-- S_OR (R172): Scalar bitwise OR. -/
  | sOr (f : Fields)
  /-- S_XOR (R172): Scalar bitwise XOR. -/
  | sXor (f : Fields)
  /-- S_ANDN (R172): Scalar a AND NOT b. -/
  | sAndn (f : Fields)
  /-- S_SHL (R172): Scalar shift left. -/
  | sShl (f : Fields)
  /-- S_SHR (R172): Scalar logical shift right. -/
  | sShr (f : Fields)
  /-- S_SAR (R172): Scalar arithmetic shift right. -/
  | sSar (f : Fields)
  /-- S_ROT (R172): Scalar rotate left. -/
  | sRot (f : Fields)
  /-- S_MIN (R172): Scalar minimum. -/
  | sMin (f : Fields)
  /-- S_MAX (R172): Scalar maximum. -/
  | sMax (f : Fields)
  /-- S_CMP (R176): Scalar compare into a condition register. -/
  | sCmp (f : Fields)
  /-- S_SEL (R177): Scalar select by a condition register. -/
  | sSel (f : Fields)
  /-- S_MOV (R178): Copies a scalar or special-register value into an s register or pair. -/
  | sMov (f : Fields)
  /-- S_MOVI (R178): Writes a 32-bit immediate, extended for pair types, into s registers. -/
  | sMovi (f : Fields)
  /-- S_BFE (R179): Scalar bit-field extract. -/
  | sBfe (f : Fields)
  /-- S_BFI (R179): Scalar bit-field insert. -/
  | sBfi (f : Fields)
  /-- S_POPC (R180): Scalar population count. -/
  | sPopc (f : Fields)
  /-- S_CLZ (R180): Scalar count of leading zeros. -/
  | sClz (f : Fields)
  /-- S_ADD64 (R174): 64-bit add of s pairs. -/
  | sAdd64 (f : Fields)
  /-- C_LOP (R181): Writes a condition register from a truth table over two condition registers. -/
  | cLop (f : Fields)
  /-- ADD (R172): Vector add per lane and element. -/
  | vAdd (f : Fields)
  /-- SUB (R172): Vector subtract. -/
  | vSub (f : Fields)
  /-- MUL (R172): Vector multiply, low part. -/
  | vMul (f : Fields)
  /-- MULH (R172): Vector multiply, high 32 bits. -/
  | vMulh (f : Fields)
  /-- MAD (R173): Vector multiply-add at 32 bits. -/
  | mad (f : Fields)
  /-- MADW (R173): Vector widening multiply-add into a 64-bit result. -/
  | madw (f : Fields)
  /-- AND (R172): Vector bitwise AND. -/
  | vAnd (f : Fields)
  /-- OR (R172): Vector bitwise OR. -/
  | vOr (f : Fields)
  /-- XOR (R172): Vector bitwise XOR. -/
  | vXor (f : Fields)
  /-- ANDN (R172): Vector a AND NOT b. -/
  | vAndn (f : Fields)
  /-- SHL (R172): Vector shift left. -/
  | vShl (f : Fields)
  /-- SHR (R172): Vector logical shift right. -/
  | vShr (f : Fields)
  /-- SAR (R172): Vector arithmetic shift right. -/
  | vSar (f : Fields)
  /-- ROT (R172): Vector rotate left. -/
  | vRot (f : Fields)
  /-- MIN (R172): Vector minimum. -/
  | vMin (f : Fields)
  /-- MAX (R172): Vector maximum. -/
  | vMax (f : Fields)
  /-- ABS (R175): Vector absolute value per element. -/
  | vAbs (f : Fields)
  /-- CMP (R176): Vector compare into a mask of the active lanes where the condition holds. -/
  | vCmp (f : Fields)
  /-- SEL (R177): Vector select per lane by a mask. -/
  | vSel (f : Fields)
  /-- BFE (R179): Vector bit-field extract. -/
  | vBfe (f : Fields)
  /-- BFI (R179): Vector bit-field insert. -/
  | vBfi (f : Fields)
  /-- POPC (R180): Vector population count. -/
  | vPopc (f : Fields)
  /-- CLZ (R180): Vector count of leading zeros. -/
  | vClz (f : Fields)
  /-- BREV (R180): Vector bit reversal. -/
  | vBrev (f : Fields)
  /-- ADD64 (R174): Vector 64-bit add. -/
  | vAdd64 (f : Fields)
  /-- PRMT (R182): Forms each result byte from eight source bytes under a selector. -/
  | prmt (f : Fields)
  /-- DOT4 (R183): Adds the dot product of four byte pairs to an accumulator. -/
  | dot4 (f : Fields)
  /-- SHFL_IDX (R185): Reads each lane's value from the lane given by an index. -/
  | shflIdx (f : Fields)
  /-- SHFL_XOR (R185): Reads each lane's value from lane L XOR b. -/
  | shflXor (f : Fields)
  /-- SHFL_UP (R185): Reads each lane's value from lane L - b. -/
  | shflUp (f : Fields)
  /-- SHFL_DOWN (R185): Reads each lane's value from lane L + b. -/
  | shflDown (f : Fields)
  /-- RDLANE (R186): Reads one lane of a vector register into a scalar. -/
  | rdlane (f : Fields)
  /-- WRLANE (R186): Writes a scalar into one lane of a vector register, whatever exec holds. -/
  | wrlane (f : Fields)
  /-- MATCH (R187): Gives each active lane the leader, rank or count of the active lanes with an equal value. -/
  | matchLanes (f : Fields)
  /-- REDUX (R189): Combines the values of the active lanes into a scalar or into every active lane. -/
  | redux (f : Fields)
  /-- SCAN (R190): Writes an inclusive or exclusive prefix combination over the active lanes. -/
  | scan (f : Fields)
  /-- FADD (R194): Floating-point add with one rounding. -/
  | fadd (f : Fields)
  /-- FSUB (R194): Floating-point subtract with one rounding. -/
  | fsub (f : Fields)
  /-- FMUL (R194): Floating-point multiply with one rounding. -/
  | fmul (f : Fields)
  /-- FFMA (R194): Fused multiply-add with one rounding. -/
  | ffma (f : Fields)
  /-- FMIN (R195): Floating-point minimum under the NaN and signed-zero rules. -/
  | fmin (f : Fields)
  /-- FMAX (R195): Floating-point maximum under the NaN and signed-zero rules. -/
  | fmax (f : Fields)
  /-- FCMP (R196): Floating-point compare into a mask. -/
  | fcmp (f : Fields)
  /-- FCLASS (R197): Writes a one-hot class mask for each element. -/
  | fclass (f : Fields)
  /-- FRND (R198): Rounds each element to an integral value in the same format. -/
  | frnd (f : Fields)
  /-- DADD (R199): FP64 add. -/
  | dadd (f : Fields)
  /-- DMUL (R199): FP64 multiply. -/
  | dmul (f : Fields)
  /-- DFMA (R199): FP64 fused multiply-add. -/
  | dfma (f : Fields)
  /-- DCMP (R199): FP64 compare into a mask. -/
  | dcmp (f : Fields)
  /-- DMINMAX (R199): FP64 minimum or maximum. -/
  | dminmax (f : Fields)
  /-- FCVT (R201): Converts between floating-point formats, stochastic rounding included. -/
  | fcvt (f : Fields)
  /-- F2I (R202): Converts floating point to a clamped integer. -/
  | f2i (f : Fields)
  /-- I2F (R203): Converts an integer to floating point. -/
  | i2f (f : Fields)
  /-- FLDEXP (R204): Scales a value by a power of two. -/
  | fldexp (f : Fields)
  /-- FFREXP (R205): Writes the mantissa or exponent of a value. -/
  | ffrexp (f : Fields)
  /-- FEXP2F (R206): Special function 2^a, long-latency. -/
  | fexp2f (f : Fields)
  /-- FLOG2 (R206): Special function log2 a, long-latency. -/
  | flog2 (f : Fields)
  /-- FRCP (R206): Special function 1/a, long-latency. -/
  | frcp (f : Fields)
  /-- FRSQ (R206): Special function 1/sqrt a, long-latency. -/
  | frsq (f : Fields)
  /-- FSQRT (R206): Correctly rounded square root, long-latency. -/
  | fsqrt (f : Fields)
  /-- FSINR (R206): Special function sin(2 pi a), long-latency. -/
  | fsinr (f : Fields)
  /-- FCOSR (R206): Special function cos(2 pi a), long-latency. -/
  | fcosr (f : Fields)
  /-- FDOT2 (R208): Adds the dot product of two packed pairs to an FP32 accumulator with one rounding. -/
  | fdot2 (f : Fields)
  /-- FQNI (R209): Quantises FP32 to an NI8 code in one byte of the destination. -/
  | fqni (f : Fields)
  /-- FDQNI (R210): Converts an NI code to FP32. -/
  | fdqni (f : Fields)
  /-- REDUX_F (R211): Reduces the active lanes' floating-point values by the fixed tree. -/
  | reduxF (f : Fields)
  /-- XA_ADD (R212): Adds an FP32 value or a second accumulator into an XA256 accumulator. -/
  | xaAdd (f : Fields)
  /-- XA_RND (R213): Rounds an XA256 accumulator to FP32. -/
  | xaRnd (f : Fields)
  /-- LD (R267): Global vector load, restartable per pass when plain. -/
  | ld (f : Fields)
  /-- ST (R267): Global vector store of byte-masked sector pieces. -/
  | st (f : Fields)
  /-- LD_K (R268): Loads from the argument block at %frame plus an offset. -/
  | ldK (f : Fields)
  /-- S_LD (R269): Scalar load, performed once for the wave. -/
  | sLd (f : Fields)
  /-- S_ST (R269): Scalar store, performed once for the wave. -/
  | sSt (f : Fields)
  /-- LD_S (R270): Scratchpad load. -/
  | ldS (f : Fields)
  /-- ST_S (R270): Scratchpad store. -/
  | stS (f : Fields)
  /-- ATOM (R275): Global atomic per active lane at the home slice, in ascending lane order. -/
  | atom (f : Fields)
  /-- ATOM_S (R276): Scratchpad atomic per active lane. -/
  | atomS (f : Fields)
  /-- RED (R277): Global reduction without returned values. -/
  | red (f : Fields)
  /-- FENCE (R279): Orders the wave's accesses by kind and scope. -/
  | fence (f : Fields)
  /-- ACQ_RS (R244): Promotes a remote core's write-throughs to device visibility and drops its leases. -/
  | acqRs (f : Fields)
  /-- PREF (R282): Prefetches lines into L2 and optionally L1 without trapping. -/
  | pref (f : Fields)
  /-- DISCARD (R283): Drops the core's L1 copies of a range and resets retain levels. -/
  | discard (f : Fields)
  /-- CPY (R285): Adds a linear copy to the wave's open batch. -/
  | cpy (f : Fields)
  /-- CPY_BOX (R288): Adds a box copy described by a box descriptor to the open batch. -/
  | cpyBox (f : Fields)
  /-- CPY_CLOSE (R289): Closes the open batch, starts it on the stoker engines and returns its number. -/
  | cpyClose (f : Fields)
  /-- CPY_WAIT (R290): Blocks until the covered batches complete and raises any deferred piece fault. -/
  | cpyWait (f : Fields)
  /-- STRM_DEF (R294): Replaces a stream record of the wave without starting it. -/
  | strmDef (f : Fields)
  /-- STRM_GO (R294): Discards queued entries and starts the stream's walk at element 0. -/
  | strmGo (f : Fields)
  /-- STRM_STOP (R294): Ends a stream's walk, discards its entries and unbinds its queue. -/
  | strmStop (f : Fields)
  /-- TILE_OPEN (R335): Opens a root or view over a footprint and returns its handle and status. -/
  | tileOpen (f : Fields)
  /-- TILE_CLOSE (R336): Closes a view or an idle root. -/
  | tileClose (f : Fields)
  /-- TILE_ACQ (R337): Acquires read or write tenure on a root, blocking until granted. -/
  | tileAcq (f : Fields)
  /-- TILE_REL (R338): Releases the cord's tenure entry and raises %horizon by the write-back's completion time. -/
  | tileRel (f : Fields)
  /-- TILE_SPLIT (R339): Cuts a root into two roots along an axis. -/
  | tileSplit (f : Fields)
  /-- TILE_QRY (R340): Reads state, base, extents, root or expiry of a handle. -/
  | tileQry (f : Fields)
  /-- PG_PROBE (R316): Walks the translation of one address without an access and reports the status. -/
  | pgProbe (f : Fields)
  /-- PG_INV_VA (R317): Starts invalidation of the translations over a virtual range. -/
  | pgInvVa (f : Fields)
  /-- PG_INV_CTX (R317): Starts invalidation of every translation of the context. -/
  | pgInvCtx (f : Fields)
  /-- PG_SYNC (R318): Blocks until the wave's earlier invalidations complete and their writes have passed. -/
  | pgSync (f : Fields)
  /-- BAR (R224): Arrives on a barrier group and waits for the phase to complete. -/
  | bar (f : Fields)
  /-- BAR_ARV (R226): Arrives on a barrier group without waiting. -/
  | barArv (f : Fields)
  /-- BAR_WAIT (R226): Waits for the phase of an earlier arrival to complete. -/
  | barWait (f : Fields)
  /-- BAR_DEV (R226): Arrives on a barrier group at device scope and waits. -/
  | barDev (f : Fields)
  /-- QPUSH (R127): Adds one continuation record to a user queue of the context. -/
  | qpush (f : Fields)
  /-- QNOTIFY (R128): Delivers a wake to cords of a queue. -/
  | qnotify (f : Fields)
  /-- SPAWN (R139): Submits a child record into the die's spawn buffer. -/
  | spawn (f : Fields)
  /-- JOIN (R140): Decrements a join counter atomically and enqueues its successor at zero. -/
  | join (f : Fields)
  /-- JOIN_INC (R140): Increments a join counter atomically. -/
  | joinInc (f : Fields)
  /-- EMIT (R141): Enqueues one NODE record per active lane and raises the join count. -/
  | emit (f : Fields)
  /-- NODE_POP (R143): Takes published records from the pull queue, one per active lane. -/
  | nodePop (f : Fields)
  /-- MOS_RSV (R352): Reserves a range of the side's matrix operand store. -/
  | mosRsv (f : Fields)
  /-- MOS_REL (R353): Frees an operand-store range once it is READY. -/
  | mosRel (f : Fields)
  /-- MOS_WR (R354): Writes one register's lanes into a range at a stride. -/
  | mosWr (f : Fields)
  /-- MOS_FILL (R355): Starts a copy of global memory into a range. -/
  | mosFill (f : Fields)
  /-- MMA (R357): Issues one member's part of a dense matrix operation and joins the quartet's gather. -/
  | mma (f : Fields)
  /-- MMA_SP (R357): Issues one member's part of a bitmap-sparse matrix operation. -/
  | mmaSp (f : Fields)
  /-- RT_BOX (R384): Tests a ray against the children of one BVH node. -/
  | rtBox (f : Fields)
  /-- RT_TRI (R386): Tests a ray against one triangle of a cluster record. -/
  | rtTri (f : Fields)
  /-- RT_TRI_REG (R386): Tests a ray against a triangle whose corners are in registers. -/
  | rtTriReg (f : Fields)
  /-- RT_TRACE (R388): Traverses a cut's scene for the closest or any hit. -/
  | rtTrace (f : Fields)
  /-- TEX_SMP (R394): Samples a texture with filtering. -/
  | texSmp (f : Fields)
  /-- TEX_LD (R394): Loads one texel of a level without filtering. -/
  | texLd (f : Fields)
  /-- TEX_GTHR (R394): Returns the four bilinear texels of one channel. -/
  | texGthr (f : Fields)
  /-- REC_LD (R394): Reads raw words of a resource record. -/
  | recLd (f : Fields)
  /-- CUT_GO (R378): Submits a cut job to the die's job queue. -/
  | cutGo (f : Fields)
  /-- RGN_IN (R436): Pushes a region identifier on the wave's region stack. -/
  | rgnIn (f : Fields)
  /-- RGN_OUT (R436): Pops a matching region identifier or raises REGION_MISMATCH. -/
  | rgnOut (f : Fields)
  /-- BRK (R440): Halts the wave for the debugger or raises BREAK. -/
  | brk (f : Fields)
  /-- PROG (R443): Increments a progress counter of a running trial. -/
  | prog (f : Fields)
  /-- QP_POST (R416): Posts one work request to a queue pair. -/
  | qpPost (f : Fields)
  /-- COLL (R421): Hands a collective descriptor to the die's stoker engines and numbers it. -/
  | coll (f : Fields)
  /-- COLL_WAIT (R422): Blocks until the covered collectives have written STATUS. -/
  | collWait (f : Fields)
  /-- PAIR (R39): Executes one scalar and one vector operation of the pair maps together, whole or not at all. -/
  | pair (p : PairFields)
  /-- ILLEGAL_OP (R59): An unassigned, emulation-space or invalid-length encoding traps with ILLEGAL_OP. -/
  | illegalOp (bits : BitVec 128)
  /-- SLEEP_DEADLINE (R109): Device time reaches a sleeping wave's deadline; the wave continues with D = 0. -/
  | sleepDeadline (w : WaveId)
  /-- REP_ITERATION (R157): One iteration of the repeated successor executes with its register fields offset and the count falls by one. -/
  | repIteration (op : BitVec 8) (f : Fields)
  /-- COPY_PIECE (R246): A stoker engine reads and writes one piece of a started copy batch or COPY record. -/
  | copyPiece (c : CopyRef) (piece : Nat)
  /-- COPY_BATCH_COMPLETE (R246): All writes of a batch are accepted and their completion times have passed. -/
  | copyBatchComplete (c : CopyRef)
  /-- STREAM_ELEMENT_FETCH (R292): The flue engine reads stream elements and fills the stream's operand queue when it has room. -/
  | streamElementFetch (w : WaveId) (id : Nat)
  /-- TENURE_GRANT (R328): The home grants a waiting tenure request. -/
  | tenureGrant (root : RootId)
  /-- TENURE_RENEW (R326): An uncontended tenure near its expiry is extended by its lease length. -/
  | tenureRenew (root : RootId) (core : Nat)
  /-- TENURE_EXPIRY (R327): A contended tenure reaches its expiry; the core writes back and its entries lapse. -/
  | tenureExpiry (root : RootId) (core : Nat)
  /-- LEASE_EXPIRY (R231): Device time reaches a read lease's expiry and the L1 copy becomes invalid. -/
  | leaseExpiry (core sector : Nat)
  /-- WRITE_COMPLETION (R232): A write reaches its completion time; its bytes are released to other cores and pending bytes are dropped. -/
  | writeCompletion (id : Nat)
  /-- LONG_LATENCY_FILL (R151): A long-latency producer writes its result and marks its destination full. -/
  | longLatencyFill (id : Nat)
  /-- INVALIDATION_COMPLETE (R317): Every receiver has dropped the range and let accesses already translated perform. -/
  | invalidationComplete (id : Nat)
  /-- BAR_DRAIN_COMPLETE (R223): A DEV phase's member horizons have passed, so the phase completes. -/
  | barDrainComplete (cord g : Nat)
  /-- MOS_FILL_COMPLETE (R355): Every byte of a MOS.FILL is written and the writer finishes. -/
  | mosFillComplete (id : Nat)
  /-- MMA_OPERATION_COMPLETE (R350): The engine finishes an operation, writes accumulators, sets flags and releases the range. -/
  | mmaOperationComplete (core side : Nat)
  /-- CUT_JOB_RUN (R373): A cut engine takes a queued job, selects the cut, builds the top-level BVH and posts residency requests. -/
  | cutJobRun (die : Nat)
  /-- CUT_JOB_STATUS (R376): After every write of the job has completed, the engine writes STATUS and decrements JOIN. -/
  | cutJobStatus (die : Nat)
  /-- WRITE_ACCEPTANCE (R232): A write reaches its home slice, takes its place in coherence order, receives its completion time, and that time returns to the writer. -/
  | writeAcceptance (id : Nat)
  /-- POOL_WRITE_ACKNOWLEDGE (R249): The pool device returns completion for a write to a pool page, making it visible to peers. -/
  | poolWriteAcknowledge (id : Nat)
  /-- DOORBELL (R117): A store to a queue's DOORBELL notifies the scheduler, or wakes NODE.POP waiters for a pull queue. -/
  | doorbell (tag q : Nat)
  /-- QUEUE_MAP (R118): A free slot is given to the highest-priority waiting queue, whose descriptor is checked and loaded. -/
  | queueMap (slot : Nat)
  /-- SLICE_END (R118): A slot's slice timer ends; the slot is taken by a waiting queue or starts a new slice. -/
  | sliceEnd (slot : Nat)
  /-- RECORD_TAKE (R117): The scheduler takes the published entry at HEAD into the slot and advances HEAD. -/
  | recordTake (slot : Nat)
  /-- RECORD_EXPAND (R131): The dispatcher checks a record's descriptor and group table and begins offering its cords. -/
  | recordExpand (slot : Nat)
  /-- CORD_PLACE (R134): The dispatcher places one cord on the first fitting core and sets its waves up. -/
  | cordPlace (slot : Nat)
  /-- CORD_RETIRE (R137): A cord whose waves have ended and whose operations have completed frees its resources. -/
  | cordRetire (cord : Nat)
  /-- RECORD_RETIRE (R137): A record's cords and spawned records have retired and their horizons passed, so it retires. -/
  | recordRetire (rec : Nat)
  /-- SUCCESSOR_RELEASE (R124): A held successor is written into its ring once the ring has room. -/
  | successorRelease (die : Nat)
  /-- DRAIN_END (R110): All outstanding operations have completed; save images are written and tenures released. -/
  | drainEnd (tag : Nat)
  /-- DRAIN_TIMEOUT (R98): The drain exceeds 20 us and the context faults with reason 0x53. -/
  | drainTimeout (tag : Nat)
  /-- CONTEXT_RESUME (R112): The scheduler resumes a pre-empted context and returns saved spawn children. -/
  | contextResume (tag : Nat)
  /-- CORD_RESTORE (R112): A saved cord is placed on a qualifying core, checked and restored with its tenures re-acquired. -/
  | cordRestore (tag : Nat)
  /-- RAYGEN_RUN (R396): The frame front generates and traces camera rays, reprojects hits and writes hit records. -/
  | raygenRun (rec : Nat)
  /-- RAYGEN_COMPLETE (R399): With all writes complete, the front writes STATUS and expands the hit-shader grid. -/
  | raygenComplete (rec : Nat)
  /-- COLLECTIVE_COMPLETE (R420): A collective's writes are accepted and passed; the engine writes STATUS and TDONE. -/
  | collectiveComplete (id : Nat)
  /-- COLLECTIVE_TIMEOUT (R420): A rank fails to join within the timeout and the collective ends with TIMEOUT. -/
  | collectiveTimeout (id : Nat)
  /-- WORK_REQUEST_TAKE (R409): An active queue pair takes the published work request at HEAD and sends its packets. -/
  | workRequestTake (qpn : Nat)
  /-- ACK_TIMEOUT (R414): ACKTO passes without an acknowledgement; the requester resends or fails with RETRY_EXCEEDED. -/
  | ackTimeout (qpn : Nat)
  /-- QP_DRAINED (R408): The last taken request of a DRAINING queue pair completes and it returns to READY. -/
  | qpDrained (qpn : Nat)
  /-- DESTROY_COMPLETE (R99): Cleanup of a destroyed context completes; the context returns to FREE and completion is posted. -/
  | destroyComplete (tag : Nat)
  /-- EVENT_POST (R429): The hardware posts an event entry to a die's event ring and interrupts the event hart, once the ring has room. -/
  | eventPost (die : Nat)
  /-- BREAKPOINT_MATCH (R438): A wave about to issue the instruction at an enabled breakpoint halts. -/
  | breakpointMatch (w : WaveId)
  /-- STOP_TAKES_EFFECT (R441): A pending stop request halts the wave at its next region edge or instruction boundary. -/
  | stopTakesEffect (w : WaveId)
  /-- QUEUE_RESUME (R116): The resident kernel writes QSTATE = 0, returning a stopped queue to IDLE and retrying kept copy pieces. -/
  | queueResume (tag q : Nat)
  /-- TRAINING_TIMEOUT (R404): No link after 100 ms returns the port to DOWN. -/
  | trainingTimeout (port : Nat)
  /-- RECEIVER_NOT_READY (R415): A receiver-not-ready answer starts a backoff, and its expiry sends the next attempt or fails the request. -/
  | receiverNotReady (qpn : Nat)
  /-- QP_CONTEXT_FETCH (R415): A queue-pair context is fetched into the die's cache and held packets leave in order. -/
  | qpContextFetch (die qpn : Nat)
  /-- RESUME_CONTINUE (R439): Restores a halted wave from its frame and continues, exempting the next issue from breakpoints. -/
  | resumeContinue (w : WaveId)
  /-- RESUME_DELIVER (R439): Restores a halted wave and delivers BREAK to its context's handler. -/
  | resumeDeliver (w : WaveId)
  /-- RESUME_STEP (R439): Restores a halted wave, lets it issue once and halts it again. -/
  | resumeStep (w : WaveId)
  /-- SAMPLE (R442): Every SAMPPER ns each core samples one resident wave and writes a sample record. -/
  | sample (core : Nat)
  /-- REGISTER_WRITE (R437): A write to a register that has no behaviour of its own stores the value. -/
  | registerWrite (r : HwReg) (value : Word64)
  /-- FREEZE (R445): FREEZE_N low stops every clock for read-out until reset. -/
  | freeze
  /-- PLDM_FREEZE (R445): The PLDM freeze command stops every clock for read-out until reset. -/
  | pldmFreeze
  /-- CTX_CREATE (R96): Writes a free context's block with reset values and enters BUILDING. -/
  | ctxCreate (tag : Nat) (blk : Nat)
  /-- CTX_COMMIT (R95): Checks the block and versions and moves the context to READY. -/
  | ctxCommit (tag : Nat) (blk : Nat)
  /-- CTX_DESTROY (R99): Stops every cord of the context and starts cleanup in DESTROYING. -/
  | ctxDestroy (tag : Nat) (blk : Nat)
  /-- INVAL (R428): Performs PG.INV followed by PG.SYNC for a context on behalf of a hart. -/
  | inval (tag : Nat) (addr len : Word64) (blk : Nat)
  /-- QP_MODIFY_INIT (R408): Moves a queue pair from RESET to INIT. -/
  | qpModifyInit (qpn blk : Nat)
  /-- QP_MODIFY_READY (R408): Moves a queue pair from INIT to READY and accepts packets. -/
  | qpModifyReady (qpn blk : Nat)
  /-- QP_MODIFY_ACTIVE (R408): Moves a queue pair from READY to ACTIVE and takes work requests. -/
  | qpModifyActive (qpn blk : Nat)
  /-- QP_MODIFY_DRAIN (R408): Moves an ACTIVE queue pair to DRAINING. -/
  | qpModifyDrain (qpn blk : Nat)
  /-- QP_MODIFY_RESET (R408): Moves a queue pair from ERROR to RESET, clearing its hardware fields. -/
  | qpModifyReset (qpn blk : Nat)
  /-- PORT_ENABLE (R404): Starts link training on a down peer port. -/
  | portEnable (port blk : Nat)
  /-- PORT_DISABLE (R404): Removes a peer port's routes and takes it DOWN. -/
  | portDisable (port blk : Nat)
  /-- PORT_QUIESCE (R404): Stops a peer port accepting new packets. -/
  | portQuiesce (port blk : Nat)
  /-- PORT_RESUME (R404): Returns a quiesced port to its earlier state. -/
  | portResume (port blk : Nat)
  /-- PORT_RETRAIN (R404): Restarts training of a port in ERROR. -/
  | portRetrain (port blk : Nat)
  /-- LINK_UP (R404): The data link of a training port comes up and negotiation begins. -/
  | linkUp (port width : Nat)
  /-- VERSION_NEGOTIATION (R405): The port agrees a peer-protocol version and installs its route, or enters ERROR. -/
  | versionNegotiation (port major minor peer : Nat)
  /-- LANE_LOSS (R404): Lanes are lost and the port retrains narrower into DEGRADED. -/
  | laneLoss (port width : Nat)
  /-- REPLAY_LIMIT_EXCEEDED (R404): Replay limit or loss of all lanes discards the port's packets and removes its routes. -/
  | replayLimitExceeded (port : Nat)
  /-- COMM_CREATE (R417): Creates a communicator for a context. -/
  | commCreate (tag index : Nat) (list : Nat) (n rank timeout : Nat) (blk : Nat)
  /-- CUT_SUBMIT (R377): Submits a cut job on behalf of a hart, as cut.go.wait. -/
  | cutSubmit (tag : Nat) (addr : Word64) (blk : Nat)
  /-- RETIRE_READ (R315): Copies the retirement table to memory. -/
  | retireRead (dest blk : Nat)
  /-- HBM_MAP (R428): Writes the HBM bytes homed at each slice to memory. -/
  | hbmMap (dest blk : Nat)
  /-- NKWAKE (R427): A hart's write wakes the wave waiting on an answered mailbox entry. -/
  | nkwake (value : Word64)
  /-- COLLECTIVE_RUN (R419): The stoker engines perform a collective across the communicator's ranks. -/
  | collectiveRun (id : Nat) (ranks : List RankInput)
  /-- PACKET_RECEIVE (R414): A responder executes, NAKs or answers as duplicate a request packet by sequence number. -/
  | packetReceive (port qpn : Nat) (p : Packet)
  /-- ACK_RECEIVE (R412): The requester receives an acknowledgement or response and completes requests, writing completions. -/
  | ackReceive (qpn : Nat) (a : Ack)
  /-- SEQUENCE_NAK (R414): A sequence NAK makes the requester send again from EPSN. -/
  | sequenceNak (qpn : Nat) (epsn : BitVec 24)
  /-- HOST_BAR2_ACCESS (R401): The host reads or writes device memory of context 0 through BAR2. -/
  | hostBar2Access (port : Nat) (a : HostAccess)
  /-- HOST_ATOMICOP (R401): The device completes a PCIe FetchAdd, Swap or CAS AtomicOp. -/
  | hostAtomicop (port : Nat) (a : HostAtomic)
  /-- BACK_INVALIDATION_SNOOP (R402): A pool device's snoop drops the home slice's copy before it is answered. -/
  | backInvalidationSnoop (sector : PoolSnoop)
  /-- RESET (R430): Hart 0 runs the boot ROM: trains HBM, loads and verifies the image, extends measurements and jumps to it. -/
  | reset
  /-- RECOVERY_IMAGE_WRITE (R432): Recovery mode accepts an image and writes it to flash. -/
  | recoveryImageWrite (image : List Byte)
  /-- SPDM_GET_MEASUREMENTS (R433): The SPDM responder returns the measurement registers. -/
  | spdmGetMeasurements (index : SpdmRequest)
  /-- PLDM_SET_LIMIT (R448): A PLDM Type 2 write sets a power or thermal limit, refused outside its range. -/
  | pldmSetLimit (l : LimitName) (value : Nat)
  /-- PLDM_FIRMWARE_UPDATE (R433): A PLDM Type 5 update writes flash for the next reset. -/
  | pldmFirmwareUpdate (image : FirmwareUpdate)
  /-- DROOP_DETECT (R447): Supply droop at a detector stretches the rick's clock. -/
  | droopDetect (rick : Nat)
  /-- DROOP_RECOVER (R447): After 64 clocks of recovered supply the rick returns to the nominal period. -/
  | droopRecover (rick : Nat)
  /-- CLOCK_STEP_DOWN (R448): The controller steps the arithmetic clock down by 25 MHz while a limit is exceeded. -/
  | clockStepDown
  /-- CLOCK_STEP_UP (R448): After 10 ms with 5 % margin the controller steps the clock up by 25 MHz. -/
  | clockStepUp
  /-- TELEMETRY_REFRESH (R448): Power, temperature and clock telemetry refresh every 1 ms. -/
  | telemetryRefresh (t : Telemetry)
  /-- THERMTRIP (R450): A sensor above TTRIP freezes the device and drives THERMTRIP_N low. -/
  | thermtrip
  /-- POWER_REMOVAL (R451): Power removal loses all device state. -/
  | powerRemoval
  /-- KINDLING_INSTRUCTION (R424): A kindling hart executes an RV64 instruction, such as a load, store, AMO, fence, SFENCE.VMA or satp write, under RVWMO and the lease rules. -/
  | kindlingInstruction (hart : Nat) (op : HartOp)
  /-- MEASUREMENT_EXTEND (R431): Firmware extends measurement register 3 to 7 with a value, setting M to SHAKE256 of M and the value. -/
  | measurementExtend (r : Nat) (x : List Byte)
  /-- D3HOT_TRANSITION (R451): The host moves the device into or out of D3hot, during which BAR0 writes are dropped. -/
  | d3hotTransition (port : Nat) (into : Bool)
  /-- LINK_L1_TRANSITION (R451): A host port enters or leaves link L1, gating or restoring that port's clocks. -/
  | linkL1Transition (port : Nat) (into : Bool)
  deriving DecidableEq, Repr, Inhabited

end Sys2Proof
end

