-- ==== Sys2Proof/Machine/Forms.lean ====
section
/-! DEFINITION. The forms of the instructions: the operand forms that each entry accepts (R22 to R30), the
modifier layouts (R50, R55 to R58) and the per-entry limits. A term that fails these checks is one that the hardware
meets with RESERVED_BITS (R40 check 3). -/

namespace Sys2Proof

/-! ### Fields of the modifier -/

/-- TYPE of the modifier layouts A (R55, R56). -/
def Fields.ty (f : Fields) : Nat := f.m.toNat % 16
/-- SAT of layout A, integer (R55). -/
def Fields.sat (f : Fields) : Bool := f.m.getLsbD 4
/-- RND of layout A, rounding (R55, R57); the same bits are SEL of layout A, selector. -/
def Fields.rnd (f : Fields) : Nat := f.m.toNat / 16 % 8
/-- Bits [hi:lo] of the modifier as a number. -/
def Fields.mbits (f : Fields) (hi lo : Nat) : Nat := f.m.toNat / 2 ^ lo % 2 ^ (hi + 1 - lo)
/-- IMM32, or zero outside W96 (R35). -/
def Fields.imm (f : Fields) : Word := match f.fmt with | .w96 i => i | _ => 0
/-- E64, or zero outside X128 (R36). -/
def Fields.ext (f : Fields) : Word64 := match f.fmt with | .x128 e => e | _ => 0
/-- Bits [hi:lo] of E64 as a number. -/
def Fields.ebits (f : Fields) (hi lo : Nat) : Nat := f.ext.toNat / 2 ^ lo % 2 ^ (hi + 1 - lo)
def Fields.isV (f : Fields) : Bool := match f.fmt with | .v64 => true | _ => false
def Fields.isW (f : Fields) : Bool := match f.fmt with | .w96 _ => true | _ => false
def Fields.isX (f : Fields) : Bool := match f.fmt with | .x128 _ => true | _ => false

/-- Type codes of width 64 (R56). -/
def ty64 (t : Nat) : Bool := t == 3 || t == 7 || t == 9 || t == 13

/-- The size code of a memory instruction: in the V64 forms of LD.S, ST.S and LD.K it is fixed at 32 bits; in W96 it is
M17[9:7]; in X128 it is E64[34:32] (R55, R58, R266). -/
def Fields.msize (f : Fields) : Nat :=
  match f.fmt with | .v64 => 2 | .w96 _ => f.mbits 9 7 | .x128 _ => f.ebits 34 32
/-- The atomic operation code (R275). -/
def Fields.aop (f : Fields) : Nat :=
  match f.fmt with | .x128 _ => f.ebits 38 35 | _ => f.mbits 13 10
def Fields.ord (f : Fields) : Nat := f.mbits 5 4
def Fields.hint (f : Fields) : Nat := f.mbits 3 2
def Fields.scope (f : Fields) : Nat := f.mbits 1 0
/-- SX: a narrow load sign-extends (R55, R266). -/
def Fields.sx (f : Fields) : Bool := match f.fmt with | .x128 e => e.getLsbD 35 | _ => f.m.getLsbD 10
/-- log2 of the index multiplier k (R266). -/
def Fields.scale (f : Fields) : Nat := match f.fmt with | .x128 _ => f.ebits 37 36 | _ => f.mbits 12 11
/-- BSGN: index b is signed (R266). -/
def Fields.bsgn (f : Fields) : Bool := match f.fmt with | .x128 e => e.getLsbD 38 | _ => f.m.getLsbD 13
/-- CSGN (R266). -/
def Fields.csgn (f : Fields) : Bool := f.ext.getLsbD 39
/-- CSTRIDE (R266). -/
def Fields.cstride (f : Fields) : Nat := f.ebits 63 41
/-- OFF, signed (R266, R275). -/
def Fields.off (f : Fields) : Int :=
  match f.fmt with | .x128 e => (e.setWidth 32 : Word).toInt | .w96 i => i.toInt | .v64 => 0

/-! ### Operand roles -/

/-- What an entry accepts in an operand field (R27, R28, R30). `fp` allows the FP32 table constants. -/
inductive Role where
  /-- the entry does not use the field, which must be zero. -/
  | unused
  /-- a vector source of 32 bits (`wide` false) or 64 bits (R27, R28). -/
  | vs (wide fp : Bool)
  /-- a register read in other lanes (R184). -/
  | vlane (wide : Bool)
  /-- a block of n consecutive v registers, aligned to `align`; `orNone` also accepts none. -/
  | vblk (n align : Nat) (orNone : Bool)
  /-- a v register that names the first of n consecutive ones, wherever it stands: the register bound of R30 is the only one;
  `orNone` also accepts none. -/
  | vrun (n : Nat) (orNone : Bool)
  /-- a v register that is named and not read as a source (FE.WAIT). -/
  | v1
  /-- none only (the destination of `.xadd`, R274). -/
  | noReg
  /-- a vector source of 128 bits: vN with N a multiple of 4 (R266). -/
  | vs128
  /-- a vector destination: v, o or none (R27). -/
  | vd (wide : Bool)
  /-- v or o only (WRLANE). -/
  | vdvo (wide : Bool)
  /-- a scalar source (R27, R28). -/
  | ss (wide : Bool)
  /-- an s register or an integer constant; `max` bounds a constant, read as natural. -/
  | si (max : Option Nat)
  /-- an s register, with no pair form, or an integer constant: a scratchpad offset of CPY (R285). -/
  | so
  /-- an s register, an integer constant or none. -/
  | sin
  /-- an s pair, an integer constant or none. -/
  | spin
  /-- an s register or none. -/
  | sn
  /-- an s register, or the pair form whose low register it reads (R28). -/
  | s1
  /-- an s pair only. -/
  | sp
  /-- a scalar destination: s or none, or a pair or none. -/
  | sd (wide : Bool)
  /-- a destination that must be an s register, or an s pair, and not none (SYS.RD, UPCALL). -/
  | sdx (wide : Bool)
  /-- a mask source: k0-k7 or %trapmask (R27). -/
  | ks
  /-- k0-k7 only. -/
  | k
  /-- k0-k7 or none. -/
  | kn
  /-- c0-c7 or none. -/
  | cn
  /-- c0-c7 only. -/
  | c
  /-- x0-x3. -/
  | x
  /-- x0-x3, or v, o or none (XADD). -/
  | xv
  /-- s, v, o or none: the destination of REDUX (R189, R211). -/
  | rd (wide : Bool)
  /-- an integer constant 1-31 (FE.WAIT). -/
  | int31
  /-- a class-11 field that names a system register (R106). -/
  | sysNum
  deriving DecidableEq, Repr, Inhabited

/-- The special registers of 64 bits (R29). -/
def SpecReg.wide : SpecReg → Bool
  | .time | .horizon | .srseed | .frame | .trappc | .trapinfo => true
  | _ => false

/-- Marked supervisor in R29. -/
def SpecReg.sup : SpecReg → Bool
  | .trapcause | .trapmask | .trappc | .trapinfo => true
  | _ => false

/-- The integer an integer constant stands for (R24). -/
def Opnd.intVal : Opnd → Option Int
  | .int n => some n.toInt
  | _ => Option.none

def even (n : Nat) : Bool := n % 2 == 0

/-- The operand forms that a role accepts (R27, R28 and the entries). -/
def Role.ok : Role → Opnd → Bool
  | .unused, o => o == .v 0
  | .vs false fp, o =>
    match o with
    | .v _ | .o _ | .l _ | .q _ | .int _ | .none | .s _ | .sp _ => true
    | .fconst _ => fp
    | .spec r => r != .trapmask
    | _ => false
  | .vs true fp, o =>
    match o with
    | .v n => even n.toNat
    | .o n => even n.toNat
    | .int _ | .none | .sp _ => true
    | .fconst _ => fp
    | .spec r => r.wide
    | _ => false
  | .vlane false, o => match o with | .v _ | .o _ | .l _ => true | _ => false
  | .vlane true, o => match o with | .v n => even n.toNat | .o n => even n.toNat | _ => false
  | .vblk n al orNone, o =>
    match o with
    | .v r => decide (r.toNat + n ≤ 256) && r.toNat % al == 0
    | .none => orNone
    | _ => false
  | .vrun _ orNone, o => match o with | .v _ => true | .none => orNone | _ => false
  | .v1, o => match o with | .v _ => true | _ => false
  | .noReg, o => o == .none
  | .vs128, o => match o with | .v n => n.toNat % 4 == 0 | _ => false
  | .vd wide, o =>
    match o with
    | .v n => !wide || even n.toNat
    | .o n => !wide || even n.toNat
    | .none => true
    | _ => false
  | .vdvo wide, o =>
    match o with
    | .v n => !wide || even n.toNat
    | .o n => !wide || even n.toNat
    | _ => false
  | .ss false, o =>
    match o with
    | .s _ | .sp _ | .int _ | .none => true
    | .spec r => r != .trapmask && r != .laneid
    | _ => false
  | .ss true, o =>
    match o with
    | .sp _ | .int _ | .none => true
    | .spec r => r.wide
    | _ => false
  | .si mx, o =>
    match o with
    | .s _ | .sp _ => true
    | .int n => match mx with | Option.none => true | some bound => decide (0 ≤ n.toInt ∧ n.toInt ≤ bound)
    | _ => false
  | .so, o => match o with | .s _ | .int _ => true | _ => false
  | .sin, o => match o with | .s _ | .sp _ | .int _ | .none => true | _ => false
  | .spin, o => match o with | .sp _ | .int _ | .none => true | _ => false
  | .sn, o => match o with | .s _ | .sp _ | .none => true | _ => false
  | .s1, o => match o with | .s _ | .sp _ => true | _ => false
  | .sp, o => match o with | .sp _ => true | _ => false
  | .sd false, o => match o with | .s _ | .none => true | _ => false
  | .sd true, o => match o with | .sp _ | .none => true | _ => false
  | .sdx false, o => match o with | .s _ => true | _ => false
  | .sdx true, o => match o with | .sp _ => true | _ => false
  | .ks, o => match o with | .k _ => true | .spec r => r == .trapmask | _ => false
  | .k, o => match o with | .k _ => true | _ => false
  | .kn, o => match o with | .k _ | .none => true | _ => false
  | .cn, o => match o with | .c _ | .none => true | _ => false
  | .c, o => match o with | .c _ => true | _ => false
  | .x, o => match o with | .x _ => true | _ => false
  | .xv, o => match o with | .x _ | .v _ | .o _ | .none => true | _ => false
  | .rd false, o => match o with | .s _ | .v _ | .o _ | .none => true | _ => false
  | .rd true, o =>
    match o with
    | .sp _ | .none => true
    | .v n => even n.toNat
    | .o n => even n.toNat
    | _ => false
  | .int31, o => match o with | .int n => decide (1 ≤ n.toInt) | _ => false
  | .sysNum, o => match o with | .spec r => r != .trapmask && r != .laneid | _ => false

/-- The roles whose v-register and queue operands carry a policy bit (R33). -/
def Role.isVecSrc : Role → Bool
  | .vs _ _ | .vlane _ | .vblk _ _ false | .vrun _ false | .vs128 => true
  | _ => false

/-- How many consecutive registers a v or s operand in this role names (R28, R30, R191). -/
def Role.span : Role → Nat
  | .unused => 0
  | .vs true _ | .vlane true | .vd true | .vdvo true | .rd true => 2
  | .vblk n _ _ => n
  | .vrun n _ => n
  | .vs128 => 4
  | _ => 1

/-- The role of a destination or source of memory data by size code (R266). -/
def ldRole (size : Nat) : Role :=
  if size = 4 then .vblk 4 4 true else if size = 3 then .vblk 2 2 true else .vblk 1 1 true
def stRole (size : Nat) : Role :=
  if size = 4 then .vs128 else .vs (size == 3) false

/-- The instruction's lengths, the roles of its fields, and whether its modifier, immediate and extension are
defined (R49, R50). -/
structure Sig where
  v : Bool := false
  w : Bool := false
  x : Bool := false
  d : Role := .unused
  a : Role := .unused
  b : Role := .unused
  c : Role := .unused
  /-- modifier, IMM32 and E64 are defined by the entry. -/
  mod : Bool
  /-- in W96, B keeps its field; otherwise IMM32 supplies B and the B field is zero (R50). -/
  keepB : Bool := false
  /-- in W96, a vector source in D is covered by F[46] (R35). -/
  dsrc : Bool := false
  /-- F bits that the entry defines beside those of its v and queue sources. -/
  fx : BitVec 3 := 0
  deriving DecidableEq, Repr, Inhabited

/-! ### Modifier layouts -/

/-- Every modifier bit outside `mask` is zero. -/
def Fields.only (f : Fields) (mask : Nat) : Bool := f.m.toNat &&& mask == f.m.toNat
/-- Layout A, integer: plain types, and the types that accept SAT (R55, R171). -/
def Fields.modI (f : Fields) (plain sat : List Nat) : Bool :=
  f.only 0x1F && (if f.sat then sat.contains f.ty else plain.contains f.ty)
/-- Layout A, rounding, RND 0-4 (R57, R191). -/
def Fields.modR (f : Fields) (types : List Nat) : Bool :=
  f.only 0x7F && decide (f.rnd ≤ 4) && types.contains f.ty
/-- Layout A, rounding, of an instruction that does not round: M[6:4] zero (R191). -/
def Fields.modN (f : Fields) (types : List Nat) : Bool := f.only 0x0F && types.contains f.ty
/-- Layout A, selector. -/
def Fields.modS (f : Fields) (sels types : List Nat) : Bool :=
  f.only 0x7F && sels.contains f.rnd && types.contains f.ty
/-- ORD, HINT, SCOPE of layout L: SCOPE is not 3, a plain access has SCOPE 0, M[6] zero (R55, R58, R264). -/
def Fields.modL (f : Fields) (ords : List Nat) : Bool :=
  ords.contains f.ord && f.scope != 3 && (f.ord != 0 || f.scope == 0) && f.mbits 6 6 == 0

/-- Comparison types (R176). -/
def Fields.modCmp (f : Fields) : Bool :=
  f.only 0x7F && decide (f.rnd ≤ 5) &&
    ([2, 6, 3, 7].contains f.ty || ((f.ty == 8 || f.ty == 9) && decide (f.rnd ≤ 1)))

def addTypes : List Nat := [8, 2, 6, 5, 1, 4, 0]
def addSatTypes : List Nat := [2, 6, 5, 1, 4, 0]
def fTypes : List Nat := [0xA, 0xB, 0xC]

/-- The size and extension rules of LD and ST beyond layout L (R266). -/
def Fields.modLd (f : Fields) (load : Bool) : Bool :=
  decide (f.msize ≤ 4) && (!f.sx || (load && decide (f.msize ≤ 1))) &&
  (match f.fmt with
   | .w96 _ => f.mbits 16 14 == 0
   | .x128 e => !(load && e.getLsbD 40)
   | .v64 => false)

/-- The AOP and size combinations of R274; `x` marks the X128 form of ATOM, the only one with .cas. -/
def aopOk (aop size : Nat) (cas exch : Bool) : Bool :=
  if aop ≤ 7 then size == 2 || size == 3
  else if aop = 8 then exch && (size == 2 || size == 3 || size == 4)
  else if aop = 9 then cas && (size == 2 || size == 3)
  else if aop ≤ 14 then size == 2
  else false

/-- The role of an atomic's data operand (R274, R275). -/
def atomData (aop size : Nat) : Role :=
  if aop = 14 then .vblk 8 1 false
  else if aop = 10 ∨ aop = 11 ∨ aop = 12 ∨ aop = 13 then .vs false true
  else stRole size

/-- The destination of an atomic (R275). -/
def atomDest (aop size : Nat) : Role := if aop = 13 ∨ aop = 14 then .noReg else ldRole size

/-- The conversion layout of R200; a conversion that cannot be inexact has RND zero. -/
def Fields.stype (f : Fields) : Nat := f.mbits 10 7
def Fields.elem (f : Fields) : Nat := f.mbits 11 11

/-- FCVT directions: 1 from FP32 to a packed format, 2 from FP64 to a packed format, 3 from FP64 to FP32, 4 between
packed formats, 5 packed to FP32, 6 packed to FP64, 7 FP32 to FP64; 0 is none (R201). -/
def Fields.cvtKind (f : Fields) : Nat :=
  let packed := fun t : Nat => t == 0xA || t == 0xB
  if f.stype = 0xC ∧ packed f.ty then 1
  else if f.stype = 0xD ∧ packed f.ty then 2
  else if f.stype = 0xD ∧ f.ty = 0xC then 3
  else if packed f.stype ∧ packed f.ty ∧ f.stype ≠ f.ty then 4
  else if packed f.stype ∧ f.ty = 0xC then 5
  else if packed f.stype ∧ f.ty = 0xD then 6
  else if f.stype = 0xC ∧ f.ty = 0xD then 7
  else 0

def Fields.modCvt (f : Fields) : Bool :=
  f.only 0xFFF && f.imm == 0 && f.cvtKind != 0 &&
  (if f.cvtKind ≤ 4 then decide (f.rnd ≤ 5) && f.elem == 0 else f.rnd == 0 && (f.cvtKind != 7 || f.elem == 0))

def Fields.modF2i (f : Fields) : Bool :=
  f.only 0xFFF && f.imm == 0 && decide (f.ty ≤ 7) && decide (0xA ≤ f.stype ∧ f.stype ≤ 0xD) && decide (f.rnd ≤ 4) &&
  (f.elem == 0 || f.stype == 0xA || f.stype == 0xB)

def Fields.modI2f (f : Fields) : Bool :=
  f.only 0x7FF && f.imm == 0 && decide (0xA ≤ f.ty ∧ f.ty ≤ 0xD) && [2, 3, 6, 7].contains f.stype && decide (f.rnd ≤ 4) &&
  (f.rnd == 0 || f.ty != 0xD || ty64 f.stype)

/-- System registers beyond R29 (R106). -/
inductive SysReg where
  | spec (r : SpecReg) | ctxtag | trapframe | supbase | framepool | mailbox | versions
  deriving DecidableEq, Repr, Inhabited

def specOfNum : Nat → Option SpecReg
  | 0x20 => some .laneid | 0x21 => some .waveid | 0x22 => some .wavecount | 0x23 => some .cordid
  | 0x24 => some .cordcount | 0x25 => some .coreid | 0x26 => some .rickid | 0x27 => some .dieid
  | 0x28 => some .partition | 0x29 => some .side | 0x2A => some .time | 0x2B => some .fpflags
  | 0x2C => some .horizon | 0x2D => some .srseed | 0x2E => some .frame | 0x30 => some .trapcause
  | 0x31 => some .trapmask | 0x32 => some .trappc | 0x33 => some .trapinfo | 0x34 => some .rgndepth
  | _ => none

/-- The register that a number of R106 names. -/
def sysRegOfNum (n : Nat) : Option SysReg :=
  if n = 0x100 then some .ctxtag else if n = 0x101 then some .trapframe else if n = 0x102 then some .supbase
  else if n = 0x103 then some .framepool else if n = 0x104 then some .mailbox else if n = 0x105 then some .versions
  else if n = 0x20 ∨ n = 0x31 then none
  else (specOfNum n).map .spec

/-- The register that SYS.RD or SYS.WR names (R106). -/
def Fields.sysReg (f : Fields) : Option SysReg :=
  match f.fmt with
  | .w96 i => sysRegOfNum i.toNat
  | _ => match f.b with | .spec r => if r = .laneid ∨ r = .trapmask then none else some (.spec r) | _ => none

def SysReg.wide : SysReg → Bool
  | .spec r => r.wide
  | .trapframe | .supbase | .framepool | .mailbox => true
  | _ => false

def SysReg.supRead : SysReg → Bool
  | .spec r => r.sup
  | .trapframe | .supbase | .framepool | .mailbox => true
  | _ => false

/-- Some state may write the register (R29, R106). -/
def SysReg.writable : SysReg → Bool
  | .spec .fpflags | .spec .srseed | .spec .trappc | .framepool => true
  | _ => false

def SysReg.supWrite : SysReg → Bool
  | .spec .trappc | .framepool => true
  | _ => false

/-- The distance of LOOP.PIN: IMM32 > 0 is necessary; the rest depends on the address (R158). -/
def Fields.loopOk (f : Fields) : Bool := decide (0 < f.imm.toInt)

/-! ### The table of instructions -/

/-- The signature of a two-source vector operation. -/
def sigV2 (wide fp : Bool) (mod : Bool) : Sig :=
  { v := true, w := true, d := .vd wide, a := .vs wide fp, b := .vs wide fp, mod := mod }
def sigS2 (wide : Bool) (mod : Bool) : Sig :=
  { v := true, w := true, d := .sd wide, a := .ss wide, b := .ss wide, mod := mod }
def sigK (sel : Nat) (f : Fields) (two : Bool) : Sig :=
  { v := true, d := .k, a := .ks, b := if two then .ks else .unused, mod := f.m.toNat == sel }
def sigShfl (sel : Nat) (f : Fields) : Sig :=
  { v := true, w := true, d := .vd (ty64 f.ty), a := .vlane (ty64 f.ty), b := .vs false false,
    mod := f.only 0x3F && f.mbits 5 4 == sel && (f.ty == 8 || f.ty == 9) }
def sigSfu (mod : Bool) : Sig := { v := true, d := .vblk 1 1 true, a := .vs false true, mod := mod }
def sigBar (sel : Nat) (f : Fields) : Sig :=
  { v := true, w := true, a := if f.isW then .unused else .si none, keepB := true,
    mod := f.m.toNat == sel && decide (f.imm.toNat < 256) }
def sigWait (f : Fields) (d a b : Role) : Sig :=
  { v := true, w := true, d := d, a := a, b := b, mod := decide (f.m.toNat ≤ 1) }

/-- What each entry accepts. Events have no encoding. -/
def Instr.sig : Instr → Option Sig
  | .nop f => some { v := true, mod := f.m == 0 && f.g == 0 }
  | .trap f => some { v := true, w := true, b := .ss false, mod := f.m == 0 }
  | .tret f | .exit f | .loopEnd f | .yield f | .brk f | .pgSync f => some { v := true, mod := f.m == 0 }
  | .upcall f => some { v := true, w := true, d := .sdx true, a := .spin, b := .si none,
                        mod := f.m == 0 && decide (f.imm.toNat < 65536) }
  | .sysRd f => some { v := true, w := true, d := .sdx ((f.sysReg.map SysReg.wide).getD false), b := .sysNum,
                       mod := f.m == 0 && f.sysReg.isSome }
  | .sysWr f => some { v := true, w := true, a := if (f.sysReg.map SysReg.wide).getD false then .spin else .sin,
                       b := .sysNum, mod := f.m == 0 && (f.sysReg.map SysReg.writable).getD false }
  | .sleep f => some { v := true, w := true, d := .sd false, b := .si none, mod := f.m == 0 }
  | .bra f => some { w := true, mod := f.m == 0 }
  | .brez f => some { w := true, a := .ks, mod := f.m == 0 }
  | .brx f | .ret f => some { v := true, a := .sp, mod := f.m == 0 }
  | .call f => some { v := true, w := true, d := .sd true, b := .sp, mod := f.m == 0 }
  | .rep f => some { v := true, a := .si none, mod := f.only 0x7F }
  | .loopPin f => some { w := true, mod := f.m == 0 && f.loopOk }
  | .kAnd f => some (sigK 0 f true)
  | .kOr f => some (sigK 1 f true)
  | .kXor f => some (sigK 2 f true)
  | .kAndn f => some (sigK 3 f true)
  | .kNot f => some (sigK 4 f false)
  | .kMov f => some (sigK 5 f false)
  | .kLd f => some { w := true, d := .k, a := .sp, keepB := true, mod := f.only 0x7F && f.modL [0, 1] }
  | .kSt f => some { w := true, d := .k, a := .sp, keepB := true, mod := f.only 0x7F && f.modL [0, 2] }
  | .kPopc f | .kFirst f => some { v := true, d := .sd false, a := .ks, mod := f.m == 0 }
  | .kTestAny f => some { v := true, d := .cn, a := .ks, b := .ks, mod := f.m == 0 }
  | .kTestAll f => some { v := true, d := .cn, a := .ks, b := .ks, mod := f.m == 1 }
  | .movxRd f => some { v := true, w := true, d := .vd false, a := .x, b := .si none, mod := f.m == 0, fx := 1 }
  | .movxWr f => some { v := true, w := true, d := .x, a := .vs false false, b := .si none, mod := f.m == 0 }
  | .xset f => some { v := true, w := true, d := .x, a := .vs false false, b := .si none, mod := f.m == 0 }
  | .xadd f => some { v := true, w := true, d := .xv, a := .x, b := .si none, mod := f.m == 0 }
  | .regGrow f => some { v := true, w := true, d := .cn, b := .si none, mod := f.m == 0 }
  | .regShrink f => some { v := true, w := true, b := .si none, mod := f.m == 0 }
  | .feWait f => some { v := true, a := .v1, b := .int31, mod := f.m == 0 }
  | .feWaitAll f => some { v := true, mod := f.m == 1 }
  | .icInv f => some { v := true, w := true, a := .sp, b := .si none, mod := f.m == 0 }
  | .grpInfo f => some { v := true, w := true, d := .sd (f.m == 0), b := .si none,
                         mod := decide (f.m.toNat ≤ 4) && decide (f.imm.toNat < 256) }
  | .sAdd f | .sSub f | .sMul f => some (sigS2 false (f.modI [8, 2, 6] [2, 6]))
  | .sMulh f | .sMin f | .sMax f => some (sigS2 false (f.modI [2, 6] []))
  | .sAnd f | .sOr f | .sXor f | .sAndn f | .sShr f | .sSar f | .sRot f => some (sigS2 false (f.modI [8] []))
  | .sShl f => some (sigS2 false (f.modI [8] [2, 6]))
  | .sCmp f => some { sigS2 (ty64 f.ty) f.modCmp with d := .cn }
  | .sSel f => some { v := true, d := .sd (ty64 f.ty), a := .ss (ty64 f.ty), b := .ss (ty64 f.ty), c := .c,
                      mod := f.modI [8, 9] [] }
  | .sMov f => some { v := true, d := .sdx (ty64 f.ty), a := .ss (ty64 f.ty), mod := f.modI [8, 9] [] }
  | .sMovi f => some { w := true, d := .sdx (ty64 f.ty), mod := f.modI [8, 3, 7] [] }
  | .sBfe f => some (sigS2 false (f.modI [2, 6] []))
  | .sBfi f => some { v := true, d := .sd false, a := .ss false, b := .ss false, c := .ss false, mod := f.modI [8] [] }
  | .sPopc f | .sClz f => some { v := true, d := .sd false, a := .ss (ty64 f.ty), mod := f.modI [8, 9] [] }
  | .sAdd64 f => some (sigS2 true (f.modI [9, 3, 7] [3, 7]))
  | .cLop f => some { v := true, d := .cn, a := .c, b := .c, mod := f.only 0xF }
  | .vAdd f | .vSub f => some (sigV2 false false (f.modI addTypes addSatTypes))
  | .vMul f => some (sigV2 false false (f.modI [8, 2, 6] [2, 6]))
  | .vMulh f => some (sigV2 false false (f.modI [2, 6] []))
  | .mad f => some { v := true, d := .vd false, a := .vs false false, b := .vs false false, c := .vs false false,
                     mod := f.modI [8, 2, 6] [2, 6] }
  | .madw f => some { v := true, d := .vdvo true, a := .vs false false, b := .vs false false, c := .vs true false,
                      mod := f.modI [2, 6] [2, 6] }
  | .vAnd f | .vOr f | .vXor f | .vAndn f | .vShr f | .vSar f | .vRot f => some (sigV2 false false (f.modI [8] []))
  | .vShl f => some (sigV2 false false (f.modI [8] [2, 6]))
  | .vMin f | .vMax f => some (sigV2 false false (f.modI addSatTypes []))
  | .vAbs f => some { v := true, d := .vd false, a := .vs false false, mod := f.modI [2, 1, 0] [2, 1, 0] }
  | .vCmp f => some { sigV2 (ty64 f.ty) false f.modCmp with d := .kn }
  | .vSel f => some { v := true, d := .vd (ty64 f.ty), a := .vs (ty64 f.ty) false, b := .vs (ty64 f.ty) false, c := .k,
                      mod := f.modI [8, 9] [] }
  | .vBfe f => some (sigV2 false false (f.modI [2, 6] []))
  | .vBfi f => some { v := true, d := .vd false, a := .vs false false, b := .vs false false, c := .vs false false,
                      mod := f.modI [8] [] }
  | .vPopc f | .vClz f => some { v := true, d := .vd false, a := .vs (ty64 f.ty) false, mod := f.modI [8, 9] [] }
  | .vBrev f => some { v := true, d := .vd false, a := .vs false false, mod := f.modI [8] [] }
  | .vAdd64 f => some (sigV2 true false (f.modI [9, 3, 7] [3, 7]))
  | .prmt f => some { v := true, w := true, d := .vd false, a := .vs false false, b := .vs false false,
                      c := if f.isW then .unused else .vs false false, keepB := true,
                      mod := f.m == 0 && decide (f.imm.toNat < 65536) }
  | .dot4 f => some { v := true, d := .vd false, a := .vs false false, b := .vs false false, c := .vs false false,
                      mod := f.only 0x3F && (f.ty == 0 || f.ty == 4) }
  | .shflIdx f => some (sigShfl 0 f)
  | .shflXor f => some (sigShfl 1 f)
  | .shflUp f => some (sigShfl 2 f)
  | .shflDown f => some (sigShfl 3 f)
  | .rdlane f => some { v := true, w := true, d := .sd (ty64 f.ty), a := .vlane (ty64 f.ty), b := .ss false,
                        mod := f.modN [8, 9] }
  | .wrlane f => some { v := true, w := true, d := .vdvo (ty64 f.ty), a := .ss (ty64 f.ty), b := .ss false,
                        mod := f.modN [8, 9] }
  | .matchLanes f => some { v := true, d := .vd false, a := .vs (ty64 f.ty) false,
                            mod := f.only 0x3F && decide (f.mbits 5 4 ≤ 2) && (f.ty == 8 || f.ty == 9) }
  | .redux f => some { v := true, d := .rd (ty64 f.ty), a := .vs (ty64 f.ty) false,
                       mod := f.modS [0] [8, 2, 6, 9, 3, 7] || f.modS [2, 3] [2, 6, 3, 7] || f.modS [4, 5, 6] [8, 9] }
  | .scan f => some { v := true, d := .vd (ty64 f.ty), a := .vs (ty64 f.ty) false,
                      mod := f.modS [0, 1] [8, 2, 6, 9, 3, 7] || f.modS [2, 3] [2, 6, 3, 7] || f.modS [4, 5, 6] [8, 9] }
  | .fadd f | .fsub f | .fmul f => some (sigV2 false true (f.modR fTypes))
  | .ffma f => some { v := true, d := .vd false, a := .vs false true, b := .vs false true, c := .vs false true,
                      mod := f.modR fTypes }
  | .fmin f | .fmax f => some (sigV2 false true (f.modN fTypes))
  | .fcmp f => some { sigV2 false true (f.modS [0, 1, 2, 3, 4, 5, 6] fTypes) with d := .kn }
  | .fclass f => some { v := true, d := .vd false, a := .vs false true, mod := f.modN fTypes }
  | .frnd f => some { v := true, d := .vd false, a := .vs false true, mod := f.modR fTypes }
  | .dadd f | .dmul f => some (sigV2 true true (f.modR [0xD]))
  | .dfma f => some { v := true, d := .vd true, a := .vs true true, b := .vs true true, c := .vs true true,
                      mod := f.modR [0xD] }
  | .dcmp f => some { sigV2 true true (f.modS [0, 1, 2, 3, 4, 5, 6] [0xD]) with d := .kn }
  | .dminmax f => some (sigV2 true true (f.modS [0, 1] [0xD]))
  | .fcvt f => some { w := true, d := .vd (f.ty == 0xD), a := .vs (f.stype == 0xD) true,
                      b := if f.cvtKind = 1 ∨ f.cvtKind = 2 then .vs (f.stype == 0xD) true else .unused,
                      keepB := true, mod := f.modCvt }
  | .f2i f => some { w := true, d := .vd (ty64 f.ty), a := .vs (f.stype == 0xD) true, keepB := true, mod := f.modF2i }
  | .i2f f => some { w := true, d := .vd (f.ty == 0xD), a := .vs (ty64 f.stype) false,
                     b := if f.ty = 0xA ∨ f.ty = 0xB then .vs (ty64 f.stype) false else .unused,
                     keepB := true, mod := f.modI2f }
  | .fldexp f => some { v := true, w := true, d := .vd (f.ty == 0xD), a := .vs (f.ty == 0xD) true, b := .vs false false,
                        mod := f.modN [0xC, 0xD] }
  | .ffrexp f => some { v := true, d := .vd (f.ty == 0xD && f.mbits 4 4 == 0), a := .vs (f.ty == 0xD) true,
                        mod := f.only 0x1F && (f.ty == 0xC || f.ty == 0xD) }
  | .fexp2f f | .flog2 f | .frcp f | .frsq f | .fsinr f | .fcosr f => some (sigSfu (f.modN [0xC]))
  | .fsqrt f => some (sigSfu (f.modR [0xC]))
  | .fdot2 f => some { v := true, d := .vd false, a := .vs false true, b := .vs false true, c := .vs false true,
                       mod := f.modR [0xA, 0xB] }
  | .fqni f => some { w := true, d := .vblk 1 1 false, a := .vs false true, b := .vs false false, keepB := true, dsrc := true,
                      mod := f.only 0x1FF && f.ty == 0xC && decide (f.rnd ≤ 5) && f.imm == 0 }
  | .fdqni f => some { w := true, d := .vd false, a := .vs false false, b := .vs false false, keepB := true,
                       mod := f.only 0x3F8F && f.ty == 0xE && decide (2 ≤ f.mbits 12 9 ∧ f.mbits 12 9 ≤ 8) && f.imm == 0 }
  | .reduxF f => some { v := true, d := .rd false, a := .vs false true,
                        mod := f.only 0x7F && decide (f.mbits 1 0 ≤ 2) &&
                          (if f.mbits 3 2 = 0 then decide (f.rnd ≤ 4) else f.rnd == 0 && f.mbits 3 2 != 3) }
  | .xaAdd f => some { v := true, d := .vblk 8 1 false,
                       a := if f.m = 1 then .vblk 8 1 false else .vs false true,
                       mod := f.m == 0xC || f.m == 1 }
  | .xaRnd f => some { v := true, d := .vd false, a := .vblk 8 1 false, mod := f.m == 0xC }
  | .ld f => some { w := true, x := true, d := ldRole f.msize, a := .vs true false, b := .vs false false,
                    c := if f.isX then .vs false false else .unused, keepB := true,
                    mod := f.modL [0, 1] && f.modLd true }
  | .st f => some { w := true, x := true, d := stRole f.msize, a := .vs true false, b := .vs false false,
                    c := if f.isX then .vs false false else .unused, keepB := true, dsrc := true,
                    mod := f.modL [0, 2] && f.modLd false }
  | .ldK f => some { v := true, w := true, d := ldRole f.msize, a := .vs false false, keepB := true,
                     mod := match f.fmt with
                       | .v64 => f.only 0xC
                       | _ => f.only 0x78C && decide (f.msize ≤ 4) && (!f.sx || decide (f.msize ≤ 1)) }
  | .sLd f => some { w := true, d := .sd (f.msize == 3), a := .sp, b := .sn, keepB := true,
                     mod := f.only 0x7FF && f.modL [0, 1] && decide (f.msize ≤ 3) && (!f.sx || decide (f.msize ≤ 1)) }
  | .sSt f => some { w := true, d := if f.msize = 3 then .spin else .sin, a := .sp, b := .sn, keepB := true,
                     mod := f.only 0x3FF && f.modL [0, 2] && decide (f.msize ≤ 3) }
  | .ldS f => some { v := true, w := true, d := ldRole f.msize, a := .vs false false,
                     b := if f.isW then .unused else .ss false, keepB := true,
                     mod := f.only (if f.isW then 0x780 else 0) && decide (f.msize ≤ 4) && (!f.sx || decide (f.msize ≤ 1)) }
  | .stS f => some { v := true, w := true, d := if f.isW then stRole f.msize else .unused, a := .vs false false,
                     b := if f.isW then .unused else .ss false, c := if f.isW then .unused else .vs false false,
                     keepB := true, dsrc := true, mod := f.only (if f.isW then 0x380 else 0) && decide (f.msize ≤ 4) }
  | .atom f => some { w := true, x := true, d := atomDest f.aop f.msize, a := .vs true false, b := atomData f.aop f.msize,
                      c := if f.aop = 9 then stRole f.msize else .unused, keepB := true,
                      mod := f.modL [0, 1, 2] && (f.isX || f.hint == 0) && aopOk f.aop f.msize f.isX true &&
                        (match f.fmt with | .w96 _ => f.mbits 16 14 == 0 | _ => f.ebits 63 39 == 0) }
  | .atomS f => some { w := true, d := atomDest f.aop f.msize, a := .vs false false, b := atomData f.aop f.msize,
                       keepB := true, mod := f.only 0x3F80 && aopOk f.aop f.msize false true }
  | .red f => some { w := true, a := .vs true false, b := atomData f.aop f.msize, keepB := true,
                     mod := f.only 0x3FFF && f.modL [0, 2] && f.hint == 0 && aopOk f.aop f.msize false false }
  | .fence f => some { v := true, mod := f.only 0x33 && decide (1 ≤ f.ord) && f.scope != 3 }
  | .acqRs f => some { v := true, w := true, d := .sd true, b := .si none, mod := f.m == 0 }
  | .pref f => some { w := true, a := .vs true false, b := .vs false false, keepB := true,
                      mod := f.only 0x3BCC && f.hint != 3 && decide (f.msize ≤ 4) }
  | .discard f => some { w := true, a := .sp, b := .si none, keepB := true, mod := f.m == 0 }
  | .cpy f => some { x := true, a := if f.ext.getLsbD 32 then .so else .sp,
                     b := if f.ext.getLsbD 33 then .so else .sp, c := .sin,
                     mod := f.only 0xC && f.ebits 63 36 == 0 && !(f.ext.getLsbD 32 && f.ext.getLsbD 33) &&
                       (f.c == .none || f.ebits 31 0 == 0) }
  | .cpyBox f => some { x := true, a := .sp, b := if f.ext.getLsbD 32 then .so else .sp, c := .sp,
                        mod := f.only 0xC && f.ebits 63 36 == 0 && !f.ext.getLsbD 33 }
  | .cpyClose f => some { v := true, d := .sd false, mod := f.m == 0 }
  | .cpyWait f => some { v := true, w := true, b := if f.m = 1 then .unused else .si none,
                         mod := f.m == 0 || (f.m == 1 && f.imm == 0) }
  | .strmDef f => some { x := true, a := .sp, mod := f.m == 0 && f.ebits 63 3 == 0 }
  | .strmGo f | .strmStop f => some { v := true, a := .si (some 7), mod := f.m == 0 }
  | .tileOpen f => some { x := true, d := .sd true, a := .sp, mod := f.m == 0 && f.ebits 63 11 == 0 && decide (f.ebits 8 6 ≤ 4) }
  | .tileClose f => some { v := true, d := .sd false, a := .s1, mod := f.m == 0 }
  | .tileAcq f => some { v := true, d := .sd false, a := .s1, mod := decide (f.m.toNat ≤ 1) }
  | .tileRel f => some { v := true, a := .s1, mod := f.m == 0 }
  | .tileSplit f => some { v := true, w := true, d := .sd true, a := .s1, b := .si none, mod := f.only 3 }
  | .tileQry f => some { v := true, d := .sd (f.m == 1 || f.m == 2 || f.m == 4), a := .s1, mod := decide (f.m.toNat ≤ 4) }
  | .pgProbe f => some { v := true, d := .sd true, a := .sp, mod := f.only 0xF }
  | .pgInvVa f => some { v := true, w := true, a := .sp, b := .si none, mod := f.m == 0 }
  | .pgInvCtx f => some { v := true, w := true, mod := f.m == 1 && f.imm == 0 }
  | .bar f => some (sigBar 0 f)
  | .barArv f => some (sigBar 1 f)
  | .barWait f => some (sigBar 2 f)
  | .barDev f => some (sigBar 3 f)
  | .qpush f => some { sigWait f (.sd false) .sp (.si none) with mod := decide (f.m.toNat ≤ 1) && decide (f.imm.toNat < 65536) }
  | .qnotify f => some { v := true, a := .si none, b := .si none, mod := f.m == 0 }
  | .spawn f | .qpPost f | .cutGo f => some (sigWait f (.sd false) .sp (.si none))
  | .join f => some { v := true, d := .sd false, a := .sp, b := .si none, mod := f.m == 0 }
  | .joinInc f => some { v := true, d := .sd false, a := .sp, b := .si none, mod := f.m == 1 }
  | .emit f => some { v := true, w := true, d := .sd false, a := .vs true false, b := .si (some 15),
                      mod := f.m == 0 && decide (f.imm.toNat < 16) }
  | .nodePop f => some { v := true, d := .vblk 2 2 false, a := .si none, mod := decide (f.m.toNat ≤ 1) }
  | .mosRsv f => some { w := true, d := .sd false, a := .sin, keepB := true,
                        mod := decide (f.imm.toNat < 65536) && f.only 0x7FF &&
                          (if f.ty = 0xE then decide (2 ≤ f.mbits 7 4 ∧ f.mbits 7 4 ≤ 8) && decide (f.mbits 10 8 ≤ 4)
                           else (f.ty == 0xA || f.ty == 0xB) && f.mbits 10 4 == 0) }
  | .mosRel f => some { v := true, b := .si none, mod := f.m == 0 }
  | .mosWr f => some { v := true, w := true, a := .vs false false, b := .si none, mod := decide (f.m.toNat ≤ 6) }
  | .mosFill f => some { w := true, x := true, a := .sp, b := if f.isW then .unused else .si none,
                         c := if f.isW then .unused else .si none, keepB := true,
                         mod := (match f.fmt with
                           | .w96 _ => f.only 0x1FF8C
                           | _ => f.only 0xC && f.ebits 63 48 == 0 && (f.ebits 47 32 != 0 || f.ebits 31 0 == 0)) }
  | .mma f => some { x := true, d := .vblk 16 1 false,
                     a := .vrun (if f.ty = 0xE ∧ 4 < f.ebits 19 16 then 2 else 1) false,
                     b := .vblk 1 1 false, mod := f.modR [0xA, 0xB, 0xE] && f.ebits 63 20 == 0 &&
                       (if f.ty = 0xE then decide (2 ≤ f.ebits 19 16 ∧ f.ebits 19 16 ≤ 8) else f.ebits 19 16 == 0) }
  | .mmaSp f => some { x := true, d := .vblk 16 1 false,
                       a := .vrun (if f.ty = 0xE ∧ 4 < f.ebits 19 16 then 2 else 1) false,
                       b := .vblk 1 1 false, c := .vblk 1 1 false, mod := f.modR [0xA, 0xB, 0xE] && f.ebits 63 20 == 0 &&
                         (if f.ty = 0xE then decide (2 ≤ f.ebits 19 16 ∧ f.ebits 19 16 ≤ 8) else f.ebits 19 16 == 0) }
  | .rtBox f => some { v := true, d := .vblk 5 1 true, a := .vblk 8 1 false, b := .vs true false, mod := f.m == 0 }
  | .rtTri f => some { v := true, d := .vblk 4 1 true, a := .vblk 8 1 false, b := .vs true false, c := .vs false false,
                       mod := decide (f.m.toNat ≤ 2) }
  | .rtTriReg f => some { v := true, d := .vblk 4 1 true, a := .vblk 8 1 false, b := .vblk 9 1 false,
                          mod := decide (4 ≤ f.m.toNat ∧ f.m.toNat ≤ 6) }
  | .rtTrace f => some { v := true, w := true, d := .vblk 5 1 true, a := .vblk 8 1 false, b := .vs true false, keepB := true,
                         mod := f.only 7 && decide (f.mbits 1 0 ≤ 2) }
  | .texSmp f => some { v := true, x := true, d := .vrun 4 true, a := .vrun (if f.mbits 1 0 = 1 then 4 else 3) false,
                        b := .vs false false, c := .sp,
                        mod := decide (f.m.toNat ≤ 1) && f.ebits 15 13 == 0 && f.ebits 63 48 == 0 }
  | .texGthr f => some { v := true, x := true, d := .vrun 4 true, a := .vrun (if f.mbits 1 0 = 1 then 4 else 3) false,
                         b := .vs false false, c := .sp,
                         mod := f.only 0xF && decide (f.mbits 1 0 ≤ 1) && f.ebits 15 13 == 0 && f.ebits 63 48 == 0 }
  | .texLd f => some { v := true, d := .vrun 4 true, a := .vrun 4 false, b := .vs false false, c := .sp, mod := f.m == 0 }
  | .recLd f => some { v := true, d := .vrun (f.mbits 6 4 + 1) true, a := .vs false false, b := .sp,
                       mod := decide (f.mbits 3 0 + f.mbits 6 4 + 1 ≤ 16) }
  | .rgnIn f | .rgnOut f => some { w := true, mod := f.m == 0 && decide (f.imm.toNat < 65536) }
  | .prog f => some { v := true, a := .si (some 7), mod := f.m == 0 }
  | .coll f => some { x := true, d := .sd false, a := .sp, mod := f.m == 0 && f.ebits 63 32 == 0 }
  | .collWait f => some { v := true, d := .sd false, b := if f.m = 1 then .unused else .si none, mod := decide (f.m.toNat ≤ 1) }
  | _ => none

/-- Whether an operand is a v register or an operand queue, the operands that carry a policy bit (R22, R33). -/
def Opnd.hasPol : Opnd → Bool
  | .v _ | .q _ => true
  | _ => false

/-- The role of B in this length: where IMM32 supplies it, the field is unused (R50). -/
def Sig.bRole (g : Sig) (f : Fields) : Role := if f.isW && !g.keepB then .unused else g.b

/-- The F bits are zero except over a v or queue source (R22, R33, R35). -/
def Sig.fOk (g : Sig) (f : Fields) : Bool :=
  (!f.pol.getLsbD 0 || (g.a.isVecSrc && f.a.hasPol) || g.fx.getLsbD 0) &&
  (!f.pol.getLsbD 1 || ((g.bRole f).isVecSrc && f.b.hasPol)) &&
  (!f.pol.getLsbD 2 || (if f.isW then g.dsrc && (g.d.isVecSrc && f.d.hasPol) else g.c.isVecSrc && f.c.hasPol))

/-- In X128, E64[40] is the policy of ST's data (R266). -/
def Sig.dfOk (g : Sig) (f : Fields) : Bool :=
  !(f.isX && g.dsrc && f.ext.getLsbD 40) || (g.d.isVecSrc && f.d.hasPol)

/-- The checks of R40 at step 3 on an instruction's fields. -/
def Sig.ok (g : Sig) (f : Fields) : Bool :=
  (match f.fmt with | .v64 => g.v | .w96 _ => g.w | .x128 _ => g.x) &&
  (f.isW || decide (f.m.toNat < 128)) &&
  g.mod && g.d.ok f.d && g.a.ok f.a && (g.bRole f).ok f.b && (if f.isW then f.c == .v 0 else g.c.ok f.c) &&
  g.fOk f && g.dfOk f

/-! ### The opcode map -/

/-- The sets of lengths of the opcode map: V64, W96, X128 (R49). -/
inductive Lengths where
  | v | w | x | vw | wx | vx
  deriving DecidableEq, Repr

def Lengths.has : Lengths → Fmt → Bool
  | .v, .v64 | .vw, .v64 | .vx, .v64 => true
  | .w, .w96 _ | .vw, .w96 _ | .wx, .w96 _ => true
  | .x, .x128 _ | .wx, .x128 _ | .vx, .x128 _ => true
  | _, _ => false

/-- Rows of the opcode map: first and last OP and the lengths at which they are assigned (R49). -/
def opLengths0 : List (Nat × Nat × Lengths) :=
  [(0x00, 0x00, .v), (0x01, 0x01, .vw), (0x02, 0x02, .v), (0x03, 0x06, .vw), (0x07, 0x07, .w),
   (0x08, 0x08, .v), (0x09, 0x09, .vw), (0x0a, 0x0a, .v), (0x0b, 0x0b, .w), (0x0c, 0x0d, .v),
   (0x0e, 0x0e, .w), (0x0f, 0x11, .v), (0x12, 0x13, .w), (0x14, 0x16, .v), (0x17, 0x1c, .vw),
   (0x1d, 0x1d, .v), (0x1e, 0x2e, .vw), (0x2f, 0x30, .v), (0x31, 0x31, .w), (0x32, 0x32, .vw),
   (0x33, 0x35, .v), (0x36, 0x36, .vw), (0x37, 0x37, .v), (0x40, 0x43, .vw), (0x44, 0x45, .v),
   (0x46, 0x4f, .vw), (0x50, 0x50, .v), (0x51, 0x51, .vw), (0x52, 0x52, .v), (0x53, 0x53, .vw),
   (0x54, 0x57, .v), (0x58, 0x59, .vw), (0x5a, 0x5a, .v), (0x60, 0x62, .vw), (0x63, 0x65, .v)]

/-- Rows of the opcode map: first and last OP and the lengths at which they are assigned (R49). -/
def opLengths1 : List (Nat × Nat × Lengths) :=
  [(0x70, 0x72, .vw), (0x73, 0x73, .v), (0x74, 0x76, .vw), (0x77, 0x78, .v), (0x79, 0x7b, .w),
   (0x7c, 0x7c, .vw), (0x7d, 0x85, .v), (0x86, 0x87, .w), (0x88, 0x8a, .v), (0x8b, 0x8c, .vw),
   (0x8d, 0x8d, .v), (0x8e, 0x8f, .vw), (0xa0, 0xa1, .wx), (0xa2, 0xa4, .vw), (0xa5, 0xa6, .w),
   (0xa7, 0xa7, .wx), (0xa8, 0xa9, .w), (0xaa, 0xaa, .v), (0xab, 0xab, .vw), (0xac, 0xad, .w),
   (0xae, 0xaf, .x), (0xb0, 0xb0, .v), (0xb1, 0xb1, .vw), (0xb2, 0xb2, .x), (0xb3, 0xb4, .v),
   (0xc0, 0xc0, .x), (0xc1, 0xc3, .v), (0xc4, 0xc4, .vw), (0xc5, 0xc6, .v), (0xc7, 0xc7, .vw),
   (0xc8, 0xc8, .v), (0xc9, 0xca, .vw), (0xcb, 0xcb, .v), (0xcc, 0xcc, .vw), (0xcd, 0xcd, .v)]

/-- Rows of the opcode map: first and last OP and the lengths at which they are assigned (R49). -/
def opLengths2 : List (Nat × Nat × Lengths) :=
  [(0xce, 0xce, .vw), (0xcf, 0xcf, .v), (0xd0, 0xd0, .w), (0xd1, 0xd1, .v), (0xd2, 0xd2, .vw),
   (0xd3, 0xd3, .wx), (0xd4, 0xd5, .x), (0xe0, 0xe1, .v), (0xe2, 0xe2, .vw), (0xe3, 0xe3, .vx),
   (0xe4, 0xe4, .v), (0xe5, 0xe5, .vx), (0xe6, 0xe6, .v), (0xe7, 0xe7, .vw), (0xf0, 0xf1, .w),
   (0xf2, 0xf3, .v), (0xf4, 0xf4, .vw), (0xf5, 0xf5, .x), (0xf6, 0xf6, .v)]

/-- The lengths at which an opcode is assigned; none where it is unassigned, in the emulation space or 0xFF (R49, R59). -/
def opLengths (op : Nat) : Option Lengths :=
  ((opLengths0 ++ opLengths1 ++ opLengths2).find? fun r => decide (r.1 ≤ op) && decide (op ≤ r.2.1)).map fun r => r.2.2

/-- The instruction that an opcode and its fields name (R49, R51); none where the opcode or its selector is not
assigned. -/
def Instr.ofOp (op : Nat) (f : Fields) : Option Instr :=
  match op with
  | 0x0 => some (.nop f)
  | 0x1 => some (.trap f)
  | 0x2 => some (.tret f)
  | 0x3 => some (.upcall f)
  | 0x4 => some (.sysRd f)
  | 0x5 => some (.sysWr f)
  | 0x6 => some (.sleep f)
  | 0x7 => some (.bra f)
  | 0x8 => some (.brx f)
  | 0x9 => some (.call f)
  | 0xa => some (.ret f)
  | 0xb => some (.brez f)
  | 0xc => some (.exit f)
  | 0xd => some (.rep f)
  | 0xe => some (.loopPin f)
  | 0xf => some (.loopEnd f)
  | 0x10 => some (.yield f)
  | 0x11 => match f.mbits 2 0 with | 0 => some (.kAnd f) | 1 => some (.kOr f) | 2 => some (.kXor f) | 3 => some (.kAndn f) | 4 => some (.kNot f) | 5 => some (.kMov f) | _ => none
  | 0x12 => some (.kLd f)
  | 0x13 => some (.kSt f)
  | 0x14 => some (.kPopc f)
  | 0x15 => some (.kFirst f)
  | 0x16 => match f.mbits 0 0 with | 0 => some (.kTestAny f) | 1 => some (.kTestAll f) | _ => none
  | 0x17 => some (.movxRd f)
  | 0x18 => some (.movxWr f)
  | 0x19 => some (.xset f)
  | 0x1a => some (.xadd f)
  | 0x1b => some (.regGrow f)
  | 0x1c => some (.regShrink f)
  | 0x1d => match f.mbits 0 0 with | 0 => some (.feWait f) | 1 => some (.feWaitAll f) | _ => none
  | 0x1e => some (.icInv f)
  | 0x1f => some (.grpInfo f)
  | 0x20 => some (.sAdd f)
  | 0x21 => some (.sSub f)
  | 0x22 => some (.sMul f)
  | 0x23 => some (.sMulh f)
  | 0x24 => some (.sAnd f)
  | 0x25 => some (.sOr f)
  | 0x26 => some (.sXor f)
  | 0x27 => some (.sAndn f)
  | 0x28 => some (.sShl f)
  | 0x29 => some (.sShr f)
  | 0x2a => some (.sSar f)
  | 0x2b => some (.sRot f)
  | 0x2c => some (.sMin f)
  | 0x2d => some (.sMax f)
  | 0x2e => some (.sCmp f)
  | 0x2f => some (.sSel f)
  | 0x30 => some (.sMov f)
  | 0x31 => some (.sMovi f)
  | 0x32 => some (.sBfe f)
  | 0x33 => some (.sBfi f)
  | 0x34 => some (.sPopc f)
  | 0x35 => some (.sClz f)
  | 0x36 => some (.sAdd64 f)
  | 0x37 => some (.cLop f)
  | 0x40 => some (.vAdd f)
  | 0x41 => some (.vSub f)
  | 0x42 => some (.vMul f)
  | 0x43 => some (.vMulh f)
  | 0x44 => some (.mad f)
  | 0x45 => some (.madw f)
  | 0x46 => some (.vAnd f)
  | 0x47 => some (.vOr f)
  | 0x48 => some (.vXor f)
  | 0x49 => some (.vAndn f)
  | 0x4a => some (.vShl f)
  | 0x4b => some (.vShr f)
  | 0x4c => some (.vSar f)
  | 0x4d => some (.vRot f)
  | 0x4e => some (.vMin f)
  | 0x4f => some (.vMax f)
  | 0x50 => some (.vAbs f)
  | 0x51 => some (.vCmp f)
  | 0x52 => some (.vSel f)
  | 0x53 => some (.vBfe f)
  | 0x54 => some (.vBfi f)
  | 0x55 => some (.vPopc f)
  | 0x56 => some (.vClz f)
  | 0x57 => some (.vBrev f)
  | 0x58 => some (.vAdd64 f)
  | 0x59 => some (.prmt f)
  | 0x5a => some (.dot4 f)
  | 0x60 => match f.mbits 5 4 with | 0 => some (.shflIdx f) | 1 => some (.shflXor f) | 2 => some (.shflUp f) | 3 => some (.shflDown f) | _ => none
  | 0x61 => some (.rdlane f)
  | 0x62 => some (.wrlane f)
  | 0x63 => some (.matchLanes f)
  | 0x64 => some (.redux f)
  | 0x65 => some (.scan f)
  | 0x70 => some (.fadd f)
  | 0x71 => some (.fsub f)
  | 0x72 => some (.fmul f)
  | 0x73 => some (.ffma f)
  | 0x74 => some (.fmin f)
  | 0x75 => some (.fmax f)
  | 0x76 => some (.fcmp f)
  | 0x77 => some (.fclass f)
  | 0x78 => some (.frnd f)
  | 0x79 => some (.fcvt f)
  | 0x7a => some (.f2i f)
  | 0x7b => some (.i2f f)
  | 0x7c => some (.fldexp f)
  | 0x7d => some (.ffrexp f)
  | 0x7e => some (.fexp2f f)
  | 0x7f => some (.flog2 f)
  | 0x80 => some (.frcp f)
  | 0x81 => some (.frsq f)
  | 0x82 => some (.fsqrt f)
  | 0x83 => some (.fsinr f)
  | 0x84 => some (.fcosr f)
  | 0x85 => some (.fdot2 f)
  | 0x86 => some (.fqni f)
  | 0x87 => some (.fdqni f)
  | 0x88 => some (.reduxF f)
  | 0x89 => some (.xaAdd f)
  | 0x8a => some (.xaRnd f)
  | 0x8b => some (.dadd f)
  | 0x8c => some (.dmul f)
  | 0x8d => some (.dfma f)
  | 0x8e => some (.dcmp f)
  | 0x8f => some (.dminmax f)
  | 0xa0 => some (.ld f)
  | 0xa1 => some (.st f)
  | 0xa2 => some (.ldS f)
  | 0xa3 => some (.stS f)
  | 0xa4 => some (.ldK f)
  | 0xa5 => some (.sLd f)
  | 0xa6 => some (.sSt f)
  | 0xa7 => some (.atom f)
  | 0xa8 => some (.atomS f)
  | 0xa9 => some (.red f)
  | 0xaa => some (.fence f)
  | 0xab => some (.acqRs f)
  | 0xac => some (.pref f)
  | 0xad => some (.discard f)
  | 0xae => some (.cpy f)
  | 0xaf => some (.cpyBox f)
  | 0xb0 => some (.cpyClose f)
  | 0xb1 => some (.cpyWait f)
  | 0xb2 => some (.strmDef f)
  | 0xb3 => some (.strmGo f)
  | 0xb4 => some (.strmStop f)
  | 0xc0 => some (.tileOpen f)
  | 0xc1 => some (.tileClose f)
  | 0xc2 => some (.tileAcq f)
  | 0xc3 => some (.tileRel f)
  | 0xc4 => some (.tileSplit f)
  | 0xc5 => some (.tileQry f)
  | 0xc6 => some (.pgProbe f)
  | 0xc7 => match f.mbits 0 0 with | 0 => some (.pgInvVa f) | 1 => some (.pgInvCtx f) | _ => none
  | 0xc8 => some (.pgSync f)
  | 0xc9 => match f.mbits 1 0 with | 0 => some (.bar f) | 1 => some (.barArv f) | 2 => some (.barWait f) | 3 => some (.barDev f) | _ => none
  | 0xca => some (.qpush f)
  | 0xcb => some (.qnotify f)
  | 0xcc => some (.spawn f)
  | 0xcd => match f.mbits 0 0 with | 0 => some (.join f) | 1 => some (.joinInc f) | _ => none
  | 0xce => some (.emit f)
  | 0xcf => some (.nodePop f)
  | 0xd0 => some (.mosRsv f)
  | 0xd1 => some (.mosRel f)
  | 0xd2 => some (.mosWr f)
  | 0xd3 => some (.mosFill f)
  | 0xd4 => some (.mma f)
  | 0xd5 => some (.mmaSp f)
  | 0xe0 => some (.rtBox f)
  | 0xe1 => match f.mbits 2 2 with | 0 => some (.rtTri f) | 1 => some (.rtTriReg f) | _ => none
  | 0xe2 => some (.rtTrace f)
  | 0xe3 => some (.texSmp f)
  | 0xe4 => some (.texLd f)
  | 0xe5 => some (.texGthr f)
  | 0xe6 => some (.recLd f)
  | 0xe7 => some (.cutGo f)
  | 0xf0 => some (.rgnIn f)
  | 0xf1 => some (.rgnOut f)
  | 0xf2 => some (.brk f)
  | 0xf3 => some (.prog f)
  | 0xf4 => some (.qpPost f)
  | 0xf5 => some (.coll f)
  | 0xf6 => some (.collWait f)
  | _ => none

/-- The opcode and the fields of a V64, W96 or X128 instruction (R49); none for a pair, an encoding that is no
instruction, and an event. -/
def Instr.opFields : Instr → Option (BitVec 8 × Fields)
  | .nop f => some (0x00, f)
  | .trap f => some (0x01, f)
  | .tret f => some (0x02, f)
  | .upcall f => some (0x03, f)
  | .sysRd f => some (0x04, f)
  | .sysWr f => some (0x05, f)
  | .sleep f => some (0x06, f)
  | .bra f => some (0x07, f)
  | .brx f => some (0x08, f)
  | .call f => some (0x09, f)
  | .ret f => some (0x0a, f)
  | .brez f => some (0x0b, f)
  | .exit f => some (0x0c, f)
  | .rep f => some (0x0d, f)
  | .loopPin f => some (0x0e, f)
  | .loopEnd f => some (0x0f, f)
  | .yield f => some (0x10, f)
  | .kAnd f => some (0x11, f)
  | .kOr f => some (0x11, f)
  | .kXor f => some (0x11, f)
  | .kAndn f => some (0x11, f)
  | .kNot f => some (0x11, f)
  | .kMov f => some (0x11, f)
  | .kLd f => some (0x12, f)
  | .kSt f => some (0x13, f)
  | .kPopc f => some (0x14, f)
  | .kFirst f => some (0x15, f)
  | .kTestAny f => some (0x16, f)
  | .kTestAll f => some (0x16, f)
  | .movxRd f => some (0x17, f)
  | .movxWr f => some (0x18, f)
  | .xset f => some (0x19, f)
  | .xadd f => some (0x1a, f)
  | .regGrow f => some (0x1b, f)
  | .regShrink f => some (0x1c, f)
  | .feWait f => some (0x1d, f)
  | .feWaitAll f => some (0x1d, f)
  | .icInv f => some (0x1e, f)
  | .grpInfo f => some (0x1f, f)
  | .sAdd f => some (0x20, f)
  | .sSub f => some (0x21, f)
  | .sMul f => some (0x22, f)
  | .sMulh f => some (0x23, f)
  | .sAnd f => some (0x24, f)
  | .sOr f => some (0x25, f)
  | .sXor f => some (0x26, f)
  | .sAndn f => some (0x27, f)
  | .sShl f => some (0x28, f)
  | .sShr f => some (0x29, f)
  | .sSar f => some (0x2a, f)
  | .sRot f => some (0x2b, f)
  | .sMin f => some (0x2c, f)
  | .sMax f => some (0x2d, f)
  | .sCmp f => some (0x2e, f)
  | .sSel f => some (0x2f, f)
  | .sMov f => some (0x30, f)
  | .sMovi f => some (0x31, f)
  | .sBfe f => some (0x32, f)
  | .sBfi f => some (0x33, f)
  | .sPopc f => some (0x34, f)
  | .sClz f => some (0x35, f)
  | .sAdd64 f => some (0x36, f)
  | .cLop f => some (0x37, f)
  | .vAdd f => some (0x40, f)
  | .vSub f => some (0x41, f)
  | .vMul f => some (0x42, f)
  | .vMulh f => some (0x43, f)
  | .mad f => some (0x44, f)
  | .madw f => some (0x45, f)
  | .vAnd f => some (0x46, f)
  | .vOr f => some (0x47, f)
  | .vXor f => some (0x48, f)
  | .vAndn f => some (0x49, f)
  | .vShl f => some (0x4a, f)
  | .vShr f => some (0x4b, f)
  | .vSar f => some (0x4c, f)
  | .vRot f => some (0x4d, f)
  | .vMin f => some (0x4e, f)
  | .vMax f => some (0x4f, f)
  | .vAbs f => some (0x50, f)
  | .vCmp f => some (0x51, f)
  | .vSel f => some (0x52, f)
  | .vBfe f => some (0x53, f)
  | .vBfi f => some (0x54, f)
  | .vPopc f => some (0x55, f)
  | .vClz f => some (0x56, f)
  | .vBrev f => some (0x57, f)
  | .vAdd64 f => some (0x58, f)
  | .prmt f => some (0x59, f)
  | .dot4 f => some (0x5a, f)
  | .shflIdx f => some (0x60, f)
  | .shflXor f => some (0x60, f)
  | .shflUp f => some (0x60, f)
  | .shflDown f => some (0x60, f)
  | .rdlane f => some (0x61, f)
  | .wrlane f => some (0x62, f)
  | .matchLanes f => some (0x63, f)
  | .redux f => some (0x64, f)
  | .scan f => some (0x65, f)
  | .fadd f => some (0x70, f)
  | .fsub f => some (0x71, f)
  | .fmul f => some (0x72, f)
  | .ffma f => some (0x73, f)
  | .fmin f => some (0x74, f)
  | .fmax f => some (0x75, f)
  | .fcmp f => some (0x76, f)
  | .fclass f => some (0x77, f)
  | .frnd f => some (0x78, f)
  | .fcvt f => some (0x79, f)
  | .f2i f => some (0x7a, f)
  | .i2f f => some (0x7b, f)
  | .fldexp f => some (0x7c, f)
  | .ffrexp f => some (0x7d, f)
  | .fexp2f f => some (0x7e, f)
  | .flog2 f => some (0x7f, f)
  | .frcp f => some (0x80, f)
  | .frsq f => some (0x81, f)
  | .fsqrt f => some (0x82, f)
  | .fsinr f => some (0x83, f)
  | .fcosr f => some (0x84, f)
  | .fdot2 f => some (0x85, f)
  | .fqni f => some (0x86, f)
  | .fdqni f => some (0x87, f)
  | .reduxF f => some (0x88, f)
  | .xaAdd f => some (0x89, f)
  | .xaRnd f => some (0x8a, f)
  | .dadd f => some (0x8b, f)
  | .dmul f => some (0x8c, f)
  | .dfma f => some (0x8d, f)
  | .dcmp f => some (0x8e, f)
  | .dminmax f => some (0x8f, f)
  | .ld f => some (0xa0, f)
  | .st f => some (0xa1, f)
  | .ldS f => some (0xa2, f)
  | .stS f => some (0xa3, f)
  | .ldK f => some (0xa4, f)
  | .sLd f => some (0xa5, f)
  | .sSt f => some (0xa6, f)
  | .atom f => some (0xa7, f)
  | .atomS f => some (0xa8, f)
  | .red f => some (0xa9, f)
  | .fence f => some (0xaa, f)
  | .acqRs f => some (0xab, f)
  | .pref f => some (0xac, f)
  | .discard f => some (0xad, f)
  | .cpy f => some (0xae, f)
  | .cpyBox f => some (0xaf, f)
  | .cpyClose f => some (0xb0, f)
  | .cpyWait f => some (0xb1, f)
  | .strmDef f => some (0xb2, f)
  | .strmGo f => some (0xb3, f)
  | .strmStop f => some (0xb4, f)
  | .tileOpen f => some (0xc0, f)
  | .tileClose f => some (0xc1, f)
  | .tileAcq f => some (0xc2, f)
  | .tileRel f => some (0xc3, f)
  | .tileSplit f => some (0xc4, f)
  | .tileQry f => some (0xc5, f)
  | .pgProbe f => some (0xc6, f)
  | .pgInvVa f => some (0xc7, f)
  | .pgInvCtx f => some (0xc7, f)
  | .pgSync f => some (0xc8, f)
  | .bar f => some (0xc9, f)
  | .barArv f => some (0xc9, f)
  | .barWait f => some (0xc9, f)
  | .barDev f => some (0xc9, f)
  | .qpush f => some (0xca, f)
  | .qnotify f => some (0xcb, f)
  | .spawn f => some (0xcc, f)
  | .join f => some (0xcd, f)
  | .joinInc f => some (0xcd, f)
  | .emit f => some (0xce, f)
  | .nodePop f => some (0xcf, f)
  | .mosRsv f => some (0xd0, f)
  | .mosRel f => some (0xd1, f)
  | .mosWr f => some (0xd2, f)
  | .mosFill f => some (0xd3, f)
  | .mma f => some (0xd4, f)
  | .mmaSp f => some (0xd5, f)
  | .rtBox f => some (0xe0, f)
  | .rtTri f => some (0xe1, f)
  | .rtTriReg f => some (0xe1, f)
  | .rtTrace f => some (0xe2, f)
  | .texSmp f => some (0xe3, f)
  | .texLd f => some (0xe4, f)
  | .texGthr f => some (0xe5, f)
  | .recLd f => some (0xe6, f)
  | .cutGo f => some (0xe7, f)
  | .rgnIn f => some (0xf0, f)
  | .rgnOut f => some (0xf1, f)
  | .brk f => some (0xf2, f)
  | .prog f => some (0xf3, f)
  | .qpPost f => some (0xf4, f)
  | .coll f => some (0xf5, f)
  | .collWait f => some (0xf6, f)
  | _ => none

/-! ### The pair maps -/

/-- The scalar pair map in SOP order (R52); SOP values beyond it are unassigned. -/
def sopMap : List SPairOp :=
  [.nop, .add, .sub, .mul, .mulhI, .mulhN, .and, .or, .xor, .andn, .shl, .shr, .sar, .rot, .minI, .minN,
   .maxI, .maxN, .mov, .addSatI, .subSatI, .addSatN, .subSatN, .popc, .clz]

/-- The vector pair map in VOP order (R53); VOP values beyond it are unassigned. -/
def vopMap : List VPairOp :=
  [.nop, .add, .sub, .mul, .mad, .and, .or, .xor, .andn, .shl, .shr, .sar, .minI, .minN, .maxI, .maxN,
   .faddF32, .fsubF32, .fmulF32, .ffmaF32, .fminF32, .fmaxF32, .faddF16, .fmulF16, .ffmaF16,
   .faddBf16, .fmulBf16, .ffmaBf16, .mov]

/-- The SOP value of an operation (R52). -/
def SPairOp.code (o : SPairOp) : Nat := sopMap.findIdx (· == o)
/-- The VOP value of an operation (R53). -/
def VPairOp.code (o : VPairOp) : Nat := vopMap.findIdx (· == o)

/-- The entries marked as three-source in R53, which read VD. -/
def VPairOp.three : VPairOp → Bool
  | .mad | .ffmaF32 | .ffmaF16 | .ffmaBf16 => true
  | _ => false

/-- The entries with integer operands, which reject a table constant (R53, R26). -/
def VPairOp.integer : VPairOp → Bool
  | .add | .sub | .mul | .mad | .and | .or | .xor | .andn | .shl | .shr | .sar | .minI | .minN | .maxI | .maxN => true
  | _ => false

/-- Whether the vector half reads a v register or a queue, so that F means something (R39 point 7). -/
def PairFields.readsPol (p : PairFields) : Bool :=
  match p.vop with
  | .nop => false
  | .mov => match p.vb with | .q _ => true | _ => false
  | _ => true

/-- The fields of a pair that R52, R53 and R39 require to be zero are zero, and VB is accepted. -/
def PairFields.ok (p : PairFields) : Bool :=
  (match p.sop with
   | .nop => p.sd == 0 && p.sa == 0 && p.sb == .s 0
   | .mov => p.sa == 0
   | .popc | .clz => p.sb == .s 0
   | _ => true) &&
  (match p.vop with
   | .nop => p.vd == 0 && p.va == 0 && p.vb == .o 0
   | .mov => p.va == 0
   | o => !o.integer || (match p.vb with | .fconst _ => false | _ => true)) &&
  (!p.pol || p.readsPol)

/-! ### Encodings that are no instruction -/

/-- The length in bytes that the first byte of an instruction gives (R18). -/
def lengthOf (b : Byte) : Nat :=
  match (b.extractLsb' 0 2).toNat with | 0 => 8 | 1 => 8 | 2 => 12 | _ => 16

/-- Check 2 of R40: an unassigned OP, SOP or VOP, or an OP at a length where it is not assigned. -/
def illegalBits (w : BitVec 128) : Bool :=
  let op := (w.extractLsb' 2 8).toNat
  match (w.extractLsb' 0 2).toNat with
  | 0 => !(match opLengths op with | some l => l.has .v64 | none => false)
  | 1 => decide (sopMap.length ≤ (w.extractLsb' 6 6).toNat) || decide (vopMap.length ≤ (w.extractLsb' 35 6).toNat)
  | 2 => !(match opLengths op with | some l => l.has (.w96 0) | none => false)
  | _ => !(match opLengths op with | some l => l.has (.x128 0) | none => false)

end Sys2Proof
end

