-- ==== Sys2Proof/Machine/Flags.lean ====
section
/-! DEFINITION. The floating-point flags of %fpflags (R67) and the condition and carry computations of the integer
instructions. -/

namespace Sys2Proof.Machine

/-- A set of flags, in the bit order of %fpflags[4:0] (R67). -/
abbrev FFlags := BitVec 5

/-- NV: invalid operation. -/
def flagNV : FFlags := 0b10000
/-- DZ: exact infinity from a finite operand. -/
def flagDZ : FFlags := 0b01000
/-- OF: rounded result beyond the largest finite value. -/
def flagOF : FFlags := 0b00100
/-- UF: tiny and inexact. -/
def flagUF : FFlags := 0b00010
/-- NX: inexact. -/
def flagNX : FFlags := 0b00001

/-- A flag when a condition holds. -/
def flagIf (b : Bool) (f : FFlags) : FFlags := if b then f else 0

/-- The OR of a list of flag sets (R64, R67). -/
def flagsOr (l : List FFlags) : FFlags := l.foldl (· ||| ·) 0

/-- The condition codes of CMP and S.CMP on integers (R176) once the operands are read in their type. -/
def intCond (sel : Nat) (a b : Int) : Bool :=
  match sel with
  | 0 => decide (a = b)
  | 1 => decide (a ≠ b)
  | 2 => decide (a < b)
  | 3 => decide (a ≤ b)
  | 4 => decide (a > b)
  | _ => decide (a ≥ b)

end Sys2Proof.Machine
end

