-- ==== Sys2Proof/Machine/IntAlu.lean ====
section
/-! DEFINITION. Integer arithmetic on one lane word or one scalar (spec/09_integer.md R169 to R183): values are raw
words, read in their type, computed exactly and written under R171. A 32-bit value stands in the low half of the
64-bit word that carries it. -/

namespace Sys2Proof.Machine

/-- Width in bits of an integer or bits type (R56). -/
def tyWidth (t : Nat) : Nat :=
  match t with
  | 0 => 8 | 4 => 8 | 1 => 16 | 5 => 16 | 3 => 64 | 7 => 64 | 9 => 64 | _ => 32

/-- Types read as signed (R169). -/
def tySigned (t : Nat) : Bool := decide (t ≤ 3)

/-- An element of w bits as an integer (R169). -/
def readInt (signed : Bool) (w x : Nat) : Int :=
  let x := x % 2 ^ w
  if signed && decide (2 ^ (w - 1) ≤ x) then (x : Int) - 2 ^ w else x

/-- R171: the exact result wrapped, or saturated under SAT. -/
def writeInt (sat signed : Bool) (w : Nat) (r : Int) : Nat :=
  let v := if sat then (if signed then satI w r else satN w r) else r
  (v % (2 ^ w : Nat)).toNat

/-- The two-source operations of R172. -/
inductive IntOp where
  | add | sub | mul | mulh | and | or | xor | andn | shl | shr | sar | rot | min | max
  deriving DecidableEq, Repr

/-- The exact result of R172 from the raw w-bit operands. -/
def IntOp.exact (o : IntOp) (signed : Bool) (w : Nat) (a b : Nat) : Int :=
  let x := readInt signed w a
  let y := readInt signed w b
  match o with
  | .add => x + y
  | .sub => x - y
  | .mul => x * y
  | .mulh => x * y / 2 ^ 32
  | .and => (a &&& b : Nat)
  | .or => (a ||| b : Nat)
  | .xor => (a ^^^ b : Nat)
  | .andn => (a &&& (b ^^^ (2 ^ w - 1)) : Nat)
  -- the count is natural in every type; a count of 64 or more acts as 64 does, with or without SAT
  | .shl => x * 2 ^ (Nat.min b 64)
  | .shr => (a / 2 ^ (Nat.min b 64) : Nat)
  | .sar => readInt true w a / 2 ^ (Nat.min b 31)
  | .rot => (a * 2 ^ (b % 32) % 2 ^ 32 + a / 2 ^ (32 - b % 32) : Nat)
  | .min => Min.min x y
  | .max => Max.max x y

/-- One operation over every element of a word (R170): `n` elements of w bits from the low end. -/
def mapElems2 (w : Nat) (f : Nat → Nat → Nat) : Nat → Nat → Nat → Nat
  | 0, _, _ => 0
  | n + 1, a, b => f (a % 2 ^ w) (b % 2 ^ w) + 2 ^ w * mapElems2 w f n (a / 2 ^ w) (b / 2 ^ w)

/-- Elements in an operand of a type. -/
def tyElems (t : Nat) : Nat := match tyWidth t with | 8 => 4 | 16 => 2 | _ => 1

/-- A two-source operation of a type on raw words (R172). -/
def intAlu2 (o : IntOp) (t : Nat) (sat : Bool) (a b : Word64) : Word64 :=
  let w := tyWidth t
  let sg := tySigned t
  BitVec.ofNat 64 (mapElems2 w (fun x y => writeInt sat sg w (o.exact sg w x y)) (tyElems t) a.toNat b.toNat)

/-- MAD (R173). -/
def intMad (t : Nat) (sat : Bool) (a b c : Word64) : Word64 :=
  let sg := tySigned t
  BitVec.ofNat 64 (writeInt sat sg 32 (readInt sg 32 a.toNat * readInt sg 32 b.toNat + readInt sg 32 c.toNat))

/-- MADW (R173): a and b of 32 bits, c and the result of 64. -/
def intMadw (t : Nat) (sat : Bool) (a b c : Word64) : Word64 :=
  let sg := tySigned t
  BitVec.ofNat 64 (writeInt sat sg 64 (readInt sg 32 a.toNat * readInt sg 32 b.toNat + readInt sg 64 c.toNat))

/-- ADD64 and S.ADD64 (R174). -/
def intAdd64 (t : Nat) (sat : Bool) (a b : Word64) : Word64 :=
  let sg := tySigned t
  BitVec.ofNat 64 (writeInt sat sg 64 (readInt sg 64 a.toNat + readInt sg 64 b.toNat))

/-- ABS (R175). -/
def intAbs (t : Nat) (sat : Bool) (a : Word64) : Word64 :=
  let w := tyWidth t
  BitVec.ofNat 64 (mapElems2 w (fun x _ => writeInt sat true w (readInt true w x).natAbs) (tyElems t) a.toNat 0)

/-- CMP and S.CMP (R176). -/
def intCmp (sel t : Nat) (a b : Word64) : Bool :=
  intCond sel (readInt (tySigned t) (tyWidth t) a.toNat) (readInt (tySigned t) (tyWidth t) b.toNat)

/-- p and q of R179 from a control word. -/
def fieldPos (ctl : Word64) : Nat := Nat.min (ctl.toNat % 256) 32
def fieldLen (ctl : Word64) : Nat := Nat.min (ctl.toNat / 256 % 256) (32 - fieldPos ctl)

/-- BFE and S.BFE (R179). -/
def intBfe (t : Nat) (a ctl : Word64) : Word64 :=
  let p := fieldPos ctl
  let q := fieldLen ctl
  if q = 0 then 0
  else
    let x := a.toNat % 2 ^ 32 / 2 ^ p % 2 ^ q
    BitVec.ofNat 64 (writeInt false true 32 (readInt (tySigned t) q x))

/-- BFI and S.BFI (R179). -/
def intBfi (a b ctl : Word64) : Word64 :=
  let p := fieldPos ctl
  let q := fieldLen ctl
  let x := b.toNat % 2 ^ 32
  BitVec.ofNat 64 (x % 2 ^ p + 2 ^ p * (a.toNat % 2 ^ q) + 2 ^ (p + q) * (x / 2 ^ (p + q)))

/-- The number of set bits of the low n bits. -/
def popcount : Nat → Nat → Nat
  | 0, _ => 0
  | n + 1, x => x % 2 + popcount n (x / 2)

/-- Leading zero bits of the low n bits (R180). -/
def leadingZeros (n x : Nat) : Nat := if x % 2 ^ n = 0 then n else n - 1 - (x % 2 ^ n).log2

/-- The low n bits in reverse order (R180). -/
def reverseBits : Nat → Nat → Nat
  | 0, _ => 0
  | n + 1, x => x % 2 * 2 ^ n + reverseBits n (x / 2)

def intPopc (t : Nat) (a : Word64) : Word64 := BitVec.ofNat 64 (popcount (tyWidth t) a.toNat)
def intClz (t : Nat) (a : Word64) : Word64 := BitVec.ofNat 64 (leadingZeros (tyWidth t) a.toNat)
def intBrev (a : Word64) : Word64 := BitVec.ofNat 64 (reverseBits 32 a.toNat)

/-- One result byte of PRMT (R182): the selector nibble s and x = cat(b, a). -/
def prmtByte (x s : Nat) : Nat :=
  let b := x / 2 ^ (8 * (s % 8)) % 256
  if s / 8 % 2 = 0 then b else if 128 ≤ b then 255 else 0

/-- PRMT (R182). -/
def intPrmt (a b sel : Word64) : Word64 :=
  let x := a.toNat % 2 ^ 32 + 2 ^ 32 * (b.toNat % 2 ^ 32)
  let s := sel.toNat
  BitVec.ofNat 64 (prmtByte x (s % 16) + 2 ^ 8 * prmtByte x (s / 16 % 16) + 2 ^ 16 * prmtByte x (s / 256 % 16) +
    2 ^ 24 * prmtByte x (s / 4096 % 16))

/-- The sum of the products of n byte pairs (R183). -/
def dotBytes (sa sb : Bool) : Nat → Nat → Nat → Int
  | 0, _, _ => 0
  | n + 1, a, b => readInt sa 8 a * readInt sb 8 b + dotBytes sa sb n (a / 256) (b / 256)

/-- DOT4 (R183). -/
def intDot4 (aNat bNat sat : Bool) (a b c : Word64) : Word64 :=
  let sg := !(aNat && bNat)
  BitVec.ofNat 64 (writeInt sat sg 32 (readInt sg 32 c.toNat + dotBytes (!aNat) (!bNat) 4 a.toNat b.toNat))

/-! ### Reductions (R188) -/

/-- The identity of a reduction operation. -/
def reduxIdentity (op t : Nat) : Word64 :=
  let w := tyWidth t
  BitVec.ofNat 64 (match op with
    | 2 => if tySigned t then 2 ^ (w - 1) - 1 else 2 ^ w - 1
    | 3 => if tySigned t then 2 ^ (w - 1) else 0
    | 4 => 2 ^ w - 1
    | _ => 0)

/-- One combination (R188). -/
def reduxOp (op t : Nat) (a b : Word64) : Word64 :=
  match op with
  | 2 => intAlu2 .min t false a b
  | 3 => intAlu2 .max t false a b
  | 4 => a &&& b
  | 5 => a ||| b
  | 6 => a ^^^ b
  | _ => intAlu2 .add t false a b

end Sys2Proof.Machine
end

