-- ==== Sys2Proof/Machine/Float.lean ====
section
/-! DEFINITION. Floating-point values, exact results and their one rounding (spec/04_numbers.md R63 to R76): a finite
value is an exact ratio of natural numbers with a sign, and every operation computes exactly and rounds once. -/

namespace Sys2Proof.Machine

/-- The floating-point formats of R63. -/
inductive FFmt where
  | f16 | bf16 | f32 | f64
  deriving DecidableEq, Repr, Inhabited

/-- Fraction bits (R63). -/
def FFmt.fb : FFmt → Nat | .f16 => 10 | .bf16 => 7 | .f32 => 23 | .f64 => 52
/-- Exponent bits (R63). -/
def FFmt.eb : FFmt → Nat | .f16 => 5 | .bf16 => 8 | .f32 => 8 | .f64 => 11
def FFmt.width (f : FFmt) : Nat := 1 + f.eb + f.fb
/-- The exponent bias (R63). -/
def FFmt.bias (f : FFmt) : Nat := 2 ^ (f.eb - 1) - 1
/-- The magnitude bits of infinity. -/
def FFmt.infMag (f : FFmt) : Nat := (2 ^ f.eb - 1) * 2 ^ f.fb
/-- The canonical quiet NaN (R63). -/
def FFmt.nan (f : FFmt) : Word64 := BitVec.ofNat 64 (f.infMag + 2 ^ (f.fb - 1))
/-- A sign and a magnitude as bits of the format. -/
def FFmt.pack (f : FFmt) (neg : Bool) (mag : Nat) : Word64 :=
  BitVec.ofNat 64 ((if neg then 2 ^ (f.width - 1) else 0) + mag)
def FFmt.inf (f : FFmt) (neg : Bool) : Word64 := f.pack neg f.infMag
def FFmt.zero (f : FFmt) (neg : Bool) : Word64 := f.pack neg 0

/-- The format of a type code (R56). -/
def FFmt.ofTy (t : Nat) : FFmt := if t = 0xA then .f16 else if t = 0xB then .bf16 else if t = 0xD then .f64 else .f32

/-- The value of a bit pattern: a NaN (signalling or not), an infinity, or a finite value `num / den` with its sign,
zeros included. -/
inductive FVal where
  | nan (signalling : Bool)
  | inf (neg : Bool)
  | fin (neg : Bool) (num den : Nat)
  deriving DecidableEq, Repr, Inhabited

def FVal.isNan : FVal → Bool | .nan _ => true | _ => false
def FVal.isSnan : FVal → Bool | .nan s => s | _ => false
def FVal.isInf : FVal → Bool | .inf _ => true | _ => false
def FVal.isZero : FVal → Bool | .fin _ n _ => n == 0 | _ => false
def FVal.neg : FVal → Bool | .nan _ => false | .inf s => s | .fin s _ _ => s
/-- The value with its sign changed; a NaN stays what it is. -/
def FVal.negate : FVal → FVal | .nan s => .nan s | .inf s => .inf (!s) | .fin s n d => .fin (!s) n d

/-- The value of the low `width` bits of a word (R63). -/
def unpack (f : FFmt) (w : Word64) : FVal :=
  let x := w.toNat % 2 ^ f.width
  let neg := decide (2 ^ (f.width - 1) ≤ x)
  let mag := x % 2 ^ (f.width - 1)
  let e := mag / 2 ^ f.fb
  let m := mag % 2 ^ f.fb
  if e = 2 ^ f.eb - 1 then
    if m = 0 then .inf neg else .nan (decide (m < 2 ^ (f.fb - 1)))
  else
    -- weight of the last bit is 2^(max e 1 - bias - fb)
    let sig := if e = 0 then m else m + 2 ^ f.fb
    let sh := max e 1
    let k := f.bias + f.fb
    if k ≤ sh then .fin neg (sig * 2 ^ (sh - k)) 1 else .fin neg sig (2 ^ (k - sh))

/-! ### Rounding -/

/-- How a value is rounded (R57, R69); under SR with the lane's random value U (R72). -/
inductive Rnd where
  | rne | rtz | rup | rdn | rna
  | sr (u : BitVec 16)
  deriving DecidableEq, Repr, Inhabited

/-- The rounding of a code 0 to 4 (R57). -/
def Rnd.ofCode : Nat → Rnd | 0 => .rne | 1 => .rtz | 2 => .rup | 3 => .rdn | _ => .rna

/-- Whether a magnitude `N + r/d`, with r < d, rounds to N + 1 (R69, R73). -/
def Rnd.up (m : Rnd) (neg odd : Bool) (r d : Nat) : Bool :=
  match m with
  | .rne => decide (d < 2 * r) || (decide (2 * r = d) && odd)
  | .rtz => false
  | .rup => !neg && decide (0 < r)
  | .rdn => neg && decide (0 < r)
  | .rna => decide (d ≤ 2 * r) && decide (0 < r)
  | .sr u => decide (2 ^ 16 ≤ r * 2 ^ 16 / d + u.toNat)

/-- n * 2^e / d as a quotient and remainder: (q, r, d') with the value q + r/d'. -/
def scaledDiv (n d : Nat) (e : Int) : Nat × Nat × Nat :=
  match e with
  | .ofNat k => (n * 2 ^ k / d, n * 2 ^ k % d, d)
  | .negSucc k => (n / (d * 2 ^ (k + 1)), n % (d * 2 ^ (k + 1)), d * 2 ^ (k + 1))

/-- floor(log2 (n / d)) for positive n and d. -/
def ilog2 (n d : Nat) : Int :=
  let g : Int := (n.log2 : Int) - (d.log2 : Int)
  -- n / d lies in (2^(g - 1), 2^(g + 1))
  let ge := match g with
    | .ofNat k => decide (d * 2 ^ k ≤ n)
    | .negSucc k => decide (d ≤ n * 2 ^ (k + 1))
  if ge then g else g - 1

/-- Rounds a positive magnitude to a grid whose last place has weight 2^q: the integer in units of 2^q and whether
anything was lost. -/
def roundGrid (m : Rnd) (neg : Bool) (n d : Nat) (q : Int) : Nat × Bool :=
  let (t, r, d') := scaledDiv n d (-q)
  (if m.up neg (t % 2 == 1) r d' then t + 1 else t, decide (r ≠ 0))

/-- Round(x, fmt, mode) of a nonzero finite value with its flags: overflow under R69, tininess under R66. -/
def roundMag (f : FFmt) (m : Rnd) (neg : Bool) (n d : Nat) : Word64 × FFlags :=
  let e := ilog2 n d
  let emin : Int := 1 - (f.bias : Int)
  let q := max e emin - (f.fb : Int)
  let (t, inexact) := roundGrid m neg n d q
  let mag := ((q - (emin - (f.fb : Int))).toNat) * 2 ^ f.fb + t
  if f.infMag ≤ mag then
    let toInf := match m with
      | .rtz => false
      | .rup => !neg
      | .rdn => neg
      | _ => true
    (if toInf then f.inf neg else f.pack neg (f.infMag - 1), flagOF ||| flagNX)
  else
    -- the same rounding on the grid that has no lower exponent limit
    let (tu, _) := roundGrid m neg n d (e - (f.fb : Int))
    let tiny := decide (e < emin) && !(decide (e + 1 = emin) && decide (tu = 2 ^ (f.fb + 1)))
    (f.pack neg mag, flagIf inexact flagNX ||| flagIf (inexact && tiny) flagUF)

/-- An exact result before rounding: a NaN (with NV or not), an infinity, a zero of a given sign, or a nonzero
rational. -/
inductive FExact where
  | nan (nv : Bool)
  | inf (neg : Bool)
  | zero (neg : Bool)
  | val (neg : Bool) (num den : Nat)
  deriving DecidableEq, Repr, Inhabited

/-- Rounds an exact result to a format (R65, R66, R69). -/
def FExact.round (x : FExact) (f : FFmt) (m : Rnd) : Word64 × FFlags :=
  match x with
  | .nan nv => (f.nan, flagIf nv flagNV)
  | .inf s => (f.inf s, 0)
  | .zero s => (f.zero s, 0)
  | .val s n d => roundMag f m s n d

/-- The exact result of a value on its own, as a conversion rounds it. -/
def FVal.exact : FVal → FExact
  | .nan s => .nan s
  | .inf s => .inf s
  | .fin s n d => if n = 0 then .zero s else .val s n d

/-- The signed numerator over a denominator. -/
def sgn (neg : Bool) (n : Nat) : Int := if neg then -(n : Int) else n

/-- An exact rational as a result; a zero takes the sign given. -/
def FExact.ofRat (zneg : Bool) (n : Int) (d : Nat) : FExact :=
  if n = 0 then .zero zneg else .val (decide (n < 0)) n.natAbs d

/-- a + b exactly, with the zero's sign of R66 and the NaN rules of R194. -/
def exactAdd (m : Rnd) (a b : FVal) : FExact :=
  match a, b with
  | .nan s, y => .nan (s || y.isSnan)
  | _, .nan s => .nan s
  | .inf s, .inf t => if s = t then .inf s else .nan true
  | .inf s, _ => .inf s
  | _, .inf t => .inf t
  | .fin s n d, .fin t p q =>
    .ofRat (if s = t then s else decide (m = .rdn)) (sgn s n * q + sgn t p * d) (d * q)

/-- a × b exactly (R194). -/
def exactMul (a b : FVal) : FExact :=
  match a, b with
  | .nan s, y => .nan (s || y.isSnan)
  | _, .nan s => .nan s
  | .inf s, y => if y.isZero then .nan true else .inf (s ^^ y.neg)
  | x, .inf t => if x.isZero then .nan true else .inf (x.neg ^^ t)
  | .fin s n d, .fin t p q => .ofRat (s ^^ t) (sgn s n * sgn t p) (d * q)

/-- a × b + c exactly (R194): 0 × infinity raises NV whatever c is. -/
def exactFma (m : Rnd) (a b c : FVal) : FExact :=
  if (a.isZero && b.isInf) || (a.isInf && b.isZero) then .nan true
  else if a.isNan || b.isNan || c.isNan then .nan (a.isSnan || b.isSnan || c.isSnan)
  else match exactMul a b with
    | .nan nv => .nan nv
    | .inf s => (match c with | .inf t => if s = t then .inf s else .nan true | _ => .inf s)
    | .zero s => exactAdd m (.fin s 0 1) c
    | .val s n d => exactAdd m (.fin s n d) c

/-! ### Element operations of one format -/

/-- FADD, DADD (R194, R199). -/
def fpAdd (f : FFmt) (m : Rnd) (a b : Word64) : Word64 × FFlags := (exactAdd m (unpack f a) (unpack f b)).round f m
/-- FSUB (R194). -/
def fpSub (f : FFmt) (m : Rnd) (a b : Word64) : Word64 × FFlags :=
  (exactAdd m (unpack f a) (unpack f b).negate).round f m
/-- FMUL, DMUL (R194, R199). -/
def fpMul (f : FFmt) (m : Rnd) (a b : Word64) : Word64 × FFlags := (exactMul (unpack f a) (unpack f b)).round f m
/-- FFMA, DFMA (R194, R199). -/
def fpFma (f : FFmt) (m : Rnd) (a b c : Word64) : Word64 × FFlags :=
  (exactFma m (unpack f a) (unpack f b) (unpack f c)).round f m

/-- a < b on values that are not NaN; zeros are equal (R196). -/
def FVal.lt : FVal → FVal → Bool
  | .nan _, _ => false
  | _, .nan _ => false
  | .inf s, .inf t => s && !t
  | .inf s, .fin _ _ _ => s
  | .fin _ _ _, .inf t => !t
  | .fin s n d, .fin t p q => decide (sgn s n * q < sgn t p * d)

/-- FMIN (`wantMax` false) and FMAX, DMINMAX (R65, R195): −0 is below +0. -/
def fpMinMax (f : FFmt) (wantMax : Bool) (a b : Word64) : Word64 × FFlags :=
  let x := unpack f a
  let y := unpack f b
  let nv := flagIf (x.isSnan || y.isSnan) flagNV
  let bits := fun w : Word64 => BitVec.ofNat 64 (w.toNat % 2 ^ f.width)
  match x.isNan, y.isNan with
  | true, true => (f.nan, nv)
  | true, false => (bits b, nv)
  | false, true => (bits a, nv)
  | false, false =>
    let aLess := x.lt y || (!y.lt x && x.neg && !y.neg)
    (if aLess != wantMax then bits a else bits b, 0)

/-- The conditions of R196: the truth and the NV flag. -/
def fpCond (f : FFmt) (sel : Nat) (a b : Word64) : Bool × FFlags :=
  let x := unpack f a
  let y := unpack f b
  let un := x.isNan || y.isNan
  let snan := x.isSnan || y.isSnan
  let lt := x.lt y
  let gt := y.lt x
  let eq := !un && !lt && !gt
  match sel with
  | 0 => (eq, flagIf snan flagNV)
  | 1 => (!eq, flagIf snan flagNV)
  | 2 => (lt, flagIf un flagNV)
  | 3 => (lt || eq, flagIf un flagNV)
  | 4 => (gt, flagIf un flagNV)
  | 5 => (gt || eq, flagIf un flagNV)
  | _ => (un, flagIf snan flagNV)

/-- The class mask of R197. -/
def fpClass (f : FFmt) (a : Word64) : Nat :=
  let sub := fun (n d : Nat) => decide (n * 2 ^ (f.bias - 1) < d)
  match unpack f a with
  | .inf true => 1
  | .inf false => 2 ^ 7
  | .nan true => 2 ^ 8
  | .nan false => 2 ^ 9
  | .fin s n d =>
    if n = 0 then (if s then 2 ^ 3 else 2 ^ 4)
    else if sub n d then (if s then 2 ^ 2 else 2 ^ 5)
    else (if s then 2 ^ 1 else 2 ^ 6)

/-- A positive or zero magnitude rounded to an integer (R75, R198). -/
def roundInt (m : Rnd) (neg : Bool) (n d : Nat) : Nat × Bool := roundGrid m neg n d 0

/-- FRND (R198): an integral value of the same format, NV the only flag. -/
def fpRnd (f : FFmt) (m : Rnd) (a : Word64) : Word64 × FFlags :=
  match unpack f a with
  | .nan s => (f.nan, flagIf s flagNV)
  | .inf s => (f.inf s, 0)
  | .fin s n d =>
    let t := (roundInt m s n d).1
    if t = 0 then (f.zero s, 0) else ((roundMag f .rne s t 1).1, 0)

/-- Conversion between formats (R74, R201). -/
def fpCvt (src dst : FFmt) (m : Rnd) (a : Word64) : Word64 × FFlags := (unpack src a).exact.round dst m

/-- F2I (R75) to a width in bits, signed or natural; the result is the clamped integer. -/
def fpToInt (src : FFmt) (signed : Bool) (w : Nat) (m : Rnd) (a : Word64) : Int × FFlags :=
  let clamp := fun x : Int => if signed then satI w x else satN w x
  let top : Int := if signed then 2 ^ (w - 1) - 1 else 2 ^ w - 1
  let bot : Int := if signed then -(2 ^ (w - 1)) else 0
  match unpack src a with
  | .nan _ => (0, flagNV)
  | .inf s => (if s then bot else top, flagNV)
  | .fin s n d =>
    let (t, inexact) := roundInt m s n d
    let x := sgn s t
    if clamp x = x then (x, flagIf inexact flagNX) else (clamp x, flagNV)

/-- I2F (R76). -/
def fpOfInt (dst : FFmt) (m : Rnd) (x : Int) : Word64 × FFlags := (FExact.ofRat false x 1).round dst m

/-- FLDEXP (R92, R204). -/
def fpLdexp (f : FFmt) (a : Word64) (b : Int) : Word64 × FFlags :=
  match unpack f a with
  | .nan s => (f.nan, flagIf s flagNV)
  | .inf s => (f.inf s, 0)
  | .fin s n d =>
    if n = 0 then (f.zero s, 0)
    else
      -- beyond ±5,000 every nonzero finite value of every format overflows or rounds to zero
      let b := max (-5000) (min b 5000)
      if 0 ≤ b then roundMag f .rne s (n * 2 ^ b.toNat) d else roundMag f .rne s n (d * 2 ^ (-b).toNat)

/-- FFREXP.mant (R205). -/
def fpMant (f : FFmt) (a : Word64) : Word64 × FFlags :=
  match unpack f a with
  | .nan s => (f.nan, flagIf s flagNV)
  | .inf s => (f.inf s, 0)
  | .fin s n d =>
    if n = 0 then (f.zero s, 0)
    else
      let x := ilog2 n d + 1
      let (t, _, _) := scaledDiv n d ((f.fb + 1 : Nat) - x)
      ((roundMag f .rne s t (2 ^ (f.fb + 1))).1, 0)

/-- FFREXP.exp (R205). -/
def fpExp (f : FFmt) (a : Word64) : Int :=
  match unpack f a with
  | .fin _ n d => if n = 0 then 0 else ilog2 n d + 1
  | _ => 0

/-- floor(sqrt n), one binary digit at a time from the digit of weight 2^k down. -/
def isqrtAux : Nat → Nat → Nat → Nat
  | 0, acc, n => if (acc + 1) * (acc + 1) ≤ n then acc + 1 else acc
  | k + 1, acc, n =>
    let t := acc + 2 ^ (k + 1)
    isqrtAux k (if t * t ≤ n then t else acc) n

def isqrt (n : Nat) : Nat := isqrtAux (n.log2 / 2 + 1) 0 n

/-- FSQRT (R92, R206), correctly rounded: a root that is not exact is replaced by a value strictly between the same
two numbers of 2^-80 relative spacing, which rounds as the root does. -/
def fpSqrt (f : FFmt) (m : Rnd) (a : Word64) : Word64 × FFlags :=
  match unpack f a with
  | .nan s => (f.nan, flagIf s flagNV)
  | .inf s => if s then (f.nan, flagNV) else (f.inf false, 0)
  | .fin s n d =>
    if n = 0 then (f.zero s, 0)
    else if s then (f.nan, flagNV)
    else
      -- sqrt (n / d) = sqrt (n * d) / d
      let x := n * d * 2 ^ 320
      let r := isqrt x
      if r * r = x then roundMag f m false r (d * 2 ^ 160) else roundMag f m false (2 * r + 1) (d * 2 ^ 161)

/-- The low or high 16-bit element of a packed word (R64). -/
def elem16 (e : Nat) (w : Word64) : Word64 := BitVec.ofNat 64 (w.toNat / 2 ^ (16 * e) % 2 ^ 16)

/-- Two 16-bit elements in a word (R64). -/
def pack16 (e0 e1 : Word64) : Word64 := BitVec.ofNat 64 (e0.toNat % 2 ^ 16 + 2 ^ 16 * (e1.toNat % 2 ^ 16))

/-- Applies an element operation to a lane word: to both halves of a packed type, and to the word otherwise (R64). -/
def packed1 (f : FFmt) (op : Word64 → Word64 × FFlags) (a : Word64) : Word64 × FFlags :=
  match f with
  | .f16 | .bf16 =>
    let x := op (elem16 0 a)
    let y := op (elem16 1 a)
    (pack16 x.1 y.1, x.2 ||| y.2)
  | _ => op a

def packed2 (f : FFmt) (op : Word64 → Word64 → Word64 × FFlags) (a b : Word64) : Word64 × FFlags :=
  match f with
  | .f16 | .bf16 =>
    let x := op (elem16 0 a) (elem16 0 b)
    let y := op (elem16 1 a) (elem16 1 b)
    (pack16 x.1 y.1, x.2 ||| y.2)
  | _ => op a b

def packed3 (f : FFmt) (op : Word64 → Word64 → Word64 → Word64 × FFlags) (a b c : Word64) : Word64 × FFlags :=
  match f with
  | .f16 | .bf16 =>
    let x := op (elem16 0 a) (elem16 0 b) (elem16 0 c)
    let y := op (elem16 1 a) (elem16 1 b) (elem16 1 c)
    (pack16 x.1 y.1, x.2 ||| y.2)
  | _ => op a b c

/-- FCMP with a packed type: the condition in both elements (R196). -/
def fpCondPacked (f : FFmt) (sel : Nat) (a b : Word64) : Bool × FFlags :=
  match f with
  | .f16 | .bf16 =>
    let x := fpCond f sel (elem16 0 a) (elem16 0 b)
    let y := fpCond f sel (elem16 1 a) (elem16 1 b)
    (x.1 && y.1, x.2 ||| y.2)
  | _ => fpCond f sel a b

/-- FCLASS of a lane word (R197). -/
def fpClassPacked (f : FFmt) (a : Word64) : Word64 :=
  match f with
  | .f16 | .bf16 => BitVec.ofNat 64 (fpClass f (elem16 0 a) + 2 ^ 16 * fpClass f (elem16 1 a))
  | _ => BitVec.ofNat 64 (fpClass f a)

/-! ### Exact sums of products (R85, R208) -/

/-- The exact sum of a list of products and a last term, before the one rounding (R85): a NaN operand or 0 × infinity
gives NaN, with NV for 0 × infinity or a signalling input; infinite terms of both signs give NaN with NV, beside a NaN
operand too. A sum of
zeros that all have one sign keeps it; another zero sum takes the sign of R66. -/
def exactDot (m : Rnd) (ps : List (FVal × FVal)) (c : FVal) : FExact :=
  let terms := ps.map (fun p => exactMul p.1 p.2) ++ [c.exact]
  let pinf := terms.any (fun t => t == .inf false)
  let ninf := terms.any (fun t => t == .inf true)
  let nv := ps.any (fun p => p.1.isSnan || p.2.isSnan || (p.1.isZero && p.2.isInf) || (p.1.isInf && p.2.isZero)) || c.isSnan ||
    (pinf && ninf)
  let nan := ps.any (fun p => p.1.isNan || p.2.isNan) || c.isNan
  if nan || nv then .nan nv
  else
    if pinf then .inf false
    else if ninf then .inf true
    else
      let sum := terms.foldl (fun (acc : Int × Nat) t =>
        match t with
        | .val s n d => (acc.1 * d + sgn s n * acc.2, acc.2 * d)
        | _ => acc) (0, 1)
      let allNeg := terms.all (fun t => t == .zero true)
      let anyNeg := terms.any (fun t => match t with | .zero s => s | .val s _ _ => s | _ => false)
      .ofRat (allNeg || (anyNeg && decide (m = .rdn))) sum.1 sum.2

/-- FDOT2 (R208): a0 × b0 + a1 × b1 + c, c and the result FP32. -/
def fpDot2 (f : FFmt) (m : Rnd) (a b c : Word64) : Word64 × FFlags :=
  (exactDot m [(unpack f (elem16 0 a), unpack f (elem16 0 b)), (unpack f (elem16 1 a), unpack f (elem16 1 b))]
    (unpack .f32 c)).round .f32 m

/-! ### Nested integers (R77 to R81) -/

/-- floor(n / d) for an integer n and a positive d. -/
def ifloor (n : Int) (d : Nat) : Int := n / (d : Int)
def iceil (n : Int) (d : Nat) : Int := -((-n) / (d : Int))

/-- FQNI of one value (R80, R209): the NI8 code and the flags. A NaN or infinite x raises NV alone: it has no y, of which
NX could say that it is not exactly a level (DESIGN CHOICE, log 50). -/
def fqniCode (m : Rnd) (x : Word64) (e : Nat) : Int × FFlags :=
  if e = 255 then (0, flagNV)
  else match unpack .f32 x with
  | .nan _ => (0, flagNV)
  | .inf s => (if s then -128 else 127, flagNV)
  | .fin s n d =>
    -- z = y - 1/2 with y = x * 2^(127 - e), as zn / zd
    let yn : Int := sgn s (n * 2 ^ (254 - e) : Nat)
    let yd : Nat := d * 2 ^ 127
    let zn : Int := 2 * yn - (yd : Int)
    let zd : Nat := 2 * yd
    let fl := ifloor zn zd
    let r : Nat := (zn - fl * (zd : Int)).toNat
    let q := match m with
      | .rne => if 2 * r < zd then fl else if zd < 2 * r then fl + 1 else if fl % 2 = 0 then fl else fl + 1
      | .rup => iceil zn zd
      | .rdn => fl
      | .rtz => if s then min (iceil zn zd) (-1) else max fl 0
      | .rna => if 2 * r < zd then fl else if zd < 2 * r then fl + 1 else if s then fl else fl + 1
      | .sr u => if 2 ^ 16 ≤ r * 2 ^ 16 / zd + u.toNat then fl + 1 else fl
    let qc := max (-128) (min q 127)
    (qc, flagIf (decide (qc ≠ q)) flagNV ||| flagIf (decide (r ≠ 0) || decide (qc ≠ q)) flagNX)

/-- The odd number 2t + 1 of a code read through k planes (R77), and the element value is this × 2^(7 - k). -/
def niOdd (q : Int) (k : Nat) : Int := 2 * ifloor q (2 ^ (8 - k)) + 1

/-- FDQNI of one code (R81, R210). -/
def fdqniVal (q : Int) (k e : Nat) (present : Bool) : Word64 × FFlags :=
  if !present then (0, 0)
  else if e = 255 then (FFmt.f32.nan, 0)
  else
    let v := niOdd q k
    let r := roundMag .f32 .rne (decide (v < 0)) (v.natAbs * 2 ^ e) (2 ^ (120 + k))
    (r.1, if r.2.getLsbD 2 then flagOF else 0)

/-! ### The exact accumulator XA256 (R82 to R84) -/

/-- An accumulator of 256 bits. -/
abbrev XA := BitVec 256

def xaVal (a : XA) : Int := (a.extractLsb' 0 248).toInt
/-- Whether an exact sum lies in the range of VAL (R82). -/
def xaInRange (x : Int) : Bool := decide (-(2 ^ 247) ≤ x) && decide (x < 2 ^ 247)
/-- NINF, PINF, NAN and OVF above VAL, bits [255:252] zero. -/
def xaMake (ninf pinf nan ovf : Bool) (v : Int) : XA :=
  0#4 ++ BitVec.ofBool ninf ++ BitVec.ofBool pinf ++ BitVec.ofBool nan ++ BitVec.ofBool ovf ++ BitVec.ofInt 248 v

/-- Adding an FP32 value (R83). -/
def xaAdd (a : XA) (x : Word64) : XA :=
  let ninf := a.getLsbD 251; let pinf := a.getLsbD 250; let nan := a.getLsbD 249; let ovf := a.getLsbD 248
  match unpack .f32 x with
  | .nan _ => xaMake ninf pinf true ovf (xaVal a)
  | .inf s => xaMake (ninf || s) (pinf || !s) nan ovf (xaVal a)
  | .fin s n d =>
    let t := sgn s (n * 2 ^ 149 / d : Nat)
    let sum := xaVal a + t
    xaMake ninf pinf nan (ovf || decide (2 ^ 98 * d ≤ n) || !xaInRange sum) sum

/-- Adding two accumulators (R83). -/
def xaAddXa (a b : XA) : XA :=
  let sum := xaVal a + xaVal b
  xaMake (a.getLsbD 251 || b.getLsbD 251) (a.getLsbD 250 || b.getLsbD 250) (a.getLsbD 249 || b.getLsbD 249)
    (a.getLsbD 248 || b.getLsbD 248 || !xaInRange sum) sum

/-- XA.RND (R84). -/
def xaRound (a : XA) : Word64 × FFlags :=
  let ninf := a.getLsbD 251; let pinf := a.getLsbD 250
  if a.getLsbD 249 || (pinf && ninf) then (FFmt.f32.nan, flagIf (pinf && ninf) flagNV)
  else if pinf then (FFmt.f32.inf false, 0)
  else if ninf then (FFmt.f32.inf true, 0)
  else if a.getLsbD 248 then (FFmt.f32.inf (a.getLsbD 247), flagOF ||| flagNX)
  else (FExact.ofRat false (xaVal a) (2 ^ 149)).round .f32 .rne

/-! ### Stochastic rounding (R70 to R72) -/

/-- Next(x) of R71. -/
def xorshift64 (x : Word64) : Word64 :=
  let x := x ^^^ (x <<< 13)
  let x := x ^^^ (x >>> 7)
  x ^^^ (x <<< 17)

/-- The random value of lane position p in a pass whose state is S (R72). -/
def srWindow (s : Word64) (p : Nat) : BitVec 16 := (s.rotateLeft (2 * p)).extractLsb' 48 16

/-- The random value of a lane, from the generator state before the instruction (R71, R72). -/
def srLane (seed : Word64) (lane : Nat) : BitVec 16 :=
  let s1 := xorshift64 seed
  let s := if lane < 32 then s1 else if lane < 64 then xorshift64 s1 else xorshift64 (xorshift64 s1)
  srWindow s (lane % 32)

/-- The generator state after an SR instruction (R71). -/
def srAdvance (seed : Word64) : Word64 := xorshift64 (xorshift64 (xorshift64 seed))

end Sys2Proof.Machine
end

