-- ==== Sys2Proof/Config.lean ====
section
/-! DEFINITION. What the manual leaves open, as opaque constants without a body, and the fixed numbers of the part.
Nothing can evaluate an opaque constant or prove a value of it; notes/assumptions names the log entry of each. -/

namespace Sys2Proof

/-! ### Open values -/

/-- The A1 bits of the special functions where the manual gives only a bound (R92, R206): functions of the operand
alone. The model uses a value only where it lies within the bound (log 10). -/
opaque Config.fexp2f : Word → Word
opaque Config.flog2 : Word → Word
opaque Config.frcp : Word → Word
opaque Config.frsq : Word → Word
opaque Config.fsinr : Word → Word
opaque Config.fcosr : Word → Word

/-- The home slice of a physical address (R8, R296): one of 64, as the firmware reports and the manual does not give
(log 13). -/
opaque Config.homeSlice : Nat → Fin 64
/-- The HBM bytes homed at each slice (R428), which HBM_MAP reports (log 13). -/
opaque Config.hbmHomed : Nat → Word64

/-- A free 64-bit value for each draw of the model's serial counter: used where the manual states an effect and leaves
its value open (log 11). -/
opaque Config.freeValue : Nat → Word64

/-- What a cut job gives where the arithmetic of R374 and R383 states no value (log 34): the floor of a NaN, an axis's
exponent byte from its bounds where none fits, a child's bound from the bound and the node's minimum, and, by result code,
address and field, a count that the code of R375 gives no value. Functions of the inputs, as R373 asks. -/
opaque Config.cutFloor : Word64 → Nat
opaque Config.cutExp : Word64 → Word64 → Nat
opaque Config.cutBound : Bool → Word64 → Word64 → Nat
opaque Config.cutCount : Nat → Nat → Nat → Nat

/-- The die that carries a queue pair's requests, and the code of a peer port's state in event 0x07: neither is given
(log 20). -/
opaque Config.qpDie : Nat → Fin 2
opaque Config.portStateCode : Nat → Nat

/-- Whether the HBM trains at a reset (R430), the mode that an image's firmware sets for a die's host port (R401), and the
identity key that a hash of the unique secret generates (R433): none is given (log 12). -/
opaque Config.hbmTrains : Nat → Bool
opaque Config.hostCxl : List Byte → Nat → Bool
opaque Config.identityKey : List Byte → List Byte
/-- What the identification registers of a hart hold, by number (R424): the manual gives none of them (log 25). -/
opaque Config.hartConst : Nat → Word64
/-- The bytes of a hart's vector register are 16 times two to this power (R424): the manual gives no VLEN (log 25). -/
opaque Config.hartVlen : Fin 10
/-- Where the boot ROM puts the image that it reads (R430), which is not given (log 12). -/
opaque Config.imageBase : Nat

/-! ### The part (R9, R10) -/

abbrev Config.cores : Nat := 192
abbrev Config.ricks : Nat := 48
abbrev Config.dies : Nat := 2
abbrev Config.partitions : Nat := 8
abbrev Config.slotsPerPartition : Nat := 8
abbrev Config.harts : Nat := 32
abbrev Config.ports : Nat := 16
abbrev Config.contexts : Nat := 4096
/-- Granules of 8 registers in a partition (R148). -/
abbrev Config.granules : Nat := 48
/-- Scratchpad bytes of a core (R9). -/
abbrev Config.scratchBytes : Nat := 393216
/-- Sectors of a core's L1, blocks of its instruction cache, and sectors of an L2 slice (R9). -/
abbrev Config.l1Sectors : Nat := 4096
abbrev Config.icacheBlocks : Nat := 2048
abbrev Config.l2Sectors : Nat := 131072
/-- Leaf translations of a rick's TLB (R303). -/
abbrev Config.tlbEntries : Nat := 4096
/-- Memory operations of a core in flight (R13, R146). -/
abbrev Config.coreOps : Nat := 512
/-- Hardware queue slots (R118). -/
abbrev Config.queueSlots : Nat := 64

end Sys2Proof
end

