-- ==== Sys2Proof/Machine/State.lean ====
section
/-! DEFINITION. The state of the device as plain data: every wave, cord, context, queue, memory structure, engine, port,
hart and debug unit that the manual gives it, and the state after reset. INVENTORY.md lists each piece with its rule.
Updates have names (with…) so that a later proof cites one lemma for each. -/

namespace Sys2Proof.Machine

/-- The 96 lane words of one vector register. -/
abbrev Lanes := List Word

/-- Why a run stops. The device itself never stops a step: traps, refusals of records and context faults are next
states. -/
inductive Fault where
  /-- Raised by an event that names a wave, record, write or engine operation that the device does not hold: such an
  event cannot happen (safe). -/
  | noSuchEvent
  deriving DecidableEq, Repr, Inhabited

/-- Why the model gives a step no meaning. -/
inductive Refusal where
  /-- An instruction that the model does not give a meaning to yet (safe). -/
  | notModelled (mnemonic : String)
  deriving DecidableEq, Repr, Inhabited

/-! ### Waves -/

/-- One main vector register: its lanes and, while a producer is pending, the producer's PC (R32, R151). -/
structure VReg where
  lanes    : Lanes
  producer : Option Word64
  deriving DecidableEq, Repr, Inhabited

/-- What a wave waits for. `stalled` marks an instruction that will be executed again in full (R113). -/
inductive Wait where
  | none
  /-- blocked at an instruction that is evaluated again at the wave's next turn. -/
  | stalled
  /-- blocked in a REG.GROW of `len` bytes for n registers, with its D (R154, R155). -/
  | grow (n : Nat) (d : Opnd) (len : Nat)
  /-- the wait step of a BAR, BAR.WAIT or BAR.DEV of `len` bytes (R224, R226, R228). -/
  | barrier (g : Nat) (len : Nat)
  /-- a SLEEP of `len` bytes until a deadline (R109). -/
  | sleep (deadline : Nat) (d : Opnd) (len : Nat)
  /-- an UPCALL of `len` bytes posted in mailbox entry `entry`, with any answer taken while saved (R108, R113). -/
  | upcall (entry : Nat) (d : Opnd) (answer : Option Word64) (len : Nat)
  /-- a TILE.ACQ of `len` bytes waiting for its request (R337). -/
  | tile (root : RootId) (d : Opnd) (len : Nat)
  /-- ACQ.RS waiting for writes held back by tenure, with the largest completion time so far (R244). -/
  | acq (ids : List Nat) (h : Nat)
  /-- an MMA that waits in its quartet's gather (R347). -/
  | gather (g : Nat)
  /-- blocked at a NODE.POP.wait on a queue, which is executed again; `rung` once a doorbell has come (R142, R143). -/
  | pop (q : Nat) (rung : Bool)
  /-- blocked in a QPUSH.wait, SPAWN.wait, QP.POST.wait or CUT.GO.wait with what it has read and checked (R127, R139, R378,
  R416). -/
  | push (r : List Byte)
  /-- the wave has ended (R137). -/
  | ended
  deriving DecidableEq, Repr, Inhabited

/-- A LOOP.PIN pair (S, E) (R158). -/
structure Loop where
  start : Word64
  last  : Word64
  deriving DecidableEq, Repr, Inhabited

/-- A wave's state for one of its groups: ARR, DONE and H of R221. `hset` holds the writes of H whose completion times
have not returned. -/
structure Arrival where
  group : Nat
  arr   : Mask
  done  : Bool
  h     : Nat
  hset  : List Nat
  deriving DecidableEq, Repr, Inhabited

/-- One copy of a batch (R284 to R288): what CPY or CPY.BOX added, with the hints of its writes and reads. `box` holds
the descriptor's bytes and the origin. -/
inductive CopyItem where
  | linear (dst src n : Nat) (dstScratch srcScratch : Bool) (hint rhint : Nat)
  | box (desc : List Byte) (dst : Nat) (dstScratch : Bool) (x0 y0 z0 : Int) (hint rhint : Nat)
  deriving DecidableEq, Repr, Inhabited

/-- A fault that a piece of a copy met (R290): cause, address, kind field of %trapinfo and pool code. -/
structure DeferredFault where
  cause : Nat
  addr  : Nat
  kind  : Nat
  pool  : Nat
  deriving DecidableEq, Repr, Inhabited

/-- The progress of one piece of a copy. -/
inductive PieceState where
  | todo
  /-- stopped by a fault; `told` once a trap has reported it. -/
  | stopped (f : DeferredFault) (told : Bool)
  /-- performed, with the ids of its writes that may not have completed. -/
  | done (writes : List Nat)
  deriving DecidableEq, Repr, Inhabited

/-- Bytes of a piece: n bytes from a source, or constant bytes, to consecutive destination bytes. -/
structure PiecePart where
  src   : Option Nat
  const : List Byte
  dst   : Nat
  n     : Nat
  deriving DecidableEq, Repr, Inhabited

/-- A piece of a copy: everything that one copy writes in one aligned 32-byte sector (R230, R246, R287). -/
structure Piece where
  parts      : List PiecePart
  srcScratch : Bool
  dstScratch : Bool
  hint       : Nat
  rhint      : Nat
  st         : PieceState
  deriving DecidableEq, Repr, Inhabited

/-- A closed batch that has not completed (R284, R289); `sup` is the state of the wave that closed it, `engine` the stoker
engine that runs it (R10). -/
structure Batch where
  number : Word
  sup    : Bool
  engine : Nat
  pieces : List Piece
  deriving DecidableEq, Repr, Inhabited

/-- What happened to a stream's walk (R292, R293). -/
inductive StreamRun where
  | stopped
  | running
  | ended
  /-- `told` once a trap has reported it. -/
  | faulted (addr : Nat) (perm : Bool) (told : Bool)
  deriving DecidableEq, Repr, Inhabited

/-- One of a wave's eight streams (R291, R292): the record's bytes, its walk, the state that started it, the base once it
has been read, the position of the next element and the elements of the entry being filled. -/
structure Stream where
  id      : Nat
  bytes   : List Byte
  run     : StreamRun
  sup     : Bool
  base    : Option Nat
  pos     : Nat
  part    : List Word64
  deriving DecidableEq, Repr, Inhabited

/-- An incomplete invalidation of a wave (R317): the range, none for the whole tag, and the writes that it lets
perform. -/
structure Inval where
  id     : Nat
  tag    : Nat
  range  : Option (Nat × Nat)
  writes : List Nat
  done   : Bool
  upto   : Nat
  deriving DecidableEq, Repr, Inhabited

/-- A wave (R30, R100, R147 to R158, R221, R237, R265, R284 to R294, R317, R435). -/
structure Wave where
  id        : WaveId
  /-- the cord's uid. -/
  cord      : Nat
  /-- %waveid. -/
  index     : Nat
  wait      : Wait
  pc        : Word64
  /-- the PC was reached by a transfer, so offset 28 is not skipped (R20). -/
  jumped    : Bool
  sup       : Bool
  live      : Mask
  k         : List Mask
  c         : BitVec 8
  s         : List Word
  v         : List VReg
  o         : List Lanes
  l         : List Lanes
  lSup      : List Lanes
  x         : List (List (BitVec 16))
  q         : List (List Lanes)
  /-- the bound N (R148); the allocation A is the length of v. -/
  bound     : Nat
  /-- the first granule of the span (R134). -/
  granule   : Nat
  fpflags   : BitVec 5
  srseed    : Word64
  horizon   : Nat
  rep       : BitVec 16
  repStr    : BitVec 7
  repStrSup : BitVec 7
  loop      : Option Loop
  loopSup   : Option Loop
  trapcause : BitVec 8
  trapmask  : Mask
  trapinfo  : Word64
  /-- the kept pass of R265, with the address of its instruction. -/
  pass      : Option (Nat × Word64)
  arrivals  : List Arrival
  /-- the horizon of the wave's end (R223), once it has ended. -/
  endH      : Nat
  endSet    : List Nat
  wake      : Bool
  /-- after YIELD: its rick's clock count at the end of 64 clocks, and the ready waves of the partition that have not issued
  since (R161). -/
  yield     : Option (Nat × List WaveId)
  /-- no issue before this device time: a restored wave's horizon (R252). -/
  hold      : Nat
  /-- a trial holds the next issue until its rick's clock count reaches this (R443). -/
  delayed   : Option Nat
  openBatch : List CopyItem
  batches   : List Batch
  nextBatch : Word
  streams   : List Stream
  invals    : List Inval
  /-- ids of this wave's writes, and of writes whose value it returned early, whose completion times it has not
  received (R237). -/
  watch     : List Nat
  /-- the number of the wave's next collective (R421). -/
  nextColl  : Word
  regions   : List (BitVec 16)
  rgndepth  : BitVec 16
  halted    : Bool
  /-- STATE and BP of the record of its last halt and its %trapinfo, with which a restored wave halts again (R446). -/
  haltAs    : Nat × Nat × Word64
  /-- halt again after one issue (R439). -/
  stepOnce  : Bool
  /-- the next issue is exempt from breakpoints (R439). -/
  exempt    : Bool
  deriving DecidableEq, Repr, Inhabited

/-! ### Cords and kernels -/

/-- The fields of a kernel descriptor that outlive its expansion (R129). -/
structure Kernel where
  code    : Nat
  regs    : Nat
  sregs   : Nat
  waves   : Nat
  depth   : Nat
  glast   : Nat
  scratch : Nat
  persist : Bool
  pullq   : Nat
  keep    : List (Nat × Nat)
  smask   : BitVec 8
  entry   : Nat
  nodes   : List (Nat × Nat × Bool)
  streams : List (List Byte)
  groups  : List (BitVec 128)
  deriving DecidableEq, Repr, Inhabited

/-- The barrier slot of a group (R218, R221); `drain` is the device time at which a draining phase completes. -/
structure BarSlot where
  group : Nat
  slot  : Nat
  phase : Word
  dev   : Bool
  drain : Option Nat
  deriving DecidableEq, Repr, Inhabited

/-- The mode of a tenure (R325). -/
inductive TenMode where
  | r | w
  deriving DecidableEq, Repr, Inhabited

/-- An entry of a cord's tenure list (R325): held, or lapsed with the completion time of its write-back. -/
structure TenEntry where
  root   : RootId
  mode   : TenMode
  lapsed : Option Nat
  deriving DecidableEq, Repr, Inhabited

/-- A member's issue of MMA or MMA.SP (R347, R348, R357): what it reads is captured when it joins the gather. -/
structure MmaMember where
  wave : WaveId
  pc   : Word64
  sp   : Bool
  f    : Fields
  exec : Mask
  b    : List Lanes
  bs   : Lanes
  bm   : Lanes
  deriving DecidableEq, Repr, Inhabited

/-- The gather of a QUARTET group of a cord (R347). -/
structure Gather where
  group   : Nat
  members : List MmaMember
  /-- the broken gather's reported %waveid (R347). -/
  broken  : Option Nat
  /-- %waveid of the waves that were blocked in it when it broke and have not raised QUARTET_BROKEN yet (R347). -/
  hit     : List Nat
  deriving DecidableEq, Repr, Inhabited

/-- A placed cord, or one held in a save image (R110, R134, R136). -/
structure Cord where
  uid      : Nat
  tag      : Nat
  core     : Nat
  recUid   : Nat
  cordid   : Nat
  count    : Nat
  kernel   : Kernel
  frame    : Nat
  /-- first byte of the scratchpad span. -/
  scratchBase : Nat
  /-- bytes of the span that are not zero, by offset, and the granules whose written bit is set (R271). -/
  scratch  : List Host.Cell
  written  : List Nat
  bars     : List BarSlot
  tenures  : List TenEntry
  gathers  : List Gather
  /-- held entries that a restored cord has still to acquire again, in order (R112). -/
  reacq    : List (RootId × TenMode)
  /-- %waveid of the waves that had ended when the cord was saved, each with the horizon of its end (R111, R223). -/
  ended    : List (Nat × Nat)
  /-- place in the order of placement. -/
  order    : Nat
  deriving DecidableEq, Repr, Inhabited

/-- An operand-store range (R342, R343, R346): its first byte and length, its record, its bytes that are not zero by offset,
and its readers and writers. -/
structure MosRange where
  core    : Nat
  side    : Nat
  cord    : Nat
  start   : Nat
  len     : Nat
  ty      : Nat
  pa      : Nat
  blk     : Nat
  soff    : Nat
  boff    : Nat
  bytes   : List Host.Cell
  readers : Nat
  writers : Nat
  deriving DecidableEq, Repr, Inhabited

/-- A MOS.FILL that has not finished (R355): its pieces write at offsets of the range. -/
structure MosFill where
  id    : Nat
  wave  : WaveId
  tag   : Nat
  core  : Nat
  side  : Nat
  start : Nat
  sup   : Bool
  pieces : List Piece
  /-- the waiting instructions, by wave and address, that have raised the fault that its stopped pieces hold (R346). -/
  told  : List (WaveId × Word64)
  deriving DecidableEq, Repr, Inhabited

/-- A cord in the save area of its context (R110, R111): its operand-store ranges with it and the fills whose faults they
hold, where its image lies, the free bytes that were written there (those that `seed` numbers), whether a wave was in
supervisor state, and the completion time that each entry of its tenure list keeps. -/
structure Image where
  cord    : Cord
  waves   : List Wave
  ranges  : List MosRange
  fills   : List MosFill
  base    : Nat
  bytes   : Nat
  seed    : Nat
  sup     : Bool
  rel     : List Nat
  deriving DecidableEq, Repr, Inhabited

/-! ### Contexts and queues -/

/-- The states of R96. -/
inductive CtxState where
  | free | building | ready | running | preempted | faulted | destroying
  deriving DecidableEq, Repr, Inhabited

/-- The hardware's copy of a context block and the context's other hardware state (R94, R96, R106, R107). -/
structure Ctx where
  tag       : Nat
  st        : CtxState
  ptroot    : Nat
  prio      : Nat
  trapvec   : Nat
  supbase   : Nat
  supsize   : Nat
  htable    : Nat
  fpool     : Nat
  mailbox   : Nat
  mblog2    : Nat
  qlist     : Nat
  qcount    : Nat
  recver    : BitVec 8
  qver      : BitVec 8
  mbver     : BitVec 8
  savebase  : Nat
  savesize  : Nat
  /-- the next mailbox entry to post. -/
  mbnext    : Nat
  /-- the drain of R110 has begun, at this device time. -/
  drain     : Option Nat
  images    : List Image
  /-- spawn children saved with the images (R139), as record uids. -/
  savedKids : List Nat
  /-- the reason of FAULTED. -/
  reason    : BitVec 8
  deriving DecidableEq, Repr, Inhabited

/-- The states of R116. -/
inductive QState where
  | idle | waiting | mapped | stopped
  deriving DecidableEq, Repr, Inhabited

/-- The hardware's own state of a user queue (R115, R116): its state, its place in the order of waiting, and the
priority by which it waits. A queue with no entry is IDLE. -/
structure Queue where
  tag   : Nat
  q     : Nat
  st    : QState
  since : Nat
  deriving DecidableEq, Repr, Inhabited

/-- A hardware queue slot in use (R118). -/
structure Slot where
  slot  : Nat
  tag   : Nat
  q     : Nat
  prio  : Nat
  slice : Nat
  /-- device time at which the slice ends. -/
  sliceEnd : Nat
  log2  : Nat
  base  : Nat
  deriving DecidableEq, Repr, Inhabited

/-- How far a taken record has come (R119, R121, R131, R137). -/
inductive RecStage where
  | taken
  | expanding (next : Nat)
  | expanded
  | copying (pieces : List Piece)
  /-- a RAYGEN record handed to the frame front. -/
  | raygen
  /-- the frame front has run: STATUS to write, records, its writes and their largest known completion time (R399). -/
  | raygenRan (status rcount : Nat) (writes : List Nat) (horizon : Nat)
  deriving DecidableEq, Repr, Inhabited

/-- A continuation record that the scheduler has taken, or a child in a spawn buffer (R120, R139). -/
structure Rec where
  uid    : Nat
  tag    : Nat
  q      : Nat
  bytes  : List Byte
  parent : Option Nat
  /-- the die of the spawn buffer that holds it, for a child that has not begun. -/
  buffer : Option Nat
  stage  : RecStage
  kernel : Option Kernel
  /-- number of cords of the grid; for RAYGEN, of the hit shader's grid. -/
  grid   : Nat
  /-- largest write horizon of the record's retired cords. -/
  horizon : Nat
  order  : Nat
  /-- the index of its ring entry (R117, R119). -/
  idx    : Nat
  deriving DecidableEq, Repr, Inhabited

/-- A successor held because its ring is full (R124). -/
structure HeldSucc where
  tag   : Nat
  q     : Nat
  bytes : List Byte
  deriving DecidableEq, Repr, Inhabited

/-! ### Memory -/

/-- How a page holds its bytes (R236, R298). -/
inductive CacheMode where
  | normal | l2only | uncached
  deriving DecidableEq, Repr, Inhabited

/-- Who makes a write or an access (R230, R235). -/
inductive Agent where
  | wave (w : WaveId)
  | engine
  | hart (h : Nat)
  | host (port : Nat)
  deriving DecidableEq, Repr, Inhabited

/-- What a store with release order at device or fabric scope waits for (R241): a device time, writes that must have
completed, and writes that the pool must also have acknowledged. Until then only its own wave sees the store. -/
structure Release where
  upto  : Nat
  ids   : List Nat
  acked : List Nat
  deriving DecidableEq, Repr, Inhabited

/-- A write that has not completed (R230 to R232): its bytes by physical address in one sector, the core in whose L1
its pending bytes stand, and its completion time once accepted. -/
structure Write where
  id     : Nat
  agent  : Agent
  /-- the context for which it is made. -/
  tag    : Option Nat
  core   : Option Nat
  bytes  : List Host.Cell
  grain  : Nat
  cache  : CacheMode
  pool   : Bool
  /-- acknowledged by the pool device (R249). -/
  acked  : Bool
  /-- events that its completion raises: doorbells (R117) and resumptions of stopped queues (R116). -/
  bells  : List Instr
  /-- the waves whose stores a write-back carries, by byte (R238, R247). -/
  owners : List (Nat × WaveId)
  /-- a release that has not been made yet (R241). -/
  rel    : Option Release
  /-- a write-through: the store of a wave outside its tenures (R239, R244). -/
  through : Bool
  /-- the virtual addresses of the sector, with the leaves that translated them, of a wave's store (R317). -/
  via    : List (Nat × Word64)
  ctime  : Option Nat
  deriving DecidableEq, Repr, Inhabited

/-- A lease tile (R234, R235): a grain by its first physical byte and size, or an explicit root. -/
inductive LeaseTile where
  | grain (base size : Nat)
  | root (r : RootId)
  deriving DecidableEq, Repr, Inhabited

/-- The home's record of a lease tile: the latest expiry granted and the latest completion time (R231, R232). -/
structure Lease where
  tile  : LeaseTile
  e     : Nat
  clast : Nat
  deriving DecidableEq, Repr, Inhabited

/-- A sector copy in a core's L1 (R231, R281, R304): its expiry and retain level. Its bytes are those that R233 gives. A copy
under the core's tenure is valid as long as the tenure (R325), and a sector held dirty has one too.
The list of copies stands in order of use, the least recently used first. -/
structure L1Line where
  core   : Nat
  tag    : Nat
  va     : Nat
  pa     : Nat
  /-- bytes of the page through which it was filled (R317), and that page's leaf. -/
  size   : Nat
  leaf   : Word64
  expiry : Nat
  level  : Nat
  deriving DecidableEq, Repr, Inhabited

/-- Bytes held dirty in a core's L1 under a write tenure (R235), with the wave that wrote each last. -/
structure Dirty where
  core   : Nat
  root   : RootId
  bytes  : List Host.Cell
  owners : List (Nat × WaveId)
  /-- doorbells that the write-back rings (R117), by sector. -/
  bells  : List (Nat × Instr)
  deriving DecidableEq, Repr, Inhabited

/-- A translation that a rick's TLB or another unit's cache holds (R303, R307): the entry's value and where it stands. -/
structure TlbEntry where
  unit  : Nat
  tag   : Nat
  va    : Nat
  level : Nat
  slot  : Nat
  entry : Word64
  deriving DecidableEq, Repr, Inhabited

/-- A table entry that a unit's walk cache holds (R303): the level of the table that it names, the first address and the
frame of that table. -/
structure WalkLine where
  unit  : Nat
  tag   : Nat
  level : Nat
  va    : Nat
  frame : Nat
  deriving DecidableEq, Repr, Inhabited

/-- How far a first touch has come (R309): asked for; no frame was available in a ring; a frame is in hand. -/
inductive TouchStage where
  | asked
  | empty (ring : Nat)
  | holding (frame : Nat)
  deriving DecidableEq, Repr, Inhabited

/-- Who asked for a first touch (R309): a wave, by whichever of its lanes, or another unit by the address that it accesses. -/
structure Asker where
  unit : Nat
  wave : Option WaveId
  va   : Nat
  deriving DecidableEq, Repr, Inhabited

/-- A first touch that a die's unit serves (R309): the context, the entry's address and the value that the walk read, an
address that it translates, whether the access writes, and whose accesses wait for it or have still to take its answer. -/
structure Touch where
  die   : Nat
  tag   : Nat
  slot  : Nat
  old   : Word64
  va    : Nat
  dirty : Bool
  stage : TouchStage
  asks  : List Asker
  deriving DecidableEq, Repr, Inhabited

/-- A 32-byte fetch block that a core's instruction cache or a pinned loop buffer holds (R20, R144, R251); `sup` is the S
bit of its page (R305). -/
structure ICLine where
  core  : Nat
  tag   : Nat
  va    : Word64
  bytes : List Byte
  sup   : Bool
  deriving DecidableEq, Repr, Inhabited

/-- A result on its way to v registers (R151): the values of the active lanes of n registers, and whether a
special-function instruction made it, whose flags a read of `%fpflags` waits for (R68). -/
structure Fill where
  id    : Nat
  wave  : WaveId
  first : Nat
  mask  : Mask
  data  : List Lanes
  flags : BitVec 5
  fp    : Bool
  deriving DecidableEq, Repr, Inhabited

/-! ### Tiles -/

/-- A core's tenure on a root (R325 to R327). -/
structure Tenure where
  core      : Nat
  mode      : TenMode
  expiry    : Nat
  contended : Bool
  deriving DecidableEq, Repr, Inhabited

/-- A waiting tenure request (R328). -/
structure TenReq where
  wave : WaveId
  cord : Nat
  core : Nat
  mode : TenMode
  deriving DecidableEq, Repr, Inhabited

/-- An open handle record: the physical address kept at TILE.OPEN, the virtual rows' pages and, for a root, its
directory state (R323, R324). -/
structure Handle where
  id      : RootId
  gen     : Nat
  record  : Nat
  view    : Bool
  orphan  : Bool
  ro      : Bool
  root    : Nat
  rlc     : Nat
  wlc     : Nat
  esz     : Nat
  dims    : Nat
  base    : Nat
  ext     : List Nat
  stride  : List Nat
  /-- pages of the footprint: first virtual byte, first physical byte, size. -/
  pages   : List (Nat × Nat × Nat)
  /-- the root has a directory entry. -/
  dir     : Bool
  used    : Nat
  tenures : List Tenure
  reqs    : List TenReq
  deriving DecidableEq, Repr, Inhabited

/-- A root that has been closed or orphaned, with the latest expiry and completion time that its bytes' grain tiles
inherit (R332, R333). -/
structure PastRoot where
  root  : Handle
  e     : Nat
  clast : Nat
  deriving DecidableEq, Repr, Inhabited

/-! ### Matrix engines -/

/-- A matrix operation in flight (R347, R349), in gather order. -/
structure MmaOp where
  core    : Nat
  side    : Nat
  cord    : Nat
  members : List MmaMember
  deriving DecidableEq, Repr, Inhabited

/-! ### Cut engines -/

/-- A cut job (R375 to R377): its die, context, block address and submitted bytes, and whether its reads are made in
supervisor state; once run, its result code and the writes that the next step waits for; once posted, STATUS is written. -/
structure CutJob where
  die    : Nat
  tag    : Nat
  addr   : Nat
  sup    : Bool
  bytes  : List Byte
  ran    : Bool
  code   : Nat
  writes : List Nat
  posted : Bool
  /-- requests posted and dropped, of a job whose counts could not be written: they follow with STATUS (R375). -/
  owed   : Option (Nat × Nat)
  /-- the job's own name. -/
  id     : Nat
  deriving DecidableEq, Repr, Inhabited

/-- A CUT_SUBMIT command that waits, for its job block to be read or, with the block's bytes, for an entry of its die's queue
(R378, R428). -/
structure CutWait where
  die   : Nat
  tag   : Nat
  addr  : Word64
  blk   : Nat
  bytes : Option (List Byte)
  deriving DecidableEq, Repr, Inhabited

/-! ### Ports, queue pairs and collectives -/

/-- The mode of a host port (R401). -/
inductive HostMode where
  | pcie | cxl
  deriving DecidableEq, Repr, Inhabited

/-- An access of the host that a port has received (R401). -/
inductive HostReq where
  | access (a : HostAccess)
  | atomic (a : HostAtomic)
  deriving DecidableEq, Repr, Inhabited

/-- A host port (R401, R451). -/
structure HostPort where
  mode  : HostMode
  l1    : Bool
  d3hot : Bool
  /-- MSI-X vectors signalled, latest first. -/
  msix  : List Nat
  /-- the bytes that the host's last read or AtomicOp returned. -/
  answer : List Byte
  /-- accesses that wait for the end of a write tenure, in the order received. -/
  held  : List HostReq
  /-- the latest completion time of the port's writes, below which no later one completes (R250). -/
  last  : Nat
  /-- log2 of the size of BAR2 (R401). -/
  bar2  : Nat
  deriving DecidableEq, Repr, Inhabited

/-- The states of R404. -/
inductive PortState where
  | down | training | negotiating | active | degraded | quiesced | error
  deriving DecidableEq, Repr, Inhabited

/-- A peer port (R404, R406): its state, the state before QUIESCE, its width, when training began, and the device id
that its route reaches. -/
structure PeerPort where
  st     : PortState
  before : PortState
  width  : Nat
  since  : Nat
  peer   : Option Nat
  deriving DecidableEq, Repr, Inhabited

/-- A request that a queue pair has taken (R409 to R412): its ring index and bytes, the number of its packet once sent
and, for a WRITE_FLAG, of its flag's packet, what has been acknowledged, and, once it has ended, the status, the old
value, and the local writes of its result that the completion follows. -/
structure QpReq where
  idx     : Nat
  bytes   : List Byte
  psn     : Option (BitVec 24)
  flagPsn : Option (BitVec 24)
  acked   : Bool
  status  : Option Nat
  result  : Word64
  writes  : List Nat
  deriving DecidableEq, Repr, Inhabited

/-- A packet sent and not acknowledged (R414). -/
structure SentPacket where
  p    : Packet
  sent : Nat
  deriving DecidableEq, Repr, Inhabited

/-- What a responder has answered (R412, R414, R415): an acknowledgement or response, a sequence NAK with EPSN, or
receiver-not-ready for a packet. -/
inductive Answer where
  | ack (a : Ack)
  | seqNak (epsn : BitVec 24)
  | rnr (psn : BitVec 24)
  deriving DecidableEq, Repr, Inhabited

/-- The device's own state of a queue pair beside the context in memory (R407, R412, R414, R415). -/
structure Qp where
  qpn     : Nat
  /-- dies whose cache holds the context. -/
  cached  : List Nat
  reqs    : List QpReq
  unacked : List SentPacket
  retries : Nat
  rnr     : Nat
  /-- answers that have arrived and whose local write waits (R412). -/
  acks    : List Ack
  /-- receiver-not-ready backoff: no attempt before this device time. -/
  backoff : Option Nat
  /-- results of the last 16 ATOMICs as responder, by sequence number. -/
  results : List (BitVec 24 × Word64)
  /-- answers the responder has sent, latest last. -/
  answers : List Answer
  /-- responder writes of answers that wait for completion: packet number and write ids. -/
  pending : List (BitVec 24 × List Nat)
  /-- port that the queue pair's packets leave by. -/
  port    : Option Nat
  /-- in DRAINING, the ring index up to which work requests had been posted before the drain (R408, R423). -/
  drainTo : Nat
  deriving DecidableEq, Repr, Inhabited

/-- A packet held in an arriving port's buffer while its context is fetched (R415). -/
structure HeldPacket where
  port : Nat
  qpn  : Nat
  p    : Packet
  deriving DecidableEq, Repr, Inhabited

/-- A communicator (R417). -/
structure Comm where
  tag     : Nat
  index   : Nat
  ids     : List Nat
  rank    : Nat
  timeout : Nat
  next    : Nat
  deriving DecidableEq, Repr, Inhabited

/-- A collective in progress or ended (R418 to R422): the owning wave by cord and index, its number, its descriptor,
its place in its communicator's sequence, its source bytes' release, and its outcome. -/
structure Collect where
  id      : Nat
  tag     : Nat
  die     : Nat
  /-- the stoker engine that runs it (R10, R419). -/
  engine  : Nat
  cord    : Nat
  index   : Nat
  number  : Word
  addr    : Nat
  bytes   : List Byte
  seq     : Nat
  joined  : Nat
  /-- the outcome and the writes that STATUS follows. -/
  outcome : Option Nat
  writes  : List Nat
  /-- STATUS has been written. -/
  status  : Option Nat
  deriving DecidableEq, Repr, Inhabited

/-! ### Kindling cluster -/

/-- Privilege modes of a hart (R424). -/
inductive HPriv where
  | u | s | m
  deriving DecidableEq, Repr, Inhabited

/-- A kindling hart (R424 to R427): its registers, mode, whether a guest runs (the H extension), the standard CSRs that have
been written, by number (the interrupt file's registers by 0x10000 and their number), the sector that LR has reserved, its
latest completion time and outstanding writes, whether it waits in WFI, and the identities pending at its interrupt file.
The floating-point registers `f`, and the vector registers `v` as bytes, register r from r times the bytes of one (log 25).
The model's own: the bytes of the instruction that it executes, and the time before which it issues nothing, since it has read
a value at home that completes only then (R250). -/
structure Hart where
  x       : List Word64
  f       : List Word64
  v       : List Host.Cell
  pc      : Word64
  priv    : HPriv
  virt    : Bool
  csrs    : List (Nat × Word64)
  resv    : Option Nat
  horizon : Nat
  watch   : List Nat
  wfi     : Bool
  ident   : List Nat
  ilen    : Nat
  hold    : Nat
  deriving DecidableEq, Repr, Inhabited

/-- An event that waits to be posted to a die's ring (R429). -/
structure EventEntry where
  code : Nat
  tag  : Nat
  arg  : Nat
  arg2 : Nat
  deriving DecidableEq, Repr, Inhabited

/-- An INVAL command that has not taken effect: its invalidation, and the physical address of its block (R428). -/
structure Command where
  inval : Inval
  blk   : Nat
  deriving DecidableEq, Repr, Inhabited

/-- The algorithms of attestation (R433). -/
inductive SpdmAlg where
  | falcon1024 | shake256
  deriving DecidableEq, Repr, Inhabited

/-- The registry of an SPDM vendor identifier (R433), and the vendors whose identifiers the device names. -/
inductive SpdmRegistry where
  | pciSig
  deriving DecidableEq, Repr, Inhabited
inductive SpdmVendor where
  | kolez
  deriving DecidableEq, Repr, Inhabited

/-- An answer of the SPDM responder (R433): its version, the registry and vendor identifier of its extended algorithms, the base,
asymmetric and hash algorithms offered, the device identity key, and the measurement blocks. -/
structure SpdmAnswer where
  version  : Nat
  registry : SpdmRegistry
  vendor   : SpdmVendor
  base     : List SpdmAlg
  extAsym  : List SpdmAlg
  extHash  : List SpdmAlg
  identity : List Byte
  blocks   : List Byte
  deriving DecidableEq, Repr, Inhabited

/-- Boot, fuses and attestation (R430 to R433): flash, the host's boot buffer, the strap, the fused key hash, security
version and unique secret, the ROM's hash, measurement registers, and recovery mode. -/
structure Boot where
  flash    : List Byte
  buffer   : List Byte
  strapHost : Bool
  keyHash  : List Byte
  secver   : Nat
  romHash  : List Byte
  /-- the fused unique secret. -/
  uds      : List Byte
  meas     : List (List Byte)
  recovery : Bool
  /-- the last MEASUREMENTS answer. -/
  answer   : Option SpdmAnswer
  deriving DecidableEq, Repr, Inhabited

/-! ### Debug and power -/

/-- A core's debug block (R437); `next` is the slot that the next sample starts from, and `sampled` the time of the last
sampling (R442). -/
structure DbgCore where
  ctl       : Word64
  stopreq   : Word64
  stopmode  : Word64
  halted    : Word64
  cancelled : Word64
  bp        : List Word64
  next      : Nat
  sampled   : Nat
  /-- writes of RESUME that wait for the end of a write tenure, or for first touch, on their frame (R439). -/
  resumes   : List Word64
  deriving DecidableEq, Repr, Inhabited

/-- A die's debug block (R437). -/
structure DbgDie where
  sampper : Word64
  ring    : Word64
  drop    : Word64
  deriving DecidableEq, Repr, Inhabited

/-- The trial and counter registers (R437, R443). -/
structure Trial where
  ctl     : Word64
  lo      : Word64
  hi      : Word64
  prog    : List Word64
  cordret : Word64
  insin   : Word64
  insout  : Word64
  deriving DecidableEq, Repr, Inhabited

/-- A rick whose clock is stretched, and its clock count when its supply recovered (R447). -/
structure Droop where
  rick  : Nat
  since : Option Nat
  deriving DecidableEq, Repr, Inhabited

/-- Clock, limits and telemetry (R447, R448). Clocks are counted in thousandths (R449). -/
structure Power where
  /-- thousandths of a clock since reset in a rick that has not been stretched, and those that each stretched rick has lost. -/
  clk       : Nat
  lag       : List (Nat × Nat)
  clockMHz  : Nat
  lastStep  : Option Nat
  psust     : Nat
  ppeak     : Nat
  tstep     : Nat
  /-- what the sensors give now. -/
  sensors   : Option Telemetry
  telemetry : Telemetry
  telemetryClock : Nat
  telemetryAt : Nat
  /-- what the sensors gave in the last second, latest first, each with its time. -/
  samples   : List (Nat × Telemetry)
  /-- since when every limit has held with its margin. -/
  heldSince : Option Nat
  droop     : List Droop
  /-- what the last PLDM Type 2 read returned (R448). -/
  answer    : Option Nat
  deriving DecidableEq, Repr, Inhabited

/-! ### Errors -/

/-- A latent storage error (R15, R16, R17): where it lies, and whether it can be corrected. -/
inductive FlawPlace where
  /-- a sector of memory, by its physical address. -/
  | sector (pa : Nat)
  /-- a core's L1 copy of a sector. -/
  | l1 (core pa : Nat)
  /-- an 8-byte word of a cord's scratchpad span. -/
  | scratch (cord word : Nat)
  /-- a lane word of a v register, an operand-file register or an s register of a wave. -/
  | vreg (w : WaveId) (n lane : Nat)
  | oreg (w : WaveId) (n lane : Nat)
  | sreg (w : WaveId) (n : Nat)
  /-- an 8-byte word of a side's operand store. -/
  | mos (core side word : Nat)
  /-- a fetch block in a core's instruction cache. -/
  | icache (core : Nat) (va : Word64)
  /-- a TLB entry of a unit, by a virtual address that it covers; a core's reverse-map entry of a sector; the state of a
  hardware queue slot. -/
  | tlb (unit tag va : Nat)
  | revmap (core pa : Nat)
  | slot (n : Nat)
  deriving DecidableEq, Repr, Inhabited

structure Flaw where
  place : FlawPlace
  correctable : Bool
  deriving DecidableEq, Repr, Inhabited

/-! ### The device -/

/-- Whose turn it is: an event of the table, or a wave's issue. -/
inductive Work where
  | event (i : Instr)
  | issue (w : WaveId)
  deriving DecidableEq, Repr, Inhabited

/-- A turn: the nanoseconds that pass before it, and the work (the model's own; log 1). -/
structure Turn where
  after : Nat
  work  : Work
  deriving DecidableEq, Repr, Inhabited

/-- The whole device. `agenda`, `tick`, `cur`, `serial` and `uid` are the model's own fields (log 1, log 11): the order
of turns, the nanoseconds between turns that nobody asked for, the wave whose turn it is, the count of free values drawn
and of names given. -/
structure State where
  /-- device time (R3). The count does not wrap past 2^64: a register that shows it shows its low bits (DESIGN CHOICE,
  log 56). -/
  time    : Nat
  /-- stopped for read-out (R445, R450). -/
  frozen  : Bool
  /-- THERMTRIP_N is driven low (R450). -/
  tripped : Bool
  agenda  : List Turn
  tick    : Nat
  cur     : Nat
  serial  : Nat
  uid     : Nat
  waves   : List Wave
  cords   : List Cord
  ctxs    : List Ctx
  queues  : List Queue
  slots   : List Slot
  recs    : List Rec
  helds   : List (Nat × HeldSucc)
  /-- doorbells that wait for the end of a write tenure on the queue's descriptor or ring (R117, R235). -/
  bells   : List (Nat × Nat)
  /-- wakes that wait for the end of a write tenure on their mailbox entry (R427, R235). -/
  wakes   : List Word64
  /-- the slot served last at each priority (R118). -/
  served  : List (Nat × Nat)
  /-- the dispatcher's pointer P (R134). -/
  dispP   : Nat
  mem     : List Host.Cell
  writes  : List Write
  leases  : List Lease
  l1      : List L1Line
  /-- the sectors that L2 holds with their retain levels, the least recently used first (R229, R281). -/
  l2      : List (Nat × Nat)
  dirty   : List Dirty
  tlb     : List TlbEntry
  walks   : List WalkLine
  touches : List Touch
  icache  : List ICLine
  fills   : List Fill
  handles : List Handle
  pastRoots : List PastRoot
  poison  : List Nat
  retired : List Nat
  flaws   : List Flaw
  /-- corrected errors of each die (R15). -/
  corrected : List Nat
  /-- contexts for which an access of the hardware met a poisoned sector: they fault at the end of the step (R16). -/
  ctxBad  : List Nat
  /-- contexts whose fault waits for room in the ring that reports it, each with its reason (R98, R429). -/
  faulting : List (Nat × Nat)
  ranges  : List MosRange
  mosFills : List MosFill
  mmaOps  : List MmaOp
  jobs    : List CutJob
  cutWaits : List CutWait
  hosts   : List HostPort
  ports   : List PeerPort
  qps     : List Qp
  heldPkts : List HeldPacket
  comms   : List Comm
  colls   : List Collect
  harts   : List Hart
  nkctxtab : Word64
  nkqpbase : Word64
  nkevt   : List Word64
  nkevthart : List Nat
  events  : List (Nat × EventEntry)
  commands : List Command
  /-- incomplete invalidations that have outlived their waves (R319). -/
  invals  : List Inval
  boot    : Boot
  dbgCores : List DbgCore
  dbgDies : List DbgDie
  trial   : Trial
  power   : Power
  deriving DecidableEq, Repr, Inhabited

/-! ### The device right after reset -/

/-- A hart before it has run (R424, R430): hart 0 runs the ROM, every other hart waits in WFI. -/
def Hart.reset (h : Nat) : Hart :=
  { x := List.replicate 32 0, f := List.replicate 32 0, v := [], pc := 0, priv := .m, virt := false, csrs := [(0xC21, 0x8000000000000000)],
    resv := none, horizon := 0, watch := [], wfi := decide (h ≠ 0), ident := [], ilen := 4, hold := 0 }

/-- A host port: in PCIe mode until the firmware sets another (log 12), BAR2 of 1 GiB (log 2). -/
def HostPort.reset : HostPort :=
  { mode := .pcie, l1 := false, d3hot := false, msix := [], answer := [], held := [], last := 0, bar2 := 30 }

def DbgCore.reset : DbgCore :=
  { ctl := 0, stopreq := 0, stopmode := 0, halted := 0, cancelled := 0, bp := List.replicate 8 0, next := 0, sampled := 0,
    resumes := [] }

def Boot.reset : Boot :=
  { flash := [], buffer := [], strapHost := false, keyHash := List.replicate 64 0, secver := 0,
    romHash := List.replicate 64 0, uds := List.replicate 64 0, meas := List.replicate 8 (List.replicate 64 0), recovery := false, answer := none }

/-- The limits of R448 at their defaults, the clock at the rate that R12 gives, no telemetry yet (log 2). -/
def Power.reset : Power :=
  { clk := 0, lag := [], clockMHz := 1500, lastStep := none, psust := 1900, ppeak := 2100, tstep := 95, sensors := none,
    telemetry := { power := 0, rails := [], temps := [] }, telemetryClock := 1500, telemetryAt := 0, samples := [],
    heldSince := none, droop := [], answer := none }

/-- The device right after reset: no context, no wave, memory with nothing listed, and the RESET event of R430 as the
first turn (log 2, log 3). -/
def State.reset : State :=
  { time := 0, frozen := false, tripped := false, agenda := [⟨0, .event .reset⟩], tick := 1, cur := 0, serial := 0,
    uid := 0, waves := [], cords := [], ctxs := [], queues := [], slots := [], recs := [], helds := [], bells := [], wakes := [], served := [],
    dispP := 191, mem := [], writes := [], leases := [], l1 := [], l2 := [], dirty := [], tlb := [], walks := [], touches := [],
    icache := [], fills := [],
    handles := [], pastRoots := [], poison := [], retired := [], flaws := [], corrected := [0, 0], ctxBad := [], faulting := [], ranges := [], mosFills := [],
    mmaOps := [], jobs := [], cutWaits := [], hosts := List.replicate 2 HostPort.reset,
    ports := List.replicate 16 ⟨.down, .down, 0, 0, none⟩, qps := [], heldPkts := [], comms := [], colls := [],
    harts := (List.range 32).map Hart.reset, nkctxtab := 0, nkqpbase := 0, nkevt := [0, 0], nkevthart := [0, 0],
    events := [], commands := [], invals := [], boot := Boot.reset, dbgCores := List.replicate 192 DbgCore.reset,
    dbgDies := List.replicate 2 ⟨0, 0, 0⟩, trial := ⟨0, 0, 0, List.replicate 8 0, 0, 0, 0⟩, power := Power.reset }

end Sys2Proof.Machine
end

