-- ==== Sys2Proof/Machine/Regs.lean ====
section
/-! DEFINITION. Registers of a wave and the places of waves, cords and contexts (spec/01_device.md R10,
spec/02_formats.md R29, R30, spec/08_wave.md R147 to R150): every read and write of a register goes through here. -/

namespace Sys2Proof.Machine

/-! ### Lists -/

/-- Entry i replaced by its image; nothing when there is none. -/
def modAt {α : Type} (l : List α) (i : Nat) (f : α → α) : List α :=
  match l, i with
  | [], _ => []
  | a :: r, 0 => f a :: r
  | a :: r, i + 1 => a :: modAt r i f

/-- Every entry that a test selects, changed. -/
def modWhere {α : Type} (l : List α) (p : α → Bool) (f : α → α) : List α := l.map fun a => if p a then f a else a

/-- Copies of f 0, …, f (n - 1). -/
def tabulate {α : Type} (n : Nat) (f : Nat → α) : List α := (List.range n).map f

/-- A list in ascending order of a key. -/
def sortBy {α : Type} (key : α → Nat) (l : List α) : List α :=
  l.foldr (fun x r => (r.takeWhile fun y => decide (key y < key x)) ++ [x] ++ r.dropWhile fun y => decide (key y < key x)) []

/-! ### Places -/

/-- `%dieid` of a core (R10). -/
def dieOf (core : Nat) : Nat := core / 96
/-- `%rickid` of a core (R10). -/
def rickOf (core : Nat) : Nat := core / 4
/-- `%side` of a partition (R10). -/
def sideOf (part : Nat) : Nat := part / 4
/-- The device-wide number of a wave slot. -/
def waveNum (w : WaveId) : Nat := w.core * 64 + w.part * 8 + w.slot
/-- A wave slot's number in its core (R437). -/
def slotNum (w : WaveId) : Nat := w.part * 8 + w.slot

/-- The wave whose turn it is. -/
def State.me (s : State) : Option Wave := s.waves[s.cur]?
/-- The wave whose turn it is, replaced. -/
def State.setMe (s : State) (w : Wave) : State := { s with waves := s.waves.set s.cur w }
/-- The wave in a slot. -/
def State.waveAt (s : State) (id : WaveId) : Option Wave := s.waves.find? fun w => w.id == id
/-- The wave in a slot, changed. -/
def State.modWave (s : State) (id : WaveId) (f : Wave → Wave) : State :=
  { s with waves := modWhere s.waves (fun w => w.id == id) f }
/-- The index of a wave in the list of waves. -/
def State.indexOf (s : State) (id : WaveId) : Nat := s.waves.findIdx fun w => w.id == id

def State.cordAt (s : State) (uid : Nat) : Option Cord := s.cords.find? fun c => c.uid == uid
def State.modCord (s : State) (uid : Nat) (f : Cord → Cord) : State :=
  { s with cords := modWhere s.cords (fun c => c.uid == uid) f }
/-- The cord of a wave. -/
def State.cordOf (s : State) (w : Wave) : Cord := (s.cordAt w.cord).getD default
/-- The context tag of a wave. -/
def State.tagOf (s : State) (w : Wave) : Nat := (s.cordOf w).tag

/-- A context that the list does not hold is FREE (R96). -/
def Ctx.empty (tag : Nat) : Ctx :=
  { tag := tag, st := .free, ptroot := 0, prio := 0, trapvec := 0, supbase := 0, supsize := 0, htable := 0, fpool := 0,
    mailbox := 0, mblog2 := 0, qlist := 0, qcount := 0, recver := 0, qver := 0, mbver := 0, savebase := 0,
    savesize := 0, mbnext := 0, drain := none, images := [], savedKids := [], reason := 0 }
def State.ctx (s : State) (tag : Nat) : Ctx := (s.ctxs.find? fun c => c.tag == tag).getD (Ctx.empty tag)
/-- A context changed; it enters the list when it was not there. -/
def State.modCtx (s : State) (tag : Nat) (f : Ctx → Ctx) : State :=
  if s.ctxs.any (fun c => c.tag == tag) then { s with ctxs := modWhere s.ctxs (fun c => c.tag == tag) f }
  else { s with ctxs := s.ctxs ++ [f (Ctx.empty tag)] }

/-- A new name for a cord, record, write, fill or other object of the model. -/
def State.fresh (s : State) : Nat × State := (s.uid, { s with uid := s.uid + 1 })
/-- A free value (log 11): nothing constrains it. -/
def State.free (s : State) : Word64 × State := (Config.freeValue s.serial, { s with serial := s.serial + 1 })

/-! ### Lanes -/

def zeroLanes : Lanes := List.replicate laneCount 0
def lane (l : Lanes) (i : Nat) : Word := l.getD i 0
def Mask.has (m : Mask) (i : Nat) : Bool := m.getLsbD i
/-- The lanes of a mask, ascending. -/
def lanesOf (m : Mask) : List Nat := (List.range laneCount).filter fun i => m.getLsbD i
/-- The mask of a list of lanes. -/
def maskOf (l : List Nat) : Mask := l.foldl (fun m i => m ||| (1#96 <<< i)) 0
/-- New lanes where the mask is set, old lanes elsewhere (R5). -/
def mergeLanes (m : Mask) (old new : Lanes) : Lanes :=
  tabulate laneCount fun i => if m.getLsbD i then lane new i else lane old i
/-- The lowest lane of a mask, or 96 when it is empty. -/
def lowLane (m : Mask) : Nat := ((lanesOf m).head?).getD 96

/-! ### Register files -/

def Wave.exec (w : Wave) : Mask := w.k.getD 0 0
def Wave.kAt (w : Wave) (n : Nat) : Mask := w.k.getD n 0
/-- A write of a mask register; k0 is ANDed with the live mask (R147). -/
def Wave.setK (w : Wave) (n : Nat) (m : Mask) : Wave :=
  { w with k := w.k.set n (if n = 0 then m &&& w.live else m) }
def Wave.cAt (w : Wave) (n : Nat) : Bool := n == 0 || w.c.getLsbD n
/-- A write of a condition register; c0 stays 1 (R29, R30). -/
def Wave.setC (w : Wave) (n : Nat) (b : Bool) : Wave :=
  if n = 0 then w else { w with c := (w.c &&& ~~~(1#8 <<< n)) ||| (if b then 1#8 <<< n else 0) }
def Wave.sAt (w : Wave) (n : Nat) : Word := w.s.getD n 0
def Wave.setS (w : Wave) (n : Nat) (x : Word) : Wave := { w with s := w.s.set n x }
/-- The pair s2n:s2n+1 (R28). -/
def Wave.spAt (w : Wave) (n : Nat) : Word64 := pair32 (w.sAt (2 * n)) (w.sAt (2 * n + 1))
def Wave.setSp (w : Wave) (n : Nat) (x : Word64) : Wave := (w.setS (2 * n) (lo32 x)).setS (2 * n + 1) (hi32 x)
def Wave.xAt (w : Wave) (n i : Nat) : BitVec 16 := (w.x.getD n []).getD i 0
def Wave.vReg (w : Wave) (n : Nat) : VReg := w.v.getD n ⟨zeroLanes, none⟩
def Wave.vAt (w : Wave) (n : Nat) : Lanes := (w.vReg n).lanes
/-- The register is full (R32); one past the allocation counts as full. -/
def Wave.full (w : Wave) (n : Nat) : Bool := (w.vReg n).producer.isNone
def Wave.setV (w : Wave) (n : Nat) (l : Lanes) : Wave := { w with v := modAt w.v n fun r => { r with lanes := l } }
def Wave.oAt (w : Wave) (n : Nat) : Lanes := w.o.getD n zeroLanes
def Wave.setO (w : Wave) (n : Nat) (l : Lanes) : Wave := { w with o := w.o.set n l }
/-- l0 and l1 of the state the wave is in (R102). -/
def Wave.lAt (w : Wave) (n : Nat) : Lanes := (if w.sup then w.lSup else w.l).getD n zeroLanes
/-- The shift of the last-result file (R150). -/
def Wave.shiftL (w : Wave) (x : Lanes) : Wave :=
  if w.sup then { w with lSup := [x, w.lSup.getD 0 zeroLanes] } else { w with l := [x, w.l.getD 0 zeroLanes] }
/-- Registers first to first + n - 1 marked empty by the producer at the PC (R151). -/
def Wave.markEmpty (w : Wave) (first n : Nat) : Wave :=
  { w with v := (List.range n).foldl (fun v i => modAt v (first + i) fun r => { r with producer := some w.pc }) w.v }
def Wave.markFull (w : Wave) (first n : Nat) : Wave :=
  { w with v := (List.range n).foldl (fun v i => modAt v (first + i) fun r => { r with producer := none }) w.v }
def Wave.orFlags (w : Wave) (f : BitVec 5) : Wave := { w with fpflags := w.fpflags ||| f }
/-- `%horizon` never decreases (R237). -/
def Wave.raise (w : Wave) (t : Nat) : Wave := { w with horizon := max w.horizon t }
def Wave.watchAdd (w : Wave) (ids : List Nat) : Wave := { w with watch := (w.watch ++ ids).eraseDups }

/-- The allocation A (R148). -/
def Wave.alloc (w : Wave) : Nat := w.v.length

/-! ### The program counter -/

/-- The sequential successor of an instruction of n bytes at pc, which skips offset 28 (R20). -/
def seqNext (pc : Word64) (n : Nat) : Word64 :=
  let t := pc + BitVec.ofNat 64 n
  if t.toNat % 32 = 28 then t + 4 else t

/-- Bits [63:57] all equal bit [56] (R296). -/
def canonical (a : Word64) : Bool := a.toNat / 2 ^ 56 % 256 == 0 || a.toNat / 2 ^ 56 % 256 == 255

/-- The low 57 bits, which index the tables. -/
def vaBits (a : Nat) : Nat := a % 2 ^ 57

/-- The loop state of a state, cleared when the PC leaves the body (R158). -/
def loopAfter (l : Option Loop) (pc : Word64) : Option Loop :=
  match l with
  | some x => if x.start ≤ pc ∧ pc ≤ x.last then some x else none
  | none => none

/-- The PC moves to t: by a transfer, or to the sequential successor (R19, R20, R158). -/
def Wave.goto (w : Wave) (t : Word64) (jumped : Bool) : Wave :=
  if w.sup then { w with pc := t, jumped := jumped, loopSup := loopAfter w.loopSup t }
  else { w with pc := t, jumped := jumped, loop := loopAfter w.loop t }

end Sys2Proof.Machine
end

