-- ==== Sys2Proof/Machine/Memory.lean ====
section
/-! DEFINITION. Memory: bytes in canonical form, writes in coherence order with their completion times, leases, pending
and dirty bytes, and the ends of tenures (spec/13_memory_order.md R230 to R252, spec/16_tile.md R324 to R332). -/

namespace Sys2Proof.Machine

/-! ### Cells -/

/-- What a byte that is not listed reads as (log 4). -/
abbrev unlisted : Byte := 0

/-- One byte of a memory. -/
def cellGet : List Host.Cell → Nat → Byte
  | [], _ => unlisted
  | (k, v) :: r, a => if k = a then v else if a < k then unlisted else cellGet r a

/-- One byte written; a byte that equals what an unlisted address reads as is not listed. -/
def cellSet : List Host.Cell → Nat → Byte → List Host.Cell
  | [], a, b => if b = unlisted then [] else [(a, b)]
  | (k, v) :: r, a, b =>
    if a < k then (if b = unlisted then (k, v) :: r else (a, b) :: (k, v) :: r)
    else if k = a then (if b = unlisted then r else (a, b) :: r)
    else (k, v) :: cellSet r a b

/-- Bytes written at listed addresses, in order. -/
def cellsSet (m : List Host.Cell) (bs : List Host.Cell) : List Host.Cell := bs.foldl (fun m c => cellSet m c.1 c.2) m

/-- n consecutive bytes. -/
def cellsGet (m : List Host.Cell) (a n : Nat) : List Byte := tabulate n fun i => cellGet m (a + i)

/-- The bytes placed at consecutive addresses. -/
def cellsAt (a : Nat) (bs : List Byte) : List Host.Cell := (List.range bs.length).zipWith (fun i b => (a + i, b)) bs

/-- The canonical form: addresses strictly rising, nothing listed that reads as unlisted. -/
def Memory.wf : List Host.Cell → Bool
  | [] => true
  | [(_, v)] => v != unlisted
  | (k, v) :: (k', v') :: r => v != unlisted && decide (k < k') && Memory.wf ((k', v') :: r)

/-! ### Sectors -/

/-- An access of n bytes at a in pieces that each lie in one aligned 32-byte sector (R242). -/
def sectorPieces : Nat → Nat → Nat → List (Nat × Nat)
  | 0, _, _ => []
  | fuel + 1, a, n =>
    if n = 0 then []
    else
      let k := min n (32 - a % 32)
      (a, k) :: sectorPieces fuel (a + k) (n - k)
/-- The sector pieces of an access. -/
def piecesOf (a n : Nat) : List (Nat × Nat) := sectorPieces (n / 32 + 2) a n

/-- The first byte of a sector. -/
def sectorBase (a : Nat) : Nat := a - a % 32

/-- GRAIN code to bytes (R298). -/
def grainBytes (g : Nat) : Nat := if g = 1 then 128 else if g = 2 then 512 else 32
/-- Lease length of a class, in ns (R231). -/
def leaseNs (lc : Nat) : Nat := 64 * 2 ^ lc

/-! ### Roots -/

/-- A virtual byte lies in a footprint (R321): its offset is peeled from the highest dimension down. -/
def footHas (h : Handle) (va : Nat) : Bool :=
  if va < h.base then false
  else
    let peel := fun (p : Bool × Nat) (d : Nat) =>
      if d < h.dims then
        let st := h.stride.getD d 1
        (p.1 && decide (p.2 / st < h.ext.getD d 1), p.2 % st)
      else p
    let (ok, off) := [3, 2, 1].foldl peel (true, va - h.base)
    ok && decide (off < h.ext.getD 0 1 * 2 ^ h.esz)

/-- The virtual address under which a handle's pages hold a physical byte. -/
def handleVa (h : Handle) (pa : Nat) : Option Nat :=
  ((h.pages.filter fun p => decide (p.2.1 ≤ pa) && decide (pa < p.2.1 + p.2.2) &&
    footHas h (p.1 + (pa - p.2.1))).head?).map fun p => p.1 + (pa - p.2.1)

/-- The physical address of a virtual byte by a handle's pages. -/
def Handle.physAt (h : Handle) (va : Nat) : Option Nat :=
  (h.pages.find? fun p => decide (p.1 ≤ va) && decide (va < p.1 + p.2.2)).map fun p => p.2.1 + (va - p.1)
/-- The slice that is a root's home. -/
def Handle.home (h : Handle) : Fin 64 := Config.homeSlice (sectorBase ((h.physAt h.base).getD 0))

/-- The open root that holds a physical byte; an orphaned root's bytes lie in their grain tiles (R235, R332). -/
def State.rootOf (s : State) (pa : Nat) : Option Handle :=
  s.handles.find? fun h => !h.view && !h.orphan && (handleVa h pa).isSome

/-- A handle record by its index. -/
def State.handle (s : State) (r : RootId) : Option Handle := s.handles.find? fun h => h.id == r
def State.modHandle (s : State) (r : RootId) (f : Handle → Handle) : State :=
  { s with handles := modWhere s.handles (fun h => h.id == r) f }

/-- The lease tile of a byte (R234, R235). -/
def State.tileOf (s : State) (pa grain : Nat) : LeaseTile :=
  match s.rootOf pa with
  | some h => .root h.id
  | none => .grain (pa - pa % grain) grain

/-- A past root holds a byte of the n bytes at pa. -/
def PastRoot.covers (g : PastRoot) (pa n : Nat) : Bool :=
  (List.range (n / 32)).any fun i => (handleVa g.root (pa + 32 * i)).isSome

/-- Two lease tiles share a byte. Grain tiles of different sizes meet where the hardware writes by physical address and where
GRAIN has changed (R234). -/
def LeaseTile.meets : LeaseTile → LeaseTile → Bool
  | .grain a n, .grain b m => decide (a < b + m) && decide (b < a + n)
  | .root r, .root q => r == q
  | _, _ => false

/-- E and CLAST of a lease tile; a root's held tenures count in E, and a grain tile inherits those of past roots that
held its bytes (R231, R325, R329, R332, R333). -/
def State.leaseOf (s : State) (t : LeaseTile) : Nat × Nat :=
  let base := s.leases.foldl (fun p l => if l.tile.meets t then (max p.1 l.e, max p.2 l.clast) else p) (0, 0)
  match t with
  | .root r => (match s.handle r with
    | some h => ((h.tenures.map fun x => x.expiry).foldl max base.1, base.2)
    | none => base)
  | .grain pa n => s.pastRoots.foldl (fun p g => if g.covers pa n then (max p.1 g.e, max p.2 g.clast) else p) base

def State.modLease (s : State) (t : LeaseTile) (f : Lease → Lease) : State :=
  if s.leases.any fun l => l.tile == t then { s with leases := modWhere s.leases (fun l => l.tile == t) f }
  else { s with leases := s.leases ++ [f ⟨t, 0, 0⟩] }

/-- Whether a core other than `core` holds a root in W. -/
def Handle.wByOther (h : Handle) (core : Option Nat) : Bool := h.tenures.any fun t => t.mode == .w && some t.core != core

/-- An access to a byte must wait for the end of another core's write tenure (R235). -/
def State.heldBack (s : State) (pa : Nat) (core : Option Nat) : Bool :=
  match s.rootOf pa with
  | some h => h.wByOther core
  | none => false

/-- A plain access needs the root's directory entry and contends the tenures that it meets (R324, R326). -/
def State.contend (s : State) (pa : Nat) (core : Option Nat) (write : Bool) : State :=
  match s.rootOf pa with
  | some h => s.modHandle h.id fun h => { h with
      dir := true, used := s.serial
      tenures := modWhere h.tenures (fun t => some t.core != core && (write || t.mode == .w)) fun t => { t with contended := true } }
  | none => s

/-- A slice has no directory entry to give: all are in use by roots with waiting requests (R324). -/
def State.sliceFull (s : State) (home : Fin 64) : Bool :=
  let mine := s.handles.filter fun x => !x.view && x.dir && x.home == home
  decide (2048 ≤ s.handles.length) && decide (2048 ≤ mine.length) && mine.all fun x => !x.reqs.isEmpty

/-- The directory entry of the root that holds a byte cannot be had. -/
def State.dirFull (s : State) (pa : Nat) : Bool :=
  match s.rootOf pa with
  | none => false
  | some h => !h.dir && s.sliceFull h.home

/-- An access that goes through at its home slice takes the root's directory entry (R324). -/
def State.enter (s : State) (pa : Nat) : State :=
  match s.rootOf pa with
  | some h => if h.dir then s else s.modHandle h.id fun h => { h with dir := true, used := s.serial }
  | none => s

/-- The core holds a write tenure on the byte's root (R325). -/
def State.holdsW (s : State) (core pa : Nat) : Option RootId :=
  match s.rootOf pa with
  | some h => if h.tenures.any fun t => t.mode == .w && t.core == core then some h.id else none
  | none => none

/-- The core holds any tenure on the byte's root. -/
def State.holdsAny (s : State) (core pa : Nat) : Bool :=
  match s.rootOf pa with
  | some h => h.tenures.any fun t => t.core == core
  | none => false

/-! ### Writes -/

def Write.sector (w : Write) : Nat := (w.bytes.head?.map fun c => sectorBase c.1).getD 0
def Write.byte (w : Write) (pa : Nat) : Option Byte := (w.bytes.find? fun c => c.1 == pa).map fun c => c.2
/-- Completed at device time t (R232). -/
def Write.doneAt (w : Write) (t : Nat) : Bool := match w.ctime with | some c => decide (c ≤ t) | none => false

def State.write (s : State) (id : Nat) : Option Write := s.writes.find? fun w => w.id == id

/-- A write enters for a context: core-visible at once, not yet accepted (R239). The writer watches it (R237). -/
def State.newWrite (s : State) (agent : Agent) (tag core : Option Nat) (bytes : List Host.Cell) (grain : Nat)
    (cache : CacheMode) (pool : Bool) (bells : List Instr) : Nat × State :=
  let w : Write := ⟨s.uid, agent, tag, core, bytes, grain, cache, pool, !pool, bells, [], none, false, [], none⟩
  let s := { s with uid := s.uid + 1, writes := s.writes ++ [w] }
  let s := match agent with
    | .wave id => s.modWave id fun w => w.watchAdd [s.uid - 1]
    | .hart h => { s with harts := modAt s.harts h fun x => { x with watch := x.watch ++ [s.uid - 1] } }
    | _ => s
  (s.uid - 1, s)

/-- The completion time C of a write returns to every wave and hart that watches it, to arrivals and ends that cover
it, and it leaves their watch lists (R221, R237). -/
def State.returnTime (s : State) (id c : Nat) : State :=
  let arr := fun (a : Arrival) => if a.hset.contains id then { a with h := max a.h c, hset := a.hset.erase id } else a
  let wv := fun (w : Wave) =>
    let w := if w.watch.contains id then { w.raise c with watch := w.watch.erase id } else w
    let w := if w.endSet.contains id then { w with endH := max w.endH c, endSet := w.endSet.erase id } else w
    let w := match w.wait with | .acq ids h => if ids.contains id then { w with wait := .acq (ids.erase id) (max h c) } else w | _ => w
    { w with arrivals := w.arrivals.map arr }
  { s with
    waves := s.waves.map wv
    harts := s.harts.map fun h =>
      if h.watch.contains id then { h with horizon := max h.horizon c, watch := h.watch.erase id } else h }

/-- The completion time below which a host port's writes do not complete (R250); a hart's writes complete in order too, which
RVWMO does not ask of all of them (log 25). -/
def State.portFloor (s : State) (a : Agent) : Nat :=
  match a with
  | .host p => ((s.hosts[p]?).map fun h => h.last).getD 0
  | .hart h => ((s.harts[h]?).map fun x => x.horizon).getD 0
  | _ => 0
/-- A write takes its place in coherence order: the reservations of other harts on its sector end (log 25). -/
def State.dropResv (s : State) (w : Write) : State :=
  { s with harts := s.harts.zipIdx.map fun x =>
      if x.1.resv = some w.sector ∧ w.agent ≠ .hart x.2 then { x.1 with resv := none } else x.1 }
/-- A port's latest completion time. -/
def State.raisePort (s : State) (a : Agent) (c : Nat) : State :=
  match a with | .host p => { s with hosts := modAt s.hosts p fun h => { h with last := max h.last c } } | _ => s

/-- Acceptance at the home slice (R230, R232, R236, R249): the write takes its place after every accepted one and
receives C, and its tile's CLAST becomes C. `contends` is false for the table accesses of R235. A write that meets a
poisoned sector takes no effect and faults the context for which it is made (R252). -/
def State.acceptAs (contends : Bool) (s : State) (id : Nat) : State :=
  match s.write id with
  | none => s
  | some w =>
    if w.ctime.isSome then s
    else if s.poison.contains w.sector then
      { s with writes := s.writes.filter fun x => x.id != id, ctxBad := s.ctxBad ++ w.tag.toList }.returnTime id 0
    else
      let pa : Nat := (w.bytes.head?.map fun c => c.1).getD 0
      let tile := s.tileOf pa w.grain
      let (e, cl) := s.leaseOf tile
      let floor := s.portFloor w.agent
      let c := if w.cache = .normal then max (max (max s.time e) cl) floor else max (max s.time cl) floor
      let s := (s.raisePort w.agent c).dropResv w
      let s := if contends then s.contend pa w.core true else s
      let s := s.modLease tile fun l => { l with clast := c }
      let rest := s.writes.filter fun x => x.id != id
      let s := { s with writes := (rest.filter fun (x : Write) => x.ctime.isSome) ++ [{ w with ctime := some c }] ++
                                  (rest.filter fun (x : Write) => x.ctime.isNone) }
      s.returnTime id c

def State.acceptNow (s : State) (id : Nat) : State := s.acceptAs true id

/-- The completion time of a write, 0 once it has left the list. -/
def State.ctimeOf (s : State) (id : Nat) : Nat := ((s.write id).bind fun w => w.ctime).getD 0

/-- An accepted write completes no earlier than t: the order that a release gives the hardware's own writes (R117). -/
def State.notBefore (s : State) (t id : Nat) : State :=
  match s.write id with
  | none => s
  | some w =>
    if w.ctime.isNone ∨ t ≤ s.ctimeOf id then s
    else
      let s := { s with writes := modWhere s.writes (fun x => x.id == id) fun x => { x with ctime := some t } }
      let s := s.modLease (s.tileOf ((w.bytes.head?.map fun c => c.1).getD 0) w.grain) fun l => { l with clast := max l.clast t }
      match w.agent with | .wave id => s.modWave id fun x => x.raise t | _ => s

/-- Two writes keep the order in which they were made: of one core to one sector, from one host port, and of one hart
(R230, R250). -/
def Write.orders (x w : Write) : Bool :=
  (x.core.isSome && x.core == w.core && x.sector == w.sector) ||
  (match x.agent, w.agent with
   | .host p, .host q => p == q
   | .hart p, .hart q => p == q
   | _, _ => false)

/-- A write reaches its home slice: its release has been made (R241), and those that must come before it have been
accepted (R230, R250). A release store of another wave has not yet reached the L1. -/
def State.reaches (s : State) (w : Write) : Bool :=
  w.ctime.isNone && w.rel.isNone &&
  !(s.writes.any fun x => x.ctime.isNone && decide (x.id < w.id) && x.orders w && (x.rel.isNone || x.agent == w.agent))

/-- A write may be accepted: it has reached its home slice, no other core's write tenure holds it back (R235), and its root has
or can have a directory entry (R324). -/
def State.canAccept (s : State) (w : Write) : Bool :=
  s.reaches w && !(w.bytes.any fun c => s.heldBack c.1 w.core || s.dirFull c.1)

/-- A write that a tenure holds back at its home slice contends it (R235, R326). -/
def State.contendWrite (s : State) (w : Write) : State :=
  if s.reaches w then w.bytes.foldl (fun s c => if s.heldBack c.1 w.core then s.contend c.1 w.core true else s) s else s

/-- Every unaccepted write of a core to a sector is accepted, in order, before an atomic there (R238, R239). -/
def State.acceptSector (s : State) (core sector : Nat) : State :=
  (s.writes.filter fun w => w.ctime.isNone && w.rel.isNone && w.core == some core && w.sector == sector).foldl
    (fun s w => s.acceptNow w.id) s

/-- A write is accepted at once, unless something holds it back (R235, R243). -/
def State.acceptOr (s : State) (id : Nat) : State :=
  match s.write id with
  | some w => if s.canAccept w then s.acceptNow id else s.contendWrite w
  | none => s

/-- A write of the hardware to its own fields, for a context. -/
def State.writeHome (s : State) (tag : Option Nat) (bytes : List Host.Cell) (grain : Nat) (cache : CacheMode) (pool : Bool) :
    Nat × State :=
  let (id, s) := s.newWrite .engine tag none bytes grain cache pool []
  (id, s.acceptOr id)

def State.modWrite (s : State) (id : Nat) (f : Write → Write) : State := { s with writes := modWhere s.writes (fun w => w.id == id) f }

/-- Writes that have all completed, of a list of ids (a write that has left the list has completed). -/
def State.allDone (s : State) (ids : List Nat) : Bool := ids.all fun i => match s.write i with
  | some w => w.doneAt s.time
  | none => true

/-- Writes that have all completed and been acknowledged (R249). -/
def State.allAcked (s : State) (ids : List Nat) : Bool := ids.all fun i => match s.write i with
  | some w => w.doneAt s.time && w.acked
  | none => true

/-- Writes that have all been accepted. -/
def State.allAccepted (s : State) (ids : List Nat) : Bool := ids.all fun i => match s.write i with
  | some w => w.ctime.isSome
  | none => true

/-- A release has been made (R241). -/
def State.releaseMade (s : State) (r : Release) : Bool := decide (r.upto ≤ s.time) && s.allDone r.ids && s.allAcked r.acked

/-- Completion (R232, R239): a completed write's bytes enter memory after those of every write before it in its sector,
and its pending bytes are dropped. A pool write stays listed until it is acknowledged (R249). Doorbells and
resumptions among the writes are noticed then (R116, R117). -/
def State.complete (s : State) (id : Nat) : State :=
  match s.write id with
  | none => s
  | some w =>
    let upto := (s.writes.takeWhile fun x => x.id != id) ++ [w]
    let fold := (upto.filter fun x => x.sector == w.sector).takeWhile fun x => x.doneAt s.time && x.acked
    { s with mem := fold.foldl (fun m x => cellsSet m x.bytes) s.mem
             agenda := s.agenda ++ (fold.flatMap fun x => x.bells).map fun (i : Instr) => (⟨0, .event i⟩ : Turn)
             writes := s.writes.filter fun x => !(fold.any fun y => y.id == x.id) }

/-! ### Reading -/

/-- The value of the latest write in coherence order that has completed (R233). -/
def State.homeByte (s : State) (pa : Nat) : Byte :=
  s.writes.foldl (fun b w => if w.doneAt s.time then (w.byte pa).getD b else b) (cellGet s.mem pa)

/-- The value of the latest write in coherence order, completed or not (R243). -/
def State.latestByte (s : State) (pa : Nat) : Byte :=
  s.writes.foldl (fun b w => if w.ctime.isSome then (w.byte pa).getD b else b) (cellGet s.mem pa)

/-- The bytes of a write stand pending in a core's L1 for a wave of the core (R238, R239): the write of a wave of the core,
which every wave of the core sees, or a write-back that carries the wave's own store of the byte. A store whose release has
not been made is not in the L1 yet. -/
def Write.pending (w : Write) (id : WaveId) (pa : Nat) : Bool :=
  w.core == some id.core && w.rel.isNone && (w.byte pa).isSome &&
  ((match w.agent with | .wave _ => true | _ => false) || w.owners.contains (pa, id))

/-- A byte as the hardware reads a field that it also writes itself: its own writes as soon as they are accepted, others' once
they have completed (R233, R238). -/
def State.ownByte (s : State) (pa : Nat) : Byte :=
  s.writes.foldl (fun b w => if w.doneAt s.time || (w.agent == .engine && w.ctime.isSome) then (w.byte pa).getD b else b)
    (cellGet s.mem pa)
def State.ownBytes (s : State) (pa n : Nat) : List Byte := tabulate n fun i => s.ownByte (pa + i)

/-- A byte as a load of a wave finds it in its core (R233, R235, R239): dirty bytes of its L1, then pending bytes, then the
value at home. With it, the incomplete write that it was read from. -/
def State.coreByte (s : State) (id : WaveId) (pa : Nat) : Byte × Option Nat :=
  match (s.dirty.find? fun d => d.core == id.core && d.bytes.any fun c => c.1 == pa) with
  | some d => (((d.bytes.find? fun c => c.1 == pa).map fun c => c.2).getD 0, none)
  | none =>
    match (s.writes.filter fun w => !w.doneAt s.time && w.pending id pa).getLast? with
    | some w => ((w.byte pa).getD 0, some w.id)
    | none => (s.homeByte pa, none)

/-- A wave's stores whose release has not been made (R241). -/
def State.unreleasedOf (s : State) (id : WaveId) : List Write :=
  s.writes.filter fun w => w.agent == .wave id && w.rel.isSome && (s.waveAt id).any fun x => x.watch.contains w.id

/-- The latest such store of a byte. -/
def State.unreleased (s : State) (id : WaveId) (pa : Nat) : Option Write :=
  ((s.unreleasedOf id).filter fun w => (w.byte pa).isSome).getLast?

/-- A byte as a load of a wave reads it: its own stores first (R238), then as its core reads it. -/
def State.waveByte (s : State) (id : WaveId) (pa : Nat) : Byte × Option Nat :=
  match s.unreleased id pa with
  | some w => ((w.byte pa).getD 0, some w.id)
  | none => s.coreByte id pa

/-- A byte as a hart reads it: its own writes first (R250), then home. -/
def State.hartByte (s : State) (h pa : Nat) : Byte :=
  match (s.writes.filter fun w => w.agent == .hart h && !w.doneAt s.time && (w.byte pa).isSome).getLast? with
  | some w => (w.byte pa).getD 0
  | none => s.homeByte pa

/-- n bytes at home. -/
def State.homeBytes (s : State) (pa n : Nat) : List Byte := tabulate n fun i => s.homeByte (pa + i)
def State.latestBytes (s : State) (pa n : Nat) : List Byte := tabulate n fun i => s.latestByte (pa + i)

/-- The values of incomplete writes that a wave has seen enter its horizon (R237). -/
def Wave.saw (w : Wave) (s : State) (ids : List Nat) : Wave :=
  ids.foldl (fun w id => match s.write id with
    | some x => (match x.ctime with | some c => w.raise c | none => w.watchAdd [id])
    | none => w) w

/-- The earliest completion time of the accepted and incomplete writes on a tile, as a cap on a new lease (R231). -/
def State.leaseCap (s : State) (tile : LeaseTile) (e : Nat) : Nat :=
  s.writes.foldl (fun e w => match w.ctime with
    | some c =>
      if c > s.time ∧ (s.tileOf w.sector w.grain).meets tile then min e c else e
    | none => e) e

/-- The retain level that a hint gives (R281). -/
def hintLevel (h : Nat) : Nat := if h = 1 then 0 else if h = 2 then 2 else 1

/-- The line that a full cache replaces (R281): of the lowest level, the least recently used. -/
def victim {α : Type} (level : α → Nat) (l : List α) : Option α :=
  let low := (l.map level).foldl Nat.min 2
  l.find? fun x => level x == low

/-- The sectors that a core's L1 holds: copies, and dirty sectors beside them (R229, R235). -/
def State.l1Used (s : State) (core : Nat) : Nat :=
  let mine := (s.l1.filter fun l => l.core == core).map fun l => l.pa
  let dirty := ((s.dirty.filter fun d => d.core == core).flatMap fun d => d.bytes.map fun c => sectorBase c.1).eraseDups
  mine.length + (dirty.filter fun x => !mine.contains x).length

/-- A core holds bytes of a sector dirty (R235). -/
def State.dirtyIn (s : State) (core sec : Nat) : Bool :=
  s.dirty.any fun d => d.core == core && d.bytes.any fun b => sectorBase b.1 == sec

/-- A core's L1 holds at most 128 KiB (R9, R281); dirty sectors stay until they are written back (R235, log 45). -/
def State.fitL1 (s : State) (core : Nat) : State :=
  if s.l1Used core ≤ Config.l1Sectors then s
  else match victim (fun l => l.level) (s.l1.filter fun l => l.core == core && !s.dirtyIn core l.pa) with
    | some v => { s with l1 := s.l1.erase v }
    | none => s

/-- A sector enters a core's L1 with a lease (R231, R304): the tile's valid copies take the new expiry, and a copy of the
sector under another virtual address is dropped. -/
def State.grantLease (s : State) (core tag va pa : Nat) (leaf : Word64) (size lc grain level : Nat) : State :=
  let sec := sectorBase pa
  let tile := s.tileOf pa grain
  let lc := match s.rootOf pa with | some h => h.rlc | none => lc
  let e := s.leaseCap tile (s.time + leaseNs lc)
  let s := s.modLease tile fun l => { l with e := max l.e e }
  let s := { s with l1 := modWhere s.l1 (fun l => l.core == core && decide (l.expiry > s.time) && s.tileOf l.pa grain == tile)
                            fun l => { l with expiry := e } }
  let s : State := { s with l1 := (s.l1.filter fun l => !(l.core == core && l.pa == sec)) ++ [⟨core, tag, sectorBase va, sec, size, leaf, e, level⟩] }
  s.fitL1 core

/-- A sector enters a core's L1 under the core's tenure, or is used there again (R281, R325). -/
def State.holdLine (s : State) (core tag va pa : Nat) (leaf : Word64) (size level : Nat) : State :=
  let sec := sectorBase pa
  let mine := fun (l : L1Line) => l.core == core && l.pa == sec
  let old := ((s.l1.find? mine).map fun l => l.level).getD 0
  let s : State := { s with l1 := (s.l1.filter fun l => !mine l) ++ [⟨core, tag, sectorBase va, sec, size, leaf, 0, max old level⟩] }
  s.fitL1 core

/-- A copy is valid (R231): its lease runs, or its core holds tenure on its root (R325). -/
def State.l1Valid (s : State) (l : L1Line) : Bool := decide (l.expiry > s.time) || s.holdsAny l.core l.pa

/-- A valid copy of the sector in the core's L1 under this tag and address (R231, R303). -/
def State.l1Hit (s : State) (core tag va : Nat) : Option L1Line :=
  s.l1.find? fun l => l.core == core && l.tag == tag && l.va == sectorBase va && s.l1Valid l

/-- A copy is used: it becomes the most recent, and its level rises (R281). -/
def State.useL1 (s : State) (core sec lvl : Nat) : State :=
  let mine := fun (l : L1Line) => l.core == core && l.pa == sec
  { s with l1 := (s.l1.filter fun l => !mine l) ++ (s.l1.filter mine).map fun l => { l with level := max l.level lvl } }

/-- L2 holds a sector. -/
def State.inL2 (s : State) (sec : Nat) : Bool := s.l2.any fun x => x.1 == sec

/-- A slice holds at most 4 MiB (R9, R281). -/
def State.fitL2 (s : State) (sec : Nat) : State :=
  let mine := s.l2.filter fun x => Config.homeSlice x.1 == Config.homeSlice sec
  if s.l2.length ≤ Config.l2Sectors ∨ mine.length ≤ Config.l2Sectors then s
  else match victim (fun x => x.2) mine with
    | some v => { s with l2 := s.l2.erase v }
    | none => s

/-- An access at a sector's home slice (R281): a fill takes the access's level, a later access raises it; `.nt` allocates
nothing and changes nothing. No line of an uncached page stays (R236). -/
def State.useL2 (s : State) (sec hint : Nat) (cache : CacheMode) : State :=
  if cache = .uncached then { s with l2 := s.l2.filter fun x => x.1 != sec }
  else if hint = 3 then s
  else
    let old := ((s.l2.find? fun x => x.1 == sec).map fun x => x.2).getD 0
    let s : State := { s with l2 := (s.l2.filter fun x => x.1 != sec) ++ [(sec, max old (hintLevel hint))] }
    s.fitL2 sec

/-! ### Errors and events -/

/-- An event waits to be posted to a die's ring (R429). -/
def State.post (s : State) (die code tag arg arg2 : Nat) : State :=
  { s with events := s.events ++ [(die, ⟨code, tag, arg, arg2⟩)] }

/-- The die of the home slice of a physical address (R10). -/
def homeDie (pa : Nat) : Nat := (Config.homeSlice (sectorBase pa)).val / 32

/-- A sector is poisoned: its frame enters the retirement table unless it is full, and is posted (R16, R315). -/
def State.poisonSector (s : State) (tag pa : Nat) : State :=
  let fr := pa / 4096 * 4096
  let s := { s with poison := if s.poison.contains (sectorBase pa) then s.poison else s.poison ++ [sectorBase pa]
                    retired := if s.retired.contains fr || decide (256 ≤ s.retired.length) then s.retired else s.retired ++ [fr] }
  s.post (homeDie pa) 0x50 tag (fr / 4096 % 2 ^ 32) (pa % 4096 / 32 * 32)

/-- A context faults with reason 0x50 at the end of the step: an access of the hardware met a poisoned sector or an
uncorrectable error of the context's state (R16). -/
def State.faultLater (s : State) (tag : Nat) : State :=
  if s.ctxBad.contains tag then s else { s with ctxBad := s.ctxBad ++ [tag] }

/-- A die counts a corrected error (R15). -/
def State.countError (s : State) (die : Nat) : State := { s with corrected := modAt s.corrected die (· + 1) }

/-- The errors of some places are met: a correctable one is corrected and counted on a die, and true says that one was not
correctable (R15). -/
def State.takeFlaws (s : State) (die : Nat) (here : FlawPlace → Bool) : Bool × State :=
  let found := s.flaws.filter fun f => here f.place
  if found.isEmpty then (false, s)
  else
    let s := { s with flaws := s.flaws.filter fun f => !here f.place }
    (found.any fun f => !f.correctable, found.foldl (fun s f => if f.correctable then s.countError die else s) s)

/-! ### Dirty bytes -/

/-- Bytes of a page of a size code (R300). -/
def szBytes (sz : Nat) : Nat :=
  if sz ≤ 4 then 4096 * 4 ^ sz else if sz ≤ 8 then 2097152 * 4 ^ (sz - 5) else 1073741824

/-- The size code of a leaf. -/
def pteSz (e : Word64) : Nat := e.toNat / 2 ^ 60

/-- A wave's bytes of one sector, written into its core's L1 under write tenure (R235, R239). -/
def State.putDirty (s : State) (id : WaveId) (r : RootId) (cells : List Host.Cell) (bells : List Instr) : State :=
  let fresh := fun (a : Nat) => !cells.any fun c => c.1 == a
  let sec := sectorBase ((cells.head?.map fun c => c.1).getD 0)
  let put := fun (d : Dirty) => { d with
    bytes := (d.bytes.filter fun b => fresh b.1) ++ cells
    owners := (d.owners.filter fun o => fresh o.1) ++ cells.map fun c => (c.1, id)
    bells := (d.bells ++ bells.map fun i => (sec, i)).eraseDups }
  let mine := fun (d : Dirty) => d.core == id.core && d.root == r
  let s := if s.dirty.any mine then { s with dirty := modWhere s.dirty mine put }
    else { s with dirty := s.dirty ++ [put ⟨id.core, r, [], [], []⟩] }
  s.fitL1 id.core

/-- A wave's release in the sector that has not been made: its later stores there follow it (R238). -/
def State.relIn (s : State) (id : WaveId) (sec : Nat) : Option Release :=
  (((s.unreleasedOf id).filter fun w => w.sector == sec).getLast?).bind fun w => w.rel

/-- A release store whose release has been made reaches its core's L1: under write tenure as dirty bytes, otherwise as a
write (R241). -/
def State.releaseWrite (s : State) (w : Write) : State :=
  match w.rel, w.agent with
  | some r, .wave id =>
    if !s.releaseMade r then s
    else match s.holdsW id.core w.sector with
      | some root =>
        let s := ({ s with writes := s.writes.filter fun x => x.id != w.id }.putDirty id root w.bytes w.bells).returnTime w.id 0
        w.via.foldl (fun s x => s.holdLine id.core (w.tag.getD 0) x.1 w.sector x.2 (szBytes (pteSz x.2)) 1) s
      | none => s.modWrite w.id fun w => { w with rel := none }
  | _, _ => s

/-- Every store whose release has been made by now reaches its core's L1, in the order in which they were issued (R238,
R241). -/
def State.settleRel (s : State) : State :=
  (s.writes.filter fun w => w.rel.isSome).foldl (fun s w => s.releaseWrite w) s

/-! ### Ends of tenures -/

/-- The sectors of bytes, each with its bytes. -/
def bySector (bs : List Host.Cell) : List (List Host.Cell) :=
  let secs := (bs.map fun c => sectorBase c.1).eraseDups
  secs.map fun x => bs.filter fun c => sectorBase c.1 == x

/-- The dirty bytes of one sector go home as a write-back (R230, R327), with the waves that wrote them and the doorbells
that they ring; the completion time, or 0. A dirty sector with an uncorrectable error has no other copy: it is poisoned, and
the tile's context faults; so it does where the sector is poisoned already (R16, R17, R252). -/
def State.sendBack (s : State) (core : Nat) (d : Dirty) (bs : List Host.Cell) : Nat × State :=
  let sec := sectorBase ((bs.head?.map fun c => c.1).getD 0)
  match s.takeFlaws (dieOf core) fun p => match p with | .l1 c x => c == core && sectorBase x == sec | _ => false with
  | (true, s) => (0, (s.poisonSector d.root.tag sec).faultLater d.root.tag)
  | (false, s) =>
    if s.poison.contains sec then (0, s.faultLater d.root.tag)
    else
      let s := s.acceptSector core sec
      let (id, s) := s.newWrite .engine (some d.root.tag) (some core) bs 32 .normal false
        ((d.bells.filter fun b => b.1 == sec).map fun b => b.2)
      let s := s.modWrite id fun w => { w with owners := d.owners.filter fun o => bs.any fun c => c.1 == o.1 }
      let s := s.acceptOr id
      (((s.write id).bind fun w => w.ctime).getD 0, s)

/-- The part of a core's dirty bytes of a root at some physical addresses. -/
def Dirty.only (d : Dirty) (p : Nat → Bool) : Dirty :=
  { d with bytes := d.bytes.filter fun c => p c.1
           owners := d.owners.filter fun o => p o.1
           bells := d.bells.filter fun b => p b.1 }

/-- The dirty bytes that a test selects leave their L1s and are written back; the largest completion time, or 0. -/
def State.writeBackIf (s : State) (test : Dirty → Nat → Bool) : Nat × State :=
  let mine := (s.dirty.map fun d => d.only (test d)).filter fun d => !d.bytes.isEmpty
  let s := { s with dirty := (s.dirty.map fun d => d.only fun a => !test d a).filter fun d => !d.bytes.isEmpty }
  mine.foldl (fun p d => (bySector d.bytes).foldl (fun p bs =>
    let (c, s) := p.2.sendBack d.core d bs
    (max p.1 c, s)) p) (0, s)

/-- The core's dirty sectors of a root are written back; the largest completion time, or 0 (R327, R329). -/
def State.writeBack (s : State) (core : Nat) (r : RootId) : Nat × State :=
  s.writeBackIf fun d _ => d.core == core && d.root == r

/-- The core drops its copies of a root's sectors (R327). -/
def State.dropCopies (s : State) (core : Nat) (r : RootId) : State :=
  { s with l1 := s.l1.filter fun l => !(l.core == core && (s.rootOf l.pa).map (fun h => h.id) == some r) }

/-- A tenure ends by expiry, eviction or orphaning (R327): the tenure leaves the directory, dirty sectors are written
back, copies dropped, and the core's entries for the root lapse. The expiry that it had still counts in E. -/
def State.endTenure (s : State) (r : RootId) (core : Nat) : State :=
  let e := (((s.handle r).map fun h => (h.tenures.filter fun t => t.core == core).map fun t => t.expiry).getD []).foldl max 0
  let s := s.modLease (.root r) fun l => { l with e := max l.e e }
  let s := s.modHandle r fun h => { h with tenures := h.tenures.filter fun t => t.core != core }
  let (c, s) := s.writeBack core r
  let s := s.dropCopies core r
  { s with cords := s.cords.map fun x =>
      if x.core = core then { x with tenures := x.tenures.map fun t =>
        if t.root = r ∧ t.lapsed.isNone then { t with lapsed := some c } else t } else x }

/-- A cord's entry for a root, held or lapsed, is released as TILE.REL releases it (R329, R338): the completion time that
its list returns. -/
def State.releaseEntry (s : State) (cord : Cord) (e : TenEntry) : Nat × State :=
  let drop := fun (s : State) => s.modCord cord.uid fun c => { c with tenures := c.tenures.filter fun t => t.root != e.root }
  match e.lapsed with
  | some c => (c, drop s)
  | none =>
    let s := drop s
    let others := s.cords.any fun c => c.uid != cord.uid && c.core == cord.core &&
      c.tenures.any fun t => t.root == e.root && t.lapsed.isNone
    if others then
      let strongest := if s.cords.any fun c => c.core == cord.core && c.tenures.any fun t => t.root == e.root && t.lapsed.isNone && t.mode == .w
        then TenMode.w else .r
      let (c, s) := s.writeBack cord.core e.root
      (c, s.modHandle e.root fun h => { h with
        tenures := modWhere h.tenures (fun t => t.core == cord.core) fun t => { t with mode := strongest } })
    else
      let s := s.modHandle e.root fun h => { h with tenures := h.tenures.filter fun t => t.core != cord.core }
      let (c, s) := s.writeBack cord.core e.root
      (c, s.dropCopies cord.core e.root)

end Sys2Proof.Machine
end

