-- ==== Sys2Proof/Machine/Page.lean ====
section
/-! DEFINITION. Translation: tables and walks, translation caches, access checks, first touch and retirement
(spec/15_page.md R296 to R316), storage errors (spec/01_device.md R15 to R17), and the accesses that the hardware itself
makes through them. -/

namespace Sys2Proof.Machine

/-! ### Entries -/

/-- Bits [hi:lo] of a 64-bit value as a number. -/
def bits64 (e : Word64) (hi lo : Nat) : Nat := e.toNat / 2 ^ lo % 2 ^ (hi + 1 - lo)

def pteV (e : Word64) : Bool := e.getLsbD 0
def pteLeaf (e : Word64) : Bool := e.getLsbD 1
def pteR (e : Word64) : Bool := e.getLsbD 3
def pteW (e : Word64) : Bool := e.getLsbD 4
def pteX (e : Word64) : Bool := e.getLsbD 5
def pteS (e : Word64) : Bool := e.getLsbD 6
def pteA (e : Word64) : Bool := e.getLsbD 9
def pteD (e : Word64) : Bool := e.getLsbD 10
def pteAnon (e : Word64) : Bool := e.getLsbD 11
/-- FRAME as a physical address. -/
def pteFrame (e : Word64) : Nat := bits64 e 51 12 * 4096
def ptePool (e : Word64) : Bool := e.getLsbD 52
def pteGrain (e : Word64) : Nat := bits64 e 54 53
def pteCache (e : Word64) : Nat := bits64 e 56 55
def pteLc (e : Word64) : Nat := bits64 e 59 57

/-- CACHE as a mode (R236, R298). -/
def cacheMode (e : Word64) : CacheMode := if pteCache e = 0 then .normal else if pteCache e = 1 then .l2only else .uncached

/-- Leaf level and slots of a size code (R300). -/
def szShape (sz : Nat) : Option (Nat × Nat) :=
  if sz ≤ 4 then some (1, 4 ^ sz) else if sz ≤ 8 then some (2, 4 ^ (sz - 5)) else if sz = 9 then some (3, 1) else none

/-- First byte past HBM, and first byte of the pool window (R296). -/
def hbmEnd : Nat := 0x6000000000
def poolBase : Nat := 0x8000000000000

/-- A valid leaf's frame and attributes break R299 step 3. -/
def leafBad (e : Word64) : Bool :=
  let sz := pteSz e
  let fr := pteFrame e
  bits64 e 8 7 != 0 || e.getLsbD 2 || pteCache e == 3 || pteGrain e == 3 || (pteW e && !pteR e) ||
  (pteV e && (fr % szBytes sz != 0 || (decide (hbmEnd ≤ fr) && decide (fr < poolBase)))) ||
  (if ptePool e then pteCache e == 0 || pteAnon e || decide (fr < poolBase) else decide (poolBase ≤ fr)) ||
  (pteAnon e && !(sz == 0 || sz == 2 || sz == 5))

/-- A table entry breaks R299 step 3; its POOL bit is zero, so its frame lies outside the pool window. -/
def tableBad (e : Word64) (level : Nat) : Bool :=
  bits64 e 63 52 != 0 || bits64 e 11 2 != 0 || level == 1 || decide (poolBase ≤ pteFrame e)

/-! ### Walks -/

/-- How a walk ends (R299). -/
inductive WalkKind where
  | absent | malformed | anon | leaf
  deriving DecidableEq, Repr, Inhabited

/-- The end of a walk: its kind, its level, the physical address of the entry (slot f for a leaf) and the entry. -/
structure WalkEnd where
  kind  : WalkKind
  level : Nat
  slot  : Nat
  entry : Word64
  deriving DecidableEq, Repr, Inhabited

/-- The classification of slot f (R299 steps 2 to 4). -/
def classifyLeaf (level slot : Nat) (f : Word64) : WalkEnd :=
  if !pteV f && !pteAnon f then ⟨.absent, level, slot, f⟩
  else if leafBad f then ⟨.malformed, level, slot, f⟩
  else if pteV f then ⟨.leaf, level, slot, f⟩
  else ⟨.anon, level, slot, f⟩

/-- A walk from a level's table downwards (R297, R299, R301); `rd` reads an entry. -/
def walkFrom (rd : Nat → Word64) (va : Nat) : Nat → Nat → WalkEnd
  | 0, _ => ⟨.absent, 1, 0, 0⟩
  | level + 1, table =>
    let i := va / 2 ^ (12 + 9 * level) % 512
    let at_ := table + 8 * i
    let e := rd at_
    if pteLeaf e then
      match szShape (pteSz e) with
      | some (l, n) =>
        if l ≠ level + 1 then ⟨.malformed, level + 1, at_, e⟩
        else
          let fa := table + 8 * (n * (i / n))
          let f := rd fa
          if !pteLeaf f || pteSz f != pteSz e then ⟨.malformed, level + 1, at_, e⟩
          else classifyLeaf (level + 1) fa f
      | none => ⟨.malformed, level + 1, at_, e⟩
    else if !pteV e then ⟨.absent, level + 1, at_, e⟩
    else if tableBad e (level + 1) then ⟨.malformed, level + 1, at_, e⟩
    else walkFrom rd va level (pteFrame e)

/-- The tables that a walk passes below its first one: each one's level and frame (R303). -/
def walkTables (rd : Nat → Word64) (va : Nat) : Nat → Nat → List (Nat × Nat)
  | 0, _ => []
  | level + 1, table =>
    let e := rd (table + 8 * (va / 2 ^ (12 + 9 * level) % 512))
    if pteLeaf e || !pteV e || tableBad e (level + 1) then []
    else (level, pteFrame e) :: walkTables rd va level (pteFrame e)

/-- The entry that a walk reads in the table of a level, and slot f of its replica group. -/
def tableReads (rd : Nat → Word64) (va level table : Nat) : List Nat :=
  let i := va / 2 ^ (12 + 9 * (level - 1)) % 512
  let e := rd (table + 8 * i)
  match szShape (pteSz e) with
  | some (_, n) => if pteLeaf e then [table + 8 * i, table + 8 * (n * (i / n))] else [table + 8 * i]
  | none => [table + 8 * i]

/-- An entry as a walk reads it: a write that has been accepted and has not completed may be seen or not (R302); this
model's walks see it (log 16). -/
def State.readEntry (s : State) (pa : Nat) : Word64 := BitVec.ofNat 64 (natOfBytes (s.latestBytes pa 8))

/-- The walk of an address in a context (R297, R302). -/
def State.walk (s : State) (tag va : Nat) : WalkEnd := walkFrom s.readEntry (vaBits va) 5 (s.ctx tag).ptroot

/-- Access kinds: 0 read, 1 write, 2 execute, 3 atomic (R305). -/
def permitted (e : Word64) (kind : Nat) (sup : Bool) : Bool :=
  (!pteS e || sup) &&
  (if kind = 0 then pteR e else if kind = 1 then pteW e else if kind = 2 then pteX e else pteR e && pteW e)

/-- The physical address that a leaf gives an address. -/
def leafPa (e : Word64) (va : Nat) : Nat := pteFrame e + va % szBytes (pteSz e)

/-! ### Errors -/

/-- An access meets the errors of a sector (R15, R16, R17): a correctable one is corrected and counted; one in a clean
L1 copy, or in the reverse map's entry, drops the copy; one in memory, or in a dirty copy, poisons the sector. True when the
sector is poisoned. -/
def State.meetErrors (s : State) (core : Option Nat) (tag pa : Nat) : Bool × State :=
  let sec := sectorBase pa
  let here := fun (f : Flaw) => match f.place with
    | .sector p => sectorBase p == sec
    | .l1 c p | .revmap c p => some c == core && sectorBase p == sec
    | _ => false
  let found := s.flaws.filter here
  let die := fun (f : Flaw) => match f.place with | .l1 c _ | .revmap c _ => dieOf c | _ => homeDie sec
  let s := if found.isEmpty then s else { s with flaws := s.flaws.filter fun f => !here f }
  let s := found.foldl (fun s f =>
    if f.correctable then s.countError (die f)
    else match f.place with
      | .l1 c _ =>
        if s.dirty.any fun d => d.core == c && d.bytes.any fun b => sectorBase b.1 == sec then s.poisonSector tag sec
        else { s with l1 := s.l1.filter fun l => !(l.core == c && l.pa == sec) }
      | .revmap c _ => { s with l1 := s.l1.filter fun l => !(l.core == c && l.pa == sec) }
      | _ => s.poisonSector tag sec) s
  (s.poison.contains sec, s)

/-! ### Translation caches -/

/-- The unit numbers of translation caches: ricks 0 to 47, the cut engines, the frame fronts, the scheduler, the host, the
queue pairs (56), the first-touch units, the harts, the stoker engines and the cores' flue engines (R10, R303). -/
def unitCut (die : Nat) : Nat := 50 + die
def unitFront (die : Nat) : Nat := 52 + die
def unitSched : Nat := 54
def unitHost : Nat := 55
def unitTouch (die : Nat) : Nat := 58 + die
def unitHart (h : Nat) : Nat := 64 + h
def unitStoker (e : Nat) : Nat := 96 + e
def unitFlue (core : Nat) : Nat := 128 + core

/-- The stoker engine of a die that runs its k-th operation (R10); the choice of engine is the model's (log 48). -/
def stokerOf (die k : Nat) : Nat := 16 * die + k % 16

def TlbEntry.covers (t : TlbEntry) (unit tag va : Nat) : Bool :=
  t.unit == unit && t.tag == tag && decide (t.va ≤ vaBits va) && decide (vaBits va < t.va + szBytes (pteSz t.entry))

/-- A write to an entry of a context: a write of the hardware at home that no tenure holds (R307, R309, R235). -/
def State.setEntry (s : State) (tag pa : Nat) (e : Word64) : State :=
  let (id, s) := s.newWrite .engine (some tag) none (cellsAt pa (bytesOfNat 8 e.toNat)) 32 .normal false []
  s.acceptAs false id

/-- The most entries of a unit that a cache keeps: the newest (R303, log 45). -/
def keepNewest {α : Type} (n : Nat) (mine : α → Bool) (l : List α) [DecidableEq α] : List α :=
  if (l.filter mine).length ≤ n then l
  else match l.find? mine with | some x => l.erase x | none => l

/-- A translation enters a unit's cache; a rick's TLB holds 4,096 (R303). -/
def State.fillTlb (s : State) (unit tag va level slot : Nat) (e : Word64) : State :=
  let base := vaBits va - vaBits va % szBytes (pteSz e)
  let l := (s.tlb.filter fun t => !t.covers unit tag va) ++ [⟨unit, tag, base, level, slot, e⟩]
  { s with tlb := keepNewest Config.tlbEntries (fun t => t.unit == unit) l }

/-- What a translation gives: a physical address and its leaf; a cause of R306 with the pool code; a poisoned sector of a
table (R252); or a wait for the first-touch unit (R309). -/
inductive TRes where
  | ok (pa : Nat) (e : Word64)
  | fault (cause pool : Nat)
  | bad
  | wait
  deriving DecidableEq, Repr, Inhabited

/-! ### Walk caches (R303) -/

def WalkLine.covers (x : WalkLine) (unit tag va : Nat) : Bool :=
  x.unit == unit && x.tag == tag && vaBits va / 2 ^ (12 + 9 * x.level) == x.va / 2 ^ (12 + 9 * x.level)

/-- The table from which a unit's walk goes on: the lowest that its walk cache holds, else the level-5 table. -/
def State.walkStart (s : State) (unit tag va : Nat) : Nat × Nat :=
  s.walks.foldl (fun p x => if x.covers unit tag va ∧ x.level < p.1 then (x.level, x.frame) else p) (5, (s.ctx tag).ptroot)

/-- Table entries that a walk found enter the unit's walk cache. -/
def State.fillWalks (s : State) (unit tag va : Nat) (l : List (Nat × Nat)) : State :=
  { s with walks := s.walks ++ (l.map fun x => (⟨unit, tag, x.1, vaBits va / 2 ^ (12 + 9 * x.1) * 2 ^ (12 + 9 * x.1), x.2⟩ : WalkLine)) }

/-- A walk from a table of a level: where it ends, and the tables that it passes; none when it reads a poisoned sector
(R302, R252). -/
def State.walkOver (s : State) (tag va level table : Nat) : Option (WalkEnd × List (Nat × Nat)) × State :=
  let below := walkTables s.readEntry (vaBits va) level table
  let reads := ((level, table) :: below).flatMap fun x => tableReads s.readEntry (vaBits va) x.1 x.2
  let w := walkFrom s.readEntry (vaBits va) level table
  let (bad, s) := reads.foldl (fun (p : Bool × State) a =>
    let (b, s) := p.2.meetErrors none tag a
    (p.1 || b, s)) (false, s)
  if bad then (none, s) else (some (w, below), s)

/-- A walk that fills no cache (R316). -/
def State.walkMeet (s : State) (tag va : Nat) : Option WalkEnd × State :=
  match s.walkOver tag va 5 (s.ctx tag).ptroot with
  | (none, s) => (none, s)
  | (some (w, _), s) => (some w, s)

/-- A walk of a unit (R297, R302, R303): it goes on from what its walk cache holds, and fills it. -/
def State.walkBy (s : State) (unit tag va : Nat) : Option WalkEnd × State :=
  match s.walkOver tag va (s.walkStart unit tag va).1 (s.walkStart unit tag va).2 with
  | (none, s) => (none, s)
  | (some (w, below), s) => (some w, s.fillWalks unit tag va below)

/-- A valid leaf found by a walk: checked, A and D set, cached (R305, R307). -/
def State.useLeaf (s : State) (unit tag : Nat) (sup : Bool) (kind va : Nat) (w : WalkEnd) : TRes × State :=
  if !permitted w.entry kind sup then (.fault 0x21 0, s)
  else
    let needD := kind == 1 || kind == 3
    let e := w.entry ||| 0x200 ||| (if needD then 0x400 else 0)
    let s := if e = w.entry then s else s.setEntry tag w.slot e
    (.ok (leafPa e va) e, s.fillTlb unit tag va w.level w.slot e)

/-- A translation by a walk. -/
def State.walkLeaf (s : State) (unit tag : Nat) (sup : Bool) (kind va : Nat) : TRes × State :=
  match s.walkBy unit tag va with
  | (none, s) => (.bad, s)
  | (some w, s) => if w.kind = .leaf then s.useLeaf unit tag sup kind va w else (.fault 0x20 0, s)

/-- An entry with a parity error is discarded (R17). -/
def State.meetTlb (s : State) (unit tag va : Nat) : State :=
  let here := fun (p : FlawPlace) => match p with
    | .tlb u t a => u == unit && t == tag && s.tlb.any fun (x : TlbEntry) => x.covers unit tag va && x.covers unit tag a
    | _ => false
  if s.flaws.any fun f => here f.place then
    { s with flaws := s.flaws.filter fun f => !here f.place, tlb := s.tlb.filter fun t => !t.covers unit tag va }
  else s

/-- Translation without first touch (R299 to R307). A cached translation that refuses the access, or holds D = 0 for a
write, is dropped and the walk made again. -/
def State.translateNoFt (s : State) (unit tag : Nat) (sup : Bool) (kind va : Nat) : TRes × State :=
  if !canonical (BitVec.ofNat 64 va) then (.fault 0x20 0, s)
  else
    let s := s.meetTlb unit tag va
    match s.tlb.find? fun t => t.covers unit tag va with
    | some t =>
      if permitted t.entry kind sup && (pteD t.entry || !(kind == 1 || kind == 3)) then (.ok (leafPa t.entry va) t.entry, s)
      else { s with tlb := s.tlb.filter fun t => !t.covers unit tag va }.walkLeaf unit tag sup kind va
    | none => s.walkLeaf unit tag sup kind va

/-! ### Accesses -/

/-- The outcome of an access: a value; a translation fault with its cause, pool code and address; a poisoned sector; or a
wait, for the end of a write tenure or for the first-touch unit. -/
inductive Acc (α : Type) where
  | ok (a : α)
  | fault (cause pool addr : Nat)
  | bad
  | wait
  deriving DecidableEq, Repr, Inhabited

/-- One access after another. -/
def andThen {α β : Type} (r : State × Acc α) (k : State → α → State × Acc β) : State × Acc β :=
  match r with
  | (s, .ok a) => k s a
  | (s, .fault c p a) => (s, .fault c p a)
  | (s, .bad) => (s, .bad)
  | (s, .wait) => (s, .wait)

/-- What is left of accesses that did not all go through: the contention of R326 and what they asked of the first-touch
units. -/
def State.waited (s t : State) : State := { s with handles := t.handles, touches := t.touches }

/-- Accesses that are made all together: where one of them faults or waits, none has an effect. -/
def State.whole {α : Type} (s : State) (k : State → State × Acc α) : State × Acc α :=
  match k s with
  | (t, .ok a) => (t, .ok a)
  | (t, .bad) => (t, .bad)
  | (t, r) => (s.waited t, r)

/-- A translated access at its home slice: it meets the sector's errors and another core's write tenure, and takes its root's
directory entry (R16, R235, R324). -/
def State.atHome (s : State) (tag : Nat) (core : Option Nat) (write : Bool) (pa : Nat) : State × Acc Unit :=
  match s.meetErrors core tag pa with
  | (true, s) => (s, .bad)
  | (false, s) =>
    if s.heldBack pa core then (s.contend pa core write, .wait)
    else if s.dirFull pa then (s, .wait) else (s.enter pa, .ok ())

/-! ### First touch -/

/-- The ring of an anonymous leaf (R309). -/
def ringOf (e : Word64) : Nat := if pteSz e = 0 then 0 else if pteSz e = 2 then 1 else 2

/-- A first touch that a unit still serves. -/
def Touch.active (t : Touch) : Bool := match t.stage with | .empty _ => false | _ => true

/-- Who makes an access of a unit: in a rick, the wave whose turn it is. -/
def State.askerOf (s : State) (unit va : Nat) : Asker :=
  if unit < 48 then ⟨unit, s.me.map fun w => w.id, 0⟩ else ⟨unit, none, va⟩

/-- Answers that nobody waits for go. -/
def State.dropAnswers (s : State) (p : Asker → Bool) : State :=
  { s with touches := (s.touches.map fun t => { t with asks := t.asks.filter fun a => !p a }).filter fun t =>
      t.active || !t.asks.isEmpty }

/-- An access to an anonymous page waits for the unit of its die, which serves one request for an entry (R309). An access
for which the unit found the ring empty faults; every lane of a wave's instruction does, and the answer goes when the
instruction has ended (R62, R306). -/
def State.askTouch (s : State) (unit tag die kind va : Nat) (w : WalkEnd) : TRes × State :=
  let me := s.askerOf unit va
  let here := fun (t : Touch) => t.die == die && t.slot == w.slot
  match s.touches.find? fun t => here t && !t.active && t.asks.contains me with
  | some t =>
    let ring := match t.stage with | .empty r => r | _ => 0
    (.fault 0x22 ring, if me.wave.isSome then s else s.dropAnswers (· == me))
  | none =>
    let mine := fun (t : Touch) => here t && t.active
    if s.touches.any mine then
      (.wait, { s with touches := modWhere s.touches mine fun t => { t with asks := if t.asks.contains me then t.asks else t.asks ++ [me] } })
    else (.wait, { s with touches := s.touches ++ [⟨die, tag, w.slot, w.entry, va, kind == 1 || kind == 3, .asked, [me]⟩] })

/-- Translation with first touch (R306, R309). -/
def State.translate (s : State) (unit tag die : Nat) (sup : Bool) (kind va : Nat) : TRes × State :=
  match s.translateNoFt unit tag sup kind va with
  | (.fault c p, s) =>
    if !canonical (BitVec.ofNat 64 va) then (.fault c p, s)
    else (match s.walkBy unit tag va with
      | (none, s) => (.bad, s)
      | (some w, s) =>
        if w.kind ≠ .anon ∨ kind = 2 then (.fault c p, s)
        else if !permitted w.entry kind sup then (.fault 0x21 0, s)
        else s.askTouch unit tag die kind va w)
  | r => r

/-! ### The hardware's own accesses -/

/-- A read that the core's L1 serves needs no translation (R303): the physical address and the leaf through which the copy was
filled, which lets the wave read. An error in the copy is met: one that cannot be corrected drops a clean copy, and the access
misses (R15, R17). -/
def State.l1Serve (s : State) (core : Option Nat) (tag : Nat) (sup : Bool) (kind va : Nat) :
    Option (Nat × Word64) × State :=
  match core with
  | none => (none, s)
  | some c =>
    if kind ≠ 0 then (none, s)
    else
      match s.l1Hit c tag va with
      | none => (none, s)
      | some l =>
        let here := fun (p : FlawPlace) => match p with
          | .l1 x a | .revmap x a => x == c && sectorBase a == l.pa
          | _ => false
        if !permitted l.leaf 0 sup || s.poison.contains l.pa || (s.dirtyIn c l.pa && s.flaws.any fun f => here f.place) then (none, s)
        else match s.takeFlaws (dieOf c) here with
          | (true, s) => (none, { s with l1 := s.l1.erase l })
          | (false, s) => (some (l.pa + va % 32, l.leaf), s)

/-- An access of n bytes translated, piece by piece: physical address, bytes and leaf of each sector piece. Where several
pieces would fault, the first in address order gives the access's cause (DESIGN CHOICE, log 61). -/
def State.locate (s : State) (unit tag die : Nat) (sup : Bool) (kind : Nat) (core : Option Nat) :
    List (Nat × Nat) → State × Acc (List (Nat × Nat × Word64))
  | [] => (s, .ok [])
  | (va, n) :: rest =>
    match s.l1Serve core tag sup kind (va % 2 ^ 64) with
    | (some (pa, e), s) => andThen (State.locate s unit tag die sup kind core rest) fun s l => (s, .ok ((pa, n, e) :: l))
    | (none, s) =>
      match s.translate unit tag die sup kind (va % 2 ^ 64) with
      | (.fault c p, s) => (s, .fault c p (va % 2 ^ 64))
      | (.bad, s) => (s, .bad)
      | (.wait, s) => (s, .wait)
      | (.ok pa e, s) =>
        andThen (s.atHome tag core (kind == 1 || kind == 3) pa) fun s _ =>
        andThen (State.locate s unit tag die sup kind core rest) fun s l => (s, .ok ((pa, n, e) :: l))

/-- The lines of L2 that located pieces use (R281). -/
def State.useHome (s : State) (hint : Nat) (l : List (Nat × Nat × Word64)) : State :=
  l.foldl (fun s p => s.useL2 (sectorBase p.1) hint (cacheMode p.2.2)) s

/-- A device-scope load of n bytes of a context's memory by the hardware, with a hint. -/
def State.hwLoadHint (s : State) (unit tag die : Nat) (sup : Bool) (va n hint : Nat) : State × Acc (List Byte) :=
  andThen (s.locate unit tag die sup 0 none (piecesOf va n)) fun s l =>
    (s.useHome hint l, .ok (l.flatMap fun p => s.homeBytes p.1 p.2.1))
/-- The same without one. -/
def State.hwLoad (s : State) (unit tag die : Nat) (sup : Bool) (va n : Nat) : State × Acc (List Byte) :=
  s.hwLoadHint unit tag die sup va n 0

/-- The physical address behind a virtual one, by a walk without an access. -/
def State.physOf (s : State) (tag va : Nat) : Option Nat :=
  let w := s.walk tag va
  if w.kind = .leaf then some (leafPa w.entry va) else none

/-- Whether one of the k bytes at a virtual address lies in the physical bytes [pa, pa + n). -/
def State.storeHits (s : State) (tag va k pa n : Nat) : Bool :=
  (List.range k).any fun i => decide ((va + i + 4096 - pa % 4096) % 4096 < n) &&
    (match s.physOf tag (va + i) with | some p => decide (pa ≤ p) && decide (p < pa + n) | none => false)

/-- The events that the completion of a store raises: the doorbell of each user queue whose DOORBELL it touches (R114,
R117), and the resumption of each stopped queue whose QSTATE it sets to 0 (R116). -/
def State.bellsFor (s : State) (pa : Nat) (bs : List Byte) : List Instr :=
  (s.ctxs.flatMap fun c => ((List.range c.qcount).filter fun q =>
    s.storeHits c.tag (c.qlist + 64 * q + 0x20) 8 pa bs.length).map fun q => Instr.doorbell c.tag q) ++
  ((s.queues.filter fun x => x.st == .stopped &&
    s.storeHits x.tag ((s.ctx x.tag).qlist + 64 * x.q + 13) 1 pa bs.length &&
    (match s.physOf x.tag ((s.ctx x.tag).qlist + 64 * x.q + 13) with
     | some p => bs.getD (p - pa) 1 == 0
     | none => false)).map fun x => Instr.queueResume x.tag x.q)

/-- The bytes of a store with those in a DOORBELL zero: that field is write only and reads as zero (R114). -/
def State.doorless (s : State) (pa : Nat) (bs : List Byte) : List Byte :=
  let bells := s.ctxs.flatMap fun c => (List.range c.qcount).filterMap fun q =>
    let va := c.qlist + 64 * q + 0x20
    if s.storeHits c.tag va 8 pa bs.length then some (c.tag, va) else none
  bells.foldl (fun bs x => (List.range 8).foldl (fun bs i => match s.physOf x.1 (x.2 + i) with
    | some p => if pa ≤ p then bs.set (p - pa) 0 else bs
    | none => bs) bs) bs

/-- A write of bytes of one sector to a translated place enters: it notifies the queues whose DOORBELL or QSTATE it reaches
(R114, R116, R117). -/
def State.enterWrite (s : State) (agent : Agent) (tag core : Option Nat) (pa : Nat) (e : Word64) (bs : List Byte) : Nat × State :=
  s.newWrite agent tag core (cellsAt pa (s.doorless pa bs)) (grainBytes (pteGrain e)) (cacheMode e) (ptePool e) (s.bellsFor pa bs)

/-- The same of a write that is made at home, or of an atomic's: it is accepted at once unless something holds it back. -/
def State.putHome (s : State) (agent : Agent) (tag core : Option Nat) (pa : Nat) (e : Word64) (bs : List Byte) : Nat × State :=
  let (id, s) := s.enterWrite agent tag core pa e bs
  (id, s.acceptOr id)

/-- The pieces of a store, each with its bytes: one write for each sector (R242). -/
def State.storePieces (s : State) (agent : Agent) (tag core : Option Nat) (now : Bool) :
    List (Nat × Nat × Word64) → List Byte → List Nat × State
  | [], _ => ([], s)
  | (pa, n, e) :: rest, bs =>
    let (id, s) := s.enterWrite agent tag core pa e (bs.take n)
    let s := (if now then s.acceptNow id else s).useHome 0 [(pa, n, e)]
    let (ids, s) := State.storePieces s agent tag core now rest (bs.drop n)
    (id :: ids, s)

/-- A store by the hardware: the ids of its writes, accepted at once. -/
def State.hwStore (s : State) (agent : Agent) (unit tag die : Nat) (sup : Bool) (va : Nat) (bs : List Byte) :
    State × Acc (List Nat) :=
  andThen (s.locate unit tag die sup 1 none (piecesOf va bs.length)) fun s l =>
    let (ids, s) := s.storePieces agent (some tag) none true l bs
    (s, .ok ids)

/-- An atomic read-modify-write by the hardware in one sector: the old value, by the function of R243, and the id of its
write. -/
def State.hwAtomic (s : State) (unit tag die : Nat) (sup : Bool) (va n : Nat) (f : Nat → Nat) : State × Acc (Nat × Nat) :=
  andThen (s.locate unit tag die sup 3 none [(va, n)]) fun s l =>
    let (pa, _, e) := l.headD default
    let s := s.useHome 0 l
    let old := natOfBytes (s.latestBytes pa n)
    let (id, s) := s.putHome .engine (some tag) none pa e (bytesOfNat n (f old))
    (s, .ok (old, id))

/-- A physical store by the hardware, for a context, accepted at once unless a tenure holds it (R235); a poisoned sector is
not written, and faults the context (R252). -/
def State.physStore (s : State) (tag pa : Nat) (bs : List Byte) : List Nat × State :=
  (piecesOf pa bs.length).foldl (fun p x => match p.2.meetErrors none tag x.1 with
    | (true, s) => (p.1, s.faultLater tag)
    | (false, s) =>
      let (id, s) := s.writeHome (some tag) (cellsAt x.1 ((bs.drop (x.1 - pa)).take x.2)) 32 .normal (decide (poolBase ≤ x.1))
      (p.1 ++ [id], s)) ([], s)

/-! ### Accesses of harts and of firmware commands -/

/-- How an access of a hart ends: a value, a page fault at an address, a guest page fault with the guest's physical address,
a poisoned sector, a wait, or an address that no memory has. -/
inductive HAcc (α : Type) where
  | ok (a : α)
  | page (va : Nat)
  | guest (va gpa : Nat)
  | bad (tag : Option Nat)
  | wait
  | absent
  deriving DecidableEq, Repr, Inhabited

/-- One access after another. -/
def hartThen {α β : Type} (r : State × HAcc α) (k : State → α → State × HAcc β) : State × HAcc β :=
  match r with
  | (s, .ok a) => k s a
  | (s, .page a) => (s, .page a)
  | (s, .guest a g) => (s, .guest a g)
  | (s, .bad t) => (s, .bad t)
  | (s, .wait) => (s, .wait)
  | (s, .absent) => (s, .absent)

/-- The attributes of a physical access: those of a page of the pool, or of normal HBM (log 25). -/
def physLeaf (pa : Nat) : Word64 := if poolBase ≤ pa then 0x0090000000000000 else 0

/-- Physical accesses: in M-mode and Bare, and by firmware commands. In recovery mode there is no pool (R432). -/
def State.locatePhys (s : State) (kind : Nat) : List (Nat × Nat) → State × HAcc (List (Nat × Nat × Word64))
  | [] => (s, .ok [])
  | (pa, n) :: rest =>
    if (hbmEnd ≤ pa ∧ pa < poolBase) ∨ 2 ^ 52 ≤ pa ∨ (poolBase ≤ pa ∧ s.boot.recovery) then (s, .absent)
    else match s.meetErrors none 0 pa with
      | (true, s) => (s, .bad none)
      | (false, s) =>
        if s.heldBack pa none then (s.contend pa none (kind == 1 || kind == 3), .wait)
        else if s.dirFull pa then (s, .wait)
        else hartThen (State.locatePhys (s.enter pa) kind rest) fun s l => (s, .ok ((pa, n, physLeaf pa) :: l))

/-- Completed bytes at located pieces, as a load returns them (R233). -/
def State.pieceBytes (s : State) (l : List (Nat × Nat × Word64)) : List Byte := l.flatMap fun p => s.homeBytes p.1 p.2.1

end Sys2Proof.Machine
end

