-- ==== Sys2Proof/Machine/Operands.lean ====
section
/-! DEFINITION. Operands: constants by the type that they feed, scalar and vector sources, queue pops, and destinations
(spec/02_formats.md R23 to R34, spec/03_opcodes.md R50 to R53, spec/09_integer.md R170). -/

namespace Sys2Proof.Machine

/-- The outcome of a step. -/
abbrev Out := Host.Outcome State Fault Refusal

/-! ### Constants -/

/-- The type of the operand that a source feeds: an integer of w bits (8 and 16 packed), or a floating-point format. -/
inductive Feed where
  | int (w : Nat)
  | fp (f : FFmt)
  deriving DecidableEq, Repr, Inhabited

/-- The feed of a type code (R56). -/
def Feed.ofTy (t : Nat) : Feed := if 0xA ≤ t ∧ t ≤ 0xD then .fp (FFmt.ofTy t) else .int (tyWidth t)
/-- A 64-bit operand (R28). -/
def Feed.wide : Feed → Bool | .int w => w == 64 | .fp f => f == .f64

/-- The FP32 constant table (R25). -/
def fconstBits (n : BitVec 4) : Word :=
  ([0x3F000000, 0xBF000000, 0x3E800000, 0x3FC00000, 0x3F317218, 0x3FB8AA3B, 0x40490FDB, 0x3EA2F983, 0x40C90FDB,
    0x3B808081, 0x37800080, 0x7F800000, 0xFF800000, 0x7F7FFFFF, 0x00800000, 0x7FC00000] : List Word).getD n.toNat 0

/-- An integer in every element of an operand of w-bit elements (R26, R170). -/
def spreadInt (w : Nat) (n : Int) : Word64 :=
  if w = 64 then wrap 64 n
  else if w = 16 then pack16 ((wrap 16 n).setWidth 64) ((wrap 16 n).setWidth 64)
  else if w = 8 then
    let b := (n % 256).toNat
    BitVec.ofNat 64 (b * 0x01010101)
  else (wrap 32 n).setWidth 64

/-- A value of a format in an operand: both halves of a packed one (R26). -/
def spreadFp (f : FFmt) (x : Word64) : Word64 := match f with | .f16 | .bf16 => pack16 x x | _ => x

/-- An FP32 pattern as an operand of a format (R26, R35). -/
def fpPattern (f : FFmt) (i : Word) : Word64 :=
  match f with
  | .f32 => i.setWidth 64
  | _ => spreadFp f (fpCvt .f32 f .rne (i.setWidth 64)).1

/-- A constant operand, or none, in the operand that it feeds (R26). -/
def Feed.const (k : Feed) (o : Opnd) : Word64 :=
  match o, k with
  | .int n, .int w => spreadInt w n.toInt
  | .int n, .fp f => spreadFp f (fpOfInt f .rne n.toInt).1
  | .fconst n, .int _ => (fconstBits n).setWidth 64
  | .fconst n, .fp f => fpPattern f (fconstBits n)
  | _, _ => 0

/-- IMM32 as operand B (R35, R50); a 64-bit integer operand is extended by the type's sign, bits as signed. -/
def Feed.immediate (k : Feed) (signed : Bool) (i : Word) : Word64 :=
  match k with
  | .int w => if w = 64 then (if signed then i.signExtend 64 else i.setWidth 64) else i.setWidth 64
  | .fp f => fpPattern f i

/-! ### Special registers -/

/-- The wave's trap area (R100). -/
def State.trapArea (s : State) (w : Wave) : Nat :=
  (s.ctx (s.tagOf w)).supbase + 1024 * (w.id.core * 64 + w.id.part * 8 + w.id.slot)

/-- The PC field of the trap frame, as a load of the wave returns it (R101); a free value where it does not translate
(log 11). -/
def State.framePc (s : State) (w : Wave) : Word64 :=
  let t := s.trapArea w
  match s.translate (rickOf w.id.core) (s.tagOf w) (dieOf w.id.core) true 0 t with
  | (.ok pa _, s) => BitVec.ofNat 64 (natOfBytes (tabulate 8 fun i => (s.waveByte w.id (pa + i)).1))
  | (_, s) => Config.freeValue s.serial

/-- A read of `%trappc` meets the errors of the frame's sector, and of the tables that translate it, as a load does (R15, R16):
true when the sector is poisoned. -/
def State.meetFrame (s : State) (w : Wave) : Bool × State :=
  match s.translate (rickOf w.id.core) (s.tagOf w) (dieOf w.id.core) true 0 (s.trapArea w) with
  | (.ok pa _, s) => s.meetErrors (some w.id.core) (s.tagOf w) pa
  | (.bad, s) => (true, s)
  | (_, s) => (false, s)

/-- The value of a special register at issue (R29, R67). -/
def State.specVal (s : State) (w : Wave) (r : SpecReg) : Word64 :=
  let c := s.cordOf w
  let n := fun (x : Nat) => BitVec.ofNat 64 (x % 2 ^ 32)
  match r with
  | .laneid => 0
  | .waveid => n w.index
  | .wavecount => n c.kernel.waves
  | .cordid => n c.cordid
  | .cordcount => n c.count
  | .coreid => n w.id.core
  | .rickid => n (rickOf w.id.core)
  | .dieid => n (dieOf w.id.core)
  | .partition => n w.id.part
  | .side => n (sideOf w.id.part)
  | .time => BitVec.ofNat 64 s.time
  | .fpflags => w.fpflags.setWidth 64
  | .horizon => BitVec.ofNat 64 w.horizon
  | .srseed => w.srseed
  | .frame => BitVec.ofNat 64 c.frame
  | .trapcause => w.trapcause.setWidth 64
  | .trapmask => 0
  | .trappc => s.framePc w
  | .trapinfo => w.trapinfo
  | .rgndepth => w.rgndepth.setWidth 64

/-! ### Sources -/

/-- A scalar source, a constant, none or a special register (R27, R28). -/
def State.readS (s : State) (w : Wave) (k : Feed) (o : Opnd) : Word64 :=
  match o with
  | .s n => (w.sAt n.toNat).setWidth 64
  | .sp n => if k.wide then w.spAt n.toNat else (w.sAt (2 * n.toNat)).setWidth 64
  | .spec r => let x := s.specVal w r; if k.wide then x else (lo32 x).setWidth 64
  | o => k.const o

def widen (l : Lanes) : List Word64 := l.map fun x => x.setWidth 64
def pairLanes (lo hi : Lanes) : List Word64 := List.zipWith pair32 lo hi
/-- One lane of a list of lane values. -/
def laneOf (l : List Word64) (i : Nat) : Word64 := l.getD i 0

/-- A vector source in 96 lanes (R27, R28); `nth` is the place among the instruction's pops of the queue (R34). -/
def State.readV (s : State) (w : Wave) (k : Feed) (nth : Nat) (o : Opnd) : List Word64 :=
  match o with
  | .v n => if k.wide then pairLanes (w.vAt n.toNat) (w.vAt (n.toNat + 1)) else widen (w.vAt n.toNat)
  | .o n => if k.wide then pairLanes (w.oAt n.toNat) (w.oAt (n.toNat + 1)) else widen (w.oAt n.toNat)
  | .l n => widen (w.lAt n.toNat)
  | .q n => widen ((w.q.getD n.toNat []).getD nth zeroLanes)
  | .spec .laneid => tabulate laneCount fun i => BitVec.ofNat 64 i
  | o => List.replicate laneCount (s.readS w k o)

/-- A mask source (R27): k0 to k7 or `%trapmask`. -/
def Wave.readK (w : Wave) (o : Opnd) : Mask :=
  match o with
  | .k n => w.kAt n.toNat
  | .spec .trapmask => w.trapmask
  | _ => 0

/-- A condition source. -/
def Wave.readC (w : Wave) (o : Opnd) : Bool := match o with | .c n => w.cAt n.toNat | _ => false

/-- How many of a list of operands pop a queue. -/
def popsOf (l : List Opnd) (q : BitVec 2) : Nat := (l.filter fun o => o == .q q).length
/-- The place of a field's pop: the fields before it that name the same queue (R34). -/
def nthPop (before : List Opnd) (o : Opnd) : Nat := match o with | .q n => popsOf before n | _ => 0

/-- Sources A, B and C as lanes (R34). -/
def State.srcA (s : State) (w : Wave) (k : Feed) (f : Fields) : List Word64 := s.readV w k 0 f.a
/-- Operand B, from its field or, in W96, from IMM32 (R50). -/
def State.srcB (s : State) (w : Wave) (k : Feed) (signed : Bool) (f : Fields) : List Word64 :=
  match f.fmt with
  | .w96 i => List.replicate laneCount (k.immediate signed i)
  | _ => s.readV w k (nthPop [f.a] f.b) f.b
def State.srcC (s : State) (w : Wave) (k : Feed) (f : Fields) : List Word64 := s.readV w k (nthPop [f.a, f.b] f.c) f.c
/-- Field B itself, where IMM32 does not supply it. -/
def State.fieldB (s : State) (w : Wave) (k : Feed) (f : Fields) : List Word64 := s.readV w k (nthPop [f.a] f.b) f.b

/-- Scalar operand B (R50). -/
def State.scalB (s : State) (w : Wave) (k : Feed) (signed : Bool) (f : Fields) : Word64 :=
  match f.fmt with
  | .w96 i => k.immediate signed i
  | _ => s.readS w k f.b

/-- The popped entries of the instruction's queues leave them (R34). -/
def Wave.pop (w : Wave) (srcs : List Opnd) : Wave :=
  { w with q := (List.range w.q.length).zipWith (fun i e => e.drop (popsOf srcs (BitVec.ofNat 2 i))) w.q }

/-! ### Destinations -/

/-- A 32-bit or, when `wide`, 64-bit result in the active lanes of a v or o destination. -/
def Wave.putV (w : Wave) (m : Mask) (wide : Bool) (d : Opnd) (x : List Word64) : Wave :=
  let lo := x.map lo32
  let hi := x.map hi32
  match d with
  | .v n =>
    let w := w.setV n.toNat (mergeLanes m (w.vAt n.toNat) lo)
    if wide then w.setV (n.toNat + 1) (mergeLanes m (w.vAt (n.toNat + 1)) hi) else w
  | .o n =>
    let w := w.setO n.toNat (mergeLanes m (w.oAt n.toNat) lo)
    if wide then w.setO (n.toNat + 1) (mergeLanes m (w.oAt (n.toNat + 1)) hi) else w
  | _ => w

/-- The last-result file after a vector-ALU instruction (R150). -/
def Wave.shiftFor (w : Wave) (d : Opnd) : Wave :=
  match d with
  | .v n => w.shiftL (w.vAt n.toNat)
  | .o n => w.shiftL (w.oAt n.toNat)
  | _ => w

/-- A scalar destination: an s register, a pair, or none. -/
def Wave.putS (w : Wave) (d : Opnd) (x : Word64) : Wave :=
  match d with
  | .s n => w.setS n.toNat (lo32 x)
  | .sp n => w.setSp n.toNat x
  | _ => w

def Wave.putC (w : Wave) (d : Opnd) (b : Bool) : Wave := match d with | .c n => w.setC n.toNat b | _ => w
def Wave.putK (w : Wave) (d : Opnd) (m : Mask) : Wave := match d with | .k n => w.setK n.toNat m | _ => w
/-- An index register in the lanes of a mask (R165). -/
def Wave.putX (w : Wave) (n : Nat) (m : Mask) (x : List (BitVec 16)) : Wave :=
  { w with x := modAt w.x n fun old => tabulate laneCount fun i => if m.getLsbD i then x.getD i 0 else old.getD i 0 }

/-! ### Register bounds and privilege -/

/-- The first register of a v span at or beyond the declared count, if any (R30). -/
def spanOver (n span count : Nat) : Option Nat := if count < n + span then some (max n count) else Option.none

/-- The register that makes an operand raise REGIDX, under an offset of REP (R30, R157). -/
def roleOver (r : Role) (regs sregs off : Nat) (o : Opnd) : Option Nat :=
  match r, o with
  | .unused, _ => Option.none
  | _, .v n => spanOver (n.toNat + off) r.span regs
  | _, .s n => spanOver n.toNat 1 sregs
  | .vs false _, .sp n => spanOver (2 * n.toNat) 1 sregs
  | .ss false, .sp n => spanOver (2 * n.toNat) 1 sregs
  | .si _, .sp n => spanOver (2 * n.toNat) 1 sregs
  | .sin, .sp n => spanOver (2 * n.toNat) 1 sregs
  | .sn, .sp n => spanOver (2 * n.toNat) 1 sregs
  | .s1, .sp n => spanOver (2 * n.toNat) 1 sregs
  | _, .sp n => spanOver (2 * n.toNat) 2 sregs
  | _, _ => Option.none

/-- %trapinfo of REGIDX: the index and the operand D, A, B, C as 0 to 3 (R61). -/
def regInfo (which n : Nat) : Word64 := BitVec.ofNat 64 (min n 511 + 512 * which)

/-- Check 5 of R40 in the order D, A, B, C (R157). -/
def sigRegidx (g : Sig) (f : Fields) (regs sregs : Nat) (od oa ob oc : Nat) : Option Word64 :=
  match roleOver g.d regs sregs od f.d with
  | some n => some (regInfo 0 n)
  | Option.none => match roleOver g.a regs sregs oa f.a with
    | some n => some (regInfo 1 n)
    | Option.none => match roleOver (g.bRole f) regs sregs ob f.b with
      | some n => some (regInfo 2 n)
      | Option.none => if f.isW then Option.none else match roleOver g.c regs sregs oc f.c with
        | some n => some (regInfo 3 n)
        | Option.none => Option.none

/-- A supervisor register named as an operand (R29, R40 check 4). -/
def supReg : Opnd → Bool | .spec r => r.sup || r == .trapmask | _ => false

/-- Check 4 of R40: a privileged opcode, or a supervisor register read or written (R49, R106). -/
def instrPriv (i : Instr) : Bool :=
  match i with
  | .tret _ | .pgInvVa _ | .pgInvCtx _ | .pgSync _ => true
  | .sysRd f => (f.sysReg.map SysReg.supRead).getD false
  | .sysWr f => (f.sysReg.map SysReg.supWrite).getD false || supReg f.a
  | i => match i.opFields with
    | some (_, f) => supReg f.d || supReg f.a || supReg f.b || supReg f.c
    | none => false

/-! ### Readiness -/

/-- A source that R33 checks: its place (0 D, 1 A, 2 B, 3 C), the registers it names, and its policy. `always` marks a
v source that is read whatever exec holds. -/
structure Src where
  which  : Nat
  o      : Opnd
  span   : Nat
  pol    : Bool
  always : Bool
  deriving DecidableEq, Repr, Inhabited

/-- Why a source is not ready: it would block, or it traps with a cause and %trapinfo (R33, R34). -/
inductive NotReady where
  | waits
  | traps (cause : Nat) (info : Word64)
  deriving DecidableEq, Repr, Inhabited

/-- The stream bound to a queue (R294): one that runs, has ended or has faulted. -/
def Wave.streamFor (w : Wave) (q : Nat) : Option Stream :=
  w.streams.find? fun x => x.run != .stopped && (x.bytes.getD 0x35 0).toNat == q

/-- %trapinfo of STREAM_FAULT (R293). -/
def streamInfo (addr : Nat) (perm : Bool) (kind q : Nat) : Word64 :=
  BitVec.ofNat 64 (q + 4 * kind + (if perm then 16 else 0) + 128 * (addr % 2 ^ 57))

/-- %trapinfo of FE_EMPTY (R61). -/
def emptyInfo (which : Nat) (field : BitVec 10) : Word64 := BitVec.ofNat 64 (field.toNat + 1024 * which)

/-- A queue that holds too few entries (R33, R293). -/
def Wave.queueShort (w : Wave) (q : BitVec 2) (s : Src) (field : BitVec 10) : NotReady :=
  match w.streamFor q.toNat with
  | Option.none => .traps 0x2A (streamInfo 0 false 2 q.toNat)
  | some x =>
    match x.run with
    | .ended => .traps 0x2A (streamInfo 0 false 1 q.toNat)
    | .faulted a p _ => .traps 0x2A (streamInfo a p 0 q.toNat)
    | _ => if s.pol then .traps 0x11 (emptyInfo s.which field) else .waits

/-- One source: none when it is ready (R33). `field` gives the 10-bit operand field that FE_EMPTY reports. -/
def Wave.srcReady (w : Wave) (all : List Opnd) (field : Opnd → BitVec 10) (s : Src) : Option NotReady :=
  match s.o with
  | .v n =>
    if (w.exec != 0 || s.always) && (List.range s.span).any (fun i => !w.full (n.toNat + i)) then
      some (if s.pol then .traps 0x11 (emptyInfo s.which (field s.o)) else .waits)
    else Option.none
  | .q n =>
    if (w.q.getD n.toNat []).length < popsOf all n then some (w.queueShort n s (field s.o)) else Option.none
  | _ => Option.none

/-- The sources of an instruction in the order A, B, C, D (R33, R35); `dpol` is the policy of D where D is read. -/
def sigSrcs (g : Sig) (f : Fields) (dread dpol : Bool) (always : Bool) : List Src :=
  (if g.a.isVecSrc then [⟨1, f.a, g.a.span, f.pol.getLsbD 0, always⟩] else []) ++
  (if (g.bRole f).isVecSrc then [⟨2, f.b, (g.bRole f).span, f.pol.getLsbD 1, always⟩] else []) ++
  (if !f.isW && g.c.isVecSrc then [⟨3, f.c, g.c.span, f.pol.getLsbD 2, always⟩] else []) ++
  (if dread then [⟨0, f.d, g.d.span, dpol, always⟩] else [])

/-- What the sources give: none when all are ready, else the first trap, else a wait (R33). -/
def Wave.ready (w : Wave) (field : Opnd → BitVec 10) (l : List Src) : Option NotReady :=
  let r := l.filterMap (w.srcReady (l.map fun s => s.o) field)
  match r.find? fun x => x != .waits with
  | some x => some x
  | Option.none => r.head?

/-- An error lies in what an operand of a wave names: `span` consecutive registers (R15). -/
def opndFlawed (id : WaveId) (span : Nat) (o : Opnd) (p : FlawPlace) : Bool :=
  match o, p with
  | .v n, .vreg w k _ => w == id && decide (n.toNat ≤ k) && decide (k < n.toNat + span)
  | .o n, .oreg w k _ => w == id && decide (n.toNat ≤ k) && decide (k < n.toNat + span)
  | .s n, .sreg w k => w == id && k == n.toNat
  | .sp n, .sreg w k => w == id && k / 2 == n.toNat
  | _, _ => false

/-- The operands that an instruction reads, each with the registers that it spans. -/
def sigReads (g : Sig) (f : Fields) (dread : Bool) : List (Opnd × Nat) :=
  [(f.a, g.a.span), (f.b, (g.bRole f).span)] ++ (if f.isW then [] else [(f.c, g.c.span)]) ++
    (if dread then [(f.d, g.d.span)] else [])

/-- The errors of what an instruction reads, `%trappc` included: true when one cannot be corrected (R15, R16). -/
def State.readErrors (s : State) (w : Wave) (l : List (Opnd × Nat)) : Bool × State :=
  match s.takeFlaws (dieOf w.id.core) fun p => l.any fun x => opndFlawed w.id x.2 x.1 p with
  | (true, s) => (true, s)
  | (false, s) => if l.any fun x => x.1 == .spec .trappc then s.meetFrame w else (false, s)

/-- Instructions that the limit of R146 holds: the loads, stores and atomics of registers, prefetches, texture, record and ray
reads. NODE.POP, CPY, MOS.FILL and QPUSH are not held, though their accesses count (DESIGN CHOICE, log 46). -/
def usesMemory : Instr → Bool
  | .ld _ | .st _ | .ldK _ | .sLd _ | .sSt _ | .kLd _ | .kSt _ | .atom _ | .red _ | .pref _ | .texSmp _ | .texGthr _ | .texLd _
  | .recLd _ | .rtBox _ | .rtTri _ | .rtTriReg _ | .rtTrace _ => true
  | _ => false

/-- A v destination that is not full: the instruction waits before it writes (R152). -/
def Wave.destBusy (w : Wave) (o : Opnd) (span : Nat) : Bool :=
  match o with
  | .v n => (List.range span).any fun i => !w.full (n.toNat + i)
  | _ => false

/-- An earlier instruction of the wave that can set a floating-point flag has not completed (R68). -/
def State.flagsPending (s : State) (w : Wave) : Bool :=
  s.fills.any (fun f => f.wave == w.id && f.fp) ||
  s.mmaOps.any (fun o => o.members.any fun m => m.wave == w.id) ||
  s.cords.any (fun c => c.gathers.any fun g => g.members.any fun m => m.wave == w.id)

end Sys2Proof.Machine
end

