-- ==== Sys2Proof/Machine/QueuePair.lean ====
section
/-! DEFINITION. Fields of the device's structures in memory, rings of the layout of R372, and a queue pair's context,
flush and completions (spec/20_link.md R407 to R413, spec/18_geometry.md R372). -/

namespace Sys2Proof.Machine

/-! ### Fields in memory -/

/-- n bytes at an offset as a number. -/
def numAt (bs : List Byte) (off n : Nat) : Nat := natOfBytes ((bs.drop off).take n)
def byteAt (bs : List Byte) (off : Nat) : Nat := (bs.getD off 0).toNat
/-- Whether all of n bytes at an offset are zero. -/
def zeroAt (bs : List Byte) (off n : Nat) : Bool := ((bs.drop off).take n).all fun b => b == 0

/-! ### Rings (R372, R411, R429) -/

/-- Entry of a ring written by the hardware: the ring's descriptor at `desc`, entries of `esz` bytes whose last four are
MARK. The value is false while the ring is full or LOG2 lies outside 4 to 20. The entry becomes visible whole, MARK
with it, after TAIL. -/
def State.ringPost (s : State) (unit tag die desc esz : Nat) (entry : List Byte) : State × Acc Bool :=
  andThen (s.hwLoad unit tag die true desc 32) fun s d =>
    let base := numAt d 0 8
    let head := numAt d 8 8
    let tail := ((s.physOf tag (desc + 16)).map fun pa => natOfBytes (s.ownBytes pa 8)).getD (numAt d 16 8)
    let lg := byteAt d 24
    if lg < 4 ∨ 20 < lg ∨ 2 ^ lg ≤ tail - head then (s, .ok false)
    else
      let va := base + esz * (tail % 2 ^ lg)
      andThen (s.locate unit tag die true 1 none (piecesOf va esz)) fun s _ =>
      andThen (s.hwStore .engine unit tag die true (desc + 16) (bytesOfNat 8 (tail + 1))) fun s i =>
      andThen (s.hwStore .engine unit tag die true va (entry ++ bytesOfNat 4 (tail + 1))) fun s j =>
      let t := ((i ++ j).map s.ctimeOf).foldl max 0
      (j.foldl (fun s x => s.notBefore t x) s, .ok true)

/-- An event can be posted to a die's ring now (R429): no earlier one waits for room and the ring has room. Else its source
waits. A ring that NKEVT disables holds nothing up (log 41). -/
def State.mayPost (s : State) (die : Nat) : Bool :=
  let at_ := s.nkevt.getD die 0
  at_ == 0 || (!(s.events.any fun e => e.1 == die) &&
    (s.ringPost unitSched 0 die at_.toNat 16 (List.replicate 12 0)).2 == .ok true)

/-! ### Queue-pair contexts (R407) -/

/-- The translation cache of the queue pairs (R303). -/
def unitQp : Nat := 56

def State.qpPa (s : State) (qpn : Nat) : Nat := s.nkqpbase.toNat + 128 * qpn
/-- The bytes of a context, as the hardware's own latest writes leave them. -/
def State.qpBytes (s : State) (qpn : Nat) : List Byte := s.ownBytes (s.qpPa qpn) 128
def State.qpPut (s : State) (qpn off : Nat) (bs : List Byte) : State :=
  (s.physStore (numAt (s.qpBytes qpn) 2 2 % 4096) (s.qpPa qpn + off) bs).2

def qpState (b : List Byte) : Nat := byteAt b 0 % 16
def qpRelaxed (b : List Byte) : Bool := byteAt b 0 / 16 % 2 == 1
def qpTag (b : List Byte) : Nat := numAt b 2 2 % 4096
def qpPeer (b : List Byte) : Nat := byteAt b 4
def qpRqpn (b : List Byte) : Nat := numAt b 5 3
def qpNpsn (b : List Byte) : Nat := numAt b 8 3
def qpEpsn (b : List Byte) : Nat := numAt b 12 3
def qpRetry (b : List Byte) : Nat := byteAt b 15 % 16
def qpRnrlim (b : List Byte) : Nat := byteAt b 15 / 16
def qpAckto (b : List Byte) : Nat := numAt b 16 2
def qpSq (b : List Byte) : Nat := numAt b 20 8
def qpCq (b : List Byte) : Nat := numAt b 28 8
/-- A reserved field of the context is set (R407). -/
def qpReserved (b : List Byte) : Bool :=
  byteAt b 0 / 32 != 0 || byteAt b 3 / 16 != 0 || byteAt b 11 != 0 || !zeroAt b 18 2 || !zeroAt b 36 92

def State.qpSetState (s : State) (qpn st : Nat) : State :=
  s.qpPut qpn 0 [BitVec.ofNat 8 (byteAt (s.qpBytes qpn) 0 / 16 * 16 + st)]

/-- A queue pair's own state that holds nothing. -/
def Qp.empty (qpn : Nat) : Qp :=
  { qpn := qpn, cached := [], reqs := [], unacked := [], retries := 0, rnr := 0, acks := [], backoff := none, results := [],
    answers := [], pending := [], port := none, drainTo := 0 }
def State.qp (s : State) (qpn : Nat) : Qp := (s.qps.find? fun q => q.qpn == qpn).getD (Qp.empty qpn)
def State.modQp (s : State) (qpn : Nat) (f : Qp → Qp) : State :=
  if s.qps.any fun q => q.qpn == qpn then { s with qps := modWhere s.qps (fun q => q.qpn == qpn) f }
  else { s with qps := s.qps ++ [f (Qp.empty qpn)] }

/-! ### Completions and flush (R411, R413) -/

/-- A completion entry without its MARK (R411). -/
def completionEntry (qpn : Nat) (r : QpReq) (st : Nat) : List Byte :=
  (r.bytes.drop 0x28).take 8 ++ bytesOfNat 4 qpn ++ [BitVec.ofNat 8 st, r.bytes.getD 0 0, 0, 0] ++
    bytesOfNat 8 r.result.toNat ++ bytesOfNat 4 r.idx

/-- Requests that have ended complete in the order in which they were taken (R411, R412): each waits for its own local
writes and for room in the completion ring. A request without SIGNAL that ends with status 0 writes no entry. -/
def State.qpCompleteLoop (qpn : Nat) : Nat → State → State
  | 0, s => s
  | n + 1, s =>
    match (s.qp qpn).reqs with
    | [] => s
    | r :: _ =>
      match r.status with
      | none => s
      | some st =>
        if !s.allDone r.writes then s
        else
          let drop := fun (s : State) => s.modQp qpn fun q => { q with reqs := q.reqs.drop 1 }
          if st = 0 ∧ byteAt r.bytes 1 % 2 = 0 then State.qpCompleteLoop qpn n (drop s)
          else
            let b := s.qpBytes qpn
            match s.ringPost unitQp (qpTag b) 0 (qpCq b) 32 (completionEntry qpn r st) with
            | (s, .ok true) => State.qpCompleteLoop qpn n (drop s)
            | (s, _) => s

def State.qpComplete (s : State) (qpn : Nat) : State := State.qpCompleteLoop qpn ((s.qp qpn).reqs.length + 1) s

/-- A queue pair enters ERROR (R413): `fail` is the failing request and its status, none when the owning context ends. Every
other request that has not completed, answered or not, is FLUSHED. -/
def State.qpError (s : State) (qpn : Nat) (fail : Option (Nat × Nat)) : State :=
  let s := s.qpComplete qpn
  let s := match fail with | some (_, x) => s.qpPut qpn 1 [BitVec.ofNat 8 x] | none => s
  let s := s.qpSetState qpn 5
  let status := fun (r : QpReq) => match fail with | some (i, x) => if r.idx = i then x else 1 | none => 1
  (s.modQp qpn fun q => { q with
    reqs := q.reqs.map fun (r : QpReq) => { r with status := some (status r), result := 0, writes := [] }
    unacked := []
    backoff := none }).qpComplete qpn

/-- The queue pairs of a context that are in INIT, READY, ACTIVE or DRAINING (R408). -/
def State.qpsOf (s : State) (tag : Nat) : List Nat :=
  (s.qps.filter fun q =>
    let b := s.qpBytes q.qpn
    decide (qpTag b = tag) && decide (1 ≤ qpState b) && decide (qpState b ≤ 4)).map fun q => q.qpn

end Sys2Proof.Machine
end

