-- ==== Sys2Proof/Machine/FirstTouch.lean ====
section
/-! DEFINITION. The first-touch units (spec/15_page.md R309 to R312): taking a frame of a context's pool, the swap of the
entry, and the frame kept in SPARE when the swap fails. -/

namespace Sys2Proof.Machine

/-- An access of a die's first-touch unit in the context's own address space: the physical address and the leaf. -/
def State.ftAt (s : State) (die tag kind va : Nat) : State × Acc (Nat × Word64) :=
  match s.translateNoFt (unitTouch die) tag true kind va with
  | (.ok pa e, s) => andThen (s.atHome tag none (kind != 0) pa) fun s _ => (s, .ok (pa, e))
  | (.fault c p, s) => (s, .fault c p va)
  | (.bad, s) => (s, .bad)
  | (.wait, s) => (s, .wait)

/-- A load of the unit. -/
def State.ftLoad (s : State) (die tag va n : Nat) : State × Acc Nat :=
  andThen (s.ftAt die tag 0 va) fun s x => (s, .ok (natOfBytes (s.homeBytes x.1 n)))

/-- An 8-byte write of the unit at a place that it has translated. -/
def State.ftPut (s : State) (tag : Nat) (x : Nat × Word64) (v : Nat) : State :=
  (s.writeHome (some tag) (cellsAt x.1 (bytesOfNat 8 v)) (grainBytes (pteGrain x.2)) (cacheMode x.2) (ptePool x.2)).2

/-- A frame that a ring entry may name (R311 step 4). -/
def frameOk (size fr : Nat) : Bool := fr % size == 0 && decide (fr < hbmEnd) && fr % 4096 == 0

/-- A frame with a 4 KiB frame of the retirement table in it (R311, R315). -/
def State.frameRetired (s : State) (size fr : Nat) : Bool := s.retired.any fun x => decide (fr ≤ x) && decide (x < fr + size)

/-- Steps 2 to 4 of R311: a retired frame is discarded and the next entry tried, and a frame that the ring may not name is
left. A fault counts as an empty ring (step 5). -/
def State.takeRing (die tag blk size : Nat) : Nat → State → State × Acc Nat
  | 0, s => (s, .fault 0x22 0 0)
  | fuel + 1, s =>
    andThen (s.ftLoad die tag (blk + 0x10) 8) fun s tail =>
    andThen (s.ftLoad die tag blk 8) fun s base =>
    andThen (s.ftLoad die tag (blk + 0x28) 1) fun s lg =>
    andThen (s.ftAt die tag 3 (blk + 8)) fun s h =>
      let head := natOfBytes (s.latestBytes h.1 8)
      if tail ≤ head ∨ lg < 4 ∨ 20 < lg then (s, .fault 0x22 0 0)
      else andThen (s.ftLoad die tag (base + 8 * (head % 2 ^ lg)) 8) fun s fr =>
        if s.frameRetired size (fr / 4096 * 4096 % 2 ^ 52) then State.takeRing die tag blk size fuel (s.ftPut tag h (head + 1))
        else if !frameOk size fr then (s, .fault 0x22 0 0)
        else (s.ftPut tag h (head + 1), .ok fr)

/-- The refill request of R311, which waits for room in the die's event ring (R429). -/
def State.wantRefill (s : State) (die tag blk ring : Nat) : State × Acc Unit :=
  let r := andThen (s.ftAt die tag 0 (blk + 8)) fun s h =>
    andThen (s.ftLoad die tag (blk + 0x10) 8) fun s tail =>
    andThen (s.ftLoad die tag (blk + 0x2C) 4) fun s low =>
      (s, .ok (decide (tail - natOfBytes (s.latestBytes h.1 8) < low)))
  match r with
  | (s, .ok true) => if s.mayPost die then (s.post die 4 tag ring 0, .ok ()) else (s, .wait)
  | (s, .wait) => (s, .wait)
  | (s, .bad) => (s, .bad)
  | (s, _) => (s, .ok ())

/-- A frame for the context's ring 0, 1 or 2 on a die (R311). -/
def State.takeFrame (s : State) (die tag ring size : Nat) : State × Acc Nat :=
  let blk := (s.ctx tag).fpool + 64 * ring
  let frame := andThen (s.ftAt die tag 3 (blk + 0x18 + 8 * die)) fun s x =>
    let spare := natOfBytes (s.latestBytes x.1 8)
    let s := if spare = 0 then s else s.ftPut tag x 0
    if spare ≠ 0 ∧ ¬ s.frameRetired size spare then (s, .ok spare) else State.takeRing die tag blk size 1048577 s
  match andThen frame fun s fr => andThen (s.wantRefill die tag blk ring) fun s _ => (s, .ok fr) with
  | (t, .wait) => (s.waited t, .wait)
  | r => r

/-- A frame whose swap failed is kept in the die's SPARE (R309, R311): false while a tenure holds SPARE. -/
def State.keepFrame (s : State) (die tag ring fr : Nat) : State × Bool :=
  match s.ftAt die tag 3 ((s.ctx tag).fpool + 64 * ring + 0x18 + 8 * die) with
  | (s, .ok x) => (s.ftPut tag x fr, true)
  | (t, .wait) => (s.waited t, false)
  | (s, .bad) => (s.faultLater tag, true)
  | (s, _) => (s, true)

/-- A step of the first-touch unit (R309): it takes a frame, and then makes the swap, which fails when the entry has
changed. -/
def State.serveTouch (s : State) (t : Touch) : State :=
  let to_ := fun (s : State) (x : TouchStage) => { s with touches := modWhere s.touches (fun y => y == t) fun y => { y with stage := x } }
  let ring := ringOf t.old
  match t.stage with
  | .empty _ => s
  | .asked => (match s.takeFrame t.die t.tag ring (szBytes (pteSz t.old)) with
    | (s, .ok fr) => to_ s (.holding fr)
    | (s, .fault _ _ _) => (to_ s (.empty ring)).dropAnswers fun _ => false
    | (s, .bad) => { s with touches := s.touches.erase t }.faultLater t.tag
    | (s, .wait) => s)
  | .holding fr =>
    let gone := fun (s : State) => { s with touches := s.touches.erase t }
    (match s.meetErrors none t.tag t.slot with
    | (true, s) => (gone s).faultLater t.tag
    | (false, s) =>
      if s.readEntry t.slot = t.old then
        (gone s).setEntry t.tag t.slot ((t.old &&& ~~~0x000FFFFFFFFFF000#64) ||| BitVec.ofNat 64 fr ||| 0x201 ||| (if t.dirty then 0x400 else 0))
      else match s.keepFrame t.die t.tag ring fr with
        | (s, true) => gone s
        | (s, false) => s)

end Sys2Proof.Machine
end

