-- ==== Sys2Proof/WellFormed.lean ====
section
/-! DEFINITION. Well-formed instructions and events: an instruction whose fields its entry accepts (check 3 of R40),
and an event that names units, slots and objects that the device has (R9, R10). -/

namespace Sys2Proof

/-- A place that a wave can hold: a core, a partition and a slot that exist (R9, R10). -/
def WaveId.ok (w : WaveId) : Bool := decide (w.core < 192) && decide (w.part < 8) && decide (w.slot < 8)

/-- A tag below 4,096 (R93). -/
def tagOk (tag : Nat) : Bool := decide (tag < 4096)

def RootId.ok (r : RootId) : Bool := tagOk r.tag && decide (r.index < 65536)

/-- The successors that REP repeats (R157): V64 with OP 0x20-0x9F or 0xA2-0xA4. -/
def repEligible (op : Nat) : Bool :=
  (decide (0x20 ≤ op) && decide (op ≤ 0x9F)) || (decide (0xA2 ≤ op) && decide (op ≤ 0xA4))

def HwReg.ok : HwReg → Bool
  | .dbgctl c | .stopreq c | .stopmode c | .halted c | .cancelled c | .resume c | .bp c _ => decide (c < 192)
  | .sampper d | .ring d | .drop d => decide (d < 2)
  | _ => true

/-- The units and objects that an event names exist. -/
def Instr.eventOk : Instr → Bool
  | .sleepDeadline w | .streamElementFetch w _ | .breakpointMatch w | .stopTakesEffect w | .resumeContinue w
  | .resumeDeliver w | .resumeStep w => w.ok
  | .tenureGrant r => r.ok
  | .tenureRenew r c | .tenureExpiry r c => r.ok && decide (c < 192)
  | .leaseExpiry c _ | .sample c => decide (c < 192)
  | .mmaOperationComplete c side => decide (c < 192) && decide (side < 2)
  | .cutJobRun d | .cutJobStatus d | .eventPost d | .successorRelease d | .qpContextFetch d _ => decide (d < 2)
  | .registerWrite r _ => r.ok
  | .ctxCreate t _ | .ctxCommit t _ | .ctxDestroy t _ | .destroyComplete t | .inval t _ _ _ | .commCreate t _ _ _ _ _ _
  | .cutSubmit t _ _ | .doorbell t _ | .queueResume t _ | .drainEnd t | .drainTimeout t | .contextResume t
  | .cordRestore t => tagOk t
  | .portEnable p _ | .portDisable p _ | .portQuiesce p _ | .portResume p _ | .portRetrain p _ | .linkUp p _
  | .trainingTimeout p | .versionNegotiation p _ _ _ | .laneLoss p _ | .replayLimitExceeded p
  | .packetReceive p _ _ => decide (p < 16)
  | .queueMap n | .sliceEnd n | .recordTake n | .recordExpand n | .cordPlace n => decide (n < 64)
  | .hostBar2Access p _ | .hostAtomicop p _ | .d3hotTransition p _ | .linkL1Transition p _ => decide (p < 2)
  | .droopDetect k | .droopRecover k => decide (k < 48)
  | .kindlingInstruction h _ => decide (h < 32)
  | .measurementExtend r _ => decide (3 ≤ r) && decide (r ≤ 7)
  | .repIteration op f => repEligible op.toNat && f.isV &&
      (match Instr.ofOp op.toNat f with
       | some i => (match i.sig with | some g => g.ok f | none => false)
       | none => false)
  | _ => true

/-- The instruction is one that R40 lets past check 3, or the word of an illegal encoding (R59), or an event whose
units exist. -/
def Instr.wf (i : Instr) : Bool :=
  match i with
  | .pair p => p.ok
  | .illegalOp w =>
    illegalBits w && decide (w.toNat < 2 ^ (8 * lengthOf (w.setWidth 8)))
  | i =>
    match i.opFields with
    | some (op, f) => decide (Instr.ofOp op.toNat f = some i) && (match i.sig with | some g => g.ok f | none => false)
    | none => i.eventOk

end Sys2Proof
end

