-- ==== Sys2Proof/Decode.lean ====
section
/-! DEFINITION. Decoding of instruction words (spec/02_formats.md R18 to R40, spec/03_opcodes.md R49 to R60), total on
any bytes and rejecting by name, and after it the encoder, written from the same field tables. -/

namespace Sys2Proof

/-- Why bytes are not an instruction: `truncated`, fewer bytes than the length field asks for; `reservedBits`, check 3
of R40. Check 2 (ILLEGAL_OP) is no rejection: such words decode to `Instr.illegalOp`. -/
inductive DecodeError where
  | truncated
  | reservedBits
  deriving DecidableEq, Repr

/-! ### Operand fields -/

/-- The special register of a class-11 value (R29). -/
def decodeSpecial (n : Nat) : Option Opnd :=
  if n < 0x08 then some (.k (BitVec.ofNat 3 n))
  else if 0x10 ≤ n ∧ n < 0x18 then some (.c (BitVec.ofNat 3 n))
  else if 0x18 ≤ n ∧ n < 0x1C then some (.x (BitVec.ofNat 2 n))
  else (specOfNum n).map .spec

/-- The operand of a near value (R24). -/
def decodeNear (n : Nat) : Option Opnd :=
  if n < 0x08 then some (.o (BitVec.ofNat 3 n))
  else if n < 0x0A then some (.l (BitVec.ofNat 1 n))
  else if n < 0x0E then some (.q (BitVec.ofNat 2 (n - 0x0A)))
  else if 0x80 ≤ n ∧ n < 0xC0 then some (.int (BitVec.ofNat 6 n))
  else if 0xC0 ≤ n ∧ n < 0xD0 then some (.fconst (BitVec.ofNat 4 n))
  else if n = 0xFF then some .none
  else Option.none

/-- The operand that a 10-bit field names (R23, R24, R29). -/
def decodeOpnd (w : BitVec 10) : Option Opnd :=
  let n := (w.extractLsb' 0 8).toNat
  match (w.extractLsb' 8 2).toNat with
  | 0 => some (.v (BitVec.ofNat 8 n))
  | 1 => decodeNear n
  | 2 => if n < 128 then some (.s (BitVec.ofNat 7 n))
         else if n < 192 then some (.sp (BitVec.ofNat 6 n)) else Option.none
  | _ => decodeSpecial n

/-- The class-11 value of a special register (R29). -/
def SpecReg.num : SpecReg → Nat
  | .laneid => 0x20 | .waveid => 0x21 | .wavecount => 0x22 | .cordid => 0x23 | .cordcount => 0x24
  | .coreid => 0x25 | .rickid => 0x26 | .dieid => 0x27 | .partition => 0x28 | .side => 0x29
  | .time => 0x2A | .fpflags => 0x2B | .horizon => 0x2C | .srseed => 0x2D | .frame => 0x2E
  | .trapcause => 0x30 | .trapmask => 0x31 | .trappc => 0x32 | .trapinfo => 0x33 | .rgndepth => 0x34

/-- The 10-bit field of an operand (R23, R24, R29). -/
def encodeOpnd : Opnd → BitVec 10
  | .v n => 0#2 ++ n
  | .o n => 0b0100000#7 ++ n
  | .l n => 0b010000100#9 ++ n
  | .q n => BitVec.ofNat 10 (0x10A + n.toNat)
  | .int n => 0b0110#4 ++ n
  | .fconst n => 0b011100#6 ++ n
  | .none => 0x1FF
  | .s n => 0b100#3 ++ n
  | .sp n => 0b1010#4 ++ n
  | .k n => 0b1100000#7 ++ n
  | .c n => 0b1100010#7 ++ n
  | .x n => 0b11000110#8 ++ n
  | .spec r => BitVec.ofNat 10 (0x300 + r.num)

/-! ### Words of 64, 96 and 128 bits -/

/-- The fields of the V64 layout in bits [63:0] of a word (R21). -/
def decodeFields64 (w : BitVec 128) (fmt : Fmt) : Option Fields := do
  let d ← decodeOpnd (w.extractLsb' 14 10)
  let a ← decodeOpnd (w.extractLsb' 24 10)
  let b ← decodeOpnd (w.extractLsb' 34 10)
  let c ← decodeOpnd (w.extractLsb' 44 10)
  pure { fmt := fmt, g := w.extractLsb' 10 4, d := d, a := a, b := b, c := c,
         pol := w.extractLsb' 54 3, m := (w.extractLsb' 57 7).setWidth 17 }

/-- The fields of a W96 word (R35). -/
def decodeFields96 (w : BitVec 128) : Option Fields := do
  let d ← decodeOpnd (w.extractLsb' 14 10)
  let a ← decodeOpnd (w.extractLsb' 24 10)
  let b ← decodeOpnd (w.extractLsb' 34 10)
  pure { fmt := .w96 (w.extractLsb' 64 32), g := w.extractLsb' 10 4, d := d, a := a, b := b, c := .v 0,
         pol := w.extractLsb' 44 3, m := w.extractLsb' 47 17 }

/-- Fields to an instruction: the selector of the opcode map, then the checks of the entry (R40 check 3). -/
def instrOfFields (op : BitVec 8) (f : Option Fields) : Except DecodeError Instr :=
  match f with
  | none => .error .reservedBits
  | some f =>
    match Instr.ofOp op.toNat f with
    | none => .error .reservedBits
    | some i =>
      match i.sig with
      | none => .error .reservedBits
      | some g => if g.ok f then .ok i else .error .reservedBits

/-- The VB operand of a pair (R38). -/
def decodeVB (w : BitVec 6) : Option PairVB :=
  let n := w.toNat
  if n < 8 then some (.o (BitVec.ofNat 3 n))
  else if n < 10 then some (.l (BitVec.ofNat 1 n))
  else if n < 14 then some (.q (BitVec.ofNat 2 (n - 10)))
  else if n < 16 then none
  else if n < 32 then some (.s (BitVec.ofNat 4 n))
  else if n < 48 then some (.int (BitVec.ofNat 4 n))
  else some (.fconst (BitVec.ofNat 4 n))

/-- The 6-bit VB value (R38). -/
def encodeVB : PairVB → BitVec 6
  | .o n => 0b000#3 ++ n
  | .l n => 0b00100#5 ++ n
  | .q n => BitVec.ofNat 6 (10 + n.toNat)
  | .s n => 0b01#2 ++ n
  | .int n => 0b10#2 ++ n
  | .fconst n => 0b11#2 ++ n

def decodeSB (w : BitVec 8) : PairSB := if w.getLsbD 7 then .imm (w.extractLsb' 0 7) else .s (w.extractLsb' 0 7)
def encodeSB : PairSB → BitVec 8
  | .imm n => 0b1#1 ++ n
  | .s n => 0b0#1 ++ n

/-- The fields of a P64 word (R37). -/
def decodePairFields (w : BitVec 128) : Option PairFields := do
  let sop ← sopMap[(w.extractLsb' 6 6).toNat]?
  let vop ← vopMap[(w.extractLsb' 35 6).toNat]?
  let vb ← decodeVB (w.extractLsb' 57 6)
  pure { g := w.extractLsb' 2 4, sop := sop, sd := w.extractLsb' 12 7, sa := w.extractLsb' 19 7,
         sb := decodeSB (w.extractLsb' 26 8), vop := vop, vd := w.extractLsb' 41 8,
         va := w.extractLsb' 49 8, vb := vb, pol := w.getLsbD 63 }

/-- A word of 128 bits, of which the instruction takes as many as its length field says, to an instruction. The checks
are in the order of R40: check 2, then check 3. -/
def decodeBits (w : BitVec 128) : Except DecodeError Instr :=
  if illegalBits w then .ok (.illegalOp (BitVec.ofNat 128 (w.toNat % 2 ^ (8 * lengthOf (w.setWidth 8)))))
  else
    let op := w.extractLsb' 2 8
    match (w.extractLsb' 0 2).toNat with
    | 0 => instrOfFields op (decodeFields64 w .v64)
    | 1 =>
      if w.getLsbD 34 then .error .reservedBits
      else match decodePairFields w with
        | some p => if p.ok then .ok (.pair p) else .error .reservedBits
        | none => .error .reservedBits
    | 2 => instrOfFields op (decodeFields96 w)
    | _ => instrOfFields op (decodeFields64 w (.x128 (w.extractLsb' 64 64)))

/-- The instruction at the head of a list of bytes, lowest address first (R2), and the bytes after it. -/
def decode (bs : List Byte) : Except DecodeError (Instr × List Byte) :=
  match bs with
  | [] => .error .truncated
  | b :: _ =>
    let n := lengthOf b
    if bs.length < n then .error .truncated
    else match decodeBits (BitVec.ofNat 128 (natOfBytes (bs.take n))) with
      | .ok i => .ok (i, bs.drop n)
      | .error e => .error e

/-- The instruction that the decoder reads from a word of the opcode table: bit 0 is the least significant bit of the
first 32-bit word, and the words stand little-endian in memory (R7, R18). -/
def decodeTableWord (nbits w : Nat) : Option Instr :=
  match decode (bytesOfNat 16 (w % 2 ^ nbits)) with
  | .ok (i, _) => some i
  | .error _ => none

/-! ### The encoder -/

/-- Bits [63:0] of a V64 or X128 instruction (R21). -/
def encodeFields64 (len : BitVec 2) (op : BitVec 8) (f : Fields) : BitVec 64 :=
  (f.m.setWidth 7 : BitVec 7) ++ f.pol ++ encodeOpnd f.c ++ encodeOpnd f.b ++ encodeOpnd f.a ++ encodeOpnd f.d ++ f.g ++ op ++ len

/-- A W96 instruction (R35). -/
def encodeFields96 (op : BitVec 8) (f : Fields) (imm : Word) : BitVec 96 :=
  imm ++ f.m ++ f.pol ++ encodeOpnd f.b ++ encodeOpnd f.a ++ encodeOpnd f.d ++ f.g ++ op ++ 0b10#2

/-- The word of an instruction with an opcode and fields, zero extended to 128 bits. -/
def encodeFields (op : BitVec 8) (f : Fields) : BitVec 128 :=
  match f.fmt with
  | .v64 => (encodeFields64 0b00 op f).setWidth 128
  | .w96 imm => (encodeFields96 op f imm).setWidth 128
  | .x128 ext => ext ++ encodeFields64 0b11 op f

/-- A P64 instruction (R37). -/
def encodePair (p : PairFields) : BitVec 64 :=
  (BitVec.ofBool p.pol) ++ encodeVB p.vb ++ p.va ++ p.vd ++ (BitVec.ofNat 6 p.vop.code) ++ 0b0#1 ++ encodeSB p.sb ++
    p.sa ++ p.sd ++ (BitVec.ofNat 6 p.sop.code) ++ p.g ++ 0b01#2

/-- The bits of an instruction, zero extended to 128; an event has none. -/
def encodeBits (i : Instr) : BitVec 128 :=
  match i with
  | .pair p => (encodePair p).setWidth 128
  | .illegalOp w => w
  | i => match i.opFields with | some (op, f) => encodeFields op f | none => 0

/-- The length in bytes of an instruction (R18); 0 for an event, which has no encoding. -/
def Instr.bytes (i : Instr) : Nat :=
  match i with
  | .pair _ => 8
  | .illegalOp w => lengthOf (w.setWidth 8)
  | i => match i.opFields with
    | some (_, f) => (match f.fmt with | .v64 => 8 | .w96 _ => 12 | .x128 _ => 16)
    | none => 0

/-- The bytes of an instruction, lowest address first (R2). -/
def encode (i : Instr) : List Byte := bytesOfNat i.bytes (encodeBits i).toNat

/-- Whether a constructor is an instruction with an encoding, and not an event. -/
def Instr.encoded (i : Instr) : Bool := decide (i.bytes ≠ 0)

end Sys2Proof
end

