-- ==== Sys2Proof/Machine/Ops.lean ====
section
/-! DEFINITION. The operations that instructions share: context states and faults (spec/05_context.md R96, R98), taking
a trap and returning from one (R100 to R105), a wave's own accesses to memory (spec/13_memory_order.md R230 to R243),
the checks of R40 that come before an instruction's own, and the advance of the PC. -/

namespace Sys2Proof.Machine

/-! ### Contexts and queues -/

def CtxState.code : CtxState → Nat
  | .free => 0 | .building => 1 | .ready => 2 | .running => 3 | .preempted => 4 | .faulted => 5 | .destroying => 6

def State.ctxBlock (s : State) (tag : Nat) : Nat := s.nkctxtab.toNat + 128 * tag

/-- A transition of R96: the state, and its code in the context block (R94). -/
def State.setCtx (s : State) (tag : Nat) (st : CtxState) : State :=
  let s := s.modCtx tag fun c => { c with st := st }
  (s.physStore tag (s.ctxBlock tag + 9) [BitVec.ofNat 8 (st.code * 16 + tag / 256)]).2

def QState.code : QState → Nat | .idle => 0 | .waiting => 1 | .mapped => 2 | .stopped => 3

/-- The address of a queue's descriptor (R114). -/
def State.qDesc (s : State) (tag q : Nat) : Nat := (s.ctx tag).qlist + 64 * q

/-- A device-scope store of the hardware to a queue descriptor; where it does not translate, nothing is written (R115), and
a poisoned sector faults the context (R252). -/
def State.descStore (s : State) (tag va : Nat) (bs : List Byte) : State :=
  match s.translate unitSched tag 0 true 1 va with
  | (.ok pa e, s) => (match s.meetErrors none tag pa with
    | (true, s) => s.faultLater tag
    | (false, s) => (s.writeHome (some tag) (cellsAt pa bs) (grainBytes (pteGrain e)) (cacheMode e) (ptePool e)).2)
  | (.bad, s) => s.faultLater tag
  | (_, s) => s

def State.qState (s : State) (tag q : Nat) : QState :=
  ((s.queues.find? fun x => x.tag == tag && x.q == q).map fun x => x.st).getD .idle

/-- A queue's new state, kept by the hardware and written to QSTATE (R114, R116). -/
def State.setQueue (s : State) (tag q : Nat) (st : QState) : State :=
  let rest := s.queues.filter fun x => !(x.tag == tag && x.q == q)
  let s := { s with queues := if st == QState.idle then rest else rest ++ [(⟨tag, q, st, s.uid⟩ : Queue)], uid := s.uid + 1 }
  s.descStore tag (s.qDesc tag q + 13) [BitVec.ofNat 8 st.code]

/-- The die whose ring reports that a queue has stopped (R429). -/
def State.queueDie (s : State) (tag q : Nat) : Nat := (s.physOf tag (s.qDesc tag q)).map homeDie |>.getD 0
/-- The stop of a queue can be reported now; else what would stop it waits (R429). -/
def State.canStop (s : State) (tag q : Nat) : Bool := s.mayPost (s.queueDie tag q)

/-- A queue stops with a reason (R116): ERR, QSTATE, the event, and its slot. -/
def State.stopQueue (s : State) (tag q err : Nat) : State :=
  let s := s.descStore tag (s.qDesc tag q + 14) [BitVec.ofNat 8 err]
  let s := s.setQueue tag q .stopped
  let s := { s with slots := s.slots.filter fun x => !(x.tag == tag && x.q == q) }
  s.post (s.queueDie tag q) 2 tag q err

/-- The slots of a context are freed; their queues wait again, or every queue is IDLE when the context goes (R116). -/
def State.freeSlots (s : State) (tag : Nat) (gone : Bool) : State :=
  let mine := if gone then (s.queues.filter fun x => x.tag == tag).map fun x => x.q
    else (s.slots.filter fun x => x.tag == tag).map fun x => x.q
  let s := { s with slots := s.slots.filter fun x => x.tag != tag }
  mine.foldl (fun s q => s.setQueue tag q (if gone then .idle else .waiting)) s

/-! ### Debug registers of a slot (R437, R446) -/

def State.dbg (s : State) (core : Nat) : DbgCore := s.dbgCores.getD core DbgCore.reset
def State.modDbg (s : State) (core : Nat) (f : DbgCore → DbgCore) : State := { s with dbgCores := modAt s.dbgCores core f }
/-- One bit of a 64-bit mask, set or cleared. -/
def bitSet (x : Word64) (n : Nat) : Word64 := x ||| (1#64 <<< n)
def bitClear (x : Word64) (n : Nat) : Word64 := x &&& ~~~(1#64 <<< n)

/-- A pending stop request is cancelled (R446). -/
def State.cancelStop (s : State) (id : WaveId) : State :=
  let n := slotNum id
  s.modDbg id.core fun d =>
    if d.stopreq.getLsbD n then { d with stopreq := bitClear d.stopreq n, cancelled := bitSet d.cancelled n } else d

/-- A wave leaves its slot: a stop request for it is cancelled, and its HALTED bit is clear. -/
def State.leaveSlot (s : State) (id : WaveId) : State :=
  (s.cancelStop id).modDbg id.core fun d => { d with halted := bitClear d.halted (slotNum id) }

/-- The incomplete invalidations of waves that go: they complete all the same (R319). -/
def State.keepInvals (s : State) (l : List Wave) : State :=
  { s with invals := s.invals ++ (l.flatMap fun w => w.invals).filter fun i => !i.done }

/-- Every cord of a context leaves without being saved, with everything that belongs to its waves (R96, R99). -/
def State.dropCords (s : State) (tag : Nat) : State :=
  let mine := fun (uid : Nat) => s.cords.any fun c => c.uid == uid && c.tag == tag
  let wv := fun (id : WaveId) => s.waves.any fun w => w.id == id && mine w.cord
  let s := ((s.waves.filter fun w => mine w.cord).foldl (fun s w => s.leaveSlot w.id) s).keepInvals (s.waves.filter fun w => mine w.cord)
  { s with
    cords := s.cords.filter fun c => c.tag != tag
    waves := s.waves.filter fun w => !mine w.cord
    fills := s.fills.filter fun f => !wv f.wave
    mmaOps := s.mmaOps.filter fun o => !mine o.cord
    ranges := s.ranges.filter fun r => !mine r.cord
    mosFills := s.mosFills.filter fun f => !wv f.wave
    handles := s.handles.map fun h => { h with reqs := h.reqs.filter fun r => !mine r.cord }
    cur := 0 }

/-- The rest of a context's hardware state: records, spawned children, held successors, save images, cut jobs and
collectives (R96, R99, R377, R420). -/
def State.dropRecords (s : State) (tag : Nat) : State :=
  let s := s.keepInvals ((s.ctx tag).images.flatMap fun m => m.waves)
  let s := s.modCtx tag fun c => { c with images := [], savedKids := [], drain := none }
  { s with
    recs := s.recs.filter fun r => r.tag != tag
    touches := s.touches.filter fun t => t.tag != tag
    faulting := s.faulting.filter fun x => x.1 != tag
    helds := s.helds.filter fun h => h.2.tag != tag
    jobs := s.jobs.filter fun j => j.tag != tag
    colls := s.colls.filter fun c => c.tag != tag }

/-- Every tenure that a context's cords hold ends with write-back (R96, R327). -/
def State.endTenures (s : State) (tag : Nat) : State :=
  (s.cords.filter fun c => c.tag == tag).foldl (fun s c =>
    c.tenures.foldl (fun s t => if t.lapsed.isNone then s.endTenure t.root c.core else s) s) s

/-- The transition to FAULTED (R96, R98), and its event. -/
def State.ctxFaulted (s : State) (tag reason : Nat) : State :=
  let s := s.endTenures tag
  let s := (s.dropCords tag).dropRecords tag
  let s := s.freeSlots tag false
  let s := (s.qpsOf tag).foldl (fun s q => s.qpError q Option.none) s
  let s := s.modCtx tag fun c => { c with reason := BitVec.ofNat 8 reason }
  let s := s.setCtx tag .faulted
  s.post (homeDie (s.ctxBlock tag)) 5 tag reason 0

/-- A context's fault can be reported now: its ring has room, and the event of the poisoned sector that it met has been posted
(R429). -/
def State.canFault (s : State) (tag : Nat) : Bool :=
  s.mayPost (homeDie (s.ctxBlock tag)) &&
  !(s.events.any fun e => e.2.code == 0x50 && e.2.tag == tag && s.nkevt.getD e.1 0 != 0)

/-- A fault of R98: the context enters FAULTED from READY, RUNNING or PREEMPTED. While its event has no room, the fault waits
with it, and no wave of the context issues (R429). -/
def State.ctxFault (s : State) (tag reason : Nat) : State :=
  let st := (s.ctx tag).st
  if st = .ready ∨ st = .running ∨ st = .preempted then
    if s.canFault tag then s.ctxFaulted tag reason
    else if s.faulting.any fun x => x.1 == tag then s
    else { s with faulting := s.faulting ++ [(tag, reason)] }
  else s

/-! ### The wave whose turn it is -/

def State.modMe (s : State) (f : Wave → Wave) : State := { s with waves := modAt s.waves s.cur f }

/-- A wait that an instruction remembers while it is executed again (R127, R143). -/
def Wait.kept : Wait → Wait
  | .push r => .push r
  | .pop q b => .pop q b
  | _ => .stalled

/-- The wave blocks at its instruction, which is executed again at its next turn (R113). -/
def State.stall (s : State) : Out := .next (s.modMe fun w => { w with wait := w.wait.kept })

/-- The advance past an instruction of n bytes: to the sequential successor, or through an iteration of REP, which keeps
the PC while iterations remain (R20, R31, R157). -/
def Wave.next (w : Wave) (n : Nat) : Wave :=
  let w := { w with wait := Wait.none }
  if w.rep.toNat ≤ 1 then { w with rep := 0 }.goto (seqNext w.pc n) false
  else { w with rep := w.rep - 1 }

def fieldsBytes (f : Fields) : Nat := match f.fmt with | .v64 => 8 | .w96 _ => 12 | .x128 _ => 16

/-- An instruction's end: its pops leave the queues and the PC advances (R34). -/
def Wave.commit (w : Wave) (f : Fields) : Wave := (w.pop [f.a, f.b, f.c, f.d]).next (fieldsBytes f)

/-- The instruction ends with an update of its wave. -/
def State.finish (s : State) (f : Fields) (up : Wave → Wave) : Out := .next (s.modMe fun w => (up w).commit f)

/-! ### A wave's accesses -/

def Wave.core (w : Wave) : Nat := w.id.core
def Wave.unit (w : Wave) : Nat := rickOf w.id.core
def Wave.die (w : Wave) : Nat := dieOf w.id.core

/-- Bytes of one sector as a wave's store writes them, with the addresses and leaves that it was translated by: into its
core's L1 under write tenure, as a write otherwise (R235, R239). A store with a release, and one that follows such a store in
its sector, reaches the L1 once the release has been made (R241). -/
def State.wavePut (s : State) (id : WaveId) (via : List (Nat × Word64)) (cells : List Host.Cell) (hint : Nat)
    (rel : Option Release) : State :=
  let tag := (s.waveAt id).map s.tagOf
  let e := ((via.head?).map fun x => x.2).getD 0
  match cells.head? with
  | Option.none => s
  | some c =>
    let bells := (cells.flatMap fun c => s.bellsFor c.1 [c.2]).eraseDups
    let cells := if bells.isEmpty then cells else cells.flatMap fun c => (s.doorless c.1 [c.2]).map fun b => (c.1, b)
    let rel := if rel.isSome then rel else s.relIn id (sectorBase c.1)
    match rel, s.holdsW id.core c.1 with
    | Option.none, some r =>
      via.foldl (fun s x => s.holdLine id.core (tag.getD 0) x.1 c.1 x.2 (szBytes (pteSz x.2)) (hintLevel hint)) (s.putDirty id r cells bells)
    | _, _ =>
      let (i, s) := s.newWrite (.wave id) tag (some id.core) cells (grainBytes (pteGrain e)) (cacheMode e) (ptePool e) bells
      s.modWrite i fun w => { w with rel := rel, through := true, via := via }

/-- An access that allocates nothing in L1 uses the core's copy of its sector, and its line of L2 (R236, R281). -/
def State.useLines (s : State) (core sec hint : Nat) (cache : CacheMode) : State :=
  (if hint = 3 then s else s.useL1 core sec (hintLevel hint)).useL2 sec hint cache

/-- A fault of an access names the access's address, in whichever piece it was met (R61, R263). -/
def accAt {α : Type} (va : Nat) (r : State × Acc α) : State × Acc α :=
  match r with
  | (s, .fault c p _) => (s, .fault c p (va % 2 ^ 64))
  | r => r

/-- A store by a wave, translated in the state given: every piece or none (R242, R252). -/
def State.waveStoreRel (s : State) (w : Wave) (sup : Bool) (va : Nat) (bs : List Byte) (hint : Nat) (rel : Option Release) :
    State × Acc Unit :=
  andThen (accAt va (s.locate w.unit (s.tagOf w) w.die sup 1 (some w.core) (piecesOf va bs.length))) fun s l =>
    let r := (List.zip (piecesOf va bs.length) l).foldl (fun (p : State × List Byte) x =>
      ((p.1.wavePut w.id [(sectorBase (x.1.1 % 2 ^ 64), x.2.2.2)] (cellsAt x.2.1 (p.2.take x.2.2.1)) hint rel).useLines
        w.core (sectorBase x.2.1) hint (cacheMode x.2.2.2), p.2.drop x.2.2.1)) (s, bs)
    (r.1, .ok ())
/-- A plain store. -/
def State.waveStore (s : State) (w : Wave) (sup : Bool) (va : Nat) (bs : List Byte) : State × Acc Unit :=
  s.waveStoreRel w sup va bs 0 Option.none

/-- A fetched sector enters the core's L1: under the core's tenure on its root, or with a lease (R231, R325). -/
def State.fetchLine (s : State) (core tag va pa : Nat) (e : Word64) (lvl : Nat) : State :=
  if s.holdsAny core pa then s.holdLine core tag va pa e (szBytes (pteSz e)) lvl
  else s.grantLease core tag va pa e (szBytes (pteSz e)) (pteLc e) (grainBytes (pteGrain e)) lvl

/-- One sector piece of a load performs (R231, R233, R236, R281): n bytes at a physical address, mapped at `va` by leaf
`e`. The values of incomplete writes enter the wave's horizon. -/
def State.loadPiece (s : State) (w : Wave) (va pa n : Nat) (e : Word64) (hint : Nat) : List Byte × State :=
  let r := tabulate n fun i => s.waveByte w.id (pa + i)
  let tag := s.tagOf w
  let lvl := hintLevel hint
  let sec := sectorBase pa
  let s := s.modWave w.id fun x => x.saw s (r.filterMap fun b => b.2).eraseDups
  let own := cacheMode e == .normal && !ptePool e
  let s := match if own then s.l1Hit w.core tag va else Option.none with
    | some _ => if hint = 3 then s else s.useL1 w.core sec lvl
    | Option.none =>
      let s := s.contend pa (some w.core) false
      (if !own || hint == 3 then s else s.fetchLine w.core tag va pa e lvl).useL2 sec hint (cacheMode e)
  (r.map fun b => b.1, s)

/-- A plain load of n bytes by a wave (R242): every piece or none. -/
def State.waveLoad (s : State) (w : Wave) (sup : Bool) (va n hint : Nat) : State × Acc (List Byte) :=
  andThen (accAt va (s.locate w.unit (s.tagOf w) w.die sup 0 (some w.core) (piecesOf va n))) fun s l =>
    let r := (List.zip (piecesOf va n) l).foldl (fun (p : State × List Byte) x =>
      let (bs, s) := p.1.loadPiece w (x.1.1 % 2 ^ 64) x.2.1 x.2.2.1 x.2.2.2 hint
      (s, p.2 ++ bs)) (s, [])
    (r.1, .ok r.2)

/-! ### Traps -/

/-- The trap frame of R101 at entry. -/
def Wave.trapFrame (w : Wave) (cause : Nat) (mask : Mask) (info : Word64) : List Byte :=
  bytesOfNat 8 w.pc.toNat ++ bytesOfNat 8 info.toNat ++ bytesOfNat 4 cause ++ bytesOfNat 4 w.rep.toNat ++
  bytesOfNat 12 mask.toNat ++ bytesOfNat 4 w.c.toNat ++ (tabulate 8 fun i => bytesOfNat 12 (w.kAt i).toNat).flatten ++
  (tabulate 16 fun i => bytesOfNat 4 (w.sAt i).toNat).flatten ++ List.replicate 56 0

/-- The wave after trap entry (R100 steps 2 and 3). -/
def Wave.enterTrap (w : Wave) (trapvec cause : Nat) (mask : Mask) (info : Word64) : Wave :=
  let w := { w.setK 0 mask with
    trapcause := BitVec.ofNat 8 cause, trapmask := mask, trapinfo := info, rep := 0, sup := true, wait := Wait.none }
  w.goto (BitVec.ofNat 64 (trapvec / 4 * 4)) true

/-- The scalar registers that a frame holds (R101). -/
def frameReads : List (Opnd × Nat) := (List.range 16).map fun i => (.s (BitVec.ofNat 7 i), 1)

/-- Taking a trap (R100, R103): the frame is written, the cause latched, and the wave goes on at TRAPVEC in supervisor
state. In supervisor state the context faults with reason 0x51, and with 0x52 when the frame cannot be written; an error in a
register that the frame holds is met (R16). `up` is what the trap changes besides, once it is taken. -/
def State.trapWith (s : State) (cause : Nat) (mask : Mask) (info : Word64) (up : State → State) : Out :=
  match s.me with
  | Option.none => .fault .noSuchEvent
  | some w =>
    let tag := s.tagOf w
    if w.sup then .next (s.ctxFault tag 0x51)
    else match s.readErrors w frameReads with
      | (true, s) => .next (s.ctxFault tag 0x50)
      | (false, s) => match s.waveStore w true (s.trapArea w) (w.trapFrame cause mask info) with
        | (s, .ok _) => .next (up (s.modMe fun w => w.enterTrap (s.ctx tag).trapvec cause mask info))
        | (s, .fault _ _ _) => .next (s.ctxFault tag 0x52)
        | (s, .bad) => .next (s.ctxFault tag 0x50)
        | (s, .wait) => s.stall

/-- A trap that changes nothing besides. -/
def State.trap (s : State) (cause : Nat) (mask : Mask) (info : Word64) : Out := s.trapWith cause mask info id

/-- The kept pass of the instruction at the PC is dropped: it completes (R265). The handler's own instructions leave it. -/
def Wave.endPass (w : Wave) : Wave :=
  match w.pass with
  | some (_, a) => if a = w.pc ∧ ¬ w.sup then { w with pass := Option.none } else w
  | Option.none => w

/-- The wave after TRET from the bytes of its frame (R105, R265): the PC leaves the handler's pinned loop, and the user's
where the frame names another address (R158). -/
def Wave.leaveTrap (w : Wave) (fr : List Byte) : Wave :=
  let w := { w with s := tabulate 16 (fun i => BitVec.ofNat 32 (numAt fr (0x88 + 4 * i) 4)) ++ w.s.drop 16 }
  let w := (List.range 8).foldl (fun w i => w.setK i (BitVec.ofNat 96 (numAt fr (0x28 + 12 * i) 12))) w
  let pc := BitVec.ofNat 64 (numAt fr 0 8 / 4 * 4)
  let w := w.goto pc true
  let w := { w with
    c := BitVec.ofNat 8 (byteAt fr 0x24) ||| 1, rep := BitVec.ofNat 16 (numAt fr 0x14 2), sup := false
    pass := match w.pass with | some (p, a) => if a = pc then some (p, a) else Option.none | Option.none => Option.none
    wait := Wait.none }
  w.goto pc true

/-- %trapinfo of a translation fault (R61): the address, the kind of access, the pool. -/
def pageInfo (addr kind pool : Nat) : Word64 := BitVec.ofNat 64 (addr % 2 ^ 57 + 2 ^ 57 * kind + 2 ^ 59 * pool)

/-- An access of the wave as a whole: its value goes on, a fault traps with exec (R269), a poisoned sector faults the
context (R16), and an access that a tenure holds back is made again. -/
def State.take {α : Type} (r : State × Acc α) (kind : Nat) (k : State → α → Out) : Out :=
  match r with
  | (s, .ok a) => k s a
  | (s, .fault c p a) => s.trap c ((s.me.map Wave.exec).getD 0) (pageInfo a kind p)
  | (s, .bad) => .next (s.ctxFault ((s.me.map s.tagOf).getD 0) 0x50)
  | (s, .wait) => s.stall

/-- The trap that R62 chooses among lanes: the lowest pass that traps, the lowest cause in it, and the lanes of that
cause, in that pass alone when the instruction is restartable per pass. -/
def pickTrap (perPass : Bool) (l : List (Nat × Nat × Word64)) : Option (Nat × Mask × Word64) :=
  match l with
  | [] => Option.none
  | _ =>
    let pass := (l.map fun x => x.1 / 32).foldl Nat.min 3
    let here := l.filter fun x => x.1 / 32 == pass
    let cause := (here.map fun x => x.2.1).foldl Nat.min 255
    let lanes := (if perPass then here else l).filter fun x => x.2.1 == cause
    let low := (lanes.map fun x => x.1).foldl Nat.min 96
    some (cause, maskOf (lanes.map fun x => x.1), ((lanes.find? fun x => x.1 == low).map fun x => x.2.2).getD 0)

/-! ### The checks before an instruction's own (R40) -/

/-- %trapinfo of causes 1 to 4: bits [63:0] of the instruction (R40). -/
def insnInfo (i : Instr) : Word64 := (encodeBits i).setWidth 64

/-- The guard of R31. -/
def Wave.guard (w : Wave) (g : BitVec 4) : Bool := w.cAt (g.toNat % 8) ^^ g.getLsbD 3

/-- A source that the wave must wait for outside R33: `%fpflags` under R68 and `%horizon` under R237. `dread` is set where D is
a source. -/
def State.specWaits (s : State) (w : Wave) (f : Fields) (dread : Bool) : Bool :=
  let names := fun (r : SpecReg) => f.a == .spec r || f.b == .spec r || f.c == .spec r || (dread && f.d == .spec r)
  (names .fpflags && s.flagsPending w) || (names .horizon && !w.watch.isEmpty)

/-- A source that traps (R33, R293): a stream element that faulted is reported once, and when the pop executes again the
engine tries it again. -/
def State.notReady (s : State) (c : Nat) (info : Word64) (mask : Mask) : Out :=
  let q := info.toNat % 4
  let elem := c == 0x2A && info.toNat / 4 % 4 == 0
  let mine := fun (x : Stream) => (x.bytes.getD 0x35 0).toNat == q && x.run != .stopped
  let told := (s.me.bind fun w => w.streams.find? mine).any fun x => match x.run with | .faulted _ _ t => t | _ => false
  let mark := fun (r : StreamRun) => match r with
    | .faulted a p t => if t then .running else StreamRun.faulted a p true
    | r => r
  let marked := fun (s : State) => s.modMe fun w => { w with streams := modWhere w.streams mine fun x => { x with run := mark x.run } }
  if !elem then s.trap c mask info
  else if told then (marked s).stall
  else s.trapWith c mask info marked

/-- How an instruction uses its D field: as a destination, as one whose wait is the instruction's own, as a source with a
policy, or as both. -/
inductive DUse where
  | dest
  | late
  | src (pol : Bool)
  | both (pol : Bool)
  deriving DecidableEq, Repr, Inhabited

/-- Memory operations of a core's waves that have not completed: writes, and results on their way (R13, R146, log 46). -/
def State.opsFull (s : State) (core : Nat) : Bool :=
  let writes := s.writes.filter fun w => match w.agent with | .wave id => id.core == core && !w.doneAt s.time | _ => false
  let fills := s.fills.filter fun f => f.wave.core == core && !f.fp
  decide (Config.coreOps ≤ writes.length + fills.length)

/-- Checks 4 to 7 of R40 and the waits of R146 and R152, then the instruction's own part, which meets the errors of the
registers that it reads (R16). `always` is set where v sources are read whatever exec holds. -/
def State.front (s : State) (i : Instr) (f : Fields) (du : DUse) (always : Bool) (body : State → Wave → Out) : Out :=
  match s.me, i.sig with
  | some w, some g =>
    let k := (s.cordOf w).kernel
    if !w.sup && instrPriv i then s.trap 0x04 w.exec (insnInfo i)
    else match sigRegidx g f k.regs k.sregs 0 0 0 0 with
      | some info => s.trap 0x10 w.exec info
      | Option.none =>
        if !w.guard f.g then .next (s.setMe (w.endPass.next (fieldsBytes f)))
        else
          let dread := match du with | .dest | .late => false | _ => true
          let dpol := match du with | .dest | .late => false | .src p => p | .both p => p
          match w.ready encodeOpnd (sigSrcs g f dread dpol always) with
          | some (.traps c info) => s.notReady c info w.exec
          | some .waits => s.stall
          | Option.none =>
            let isDest := match du with | .src _ | .late => false | _ => true
            if (isDest && w.destBusy f.d g.d.span) || s.specWaits w f dread || (usesMemory i && s.opsFull w.core) then s.stall
            else match s.readErrors w (sigReads g f dread) with
              | (true, s) => .next (s.ctxFault (s.tagOf w) 0x50)
              | (false, s) => body s w
  | _, _ => .fault .noSuchEvent

/-- Nothing of the wave is outstanding and `%time` has passed `%horizon`: the release of R241 at device scope. -/
def State.released (s : State) (w : Wave) : Bool := w.watch.isEmpty && decide (w.horizon ≤ s.time)

/-- The pool writes of a wave that the pool has not acknowledged (R249). -/
def State.poolPending (s : State) (w : Wave) : Bool :=
  s.writes.any fun x => x.pool && !x.acked && x.agent == .wave w.id

/-- The release of R241 by scope code: `.core`, `.dev`, `.fab`. At core scope every earlier store is in the core's L1. -/
def State.releasedAt (s : State) (w : Wave) (scope : Nat) : Bool :=
  if scope = 0 then (s.unreleasedOf w.id).isEmpty else s.released w && (scope == 1 || !s.poolPending w)

/-- What a store with release order at a scope waits for before it reaches its core's L1 (R241); nothing when the release
holds already. -/
def State.releaseFor (s : State) (w : Wave) (scope : Nat) : Option Release :=
  if s.releasedAt w scope then Option.none
  else if scope = 0 then
    let rs := (s.unreleasedOf w.id).filterMap fun x => x.rel
    some ⟨(rs.map fun r => r.upto).foldl max 0, rs.flatMap fun r => r.ids, rs.flatMap fun r => r.acked⟩
  else some ⟨w.horizon, w.watch,
    if scope = 1 then [] else (s.writes.filter fun x => x.pool && !x.acked && x.agent == .wave w.id).map fun x => x.id⟩

/-! ### Issue (R110, R147, R157, R252) -/

/-- The clock count of a rick, in thousandths: the clocks as they have occurred (R12, R447, R449). -/
def State.rickClk (s : State) (rick : Nat) : Nat :=
  s.power.clk - ((s.power.lag.find? fun x => x.1 == rick).map fun x => x.2).getD 0
/-- The count that a rick's clock reaches after n more clocks. -/
def State.clkAfter (s : State) (rick n : Nat) : Nat := s.rickClk rick + 1000 * n

/-- A stretched rick loses clocks in dt nanoseconds: up to half of them, since a period lasts up to twice the nominal one (R447);
how many is open (log 11). -/
def State.loseClocks (s : State) (dt rick : Nat) : State :=
  let (v, s) := s.free
  let old := ((s.power.lag.find? fun x => x.1 == rick).map fun x => x.2).getD 0
  { s with power := { s.power with
    lag := (s.power.lag.filter fun x => x.1 != rick) ++ [(rick, old + v.toNat % (dt * s.power.clockMHz / 2 + 1))] } }

/-- Device time passes, and with it the clocks of the ricks. -/
def State.pass (s : State) (dt : Nat) : State :=
  if dt = 0 then s
  else
    let s := s.power.droop.foldl (fun s d => s.loseClocks dt d.rick) s
    { s with time := s.time + dt, power := { s.power with clk := s.power.clk + dt * s.power.clockMHz } }

/-- A wave may issue: its context runs, has no fault to report and does not drain, its cord has acquired its tenures again, it is
not halted, what holds it has passed, and it does not wait for an event. -/
def State.canIssue (s : State) (w : Wave) : Bool :=
  let c := s.ctx (s.tagOf w)
  c.st == .running && c.drain.isNone && !(s.faulting.any fun x => x.1 == s.tagOf w) && (s.cordOf w).reacq.isEmpty && !w.halted && decide (w.hold ≤ s.time) &&
  (match w.delayed with | some n => decide (n ≤ s.rickClk w.unit) | Option.none => true) && (match w.wait with | .none | .stalled | .acq _ _ | .pop _ _ | .push _ => true | _ => false)

/-- An instruction that will be executed again in full (R113). -/
def Wait.again (w : Wait) : Bool := match w with | .stalled | .acq _ _ | .pop _ _ | .push _ => true | _ => false

/-- The stride of a stride code of REP (R157). -/
def strideOf (code : Nat) : Nat := if code = 3 then 8 else code

/-- The register offsets of D, A, B and C in the iteration that `rem` counts (R157). -/
def Wave.offsets (w : Wave) : Nat × Nat × Nat × Nat :=
  let m := (if w.sup then w.repStrSup else w.repStr).toNat
  let k := w.rep.toNat - 1
  if w.rep = 0 then (0, 0, 0, 0)
  else (k * strideOf (m % 4), k * strideOf (m / 4 % 4), k * strideOf (m / 16 % 4), k * (m / 64))

/-- An operand field of class 00 names the register f + offset (R157). -/
def shiftReg (o : Opnd) (k : Nat) : Opnd := match o with | .v n => .v (n + BitVec.ofNat 8 k) | o => o

end Sys2Proof.Machine
end

