-- ==== Sys2Proof/Machine/IntExec.lean ====
section
/-! DEFINITION. Integer, address and lane instructions (spec/09_integer.md R168 to R190). -/

namespace Sys2Proof.Machine

/-! ### Shapes -/

/-- A 64-bit IMM32 is sign-extended for `.i64` and `.b64` and zero-extended for `.n64` (R169). -/
def immSigned (t : Nat) : Bool := t != 7

/-- A vector-ALU result: the active lanes of the destination, the flags of the active lanes, and the last-result file
(R145, R150, R168). -/
def State.aluEnd (s : State) (f : Fields) (wide : Bool) (x : List Word64) : Out :=
  s.finish f fun w => (w.putV w.exec wide f.d x).shiftFor f.d

/-- A vector operation on one source. -/
def State.vec1 (s : State) (i : Instr) (f : Fields) (k : Feed) (dwide : Bool) (op : Word64 → Word64) : Out :=
  s.front i f .dest false fun s w => s.aluEnd f dwide ((s.srcA w k f).map op)

/-- A vector operation on two sources; IMM32 supplies B in W96 (R50). -/
def State.vec2 (s : State) (i : Instr) (f : Fields) (k : Feed) (op : Word64 → Word64 → Word64) : Out :=
  s.front i f .dest false fun s w =>
    s.aluEnd f k.wide (List.zipWith op (s.srcA w k f) (s.srcB w k (immSigned f.ty) f))

/-- Lane by lane over three lists. -/
def zip3 (op : Word64 → Word64 → Word64 → Word64) (a b c : List Word64) : List Word64 :=
  (List.zip a (List.zip b c)).map fun x => op x.1 x.2.1 x.2.2

/-- A vector operation on three sources. -/
def State.vec3 (s : State) (i : Instr) (f : Fields) (k kc : Feed) (op : Word64 → Word64 → Word64 → Word64) : Out :=
  s.front i f .dest false fun s w => s.aluEnd f kc.wide (zip3 op (s.srcA w k f) (s.fieldB w k f) (s.srcC w kc f))

/-- A scalar operation on two sources. -/
def State.scal2 (s : State) (i : Instr) (f : Fields) (k : Feed) (op : Word64 → Word64 → Word64) : Out :=
  s.front i f .dest false fun s w =>
    let r := op (s.readS w k f.a) (s.scalB w k (immSigned f.ty) f)
    s.finish f fun w => w.putS f.d r

/-- A scalar operation on one source. -/
def State.scal1 (s : State) (i : Instr) (f : Fields) (k : Feed) (op : Word64 → Word64) : Out :=
  s.front i f .dest false fun s w =>
    let r := op (s.readS w k f.a)
    s.finish f fun w => w.putS f.d r

/-- The mask of the active lanes where a condition holds (R176). -/
def condMask (exec : Mask) (l : List Bool) : Mask := maskOf ((lanesOf exec).filter fun i => l.getD i false)

/-! ### Two-source operations (R172) -/

/-- S.ADD (R172). -/
def execSAdd (f : Fields) (s : State) : Out := s.scal2 (.sAdd f) f (.int 32) (intAlu2 .add f.ty f.sat)
/-- S.SUB (R172). -/
def execSSub (f : Fields) (s : State) : Out := s.scal2 (.sSub f) f (.int 32) (intAlu2 .sub f.ty f.sat)
/-- S.MUL (R172). -/
def execSMul (f : Fields) (s : State) : Out := s.scal2 (.sMul f) f (.int 32) (intAlu2 .mul f.ty f.sat)
/-- S.MULH (R172). -/
def execSMulh (f : Fields) (s : State) : Out := s.scal2 (.sMulh f) f (.int 32) (intAlu2 .mulh f.ty f.sat)
/-- S.AND (R172). -/
def execSAnd (f : Fields) (s : State) : Out := s.scal2 (.sAnd f) f (.int 32) (intAlu2 .and f.ty f.sat)
/-- S.OR (R172). -/
def execSOr (f : Fields) (s : State) : Out := s.scal2 (.sOr f) f (.int 32) (intAlu2 .or f.ty f.sat)
/-- S.XOR (R172). -/
def execSXor (f : Fields) (s : State) : Out := s.scal2 (.sXor f) f (.int 32) (intAlu2 .xor f.ty f.sat)
/-- S.ANDN (R172). -/
def execSAndn (f : Fields) (s : State) : Out := s.scal2 (.sAndn f) f (.int 32) (intAlu2 .andn f.ty f.sat)
/-- S.SHL (R172). -/
def execSShl (f : Fields) (s : State) : Out := s.scal2 (.sShl f) f (.int 32) (intAlu2 .shl f.ty f.sat)
/-- S.SHR (R172). -/
def execSShr (f : Fields) (s : State) : Out := s.scal2 (.sShr f) f (.int 32) (intAlu2 .shr f.ty f.sat)
/-- S.SAR (R172). -/
def execSSar (f : Fields) (s : State) : Out := s.scal2 (.sSar f) f (.int 32) (intAlu2 .sar f.ty f.sat)
/-- S.ROT (R172). -/
def execSRot (f : Fields) (s : State) : Out := s.scal2 (.sRot f) f (.int 32) (intAlu2 .rot f.ty f.sat)
/-- S.MIN (R172). -/
def execSMin (f : Fields) (s : State) : Out := s.scal2 (.sMin f) f (.int 32) (intAlu2 .min f.ty f.sat)
/-- S.MAX (R172). -/
def execSMax (f : Fields) (s : State) : Out := s.scal2 (.sMax f) f (.int 32) (intAlu2 .max f.ty f.sat)
/-- ADD (R172). -/
def execVAdd (f : Fields) (s : State) : Out := s.vec2 (.vAdd f) f (Feed.ofTy f.ty) (intAlu2 .add f.ty f.sat)
/-- SUB (R172). -/
def execVSub (f : Fields) (s : State) : Out := s.vec2 (.vSub f) f (Feed.ofTy f.ty) (intAlu2 .sub f.ty f.sat)
/-- MUL (R172). -/
def execVMul (f : Fields) (s : State) : Out := s.vec2 (.vMul f) f (Feed.ofTy f.ty) (intAlu2 .mul f.ty f.sat)
/-- MULH (R172). -/
def execVMulh (f : Fields) (s : State) : Out := s.vec2 (.vMulh f) f (Feed.ofTy f.ty) (intAlu2 .mulh f.ty f.sat)
/-- AND (R172). -/
def execVAnd (f : Fields) (s : State) : Out := s.vec2 (.vAnd f) f (Feed.ofTy f.ty) (intAlu2 .and f.ty f.sat)
/-- OR (R172). -/
def execVOr (f : Fields) (s : State) : Out := s.vec2 (.vOr f) f (Feed.ofTy f.ty) (intAlu2 .or f.ty f.sat)
/-- XOR (R172). -/
def execVXor (f : Fields) (s : State) : Out := s.vec2 (.vXor f) f (Feed.ofTy f.ty) (intAlu2 .xor f.ty f.sat)
/-- ANDN (R172). -/
def execVAndn (f : Fields) (s : State) : Out := s.vec2 (.vAndn f) f (Feed.ofTy f.ty) (intAlu2 .andn f.ty f.sat)
/-- SHL (R172). -/
def execVShl (f : Fields) (s : State) : Out := s.vec2 (.vShl f) f (Feed.ofTy f.ty) (intAlu2 .shl f.ty f.sat)
/-- SHR (R172). -/
def execVShr (f : Fields) (s : State) : Out := s.vec2 (.vShr f) f (Feed.ofTy f.ty) (intAlu2 .shr f.ty f.sat)
/-- SAR (R172). -/
def execVSar (f : Fields) (s : State) : Out := s.vec2 (.vSar f) f (Feed.ofTy f.ty) (intAlu2 .sar f.ty f.sat)
/-- ROT (R172). -/
def execVRot (f : Fields) (s : State) : Out := s.vec2 (.vRot f) f (Feed.ofTy f.ty) (intAlu2 .rot f.ty f.sat)
/-- MIN (R172). -/
def execVMin (f : Fields) (s : State) : Out := s.vec2 (.vMin f) f (Feed.ofTy f.ty) (intAlu2 .min f.ty f.sat)
/-- MAX (R172). -/
def execVMax (f : Fields) (s : State) : Out := s.vec2 (.vMax f) f (Feed.ofTy f.ty) (intAlu2 .max f.ty f.sat)

/-! ### Multiply-add and 64-bit addition (R173, R174, R175) -/

/-- MAD (R173). -/
def execMad (f : Fields) (s : State) : Out := s.vec3 (.mad f) f (.int 32) (.int 32) (intMad f.ty f.sat)
/-- MADW (R173). -/
def execMadw (f : Fields) (s : State) : Out := s.vec3 (.madw f) f (.int 32) (.int 64) (intMadw f.ty f.sat)
/-- ADD64 (R174). -/
def execVAdd64 (f : Fields) (s : State) : Out := s.vec2 (.vAdd64 f) f (.int 64) (intAdd64 f.ty f.sat)
/-- S.ADD64 (R174). -/
def execSAdd64 (f : Fields) (s : State) : Out := s.scal2 (.sAdd64 f) f (.int 64) (intAdd64 f.ty f.sat)
/-- ABS (R175). -/
def execVAbs (f : Fields) (s : State) : Out := s.vec1 (.vAbs f) f (Feed.ofTy f.ty) false (intAbs f.ty f.sat)

/-! ### Compare, select and moves (R176 to R178) -/

/-- S.CMP (R176). -/
def execSCmp (f : Fields) (s : State) : Out :=
  s.front (.sCmp f) f .dest false fun s w =>
    let k := Feed.ofTy f.ty
    let r := intCmp f.rnd f.ty (s.readS w k f.a) (s.scalB w k (immSigned f.ty) f)
    s.finish f fun w => w.putC f.d r
/-- CMP (R176): all 96 bits of the mask are written. -/
def execVCmp (f : Fields) (s : State) : Out :=
  s.front (.vCmp f) f .dest false fun s w =>
    let k := Feed.ofTy f.ty
    let r := List.zipWith (intCmp f.rnd f.ty) (s.srcA w k f) (s.srcB w k (immSigned f.ty) f)
    s.finish f fun w => w.putK f.d (condMask w.exec r)
/-- SEL (R177). -/
def execVSel (f : Fields) (s : State) : Out :=
  s.front (.vSel f) f .dest false fun s w =>
    let k := Feed.ofTy f.ty
    let m := w.readK f.c
    let a := s.srcA w k f
    let b := s.fieldB w k f
    s.aluEnd f k.wide (tabulate laneCount fun i => if m.getLsbD i then laneOf a i else laneOf b i)
/-- S.SEL (R177). -/
def execSSel (f : Fields) (s : State) : Out :=
  s.front (.sSel f) f .dest false fun s w =>
    let k := Feed.ofTy f.ty
    let r := if w.readC f.c then s.readS w k f.a else s.readS w k f.b
    s.finish f fun w => w.putS f.d r
/-- S.MOV (R178). -/
def execSMov (f : Fields) (s : State) : Out := s.scal1 (.sMov f) f (Feed.ofTy f.ty) id
/-- S.MOVI (R178). -/
def execSMovi (f : Fields) (s : State) : Out :=
  s.front (.sMovi f) f .dest false fun s _ =>
    s.finish f fun w => w.putS f.d ((Feed.ofTy f.ty).immediate (immSigned f.ty) f.imm)

/-! ### Bit fields, counts and conditions (R179 to R183) -/

/-- BFE (R179). -/
def execVBfe (f : Fields) (s : State) : Out := s.vec2 (.vBfe f) f (.int 32) (intBfe f.ty)
/-- S.BFE (R179). -/
def execSBfe (f : Fields) (s : State) : Out := s.scal2 (.sBfe f) f (.int 32) (intBfe f.ty)
/-- BFI (R179). -/
def execVBfi (f : Fields) (s : State) : Out := s.vec3 (.vBfi f) f (.int 32) (.int 32) intBfi
/-- S.BFI (R179). -/
def execSBfi (f : Fields) (s : State) : Out :=
  s.front (.sBfi f) f .dest false fun s w =>
    let k := Feed.int 32
    let r := intBfi (s.readS w k f.a) (s.readS w k f.b) (s.readS w k f.c)
    s.finish f fun w => w.putS f.d r
/-- POPC (R180): d is 32 bits wide under `.b64` too. -/
def execVPopc (f : Fields) (s : State) : Out := s.vec1 (.vPopc f) f (Feed.ofTy f.ty) false (intPopc f.ty)
/-- CLZ (R180). -/
def execVClz (f : Fields) (s : State) : Out := s.vec1 (.vClz f) f (Feed.ofTy f.ty) false (intClz f.ty)
/-- BREV (R180). -/
def execVBrev (f : Fields) (s : State) : Out := s.vec1 (.vBrev f) f (.int 32) false intBrev
/-- S.POPC (R180). -/
def execSPopc (f : Fields) (s : State) : Out := s.scal1 (.sPopc f) f (Feed.ofTy f.ty) (intPopc f.ty)
/-- S.CLZ (R180). -/
def execSClz (f : Fields) (s : State) : Out := s.scal1 (.sClz f) f (Feed.ofTy f.ty) (intClz f.ty)
/-- C.LOP (R181): d receives bit 2a + b of the truth table. -/
def execCLop (f : Fields) (s : State) : Out :=
  s.front (.cLop f) f .dest false fun s w =>
    let n := (if w.readC f.a then 2 else 0) + (if w.readC f.b then 1 else 0)
    s.finish f fun w => w.putC f.d (f.m.getLsbD n)
/-- PRMT (R182): the selector is C, or IMM32 in W96. -/
def execPrmt (f : Fields) (s : State) : Out :=
  s.front (.prmt f) f .dest false fun s w =>
    let k := Feed.int 32
    let c := if f.isW then List.replicate laneCount (f.imm.setWidth 64) else s.srcC w k f
    s.aluEnd f false (zip3 intPrmt (s.srcA w k f) (s.fieldB w k f) c)
/-- DOT4 (R183). -/
def execDot4 (f : Fields) (s : State) : Out :=
  s.vec3 (.dot4 f) f (.int 8) (.int 32) (intDot4 (f.ty == 4) (f.m.getLsbD 5) f.sat)

/-! ### Lane instructions (R184 to R190) -/

/-- A source of SHFL and RDLANE, read in every lane (R184). -/
def shflLane (a : List Word64) (own : Nat) (j : Int) : Word64 :=
  if 0 ≤ j ∧ j ≤ 95 then laneOf a j.toNat else laneOf a own

/-- SHFL (R185): each active lane reads the lane that `pick` gives, or its own when there is none. -/
def State.shfl (s : State) (i : Instr) (f : Fields) (pick : Nat → Nat → Int) : Out :=
  s.front i f .dest false fun s w =>
    let a := s.srcA w (Feed.ofTy f.ty) f
    let b := s.srcB w (.int 32) false f
    s.aluEnd f (ty64 f.ty) (tabulate laneCount fun l => shflLane a l (pick l (laneOf b l).toNat))

/-- SHFL.IDX (R185). -/
def execShflIdx (f : Fields) (s : State) : Out := s.shfl (.shflIdx f) f fun _ b => b
/-- SHFL.XOR (R185). -/
def execShflXor (f : Fields) (s : State) : Out := s.shfl (.shflXor f) f fun l b => (l ^^^ b : Nat)
/-- SHFL.UP (R185). -/
def execShflUp (f : Fields) (s : State) : Out := s.shfl (.shflUp f) f fun l b => (l : Int) - b
/-- SHFL.DOWN (R185). -/
def execShflDown (f : Fields) (s : State) : Out := s.shfl (.shflDown f) f fun l b => (l : Int) + b

/-- RDLANE (R186): lane n of a, or 0 beyond lane 95, whatever exec holds. -/
def execRdlane (f : Fields) (s : State) : Out :=
  s.front (.rdlane f) f .dest true fun s w =>
    let n := (s.scalB w (.int 32) false f).toNat
    let a := s.srcA w (Feed.ofTy f.ty) f
    s.finish f fun w => w.putS f.d (if n ≤ 95 then laneOf a n else 0)
/-- WRLANE (R186): lane n of d, whatever exec holds. -/
def execWrlane (f : Fields) (s : State) : Out :=
  s.front (.wrlane f) f .dest false fun s w =>
    let n := (s.scalB w (.int 32) false f).toNat
    let a := s.readS w (Feed.ofTy f.ty) f.a
    let m : Mask := if n ≤ 95 then 1#96 <<< n else 0
    s.finish f fun w => (w.putV m (ty64 f.ty) f.d (List.replicate laneCount a)).shiftFor f.d
/-- MATCH (R187). -/
def execMatchLanes (f : Fields) (s : State) : Out :=
  s.front (.matchLanes f) f .dest false fun s w =>
    let a := s.srcA w (Feed.ofTy f.ty) f
    let act := lanesOf w.exec
    s.aluEnd f false (tabulate laneCount fun l =>
      let e := act.filter fun j => laneOf a j == laneOf a l
      BitVec.ofNat 64 (match f.mbits 5 4 with
        | 0 => e.headD 0
        | 1 => (e.filter fun j => decide (j < l)).length
        | _ => e.length))

/-- The combination of the lanes of a list (R188). -/
def reduxFold (op t : Nat) (a : List Word64) (l : List Nat) : Word64 :=
  l.foldl (fun x j => reduxOp op t x (laneOf a j)) (reduxIdentity op t)

/-- REDUX (R189): into a scalar, or into every active lane. -/
def execRedux (f : Fields) (s : State) : Out :=
  s.front (.redux f) f .dest false fun s w =>
    let r := reduxFold f.rnd f.ty (s.srcA w (Feed.ofTy f.ty) f) (lanesOf w.exec)
    s.finish f fun w => ((w.putS f.d r).putV w.exec (ty64 f.ty) f.d (List.replicate laneCount r)).shiftFor f.d
/-- SCAN (R190): inclusive, or exclusive under `.addx`. -/
def execScan (f : Fields) (s : State) : Out :=
  s.front (.scan f) f .dest false fun s w =>
    let a := s.srcA w (Feed.ofTy f.ty) f
    let act := lanesOf w.exec
    s.aluEnd f (ty64 f.ty) (tabulate laneCount fun l =>
      reduxFold f.rnd f.ty a (act.filter fun j => decide (j < l) || (f.rnd != 1 && j == l)))

end Sys2Proof.Machine
end

