-- ==== Sys2Proof/Machine/Special.lean ====
section
/-! DEFINITION. The special functions (spec/04_numbers.md R92, spec/10_float.md R206). The listed results are exact. Every
other result is Config's value for the operand where that value lies within the bound of R92, and the nearest FP32
value of the function otherwise; the bound is tested against a fixed-point approximation whose error is far below it. -/

namespace Sys2Proof.Machine

/-! ### Fixed point with 96 fraction bits -/

/-- One, in fixed point. -/
def fxOne : Int := 2 ^ 96
def fxMul (a b : Int) : Int := a * b / fxOne

/-- ln 2 in fixed point. -/
def fxLn2 : Int := 54916777467707473351141471128
/-- 2π in fixed point. -/
def fxTwoPi : Int := 497805226624462170461043889244

/-- sum over k < n of the Taylor terms t(k+1) = t(k) * x / (k+1), from term `t` of index `k`. -/
def fxExpSeries : Nat → Nat → Int → Int → Int
  | 0, _, _, _ => 0
  | n + 1, k, x, t => t + fxExpSeries n (k + 1) x (fxMul t x / (k + 1 : Nat))

/-- 2^x for a fixed-point x with |x| at most 1. -/
def fxExp2 (x : Int) : Int := fxExpSeries 40 0 (fxMul x fxLn2) fxOne

/-- sum of odd powers z^(2k+1) / (2k+1): atanh z. -/
def fxAtanhSeries : Nat → Nat → Int → Int → Int
  | 0, _, _, _ => 0
  | n + 1, k, z2, t => t / (2 * k + 1 : Nat) + fxAtanhSeries n (k + 1) z2 (fxMul t z2)

/-- log2 of n / d in [1, 2), by 2 atanh((m - 1) / (m + 1)) / ln 2. -/
def fxLog2 (n d : Nat) : Int :=
  let z : Int := ((n : Int) - d) * fxOne / ((n : Int) + d)
  2 * fxAtanhSeries 40 0 (fxMul z z) z * fxOne / fxLn2

/-- The alternating Taylor terms from `t` of power `k`: t - t x²/((k+1)(k+2)) + … -/
def fxTrigSeries : Nat → Nat → Int → Int → Int
  | 0, _, _, _ => 0
  | n + 1, k, x2, t => t + fxTrigSeries n (k + 2) x2 (-(fxMul t x2) / ((k + 1) * (k + 2) : Nat))

/-- sin and cos of 2π x for a fixed-point x with |x| at most 1/2. -/
def fxSin (x : Int) : Int := let a := fxMul x fxTwoPi; fxTrigSeries 20 1 (fxMul a a) a
def fxCos (x : Int) : Int := let a := fxMul x fxTwoPi; fxTrigSeries 20 0 (fxMul a a) fxOne

/-! ### The bound -/

/-- The candidate where it is finite and within `bn / bd` of the value `vn / vd`, else the nearest FP32 value. The
result raises NX (R92). -/
def withinBound (cand : Word) (vn : Int) (vd : Nat) (bn bd : Nat) : Word64 × FFlags :=
  let near := if vn = 0 then (0 : Word64) else (roundMag .f32 .rne (decide (vn < 0)) vn.natAbs vd).1
  match unpack .f32 (cand.setWidth 64) with
  | .fin s n d =>
    if ((sgn s n * vd - vn * d).natAbs) * bd ≤ bn * (d * vd) then (cand.setWidth 64, flagNX) else (near, flagNX)
  | _ => (near, flagNX)

/-- One unit in the last place of FP32 at a positive value n / d, as a ratio. -/
def ulp32 (n d : Nat) : Nat × Nat :=
  let e := max (ilog2 n d) (-126) - 23
  if 0 ≤ e then (2 ^ e.toNat, 1) else (1, 2 ^ (-e).toNat)

/-! ### The functions -/

/-- FEXP2F on the reduced range [-0.5, 0.5] (R92); R455 gives the A1 bits at four operands. -/
def fexp2Reduced (x : Word) : Word64 × FFlags :=
  if x = 0x00000000 ∨ x = 0x80000000 then (0x3F800000, 0)
  else if x = 0x3F000000 then (0x3FB504F3, flagNX)
  else if x = 0xBF000000 then (0x3F3504F3, flagNX)
  else if x = 0x3E800000 then (0x3F9837F0, flagNX)
  else match unpack .f32 (x.setWidth 64) with
    | .fin s n d =>
      let v := fxExp2 (sgn s n * fxOne / (d : Int))
      let u := ulp32 v.toNat (2 ^ 96)
      withinBound (Config.fexp2f x) v (2 ^ 96) u.1 u.2
    | _ => (FFmt.f32.nan, 0)

/-- A nonzero FP32 value below the smallest normal value. -/
def tiny32 (x : Word64) : Bool :=
  match unpack .f32 x with | .fin _ n d => n != 0 && decide (n * 2 ^ 126 < d) | _ => false

/-- FEXP2F (R92): outside [-0.5, 0.5] it is FLDEXP(FEXP2F(x - n), n) with n = RoundRNE(x). An inexact result that is tiny raises
UF where the scaling is exact too (R66). -/
def fpExp2 (a : Word64) : Word64 × FFlags :=
  match unpack .f32 a with
  | .nan s => (FFmt.f32.nan, flagIf s flagNV)
  | .inf s => if s then (0, 0) else (FFmt.f32.inf false, 0)
  | .fin s n d =>
    let x := sgn s n
    if 2 * n ≤ d then fexp2Reduced (lo32 a)
    else
      let k := sgn s (roundInt .rne s n d).1
      let r := (FExact.ofRat false (x - k * d) d).round .f32 .rne
      let core := fexp2Reduced (lo32 r.1)
      let res := fpLdexp .f32 core.1 k
      (res.1, core.2 ||| res.2 ||| flagIf (core.2.getLsbD 0 && tiny32 res.1) flagUF)

/-- FLOG2 (R92). On [0.5, 2] the bound of 2^-22 holds beside that of 2 ulp, whichever is the smaller (DESIGN CHOICE,
log 51). -/
def fpLog2 (a : Word64) : Word64 × FFlags :=
  match unpack .f32 a with
  | .nan s => (FFmt.f32.nan, flagIf s flagNV)
  | .inf s => if s then (FFmt.f32.nan, flagNV) else (FFmt.f32.inf false, 0)
  | .fin s n d =>
    if n = 0 then (FFmt.f32.inf true, flagDZ)
    else if s then (FFmt.f32.nan, flagNV)
    else
      let e := ilog2 n d
      let (m, r, dd) := scaledDiv n d (-e)
      if m = 1 ∧ r = 0 then ((fpOfInt .f32 .rne e).1, 0)
      else
        let v := e * fxOne + fxLog2 (dd + r) dd
        let u := ulp32 v.natAbs (2 ^ 96)
        let mid := decide (-1 ≤ e) && decide (e ≤ 0)
        if mid && decide (u.2 < 2 * u.1 * 2 ^ 22) then withinBound (Config.flog2 (lo32 a)) v (2 ^ 96) 1 (2 ^ 22)
        else withinBound (Config.flog2 (lo32 a)) v (2 ^ 96) (2 * u.1) u.2

/-- Whether n / d is a power of two. -/
def isPow2 (n d : Nat) : Bool :=
  let (m, r, _) := scaledDiv n d (-(ilog2 n d))
  m == 1 && r == 0

/-- FRCP (R92). -/
def fpRcp (a : Word64) : Word64 × FFlags :=
  match unpack .f32 a with
  | .nan s => (FFmt.f32.nan, flagIf s flagNV)
  | .inf s => (FFmt.f32.zero s, 0)
  | .fin s n d =>
    if n = 0 then (FFmt.f32.inf s, flagDZ)
    else
      let r := roundMag .f32 .rne s d n
      if r.2.getLsbD 2 then (FFmt.f32.inf s, r.2)
      else if isPow2 n d && r.2 = 0 then r
      else
        let u := ulp32 d n
        let w := withinBound (Config.frcp (lo32 a)) (sgn s d) n u.1 u.2
        (w.1, w.2 ||| r.2)

/-- FRSQ (R92): 4^k is exact. -/
def fpRsq (a : Word64) : Word64 × FFlags :=
  match unpack .f32 a with
  | .nan s => (FFmt.f32.nan, flagIf s flagNV)
  | .inf s => if s then (FFmt.f32.nan, flagNV) else (0, 0)
  | .fin s n d =>
    if n = 0 then (FFmt.f32.inf s, flagDZ)
    else if s then (FFmt.f32.nan, flagNV)
    else
      -- 1 / sqrt (n / d) = sqrt (n * d) / n
      let x := n * d * 2 ^ 320
      let r := isqrt x
      let q := n * 2 ^ 160
      if isPow2 n d && (ilog2 n d) % 2 == 0 then roundMag .f32 .rne false r q
      else
        let u := ulp32 r q
        withinBound (Config.frsq (lo32 a)) r q u.1 u.2

/-- sin(π q / 2). -/
def quarterSine (q : Nat) : Int := if q % 4 = 1 then 1 else if q % 4 = 3 then -1 else 0

/-- Sine (`cosine` false) and cosine of x revolutions (R92): x is first reduced exactly modulo 1; multiples of 0.25
give 0, 1 or -1. -/
def fpTrig (cosine : Bool) (a : Word64) : Word64 × FFlags :=
  match unpack .f32 a with
  | .nan s => (FFmt.f32.nan, flagIf s flagNV)
  | .inf _ => (FFmt.f32.nan, flagNV)
  | .fin s n d =>
    let x : Int := sgn s n % (d : Int)
    if (4 * x) % (d : Int) = 0 then
      let quarter := ((4 * x) / (d : Int)).toNat
      let v := quarterSine (if cosine then quarter + 1 else quarter)
      if v = 0 then (FFmt.f32.zero (!cosine && decide (n = 0) && s), 0) else ((fpOfInt .f32 .rne v).1, 0)
    else
      let y : Int := if (d : Int) < 2 * x then x - d else x
      let fx := y * fxOne / (d : Int)
      let v := if cosine then fxCos fx else fxSin fx
      let cand := if cosine then Config.fcosr (lo32 a) else Config.fsinr (lo32 a)
      let r := withinBound cand v (2 ^ 96) 1 (2 ^ 22)
      -- the sine of a small x is 2π x to the precision of the test: tiny below 2^-126 (R66)
      let tiny := !cosine && decide (y.natAbs * fxTwoPi.toNat * 2 ^ 126 < d * 2 ^ 96)
      (r.1, r.2 ||| flagIf tiny flagUF)

end Sys2Proof.Machine
end

