-- ==== Sys2Proof/Machine/FloatExec.lean ====
section
/-! DEFINITION. Floating-point instructions (spec/10_float.md R191 to R214, spec/04_numbers.md R63 to R92). -/

namespace Sys2Proof.Machine

/-! ### Shapes -/

/-- The rounding of an instruction in a lane: its RND, or the lane's random value under SR (R57, R72). -/
def laneRnd (f : Fields) (seed : Word64) (l : Nat) : Rnd := if f.rnd = 5 then .sr (srLane seed l) else Rnd.ofCode f.rnd

/-- The flags of the active lanes (R67). -/
def activeFlags (m : Mask) (r : List (Word64 × FFlags)) : FFlags :=
  flagsOr ((lanesOf m).map fun i => (r.getD i (0, 0)).2)

/-- A vector-ALU result with flags (R67, R192). -/
def State.fpEnd (s : State) (f : Fields) (wide : Bool) (r : List (Word64 × FFlags)) : Out :=
  s.finish f fun w => ((w.putV w.exec wide f.d (r.map fun x => x.1)).shiftFor f.d).orFlags (activeFlags w.exec r)

def State.fp1 (s : State) (i : Instr) (f : Fields) (k : Feed) (dwide : Bool) (op : Word64 → Word64 × FFlags) : Out :=
  s.front i f .dest false fun s w => s.fpEnd f dwide ((s.srcA w k f).map op)

def State.fp2 (s : State) (i : Instr) (f : Fields) (fm : FFmt) (op : Word64 → Word64 → Word64 × FFlags) : Out :=
  s.front i f .dest false fun s w =>
    let k := Feed.fp fm
    s.fpEnd f k.wide (List.zipWith (packed2 fm op) (s.srcA w k f) (s.srcB w k true f))

def State.fp3 (s : State) (i : Instr) (f : Fields) (k kc : Feed) (op : Word64 → Word64 → Word64 → Word64 × FFlags) : Out :=
  s.front i f .dest false fun s w =>
    s.fpEnd f kc.wide ((List.zip (s.srcA w k f) (List.zip (s.fieldB w k f) (s.srcC w kc f))).map
      fun x => op x.1 x.2.1 x.2.2)

/-- A comparison into a mask (R196). -/
def State.fpCompare (s : State) (i : Instr) (f : Fields) (fm : FFmt) : Out :=
  s.front i f .dest false fun s w =>
    let k := Feed.fp fm
    let r := List.zipWith (fpCondPacked fm f.rnd) (s.srcA w k f) (s.srcB w k true f)
    let fl := flagsOr ((lanesOf w.exec).map fun l => (r.getD l (false, 0)).2)
    s.finish f fun w => (w.putK f.d (condMask w.exec (r.map fun x => x.1))).orFlags fl

/-- A long-latency producer issues (R151, R207): its registers are marked empty and the result is on its way. Without
an active lane it does nothing. -/
def State.startFill (s : State) (w : Wave) (f : Fields) (data : List Lanes) (fl : FFlags) : Out :=
  if w.exec = 0 then s.finish f id
  else match f.d with
    | .v n =>
      let s := { s with uid := s.uid + 1, fills := s.fills ++ [(⟨s.uid, w.id, n.toNat, w.exec, data, fl, true⟩ : Fill)] }
      s.finish f fun w => w.markEmpty n.toNat data.length
    | _ =>
      let s := { s with uid := s.uid + 1, fills := s.fills ++ [(⟨s.uid, w.id, 0, w.exec, [], fl, true⟩ : Fill)] }
      s.finish f id

/-- A special function (R206, R207). -/
def State.sfu (s : State) (i : Instr) (f : Fields) (op : Word64 → Word64 × FFlags) : Out :=
  s.front i f .dest false fun s w =>
    let r := (s.srcA w (.fp .f32) f).map op
    s.startFill w f [r.map fun x => lo32 x.1] (activeFlags w.exec r)

/-! ### Arithmetic (R194 to R198) -/

/-- FADD (R194). -/
def execFadd (f : Fields) (s : State) : Out :=
  s.fp2 (.fadd f) f (FFmt.ofTy f.ty) (fpAdd (FFmt.ofTy f.ty) (Rnd.ofCode f.rnd))
/-- FSUB (R194). -/
def execFsub (f : Fields) (s : State) : Out :=
  s.fp2 (.fsub f) f (FFmt.ofTy f.ty) (fpSub (FFmt.ofTy f.ty) (Rnd.ofCode f.rnd))
/-- FMUL (R194). -/
def execFmul (f : Fields) (s : State) : Out :=
  s.fp2 (.fmul f) f (FFmt.ofTy f.ty) (fpMul (FFmt.ofTy f.ty) (Rnd.ofCode f.rnd))
/-- FFMA (R194). -/
def execFfma (f : Fields) (s : State) : Out :=
  let fm := FFmt.ofTy f.ty
  s.fp3 (.ffma f) f (.fp fm) (.fp fm) (packed3 fm (fpFma fm (Rnd.ofCode f.rnd)))
/-- FMIN (R195). -/
def execFmin (f : Fields) (s : State) : Out := s.fp2 (.fmin f) f (FFmt.ofTy f.ty) (fpMinMax (FFmt.ofTy f.ty) false)
/-- FMAX (R195). -/
def execFmax (f : Fields) (s : State) : Out := s.fp2 (.fmax f) f (FFmt.ofTy f.ty) (fpMinMax (FFmt.ofTy f.ty) true)
/-- FCMP (R196). -/
def execFcmp (f : Fields) (s : State) : Out := s.fpCompare (.fcmp f) f (FFmt.ofTy f.ty)
/-- FCLASS (R197). -/
def execFclass (f : Fields) (s : State) : Out :=
  let fm := FFmt.ofTy f.ty
  s.fp1 (.fclass f) f (.fp fm) false fun x => (fpClassPacked fm x, 0)
/-- FRND (R198). -/
def execFrnd (f : Fields) (s : State) : Out :=
  let fm := FFmt.ofTy f.ty
  s.fp1 (.frnd f) f (.fp fm) false (packed1 fm (fpRnd fm (Rnd.ofCode f.rnd)))

/-! ### FP64 (R199) -/

/-- DADD (R199). -/
def execDadd (f : Fields) (s : State) : Out := s.fp2 (.dadd f) f .f64 (fpAdd .f64 (Rnd.ofCode f.rnd))
/-- DMUL (R199). -/
def execDmul (f : Fields) (s : State) : Out := s.fp2 (.dmul f) f .f64 (fpMul .f64 (Rnd.ofCode f.rnd))
/-- DFMA (R199). -/
def execDfma (f : Fields) (s : State) : Out := s.fp3 (.dfma f) f (.fp .f64) (.fp .f64) (fpFma .f64 (Rnd.ofCode f.rnd))
/-- DCMP (R199). -/
def execDcmp (f : Fields) (s : State) : Out := s.fpCompare (.dcmp f) f .f64
/-- DMINMAX (R199). -/
def execDminmax (f : Fields) (s : State) : Out := s.fp2 (.dminmax f) f .f64 (fpMinMax .f64 (f.rnd == 1))

/-! ### Conversions (R200 to R205, R209, R210) -/

/-- One lane of FCVT by direction (R201). -/
def fcvtLane (f : Fields) (m : Rnd) (a b : Word64) : Word64 × FFlags :=
  let src := FFmt.ofTy f.stype
  let dst := FFmt.ofTy f.ty
  match f.cvtKind with
  | 1 | 2 =>
    let x := fpCvt src dst m a
    let y := fpCvt src dst m b
    (pack16 x.1 y.1, x.2 ||| y.2)
  | 4 =>
    let x := fpCvt src dst m (elem16 0 a)
    let y := fpCvt src dst m (elem16 1 a)
    (pack16 x.1 y.1, x.2 ||| y.2)
  | 5 | 6 => fpCvt src dst m (elem16 f.elem a)
  | _ => fpCvt src dst m a

/-- FCVT (R201); under SR the generator advances, whatever exec holds (R71). -/
def execFcvt (f : Fields) (s : State) : Out :=
  s.front (.fcvt f) f .dest false fun s w =>
    let k := Feed.fp (FFmt.ofTy f.stype)
    let a := s.srcA w k f
    let b := if f.cvtKind = 1 ∨ f.cvtKind = 2 then s.fieldB w k f else a
    let r := tabulate laneCount fun l => fcvtLane f (laneRnd f w.srseed l) (laneOf a l) (laneOf b l)
    let s := if f.rnd = 5 then s.modMe fun w => { w with srseed := srAdvance w.srseed } else s
    s.fpEnd f (f.ty == 0xD) r

/-- F2I (R75, R202): the clamped result extended to its register. -/
def execF2i (f : Fields) (s : State) : Out :=
  let fm := FFmt.ofTy f.stype
  s.fp1 (.f2i f) f (.fp fm) (ty64 f.ty) fun a =>
    let x := if f.stype = 0xA ∨ f.stype = 0xB then elem16 f.elem a else a
    let r := fpToInt fm (tySigned f.ty) (tyWidth f.ty) (Rnd.ofCode f.rnd) x
    (if ty64 f.ty then wrap 64 r.1 else (wrap 32 r.1).setWidth 64, r.2)

/-- I2F (R76, R203). -/
def execI2f (f : Fields) (s : State) : Out :=
  s.front (.i2f f) f .dest false fun s w =>
    let k := Feed.ofTy f.stype
    let fm := FFmt.ofTy f.ty
    let cv := fun (x : Word64) => fpOfInt fm (Rnd.ofCode f.rnd) (readInt (tySigned f.stype) (tyWidth f.stype) x.toNat)
    let a := s.srcA w k f
    if f.ty = 0xA ∨ f.ty = 0xB then
      s.fpEnd f false (List.zipWith (fun x y => (pack16 (cv x).1 (cv y).1, (cv x).2 ||| (cv y).2)) a (s.fieldB w k f))
    else s.fpEnd f (f.ty == 0xD) (a.map cv)

/-- FLDEXP (R204): B is a signed 32-bit integer in both types. -/
def execFldexp (f : Fields) (s : State) : Out :=
  s.front (.fldexp f) f .dest false fun s w =>
    let fm := FFmt.ofTy f.ty
    s.fpEnd f (f.ty == 0xD) (List.zipWith (fun a b => fpLdexp fm a (lo32 b).toInt) (s.srcA w (.fp fm) f) (s.srcB w (.int 32) true f))

/-- FFREXP (R205): the mantissa, or the exponent as a 32-bit integer. -/
def execFfrexp (f : Fields) (s : State) : Out :=
  let fm := FFmt.ofTy f.ty
  let mant := f.mbits 4 4 == 0
  s.fp1 (.ffrexp f) f (.fp fm) (f.ty == 0xD && mant) fun a =>
    if mant then fpMant fm a else ((wrap 32 (fpExp fm a)).setWidth 64, 0)

/-- FQNI (R209): the code in byte N of d, the other bytes kept. -/
def execFqni (f : Fields) (s : State) : Out :=
  s.front (.fqni f) f (.both (f.pol.getLsbD 2)) false fun s w =>
    let n := f.mbits 8 7
    let a := s.srcA w (.fp .f32) f
    let b := s.fieldB w (.int 32) f
    let d := s.readV w (.int 32) 0 f.d
    let r := tabulate laneCount fun l =>
      let q := fqniCode (laneRnd f w.srseed l) (laneOf a l) ((laneOf b l).toNat % 256)
      let old := laneOf d l
      let sh := 8 * n
      ((old &&& ~~~(0xFF#64 <<< sh)) ||| ((wrap 8 q.1).setWidth 64 <<< sh), q.2)
    let s := if f.rnd = 5 then s.modMe fun w => { w with srseed := srAdvance w.srseed } else s
    s.fpEnd f false r

/-- FDQNI (R210). -/
def execFdqni (f : Fields) (s : State) : Out :=
  s.front (.fdqni f) f .dest false fun s w =>
    let n := f.mbits 8 7
    s.fpEnd f false (List.zipWith (fun a b =>
      let q := readInt true 8 (a.toNat / 2 ^ (8 * n))
      fdqniVal q (f.mbits 12 9) (b.toNat % 256) (!f.m.getLsbD 13 || b.getLsbD 8))
      (s.srcA w (.int 32) f) (s.fieldB w (.int 32) f))

/-! ### Special functions (R206, R207) -/

/-- FEXP2F (R206). -/
def execFexp2f (f : Fields) (s : State) : Out := s.sfu (.fexp2f f) f fpExp2
/-- FLOG2 (R206). -/
def execFlog2 (f : Fields) (s : State) : Out := s.sfu (.flog2 f) f fpLog2
/-- FRCP (R206). -/
def execFrcp (f : Fields) (s : State) : Out := s.sfu (.frcp f) f fpRcp
/-- FRSQ (R206). -/
def execFrsq (f : Fields) (s : State) : Out := s.sfu (.frsq f) f fpRsq
/-- FSQRT (R206), correctly rounded. -/
def execFsqrt (f : Fields) (s : State) : Out := s.sfu (.fsqrt f) f (fpSqrt .f32 (Rnd.ofCode f.rnd))
/-- FSINR (R206). -/
def execFsinr (f : Fields) (s : State) : Out := s.sfu (.fsinr f) f (fpTrig false)
/-- FCOSR (R206). -/
def execFcosr (f : Fields) (s : State) : Out := s.sfu (.fcosr f) f (fpTrig true)

/-! ### Sums (R208, R211 to R213) -/

/-- FDOT2 (R208). -/
def execFdot2 (f : Fields) (s : State) : Out :=
  let fm := FFmt.ofTy f.ty
  s.fp3 (.fdot2 f) f (.fp fm) (.fp .f32) (fpDot2 fm (Rnd.ofCode f.rnd))

/-- One level of the tree of R88: adjacent values combine, a value without a partner passes up. -/
def treeLevel (op : Word64 → Word64 → Word64 × FFlags) : List (Option Word64) → List (Option Word64) × FFlags
  | a :: b :: rest =>
    let r := treeLevel op rest
    match a, b with
    | some x, some y => let z := op x y; (some z.1 :: r.1, z.2 ||| r.2)
    | some x, Option.none => (some x :: r.1, r.2)
    | Option.none, y => (y :: r.1, r.2)
  | l => (l, 0)

/-- The tree over the lanes, at most seven levels (R88). -/
def treeFold (op : Word64 → Word64 → Word64 × FFlags) : Nat → List (Option Word64) → FFlags → Option Word64 × FFlags
  | 0, l, fl => (l.headD Option.none, fl)
  | n + 1, l, fl => let r := treeLevel op l; treeFold op n r.1 (fl ||| r.2)

/-- REDUX.F (R88, R211). -/
def execReduxF (f : Fields) (s : State) : Out :=
  s.front (.reduxF f) f .dest false fun s w =>
    let fm := match f.mbits 1 0 with | 0 => FFmt.f32 | 1 => FFmt.f16 | _ => FFmt.bf16
    let o := f.mbits 3 2
    let op := packed2 fm (if o = 0 then fpAdd fm (Rnd.ofCode f.rnd) else fpMinMax fm (o == 2))
    let a := s.srcA w (.fp fm) f
    let r := treeFold op 7 (tabulate laneCount fun l => if w.exec.getLsbD l then some (laneOf a l) else Option.none) 0
    let none := spreadFp fm (if o = 0 then 0 else fm.inf (o == 2))
    let x := r.1.getD none
    s.finish f fun w => (((w.putS f.d x).putV w.exec false f.d (List.replicate laneCount x)).shiftFor f.d).orFlags r.2

/-- The accumulator of a lane in eight registers from vN, low word first (R82). -/
def Wave.xaRead (w : Wave) (n l : Nat) : XA :=
  BitVec.ofNat 256 (natOfBytes ((tabulate 8 fun i => bytesOfNat 4 (lane (w.vAt (n + i)) l).toNat).flatten))

/-- The accumulators of the active lanes into eight registers. -/
def Wave.xaWrite (w : Wave) (n : Nat) (x : List XA) : Wave :=
  (List.range 8).foldl (fun w i =>
    w.setV (n + i) (mergeLanes w.exec (w.vAt (n + i)) (x.map fun a => a.extractLsb' (32 * i) 32))) w

def vNum (o : Opnd) : Nat := match o with | .v n => n.toNat | _ => 0

/-- XA.ADD and XA.ADD.xa (R212): l0 takes the first register. -/
def execXaAdd (f : Fields) (s : State) : Out :=
  s.front (.xaAdd f) f .dest false fun s w =>
    let n := vNum f.d
    let a := s.srcA w (.fp .f32) f
    let r := tabulate laneCount fun l =>
      if f.m = 1 then xaAddXa (w.xaRead n l) (w.xaRead (vNum f.a) l) else xaAdd (w.xaRead n l) (laneOf a l)
    s.finish f fun w => (w.xaWrite n r).shiftFor f.d

/-- XA.RND (R84, R213). -/
def execXaRnd (f : Fields) (s : State) : Out :=
  s.front (.xaRnd f) f .dest false fun s w =>
    s.fpEnd f false (tabulate laneCount fun l => xaRound (w.xaRead (vNum f.a) l))

end Sys2Proof.Machine
end

