-- ==== Sys2Proof/Machine/Pair.lean ====
section
/-! DEFINITION. Pairs: one scalar and one vector operation together (spec/02_formats.md R37 to R39, spec/03_opcodes.md
R52, R53). -/

namespace Sys2Proof.Machine

/-- The scalar half on SA and SB (R52): none for NOP. -/
def sopResult (o : SPairOp) (a b : Word64) : Option Word64 :=
  match o with
  | .nop => Option.none
  | .add => some (intAlu2 .add 8 false a b)
  | .sub => some (intAlu2 .sub 8 false a b)
  | .mul => some (intAlu2 .mul 8 false a b)
  | .mulhI => some (intAlu2 .mulh 2 false a b)
  | .mulhN => some (intAlu2 .mulh 6 false a b)
  | .and => some (intAlu2 .and 8 false a b)
  | .or => some (intAlu2 .or 8 false a b)
  | .xor => some (intAlu2 .xor 8 false a b)
  | .andn => some (intAlu2 .andn 8 false a b)
  | .shl => some (intAlu2 .shl 8 false a b)
  | .shr => some (intAlu2 .shr 8 false a b)
  | .sar => some (intAlu2 .sar 8 false a b)
  | .rot => some (intAlu2 .rot 8 false a b)
  | .minI => some (intAlu2 .min 2 false a b)
  | .minN => some (intAlu2 .min 6 false a b)
  | .maxI => some (intAlu2 .max 2 false a b)
  | .maxN => some (intAlu2 .max 6 false a b)
  | .mov => some b
  | .addSatI => some (intAlu2 .add 2 true a b)
  | .subSatI => some (intAlu2 .sub 2 true a b)
  | .addSatN => some (intAlu2 .add 6 true a b)
  | .subSatN => some (intAlu2 .sub 6 true a b)
  | .popc => some (intPopc 8 a)
  | .clz => some (intClz 8 a)

/-- The format of a vector pair operation, none for the integer ones and MOV (R53). -/
def vopFmt (o : VPairOp) : Option FFmt :=
  match o with
  | .faddF32 | .fsubF32 | .fmulF32 | .ffmaF32 | .fminF32 | .fmaxF32 => some .f32
  | .faddF16 | .fmulF16 | .ffmaF16 => some .f16
  | .faddBf16 | .fmulBf16 | .ffmaBf16 => some .bf16
  | _ => Option.none

/-- The vector half in one lane on VA, VB and the old VD (R53). -/
def vopLane (o : VPairOp) (a b c : Word64) : Word64 × FFlags :=
  match o with
  | .nop => (c, 0)
  | .add => (intAlu2 .add 8 false a b, 0)
  | .sub => (intAlu2 .sub 8 false a b, 0)
  | .mul => (intAlu2 .mul 8 false a b, 0)
  | .mad => (intMad 8 false a b c, 0)
  | .and => (intAlu2 .and 8 false a b, 0)
  | .or => (intAlu2 .or 8 false a b, 0)
  | .xor => (intAlu2 .xor 8 false a b, 0)
  | .andn => (intAlu2 .andn 8 false a b, 0)
  | .shl => (intAlu2 .shl 8 false a b, 0)
  | .shr => (intAlu2 .shr 8 false a b, 0)
  | .sar => (intAlu2 .sar 8 false a b, 0)
  | .minI => (intAlu2 .min 2 false a b, 0)
  | .minN => (intAlu2 .min 6 false a b, 0)
  | .maxI => (intAlu2 .max 2 false a b, 0)
  | .maxN => (intAlu2 .max 6 false a b, 0)
  | .faddF32 => fpAdd .f32 .rne a b
  | .fsubF32 => fpSub .f32 .rne a b
  | .fmulF32 => fpMul .f32 .rne a b
  | .ffmaF32 => fpFma .f32 .rne a b c
  | .fminF32 => fpMinMax .f32 false a b
  | .fmaxF32 => fpMinMax .f32 true a b
  | .faddF16 => packed2 .f16 (fpAdd .f16 .rne) a b
  | .fmulF16 => packed2 .f16 (fpMul .f16 .rne) a b
  | .ffmaF16 => packed3 .f16 (fpFma .f16 .rne) a b c
  | .faddBf16 => packed2 .bf16 (fpAdd .bf16 .rne) a b
  | .fmulBf16 => packed2 .bf16 (fpMul .bf16 .rne) a b
  | .ffmaBf16 => packed3 .bf16 (fpFma .bf16 .rne) a b c
  | .mov => (b, 0)

/-- VB as an operand (R38). -/
def vbOpnd : PairVB → Opnd
  | .o n => .o n
  | .l n => .l n
  | .q n => .q n
  | .s n => .s (n.setWidth 7)
  | .int n => .int (n.setWidth 6)
  | .fconst n => .fconst n

/-- The scalar source SB: a register, or an immediate sign-extended (R37). -/
def Wave.readSB (w : Wave) (b : PairSB) : Word64 :=
  match b with
  | .s n => (w.sAt n.toNat).setWidth 64
  | .imm n => (n.signExtend 32).setWidth 64

/-- Bit 63 of %trapinfo marks the vector half (R39). -/
def vectorHalf (x : Word64) : Word64 := x ||| 0x8000000000000000

/-- The registers of a pair at or beyond the kernel's counts, in the order D, A, B, C, VD as C where it is read, and the
scalar half first in each (R30, R39, R157; which half is reported where both name such a register at one place is a
DESIGN CHOICE, log 47). -/
def pairRegidx (p : PairFields) (regs sregs : Nat) : Option Word64 :=
  let sc := fun (w n : Nat) => if sregs ≤ n then some (regInfo w n) else Option.none
  let ve := fun (w n : Nat) => if regs ≤ n then some (vectorHalf (regInfo w n)) else Option.none
  let first := fun (l : List (Option Word64)) => (l.filterMap id).head?
  first [sc 0 p.sd.toNat, if p.vop.three then Option.none else ve 0 p.vd.toNat, sc 1 p.sa.toNat, ve 1 p.va.toNat,
    (match p.sb with | .s n => sc 2 n.toNat | _ => Option.none), if p.vop.three then ve 3 p.vd.toNat else Option.none]

/-- The sources of the vector half that R33 checks (R39). -/
def pairSrcs (p : PairFields) : List Src :=
  (match p.vop with | .nop | .mov => [] | _ => [⟨1, Opnd.v p.va, 1, p.pol, false⟩]) ++
  (match p.vop with | .nop => [] | _ => [⟨2, vbOpnd p.vb, 1, p.pol, false⟩]) ++
  (if p.vop.three then [⟨3, Opnd.v p.vd, 1, p.pol, false⟩] else [])

/-- Both halves, their sources read before either writes (R39). -/
def Wave.pairEffect (s : State) (w : Wave) (p : PairFields) : Wave :=
  let sr := sopResult p.sop ((w.sAt p.sa.toNat).setWidth 64) (w.readSB p.sb)
  let k := match vopFmt p.vop with | some fm => Feed.fp fm | Option.none => Feed.int 32
  let a := widen (w.vAt p.va.toNat)
  let b := s.readV w k 0 (vbOpnd p.vb)
  let c := widen (w.vAt p.vd.toNat)
  let r := (List.zip a (List.zip b c)).map fun x => vopLane p.vop x.1 x.2.1 x.2.2
  let w := match sr with | some x => w.setS p.sd.toNat (lo32 x) | Option.none => w
  match p.vop with
  | .nop => w
  | _ => (((w.putV w.exec false (.v p.vd) (r.map fun x => x.1)).shiftFor (.v p.vd)).orFlags (activeFlags w.exec r)).pop [vbOpnd p.vb]

/-- The operands that a pair reads, each one register (R15). -/
def pairReads (p : PairFields) : List (Opnd × Nat) :=
  [(.s p.sa, 1)] ++ (match p.sb with | .s n => [(.s n, 1)] | .imm _ => []) ++ (pairSrcs p).map (fun s => (s.o, 1))

/-- PAIR (R39): whole or not at all. -/
def execPair (p : PairFields) (s : State) : Out :=
  match s.me with
  | Option.none => .fault .noSuchEvent
  | some w =>
    let k := (s.cordOf w).kernel
    match pairRegidx p k.regs k.sregs with
    | some info => s.trap 0x10 w.exec info
    | Option.none =>
      if !w.guard p.g then .next (s.setMe (w.next 8))
      else match w.ready encodeOpnd (pairSrcs p) with
        | some (.traps c info) => s.notReady c (if c = 0x2A then info else vectorHalf info) w.exec
        | some .waits => s.stall
        | Option.none =>
          if p.vop != .nop && w.destBusy (.v p.vd) 1 then s.stall
          else match s.readErrors w (pairReads p) with
            | (true, s) => .next (s.ctxFault (s.tagOf w) 0x50)
            | (false, s) => .next (s.setMe ((w.pairEffect s p).next 8))

end Sys2Proof.Machine
end

