-- ==== Sys2Proof/Machine/Fetch.lean ====
section
/-! DEFINITION. Fetching an instruction (spec/02_formats.md R18 to R20, R40, spec/07_kernel.md R144,
spec/13_memory_order.md R251): the 32-byte fetch block from the instruction cache or, when it holds none, from memory
under an execute translation, and the bits of the instruction in it. -/

namespace Sys2Proof.Machine

/-- The first byte of the fetch block of an address. -/
def fetchBlock (pc : Word64) : Word64 := pc &&& ~~~31

/-- The bytes of a block that an instruction cache holds for a wave: one of an S page serves supervisor state alone
(R305). -/
def State.heldBlock (s : State) (w : Wave) : Option (List Byte) :=
  (s.icache.find? fun l => l.core == w.core && l.tag == s.tagOf w && l.va == fetchBlock w.pc && (w.sup || !l.sup)).map
    fun l => l.bytes

/-- A block enters the instruction cache of a core, which holds 64 KiB (R9, log 45). -/
def State.fillBlock (s : State) (core tag : Nat) (va : Word64) (bs : List Byte) (sup : Bool) : State :=
  let l := (s.icache.filter fun l => !(l.core == core && l.tag == tag && l.va == va)) ++ [(⟨core, tag, va, bs, sup⟩ : ICLine)]
  { s with icache := keepNewest Config.icacheBlocks (fun l => l.core == core) l }

/-- An error in the cached block of a code address that a wave reads (R15, R17): corrected and counted, or the block is
discarded. -/
def State.meetBlock (s : State) (w : Wave) (va : Word64) : State :=
  match s.takeFlaws w.die fun p => p == .icache w.core (fetchBlock va) with
  | (true, s) => { s with icache := s.icache.filter fun l => !(l.core == w.core && l.va == fetchBlock va) }
  | (false, s) => s

/-- The block at the wave's PC goes on: held, or read from memory; a fetch that does not translate traps at the PC
(R159, R306) and a poisoned sector faults the context (R16). -/
def State.fetch (s : State) (w : Wave) (k : State → List Byte → Out) : Out :=
  let s := s.meetBlock w w.pc
  match s.heldBlock w with
  | some bs => k s bs
  | none =>
    let tag := s.tagOf w
    match s.translate w.unit tag w.die w.sup 2 w.pc.toNat with
    | (.fault c p, s) => s.trap c w.exec (pageInfo w.pc.toNat 2 p)
    | (.bad, s) => .next (s.ctxFault tag 0x50)
    | (.wait, s) => s.stall
    | (.ok pa e, s) =>
      match s.meetErrors (some w.core) tag pa with
      | (true, s) => .next (s.ctxFault tag 0x50)
      | (false, s) =>
        let bs := s.homeBytes (sectorBase pa) 32
        k (s.fillBlock w.core tag (fetchBlock w.pc) bs (pteS e)) bs

/-- The bits of a block from an offset on, those beyond the block zero (R61). -/
def blockBits (bs : List Byte) (off : Nat) : BitVec 128 := BitVec.ofNat 128 (natOfBytes ((bs.drop off).take 16))

/-- The instruction runs past the end of its fetch block (R20). -/
def splits (bs : List Byte) (off : Nat) : Bool := decide (32 < off + lengthOf (bs.getD off 0))

/-- The bits at a wave's PC, as far as the instruction cache or memory shows them without an access. -/
def State.peekBits (s : State) (w : Wave) : Option (BitVec 128) :=
  let bs := match s.heldBlock w with
    | some bs => bs
    | none => (match s.physOf (s.tagOf w) w.pc.toNat with
      | some pa => s.homeBytes (sectorBase pa) 32
      | none => [])
  if bs.length < 32 then none else some (blockBits bs (w.pc.toNat % 32))

/-- The instruction in them. -/
def State.peek (s : State) (w : Wave) : Option Instr :=
  (s.peekBits w).bind fun b =>
    if 32 < w.pc.toNat % 32 + lengthOf (b.setWidth 8) then none
    else match decodeBits b with | .ok i => some i | .error _ => none

end Sys2Proof.Machine
end

