-- ==== Sys2Proof/Machine/WaveCtl.lean ====
section
/-! DEFINITION. Instructions of the wave itself: traps, system registers, sleep, control transfer, repeat and loops, masks,
index registers, register growth and waits (spec/05_context.md R104 to R109, spec/07_kernel.md R144, spec/08_wave.md
R154 to R167, spec/11_group.md R220). -/

namespace Sys2Proof.Machine

/-- Operand B as a natural number: a register or constant, or IMM32 (R50). -/
def State.natB (s : State) (w : Wave) (f : Fields) : Nat := (s.scalB w (.int 32) false f).toNat % 2 ^ 32

/-- NOP (R22). -/
def execNop (f : Fields) (s : State) : Out := s.front (.nop f) f .dest false fun s _ => s.finish f id

/-! ### Traps and system registers (R104 to R109) -/

/-- TRAP (R104): TRAP_INSN with the code operand, whatever exec holds. -/
def execTrap (f : Fields) (s : State) : Out :=
  s.front (.trap f) f .dest false fun s w =>
    s.trap 0x05 w.exec ((lo32 (s.scalB w (.int 32) false f)).setWidth 64)

/-- TRET (R105). -/
def execTret (f : Fields) (s : State) : Out :=
  s.front (.tret f) f .dest false fun s w =>
    State.take (s.waveLoad w true (s.trapArea w) 200 0) 0 fun s fr => .next (s.modMe fun w => w.leaveTrap fr)

/-- The value of a system register (R106). -/
def State.sysVal (s : State) (w : Wave) (r : SysReg) : Word64 :=
  let c := s.ctx (s.tagOf w)
  match r with
  | .spec r => s.specVal w r
  | .ctxtag => BitVec.ofNat 64 (s.tagOf w)
  | .trapframe => BitVec.ofNat 64 (s.trapArea w)
  | .supbase => BitVec.ofNat 64 c.supbase
  | .framepool => BitVec.ofNat 64 c.fpool
  | .mailbox => BitVec.ofNat 64 c.mailbox
  | .versions => BitVec.ofNat 64 (c.mbver.toNat * 65536 + c.qver.toNat * 256 + c.recver.toNat)

/-- SYS.RD (R106): the value at issue, after the waits of R68 and R237. -/
def execSysRd (f : Fields) (s : State) : Out :=
  s.front (.sysRd f) f .dest false fun s w =>
    match f.sysReg with
    | Option.none => .fault .noSuchEvent
    | some r =>
      if (r = .spec .fpflags ∧ s.flagsPending w) ∨ (r = .spec .horizon ∧ ¬ w.watch.isEmpty) then s.stall
      else match if r = .spec .trappc then s.meetFrame w else (false, s) with
        | (true, s) => .next (s.ctxFault (s.tagOf w) 0x50)
        | (false, s) =>
          let x := s.sysVal w r
          s.finish f fun w => w.putS f.d x

/-- SYS.WR (R67, R70, R106): `%fpflags` keeps five bits, a zero seed becomes 1, `%trappc` is a store to the frame and
`%framepool` replaces the context's FPOOL. -/
def execSysWr (f : Fields) (s : State) : Out :=
  s.front (.sysWr f) f .dest false fun s w =>
    let x32 := s.readS w (.int 32) f.a
    let x64 := s.readS w (.int 64) f.a
    match f.sysReg with
    | some (.spec .fpflags) =>
      if s.flagsPending w then s.stall else s.finish f fun w => { w with fpflags := x32.setWidth 5 }
    | some (.spec .srseed) => s.finish f fun w => { w with srseed := if x64 = 0 then 1 else x64 }
    | some (.spec .trappc) =>
      State.take (s.waveStore w true (s.trapArea w) (bytesOfNat 8 x64.toNat)) 1 fun s _ => s.finish f id
    | some .framepool => (s.modCtx (s.tagOf w) fun c => { c with fpool := x64.toNat }).finish f id
    | _ => .fault .noSuchEvent

/-- A mailbox entry as the hardware posts it (R107). -/
def State.mailEntry (s : State) (w : Wave) (service : Nat) (arg : Word64) : List Byte :=
  bytesOfNat 4 1 ++ bytesOfNat 2 service ++ [BitVec.ofNat 8 (s.ctx (s.tagOf w)).mbver.toNat, 0] ++ bytesOfNat 8 arg.toNat ++
  bytesOfNat 8 w.pc.toNat ++ bytesOfNat 4 (w.index + 256 * w.id.slot + 65536 * w.id.part) ++
  bytesOfNat 4 (s.cordOf w).cordid ++ bytesOfNat 8 s.time ++ List.replicate 24 0

/-- UPCALL (R108): blocks while the ring's next entry is not free, by a completed STATUS and by every accepted one (R107), then
posts it and waits for the answer. Faults have the write kind and come before anything is posted. A service number of V64
beyond 16 bits is taken modulo 65,536, the width of SERVICE: the manual checks IMM32 alone (DESIGN CHOICE, log 43). -/
def execUpcall (f : Fields) (s : State) : Out :=
  s.front (.upcall f) f .dest false fun s w =>
    let tag := s.tagOf w
    let c := s.ctx tag
    let va := c.mailbox + 64 * c.mbnext
    let service := s.natB w f % 65536
    let arg := s.readS w (.int 64) f.a
    State.take (s.locate w.unit tag w.die true 1 Option.none (piecesOf va 64)) 1 fun s l =>
      let pa := (l.map fun x => x.1).headD 0
      if s.homeBytes pa 4 ≠ bytesOfNat 4 0 ∨ s.latestBytes pa 4 ≠ bytesOfNat 4 0 ∨ ¬ s.mayPost w.die then s.stall
      else
        let (_, s) := s.storePieces (.wave w.id) (some tag) Option.none true l (s.mailEntry w service arg)
        let s := s.modCtx tag fun c => { c with mbnext := (c.mbnext + 1) % 2 ^ c.mblog2 }
        let s := s.post w.die 1 tag c.mbnext 0
        .next (s.modMe fun w => { w with wait := .upcall c.mbnext f.d Option.none (fieldsBytes f) })

/-- SLEEP (R109): a pending wake ends it at once with 1; a duration of 0 writes 0. -/
def execSleep (f : Fields) (s : State) : Out :=
  s.front (.sleep f) f .dest false fun s w =>
    let ns := s.natB w f
    if w.wake then s.finish f fun w => { w with wake := false }.putS f.d 1
    else if ns = 0 then s.finish f fun w => w.putS f.d 0
    else .next (s.modMe fun w => { w with wait := .sleep (s.time + ns) f.d (fieldsBytes f) })

/-! ### Control transfer (R158 to R161) -/

/-- A transfer to t, which traps when t is not canonical (R159). -/
def State.jump (s : State) (t : Word64) (up : Wave → Wave) : Out :=
  if canonical t then .next (s.modMe fun w => { up w with wait := Wait.none }.goto t true)
  else s.trap 0x20 ((s.me.map Wave.exec).getD 0) (pageInfo t.toNat 2 0)

/-- pc + 4 × Sext(IMM32, 64). -/
def relTarget (pc : Word64) (f : Fields) : Word64 := pc + (f.imm.signExtend 64 <<< 2)

/-- Bits [1:0] of an address used as a target read as zero (R19). -/
def alignPc (x : Word64) : Word64 := x &&& ~~~3

/-- BRA (R159). -/
def execBra (f : Fields) (s : State) : Out :=
  s.front (.bra f) f .dest false fun s w => s.jump (relTarget w.pc f) id
/-- BREZ (R159): the branch is taken when all 96 bits of a are zero. -/
def execBrez (f : Fields) (s : State) : Out :=
  s.front (.brez f) f .dest false fun s w =>
    if w.readK f.a = 0 then s.jump (relTarget w.pc f) id else s.finish f id
/-- BRX (R159). -/
def execBrx (f : Fields) (s : State) : Out :=
  s.front (.brx f) f .dest false fun s w => s.jump (alignPc (s.readS w (.int 64) f.a)) id
/-- RET (R159): as BRX; the return predictor is timing. -/
def execRet (f : Fields) (s : State) : Out :=
  s.front (.ret f) f .dest false fun s w => s.jump (alignPc (s.readS w (.int 64) f.a)) id
/-- CALL (R159): D receives the address of the sequential successor. -/
def execCall (f : Fields) (s : State) : Out :=
  s.front (.call f) f .dest false fun s w =>
    let t := if f.isW then relTarget w.pc f else alignPc (s.readS w (.int 64) f.b)
    s.jump t fun w => w.putS f.d (seqNext w.pc (fieldsBytes f))

/-- The first byte at a code address, as an instruction cache or memory holds it, for the length of an instruction that
REP 0 skips. -/
def State.codeByte (s : State) (w : Wave) (va : Word64) : Option Byte :=
  let blk := fetchBlock va
  match s.icache.find? fun l => l.core == w.core && l.tag == s.tagOf w && l.va == blk with
  | some l => some (l.bytes.getD (va.toNat % 32) 0)
  | Option.none => (s.physOf (s.tagOf w) va.toNat).map s.homeByte

/-- REP (R157): the count and strides are loaded; with a count of 0 the successor is skipped entirely. A successor that is
neither cached nor mapped has no length to read: 8 bytes are skipped, as of the V64 word that REP takes, and nothing is
raised (DESIGN CHOICE, log 63). -/
def execRep (f : Fields) (s : State) : Out :=
  s.front (.rep f) f .dest false fun s w =>
    let n : BitVec 16 := (s.readS w (.int 32) f.a).setWidth 16
    let next := seqNext w.pc 8
    if n = 0 then
      let s := s.meetBlock w next
      let len := match s.codeByte w next with | some b => lengthOf b | Option.none => 8
      .next (s.modMe fun w => { w with wait := Wait.none }.goto (seqNext next len) false)
    else
      .next (s.modMe fun w =>
        let w := { w with wait := Wait.none }.goto next false
        if w.sup then { w with rep := n, repStrSup := f.m.setWidth 7 } else { w with rep := n, repStr := f.m.setWidth 7 })

/-- LOOP.PIN (R158): the body must lie after its successor within 32 fetch blocks, or RESERVED_BITS is raised. -/
def execLoopPin (f : Fields) (s : State) : Out :=
  match s.me with
  | Option.none => .fault .noSuchEvent
  | some w =>
    let start := seqNext w.pc 12
    let last := relTarget w.pc f
    if last < start ∨ 32 < last.toNat / 32 - start.toNat / 32 + 1 then s.trap 0x02 w.exec (insnInfo (.loopPin f))
    else s.front (.loopPin f) f .dest false fun s _ =>
      .next (s.modMe fun w =>
        let w := if w.sup then { w with loopSup := some ⟨start, last⟩ } else { w with loop := some ⟨start, last⟩ }
        { w with wait := Wait.none }.goto start false)

/-- LOOP.END (R158). -/
def execLoopEnd (f : Fields) (s : State) : Out :=
  s.front (.loopEnd f) f .dest false fun s w =>
    match (if w.sup then w.loopSup else w.loop) with
    | some l =>
      if l.last = w.pc then .next (s.modMe fun w => { w with wait := Wait.none }.goto l.start false) else s.finish f id
    | Option.none => s.finish f id

/-- YIELD (R161): the wave is not chosen before the other ready waves have issued or 64 clocks have passed. -/
def execYield (f : Fields) (s : State) : Out :=
  s.front (.yield f) f .dest false fun s w =>
    let others := (s.waves.filter fun x => x.id.core == w.id.core && x.id.part == w.id.part && x.id != w.id && s.canIssue x).map
      fun x => x.id
    s.finish f fun w => { w with yield := some (s.clkAfter w.unit 64, others) }

/-! ### Masks (R162, R163) -/

/-- A mask operation on all 96 bits (R162). -/
def State.maskOp (s : State) (i : Instr) (f : Fields) (op : Mask → Mask → Mask) : Out :=
  s.front i f .dest false fun s w =>
    let r := op (w.readK f.a) (w.readK f.b)
    s.finish f fun w => w.putK f.d r

/-- K.AND (R162). -/
def execKAnd (f : Fields) (s : State) : Out := s.maskOp (.kAnd f) f fun a b => a &&& b
/-- K.OR (R162). -/
def execKOr (f : Fields) (s : State) : Out := s.maskOp (.kOr f) f fun a b => a ||| b
/-- K.XOR (R162). -/
def execKXor (f : Fields) (s : State) : Out := s.maskOp (.kXor f) f fun a b => a ^^^ b
/-- K.ANDN (R162). -/
def execKAndn (f : Fields) (s : State) : Out := s.maskOp (.kAndn f) f fun a b => a &&& ~~~b
/-- K.NOT (R162). -/
def execKNot (f : Fields) (s : State) : Out := s.maskOp (.kNot f) f fun a _ => ~~~a
/-- K.MOV (R162). -/
def execKMov (f : Fields) (s : State) : Out := s.maskOp (.kMov f) f fun a _ => a
/-- K.POPC (R163). -/
def execKPopc (f : Fields) (s : State) : Out :=
  s.front (.kPopc f) f .dest false fun s w =>
    let n := (lanesOf (w.readK f.a)).length
    s.finish f fun w => w.putS f.d (BitVec.ofNat 64 n)
/-- K.FIRST (R163): 96 when the mask is empty. -/
def execKFirst (f : Fields) (s : State) : Out :=
  s.front (.kFirst f) f .dest false fun s w =>
    let n := lowLane (w.readK f.a)
    s.finish f fun w => w.putS f.d (BitVec.ofNat 64 n)
/-- K.TEST.any (R163). -/
def execKTestAny (f : Fields) (s : State) : Out :=
  s.front (.kTestAny f) f .dest false fun s w =>
    let r := w.readK f.a &&& w.readK f.b != 0
    s.finish f fun w => w.putC f.d r
/-- K.TEST.all (R163). -/
def execKTestAll (f : Fields) (s : State) : Out :=
  s.front (.kTestAll f) f .dest false fun s w =>
    let r := w.readK f.a &&& w.readK f.b == w.readK f.b
    s.finish f fun w => w.putC f.d r

/-! ### Index registers (R153, R165, R166) -/

def xNum (o : Opnd) : Nat := match o with | .x n => n.toNat | _ => 0

/-- XSET (R165). -/
def execXset (f : Fields) (s : State) : Out :=
  s.front (.xset f) f .dest false fun s w =>
    let b := s.natB w f
    let a := s.srcA w (.int 32) f
    s.finish f fun w => w.putX (xNum f.d) w.exec (a.map fun x => BitVec.ofNat 16 (x.toNat + b))

/-- XADD (R165): into an index register, or zero-extended into a v or o register. -/
def execXadd (f : Fields) (s : State) : Out :=
  s.front (.xadd f) f .dest false fun s w =>
    let b := s.natB w f
    let r : List (BitVec 16) := tabulate laneCount fun l => BitVec.ofNat 16 ((w.xAt (xNum f.a) l).toNat + b)
    match f.d with
    | .x n => s.finish f fun w => w.putX n.toNat w.exec r
    | _ => s.aluEnd f false (r.map fun x => x.setWidth 64)

/-- The index of each active lane, not wrapped (R166). -/
def State.indices (s : State) (w : Wave) (f : Fields) (x : Opnd) : List (Nat × Nat) :=
  (lanesOf w.exec).map fun l => (l, (w.xAt (xNum x) l).toNat + s.natB w f)

/-- The trap of an index at or beyond N (R153). -/
def indexTrap (bound which : Nat) (l : List (Nat × Nat)) : Option (Mask × Word64) :=
  let bad := l.filter fun x => decide (bound ≤ x.2)
  match bad with
  | [] => Option.none
  | x :: _ => some (maskOf (bad.map fun y => y.1), BitVec.ofNat 64 (min x.2 511 + 512 * which + 2048))

/-- The errors of the lane words that an indexed read takes (R15, R16). -/
def State.laneErrors (s : State) (w : Wave) (ix : List (Nat × Nat)) : Bool × State :=
  s.takeFlaws w.die fun p => match p with
    | .vreg id k l => id == w.id && ix.contains (l, k)
    | _ => false

/-- MOVX.RD (R166). -/
def execMovxRd (f : Fields) (s : State) : Out :=
  s.front (.movxRd f) f .dest false fun s w =>
    let ix := s.indices w f f.a
    match indexTrap w.bound 1 ix with
    | some (m, info) => s.trap 0x10 m info
    | Option.none =>
      if ix.any fun x => !w.full x.2 then
        (if f.pol.getLsbD 0 then s.trap 0x11 w.exec (emptyInfo 1 (encodeOpnd f.a)) else s.stall)
      else
        let r := ix.foldl (fun (l : List Word64) x => l.set x.1 ((lane (w.vAt x.2) x.1).setWidth 64)) (List.replicate laneCount 0)
        match s.laneErrors w ix with
        | (true, s) => .next (s.ctxFault (s.tagOf w) 0x50)
        | (false, s) => s.aluEnd f false r

/-- MOVX.WR (R152, R166). -/
def execMovxWr (f : Fields) (s : State) : Out :=
  s.front (.movxWr f) f .dest false fun s w =>
    let ix := s.indices w f f.d
    match indexTrap w.bound 0 ix with
    | some (m, info) => s.trap 0x10 m info
    | Option.none =>
      if ix.any fun x => !w.full x.2 then s.stall
      else
        let a := s.srcA w (.int 32) f
        s.finish f fun w => ix.foldl (fun w x => w.setV x.2 ((w.vAt x.2).set x.1 (lo32 (laneOf a x.1)))) w

/-! ### Register growth (R154 to R156) -/

/-- The granules of a partition that resident waves hold. -/
def State.granuleUsed (s : State) (core part g : Nat) : Bool :=
  s.waves.any fun w => w.id.core == core && w.id.part == part && decide (w.granule ≤ g) && decide (g < w.granule + w.alloc / 8)

/-- The granules that a growth to n registers needs are below 48 and free (R154). -/
def State.growFits (s : State) (w : Wave) (n : Nat) : Bool :=
  (List.range (n / 8 - w.alloc / 8)).all fun i =>
    let g := w.granule + w.alloc / 8 + i
    decide (g < Config.granules) && !s.granuleUsed w.id.core w.id.part g

/-- Registers added to a span: zero and full. -/
def Wave.growTo (w : Wave) (n : Nat) : Wave :=
  { w with v := w.v ++ List.replicate (n - w.alloc) ⟨zeroLanes, Option.none⟩, bound := n }

/-- Every resident wave of a partition that has not ended, other than one, is blocked in REG.GROW (R155). -/
def State.othersGrow (s : State) (w : Wave) : Bool :=
  (s.waves.filter fun x => x.id.core == w.id.core && x.id.part == w.id.part && x.id != w.id && x.wait != .ended).all fun x =>
    match x.wait with | .grow _ _ _ => true | _ => false

/-- A REG.GROW that ends with a result: D and the successor. -/
def Wave.growEnd (w : Wave) (d : Opnd) (len : Nat) (b : Bool) : Wave := (w.putC d b).next len

/-- Every blocked REG.GROW of a partition ends with 0 (R155). -/
def State.growFail (s : State) (core part : Nat) : State :=
  { s with waves := s.waves.map fun x =>
      if x.id.core = core ∧ x.id.part = part then
        (match x.wait with | .grow _ d len => x.growEnd d len false | _ => x)
      else x }

/-- REG.GROW (R154, R155). -/
def execRegGrow (f : Fields) (s : State) : Out :=
  s.front (.regGrow f) f .dest false fun s w =>
    let n := s.natB w f
    if 256 < n ∨ n % 8 ≠ 0 then s.trap 0x12 w.exec (BitVec.ofNat 64 (min n 511))
    else if n ≤ w.alloc then s.finish f fun w => { w with bound := max w.bound n }.putC f.d true
    else if s.growFits w n then s.finish f fun w => (w.growTo n).putC f.d true
    else
      let s := s.modMe fun w => { w with wait := .grow n f.d (fieldsBytes f) }
      .next (if s.othersGrow w then s.growFail w.id.core w.id.part else s)

/-- REG.SHRINK (R156). -/
def execRegShrink (f : Fields) (s : State) : Out :=
  s.front (.regShrink f) f .dest false fun s w =>
    let n := s.natB w f
    if 256 < n ∨ n % 8 ≠ 0 ∨ n < 8 * ceilDiv (s.cordOf w).kernel.regs 8 then
      s.trap 0x12 w.exec (BitVec.ofNat 64 (min n 511))
    else if w.alloc ≤ n then s.finish f id
    else if (List.range (w.alloc - n)).any fun i => !w.full (n + i) then s.stall
    else s.finish f fun w => { w with v := w.v.take n, bound := min w.bound n }

/-! ### Waits, code and groups (R144, R167, R220) -/

/-- FE.WAIT over a range (R167); a register of the range at or beyond REGS raises REGIDX. -/
def execFeWait (f : Fields) (s : State) : Out :=
  match s.me with
  | Option.none => .fault .noSuchEvent
  | some w =>
    let a := vNum f.a
    let n := match f.b with | .int k => k.toNat | _ => 0
    match spanOver a n (s.cordOf w).kernel.regs with
    | some r => s.trap 0x10 w.exec (regInfo 1 r)
    | Option.none => s.front (.feWait f) { f with pol := 0 } .dest false fun s w =>
      if (List.range n).any fun i => !w.full (a + i) then s.stall else s.finish f id

/-- FE.WAIT.all (R167). -/
def execFeWaitAll (f : Fields) (s : State) : Out :=
  s.front (.feWaitAll f) f .dest false fun s w =>
    if w.v.any fun r => r.producer.isSome then s.stall else s.finish f id

/-- IC.INV (R144): the context's lines of a range leave every instruction cache and loop buffer. -/
def execIcInv (f : Fields) (s : State) : Out :=
  s.front (.icInv f) f .dest false fun s w =>
    if !s.released w then s.stall
    else
      let a := (s.readS w (.int 64) f.a).toNat
      let n := s.natB w f
      let hit := fun (l : ICLine) => l.tag == s.tagOf w &&
        (n == 0 || (decide (a < l.va.toNat + 32) && decide (l.va.toNat < a + n)))
      { s with icache := s.icache.filter fun l => !hit l }.finish f id

/-- A group-table entry; beyond the table it is empty (R220). -/
def Cord.group (c : Cord) (g : Nat) : BitVec 128 := c.kernel.groups.getD g 0
def grpMembers (e : BitVec 128) : Nat := e.toNat % 2 ^ 64
def grpKind (e : BitVec 128) : Nat := e.toNat / 2 ^ 64 % 256
def grpSide (e : BitVec 128) : Nat := e.toNat / 2 ^ 72 % 256
/-- The member waves, ascending. -/
def grpList (e : BitVec 128) : List Nat := (List.range 64).filter fun i => e.getLsbD i

/-- GRP.INFO (R220). -/
def execGrpInfo (f : Fields) (s : State) : Out :=
  s.front (.grpInfo f) f .dest false fun s w =>
    let c := s.cordOf w
    let g := s.natB w f
    let e := if 255 < g then 0 else c.group g
    let m := grpList e
    let r : Nat := match f.m.toNat with
      | 0 => grpMembers e
      | 1 => grpKind e + 256 * grpSide e + (if m.isEmpty then 0 else 65536)
      | 2 => if m.contains w.index then (m.filter fun i => decide (i < w.index)).length else 0xFFFFFFFF
      | 3 => m.length
      | _ =>
        let mine := (List.range c.kernel.groups.length).filter fun g => (grpList (c.group g)).contains w.index
        natOfBytes ((mine.map fun g => BitVec.ofNat 8 g) ++ List.replicate (4 - mine.length) 0xFF)
    s.finish f fun w => w.putS f.d (BitVec.ofNat 64 r)

end Sys2Proof.Machine
end

