-- ==== Sys2Proof/Machine/Debug.lean ====
section
/-! DEFINITION. Measurement and debug (spec/22_debug.md R435 to R446): the region stack, records, breakpoints, halts and
resumption, stop requests, samples, trials, the debug registers and the freeze. -/

namespace Sys2Proof.Machine

/-! ### Registers and signals -/

def dbgTag (d : DbgCore) : Nat := d.ctl.toNat % 4096
def dbgHalten (d : DbgCore) : Bool := d.ctl.getLsbD 12
def dbgBpen (d : DbgCore) : Bool := d.ctl.getLsbD 13
def dbgTrace (d : DbgCore) : Bool := d.ctl.getLsbD 14
/-- A message interrupt of a die's host port, in PCIe mode (R403, R439). -/
def State.msix (s : State) (die vector : Nat) : State :=
  { s with hosts := modAt s.hosts die fun h => if h.mode = .pcie then { h with msix := vector :: h.msix } else h }

/-- An identity becomes pending at a hart's interrupt file, which ends its WFI (R424, R427). -/
def State.interrupt (s : State) (hart ident : Nat) : State :=
  { s with harts := modAt s.harts hart fun h =>
      { h with ident := if h.ident.contains ident then h.ident else h.ident ++ [ident], wfi := false } }

/-! ### Records (R435, R442) -/

/-- The four highest stored entries of the region stack, the top first (R435). -/
def Wave.topRegions (w : Wave) : List Byte :=
  let d := min w.rgndepth.toNat 16
  (tabulate 4 fun i => bytesOfNat 2 (if i < d then (w.regions.getD (d - 1 - i) 0).toNat else 0)).flatten

/-- A record without its MARK (R442). -/
def State.recordBytes (s : State) (w : Wave) (kind st bp : Nat) (blame : Word64) : List Byte :=
  bytesOfNat 8 s.time ++ bytesOfNat 8 w.pc.toNat ++ bytesOfNat 8 blame.toNat ++ w.topRegions ++
  bytesOfNat 2 w.rgndepth.toNat ++ bytesOfNat 2 (s.tagOf w) ++ bytesOfNat 1 w.core ++ bytesOfNat 1 (slotNum w.id) ++
  bytesOfNat 1 kind ++ bytesOfNat 1 st ++ bytesOfNat 4 (s.cordOf w).cordid ++ bytesOfNat 1 w.index ++ bytesOfNat 1 bp ++
  List.replicate 14 0

/-- A record is written into the die's ring. A full ring drops it and counts it (R442), and so does one that does not
translate or lies under a write tenure, since no wave waits for it (log 40); a poisoned sector there faults the ring's
context (R16). -/
def State.record (s : State) (w : Wave) (kind st bp : Nat) (blame : Word64) : State :=
  let d := s.dbgDies.getD w.die ⟨0, 0, 0⟩
  if d.ring = 0 then s
  else match s.ringPost unitSched 0 w.die d.ring.toNat 64 (s.recordBytes w kind st bp blame) with
    | (s, .ok true) => s
    | (s, r) =>
      let s := if r == .bad then s.faultLater 0 else s
      { s with dbgDies := modAt s.dbgDies w.die fun d => { d with drop := d.drop + 1 } }

/-! ### Halts (R439) -/

/-- Steps 2 and 3 of a halt: the HALTED bit, a record, the host's vector 2,047 and identity 2 at the hart NKEVTHART. -/
def State.halted (s : State) (w : Wave) (st bp : Nat) (info : Word64) : State :=
  let n := slotNum w.id
  let s := s.modWave w.id fun w =>
    { w with halted := true, haltAs := (st, bp, info), stepOnce := false, exempt := false, wait := Wait.none }
  let s := s.modDbg w.core fun d => { d with halted := bitSet d.halted n }
  let s := s.record w 3 st bp 0
  (s.msix w.die 2047).interrupt (s.nkevthart.getD w.die 0) 2

/-- Step 1 of a halt: the frame of R101 with cause BREAK; the errors of the registers that it holds are met (R16). -/
def State.haltFrame (s : State) (w : Wave) (info : Word64) : State × Acc Unit :=
  match s.readErrors w frameReads with
  | (true, s) => (s, .bad)
  | (false, s) => s.waveStore w true (s.trapArea w) (w.trapFrame 6 w.exec info)

/-- The wave halts. A frame that cannot be written faults the context as at trap entry (R98). -/
def State.haltWave (s : State) (w : Wave) (st bp : Nat) (info : Word64) : State :=
  match s.haltFrame w info with
  | (s, .ok _) => s.halted w st bp info
  | (s, .wait) => s
  | (s, .bad) => s.ctxFault (s.tagOf w) 0x50
  | (s, .fault _ _ _) => s.ctxFault (s.tagOf w) 0x52

/-- A stop request takes effect (R441): the wave halts, and the request is no longer pending (R437). -/
def State.haltStop (s : State) (w : Wave) : State :=
  let t := s.haltWave w 2 0 0
  if (t.waveAt w.id).any fun x => x.halted then t.modDbg w.core fun d => { d with stopreq := bitClear d.stopreq (slotNum w.id) }
  else t

/-- The halted waves of a restored cord halt again where they stand, each with a new frame and record (R446, log 40). -/
def State.haltsAgain : List Wave → State → State × Acc Unit
  | [], s => (s, .ok ())
  | w :: rest, s =>
    let (st, bp, info) := w.haltAs
    andThen (s.haltFrame w info) fun s _ => State.haltsAgain rest (s.halted w st bp info)

/-- The instruction at the PC is a pair, as its length field says, before any check of R40 (R18, R438). -/
def State.atPair (s : State) (w : Wave) : Bool := match s.peekBits w with | some b => (b.extractLsb' 0 2).toNat == 1 | none => false

/-- The lowest breakpoint that matches a wave about to issue, and whether it names the vector half (R438). -/
def State.bpMatch (s : State) (w : Wave) : Option (Nat × Bool) :=
  let d := s.dbg w.core
  if !dbgBpen d || decide (dbgTag d ≠ s.tagOf w) || w.sup then none
  else
    let hit := fun (n : Nat) =>
      let b := d.bp.getD n 0
      let slot := bits64 b 62 61
      b.getLsbD 63 && decide (bits64 b 56 2 = bits64 w.pc 56 2) && decide (slot ≠ 3) && (slot == 0 || s.atPair w)
    ((List.range 8).find? hit).map fun n => (n, decide (bits64 (d.bp.getD n 0) 62 61 = 2))

/-- A halt at a matching breakpoint (R438, R439). -/
def State.haltBp (s : State) (w : Wave) (m : Nat × Bool) : State :=
  s.haltWave w 0 (m.1 + if m.2 then 8 else 0) (BitVec.ofNat 64 (m.1 + if m.2 then 2 ^ 63 else 0))

/-- BREAKPOINT_MATCH (R438). -/
def execBreakpointMatch (id : WaveId) (s : State) : Out :=
  match s.waveAt id with
  | some w => .next (if s.canIssue w && !w.exempt then (match s.bpMatch w with | some m => s.haltBp w m | none => s) else s)
  | none => .next s

/-- A pending stop request may take effect at the wave's next issue (R441). -/
def State.stopNow (s : State) (w : Wave) : Bool :=
  let d := s.dbg w.core
  d.stopreq.getLsbD (slotNum w.id) && !w.sup &&
    (d.stopmode.getLsbD 0 ||
     (match s.peek w with | some (.rgnIn _) | some (.rgnOut _) | some (.brk _) => true | _ => false))

/-- STOP_TAKES_EFFECT (R441). -/
def execStopTakesEffect (id : WaveId) (s : State) : Out :=
  match s.waveAt id with
  | some w => .next (if s.canIssue w && s.stopNow w then s.haltStop w else s)
  | none => .next s

/-- What halts a wave that is about to issue: the end of a step, a breakpoint, a stop request (R438 to R441, log 17). -/
def State.debugHalt (s : State) (w : Wave) : Option State :=
  if w.sup then none
  else if w.stepOnce && !w.exempt then some (s.haltWave w 3 0 0)
  else match (if w.exempt then none else s.bpMatch w) with
    | some m => some (s.haltBp w m)
    | none => if s.stopNow w then some (s.haltStop w) else none

/-- A halted wave restored from its frame as TRET restores it (R105, R439), and what follows. One whose frame waits for the end
of a write tenure is resumed then. -/
def State.resume (s : State) (id : WaveId) (mode : Nat) (k : Wave → List Byte → Wave) : State :=
  match s.waveAt id with
  | none => s
  | some w =>
    if !w.halted then s
    else match s.waveLoad w true (s.trapArea w) 200 0 with
      | (s, .ok fr) =>
        let s := s.modWave id fun w => k { w.leaveTrap fr with halted := false } fr
        s.modDbg id.core fun d => { d with halted := bitClear d.halted (slotNum id) }
      | (s, .wait) =>
        s.modDbg id.core fun d => { d with resumes := d.resumes ++ [BitVec.ofNat 64 (slotNum id + 256 * mode)] }
      | (s, .bad) => s.ctxFault (s.tagOf w) 0x50
      | (s, .fault _ _ _) => s.ctxFault (s.tagOf w) 0x51

/-- What follows a resumption in a mode: 0 continue, 1 deliver (TRAPVEC under steps 2 and 3 of R100 with cause BREAK), 2 step;
3 is ignored (R437, R439). -/
def State.resumeMode (s : State) (id : WaveId) (mode : Nat) : State :=
  match mode with
  | 0 => s.resume id 0 fun w _ => { w with exempt := true, stepOnce := false }
  | 1 => s.resume id 1 fun w fr => { w with exempt := false, stepOnce := false }.enterTrap (s.ctx (s.tagOf w)).trapvec 6
      (BitVec.ofNat 96 (numAt fr 0x18 12)) (BitVec.ofNat 64 (numAt fr 8 8))
  | 2 => s.resume id 2 fun w _ => { w with exempt := true, stepOnce := true }
  | _ => s

/-- RESUME_CONTINUE (R439). -/
def execResumeContinue (w : WaveId) (s : State) : Out := .next (s.resumeMode w 0)
/-- RESUME_DELIVER (R439). -/
def execResumeDeliver (w : WaveId) (s : State) : Out := .next (s.resumeMode w 1)
/-- RESUME_STEP (R439). -/
def execResumeStep (w : WaveId) (s : State) : Out := .next (s.resumeMode w 2)

/-- The wave in a numbered slot of a core. -/
def slotWave (core n : Nat) : WaveId := ⟨core, n / 8, n % 8⟩

/-- A write of RESUME (R437). -/
def State.resumeWrite (s : State) (core : Nat) (v : Word64) : State := s.resumeMode (slotWave core (bits64 v 5 0)) (bits64 v 9 8)

/-- The resumptions of a core that had to wait are made again, in order (R439). -/
def State.resumeAgain (s : State) (core : Nat) : State :=
  (s.dbg core).resumes.foldl (fun s v => s.resumeWrite core v) (s.modDbg core fun d => { d with resumes := [] })

/-! ### Instructions (R436, R440, R443) -/

/-- A region instruction has executed: a trace record when tracing is enabled for the tag (R436, R437). -/
def State.trace (s : State) (w : Wave) (kind : Nat) : State :=
  let d := s.dbg w.core
  if dbgTrace d && decide (dbgTag d = s.tagOf w) then s.record w kind 0 0 0 else s

/-- RGN.IN (R436). The record shows the stack after the push. -/
def execRgnIn (f : Fields) (s : State) : Out :=
  s.front (.rgnIn f) f .dest false fun s _ =>
    let up := fun (w : Wave) =>
      { w with
        regions := if w.rgndepth.toNat < 16 then w.regions.take w.rgndepth.toNat ++ [f.imm.setWidth 16] else w.regions
        rgndepth := if w.rgndepth.toNat < 65535 then w.rgndepth + 1 else w.rgndepth }
    let s := s.modMe up
    ((s.me.map fun w => s.trace w 1).getD s).finish f id

/-- RGN.OUT (R436). The record shows the stack before the pop. -/
def execRgnOut (f : Fields) (s : State) : Out :=
  s.front (.rgnOut f) f .dest false fun s w =>
    let d := w.rgndepth.toNat
    let top := w.regions.getD (d - 1) 0
    let id : BitVec 16 := f.imm.setWidth 16
    if d = 0 then s.trap 0x48 w.exec (id.setWidth 64)
    else if d ≤ 16 ∧ top ≠ id then s.trap 0x48 w.exec (id.setWidth 64 + top.setWidth 64 <<< 16)
    else (s.trace w 2).finish f fun w =>
      { w with rgndepth := w.rgndepth - 1, regions := w.regions.take (d - 1) }

/-- BRK (R440): a halt, BREAK to TRAPVEC, or nothing in supervisor state. -/
def execBrk (f : Fields) (s : State) : Out :=
  s.front (.brk f) f .dest false fun s w =>
    let d := s.dbg w.core
    if w.sup then s.finish f id
    else if dbgHalten d && decide (dbgTag d = s.tagOf w) then .next (s.haltWave w 1 0 8)
    else s.trap 0x06 w.exec 8

/-- The trial runs and its tag is the wave's (R443). -/
def State.trialOf (s : State) (w : Wave) : Bool :=
  s.trial.ctl.getLsbD 20 && decide (s.trial.ctl.toNat % 4096 = s.tagOf w)

/-- PROG (R443). -/
def execProg (f : Fields) (s : State) : Out :=
  s.front (.prog f) f .dest false fun s w =>
    let n := (s.readS w (.int 32) f.a).toNat % 8
    let s := if s.trialOf w then { s with trial := { s.trial with prog := modAt s.trial.prog n (· + 1) } } else s
    s.finish f id

/-- The PC lies in the trial's range (R437). -/
def State.inTrial (s : State) (w : Wave) : Bool :=
  let pc := bits64 w.pc 56 2
  decide (bits64 s.trial.lo 56 2 ≤ pc) && decide (pc < bits64 s.trial.hi 56 2)

/-- An issue outside the range of a running trial's tag is held for d clocks before it is made (R443). -/
def State.trialHolds (s : State) (w : Wave) : Bool :=
  s.trialOf w && !w.sup && w.delayed.isNone && !s.inTrial w && decide (0 < bits64 s.trial.ctl 19 12)

/-- The hold begins: the wave issues nothing until the clocks have passed. -/
def State.trialHold (s : State) (w : Wave) : State :=
  s.modWave w.id fun x => { x with delayed := some (s.clkAfter w.unit (bits64 s.trial.ctl 19 12)) }

/-- What follows an issue: its hold has been made, and it counts when the wave before it was a trial's, in user state (R443). -/
def State.trialIssue (s old : State) (w : Wave) : State :=
  let s := if w.delayed.isNone then s else s.modWave w.id fun x => { x with delayed := none }
  if !old.trialOf w || w.sup then s
  else if old.inTrial w then { s with trial := { s.trial with insin := s.trial.insin + 1 } }
  else { s with trial := { s.trial with insout := s.trial.insout + 1 } }

/-! ### Samples (R442) -/

/-- The v registers that an instruction of a wave waits for: those that its operands name, and what FE.WAIT, the indexed moves and
REG.SHRINK name besides (R33, R39, R151, R155, R166, R167). -/
def State.awaits (s : State) (w : Wave) (i : Instr) : List Nat :=
  let run := fun (a n : Nat) => (List.range n).map fun k => a + k
  let (od, oa, ob, oc) := w.offsets
  let span := fun (o : Opnd) (r : Role) (k : Nat) => match o with | .v n => run (n.toNat + k) r.span | _ => []
  let named := match i.opFields, i.sig with
    | some (_, f), some g =>
      span f.d g.d od ++ span f.a g.a oa ++ span f.b (g.bRole f) ob ++ (if f.isW then [] else span f.c g.c oc)
    | _, _ => []
  match i with
  | .pair p => (pairReads p).flatMap (fun x => match x.1 with | .v n => [n.toNat] | _ => []) ++ (if p.vop == .nop then [] else [p.vd.toNat])
  | .feWait f => run (vNum f.a) (match f.b with | .int k => k.toNat | _ => 0)
  | .feWaitAll _ => run 0 256
  | .movxRd f => named ++ (s.indices w f f.a).map fun x => x.2
  | .movxWr f => named ++ (s.indices w f f.d).map fun x => x.2
  | .regShrink f => run (s.natB w f) (w.alloc - s.natB w f)
  | _ => named

/-- The lowest-numbered empty register that a blocked wave's instruction awaits (R151, R442). -/
def State.awaited (s : State) (w : Wave) : Option Nat :=
  (s.peek w).bind fun i => (List.range 256).find? fun n => (s.awaits w i).contains n && !w.full n

/-- The instruction at the PC reads a queue that holds nothing, which its wave awaits (R33). -/
def State.awaitsQueue (s : State) (w : Wave) : Bool :=
  let empty := fun (l : List (Opnd × Nat)) => l.any fun x => match x.1 with | .q n => (w.q.getD n.toNat []).isEmpty | _ => false
  match s.peek w with
  | none => false
  | some (.pair p) => empty (pairReads p)
  | some i => match i.opFields, i.sig with
    | some (_, f), some g => empty (sigReads g f (match i with | .st _ | .stS _ => true | _ => false))
    | _, _ => false

/-- The STATE of a sample and its BLAME (R442). -/
def State.sampleState (s : State) (w : Wave) : Nat × Word64 :=
  if w.sup then (6, 0)
  else if w.halted then (5, 0)
  else match w.wait with
    | .barrier _ _ | .gather _ => (3, 0)
    | .pop _ _ | .push _ => (4, 0)
    | .none | .stalled =>
      if w.wait == .none && (s.me.map fun x => x.id) == some w.id then (0, 0)
      else (match s.awaited w with
        | some n => (2, ((w.vReg n).producer).getD 0)
        | none =>
          if s.opsFull w.core || s.awaitsQueue w then (4, 0)
          else if w.wait == .none && s.canIssue w then (1, 0)
          else (5, 0))
    | _ => (5, 0)

/-- The sampling period of a die in nanoseconds; 0 is off, and 1 to 999 act as 1,000 (R437). -/
def State.sampPeriod (s : State) (die : Nat) : Nat :=
  let p := (s.dbgDies.getD die ⟨0, 0, 0⟩).sampper.toNat
  if p = 0 then 0 else max 1000 p

/-- The resident wave that a core's next sample takes: slots in rotating order, empty ones skipped (R442). -/
def State.sampled (s : State) (core : Nat) : Option Wave :=
  ((List.range 64).map fun i => ((s.dbg core).next + i) % 64).findSome? fun n =>
    s.waves.find? fun w => w.core == core && slotNum w.id == n && w.wait != .ended

/-- SAMPLE (R442): a core samples one resident wave once a period has passed. -/
def execSample (core : Nat) (s : State) : Out :=
  let p := s.sampPeriod (dieOf core)
  if p = 0 ∨ s.time < (s.dbg core).sampled + p then .next s
  else
    let s := s.modDbg core fun d => { d with sampled := s.time }
    match s.sampled core with
    | none => .next s
    | some w =>
      let (st, blame) := s.sampleState w
      .next ((s.modDbg core fun d => { d with next := (slotNum w.id + 1) % 64 }).record w 0 st 0 blame)

/-! ### Debug registers (R437) -/

/-- A write of a debug register (R437): reserved bits stay zero, read-only registers keep their values, CANCELLED clears
the bits written 1, and RESUME acts on a halted slot. -/
def execRegisterWrite (r : HwReg) (value : Word64) (s : State) : Out :=
  match r with
  | .dbgctl c => .next (s.modDbg c fun d => { d with ctl := value &&& 0x7FFF })
  | .stopreq c => .next (s.modDbg c fun d => { d with stopreq := value })
  | .stopmode c => .next (s.modDbg c fun d => { d with stopmode := value &&& 1 })
  | .halted _ | .drop _ => .next s
  | .cancelled c => .next (s.modDbg c fun d => { d with cancelled := d.cancelled &&& ~~~value })
  | .resume c =>
    .next (s.resumeWrite c value)
  | .bp c n => .next (s.modDbg c fun d => { d with bp := d.bp.set n.toNat (value &&& 0xE1FFFFFFFFFFFFFC) })
  | .sampper d => .next { s with dbgDies := modAt s.dbgDies d fun x => { x with sampper := value } }
  | .ring d => .next { s with dbgDies := modAt s.dbgDies d fun x => { x with ring := value } }
  | .trialctl => .next { s with trial := { s.trial with ctl := value &&& 0x1FFFFF } }
  | .triallo => .next { s with trial := { s.trial with lo := value &&& 0x01FFFFFFFFFFFFFC } }
  | .trialhi => .next { s with trial := { s.trial with hi := value &&& 0x01FFFFFFFFFFFFFC } }
  | .prog n => .next { s with trial := { s.trial with prog := s.trial.prog.set n.toNat value } }
  | .cordret => .next { s with trial := { s.trial with cordret := value } }
  | .insin => .next { s with trial := { s.trial with insin := value } }
  | .insout => .next { s with trial := { s.trial with insout := value } }

/-! ### Freeze (R445) -/

/-- A wave's dump, as read out of a device that is frozen (R445): the fields of R442 from TIME to WAVE; one that waits at no
instruction carries the STATE of a sample. -/
def State.waveDump (s : State) (w : Wave) : List Byte :=
  let (st, blame) := s.sampleState w
  (s.recordBytes w 0 st 0 blame).take 0x2D
/-- The read-out: each wave's dump. -/
def State.readOut (s : State) : List (List Byte) := s.waves.map s.waveDump

/-- FREEZE (R445): every clock stops, device time included, until reset. -/
def execFreeze (s : State) : Out := .next { s with frozen := true }
/-- PLDM_FREEZE (R445). -/
def execPldmFreeze (s : State) : Out := .next { s with frozen := true }

end Sys2Proof.Machine
end

