-- ==== Sys2Proof/Machine/MemInstr.lean ====
section
/-! DEFINITION. Memory instructions of a wave (spec/14_memory_isa.md R263 to R283, spec/08_wave.md R164,
spec/13_memory_order.md R241 to R244): addresses, loads and stores with their passes, scratchpad, atomics, fences,
promotion and cache hints. -/

namespace Sys2Proof.Machine

/-! ### Addresses (R263) -/

def wrap64 (x : Int) : Nat := (x % 2 ^ 64).toNat
/-- X(v): an index extended by its sign flag. -/
def indexVal (signed : Bool) (x : Word64) : Int := if signed then (lo32 x).toInt else ((lo32 x).toNat : Int)

/-- The addresses of LD, ST and PREF. -/
def State.indexedAddrs (s : State) (w : Wave) (f : Fields) : List Nat :=
  let a := s.srcA w (.int 64) f
  let b := s.fieldB w (.int 32) f
  let c := if f.isX then s.srcC w (.int 32) f else []
  tabulate laneCount fun l => wrap64 ((laneOf a l).toNat + indexVal f.bsgn (laneOf b l) * 2 ^ f.scale +
    indexVal f.csgn (laneOf c l) * f.cstride + f.off)

/-- The addresses of ATOM and RED. -/
def State.baseAddrs (s : State) (w : Wave) (f : Fields) : List Nat :=
  (s.srcA w (.int 64) f).map fun a => wrap64 (a.toNat + f.off)

/-- The addresses of LD.K. -/
def State.frameAddrs (s : State) (w : Wave) (f : Fields) : List Nat :=
  (s.srcA w (.int 32) f).map fun a => wrap64 ((s.cordOf w).frame + a.toNat + f.off)

/-- The address of S.LD and S.ST. -/
def State.scalarAddr (s : State) (w : Wave) (f : Fields) : Nat :=
  wrap64 ((s.readS w (.int 64) f.a).toNat + (s.readS w (.int 32) f.b).toNat + f.off)

/-! ### Data -/

/-- Bytes of a size code (R58). -/
def sizeBytes (size : Nat) : Nat := 2 ^ size

/-- The register words that a load gives: narrow values extended, wide ones from the lowest address up (R267). -/
def loadWords (size : Nat) (sx : Bool) (bs : List Byte) : List Word :=
  let n := natOfBytes bs
  if size = 0 then [if sx then (BitVec.ofNat 8 n).signExtend 32 else BitVec.ofNat 32 n]
  else if size = 1 then [if sx then (BitVec.ofNat 16 n).signExtend 32 else BitVec.ofNat 32 n]
  else tabulate (2 ^ (size - 2)) fun i => BitVec.ofNat 32 (numAt bs (4 * i) 4)

/-- The words of a span of v registers in a lane. -/
def Wave.spanLane (w : Wave) (o : Opnd) (n l : Nat) : List Word :=
  match o with | .v r => tabulate n fun j => lane (w.vAt (r.toNat + j)) l | _ => List.replicate n 0

/-- The bytes that each lane stores; `nth` is the operand's place among the pops of its queue (R266). -/
def State.dataLanes (s : State) (w : Wave) (size nth : Nat) (o : Opnd) : List (List Byte) :=
  if size = 4 then tabulate laneCount fun l => (w.spanLane o 4 l).flatMap fun x => bytesOfNat 4 x.toNat
  else (s.readV w (.int (if size = 3 then 64 else 32)) nth o).map fun x => bytesOfNat (sizeBytes size) x.toNat

/-- Lane values of n registers from each lane's words, and the mask of those lanes. -/
def lanesFrom (n : Nat) (l : List (Nat × List Word)) : List Lanes :=
  tabulate n fun j => tabulate laneCount fun i => ((l.find? fun x => x.1 == i).map fun x => x.2.getD j 0).getD 0

/-! ### Checks of a group of lanes (R62, R264, R265) -/

/-- A lane's access that has been translated: its address and its pieces. -/
structure Located where
  lane   : Nat
  va     : Nat
  pieces : List (Nat × Nat × Word64)
  deriving DecidableEq, Repr, Inhabited

/-- How the checks of an instruction end. -/
inductive PassEnd where
  | all
  | trap (pass cause : Nat) (mask : Mask) (info : Word64)
  | bad
  | wait
  deriving DecidableEq, Repr, Inhabited

/-- The accesses of n bytes of a list of lanes, each translated. -/
def State.locateLanes (w : Wave) (kind n : Nat) : List (Nat × Nat) → State → State × List (Nat × Nat × Acc (List (Nat × Nat × Word64)))
  | [], s => (s, [])
  | (l, va) :: rest, s =>
    let (s, r) := s.locate w.unit (s.tagOf w) w.die w.sup kind (some w.core) (piecesOf va n)
    let (s, t) := State.locateLanes w kind n rest s
    (s, (l, va, r) :: t)

/-- What the lanes of a group give: `early` holds the traps of checks before translation. %trapinfo names a lane's own
address, in whichever of its pieces the fault was met (R61, R263). -/
def groupEnd (perPass : Bool) (kind : Nat) (early : List (Nat × Nat × Word64))
    (r : List (Nat × Nat × Acc (List (Nat × Nat × Word64)))) : PassEnd :=
  let traps := early ++ r.filterMap fun x => match x.2.2 with
    | .fault c p _ => some (x.1, c, pageInfo x.2.1 kind p)
    | _ => Option.none
  match pickTrap perPass traps with
  | some (c, m, i) => .trap ((traps.map fun x => x.1 / 32).foldl Nat.min 3) c m i
  | Option.none =>
    if r.any fun x => match x.2.2 with | .bad => true | _ => false then .bad
    else if r.any fun x => match x.2.2 with | .wait => true | _ => false then .wait
    else .all

def locatedOf (r : List (Nat × Nat × Acc (List (Nat × Nat × Word64)))) : List Located :=
  r.filterMap fun x => match x.2.2 with | .ok l => some ⟨x.1, x.2.1, l⟩ | _ => Option.none

/-- Groups of lanes checked in order, up to the first that does not pass. -/
def State.checkGroups (w : Wave) (perPass : Bool) (kind n : Nat) : List (List (Nat × Nat)) → State → State × List Located × PassEnd
  | [], s => (s, [], .all)
  | g :: rest, s =>
    let (s, r) := State.locateLanes w kind n g s
    match groupEnd perPass kind [] r with
    | .all =>
      let (s, l, e) := State.checkGroups w perPass kind n rest s
      (s, locatedOf r ++ l, e)
    | e => (s, [], e)

/-- The active lanes with their addresses. -/
def Wave.laneVas (w : Wave) (ad : List Nat) : List (Nat × Nat) := (lanesOf w.exec).map fun l => (l, ad.getD l 0)

/-- The groups of an instruction: passes from p up when it is restartable, else all lanes together (R265). -/
def passGroups (perPass : Bool) (p : Nat) (l : List (Nat × Nat)) : List (List (Nat × Nat)) :=
  if perPass then
    (([0, 1, 2] : List Nat).filter fun q => decide (p ≤ q)).map fun q => l.filter fun x => x.1 / 32 == q
  else [l]

/-- The pass from which a restartable instruction goes on (R265). -/
def Wave.firstPass (w : Wave) : Nat :=
  if w.sup then 0 else match w.pass with | some (p, a) => if a = w.pc then p else 0 | Option.none => 0

/-- The pass kept when pass p of a user instruction traps (R265). -/
def Wave.keepPass (w : Wave) (p : Nat) : Wave := if w.sup then w else { w with pass := some (p, w.pc) }
def Wave.dropPass (w : Wave) : Wave := w.endPass

/-! ### Loads -/

/-- The pieces of located lanes perform as loads, and give each lane's bytes. -/
def State.performLoads (w : Wave) (n hint : Nat) : List Located → State → List (Nat × List Byte) × State
  | [], s => ([], s)
  | x :: rest, s =>
    let r := (List.zip (piecesOf x.va n) x.pieces).foldl (fun (p : State × List Byte) y =>
      let (bs, s) := p.1.loadPiece w (y.1.1 % 2 ^ 64) y.2.1 y.2.2.1 y.2.2.2 hint
      (s, p.2 ++ bs)) (s, [])
    let (l, s) := State.performLoads w n hint rest r.1
    ((x.lane, r.2) :: l, s)

/-- A result for the lanes of a mask starts on its way to D, or there is nothing to write (R151). -/
def State.fillLanes (s : State) (f : Fields) (mask : Mask) (data : List Lanes) : Out :=
  match f.d with
  | .v n =>
    if mask = 0 then s.finish f Wave.dropPass
    else
      let id := ((s.me.map fun w => w.id)).getD default
      let s := { s with uid := s.uid + 1, fills := s.fills ++ [(⟨s.uid, id, n.toNat, mask, data, 0, false⟩ : Fill)] }
      s.finish f fun w => (w.dropPass).markEmpty n.toNat data.length
  | _ => s.finish f Wave.dropPass

/-- The lanes of the passes before a trap are written at once (R265). -/
def Wave.writeLanes (w : Wave) (d : Opnd) (mask : Mask) (data : List Lanes) : Wave :=
  match d with
  | .v n => (List.range data.length).foldl (fun w j =>
      w.setV (n.toNat + j) (mergeLanes mask (w.vAt (n.toNat + j)) (data.getD j zeroLanes))) w
  | _ => w

/-- A vector load of lanes' addresses (R264, R265, R267). -/
def State.vectorLoad (s : State) (w : Wave) (f : Fields) (ad : List Nat) : Out :=
  let size := f.msize
  let n := sizeBytes size
  let perPass := f.ord == 0
  let regs := 2 ^ (size - 2)
  match State.checkGroups w perPass 0 n (passGroups perPass (if perPass then w.firstPass else 0) (w.laneVas ad)) s with
  | (s, _, .bad) => .next (s.ctxFault (s.tagOf w) 0x50)
  | (s, _, .wait) => s.stall
  | (s, l, .all) =>
    let (r, s) := State.performLoads w n f.hint l s
    s.fillLanes f (maskOf (r.map fun x => x.1)) (lanesFrom regs (r.map fun x => (x.1, loadWords size f.sx x.2)))
  | (s, l, .trap p c m i) =>
    let (r, s) := State.performLoads w n f.hint l s
    let up := fun (w : Wave) => (if perPass then w.keepPass p else w).writeLanes f.d (maskOf (r.map fun x => x.1))
      (lanesFrom regs (r.map fun x => (x.1, loadWords size f.sx x.2)))
    (s.modMe up).trap c m i

/-! ### Stores -/

/-- One byte put into a list of bytes, in place of an earlier one. -/
def putCell (l : List Host.Cell) (c : Host.Cell) : List Host.Cell := (l.filter fun x => x.1 != c.1) ++ [c]

/-- The bytes of located lanes, the higher lane's value where two lanes write one byte (R242); with each byte the leaf of
its page and the sector's virtual address. -/
def storeCells (data : Nat → List Byte) (l : List Located) : List Host.Cell × List (Nat × Nat × Word64) :=
  l.foldl (fun p x =>
    let r := (List.zip (piecesOf x.va (data x.lane).length) x.pieces).foldl
      (fun (q : (List Host.Cell × List (Nat × Nat × Word64)) × List Byte) y =>
        (((cellsAt y.2.1 (q.2.take y.2.2.1)).foldl putCell q.1.1,
          q.1.2 ++ [(sectorBase y.2.1, sectorBase (y.1.1 % 2 ^ 64), y.2.2.2)]), q.2.drop y.2.2.1)) (p, data x.lane)
    r.1) ([], [])

/-- The bytes of a vector store become one write for each sector (R242, R267). -/
def State.performStores (s : State) (w : Wave) (hint : Nat) (rel : Option Release) (data : Nat → List Byte) (l : List Located) : State :=
  let (cells, leaves) := storeCells data l
  (bySector cells).foldl (fun s bs =>
    let sec := sectorBase ((bs.head?.map fun c => c.1).getD 0)
    let via := ((leaves.filter fun x => x.1 == sec).map fun x => x.2).eraseDups
    (s.wavePut w.id via bs hint rel).useLines w.core sec hint (cacheMode ((via.head?.map fun x => x.2).getD 0))) s

/-- The release that a store with ORD and SCOPE makes (R241, R266). -/
def State.storeRelease (s : State) (w : Wave) (f : Fields) : Option Release :=
  if f.ord = 2 then s.releaseFor w f.scope else Option.none

/-- LD (R267). -/
def execLd (f : Fields) (s : State) : Out :=
  s.front (.ld f) f .dest false fun s w => s.vectorLoad w f (s.indexedAddrs w f)

/-- ST (R267); a store with release order reaches the L1 once its release is made, and the wave goes on (R241). -/
def execSt (f : Fields) (s : State) : Out :=
  let dpol := match f.fmt with | .x128 e => e.getLsbD 40 | _ => f.pol.getLsbD 2
  s.front (.st f) f (.src dpol) false fun s w =>
    let perPass := f.ord == 0
    let nth := nthPop [f.a, f.b, f.c] f.d
    let data := s.dataLanes w f.msize nth f.d
    let put := fun (s : State) (l : List Located) => s.performStores w f.hint (s.storeRelease w f) (fun i => data.getD i []) l
    match State.checkGroups w perPass 1 (sizeBytes f.msize)
        (passGroups perPass (if perPass then w.firstPass else 0) (w.laneVas (s.indexedAddrs w f))) s with
    | (s, _, .bad) => .next (s.ctxFault (s.tagOf w) 0x50)
    | (s, _, .wait) => s.stall
    | (s, l, .all) => (put s l).finish f Wave.dropPass
    | (s, l, .trap p c m i) => ((put s l).modMe fun w => if perPass then w.keepPass p else w).trap c m i

/-- LD.K (R268). -/
def execLdK (f : Fields) (s : State) : Out :=
  s.front (.ldK f) f .dest false fun s w => s.vectorLoad w f (s.frameAddrs w f)

/-- S.LD (R269). -/
def execSLd (f : Fields) (s : State) : Out :=
  s.front (.sLd f) f .dest false fun s w =>
    State.take (s.waveLoad w w.sup (s.scalarAddr w f) (sizeBytes f.msize) f.hint) 0 fun s bs =>
      let x : Word64 := match loadWords f.msize f.sx bs with
        | [lo] => lo.setWidth 64
        | lo :: hi :: _ => pair32 lo hi
        | [] => 0
      s.finish f fun w => w.putS f.d x

/-- S.ST (R269). -/
def execSSt (f : Fields) (s : State) : Out :=
  s.front (.sSt f) f (.src false) false fun s w =>
    let va := s.scalarAddr w f
    let n := sizeBytes f.msize
    let x := s.readS w (.int (if f.msize = 3 then 64 else 32)) f.d
    State.take (s.waveStoreRel w w.sup va (bytesOfNat n x.toNat) f.hint (s.storeRelease w f)) 1 fun s _ => s.finish f id

/-- K.LD (R164). -/
def execKLd (f : Fields) (s : State) : Out :=
  s.front (.kLd f) f .dest false fun s w =>
    State.take (s.waveLoad w w.sup (wrap64 ((s.readS w (.int 64) f.a).toNat + f.off)) 12 f.hint) 0 fun s bs =>
      s.finish f fun w => w.putK f.d (BitVec.ofNat 96 (natOfBytes bs))

/-- K.ST (R164). -/
def execKSt (f : Fields) (s : State) : Out :=
  s.front (.kSt f) f (.src false) false fun s w =>
    let va := wrap64 ((s.readS w (.int 64) f.a).toNat + f.off)
    State.take (s.waveStoreRel w w.sup va (bytesOfNat 12 (w.readK f.d).toNat) f.hint (s.storeRelease w f)) 1 fun s _ => s.finish f id

/-! ### Scratchpad (R270, R271) -/

/-- The offsets of the lanes, exact (R263). -/
def State.spadOffs (s : State) (w : Wave) (f : Fields) : List Int :=
  let a := s.srcA w (.int 32) f
  let k : Int := if f.isW then f.off else match f.b with
    | .int n => n.toInt
    | o => (lo32 (s.readS w (.int 32) o)).toInt
  a.map fun x => (x.toNat : Int) + k

/-- A lane's bytes lie in the span (R271). -/
def spadOk (scratch n : Nat) (o : Int) : Bool := decide (0 ≤ o) && decide (o + n ≤ scratch)

/-- The trap of lanes outside the span (R271). -/
def Wave.spadTrap (w : Wave) (scratch n : Nat) (offs : List Int) : Option (Mask × Word64) :=
  let bad := (lanesOf w.exec).filter fun l => !spadOk scratch n (offs.getD l 0)
  match bad with
  | [] => Option.none
  | l :: _ => some (maskOf bad, BitVec.ofNat 64 ((offs.getD l 0) % 2 ^ 19).toNat)

def Cord.spadGet (c : Cord) (o n : Nat) : List Byte := cellsGet c.scratch o n
/-- Bytes written to the span, with the written bits of their granules (R271). -/
def Cord.spadPut (c : Cord) (bs : List Host.Cell) : Cord :=
  { c with scratch := cellsSet c.scratch bs
           written := (c.written ++ bs.map fun (b : Host.Cell) => b.1 / 256).eraseDups }

/-- An access to bytes of a span meets the errors of its words (R15, R16): true when one cannot be corrected. -/
def State.spadErrors (s : State) (cord core o n : Nat) : Bool × State :=
  s.takeFlaws (dieOf core) fun p => match p with
    | .scratch c k => c == cord && decide (8 * k < o + n) && decide (o < 8 * k + 8)
    | _ => false

/-- The errors of every active lane's bytes. -/
def State.spadLaneErrors (s : State) (w : Wave) (n : Nat) (offs : List Int) : Bool × State :=
  (lanesOf w.exec).foldl (fun p l =>
    let (b, s) := p.2.spadErrors w.cord w.core (offs.getD l 0).toNat n
    (p.1 || b, s)) (false, s)

/-- The checks of a scratchpad access, and what follows when they pass. -/
def State.spadChecked (s : State) (w : Wave) (n : Nat) (offs : List Int) (k : State → Out) : Out :=
  match w.spadTrap (s.cordOf w).kernel.scratch n offs with
  | some (m, info) => s.trap 0x28 m info
  | Option.none => match s.spadLaneErrors w n offs with
    | (true, s) => .next (s.ctxFault (s.tagOf w) 0x50)
    | (false, s) => k s

/-- LD.S (R270, R271). -/
def execLdS (f : Fields) (s : State) : Out :=
  s.front (.ldS f) f .dest false fun s w =>
    let n := sizeBytes f.msize
    let offs := s.spadOffs w f
    s.spadChecked w n offs fun s =>
      let c := s.cordOf w
      let r := (lanesOf w.exec).map fun l => (l, loadWords f.msize f.sx (c.spadGet (offs.getD l 0).toNat n))
      s.fillLanes f w.exec (lanesFrom (2 ^ (f.msize - 2)) r)

/-- ST.S (R270, R271). -/
def execStS (f : Fields) (s : State) : Out :=
  s.front (.stS f) f (if f.isW then .src (f.pol.getLsbD 2) else .dest) false fun s w =>
    let n := sizeBytes f.msize
    let offs := s.spadOffs w f
    let o := if f.isW then f.d else f.c
    let data := s.dataLanes w f.msize (nthPop [f.a] o) o
    s.spadChecked w n offs fun s =>
      let bs := ((lanesOf w.exec).flatMap fun l => cellsAt (offs.getD l 0).toNat (data.getD l []))
      (s.modCord w.cord fun c => c.spadPut bs).finish f id

/-! ### Atomics (R274 to R278) -/

/-- A natural of n bits as a signed integer. -/
def asSigned (bits x : Nat) : Int := (BitVec.ofNat bits x).toInt

/-- What memory receives (R274): `b` and `c` are the lane's data and compare value, of `bits` bits. -/
def atomNew (aop bits old b c : Nat) : Nat :=
  let f32 := fun (r : Word64 × FFlags) => (lo32 r.1).toNat
  match aop with
  | 0 => (old + b) % 2 ^ bits
  | 1 => if asSigned bits b < asSigned bits old then b else old
  | 2 => min old b
  | 3 => if asSigned bits old < asSigned bits b then b else old
  | 4 => max old b
  | 5 => old &&& b
  | 6 => old ||| b
  | 7 => old ^^^ b
  | 8 => b
  | 9 => if old = c then b else old
  | 10 => f32 (fpAdd .f32 .rne (BitVec.ofNat 64 old) (BitVec.ofNat 64 b))
  | 11 => f32 (fpMinMax .f32 false (BitVec.ofNat 64 old) (BitVec.ofNat 64 b))
  | 12 => f32 (fpMinMax .f32 true (BitVec.ofNat 64 old) (BitVec.ofNat 64 b))
  | 13 => (xaAdd (BitVec.ofNat 256 old) (BitVec.ofNat 64 b)).toNat
  | 14 => (xaAddXa (BitVec.ofNat 256 old) (BitVec.ofNat 256 b)).toNat
  | _ => old

/-- Bytes that an atomic accesses. -/
def atomBytes (aop size : Nat) : Nat := if aop = 13 ∨ aop = 14 then 32 else sizeBytes size

/-- A lane's data as a number; the FP32 operations read an FP32 operand (R26, R274). -/
def State.atomData (s : State) (w : Wave) (f : Fields) : List Nat :=
  if f.aop = 14 then tabulate laneCount fun l => natOfBytes ((w.spanLane f.b 8 l).flatMap fun x => bytesOfNat 4 x.toNat)
  else if 10 ≤ f.aop then (s.readV w (.fp .f32) (nthPop [f.a] f.b) f.b).map fun x => (lo32 x).toNat
  else (s.dataLanes w f.msize (nthPop [f.a] f.b) f.b).map natOfBytes

/-- A lane's compare value as a number. -/
def State.atomCmp (s : State) (w : Wave) (f : Fields) : List Nat :=
  if f.aop = 9 then (s.dataLanes w f.msize (nthPop [f.a, f.b] f.c) f.c).map natOfBytes else []

/-- The incomplete writes that the bytes' latest values come from (R237). -/
def State.latestIds (s : State) (pa n : Nat) : List Nat :=
  ((List.range n).filterMap fun i =>
    ((s.writes.filter fun w => w.ctime.isSome && !w.doneAt s.time && (w.byte (pa + i)).isSome).getLast?).map fun w => w.id).eraseDups

/-- Bytes of a sector that the core holds dirty under its own write tenure are written back before an atomic of the
core acts on the sector (log 18). -/
def State.flushSector (s : State) (core sec : Nat) : State :=
  (s.writeBackIf fun d a => d.core == core && sectorBase a == sec).2

/-- An atomic of a wave at the home slice (R243): the old value, and the write that follows it in coherence order. -/
def State.atomHome (s : State) (w : Wave) (va pa n : Nat) (e : Word64) (f : Nat → Nat) : Nat × State :=
  let sec := sectorBase pa
  let s := (s.flushSector w.core sec).acceptSector w.core sec
  let old := natOfBytes (s.latestBytes pa n)
  let ids := s.latestIds pa n
  let s := s.modWave w.id fun x => x.saw s ids
  let (i, s) := s.enterWrite (.wave w.id) (some (s.tagOf w)) (some w.core) pa e (bytesOfNat n (f old))
  (old, (s.modWrite i fun x => { x with via := [(sectorBase va, e)] }).acceptOr i)

/-- The checks of ATOM and RED over all lanes (R275, R278). A lane whose atomic crosses a sector is not translated: its
misalignment is its one cause (DESIGN CHOICE, log 61). -/
def State.checkAtom (s : State) (w : Wave) (f : Fields) (ad : List Nat) : State × List Located × PassEnd :=
  let n := atomBytes f.aop f.msize
  let lanes := w.laneVas ad
  let misaligned := fun (x : Nat × Nat) => decide (32 < x.2 % 32 + n)
  let bad := lanes.filter misaligned
  let (s, r) := State.locateLanes w 3 n (lanes.filter fun x => !misaligned x) s
  let pool := (locatedOf r).filter fun x => x.pieces.any (fun p => ptePool p.2.2) && (decide (9 < f.aop) || decide (3 < f.msize))
  let early := (bad.map fun x => (x.1, 0x23, BitVec.ofNat 64 (x.2 % 2 ^ 57))) ++
    pool.map fun x => (x.lane, 0x24, BitVec.ofNat 64 (x.va % 2 ^ 57))
  (s, locatedOf r, groupEnd false 3 early r)

/-- The lanes of ATOM or RED act one after another in ascending order (R275), and use their lines as any access (R281). -/
def State.performAtom (w : Wave) (f : Fields) (data cmp : List Nat) : List Located → State → List (Nat × Nat) × State
  | [], s => ([], s)
  | x :: rest, s =>
    let (pa, _, e) := x.pieces.headD default
    let (old, s) := s.atomHome w x.va pa (atomBytes f.aop f.msize) e fun o =>
      atomNew f.aop (8 * sizeBytes f.msize) o (data.getD x.lane 0) (cmp.getD x.lane 0)
    let (l, s) := State.performAtom w f data cmp rest (s.useLines w.core (sectorBase pa) f.hint (cacheMode e))
    ((x.lane, old) :: l, s)

/-- A wave's own store to one of some sectors whose release has not been made: an atomic there follows it (R238). -/
def State.ownHeld (s : State) (w : Wave) (l : List Located) : Bool :=
  (s.unreleasedOf w.id).any fun x => l.any fun y => y.pieces.any fun p => sectorBase p.1 == x.sector

/-- ATOM and RED (R275, R277). One with release order waits for its release (R241). -/
def State.atomic (s : State) (w : Wave) (f : Fields) : Out :=
  if f.ord = 2 ∧ ¬ s.releasedAt w f.scope then s.stall
  else
    let data := s.atomData w f
    let cmp := s.atomCmp w f
    match s.checkAtom w f (s.baseAddrs w f) with
    | (s, _, .bad) => .next (s.ctxFault (s.tagOf w) 0x50)
    | (s, _, .wait) => s.stall
    | (s, _, .trap _ c m i) => s.trap c m i
    | (s, l, .all) =>
      if s.ownHeld w l then s.stall
      else
      let (r, s) := State.performAtom w f data cmp l s
      let n := sizeBytes f.msize
      s.fillLanes f w.exec (lanesFrom (2 ^ (f.msize - 2)) (r.map fun x => (x.1, loadWords f.msize false (bytesOfNat n x.2))))

/-- ATOM (R275). -/
def execAtom (f : Fields) (s : State) : Out := s.front (.atom f) f .dest false fun s w => s.atomic w f
/-- RED (R277): as ATOM with D none; its D field is unused. -/
def execRed (f : Fields) (s : State) : Out :=
  s.front (.red f) f .dest false fun s w => s.atomic w { f with d := .none }

/-- ATOM.S (R276): lanes act in ascending order at the scratchpad. -/
def execAtomS (f : Fields) (s : State) : Out :=
  s.front (.atomS f) f .dest false fun s w =>
    let n := atomBytes f.aop f.msize
    let offs := (s.srcA w (.int 32) f).map fun x => (x.toNat : Int) + f.off
    let bad := (lanesOf w.exec).filter fun l => decide (32 < ((offs.getD l 0) % 32).toNat + n)
    let out := (lanesOf w.exec).filter fun l => !spadOk (s.cordOf w).kernel.scratch n (offs.getD l 0)
    let traps := (bad.map fun l => (l, 0x23, BitVec.ofNat 64 ((offs.getD l 0) % 2 ^ 57).toNat)) ++
      out.map fun l => (l, 0x28, BitVec.ofNat 64 ((offs.getD l 0) % 2 ^ 19).toNat)
    match pickTrap false traps with
    | some (c, m, i) => s.trap c m i
    | Option.none => match s.spadLaneErrors w n offs with
      | (true, s) => .next (s.ctxFault (s.tagOf w) 0x50)
      | (false, s) =>
        let data := s.atomData w f
        let r := (lanesOf w.exec).foldl (fun (p : Cord × List (Nat × Nat)) l =>
          let o := (offs.getD l 0).toNat
          let old := natOfBytes (p.1.spadGet o n)
          let x := atomNew f.aop (8 * sizeBytes f.msize) old (data.getD l 0) 0
          (p.1.spadPut (cellsAt o (bytesOfNat n x)), p.2 ++ [(l, old)])) (s.cordOf w, [])
        let s := s.modCord w.cord fun _ => r.1
        s.fillLanes f w.exec (lanesFrom (2 ^ (f.msize - 2))
          (r.2.map fun x => (x.1, loadWords f.msize false (bytesOfNat (sizeBytes f.msize) x.2))))

/-! ### Fences, promotion and hints (R279 to R283) -/

/-- FENCE (R241, R279): the kinds that order stores wait for the wave's release at their scope; `.ld` holds of every step of
this model, whose loads perform in program order. -/
def execFence (f : Fields) (s : State) : Out :=
  s.front (.fence f) f .dest false fun s w =>
    if f.ord ≠ 1 ∧ ¬ s.releasedAt w f.scope then s.stall else s.finish f id

/-- The end of ACQ.RS: D receives H, and the wave issues nothing before H (R244). -/
def State.acqEnd (s : State) (f : Fields) (h : Nat) : Out :=
  s.finish f fun w => { (w.putS f.d (BitVec.ofNat 64 h)).raise h with hold := max w.hold h }

/-- The write-throughs of a core's waves that are core-visible there and have not completed (R239, R241, R244). -/
def State.throughs (s : State) (c : Nat) : List Write :=
  s.writes.filter fun x => x.through && x.core == some c && x.rel.isNone && !x.doneAt s.time

/-- ACQ.RS (R244, R280). -/
def execAcqRs (f : Fields) (s : State) : Out :=
  s.front (.acqRs f) f .dest false fun s w =>
    match w.wait with
    | .acq [] h => s.acqEnd f h
    | .acq _ _ => .next s
    | _ =>
      let c := s.natB w f
      if 192 ≤ c then s.acqEnd f 0
      else
        let s := ((s.throughs c).filter fun x => x.ctime.isNone).foldl (fun s x => s.acceptOr x.id) s
        let s := { s with l1 := s.l1.filter fun l => l.core != c || s.dirtyIn c l.pa }
        let open_ := ((s.throughs c).filter fun x => x.ctime.isNone).map fun x => x.id
        let h := (s.throughs c).foldl (fun h x => max h (x.ctime.getD 0)) 0
        if open_.isEmpty then s.acqEnd f h else .next (s.modMe fun w => { w with wait := .acq open_ h })

/-- The pieces of a prefetch, translated without first touch (R282). -/
def State.locatePref (w : Wave) : List (Nat × Nat) → State → State × Acc (List (Nat × Nat × Word64))
  | [], s => (s, .ok [])
  | (va, _) :: rest, s =>
    match s.l1Serve (some w.core) (s.tagOf w) w.sup 0 (va % 2 ^ 64) with
    | (some (pa, e), s) => andThen (State.locatePref w rest s) fun s l => (s, .ok ((va % 2 ^ 64, pa, e) :: l))
    | (Option.none, s) =>
    match s.translateNoFt w.unit (s.tagOf w) w.sup 0 (va % 2 ^ 64) with
    | (.fault c p, s) => (s, .fault c p va)
    | (.bad, s) => (s, .bad)
    | (.wait, s) => (s, .wait)
    | (.ok pa e, s) => andThen (s.atHome (s.tagOf w) (some w.core) false pa) fun s _ =>
        andThen (State.locatePref w rest s) fun s l => (s, .ok ((va % 2 ^ 64, pa, e) :: l))

/-- The lanes of a prefetch with their pieces: a lane that would fault is dropped as a whole. A lane must wait as a load waits,
and meets a poisoned sector as a load does (R16, R235, R282). -/
def State.prefLanes (w : Wave) (n : Nat) : List Nat → State → State × Acc (List (Nat × Nat × Word64))
  | [], s => (s, .ok [])
  | va :: rest, s =>
    match State.locatePref w (piecesOf va n) s with
    | (s, .fault _ _ _) => State.prefLanes w n rest s
    | r => andThen r fun s l => andThen (State.prefLanes w n rest s) fun s t => (s, .ok (l ++ t))

/-- One sector of a prefetch: a fetch without a value, into L2 and, unless it is for L2 alone, into the L1 (R282). -/
def State.prefPiece (s : State) (w : Wave) (l2only : Bool) (hint va pa : Nat) (e : Word64) : State :=
  let sec := sectorBase pa
  let hit := (s.l1Hit w.core (s.tagOf w) va).isSome
  let s := if hit then s else s.contend pa (some w.core) false
  let s :=
    if l2only || cacheMode e != .normal || ptePool e then s
    else if hit then s.useL1 w.core sec (hintLevel hint)
    else s.fetchLine w.core (s.tagOf w) va pa e (hintLevel hint)
  s.useL2 sec hint (cacheMode e)

/-- PREF (R282). -/
def execPref (f : Fields) (s : State) : Out :=
  s.front (.pref f) f .dest false fun s w =>
    let ad := s.indexedAddrs w f
    match State.prefLanes w (sizeBytes f.msize) ((lanesOf w.exec).map fun l => ad.getD l 0) s with
    | (s, .wait) => s.stall
    | (s, .bad) => .next (s.ctxFault (s.tagOf w) 0x50)
    | (s, .fault _ _ _) => s.finish f id
    | (s, .ok l) => (l.foldl (fun s x => s.prefPiece w (f.mbits 6 6 == 1) f.hint x.1 x.2.1 x.2.2) s).finish f id

/-- The physical sectors of a context's range: each mapped page's, by its walk. -/
def State.inRange (s : State) (tag a n sec : Nat) : Bool :=
  (List.range (n / 4096 + 2)).any fun i =>
    let page := (a / 4096 + i) * 4096 % 2 ^ 64
    match s.physOf tag page with
    | some fr => decide (fr ≤ sec) && decide (sec < fr + 4096) &&
        decide (a / 32 * 32 ≤ page + (sec - fr)) && decide (page + (sec - fr) < a + n)
    | Option.none => false

/-- DISCARD (R283): the core's clean copies in the range go; a sector held dirty, and the lines at home, take level 1. -/
def execDiscard (f : Fields) (s : State) : Out :=
  s.front (.discard f) f .dest false fun s w =>
    let n := (s.readS w (.int 32) f.b).toNat
    let a := wrap64 ((s.readS w (.int 64) f.a).toNat + f.off)
    if n = 0 then s.finish f id
    else
      let tag := s.tagOf w
      let mine := fun (l : L1Line) => l.core == w.core && l.tag == tag && decide (a < l.va + 32) && decide (l.va < a + n)
      { s with
        l1 := modWhere (s.l1.filter fun l => !mine l || s.dirtyIn w.core l.pa) mine fun l => { l with level := 1 }
        l2 := s.l2.map fun (x : Nat × Nat) => if s.inRange tag a n x.1 then (x.1, 1) else x }.finish f id

end Sys2Proof.Machine
end

