-- ==== Sys2Proof/Machine/Copies.lean ====
section
/-! DEFINITION. Copies by the stoker engines (spec/14_memory_isa.md R284 to R290, spec/13_memory_order.md R246): a wave's
batches, box copies, pieces and their faults. -/

namespace Sys2Proof.Machine

/-! ### Pieces -/

/-- The pieces of n bytes copied from one address to another: one for each destination sector. -/
def linearPieces (dst src n : Nat) (dsp ssp : Bool) (hint rhint : Nat) : List Piece :=
  (piecesOf dst n).map fun p =>
    ⟨[⟨some (src + (p.1 - dst)), [], p.1, p.2⟩], ssp, dsp, hint, rhint, .todo⟩

/-- An axis coordinate under a border mode: none for the constant element (R287). -/
def boxCoord (mode : Nat) (extent : Nat) (c : Int) : Option Nat :=
  let e : Int := extent
  match mode with
  | 0 => some (min (max c 0) (e - 1)).toNat
  | 1 => let m := c % (2 * e); some (if m < e then m else 2 * e - 1 - m).toNat
  | 2 => some (c % e).toNat
  | _ => if 0 ≤ c ∧ c < e then some c.toNat else none

/-- The extents, pitches and modes of a box descriptor (R286). -/
def boxEsz (d : List Byte) : Nat := 2 ^ (byteAt d 0x2A % 4)
def boxX (d : List Byte) : Nat := numAt d 0x24 2 + 1
def boxY (d : List Byte) : Nat := numAt d 0x26 2 + 1
def boxZ (d : List Byte) : Nat := numAt d 0x28 2 + 1

/-- The source address of an element of a box, none where the constant stands (R287). -/
def boxSource (d : List Byte) (x0 y0 z0 : Int) (i j k : Nat) : Option Nat :=
  let mode := byteAt d 0x2B
  match boxCoord (mode % 4) (numAt d 0x18 4 + 1) (x0 + i), boxCoord (mode / 4 % 4) (numAt d 0x1C 4 + 1) (y0 + j),
        boxCoord (mode / 16 % 4) (numAt d 0x20 4 + 1) (z0 + k) with
  | some x, some y, some z => some ((numAt d 0 8 + z * numAt d 0x10 8 + y * numAt d 0x08 8 + x * boxEsz d) % 2 ^ 64)
  | _, _, _ => none

/-- The elements of a box in parts that each lie in one destination sector. -/
def boxParts (d : List Byte) (dst : Nat) (x0 y0 z0 : Int) : List PiecePart :=
  (List.range (boxZ d)).flatMap fun k => (List.range (boxY d)).flatMap fun j => (List.range (boxX d)).flatMap fun i =>
    let src := boxSource d x0 y0 z0 i j k
    let at_ := dst + k * numAt d 0x38 4 + j * numAt d 0x34 4 + i * boxEsz d
    (piecesOf at_ (boxEsz d)).map fun p =>
      ⟨src.map fun a => a + (p.1 - at_), ((d.drop 0x2C).take (boxEsz d)).drop (p.1 - at_) |>.take p.2, p.1, p.2⟩

/-- The pieces of a box: the parts of each destination sector together. -/
def boxPieces (d : List Byte) (dst : Nat) (dsp : Bool) (x0 y0 z0 : Int) (hint rhint : Nat) : List Piece :=
  let parts := boxParts d dst x0 y0 z0
  let secs := (parts.map fun p => sectorBase p.dst).eraseDups
  secs.map fun b => ⟨parts.filter fun p => sectorBase p.dst == b, false, dsp, hint, rhint, .todo⟩

def CopyItem.pieces : CopyItem → List Piece
  | .linear dst src n dsp ssp h r => linearPieces dst src n dsp ssp h r
  | .box d dst dsp x0 y0 z0 h r => boxPieces d dst dsp x0 y0 z0 h r

/-- What running a piece needs to know: whose memory, through which unit, in which state, and the cord whose scratchpad
it may touch. -/
structure CopyEnv where
  tag  : Nat
  engine : Nat
  sup  : Bool
  cord : Nat
  core : Nat
  deriving DecidableEq, Repr, Inhabited

/-- The bytes of a part's source. -/
def State.partRead (s : State) (v : CopyEnv) (p : Piece) (q : PiecePart) : State × Acc (List Byte) :=
  match q.src with
  | none => (s, .ok q.const)
  | some a =>
    if p.srcScratch then
      match s.spadErrors v.cord v.core a q.n with
      | (true, s) => (s, .bad)
      | (false, s) => (s, .ok (((s.cordAt v.cord).getD default).spadGet a q.n))
    else
      s.hwLoadHint (unitStoker v.engine) v.tag (v.engine / 16) v.sup a q.n p.rhint

/-- The bytes of all parts of a piece, placed at their destination addresses; a fault has the read kind. -/
def State.partsRead (v : CopyEnv) (p : Piece) : List PiecePart → State → State × Acc (List Host.Cell)
  | [], s => (s, .ok [])
  | q :: rest, s =>
    andThen (s.partRead v p q) fun s bs =>
    andThen (State.partsRead v p rest s) fun s l => (s, .ok (cellsAt q.dst bs ++ l))

/-- The written bytes of a piece whose destination is global: one write in the sector (R230). -/
def State.pieceWrite (s : State) (v : CopyEnv) (p : Piece) (cells : List Host.Cell) : State × Acc (List Nat) :=
  let cells := cells.foldl putCell []
  match cells.head? with
  | none => (s, .ok [])
  | some c =>
    andThen (s.locate (unitStoker v.engine) v.tag (v.engine / 16) v.sup 1 none [(c.1, 1)]) fun s l =>
      let (pa, _, e) := l.headD default
      let base := sectorBase pa
      let bs := cells.map fun x => (base + x.1 % 32, x.2)
      let bells := (bs.flatMap fun x => s.bellsFor x.1 [x.2]).eraseDups
      let bs := if bells.isEmpty then bs else bs.flatMap fun x => (s.doorless x.1 [x.2]).map fun b => (x.1, b)
      let (id, s) := s.newWrite .engine (some v.tag) none bs (grainBytes (pteGrain e)) (cacheMode e) (ptePool e) bells
      let s := s.acceptNow id
      (s.useL2 base p.hint (cacheMode e), .ok [id])

/-- A piece performs: what becomes of it, or none while a tenure holds it back; a poisoned sector faults the context. -/
def State.runPiece (s : State) (v : CopyEnv) (p : Piece) : State × Option PieceState :=
  match State.partsRead v p p.parts s with
  | (s, .fault c pl a) => (s, some (.stopped ⟨c, a, 0, pl⟩ false))
  | (s, .bad) => (s.ctxFault v.tag 0x50, none)
  | (s, .wait) => (s, none)
  | (s, .ok cells) =>
    if p.dstScratch then (s.modCord v.cord fun c => c.spadPut cells, some (.done []))
    else match s.pieceWrite v p cells with
      | (s, .ok ids) => (s, some (.done ids))
      | (s, .fault c pl a) => (s, some (.stopped ⟨c, a, 1, pl⟩ false))
      | (s, .bad) => (s.ctxFault v.tag 0x50, none)
      | (s, .wait) => (s, none)

def PieceState.open : PieceState → Bool | .todo => true | _ => false
def PieceState.fault : PieceState → Option DeferredFault | .stopped f _ => some f | _ => none

/-- All pieces have performed and their writes have completed (R246). -/
def State.piecesDone (s : State) (l : List Piece) : Bool :=
  l.all fun p => match p.st with | .done ids => s.allDone ids | _ => false

/-- The wave whose slot has a device-wide number. -/
def waveOfNum (n : Nat) : WaveId := ⟨n / 64, n / 8 % 8, n % 8⟩

/-- A piece of a list run, its state replaced. -/
def State.runNth (s : State) (v : CopyEnv) (l : List Piece) (i : Nat) : State × Option (List Piece) :=
  match l[i]? with
  | none => (s, none)
  | some p =>
    if !p.st.open then (s, none)
    else match s.runPiece v p with
      | (s, none) => (s, none)
      | (s, some st) => (s, some (modAt l i fun p => { p with st := st }))

/-- COPY_PIECE (R246): a piece of a closed batch or of a COPY record. R10 does not say which engine runs a record, nor on which
die: the model takes the engine, of the two dies' 32, that the record's uid modulo 32 gives (DESIGN CHOICE, log 48). -/
def execCopyPiece (c : CopyRef) (piece : Nat) (s : State) : Out :=
  match c with
  | .batch n number =>
    (match s.waveAt (waveOfNum n) with
    | none => .next s
    | some w => match w.batches.find? fun b => b.number == number with
      | none => .next s
      | some b =>
        match s.runNth ⟨s.tagOf w, b.engine, b.sup, w.cord, w.core⟩ b.pieces piece with
        | (s, none) => .next s
        | (s, some l) => .next (s.modWave w.id fun w =>
            { w with batches := modWhere w.batches (fun b => b.number == number) fun b => { b with pieces := l } }))
  | .record uid =>
    match s.recs.find? fun r => r.uid == uid with
    | none => .next s
    | some r => match r.stage with
      | .copying l =>
        let old := s
        (match s.runNth ⟨r.tag, uid % 32, false, 0, 0⟩ l piece with
        | (s, none) => .next s
        | (s, some l) =>
          let s := { s with recs := modWhere s.recs (fun r => r.uid == uid) fun r => { r with stage := .copying l } }
          let stoppedNow := (l[piece]?).any fun p => p.st.fault.isSome
          let live := s.qState r.tag r.q != .stopped
          .next (if !(stoppedNow && live) then s else if s.canStop r.tag r.q then s.stopQueue r.tag r.q 0x0B else old))
      | _ => .next s

/-- COPY_BATCH_COMPLETE (R246): a batch whose writes have completed leaves its wave. A COPY record retires as R121
gives. -/
def execCopyBatchComplete (c : CopyRef) (s : State) : Out :=
  match c with
  | .batch n number =>
    let done := fun (b : Batch) => b.number == number && s.piecesDone b.pieces
    .next (s.modWave (waveOfNum n) fun w => { w with batches := w.batches.filter fun b => !done b })
  | .record uid =>
    .next { s with recs := modWhere s.recs (fun r => r.uid == uid) fun r =>
      match r.stage with
      | .copying l => if s.piecesDone l then { r with stage := .expanded } else r
      | _ => r }

/-! ### Adding copies and closing batches -/

/-- The open batch is closed: its number is taken, and its pieces start unless it is empty (R289). -/
def Wave.closeBatch (w : Wave) : Wave :=
  let l := w.openBatch.flatMap CopyItem.pieces
  { w with
    openBatch := []
    nextBatch := w.nextBatch + 1
    batches := if l.isEmpty then w.batches else w.batches ++ [⟨w.nextBatch, w.sup, stokerOf w.die w.nextBatch.toNat, l⟩] }

/-- A batch may be closed: fewer than 8 closed batches are incomplete, and the wave has released (R284, R289). -/
def State.canClose (s : State) (w : Wave) : Bool := decide (w.batches.length < 8) && s.released w

/-- A copy joins the open batch; the 65th first closes it (R284). -/
def State.addCopy (s : State) (w : Wave) (f : Fields) (c : CopyItem) : Out :=
  if w.openBatch.length < 64 then s.finish f fun w => { w with openBatch := w.openBatch ++ [c] }
  else if !s.canClose w then s.stall
  else s.finish f fun w => { w.closeBatch with openBatch := [c] }

/-- The first address of a range that is not canonical (R263). -/
def badRange (a n : Nat) : Option Nat :=
  if n = 0 then none
  else if !canonical (BitVec.ofNat 64 a) then some a
  else if a < 2 ^ 56 ∧ 2 ^ 56 < a + n then some (2 ^ 56)
  else none

/-- The checks of a global or scratchpad range at issue (R285). -/
def rangeTrap (scratch : Nat) (sp : Bool) (a n kind : Nat) : Option (Nat × Word64) :=
  if sp then (if n ≠ 0 ∧ scratch < a + n then some (0x28, BitVec.ofNat 64 (a % 2 ^ 19)) else none)
  else (badRange a n).map fun x => (0x20, pageInfo x kind 0)

/-- A global address or a scratchpad offset. -/
def State.copyAddr (s : State) (w : Wave) (sp : Bool) (o : Opnd) : Nat :=
  (s.readS w (.int (if sp then 32 else 64)) o).toNat

/-- CPY (R285). -/
def execCpy (f : Fields) (s : State) : Out :=
  s.front (.cpy f) f .dest false fun s w =>
    let dsp := f.ext.getLsbD 32
    let ssp := f.ext.getLsbD 33
    let dst := s.copyAddr w dsp f.a
    let src := s.copyAddr w ssp f.b
    let n := if f.c = .none then f.ebits 31 0 else (s.readS w (.int 32) f.c).toNat
    let sc := (s.cordOf w).kernel.scratch
    match rangeTrap sc dsp dst n 1, rangeTrap sc ssp src n 0 with
    | some (c, i), none => s.trap c w.exec i
    | none, some (c, i) => s.trap c w.exec i
    | some (c, i), some (c', i') => if c' < c then s.trap c' w.exec i' else s.trap c w.exec i
    | none, none =>
      if n = 0 then s.finish f id
      else s.addCopy w f (.linear dst src n dsp ssp (f.mbits 3 2) (f.ebits 35 34))

/-- CPY.BOX (R288): the descriptor is read at issue. -/
def execCpyBox (f : Fields) (s : State) : Out :=
  s.front (.cpyBox f) f .dest false fun s w =>
    let dsp := f.ext.getLsbD 32
    State.take (s.waveLoad w w.sup (s.readS w (.int 64) f.a).toNat 64 0) 0 fun s d =>
      let dst := s.copyAddr w dsp f.b
      let org := s.readS w (.int 64) f.c
      let n := (boxZ d - 1) * numAt d 0x38 4 + (boxY d - 1) * numAt d 0x34 4 + boxX d * boxEsz d
      match rangeTrap (s.cordOf w).kernel.scratch dsp dst n 1 with
      | some (c, i) => s.trap c w.exec i
      | none =>
        s.addCopy w f (.box d dst dsp (lo32 org).toInt (hi32 org).toInt (f.ext.setWidth 32 : Word).toInt
          (f.mbits 3 2) (f.ebits 35 34))

/-- CPY.CLOSE (R289). -/
def execCpyClose (f : Fields) (s : State) : Out :=
  s.front (.cpyClose f) f .dest false fun s w =>
    if !s.canClose w then s.stall
    else s.finish f fun w => w.closeBatch.putS f.d (w.nextBatch.setWidth 64)

/-! ### Waiting (R290) -/

/-- The stopped piece with the lowest address of the lowest-numbered faulted batch. -/
def firstFault (l : List Batch) : Option DeferredFault :=
  let faults := fun (b : Batch) => b.pieces.filterMap fun p => p.st.fault
  match l.find? fun b => !(faults b).isEmpty with
  | none => none
  | some b =>
    let low := ((faults b).map fun f => f.addr).foldl Nat.min (2 ^ 64)
    (faults b).find? fun f => f.addr == low

def PieceState.told : PieceState → Bool | .stopped _ t => t | _ => false

/-- Batches in a wave changed where they are covered. -/
def Wave.modBatches (w : Wave) (p : Batch → Bool) (g : PieceState → PieceState) : Wave :=
  { w with batches := modWhere w.batches p fun b => { b with pieces := b.pieces.map fun x => { x with st := g x.st } } }

/-- The wait for the batches that `p` covers (R290): a fault of a stopped piece is raised once the other pieces have
gone on, and the pieces are tried again when the wait is executed again. -/
def State.copyWait (s : State) (w : Wave) (p : Batch → Bool) (k : State → Out) : Out :=
  let mine := w.batches.filter p
  let pcs := mine.flatMap fun b => b.pieces
  if mine.isEmpty then k s
  else if pcs.any fun x => x.st.told then
    State.stall (s.modMe fun w => w.modBatches p fun st => if st.told then .todo else st)
  else if pcs.any fun x => x.st.open then s.stall
  else match firstFault mine with
    | some x =>
      s.trapWith x.cause w.exec (pageInfo x.addr x.kind x.pool) fun s =>
        s.modMe fun w => w.modBatches p fun st => match st with | .stopped f _ => .stopped f true | st => st
    | none => s.stall

/-- CPY.WAIT (R290). -/
def execCpyWait (f : Fields) (s : State) : Out :=
  s.front (.cpyWait f) f .dest false fun s w =>
    let n : Word := BitVec.ofNat 32 (s.natB w f)
    let covered := fun (b : Batch) => f.m == 1 || decide ((n - b.number).toNat < 2 ^ 31)
    s.copyWait w covered fun s => s.finish f id

end Sys2Proof.Machine
end

