-- ==== Sys2Proof/Machine/Streams.lean ====
section
/-! DEFINITION. Streams (spec/14_memory_isa.md R291 to R294, spec/13_memory_order.md R247): records, element addresses, the
walk of the flue engine, and STRM.DEF, STRM.GO and STRM.STOP. -/

namespace Sys2Proof.Machine

/-! ### Records (R291) -/

def strmCount (b : List Byte) (i : Nat) : Nat := numAt b (0x10 + 4 * i) 4
def strmStride (b : List Byte) (i : Nat) : Int := (BitVec.ofNat 32 (numAt b (0x20 + 4 * i) 4)).toInt
def strmQueue (b : List Byte) : Nat := byteAt b 0x35 % 8
def strmEsize (b : List Byte) : Nat := byteAt b 0x34
def strmFlag (b : List Byte) (i : Nat) : Bool := (b.getD 0x36 0).getLsbD i
def strmIndex (b : List Byte) : Nat := byteAt b 0x37 % 8
/-- N, the number of elements (R292). -/
def strmLen (b : List Byte) : Nat := strmCount b 0 * strmCount b 1 * strmCount b 2 * strmCount b 3

/-- The chain of index streams from a record ends within the streams given (R291). -/
def indexChainOk (all : Nat → Option (List Byte)) : Nat → Nat → Bool
  | 0, _ => false
  | fuel + 1, id => match all id with
    | none => false
    | some b => if strmFlag b 2 then indexChainOk all fuel (strmIndex b) else true

/-- A stream record is valid as stream `id` beside the other records of the wave (R291). -/
def strmValid (others : List (Nat × List Byte)) (id : Nat) (b : List Byte) : Bool :=
  let all := fun (n : Nat) => if n = id then some b else (others.find? fun x => x.1 == n).map fun x => x.2
  strmFlag b 0 && byteAt b 0x35 / 8 == 0 && byteAt b 0x36 / 32 == 0 && byteAt b 0x37 / 64 == 0 &&
  byteAt b 0x37 / 8 % 2 == 0 && zeroAt b 0x38 8 &&
  ([1, 2, 4, 8] : List Nat).contains (strmEsize b) &&
  ((List.range 4).all fun i => decide (1 ≤ strmCount b i) && decide (strmCount b i ≤ 65536)) &&
  decide (strmQueue b ≤ 4) &&
  (!strmFlag b 1 || (numAt b 0 2 % 8 == 0 && zeroAt b 2 6)) &&
  (!strmFlag b 2 || (strmIndex b != id && indexChainOk all 9 id)) &&
  (strmQueue b == 4 || (others.all fun x => x.1 == id || strmQueue x.2 != strmQueue b))

/-! ### Elements (R292) -/

/-- A write carries a wave's store of a byte: the wave's own write, or a write-back of what it stored under write tenure. -/
def Write.storeOf (x : Write) (w : WaveId) (pa : Nat) : Bool := x.agent == .wave w || x.owners.contains (pa, w)

/-- A byte as the flue engine reads it for a wave: the wave's own incomplete stores, then home (R247). -/
def State.flueByte (s : State) (w : WaveId) (pa : Nat) : Byte :=
  match (s.writes.filter fun x => x.storeOf w pa && !x.doneAt s.time && (x.byte pa).isSome).getLast? with
  | some x => (x.byte pa).getD 0
  | none => s.homeByte pa

/-- A load of the flue engine for a wave, with a hint. A fault names the address of the element (R61, R293). -/
def State.flueLoad (s : State) (w : Wave) (sup : Bool) (va n hint : Nat) : State × Acc (List Byte) :=
  andThen (accAt va (s.locate (unitFlue w.core) (s.tagOf w) w.die sup 0 none (piecesOf va n))) fun s l =>
    (s.useHome hint l, .ok (l.flatMap fun p => tabulate p.2.1 fun i => s.flueByte w.id (p.1 + i)))

/-- The base of a stream, which under FROMARG is read from the argument block when the stream starts. -/
def State.streamBase (s : State) (w : Wave) (x : Stream) : State × Acc Nat :=
  match x.base with
  | some b => (s, .ok b)
  | none =>
    if strmFlag x.bytes 1 then
      andThen (s.flueLoad w x.sup ((s.cordOf w).frame + numAt x.bytes 0 2) 8 0) fun s bs => (s, .ok (natOfBytes bs))
    else (s, .ok (numAt x.bytes 0 8))

/-- i0 to i3 of element j; the outermost index of an element past the last is not wrapped. -/
def elemIndices (b : List Byte) (j : Nat) : List Nat :=
  let c0 := strmCount b 0; let c1 := strmCount b 1; let c2 := strmCount b 2
  [j % c0, j / c0 % c1, j / (c0 * c1) % c2, j / (c0 * c1 * c2)]

/-- The address of element j without its index term. -/
def State.elemAddr (s : State) (w : Wave) (b : List Byte) (base j : Nat) : Int :=
  let is := elemIndices b j
  (base : Int) + ((s.cordOf w).cordid : Int) * (BitVec.ofNat 64 (numAt b 8 8)).toInt +
    (w.index : Int) * (BitVec.ofNat 32 (numAt b 0x30 4)).toInt +
    ((List.range 4).map fun i => ((is.getD i 0 : Nat) : Int) * strmStride b i).foldl (· + ·) 0

/-- An element extended from its size (R292). -/
def extendElem (esize : Nat) (signed : Bool) (x : Nat) : Int := if signed then asSigned (8 * esize) x else (x : Int)

def Wave.modStream (w : Wave) (id : Nat) (f : Stream → Stream) : Wave :=
  { w with streams := modWhere w.streams (fun x => x.id == id) f }

/-- A stream that starts reads its FROMARG base, once; a fault of that read is a fault of its first element (R292, R293). An index
stream that does not run stays as it is: the fault is met with the elements of the stream that uses it. -/
def State.startStream (s : State) (id : WaveId) (n : Nat) : State :=
  match (s.waveAt id).bind fun w => (w.streams.find? fun x => x.id == n).map fun x => (w, x) with
  | some (w, x) =>
    if x.base.isSome || !strmFlag x.bytes 1 then s
    else match s.streamBase w x with
      | (s, .ok b) => s.modWave id fun w => w.modStream n fun y => { y with base := some b }
      | (s, .fault c _ a) => s.modWave id fun w => w.modStream n fun y =>
          if y.run = .running then { y with run := .faulted a (c == 0x21) false } else y
      | (s, .bad) => s.faultLater (s.tagOf w)
      | (s, .wait) => s
  | none => s

/-- A stream and the index streams that its elements come through (R291). -/
def Wave.indexChain (w : Wave) : Nat → Nat → List Nat
  | 0, _ => []
  | fuel + 1, id => match w.streams.find? fun x => x.id == id with
    | none => []
    | some x => id :: (if strmFlag x.bytes 2 then Wave.indexChain w fuel (strmIndex x.bytes) else [])

/-- Streams start at dispatch (R136, R247). -/
def State.startStreams (s : State) (id : WaveId) : State :=
  (((s.waveAt id).map fun w => w.streams.map fun x => x.id).getD []).foldl (fun s n => s.startStream id n) s

/-- Element j of a stream: its raw value. Index streams are read at the same j; past the end of an index stream its
element is a free value (log 11). -/
def State.elem (w : Wave) : Nat → Stream → Nat → State → State × Acc Nat
  | 0, _, _, s => (s, .fault 0x20 0 0)
  | fuel + 1, x, j, s =>
    andThen (s.streamBase w x) fun s base =>
    andThen (if strmFlag x.bytes 2 then
        (match w.streams.find? fun y => y.id == strmIndex x.bytes with
         | none => (s, .ok 0)
         | some y =>
           if j < strmLen y.bytes then
             andThen (State.elem w fuel y j s) fun s v => (s, .ok (extendElem (strmEsize y.bytes) (strmFlag x.bytes 3) v))
           else let (v, s) := s.free; (s, .ok (v.toNat : Int)))
      else (s, .ok (0 : Int))) fun s ix =>
    andThen (s.flueLoad w x.sup (wrap64 (s.elemAddr w x.bytes base j + ix * 2 ^ (byteAt x.bytes 0x37 / 16 % 4))) (strmEsize x.bytes) 0)
      fun s bs => (s, .ok (natOfBytes bs))

/-- Elements from position j on, up to `n` of them, with what stops them. -/
def State.elems (w : Wave) (x : Stream) : Nat → Nat → State → State × List Nat × Option (Acc Nat)
  | 0, _, s => (s, [], none)
  | n + 1, j, s =>
    if strmLen x.bytes ≤ j then (s, [], none)
    else match State.elem w 9 x j s with
      | (s, .ok v) => let (s, l, e) := State.elems w x n (j + 1) s; (s, v :: l, e)
      | (s, e) => (s, [], some e)

/-- The queue entries that a full group of elements gives: one, or two for 8-byte elements (R292). -/
def entriesOf (b : List Byte) (l : List Word64) : List Lanes :=
  let at_ := fun (i : Nat) => l.getD i 0
  if strmEsize b = 8 then [tabulate laneCount fun i => lo32 (at_ i), tabulate laneCount fun i => hi32 (at_ i)]
  else [tabulate laneCount fun i => if i < l.length then wrap 32 (extendElem (strmEsize b) (strmFlag b 4) (at_ i).toNat) else 0]

/-- The stream has an entry to fill and room for it. -/
def Wave.streamRoom (w : Wave) (x : Stream) : Bool :=
  x.run == .running && decide (strmQueue x.bytes < 4) &&
    decide ((w.q.getD (strmQueue x.bytes) []).length + (if strmEsize x.bytes = 8 then 2 else 1) ≤ 16)

/-- The walk after some elements have been read: entries that are whole enter the queue, and the walk ends after the last
element. -/
def Wave.takeElems (w : Wave) (x : Stream) (l : List Nat) : Wave :=
  let part := x.part ++ l.map fun v => BitVec.ofNat 64 v
  let pos := x.pos + l.length
  let ended := decide (strmLen x.bytes ≤ pos)
  let whole := part.length == laneCount || (ended && !part.isEmpty)
  let w := if whole then { w with q := modAt w.q (strmQueue x.bytes) fun e => e ++ entriesOf x.bytes part } else w
  w.modStream x.id fun y => { y with
    pos := pos, part := if whole then [] else part, run := if ended then .ended else y.run }

/-- STREAM_ELEMENT_FETCH (R292, R293): the flue engine reads on to the end of the entry that it fills. -/
def execStreamElementFetch (id : WaveId) (n : Nat) (s : State) : Out :=
  match s.waveAt id with
  | none => .next s
  | some w => match w.streams.find? fun x => x.id == n with
    | none => .next s
    | some x =>
      if !w.streamRoom x then .next s
      else
        let s := (w.indexChain 9 n).foldl (fun s i => s.startStream id i) s
        match (s.waveAt id).bind fun w => (w.streams.find? fun x => x.id == n).map fun x => (w, x) with
        | none => .next s
        | some (w, x) =>
          if !w.streamRoom x || (strmFlag x.bytes 1 && x.base.isNone) then .next s
          else
            let (s, l, e) := State.elems w x (laneCount - x.part.length) x.pos s
            let s := s.modWave id fun w => w.takeElems x l
            match e with
            | some (.fault c _ a) =>
              .next (s.modWave id fun w => w.modStream n fun y => { y with run := .faulted a (c == 0x21) false })
            | some .bad => .next (s.ctxFault (s.tagOf w) 0x50)
            | _ => .next s

/-! ### Instructions (R294) -/

/-- The walk ends, queued entries are discarded and the queue is unbound; a stopped stream is left alone. -/
def Wave.stopStream (w : Wave) (id : Nat) : Wave :=
  match w.streams.find? fun x => x.id == id with
  | none => w
  | some x =>
    if x.run = .stopped then w
    else
      let w := { w with q := modAt w.q (strmQueue x.bytes) fun _ => [] }
      w.modStream id fun x => { x with run := .stopped, pos := 0, part := [] }

/-- STRM.DEF (R294). -/
def execStrmDef (f : Fields) (s : State) : Out :=
  s.front (.strmDef f) f .dest false fun s w =>
    let id := f.ebits 2 0
    State.take (s.waveLoad w w.sup (s.readS w (.int 64) f.a).toNat 64 0) 0 fun s b =>
      if !strmValid (w.streams.map fun x => (x.id, x.bytes)) id b then s.trap 0x2A w.exec (streamInfo 0 false 3 0)
      else s.finish f fun w =>
        let w := w.stopStream id
        { w with streams := (w.streams.filter fun x => x.id != id) ++ [(⟨id, b, .stopped, false, none, 0, []⟩ : Stream)] }

/-- The index streams of a stream that starts read their bases too, but for those that run already (R292). -/
def State.startIndex (s : State) (id : WaveId) (n : Nat) : State :=
  match s.waveAt id with
  | none => s
  | some w => ((w.indexChain 9 n).drop 1).foldl (fun s i =>
      let idle := fun (x : Stream) => x.run == .stopped || decide (strmQueue x.bytes = 4)
      (s.modWave id fun w => w.modStream i fun x => if idle x then { x with base := none } else x).startStream id i) s

/-- STRM.GO (R294): the walk starts at element 0 with the base read now. -/
def execStrmGo (f : Fields) (s : State) : Out :=
  s.front (.strmGo f) f .dest false fun s w =>
    let id := (s.readS w (.int 32) f.a).toNat
    match w.streams.find? fun x => x.id == id with
    | none => s.trap 0x2A w.exec (streamInfo 0 false 3 0)
    | some x =>
      let start := fun (s : State) (b : Nat) => (s.startIndex w.id id).finish f fun w =>
        let w := { w with q := modAt w.q (strmQueue x.bytes) fun _ => [] }
        w.modStream id fun x => { x with run := .running, sup := w.sup, base := some b, pos := 0, part := [] }
      if strmFlag x.bytes 1 then
        State.take (s.waveLoad w w.sup ((s.cordOf w).frame + numAt x.bytes 0 2) 8 0) 0 fun s bs => start s (natOfBytes bs)
      else start s (numAt x.bytes 0 8)

/-- STRM.STOP (R294). -/
def execStrmStop (f : Fields) (s : State) : Out :=
  s.front (.strmStop f) f .dest false fun s w =>
    let id := (s.readS w (.int 32) f.a).toNat
    s.finish f fun w => w.stopStream id

end Sys2Proof.Machine
end

