-- ==== Sys2Proof/Machine/Mos.lean ====
section
/-! DEFINITION. Ranges of the matrix operand stores: records, states, fills and their faults (spec/17_matrix.md R342 to
R346, R355). -/

namespace Sys2Proof.Machine

/-- The range of a wave's cord at a granule of its side (R342). -/
def State.rangeAt (s : State) (w : Wave) (granule : Nat) : Option MosRange :=
  s.ranges.find? fun r => r.core == w.core && r.side == sideOf w.id.part && r.cord == w.cord && r.start == 256 * granule

/-- The same range. -/
def MosRange.same (a b : MosRange) : Bool := a.core == b.core && a.side == b.side && a.start == b.start
def State.modRange (s : State) (r : MosRange) (f : MosRange → MosRange) : State := { s with ranges := modWhere s.ranges r.same f }

/-- READERS of the range that a member's MMA names changes (R346). -/
def State.reader (s : State) (id : WaveId) (f : Fields) (g : Nat → Nat) : State :=
  match (s.waveAt id).bind fun w => s.rangeAt w (f.ebits 15 8) with
  | some r => s.modRange r fun r => { r with readers := g r.readers }
  | none => s

/-- A read of a range meets the errors of its words (R15, R16, R358): true when one cannot be corrected. -/
def State.mosErrors (s : State) (r : MosRange) : Bool × State :=
  s.takeFlaws (dieOf r.core) fun p => match p with
    | .mos c d k => c == r.core && d == r.side && decide (8 * k < r.start + r.len) && decide (r.start < 8 * k + 8)
    | _ => false

/-! ### MOS.FILL (R355) -/

/-- A fill writes into the range. -/
def MosFill.into (x : MosFill) (r : MosRange) : Bool := x.core == r.core && x.side == r.side && x.start == r.start

/-- The stopped pieces of a list of fills. -/
def stoppedPieces (l : List MosFill) : List Piece := (l.flatMap fun x => x.pieces).filter fun p => p.st.fault.isSome

/-- A stopped piece is tried again (R346). -/
def MosFill.retry (x : MosFill) : MosFill :=
  { x with told := [], pieces := x.pieces.map fun y => { y with st := match y.st with | .stopped _ _ => .todo | st => st } }

/-- The stopped piece with the lowest source address. -/
def lowFault (l : List Piece) : Option DeferredFault :=
  let fs := l.filterMap fun p => p.st.fault
  let low := (fs.map fun f => f.addr).foldl Nat.min (2 ^ 64)
  fs.find? fun f => f.addr == low

/-- A waiting instruction that meets stopped fills (R346): it raises the held fault in its own wave, and when it executes
again after the trap the pieces are tried again; without any, it goes on. -/
def State.heldFault (s : State) (w : Wave) (p : MosFill → Bool) (k : State → Out) : Out :=
  let held := fun (x : MosFill) => p x && !(stoppedPieces [x]).isEmpty
  let told := fun (x : MosFill) => held x && x.told.contains (w.id, w.pc)
  if s.mosFills.any told then State.stall { s with mosFills := modWhere s.mosFills told MosFill.retry }
  else match lowFault (stoppedPieces (s.mosFills.filter held)) with
    | some x =>
      s.trapWith x.cause w.exec (pageInfo x.addr 0 x.pool) fun s =>
        { s with mosFills := modWhere s.mosFills held fun y => { y with told := y.told ++ [(w.id, w.pc)] } }
    | none => k s

/-- A wave's own fills, before its final EXIT. -/
def State.fillWait (s : State) (w : Wave) (k : State → Out) : Out :=
  let mine := fun (x : MosFill) => x.wave == w.id
  s.heldFault w mine fun s => if s.mosFills.any mine then s.stall else k s

/-- Bytes written at offsets of a range. -/
def MosRange.put (r : MosRange) (cells : List Host.Cell) : MosRange := { r with bytes := cellsSet r.bytes cells }

/-- A fill's pieces that have not performed, performed as loads of its wave (R247): a fault stops its piece. True when a
poisoned sector was met. -/
def State.runFill (w : Wave) (x : MosFill) : List Piece → State → List Piece × Bool × State
  | [], s => ([], false, s)
  | p :: rest, s =>
    let (p, bad, s) :=
      match p.st, p.parts.head? with
      | .todo, some q =>
        let a := q.src.getD 0
        (match s.flueLoad w x.sup a q.n p.rhint with
        | (s, .ok bs) =>
          let s := { s with ranges := modWhere s.ranges x.into fun r => r.put (cellsAt q.dst bs) }
          ({ p with st := PieceState.done [] }, false, s)
        | (s, .fault c pl a) => ({ p with st := PieceState.stopped ⟨c, a, 0, pl⟩ false }, false, s)
        | (s, .bad) => (p, true, s)
        | (s, .wait) => (p, false, s))
      | _, _ => (p, false, s)
    let r := State.runFill w x rest s
    (p :: r.1, bad || r.2.1, r.2.2)

/-- MOS_FILL_COMPLETE (R346, R355): the pieces perform, and when every byte is written the writer finishes. -/
def execMosFillComplete (id : Nat) (s : State) : Out :=
  match s.mosFills.find? fun x => x.id == id with
  | none => .next s
  | some x => match s.waveAt x.wave with
    | none => .next { s with mosFills := s.mosFills.filter fun y => y.id != id }
    | some w =>
      let (ps, bad, s) := State.runFill w x x.pieces s
      if bad then .next (s.ctxFault x.tag 0x50)
      else if ps.all fun p => match p.st with | .done _ => true | _ => false then
        .next { s with
          mosFills := s.mosFills.filter fun y => y.id != id
          ranges := modWhere s.ranges x.into fun r => { r with writers := r.writers - 1 } }
      else .next { s with mosFills := modWhere s.mosFills (fun y => y.id == id) fun y => { y with pieces := ps } }

end Sys2Proof.Machine
end

