-- ==== Sys2Proof/Machine/PageInstr.lean ====
section
/-! DEFINITION. PG.PROBE, PG.INV and PG.SYNC and the invalidation that they start (spec/15_page.md R316 to R318). -/

namespace Sys2Proof.Machine

/-! ### PG.PROBE (R316) -/

/-- The status of a walk for a kind of access, without first touch. -/
def probeStatus (w : WalkEnd) (kind : Nat) (sup : Bool) : Nat :=
  match w.kind with
  | .absent => 2
  | .malformed => 3
  | .anon => if permitted w.entry kind sup then 5 else 4
  | .leaf => if permitted w.entry kind sup then 0 else 4

/-- The value that PG.PROBE writes. -/
def probeValue (pte : Bool) (status level pa : Nat) (entry : Word64) : Word64 :=
  if pte then (if status = 1 then 0 else entry)
  else BitVec.ofNat 64 ((if status = 0 then pa % 2 ^ 52 else 0) + 2 ^ 52 * level + 2 ^ 56 * status)

/-- PG.PROBE (R316). -/
def execPgProbe (f : Fields) (s : State) : Out :=
  s.front (.pgProbe f) f .dest false fun s w =>
    let kind := f.mbits 1 0
    let pte := f.mbits 3 3 == 1
    let va := (s.readS w (.int 64) f.a).toNat
    let give := fun (s : State) (x : Word64) => s.finish f fun w => w.putS f.d x
    let bad := fun (s : State) => (.next (s.ctxFault (s.tagOf w) 0x50) : Out)
    if !canonical (BitVec.ofNat 64 va) then give s (probeValue pte 1 0 0 0)
    else match s.walkMeet (s.tagOf w) va with
    | (none, s) => bad s
    | (some e, s) =>
      let st := probeStatus e kind w.sup
      if st = 5 ∧ f.mbits 2 2 = 1 ∧ kind ≠ 2 then
        match s.translate w.unit (s.tagOf w) w.die w.sup kind va with
        | (.ok pa x, s) => give s (probeValue pte 0 e.level pa x)
        | (.fault c _, s) =>
          if c = 0x22 then give s (probeValue pte 6 e.level 0 e.entry)
          else match s.walkMeet (s.tagOf w) va with
            | (none, s) => bad s
            | (some e, s) => give s (probeValue pte (probeStatus e kind w.sup) e.level (leafPa e.entry va) e.entry)
        | (.bad, s) => bad s
        | (.wait, s) => s.stall
      else give s (probeValue pte st e.level (leafPa e.entry va) e.entry)

/-! ### Invalidation (R317) -/

/-- The canonical address of 57 bits of an address (R297). -/
def canonVa (va : Nat) : Nat := if vaBits va < 2 ^ 56 then vaBits va else vaBits va + (2 ^ 64 - 2 ^ 57)

/-- The bytes of a page, at canonical addresses, meet an invalidation, whose range need not be canonical (R317). -/
def meetsInval (range : Option (Nat × Nat)) (va n : Nat) : Bool :=
  match range with
  | none => true
  | some (a, k) => decide (canonVa va < a + k) && decide (a < canonVa va + n)

/-- Whether a cached translation lies in an invalidation: every one of the tag, or those whose page overlaps [a, a + n). -/
def TlbEntry.inInval (t : TlbEntry) (tag : Nat) (range : Option (Nat × Nat)) : Bool :=
  t.tag == tag && meetsInval range t.va (szBytes (pteSz t.entry))

/-- An L1 sector lies in a page that an invalidation overlaps (R317). -/
def L1Line.inInval (l : L1Line) (tag : Nat) (range : Option (Nat × Nat)) : Bool :=
  l.tag == tag && meetsInval range (l.va - l.va % l.size) l.size

/-- A walk cache's entry lies over an invalidation (R317). -/
def WalkLine.inInval (x : WalkLine) (tag : Nat) (range : Option (Nat × Nat)) : Bool :=
  x.tag == tag && meetsInval range x.va (2 ^ (12 + 9 * x.level))

/-- A wave's store was translated by a page that an invalidation overlaps (R317). -/
def Write.inInval (w : Write) (tag : Nat) (range : Option (Nat × Nat)) : Bool :=
  w.tag == some tag && (range.isNone || w.via.any fun x =>
    meetsInval range (x.1 - x.1 % szBytes (pteSz x.2)) (szBytes (pteSz x.2)))

/-- Whether a physical byte lies in a page whose translation was dropped. -/
def invalPa (dropped : List TlbEntry) (pa : Nat) : Bool :=
  dropped.any fun t => decide (pteFrame t.entry ≤ pa) && decide (pa < pteFrame t.entry + szBytes (pteSz t.entry))

/-- The rows of a footprint, ascending (R321). -/
def Handle.rows (h : Handle) : List Nat :=
  (List.range (h.ext.getD 3 1)).flatMap fun i3 => (List.range (h.ext.getD 2 1)).flatMap fun i2 =>
    (List.range (h.ext.getD 1 1)).map fun i1 =>
      h.base + i1 * h.stride.getD 1 0 + i2 * h.stride.getD 2 0 + i3 * h.stride.getD 3 0
/-- The row length Q. -/
def Handle.rowLen (h : Handle) : Nat := h.ext.getD 0 1 * 2 ^ h.esz

/-- A past root is kept for the grain tiles of its bytes, while its times lie ahead (R332, R333). -/
def State.passRoot (s : State) (h : Handle) : State :=
  let (e, c) := s.leaseOf (.root h.id)
  { s with
    pastRoots := (s.pastRoots.filter fun g => decide (s.time < g.e) || decide (s.time < g.clast)) ++ [⟨h, e, c⟩] }

/-- Orphaning (R332): every tenure ends, requests are dropped and their waves execute TILE.ACQ again, ORPHAN is set. -/
def State.orphan (s : State) (h : Handle) : State :=
  let s := h.tenures.foldl (fun s t => s.endTenure h.id t.core) s
  let s := s.passRoot h
  let s := s.modHandle h.id fun h => { h with orphan := true, reqs := [] }
  let s := { s with waves := s.waves.map fun (w : Wave) => match w.wait with
    | Wait.tile r _ _ => if r = h.id then { w with wait := .stalled } else w
    | _ => w }
  (s.physStore h.id.tag (h.record + 0x2D) [BitVec.ofNat 8 (2 + if h.ro then 4 else 0)]).2

/-- The roots of a context that an invalidation orphans: those of which it overlaps a page of any size, of their own or of
a view (R317, R332). -/
def State.hitRoots (s : State) (tag : Nat) (range : Option (Nat × Nat)) : List Handle :=
  let hit := fun (h : Handle) => h.pages.any fun p => meetsInval range p.1 p.2.2
  s.handles.filter fun h => !h.view && !h.orphan && decide (h.id.tag = tag) &&
    (hit h || s.handles.any fun v => v.view && decide (v.id.tag = tag) && v.root == h.id.index && hit v)

/-- What an invalidation does at its receivers (R317, R332): roots orphaned, translations and L1 sectors dropped, dirty bytes written back, and
every write of the range accepted. The ids of its writes that have not completed, and whether all have been accepted. -/
def State.invalidate (s : State) (tag : Nat) (range : Option (Nat × Nat)) : List Nat × Bool × State :=
  let s := (s.hitRoots tag range).foldl (fun s h => s.orphan h) s
  let dropped := s.tlb.filter fun t => t.inInval tag range
  let s := { s with
    tlb := s.tlb.filter fun t => !t.inInval tag range
    walks := s.walks.filter fun x => !x.inInval tag range
    l1 := s.l1.filter fun l => !l.inInval tag range }
  let s := (s.writeBackIf fun d a => d.root.tag == tag && (range.isNone || invalPa dropped a)).2
  let mine := s.writes.filter fun w => w.inInval tag range || w.bytes.any fun c => invalPa dropped c.1
  let s := mine.foldl (fun s w => s.acceptOr w.id) s
  let ids := mine.map fun w => w.id
  (ids.filter fun i => !s.allDone [i], s.allAccepted ids, s)

/-- The largest completion time of a list of writes. -/
def State.latestTime (s : State) (ids : List Nat) : Nat :=
  ids.foldl (fun t i => match (s.write i).bind fun w => w.ctime with | some c => max t c | none => t) 0

/-- A wave's invalidation changed, whether the wave is resident or saved. -/
def State.modInval (s : State) (id : Nat) (f : Inval → Inval) : State :=
  let up := fun (w : Wave) => { w with invals := modWhere w.invals (fun i => i.id == id) f }
  { s with
    waves := s.waves.map up
    ctxs := s.ctxs.map fun c => { c with images := c.images.map fun m => { m with waves := m.waves.map up } }
    invals := (modWhere s.invals (fun i => i.id == id) f).filter fun i => !i.done
    commands := s.commands.map fun c => if c.inval.id = id then { c with inval := f c.inval } else c }

/-- The invalidations of every wave, of waves that have gone, and of INVAL commands. -/
def State.allInvals (s : State) : List Inval :=
  (s.waves.flatMap fun w => w.invals) ++ (s.ctxs.flatMap fun c => c.images.flatMap fun m => m.waves.flatMap fun w => w.invals) ++
    s.invals ++ s.commands.map fun c => c.inval

/-- The final STATUS of a firmware command, written after the engine's earlier writes as a release (R428). -/
def State.cmdStatus (s : State) (blk st : Nat) : State :=
  let t := s.writes.foldl (fun t w => if w.agent = .engine then max t (w.ctime.getD 0) else t) 0
  let (ids, s) := s.physStore 0 (blk + 1) [BitVec.ofNat 8 st]
  ids.foldl (fun s i => s.notBefore t i) s

/-- INVAL commands whose invalidation is complete, with its writes passed, take effect (R318, R428). -/
def State.endCommands (s : State) : State :=
  let ended := fun (c : Command) => c.inval.done && decide (c.inval.upto ≤ s.time)
  (s.commands.filter ended).foldl (fun s c => s.cmdStatus c.blk 0) { s with commands := s.commands.filter fun c => !ended c }

/-- INVALIDATION_COMPLETE (R317, R428): every receiver has dropped the range; the invalidation completes once every write of
the range has been accepted. -/
def execInvalidationComplete (id : Nat) (s : State) : Out :=
  match s.allInvals.find? fun i => i.id == id with
  | none => .next s
  | some i =>
    if i.done then .next s.endCommands
    else
      let (ids, ok, s) := s.invalidate i.tag i.range
      let all := (i.writes ++ ids).eraseDups
      let t := max i.upto (s.latestTime all)
      .next (s.modInval id fun i => { i with writes := all, upto := t, done := ok && s.allAccepted all }).endCommands

/-- An invalidation starts (R317). -/
def State.startInval (s : State) (w : Wave) (f : Fields) (range : Option (Nat × Nat)) : Out :=
  if !s.released w then s.stall
  else if (range.map fun x => x.2) = some 0 then s.finish f id
  else if 16 ≤ (w.invals.filter fun i => !i.done).length then s.stall
  else
    let i : Inval := ⟨s.uid, s.tagOf w, range, [], false, 0⟩
    { s with uid := s.uid + 1 }.finish f fun w => { w with invals := w.invals ++ [i] }

/-- PG.INV.va (R317). -/
def execPgInvVa (f : Fields) (s : State) : Out :=
  s.front (.pgInvVa f) f .dest false fun s w =>
    s.startInval w f (some ((s.readS w (.int 64) f.a).toNat, s.natB w f))

/-- PG.INV.ctx (R317). -/
def execPgInvCtx (f : Fields) (s : State) : Out :=
  s.front (.pgInvCtx f) f .dest false fun s w => s.startInval w f none

/-- PG.SYNC (R318). -/
def execPgSync (f : Fields) (s : State) : Out :=
  s.front (.pgSync f) f .dest false fun s w =>
    let t := (w.invals.map fun i => i.upto).foldl max 0
    if (w.invals.any fun i => !i.done) || decide (s.time < t) then s.stall
    else s.finish f fun w => { w.raise t with invals := [] }

end Sys2Proof.Machine
end

