-- ==== Sys2Proof/Machine/Barrier.lean ====
section
/-! DEFINITION. Barriers and the end of a wave (spec/12_barrier.md R221 to R228, spec/08_wave.md R160, spec/07_kernel.md
R137). -/

namespace Sys2Proof.Machine

/-! ### Arrival state (R221, R222) -/

def Wave.arrival (w : Wave) (g : Nat) : Arrival := (w.arrivals.find? fun a => a.group == g).getD ⟨g, 0, false, 0, []⟩
def Wave.setArrival (w : Wave) (a : Arrival) : Wave :=
  { w with arrivals := (w.arrivals.filter fun x => x.group != a.group) ++ [a] }
/-- The group on which the wave is partially arrived. -/
def Wave.partialOn (w : Wave) : Option Nat := (w.arrivals.find? fun a => a.arr != 0).map fun a => a.group

/-- The member of a cord with a %waveid, while it is resident. -/
def State.member (s : State) (cord i : Nat) : Option Wave := s.waves.find? fun w => w.cord == cord && w.index == i

/-- A member counts as arrived (R222). -/
def State.arrived (s : State) (cord g i : Nat) : Bool :=
  match s.member cord i with
  | some w => w.wait == .ended || (w.arrival g).done
  | none => true

/-- A member has ended. -/
def State.memberEnded (s : State) (cord i : Nat) : Bool :=
  match s.member cord i with | some w => w.wait == .ended | none => true

def State.members (s : State) (cord g : Nat) : List Nat := grpList (((s.cordAt cord).getD default).group g)
def State.barSlot (s : State) (cord g : Nat) : Option BarSlot := (s.cordAt cord).bind fun c => c.bars.find? fun b => b.group == g

/-- Every member has arrived, and one of them has not ended. -/
def State.phaseFull (s : State) (cord g : Nat) : Bool :=
  let m := s.members cord g
  m.all (fun i => s.arrived cord g i) && m.any fun i => !s.memberEnded cord i

/-! ### Completion (R223) -/

/-- Steps 2 and 3 of R223. -/
def State.completePhase (s : State) (cord g : Nat) : State :=
  let s := s.modCord cord fun c => { c with
    bars := modWhere c.bars (fun b => b.group == g) fun b => { b with phase := b.phase + 1, dev := false, drain := none } }
  { s with waves := s.waves.map fun w =>
      if w.cord = cord then
        let w := if w.arrivals.any fun a => a.group == g then w.setArrival { w.arrival g with done := false, h := 0, hset := [] } else w
        match w.wait with
        | .barrier x len => if x = g then w.next len else w
        | _ => w
      else w }

/-- After an arrival or an end: a phase that every member has reached completes at once, unless DEV is set (R223). -/
def State.barCheck (s : State) (cord g : Nat) : State :=
  match s.barSlot cord g with
  | none => s
  | some b => if s.phaseFull cord g && !b.dev then s.completePhase cord g else s

/-- The horizons of a DEV phase are final, and the largest (R223 step 1). -/
def State.devHorizon (s : State) (cord g : Nat) : Option Nat :=
  (s.members cord g).foldl (fun t i => match t, s.member cord i with
    | none, _ => none
    | some t, none => some (max t ((((s.cordAt cord).bind fun c => c.ended.find? fun x => x.1 == i).map fun x => x.2).getD 0))
    | some t, some w =>
      if w.wait = .ended then (if w.endSet.isEmpty then some (max t w.endH) else none)
      else let a := w.arrival g; if a.hset.isEmpty then some (max t a.h) else none) (some 0)

/-- BAR_DRAIN_COMPLETE (R223). -/
def execBarDrainComplete (cord g : Nat) (s : State) : Out :=
  match s.barSlot cord g, s.devHorizon cord g with
  | some b, some t => .next (if b.dev && s.phaseFull cord g && decide (t ≤ s.time) then s.completePhase cord g else s)
  | _, _ => .next s

/-! ### The instructions (R224, R226) -/

/-- The checks of R226 in their order. -/
def State.barTrap (s : State) (w : Wave) (g : Nat) (isWait : Bool) : Option (Nat × Word64) :=
  let c := s.cordOf w
  let e := c.group g
  if c.kernel.groups.length ≤ g ∨ (grpList e).isEmpty ∨ grpKind e = 1 ∨ ¬ (grpList e).contains w.index then
    some (0x39, BitVec.ofNat 64 (g % 256))
  else match w.partialOn with
    | some h =>
      if h ≠ g then some (0x38, BitVec.ofNat 64 (h + 256 * (g % 256)))
      else if isWait then some (0x38, BitVec.ofNat 64 (g + 256 * (g % 256)))
      else none
    | none => none

def State.barGroup (s : State) (w : Wave) (f : Fields) : Nat :=
  match f.fmt with | .w96 i => i.toNat | _ => (s.readS w (.int 32) f.a).toNat

/-- An arrival (R224), which is a release at core scope (R227): `waits` is the wait step of BAR and BAR.DEV. -/
def State.arrive (s : State) (w : Wave) (f : Fields) (g : Nat) (waits dev : Bool) : Out :=
  let a := w.arrival g
  if a.done || !s.releasedAt w 0 then s.stall
  else
    let arr := a.arr ||| w.exec
    if arr ≠ w.live then s.finish f fun w => w.setArrival { a with arr := arr }
    else
      let s := s.modMe fun w => w.setArrival { group := g, arr := 0, done := true, h := w.horizon, hset := w.watch }
      let s := if dev then s.modCord w.cord fun c => { c with
          bars := modWhere c.bars (fun b => b.group == g) fun b => { b with dev := true } } else s
      let s := if waits then s.modMe fun w => { w with wait := .barrier g (fieldsBytes f) }
        else s.modMe fun w => w.commit f
      .next (s.barCheck w.cord g)

/-- BAR and its forms (R226). -/
def State.barrier (s : State) (i : Instr) (f : Fields) (waits dev : Bool) : Out :=
  s.front i f .dest false fun s w =>
    let g := s.barGroup w f
    match s.barTrap w g false with
    | some (c, info) => s.trap c w.exec info
    | none => s.arrive w f g waits dev

/-- BAR (R224, R226). -/
def execBar (f : Fields) (s : State) : Out := s.barrier (.bar f) f true false
/-- BAR.ARV (R226). -/
def execBarArv (f : Fields) (s : State) : Out := s.barrier (.barArv f) f false false
/-- BAR.DEV (R226). -/
def execBarDev (f : Fields) (s : State) : Out := s.barrier (.barDev f) f true true

/-- BAR.WAIT (R226). -/
def execBarWait (f : Fields) (s : State) : Out :=
  s.front (.barWait f) f .dest false fun s w =>
    let g := s.barGroup w f
    match s.barTrap w g true with
    | some (c, info) => s.trap c w.exec info
    | none =>
      if (w.arrival g).done then .next (s.modMe fun w => { w with wait := .barrier g (fieldsBytes f) })
      else s.finish f id

/-! ### The end of a wave (R137, R160, R219, R225) -/

/-- A gather that waits in a cord is given up: its readers are withdrawn and its waves execute their MMA again (R346). -/
def State.dropGather (s : State) (cord g : Nat) : State :=
  let left := (((s.cordAt cord).getD default).gathers.filter fun x => x.group == g).flatMap fun x => x.members
  let s := left.foldl (fun s m => s.reader m.wave m.f (· - 1)) s
  let s := s.modCord cord fun c => { c with gathers := modWhere c.gathers (fun x => x.group == g) fun x => { x with members := [] } }
  { s with waves := modWhere s.waves (fun w => w.cord == cord && w.wait == .gather g) fun w => { w with wait := .stalled } }

/-- The gather of a cord's group. -/
def State.gatherOf (s : State) (cord g : Nat) : Gather :=
  (((s.cordAt cord).bind fun c => c.gathers.find? fun x => x.group == g)).getD ⟨g, [], none, []⟩
def State.setGather (s : State) (cord : Nat) (x : Gather) : State :=
  s.modCord cord fun c => { c with gathers := (c.gathers.filter fun y => y.group != x.group) ++ [x] }

/-- A gather breaks, for the member of %waveid i (R347): nothing is performed, and the waves blocked in it raise
QUARTET_BROKEN. What broke it first is what it reports. -/
def State.breakGather (s : State) (cord g i : Nat) : State :=
  let x := s.gatherOf cord g
  let hit := x.members.filterMap fun m => (s.waveAt m.wave).map fun w => w.index
  (s.dropGather cord g).setGather cord { x with members := [], broken := some (x.broken.getD i), hit := x.hit ++ hit }

/-- The wave has ended: its end horizon is formed (R223), a stop request for it is cancelled (R446), its barriers are
checked, and gathers that wait for it break (R347). -/
def State.endWave (s : State) (id : WaveId) : State :=
  match s.waveAt id with
  | none => s
  | some w =>
    let s := s.modWave id fun w => { w with wait := .ended, live := 0, endH := w.horizon, endSet := w.watch }
    let s := s.cancelStop id
    let groups := (List.range (s.cordOf w).kernel.groups.length).filter fun g => (s.members w.cord g).contains w.index
    groups.foldl (fun s g =>
      (if grpKind ((s.cordOf w).group g) = 1 then s.breakGather w.cord g w.index else s).barCheck w.cord g) s

/-- EXIT (R160, R225, R290, R355). -/
def execExit (f : Fields) (s : State) : Out :=
  s.front (.exit f) f .dest false fun s w =>
    let left := w.live &&& ~~~w.exec
    let split := match w.partialOn with
      | some g => if left &&& ~~~(w.arrival g).arr = 0 then some g else none
      | none => none
    if w.exec = 0 then s.finish f id
    else match split with
      | some g => s.trap 0x38 w.exec (BitVec.ofNat 64 (g + 65536))
      | none =>
        let shrink := fun (w : Wave) =>
          { { w with live := left }.setK 0 (w.exec &&& left) with arrivals := w.arrivals.map fun a => { a with arr := a.arr &&& left } }
        if left = 0 then s.copyWait w (fun _ => true) fun s => s.fillWait w fun s =>
          .next ((s.modMe shrink).endWave w.id)
        else s.finish f shrink

end Sys2Proof.Machine
end

