-- ==== Sys2Proof/Machine/Falcon.lean ====
section
/-! DEFINITION. SHAKE256 and the verification of a Falcon-1024 signature, which boot and attestation name (spec/21_kindling.md
R430, R431, R433): those of FIPS 202 and of the Falcon specification, which the manual does not restate (PRESUMED, log 12). -/

namespace Sys2Proof.Machine

/-! ### SHAKE256 -/

/-- Rotation amounts, by x + 5y. -/
def keccakRho : List Nat :=
  [0, 1, 62, 28, 27, 36, 44, 6, 55, 20, 3, 10, 43, 25, 39, 41, 45, 15, 21, 8, 18, 2, 61, 56, 14]
/-- Round constants. -/
def keccakRc : List Word64 :=
  [0x1, 0x8082, 0x800000000000808A, 0x8000000080008000, 0x808B, 0x80000001, 0x8000000080008081, 0x8000000000008009, 0x8A, 0x88,
   0x80008009, 0x8000000A] ++
  [0x8000808B, 0x800000000000008B, 0x8000000000008089, 0x8000000000008003, 0x8000000000008002, 0x8000000000000080, 0x800A,
   0x800000008000000A, 0x8000000080008081, 0x8000000000008080, 0x80000001, 0x8000000080008008]

def keccakRound (a : List Word64) (rc : Word64) : List Word64 :=
  let g := fun (l : List Word64) (i : Nat) => l.getD i 0
  let c := tabulate 5 fun x => g a x ^^^ g a (x + 5) ^^^ g a (x + 10) ^^^ g a (x + 15) ^^^ g a (x + 20)
  let d := tabulate 5 fun x => g c ((x + 4) % 5) ^^^ (g c ((x + 1) % 5)).rotateLeft 1
  let a := tabulate 25 fun i => g a i ^^^ g d (i % 5)
  let b := tabulate 25 fun i =>
    let src := (i % 5 + 3 * (i / 5)) % 5 + 5 * (i % 5)
    (g a src).rotateLeft (keccakRho.getD src 0)
  let a := tabulate 25 fun i =>
    g b i ^^^ (~~~(g b ((i + 1) % 5 + 5 * (i / 5))) &&& g b ((i + 2) % 5 + 5 * (i / 5)))
  a.set 0 (g a 0 ^^^ rc)

def keccak (a : List Word64) : List Word64 := keccakRc.foldl keccakRound a

/-- The blocks of 136 bytes absorbed one after another. -/
def absorb : Nat → List Word64 → List Byte → List Word64
  | 0, a, _ => a
  | n + 1, a, bs => absorb n (keccak (tabulate 25 fun i => a.getD i 0 ^^^ (if i < 17 then BitVec.ofNat 64 (numAt bs (8 * i) 8) else 0)))
      (bs.drop 136)

/-- The state of SHAKE256 once a message is absorbed. -/
def shakeState (m : List Byte) : List Word64 :=
  let blocks := m.length / 136 + 1
  let pad := (0x1F : Byte) :: List.replicate (136 * blocks - m.length - 1) 0
  let padded := m ++ pad
  let last := 136 * blocks - 1
  let padded := padded.set last (padded.getD last 0 ||| 0x80)
  absorb blocks (List.replicate 25 0) padded

/-- The 136 bytes that a state gives. -/
def shakeBlock (a : List Word64) : List Byte := ((a.take 17).flatMap fun (w : Word64) => bytesOfNat 8 w.toNat)

/-- SHAKE256 of a message, 64 bytes. -/
def shake256 (m : List Byte) : List Byte := (shakeBlock (shakeState m)).take 64

/-! ### Falcon-1024 -/

/-- The modulus and the bound on the square of a signature's norm. -/
def falconQ : Nat := 12289
def falconBound : Nat := 70265242

/-- Candidates of 16 bits, most significant byte first, below 5 q, reduced. -/
def falconPoints : List Byte → List Nat
  | a :: b :: r =>
    let t := a.toNat * 256 + b.toNat
    if t < 5 * falconQ then t % falconQ :: falconPoints r else falconPoints r
  | _ => []

/-- The point of a message: 1,024 coefficients out of the stream of SHAKE256; the fuel bounds the blocks drawn. -/
def falconHash : Nat → List Word64 → List Nat → List Nat
  | 0, _, acc => acc
  | n + 1, a, acc =>
    if 1024 ≤ acc.length then acc.take 1024 else falconHash n (keccak a) (acc ++ falconPoints (shakeBlock a))

/-- The bits of bytes, the most significant first. -/
def bitsOf (l : List Byte) : List Bool := l.flatMap fun b => (List.range 8).map fun i => b.getLsbD (7 - i)
/-- The number that bits write, the most significant first. -/
def natOfBits (l : List Bool) : Nat := l.foldl (fun n b => 2 * n + (if b then 1 else 0)) 0

/-- The coefficients of a public key: n of 14 bits each, below q. -/
def falconKey : Nat → List Bool → Option (List Nat)
  | 0, _ => some []
  | n + 1, l =>
    let v := natOfBits (l.take 14)
    if falconQ ≤ v then none else (falconKey n (l.drop 14)).map fun r => v :: r

/-- The coefficients of a compressed signature: a sign, seven bits and a unary rest; what is left is zero, and no zero is
negative. -/
def falconSig : Nat → List Bool → Option (List Int)
  | 0, l => if l.any id then none else some []
  | n + 1, l =>
    let neg := l.headD false
    let low := natOfBits ((l.drop 1).take 7)
    let tail := l.drop 8
    let high := (tail.takeWhile fun b => !b).length
    let v := 128 * high + low
    if tail.length ≤ high ∨ (neg ∧ v = 0) then none
    else (falconSig n (tail.drop (high + 1))).map fun r => (if neg then -(v : Int) else v) :: r

/-- The product in the ring of polynomials modulo x^1024 + 1 and q, coefficient by coefficient. -/
def falconMul (a : List Int) (b : List Nat) : List Nat :=
  tabulate 1024 fun k =>
    let t := (List.range 1024).foldl (fun (t : Int) i =>
      let x := a.getD i 0 * (b.getD ((1024 + k - i) % 1024) 0 : Int)
      if i ≤ k then t + x else t - x) 0
    (t % (falconQ : Int)).toNat

/-- A residue as the integer nearest zero. -/
def falconCentred (x : Nat) : Int := if 2 * x < falconQ then x else (x : Int) - falconQ

/-- Whether a signature of a message verifies under a public key: key and signature as R430 places them, the signature's 40
bytes of nonce before its coefficients. -/
def falconValid (key sig msg : List Byte) : Bool :=
  match falconKey 1024 (bitsOf (key.drop 1)), falconSig 1024 (bitsOf (sig.drop 41)) with
  | some h, some s2 =>
    let c := falconHash (2 ^ 20) (shakeState ((sig.drop 1).take 40 ++ msg)) []
    let p := falconMul s2 h
    let s1 := tabulate 1024 fun i => falconCentred ((c.getD i 0 + falconQ - p.getD i 0) % falconQ)
    let norm := (s1 ++ s2).foldl (fun (n : Nat) x => n + x.natAbs * x.natAbs) 0
    key.headD 0 == 0x0A && sig.headD 0 == 0x3A && decide (norm ≤ falconBound)
  | _, _ => false

end Sys2Proof.Machine
end

