-- ==== Sys2Proof/Machine/Tiles.lean ====
section
/-! DEFINITION. Explicit tiles (spec/16_tile.md R320 to R340): footprints, handle records, the directory, tenure requests,
grants, renewal and expiry, and the six tile instructions. -/

namespace Sys2Proof.Machine

/-! ### Footprints (R320, R321) -/

/-- A footprint as a handle record that is not yet open. -/
def footHandle (b : List Byte) (rlc wlc esz dims : Nat) : Handle :=
  { id := ⟨0, 0⟩, gen := 0, record := 0, view := false, orphan := false, ro := false, root := 0, rlc := rlc, wlc := wlc,
    esz := esz, dims := dims, base := numAt b 0 8, ext := tabulate 4 fun k => numAt b (8 + 2 * k) 2 + 1,
    stride := [2 ^ esz, numAt b 0x10 8, numAt b 0x18 8, numAt b 0x20 8], pages := [], dir := false, used := 0,
    tenures := [], reqs := [] }

/-- The last byte of a footprint, exact. -/
def Handle.lastByte (h : Handle) : Nat :=
  h.base + (h.ext.getD 1 1 - 1) * h.stride.getD 1 0 + (h.ext.getD 2 1 - 1) * h.stride.getD 2 0 +
    (h.ext.getD 3 1 - 1) * h.stride.getD 3 0 + h.rowLen - 1

/-- The footprint is valid (R321). -/
def footValid (b : List Byte) (h : Handle) : Bool :=
  let q := h.rowLen
  let e := fun k => h.ext.getD k 1
  let st := fun k => h.stride.getD k 0
  let need := fun k => if k = 1 then q else e (k - 1) * st (k - 1)
  canonical (BitVec.ofNat 64 h.base) && h.base % 32 == 0 && q % 32 == 0 && zeroAt b 0x28 24 &&
  (([1, 2, 3] : List Nat).all fun k =>
    if k < h.dims then st k % 32 == 0 && decide (need k ≤ st k) else e k == 1 && st k == 0) &&
  decide (h.lastByte < 2 ^ 64) && canonical (BitVec.ofNat 64 h.lastByte)

/-- The sectors of a footprint, by virtual address. -/
def Handle.sectors (h : Handle) : List Nat := h.rows.flatMap fun r => tabulate (h.rowLen / 32) fun i => r + 32 * i
/-- Every byte of one footprint lies in another; some byte does. -/
def Handle.inside (h r : Handle) : Bool := h.sectors.all fun va => footHas r va
def Handle.meets (h r : Handle) : Bool := h.sectors.any fun va => footHas r va
/-- Some physical byte of a footprint lies in another. -/
def Handle.meetsPhys (h r : Handle) : Bool :=
  h.sectors.any fun va => match h.physAt va with | some pa => (handleVa r pa).isSome | none => false

/-! ### Handles (R322, R323) -/

def Handle.value (h : Handle) : Word := BitVec.ofNat 32 (h.id.index + 65536 * h.gen)
/-- The open record that a handle names; none when it is stale. -/
def State.openHandle (s : State) (tag : Nat) (h : Word) : Option Handle :=
  s.handles.find? fun x => decide (x.id = ⟨tag, h.toNat % 65536⟩) && decide (x.gen = h.toNat / 65536)
/-- The root of an open handle. -/
def State.rootHandle (s : State) (h : Handle) : Handle := (s.handle ⟨h.id.tag, h.root⟩).getD h
/-- The lowest closed index of a context. -/
def State.closedIndex (s : State) (tag : Nat) : Option Nat :=
  (List.range 65536).find? fun i => !s.handles.any fun h => decide (h.id = ⟨tag, i⟩)
/-- The open views of a root. -/
def State.viewsOf (s : State) (r : RootId) : List Handle :=
  s.handles.filter fun h => h.view && decide (h.id.tag = r.tag) && h.root == r.index
def nextGen (g : Nat) : Nat := if g = 0xFFFF then 1 else g + 1

/-- The bytes of a record (R323). -/
def State.recordOf (s : State) (h : Handle) : List Byte :=
  let (e, c) := s.leaseOf (.root h.id)
  bytesOfNat 8 h.base ++ ((List.range 4).flatMap fun k => bytesOfNat 2 (h.ext.getD k 1 - 1)) ++
  bytesOfNat 8 (h.stride.getD 1 0) ++ bytesOfNat 8 (h.stride.getD 2 0) ++ bytesOfNat 8 (h.stride.getD 3 0) ++
  bytesOfNat 2 (h.rlc + 8 * h.wlc + 64 * h.esz + 512 * (h.dims - 1)) ++ bytesOfNat 2 h.gen ++
  bytesOfNat 1 1 ++ bytesOfNat 1 ((if h.view then 1 else 0) + (if h.orphan then 2 else 0) + (if h.ro then 4 else 0)) ++
  bytesOfNat 2 h.root ++ bytesOfNat 4 (s.viewsOf h.id).length ++ bytesOfNat 4 0 ++ bytesOfNat 8 e ++ bytesOfNat 8 c ++
  List.replicate 56 0
/-- A record written by the hardware at its kept physical address. -/
def State.writeRecord (s : State) (h : Handle) : State := (s.physStore h.id.tag h.record (s.recordOf h)).2
/-- NVIEWS of a root written. -/
def State.writeViews (s : State) (r : RootId) : State :=
  match s.handle r with
  | some h => (s.physStore r.tag (h.record + 0x30) (bytesOfNat 4 (s.viewsOf r).length)).2
  | none => s

/-! ### The directory (R324) -/

/-- A directory entry is evicted: every tenure ends as by expiry, and E and CLAST go to the record. -/
def State.evict (s : State) (h : Handle) : State :=
  let s := h.tenures.foldl (fun s t => s.endTenure h.id t.core) s
  let (e, c) := s.leaseOf (.root h.id)
  let s := (s.physStore h.id.tag (h.record + 0x38) (bytesOfNat 8 e ++ bytesOfNat 8 c)).2
  s.modHandle h.id fun h => { h with dir := false }

/-- The least recently used entry of a slice that holds more than 2,048 and whose request queue is empty. -/
def State.dirVictim (s : State) : Option Handle :=
  let ds := s.handles.filter fun h => !h.view && h.dir
  if ds.length ≤ 2048 then none
  else (List.range 64).findSome? fun k =>
    let mine := ds.filter fun h => h.home.val == k
    if mine.length ≤ 2048 then none
    else
      let free := mine.filter fun h => h.reqs.isEmpty
      let low := (free.map fun h => h.used).foldl Nat.min s.serial
      free.find? fun h => decide (h.used ≤ low)

/-- Entries evicted until no slice holds more than 2,048. -/
def State.evictLoop : Nat → State → State
  | 0, s => s
  | n + 1, s => match s.dirVictim with | some h => State.evictLoop n (s.evict h) | none => s

/-- After a turn, a slice keeps at most 2,048 entries. -/
def State.fitDirectory (s : State) : State := State.evictLoop s.handles.length s

/-! ### Tenure (R325 to R329) -/

def Handle.len (h : Handle) (m : TenMode) : Nat := leaseNs (match m with | .r => h.rlc | .w => h.wlc)
/-- A mode excludes a request of another core. -/
def TenMode.excludes (held req : TenMode) : Bool := held == .w || req == .w
/-- A request contends the tenures of other cores that exclude it (R326, R328). -/
def Handle.contendReq (h : Handle) (core : Nat) (m : TenMode) : Handle :=
  { h with tenures := modWhere h.tenures (fun t => t.core != core && t.mode.excludes m) fun t => { t with contended := true } }

/-- The head of a root's requests may be granted (R328): E is counted without the core's own tenure. -/
def State.mayGrant (s : State) (h : Handle) : Bool :=
  match h.reqs with
  | [] => false
  | q :: _ => match q.mode with
    | .r => h.tenures.all fun t => t.core == q.core || t.mode == .r
    | .w =>
      let e := ((s.leases.find? fun l => l.tile == .root h.id).map fun l => l.e).getD 0
      (h.tenures.all fun t => t.core == q.core) && decide (e < s.time)

/-- The core's tenure after a grant of a mode. -/
def Handle.grant (h : Handle) (core : Nat) (m : TenMode) (now : Nat) : Handle :=
  let mode := if h.tenures.any fun t => t.core == core && t.mode == .w then TenMode.w else m
  { h with tenures := (h.tenures.filter fun t => t.core != core) ++ [⟨core, mode, now + h.len mode, false⟩] }

/-- The cord's list records a held entry, in place of any entry for the root (R337). -/
def Cord.hold (c : Cord) (r : RootId) (m : TenMode) : Cord :=
  { c with tenures := (c.tenures.filter fun t => t.root != r) ++ [⟨r, m, none⟩] }

/-- A restored cord holds an entry again in its place in the list (R112). -/
def Cord.rehold (c : Cord) (r : RootId) (m : TenMode) : Cord :=
  { c with reacq := c.reacq.drop 1, tenures := modWhere c.tenures (fun t => t.root == r) fun _ => ⟨r, m, none⟩ }

/-- A cord's wait for its head entry ends: the entry is held, and its waves go on once %time has reached CLAST. -/
def State.rehold (s : State) (uid : Nat) (r : RootId) (m : TenMode) (clast : Nat) : State :=
  let s := s.modCord uid fun c => c.rehold r m
  { s with waves := modWhere s.waves (fun w => w.cord == uid) fun w => { w with hold := max w.hold clast } }

/-- The slot that stands for a restored cord in a request: no wave has it. -/
def reacqId (core : Nat) : WaveId := ⟨core, Config.partitions, 0⟩

/-- One request is granted: tenure, the cord's entry, and the wave goes on once %time has reached CLAST (R328, R337). -/
def State.grantOne (s : State) (r : RootId) (q : TenReq) : State :=
  let clast := (s.leaseOf (.root r)).2
  let s := s.modHandle r fun h => { h.grant q.core q.mode s.time with
    reqs := h.reqs.drop 1, dir := true, used := s.serial }
  let s := s.modHandle r fun h => h.reqs.foldl (fun h x => h.contendReq x.core x.mode) h
  if q.wave.part = Config.partitions then s.rehold q.cord r q.mode clast
  else
  let s := s.modCord q.cord fun c => c.hold r q.mode
  s.modWave q.wave fun w => match w.wait with
    | .tile x d len => if x = r then { (w.putS d 0).next len with hold := max w.hold clast } else w
    | _ => w

/-- Requests granted from the head while they may be: a request for R with those for R directly behind it, or one for W. -/
def State.grantLoop (r : RootId) : Nat → State → State
  | 0, s => s
  | n + 1, s =>
    match s.handle r with
    | none => s
    | some h =>
      match h.reqs with
      | [] => s
      | q :: _ =>
        if !s.mayGrant h then s
        else
          let s := s.grantOne r q
          if q.mode = .r then State.grantLoop r n s else s

/-- TENURE_GRANT (R328). -/
def execTenureGrant (r : RootId) (s : State) : Out :=
  .next (State.grantLoop r (((s.handle r).map fun h => h.reqs.length).getD 0) s)

/-- The tenure's expiry lies within half a lease length (R326). -/
def Handle.nearExpiry (h : Handle) (t : Tenure) (now : Nat) : Bool :=
  !t.contended && decide (2 * t.expiry ≤ 2 * now + h.len t.mode)

/-- TENURE_RENEW (R326). -/
def execTenureRenew (r : RootId) (core : Nat) (s : State) : Out :=
  .next (s.modHandle r fun h => { h with
    tenures := modWhere h.tenures (fun t => t.core == core && h.nearExpiry t s.time) fun t => { t with expiry := s.time + h.len t.mode } })

/-- TENURE_EXPIRY (R327). -/
def execTenureExpiry (r : RootId) (core : Nat) (s : State) : Out :=
  match s.handle r with
  | some h =>
    .next (if h.tenures.any fun t => t.core == core && t.contended && decide (t.expiry ≤ s.time) then s.endTenure r core else s)
  | none => .next s

/-- The next entry that a restored cord has to acquire (R112): an orphaned root's stays lapsed; one that the core holds
strongly enough is held at once; otherwise a request waits as TILE.ACQ's. -/
def State.reacquire (s : State) (c : Cord) : State :=
  match c.reacq with
  | [] => s
  | (r, m) :: _ =>
    let skip := s.modCord c.uid fun c => { c with reacq := c.reacq.drop 1 }
    match s.handle r with
    | none => skip
    | some h =>
      if h.orphan then skip
      else if h.tenures.any fun t => t.core == c.core && (t.mode == TenMode.w || t.mode == m) then
        s.rehold c.uid r m (s.leaseOf (.root r)).2
      else if (h.reqs.any fun q => q.cord == c.uid) || (!h.dir && s.sliceFull h.home) then s
      else s.modHandle r fun h => { h.contendReq c.core m with
        reqs := h.reqs ++ [⟨reacqId c.core, c.uid, c.core, m⟩], dir := true, used := s.serial }

/-! ### TILE.OPEN (R335) -/

/-- The pages of a footprint in address order, checked as reads: a status, or the pages and whether one lacks W. -/
def State.openPages (w : Wave) : List Nat → Nat → List (Nat × Nat × Nat) → Bool → State →
    State × Acc (Except Nat (List (Nat × Nat × Nat) × Bool))
  | [], _, pages, ro, s => (s, .ok (.ok (pages, ro)))
  | va :: rest, upto, pages, ro, s =>
    if va < upto then State.openPages w rest upto pages ro s
    else if !canonical (BitVec.ofNat 64 va) then (s, .ok (.error 4))
    else match s.walkBy w.unit (s.tagOf w) va with
    | (none, s) => (s, .bad)
    | (some e, s) =>
      let shown := e.kind == .leaf || e.kind == .anon
      if shown && ptePool e.entry then (s, .ok (.error 3))
      else if shown && pteCache e.entry != 0 then (s, .ok (.error 5))
      else match s.translate w.unit (s.tagOf w) w.die w.sup 0 va with
        | (.fault c _, s) => (s, .ok (.error (if c = 0x22 then 15 else 4)))
        | (.bad, s) => (s, .bad)
        | (.wait, s) => (s, .wait)
        | (.ok pa x, s) =>
          let size := szBytes (pteSz x)
          let first := va - va % size
          State.openPages w rest (first + size) (pages ++ [(first, pa - va % size, size)]) (ro || !pteW x) s

/-- The lease tiles that hold a footprint's bytes while it is not open: grains of its pages' GRAIN (R234). -/
def State.grainTiles (s : State) (h : Handle) : List LeaseTile :=
  (h.pages.flatMap fun p =>
    let g := grainBytes (pteGrain (s.walk h.id.tag p.1).entry)
    (h.sectors.filter fun va => decide (p.1 ≤ va) && decide (va < p.1 + p.2.2)).map fun va =>
      let pa := p.2.1 + (va - p.1)
      LeaseTile.grain (pa - pa % g) g).eraseDups

/-- The record of a new view or root (R323, R333, R335): the status with it. A root needs a directory entry (R324). -/
def State.openRecord (s : State) (h : Handle) (i : Nat) : State × Acc (Nat × Handle) :=
  let tag := h.id.tag
  let roots := s.handles.filter fun r => !r.view
  let mine := roots.filter fun r => decide (r.id.tag = tag)
  let inside := mine.find? fun r => !r.orphan && h.inside r
  if mine.any fun r => h.meets r && (r.orphan || !h.inside r) then (s, .ok (2, h))
  else if roots.any fun r => (inside.map fun x => x.id) != some r.id && h.meetsPhys r then (s, .ok (8, h))
  else
    let gen := nextGen (natOfBytes (s.latestBytes (h.record + 0x2A) 2))
    match inside with
    | some r =>
      let h := { h with gen := gen, view := true, root := r.id.index }
      let s := { s with handles := s.handles ++ [h] }
      ((s.writeRecord h).writeViews r.id, .ok (1, h))
    | none =>
      if s.sliceFull h.home then (s, .wait)
      else
        let h := { h with gen := gen, root := i, dir := true, used := s.serial }
        let times := (s.grainTiles h).map s.leaseOf
        let e := (times.map fun x => x.1).foldl max 0
        let c := (times.map fun x => x.2).foldl max 0
        let s := { s with handles := s.handles ++ [h] }
        let s := s.modLease (.root h.id) fun _ => ⟨.root h.id, e, c⟩
        (s.writeRecord h, .ok (0, h))

/-- TILE.OPEN after its descriptor has been read: the status order of R335. -/
def State.tileOpen (s : State) (w : Wave) (b : List Byte) (h : Handle) : State × Acc (Nat × Handle) :=
  let tag := s.tagOf w
  if !footValid b h then (s, .ok (7, h))
  else match s.closedIndex tag with
    | none => (s, .ok (6, h))
    | some i =>
      match s.translate w.unit tag w.die true 1 ((s.ctx tag).htable + 128 * i) with
      | (.fault _ _, s) => (s, .ok (14, h))
      | (.bad, s) => (s, .bad)
      | (.wait, s) => (s, .wait)
      | (.ok rec _, s) =>
        andThen (State.openPages w h.sectors 0 [] false s) fun s r =>
          match r with
          | .error st => (s, .ok (st, h))
          | .ok (pages, ro) => s.openRecord { h with pages := pages, ro := ro, record := rec, id := ⟨tag, i⟩ } i

/-- TILE.OPEN (R335). -/
def execTileOpen (f : Fields) (s : State) : Out :=
  s.front (.tileOpen f) f .dest false fun s w =>
    State.take (s.waveLoad w w.sup (s.readS w (.int 64) f.a).toNat 64 0) 0 fun s b =>
      State.take (s.tileOpen w b (footHandle b (f.ebits 2 0) (f.ebits 5 3) (f.ebits 8 6) (f.ebits 10 9 + 1))) 0 fun s r =>
        s.finish f fun w => w.putS f.d (pair32 (if r.1 ≤ 1 then r.2.value else 0) (BitVec.ofNat 32 r.1))

/-! ### TILE.CLOSE (R336) -/

/-- An entry of a cord's list, resident or saved, names a root. -/
def State.anyEntry (s : State) (r : RootId) : Bool :=
  (s.cords.any fun c => c.tag == r.tag && c.tenures.any fun t => t.root == r) ||
  s.ctxs.any fun c => c.tag == r.tag && c.images.any fun m => m.cord.tenures.any fun t => t.root == r

/-- A record is closed. -/
def State.dropHandle (s : State) (h : Handle) : State :=
  let s := if h.view || h.orphan then s else s.passRoot h
  let s := { s with handles := s.handles.filter fun x => x.id != h.id
                    leases := if h.view then s.leases else s.leases.filter fun (l : Lease) => l.tile != LeaseTile.root h.id }
  (s.physStore h.id.tag (h.record + 0x2C) [0]).2

/-- TILE.CLOSE of an open handle: its status and effect. -/
def State.tileClose (s : State) (h : Handle) : Nat × State :=
  if h.view then (0, (s.dropHandle h).writeViews ⟨h.id.tag, h.root⟩)
  else if !(s.viewsOf h.id).isEmpty then (10, s)
  else if s.anyEntry h.id || !h.reqs.isEmpty then (9, s)
  else (0, s.dropHandle h)

/-- The handle of an instruction, or TILE_STALE (R334). -/
def State.withHandle (s : State) (w : Wave) (f : Fields) (k : Handle → Out) : Out :=
  let v := lo32 (s.readS w (.int 32) f.a)
  match s.openHandle (s.tagOf w) v with
  | none => s.trap 0x30 w.exec (v.setWidth 64)
  | some h => k h

/-- TILE.CLOSE (R336). -/
def execTileClose (f : Fields) (s : State) : Out :=
  s.front (.tileClose f) f .dest false fun s w =>
    s.withHandle w f fun h =>
      let (st, s) := s.tileClose h
      s.finish f fun w => w.putS f.d (BitVec.ofNat 64 st)

/-! ### TILE.ACQ and TILE.REL (R337, R338) -/

/-- TILE.ACQ (R337). -/
def execTileAcq (f : Fields) (s : State) : Out :=
  s.front (.tileAcq f) f .dest false fun s w =>
    s.withHandle w f fun h =>
      let r := s.rootHandle h
      let c := s.cordOf w
      let m : TenMode := if f.m = 1 then .w else .r
      let mine := c.tenures.find? fun t => t.root == r.id
      let held := match mine with | some t => t.lapsed.isNone && (t.mode == TenMode.w || t.mode == m) | none => false
      let done := fun (s : State) (x : Nat) => s.finish f fun w => w.putS f.d (BitVec.ofNat 64 x)
      if r.orphan then s.trap 0x31 w.exec ((lo32 (s.readS w (.int 32) f.a)).setWidth 64)
      else if held then done s 0
      else if m = TenMode.w ∧ r.ro then done s 12
      else if 32 ≤ c.tenures.length ∧ mine.isNone then done s 13
      else if r.tenures.any fun t => t.core == w.core && (t.mode == TenMode.w || t.mode == m) then
        let clast := (s.leaseOf (.root r.id)).2
        (s.modCord w.cord fun c => c.hold r.id m).finish f fun w => { w.putS f.d 0 with hold := max w.hold clast }
      else if !r.dir && s.sliceFull r.home then s.stall
      else
        let s := s.modHandle r.id fun h => { h.contendReq w.core m with
          reqs := h.reqs ++ [⟨w.id, w.cord, w.core, m⟩], dir := true, used := s.serial }
        .next (s.modMe fun w => { w with wait := .tile r.id f.d (fieldsBytes f) })

/-- TILE.REL (R338). -/
def execTileRel (f : Fields) (s : State) : Out :=
  s.front (.tileRel f) f .dest false fun s w =>
    s.withHandle w f fun h =>
      let r := s.rootHandle h
      let c := s.cordOf w
      match c.tenures.find? fun t => t.root == r.id with
      | none => s.trap 0x32 w.exec ((lo32 (s.readS w (.int 32) f.a)).setWidth 64)
      | some e =>
        if !(s.unreleasedOf w.id).isEmpty then s.stall
        else
        let (t, s) := s.releaseEntry c e
        s.finish f fun w => w.raise t

/-! ### TILE.SPLIT and TILE.QRY (R339, R340) -/

/-- A footprint keeps the pages that hold a byte of it. -/
def Handle.trim (h : Handle) : Handle :=
  { h with pages := h.pages.filter fun p => h.rows.any fun r => decide (p.1 < r + h.rowLen) && decide (r < p.1 + p.2.2) }

/-- The two parts of a root cut at an index of an axis. -/
def Handle.cut (h : Handle) (k ix : Nat) : Handle × Handle :=
  let e := h.ext.getD k 1
  ({ h with ext := h.ext.set k ix, gen := nextGen h.gen }.trim,
   { h with ext := h.ext.set k (e - ix), base := h.base + ix * h.stride.getD k 0 }.trim)

/-- The status of TILE.SPLIT, in the order of R339. -/
def State.splitStatus (s : State) (w : Wave) (h : Handle) (k ix : Nat) : Nat :=
  let own := fun (t : TenEntry) => t.root == h.id && t.mode == .w && t.lapsed.isNone
  let (p0, p1) := h.cut k ix
  let mine := (s.cordOf w).tenures.any own
  let others := s.cords.any fun c => c.tag == h.id.tag && c.tenures.any fun t => t.root == h.id && !(c.uid == w.cord && own t)
  let saved := s.ctxs.any fun c => c.tag == h.id.tag && c.images.any fun m => m.cord.tenures.any fun t => t.root == h.id
  if h.view then 10
  else if h.dims ≤ k ∨ ix = 0 ∨ h.ext.getD k 1 ≤ ix ∨ (k = 0 ∧ ix * 2 ^ h.esz % 32 ≠ 0) then 11
  else if h.orphan then 4
  else if !h.reqs.isEmpty || others || saved || (h.tenures.any fun t => !(t.core == w.core && mine)) then 9
  else if (s.viewsOf h.id).any fun v => !v.inside p0 && !v.inside p1 then 10
  else if (s.closedIndex h.id.tag).isNone ∨ (mine ∧ 32 ≤ (s.cordOf w).tenures.length) then 6
  else 0

/-- The effect of a successful TILE.SPLIT; none when the new record's address does not translate (log 19). The new root
needs a directory entry (R324). -/
def State.tileSplit (s : State) (w : Wave) (h : Handle) (k ix : Nat) : State × Acc (Option (Handle × Handle)) :=
  let tag := h.id.tag
  let i := (s.closedIndex tag).getD 0
  match s.translate w.unit tag w.die true 1 ((s.ctx tag).htable + 128 * i) with
  | (.fault _ _, s) => (s, .ok none)
  | (.bad, s) => (s, .bad)
  | (.wait, s) => (s, .wait)
  | (.ok rec _, s) =>
    let (p0, p1) := h.cut k ix
    if p1.dir && s.sliceFull p1.home then (s, .wait)
    else
    let gen := nextGen (natOfBytes (s.latestBytes (rec + 0x2A) 2))
    let p1 := { p1 with id := ⟨tag, i⟩, gen := gen, record := rec, root := i }
    let moved := s.handles.map fun v =>
      if v.id = h.id then p0 else if v.view ∧ v.id.tag = tag ∧ v.root = h.id.index ∧ v.inside p1 then { v with root := i } else v
    let base := (s.leases.find? fun l => l.tile == .root h.id).getD ⟨.root h.id, 0, 0⟩
    let s := { s with
      handles := moved ++ [p1]
      leases := s.leases ++ [{ base with tile := .root p1.id }]
      cords := modWhere s.cords (fun c => c.uid == w.cord) fun c =>
        { c with tenures := c.tenures.flatMap fun (t : TenEntry) => if t.root = h.id then [t, { t with root := p1.id }] else [t] }
      dirty := s.dirty.flatMap fun (d : Dirty) =>
        if d.root = h.id then
          ([d.only fun a => (handleVa p0 a).isSome, { d.only fun a => (handleVa p1 a).isSome with root := p1.id }] : List Dirty).filter
            fun (d : Dirty) => !d.bytes.isEmpty
        else [d] }
    let s := (s.writeRecord p0).writeRecord p1
    let s := (s.viewsOf p1.id).foldl (fun s v => (s.physStore v.id.tag (v.record + 0x2E) (bytesOfNat 2 i)).2) s
    (s, .ok (some (p0, p1)))

/-- TILE.SPLIT (R339). -/
def execTileSplit (f : Fields) (s : State) : Out :=
  s.front (.tileSplit f) f .dest false fun s w =>
    s.withHandle w f fun h =>
      let k := f.mbits 1 0
      let ix := s.natB w f
      let fail := fun (s : State) (st : Nat) => s.finish f fun w => w.putS f.d (pair32 0 (BitVec.ofNat 32 st))
      match s.splitStatus w h k ix with
      | 0 => State.take (s.tileSplit w h k ix) 1 fun s r => match r with
        | some (p0, p1) => s.finish f fun w => w.putS f.d (pair32 p0.value p1.value)
        | none => fail s 6
      | st => fail s st

/-- The value of TILE.QRY for an open handle (R340). -/
def State.tileQuery (s : State) (w : Wave) (h : Handle) (sel : Nat) : Nat :=
  let r := s.rootHandle h
  let mine := r.tenures.find? fun t => t.core == w.core
  match sel with
  | 0 =>
    let entry := match (s.cordOf w).tenures.find? fun t => t.root == r.id with
      | none => 0
      | some t => if t.lapsed.isSome then 3 else if t.mode = .w then 2 else 1
    1 + (if h.view then 2 else 0) + (if r.orphan then 4 else 0) + (if h.ro then 8 else 0) + 16 * entry +
      (if mine.isSome then 64 else 0) + (if r.tenures.any fun t => t.contended then 128 else 0)
  | 1 => h.base
  | 2 => natOfBytes ((List.range 4).flatMap fun k => bytesOfNat 2 (h.ext.getD k 1 - 1))
  | 3 => r.value.toNat
  | _ => (mine.map fun t => t.expiry).getD 0

/-- TILE.QRY (R340): a stale handle reads as zero. -/
def execTileQry (f : Fields) (s : State) : Out :=
  s.front (.tileQry f) f .dest false fun s w =>
    let v := lo32 (s.readS w (.int 32) f.a)
    let x := match s.openHandle (s.tagOf w) v with | some h => s.tileQuery w h (f.mbits 2 0) | none => 0
    s.finish f fun w => w.putS f.d (BitVec.ofNat 64 x)

end Sys2Proof.Machine
end

