-- ==== Sys2Proof/Machine/QueueInstr.lean ====
section
/-! DEFINITION. Records, rings of user queues, join counters, and the instructions that produce and pull records
(spec/06_queue.md R117 to R128, spec/07_kernel.md R139 to R143). -/

namespace Sys2Proof.Machine

/-! ### Records (R120 to R122) -/

def recType (r : List Byte) : Nat := byteAt r 0
def recPrio (r : List Byte) : Nat := byteAt r 4 % 8
def recDepth (r : List Byte) : Nat := byteAt r 5
def recSerial (r : List Byte) : Bool := byteAt r 2 % 2 == 1
def recCode (r : List Byte) : Nat := numAt r 0x08 8
def recFrame (r : List Byte) : Nat := numAt r 0x10 8
def recJoin (r : List Byte) : Nat := numAt r 0x18 8
/-- GX, GY, GZ as 0, 1, 2. -/
def recG (r : List Byte) (i : Nat) : Nat := numAt r (0x20 + 4 * i) 4
/-- The number of cords C of a grid. -/
def recCount (r : List Byte) : Nat := recG r 0 * recG r 1 * recG r 2

/-- A stated version is read when its major is the negotiated one and its minor no higher (R97). -/
def versionOk (stated negotiated : Nat) : Bool :=
  stated / 16 == negotiated / 16 && decide (stated % 16 ≤ negotiated % 16)

/-- The extents that R121 requires to be 1. -/
def onesWanted (t : Nat) : List Nat := if t = 2 ∨ t = 3 then [0, 1, 2] else if t = 4 then [1, 2] else []

/-- The first failure among the checks that need no kernel descriptor, in the order of R122. -/
def recordReason (recver qprio : Nat) (r : List Byte) : Option Nat :=
  let t := recType r
  let can := fun (a : Nat) => canonical (BitVec.ofNat 64 a)
  if t = 0 ∨ 5 < t then some 0x01
  else if !versionOk (byteAt r 1) recver || (t == 4 && byteAt r 1 == 0x10) then some 0x02
  else if decide (1 < numAt r 2 2) || decide (7 < byteAt r 4) || !zeroAt r 6 2 || !zeroAt r 0x2C 16 ||
      (t == 3 && !(recCode r == 0 && recFrame r == 0)) then some 0x03
  else if recCount r == 0 || decide (2 ^ 32 < recCount r) || (onesWanted t).any fun i => recG r i != 1 then some 0x04
  else if qprio < recPrio r then some 0x09
  else if !can (recCode r) || !can (recFrame r) || !can (recJoin r) || recJoin r % 16 != 0 ||
      ((t == 1 || t == 2) && recCode r % 256 != 0) || (t == 5 && recFrame r % 256 != 0) then some 0x0A
  else none

/-- The slot that a queue is mapped onto. -/
def State.slotOf (s : State) (tag q : Nat) : Option Slot := s.slots.find? fun x => x.tag == tag && x.q == q

/-- A queue's PRIO: of its slot while it is mapped, else of its descriptor, where that translates (R114). -/
def State.queuePrioOf (s : State) (tag q : Nat) : Option Nat :=
  match s.slotOf tag q with
  | some x => some x.prio
  | none => (s.physOf tag (s.qDesc tag q + 8)).map fun pa => (s.homeByte pa).toNat / 32
/-- The same as the scheduler compares it; 0 where it cannot be read (log 28). -/
def State.queuePrio (s : State) (tag q : Nat) : Nat := (s.queuePrioOf tag q).getD 0

/-! ### Accesses of a wave or of the scheduler -/

/-- Who makes an access: the unit that translates it, its context and die, its state, and the agent of its writes. -/
structure Via where
  unit  : Nat
  tag   : Nat
  die   : Nat
  sup   : Bool
  agent : Agent
  core  : Option Nat
  deriving DecidableEq, Repr, Inhabited

def State.wavesVia (s : State) (w : Wave) : Via := ⟨w.unit, s.tagOf w, w.die, w.sup, .wave w.id, some w.core⟩
/-- The scheduler's own accesses to descriptors, rings and the save area (log 22). -/
def schedVia (tag : Nat) : Via := ⟨unitSched, tag, 0, true, .engine, none⟩
/-- The hardware's accesses to what a user names: join counters and successors, which a page with S = 1 refuses (R124, R305). -/
def userVia (tag : Nat) : Via := ⟨unitSched, tag, 0, false, .engine, none⟩

def State.viaLocate (s : State) (v : Via) (kind : Nat) (l : List (Nat × Nat)) : State × Acc (List (Nat × Nat × Word64)) :=
  s.locate v.unit v.tag v.die v.sup kind v.core l

/-- A device-scope load. -/
def State.viaLoad (s : State) (v : Via) (va n : Nat) : State × Acc (List Byte) :=
  andThen (s.viaLocate v 0 (piecesOf va n)) fun s l =>
    let s := s.useHome 0 l
    match v.agent with
    | .wave id =>
      let r := l.flatMap fun p => tabulate p.2.1 fun i => s.waveByte id (p.1 + i)
      (s.modWave id fun x => x.saw s (r.filterMap fun b => b.2).eraseDups, .ok (r.map fun b => b.1))
    | _ => (s, .ok (l.flatMap fun p => s.homeBytes p.1 p.2.1))

/-- What a core's L1 holds of a sector reaches home before a write that is made there (R238, R239, log 18). -/
def State.settle (s : State) (core : Option Nat) (sec : Nat) : State :=
  match core with
  | some c => (s.flushSector c sec).acceptSector c sec
  | none => s

/-- A store that is accepted at once: the ids of its writes. -/
def State.viaStore (s : State) (v : Via) (va : Nat) (bs : List Byte) : State × Acc (List Nat) :=
  andThen (s.viaLocate v 1 (piecesOf va bs.length)) fun s l =>
    let s := l.foldl (fun s p => s.settle v.core (sectorBase p.1)) s
    let (ids, s) := s.storePieces v.agent (some v.tag) v.core true l bs
    (s, .ok ids)

/-- The value that an atomic would find at home, without the atomic (R243). -/
def State.viaPeek (s : State) (v : Via) (va n : Nat) : State × Acc Nat :=
  andThen (s.viaLocate v 3 [(va, n)]) fun s l =>
    let pa := (l.headD default).1
    let s := s.settle v.core (sectorBase pa)
    let s := match v.agent with
      | .wave id => s.modWave id fun x => x.saw s (s.latestIds pa n)
      | _ => s
    (s, .ok (natOfBytes (s.latestBytes pa n)))

/-- An atomic read-modify-write at home (R243): the old value. -/
def State.viaAtomic (s : State) (v : Via) (va n : Nat) (f : Nat → Nat) : State × Acc Nat :=
  andThen (s.viaLocate v 3 [(va, n)]) fun s l =>
    let (pa, _, e) := l.headD default
    let s := (s.settle v.core (sectorBase pa)).useHome 0 l
    let old := natOfBytes (s.latestBytes pa n)
    let s := match v.agent with
      | .wave id => s.modWave id fun x => x.saw s (s.latestIds pa n)
      | _ => s
    let (_, s) := s.putHome v.agent (some v.tag) v.core pa e (bytesOfNat n (f old))
    (s, .ok old)

/-! ### Rings of user queues (R117) -/

def descBase (d : List Byte) : Nat := numAt d 0 8
def descLog2 (d : List Byte) : Nat := byteAt d 8 % 32
def descHead (d : List Byte) : Nat := numAt d 0x18 8
def descPrio (d : List Byte) : Nat := byteAt d 8 / 32

/-- Where entry n of a ring lies (R114). -/
def ringVa (base log2 n : Nat) : Nat := base + 64 * (n % 2 ^ log2)
def entryVa (d : List Byte) (n : Nat) : Nat := ringVa (descBase d) (descLog2 d) n

/-- Records written to entries n, n + 1, …, each published with SEQ after its other bytes and after the entries before
it; the time by which the last is published. -/
def State.putEntries (v : Via) (d : List Byte) : List (List Byte) → Nat → Nat → State → State × Acc Nat
  | [], _, t, s => (s, .ok t)
  | r :: rest, n, t, s =>
    andThen (s.viaStore v (entryVa d n) (r.take 0x3C ++ bytesOfNat 4 (n + 1))) fun s ids =>
      let t := (ids.map s.ctimeOf).foldl max t
      State.putEntries v d rest (n + 1) t ((ids.drop 1).foldl (fun s i => s.notBefore t i) s)

/-- Records added to a ring whose next entry is `resv` (R117): every access is checked, then RESV advances, the entries
are published in order, and DOORBELL is stored. What is stored there is not said: a free value (log 11). -/
def State.ringAdd (s : State) (v : Via) (desc : Nat) (d : List Byte) (resv : Nat) (rs : List (List Byte)) :
    State × Acc Unit :=
  s.whole fun s => andThen (s.viaLocate v 1 ((List.range rs.length).flatMap fun i => piecesOf (entryVa d (resv + i)) 64)) fun s _ =>
  andThen (s.viaLocate v 1 [(desc + 0x20, 8)]) fun s _ =>
  andThen (s.viaAtomic v (desc + 0x10) 8 fun _ => resv + rs.length) fun s _ =>
  andThen (State.putEntries v d rs resv 0 s) fun s t =>
    let (x, s) := s.free
    andThen (s.viaStore v (desc + 0x20) (bytesOfNat 8 x.toNat)) fun s ids =>
      (ids.foldl (fun s i => s.notBefore t i) s, .ok ())

/-- A record added to a queue by the hardware: false when its ring is full. -/
def State.enqueue (s : State) (tag q : Nat) (r : List Byte) : State × Acc Bool :=
  let desc := s.qDesc tag q
  let v := schedVia tag
  andThen (s.viaLoad v desc 64) fun s d =>
  andThen (s.viaPeek v (desc + 0x10) 8) fun s resv =>
    if 2 ^ descLog2 d ≤ resv - descHead d then (s, .ok false)
    else andThen (s.ringAdd v desc d resv [r]) fun s _ => (s, .ok true)

/-! ### Join counters (R123, R124) -/

def joinCount (x : Nat) : Nat := x % 2 ^ 32
def joinQueue (x : Nat) : Nat := x / 2 ^ 32 % 2 ^ 16
def joinSucc (x : Nat) : Nat := x / 2 ^ 64
/-- STAT.UNDER and STAT.LOST as bits of the counter. -/
def joinSet (x bit : Nat) : Nat := if x / 2 ^ bit % 2 = 1 then x else x + 2 ^ bit

/-- A counter after a step by n (R124, R140). -/
def joinNew (inc : Bool) (n x : Nat) : Nat :=
  let c := joinCount x
  if inc then x - c + (c + n) % 2 ^ 32
  else
    let y := x - c + (c - n)
    if c < n then joinSet y 48 else y

/-- The step takes COUNT from a nonzero value to zero and names a successor. -/
def joinHits (inc : Bool) (n x : Nat) : Bool :=
  !inc && joinCount x != 0 && decide (joinCount x ≤ n) && joinSucc x != 0

/-- The successor of a counter: its record, or none when it is lost (R124). Where its queue's descriptor cannot be read,
no priority is too high (log 28). A SUCC that is not 64-byte aligned is read as it stands (DESIGN CHOICE, log 55). -/
def State.succRecord (s : State) (tag x : Nat) : State × Acc (Option (List Byte)) :=
  if (s.ctx tag).qcount ≤ joinQueue x then (s, .ok none)
  else match s.viaLoad (userVia tag) (joinSucc x) 64 with
    | (s, .fault _ _ _) => (s, .ok none)
    | (s, .ok r) =>
      (s, .ok (if (recordReason (s.ctx tag).recver.toNat ((s.queuePrioOf tag (joinQueue x)).getD 7) r).isSome then none else some r))
    | (s, .bad) => (s, .bad)
    | (s, .wait) => (s, .wait)

/-- What becomes of a successor (R124): it is lost, which STAT.LOST says by an access in the state of the counter's step, it enters
its queue, or it is held until the ring has room. A held
list of 4,096 entries on the counter's die makes the step wait. A successor whose queue's descriptor or ring does not
translate is held, as one whose ring is full (DESIGN CHOICE, log 54). -/
def State.releaseSucc (s : State) (tag : Nat) (sup : Bool) (counter pa x : Nat) (r : Option (List Byte)) : State × Acc Unit :=
  let die := homeDie pa
  match r with
  | none =>
    if !s.mayPost die then (s, .wait)
    else andThen (s.viaAtomic { userVia tag with sup := sup } counter 16 fun y => joinSet y 49) fun s _ =>
      (s.post die 3 tag (counter % 2 ^ 32) (counter / 2 ^ 32), .ok ())
  | some r =>
    let hold := fun (s : State) =>
      if 4096 ≤ (s.helds.filter fun h => h.1 == die).length then (s, (Acc.wait : Acc Unit))
      else ({ s with helds := s.helds ++ [(die, (⟨tag, joinQueue x, r⟩ : HeldSucc))] }, .ok ())
    match s.enqueue tag (joinQueue x) r with
    | (s, .ok true) => (s, .ok ())
    | (s, .bad) => (s, .bad)
    | (s, .wait) => (s, .wait)
    | (s, _) => hold s

/-- A step of a join counter by n (R124, R140): the old count. Nothing has happened when it waits. A counter on a pool page is
stepped as any other: R278 limits ATOM and RED there and does not name the counter's atomic (DESIGN CHOICE, log 64). -/
def State.joinStep (s : State) (v : Via) (counter n : Nat) (inc : Bool) : State × Acc Nat :=
  s.whole fun s => andThen (s.viaLocate v 3 [(counter, 16)]) fun s l =>
    let pa := (l.headD default).1
    let s := s.settle v.core (sectorBase pa)
    let x := natOfBytes (s.latestBytes pa 16)
    let run := fun (s : State) => s.viaAtomic v counter 16 (joinNew inc n)
    if n = 0 then andThen (s.viaPeek v counter 16) fun s o => (s, .ok (joinCount o))
    else if !joinHits inc n x then andThen (run s) fun s o => (s, .ok (joinCount o))
    else
      andThen (s.succRecord v.tag x) fun s r =>
      andThen (run s) fun s o =>
      andThen (s.releaseSucc v.tag v.sup counter pa x r) fun s _ => (s, .ok (joinCount o))

/-- A decrement by the hardware (R124): true when it has been made, or cannot be made and event 0x08 says so; false when
it waits. -/
def State.joinDec (s : State) (tag counter : Nat) : State × Bool :=
  if counter = 0 then (s, true)
  else match s.joinStep (userVia tag) counter 1 false with
    | (t, .ok _) => (t, true)
    | (t, .fault _ _ _) =>
      let die := (t.physOf tag counter).map homeDie |>.getD 0
      if t.mayPost die then (t.post die 8 tag (counter % 2 ^ 32) (counter / 2 ^ 32), true) else (s, false)
    | (t, .bad) => (t.faultLater tag, true)
    | (t, .wait) => (t, false)

/-- A queue's PRIO as an access reads it (R114, R127). -/
def State.prioVia (s : State) (v : Via) (q : Nat) : State × Acc Nat :=
  match s.slotOf v.tag q with
  | some x => (s, .ok x.prio)
  | none => andThen (s.viaLoad v (s.qDesc v.tag q) 64) fun s d => (s, .ok (descPrio d))

/-! ### Producers -/

/-- A small result in D. -/
def State.ret (s : State) (f : Fields) (x : Nat) : Out := s.finish f fun w => w.putS f.d (BitVec.ofNat 64 x)

/-- RECORD_INVALID (R61, R122). -/
def State.recInvalid (s : State) (w : Wave) (code : Nat) : Out := s.trap 0x41 w.exec (BitVec.ofNat 64 code)

/-- The loop of QPUSH, and what follows it (R127): a wave that finds the ring full blocks with the record that it has read. -/
def State.pushLoop (s : State) (w : Wave) (f : Fields) (q : Nat) (r : List Byte) : Out :=
  let v := s.wavesVia w
  let desc := s.qDesc (s.tagOf w) q
  State.take (s.viaLoad v desc 64) 0 fun s d =>
  State.take (s.viaPeek v (desc + 0x10) 8) 3 fun s resv =>
    if 2 ^ descLog2 d ≤ resv - descHead d then
      (if f.m.getLsbD 0 then .next (s.modMe fun w => { w with wait := .push r }) else s.ret f 1)
    else State.take (s.ringAdd v desc d resv [r]) 1 fun s _ => s.ret f 0

/-- QPUSH (R127). -/
def execQpush (f : Fields) (s : State) : Out :=
  s.front (.qpush f) f .dest false fun s w =>
    let tag := s.tagOf w
    let v := s.wavesVia w
    let q := s.natB w f
    let a := (s.readS w (.int 64) f.a).toNat
    match w.wait with
    | .push r => s.pushLoop w f q r
    | _ =>
      if !s.released w then s.stall
      else if (s.ctx tag).qcount ≤ q then s.ret f 3
      else if s.qState tag q = .stopped then s.ret f 2
      else if a % 64 ≠ 0 then s.recInvalid w 0x0A
      else State.take (s.viaLoad v a 64) 0 fun s r =>
        State.take (s.prioVia v q) 0 fun s prio =>
          match recordReason (s.ctx tag).recver.toNat prio r with
          | some c => s.recInvalid w c
          | Option.none => s.pushLoop w f q r

/-- A wave that a wake reaches at a device time (R109, R128): a sleep whose deadline has passed has ended by it. -/
def Wave.woken (now : Nat) (w : Wave) : Wave :=
  match w.wait with
  | .sleep t d len =>
    if t ≤ now then ({ w with wake := true }.putS d 0).next len else ({ w with wake := false }.putS d 1).next len
  | .ended => w
  | _ => { w with wake := true }

/-- The queue that a cord's record came from. -/
def State.cordQueue (s : State) (c : Cord) : Option Nat := (s.recs.find? fun r => r.uid == c.recUid).map fun r => r.q

/-- QNOTIFY (R128). -/
def execQnotify (f : Fields) (s : State) : Out :=
  s.front (.qnotify f) f .dest false fun s w =>
    if !s.released w then s.stall
    else
      let tag := s.tagOf w
      let q := (s.readS w (.int 32) f.a).toNat
      let c := s.natB w f
      let hit := fun (x : Cord) => x.tag == tag && s.cordQueue x == some q && (c == 0xFFFFFFFF || x.cordid == c)
      let hits := (s.cords.filter hit).map fun x => x.uid
      let s := { s with waves := modWhere s.waves (fun w => hits.contains w.cord) (Wave.woken s.time) }
      let s := s.modCtx tag fun x => { x with images := modWhere x.images (fun m => hit m.cord) fun m =>
        { m with waves := m.waves.map (Wave.woken s.time) } }
      s.finish f id

/-- The entries of a die's spawn buffer in use: children that have not begun and are not saved (R139). -/
def State.buffered (s : State) (die : Nat) : Nat :=
  (s.recs.filter fun x => x.buffer == some die && !(s.ctx x.tag).savedKids.contains x.uid).length

/-- The end of SPAWN for a record that has been read and checked (R139): it enters the die's buffer, or finds it full. -/
def State.spawnEnter (s : State) (w : Wave) (f : Fields) (q : Nat) (r : List Byte) : Out :=
  if 1024 ≤ s.buffered w.die then
    (if f.m.getLsbD 0 then .next (s.modMe fun w => { w with wait := .push r }) else s.ret f 1)
  else
    let child : Rec := { uid := s.uid, tag := s.tagOf w, q := q, bytes := r, parent := some (s.cordOf w).recUid,
                         buffer := some w.die, stage := .taken, kernel := Option.none, grid := 0, horizon := 0, order := s.uid, idx := 0 }
    { s with uid := s.uid + 1, recs := s.recs ++ [child] }.ret f 0

/-- SPAWN (R139). The priority that the record is held to is the one that the scheduler has of the spawner's queue: no access of
the wave reads it. -/
def execSpawn (f : Fields) (s : State) : Out :=
  s.front (.spawn f) f .dest false fun s w =>
    let tag := s.tagOf w
    let addr := (s.readS w (.int 64) f.a + (lo32 (s.scalB w (.int 32) true f)).signExtend 64).toNat
    let q := (s.cordQueue (s.cordOf w)).getD 0
    match w.wait with
    | .push r => s.spawnEnter w f q r
    | _ =>
      if !s.released w then s.stall
      else if addr % 64 ≠ 0 then s.recInvalid w 0x0A
      else State.take (s.viaLoad (s.wavesVia w) addr 64) 0 fun s r =>
        match recordReason (s.ctx tag).recver.toNat ((s.queuePrioOf tag q).getD 7) r with
        | some c => s.recInvalid w c
        | Option.none => if recType r = 5 then s.recInvalid w 0x01 else s.spawnEnter w f q r

/-- JOIN and JOIN.inc (R140). -/
def State.joinBy (s : State) (i : Instr) (f : Fields) (inc : Bool) : Out :=
  s.front i f .dest false fun s w =>
    let a := (s.readS w (.int 64) f.a).toNat
    if !s.released w then s.stall
    else if a % 16 ≠ 0 then s.trap 0x23 w.exec (BitVec.ofNat 64 (a % 2 ^ 57))
    else State.take (s.joinStep (s.wavesVia w) a (s.natB w f) inc) 3 fun s old => s.ret f old

/-- JOIN (R140). -/
def execJoin (f : Fields) (s : State) : Out := s.joinBy (.join f) f false
/-- JOIN.inc (R140). -/
def execJoinInc (f : Fields) (s : State) : Out := s.joinBy (.joinInc f) f true

/-- The record that EMIT writes for a lane (R141). A DEPTH of 256, which the byte does not hold, is taken modulo 256 (DESIGN
CHOICE, log 64). -/
def nodeRecord (recver prio depth code frame join : Nat) : List Byte :=
  [2, BitVec.ofNat 8 recver, 0, 0, BitVec.ofNat 8 prio, BitVec.ofNat 8 depth, 0, 0] ++ bytesOfNat 8 code ++
  bytesOfNat 8 frame ++ bytesOfNat 8 join ++ bytesOfNat 4 1 ++ bytesOfNat 4 1 ++ bytesOfNat 4 1 ++ List.replicate 20 0

/-- The part of EMIT that has no stop point (R141): the counter is raised and the records are published, all or nothing. -/
def State.emitAll (s : State) (v : Via) (desc : Nat) (d : List Byte) (resv join : Nat) (made : List (List Byte)) : State × Acc Unit :=
  s.whole fun s =>
    andThen (if join = 0 then (s, .ok 0) else s.joinStep v join made.length true) fun s _ => s.ringAdd v desc d resv made

/-- EMIT (R141). A record that fails a check of R122 at submission raises RECORD_INVALID with its code. -/
def execEmit (f : Fields) (s : State) : Out :=
  s.front (.emit f) f .dest false fun s w =>
    let tag := s.tagOf w
    let v := s.wavesVia w
    let me := s.cordOf w
    let r := ((s.recs.find? fun x => x.uid == me.recUid).map fun x => x.bytes).getD []
    let node := s.natB w f
    let (code, q, valid) := me.kernel.nodes.getD node (0, 0, false)
    let self := code == recCode r
    let lanes := lanesOf w.exec
    let a := s.srcA w (.int 64) f
    let desc := s.qDesc tag q
    let made := lanes.map fun l =>
      nodeRecord (s.ctx tag).recver.toNat (recPrio r) (if self then recDepth r + 1 else 0) code (laneOf a l).toNat (recJoin r)
    if lanes.isEmpty then s.ret f 0
    else if 15 < node ∨ !valid then s.recInvalid w 0x0A
    else if self && recDepth r == me.kernel.depth then s.trap 0x40 w.exec (BitVec.ofNat 64 me.kernel.depth)
    else if (s.ctx tag).qcount ≤ q then s.ret f 1
    else if s.qState tag q = .stopped then s.ret f 2
    else State.take (s.viaLoad v desc 64) 0 fun s d =>
      if 2 ^ descLog2 d < lanes.length then s.ret f 4
      else match made.findSome? (recordReason (s.ctx tag).recver.toNat (match s.slotOf tag q with | some x => x.prio | Option.none => descPrio d)) with
        | some c => s.recInvalid w c
        | Option.none =>
          if !s.released w then s.stall
          else State.take (s.viaPeek v (desc + 0x10) 8) 3 fun s resv =>
            let join := if recJoin r = 0 then [] else [(recJoin r, 16)]
            let entries := (List.range made.length).flatMap fun i => piecesOf (entryVa d (resv + i)) 64
            if 2 ^ descLog2 d < resv - descHead d + lanes.length then s.stall
            else State.take (s.viaLocate v 3 join) 3 fun s _ => State.take (s.viaLocate v 1 (entries ++ [(desc + 0x20, 8)])) 1 fun s _ =>
              State.take (s.emitAll v desc d resv (recJoin r) made) 3 fun s _ => s.ret f 0

/-! ### NODE.POP (R142, R143) -/

/-- BASE and LOG2 of a queue: of its slot while it is mapped, else of its descriptor, which the hardware reads each time
it maps the queue (R114). -/
def State.ringOfQueue (s : State) (v : Via) (q : Nat) : State × Acc (Nat × Nat) :=
  match s.slotOf v.tag q with
  | some x => (s, .ok (x.base, x.log2))
  | none => andThen (s.viaLoad v (s.qDesc v.tag q) 64) fun s d => (s, .ok (descBase d, descLog2 d))

/-- The published entry at HEAD of a queue, HEAD as its latest write leaves it. -/
def State.headEntry (s : State) (v : Via) (q : Nat) : State × Acc (Nat × Option (List Byte)) :=
  andThen (s.ringOfQueue v q) fun s x =>
  andThen (s.viaPeek v (s.qDesc v.tag q + 0x18) 8) fun s head =>
  andThen (s.viaLoad v (ringVa x.1 x.2 head) 64) fun s r =>
    (s, .ok (head, if numAt r 0x3C 4 = (head + 1) % 2 ^ 32 then some r else none))

/-- The entries that the takes of n lanes read, from HEAD on, as reads of the wave (R143, R305). -/
def State.popReads (v : Via) (x : Nat × Nat) : Nat → Nat → State → State × Acc Unit
  | 0, _, s => (s, .ok ())
  | n + 1, head, s => andThen (s.viaLoad v (ringVa x.1 x.2 head) 64) fun s r =>
      if numAt r 0x3C 4 = (head + 1) % 2 ^ 32 then State.popReads v x n (head + 1) s else (s, .ok ())

/-- The reads of NODE.POP before its takes, each with the kind that its fault has. -/
def State.popChecked (s : State) (v : Via) (q n : Nat) (k : State → Out) : Out :=
  State.take (s.ringOfQueue v q) 0 fun s x => State.take (s.viaPeek v (s.qDesc v.tag q + 0x18) 8) 3 fun s head =>
    State.take (State.popReads v x n head s) 0 fun s _ => k s

/-- The takes of NODE.POP for a list of lanes: each lane's payload. -/
def State.popLanes (v : Via) (q code : Nat) : List Nat → State → State × Acc (List (Nat × Nat))
  | [], s => (s, .ok [])
  | l :: rest, s =>
    andThen (s.headEntry v q) fun s x =>
      match x.2 with
      | Option.none => andThen (State.popLanes v q code rest s) fun s t => (s, .ok ((l, 0) :: t))
      | some r =>
        andThen (s.viaAtomic v (s.qDesc v.tag q + 0x18) 8 (· + 1)) fun s _ =>
          let good := (recType r == 2 && recCode r == code) || recType r == 3
          if !good && !s.canStop v.tag q then (s, .wait)
          else if !good then (s.stopQueue v.tag q 0x05, .ok ((l, 0) :: rest.map fun m => (m, 0)))
          else
            match s.joinDec v.tag (recJoin r) with
            | (s, false) => (s, .wait)
            | (s, true) =>
              andThen (State.popLanes v q code rest s) fun s t =>
                (s, .ok ((l, if recType r = 2 then recFrame r else 0) :: t))

/-- NODE.POP (R143). -/
def execNodePop (f : Fields) (s : State) : Out :=
  s.front (.nodePop f) f .dest false fun s w =>
    let v := s.wavesVia w
    let k := (s.cordOf w).kernel
    let q := (s.readS w (.int 32) f.a).toNat
    let lanes := lanesOf w.exec
    let waits := f.m.getLsbD 0
    let rung := match w.wait with | .pop p b => p == q && b | _ => false
    if !k.persist || k.pullq != q then s.recInvalid w 0x0A
    else if waits && lanes.isEmpty then s.finish f id
    else
      let go := fun (s : State) => s.popChecked v q lanes.length fun s => State.take (s.whole (State.popLanes v q k.code lanes)) 3 fun s r =>
        s.fillLanes f w.exec (lanesFrom 2 (r.map fun x => (x.1, [BitVec.ofNat 32 x.2, BitVec.ofNat 32 (x.2 / 2 ^ 32)])))
      if !waits || rung then go s
      else s.popChecked v q 1 fun s => State.take (s.headEntry v q) 3 fun s x =>
        if x.2.isSome then go s else .next (s.modMe fun w => { w with wait := .pop q false })

end Sys2Proof.Machine
end

