-- ==== Sys2Proof/Machine/Kernel.lean ====
section
/-! DEFINITION. The queue scheduler and the dispatcher: mapping, slices, records, kernel descriptors and group tables,
placement, retirement (spec/06_queue.md R114 to R124, spec/07_kernel.md R129 to R142, spec/11_group.md R215 to R218). -/

namespace Sys2Proof.Machine

/-! ### Queues (R115 to R118) -/

/-- A context whose queues may be served: in READY or RUNNING and not draining. -/
def State.canServe (s : State) (tag : Nat) : Bool :=
  let c := s.ctx tag
  (c.st == .ready || c.st == .running) && c.drain.isNone

/-- The queue is the pull queue of a kernel of which a cord is placed or saved (R142). -/
def State.isPullQ (s : State) (tag q : Nat) : Bool :=
  let k := fun (c : Cord) => c.tag == tag && c.kernel.persist && c.kernel.pullq == q
  s.cords.any k || (s.ctx tag).images.any fun m => k m.cord

/-- A doorbell of a queue (R116, R117, R142): one that is IDLE and not empty waits for a slot. A queue whose descriptor or
ring does not translate waits too, so that mapping reports it (R115). False where the queue cannot be read yet. -/
def State.ring (s : State) (tag q : Nat) : State × Bool :=
  let c := s.ctx tag
  if c.qcount ≤ q ∨ ¬ (c.st = .ready ∨ c.st = .running ∨ c.st = .preempted) then (s, true)
  else if s.isPullQ tag q then
    ({ s with waves := s.waves.map fun (w : Wave) => match w.wait with
      | .pop p _ => if p = q ∧ s.tagOf w = tag then { w with wait := .pop p true } else w
      | _ => w }, true)
  else if s.qState tag q ≠ .idle then (s, true)
  else match s.headEntry (schedVia tag) q with
    | (s, .ok (_, some _)) => (s.setQueue tag q .waiting, true)
    | (s, .ok (_, none)) => (s, true)
    | (s, .fault _ _ _) => (s.setQueue tag q .waiting, true)
    | (s, .bad) => (s.faultLater tag, true)
    | (t, .wait) => (s.waited t, false)

/-- DOORBELL (R117): one that cannot read its queue yet is kept until it can. -/
def execDoorbell (tag q : Nat) (s : State) : Out :=
  .next (match s.ring tag q with
    | (s, true) => s
    | (s, false) => { s with bells := s.bells ++ [(tag, q)] })

/-- Kept doorbells, tried again (R117). -/
def State.ringAgain (s : State) : State :=
  s.bells.foldl (fun s x => match s.ring x.1 x.2 with
    | (t, true) => { t with bells := t.bells.erase x }
    | (t, false) => t) s

def descSlice (d : List Byte) : Nat := numAt d 10 2

/-- A descriptor that the check at mapping accepts (R115). -/
def descOk (c : Ctx) (d : List Byte) : Bool :=
  zeroAt d 40 24 && byteAt d 15 == 0 && byteAt d 9 == 0 && decide (4 ≤ descLog2 d) && decide (descLog2 d ≤ 20) &&
  decide (10 ≤ descSlice d) && decide (descSlice d ≤ 10000) && decide (descPrio d ≤ c.prio) &&
  canonical (BitVec.ofNat 64 (descBase d)) && descBase d % 64 == 0 && versionOk (byteAt d 12) c.qver.toNat

/-- A waiting queue takes a slot: the check of R115, then the descriptor is loaded and the slice begins. -/
def State.mapQueue (s : State) (slot tag q : Nat) : State :=
  let desc := s.qDesc tag q
  let t0 := s
  match andThen (s.viaLoad (schedVia tag) desc 64) fun s d =>
        andThen (s.viaLocate (schedVia tag) 1 [(desc, 32)]) fun s _ => (s, .ok d) with
  | (s, .ok d) =>
    if !descOk (s.ctx tag) d then (if t0.canStop tag q then s.stopQueue tag q 0x10 else t0)
    else
      let x : Slot := { slot := slot, tag := tag, q := q, prio := descPrio d, slice := descSlice d,
                        sliceEnd := s.time + 1000 * descSlice d, log2 := descLog2 d, base := descBase d }
      { s.setQueue tag q .mapped with slots := s.slots ++ [x] }
  | (s, .fault _ _ _) => if t0.canStop tag q then s.stopQueue tag q 0x10 else t0
  | (s, .bad) => s.ctxFault tag 0x50
  | (t, .wait) => s.waited t

/-- Waiting queues that may take a slot. -/
def State.waiting (s : State) : List Queue :=
  s.queues.filter fun x => x.st == .waiting &&
    (let c := s.ctx x.tag; (c.st == .ready || c.st == .running || c.st == .preempted) && c.drain.isNone)

/-- The queue that has waited longest, of a list. -/
def longestWaiting (l : List Queue) : Option Queue :=
  l.foldl (fun (b : Option Queue) x => match b with
    | none => some x
    | some y => if x.since < y.since then some x else some y) none

/-- The waiting queue that a free slot goes to (R118). -/
def State.nextWaiting (s : State) : Option Queue :=
  let l := s.waiting
  let top := (l.map fun x => s.queuePrio x.tag x.q).foldl max 0
  longestWaiting (l.filter fun x => s.queuePrio x.tag x.q == top)

/-- QUEUE_MAP (R116, R118). -/
def execQueueMap (slot : Nat) (s : State) : Out :=
  if Config.queueSlots ≤ slot ∨ s.slots.any fun x => x.slot == slot then .next s
  else match s.nextWaiting with
    | none => .next s
    | some x => .next (s.mapQueue slot x.tag x.q)

/-- A record of the queue has been taken and has not expanded every cord (R116, R119). -/
def State.expandsOf (s : State) (tag q : Nat) : Bool :=
  s.recs.any fun r => r.tag == tag && r.q == q && (match r.stage with | .taken | .expanding _ => true | _ => false)

/-- The queue that takes a slot whose slice has ended: of strictly higher priority, else of equal priority (R118). -/
def State.sliceTaker (s : State) (x : Slot) : Option Queue :=
  match longestWaiting (s.waiting.filter fun y => decide (x.prio < s.queuePrio y.tag y.q)) with
  | some y => some y
  | none => longestWaiting (s.waiting.filter fun y => s.queuePrio y.tag y.q == x.prio)

/-- The scheduler pre-empts a context: its waves stop, and its drain begins (R96, R110). In READY nothing is resident. -/
def State.preempt (s : State) (tag : Nat) : State :=
  if (s.ctx tag).st = .running then s.modCtx tag fun c => { c with drain := some s.time } else s

/-- A slot's own copy of a descriptor with a parity error is discarded and read again (R17); where it no longer translates the
queue stops as one whose descriptor the check at mapping refuses (R115). The slot as it stands then: none when the queue has
stopped or the read must wait. -/
def State.meetSlot (s : State) (n : Nat) : Option Slot × State :=
  match s.slots.find? fun x => x.slot == n with
  | none => (none, s)
  | some x =>
    if s.flaws.any fun f => f.place == .slot n then
      let t : State := { s with flaws := s.flaws.filter fun f => f.place != .slot n }
      match t.viaLoad (schedVia x.tag) (s.qDesc x.tag x.q) 64 with
      | (t, .ok d) =>
        let y := { x with prio := descPrio d, slice := descSlice d, log2 := descLog2 d, base := descBase d }
        (some y, { t with slots := modWhere t.slots (fun y => y.slot == n) fun _ => y })
      | (t, .bad) => (none, t.faultLater x.tag)
      | (_, .fault _ _ _) => (none, if s.canStop x.tag x.q then t.stopQueue x.tag x.q 0x10 else s)
      | (u, .wait) => (none, s.waited u)
    else (some x, s)

/-- SLICE_END (R116, R118): where another queue takes the slot, records already taken finish expanding first. -/
def execSliceEnd (slot : Nat) (s : State) : Out :=
  match s.meetSlot slot with
  | (none, s) => .next s
  | (some x, s) =>
    if s.time < x.sliceEnd then .next s
    else match s.sliceTaker x with
      | none => .next { s with slots := modWhere s.slots (fun y => y.slot == slot) fun y =>
          { y with sliceEnd := s.time + 1000 * y.slice } }
      | some y =>
        if s.expandsOf x.tag x.q then .next s
        else
        let s := { s with slots := s.slots.filter fun z => z.slot != slot }
        let s := s.setQueue x.tag x.q .waiting
        let s := if s.slots.any fun z => z.tag == x.tag then s else if y.tag = x.tag then s else s.preempt x.tag
        .next (s.mapQueue slot y.tag y.q)

/-- QUEUE_RESUME (R116, R121). -/
def execQueueResume (tag q : Nat) (s : State) : Out :=
  if s.qState tag q ≠ .stopped then .next s
  else
    let s := s.setQueue tag q .idle
    let again := fun (p : Piece) => match p.st with | .stopped _ _ => { p with st := PieceState.todo } | _ => p
    .next { s with recs := s.recs.map fun (r : Rec) => match r.stage with
      | .copying l => if r.tag = tag ∧ r.q = q then { r with stage := .copying (l.map again) } else r
      | _ => r }

/-! ### Ends of work -/

/-- A cord's record. -/
def State.recOf (s : State) (uid : Nat) : Option Rec := s.recs.find? fun r => r.uid == uid
/-- A cord of the record is placed or saved. -/
def State.hasCords (s : State) (uid : Nat) : Bool :=
  s.cords.any (fun c => c.recUid == uid) || s.ctxs.any fun x => x.images.any fun m => m.cord.recUid == uid

/-- A record of a queue is in work: it expands, or a COPY or RAYGEN record has not ended (R96). -/
def State.worksOf (s : State) (tag q : Nat) : Bool :=
  s.recs.any fun r => r.tag == tag && r.q == q && r.stage != .expanded

/-- The context returns to READY when no cord is resident and no slot holds a record of it (R96). -/
def State.readyCheck (s : State) (tag : Nat) : State :=
  if (s.ctx tag).st = .running && (s.ctx tag).drain.isNone && !(s.cords.any fun c => c.tag == tag) && (s.ctx tag).images.isEmpty &&
      !(s.slots.any fun x => x.tag == tag && s.worksOf tag x.q)
  then s.setCtx tag .ready else s

/-- A mapped queue whose ring is empty and whose records' cords have all retired gives its slot back (R116). -/
def State.idleCheck (s : State) (tag q : Nat) : State :=
  let busy := s.recs.any fun r => r.tag == tag && r.q == q && (s.hasCords r.uid || r.stage != .expanded)
  if busy || s.qState tag q != .mapped then s
  else match s.headEntry (schedVia tag) q with
    | (s, .ok (_, none)) =>
      ({ s with slots := s.slots.filter fun x => !(x.tag == tag && x.q == q) }.setQueue tag q .idle).readyCheck tag
    | (t, .wait) => s.waited t
    | (s, .bad) => s.faultLater tag
    | _ => s

/-! ### Taking records (R117, R119) -/

/-- A queue may take its next record: what it took before has expanded, and kept COPY pieces have been tried (R116). -/
def State.mayTake (s : State) (tag q : Nat) : Bool :=
  !s.recs.any fun r => r.tag == tag && r.q == q && (match r.stage with
    | .taken | .expanding _ | .raygen | .raygenRan _ _ _ _ => true
    | .copying l => l.any fun p => p.st.open || p.st.fault.isSome
    | .expanded => false)

/-- A slice has ended and another queue takes the slot: no further record is taken from the ring (R116, R118). -/
def State.sliceOver (s : State) (x : Slot) : Bool := decide (x.sliceEnd ≤ s.time) && (s.sliceTaker x).isSome

/-- RECORD_TAKE (R115, R117): the published entry at HEAD is copied and HEAD advances. -/
def execRecordTake (slot : Nat) (s : State) : Out :=
  match s.meetSlot slot with
  | (none, s) => .next s
  | (some x, s) =>
    if !s.canServe x.tag || !s.mayTake x.tag x.q || s.sliceOver x then .next s
    else match s.headEntry (schedVia x.tag) x.q with
      | (s, .ok (head, some r)) =>
        let s := s.descStore x.tag (s.qDesc x.tag x.q + 0x18) (bytesOfNat 8 (head + 1))
        let y : Rec := { uid := s.uid, tag := x.tag, q := x.q, bytes := r, parent := none, buffer := none, stage := .taken,
                         kernel := none, grid := 0, horizon := 0, order := s.uid, idx := head }
        .next { s with uid := s.uid + 1, recs := s.recs ++ [y] }
      | (s, .ok (_, none)) => .next (s.idleCheck x.tag x.q)
      | (t, .fault _ _ _) => .next (if s.canStop x.tag x.q then (t.stopQueue x.tag x.q 0x0C).readyCheck x.tag else s)
      | (s, .bad) => .next (s.ctxFault x.tag 0x50)
      | (t, .wait) => .next (s.waited t)

/-! ### Kernel descriptors (R129 to R131) and group tables (R215 to R217) -/

/-- Registers of a wave's span at dispatch (R134). -/
def spanRegs (regs : Nat) : Nat := 8 * ceilDiv regs 8

/-- Keep regions within the limits of R44. -/
def keepsOk (scratch : Nat) (l : List (Nat × Nat)) : Bool :=
  (l.all fun k => k.1 % 256 == 0 && k.2 % 256 == 0 && decide (256 ≤ k.2) && decide (k.1 + k.2 ≤ scratch)) &&
  (List.range l.length).all fun i => (List.range i).all fun j =>
    let a := l.getD i (0, 0)
    let b := l.getD j (0, 0)
    decide (a.1 + a.2 ≤ b.1) || decide (b.1 + b.2 ≤ a.1)

/-- Node entries (R130): CODE, QUEUE, VALID. -/
def nodeEntries (d : List Byte) : List (Nat × Nat × Bool) :=
  (List.range 16).map fun i => let o := 0x80 + 16 * i; (numAt d o 8, numAt d (o + 8) 2, byteAt d (o + 10) == 1)

/-- The kernel that a descriptor and its group table state (R129). -/
def kernelOf (code : Nat) (d gs : List Byte) : Kernel :=
  { code := code, regs := numAt d 2 2, sregs := byteAt d 4, waves := byteAt d 5, depth := byteAt d 6, glast := byteAt d 7,
    scratch := numAt d 8 4, persist := byteAt d 1 == 1, pullq := numAt d 12 2,
    keep := (List.range (byteAt d 14)).map fun i => (numAt d (0x20 + 8 * i) 4, numAt d (0x24 + 8 * i) 4)
    smask := d.getD 15 0, entry := code + numAt d 0x10 4, nodes := nodeEntries d,
    streams := (List.range 8).map fun i => (d.drop (0x180 + 64 * i)).take 64
    groups := (List.range (byteAt d 7 + 1)).map fun i => BitVec.ofNat 128 (numAt gs (16 * i) 16) }

/-- The present stream records with their ids. -/
def Kernel.present (k : Kernel) : List (Nat × List Byte) :=
  ((List.range 8).filter fun i => k.smask.getLsbD i).map fun i => (i, k.streams.getD i [])

/-- The checks of R131 on a descriptor, reason 0x05. -/
def kernelOk (qcount : Nat) (d : List Byte) (k : Kernel) : Bool :=
  byteAt d 0 == 0x10 && decide (byteAt d 1 ≤ 1) && zeroAt d 0x18 8 && zeroAt d 0x60 32 &&
  ((List.range 16).all fun i => decide (byteAt d (0x8A + 16 * i) ≤ 1) && zeroAt d (0x8B + 16 * i) 5) &&
  decide (1 ≤ k.regs) && decide (k.regs ≤ 256) && decide (16 ≤ k.sregs) && decide (k.sregs ≤ 128) &&
  decide (1 ≤ k.waves) && decide (k.waves ≤ 64) && decide (k.scratch ≤ Config.scratchBytes) && decide (byteAt d 14 ≤ 8) &&
  k.scratch % 256 == 0 && zeroAt d (0x20 + 8 * byteAt d 14) (64 - 8 * byteAt d 14) && keepsOk k.scratch k.keep &&
  (k.present.all fun x => strmValid k.present x.1 x.2) &&
  decide (0x380 + 16 * (k.glast + 1) ≤ numAt d 0x10 4) && numAt d 0x10 4 % 32 == 0 &&
  (if k.persist then decide (k.pullq < qcount) else k.pullq == 0)

/-- R217, step 1. -/
def groupOk (k : Kernel) (i : Nat) : Bool :=
  let e := k.groups.getD i 0
  let m := grpMembers e
  (e.toNat / 2 ^ 80 == 0) && decide (grpKind e ≤ 1) && (grpKind e == 1 || grpSide e == 0) && decide (m < 2 ^ k.waves) &&
  (i != 0 || (grpKind e == 0 && m == 2 ^ k.waves - 1)) && (m != 0 || (grpKind e == 0 && grpSide e == 0))

/-- R217, step 3. -/
def quartetOk (e : BitVec 128) : Bool :=
  grpKind e != 1 ||
  (let m := grpList e
   m.length == 4 && decide (grpSide e ≤ 1) &&
   (List.range 4).all fun i => m.any fun w => w % 8 == 4 * grpSide e + i)

/-- The BARRIER entries that take slots (R218). -/
def Kernel.barriers (k : Kernel) : List Nat :=
  (List.range k.groups.length).filter fun g => let e := k.groups.getD g 0; grpKind e == 0 && grpMembers e != 0

/-- Registers that one partition needs for the waves of a cord. -/
def Kernel.partRegs (k : Kernel) (p : Nat) : Nat :=
  ((List.range k.waves).filter fun w => w % 8 == p).length * spanRegs k.regs

/-- The first reason by which a kernel is refused at expansion (R131, R217). -/
def kernelReason (qcount : Nat) (d : List Byte) (k : Kernel) : Option Nat :=
  let gs := List.range k.groups.length
  if !kernelOk qcount d k then some 0x05
  else if !gs.all (groupOk k) then some 0x05
  else if (List.range k.waves).any fun w => decide (4 < (gs.filter fun g => (k.groups.getD g 0).getLsbD w).length) then some 0x06
  else if !gs.all fun g => quartetOk (k.groups.getD g 0) then some 0x07
  else if decide (64 < k.barriers.length) || (List.range 8).any fun p => decide (384 < k.partRegs p) then some 0x08
  else none

/-- A kernel read and checked: the kernel, or a reason. The dispatcher reads the descriptor and its group table in supervisor
state, so a page with S = 1 serves (DESIGN CHOICE, log 22). -/
def State.readKernel (s : State) (tag code : Nat) : State × Acc (Kernel ⊕ Nat) :=
  let qc := (s.ctx tag).qcount
  match s.viaLoad (schedVia tag) code 0x380 with
  | (s, .fault _ _ _) => (s, .ok (.inr 0x05))
  | (s, .bad) => (s, .bad)
  | (s, .wait) => (s, .wait)
  | (s, .ok d) => match s.viaLoad (schedVia tag) (code + 0x380) (16 * (byteAt d 7 + 1)) with
    | (s, .fault _ _ _) => (s, .ok (.inr 0x05))
    | (s, .bad) => (s, .bad)
    | (s, .wait) => (s, .wait)
    | (s, .ok gs) =>
      let k := kernelOf code d gs
      (s, .ok (match kernelReason qc d k with | some c => .inr c | none => .inl k))

/-! ### Expansion (R119, R121, R133, R139) -/

def State.modRec (s : State) (uid : Nat) (f : Rec → Rec) : State := { s with recs := modWhere s.recs (fun r => r.uid == uid) f }

/-- The record of a queue that begins next: spawned children of expanded records before the record that was taken, each in
order. -/
def State.nextRec (s : State) (tag q : Nat) : Option Rec :=
  let mine := s.recs.filter fun r => r.tag == tag && r.q == q && r.stage == .taken
  let first := fun (l : List Rec) => l.foldl (fun (b : Option Rec) r => match b with
    | none => some r
    | some y => if r.order < y.order then some r else some y) none
  let ready := fun (r : Rec) => match r.parent with
    | none => false
    | some p => match s.recOf p with | some x => x.stage == .expanded | none => true
  match first (mine.filter ready) with
  | some r => some r
  | none => first (mine.filter fun r => r.parent.isNone)

/-- The record before another: the one of the ring entry before it; for a child, the child before it or its parent. -/
def State.isBefore (s : State) (x r : Rec) : Bool :=
  x.tag == r.tag && x.q == r.q &&
  (match r.parent with
   | none => x.parent.isNone && x.idx + 1 == r.idx
   | some p =>
     let older := s.recs.filter fun y => y.parent == some p && decide (y.order < r.order)
     if older.isEmpty then x.uid == p else older.contains x && older.all fun y => decide (y.order ≤ x.order))

/-- Every cord of the record before a SERIAL record has retired (R119). -/
def State.serialOk (s : State) (r : Rec) : Bool :=
  !recSerial r.bytes || s.recs.all fun x => !s.isBefore x r || !s.hasCords x.uid

/-- A record is refused at expansion (R116, R122): the record goes and its queue stops. R117 advances HEAD when a record is taken
and R116 leaves it at one that fails: HEAD, advanced at the take, is written back to the record's index (DESIGN CHOICE, log
64). -/
def State.refuse (s : State) (r : Rec) (reason : Nat) : State :=
  if !s.canStop r.tag r.q then s
  else
  let s := if r.parent.isNone then s.descStore r.tag (s.qDesc r.tag r.q + 0x18) (bytesOfNat 8 r.idx) else s
  ({ s with recs := s.recs.filter fun x => x.uid != r.uid }.stopQueue r.tag r.q reason).readyCheck r.tag

/-- What the dispatcher serves: the slots, and queues without a slot whose taken records, spawned children included, still
expand (R116, R139); these are numbered after the slots. -/
def State.servers (s : State) : List Slot :=
  let open_ := fun (r : Rec) => (match r.stage with | .expanding _ => true | .taken => r.parent.isSome | _ => false) &&
    (s.slotOf r.tag r.q).isNone
  let qs := ((s.recs.filter open_).map fun r => (r.tag, r.q)).eraseDups
  s.slots ++ qs.zipIdx.map fun x =>
    { slot := Config.queueSlots + x.2, tag := x.1.1, q := x.1.2, prio := s.queuePrio x.1.1 x.1.2, slice := 0, sliceEnd := 0,
      log2 := 0, base := 0 }

/-- RECORD_EXPAND (R121, R122, R131): the checks, and the start of the record's work. -/
def execRecordExpand (slot : Nat) (s : State) : Out :=
  let s := (s.meetSlot slot).2
  match if s.flaws.any fun f => f.place == .slot slot then none else s.servers.find? fun x => x.slot == slot with
  | none => .next s
  | some x =>
    let going := s.recs.any fun r => r.tag == x.tag && r.q == x.q && (match r.stage with | .expanding _ => true | _ => false)
    if !s.canServe x.tag || going then .next s
    else match s.nextRec x.tag x.q with
      | none => .next s
      | some r =>
        if !s.serialOk r then .next s
        else match recordReason (s.ctx x.tag).recver.toNat x.prio r.bytes with
          | some c => .next (s.refuse r c)
          | none =>
            let begin := fun (s : State) (st : RecStage) (k : Option Kernel) =>
              s.modRec r.uid fun y => { y with stage := st, kernel := k, grid := recCount r.bytes, buffer := none }
            match recType r.bytes with
            | 3 => .next (begin s .expanded none)
            | 4 => .next (begin s (.copying (linearPieces (recFrame r.bytes) (recCode r.bytes) (recG r.bytes 0) false false 0 0)) none)
            | 5 => .next (begin s .raygen none)
            | _ => match s.readKernel x.tag (recCode r.bytes) with
              | (s, .ok (.inl k)) => .next (begin s (.expanding 0) (some k))
              | (s, .ok (.inr c)) => .next (s.refuse r c)
              | (s, .bad) => .next (s.ctxFault x.tag 0x50)
              | (t, .wait) => .next (s.waited t)
              | (s, .fault _ _ _) => .next (s.refuse r 0x05)

/-! ### Placement (R134 to R136) -/

/-- A place that a wave takes: core, partition, slot, first granule and granules. -/
structure Berth where
  id    : WaveId
  first : Nat
  n     : Nat
  deriving DecidableEq, Repr, Inhabited

/-- The berths in use on a core. -/
def State.berths (s : State) (core : Nat) : List Berth :=
  (s.waves.filter fun w => w.id.core == core).map fun w => ⟨w.id, w.granule, w.alloc / 8⟩

/-- n granules from g are free on a partition. -/
def granulesFree (l : List Berth) (part g n : Nat) : Bool :=
  decide (g + n ≤ Config.granules) &&
  l.all fun b => b.id.part != part || decide (g + n ≤ b.first) || decide (b.first + b.n ≤ g)

/-- The lowest free wave slot and the lowest fitting span of a partition. -/
def berthFor (l : List Berth) (core part n : Nat) : Option Berth :=
  match (List.range Config.slotsPerPartition).find? fun i => !l.any fun b => b.id.part == part && b.id.slot == i,
        (List.range Config.granules).find? fun g => granulesFree l part g n with
  | some i, some g => some ⟨⟨core, part, i⟩, g, n⟩
  | _, _ => none

/-- Berths for waves in ascending `%waveid`: each wave's index with its granules. -/
def placeWaves (core : Nat) : List (Nat × Nat) → List Berth → Option (List (Nat × Berth))
  | [], _ => some []
  | (w, n) :: rest, l =>
    match berthFor l core (w % 8) n with
    | none => none
    | some b => (placeWaves core rest (l ++ [b])).map fun t => (w, b) :: t

/-- The lowest fitting scratchpad span of a core (R134). -/
def State.scratchFor (s : State) (core bytes : Nat) : Option Nat :=
  if bytes = 0 then some 0
  else
    let used := (s.cords.filter fun c => c.core == core && c.kernel.scratch != 0).map fun c => (c.scratchBase, c.kernel.scratch)
    let ok := fun (a : Nat) => decide (a + bytes ≤ Config.scratchBytes) &&
      used.all fun u => decide (a + bytes ≤ u.1) || decide (u.1 + u.2 ≤ a)
    (List.range (Config.scratchBytes / 256)).map (· * 256) |>.find? ok

/-- Free barrier slots of a core, ascending (R218). -/
def State.barFree (s : State) (core : Nat) : List Nat :=
  (List.range 64).filter fun i => !s.cords.any fun c => c.core == core && c.bars.any fun b => b.slot == i

/-- What a cord takes on a core, if it fits: berths and scratchpad (R134, R112). -/
def State.fitOn (s : State) (core : Nat) (k : Kernel) (want : List (Nat × Nat)) : Option (List (Nat × Berth) × Nat) :=
  match placeWaves core want (s.berths core), s.scratchFor core k.scratch with
  | some l, some a => if k.barriers.length ≤ (s.barFree core).length then some (l, a) else none
  | _, _ => none

/-- The cores in the order in which the dispatcher tries them. -/
def State.coreOrder (s : State) : List Nat := (List.range Config.cores).map fun i => (s.dispP + 1 + i) % Config.cores

def Kernel.wants (k : Kernel) : List (Nat × Nat) := (List.range k.waves).map fun w => (w, spanRegs k.regs / 8)

/-- A wave as placement sets it up (R136). -/
def Wave.fresh (id : WaveId) (cord index cordid granule : Nat) (k : Kernel) : Wave :=
  { id := id, cord := cord, index := index, wait := Wait.none, pc := BitVec.ofNat 64 (k.entry / 4 * 4), jumped := true, sup := false,
    live := BitVec.allOnes 96, k := BitVec.allOnes 96 :: List.replicate 7 0, c := 1, s := List.replicate 128 0,
    v := List.replicate (spanRegs k.regs) ⟨zeroLanes, none⟩, o := List.replicate 8 zeroLanes, l := List.replicate 2 zeroLanes,
    lSup := List.replicate 2 zeroLanes, x := List.replicate 4 (List.replicate laneCount 0), q := List.replicate 4 [],
    bound := k.regs, granule := granule, fpflags := 0,
    srseed := BitVec.ofNat 64 (cordid % 2 ^ 32 * 2 ^ 32 + 0x4B5A * 2 ^ 16 + index % 2 ^ 16), horizon := 0, rep := 0,
    repStr := 0, repStrSup := 0, loop := none, loopSup := none, trapcause := 0, trapmask := 0, trapinfo := 0, pass := none,
    arrivals := [], endH := 0, endSet := [], wake := false, yield := none, hold := 0, delayed := none, openBatch := [], batches := [],
    nextBatch := 0,
    streams := k.present.map fun x => { id := x.1, bytes := x.2, run := .running, sup := false, base := none, pos := 0, part := [] },
    invals := [], watch := [], nextColl := 0, regions := [], rgndepth := 0, halted := false,
    haltAs := (0, 0, 0), stepOnce := false, exempt := false }

/-- The barrier slots of a cord on a core, each at phase 0 (R136, R218). -/
def State.newBars (s : State) (core : Nat) (k : Kernel) : List BarSlot :=
  (k.barriers.zip (s.barFree core)).map fun x => { group := x.1, slot := x.2, phase := 0, dev := false, drain := none }

/-- Cord n of a record is placed on a core (R134, R136). -/
def State.place (s : State) (r : Rec) (k : Kernel) (n core : Nat) (l : List (Nat × Berth)) (scratch : Nat) : State :=
  let c : Cord :=
    { uid := s.uid, tag := r.tag, core := core, recUid := r.uid, cordid := n, count := r.grid, kernel := k,
      frame := recFrame r.bytes, scratchBase := scratch, scratch := [], written := [], bars := s.newBars core k,
      tenures := [], gathers := [], reacq := [], ended := [], order := s.uid }
  let s := { s with
    uid := s.uid + 1
    cords := s.cords ++ [c]
    waves := s.waves ++ l.map fun (x : Nat × Berth) => Wave.fresh x.2.id s.uid x.1 n x.2.first k
    dispP := core }
  let s := l.foldl (fun s x => s.startStreams x.2.id) s
  let s : State := s.modRec r.uid fun y => { y with stage := if n + 1 < y.grid then .expanding (n + 1) else .expanded }
  if (s.ctx r.tag).st = .ready then s.setCtx r.tag .running else s

/-- The cord that a slot offers: its record, kernel and number. No new cord is offered while a saved cord waits (R112). -/
def State.offer (s : State) (x : Slot) : Option (Rec × Kernel × Nat) :=
  if !s.canServe x.tag || !(s.ctx x.tag).images.isEmpty then none
  else s.recs.findSome? fun r =>
    if r.tag = x.tag ∧ r.q = x.q then
      (match r.stage, r.kernel with | .expanding n, some k => some (r, k, n) | _, _ => none)
    else none

/-- The first core on which a cord fits, with what it takes there. -/
def State.findCore (s : State) (k : Kernel) (want : List (Nat × Nat)) : Option (Nat × List (Nat × Berth) × Nat) :=
  s.coreOrder.findSome? fun c => (s.fitOn c k want).map fun x => (c, x)

/-- A slot's offered cord and where it fits. -/
def State.placeable (s : State) (x : Slot) : Option (Rec × Kernel × Nat × Nat × List (Nat × Berth) × Nat) :=
  match s.offer x with
  | none => none
  | some (r, k, n) => (s.findCore k k.wants).map fun y => (r, k, n, y)

/-- The slot that the dispatcher serves next (R118): the highest priority of the records whose cords fit, and among equal
priorities the next slot after the one served last, or slot 0 where none has been served at that priority (DESIGN CHOICE, log
64). -/
def State.dispatchChoice (s : State) : Option Nat :=
  let l : List (Nat × Nat) := s.servers.filterMap fun x => (s.placeable x).map fun y => (x.slot, recPrio y.1.bytes)
  let top := (l.map fun x => x.2).foldl max 0
  let last := ((s.served.find? fun x => x.1 == top).map fun x => x.2).getD 63
  let n := Config.queueSlots + s.recs.length
  ((List.range n).map fun i => (last + 1 + i) % n).find? fun n => l.any fun x => x.1 == n && x.2 == top

/-- CORD_PLACE (R118, R133 to R136). -/
def execCordPlace (slot : Nat) (s : State) : Out :=
  if s.dispatchChoice ≠ some slot then .next s
  else match (s.servers.find? fun x => x.slot == slot).bind s.placeable with
    | none => .next s
    | some (r, k, n, core, l, a) =>
      let s := { s with served := (s.served.filter fun (x : Nat × Nat) => x.1 != recPrio r.bytes) ++ [(recPrio r.bytes, slot)] }
      .next (s.place r k n core l a)

/-! ### Retirement (R137) -/

/-- The writes of a cord's waves have completed, and pool writes have been acknowledged. -/
def State.wavesQuiet (s : State) (uid : Nat) : Bool :=
  let mine := s.waves.filter fun w => w.cord == uid
  let own := fun (id : WaveId) => mine.any fun w => w.id == id
  (mine.all fun w => w.watch.isEmpty && decide (w.horizon ≤ s.time) && w.batches.isEmpty) &&
  !(s.writes.any fun x => match x.agent with | .wave id => own id && !(x.doneAt s.time && x.acked) | _ => false) &&
  !(s.fills.any fun f => own f.wave) && !(s.mmaOps.any fun o => o.cord == uid) && !(s.mosFills.any fun f => own f.wave)

/-- The wave whose turn it was has the turn again where it is still resident. -/
def State.setCur (s : State) (was : Option WaveId) : State :=
  { s with cur := match was with
    | some id => if s.waves.any fun w => w.id == id then s.indexOf id else 0
    | none => 0 }

/-- A cord's resources become free, and its record takes its horizons (R137, R443). -/
def State.removeCord (s : State) (c : Cord) : State :=
  let mine := s.waves.filter fun w => w.cord == c.uid
  let h := (mine.map fun w => w.horizon).foldl max 0
  let cur := (s.me.map fun w => w.id)
  let s := s.keepInvals mine
  let s := { s with
    cords := s.cords.filter fun x => x.uid != c.uid
    waves := s.waves.filter fun w => w.cord != c.uid
    ranges := s.ranges.filter fun r => r.cord != c.uid }
  let s := s.setCur cur
  let s := s.modRec c.recUid fun r => { r with horizon := max r.horizon h }
  if s.trial.ctl.getLsbD 20 && decide (s.trial.ctl.toNat % 4096 = c.tag) then
    { s with trial := { s.trial with cordret := s.trial.cordret + 1 } } else s

/-- CORD_RETIRE (R137): tenures are released first, and the cord goes once everything has completed. -/
def execCordRetire (uid : Nat) (s : State) : Out :=
  match s.cordAt uid with
  | none => .next s
  | some c =>
    let mine := s.waves.filter fun w => w.cord == uid
    if !(mine.all fun w => w.wait == .ended) || !s.wavesQuiet uid then .next s
    else if !c.tenures.isEmpty then
      let (t, s) := c.tenures.foldl (fun (p : Nat × State) e =>
        let (x, s) := p.2.releaseEntry ((p.2.cordAt uid).getD c) e; (max p.1 x, s)) (0, s)
      .next { s with waves := modWhere s.waves (fun w => w.cord == uid) fun w => w.raise t }
    else
      let q := ((s.recOf c.recUid).map fun r => r.q).getD 0
      .next (((s.removeCord c).idleCheck c.tag q).readyCheck c.tag)

/-- RECORD_RETIRE (R124, R137): every cord and every spawned record has retired and their horizons have passed. -/
def execRecordRetire (uid : Nat) (s : State) : Out :=
  match s.recOf uid with
  | none => .next s
  | some r =>
    if r.stage ≠ .expanded ∨ s.hasCords uid ∨ (s.recs.any fun x => x.parent == some uid) ∨ s.time < r.horizon then .next s
    else match s.joinDec r.tag (recJoin r.bytes) with
      | (s, false) => .next s
      | (s, true) =>
        .next (({ s with recs := s.recs.filter fun x => x.uid != uid }.idleCheck r.tag r.q).readyCheck r.tag)

/-- The first held successor of a list that its ring has room for enters it. -/
def State.releaseHeld (s : State) : List (Nat × HeldSucc) → State
  | [] => s
  | h :: rest => match s.enqueue h.2.tag h.2.q h.2.bytes with
    | (t, .ok true) => { t with helds := t.helds.erase h }
    | (t, .bad) => t.faultLater h.2.tag
    | (t, .wait) => State.releaseHeld (s.waited t) rest
    | _ => State.releaseHeld s rest

/-- SUCCESSOR_RELEASE (R124). -/
def execSuccessorRelease (die : Nat) (s : State) : Out := .next (s.releaseHeld (s.helds.filter fun h => h.1 == die))

end Sys2Proof.Machine
end

