-- ==== Sys2Proof/Machine/Context.lean ====
section
/-! DEFINITION. Contexts: CREATE, COMMIT and DESTROY, the save and the restore of a pre-empted context, and wakes
(spec/05_context.md R93 to R99, R108 to R113, spec/21_kindling.md R427, R428). -/

namespace Sys2Proof.Machine

/-! ### Commands (R95 to R97, R428) -/

/-- Command status codes (R428). -/
abbrev stOk : Nat := 0
abbrev stBadState : Nat := 1
abbrev stBadBlock : Nat := 2
abbrev stVersion : Nat := 3
abbrev stBadCmd : Nat := 4
abbrev stFault : Nat := 5

/-- CTX_CREATE (R94, R96): the block's reset values, with STATE = 1. -/
def execCtxCreate (tag blk : Nat) (s : State) : Out :=
  if (s.ctx tag).st ≠ .free then .next (s.cmdStatus blk stBadState)
  else
    let bytes := bytesOfNat 8 0 ++ bytesOfNat 2 (tag + 4096) ++ List.replicate 118 0
    let s := (s.physStore tag (s.ctxBlock tag) bytes).2
    let s := s.modCtx tag fun _ => { Ctx.empty tag with st := .building }
    .next (s.cmdStatus blk stOk)

/-- A block that COMMIT refuses with BADBLOCK (R95). -/
def blockBad (b : List Byte) : Bool :=
  let supbase := numAt b 24 8
  let supsize := numAt b 32 8
  let trapvec := numAt b 16 8
  let mb := byteAt b 64 % 16
  byteAt b 0 != 0 || byteAt b 1 % 16 != 0 || byteAt b 6 / 16 != 0 || byteAt b 7 != 0 || byteAt b 10 / 8 != 0 ||
  !zeroAt b 11 5 || byteAt b 64 / 16 != 0 || !zeroAt b 65 7 || !zeroAt b 82 6 || !zeroAt b 91 5 || !zeroAt b 112 16 ||
  decide (trapvec < supbase) || decide (supbase + supsize ≤ trapvec) || decide (supsize < 12582912) || decide (mb < 6) ||
  decide (16 < mb) || numAt b 104 8 % 4096 != 0 || supbase % 65536 != 0 || trapvec % 4 != 0 || numAt b 96 8 % 4096 != 0 ||
  numAt b 56 8 % 64 != 0

/-- The version that COMMIT records, when the device implements the major number: the highest minor of the device is given
(R97). -/
def negotiate (written major minor : Nat) : Option Nat :=
  if written / 16 = major then some (major * 16 + min (written % 16) minor) else none

/-- The context block as COMMIT reads it (R94): none when one of its sectors is poisoned (R16). -/
def State.readBlock (s : State) (tag : Nat) : Option (List Byte) × State :=
  let (bad, s) := (piecesOf (s.ctxBlock tag) 128).foldl (fun (p : Bool × State) x =>
    let (b, s) := p.2.meetErrors none tag x.1
    (p.1 || b, s)) (false, s)
  (if bad then none else some (s.ownBytes (s.ctxBlock tag) 128), s)

/-- CTX_COMMIT (R94, R95, R97). A block with a poisoned sector cannot be read: the command ends with FAULT, and the context, which
is still BUILDING, stays so (DESIGN CHOICE, log 22). -/
def execCtxCommit (tag blk : Nat) (s : State) : Out :=
  if (s.ctx tag).st ≠ .building then .next (s.cmdStatus blk stBadState)
  else match s.readBlock tag with
  | (none, s) => .next (s.cmdStatus blk stFault)
  | (some b, s) =>
    let at_ := s.ctxBlock tag
    if blockBad b then .next (s.cmdStatus blk stBadBlock)
    else match negotiate (byteAt b 88) 1 1, negotiate (byteAt b 89) 1 0, negotiate (byteAt b 90) 1 0 with
      | some rv, some qv, some mv =>
        let s := (s.physStore tag (at_ + 88) (bytesOfNat 1 rv ++ bytesOfNat 1 qv ++ bytesOfNat 1 mv)).2
        let s := s.modCtx tag fun c => { c with
          ptroot := numAt b 0 8 / 4096 % 2 ^ 40 * 4096, prio := byteAt b 10 % 8, trapvec := numAt b 16 8
          supbase := numAt b 24 8, supsize := numAt b 32 8, htable := numAt b 40 8, fpool := numAt b 48 8
          mailbox := numAt b 56 8, mblog2 := byteAt b 64 % 16, qlist := numAt b 72 8, qcount := numAt b 80 2
          recver := BitVec.ofNat 8 rv, qver := BitVec.ofNat 8 qv, mbver := BitVec.ofNat 8 mv
          savebase := numAt b 96 8, savesize := numAt b 104 8, mbnext := 0 }
        .next ((s.setCtx tag .ready).cmdStatus blk stOk)
      | _, _, _ => .next (s.cmdStatus blk stVersion)

/-! ### A queue pair's ring -/

/-- The rings of a queue pair (log 22). -/
def qpRingVia (b : List Byte) : Via := ⟨unitQp, qpTag b, 0, true, .engine, none⟩

/-- Entries of a ring that have been posted from entry n on, as their latest SEQ says: the index after them. -/
def State.postedFrom (s : State) (tag : Nat) (d : List Byte) : Nat → Nat → Nat
  | 0, n => n
  | fuel + 1, n => match s.physOf tag (entryVa d n + 0x3C) with
    | some pa => if natOfBytes (s.latestBytes pa 4) = (n + 1) % 2 ^ 32 then State.postedFrom s tag d fuel (n + 1) else n
    | none => n

/-- HEAD of a queue pair's send queue, as its latest write leaves it (R409). -/
def State.qpHead (s : State) (qpn : Nat) : Nat :=
  let b := s.qpBytes qpn
  ((s.physOf (qpTag b) (qpSq b + 0x18)).map fun pa => natOfBytes (s.latestBytes pa 8)).getD 0

/-- The index up to which work requests have been posted to a queue pair: a post that has returned is taken before a drain
that follows it (R423). -/
def State.qpPosted (s : State) (qpn : Nat) : Nat :=
  let b := s.qpBytes qpn
  match (s.viaLoad (qpRingVia b) (qpSq b) 64).2 with
  | .ok d => s.postedFrom (qpTag b) d (2 ^ descLog2 d) (s.qpHead qpn)
  | _ => 0

/-- CTX_DESTROY (R96, R99, R408): every cord stops without being saved, and the queue pairs enter ERROR. -/
def execCtxDestroy (tag blk : Nat) (s : State) : Out :=
  let st := (s.ctx tag).st
  if st = .free ∨ st = .destroying then .next (s.cmdStatus blk stBadState)
  else
    let s := (s.dropCords tag).dropRecords tag
    let s := s.freeSlots tag true
    let s := (s.qpsOf tag).foldl (fun s q => s.qpError q none) s
    .next ((s.setCtx tag .destroying).cmdStatus blk stOk)

/-- Every entry of the mailbox is cleared (R434), in the context's own address space; one whose page does not translate has
none. -/
def State.clearMailbox (s : State) (tag : Nat) : State :=
  let c := s.ctx tag
  (List.range (2 ^ c.mblog2)).foldl (fun s i => match s.physOf tag (c.mailbox + 64 * i) with
    | some pa => if natOfBytes (s.latestBytes pa 4) = 0 then s else (s.physStore tag pa (bytesOfNat 4 0)).2
    | none => s) s

/-- A context has had a block committed: its mailbox, queues and tables are known. -/
def Ctx.committed (c : Ctx) : Bool := c.mblog2 != 0

/-- The queue pairs of a context. -/
def State.qpnsOf (s : State) (tag : Nat) : List Nat := (s.qps.filter fun q => decide (qpTag (s.qpBytes q.qpn) = tag)).map fun q => q.qpn

/-- Every request published to the queue pairs of a context has been found and flushed (R99, R413). -/
def State.qpsFlushed (s : State) (tag : Nat) : Bool :=
  (s.qpnsOf tag).all fun q => qpState (s.qpBytes q) != 5 || decide (s.qpPosted q ≤ s.qpHead q)

/-- A core's tenure of a root is released as TILE.REL releases it (R99, R329). -/
def State.releaseTenure (s : State) (r : RootId) (core : Nat) : State :=
  let s := s.modHandle r fun h => { h with tenures := h.tenures.filter fun t => t.core != core }
  (s.writeBack core r).2.dropCopies core r

/-- DESTROY_COMPLETE (R99): once the queue pairs are flushed, tile handles close with their tenures released, translations
and L1 lines of the tag go, the context is FREE and completion is posted. A flushed completion that has no room goes with
the context (log 36). -/
def execDestroyComplete (tag : Nat) (s : State) : Out :=
  if (s.ctx tag).st ≠ .destroying ∨ ¬ s.qpsFlushed tag ∨ ¬ s.mayPost (homeDie (s.ctxBlock tag)) then .next s
  else
    let mine := s.handles.filter fun h => decide (h.id.tag = tag)
    let s := mine.foldl (fun s h => h.tenures.foldl (fun s t => s.releaseTenure h.id t.core) s) s
    let s := ((mine.filter fun h => h.view) ++ mine.filter fun h => !h.view).foldl (fun s h =>
      s.dropHandle ((s.handle h.id).getD h)) s
    let s := (s.qpnsOf tag).foldl (fun s q => (s.qpComplete q).modQp q fun x => { x with reqs := [] }) s
    let s := if (s.ctx tag).committed then s.clearMailbox tag else s
    let s := { s with
      queues := s.queues.filter fun q => q.tag != tag
      walks := s.walks.filter fun t => t.tag != tag
      touches := s.touches.filter fun t => t.tag != tag
      bells := s.bells.filter fun b => b.1 != tag
      tlb := s.tlb.filter fun t => t.tag != tag
      l1 := s.l1.filter fun l => l.tag != tag
      icache := s.icache.filter fun l => l.tag != tag
      comms := s.comms.filter fun c => c.tag != tag }
    let s := s.setCtx tag .free
    .next ({ s with ctxs := s.ctxs.filter fun c => c.tag != tag }.post (homeDie (s.ctxBlock tag)) 6 tag 0 0)

/-- INVAL (R317, R318, R428): length 0 is the whole context. Its STATUS follows the invalidation. -/
def execInval (tag : Nat) (addr len : Word64) (blk : Nat) (s : State) : Out :=
  if (s.ctx tag).st = .free then .next (s.cmdStatus blk stBadState)
  else
    let i : Inval := { id := s.uid, tag := tag, range := if len = 0 then none else some (addr.toNat, len.toNat),
                       writes := [], done := false, upto := 0 }
    .next { s with uid := s.uid + 1, commands := s.commands ++ [(⟨i, blk⟩ : Command)] }

/-! ### The save (R110, R111) -/

/-- A closed batch has nothing outstanding: every piece has performed with its writes complete, or has stopped. -/
def State.batchQuiet (s : State) (b : Batch) : Bool := b.pieces.all fun p => match p.st with
  | .todo => false
  | .stopped _ _ => true
  | .done ids => s.allDone ids

/-- A fill has nothing outstanding: every piece has performed, or has stopped on a fault that its range holds (R346). -/
def MosFill.quiet (x : MosFill) : Bool := x.pieces.all fun p => match p.st with | .todo => false | _ => true

/-- Every outstanding memory operation of a cord has completed (R110 step 2), first touches of its context included (R319). A write
to the pool counts until the pool device has acknowledged it: R110 says only that operations complete, and R249 separates the
two (DESIGN CHOICE, log 62). -/
def State.drained (s : State) (uid : Nat) : Bool :=
  let mine := s.waves.filter fun w => w.cord == uid
  let own := fun (id : WaveId) => mine.any fun w => w.id == id
  (mine.all fun w => w.watch.isEmpty && w.batches.all fun b => s.batchQuiet b) &&
  !(s.writes.any fun x => match x.agent with | .wave id => own id && !(x.doneAt s.time && x.acked) | _ => false) &&
  !(s.touches.any fun t => (s.cordAt uid).any (fun c => c.tag == t.tag) && t.active) &&
  !(s.fills.any fun f => own f.wave) && !(s.mmaOps.any fun o => o.cord == uid) &&
  !(s.mosFills.any fun f => own f.wave && !f.quiet)

/-- The registers of the waves, the scratchpad and the operand stores that a cord's image takes meet their errors; true when
one cannot be corrected (R16, R113). -/
def State.saveErrors (s : State) (c : Cord) : Bool × State :=
  let waves := s.waves.filter fun w => w.cord == c.uid && w.wait != .ended
  let ranges := s.ranges.filter fun r => r.cord == c.uid
  let live := fun (id : WaveId) => waves.any fun w => w.id == id
  s.takeFlaws (dieOf c.core) fun p => match p with
    | .scratch u k => u == c.uid && decide (8 * k < c.kernel.scratch)
    | .vreg id _ _ | .oreg id _ _ | .sreg id _ => live id
    | .mos core d k => ranges.any fun r => core == r.core && d == r.side && decide (8 * k < r.start + r.len) &&
        decide (r.start < 8 * k + 8)
    | _ => false

/-- Bytes of a cord's image (R111): waves that have ended add nothing. -/
def imageBytes (c : Cord) (waves : List Wave) (ranges : List MosRange) : Nat :=
  2048 + c.kernel.scratch + (ranges.map fun r => r.len).foldl (· + ·) 0 +
    (waves.map fun w => 30976 + 392 * w.alloc).foldl (· + ·) 0

/-- A multiple of 4 KiB that holds n bytes. -/
def pageUp (n : Nat) : Nat := (n + 4095) / 4096 * 4096

/-- A wave as it is saved (R113, R228): blocked instructions that execute again, waits that go on. -/
def Wave.saved (w : Wave) : Wave :=
  match w.wait with
  | .grow _ _ _ | .tile _ _ _ | .acq _ _ | .gather _ | .pop _ _ | .push _ => { w with wait := .stalled, yield := none, delayed := none }
  | _ => { w with yield := none, delayed := none }

/-- A cord taken off its core into an image: its tenures are released as TILE.REL releases them (R110 step 4). -/
def State.takeImage (s : State) (uid : Nat) : Option Image × State :=
  match s.cordAt uid with
  | none => (none, s)
  | some c =>
    let want := c.reacq.map fun x => x.1
    let r := c.tenures.foldl (fun (p : List Nat × State) e =>
      let (t, s) := p.2.releaseEntry ((p.2.cordAt uid).getD c) e
      (p.1 ++ [t], s)) ([], s)
    let s := r.2
    let entries := c.tenures.map fun (e : TenEntry) => if want.contains e.root then { e with lapsed := none } else e
    let mine := s.waves.filter fun w => w.cord == uid
    let waves := (mine.filter fun w => w.wait != .ended).map Wave.saved
    let ended := c.ended ++ (mine.filter fun w => w.wait == .ended).map fun w => (w.index, w.endH)
    let ranges := s.ranges.filter fun x => x.cord == uid
    let own := fun (f : MosFill) => mine.any fun w => w.id == f.wave
    let m : Image := { cord := { c with tenures := entries, reacq := [], ended := ended }, waves := waves, ranges := ranges,
                       fills := s.mosFills.filter own, base := 0,
                       bytes := imageBytes c waves ranges, seed := 0, sup := waves.any fun w => w.sup, rel := r.1 }
    let cur := s.me.map fun w => w.id
    let s := mine.foldl (fun s w => s.leaveSlot w.id) s
    let s := { s with
      cords := s.cords.filter fun x => x.uid != uid
      waves := s.waves.filter fun w => w.cord != uid
      ranges := s.ranges.filter fun x => x.cord != uid
      mosFills := s.mosFills.filter fun f => !own f
      handles := s.handles.map fun (h : Handle) => { h with reqs := h.reqs.filter fun q => q.cord != uid } }
    (some m, s.setCur cur)

/-- The bytes of an image: its layout is not said, so they are free values (R111, log 11). -/
def imageData (seed n : Nat) : List Byte :=
  ((List.range (n / 8 + 1)).flatMap fun i => bytesOfNat 8 (Config.freeValue (seed + i)).toNat).take n

/-- Images written one after another from an address, each 4 KiB aligned: the images with their places, and the end. -/
def State.writeImages (tag : Nat) : List Image → Nat → State → State × Acc (List Image × Nat)
  | [], va, s => (s, .ok ([], va))
  | m :: rest, va, s =>
    let m := { m with base := va, seed := s.serial }
    let s := { s with serial := s.serial + m.bytes / 8 + 1 }
    andThen (s.viaStore (schedVia tag) va (imageData m.seed m.bytes)) fun s _ =>
    andThen (State.writeImages tag rest (va + pageUp m.bytes) s) fun s r => (s, .ok (m :: r.1, r.2))

/-- The spawned children of a context that have not begun (R139). -/
def State.unbegun (s : State) (tag : Nat) : List Rec :=
  s.recs.filter fun r => r.tag == tag && r.parent.isSome && r.stage == .taken

/-- Step 3 of R110: the images and the children that have not begun are written; the context is PREEMPTED. Images that an
earlier stop left and no core has taken yet stand first in the save area, before those of this stop: R110 orders only the
resident cords (DESIGN CHOICE, log 42). -/
def State.saveContext (s : State) (tag : Nat) (t0 : State) : State :=
  let c := s.ctx tag
  let cords := sortBy (fun (c : Cord) => c.core * 2 ^ 64 + c.order) (s.cords.filter fun c => c.tag == tag)
  let taken := cords.foldl (fun (p : List Image × State) c =>
    match p.2.takeImage c.uid with
    | (some m, s) => (p.1 ++ [m], s)
    | (none, s) => (p.1, s)) ([], s)
  let images := c.images ++ taken.1
  let s := taken.2
  let kids := s.unbegun tag
  let size := (images.map fun m => pageUp m.bytes).foldl (· + ·) 0 + 64 * kids.length
  if c.savesize < size then t0.ctxFault tag 0x54
  else match State.writeImages tag images c.savebase s with
    | (s, .ok (images, fin)) =>
      (match s.viaStore (schedVia tag) fin (kids.flatMap fun r => r.bytes) with
      | (s, .ok _) =>
        let s := { s with touches := s.touches.filter fun t =>
          !(t.tag == tag && (match t.stage with | .empty _ => true | _ => false)) }
        let s := s.modCtx tag fun c => { c with
          drain := none, savedKids := kids.map fun r => r.uid, images := sortBy (fun (m : Image) => m.cord.order) images }
        (s.setCtx tag .preempted).freeSlots tag false
      | (_, .fault _ _ _) => t0.ctxFault tag 0x56
      | (_, .bad) => t0.ctxFault tag 0x50
      | (t, .wait) => t0.waited t)
    | (_, .fault _ _ _) => t0.ctxFault tag 0x56
    | (_, .bad) => t0.ctxFault tag 0x50
    | (t, .wait) => t0.waited t

/-- DRAIN_END (R110): all outstanding operations have completed within 20 µs of the stop. -/
def execDrainEnd (tag : Nat) (s : State) : Out :=
  match (s.ctx tag).drain with
  | none => .next s
  | some t =>
    let cords := s.cords.filter fun c => c.tag == tag
    if t + 20000 < s.time ∨ ¬ cords.all fun c => s.drained c.uid then .next s
    else
      let hit := cords.foldl (fun (p : Bool × State) c =>
        let (b, s) := p.2.saveErrors c
        (p.1 || b, s)) (false, s)
      if hit.1 then .next (hit.2.ctxFault tag 0x50)
      else
        let gone := cords.flatMap fun c => c.gathers.map fun g => (c.uid, g.group)
        let s := gone.foldl (fun s x => s.dropGather x.1 x.2) hit.2
        .next (s.saveContext tag s)

/-- DRAIN_TIMEOUT (R98, R110). -/
def execDrainTimeout (tag : Nat) (s : State) : Out :=
  match (s.ctx tag).drain with
  | none => .next s
  | some t => .next (if t + 20000 < s.time then s.ctxFault tag 0x53 else s)

/-! ### The restore (R112) -/

/-- The scheduler has resumed a context when one of its queues holds a slot again. -/
def State.resumed (s : State) (tag : Nat) : Bool := s.slots.any fun x => x.tag == tag

/-- CONTEXT_RESUME (R96, R139): saved children return to the spawn buffer; with no saved cord the context is READY. -/
def execContextResume (tag : Nat) (s : State) : Out :=
  let c := s.ctx tag
  if c.st ≠ .preempted ∨ ¬ s.resumed tag then .next s
  else
    let fin := c.images.foldl (fun a m => max a (m.base + pageUp m.bytes)) c.savebase
    let read := if c.savedKids.isEmpty then (s, Acc.ok []) else s.viaLoad (schedVia tag) fin (64 * c.savedKids.length)
    match read with
    | (s, .ok _) =>
      let s := s.modCtx tag fun c => { c with savedKids := [] }
      .next (if c.images.isEmpty then s.setCtx tag .ready else s)
    | (s, .fault _ _ _) => .next (s.ctxFault tag 0x56)
    | (s, .bad) => .next (s.ctxFault tag 0x50)
    | (s, .wait) => .next s

/-- The operand-store offsets of an image's ranges are free on a core. -/
def State.rangesFree (s : State) (core : Nat) (l : List MosRange) : Bool :=
  l.all fun r => s.ranges.all fun x => x.core != core || x.side != r.side ||
    decide (r.start + r.len ≤ x.start) || decide (x.start + x.len ≤ r.start)

/-- The places that the waves of an image take on a core (R112): a cord with a wave in supervisor state takes the slots it
left. -/
def State.restoreBerths (s : State) (core : Nat) (m : Image) : Option (List (Nat × Berth)) :=
  if !m.sup then placeWaves core (m.waves.map fun w => (w.index, w.alloc / 8)) (s.berths core)
  else
    let used := s.berths core
    if m.waves.any fun w => used.any fun b => b.id == w.id then none
    else m.waves.foldl (fun (p : Option (List (Nat × Berth))) w => p.bind fun l =>
      let all := used ++ l.map fun x => x.2
      ((List.range Config.granules).find? fun g => granulesFree all w.id.part g (w.alloc / 8)).map fun g =>
        l ++ [(w.index, (⟨w.id, g, w.alloc / 8⟩ : Berth))]) (some [])

/-- What an image takes on a core, if it fits there. -/
def State.restoreFit (s : State) (m : Image) (core : Nat) : Option (Nat × List (Nat × Berth) × Nat) :=
  if m.sup && core != m.cord.core then none
  else match s.restoreBerths core m, s.scratchFor core m.cord.kernel.scratch with
    | some l, some a =>
      if m.cord.kernel.barriers.length ≤ (s.barFree core).length && s.rangesFree core m.ranges then some (core, l, a) else none
    | _, _ => none

/-- A wave as restore leaves it: it issues nothing before its horizon (R252), and an answered UPCALL has returned (R113). -/
def Wave.restored (w : Wave) (b : Berth) : Wave :=
  let w := { w with id := b.id, granule := b.first, hold := max w.hold w.horizon }
  match w.wait with
  | .upcall _ d (some x) len => (w.putS d x).next len
  | _ => w

/-- A cord restored on a core (R112): held entries wait to be acquired again, lapsed ones keep their times. -/
def State.restoreCord (s : State) (m : Image) (core : Nat) (l : List (Nat × Berth)) (scratch : Nat) : State :=
  let c := m.cord
  let held := (c.tenures.filter fun e => e.lapsed.isNone).map fun e => (e.root, e.mode)
  let entries := c.tenures.zipWith (fun (e : TenEntry) t => { e with lapsed := some (e.lapsed.getD t) }) m.rel
  let slots := s.newBars core c.kernel
  let bars := slots.map fun (b : BarSlot) => match c.bars.find? fun x => x.group == b.group with
    | some x => { x with slot := b.slot }
    | none => b
  let c := { c with core := core, scratchBase := scratch, bars := bars, tenures := entries, reacq := held, order := s.uid }
  let waves := m.waves.filterMap fun w => (l.find? fun x => x.1 == w.index).map fun x => w.restored x.2
  let new := fun (id : WaveId) => (((m.waves.find? fun w => w.id == id).bind fun w => l.find? fun x => x.1 == w.index).map
    fun x => x.2.id).getD id
  { s with
    uid := s.uid + 1
    cords := s.cords ++ [c]
    waves := s.waves ++ waves
    mosFills := s.mosFills ++ m.fills.map fun (f : MosFill) =>
      { f with wave := new f.wave, core := core, told := f.told.map fun x => (new x.1, x.2) }
    ranges := s.ranges ++ m.ranges.map fun r => { r with core := core }
    dispP := core }

/-- The image in memory is what was saved (R111). -/
def State.imageGood (s : State) (tag : Nat) (m : Image) : State × Acc Bool :=
  andThen (s.viaLocate (schedVia tag) 0 (piecesOf m.base m.bytes)) fun s l =>
    (s, .ok ((l.flatMap fun p => s.ownBytes p.1 p.2.1) == imageData m.seed m.bytes))

/-- CORD_RESTORE (R112): a restored cord acquires its tenures again in order, and otherwise the next saved cord is
placed. -/
def execCordRestore (tag : Nat) (s : State) : Out :=
  let c := s.ctx tag
  match s.cords.find? fun x => x.tag == tag && !x.reacq.isEmpty with
  | some x => .next (s.reacquire x)
  | none =>
    if ¬ (c.st = .preempted ∨ c.st = .running) ∨ c.drain.isSome ∨ ¬ s.resumed tag ∨ ¬ c.savedKids.isEmpty then .next s
    else match c.images with
      | [] => .next s
      | m :: rest => match s.coreOrder.findSome? (s.restoreFit m) with
        | none => .next s
        | some (core, l, a) => match s.imageGood tag m with
          | (s, .fault _ _ _) => .next (s.ctxFault tag 0x56)
          | (s, .bad) => .next (s.ctxFault tag 0x50)
          | (s, .wait) => .next s
          | (s, .ok false) => .next (s.ctxFault tag 0x55)
          | (s, .ok true) =>
            let t := s.restoreCord m core l a
            let t := t.modCtx tag fun c => { c with images := rest }
            let t := if c.st = .preempted then t.setCtx tag .running else t
            let uid := (t.cords.getLast?.map fun x => x.uid).getD 0
            match State.haltsAgain (t.waves.filter fun w => w.cord == uid && w.halted) t with
            | (t, .ok _) => .next (match t.cords.getLast? with | some x => t.reacquire x | none => t)
            | (_, .fault _ _ _) => .next (s.ctxFault tag 0x52)
            | (_, .bad) => .next (s.ctxFault tag 0x50)
            | (t, .wait) => .next (s.waited t)

/-! ### Wakes (R108, R109, R113, R427) -/

/-- SLEEP_DEADLINE (R109): D receives 0. -/
def execSleepDeadline (id : WaveId) (s : State) : Out :=
  .next (s.modWave id fun w => match w.wait with
    | .sleep t d len => if t ≤ s.time then (w.putS d 0).next len else w
    | _ => w)

/-- The wave blocked in an UPCALL on a mailbox entry takes its answer: at once, or in its image (R108, R113). -/
def Wave.answered (w : Wave) (entry : Nat) (x : Word64) (resident : Bool) : Wave :=
  match w.wait with
  | .upcall e d none len =>
    if e ≠ entry then w
    else if resident then (w.putS d x).next len
    else { w with wait := .upcall e d (some x) len }
  | _ => w

/-- A wake (R108, R427): ignored unless it names an answered entry of a context in RUNNING or PREEMPTED; false while a tenure
holds the entry. -/
def State.wakeEntry (s : State) (value : Word64) : State × Bool :=
  let entry := bits64 value 15 0
  let tag := bits64 value 27 16
  let c := s.ctx tag
  if bits64 value 63 28 ≠ 0 ∨ 2 ^ c.mblog2 ≤ entry ∨ ¬ (c.st = .running ∨ c.st = .preempted) then (s, true)
  else
    let va := c.mailbox + 64 * entry
    let read := andThen (s.viaLoad (schedVia tag) va 64) fun s b =>
      andThen (s.viaLocate (schedVia tag) 1 [(va, 4)]) fun s l => (s, .ok (b, l))
    match read with
    | (t, .ok (b, l)) =>
      if numAt b 0 4 ≠ 2 then (s, true)
      else
        let x := BitVec.ofNat 64 (numAt b 0x28 8)
        let mine := fun (w : Wave) => t.tagOf w == tag
        let t := { t with waves := modWhere t.waves mine fun w => w.answered entry x true }
        let t := t.modCtx tag fun c => { c with images := c.images.map fun m =>
          { m with waves := m.waves.map fun w => w.answered entry x false } }
        ((t.storePieces .engine (some tag) none true l (bytesOfNat 4 0)).2, true)
    | (t, .bad) => (t.faultLater tag, true)
    | (t, .wait) => (s.waited t, false)
    | (_, .fault _ _ _) => (s, true)

/-- NKWAKE (R108, R427): a wake that meets another core's write tenure on its entry is kept until it ends. -/
def execNkwake (value : Word64) (s : State) : Out :=
  .next (match s.wakeEntry value with
    | (s, true) => s
    | (s, false) => { s with wakes := s.wakes ++ [value] })

/-- Kept wakes, tried again. -/
def State.wakeAgain (s : State) : State :=
  s.wakes.foldl (fun s x => match s.wakeEntry x with
    | (t, true) => { t with wakes := t.wakes.erase x }
    | (t, false) => t) s

/-- EVENT_POST (R429): the die's first waiting event, once its ring has room. -/
def execEventPost (die : Nat) (s : State) : Out :=
  let at_ := s.nkevt.getD die 0
  match s.events.find? fun e => e.1 == die with
  | none => .next s
  | some (_, e) =>
    if at_ = 0 then .next s
    else
      let entry := bytesOfNat 12 (e.code + 2 ^ 8 * (e.tag % 4096) + 2 ^ 32 * (e.arg % 2 ^ 32) + 2 ^ 64 * (e.arg2 % 2 ^ 32))
      match s.ringPost unitSched 0 die at_.toNat 16 entry with
      | (s, .ok true) =>
        .next ({ s with events := s.events.erase (die, e) }.interrupt (s.nkevthart.getD die 0) 1)
      | (_, .bad) => .next (s.ctxFault 0 0x50)
      | _ => .next s

end Sys2Proof.Machine
end

