-- ==== Sys2Proof/Machine/Rays.lean ====
section
/-! DEFINITION. Rays (spec/19_rays.md R380 to R388, spec/18_geometry.md R359, R360): the node and cluster record formats,
the box and triangle tests with their roundings, the traversal of a scene, and the four instructions. -/

namespace Sys2Proof.Machine

/-! ### Reading by a unit of a rick or die (R247, R380) -/

/-- Who reads: the unit's translation cache, the context tag, the die, and the state in which it translates. -/
structure Reader where
  unit : Nat
  tag  : Nat
  die  : Nat
  sup  : Bool
  deriving DecidableEq, Repr, Inhabited

/-- The reader of an instruction of a wave. -/
def State.readerOf (s : State) (w : Wave) : Reader := ⟨w.unit, s.tagOf w, w.die, w.sup⟩

/-- The lease that a unit's cache takes on a byte's tile as an L1 does (R231, R247). -/
def State.unitLease (s : State) (pa : Nat) (e : Word64) : State :=
  if cacheMode e != .normal || ptePool e then s
  else
    let tile := s.tileOf pa (grainBytes (pteGrain e))
    let lc := match s.rootOf pa with | some h => h.rlc | none => pteLc e
    let x := s.leaseCap tile (s.time + leaseNs lc)
    s.modLease tile fun l => { l with e := max l.e x }

/-- n bytes read as a load of the unit. -/
def State.unitLoad (s : State) (r : Reader) (va n : Nat) : State × Acc (List Byte) :=
  andThen (s.locate r.unit r.tag r.die r.sup 0 none (piecesOf va n)) fun s l =>
    let s := (l.foldl (fun s p => s.unitLease p.1 p.2.2) s).useHome 0 l
    (s, .ok (l.flatMap fun p => s.homeBytes p.1 p.2.1))

/-! ### Exact FP32 steps -/

def f32v (x : Word64) : FVal := unpack .f32 x
/-- An exact result as a value for the next exact step. -/
def FExact.toVal : FExact → FVal
  | .nan _ => .nan false
  | .inf s => .inf s
  | .zero s => .fin s 0 1
  | .val s n d => .fin s n d
/-- The exact quotient of two values. -/
def exactDiv (a b : FVal) : FExact :=
  match a, b with
  | .nan _, _ => .nan false
  | _, .nan _ => .nan false
  | .inf _, .inf _ => .nan false
  | .inf s, y => .inf (s ^^ y.neg)
  | x, .inf t => .zero (x.neg ^^ t)
  | .fin s n d, .fin t p q =>
    if p = 0 then (if n = 0 then .nan false else .inf (s ^^ t)) else .ofRat (s ^^ t) (sgn s n * sgn t q) (d * p)
/-- The exact difference of two values. -/
def exactSub (a b : FVal) : FExact := exactAdd .rne a b.negate
/-- An exact result rounded to a format. -/
def rnd (f : FFmt) (m : Rnd) (x : FExact) : FVal := unpack f (x.round f m).1
/-- An FP32 word. -/
def rnd32 (x : FExact) : Word := ((x.round .f32 .rne).1).setWidth 32
/-- a ≤ b. -/
def FVal.le (a b : FVal) : Bool := !a.isNan && !b.isNan && !(b.lt a)
def fzero : FVal := .fin false 0 1
def plusInf : Word := 0x7F800000

/-- FP32 operations rounded RNE. -/
def sum32 (a b : Word64) : Word64 := (fpAdd .f32 .rne a b).1
def sub32 (a b : Word64) : Word64 := (fpSub .f32 .rne a b).1
def prod32 (a b : Word64) : Word64 := (fpMul .f32 .rne a b).1
def fma32 (a b c : Word64) : Word64 := (fpFma .f32 .rne a b c).1
/-- The correctly rounded quotient. -/
def quot32 (a b : Word64) : Word64 := ((exactDiv (f32v a) (f32v b)).round .f32 .rne).1
/-- A natural number as FP32. -/
def nat32 (n : Nat) : Word64 := (fpOfInt .f32 .rne n).1

/-! ### Rays (R381) -/

/-- A ray: origin, tmin, direction, tmax. -/
structure Ray where
  o    : List Word64
  tmin : Word64
  d    : List Word64
  tmax : Word64
  deriving DecidableEq, Repr, Inhabited

/-- Three values by axis. -/
def axis (l : List Word64) (a : Nat) : FVal := f32v (l.getD (a % 3) 0)

/-- The ray block of a lane. -/
def Wave.ray (w : Wave) (o : Opnd) (l : Nat) : Ray :=
  let x := (w.spanLane o 8 l).map fun v => (v.setWidth 64 : Word64)
  ⟨x.take 3, x.getD 3 0, (x.drop 4).take 3, x.getD 7 0⟩

/-- A ray that holds a NaN or has no direction hits nothing (R381). -/
def Ray.dead (r : Ray) : Bool :=
  (r.o ++ r.d ++ [r.tmin, r.tmax]).any (fun x => (f32v x).isNan) || r.d.all fun x => (f32v x).isZero

/-! ### Nodes (R382, R383) -/

def nodeCount (n : List Byte) : Nat := byteAt n 0xF % 8
def nodeKind (n : List Byte) (c : Nat) : Nat := byteAt n (0x28 + c)
def nodeRef (n : List Byte) (c : Nat) : Nat := numAt n (0x40 + 8 * c) 4

/-- A node breaks the table of R382, place excepted. -/
def nodeBad (n : List Byte) : Bool :=
  (List.range 3).any (fun a =>
    (match f32v (BitVec.ofNat 64 (numAt n (4 * a) 4)) with | .fin _ _ _ => false | _ => true) ||
    decide (byteAt n (0xC + a) = 0) || decide (byteAt n (0xC + a) = 255)) ||
  decide (nodeCount n = 0) || decide (4 < nodeCount n) || decide (8 ≤ byteAt n 0xF) ||
  (List.range 4).any (fun c => decide (3 < nodeKind n c) || (decide (nodeCount n ≤ c) && decide (nodeKind n c ≠ 3)) ||
    !zeroAt n (0x44 + 8 * c) 4) ||
  !zeroAt n 0x2C 20 || !zeroAt n 0x60 32

/-- A bound of a child on an axis from its byte (R383). -/
def nodeBound (m : Rnd) (n : List Byte) (a q : Nat) : FVal :=
  let step := FVal.fin false (q * 2 ^ byteAt n (0xC + a)) (2 ^ 127)
  rnd .f32 m (exactAdd .rne (f32v (BitVec.ofNat 64 (numAt n (4 * a) 4))) step)

/-- One axis of the box test (R384): the interval goes on, or the child is missed. -/
def boxAxis (r : Ray) (n : List Byte) (c : Nat) (a : Nat) (p : Word64 × Word64) : Option (Word64 × Word64) :=
  let lo := nodeBound .rdn n a (byteAt n (0x10 + 6 * c + a))
  let hi := nodeBound .rup n a (byteAt n (0x13 + 6 * c + a))
  let o := axis r.o a
  let d := axis r.d a
  if d.isZero then (if o.lt lo || hi.lt o then none else some p)
  else
    let near := if d.neg then hi else lo
    let far := if d.neg then lo else hi
    let tn := ((exactDiv (exactSub near o).toVal d).round .f32 .rdn).1
    let tf := ((exactDiv (exactSub far o).toVal d).round .f32 .rup).1
    if (f32v tn).isNan || (f32v tf).isNan then none
    else some ((fpMinMax .f32 true p.1 tn).1, (fpMinMax .f32 false p.2 tf).1)

/-- The entry distance of a child that the ray hits (R384). -/
def boxChild (r : Ray) (n : List Byte) (c : Nat) : Option Word64 :=
  if r.dead || decide (nodeCount n ≤ c) || nodeKind n c == 3 then none
  else
    match (boxAxis r n c 0 (r.tmin, r.tmax)).bind fun p => (boxAxis r n c 1 p).bind (boxAxis r n c 2) with
    | some (tn, tf) => if (f32v tn).le (f32v tf) then some tn else none
    | none => none

/-- A child goes into a list ordered by entry distance and then number. -/
def visitInsert (x : Nat × Word64) : List (Nat × Word64) → List (Nat × Word64)
  | [] => [x]
  | y :: r => if (f32v x.2).lt (f32v y.2) then x :: y :: r else y :: visitInsert x r

/-- The hit children in visiting order (R384). -/
def hitChildren (r : Ray) (n : List Byte) : List (Nat × Word64) :=
  (List.range 4).foldl (fun l c => match boxChild r n c with | some t => visitInsert (c, t) l | none => l) []

/-- The five result words of RT.BOX for a good node, and for a bad one (R384). -/
def boxWords (hits : List (Nat × Word64)) (bad : Bool) : List Word :=
  let order := hits.map (fun x => x.1) ++ (List.range 4).filter fun c => !(hits.any fun x => x.1 == c)
  let mask := (hits.map fun x => 2 ^ x.1).sum
  let num := mask + ((List.range 4).map fun i => 2 ^ (4 + 2 * i) * order.getD i 0).sum + (if bad then 2 ^ 12 else 0)
  BitVec.ofNat 32 num :: tabulate 4 fun c => match hits.find? fun x => x.1 == c with
    | some x => lo32 x.2
    | none => plusInf

/-! ### Cluster records (R359, R360) -/

/-- n bits of a stream from bit k on. -/
def streamBits (bs : List Byte) (k n : Nat) : Nat := natOfBytes bs / 2 ^ k % 2 ^ n

def recTris (h : List Byte) : Nat := byteAt h 0 % 128 + 1
def recVerts (h : List Byte) : Nat := byteAt h 1 % 128 + 1
def recQ (h : List Byte) (a : Nat) : Nat := numAt h 2 2 / 2 ^ (3 * a) % 8 + 10
def recQbad (h : List Byte) : Bool := (List.range 3).any fun a => decide (16 < recQ h a)
def recBits (h : List Byte) : Nat := recQ h 0 + recQ h 1 + recQ h 2
def recIdx (h : List Byte) : Nat := 0x40 + 16 * ceilDiv (recVerts h * recBits h) 128
def recBvh (h : List Byte) : Nat := recIdx h + 16 * ceilDiv (recTris h * 21) 128
def recNodes (h : List Byte) : Nat := byteAt h 0x3E + 1

/-- n bits from bit k of the stream at an address, read. -/
def State.streamField (s : State) (r : Reader) (va k n : Nat) : State × Acc Nat :=
  andThen (s.unitLoad r (va + k / 8) ((k % 8 + n + 7) / 8)) fun s bs => (s, .ok (streamBits bs (k % 8) n))

/-- A vertex of a record, dequantised (R360). -/
def vertexOf (h : List Byte) (bits : Nat) : List Word64 :=
  let q := fun (a : Nat) => bits / 2 ^ ((if 0 < a then recQ h 0 else 0) + (if 1 < a then recQ h 1 else 0)) % 2 ^ recQ h a
  tabulate 3 fun a =>
    ((exactFma .rne (.fin false (q a) 1) (f32v (BitVec.ofNat 64 (numAt h (0x24 + 4 * a) 4)))
      (f32v (BitVec.ofNat 64 (numAt h (0x18 + 4 * a) 4)))).round .f32 .rne).1

/-- The corners of triangle j of a record, none where it is missed (R385). -/
def State.corners (s : State) (r : Reader) (rec : Nat) (h : List Byte) (j : Nat) :
    State × Acc (Option (List (List Word64))) :=
  if recTris h ≤ j ∨ recQbad h then (s, .ok none)
  else andThen (s.streamField r (rec + recIdx h) (21 * j) 21) fun s idx =>
    let v := tabulate 3 fun c => idx / 2 ^ (7 * c) % 128
    if v.any fun i => decide (recVerts h ≤ i) then (s, .ok none)
    else
      let at_ := fun (s : State) (i : Nat) => s.streamField r (rec + 0x40) (i * recBits h) (recBits h)
      andThen (at_ s (v.getD 0 0)) fun s a => andThen (at_ s (v.getD 1 0)) fun s b =>
        andThen (at_ s (v.getD 2 0)) fun s c => (s, .ok (some [vertexOf h a, vertexOf h b, vertexOf h c]))

/-! ### The triangle test (R386) -/

/-- What the triangle test gives: t, b1, b2, and back-facing. -/
structure TriHit where
  t    : Word
  b1   : Word
  b2   : Word
  back : Bool
  deriving DecidableEq, Repr, Inhabited

/-- The axis of the largest direction, the highest among equals. -/
def bigAxis (d : List Word64) : Nat :=
  let mag := fun (a : Nat) => (d.getD a 0).toNat % 2 ^ 31
  (List.range 3).foldl (fun k a => if mag k ≤ mag a then a else k) 0

/-- The watertight test. -/
def triTest (cull : Nat) (r : Ray) (corners : List (List Word64)) : Option TriHit :=
  let kz := bigAxis r.d
  let swap := (axis r.d kz).neg
  let kx := if swap then (kz + 2) % 3 else (kz + 1) % 3
  let ky := if swap then (kz + 1) % 3 else (kz + 2) % 3
  let dz := axis r.d kz
  let r32 := fun (x : FExact) => rnd .f32 .rne x
  let r64 := fun (x : FExact) => rnd .f64 .rne x
  let sx := r32 (exactDiv (axis r.d kx) dz)
  let sy := r32 (exactDiv (axis r.d ky) dz)
  let sz := r32 (exactDiv (.fin false 1 1) dz)
  let sheared := tabulate 3 fun i =>
    let p := fun (a : Nat) => r32 (exactSub (axis (corners.getD i []) a) (axis r.o a))
    (r32 (exactFma .rne sx.negate (p kz) (p kx)), r32 (exactFma .rne sy.negate (p kz) (p ky)), r32 (exactMul sz (p kz)))
  let pt := fun (i : Nat) => sheared.getD i (fzero, fzero, fzero)
  let cross := fun (a b c d : FVal) => r64 (exactAdd .rne (exactMul a b).toVal (exactMul c d).toVal.negate)
  let (ax, ay, az) := pt 0
  let (bx, by_, bz) := pt 1
  let (cx, cy, cz) := pt 2
  let u := cross cx by_ cy bx
  let v := cross ax cy ay cx
  let w := cross bx ay by_ ax
  let det := r64 (exactAdd .rne (r64 (exactAdd .rne u v)) w)
  let tt := r64 (exactAdd .rne (r64 (exactAdd .rne (r64 (exactMul u az)) (r64 (exactMul v bz)))) (r64 (exactMul w cz)))
  let steps := [sx, sy, sz, ax, ay, az, bx, by_, bz, cx, cy, cz, u, v, w, det, tt]
  let below := u.lt fzero || v.lt fzero || w.lt fzero
  let above := fzero.lt u || fzero.lt v || fzero.lt w
  if r.dead || steps.any FVal.isNan || (below && above) || det.isZero then none
  else if (decide (cull = 1) && det.lt fzero) || (decide (cull = 2) && fzero.lt det) then none
  else
    let t := rnd32 (exactDiv tt det)
    let b1 := rnd32 (exactDiv v det)
    let b2 := rnd32 (exactDiv w det)
    let tv := f32v (t.setWidth 64)
    if (f32v r.tmin).le tv && tv.le (f32v r.tmax) && !(f32v (b1.setWidth 64)).isNan && !(f32v (b2.setWidth 64)).isNan then
      some ⟨t, b1, b2, det.lt fzero⟩
    else none

/-- The four result words of RT.TRI. -/
def triWords (h : Option TriHit) : List Word :=
  match h with
  | some h => [h.t, h.b1, h.b2, if h.back then 3 else 1]
  | none => [plusInf, 0, 0, 0]

/-! ### Traversal (R388) -/

/-- The best triangle so far: OUT index, triangle index, result. -/
structure Hit where
  k   : Nat
  j   : Nat
  hit : TriHit
  deriving DecidableEq, Repr, Inhabited

/-- What a traversal has found: the hit, and whether a bad node was met. -/
structure Found where
  best : Option Hit
  bad  : Bool
  deriving DecidableEq, Repr, Inhabited

/-- The hit that minimises (t, k, j). -/
def betterHit (a : Option Hit) (b : Hit) : Hit :=
  match a with
  | none => b
  | some a =>
    let x := f32v (a.hit.t.setWidth 64)
    let y := f32v (b.hit.t.setWidth 64)
    if y.lt x then b else if x.lt y then a
    else if b.k < a.k ∨ (b.k = a.k ∧ b.j < a.j) then b else a

/-- A traversal under way: nodes still to visit, nodes visited, what has been found. -/
structure Trav where
  todo  : List Nat
  seen  : List Nat
  found : Found
  deriving DecidableEq, Repr, Inhabited

/-- A node of an array by its index: its bytes, or none for one that is bad (R382). -/
def State.nodeAt (s : State) (r : Reader) (base count i : Nat) : State × Acc (Option (List Byte)) :=
  let va := (base + 128 * i) % 2 ^ 64
  if count ≤ i ∨ va % 128 ≠ 0 then (s, .ok none)
  else andThen (s.unitLoad r va 128) fun s n => (s, .ok (if nodeBad n then none else some n))

/-- The triangles that a node of a record gives, tested in visiting order (R388). -/
def State.nodeTris (s : State) (rd : Reader) (ray : Ray) (cull : Nat) (any : Bool) (rec k : Nat) (h : List Byte) :
    List Nat → Found → State × Acc Found
  | [], f => (s, .ok f)
  | j :: rest, f =>
    if any && f.best.isSome then (s, .ok f)
    else match s.corners rd rec h j with
      | (s, .ok c) =>
        let f := match c.bind (triTest cull ray) with
          | some x => { f with best := some (if any then ⟨k, j, x⟩ else betterHit f.best ⟨k, j, x⟩) }
          | none => f
        State.nodeTris s rd ray cull any rec k h rest f
      | (s, .fault c p a) => (s, .fault c p a)
      | (s, .bad) => (s, .bad)
      | (s, .wait) => (s, .wait)

/-- The internal BVH of a record, depth first (R388). A triangle child leads to its test in its place among the
children. -/
def State.travRecord (rd : Reader) (ray : Ray) (cull : Nat) (any : Bool) (rec k : Nat) (h : List Byte) :
    Nat → Trav → State → State × Acc Found
  | 0, t, s => (s, .ok t.found)
  | fuel + 1, t, s =>
    match t.todo with
    | [] => (s, .ok t.found)
    | x :: todo =>
      if any && t.found.best.isSome then (s, .ok t.found)
      else if x % 2 = 1 then
        andThen (s.nodeTris rd ray cull any rec k h [x / 2] t.found) fun s f =>
          State.travRecord rd ray cull any rec k h fuel ⟨todo, t.seen, f⟩ s
      else
        let i := x / 2
        if t.seen.contains i then State.travRecord rd ray cull any rec k h fuel ⟨todo, t.seen, t.found⟩ s
        else andThen (s.nodeAt rd (rec + recBvh h) (recNodes h) i) fun s n =>
          match n with
          | none => State.travRecord rd ray cull any rec k h fuel ⟨todo, i :: t.seen, { t.found with bad := true }⟩ s
          | some n =>
            if (List.range 4).any fun c => nodeKind n c == 2 then
              State.travRecord rd ray cull any rec k h fuel ⟨todo, i :: t.seen, { t.found with bad := true }⟩ s
            else
              let kids := (hitChildren ray n).map fun c => 2 * nodeRef n c.1 + (if nodeKind n c.1 = 1 then 1 else 0)
              State.travRecord rd ray cull any rec k h fuel ⟨kids ++ todo, i :: t.seen, t.found⟩ s

/-- A cluster of OUT: its record's BVH from node 0 (R374, R388). -/
def State.travCluster (s : State) (rd : Reader) (ray : Ray) (cull : Nat) (any : Bool) (out nsel k : Nat) (f : Found) :
    State × Acc Found :=
  if nsel ≤ k then (s, .ok { f with bad := true })
  else andThen (s.unitLoad rd (out + 16 * k) 16) fun s e =>
    let base := numAt e 8 8
    andThen (s.unitLoad rd base 64) fun s h =>
      State.travRecord rd ray cull any base k h (5 * recNodes h + 2) ⟨[0], [], f⟩ s

/-- The scene block of R387. -/
structure Scene where
  nodes : Nat
  out   : Nat
  nnode : Nat
  nsel  : Nat
  deriving DecidableEq, Repr, Inhabited

def sceneOf (bs : List Byte) : Scene := ⟨numAt bs 0 8, numAt bs 8 8, numAt bs 0x10 4, numAt bs 0x14 4⟩

/-- The top-level array, depth first (R388). -/
def State.travTop (rd : Reader) (ray : Ray) (cull : Nat) (any : Bool) (sc : Scene) :
    Nat → Trav → State → State × Acc Found
  | 0, t, s => (s, .ok t.found)
  | fuel + 1, t, s =>
    match t.todo with
    | [] => (s, .ok t.found)
    | x :: todo =>
      if any && t.found.best.isSome then (s, .ok t.found)
      else if x % 2 = 1 then
        andThen (s.travCluster rd ray cull any sc.out sc.nsel (x / 2) t.found) fun s f =>
          State.travTop rd ray cull any sc fuel ⟨todo, t.seen, f⟩ s
      else
        let i := x / 2
        if t.seen.contains i then State.travTop rd ray cull any sc fuel ⟨todo, t.seen, t.found⟩ s
        else andThen (s.nodeAt rd sc.nodes sc.nnode i) fun s n =>
          match n with
          | none => State.travTop rd ray cull any sc fuel ⟨todo, i :: t.seen, { t.found with bad := true }⟩ s
          | some n =>
            if (List.range 4).any fun c => nodeKind n c == 1 then
              State.travTop rd ray cull any sc fuel ⟨todo, i :: t.seen, { t.found with bad := true }⟩ s
            else
              let kids := (hitChildren ray n).map fun c => 2 * nodeRef n c.1 + (if nodeKind n c.1 = 2 then 1 else 0)
              State.travTop rd ray cull any sc fuel ⟨kids ++ todo, i :: t.seen, t.found⟩ s

/-- The traversal of a scene; an empty array has no node to meet. -/
def State.traverse (s : State) (rd : Reader) (ray : Ray) (cull : Nat) (any : Bool) (sc : Scene) : State × Acc Found :=
  State.travTop rd ray cull any sc (5 * sc.nnode + 2) ⟨if sc.nnode = 0 then [] else [0], [], ⟨none, false⟩⟩ s

/-- The five result words of RT.TRACE (R388). -/
def traceWords (f : Found) : List Word :=
  let bad : Nat := if f.bad then 0x200 else 0
  match f.best with
  | some h => [h.hit.t, h.hit.b1, h.hit.b2, BitVec.ofNat 32 h.k,
      BitVec.ofNat 32 (h.j + (if h.hit.back then 0x80 else 0) + 0x100 + bad)]
  | none => [plusInf, 0, 0, 0xFFFFFFFF, BitVec.ofNat 32 bad]

/-! ### The instructions -/

/-- A unit serves every active lane (R62, R380): all lanes complete and the results start on their way to D, or one trap
is chosen and nothing is written. A lane makes several reads and has no single address: %trapinfo names that of its first
read that faults, in the order in which the unit makes them (DESIGN CHOICE, log 53). -/
def State.unitLanes (s : State) (w : Wave) (f : Fields) (n : Nat) (one : State → Nat → State × Acc (List Word)) : Out :=
  let r := (lanesOf w.exec).foldl (fun (p : State × List (Nat × Acc (List Word))) l =>
    let (s, a) := one p.1 l
    (s, p.2 ++ [(l, a)])) (s, [])
  let s := r.1
  let traps := r.2.filterMap fun x => match x.2 with | .fault c p a => some (x.1, c, pageInfo a 0 p) | _ => Option.none
  match pickTrap false traps with
  | some (c, m, i) => s.trap c m i
  | Option.none =>
    if r.2.any fun x => match x.2 with | .bad => true | _ => false then .next (s.ctxFault (s.tagOf w) 0x50)
    else if r.2.any fun x => match x.2 with | .wait => true | _ => false then s.stall
    else s.fillLanes f w.exec (lanesFrom n (r.2.filterMap fun x => match x.2 with | .ok v => some (x.1, v) | _ => Option.none))

/-- RT.BOX (R384). -/
def execRtBox (f : Fields) (s : State) : Out :=
  s.front (.rtBox f) f .dest false fun s w =>
    let rd := s.readerOf w
    let b := s.srcB w (.int 64) false f
    s.unitLanes w f 5 fun s l =>
      let va := (laneOf b l).toNat
      if va % 128 ≠ 0 then (s, .ok (boxWords [] true))
      else andThen (s.unitLoad rd va 128) fun s n =>
        (s, .ok (if nodeBad n then boxWords [] true else boxWords (hitChildren (w.ray f.a l) n) false))

/-- RT.TRI (R385, R386). -/
def execRtTri (f : Fields) (s : State) : Out :=
  s.front (.rtTri f) f .dest false fun s w =>
    let rd := s.readerOf w
    let b := s.srcB w (.int 64) false f
    let c := s.srcC w (.int 32) f
    s.unitLanes w f 4 fun s l =>
      let base := (laneOf b l).toNat
      andThen (s.unitLoad rd base 64) fun s h =>
        andThen (s.corners rd base h ((laneOf c l).toNat % 128)) fun s x =>
          (s, .ok (triWords (x.bind (triTest (f.mbits 1 0) (w.ray f.a l)))))

/-- RT.TRI.reg (R385, R386). -/
def execRtTriReg (f : Fields) (s : State) : Out :=
  s.front (.rtTriReg f) f .dest false fun s w =>
    s.unitLanes w f 4 fun s l =>
      let x := (w.spanLane f.b 9 l).map fun v => (v.setWidth 64 : Word64)
      (s, .ok (triWords (triTest (f.mbits 1 0) (w.ray f.a l) [x.take 3, (x.drop 3).take 3, x.drop 6])))

/-- RT.TRACE (R387, R388). -/
def execRtTrace (f : Fields) (s : State) : Out :=
  s.front (.rtTrace f) f .dest false fun s w =>
    let rd := s.readerOf w
    let b := s.fieldB w (.int 64) f
    s.unitLanes w f 5 fun s l =>
      let va := wrap64 ((laneOf b l).toNat + f.imm.toInt)
      andThen (s.unitLoad rd va 32) fun s bs =>
        andThen (s.traverse rd (w.ray f.a l) (f.mbits 1 0) (f.mbits 2 2 == 1) (sceneOf bs)) fun s x =>
          (s, .ok (traceWords x))

end Sys2Proof.Machine
end

