-- ==== Sys2Proof/Machine/CutEngine.lean ====
section
/-! DEFINITION. The cut engine (spec/18_geometry.md R359 to R379): the graph's formats, the error test and the selection
rule, residency requests, the top-level BVH, the queue of jobs, CUT.GO and CUT_SUBMIT. A job runs in one step: its reads,
its result, its writes; STATUS and JOIN follow the writes' completion. -/

namespace Sys2Proof.Machine

/-! ### Reading the graph (R363 to R365, R367) -/

/-- A result for each number of a list, up to the first structure that is bad: its address. -/
def mapUntil {α : Type} (one : State → Nat → State × Acc (α ⊕ Nat)) : List Nat → State → State × Acc (List α ⊕ Nat)
  | [], s => (s, .ok (.inl []))
  | n :: rest, s => andThen (one s n) fun s x => match x with
    | .inr a => (s, .ok (.inr a))
    | .inl x => andThen (mapUntil one rest s) fun s r => (s, .ok (match r with | .inl l => .inl (x :: l) | .inr a => .inr a))

/-- A sphere: centre and radius. -/
def sphereAt (bs : List Byte) (off : Nat) : List Word64 := tabulate 4 fun i => BitVec.ofNat 64 (numAt bs (off + 4 * i) 4)
def isFin (x : Word64) : Bool := match f32v x with | .fin _ _ _ => true | _ => false
/-- A sphere that is not finite or has r < 0. -/
def sphereBad (l : List Word64) : Bool := l.any (fun x => !isFin x) || (f32v (l.getD 3 0)).lt fzero
/-- Finite and positive. -/
def positive (x : Word64) : Bool := isFin x && fzero.lt (f32v x)

/-- A graph descriptor (R363). -/
structure Graph where
  sets   : Nat
  outs   : Nat
  cdir   : Nat
  pages  : Nat
  resbm  : Nat
  nsets  : Nat
  nclust : Nat
  npages : Nat
  deriving DecidableEq, Repr, Inhabited

def graphOf (b : List Byte) : Option Graph :=
  let g : Graph := ⟨numAt b 0 8, numAt b 8 8, numAt b 0x10 8, numAt b 0x18 8, numAt b 0x20 8, numAt b 0x28 4, numAt b 0x2C 4,
    numAt b 0x30 4⟩
  if byteAt b 0x34 ≠ 0x10 ∨ !zeroAt b 0x35 11 ∨ g.sets % 16 ≠ 0 ∨ g.nsets = 0 ∨ 2 ^ 24 < g.nsets ∨ g.nclust = 0 ∨
     2 ^ 26 < g.nclust ∨ g.npages = 0 ∨ 2 ^ 24 < g.npages then none
  else some g

/-- A merge set (R364) with the sets that hold its outputs. -/
structure MergeSet where
  id     : Nat
  sphere : List Word64
  perr   : Word64
  cfirst : Nat
  ccount : Nat
  page   : Nat
  outs   : List Nat
  /-- the residency bit of its page as this job reads it. -/
  res    : Bool
  deriving DecidableEq, Repr, Inhabited

def plusInf64 : Word64 := 0x7F800000

/-- Merge set G, read and checked under R364 and R365. -/
def State.readSet (rd : Reader) (g : Graph) (s : State) (n : Nat) : State × Acc (MergeSet ⊕ Nat) :=
  let at_ := g.sets + 48 * n
  andThen (s.unitLoad rd at_ 48) fun s b =>
    let sph := sphereAt b 0
    let perr : Word64 := BitVec.ofNat 64 (numAt b 0x10 4)
    let cfirst := numAt b 0x14 4
    let ccount := numAt b 0x18 2
    let nout := numAt b 0x1A 2
    let page := numAt b 0x1C 4
    if sphereBad sph ∨ ccount = 0 ∨ g.nclust < cfirst + ccount ∨ g.npages ≤ page ∨ !zeroAt b 0x24 12 ∨
       (decide (nout = 0) != (perr == plusInf64)) then (s, .ok (.inr at_))
    else andThen (s.unitLoad rd (g.outs + 4 * numAt b 0x20 4) (4 * nout)) fun s o =>
      let outs := tabulate nout fun i => numAt o (4 * i) 4
      if outs.any fun x => decide (n ≤ x) then (s, .ok (.inr at_))
      else andThen (s.unitLoad rd (g.resbm + page / 8) 1) fun s r =>
        (s, .ok (.inl ⟨n, sph, perr, cfirst, ccount, page, outs, (byteAt r 0).testBit (page % 8)⟩))

/-- A cluster as the engine reads it: its record's address and its header's fields. -/
structure Cluster where
  id     : Nat
  rec_   : Nat
  sphere : List Word64
  group  : Nat
  prod   : Nat
  page   : Nat
  deriving DecidableEq, Repr, Inhabited

/-- PROD of a leaf cluster (R359). -/
def noProd : Nat := 0xFFFFFFFF

/-- An entry of the cluster directory, whose bits [31:12] are zero whatever page holds the cluster (R363). -/
def State.readCdir (rd : Reader) (g : Graph) (s : State) (c : Nat) : State × Acc (Nat ⊕ Nat) :=
  andThen (s.unitLoad rd (g.cdir + 4 * c) 4) fun s d =>
    (s, .ok (if 4096 ≤ numAt d 0 4 then .inr (g.cdir + 4 * c) else .inl (numAt d 0 4)))

/-- A member of a resident set, read and checked: its GROUP, its PAGE and the set that produced it (R365, R375). -/
def State.readMember (rd : Reader) (g : Graph) (sets : List MergeSet) (m : MergeSet) (page : Nat) (s : State) (c : Nat) :
    State × Acc (Cluster ⊕ Nat) :=
  andThen (State.readCdir rd g s c) fun s d => match d with
    | .inr a => (s, .ok (.inr a))
    | .inl off =>
      let at_ := page + 16 * off
      andThen (s.unitLoad rd at_ 64) fun s h =>
        let x : Cluster := ⟨c, at_, sphereAt h 8, numAt h 0x30 4, numAt h 0x34 4, numAt h 0x38 4⟩
        let prodOk := x.prod == noProd || (match sets[x.prod]? with | some p => p.outs.contains m.id | none => false)
        if x.group ≠ m.id ∨ x.page ≠ m.page ∨ !prodOk then (s, .ok (.inr at_)) else (s, .ok (.inl x))

/-- The members of one set; none when its page is not resident (R361). -/
def State.readMembers (rd : Reader) (g : Graph) (sets : List MergeSet) (s : State) (n : Nat) : State × Acc (List Cluster ⊕ Nat) :=
  match sets[n]? with
  | none => (s, .ok (.inl []))
  | some m =>
    if !m.res then (s, .ok (.inl []))
    else andThen (s.unitLoad rd (g.pages + 8 * m.page) 8) fun s p =>
      mapUntil (State.readMember rd g sets m (numAt p 0 8)) ((List.range m.ccount).map fun i => m.cfirst + i) s

/-! ### Selection (R367 to R372) -/

/-- The view: EYE, K, ε, τ. -/
structure View where
  eye : List Word64
  k   : Word64
  eps : Word64
  tau : Word64
  deriving DecidableEq, Repr, Inhabited

/-- The view block checked under R367. -/
def viewOf (b : List Byte) (tau : Word64) : Option View :=
  let v : View := ⟨(sphereAt b 0).take 3, BitVec.ofNat 64 (numAt b 0xC 4), BitVec.ofNat 64 (numAt b 0x10 4), tau⟩
  if v.eye.any (fun x => !isFin x) || !positive v.k || !positive v.eps || !zeroAt b 0x14 12 then none else some v


/-- The error test of a set (R368). -/
def setTest (v : View) (m : MergeSet) : Bool :=
  if m.perr = plusInf64 then true
  else
    let d := fun (a : Nat) => sub32 (m.sphere.getD a 0) (v.eye.getD a 0)
    let sq := fun (a : Nat) => prod32 (d a) (d a)
    let dist := (fpSqrt .f32 .rne (sum32 (sum32 (sq 0) (sq 1)) (sq 2))).1
    let den := (fpMinMax .f32 true (sub32 dist (m.sphere.getD 3 0)) v.eps).1
    (f32v v.tau).lt (f32v (quot32 (prod32 m.perr v.k) den))

/-- ref of every set, in ascending id (R369). -/
def refAll (v : View) (sets : List MergeSet) : List Bool :=
  sets.foldl (fun r m => r ++ [setTest v m && m.res && m.outs.all fun o => r.getD o false]) []

/-- The residency requests of a job: page and set, one for each page (R372). -/
def requestsOf (v : View) (sets : List MergeSet) (refs : List Bool) : List (Nat × Nat) :=
  sets.foldl (fun l m =>
    if setTest v m && !m.res && (m.outs.all fun o => refs.getD o false) && !(l.any fun x => x.1 == m.page) then l ++ [(m.page, m.id)]
    else l) []

/-- The selected clusters in ascending id (R370). -/
def selectOf (refs : List Bool) (cs : List Cluster) : List Cluster :=
  sortBy (fun c => c.id) (cs.filter fun c => refs.getD c.group false && (c.prod == noProd || !(refs.getD c.prod false)))

/-! ### The top-level BVH (R374, R383) -/

/-- A leaf's box on each axis, from its sphere. -/
def leafBox (c : Cluster) : List (Word64 × Word64) :=
  tabulate 3 fun a =>
    ((fpSub .f32 .rdn (c.sphere.getD a 0) (c.sphere.getD 3 0)).1, (fpAdd .f32 .rup (c.sphere.getD a 0) (c.sphere.getD 3 0)).1)

/-- min(floor(x), 1023) of a value that is not negative; the manual states none for a NaN (log 34). -/
def floor1023 (x : Word64) : Nat :=
  match f32v x with
  | .nan _ => Config.cutFloor x % 1024
  | .inf _ => 1023
  | .fin _ n d => min (n / d) 1023

/-- The Morton code of each centre (R374 step 2). -/
def mortonCodes (cs : List Cluster) : List Nat :=
  let axisQ := fun (a : Nat) =>
    let x := cs.map fun c => c.sphere.getD a 0
    let lo := (x.drop 1).foldl (fun m y => (fpMinMax .f32 false m y).1) (x.headD 0)
    let hi := (x.drop 1).foldl (fun m y => (fpMinMax .f32 true m y).1) (x.headD 0)
    let w := sub32 hi lo
    let sc := if (f32v w).isZero then 0 else quot32 (fpOfInt .f32 .rne 1024).1 w
    x.map fun y => floor1023 (prod32 (sub32 y lo) sc)
  let q := tabulate 3 axisQ
  let spread := fun (x : Nat) => ((List.range 10).map fun i => (x / 2 ^ i % 2) * 8 ^ i).sum
  tabulate cs.length fun i => 4 * spread ((q.getD 0 []).getD i 0) + 2 * spread ((q.getD 1 []).getD i 0) + spread ((q.getD 2 []).getD i 0)

/-- A binary radix tree over leaves, each named by its index in OUT (R374 step 4). -/
inductive Radix where
  | leaf (i : Nat)
  | node (l r : Radix)
  deriving DecidableEq, Repr, Inhabited

def Radix.leaves : Radix → List Nat
  | .leaf i => [i]
  | .node l r => l.leaves ++ r.leaves

/-- The tree of sorted leaves (key, index): split at the highest bit in which keys differ. -/
def radixTree : Nat → List (Nat × Nat) → Radix
  | 0, l => .leaf ((l.head?.map fun x => x.2).getD 0)
  | b + 1, l =>
    match l with
    | [x] => .leaf x.2
    | l =>
      let lo := l.filter fun x => !x.1.testBit b
      let hi := l.filter fun x => x.1.testBit b
      if lo.isEmpty ∨ hi.isEmpty then radixTree b l else .node (radixTree b lo) (radixTree b hi)

/-- The internal child with the most leaves, the leftmost among equals, gives way to its children (R374 step 5). -/
def widen1 (l : List Radix) : List Radix :=
  let size := fun (t : Radix) => match t with | .leaf _ => 0 | .node _ _ => t.leaves.length
  let big := (l.map size).foldl max 0
  match l.findIdx? fun t => size t == big && decide (0 < big) with
  | some i => l.take i ++ (match l.getD i (.leaf 0) with | .node a b => [a, b] | t => [t]) ++ l.drop (i + 1)
  | none => l
def collapse (t : Radix) : List Radix :=
  match t with
  | .leaf i => [.leaf i]
  | .node a b => widen1 (widen1 [a, b])

/-- A node before it is written: its leaves, and its children: kind, reference and leaves. -/
structure NodeSpec where
  leaves : List Nat
  kids   : List (Nat × Nat × List Nat)
  deriving DecidableEq, Repr, Inhabited

/-- The nodes of a tree in depth-first pre-order from index i on (R374 step 6). -/
def numberNodes : Nat → Nat → Radix → List NodeSpec
  | 0, _, _ => []
  | fuel + 1, i, t =>
    let r := (collapse t).foldl (fun (p : List (Nat × Nat × List Nat) × List NodeSpec) c =>
      match c with
      | .leaf k => (p.1 ++ [(2, k, [k])], p.2)
      | .node _ _ =>
        let sub := numberNodes fuel (i + 1 + p.2.length) c
        (p.1 ++ [(0, i + 1 + p.2.length, c.leaves)], p.2 ++ sub)) ([], [])
    ⟨t.leaves, r.1⟩ :: r.2

/-- The box of leaves on an axis. -/
def spanBox (boxes : List (List (Word64 × Word64))) (l : List Nat) (a : Nat) : Word64 × Word64 :=
  let x := l.map fun i => (boxes.getD i []).getD a (0, 0)
  (x.drop 1).foldl (fun m y => ((fpMinMax .f32 false m.1 y.1).1, (fpMinMax .f32 true m.2 y.2).1)) (x.headD (0, 0))

/-- The difference of two finite values over a step of 2^(e − 127), exactly: numerator and denominator. -/
def stepsOf (x m : Word64) (e : Nat) : Option (Int × Nat) :=
  match f32v x, f32v m with
  | .fin s n d, .fin t p q => some ((sgn s n * q - sgn t p * d) * 2 ^ 127, d * q * 2 ^ e)
  | _, _ => none

/-- The exponent byte of an axis (R383): none where no value of it fits. -/
def expOf (m hi : Word64) : Option Nat :=
  if !isFin m || !isFin hi then none
  else ((List.range 254).map fun i => i + 1).find? fun e => match stepsOf hi m e with
    | some (n, d) => decide (n ≤ 255 * (d : Int))
    | none => false

/-- A bound as a byte of a child (R383); where the manual gives none, a function of the bound (log 34). -/
def boundByte (x m : Word64) (e : Option Nat) (up : Bool) : Byte :=
  match e.bind fun e => stepsOf x m e with
  | some (n, d) => BitVec.ofInt 8 (if up then iceil n d else ifloor n d)
  | none => BitVec.ofNat 8 (Config.cutBound up x m)

/-- The 128 bytes of a node (R382, R383). -/
def nodeBytes (boxes : List (List (Word64 × Word64))) (n : NodeSpec) : List Byte :=
  let ax := tabulate 3 fun a => spanBox boxes n.leaves a
  let m := fun (a : Nat) => (ax.getD a (0, 0)).1
  let e := tabulate 3 fun a => expOf (m a) (ax.getD a (0, 0)).2
  let child := fun (c : Nat) => match n.kids[c]? with
    | some (_, _, l) =>
      (tabulate 3 fun a => boundByte (spanBox boxes l a).1 (m a) (e.getD a Option.none) false) ++
      tabulate 3 fun a => boundByte (spanBox boxes l a).2 (m a) (e.getD a Option.none) true
    | none => List.replicate 6 0
  (tabulate 3 fun a => bytesOfNat 4 (m a).toNat).flatten ++
  (tabulate 3 fun a => BitVec.ofNat 8 ((e.getD a Option.none).getD (Config.cutExp (m a) (ax.getD a (0, 0)).2))) ++ [BitVec.ofNat 8 n.kids.length] ++
  (tabulate 4 child).flatten ++ (tabulate 4 fun c => BitVec.ofNat 8 ((n.kids[c]?.map fun k => k.1).getD 3)) ++
  List.replicate 20 0 ++ (tabulate 4 fun c => bytesOfNat 8 ((n.kids[c]?.map fun k => k.2.1).getD 0)).flatten ++
  List.replicate 32 0

/-- The nodes over the selected clusters (R374). -/
def buildNodes (cs : List Cluster) : List (List Byte) :=
  if cs.isEmpty then []
  else
    let keys := (List.zip (mortonCodes cs) (List.zip cs (List.range cs.length))).map fun x => (x.1 * 2 ^ 32 + x.2.1.id, x.2.2)
    let tree := radixTree 64 (sortBy (fun x => x.1) keys)
    (numberNodes cs.length 0 tree).map (nodeBytes (cs.map leafBox))

/-! ### A job (R373 to R377) -/

/-- What a job gives: a code, counts where the manual gives them, the address of R375 and bytes to write. -/
structure CutOut where
  code  : Nat
  nsel  : Option Nat
  nnode : Option Nat
  faddr : Option Nat
  reqs  : List (Nat × Nat)
  puts  : List (Nat × List Byte)
  deriving DecidableEq, Repr, Inhabited

def cutFail (code addr : Nat) : CutOut := ⟨code, none, none, some addr, [], []⟩

def jobOutmax (b : List Byte) : Nat := numAt b 0x18 4
def jobNodemax (b : List Byte) : Nat := numAt b 0x1C 4
def jobRing (b : List Byte) : Nat := numAt b 0x28 8
def jobJoin (b : List Byte) : Nat := numAt b 0x30 8

/-- The entries of OUT (R374). -/
def outBytes (cs : List Cluster) : List Byte := cs.flatMap fun c => bytesOfNat 8 c.id ++ bytesOfNat 8 c.rec_

/-- The result of a valid graph and view. -/
def cutResult (b : List Byte) (v : View) (sets : List MergeSet) (cs : List Cluster) : CutOut :=
  let refs := refAll v sets
  let sel := selectOf refs cs
  let reqs := requestsOf v sets refs
  match sel.find? fun c => sphereBad c.sphere with
  | some c => { cutFail 4 c.rec_ with reqs := reqs }
  | none =>
    if jobOutmax b < sel.length then ⟨2, some sel.length, none, none, reqs, []⟩
    else
      let nodes := buildNodes sel
      let out := (numAt b 0x10 8, outBytes sel)
      if jobNodemax b < nodes.length then ⟨3, some sel.length, some nodes.length, none, reqs, [out]⟩
      else ⟨1, some sel.length, some nodes.length, none, reqs, [out, (numAt b 0x20 8, nodes.flatten)]⟩

/-- The reads of a job and its result: codes 4 and 5 with the address of what is bad. A translation fault is left to
the caller. -/
def State.cutCompute (s : State) (rd : Reader) (addr : Nat) (b : List Byte) : State × Acc CutOut :=
  if !zeroAt b 0x60 32 then (s, .ok (cutFail 5 addr))
  else
    let va := numAt b 8 8
    let ga := numAt b 0 8
    andThen (s.unitLoad rd va 32) fun s vb =>
      match viewOf vb (BitVec.ofNat 64 (numAt b 0x38 4)) with
      | none => (s, .ok (cutFail 5 va))
      | some v => andThen (s.unitLoad rd ga 64) fun s gb =>
        match graphOf gb with
        | none => (s, .ok (cutFail 4 ga))
        | some g => andThen (mapUntil (State.readSet rd g) (List.range g.nsets) s) fun s x =>
          match x with
          | .inr a => (s, .ok (cutFail 4 a))
          | .inl sets => andThen (mapUntil (State.readCdir rd g) (List.range g.nclust) s) fun s x =>
            match x with
            | .inr a => (s, .ok (cutFail 4 a))
            | .inl _ => andThen (mapUntil (State.readMembers rd g sets) (List.range g.nsets) s) fun s x =>
              match x with
              | .inr a => (s, .ok (cutFail 4 a))
              | .inl cs => (s, .ok (cutResult b v sets cs.flatten))

/-- A write of the engine: the ids of its writes, accepted at once. -/
def State.cutStore (s : State) (rd : Reader) (va : Nat) (bs : List Byte) : State × Acc (List Nat) :=
  s.hwStore .engine rd.unit rd.tag rd.die rd.sup va bs

/-- What a job's writes have come to: requests posted, requests dropped, and the ids of its writes. -/
structure CutRun where
  posted : Nat
  drops  : Nat
  writes : List Nat
  deriving DecidableEq, Repr, Inhabited

/-- A part of a job's writes after those before it; where it fails, what has been written stands. -/
def CutRun.go (x : State × CutRun × Acc Unit) (k : State → State × Acc (CutRun → CutRun)) : State × CutRun × Acc Unit :=
  match x with
  | (s, r, .ok _) => (match k s with
    | (s, .ok f) => (s, f r, .ok ())
    | (s, .fault c p a) => (s, r, .fault c p a)
    | (s, .bad) => (s, r, .bad)
    | (s, .wait) => (s, r, .wait))
  | x => x

def CutRun.wrote (ids : List Nat) (r : CutRun) : CutRun := { r with writes := r.writes ++ ids }

/-- One residency request (R372): TAIL is raised when the ring has room, the entry is written, and MARK is written as a
release at device scope, after every earlier write of the job (R241); a full ring drops it and writes nothing. -/
def State.cutRequest (rd : Reader) (ring page set : Nat) (x : State × CutRun × Acc Unit) : State × CutRun × Acc Unit :=
  match x with
  | (s, r, .ok _) =>
    let look := andThen (s.unitLoad rd ring 32) fun s d =>
      andThen (s.locate rd.unit rd.tag rd.die rd.sup 3 none [(ring + 0x10, 8)]) fun s l =>
        (s, .ok (numAt d 0 8, numAt d 8 8, 2 ^ (byteAt d 0x18 % 32), natOfBytes (s.latestBytes (l.headD default).1 8)))
    (match look with
    | (s, .ok (base, head, size, tail)) =>
      if size ≤ tail - head then (s, { r with drops := r.drops + 1 }, .ok ())
      else
        let va := base + 16 * (tail % size)
        let y := CutRun.go (s, r, .ok ()) fun s =>
          andThen (s.hwAtomic rd.unit rd.tag rd.die rd.sup (ring + 0x10) 8 fun t => (t + 1) % 2 ^ 64) fun s t => (s, .ok (CutRun.wrote [t.2]))
        let y := CutRun.go y fun s => andThen (s.cutStore rd va (bytesOfNat 4 page ++ bytesOfNat 4 set ++ bytesOfNat 4 0)) fun s ids =>
          (s, .ok (CutRun.wrote ids))
        let before := y.2.1.writes
        let y := CutRun.go y fun s => andThen (s.cutStore rd (va + 12) (bytesOfNat 4 (tail + 1))) fun s mark =>
          (mark.foldl (fun s i => s.notBefore ((before.map s.ctimeOf).foldl max 0) i) s, .ok (CutRun.wrote mark))
        (match y with
        | (s, r, .ok _) => (s, { r with posted := r.posted + 1 }, .ok ())
        | y => y)
    | (s, .fault c p a) => (s, r, .fault c p a)
    | (s, .bad) => (s, r, .bad)
    | (s, .wait) => (s, r, .wait))
  | x => x

/-- Bytes that nothing constrains in what the manual leaves undefined, n bytes from an address (R375, log 11); what does
not translate is left alone. -/
def State.cutUndefined (s : State) (rd : Reader) (va n : Nat) : State × Acc (List Nat) :=
  (piecesOf va n).foldl (fun p x => andThen p fun s ids =>
    let (v, s) := s.free
    match s.cutStore rd x.1 (tabulate x.2 fun i => BitVec.ofNat 8 ((v.rotateLeft i).toNat)) with
    | (s, .fault _ _ _) => (s, .ok ids)
    | (s, r) => andThen (s, r) fun s more => (s, .ok (ids ++ more))) (s, .ok [])

/-- The engine's own outputs of a result: requests, OUT and NODES. -/
def State.cutEffects (s : State) (rd : Reader) (b : List Byte) (o : CutOut) : State × CutRun × Acc Unit :=
  let x := if jobRing b = 0 then (s, ⟨0, 0, []⟩, .ok ())
    else o.reqs.foldl (fun x q => State.cutRequest rd (jobRing b) q.1 q.2 x) (s, ⟨0, 0, []⟩, .ok ())
  o.puts.foldl (fun x p => CutRun.go x fun s => andThen (s.cutStore rd p.1 p.2) fun s ids => (s, .ok (CutRun.wrote ids))) x

/-- The counts, and FADDR (R375); a field that the manual gives no value for this code holds one that the code and the
address determine (R373, log 34). -/
def State.cutCounts (s : State) (rd : Reader) (addr : Nat) (o : CutOut) (r : CutRun) : State × Acc (List Nat) :=
  let pick := fun (x : Option Nat) (i : Nat) => x.getD (Config.cutCount o.code (o.faddr.getD 0) i)
  let bytes := bytesOfNat 4 (pick o.nsel 0) ++ bytesOfNat 4 (pick o.nnode 1) ++ bytesOfNat 4 r.posted ++ bytesOfNat 4 r.drops
  andThen (s.cutStore rd (addr + 0x40) bytes) fun s a =>
    andThen (s.cutStore rd (addr + 0x58) (bytesOfNat 8 (pick o.faddr 2))) fun s b => (s, .ok (a ++ b))

def State.jobReader (j : CutJob) : Reader := ⟨unitCut j.die, j.tag, j.die, j.sup⟩

/-- A job's step has made its writes: it waits for them. -/
def State.jobRan (s : State) (j : CutJob) (code : Nat) (l : List Nat) (owed : Option (Nat × Nat)) : State :=
  { s with jobs := s.jobs.map fun x => if x.id = j.id then { x with ran := true, code := code, writes := l, owed := owed } else x }

/-- OUT and NODES where a result code leaves them undefined. -/
def State.cutSpoil (s : State) (rd : Reader) (b : List Byte) (code : Nat) : State × Acc (List Nat) :=
  andThen (if code = 1 ∨ code = 3 then (s, .ok []) else s.cutUndefined rd (numAt b 0x10 8) (16 * jobOutmax b)) fun s u =>
  andThen (if code = 1 then (s, .ok []) else s.cutUndefined rd (numAt b 0x20 8) (128 * jobNodemax b)) fun s v =>
    (s, .ok (u ++ v))

/-- The end of a job's run: OUT and NODES where they are undefined, then the counts; STATUS waits for every write that has
been made (R376). Counts that do not translate make the code 6, whatever it was (R375). -/
def State.cutFinish (s : State) (j : CutJob) (o : CutOut) (r : CutRun) : State × Acc Unit :=
  let rd := State.jobReader j
  andThen (s.cutSpoil rd j.bytes o.code) fun s u =>
  match s.cutCounts rd j.addr o r with
  | (s, .fault _ _ _) => andThen (s.cutSpoil rd j.bytes 6) fun s v =>
      (s.jobRan j 6 (r.writes ++ u ++ v) (some (r.posted, r.drops)), .ok ())
  | x => andThen x fun s c => (s.jobRan j o.code (r.writes ++ u ++ c) none, .ok ())

/-- A job's whole run (R373 to R376). -/
def State.cutJob (s : State) (j : CutJob) : State × Acc Unit :=
  let rd := State.jobReader j
  match s.cutCompute rd j.addr j.bytes with
  | (t, .wait) => (t, .wait)
  | (t, .bad) => (t, .bad)
  | (t, .fault _ _ a) => t.cutFinish j (cutFail 6 a) ⟨0, 0, []⟩
  | (t, .ok o) => (match t.cutEffects rd j.bytes o with
    | (u, r, .ok _) => u.cutFinish j o r
    | (u, _, .wait) => (u, .wait)
    | (u, _, .bad) => (u, .bad)
    | (u, r, .fault _ _ a) => u.cutFinish j (cutFail 6 a) r)

/-- CUT_JOB_RUN (R373 to R376): a free engine of the die takes the queued job that arrived first. -/
def execCutJobRun (die : Nat) (s : State) : Out :=
  let busy := (s.jobs.filter fun j => j.die == die && j.ran && !j.posted).length
  match s.jobs.find? fun j => j.die == die && !j.ran with
  | none => .next s
  | some j =>
    if 2 ≤ busy then .next s
    else match s.cutJob j with
      | (t, .bad) => .next (t.ctxFault j.tag 0x50)
      | (t, .wait) => .next (s.waited t)
      | (t, _) => .next t

/-- CUT_JOB_STATUS (R376): once every write of the job has completed, TDONE and then STATUS are written; once STATUS has
completed, JOIN is decremented and the job is gone. -/
def execCutJobStatus (die : Nat) (s : State) : Out :=
  match s.jobs.find? fun j => j.die == die && j.ran && s.allDone j.writes with
  | none => .next s
  | some j =>
    let rd := State.jobReader j
    if !j.posted then
      let owed := match j.owed with
        | none => (s, .ok [])
        | some (posted, drops) => s.cutCounts rd j.addr (cutFail 6 (j.addr + 0x40)) ⟨posted, drops, []⟩
      match andThen owed fun t c => andThen (t.cutStore rd (j.addr + 0x50) (bytesOfNat 8 s.time)) fun t a =>
          andThen (t.cutStore rd (j.addr + 0x3C) (bytesOfNat 4 j.code)) fun t b =>
            (b.foldl (fun s i => s.notBefore (((c ++ a).map s.ctimeOf).foldl max 0) i) t, .ok (c ++ a ++ b)) with
      | (t, .ok l) => .next { t with jobs := t.jobs.map fun x => if x.id = j.id then { x with posted := true, writes := l } else x }
      | (t, .wait) => .next (s.waited t)
      | (t, .bad) => .next (t.ctxFault j.tag 0x50)
      | (t, .fault _ _ _) => .next { t with jobs := t.jobs.filter fun x => x.id != j.id }
    else
      let (t, done) := s.joinDec j.tag (jobJoin j.bytes)
      .next (if done then { t with jobs := t.jobs.filter fun x => x.id != j.id } else t)

/-! ### Submission (R378, R428) -/

/-- Entries of a die's job queue. -/
def State.queuedJobs (s : State) (die : Nat) : Nat := (s.jobs.filter fun j => j.die == die && !j.ran).length

def State.addJob (s : State) (die tag addr : Nat) (sup : Bool) (b : List Byte) : State :=
  { s with jobs := s.jobs ++ [(⟨die, tag, addr, sup, b, false, 0, [], false, none, s.uid⟩ : CutJob)], uid := s.uid + 1 }

/-- A job block that CUT.GO has read enters the queue, or the wave blocks with it until an entry frees (R378). -/
def State.cutEnter (s : State) (w : Wave) (f : Fields) (addr : Nat) (b : List Byte) : Out :=
  if 16 ≤ s.queuedJobs w.die then
    (if f.m.getLsbD 0 then .next (s.modMe fun w => { w with wait := .push b }) else s.ret f 1)
  else (s.addJob w.die (s.tagOf w) addr w.sup b).ret f 0

/-- CUT.GO (R378). -/
def execCutGo (f : Fields) (s : State) : Out :=
  s.front (.cutGo f) f .dest false fun s w =>
    let addr := (s.readS w (.int 64) f.a + (lo32 (s.scalB w (.int 32) true f)).signExtend 64)
    match w.wait with
    | .push b => s.cutEnter w f addr.toNat b
    | _ =>
      if !s.released w then s.stall
      else if !canonical addr then s.trap 0x20 w.exec (pageInfo addr.toNat 0 0)
      else if addr.toNat % 128 ≠ 0 then s.ret f 2
      else State.take (s.viaLoad (s.wavesVia w) addr.toNat 128) 0 fun s b => s.cutEnter w f addr.toNat b

/-- A waiting command no longer waits. -/
def State.cutServed (s : State) (c : CutWait) : State := { s with cutWaits := s.cutWaits.erase c }

/-- A job of a hart's command enters the die's queue when there is room (R377, R428). -/
def State.cutTake (s : State) (c : CutWait) (b : List Byte) : State :=
  if 16 ≤ s.queuedJobs c.die then s
  else ((s.cutServed c).addJob c.die c.tag c.addr.toNat true b).cmdStatus c.blk stOk

/-- A command's submission on a die goes on: as cut.go.wait in supervisor state, for a context whose tables are in use (log 24).
Its job block is read once, before it waits for an entry of the queue (R378). -/
def State.cutAgain (s : State) (c : CutWait) : State :=
  let st := (s.ctx c.tag).st
  if ¬ (st = .ready ∨ st = .running ∨ st = .preempted) then (s.cutServed c).cmdStatus c.blk stBadState
  else match c.bytes with
    | some b => s.cutTake c b
    | none => match s.viaLoad ⟨unitCut c.die, c.tag, c.die, true, .engine, none⟩ c.addr.toNat 128 with
      | (s, .ok b) =>
        let d := { c with bytes := some b }
        { s with cutWaits := modWhere s.cutWaits (· == c) fun _ => d }.cutTake d b
      | (s, .bad) => ((s.cutServed c).ctxFault c.tag 0x50).cmdStatus c.blk stFault
      | (s, .fault _ _ _) => (s.cutServed c).cmdStatus c.blk stFault
      | (t, .wait) => s.waited t

/-- A command's submission begins. -/
def State.cutSubmit (s : State) (c : CutWait) : State :=
  let st := (s.ctx c.tag).st
  if (st = .ready ∨ st = .running ∨ st = .preempted) ∧ c.addr.toNat % 128 ≠ 0 then s.cmdStatus c.blk stBadCmd
  else { s with cutWaits := s.cutWaits ++ [c] }.cutAgain c

/-- CUT_SUBMIT (R377, R428), on die 0 where no hart is named (log 24). -/
def execCutSubmit (tag : Nat) (addr : Word64) (blk : Nat) (s : State) : Out := .next (s.cutSubmit ⟨0, tag, addr, blk, none⟩)

end Sys2Proof.Machine
end

