-- ==== Sys2Proof/Machine/Ports.lean ====
section
/-! DEFINITION. Host ports and peer ports (spec/20_link.md R401 to R406): the host's accesses to device memory, snoops of
pool devices, the states of a peer port, and the routes that they give. -/

namespace Sys2Proof.Machine

/-! ### The host (R250, R401) -/

/-- The host's accesses go to context 0 and, as no wave makes them, never to a supervisor page (R305). -/
def hostVia (port : Nat) : Via := ⟨unitHost, 0, port, false, .host port, none⟩

def State.hostMode (s : State) (port : Nat) : Option HostMode := (s.hosts[port]?).map fun h => h.mode
/-- What the host's last read or AtomicOp returned. -/
def State.hostAnswer (s : State) (port : Nat) (bs : List Byte) : State :=
  { s with hosts := modAt s.hosts port fun h => { h with answer := bs } }

/-- The place, width, and function of an AtomicOp. -/
def hostAtomicParts (a : HostAtomic) : Nat × Nat × (Nat → Nat) :=
  let n := fun (wide : Bool) => if wide then 8 else 4
  match a with
  | .fetchAdd va wide x => (va.toNat, n wide, fun old => (old + x.toNat) % 2 ^ (8 * n wide))
  | .swap va wide x => (va.toNat, n wide, fun _ => x.toNat % 2 ^ (8 * n wide))
  | .cas va wide c x => (va.toNat, n wide, fun old => if old = c.toNat % 2 ^ (8 * n wide) then x.toNat % 2 ^ (8 * n wide) else old)

/-- The register of R437 at an offset of BAR0. -/
def bar0Reg (off : Nat) : Option HwReg :=
  if off < 0x2000000 then none
  else
    let w := off - 0x2000000
    let n := BitVec.ofNat 3 (w % 0x40 / 8)
    if w < 0x1000 * Config.cores then
      let c := w / 0x1000
      match w % 0x1000 with
      | 0x00 => some (.dbgctl c) | 0x08 => some (.stopreq c) | 0x10 => some (.stopmode c) | 0x18 => some (.halted c)
      | 0x20 => some (.cancelled c) | 0x28 => some (.resume c)
      | o => if 0x40 ≤ o ∧ o < 0x80 ∧ o % 8 = 0 then some (.bp c n) else none
    else
      let d := (w - 0xC0000) / 0x1000
      match w % 0x1000 with
      | 0x00 => if d < 2 then some (.sampper d) else none
      | 0x08 => if d < 2 then some (.ring d) else none
      | 0x10 => if d < 2 then some (.drop d) else none
      | o =>
        if d ≠ 0 then none
        else if 0x40 ≤ o ∧ o < 0x80 ∧ o % 8 = 0 then some (.prog n)
        else match o with
          | 0x18 => some .trialctl | 0x20 => some .triallo | 0x28 => some .trialhi | 0x80 => some .cordret | 0x88 => some .insin
          | 0x90 => some .insout | _ => none

/-- What a debug register reads as (R437); RESUME is write only and reads as zero (R4). -/
def State.hwReg (s : State) (r : HwReg) : Word64 :=
  let core := fun (c : Nat) => s.dbgCores.getD c DbgCore.reset
  let die := fun (d : Nat) => s.dbgDies.getD d ⟨0, 0, 0⟩
  match r with
  | .dbgctl c => (core c).ctl
  | .stopreq c => (core c).stopreq
  | .stopmode c => (core c).stopmode
  | .halted c => (core c).halted
  | .cancelled c => (core c).cancelled
  | .resume _ => 0
  | .bp c n => (core c).bp.getD n.toNat 0
  | .sampper d => (die d).sampper
  | .ring d => (die d).ring
  | .drop d => (die d).drop
  | .trialctl => s.trial.ctl
  | .triallo => s.trial.lo
  | .trialhi => s.trial.hi
  | .prog n => s.trial.prog.getD n.toNat 0
  | .cordret => s.trial.cordret
  | .insin => s.trial.insin
  | .insout => s.trial.insout

/-- Bytes written into the boot buffer from an offset (R430, log 12). -/
def fillBuffer (buf : List Byte) (off : Nat) (bs : List Byte) : List Byte :=
  buf.take off ++ List.replicate (off - buf.length) 0 ++ bs ++ buf.drop (off + bs.length)

/-- The bytes of BAR0, and the first of the debug registers (R401, R437). -/
def bar0Bytes : Nat := 0x4000000
def bar0Debug : Nat := 0x2000000

/-- A byte of BAR0 as it reads: of a debug register, of a reserved offset, which reads as zero (R4), or of the boot buffer. -/
def State.bar0Byte (s : State) (off : Nat) : Byte :=
  if off < bar0Debug then s.boot.buffer.getD off 0
  else match bar0Reg (off / 8 * 8) with
    | some r => (bytesOfNat 8 (s.hwReg r).toNat).getD (off % 8) 0
    | none => 0

/-- The 8 bytes of a debug register at an offset, as a write of some bytes of it leaves them: what a register acts on bit by bit
gets zero in the others. -/
def State.bar0Word (s : State) (r : HwReg) (at_ off : Nat) (bs : List Byte) : Word64 :=
  let keeps := match r with | .cancelled _ | .resume _ => false | _ => true
  BitVec.ofNat 64 (natOfBytes (tabulate 8 fun i =>
    if off ≤ at_ + i then (bs[at_ + i - off]?).getD (if keeps then s.bar0Byte (at_ + i) else 0)
    else if keeps then s.bar0Byte (at_ + i) else 0))

/-- A write to BAR0: dropped in D3hot (R451); it writes the debug registers that it touches (R437), and bytes below them fill the
boot buffer (R430). -/
def State.bar0Write (s : State) (port off : Nat) (bs : List Byte) : State :=
  if (s.hosts[port]?).any fun h => h.d3hot then s
  else if off < bar0Debug then
    { s with boot := { s.boot with buffer := fillBuffer s.boot.buffer off (bs.take (bar0Debug - off)) } }
  else ((List.range ((off % 8 + bs.length + 7) / 8)).map fun i => off / 8 * 8 + 8 * i).foldl (fun s a =>
    match bar0Reg a with
    | some r => (match execRegisterWrite r (s.bar0Word r a off bs) s with | .next t => t | _ => s)
    | none => s) s

/-- A doorbell in BAR0 rings its queue as a store to DOORBELL does (R117, R401); D3hot drops it (R451). -/
def State.bar0Doorbell (s : State) (port tag q : Nat) : State :=
  if (s.hosts[port]?).any fun h => h.d3hot then s
  else match execDoorbell tag q s with | .next t => t | _ => s

/-- An access lies in BAR2: the window shows context 0 from virtual address 0 on (R401, log 27). -/
def State.inBar2 (s : State) (port va n : Nat) : Bool := decide (va + n ≤ 2 ^ ((s.hosts[port]?).map fun h => h.bar2).getD 30)

/-- One access performs (true), or waits: a read returns bytes at home; a posted write enters in its port's order
(R250); an AtomicOp performs at home, once the port's posted writes have been accepted, so that none comes between its read
and its write (R243). An access that does not translate or lies outside its window, or an AtomicOp that is not aligned,
returns nothing and changes nothing. -/
def State.hostPerform (s : State) (port : Nat) (r : HostReq) : State × Bool :=
  match r with
  | .access (.bar0Read off n) =>
    (s.hostAnswer port (if bar0Bytes < off + n then [] else tabulate n fun i => s.bar0Byte (off + i)), true)
  | .access (.bar0Write off bs) => (if bar0Bytes < off + bs.length then s else s.bar0Write port off bs, true)
  | .access (.doorbell tag q) => (s.bar0Doorbell port tag q, true)
  | .access (.resize n) =>
    (if 30 ≤ n ∧ n ≤ 39 then { s with hosts := modAt s.hosts port fun h => { h with bar2 := n } } else s, true)
  | .access (.read va n) => if !s.inBar2 port va.toNat n then (s.hostAnswer port [], true) else (match s.viaLoad (hostVia port) va.toNat n with
    | (t, .ok bs) => (t.hostAnswer port bs, true)
    | (t, .bad) => (t.ctxFault 0 0x50, true)
    | (t, .fault _ _ _) => (t.hostAnswer port [], true)
    | (t, .wait) => (s.waited t, false))
  | .access (.write va bs) => if !s.inBar2 port va.toNat bs.length then (s, true) else (match s.viaLocate (hostVia port) 1 (piecesOf va.toNat bs.length) with
    | (t, .ok l) => ((t.storePieces (.host port) (some 0) none false l bs).2, true)
    | (t, .bad) => (t.ctxFault 0 0x50, true)
    | (t, .fault _ _ _) => (t, true)
    | (t, .wait) => (s.waited t, false))
  | .atomic a =>
    let (va, n, f) := hostAtomicParts a
    if va % n ≠ 0 ∨ ¬ s.inBar2 port va n then (s.hostAnswer port [], true)
    else if s.writes.any fun w => w.agent == .host port && w.ctime.isNone then (s, false)
    else match s.viaAtomic (hostVia port) va n f with
      | (t, .ok old) => (t.hostAnswer port (bytesOfNat n old), true)
      | (t, .bad) => (t.ctxFault 0 0x50, true)
      | (t, .fault _ _ _) => (t.hostAnswer port [], true)
      | (t, .wait) => (s.waited t, false)

/-- The accesses that a port holds perform in order, up to one that waits. -/
def State.serveHost (port : Nat) : List HostReq → State → State
  | [], s => s
  | r :: rest, s =>
    match s.hostPerform port r with
    | (t, true) => State.serveHost port rest { t with hosts := modAt t.hosts port fun h => { h with held := rest } }
    | (t, false) => t

/-- An access to BAR0. -/
def HostReq.onBar0 : HostReq → Bool
  | .access (.bar0Read _ _) | .access (.bar0Write _ _) | .access (.doorbell _ _) => true
  | _ => false

/-- An access reaches a port, behind those that it holds; a port in CXL mode has no host (R401), and recovery mode presents
one function with BAR0 only, on port 0 (R432, log 12). -/
def State.hostReceive (s : State) (port : Nat) (r : HostReq) : State :=
  if s.hostMode port ≠ some .pcie ∨ (s.boot.recovery ∧ ¬ (r.onBar0 ∧ port = 0)) then s
  else
    let l := ((s.hosts[port]?.map fun h => h.held).getD []) ++ [r]
    State.serveHost port l { s with hosts := modAt s.hosts port fun h => { h with held := l } }

/-- HOST_BAR2_ACCESS (R401). -/
def execHostBar2Access (port : Nat) (a : HostAccess) (s : State) : Out := .next (s.hostReceive port (.access a))
/-- HOST_ATOMICOP (R401). -/
def execHostAtomicop (port : Nat) (a : HostAtomic) (s : State) : Out := .next (s.hostReceive port (.atomic a))

/-- BACK_INVALIDATION_SNOOP (R249, R402): the home slice's copy of a pool sector is dropped before the snoop is answered, and
a later load fetches what the pool device has made coherent: the bytes that a peer wrote, from the sector's first byte on.
This device's own writes that the pool has acknowledged stand before them in the pool's order, and those that it has not
stand after them. No port in CXL mode, no snoop (R401, R432). -/
def execBackInvalidationSnoop (p : PoolSnoop) (s : State) : Out :=
  let news := cellsAt (sectorBase p.sector) (p.bytes.take 32)
  .next (if p.sector < poolBase ∨ 2 ^ 52 ≤ p.sector ∨ ¬ s.hosts.any fun h => h.mode == .cxl then s
         else { s with
           l2 := s.l2.filter fun x => x.1 != sectorBase p.sector
           mem := cellsSet s.mem news
           writes := modWhere s.writes (fun w => w.pool && w.acked) fun w => { w with
             bytes := w.bytes.map fun c => (c.1, ((news.find? fun x => x.1 == c.1).map fun x => x.2).getD c.2) } })

/-! ### Peer ports (R404 to R406) -/

def PortState.num : PortState → Nat
  | .down => 0 | .training => 1 | .negotiating => 2 | .active => 3 | .degraded => 4 | .quiesced => 5 | .error => 6

def State.port (s : State) (p : Nat) : PeerPort := s.ports.getD p ⟨.down, .down, 0, 0, none⟩
def PeerPort.open_ (p : PeerPort) : Bool := p.st == .active || p.st == .degraded

/-- The ports of a die's route to a device id, ascending (R406). -/
def State.route (s : State) (die peer : Nat) : List Nat :=
  (List.range Config.ports).filter fun p => decide (p / 8 = die) && (s.port p).open_ && (s.port p).peer == some peer

/-- The port that a queue pair's packets leave by: QPN mod m of the route (R406). -/
def State.qpPort (s : State) (qpn : Nat) : Option Nat :=
  let r := s.route (Config.qpDie qpn).val (qpPeer (s.qpBytes qpn))
  r[qpn % r.length]?

/-- The routes recomputed: a queue pair whose port leaves its route moves, and its unacknowledged packets are sent again
(R406, R414). -/
def State.reroute (s : State) : State :=
  s.qps.foldl (fun s q =>
    let p := s.qpPort q.qpn
    if p = q.port then s
    else s.modQp q.qpn fun q => { q with port := p, unacked := q.unacked.map fun x => { x with sent := s.time } }) s

/-- A port's transition: reported as event 0x07 to the die that carries it, and the routes recomputed (R404, R429). -/
def State.portTo (s : State) (p : Nat) (f : PeerPort → PeerPort) : State :=
  let s := { s with ports := modAt s.ports p f }
  (s.post (p / 8) 7 0 p (Config.portStateCode (s.port p).st.num)).reroute

/-- A PORT command in its state, or BADSTATE; a port that the device does not have is BADCMD (R428). The port waits while its
event has no room (R429). -/
def State.portCmd (s : State) (p blk : Nat) (ok : PortState → Bool) (f : PeerPort → PeerPort) : Out :=
  if Config.ports ≤ p then .next (s.cmdStatus blk stBadCmd)
  else if !s.mayPost (p / 8) then .next s
  else if ok (s.port p).st then .next ((s.portTo p f).cmdStatus blk stOk) else .next (s.cmdStatus blk stBadState)

/-- Link training starts now. -/
def State.train (s : State) (p : PeerPort) : PeerPort := { p with st := .training, since := s.time, peer := none, width := 0 }

/-- PORT_ENABLE (R404). -/
def execPortEnable (port blk : Nat) (s : State) : Out := s.portCmd port blk (· == .down) s.train
/-- PORT_DISABLE (R404): from any state; the routes are removed. -/
def execPortDisable (port blk : Nat) (s : State) : Out :=
  s.portCmd port blk (fun _ => true) fun p => { p with st := .down, peer := none, width := 0 }
/-- PORT_QUIESCE (R404). -/
def execPortQuiesce (port blk : Nat) (s : State) : Out :=
  s.portCmd port blk (fun x => x == .active || x == .degraded) fun p => { p with st := .quiesced, before := p.st }
/-- PORT_RESUME (R404): the state before QUIESCE. -/
def execPortResume (port blk : Nat) (s : State) : Out := s.portCmd port blk (· == .quiesced) fun p => { p with st := p.before }
/-- PORT_RETRAIN (R404). -/
def execPortRetrain (port blk : Nat) (s : State) : Out := s.portCmd port blk (· == .error) s.train

/-- LINK_UP (R404): at ×4, ×2 or ×1. -/
def execLinkUp (port width : Nat) (s : State) : Out :=
  if s.mayPost (port / 8) ∧ (s.port port).st = .training ∧ (width = 4 ∨ width = 2 ∨ width = 1) then
    .next (s.portTo port fun p => { p with st := .negotiating, width := width })
  else .next s

/-- TRAINING_TIMEOUT (R404): no link after 100 ms. -/
def execTrainingTimeout (port : Nat) (s : State) : Out :=
  if s.mayPost (port / 8) ∧ (s.port port).st = .training ∧ (s.port port).since + 100000000 ≤ s.time then
    .next (s.portTo port fun p => { p with st := .down })
  else .next s

/-- VERSION_NEGOTIATION (R404, R405): this device offers 1.0, so a partner of major 1 agrees, at minor 0; the peer's
route is installed. -/
def execVersionNegotiation (port major minor peer : Nat) (s : State) : Out :=
  let _ := minor
  if (s.port port).st ≠ .negotiating ∨ ¬ s.mayPost (port / 8) then .next s
  else if major = 1 then
    .next (s.portTo port fun p => { p with st := if p.width = 4 then .active else .degraded, peer := some (peer % 256) })
  else .next (s.portTo port fun p => { p with st := .error })

/-- An open port fails: the packets that it holds are discarded and its routes removed (R404). -/
def State.portError (s : State) (port : Nat) : State :=
  if s.mayPost (port / 8) && (s.port port).open_ then
    let s := { s with heldPkts := s.heldPkts.filter fun h => h.port != port }
    s.portTo port fun p => { p with st := .error, peer := none }
  else s

/-- LANE_LOSS (R404): the link goes on narrower while a lane remains; the loss of all lanes is an error. -/
def execLaneLoss (port width : Nat) (s : State) : Out :=
  let p := s.port port
  if width = 0 then .next (s.portError port)
  else if s.mayPost (port / 8) && p.open_ && (width == 2 || width == 1) && decide (width < p.width) then
    .next (s.portTo port fun p => { p with st := .degraded, width := width })
  else .next s

/-- REPLAY_LIMIT_EXCEEDED (R404): the replay limit, or the loss of all lanes. -/
def execReplayLimitExceeded (port : Nat) (s : State) : Out := .next (s.portError port)

end Sys2Proof.Machine
end

