-- ==== Sys2Proof/Machine/Link.lean ====
section
/-! DEFINITION. Queue pairs (spec/20_link.md R407 to R416): their states, the send queue and its work requests, the
requester's packets with their resends, the responder, and QP.POST. One packet carries a request's data and, for a
WRITE_FLAG, a second one its flag (log 21). -/

namespace Sys2Proof.Machine

/-! ### Accesses of a queue pair -/

/-- The data that a queue pair's requests name (R305, log 22). -/
def qpDataVia (b : List Byte) : Via := ⟨unitQp, qpTag b, 0, false, .engine, none⟩

/-- A number in the context, little-endian. -/
def State.qpNum (s : State) (qpn off n x : Nat) : State := s.qpPut qpn off (bytesOfNat n x)

/-! ### MODIFY (R408) -/

/-- A queue pair's state for a MODIFY: none where the number is out of range. -/
def State.qpModify (s : State) (qpn blk : Nat) (ok : List Byte → Bool) (f : State → State) : Out :=
  if 2 ^ 20 ≤ qpn then .next (s.cmdStatus blk stBadCmd)
  else if ok (s.qpBytes qpn) then .next ((f s).cmdStatus blk stOk)
  else .next (s.cmdStatus blk stBadState)

/-- QP_MODIFY_INIT (R408). -/
def execQpModifyInit (qpn blk : Nat) (s : State) : Out :=
  let live := fun (b : List Byte) => let st := (s.ctx (qpTag b)).st; st == .ready || st == .running
  s.qpModify qpn blk (fun b => qpState b == 0 && !qpReserved b && live b) fun s =>
    (s.modQp qpn fun _ => Qp.empty qpn).qpSetState qpn 1
/-- QP_MODIFY_READY (R408). -/
def execQpModifyReady (qpn blk : Nat) (s : State) : Out :=
  s.qpModify qpn blk (fun b => qpState b == 1) fun s => s.qpSetState qpn 2
/-- QP_MODIFY_ACTIVE (R408). -/
def execQpModifyActive (qpn blk : Nat) (s : State) : Out :=
  s.qpModify qpn blk (fun b => qpState b == 2) fun s =>
    let p := s.qpPort qpn
    (s.modQp qpn fun q => { q with port := p }).qpSetState qpn 3
/-- QP_MODIFY_DRAIN (R408, R423). -/
def execQpModifyDrain (qpn blk : Nat) (s : State) : Out :=
  s.qpModify qpn blk (fun b => qpState b == 3) fun s =>
    let n := s.qpPosted qpn
    (s.modQp qpn fun q => { q with drainTo := n }).qpSetState qpn 4
/-- QP_MODIFY_RESET (R408): the HW fields are cleared. -/
def execQpModifyReset (qpn blk : Nat) (s : State) : Out :=
  s.qpModify qpn blk (fun b => qpState b == 5) fun s =>
    let s := s.qpPut qpn 1 [0]
    let s := s.qpNum qpn 8 3 0
    let s := s.qpNum qpn 12 3 0
    let s := { s with qps := s.qps.filter fun q => q.qpn != qpn, heldPkts := s.heldPkts.filter fun h => h.qpn != qpn }
    s.qpSetState qpn 0

/-- QP_DRAINED (R408): the last request taken has completed. -/
def execQpDrained (qpn : Nat) (s : State) : Out :=
  let s := s.qpComplete qpn
  .next (if qpState (s.qpBytes qpn) = 4 ∧ (s.qp qpn).reqs = [] ∧ (s.qp qpn).drainTo ≤ s.qpHead qpn ∧
      s.qps.any (fun q => q.qpn == qpn) then s.qpSetState qpn 2 else s)

/-! ### Work requests (R410) -/

def wrOp (r : List Byte) : Nat := byteAt r 0
def wrLen (r : List Byte) : Nat := numAt r 4 4
def wrLaddr (r : List Byte) : Nat := numAt r 8 8
def wrRaddr (r : List Byte) : Nat := numAt r 0x10 8
def wrOpnd1 (r : List Byte) : Nat := numAt r 0x18 8
def wrOpnd2 (r : List Byte) : Nat := numAt r 0x20 8
def wrSize (r : List Byte) : Nat := byteAt r 3

/-- A request that breaks the table of R410. -/
def wrBad (r : List Byte) : Bool :=
  let op := wrOp r
  decide (op = 0) || decide (4 < op) || decide (4 ≤ byteAt r 1) || !zeroAt r 0x30 12 ||
  (if op = 4 then decide (9 < byteAt r 2) || !(wrSize r == 2 || wrSize r == 3) || wrLen r != 0 || wrRaddr r % 2 ^ wrSize r != 0
   else byteAt r 2 != 0 || byteAt r 3 != 0 || decide (2 ^ 30 < wrLen r)) ||
  (op == 2 && wrOpnd2 r % 8 != 0)

/-! ### The requester (R409, R412 to R414) -/

/-- A request fails with a status (R413): ERR, the failing request's status, and the flush of every other one. -/
def State.qpFail (s : State) (qpn idx st : Nat) : State :=
  s.qpError qpn (some (idx, st))

/-- A packet leaves: it takes the next sequence number and awaits its answer (R414). -/
def State.qpEmit (s : State) (qpn : Nat) (op aop size len raddr o1 o2 : Nat) (data : List Byte) : BitVec 24 × State :=
  let n := qpNpsn (s.qpBytes qpn)
  let p : Packet := ⟨BitVec.ofNat 24 n, BitVec.ofNat 8 op, BitVec.ofNat 8 aop, BitVec.ofNat 8 size, len, BitVec.ofNat 64 raddr,
    BitVec.ofNat 64 o1, BitVec.ofNat 64 o2, data⟩
  let s := s.qpNum qpn 8 3 ((n + 1) % 2 ^ 24)
  (BitVec.ofNat 24 n, s.modQp qpn fun q => { q with unacked := q.unacked ++ [⟨p, s.time⟩] })

def State.modReq (s : State) (qpn idx : Nat) (f : QpReq → QpReq) : State :=
  s.modQp qpn fun q => { q with reqs := modWhere q.reqs (fun r => r.idx == idx) f }

/-- The flag of a WRITE_FLAG may leave: its data is acknowledged, and so is every earlier write of the queue pair, its flag
included (R412). -/
def flagReady (l : List QpReq) (r : QpReq) : Bool :=
  wrOp r.bytes == 2 && r.acked && r.flagPsn.isNone && r.status.isNone &&
  (l.takeWhile fun x => x.idx != r.idx).all fun x =>
    decide (2 < wrOp x.bytes) || x.status.isSome || (wrOp x.bytes != 2 && x.acked)

/-- A request may start (R410, R412, R414). -/
def startReady (relaxed : Bool) (q : Qp) (r : QpReq) : Bool :=
  let before := q.reqs.takeWhile fun x => x.idx != r.idx
  r.psn.isNone && r.status.isNone &&
  before.all (fun x => x.psn.isSome || x.status.isSome) &&
  (relaxed || before.all fun x => x.status.isSome) &&
  (decide (byteAt r.bytes 1 / 2 % 2 = 0) || before.all fun x => decide (wrOp x.bytes < 3)) &&
  decide (q.unacked.length < 4096) &&
  (wrOp r.bytes != 4 || decide ((q.unacked.filter fun x => x.p.op == 4).length < 16))

/-- A request starts: it is checked, the data of a write is read, and its packet leaves. False when it waits. -/
def State.qpStart (s : State) (qpn : Nat) (r : QpReq) : State × Bool :=
  let b := s.qpBytes qpn
  let w := r.bytes
  let send := fun (s : State) (op len : Nat) (data : List Byte) =>
    let (n, s) := s.qpEmit qpn op (byteAt w 2) (wrSize w) len (wrRaddr w) (wrOpnd1 w) (wrOpnd2 w) data
    (s.modReq qpn r.idx fun (x : QpReq) => { x with psn := some n }, true)
  if wrBad w then (s.qpFail qpn r.idx 6, true)
  else if 2 < wrOp w then send s (wrOp w) (wrLen w) []
  else match s.viaLoad (qpDataVia b) (wrLaddr w) (wrLen w) with
    | (s, .ok bs) => send s 1 (wrLen w) bs
    | (s, .fault _ _ _) => (s.qpFail qpn r.idx 5, true)
    | (s, .bad) => (s.ctxFault (qpTag b) 0x50, true)
    | (t, .wait) => (s.waited t, false)

/-- What a queue pair can send is sent, up to n packets (R408, R412, R415). -/
def State.qpSend (qpn : Nat) : Nat → State → State
  | 0, s => s
  | n + 1, s =>
    let q := s.qp qpn
    let b := s.qpBytes qpn
    if (qpState b ≠ 3 ∧ qpState b ≠ 4) ∨ q.backoff.isSome then s
    else match q.reqs.find? fun r => flagReady q.reqs r && decide (q.unacked.length < 4096) with
      | some r =>
        let (k, s) := s.qpEmit qpn 2 0 0 8 (wrOpnd2 r.bytes) 0 0 (bytesOfNat 8 (wrOpnd1 r.bytes))
        State.qpSend qpn n (s.modReq qpn r.idx fun (x : QpReq) => { x with flagPsn := some k })
      | none => match q.reqs.find? (startReady (qpRelaxed b) q) with
        | none => s
        | some r => match s.qpStart qpn r with
          | (s, true) => State.qpSend qpn n s
          | (s, false) => s

/-- Completions are written, and what can be sent is sent. -/
def State.qpAdvance (s : State) (qpn : Nat) : State :=
  let s := s.qpComplete qpn
  State.qpSend qpn (2 * (s.qp qpn).reqs.length) s

/-- The published entry at HEAD of the send queue: the descriptor, HEAD and the entry (R117, R409). -/
def State.qpPublished (s : State) (qpn : Nat) : State × Acc (Option (List Byte × Nat × List Byte)) :=
  let b := s.qpBytes qpn
  let v := qpRingVia b
  andThen (s.viaLoad v (qpSq b) 64) fun s d =>
    let head := s.qpHead qpn
    andThen (s.viaLoad v (entryVa d head) 64) fun s e =>
      (s, .ok (if numAt e 0x3C 4 = (head + 1) % 2 ^ 32 then some (d, head, e) else none))

/-- The request at HEAD is taken: HEAD advances past it (R409); in ERROR it is FLUSHED (R413). -/
def State.qpTake (s : State) (qpn : Nat) (err : Bool) : State × Acc Bool :=
  let b := s.qpBytes qpn
  andThen (s.qpPublished qpn) fun s x =>
    match x with
    | none => (s, .ok false)
    | some (_, head, e) => andThen (s.viaStore (qpRingVia b) (qpSq b + 0x18) (bytesOfNat 8 (head + 1))) fun s _ =>
      let r : QpReq := ⟨head, e, none, none, false, if err then some 1 else none, 0, []⟩
      (s.modQp qpn fun q => { q with reqs := q.reqs ++ [r] }, .ok true)

/-- WORK_REQUEST_TAKE (R409, R413). -/
def execWorkRequestTake (qpn : Nat) (s : State) : Out :=
  let st := qpState (s.qpBytes qpn)
  let s := s.qpAdvance qpn
  let open_ := st == 3 || st == 5 || (st == 4 && decide (s.qpHead qpn < (s.qp qpn).drainTo))
  if !(s.qps.any fun q => q.qpn == qpn) || !open_ then .next s
  else match s.qpTake qpn (st == 5) with
    | (t, .ok true) => .next (t.qpAdvance qpn)
    | (t, .ok false) => .next t
    | (t, .bad) => .next (t.ctxFault (qpTag (s.qpBytes qpn)) 0x50)
    | (t, .wait) => .next (s.waited t)
    | (t, .fault _ _ _) => .next t

/-! ### Answers (R412 to R415) -/

/-- What an answer does to the request whose packet it answers (R412): a READ's data and an ATOMIC's old value are
written to LADDR. False when that write waits. -/
def State.qpAnswer (s : State) (qpn : Nat) (r : QpReq) (a : Ack) : State × Bool :=
  let b := s.qpBytes qpn
  let w := r.bytes
  let finish := fun (s : State) (res : Word64) (ids : List Nat) =>
    s.modReq qpn r.idx fun (x : QpReq) => { x with acked := true, status := some 0, result := res, writes := ids }
  let store := fun (bs : List Byte) (res : Word64) => match s.viaStore (qpDataVia b) (wrLaddr w) bs with
    | (s, .ok ids) => (finish s res ids, true)
    | (s, .fault _ _ _) => (s.qpFail qpn r.idx 5, true)
    | (s, .bad) => (s.ctxFault (qpTag b) 0x50, true)
    | (t, .wait) => (s.waited t, false)
  if a.refused then (s.qpFail qpn r.idx 2, true)
  else match wrOp w with
    | 1 => (finish s 0 [], true)
    | 2 => (if r.flagPsn = some a.psn then finish s 0 [] else s.modReq qpn r.idx fun (x : QpReq) => { x with acked := true }, true)
    | 3 => store a.data 0
    | _ =>
      let old := a.result.toNat % 2 ^ (8 * 2 ^ wrSize w)
      store (bytesOfNat (2 ^ wrSize w) old) (BitVec.ofNat 64 old)

/-- An answer that has arrived goes to its request; one whose local write waits, for first touch or for the end of a write
tenure, is kept until it can be made. -/
def State.ackGo (s : State) (qpn : Nat) (a : Ack) : State :=
  let s := s.modQp qpn fun q => { q with acks := q.acks.erase a }
  match (s.qp qpn).reqs.find? fun r => r.status.isNone && (r.psn == some a.psn || r.flagPsn == some a.psn) with
  | none => s
  | some r => match s.qpAnswer qpn r a with
    | (t, true) => t.qpAdvance qpn
    | (t, false) => t.modQp qpn fun q => { q with acks := a :: q.acks }

/-- ACK_RECEIVE (R412): the answer to a packet that awaits one; any other is ignored. -/
def execAckReceive (qpn : Nat) (a : Ack) (s : State) : Out :=
  if !((s.qp qpn).unacked.any fun x => x.p.psn == a.psn) then .next s
  else .next ((s.modQp qpn fun q => { q with
    unacked := q.unacked.filter fun x => x.p.psn != a.psn, retries := 0, rnr := 0 }).ackGo qpn a)

/-- The packets from a number on are sent again (R414). -/
def State.qpResend (s : State) (qpn : Nat) (p : SentPacket → Bool) : State :=
  s.modQp qpn fun q => { q with unacked := modWhere q.unacked p fun (x : SentPacket) => { x with sent := s.time } }

/-- SEQUENCE_NAK (R414): sent again from EPSN, which does not count against RETRY. -/
def execSequenceNak (qpn : Nat) (epsn : BitVec 24) (s : State) : Out :=
  .next (s.qpResend qpn fun x => decide ((x.p.psn - epsn).toNat < 2 ^ 23))

/-- The request of the oldest unacknowledged packet fails. -/
def State.qpFailOldest (s : State) (qpn st : Nat) : State :=
  let q := s.qp qpn
  match q.unacked.head?.bind fun x => q.reqs.find? fun r => r.psn == some x.p.psn || r.flagPsn == some x.p.psn with
  | some r => s.qpFail qpn r.idx st
  | none => s

/-- ACK_TIMEOUT (R414): ACKTO has passed for the oldest packet; resent, or RETRY_EXCEEDED. -/
def execAckTimeout (qpn : Nat) (s : State) : Out :=
  let q := s.qp qpn
  let b := s.qpBytes qpn
  match q.unacked.head? with
  | none => .next s
  | some x =>
    if q.backoff.isSome ∨ s.time < x.sent + 1000 * qpAckto b then .next s
    else if q.retries < qpRetry b then
      .next ((s.modQp qpn fun q => { q with retries := q.retries + 1 }).qpResend qpn fun _ => true)
    else .next (s.qpFailOldest qpn 3)

/-- RECEIVER_NOT_READY (R415): the answer starts a backoff or fails the request with RNR_EXCEEDED; once the backoff has
passed, the next attempt is sent. -/
def execReceiverNotReady (qpn : Nat) (s : State) : Out :=
  let q := s.qp qpn
  if q.unacked.isEmpty then .next s
  else match q.backoff with
    | some t =>
      if s.time < t then .next s
      else .next (((s.modQp qpn fun q => { q with backoff := none }).qpResend qpn fun _ => true).qpAdvance qpn)
    | none =>
      let lim := qpRnrlim (s.qpBytes qpn)
      if lim ≠ 15 ∧ lim ≤ q.rnr then .next (s.qpFailOldest qpn 4)
      else .next (s.modQp qpn fun q => { q with backoff := some (s.time + 1000 * 2 ^ min q.rnr 10), rnr := q.rnr + 1 })

/-! ### The responder (R412, R414, R415) -/

def State.qpReply (s : State) (qpn : Nat) (a : Answer) : State := s.modQp qpn fun q => { q with answers := q.answers ++ [a] }
def ackOk (p : BitVec 24) (data : List Byte) (res : Word64) : Answer := .ack ⟨p, false, data, res⟩
def ackRefused (p : BitVec 24) : Answer := .ack ⟨p, true, [], 0⟩

/-- A packet's atomic at home (R243): the old value and its writes. -/
def State.packetAtomic (s : State) (v : Via) (p : Packet) : State × Acc (Nat × List Nat) :=
  let n := 2 ^ p.size.toNat
  andThen (s.viaLocate v 3 [(p.raddr.toNat, n)]) fun s l =>
    let (pa, _, e) := l.headD default
    let old := natOfBytes (s.latestBytes pa n)
    let new := atomNew p.aop.toNat (8 * n) old (p.opnd1.toNat % 2 ^ (8 * n)) (p.opnd2.toNat % 2 ^ (8 * n))
    let (id, s) := s.putHome .engine (some v.tag) none pa e (bytesOfNat n new)
    (s, .ok (old, [id]))

/-- A packet performs in the queue pair's context (R412): its old value or data, and the writes that its answer waits
for. -/
def State.packetPerform (s : State) (b : List Byte) (p : Packet) : State × Acc (List Byte × Word64 × List Nat) :=
  let v := qpDataVia b
  match p.op.toNat with
  | 3 => andThen (s.viaLoad v p.raddr.toNat p.len) fun s bs => (s, .ok (bs, 0, []))
  | 4 =>
    if 9 < p.aop.toNat ∨ (p.size ≠ 2 ∧ p.size ≠ 3) ∨ p.raddr.toNat % 2 ^ p.size.toNat ≠ 0 then (s, .fault 0x23 0 p.raddr.toNat)
    else andThen (s.packetAtomic v p) fun s x => (s, .ok ([], BitVec.ofNat 64 x.1, x.2))
  | _ => andThen (s.viaStore v p.raddr.toNat p.data) fun s ids => (s, .ok ([], 0, ids))

/-- The packet whose turn it is executes, and EPSN advances; it waits (false) for the end of a write tenure. A packet
that is refused is not executed (log 21). -/
def State.packetRun (s : State) (qpn : Nat) (p : Packet) : State × Bool :=
  let b := s.qpBytes qpn
  match s.packetPerform b p with
  | (t, .wait) => (s.waited t, false)
  | (t, .bad) => (t.ctxFault (qpTag b) 0x50, true)
  | (t, .fault _ _ _) => (t.qpReply qpn (ackRefused p.psn), true)
  | (t, .ok (data, res, ids)) =>
    let t := t.qpNum qpn 12 3 ((qpEpsn b + 1) % 2 ^ 24)
    let t := if p.op = 4 then t.modQp qpn fun q => { q with results := (q.results ++ [(p.psn, res)]).drop (q.results.length - 15) } else t
    (if ids.isEmpty then t.qpReply qpn (ackOk p.psn data res)
     else t.modQp qpn fun q => { q with pending := q.pending ++ [(p.psn, ids)] }, true)

/-- A duplicate (R414): a write is acknowledged once it has completed, a READ executed again, an ATOMIC answered from its
stored result. -/
def State.packetAgain (s : State) (qpn : Nat) (p : Packet) : State × Bool :=
  let q := s.qp qpn
  let b := s.qpBytes qpn
  if q.pending.any fun x => x.1 == p.psn then (s, true)
  else match p.op.toNat with
    | 3 => (match s.packetPerform b p with
      | (t, .wait) => (s.waited t, false)
      | (t, .bad) => (t.ctxFault (qpTag b) 0x50, true)
      | (t, .fault _ _ _) => (t.qpReply qpn (ackRefused p.psn), true)
      | (t, .ok (data, _, _)) => (t.qpReply qpn (ackOk p.psn data 0), true))
    | 4 => (match q.results.find? fun x => x.1 == p.psn with
      | some x => (s.qpReply qpn (ackOk p.psn [] x.2), true)
      | none => (s, true))
    | _ => (s.qpReply qpn (ackOk p.psn [] 0), true)

/-- A packet whose context is at hand meets the responder (R408, R414, R423). -/
def State.packetMeet (s : State) (qpn : Nat) (p : Packet) : State × Bool :=
  let b := s.qpBytes qpn
  let e := BitVec.ofNat 24 (qpEpsn b)
  match qpState b with
  | 2 | 3 | 4 =>
    if p.psn = e then s.packetRun qpn p
    else if (p.psn - e).toNat < 2 ^ 23 then (s.qpReply qpn (.seqNak e), true)
    else s.packetAgain qpn p
  | 5 => (s.qpReply qpn (ackRefused p.psn), true)
  | _ => (s, true)

/-- The die holds the queue pair's context. -/
def State.qpCached (s : State) (die qpn : Nat) : Bool := (s.qp qpn).cached.contains die

/-- PACKET_RECEIVE (R414, R415): a packet arrives at an open port. Where its context is not in the die's cache, or
earlier packets of its queue pair are still held, it waits in the port's buffer of 64, and receiver-not-ready answers it
when the buffer is full. -/
def execPacketReceive (port qpn : Nat) (p : Packet) (s : State) : Out :=
  if !(s.port port).open_ || decide (2 ^ 20 ≤ qpn) then .next s
  else
    let held := s.heldPkts.any fun h => h.port == port && h.qpn == qpn
    let hold := fun (s : State) =>
      if 64 ≤ (s.heldPkts.filter fun h => h.port == port).length then s.qpReply qpn (.rnr p.psn)
      else { s with heldPkts := s.heldPkts ++ [(⟨port, qpn, p⟩ : HeldPacket)] }
    if held ∨ !s.qpCached (port / 8) qpn then .next (hold s)
    else match s.packetMeet qpn p with
      | (t, true) => .next t
      | (t, false) => .next (hold t)

/-- The packets that a die's ports hold for a queue pair leave in arrival order, up to one that waits. -/
def State.releaseHeldPkts (die qpn : Nat) : List HeldPacket → State → State
  | [], s => s
  | h :: rest, s =>
    if h.qpn ≠ qpn ∨ h.port / 8 ≠ die then State.releaseHeldPkts die qpn rest s
    else match s.packetMeet qpn h.p with
      | (t, true) => State.releaseHeldPkts die qpn rest { t with heldPkts := t.heldPkts.erase h }
      | (t, false) => t

/-- QP_CONTEXT_FETCH (R407, R415): the context enters the die's cache of 4,096, and held packets leave in order. -/
def execQpContextFetch (die qpn : Nat) (s : State) : Out :=
  let inDie := s.qps.filter fun q => q.cached.contains die
  let s := if s.qpCached die qpn ∨ inDie.length < 4096 then s
    else match inDie.head? with
      | some x => s.modQp x.qpn fun q => { q with cached := q.cached.erase die }
      | none => s
  let s := s.modQp qpn fun q => { q with cached := if q.cached.contains die then q.cached else q.cached ++ [die] }
  .next (State.releaseHeldPkts die qpn s.heldPkts s)

/-- A responder's writes have completed: the packet is acknowledged (R412). -/
def State.endAnswers (s : State) : State :=
  s.qps.foldl (fun s q => (q.pending.filter fun x => s.allDone x.2).foldl (fun s x =>
    let res := (((s.qp q.qpn).results.find? fun y => y.1 == x.1).map fun y => y.2).getD 0
    (s.modQp q.qpn fun q => { q with pending := q.pending.filter fun y => y.1 != x.1 }).qpReply q.qpn (ackOk x.1 [] res)) s) s

/-! ### QP.POST (R416) -/

/-- A work request that QP.POST has read and checked enters the send queue, or the wave blocks with it until HEAD advances
(R416). -/
def State.postEnter (s : State) (w : Wave) (f : Fields) (q : Nat) (r : List Byte) : Out :=
  let v := s.wavesVia w
  let desc := qpSq (s.qpBytes q)
  State.take (s.viaLoad v desc 64) 0 fun s d =>
  State.take (s.viaPeek v (desc + 0x10) 8) 3 fun s resv =>
    if 2 ^ descLog2 d ≤ resv - descHead d then
      (if f.m.getLsbD 0 then .next (s.modMe fun w => { w with wait := .push r }) else s.ret f 1)
    else State.take (s.ringAdd v desc d resv [r]) 1 fun s _ => s.ret f 0

/-- QP.POST (R416). -/
def execQpPost (f : Fields) (s : State) : Out :=
  s.front (.qpPost f) f .dest false fun s w =>
    let q := s.natB w f
    let a := (s.readS w (.int 64) f.a).toNat
    let b := s.qpBytes q
    match w.wait with
    | .push r => s.postEnter w f q r
    | _ =>
      if !s.released w then s.stall
      else if 2 ^ 20 ≤ q ∨ qpTag b ≠ s.tagOf w then s.ret f 3
      else if qpState b ≠ 3 then s.ret f 2
      else if a % 64 ≠ 0 then s.ret f 4
      else State.take (s.viaLoad (s.wavesVia w) a 64) 0 fun s r =>
        if wrBad r then s.ret f 4 else s.postEnter w f q r

end Sys2Proof.Machine
end

