-- ==== Sys2Proof/Machine/Collective.lean ====
section
/-! DEFINITION. Collectives (spec/20_link.md R417 to R422): communicators, descriptors, the elements that each operation
forms, the statuses, and COLL and COLL.WAIT. What the other ranks bring comes from outside the device. -/

namespace Sys2Proof.Machine

/-! ### Communicators (R417) -/

/-- An argument of COMM_CREATE out of its range (R417). -/
def commBad (index n rank timeout : Nat) : Bool :=
  decide (64 ≤ index) || decide (n < 2) || decide (256 < n) || decide (n ≤ rank) || decide (timeout < 1000) ||
    decide (10000000 < timeout)

/-- The communicator with a list of device ids, in place of any of its index. -/
def State.commCreate (s : State) (tag index rank timeout blk : Nat) (ids : List Nat) : State :=
  let c : Comm := ⟨tag, index, ids, rank, 1000 * timeout, 0⟩
  { s with comms := (s.comms.filter fun (x : Comm) => !(x.tag == tag && x.index == index)) ++ [c] }.cmdStatus blk stOk

/-- COMM_CREATE (R417, R428): the list of N device ids, one byte each (log 23), loaded from a physical address; a list
where there is no memory gives FAULT, and one under write tenure is loaded once it ends. -/
def execCommCreate (tag index list n rank timeout blk : Nat) (s : State) : Out :=
  .next (if commBad index n rank timeout then s.cmdStatus blk stBadCmd
         else match s.locatePhys 0 (piecesOf list n) with
          | (s, .ok l) => s.commCreate tag index rank timeout blk ((s.pieceBytes l).map BitVec.toNat)
          | (t, .wait) => s.waited t
          | (s, _) => s.cmdStatus blk stFault)

def State.comm (s : State) (tag index : Nat) : Option Comm := s.comms.find? fun c => c.tag == tag && c.index == index

/-! ### Descriptors (R418) -/

def collOpc (d : List Byte) : Nat := byteAt d 0
def collTy (d : List Byte) : Nat := byteAt d 1
def collRop (d : List Byte) : Nat := byteAt d 2
def collMode (d : List Byte) : Nat := byteAt d 3
def collComm (d : List Byte) : Nat := numAt d 4 2
def collRoot (d : List Byte) : Nat := byteAt d 6
def collSrc (d : List Byte) : Nat := numAt d 8 8
def collDst (d : List Byte) : Nat := numAt d 0x10 8
def collCount (d : List Byte) : Nat := numAt d 0x18 4
/-- Bytes of an element; 0 for a type that R418 does not list. -/
def collElem (d : List Byte) : Nat :=
  match collTy d with
  | 0x2 | 0x6 | 0xC => 4
  | 0x3 | 0x7 | 0xD => 8
  | 0xA | 0xB => 2
  | _ => 0
/-- Elements of the destination, for N ranks. -/
def collOut (d : List Byte) (n : Nat) : Nat :=
  match collOpc d with
  | 2 => collCount d / n
  | 3 => n * collCount d
  | 1 | 4 => collCount d
  | _ => 0

/-- A descriptor of a communicator of n ranks breaks R418. -/
def collDescBad (n : Nat) (d : List Byte) : Bool :=
    let op := collOpc d
    let e := collElem d
    let sb := collCount d * e
    let db := collOut d n * e
    let src := collSrc d
    let dst := collDst d
    decide (op = 0) || decide (4 < op) || decide (e = 0) || decide (2 < collRop d) ||
    (decide (3 ≤ op) && collRop d != 0) || decide (1 < collMode d) || (op != 4 && collRoot d != 0) || decide (n ≤ collRoot d) ||
    byteAt d 7 != 0 || src % e != 0 || dst % e != 0 || decide (collCount d = 0) || decide (2 ^ 30 < collCount d) ||
    !zeroAt d 0x1C 4 || !zeroAt d 0x24 4 || !zeroAt d 0x30 16 ||
    (collMode d == 1 && !(collTy d == 0xC && collRop d == 0)) || (op == 2 && collCount d % n != 0) ||
    (decide (src < dst + db) && decide (dst < src + sb) && !(op == 1 && src == dst))

/-- A descriptor that fails R418, or that is not 64-byte aligned (R421). -/
def collBad (s : State) (tag addr : Nat) (d : List Byte) : Bool :=
  match s.comm tag (collComm d) with
  | none => true
  | some c => addr % 64 != 0 || collDescBad c.ids.length d

/-! ### Elements (R419) -/

/-- One step of a reduction in DTYPE. -/
def collStep (ty rop : Nat) (a b : Word64) : Word64 :=
  let w := tyWidth ty
  if 0xA ≤ ty then
    let f := FFmt.ofTy ty
    if rop = 0 then (fpAdd f .rne a b).1 else (fpMinMax f (rop == 2) a b).1
  else
    let x := readInt (tySigned ty) w a.toNat
    let y := readInt (tySigned ty) w b.toNat
    let r := if rop = 0 then x + y else if rop = 1 then min x y else max x y
    BitVec.ofNat 64 ((r % 2 ^ w).toNat)

/-- The reduction of the ranks' values of one element, in rank order (RANK) or exactly (EXACT). -/
def collReduce (d : List Byte) (x : List Word64) : Word64 :=
  if collMode d = 1 then (xaRound (x.foldl xaAdd 0)).1
  else match x with
    | [] => 0
    | a :: r => r.foldl (collStep (collTy d) (collRop d)) a

/-- The destination's elements at rank r of N, from every rank's source. -/
def collResult (d : List Byte) (r n : Nat) (src : List (List Word64)) : List Word64 :=
  let at_ := fun (i : Nat) => collReduce d (src.map fun x => x.getD i 0)
  match collOpc d with
  | 1 => tabulate (collCount d) at_
  | 2 => tabulate (collCount d / n) fun i => at_ (r * (collCount d / n) + i)
  | 3 => src.flatten
  | _ => src.getD (collRoot d) []

/-! ### A collective's run (R419, R420) -/

/-- The elements of bytes. -/
def elemsOf (e : Nat) (bs : List Byte) : List Word64 := tabulate (bs.length / e) fun i => BitVec.ofNat 64 (numAt bs (i * e) e)

def State.coll (s : State) (id : Nat) : Option Collect := s.colls.find? fun c => c.id == id
def State.modColl (s : State) (id : Nat) (f : Collect → Collect) : State :=
  { s with colls := modWhere s.colls (fun c => c.id == id) f }

/-- Who moves a collective's data: a stoker engine of its die, for its context. -/
def collReader (c : Collect) : Reader := ⟨unitStoker c.engine, c.tag, c.die, false⟩

/-- A collective ends with a status; where that is not DONE its destination is undefined (log 11). -/
def State.collEndBy (s : State) (c : Collect) (n status : Nat) (ids : List Nat) : State × Acc Unit :=
  andThen (if status = 1 then (s, .ok []) else s.cutUndefined (collReader c) (collDst c.bytes) (collOut c.bytes n * collElem c.bytes)) fun s u =>
    (s.modColl c.id fun x => { x with outcome := some status, writes := ids ++ u }, .ok ())

/-- The same; it ends later where its destination waits for the end of a write tenure. -/
def State.collEnd (s : State) (c : Collect) (n status : Nat) (ids : List Nat) : State :=
  match s.collEndBy c n status ids with
  | (t, .bad) => t.ctxFault c.tag 0x50
  | (t, .wait) => s.waited t
  | (t, _) => t

/-- A rank of the communicator that the die's routes do not reach (R406, R420). -/
def State.collCut (s : State) (c : Collect) (m : Comm) : Bool :=
  (List.range m.ids.length).any fun i => i != m.rank && (s.route c.die (m.ids.getD i 0)).isEmpty

/-- The descriptors of two ranks agree (R420). -/
def collAgree (a b : List Byte) : Bool :=
  collOpc a == collOpc b && collTy a == collTy b && collRop a == collRop b && collMode a == collMode b &&
  collCount a == collCount b && collRoot a == collRoot b

/-- The stoker engines perform a collective of which every rank has joined. -/
def State.collPerform (s : State) (c : Collect) (m : Comm) (ranks : List RankInput) : State :=
  let d := c.bytes
  let n := m.ids.length
  let e := collElem d
  let rd := collReader c
  match s.unitLoad rd (collSrc d) (collCount d * e) with
  | (t, .wait) => s.waited t
  | (t, .bad) => t.ctxFault c.tag 0x50
  | (t, .fault _ _ _) => t.collEnd c n 5 []
  | (t, .ok bs) =>
    let src := tabulate n fun i =>
      if i = m.rank then elemsOf e bs else ((ranks.find? fun r => r.rank == i).map fun r => r.data).getD []
    let out := (collResult d m.rank n src).flatMap fun x => bytesOfNat e x.toNat
    match t.cutStore rd (collDst d) out with
    | (u, .ok ids) => u.collEnd c n 1 ids
    | (u, .fault _ _ _) => u.collEnd c n 5 []
    | (u, .bad) => u.ctxFault c.tag 0x50
    | (u, .wait) => s.waited u

/-- The sources that an operation needs from the other ranks are whole. -/
def ranksWhole (d : List Byte) (m : Comm) (ranks : List RankInput) : Bool :=
  (List.range m.ids.length).all fun i => i == m.rank || (match ranks.find? fun r => r.rank == i with
    | some r => (collOpc d == 4 && i != collRoot d) || r.data.length == collCount d || r.fault || !collAgree d r.desc
    | none => false)

/-- COLLECTIVE_RUN (R419, R420): in the order of the communicator's sequence, when every rank has joined. The status is the
same at every rank: a rank that another does not reach or does not join, whose descriptor breaks R418, or whose buffer fails
translation, gives it to all (log 37). -/
def execCollectiveRun (id : Nat) (ranks : List RankInput) (s : State) : Out :=
  match s.coll id with
  | none => .next s
  | some c => match s.comm c.tag (collComm c.bytes) with
    | none => .next s
    | some m =>
      let first := s.colls.all fun x => !(x.tag == c.tag && collComm x.bytes == m.index && x.outcome.isNone && decide (x.seq < c.seq))
      if c.outcome.isSome || !first then .next s
      else if s.collCut c m || ranks.any (fun r => r.rank != m.rank && r.ends == some 4) then .next (s.collEnd c m.ids.length 4 [])
      else if ranks.any fun r => r.rank != m.rank && r.ends == some 3 then .next (s.collEnd c m.ids.length 3 [])
      else if !ranksWhole c.bytes m ranks then .next s
      else if ranks.any fun r => r.rank != m.rank && collDescBad m.ids.length r.desc then .next (s.collEnd c m.ids.length 6 [])
      else if !(ranks.all fun r => r.rank == m.rank || collAgree c.bytes r.desc) then .next (s.collEnd c m.ids.length 2 [])
      else if ranks.any fun r => r.rank != m.rank && r.fault then .next (s.collEnd c m.ids.length 5 [])
      else .next (s.collPerform c m ranks)

/-- COLLECTIVE_TIMEOUT (R420): a rank has not joined within the timeout. -/
def execCollectiveTimeout (id : Nat) (s : State) : Out :=
  match s.coll id with
  | none => .next s
  | some c => match s.comm c.tag (collComm c.bytes) with
    | none => .next s
    | some m => .next (if c.outcome.isNone ∧ c.joined + m.timeout ≤ s.time then s.collEnd c m.ids.length 3 [] else s)

/-- COLLECTIVE_COMPLETE (R420, R248, R249): every write of the collective has been accepted, its completion time has passed,
and the pool has acknowledged it; TDONE and then STATUS are written. -/
def execCollectiveComplete (id : Nat) (s : State) : Out :=
  match s.coll id with
  | none => .next s
  | some c => match c.outcome with
    | none => .next s
    | some st =>
      if c.status.isSome || !s.allAcked c.writes then .next s
      else
        let rd := collReader c
        let done := fun (s : State) => s.modColl id fun x => { x with status := some st }
        match s.cutStore rd (c.addr + 0x28) (bytesOfNat 8 s.time) with
        | (t, .wait) => .next (s.waited t)
        | (t, .bad) => .next (t.ctxFault c.tag 0x50)
        | (t, .fault _ _ _) => .next (done t)
        | (t, .ok a) => (match t.cutStore rd (c.addr + 0x20) (bytesOfNat 4 st) with
          | (u, .ok b) => .next (done (b.foldl (fun s i => s.notBefore ((a.map s.ctimeOf).foldl max 0) i) u))
          | (u, .wait) => .next (s.waited u)
          | (u, .bad) => .next (u.ctxFault c.tag 0x50)
          | (u, .fault _ _ _) => .next (done u))

/-! ### COLL and COLL.WAIT (R421, R422) -/

/-- The collectives of a wave, in the order of issue. -/
def State.collsOf (s : State) (w : Wave) : List Collect := s.colls.filter fun c => c.cord == w.cord && c.index == w.index

/-- A collective enters its communicator's sequence; one with a bad descriptor ends at once with BADDESC. -/
def State.collAdd (s : State) (w : Wave) (addr : Nat) (d : List Byte) : State × Acc Unit :=
  let tag := s.tagOf w
  let bad := collBad s tag addr d
  let seq := ((s.comm tag (collComm d)).map fun c => c.next).getD 0
  let c : Collect := ⟨s.uid, tag, w.die, stokerOf w.die w.nextColl.toNat, w.cord, w.index, w.nextColl, addr, d, seq, s.time, none, [], none⟩
  let n := ((s.comm tag (collComm d)).map fun c => c.ids.length).getD 0
  let s := { s with
    uid := s.uid + 1
    colls := s.colls ++ [c]
    comms := modWhere s.comms (fun x => x.tag == tag && x.index == collComm d) fun (x : Comm) => { x with next := x.next + 1 } }
  if bad then s.whole fun s => s.collEndBy c n 6 [] else (s, .ok ())

/-- COLL (R421), which waits for the acknowledgement of the wave's pool writes (R248, R249). -/
def execColl (f : Fields) (s : State) : Out :=
  s.front (.coll f) f .dest false fun s w =>
    let addr := s.readS w (.int 64) f.a + (f.ext.extractLsb' 0 32).signExtend 64
    if !s.releasedAt w 2 then s.stall
    else if !canonical addr then s.trap 0x20 w.exec (pageInfo addr.toNat 0 0)
    else if 4 ≤ ((s.collsOf w).filter fun c => c.status.isNone).length then s.stall
    else State.take (s.viaLoad (s.wavesVia w) addr.toNat 64) 0 fun s d =>
      State.take (s.collAdd w addr.toNat d) 1 fun s _ => s.finish f fun x =>
        { x with nextColl := x.nextColl + 1 }.putS f.d (x.nextColl.setWidth 64)

/-- COLL.WAIT and COLL.WAIT.all (R422). -/
def execCollWait (f : Fields) (s : State) : Out :=
  s.front (.collWait f) f .dest false fun s w =>
    let n := lo32 (s.scalB w (.int 32) false f)
    let mine := (s.collsOf w).filter fun c => f.m.getLsbD 0 || decide ((n - c.number).toNat < 2 ^ 31)
    if mine.any fun c => c.status.isNone then s.stall
    else
      let bad := mine.find? fun c => c.status != some 1
      s.finish f fun x => x.putS f.d (BitVec.ofNat 64 ((bad.bind fun c => c.status).getD 0))

end Sys2Proof.Machine
end

