-- ==== Sys2Proof/Machine/FrameFront.lean ====
section
/-! DEFINITION. The frame front (spec/19_rays.md R395 to R399): a RAYGEN record's camera rays, reprojection, the pixel
buffer, the hit records, and the end of the record. -/

namespace Sys2Proof.Machine

/-! ### The projection parameter block (R395) -/

/-- A camera as it lies in the block: EYE, RIGHT, UP, FWD, tangents and jitter. -/
structure Camera where
  eye   : List Word64
  right : List Word64
  up    : List Word64
  fwd   : List Word64
  tanx  : Word64
  tany  : Word64
  jitx  : Word64
  jity  : Word64
  deriving DecidableEq, Repr, Inhabited

def wordAt (b : List Byte) (off : Nat) : Word64 := BitVec.ofNat 64 (numAt b off 4)
def vec3At (b : List Byte) (off : Nat) : List Word64 := tabulate 3 fun i => wordAt b (off + 4 * i)
def cameraAt (b : List Byte) (off : Nat) : Camera :=
  ⟨vec3At b off, vec3At b (off + 0xC), vec3At b (off + 0x18), vec3At b (off + 0x24), wordAt b (off + 0x30), wordAt b (off + 0x34),
   wordAt b (off + 0x38), wordAt b (off + 0x3C)⟩

def ppWidth (b : List Byte) : Nat := numAt b 0x40 4
def ppHeight (b : List Byte) : Nat := numAt b 0x44 4
def ppScene (b : List Byte) : Nat := numAt b 0x58 8
def ppHitcode (b : List Byte) : Nat := numAt b 0x60 8
def ppHitbuf (b : List Byte) : Nat := numAt b 0x68 8
def ppHitmax (b : List Byte) : Nat := numAt b 0x70 4
def ppCur (b : List Byte) : Nat := numAt b 0x80 8
def ppPrev (b : List Byte) : Nat := numAt b 0x88 8

/-- A reserved field, an extent or an alignment breaks the table, or CUR and PREV overlap. -/
def ppBad (frame : Nat) (b : List Byte) : Bool :=
  let w := ppWidth b
  let h := ppHeight b
  let n := 32 * w * h
  frame % 256 != 0 || decide (w = 0) || decide (32768 < w) || decide (h = 0) || decide (32768 < h) ||
  numAt b 0x7C 4 / 2 != 0 || !zeroAt b 0xE8 24 || ppHitbuf b % 32 != 0 || ppCur b % 32 != 0 ||
  (ppPrev b != 0 && decide (ppPrev b < ppCur b + n) && decide (ppCur b < ppPrev b + n))

/-! ### Rays of pixels (R396) -/

/-- The pixels of a frame in order: 8 × 8 tiles in row-major order, each in the order of R396. -/
def pixels (w h : Nat) : List (Nat × Nat) :=
  (List.range (ceilDiv h 8)).flatMap fun ty => (List.range (ceilDiv w 8)).flatMap fun tx =>
    ((List.range 64).map fun i =>
      (8 * tx + i % 2 + 2 * (i / 4 % 2) + 4 * (i / 16 % 2), 8 * ty + i / 2 % 2 + 2 * (i / 8 % 2) + 4 * (i / 32 % 2))).filter
      fun p => decide (p.1 < w) && decide (p.2 < h)

def one32 : Word64 := 0x3F800000
def two32 : Word64 := 0x40000000
def half32 : Word64 := 0x3F000000
/-- ((a × a′ + b × b′) + c × c′), each operation rounded (R397). -/
def dot3 (a b : List Word64) : Word64 :=
  let p := fun (i : Nat) => prod32 (a.getD i 0) (b.getD i 0)
  sum32 (sum32 (p 0) (p 1)) (p 2)

/-- A pixel centre on an axis: (x + 0.5 + jitter) × 2 / W. -/
def pixelAt (x w : Nat) (jit : Word64) : Word64 :=
  quot32 (prod32 (sum32 (sum32 (nat32 x) half32) jit) two32) (nat32 w)

/-- The direction of a pixel's ray. -/
def rayDir (c : Camera) (w h x y : Nat) : List Word64 :=
  let sx := prod32 (sub32 (pixelAt x w c.jitx) one32) c.tanx
  let sy := prod32 (sub32 one32 (pixelAt y h c.jity)) c.tany
  tabulate 3 fun a => sum32 (prod32 sy (c.up.getD a 0)) (fma32 sx (c.right.getD a 0) (c.fwd.getD a 0))

/-! ### Pixels and reuse (R397, R398) -/

/-- What a pixel's ray gives: t, b1, b2, k, CLUSTER, TRI, hit and back-facing. -/
structure PixelHit where
  t       : Word64
  b1      : Word64
  b2      : Word64
  k       : Nat
  cluster : Nat
  tri     : Nat
  hit     : Bool
  back    : Bool
  deriving DecidableEq, Repr, Inhabited

def pixelMiss : PixelHit := ⟨0x7F800000, 0, 0, 0xFFFFFFFF, 0xFFFFFFFF, 0, false, false⟩

/-- DEPTH: dot(t × dir, FWD), or +∞ for a miss. -/
def pixelDepth (c : Camera) (dir : List Word64) (p : PixelHit) : Word64 :=
  if p.hit then dot3 (dir.map fun d => prod32 p.t d) c.fwd else plusInf64

/-- The first 12 bytes of a pixel. -/
def pixelHead (c : Camera) (dir : List Word64) (p : PixelHit) (flags : Nat) : List Byte :=
  bytesOfNat 4 (pixelDepth c dir p).toNat ++ bytesOfNat 4 p.cluster ++ [BitVec.ofNat 8 p.tri, BitVec.ofNat 8 flags, 0, 0]

/-- floor of a value that lies inside [0, n). -/
def floorIn (x : Word64) (n : Nat) : Option Nat :=
  match f32v x with
  | .fin s a d => if s && decide (a ≠ 0) then none else if a / d < n then some (a / d) else none
  | _ => none

/-- Where a hit lay in the last frame: view depth c and pixel (R398 steps 1 and 2). -/
def lastPixel (now last : Camera) (w h : Nat) (dir : List Word64) (t : Word64) : Option (Word64 × Nat × Nat) :=
  let rel := tabulate 3 fun a => sub32 (fma32 t (dir.getD a 0) (now.eye.getD a 0)) (last.eye.getD a 0)
  let a := dot3 rel last.right
  let b := dot3 rel last.up
  let c := dot3 rel last.fwd
  if !fzero.lt (f32v c) then none
  else
    let x := sub32 (prod32 (sum32 (quot32 a (prod32 c last.tanx)) one32) (quot32 (nat32 w) two32)) last.jitx
    let y := sub32 (prod32 (sub32 one32 (quot32 b (prod32 c last.tany))) (quot32 (nat32 h) two32)) last.jity
    match floorIn x w, floorIn y h with
    | some i, some j => some (c, i, j)
    | _, _ => none

/-- The draw of a pixel (R398 step 4). -/
def pixelDraw (seed : Word64) (x y : Nat) : Nat :=
  let z := seed ^^^ BitVec.ofNat 64 (y * 2 ^ 32 + x)
  (xorshift64 (xorshift64 (if z = 0 then 1 else z))).toNat / 2 ^ 32

/-- Steps 3 and 4 of R398 against the last frame's pixel. -/
def reuseOk (b q : List Byte) (p : PixelHit) (c : Word64) (x y : Nat) : Bool :=
  let depth := wordAt q 0
  let diff := sub32 c depth &&& 0x7FFFFFFF
  (byteAt q 9).testBit 0 && numAt q 4 4 == p.cluster && byteAt q 8 == p.tri &&
  (f32v diff).le (f32v (prod32 (wordAt b 0x78) depth)) && decide (numAt b 0x74 4 ≤ pixelDraw (BitVec.ofNat 64 (numAt b 0x90 8)) x y)

/-! ### The front's work -/

/-- A run of the front: hit records written, records that did not fit, its writes. -/
structure FrontRun where
  count  : Nat
  over_  : Bool
  writes : List Nat
  deriving DecidableEq, Repr, Inhabited

/-- The hit record of a rejected pixel (R399). -/
def hitRecord (x y : Nat) (p : PixelHit) : List Byte :=
  bytesOfNat 2 x ++ bytesOfNat 2 y ++ bytesOfNat 4 p.t.toNat ++ bytesOfNat 4 p.b1.toNat ++ bytesOfNat 4 p.b2.toNat ++
  bytesOfNat 4 p.k ++ bytesOfNat 4 p.cluster ++
  [BitVec.ofNat 8 p.tri, BitVec.ofNat 8 ((if p.hit then 1 else 0) + (if p.back then 2 else 0))] ++ List.replicate 6 0

/-- A pixel's ray traced (R396). -/
def State.tracePixel (s : State) (rd : Reader) (sc : Scene) (ray : Ray) : State × Acc PixelHit :=
  andThen (s.traverse rd ray 0 false sc) fun s f =>
    match f.best with
    | none => (s, .ok pixelMiss)
    | some h => andThen (s.unitLoad rd (sc.out + 16 * h.k) 4) fun s e =>
      (s, .ok ⟨h.hit.t.setWidth 64, h.hit.b1.setWidth 64, h.hit.b2.setWidth 64, h.k, numAt e 0 4, h.j, true, h.hit.back⟩)

/-- The colour that an accepted pixel takes; none for a rejected one (R398). -/
def State.reuse (s : State) (rd : Reader) (b : List Byte) (dir : List Word64) (x y : Nat) (p : PixelHit) :
    State × Acc (Option (List Byte)) :=
  if !p.hit || !(byteAt b 0x7C).testBit 0 || ppPrev b == 0 then (s, .ok none)
  else match lastPixel (cameraAt b 0) (cameraAt b 0x98) (ppWidth b) (ppHeight b) dir p.t with
    | none => (s, .ok none)
    | some (c, i, j) => andThen (s.unitLoad rd (ppPrev b + 32 * (j * ppWidth b + i)) 32) fun s q =>
      (s, .ok (if reuseOk b q p c x y then some ((q.drop 0xC).take 16) else none))

/-- A store of a front, after what it has done so far; its writes join the run's. -/
def State.frontPut (rd : Reader) (va : Nat) (bs : List Byte) (x : State × FrontRun × Acc Unit) : State × FrontRun × Acc Unit :=
  match x with
  | (s, r, .ok _) => (match s.cutStore rd va bs with
    | (s, .ok ids) => (s, { r with writes := r.writes ++ ids }, .ok ())
    | (s, .fault c p a) => (s, r, .fault c p a)
    | (s, .bad) => (s, r, .bad)
    | (s, .wait) => (s, r, .wait))
  | x => x

/-- One pixel: traced, reused or given a hit record, and written. -/
def State.frontPixel (rd : Reader) (b : List Byte) (sc : Scene) (s : State) (r : FrontRun) (x y : Nat) : State × FrontRun × Acc Unit :=
  let cam := cameraAt b 0
  let dir := rayDir cam (ppWidth b) (ppHeight b) x y
  let at_ := ppCur b + 32 * (y * ppWidth b + x)
  let seen := andThen (s.tracePixel rd sc ⟨cam.eye, wordAt b 0x48, dir, wordAt b 0x4C⟩) fun s p =>
    andThen (s.reuse rd b dir x y p) fun s colour => (s, .ok (p, colour))
  match seen with
  | (s, .ok (p, some col)) => State.frontPut rd at_ (pixelHead cam dir p 3 ++ col ++ [0, 0, 0, 0]) (s, r, .ok ())
  | (s, .ok (p, none)) =>
    let z := State.frontPut rd (at_ + 0x1C) [0, 0, 0, 0]
      (State.frontPut rd at_ (pixelHead cam dir p (if p.hit then 1 else 0)) (s, r, .ok ()))
    if ppHitmax b ≤ r.count then (z.1, { z.2.1 with over_ := true }, z.2.2)
    else (match State.frontPut rd (ppHitbuf b + 32 * r.count) (hitRecord x y p) z with
      | (s, r, .ok _) => (s, { r with count := r.count + 1 }, .ok ())
      | z => z)
  | (s, .fault c p a) => (s, r, .fault c p a)
  | (s, .bad) => (s, r, .bad)
  | (s, .wait) => (s, r, .wait)

/-- The die whose front does a pixel: the fronts take the frame's tiles in turn. The manual leaves the division open, and
results do not depend on it (R396; DESIGN CHOICE, log 44). -/
def frontOf (w x y : Nat) : Nat := (y / 8 * ceilDiv w 8 + x / 8) % 2

/-- Who reads for the frame front of a die. -/
def frontReader (die tag : Nat) : Reader := ⟨unitFront die, tag, die, false⟩

/-- Pixels in order, up to an access that fails; the run so far stands, with every write that has been made. -/
def State.frontPixels (tag : Nat) (b : List Byte) (sc : Scene) : List (Nat × Nat) → FrontRun → State → State × FrontRun × Acc Unit
  | [], r, s => (s, r, .ok ())
  | p :: rest, r, s =>
    match State.frontPixel (frontReader (frontOf (ppWidth b) p.1 p.2) tag) b sc s r p.1 p.2 with
    | (s, r, .ok _) => State.frontPixels tag b sc rest r s
    | x => x

/-- The front has run: it waits for its writes. -/
def State.frontRan (s : State) (rec : Nat) (k : Option Kernel) (status : Nat) (r : FrontRun) : State :=
  s.modRec rec fun x => { x with stage := .raygenRan status r.count r.writes 0, kernel := k }

/-- The front at work on a record whose block has been read. -/
def State.frontRun (s0 s : State) (rec tag frame : Nat) (rd : Reader) (b : List Byte) : State :=
  let none_ : FrontRun := ⟨0, false, []⟩
  if ppBad frame b then s.frontRan rec none 3 none_
  else match s.readKernel tag (ppHitcode b) with
    | (s, .ok (.inr _)) => s.frontRan rec none 3 none_
    | (s, .bad) => s.ctxFault tag 0x50
    | (s, .wait) => s0.waited s
    | (s, .fault _ _ _) => s.frontRan rec none 3 none_
    | (s, .ok (.inl k)) => match s.unitLoad rd (ppScene b) 32 with
      | (s, .fault _ _ _) => s.frontRan rec none 4 none_
      | (s, .bad) => s.ctxFault tag 0x50
      | (s, .wait) => s0.waited s
      | (s, .ok sc) => match State.frontPixels tag b (sceneOf sc) (pixels (ppWidth b) (ppHeight b)) none_ s with
        | (s, r, .ok _) => s.frontRan rec (some k) (if r.over_ then 2 else 1) r
        | (s, r, .fault _ _ _) => s.frontRan rec none 4 r
        | (s, _, .bad) => s.ctxFault tag 0x50
        | (s, _, .wait) => s0.waited s

/-- RAYGEN_RUN (R395 to R399). -/
def execRaygenRun (rec : Nat) (s : State) : Out :=
  match s.recOf rec with
  | none => .next s
  | some r =>
    if r.stage ≠ .raygen then .next s
    else
      let frame := recFrame r.bytes
      let rd := frontReader 0 r.tag
      match s.unitLoad rd frame 256 with
      | (t, .ok b) => .next (s.frontRun t rec r.tag frame rd b)
      | (t, .fault _ _ _) => .next (t.frontRan rec none 4 ⟨0, false, []⟩)
      | (t, .bad) => .next (t.ctxFault r.tag 0x50)
      | (t, .wait) => .next (s.waited t)

/-- RCOUNT, TDONE and then STATUS (R399); a block that R395 refuses takes STATUS alone. -/
def State.frontStatus (s : State) (rd : Reader) (frame status count : Nat) : State × Acc (List Nat) :=
  andThen (if status = 3 then (s, .ok []) else s.cutStore rd (frame + 0xD8) (bytesOfNat 4 count)) fun s a =>
  andThen (if status = 3 then (s, .ok []) else s.cutStore rd (frame + 0xE0) (bytesOfNat 8 s.time)) fun s b =>
  andThen (s.cutStore rd (frame + 0xDC) (bytesOfNat 4 status)) fun s c =>
    (c.foldl (fun s i => s.notBefore (((a ++ b).map s.ctimeOf).foldl max 0) i) s, .ok (a ++ b ++ c))

/-- The record goes on to its grid, or has none (R399). -/
def State.frontEnd (s : State) (rec count : Nat) : State :=
  s.modRec rec fun x => match x.kernel with
    | some k => if count = 0 then { x with stage := .expanded } else
      { x with stage := .expanding 0, grid := ceilDiv count (96 * k.waves) }
    | none => { x with stage := .expanded }

/-- RAYGEN_COMPLETE (R399): when every write of the run has completed the front writes RCOUNT, TDONE and STATUS; when
these have completed, the grid of the hit shader is expanded, or the record has no grid. -/
def execRaygenComplete (rec : Nat) (s : State) : Out :=
  match s.recOf rec with
  | none => .next s
  | some r =>
    match r.stage with
    | .raygenRan status count writes _ =>
      if !s.allDone writes then .next s
      else if status = 0 then .next (s.frontEnd rec count)
      else
        match s.frontStatus (frontReader 0 r.tag) (recFrame r.bytes) status count with
        | (t, .ok ids) => .next (t.modRec rec fun x => { x with stage := .raygenRan 0 (if status ≤ 2 then count else 0) ids 0 })
        | (t, .fault _ _ _) => .next (t.modRec rec fun x => { x with stage := .expanded })
        | (t, .bad) => .next (t.ctxFault r.tag 0x50)
        | (t, .wait) => .next (s.waited t)
    | _ => .next s

end Sys2Proof.Machine
end

