-- ==== Sys2Proof/Machine/Rv64.lean ====
section
/-! DEFINITION. The registers of a kindling hart, its traps and returns, and the integer operations (spec/21_kindling.md
R424, R425). R424 names the RISC-V standard and does not restate it: what stands here beside the rules cited is that
standard's (PRESUMED, log 25). -/

namespace Sys2Proof.Machine

/-! ### Harts -/

def State.hart (s : State) (h : Nat) : Hart := s.harts.getD h (Hart.reset 0)
def State.modHart (s : State) (h : Nat) (f : Hart → Hart) : State := { s with harts := modAt s.harts h f }
def hartDie (h : Nat) : Nat := h / 16
/-- Register x0 reads as zero. -/
def Hart.reg (x : Hart) (r : BitVec 5) : Word64 := if r = 0 then 0 else x.x.getD r.toNat 0
def Hart.setReg (x : Hart) (r : BitVec 5) (v : Word64) : Hart := if r = 0 then x else { x with x := x.x.set r.toNat v }
/-- The instruction has completed: the next one follows its 2 or 4 bytes. -/
def Hart.advance (x : Hart) : Hart := { x with pc := x.pc + BitVec.ofNat 64 x.ilen }
def State.hartDone (s : State) (h : Nat) (f : Hart → Hart) : State := s.modHart h fun x => (f x).advance
/-- No outstanding write, and time has passed the latest completion time (R250, R427). -/
def State.hartReleased (s : State) (h : Nat) : Bool := (s.hart h).watch.isEmpty && decide ((s.hart h).horizon ≤ s.time)

/-- A stored CSR; one that nothing has written reads as zero (log 25). -/
def Hart.csr (x : Hart) (n : Nat) : Word64 := ((x.csrs.find? fun c => c.1 == n).map fun c => c.2).getD 0
def Hart.setCsr (x : Hart) (n : Nat) (v : Word64) : Hart := { x with csrs := (x.csrs.filter fun c => c.1 != n) ++ [(n, v)] }
/-- Bits [hi:lo] of a value replaced. -/
def setField (v : Word64) (hi lo n : Nat) : Word64 :=
  BitVec.ofNat 64 (v.toNat - bits64 v hi lo * 2 ^ lo + n % 2 ^ (hi + 1 - lo) * 2 ^ lo)
def Hart.modCsr (x : Hart) (n : Nat) (f : Word64 → Word64) : Hart := x.setCsr n (f (x.csr n))
def Hart.bit (x : Hart) (n i : Nat) : Bool := (x.csr n).getLsbD i
def bitNat (b : Bool) : Nat := if b then 1 else 0

def Hart.satp (x : Hart) : Word64 := x.csr 0x180
def satpMode (x : Word64) : Nat := bits64 x 63 60
def satpTag (x : Word64) : Nat := bits64 x 55 44
/-- The status register of the supervisor: mstatus, or vsstatus for a guest. -/
def statusOf (virt : Bool) : Nat := if virt then 0x200 else 0x300
/-- SUM and MXR (R425); the host's MXR holds for a guest too. -/
def Hart.sum (x : Hart) (virt : Bool) : Bool := x.bit (statusOf virt) 18
def Hart.mxr (x : Hart) (virt : Bool) : Bool := x.bit 0x300 19 || (virt && x.bit 0x200 19)

def HPriv.code : HPriv → Nat | .u => 0 | .s => 1 | .m => 3
def HPriv.ofCode (n : Nat) : HPriv := if n = 0 then .u else if n = 1 then .s else .m

/-! ### Traps and returns -/

/-- The mode that takes a trap. -/
inductive TrapTo where
  | m | hs | vs
  deriving DecidableEq, Repr

/-- A trap that is not delegated goes to M-mode, one that is not delegated further to the host's S-mode. -/
def Hart.trapTo (x : Hart) (irq : Bool) (cause : Nat) : TrapTo :=
  if x.priv = .m ∨ ¬ x.bit (if irq then 0x303 else 0x302) cause then .m
  else if x.virt ∧ x.bit (if irq then 0x603 else 0x602) cause then .vs else .hs

/-- What a trap reports: the address or instruction, the guest's physical address, and whether the address is a guest's. -/
structure TrapInfo where
  tval : Word64
  gpa  : Nat
  gva  : Bool

/-- The PC of a trap handler. -/
def vectored (tvec : Word64) (irq : Bool) (cause : Nat) : Word64 :=
  (tvec &&& ~~~3) + (if irq && tvec.getLsbD 0 then BitVec.ofNat 64 (4 * cause) else 0)

/-- Trap entry: the PC, the cause and what it reports are saved, interrupts are disabled, the former mode is kept, and the
handler runs. -/
def Hart.enter (x : Hart) (irq : Bool) (cause : Nat) (i : TrapInfo) : Hart :=
  let to_ := x.trapTo irq cause
  let code := if irq && to_ == .vs then cause - 1 else cause
  let word := BitVec.ofNat 64 (code + (if irq then 2 ^ 63 else 0))
  let gpa := BitVec.ofNat 64 (i.gpa / 4)
  let saves := fun (x : Hart) (base : Nat) => ((x.setCsr (base + 1) x.pc).setCsr (base + 2) word).setCsr (base + 3) i.tval
  let x := { x with wfi := false }
  match to_ with
  | .m =>
    let st := fun (v : Word64) =>
      setField (setField (setField (setField (setField v 7 7 (v.toNat / 8)) 3 3 0) 12 11 x.priv.code) 39 39 (bitNat x.virt)) 38 38 (bitNat i.gva)
    let y := ((saves x 0x340).modCsr 0x300 st).setCsr 0x34B gpa
    { y with priv := .m, virt := false, pc := vectored (x.csr 0x305) irq code }
  | .hs =>
    let st := fun (v : Word64) => setField (setField (setField v 5 5 (v.toNat / 2)) 1 1 0) 8 8 (bitNat (x.priv == .s))
    let hst := fun (v : Word64) =>
      let v := setField (setField v 7 7 (bitNat x.virt)) 6 6 (bitNat i.gva)
      if x.virt then setField v 8 8 (bitNat (x.priv == .s)) else v
    let y := (((saves x 0x140).modCsr 0x300 st).modCsr 0x600 hst).setCsr 0x643 gpa
    { y with priv := .s, virt := false, pc := vectored (x.csr 0x105) irq code }
  | .vs =>
    let st := fun (v : Word64) => setField (setField (setField v 5 5 (v.toNat / 2)) 1 1 0) 8 8 (bitNat (x.priv == .s))
    let y := (saves x 0x240).modCsr 0x200 st
    { y with priv := .s, virt := true, pc := vectored (x.csr 0x205) irq code }

/-- An exception that reports a value. -/
def Hart.raised (x : Hart) (cause : Nat) (tval : Word64) : Hart := x.enter false cause ⟨tval, 0, false⟩

/-- MRET. -/
def Hart.mret (x : Hart) : Hart :=
  let v := x.csr 0x300
  let p := HPriv.ofCode (bits64 v 12 11)
  let st := setField (setField (setField (setField v 3 3 (v.toNat / 128)) 7 7 1) 12 11 0) 39 39 0
  { x.setCsr 0x300 (if p = .m then st else setField st 17 17 0) with
    priv := p, virt := p != .m && v.getLsbD 39, pc := x.csr 0x341 }

/-- SRET in the host's S-mode or M-mode, and in a guest's S-mode. -/
def Hart.sret (x : Hart) : Hart :=
  let n := statusOf x.virt
  let v := x.csr n
  let p : HPriv := if v.getLsbD 8 then .s else .u
  let st := setField (setField (setField v 1 1 (v.toNat / 32)) 5 5 1) 8 8 0
  if x.virt then { x.setCsr n st with priv := p, pc := x.csr 0x241 }
  else { (x.setCsr n (setField st 17 17 0)).modCsr 0x600 (fun v => setField v 7 7 0) with
         priv := p, virt := x.bit 0x600 7, pc := x.csr 0x141 }

/-! ### Interrupts -/

/-- The identity that the S-level interrupt file gives: the lowest that is pending and enabled, below the threshold; 0 with
none. -/
def Hart.topei (x : Hart) : Nat :=
  let thr := (x.csr 0x10072).toNat
  let ok := fun (i : Nat) => (x.csr (0x100C0 + i / 64 * 2)).getLsbD (i % 64) && (thr == 0 || decide (i < thr))
  ((x.ident.filter ok).foldl min 2048) % 2048

/-- Pending interrupts (mip): what software has set, the interrupt file's, and the supervisor's timer. -/
def Hart.pending (x : Hart) (time : Nat) : Word64 :=
  let late := fun (cmp env : Nat) (off : Word64) => x.bit env 63 && decide ((x.csr cmp).toNat ≤ (BitVec.ofNat 64 time + off).toNat)
  (x.csr 0x344 &&& 0x2222) ||| (x.csr 0x645 &&& 0x444) |||
  (if x.csr 0x10070 = 1 ∧ x.topei ≠ 0 then 0x200 else 0) ||| (if late 0x14D 0x30A 0 then 0x20 else 0) |||
  (if late 0x24D 0x60A (x.csr 0x605) then 0x40 else 0)

/-- The interrupt that the hart takes now, by the order of the standard. -/
def Hart.takes (x : Hart) (time : Nat) : Option Nat :=
  let on := x.pending time &&& x.csr 0x304
  [11, 3, 7, 9, 1, 5, 12, 10, 2, 6, 13].find? fun i => on.getLsbD i && (match x.trapTo true i with
    | .m => x.priv != .m || x.bit 0x300 3
    | .hs => x.virt || x.priv == .u || x.bit 0x300 1
    | .vs => x.priv == .u || x.bit 0x200 1)

/-! ### Integer operations -/

/-- A value of 32 bits, extended. -/
def sext32 (v : Word64) : Word64 := (v.setWidth 32).signExtend 64

/-- The operations of the base OP and OP-IMM; `alt` is bit 30. -/
def aluOp (f3 : Nat) (alt : Bool) (a b : Word64) : Word64 :=
  let n := b.toNat % 64
  match f3 with
  | 0 => if alt then a - b else a + b
  | 1 => a <<< n
  | 2 => if a.toInt < b.toInt then 1 else 0
  | 3 => if a.toNat < b.toNat then 1 else 0
  | 4 => a ^^^ b
  | 5 => if alt then a.sshiftRight n else a >>> n
  | 6 => a ||| b
  | _ => a &&& b

/-- The operations of the base OP-32 and OP-IMM-32. -/
def aluOpW (f3 : Nat) (alt : Bool) (a b : Word64) : Option Word64 :=
  let x : Word := a.setWidth 32
  let n := b.toNat % 32
  match f3 with
  | 0 => some (sext32 (if alt then a - b else a + b))
  | 1 => some (sext32 (a <<< n))
  | 5 => some ((if alt then x.sshiftRight n else x >>> n).signExtend 64)
  | _ => none

/-- Leading zeros, trailing zeros and ones of the low w bits of a number (Zbb). -/
def clzN (w n : Nat) : Nat := ((List.range w).find? fun i => n.testBit (w - 1 - i)).getD w
def ctzN (w n : Nat) : Nat := ((List.range w).find? fun i => n.testBit i).getD w
def popN (w n : Nat) : Nat := ((List.range w).filter fun i => n.testBit i).length
/-- A rotation to the left by k below w. -/
def rolN (w n k : Nat) : Nat := n * 2 ^ (k % w) % 2 ^ w + n % 2 ^ w / 2 ^ (w - k % w)

/-- Multiplication and division (M); a division by zero gives all ones, or the dividend as its remainder. -/
def mulOp (f3 : Nat) (a b : Word64) : Word64 :=
  match f3 with
  | 0 => a * b
  | 1 => BitVec.ofInt 64 (a.toInt * b.toInt / 2 ^ 64)
  | 2 => BitVec.ofInt 64 (a.toInt * b.toNat / 2 ^ 64)
  | 3 => BitVec.ofNat 64 (a.toNat * b.toNat / 2 ^ 64)
  | 4 => if b = 0 then BitVec.allOnes 64 else BitVec.ofInt 64 (a.toInt.tdiv b.toInt)
  | 5 => if b = 0 then BitVec.allOnes 64 else BitVec.ofNat 64 (a.toNat / b.toNat)
  | 6 => if b = 0 then a else BitVec.ofInt 64 (a.toInt.tmod b.toInt)
  | _ => if b = 0 then a else BitVec.ofNat 64 (a.toNat % b.toNat)

/-- The same on words. -/
def mulOpW (f3 : Nat) (a b : Word64) : Option Word64 :=
  let s := fun (x : Word64) => sext32 x
  let z := fun (x : Word64) => BitVec.ofNat 64 (x.toNat % 2 ^ 32)
  match f3 with
  | 0 => some (sext32 (a * b))
  | 4 => some (sext32 (mulOp 4 (s a) (s b)))
  | 5 => some (sext32 (mulOp 5 (z a) (z b)))
  | 6 => some (sext32 (mulOp 6 (s a) (s b)))
  | 7 => some (sext32 (mulOp 7 (z a) (z b)))
  | _ => none

/-- OP: the base, M, Zba, Zbb, Zbs and Zicond by funct7 and funct3. -/
def rvOp (f7 f3 : Nat) (a b : Word64) : Option Word64 :=
  let n := b.toNat % 64
  let bit : Word64 := 1#64 <<< n
  match f7, f3 with
  | 0, _ => some (aluOp f3 false a b)
  | 1, _ => some (mulOp f3 a b)
  | 32, 0 | 32, 5 => some (aluOp f3 true a b)
  | 32, 7 => some (a &&& ~~~b)
  | 32, 6 => some (a ||| ~~~b)
  | 32, 4 => some (~~~(a ^^^ b))
  | 16, 2 => some (b + (a <<< 1))
  | 16, 4 => some (b + (a <<< 2))
  | 16, 6 => some (b + (a <<< 3))
  | 5, 4 => some (if a.toInt < b.toInt then a else b)
  | 5, 5 => some (if a.toNat < b.toNat then a else b)
  | 5, 6 => some (if a.toInt < b.toInt then b else a)
  | 5, 7 => some (if a.toNat < b.toNat then b else a)
  | 48, 1 => some (a.rotateLeft n)
  | 48, 5 => some (a.rotateRight n)
  | 36, 1 => some (a &&& ~~~bit)
  | 36, 5 => some ((a >>> n) &&& 1)
  | 52, 1 => some (a ^^^ bit)
  | 20, 1 => some (a ||| bit)
  | 7, 5 => some (if b = 0 then 0 else a)
  | 7, 7 => some (if b = 0 then a else 0)
  | _, _ => none

/-- OP-32: the base, M, Zba and Zbb. -/
def rvOp32 (f7 f3 : Nat) (a b : Word64) : Option Word64 :=
  let z : Word64 := (a.setWidth 32).setWidth 64
  match f7, f3 with
  | 0, _ => aluOpW f3 false a b
  | 1, _ => mulOpW f3 a b
  | 32, 0 | 32, 5 => aluOpW f3 true a b
  | 4, 0 => some (b + z)
  | 16, 2 => some (b + (z <<< 1))
  | 16, 4 => some (b + (z <<< 2))
  | 16, 6 => some (b + (z <<< 3))
  | 48, 1 => some (((a.setWidth 32).rotateLeft (b.toNat % 32)).signExtend 64)
  | 48, 5 => some (((a.setWidth 32).rotateRight (b.toNat % 32)).signExtend 64)
  | _, _ => none

/-- OP-IMM: the base, Zbb and Zbs, by the 12 bits of the immediate. -/
def rvOpImm (f3 imm : Nat) (a : Word64) : Option Word64 :=
  let n := imm % 64
  let bit : Word64 := 1#64 <<< n
  let num := fun (v : Nat) => some (BitVec.ofNat 64 v)
  let bytes := bytesOfNat 8 a.toNat
  match f3 with
  | 1 => (match imm with
    | 0x600 => num (clzN 64 a.toNat)
    | 0x601 => num (ctzN 64 a.toNat)
    | 0x602 => num (popN 64 a.toNat)
    | 0x604 => some ((a.setWidth 8).signExtend 64)
    | 0x605 => some ((a.setWidth 16).signExtend 64)
    | _ => match imm / 64 with
      | 0 => some (a <<< n)
      | 0x0A => some (a ||| bit)
      | 0x12 => some (a &&& ~~~bit)
      | 0x1A => some (a ^^^ bit)
      | _ => none)
  | 5 => (match imm with
    | 0x287 => num (natOfBytes (bytes.map fun b => if b = 0 then 0 else 255))
    | 0x6B8 => num (natOfBytes bytes.reverse)
    | _ => match imm / 64 with
      | 0 => some (a >>> n)
      | 0x10 => some (a.sshiftRight n)
      | 0x12 => some ((a >>> n) &&& 1)
      | 0x18 => some (a.rotateRight n)
      | _ => none)
  | _ => some (aluOp f3 false a ((BitVec.ofNat 12 imm).signExtend 64))

/-- OP-IMM-32: the base, Zba and Zbb. -/
def rvOpImm32 (f3 imm : Nat) (a : Word64) : Option Word64 :=
  let x : Word := a.setWidth 32
  let num := fun (v : Nat) => some (BitVec.ofNat 64 v)
  let n : Word64 := BitVec.ofNat 64 (imm % 32)
  match f3 with
  | 0 => aluOpW 0 false a ((BitVec.ofNat 12 imm).signExtend 64)
  | 1 => (match imm with
    | 0x600 => num (clzN 32 a.toNat)
    | 0x601 => num (ctzN 32 a.toNat)
    | 0x602 => num (popN 32 a.toNat)
    | _ => if imm / 64 = 2 then some (x.setWidth 64 <<< (imm % 64)) else if imm / 32 = 0 then aluOpW 1 false a n else none)
  | 5 => (match imm / 32 with
    | 0 => aluOpW 5 false a n
    | 0x20 => aluOpW 5 true a n
    | 0x30 => some ((x.rotateRight (imm % 32)).signExtend 64)
    | _ => none)
  | _ => none

/-- The condition of a branch. -/
def branchTaken (f3 : Nat) (a b : Word64) : Option Bool :=
  match f3 with
  | 0 => some (a == b)
  | 1 => some (a != b)
  | 4 => some (decide (a.toInt < b.toInt))
  | 5 => some (decide (b.toInt ≤ a.toInt))
  | 6 => some (decide (a.toNat < b.toNat))
  | 7 => some (decide (b.toNat ≤ a.toNat))
  | _ => none

/-- Bits [hi:lo] of an instruction. -/
def insnBits (w : Word) (hi lo : Nat) : Nat := w.toNat / 2 ^ lo % 2 ^ (hi + 1 - lo)
/-- A value of n bits, extended with its sign. -/
def immOf (n v : Nat) : Word64 := (BitVec.ofNat n v).signExtend 64
/-- The immediates of the I, S, B, U and J formats. -/
def immI (w : Word) : Word64 := immOf 12 (insnBits w 31 20)
def immS (w : Word) : Word64 := immOf 12 (insnBits w 31 25 * 32 + insnBits w 11 7)
def immB (w : Word) : Word64 :=
  immOf 13 (insnBits w 31 31 * 2 ^ 12 + insnBits w 7 7 * 2 ^ 11 + insnBits w 30 25 * 32 + insnBits w 11 8 * 2)
def immU (w : Word) : Word64 := immOf 32 (insnBits w 31 12 * 2 ^ 12)
def immJ (w : Word) : Word64 :=
  immOf 21 (insnBits w 31 31 * 2 ^ 20 + insnBits w 19 12 * 2 ^ 12 + insnBits w 20 20 * 2 ^ 11 + insnBits w 30 21 * 2)

/-! ### Control and status registers -/

/-- The standard CSRs that the model holds as they are written, with the bits that a write sets. -/
def csrTable : List (Nat × Word64) :=
  [(0x105, ~~~2), (0x106, 0xFFFFFFFF), (0x10A, 0x3000000F1), (0x10C, 0), (0x10D, 0), (0x10E, 0), (0x10F, 0), (0x140, ~~~0), (0x141, ~~~1),
   (0x142, ~~~0), (0x143, ~~~0), (0x14D, ~~~0), (0x150, ~~~0)] ++
  [(0x200, 0xC6722), (0x205, ~~~2), (0x240, ~~~0), (0x241, ~~~1), (0x242, ~~~0), (0x243, ~~~0), (0x24D, ~~~0)] ++
  [(0x300, 0xC0007E7FAA), (0x302, 0xF0B7FF), (0x303, 0x2222), (0x304, 0x3EEE), (0x305, ~~~2), (0x306, 0xFFFFFFFF), (0x30A, 0xC0000000000000F1),
   (0x320, 0xFFFFFFFD), (0x340, ~~~0), (0x341, ~~~1), (0x342, ~~~0), (0x343, ~~~0), (0x344, 0x2222), (0x34A, ~~~0), (0x34B, ~~~0)] ++
  [(0x600, 0x7003C0), (0x602, 0xB1FF), (0x603, 0x444), (0x605, ~~~0), (0x606, 0xFFFFFFFF), (0x607, 0), (0x60A, 0xC0000003000000F1),
   (0x60C, 0xDC00000000000000), (0x60D, 0x8000000000000000), (0x60E, 0x8000000000000000), (0x60F, 0x8000000000000000), (0x643, ~~~0),
   (0x645, 0x444), (0x64A, ~~~0)] ++
  ((List.range 29).map fun i => (0x323 + i, ~~~0#64))

/-! ### Floating-point and vector state -/

/-- Bytes of a vector register. -/
def vlenb : Nat := 16 * 2 ^ Config.hartVlen.val

/-- Bits [hi:lo] of mstatus, or for a guest of either status register, are zero: a unit that is off. -/
def Hart.unitOff (x : Hart) (hi lo : Nat) : Bool :=
  bits64 (x.csr 0x300) hi lo == 0 || (x.virt && bits64 (x.csr 0x200) hi lo == 0)
def Hart.fpOff (x : Hart) : Bool := x.unitOff 14 13
def Hart.vecOff (x : Hart) : Bool := x.unitOff 10 9
/-- A unit's registers have changed. -/
def Hart.dirty (x : Hart) (hi lo : Nat) : Hart :=
  let y := x.modCsr 0x300 fun v => setField v hi lo 3
  if x.virt then y.modCsr 0x200 fun v => setField v hi lo 3 else y
def Hart.fpDirty (x : Hart) : Hart := x.dirty 14 13
def Hart.vecDirty (x : Hart) : Hart := x.dirty 10 9
/-- SD of a status register. -/
def sdBit (v : Word64) : Word64 := if bits64 v 14 13 = 3 ∨ bits64 v 10 9 = 3 then 0x8000000000000000 else 0

/-- The counters, whose values the manual does not give. -/
def freeCounter (n : Nat) : Bool := (n / 32 == 0xC00 / 32 || n / 32 == 0xB00 / 32) && n % 32 != 1

/-- Bits of one CSR that another shows at the places of a mask. -/
def mergeBits (old v mask : Word64) : Word64 := (old &&& ~~~mask) ||| (v &&& mask)

/-- A register as a guest names it: the supervisor's registers are the guest's own. -/
def csrFor (virt : Bool) (n : Nat) : Nat :=
  if virt && [0x100, 0x104, 0x105, 0x140, 0x141, 0x142, 0x143, 0x144, 0x14D, 0x180].contains n then n + 0x100 else n

/-- What a standard CSR reads as; none for one that the model does not hold. -/
def Hart.csrGet (x : Hart) (h time n : Nat) : Option Word64 :=
  let sel := (x.csr 0x150).toNat
  match n with
  | 1 => some (x.csr 3 &&& 0x1F)
  | 2 => some (x.csr 3 >>> 5)
  | 3 | 8 | 9 | 0xA | 0xC20 | 0xC21 => some (x.csr n)
  | 0xF => some ((x.csr 0xA <<< 1) ||| x.csr 9)
  | 0xC22 => some (BitVec.ofNat 64 vlenb)
  | 0xDA0 => some (BitVec.ofNat 64 (((List.range 29).filter fun i => x.bit (0x323 + i) 63 &&
      (x.priv == .m || (x.bit 0x306 (3 + i) && (!x.virt || x.bit 0x606 (3 + i))))).foldl (fun v i => v + 2 ^ (3 + i)) 0))
  | 0x100 => some ((x.csr 0x300 &&& 0xC6722) ||| 0x200000000 ||| sdBit (x.csr 0x300))
  | 0x200 => some (x.csr 0x200 ||| 0x200000000 ||| sdBit (x.csr 0x200))
  | 0x300 => some (x.csr 0x300 ||| 0xA00000000 ||| sdBit (x.csr 0x300))
  | 0x600 => some (x.csr 0x600 ||| 0x200000000)
  | 0x303 => some (x.csr 0x303 ||| 0x1444)
  | 0x104 => some (x.csr 0x304 &&& x.csr 0x303)
  | 0x144 => some (x.pending time &&& x.csr 0x303)
  | 0x344 => some (x.pending time)
  | 0x604 => some (x.csr 0x304 &&& 0x1444)
  | 0x644 => some (x.pending time &&& 0x1444)
  | 0x204 => some ((x.csr 0x304 &&& x.csr 0x603) >>> 1)
  | 0x244 => some ((x.pending time &&& x.csr 0x603) >>> 1)
  | 0x15C => some (BitVec.ofNat 64 (x.topei * 0x10001))
  | 0x151 => if 0x80 ≤ sel ∧ sel < 0xC0 then
      some (BitVec.ofNat 64 ((x.ident.filter fun i => i / 64 * 2 == sel - 0x80).foldl (fun v i => v + 2 ^ (i % 64)) 0))
    else some (x.csr (0x10000 + sel))
  | 0x180 | 0x280 | 0x680 => some (x.csr n)
  | 0xC01 => some (BitVec.ofNat 64 time + (if x.virt then x.csr 0x605 else 0))
  | 0xF14 => some (BitVec.ofNat 64 h)
  | 0xE12 => some 0
  | 0x301 | 0xF11 | 0xF12 | 0xF13 | 0xF15 => some (Config.hartConst n)
  | _ => if csrTable.any fun c => c.1 == n then some (x.csr n) else none

/-- satp accepts Bare, the standard modes and MODE 14, whose ASID[15:12] must be zero; vsatp and hgatp only the standard
modes. Any other value is not taken (R425, log 25). -/
def satpTaken (n : Nat) (v : Word64) : Bool :=
  let m := satpMode v
  m == 0 || m == 8 || m == 9 || m == 10 || (n == 0x180 && m == 14 && bits64 v 59 56 == 0)

/-- A standard CSR written. A read-only field keeps its value, and a mode that does not exist is not taken. -/
def Hart.csrPut (x : Hart) (n : Nat) (v : Word64) : Hart :=
  let sel := (x.csr 0x150).toNat
  match n with
  | 1 => (x.modCsr 3 fun o => mergeBits o v 0x1F).fpDirty
  | 2 => (x.modCsr 3 fun o => mergeBits o (v <<< 5) 0xE0).fpDirty
  | 3 => (x.setCsr 3 (v &&& 0xFF)).fpDirty
  | 8 => (x.setCsr 8 (BitVec.ofNat 64 (v.toNat % (8 * vlenb)))).vecDirty
  | 9 => (x.setCsr 9 (v &&& 1)).vecDirty
  | 0xA => (x.setCsr 0xA (v &&& 3)).vecDirty
  | 0xF => ((x.setCsr 9 (v &&& 1)).setCsr 0xA ((v >>> 1) &&& 3)).vecDirty
  | 0x100 => x.modCsr 0x300 fun o => mergeBits o v 0xC6722
  | 0x104 => x.modCsr 0x304 fun o => mergeBits o v (x.csr 0x303)
  | 0x144 => x.modCsr 0x344 fun o => mergeBits o v (x.csr 0x303 &&& 0x2002)
  | 0x604 => x.modCsr 0x304 fun o => mergeBits o v 0x1444
  | 0x644 => x.modCsr 0x645 fun o => mergeBits o v 0x4
  | 0x204 => x.modCsr 0x304 fun o => mergeBits o (v <<< 1) (x.csr 0x603)
  | 0x244 => x.modCsr 0x645 fun o => mergeBits o (v <<< 1) (x.csr 0x603 &&& 0x4)
  | 0x15C => { x with ident := x.ident.erase x.topei }
  | 0x151 =>
    if 0x80 ≤ sel ∧ sel < 0xC0 then
      { x with ident := (x.ident.filter fun i => i / 64 * 2 != sel - 0x80) ++
          ((List.range 64).filter fun i => v.getLsbD i).map fun i => (sel - 0x80) / 2 * 64 + i }
    else x.setCsr (0x10000 + sel) v
  | 0x180 | 0x280 | 0x680 => if satpTaken n v then x.setCsr n v else x
  | 0x300 =>
    let v := if bits64 v 12 11 = 2 then setField v 12 11 (bits64 (x.csr 0x300) 12 11) else v
    x.modCsr 0x300 fun o => mergeBits o v 0xC0007E7FAA
  | _ => match csrTable.find? fun c => c.1 == n with
    | some c => x.modCsr n fun o => mergeBits o v c.2
    | none => x

/-- The exception of an access to a CSR by number, where the mode may not make it: illegal instruction, or virtual
instruction for a guest (the custom registers of R427 give illegal instruction in every case). -/
def Hart.csrRefused (x : Hart) (n : Nat) (write : Bool) : Option Nat :=
  let lvl := n / 256 % 4
  let counter := n / 32 = 0xC00 / 32 && x.priv != .m && !x.bit 0x306 (n % 32)
  let guestCounter := n / 32 = 0xC00 / 32 && ((x.virt && !x.bit 0x606 (n % 32)) || (x.priv == .u && !x.bit 0x106 (n % 32)))
  let timer := (x.priv != .m && !(x.bit 0x30A 63 && x.bit 0x306 1))
  let guestTimer := n == 0x14D && !(x.bit 0x60A 63 && x.bit 0x606 1)
  let guestFile := [0x150, 0x151, 0x15C].contains n
  let guestState := (n == 0x10A && !x.bit 0x60C 62) || (n / 4 == 0x10C / 4 && !x.bit (n + 0x500) 63)
  if write ∧ n / 1024 = 3 then some 2
  else if (1 ≤ n ∧ n ≤ 3 ∧ x.fpOff) ∨ ([8, 9, 0xA, 0xF, 0xC20, 0xC21, 0xC22].contains n ∧ x.vecOff) then some 2
  else if x.priv = .m then none
  else if (n = 0x14D ∨ n = 0x24D) ∧ timer then some 2
  else if lvl = 3 ∨ counter then some 2
  else if 0x5C0 ≤ n ∧ n ≤ 0x5C5 then (if x.priv = .u ∨ x.virt then some 2 else none)
  else if x.virt then (if lvl = 2 ∨ (lvl = 1 ∧ (x.priv = .u ∨ guestTimer ∨ guestFile ∨ guestState)) ∨ guestCounter ∨ (n = 0x180 ∧ x.bit 0x600 20) then some 22 else none)
  else if x.priv = .u then (if lvl ≠ 0 ∨ guestCounter then some 2 else none)
  else if n = 0x180 ∧ x.bit 0x300 20 then some 2 else none

end Sys2Proof.Machine
end

