-- ==== Sys2Proof/Machine/Rvc.lean ====
section
/-! DEFINITION. Compressed instructions of a kindling hart: each is another spelling of an instruction of 32 bits. R424 names
the profile that has them (C, Zcb and Zcmop) and restates none of it (PRESUMED, log 25). -/

namespace Sys2Proof.Machine

/-! ### Words of the base formats -/

def rvR (f7 rs2 rs1 f3 rd op : Nat) : Word :=
  BitVec.ofNat 32 (op + rd * 2 ^ 7 + f3 * 2 ^ 12 + rs1 * 2 ^ 15 + rs2 * 2 ^ 20 + f7 * 2 ^ 25)
def rvI (imm rs1 f3 rd op : Nat) : Word := BitVec.ofNat 32 (op + rd * 2 ^ 7 + f3 * 2 ^ 12 + rs1 * 2 ^ 15 + imm % 4096 * 2 ^ 20)
def rvS (imm rs2 rs1 f3 op : Nat) : Word := rvR (imm / 32 % 128) rs2 rs1 f3 (imm % 32) op
def rvB (imm rs1 f3 : Nat) : Word :=
  rvR (imm / 4096 % 2 * 64 + imm / 32 % 64) 0 rs1 f3 (imm / 2 % 16 * 2 + imm / 2048 % 2) 0x63
def rvJ (imm rd : Nat) : Word :=
  BitVec.ofNat 32 (0x6F + rd * 2 ^ 7 + imm / 4096 % 256 * 2 ^ 12 + imm / 2048 % 2 * 2 ^ 20 + imm / 2 % 1024 * 2 ^ 21 +
    imm / 2 ^ 20 % 2 * 2 ^ 31)
def rvU (imm rd op : Nat) : Word := BitVec.ofNat 32 (op + rd * 2 ^ 7 + imm % 2 ^ 20 * 2 ^ 12)

/-- A value of n bits, extended with its sign to 32 bits. -/
def sxTo32 (n v : Nat) : Nat := ((BitVec.ofNat n v).signExtend 32).toNat
/-- Bits [hi:lo] of a parcel. -/
def parcel (c hi lo : Nat) : Nat := c / 2 ^ lo % 2 ^ (hi + 1 - lo)

/-! ### Quadrants -/

/-- Quadrant 0: loads and stores through the eight registers x8 to x15. -/
def rvcLoads (c : Nat) : Option Word :=
  let p := parcel c
  let rd := 8 + p 4 2
  let rs := 8 + p 9 7
  let wide := p 12 10 * 8 + p 6 5 * 64
  let word := p 12 10 * 8 + p 6 6 * 4 + p 5 5 * 64
  let byte := p 6 6 + p 5 5 * 2
  let half := p 5 5 * 2
  match p 15 13 with
  | 0 =>
    let imm := p 12 11 * 16 + p 10 7 * 64 + p 6 6 * 4 + p 5 5 * 8
    if imm = 0 then none else some (rvI imm 2 0 rd 0x13)
  | 1 => some (rvI wide rs 3 rd 0x07)
  | 2 => some (rvI word rs 2 rd 0x03)
  | 3 => some (rvI wide rs 3 rd 0x03)
  | 4 => (match p 12 10, p 6 6 with
    | 0, _ => some (rvI byte rs 4 rd 0x03)
    | 1, 0 => some (rvI half rs 5 rd 0x03)
    | 1, _ => some (rvI half rs 1 rd 0x03)
    | 2, _ => some (rvS byte rd rs 0 0x23)
    | 3, 0 => some (rvS half rd rs 1 0x23)
    | _, _ => none)
  | 5 => some (rvS wide rd rs 3 0x27)
  | 6 => some (rvS word rd rs 2 0x23)
  | _ => some (rvS wide rd rs 3 0x23)

/-- Register arithmetic of quadrant 1, on x8 to x15. -/
def rvcAlu (c : Nat) : Option Word :=
  let p := parcel c
  let rd := 8 + p 9 7
  let rs := 8 + p 4 2
  let imm := p 12 12 * 32 + p 6 2
  match p 11 10, p 12 12, p 6 5 with
  | 0, _, _ => some (rvI imm rd 5 rd 0x13)
  | 1, _, _ => some (rvI (0x400 + imm) rd 5 rd 0x13)
  | 2, _, _ => some (rvI (sxTo32 6 imm) rd 7 rd 0x13)
  | _, 0, 0 => some (rvR 32 rs rd 0 rd 0x33)
  | _, 0, 1 => some (rvR 0 rs rd 4 rd 0x33)
  | _, 0, 2 => some (rvR 0 rs rd 6 rd 0x33)
  | _, 0, _ => some (rvR 0 rs rd 7 rd 0x33)
  | _, _, 0 => some (rvR 32 rs rd 0 rd 0x3B)
  | _, _, 1 => some (rvR 0 rs rd 0 rd 0x3B)
  | _, _, 2 => some (rvR 1 rs rd 0 rd 0x33)
  | _, _, _ => match p 4 2 with
    | 0 => some (rvI 255 rd 7 rd 0x13)
    | 1 => some (rvI 0x604 rd 1 rd 0x13)
    | 2 => some (rvR 4 0 rd 4 rd 0x3B)
    | 3 => some (rvI 0x605 rd 1 rd 0x13)
    | 4 => some (rvR 4 0 rd 0 rd 0x3B)
    | 5 => some (rvI 0xFFF rd 4 rd 0x13)
    | _ => none

/-- Quadrant 1: immediates, register arithmetic and branches. C.LUI of zero to an odd register below 16 is a may-be-operation
that does nothing. -/
def rvcImm (c : Nat) : Option Word :=
  let p := parcel c
  let rd := p 11 7
  let imm := sxTo32 6 (p 12 12 * 32 + p 6 2)
  let jump := sxTo32 12 (p 12 12 * 2 ^ 11 + p 11 11 * 16 + p 10 9 * 256 + p 8 8 * 1024 + p 7 7 * 64 + p 6 6 * 128 + p 5 3 * 2 + p 2 2 * 32)
  let branch := sxTo32 9 (p 12 12 * 256 + p 11 10 * 8 + p 6 5 * 64 + p 4 3 * 2 + p 2 2 * 32)
  match p 15 13 with
  | 0 => some (rvI imm rd 0 rd 0x13)
  | 1 => if rd = 0 then none else some (rvI imm rd 0 rd 0x1B)
  | 2 => some (rvI imm 0 0 rd 0x13)
  | 3 =>
    if rd = 2 then
      let sp := sxTo32 10 (p 12 12 * 512 + p 6 6 * 16 + p 5 5 * 64 + p 4 3 * 128 + p 2 2 * 32)
      if sp = 0 then none else some (rvI sp 2 0 2 0x13)
    else if imm ≠ 0 then some (rvU imm rd 0x37)
    else if rd < 16 ∧ rd % 2 = 1 then some (rvI 0 0 0 0 0x13) else none
  | 4 => rvcAlu c
  | 5 => some (rvJ jump 0)
  | 6 => some (rvB branch (8 + p 9 7) 0)
  | _ => some (rvB branch (8 + p 9 7) 1)

/-- Quadrant 2: accesses through the stack pointer, moves, and jumps to a register. -/
def rvcStack (c : Nat) : Option Word :=
  let p := parcel c
  let rd := p 11 7
  let rs := p 6 2
  let wide := p 12 12 * 32 + p 6 5 * 8 + p 4 2 * 64
  let wideTo := p 12 10 * 8 + p 9 7 * 64
  match p 15 13 with
  | 0 => some (rvI (p 12 12 * 32 + rs) rd 1 rd 0x13)
  | 1 => some (rvI wide 2 3 rd 0x07)
  | 2 => if rd = 0 then none else some (rvI (p 12 12 * 32 + p 6 4 * 4 + p 3 2 * 64) 2 2 rd 0x03)
  | 3 => if rd = 0 then none else some (rvI wide 2 3 rd 0x03)
  | 4 => (match p 12 12, decide (rs = 0), decide (rd = 0) with
    | 0, true, true => none
    | 0, true, false => some (rvI 0 rd 0 0 0x67)
    | 0, false, _ => some (rvR 0 rs 0 0 rd 0x33)
    | _, true, true => some 0x00100073
    | _, true, false => some (rvI 0 rd 0 1 0x67)
    | _, false, _ => some (rvR 0 rs rd 0 rd 0x33))
  | 5 => some (rvS wideTo rs 2 3 0x27)
  | 6 => some (rvS (p 12 9 * 4 + p 8 7 * 64) rs 2 2 0x23)
  | _ => some (rvS wideTo rs 2 3 0x23)

/-- The instruction of 32 bits that a parcel of 16 stands for; none for a reserved one. -/
def rvcExpand (c : Nat) : Option Word :=
  match c % 4 with
  | 0 => rvcLoads c
  | 1 => rvcImm c
  | _ => rvcStack c

end Sys2Proof.Machine
end

