-- ==== Sys2Proof/Machine/RvFloat.lean ====
section
/-! DEFINITION. Floating-point instructions of a kindling hart (F, D, Zfhmin and Zfa), over the exact arithmetic and the one
rounding of Float.lean. R424 names the profile that has them and restates none of it (PRESUMED, log 25). -/

namespace Sys2Proof.Machine

/-! ### Operations of one format -/

/-- The rounding that a code names; none for a reserved one. -/
def rvRnd : Nat → Option Rnd
  | 0 => some .rne | 1 => some .rtz | 2 => some .rdn | 3 => some .rup | 4 => some .rna | _ => none

/-- The rounding of an instruction: its own, or at 7 the one of frm. -/
def Hart.rounding (x : Hart) (rm : Nat) : Option Rnd := rvRnd (if rm = 7 then (x.csr 3).toNat / 32 else rm)

/-- The bits of a format. -/
def FFmt.low (f : FFmt) (v : Word64) : Nat := v.toNat % 2 ^ f.width
/-- The value with its sign bit changed, a NaN's too. -/
def FFmt.flip (f : FFmt) (v : Word64) : Word64 := v ^^^ BitVec.ofNat 64 (2 ^ (f.width - 1))

/-- a / b, once rounded: 0/0 and inf/inf are invalid, x/0 raises DZ. -/
def fpDiv (f : FFmt) (m : Rnd) (a b : Word64) : Word64 × FFlags :=
  match unpack f a, unpack f b with
  | .nan s, y => (f.nan, flagIf (s || y.isSnan) flagNV)
  | _, .nan s => (f.nan, flagIf s flagNV)
  | .inf _, .inf _ => (f.nan, flagNV)
  | .inf s, .fin t _ _ => (f.inf (s ^^ t), 0)
  | .fin s _ _, .inf t => (f.zero (s ^^ t), 0)
  | .fin s n d, .fin t p q =>
    if p = 0 then (if n = 0 then (f.nan, flagNV) else (f.inf (s ^^ t), flagDZ))
    else (FExact.ofRat (s ^^ t) (sgn (s ^^ t) (n * q)) (d * p)).round f m

/-- The fused forms: (−)a × b (−) c. -/
def fpFused (f : FFmt) (m : Rnd) (negProd negC : Bool) (a b c : Word64) : Word64 × FFlags :=
  fpFma f m (if negProd then f.flip a else a) b (if negC then f.flip c else c)

/-- Sign injection: the sign of b, its opposite, or the exclusive or of both. -/
def fpSign (f : FFmt) (k : Nat) (a b : Word64) : Word64 :=
  let top := 2 ^ (f.width - 1)
  let sa := f.low a / top
  let sb := f.low b / top
  let s := match k with | 0 => sb | 1 => 1 - sb | _ => (sa + sb) % 2
  BitVec.ofNat 64 (f.low a % top + s * top)

/-- A conversion to an integer of w bits; a NaN gives the largest. -/
def fpInt (f : FFmt) (signed : Bool) (w : Nat) (m : Rnd) (a : Word64) : Nat × FFlags :=
  match unpack f a with
  | .nan _ => ((if signed then 2 ^ (w - 1) else 2 ^ w) - 1, flagNV)
  | _ => let (i, fl) := fpToInt f signed w m a
    ((BitVec.ofInt w i).toNat, fl)

/-- A value rounded to an integral one of its format; `exact` raises NX where it differs. -/
def fpIntegral (f : FFmt) (m : Rnd) (exact : Bool) (a : Word64) : Word64 × FFlags :=
  let r := fpRnd f m a
  match unpack f a with
  | .fin s n d => (r.1, flagIf (exact && (roundInt m s n d).2) flagNX)
  | _ => r

/-- FCVTMOD.W.D: the integer part modulo 2^32, with the flags of the conversion. -/
def fpIntMod (a : Word64) : Word64 × FFlags :=
  let fl := (fpInt .f64 true 32 .rtz a).2
  match unpack .f64 a with
  | .fin s n d => ((BitVec.ofInt 32 (sgn s (n / d))).signExtend 64, fl)
  | _ => (0, fl)

/-- FMIN and FMAX in the form that a NaN operand makes a NaN. -/
def fpMinMaxNan (f : FFmt) (wantMax : Bool) (a b : Word64) : Word64 × FFlags :=
  let x := unpack f a
  let y := unpack f b
  if x.isNan || y.isNan then (f.nan, flagIf (x.isSnan || y.isSnan) flagNV) else fpMinMax f wantMax a b

/-- The constants of FLI, as ratios, from the second on; −1, the least normal value, infinity and NaN beside them. -/
def fpConsts : List (Nat × Nat) :=
  [(1, 65536), (1, 32768), (1, 256), (1, 128), (1, 16), (1, 8), (1, 4), (5, 16), (3, 8), (7, 16), (1, 2), (5, 8), (3, 4), (7, 8), (1, 1),
   (5, 4), (3, 2), (7, 4), (2, 1), (5, 2), (3, 1), (4, 1), (8, 1), (16, 1), (128, 1), (256, 1), (32768, 1), (65536, 1)]
def fpConst (f : FFmt) (i : Nat) : Word64 :=
  match i with
  | 0 => (roundMag f .rne true 1 1).1
  | 1 => BitVec.ofNat 64 (2 ^ f.fb)
  | 30 => f.inf false
  | 31 => f.nan
  | i => let c := fpConsts.getD (i - 2) (1, 1)
    (roundMag f .rne false c.1 c.2).1

/-! ### Registers -/

def FFmt.ofRv : Nat → Option FFmt | 0 => some .f32 | 1 => some .f64 | 2 => some .f16 | _ => none

/-- A value in a register of 64 bits, those above it all ones. -/
def FFmt.box (f : FFmt) (v : Word64) : Word64 := BitVec.ofNat 64 (2 ^ 64 - 2 ^ f.width + f.low v)
def Hart.freg (x : Hart) (r : Nat) : Word64 := x.f.getD r 0
/-- A register as an operand of a format: one that is not boxed is the canonical NaN. -/
def Hart.fget (x : Hart) (f : FFmt) (r : Nat) : Word64 :=
  let v := x.freg r
  if f.box v = v then BitVec.ofNat 64 (f.low v) else f.nan
def Hart.fput (x : Hart) (f : FFmt) (r : Nat) (v : Word64) : Hart := { x with f := x.f.set r (f.box v) }.fpDirty
/-- Flags accrue in fcsr. -/
def Hart.accrue (x : Hart) (fl : FFlags) : Hart := if fl = 0 then x else (x.modCsr 3 fun v => v ||| fl.setWidth 64).fpDirty
def Hart.fres (x : Hart) (f : FFmt) (r : Nat) (v : Word64 × FFlags) : Hart := (x.fput f r v.1).accrue v.2
def Hart.ires (x : Hart) (r : Nat) (v : Word64 × FFlags) : Hart := (x.setReg (BitVec.ofNat 5 r) v.1).accrue v.2

/-! ### Instructions -/

/-- A value of w bits extended with its sign. -/
def sxTo64 (w v : Nat) : Word64 := (BitVec.ofNat w v).signExtend 64

/-- Moves, classes and constants, which round nothing. -/
def Hart.fpMove (x : Hart) (f5 fmt rd rs1 rs2 rm : Nat) : Option Hart := do
  let f ← FFmt.ofRv fmt
  let a := x.fget f rs1
  match f5, rs2, rm with
  | 0x1C, 0, 0 => some (x.setReg (BitVec.ofNat 5 rd) (sxTo64 f.width (f.low (x.freg rs1))))
  | 0x1C, 0, 1 => if f = .f16 then none else some (x.setReg (BitVec.ofNat 5 rd) (BitVec.ofNat 64 (fpClass f a)))
  | 0x1E, 0, 0 => some (x.fput f rd (x.reg (BitVec.ofNat 5 rs1)))
  | 0x1E, 1, 0 => if f = .f16 then none else some (x.fput f rd (fpConst f rs1))
  | _, _, _ => none

/-- Conversions between formats and with integers, and the roundings to integral values. -/
def Hart.fpConvert (x : Hart) (f5 fmt rd rs1 rs2 rm : Nat) : Option Hart := do
  let f ← FFmt.ofRv fmt
  let w := if rs2 < 2 then 32 else 64
  let v := x.reg (BitVec.ofNat 5 rs1)
  let i : Int := match rs2 with | 0 => (v.setWidth 32).toInt | 1 => (v.setWidth 32).toNat | 2 => v.toInt | _ => v.toNat
  let m ← x.rounding rm
  match f5 with
  | 0x08 =>
    if rs2 < 4 then
      let g ← FFmt.ofRv rs2
      if g = f then none else some (x.fres f rd (fpCvt g f m (x.fget g rs1)))
    else if (rs2 = 4 ∨ rs2 = 5) ∧ f ≠ .f16 then some (x.fres f rd (fpIntegral f m (rs2 == 5) (x.fget f rs1)))
    else none
  | 0x18 =>
    if f = .f16 then none
    else if rs2 = 8 then (if f = .f64 ∧ rm = 1 then some (x.ires rd (fpIntMod (x.fget f rs1))) else none)
    else if rs2 < 4 then
      let r := fpInt f (rs2 % 2 == 0) w m (x.fget f rs1)
      some (x.ires rd (sxTo64 w r.1, r.2))
    else none
  | 0x1A => if f = .f16 ∨ 4 ≤ rs2 then none else some (x.fres f rd (fpOfInt f m i))
  | _ => none

/-- Arithmetic, comparison and selection of single and double precision. -/
def Hart.fpArith (x : Hart) (f5 fmt rd rs1 rs2 rm : Nat) : Option Hart := do
  let f ← FFmt.ofRv (if fmt = 2 then 3 else fmt)
  let a := x.fget f rs1
  let b := x.fget f rs2
  let round := fun (op : Rnd → Word64 × FFlags) => (x.rounding rm).map fun m => x.fres f rd (op m)
  let cond := fun (sel : Nat) (quiet : Bool) =>
    let r := fpCond f sel a b
    let fl := if quiet then flagIf ((unpack f a).isSnan || (unpack f b).isSnan) flagNV else r.2
    some (x.ires rd (if r.1 then 1 else 0, fl))
  match f5, rm with
  | 0x00, _ => round fun m => fpAdd f m a b
  | 0x01, _ => round fun m => fpSub f m a b
  | 0x02, _ => round fun m => fpMul f m a b
  | 0x03, _ => round fun m => fpDiv f m a b
  | 0x0B, _ => if rs2 = 0 then round fun m => fpSqrt f m a else none
  | 0x04, 0 | 0x04, 1 | 0x04, 2 => some (x.fput f rd (fpSign f rm a b))
  | 0x05, 0 | 0x05, 1 => some (x.fres f rd (fpMinMax f (rm == 1) a b))
  | 0x05, 2 | 0x05, 3 => some (x.fres f rd (fpMinMaxNan f (rm == 3) a b))
  | 0x14, 0 => cond 3 false
  | 0x14, 1 => cond 2 false
  | 0x14, 2 => cond 0 false
  | 0x14, 4 => cond 3 true
  | 0x14, 5 => cond 2 true
  | _, _ => none

/-- A floating-point instruction of a hart, but for loads and stores: the hart after it, with its PC as before; none where it is
illegal, as every one is while the unit is off. -/
def Hart.fpWord (x : Hart) (w : Word) : Option Hart :=
  let rd := insnBits w 11 7
  let rs1 := insnBits w 19 15
  let rs2 := insnBits w 24 20
  let rm := insnBits w 14 12
  let fmt := insnBits w 26 25
  let f5 := insnBits w 31 27
  if x.fpOff then none
  else match insnBits w 6 0 with
    | 0x53 =>
      if f5 = 0x1C ∨ f5 = 0x1E then x.fpMove f5 fmt rd rs1 rs2 rm
      else if f5 = 0x08 ∨ f5 = 0x18 ∨ f5 = 0x1A then x.fpConvert f5 fmt rd rs1 rs2 rm
      else x.fpArith f5 fmt rd rs1 rs2 rm
    | op => match FFmt.ofRv (if fmt = 2 then 3 else fmt), x.rounding rm with
      | some f, some m =>
        some (x.fres f rd (fpFused f m (op == 0x4B || op == 0x4F) (op == 0x47 || op == 0x4F) (x.fget f rs1) (x.fget f rs2) (x.fget f f5)))
      | _, _ => none

end Sys2Proof.Machine
end

