-- ==== Sys2Proof/Machine/RvVector.lean ====
section
/-! DEFINITION. Vector instructions of a kindling hart (V with Zvfhmin and Zvbb), but for loads and stores. R424 names the
profile that has them and restates none of it (PRESUMED, log 25): a reserved form is illegal, elements that agnostic policies
leave open stay as they were, and an application length between VLMAX and twice VLMAX gives VLMAX. -/

namespace Sys2Proof.Machine

/-! ### The register file -/

/-- The n bytes of a register group from byte i, and element i of w bits. -/
def Hart.vbytes (x : Hart) (r i n : Nat) : List Byte := cellsGet x.v (r * vlenb + i) n
def Hart.vget (x : Hart) (r w i : Nat) : Nat := natOfBytes (x.vbytes r (i * (w / 8)) (w / 8))
def Hart.vputBytes (x : Hart) (r i : Nat) (bs : List Byte) : Hart := { x with v := cellsSet x.v (cellsAt (r * vlenb + i) bs) }
def Hart.vput (x : Hart) (r w i v : Nat) : Hart := x.vputBytes r (i * (w / 8)) (bytesOfNat (w / 8) v)
/-- Bit i of a mask register. -/
def Hart.vbit (x : Hart) (r i : Nat) : Bool := (cellGet x.v (r * vlenb + i / 8)).getLsbD (i % 8)
def Hart.vputBit (x : Hart) (r i : Nat) (b : Bool) : Hart :=
  let old := cellGet x.v (r * vlenb + i / 8)
  let bit : Byte := 1#8 <<< (i % 8)
  x.vputBytes r (i / 8) [if b then old ||| bit else old &&& ~~~bit]

def Hart.vl (x : Hart) : Nat := (x.csr 0xC20).toNat
def Hart.vstart (x : Hart) : Nat := (x.csr 8).toNat

/-! ### vtype -/

/-- The group multiplier as an exponent of two, from the three bits of vlmul; 4 is reserved. -/
def vlmulOf (n : Nat) : Int := if n < 4 then n else (n : Int) - 8
/-- Registers of a group. -/
def vregs (l : Int) : Nat := 2 ^ l.toNat
/-- Elements of w bits in a group. -/
def vlmax (w : Nat) : Int → Nat
  | .ofNat k => vlenb * 8 / w * 2 ^ k
  | .negSucc k => vlenb * 8 / w / 2 ^ (k + 1)

/-- The element width and multiplier of a vtype value; none where it is not supported: vill, a reserved bit or code, or an
element too wide for a fraction of a register of 64-bit elements. -/
def vtypeOf (t : Nat) : Option (Nat × Int) :=
  let w := 8 * 2 ^ (t / 8 % 8)
  let l := vlmulOf (t % 8)
  if 256 ≤ t ∨ 64 < w ∨ l < -3 ∨ 64 * 8 * vregs l < w * 8 * 2 ^ (-l).toNat then none else some (w, l)

/-- VSETVLI, VSETIVLI and VSETVL: the new length for an application length, or with rd and rs1 both x0 the old one, which an
unchanged VLMAX keeps. -/
def Hart.vset (x : Hart) (w : Word) : Option Hart :=
  let rd := insnBits w 11 7
  let rs1 := insnBits w 19 15
  let top := insnBits w 31 30
  let t : Nat := if top < 2 then insnBits w 30 20 else if top = 3 then insnBits w 29 20 else (x.reg (BitVec.ofNat 5 (insnBits w 24 20))).toNat
  let keep := top != 3 && rd == 0 && rs1 == 0
  let old := (vtypeOf (x.csr 0xC21).toNat).map fun c => vlmax c.1 c.2
  let fresh := fun (max : Nat) =>
    if keep then (if old = some max then some x.vl else none)
    else
      let avl := if top = 3 then rs1 else if rs1 = 0 then max else (x.reg (BitVec.ofNat 5 rs1)).toNat
      some (min avl max)
  if top = 2 ∧ insnBits w 29 25 ≠ 0 then none
  else
    let (vl, vt) : Nat × Word64 := match (vtypeOf t).bind fun c => fresh (vlmax c.1 c.2) with
      | some vl => (vl, BitVec.ofNat 64 t)
      | none => (0, 0x8000000000000000)
    some (((x.setCsr 0xC20 (BitVec.ofNat 64 vl)).setCsr 0xC21 vt).setReg (BitVec.ofNat 5 rd) (BitVec.ofNat 64 vl))

/-! ### Results of one element -/

/-- A result, the flags that it raises, and whether it saturates. -/
structure VRes where
  v   : Nat
  fl  : FFlags := 0
  sat : Bool := false

/-- A number of w bits with its sign, and an integer as w bits. -/
def sgnOf (w n : Nat) : Int := (BitVec.ofNat w n).toInt
def vbits (w : Nat) (i : Int) : Nat := (BitVec.ofInt w i).toNat
/-- An integer shifted right by n and rounded by the mode of vxrm: to nearest up, to nearest even, down, or to odd. -/
def vround (rm : Nat) (i : Int) (n : Nat) : Int :=
  let q := i / 2 ^ n
  let r := (i % 2 ^ n).toNat
  let up := match rm with
    | 0 => decide (2 ^ n ≤ 2 * r)
    | 1 => decide (2 ^ n < 2 * r) || (decide (2 ^ n = 2 * r) && q % 2 == 1)
    | 2 => false
    | _ => r != 0 && q % 2 == 0
  if up then q + 1 else q
/-- An integer clamped to w bits, signed or not. -/
def vclamp (signed : Bool) (w : Nat) (i : Int) : VRes :=
  let c := if signed then satI w i else satN w i
  { v := vbits w c, sat := decide (c ≠ i) }

/-- The forms of an operation: 1 for a second vector, 2 for a scalar, 4 for an immediate, and their sums. -/
def hasForm (forms f : Nat) : Bool := forms / f % 2 == 1

/-- Operations of the OPI encodings on elements of w bits: a is of vs2, b of the other source. -/
def vInt (f6 w rm a b : Nat) : Option (Nat × VRes) :=
  let s := sgnOf w
  let n := b % w
  let res := fun (forms : Nat) (i : Int) => some (forms, ({ v := vbits w i } : VRes))
  let nat := fun (forms v : Nat) => some (forms, ({ v := v % 2 ^ w } : VRes))
  match f6 with
  | 0x00 => nat 7 (a + b)
  | 0x01 => nat 3 (a &&& (2 ^ w - 1 - b))
  | 0x02 => res 3 ((a : Int) - b)
  | 0x03 => res 6 ((b : Int) - a)
  | 0x04 => nat 3 (min a b)
  | 0x05 => nat 3 (if s a < s b then a else b)
  | 0x06 => nat 3 (max a b)
  | 0x07 => nat 3 (if s a < s b then b else a)
  | 0x09 => nat 7 (a &&& b)
  | 0x0A => nat 7 (a ||| b)
  | 0x0B => nat 7 (a ^^^ b)
  | 0x14 => nat 7 (rolN w a (w - n))
  | 0x15 => nat 3 (rolN w a n)
  | 0x20 => some (7, vclamp false w (a + b))
  | 0x21 => some (7, vclamp true w (s a + s b))
  | 0x22 => some (3, vclamp false w ((a : Int) - b))
  | 0x23 => some (3, vclamp true w (s a - s b))
  | 0x25 => nat 7 (a * 2 ^ n)
  | 0x27 => some (3, vclamp true w (vround rm (s a * s b) (w - 1)))
  | 0x28 => nat 7 (a / 2 ^ n)
  | 0x29 => res 7 (s a / 2 ^ n)
  | 0x2A => res 7 (vround rm a n)
  | 0x2B => res 7 (vround rm (s a) n)
  | _ => none

/-- Operations of the OPM encodings; d is the old element of vd. -/
def vMul (f6 w rm a b d : Nat) : Option (Nat × VRes) :=
  let s := sgnOf w
  let res := fun (i : Int) => some (3, ({ v := vbits w i } : VRes))
  match f6 with
  | 0x08 => res (vround rm (a + b) 1)
  | 0x09 => res (vround rm (s a + s b) 1)
  | 0x0A => res (vround rm ((a : Int) - b) 1)
  | 0x0B => res (vround rm (s a - s b) 1)
  | 0x20 => res (if b = 0 then -1 else (a / b : Nat))
  | 0x21 => res (if b = 0 then -1 else (s a).tdiv (s b))
  | 0x22 => res (if b = 0 then a else (a % b : Nat))
  | 0x23 => res (if b = 0 then a else (s a).tmod (s b))
  | 0x24 => res (a * b / 2 ^ w : Nat)
  | 0x25 => res (a * b : Nat)
  | 0x26 => res (s a * b / 2 ^ w)
  | 0x27 => res (s a * s b / 2 ^ w)
  | 0x29 => res ((b * d + a : Nat) : Int)
  | 0x2B => res ((a : Int) - b * d)
  | 0x2D => res ((b * a + d : Nat) : Int)
  | 0x2F => res ((d : Int) - b * a)
  | _ => none

/-- Widening operations of the OPM encodings, on sources of w bits (a of 2w in the forms 0x34 to 0x37); d is the old element. -/
def vWide (f6 w a b d : Nat) : Option (Nat × VRes) :=
  let s := sgnOf w
  let res := fun (forms : Nat) (i : Int) => some (forms, ({ v := vbits (2 * w) i } : VRes))
  match f6 with
  | 0x30 => res 3 (a + b)
  | 0x31 => res 3 (s a + s b)
  | 0x32 => res 3 ((a : Int) - b)
  | 0x33 => res 3 (s a - s b)
  | 0x34 => res 3 (a + b)
  | 0x35 => res 3 (a + s b)
  | 0x36 => res 3 ((a : Int) - b)
  | 0x37 => res 3 (a - s b)
  | 0x38 => res 3 (a * b : Nat)
  | 0x3A => res 3 (s a * b)
  | 0x3B => res 3 (s a * s b)
  | 0x3C => res 3 ((a * b + d : Nat) : Int)
  | 0x3D => res 3 (s a * s b + d)
  | 0x3E => res 2 (s a * b + d)
  | 0x3F => res 3 (a * s b + d)
  | _ => none

/-- Narrowing shifts and clips: a has 2w bits. -/
def vNarrow (f6 w rm a b : Nat) : Option VRes :=
  let n := b % (2 * w)
  let s := sgnOf (2 * w) a
  match f6 with
  | 0x2C => some { v := a / 2 ^ n % 2 ^ w }
  | 0x2D => some { v := vbits w (s / 2 ^ n) }
  | 0x2E => some (vclamp false w (vround rm a n))
  | 0x2F => some (vclamp true w (vround rm s n))
  | _ => none

/-- Comparisons. -/
def vCmp (f6 w a b : Nat) : Option (Nat × Bool) :=
  let s := sgnOf w
  match f6 with
  | 0x18 => some (7, a == b)
  | 0x19 => some (7, a != b)
  | 0x1A => some (3, decide (a < b))
  | 0x1B => some (3, decide (s a < s b))
  | 0x1C => some (7, decide (a ≤ b))
  | 0x1D => some (7, decide (s a ≤ s b))
  | 0x1E => some (6, decide (b < a))
  | 0x1F => some (6, decide (s b < s a))
  | _ => none

/-- Operations of one source: extensions, and those of Zvbb. -/
def vUnary (k w a : Nat) : Option Nat :=
  match k with
  | 8 => some (natOfBytes ((bytesOfNat (w / 8) a).map fun b => b.reverse))
  | 9 => some (natOfBytes (bytesOfNat (w / 8) a).reverse)
  | 0xA => some (BitVec.ofNat w a).reverse.toNat
  | 0xC => some (clzN w a)
  | 0xD => some (ctzN w a)
  | 0xE => some (popN w a)
  | _ => none

/-- A step of a reduction. -/
def vReduce (f6 w acc a : Nat) : Nat :=
  let s := sgnOf w
  match f6 with
  | 0 => (acc + a) % 2 ^ w
  | 1 => acc &&& a
  | 2 => acc ||| a
  | 3 => acc ^^^ a
  | 4 => min acc a
  | 5 => if s a < s acc then a else acc
  | 6 => max acc a
  | _ => if s acc < s a then a else acc

/-! ### Floating-point elements -/

def vfmt (w : Nat) : FFmt := if w = 16 then .f16 else if w = 64 then .f64 else .f32
def fres (r : Word64 × FFlags) : VRes := { v := r.1.toNat, fl := r.2 }

/-- The fused operations by the low three bits of funct6: which factors and which term, and the two signs. -/
def vFused (f6 : Nat) (f : FFmt) (m : Rnd) (a b d : Word64) : VRes :=
  let acc := f6 / 4 % 2 == 1
  fres (fpFused f m (f6 % 4 == 1 || f6 % 4 == 3) (f6 % 4 == 1 || f6 % 4 == 2) b (if acc then a else d) (if acc then d else a))

/-- Operations of the OPF encodings on elements of one format. -/
def vFp (f6 : Nat) (f : FFmt) (m : Rnd) (a b d : Word64) : Option (Nat × VRes) :=
  match f6 with
  | 0x00 => some (3, fres (fpAdd f m a b))
  | 0x02 => some (3, fres (fpSub f m a b))
  | 0x04 => some (3, fres (fpMinMax f false a b))
  | 0x06 => some (3, fres (fpMinMax f true a b))
  | 0x08 | 0x09 | 0x0A => some (3, { v := (fpSign f (f6 - 8) a b).toNat })
  | 0x20 => some (3, fres (fpDiv f m a b))
  | 0x21 => some (2, fres (fpDiv f m b a))
  | 0x24 => some (3, fres (fpMul f m a b))
  | 0x27 => some (2, fres (fpSub f m b a))
  | 0x28 | 0x29 | 0x2A | 0x2B | 0x2C | 0x2D | 0x2E | 0x2F => some (3, vFused f6 f m a b d)
  | _ => none

/-- Widening operations, computed in the wide format of exactly converted sources (a is wide in 0x34 and 0x36). -/
def vFpWide (f6 : Nat) (f g : FFmt) (m : Rnd) (a b d : Word64) : Option VRes :=
  let up := fun (v : Word64) => fpCvt f g m v
  let two := fun (op : FFmt → Rnd → Word64 → Word64 → Word64 × FFlags) =>
    let r := op g m (up a).1 (up b).1
    some (fres (r.1, r.2 ||| (up a).2 ||| (up b).2))
  match f6 with
  | 0x30 => two fpAdd
  | 0x32 => two fpSub
  | 0x34 => let r := fpAdd g m a (up b).1
    some (fres (r.1, r.2 ||| (up b).2))
  | 0x36 => let r := fpSub g m a (up b).1
    some (fres (r.1, r.2 ||| (up b).2))
  | 0x38 => two fpMul
  | 0x3C | 0x3D | 0x3E | 0x3F => let r := vFused f6 g m (up a).1 (up b).1 d
    some { r with fl := r.fl ||| (up a).2 ||| (up b).2 }
  | _ => none

/-- Comparisons. -/
def vFpCmp (f6 : Nat) (f : FFmt) (a b : Word64) : Option (Nat × Bool × FFlags) :=
  match f6 with
  | 0x18 => some (3, fpCond f 0 a b)
  | 0x19 => some (3, fpCond f 3 a b)
  | 0x1B => some (3, fpCond f 2 a b)
  | 0x1C => some (3, fpCond f 1 a b)
  | 0x1D => some (2, fpCond f 4 a b)
  | 0x1F => some (2, fpCond f 5 a b)
  | _ => none

/-- A number near n/d to the nearest integer, halves up. -/
def nearest (n d : Nat) : Nat := (2 * n + d) / (2 * d)

/-- The estimate of a reciprocal, of 7 bits: that of the middle of the interval that the seven highest fraction bits name. A
result beyond the largest value takes what an overflow rounds to. -/
def fpRec7 (f : FFmt) (m : Rnd) (a : Word64) : Word64 × FFlags :=
  match unpack f a with
  | .nan s => (f.nan, flagIf s flagNV)
  | .inf s => (f.zero s, 0)
  | .fin s n d =>
    if n = 0 then (f.inf s, flagDZ)
    else
      let e := ilog2 n d
      if e < -(f.bias : Int) - 1 then ((roundMag f m s (2 ^ (f.bias + 2)) 1).1, flagOF ||| flagNX)
      else
        let i := (scaledDiv n d (7 - e)).1 - 128
        let t := 128 + nearest (128 * (256 * 2 - (257 + 2 * i))) (257 + 2 * i)
        -- (t / 128) * 2^(-e - 1)
        ((match e + 1 with
          | .ofNat k => roundMag f .rtz s t (128 * 2 ^ k)
          | .negSucc k => roundMag f .rtz s (t * 2 ^ (k + 1)) 128).1, 0)

/-- The estimate of a reciprocal square root, in the same way from six fraction bits and the parity of the exponent. -/
def fpRsqrt7 (f : FFmt) (a : Word64) : Word64 × FFlags :=
  match unpack f a with
  | .nan s => (f.nan, flagIf s flagNV)
  | .inf s => if s then (f.nan, flagNV) else (f.zero false, 0)
  | .fin s n d =>
    if n = 0 then (f.inf s, flagDZ)
    else if s then (f.nan, flagNV)
    else
      let e := ilog2 n d
      let i := (scaledDiv n d (6 - e)).1 - 64
      -- the middle is (129 + 2 i) / 128, doubled where the exponent is odd; 2k - 1 is the root of 512^2 over it
      let mid := (129 + 2 * i) * (if e % 2 = 0 then 1 else 2)
      let k := (isqrt (2 ^ 18 * 128 / mid) + 1) / 2
      ((match e / 2 + 1 with
        | .ofNat j => roundMag f .rtz false k (128 * 2 ^ j)
        | .negSucc j => roundMag f .rtz false (k * 2 ^ (j + 1)) 128).1, 0)

/-- Rounding to odd: toward zero, with the last bit set where the result is inexact. -/
def toOdd (r : Word64 × FFlags) : Word64 × FFlags := if r.2.getLsbD 0 then (r.1 ||| 1, r.2) else r

/-- Conversions of one width, of a format f and integers of w bits. -/
def vFpSame (k : Nat) (f : FFmt) (w : Nat) (m : Rnd) (a : Word64) : Option VRes :=
  let int := fun (r : Nat × FFlags) => some ({ v := r.1, fl := r.2 } : VRes)
  match k with
  | 0 => int (fpInt f false w m a)
  | 1 => int (fpInt f true w m a)
  | 2 => some (fres (fpOfInt f m a.toNat))
  | 3 => some (fres (fpOfInt f m (sgnOf w a.toNat)))
  | 6 => int (fpInt f false w .rtz a)
  | 7 => int (fpInt f true w .rtz a)
  | _ => none

/-- Widening conversions, from w bits and the format f to 2w bits and the format g. -/
def vFpUp (k : Nat) (f g : FFmt) (w : Nat) (m : Rnd) (a : Word64) : Option VRes :=
  let int := fun (r : Nat × FFlags) => some ({ v := r.1, fl := r.2 } : VRes)
  match k with
  | 8 => int (fpInt f false (2 * w) m a)
  | 9 => int (fpInt f true (2 * w) m a)
  | 0xA => some (fres (fpOfInt g m a.toNat))
  | 0xB => some (fres (fpOfInt g m (sgnOf w a.toNat)))
  | 0xC => some (fres (fpCvt f g m a))
  | 0xE => int (fpInt f false (2 * w) .rtz a)
  | 0xF => int (fpInt f true (2 * w) .rtz a)
  | _ => none

/-- Narrowing conversions, from 2w bits and the format g to w bits and the format f. -/
def vFpDown (k : Nat) (f g : FFmt) (w : Nat) (m : Rnd) (a : Word64) : Option VRes :=
  let int := fun (r : Nat × FFlags) => some ({ v := r.1, fl := r.2 } : VRes)
  match k with
  | 0x10 => int (fpInt g false w m a)
  | 0x11 => int (fpInt g true w m a)
  | 0x12 => some (fres (fpOfInt f m a.toNat))
  | 0x13 => some (fres (fpOfInt f m (sgnOf (2 * w) a.toNat)))
  | 0x14 => some (fres (fpCvt g f m a))
  | 0x15 => some (fres (toOdd (fpCvt g f .rtz a)))
  | 0x16 => int (fpInt g false w .rtz a)
  | 0x17 => int (fpInt g true w .rtz a)
  | _ => none

/-- Operations of one operand of the second unary group. -/
def vFpOne (k : Nat) (f : FFmt) (m : Rnd) (a : Word64) : Option VRes :=
  match k with
  | 0 => some (fres (fpSqrt f m a))
  | 4 => some (fres (fpRsqrt7 f a))
  | 5 => some (fres (fpRec7 f m a))
  | 0x10 => some { v := fpClass f a }
  | _ => none

/-! ### Instructions -/

/-- A vector instruction with the settings that it runs under. -/
structure VInsn where
  x    : Hart
  f6   : Nat
  f3   : Nat
  vm   : Bool
  vs2  : Nat
  vs1  : Nat
  vd   : Nat
  /-- the element width and the multiplier's exponent. -/
  w    : Nat
  l    : Int

def VInsn.vl (v : VInsn) : Nat := v.x.vl
/-- 1 for a second vector, 2 for a scalar, 4 for an immediate. -/
def VInsn.form (v : VInsn) : Nat := if v.f3 < 3 then 1 else if v.f3 = 3 then 4 else 2
/-- Element i takes part. -/
def VInsn.on (v : VInsn) (i : Nat) : Bool := v.vm || v.x.vbit 0 i
/-- The scalar or immediate operand before it is cut to a width; `zero` for an immediate without a sign. -/
def VInsn.scalar (v : VInsn) (zero : Bool) : Nat :=
  if v.f3 = 3 then (if zero then v.vs1 else (immOf 5 v.vs1).toNat) else (v.x.reg (BitVec.ofNat 5 v.vs1)).toNat
/-- Element i of the first source, of w bits. -/
def VInsn.src (v : VInsn) (zero : Bool) (w i : Nat) : Nat :=
  if v.form = 1 then v.x.vget v.vs1 w i
  else if v.f3 = 5 then (v.x.fget (vfmt w) v.vs1).toNat
  else v.scalar zero % 2 ^ w

/-- A register group is legal: its multiplier is from 1/8 to 8, and its first register is a multiple of its size. -/
def vgroupOk (r : Nat) (l : Int) : Bool := decide (-3 ≤ l) && decide (l ≤ 3) && r % vregs l == 0
/-- A destination group of elements of wd bits may overlap a source group of ws bits: never but where the widths are equal, in
the lowest part when it is narrower, and in the highest of a whole source when it is wider. -/
def overlapOk (d nd wd s : Nat) (ls : Int) (ws : Nat) : Bool :=
  let ns := vregs ls
  if d + nd ≤ s ∨ s + ns ≤ d ∨ wd = ws then true
  else if wd < ws then d == s
  else decide (0 ≤ ls) && s + ns == d + nd

/-- The groups of an instruction: the destination of exponent ld and width wd, vs2, and in the vector form vs1; a masked
destination is not v0. -/
def VInsn.groups (v : VInsn) (ld : Int) (wd : Nat) (l2 : Int) (w2 : Nat) (l1 : Int) (w1 : Nat) : Bool :=
  vgroupOk v.vd ld && vgroupOk v.vs2 l2 && (v.form != 1 || vgroupOk v.vs1 l1) && (v.vm || v.vd != 0) &&
  overlapOk v.vd (vregs ld) wd v.vs2 l2 w2 && (v.form != 1 || overlapOk v.vd (vregs ld) wd v.vs1 l1 w1)
/-- The same where the destination is one mask register. -/
def VInsn.maskGroups (v : VInsn) : Bool :=
  vgroupOk v.vs2 v.l && (v.form != 1 || vgroupOk v.vs1 v.l) && overlapOk v.vd 1 1 v.vs2 v.l v.w &&
  (v.form != 1 || overlapOk v.vd 1 1 v.vs1 v.l v.w)

/-- The vector state after an instruction: vstart is zero, and the unit is dirty. -/
def Hart.vdone (x : Hart) : Hart := (x.setCsr 8 0).vecDirty
/-- Elements from vstart to n that take part, replaced in vd. -/
def VInsn.run (v : VInsn) (w n : Nat) (on : Nat → Bool) (f : Nat → VRes) : Hart :=
  (List.range n).foldl (fun y i =>
    if v.x.vstart ≤ i ∧ on i then
      let r := f i
      let y := (y.vput v.vd w i r.v).accrue r.fl
      if r.sat then y.setCsr 9 1 else y
    else y) v.x
/-- The same for bits of a mask register. -/
def VInsn.runMask (v : VInsn) (on : Nat → Bool) (f : Nat → Bool × FFlags) : Hart :=
  (List.range v.vl).foldl (fun y i =>
    if v.x.vstart ≤ i ∧ on i then (y.vputBit v.vd i (f i).1).accrue (f i).2 else y) v.x

/-- Integer instructions of one width, and carries and merges. -/
def VInsn.int (v : VInsn) : Option Hart :=
  let w := v.w
  let rm := (v.x.csr 0xA).toNat
  let a := fun i => v.x.vget v.vs2 w i
  let shift := [0x25, 0x28, 0x29, 0x2A, 0x2B].contains v.f6
  -- the immediate of VROR has a sixth bit in place of the last of funct6
  let ror := v.f3 == 3 && v.f6 / 2 == 0x0A
  let b := fun i => if ror then v.vs1 + v.f6 % 2 * 32 else v.src shift w i
  let f6 := if ror then 0x14 else v.f6
  let same := v.groups v.l w v.l w v.l w
  let carry := fun i => if v.x.vbit 0 i && !v.vm then 1 else 0
  let all := fun (_ : Nat) => true
  match f6 with
  | 0x10 => if v.vm ∨ !same then none else some (v.run w v.vl all fun i => { v := (a i + b i + carry i) % 2 ^ w })
  | 0x12 => if v.vm ∨ v.f3 = 3 ∨ !same then none else some (v.run w v.vl all fun i => { v := vbits w ((a i : Int) - b i - carry i) })
  | 0x11 => if !v.maskGroups then none else some (v.runMask all fun i => (decide (2 ^ w ≤ a i + b i + carry i), 0))
  | 0x13 => if v.f3 = 3 ∨ !v.maskGroups then none else some (v.runMask all fun i => (decide (a i < b i + carry i), 0))
  | 0x17 =>
    if !same ∨ (v.vm ∧ v.vs2 ≠ 0) then none
    else some (v.run w v.vl all fun i => { v := if v.vm || v.x.vbit 0 i then b i else a i })
  | _ => match vInt f6 w rm 0 0, vCmp f6 w 0 0 with
    | some (forms, _), _ =>
      if hasForm forms v.form ∧ same then some (v.run w v.vl v.on fun i => ((vInt f6 w rm (a i) (b i)).map fun r => r.2).getD { v := 0 })
      else none
    | none, some (forms, _) =>
      if hasForm forms v.form ∧ v.maskGroups then
        some (v.runMask v.on fun i => (((vCmp f6 w (a i) (b i)).map fun r => r.2).getD false, 0))
      else none
    | none, none => none

/-- Gathers and slides, the narrowing operations, VWSLL, the widening sums and the moves of whole registers. -/
def VInsn.intMore (v : VInsn) : Option Hart :=
  let w := v.w
  let rm := (v.x.csr 0xA).toNat
  let a := fun i => v.x.vget v.vs2 w i
  let max := vlmax w v.l
  let k := v.scalar true
  let apart := fun (n s : Nat) => decide (v.vd + vregs v.l ≤ s) || decide (s + n ≤ v.vd)
  let base := vgroupOk v.vd v.l && vgroupOk v.vs2 v.l && apart (vregs v.l) v.vs2 && (v.vm || v.vd != 0)
  let at_ := fun j => if j < max then v.x.vget v.vs2 w j else 0
  match v.f6, v.form with
  | 0x0C, 1 => if base ∧ vgroupOk v.vs1 v.l ∧ apart (vregs v.l) v.vs1 then
      some (v.run w v.vl v.on fun i => { v := at_ (v.x.vget v.vs1 w i) }) else none
  | 0x0C, _ => if base then some (v.run w v.vl v.on fun _ => { v := at_ k }) else none
  | 0x0E, 1 =>
    let l1 := v.l + (4 : Int) - (Nat.log2 w : Int)
    if base ∧ vgroupOk v.vs1 l1 ∧ apart (vregs l1) v.vs1 then
      some (v.run w v.vl v.on fun i => { v := at_ (v.x.vget v.vs1 16 i) }) else none
  | 0x0E, _ => if base then some (v.run w v.vl (fun i => v.on i && decide (k ≤ i)) fun i => { v := a (i - k) }) else none
  | 0x0F, 1 => none
  | 0x0F, _ => if v.groups v.l w v.l w v.l w then some (v.run w v.vl v.on fun i => { v := at_ (i + k) }) else none
  | 0x27, 4 =>
    let n := v.vs1 + 1
    if v.vm ∧ [1, 2, 4, 8].contains n ∧ v.vd % n = 0 ∧ v.vs2 % n = 0 then
      let from_ := v.x.vstart * (w / 8)
      some (v.x.vputBytes v.vd from_ (v.x.vbytes v.vs2 from_ (n * vlenb - from_)))
    else none
  | 0x30, 1 | 0x31, 1 =>
    if w = 64 ∨ v.x.vstart ≠ 0 ∨ !vgroupOk v.vs2 v.l then none
    else if v.vl = 0 then some v.x
    else
      let ext := fun n => if v.f6 = 0x31 then vbits (2 * w) (sgnOf w n) else n
      let sum := ((List.range v.vl).filter v.on).foldl (fun acc i => (acc + ext (a i)) % 2 ^ (2 * w)) (v.x.vget v.vs1 (2 * w) 0)
      some (v.x.vput v.vd (2 * w) 0 sum)
  | 0x35, _ =>
    if w < 64 ∧ v.groups (v.l + 1) (2 * w) v.l w v.l w then
      some (v.run (2 * w) v.vl v.on fun i => { v := a i * 2 ^ (v.src true w i % (2 * w)) % 2 ^ (2 * w) }) else none
  | f6, _ =>
    if 0x2C ≤ f6 ∧ f6 ≤ 0x2F ∧ w < 64 ∧ v.groups v.l w (v.l + 1) (2 * w) v.l w then
      some (v.run w v.vl v.on fun i => (vNarrow f6 w rm (v.x.vget v.vs2 (2 * w) i) (v.src true w i)).getD { v := 0 })
    else none

/-- The mask register that a mask instruction makes from another: bits before, up to, or at the first one set. -/
def VInsn.firsts (v : VInsn) (k : Nat) : Hart :=
  let set := fun i => v.on i && v.x.vbit v.vs2 i
  let first := ((List.range v.vl).find? set).getD v.vl
  v.runMask v.on fun i => (match k with | 1 => decide (i < first) | 2 => i == first | _ => decide (i ≤ first), 0)

/-- Reductions, mask instructions, and moves to and from element 0, of the OPM encodings. -/
def VInsn.mask (v : VInsn) : Option Hart :=
  let w := v.w
  let bit := fun i => v.x.vbit v.vs2 i
  let restart := v.x.vstart ≠ 0
  let count := ((List.range v.vl).filter fun i => v.on i && bit i)
  let rd := BitVec.ofNat 5 v.vd
  match v.f6, v.form with
  | 0x10, 2 => if v.vm ∧ v.vs2 = 0 then
      some (if v.x.vstart < v.vl then v.x.vput v.vd w 0 (v.scalar false % 2 ^ w) else v.x) else none
  | 0x10, _ => (match v.vs1 with
    | 0 => if v.vm then some (v.x.setReg rd (sxTo64 w (v.x.vget v.vs2 w 0))) else none
    | 0x10 => if restart then none else some (v.x.setReg rd (BitVec.ofNat 64 count.length))
    | 0x11 => if restart then none else some (v.x.setReg rd (match count with | i :: _ => BitVec.ofNat 64 i | [] => BitVec.allOnes 64))
    | _ => none)
  | 0x14, 1 => (match v.vs1 with
    | 1 | 2 | 3 => if restart ∨ v.vd = v.vs2 ∨ (!v.vm ∧ v.vd = 0) then none else some (v.firsts v.vs1)
    | 0x10 =>
      if restart ∨ !vgroupOk v.vd v.l ∨ (v.vd ≤ v.vs2 ∧ v.vs2 < v.vd + vregs v.l) ∨ (!v.vm ∧ v.vd = 0) then none
      else some (v.run w v.vl v.on fun i => { v := (count.filter fun j => decide (j < i)).length })
    | 0x11 => if v.vs2 = 0 ∧ vgroupOk v.vd v.l ∧ (v.vm ∨ v.vd ≠ 0) then some (v.run w v.vl v.on fun i => { v := i % 2 ^ w }) else none
    | _ => none)
  | 0x12, 1 =>
    let n := match v.vs1 with | 2 | 3 => 8 | 4 | 5 => 4 | 6 | 7 => 2 | _ => 1
    let ls := v.l - (Nat.log2 n : Int)
    if n = 1 then
      (if v.groups v.l w v.l w 0 w ∧ (vUnary v.vs1 w 0).isSome then
        some (v.run w v.vl v.on fun i => { v := (vUnary v.vs1 w (v.x.vget v.vs2 w i)).getD 0 }) else none)
    else if w / n < 8 ∨ !vgroupOk v.vd v.l ∨ !vgroupOk v.vs2 ls ∨ !overlapOk v.vd (vregs v.l) w v.vs2 ls (w / n) ∨ (!v.vm ∧ v.vd = 0) then none
    else some (v.run w v.vl v.on fun i =>
      let e := v.x.vget v.vs2 (w / n) i
      { v := if v.vs1 % 2 = 1 then vbits w (sgnOf (w / n) e) else e })
  | 0x17, 1 =>
    if !v.vm ∨ restart ∨ !vgroupOk v.vd v.l ∨ !vgroupOk v.vs2 v.l ∨ (v.vd ≤ v.vs1 ∧ v.vs1 < v.vd + vregs v.l) ∨
        ¬ (v.vd + vregs v.l ≤ v.vs2 ∨ v.vs2 + vregs v.l ≤ v.vd) then none
    else
      let kept := (List.range v.vl).filter fun i => v.x.vbit v.vs1 i
      some ((kept.zip (List.range kept.length)).foldl (fun y p => y.vput v.vd w p.2 (v.x.vget v.vs2 w p.1)) v.x)
  | 0x0E, 2 =>
    if vgroupOk v.vd v.l ∧ vgroupOk v.vs2 v.l ∧ (v.vd + vregs v.l ≤ v.vs2 ∨ v.vs2 + vregs v.l ≤ v.vd) ∧ (v.vm ∨ v.vd ≠ 0) then
      some (v.run w v.vl v.on fun i => { v := if i = 0 then v.src false w 0 else v.x.vget v.vs2 w (i - 1) }) else none
  | 0x0F, 2 =>
    if v.groups v.l w v.l w v.l w then
      some (v.run w v.vl v.on fun i => { v := if i + 1 = v.vl then v.src false w 0 else v.x.vget v.vs2 w (i + 1) }) else none
  | f6, 1 =>
    if f6 < 8 then
      (if restart ∨ !vgroupOk v.vs2 v.l then none
      else if v.vl = 0 then some v.x
      else some (v.x.vput v.vd w 0
        (((List.range v.vl).filter v.on).foldl (fun acc i => vReduce f6 w acc (v.x.vget v.vs2 w i)) (v.x.vget v.vs1 w 0))))
    else if 0x18 ≤ f6 ∧ f6 ≤ 0x1F then
      (if !v.vm then none
      else some (v.runMask (fun _ => true) fun i =>
        let a := bit i
        let b := v.x.vbit v.vs1 i
        (match f6 with
          | 0x18 => a && !b | 0x19 => a && b | 0x1A => a || b | 0x1B => a != b
          | 0x1C => a || !b | 0x1D => !(a && b) | 0x1E => !(a || b) | _ => a == b, 0)))
    else none
  | _, _ => none

/-- The OPM encodings: arithmetic of one width, widening arithmetic, and the rest. -/
def VInsn.opm (v : VInsn) : Option Hart :=
  let w := v.w
  let rm := (v.x.csr 0xA).toNat
  match vMul v.f6 w rm 0 0 0, vWide v.f6 w 0 0 0 with
  | some (forms, _), _ =>
    if hasForm forms v.form ∧ v.groups v.l w v.l w v.l w then
      some (v.run w v.vl v.on fun i =>
        ((vMul v.f6 w rm (v.x.vget v.vs2 w i) (v.src false w i) (v.x.vget v.vd w i)).map fun r => r.2).getD { v := 0 })
    else none
  | none, some (forms, _) =>
    let wide := decide (0x34 ≤ v.f6) && decide (v.f6 ≤ 0x37)
    let w2 := if wide then 2 * w else w
    if w < 64 ∧ hasForm forms v.form ∧ v.groups (v.l + 1) (2 * w) (if wide then v.l + 1 else v.l) w2 v.l w then
      some (v.run (2 * w) v.vl v.on fun i =>
        ((vWide v.f6 w (v.x.vget v.vs2 w2 i) (v.src false w i) (v.x.vget v.vd (2 * w) i)).map fun r => r.2).getD { v := 0 })
    else none
  | none, none => v.mask

/-- Reductions of the OPF encodings, in the order of the elements. -/
def VInsn.fpReduce (v : VInsn) (m : Rnd) : Option Hart :=
  let w := v.w
  let f := vfmt w
  let wide := decide (0x30 ≤ v.f6)
  let wr := if wide then 2 * w else w
  let g := vfmt wr
  let step := fun (acc : Word64 × FFlags) (a : Word64) =>
    let e := if wide then fpCvt f g m a else (a, 0)
    let r := match v.f6 with
      | 5 => fpMinMax g false acc.1 e.1
      | 7 => fpMinMax g true acc.1 e.1
      | _ => fpAdd g m acc.1 e.1
    (r.1, acc.2 ||| e.2 ||| r.2)
  if v.x.vstart ≠ 0 ∨ !vgroupOk v.vs2 v.l ∨ (wide ∧ w = 64) then none
  else if v.vl = 0 then some v.x
  else
    let r := ((List.range v.vl).filter v.on).foldl (fun acc i => step acc (BitVec.ofNat 64 (v.x.vget v.vs2 w i)))
      (BitVec.ofNat 64 (v.x.vget v.vs1 wr 0), 0)
    some ((v.x.vput v.vd wr 0 r.1.toNat).accrue r.2)

/-- Conversions and the other operations of one operand. -/
def VInsn.fpUnary (v : VInsn) (m : Rnd) : Option Hart :=
  let w := v.w
  let f := vfmt w
  let g := vfmt (2 * w)
  let k := v.vs1
  let el := fun (n i : Nat) => BitVec.ofNat 64 (v.x.vget v.vs2 n i)
  let go := fun (ld : Int) (wd : Nat) (ls : Int) (ws : Nat) (op : Word64 → Option VRes) =>
    if (op 0).isSome ∧ vgroupOk v.vd ld ∧ vgroupOk v.vs2 ls ∧ overlapOk v.vd (vregs ld) wd v.vs2 ls ws ∧ (v.vm ∨ v.vd ≠ 0) then
      some (v.run wd v.vl v.on fun i => (op (el ws i)).getD { v := 0 })
    else none
  let scalar := decide (32 ≤ w)
  if v.f6 = 0x13 then (if scalar then go v.l w v.l w (vFpOne k f m) else none)
  else if k < 8 then (if scalar then go v.l w v.l w (vFpSame k f w m) else none)
  else if k < 0x10 then
    -- from integers of 8 and 16 bits to half and single precision only the latter exists
    (if w = 64 ∨ (k = 0xC ∧ w < 16) ∨ (k ≠ 0xC ∧ w < 32 ∧ !((k = 0xA ∨ k = 0xB) ∧ w = 16)) then none
    else go (v.l + 1) (2 * w) v.l w (vFpUp k f g w m))
  else
    (if w = 64 ∨ (k = 0x14 ∧ w < 16) ∨ (k ≠ 0x14 ∧ w < 32 ∧ !(w = 16 ∧ k ≠ 0x12 ∧ k ≠ 0x13 ∧ k ≠ 0x15)) then none
    else go v.l w (v.l + 1) (2 * w) (vFpDown k f g w m))

/-- The OPF encodings. Elements are of single and double precision, but for the conversions of Zvfhmin. -/
def VInsn.opf (v : VInsn) (m : Rnd) : Option Hart :=
  let w := v.w
  let f := vfmt w
  let g := vfmt (2 * w)
  let word := fun (n : Nat) => BitVec.ofNat 64 n
  let a := fun i => word (v.x.vget v.vs2 w i)
  let b := fun i => word (v.src false w i)
  let same := v.groups v.l w v.l w v.l w
  if v.f6 = 0x12 ∨ v.f6 = 0x13 then (if v.form = 1 then v.fpUnary m else none)
  else if w < 32 then none
  else match v.f6, v.form with
    | 0x10, 1 => if v.vm ∧ v.vs1 = 0 then some (v.x.fput f v.vd (a 0)) else none
    | 0x10, _ => if v.vm ∧ v.vs2 = 0 then some (if v.x.vstart < v.vl then v.x.vput v.vd w 0 (v.src false w 0) else v.x) else none
    | 0x17, 2 =>
      if !same ∨ (v.vm ∧ v.vs2 ≠ 0) then none
      else some (v.run w v.vl (fun _ => true) fun i => { v := if v.vm || v.x.vbit 0 i then v.src false w i else v.x.vget v.vs2 w i })
    | 0x0E, 2 | 0x0F, 2 => v.mask
    | 1, 1 | 3, 1 | 5, 1 | 7, 1 | 0x31, 1 | 0x33, 1 => v.fpReduce m
    | f6, form => match vFp f6 f m 0 0 0, vFpCmp f6 f 0 0, vFpWide f6 f g m 0 0 0 with
      | some (forms, _), _, _ =>
        if hasForm forms form ∧ same then
          some (v.run w v.vl v.on fun i => ((vFp f6 f m (a i) (b i) (word (v.x.vget v.vd w i))).map fun r => r.2).getD { v := 0 })
        else none
      | none, some (forms, _), _ =>
        if hasForm forms form ∧ v.maskGroups then
          some (v.runMask v.on fun i => ((vFpCmp f6 f (a i) (b i)).map fun r => r.2).getD (false, 0))
        else none
      | none, none, some _ =>
        let wide := f6 = 0x34 ∨ f6 = 0x36
        let w2 := if wide then 2 * w else w
        if w = 32 ∧ v.groups (v.l + 1) 64 (if wide then v.l + 1 else v.l) w2 v.l w then
          some (v.run 64 v.vl v.on fun i =>
            (vFpWide f6 f g m (word (v.x.vget v.vs2 w2 i)) (b i) (word (v.x.vget v.vd 64 i))).getD { v := 0 })
        else none
      | none, none, none => none

/-- An instruction of the OP-V encoding: the hart after it, with its PC as before; none where it is illegal. -/
def Hart.vecWord (x : Hart) (w : Word) : Option Hart :=
  let f3 := insnBits w 14 12
  if x.vecOff then none
  else if f3 = 7 then (x.vset w).map Hart.vdone
  else match vtypeOf (x.csr 0xC21).toNat with
    | none => none
    | some (sew, l) =>
      let v : VInsn := ⟨x, insnBits w 31 26, f3, insnBits w 25 25 == 1, insnBits w 24 20, insnBits w 19 15, insnBits w 11 7, sew, l⟩
      (match f3 with
        | 0 | 3 | 4 => v.int.orElse fun _ => v.intMore
        | 2 | 6 => v.opm
        | _ => if x.fpOff then none else (x.rounding 7).bind v.opf).map Hart.vdone

end Sys2Proof.Machine
end

