-- ==== Sys2Proof/Machine/Kindling.lean ====
section
/-! DEFINITION. Kindling harts (spec/21_kindling.md R424 to R428): their accesses to memory under satp, the custom CSRs, the
firmware commands that a write of NKCMD starts, and their instructions. -/

namespace Sys2Proof.Machine

/-! ### Accesses (R425) -/

/-- In whose name an access is made: a mode, of the host or of a guest. -/
abbrev Who := HPriv × Bool

/-- An explicit access of M-mode under MPRV is made in the mode of MPP. -/
def Hart.who (x : Hart) : Who :=
  if x.priv = .m ∧ x.bit 0x300 17 then
    let p := HPriv.ofCode (bits64 (x.csr 0x300) 12 11)
    (p, p != .m && x.bit 0x300 39)
  else (x.priv, x.virt)

/-- A page refuses a hart: a user page needs SUM in S-mode, and gives it no instruction, as for U = 1 (R425). -/
def userRefused (x : Hart) (p : HPriv) (kind : Nat) (e : Word64) : Bool := !pteS e && p == .s && (kind == 2 || !x.sum false)
/-- The kind that an access is checked as: MXR lets X grant R. -/
def hartKind (x : Hart) (kind : Nat) (e : Word64) : Nat := if kind = 0 ∧ x.mxr false ∧ ¬ pteR e ∧ pteX e then 2 else kind

/-- The leaf by which a hart's access is judged: the translation that its cache holds, unless an error discards it (R17), else
the walk's; none when the walk reads a poisoned sector. -/
def State.hartLeaf (s : State) (h tag va : Nat) : Option WalkEnd × State :=
  let s := s.meetTlb (unitHart h) tag va
  match s.tlb.find? fun t => t.covers (unitHart h) tag va with
  | some t => (some ⟨.leaf, t.level, t.slot, t.entry⟩, s)
  | none => s.walkBy (unitHart h) tag va

/-- Accesses under MODE 14, by the tables that satp names (R425). -/
def State.locate14 (s : State) (h : Nat) (x : Hart) (p : HPriv) (tag kind : Nat) :
    List (Nat × Nat) → State × HAcc (List (Nat × Nat × Word64))
  | [] => (s, .ok [])
  | (va, n) :: rest =>
    let va := va % 2 ^ 64
    if !canonical (BitVec.ofNat 64 va) then (s, .page va)
    else match s.hartLeaf h tag va with
    | (none, s) => (s, .bad (some tag))
    | (some w, s) =>
    if userRefused x p kind w.entry then (s, .page va)
    else
      let k := hartKind x kind w.entry
      -- MXR grants a read of an anonymous page, which first touch serves
      if k ≠ kind ∧ w.kind = .anon ∧ permitted w.entry k (p != .u) then
        match s.askTouch (unitHart h) tag (hartDie h) kind va w with
        | (.wait, s) => (s, .wait)
        | (_, s) => (s, .page va)
      else match s.locate (unitHart h) tag (hartDie h) (p != .u) k none [(va, n)] with
        | (s, .ok l) => hartThen (State.locate14 s h x p tag kind rest) fun s r => (s, .ok (l ++ r))
        | (s, .fault _ _ a) => (s, .page a)
        | (s, .bad) => (s, .bad (some tag))
        | (s, .wait) => (s, .wait)

/-- The same with the walk starting at the PPN of satp. -/
def State.locateCtx (s : State) (h : Nat) (p : HPriv) (kind va n : Nat) : State × HAcc (List (Nat × Nat × Word64)) :=
  let x := s.hart h
  let tag := satpTag x.satp
  let c := s.ctx tag
  let root := bits64 x.satp 43 0 * 4096 % 2 ^ 52
  if c.ptroot = root then s.locate14 h x p tag kind (piecesOf va n)
  else
    let (t, r) := (s.modCtx tag fun c => { c with ptroot := root }).locate14 h x p tag kind (piecesOf va n)
    (t.modCtx tag fun k => { k with ptroot := c.ptroot }, r)

/-! ### The standard modes: Sv39, Sv48, Sv57, and their forms for a guest's physical addresses (log 25) -/

/-- A leaf of the standard format is well formed at a level: reserved bits, alignment, and the 64 KiB form. -/
def svLeafOk (e : Word64) (level : Nat) : Bool :=
  bits64 e 60 54 == 0 && bits64 e 62 61 != 3 && !(e.getLsbD 2 && !e.getLsbD 1) &&
    (if e.getLsbD 63 then level == 0 && bits64 e 13 10 == 8 else bits64 e 53 10 % 2 ^ (9 * level) == 0)

/-- The address that a leaf gives. -/
def svPa (e : Word64) (level va : Nat) : Nat :=
  if e.getLsbD 63 then bits64 e 53 10 / 16 * 65536 + va % 65536
  else bits64 e 53 10 * 4096 + va % 2 ^ (12 + 9 * level)

/-- A leaf permits an access: U, SUM, R, W, X and MXR; and A, and D for a write, which the hardware does not set. -/
def svPermits (e : Word64) (p : HPriv) (sum mxr : Bool) (kind : Nat) : Bool :=
  (if e.getLsbD 4 then p == .u || (sum && kind != 2) else p != .u) && e.getLsbD 6 &&
  (if kind = 0 then e.getLsbD 1 || (mxr && e.getLsbD 3) else if kind = 2 then e.getLsbD 3 else e.getLsbD 2 && e.getLsbD 7)

/-- A standard walk from a level's table down; `rd` reads an entry at the address of the table's own address space. -/
def svWalk (rd : State → Nat → State × HAcc Word64) (fault : State → State × HAcc (Word64 × Nat)) :
    Nat → Nat → Nat → State → State × HAcc (Word64 × Nat)
  | 0, _, _, s => fault s
  | level + 1, table, va, s =>
    let unit := 2 ^ (12 + 9 * level)
    hartThen (rd s (table + 8 * (va / unit))) fun s e =>
      if !e.getLsbD 0 then fault s
      else if e.getLsbD 1 || e.getLsbD 2 || e.getLsbD 3 then (if svLeafOk e level then (s, .ok (e, level)) else fault s)
      else if bits64 e 63 54 != 0 || e.getLsbD 4 || e.getLsbD 6 || e.getLsbD 7 then fault s
      else svWalk rd fault level (bits64 e 53 10 * 4096) (va % unit) s

/-- An entry of a table as a hart reads it, at a physical address. -/
def State.svRead (s : State) (h pa : Nat) : State × HAcc Word64 :=
  hartThen (s.locatePhys 0 [(pa, 8)]) fun s _ =>
    (s, .ok (BitVec.ofNat 64 (natOfBytes (tabulate 8 fun i => s.hartByte h (pa + i)))))

/-- A guest's physical address translated by hgatp; `va` is what a fault reports. -/
def State.guestPa (s : State) (h kind va gpa : Nat) : State × HAcc Nat :=
  let x := s.hart h
  let at_ := x.csr 0x680
  if satpMode at_ = 0 then (s, .ok gpa)
  else
    let n := satpMode at_ - 5
    let fault := fun {α : Type} (s : State) => ((s, .guest va gpa) : State × HAcc α)
    if 2 ^ (14 + 9 * n) ≤ gpa then fault s
    else hartThen (svWalk (fun s a => s.svRead h a) fault n (bits64 at_ 43 0 / 4 * 16384) gpa s) fun s r =>
      if svPermits r.1 .u false (x.mxr false) kind then (s, .ok (svPa r.1 r.2 gpa)) else fault s

/-- A virtual address translated by satp or vsatp in a standard mode, and then, for a guest, by hgatp. -/
def State.svPaOf (s : State) (h : Nat) (w : Who) (kind va : Nat) : State × HAcc Nat :=
  let x := s.hart h
  let at_ := x.csr (if w.2 then 0x280 else 0x180)
  let guest := fun (s : State) (kind gpa : Nat) => if w.2 then s.guestPa h kind va gpa else ((s, .ok gpa) : State × HAcc Nat)
  if satpMode at_ = 0 then guest s kind va
  else
    let n := satpMode at_ - 5
    let fault := fun {α : Type} (s : State) => ((s, .page va) : State × HAcc α)
    if (BitVec.ofNat 64 va) ≠ immOf (12 + 9 * n) va then fault s
    else
      let rd := fun (s : State) (a : Nat) => hartThen (guest s 0 a) fun s pa => s.svRead h pa
      hartThen (svWalk rd fault n (bits64 at_ 43 0 * 4096) (va % 2 ^ (12 + 9 * n)) s) fun s r =>
        if svPermits r.1 w.1 (x.sum w.2) (x.mxr w.2) kind then guest s kind (svPa r.1 r.2 va) else fault s

/-- Pieces of an access in a standard mode. -/
def State.locateSv (s : State) (h : Nat) (w : Who) (kind : Nat) : List (Nat × Nat) → State × HAcc (List (Nat × Nat × Word64))
  | [] => (s, .ok [])
  | (va, n) :: rest =>
    hartThen (s.svPaOf h w kind (va % 2 ^ 64)) fun s pa =>
    hartThen (s.locatePhys kind [(pa, n)]) fun s l =>
    hartThen (State.locateSv s h w kind rest) fun s r => (s, .ok (l ++ r))

/-- The address bits that pointer masking ignores at the top of a data address (Ssnpm), unless MXR holds. -/
def Hart.pmLen (x : Hart) (w : Who) : Nat :=
  let env := match w with | (.u, _) => x.csr 0x10A | (.s, true) => x.csr 0x60A | _ => 0
  if x.mxr w.2 then 0 else match bits64 env 33 32 with | 2 => 7 | 3 => 16 | _ => 0

/-- A data address with those bits replaced: by the sign of what remains where it is translated, and else by zeros. -/
def Hart.maskVa (x : Hart) (w : Who) (va : Nat) : Nat :=
  let k := 64 - x.pmLen w
  if satpMode (x.csr (if w.2 then 0x280 else 0x180)) = 0 then va % 2 ^ k else (immOf k va).toNat

/-- n bytes located for an access in a mode's name: physical in M-mode and Bare, by the context's tables under MODE 14, by the
standard walks otherwise (R425). -/
def State.hartLocate (s : State) (h : Nat) (w : Who) (kind va n : Nat) : State × HAcc (List (Nat × Nat × Word64)) :=
  let va := if kind = 2 then va else (s.hart h).maskVa w va
  if w.1 = .m then s.locatePhys kind (piecesOf va n)
  else if w.2 then s.locateSv h w kind (piecesOf va n)
  else match satpMode (s.hart h).satp with
    | 0 => s.locatePhys kind (piecesOf va n)
    | 14 => s.locateCtx h w.1 kind va n
    | _ => s.locateSv h w kind (piecesOf va n)

/-! ### Loads and stores -/

/-- The cause of an access fault, beside a page fault's: no memory stands at the address. -/
def accessCause (cause : Nat) : Nat := match cause with | 12 => 1 | 13 => 5 | _ => 7

/-- An exception of a hart's access (R425): a page fault of the cause given, or a guest page fault, 8 above it. -/
def State.hartFault (s : State) (h : Nat) (w : Who) (cause va : Nat) (gpa : Option Nat) : Out :=
  .next (s.modHart h fun x => match gpa with
    | none => x.enter false cause ⟨BitVec.ofNat 64 va, 0, w.2⟩
    | some g => x.enter false (cause + 8) ⟨BitVec.ofNat 64 va, g, true⟩)

/-- The context in whose address space a mode accesses (R425); none where its addresses are physical or a guest's. -/
def State.hartTag (s : State) (h : Nat) (w : Who) : Option Nat :=
  if w.1 = .m ∨ w.2 ∨ satpMode (s.hart h).satp ≠ 14 then none else some (satpTag (s.hart h).satp)

/-- An access of an instruction: what follows when it is located, or how it ends otherwise. A poisoned sector faults the
context that found it, and delivers a free value; an address at which no memory stands raises an access fault (R16, log 25). -/
def State.hartAccess (s : State) (h : Nat) (w : Who) (kind va n cause : Nat) (k : State → List (Nat × Nat × Word64) → Out)
    (bad : State → Out) : Out :=
  match s.hartLocate h w kind va n with
  | (s, .ok l) => k s l
  | (s, .page a) => s.hartFault h w cause a none
  | (s, .guest a g) => s.hartFault h w cause a (some g)
  | (s, .bad tag) => bad (match tag with | some t => s.faultLater t | none => s)
  | (t, .wait) => .next (s.waited t)
  | (s, .absent) => s.hartFault h w (accessCause cause) va none

/-- A loaded value of n bytes, extended to a register. -/
def hartExtend (signed : Bool) (n x : Nat) : Word64 :=
  if signed then (BitVec.ofNat (8 * n) x).signExtend 64 else BitVec.ofNat 64 (x % 2 ^ (8 * n))

/-- A free value for a register that an instruction writes. -/
def State.hartFree (s : State) (h : Nat) (put : Hart → Word64 → Hart) : Out :=
  let (v, s) := s.free
  .next (s.hartDone h fun x => put x v)
/-- An illegal instruction reports its bits. -/
def State.hartIllegal (s : State) (h : Nat) (insn : Word64) : Out := .next (s.modHart h fun x => x.raised 2 insn)

/-- The bytes of located pieces as a hart reads them (R250): with a read lease, its own writes first. -/
def State.hartBytes (s : State) (h : Nat) (l : List (Nat × Nat × Word64)) : Nat × State :=
  let s := l.foldl (fun s p => s.unitLease p.1 p.2.2) s
  (natOfBytes (l.flatMap fun p => tabulate p.2.1 fun i => s.hartByte h (p.1 + i)), s)

/-- A load of n bytes in a mode's name, `put` writing what it loads; `kind` is 2 for a load that needs X. -/
def State.hartLoadTo (s : State) (h : Nat) (w : Who) (kind : Nat) (va : Word64) (n : Nat) (put : Hart → Word64 → Hart) : Out :=
  s.hartAccess h w kind va.toNat n 13
    (fun s l =>
      let (v, s) := s.hartBytes h l
      .next (s.hartDone h fun x => put x (BitVec.ofNat 64 v)))
    fun s => s.hartFree h put
def State.hartLoadAs (s : State) (h : Nat) (w : Who) (kind : Nat) (rd : BitVec 5) (va : Word64) (log2 : Nat) (signed : Bool) : Out :=
  let n := 2 ^ (log2 % 4)
  s.hartLoadTo h w kind va n fun x v => x.setReg rd (hartExtend signed n v.toNat)

/-- Located pieces stored by a hart in a mode's name. -/
def State.hartWrite (s : State) (h : Nat) (w : Who) (l : List (Nat × Nat × Word64)) (bs : List Byte) : State :=
  (s.storePieces (.hart h) (s.hartTag h w) none false l bs).2
/-- A store of bytes in a mode's name. -/
def State.hartStoreOf (s : State) (h : Nat) (w : Who) (va : Word64) (bs : List Byte) : Out :=
  s.hartAccess h w 1 va.toNat bs.length 15 (fun s l => .next ((s.hartWrite h w l bs).hartDone h id)) fun s => .next (s.hartDone h id)
def State.hartStoreAs (s : State) (h : Nat) (w : Who) (rs : BitVec 5) (va : Word64) (log2 : Nat) : Out :=
  s.hartStoreOf h w va (bytesOfNat (2 ^ (log2 % 4)) ((s.hart h).reg rs).toNat)

/-- A load and a store (R250). -/
def State.hartLoad (s : State) (h : Nat) (rd : BitVec 5) (va : Word64) (log2 : Nat) (signed : Bool) : Out :=
  s.hartLoadAs h (s.hart h).who 0 rd va log2 signed
def State.hartStore (s : State) (h : Nat) (rs : BitVec 5) (va : Word64) (log2 : Nat) : Out :=
  s.hartStoreAs h (s.hart h).who rs va log2

/-! ### Atomics -/

/-- The new value of an AMO on n bytes. -/
def amoNew (op : AmoOp) (n old x : Nat) : Nat :=
  let m := 2 ^ (8 * n)
  let x := x % m
  let i := fun (v : Nat) => if 2 * v < m then (v : Int) else (v : Int) - m
  match op with
  | .swap => x
  | .add => (old + x) % m
  | .and => old &&& x
  | .or => old ||| x
  | .xor => old ^^^ x
  | .min => if i x < i old then x else old
  | .max => if i old < i x then x else old
  | .minu => min old x
  | .maxu => max old x

/-- The hart's own unaccepted writes are accepted first, as far as they can be. -/
def State.hartFlush (s : State) (h : Nat) : State :=
  (s.writes.filter fun w => w.agent == .hart h && w.ctime.isNone).foldl (fun s w => s.acceptOr w.id) s
/-- Every one of them has been. -/
def State.hartFlushed (s : State) (h : Nat) : Bool := s.writes.all fun w => w.agent != .hart h || w.ctime.isSome

/-- When the last of the other agents' accepted writes to n bytes completes. -/
def State.completesAt (s : State) (h pa n : Nat) : Nat :=
  s.writes.foldl (fun t w => match w.ctime with
    | some c => if w.agent != .hart h && ((List.range n).any fun i => (w.byte (pa + i)).isSome) then max t c else t
    | none => t) 0

/-- An access at home (R243, R250), after the hart's own writes have reached theirs: n bytes at their latest value, and what
follows. Until that value has completed the hart issues nothing more, so that what it reads next is no older. One that is not
aligned raises the standard's exception given. -/
def State.hartHome (s : State) (h kind n cause align : Nat) (va : Word64) (k : State → Nat → Word64 → Nat → Out)
    (bad : State → Out) : Out :=
  if va.toNat % n ≠ 0 then .next (s.modHart h fun x => x.raised align va)
  else s.hartAccess h (s.hart h).who kind va.toNat n cause
    (fun s l =>
      let (pa, _, e) := l.headD default
      let s := s.hartFlush h
      if s.hartFlushed h then
        k (s.modHart h fun x => { x with hold := max x.hold (s.completesAt h pa n) }) pa e (natOfBytes (s.latestBytes pa n))
      else .next s)
    bad

/-- A write of a hart at home. -/
def State.hartPut (s : State) (h pa n v : Nat) (e : Word64) : State :=
  (s.putHome (.hart h) (s.hartTag h (s.hart h).who) none pa e (bytesOfNat n v)).2

/-- An AMO. Its aq and rl ask for nothing more: the hart's writes complete in order, its loads return completed values, and it
issues nothing before the value that the AMO reads has completed (R250, log 25). -/
def State.hartAmo (s : State) (h : Nat) (op : AmoOp) (rd rs : BitVec 5) (va : Word64) (wide : Bool) : Out :=
  let n := if wide then 8 else 4
  s.hartHome h 3 n 15 6 va
    (fun s pa e old => .next ((s.hartPut h pa n (amoNew op n old ((s.hart h).reg rs).toNat) e).hartDone h
      fun x => x.setReg rd (hartExtend true n old)))
    fun s => s.hartFree h fun x v => x.setReg rd v

/-- LR: the sector is reserved. -/
def State.hartLr (s : State) (h : Nat) (rd : BitVec 5) (va : Word64) (wide : Bool) : Out :=
  let n := if wide then 8 else 4
  s.hartHome h 0 n 13 4 va
    (fun s pa _ old => .next (s.hartDone h fun x => { x.setReg rd (hartExtend true n old) with resv := some (sectorBase pa) }))
    fun s => s.hartFree h fun x v => x.setReg rd v

/-- SC: it stores while the reservation stands, and rd is 0; otherwise rd is 1. -/
def State.hartSc (s : State) (h : Nat) (rd rs : BitVec 5) (va : Word64) (wide : Bool) : Out :=
  let n := if wide then 8 else 4
  s.hartHome h 1 n 15 6 va
    (fun s pa e _ =>
      let x := s.hart h
      let s' := if x.resv = some (sectorBase pa) then s.hartPut h pa n (x.reg rs).toNat e else s
      .next (s'.hartDone h fun y => { y.setReg rd (if x.resv = some (sectorBase pa) then 0 else 1) with resv := none }))
    fun s => s.hartFree h fun x v => x.setReg rd v

/-! ### Firmware commands (R428) -/

/-- The retirement table (R315): 256 entries of 8 bytes, empty ones zero (log 26). -/
def State.retireBytes (s : State) : List Byte := (List.range 256).flatMap fun i => bytesOfNat 8 (s.retired.getD i 0)
/-- The HBM bytes homed at each slice (R428). -/
def hbmBytes : List Byte := (List.range 64).flatMap fun i => bytesOfNat 8 (Config.hbmHomed i).toNat

/-- A command's result stored at located pieces, and its STATUS after it. -/
def State.tableDone (s : State) (l : List (Nat × Nat × Word64)) (bs : List Byte) (blk : Nat) : State :=
  (s.storePieces .engine none none true l bs).2.cmdStatus blk stOk

/-- A table to a physical address; one under write tenure is written once it ends. -/
def State.tableTo (s : State) (dest blk : Nat) (bs : List Byte) : Out :=
  .next (match s.locatePhys 1 (piecesOf dest bs.length) with
    | (s, .ok l) => s.tableDone l bs blk
    | (t, .wait) => s.waited t
    | (s, _) => s.cmdStatus blk stFault)

/-- RETIRE_READ (R315, R428), to a physical address. -/
def execRetireRead (dest blk : Nat) (s : State) : Out := s.tableTo dest blk s.retireBytes
/-- HBM_MAP (R428), to a physical address. -/
def execHbmMap (dest blk : Nat) (s : State) : Out := s.tableTo dest blk hbmBytes

/-- In whose name the addresses of a command are translated: MPRV is ignored (R427). -/
def Hart.commands (x : Hart) : Who := (x.priv, x.virt)

/-- What a write of NKCMD comes to: none while it must wait, and else an outcome. -/
abbrev CmdOut := State × Option Out

/-- An argument address of a command, translated as an explicit load (R428): what follows, a wait, or FAULT. -/
def State.cmdAt (s : State) (h va n blk : Nat) (k : State → List (Nat × Nat × Word64) → State) : CmdOut :=
  match s.hartLocate h (s.hart h).commands 0 va n with
  | (s, .ok l) => (s, some (.next (k s l)))
  | (t, .wait) => (s.waited t, none)
  | (s, .bad (some tag)) => (s, some (.next ((s.faultLater tag).cmdStatus blk stFault)))
  | (s, _) => (s, some (.next (s.cmdStatus blk stFault)))

/-- The same for a table that the device writes. -/
def State.cmdTable (s : State) (h va blk : Nat) (bs : List Byte) : CmdOut :=
  s.cmdAt h va bs.length blk fun s l => s.tableDone l bs blk

/-- A command of a block at a physical address (R428). A PORT command waits while its event has no room (R429). -/
def State.command (s : State) (h blk : Nat) (b : List Byte) : CmdOut :=
  let tag := numAt b 2 2
  let arg := fun (i : Nat) => numAt b (8 + 8 * i) 8
  let run := fun (o : Out) => ((s, some o) : CmdOut)
  let no := fun (st : Nat) => run (.next (s.cmdStatus blk st))
  let ctx := fun (x : CmdOut) => if Config.contexts ≤ tag then no stBadCmd else x
  if numAt b 4 4 ≠ 0 then no stBadCmd
  else match byteAt b 0 with
    | 1 => ctx (run (execCtxCreate tag blk s))
    | 2 => ctx (run (execCtxCommit tag blk s))
    | 3 => ctx (run (execCtxDestroy tag blk s))
    | 4 => ctx (run (execInval tag (BitVec.ofNat 64 (arg 0)) (BitVec.ofNat 64 (arg 1)) blk s))
    | 5 => (match arg 1 with
      | 0 => run (execQpModifyReset (arg 0) blk s)
      | 1 => run (execQpModifyInit (arg 0) blk s)
      | 2 => run (execQpModifyReady (arg 0) blk s)
      | 3 => run (execQpModifyActive (arg 0) blk s)
      | 4 => run (execQpModifyDrain (arg 0) blk s)
      | 5 => no stBadState
      | _ => no stBadCmd)
    | 6 =>
      if Config.ports ≤ arg 0 then no stBadCmd
      else if !s.mayPost (arg 0 / 8) then (s, none)
      else (match arg 1 with
        | 0 => run (execPortEnable (arg 0) blk s)
        | 1 => run (execPortDisable (arg 0) blk s)
        | 2 => run (execPortQuiesce (arg 0) blk s)
        | 3 => run (execPortResume (arg 0) blk s)
        | 4 => run (execPortRetrain (arg 0) blk s)
        | _ => no stBadCmd)
    | 7 => ctx (if commBad (arg 0) (arg 2) (arg 3) (arg 4) then no stBadCmd
        else s.cmdAt h (arg 1) (arg 2) blk fun s l => s.commCreate tag (arg 0) (arg 3) (arg 4) blk ((s.pieceBytes l).map BitVec.toNat))
    | 8 => ctx (run (.next (s.cutSubmit ⟨hartDie h, tag, BitVec.ofNat 64 (arg 0), blk, none⟩)))
    | 9 => s.cmdTable h (arg 0) blk s.retireBytes
    | 10 => s.cmdTable h (arg 0) blk hbmBytes
    | _ => no stBadCmd

/-- A write of NKCMD (R427, R428): a block that does not translate has no place for a STATUS (log 26), and one under write
tenure is read once it ends. -/
def State.nkcmd (s : State) (h : Nat) (va : Word64) : CmdOut :=
  match s.hartLocate h (s.hart h).commands 0 va.toNat 64 with
  | (s, .ok l) =>
    let blk := (l.headD default).1
    if va.toNat % 64 ≠ 0 then (s, some (.next (s.cmdStatus blk stBadCmd))) else s.command h blk (s.pieceBytes l)
  | (t, .wait) => (s.waited t, none)
  | (s, .bad (some tag)) => (s, some (.next (s.faultLater tag)))
  | (s, _) => (s, some (.next s))

/-- What follows a next state. -/
def Out.then (o : Out) (f : State → State) : Out :=
  match o with
  | .next s => .next (f s)
  | o => o

/-! ### CSR instructions (R427) -/

def nkOf (n : Nat) : Option NkCsr := match n with
  | 0x5C0 => some .nkctxtab | 0x5C1 => some .nkcmd | 0x5C2 => some .nkwake | 0x5C3 => some .nkevt | 0x5C4 => some .nkevthart
  | 0x5C5 => some .nkqpbase | _ => none
def nkNum : NkCsr → Nat
  | .nkctxtab => 0x5C0 | .nkcmd => 0x5C1 | .nkwake => 0x5C2 | .nkevt => 0x5C3 | .nkevthart => 0x5C4 | .nkqpbase => 0x5C5

/-- What a custom register reads as; a write-only one reads as zero (R4). -/
def State.csrValue (s : State) (h : Nat) : NkCsr → Word64
  | .nkctxtab => s.nkctxtab
  | .nkqpbase => s.nkqpbase
  | .nkevt => s.nkevt.getD (hartDie h) 0
  | .nkevthart => BitVec.ofNat 64 (s.nkevthart.getD (hartDie h) 0)
  | .nkcmd | .nkwake => 0

/-- A custom register written, with what else its instruction does to the hart. -/
def State.csrWrite (s : State) (h : Nat) (csr : NkCsr) (v : Word64) (up : Hart → Hart) : Out :=
  match csr with
  | .nkctxtab => .next ({ s with nkctxtab := v &&& ~~~0x7FFFF }.hartDone h up)
  | .nkqpbase => .next ({ s with nkqpbase := v &&& ~~~0xFFF }.hartDone h up)
  | .nkevt => .next ({ s with nkevt := s.nkevt.set (hartDie h) v }.hartDone h up)
  | .nkevthart => .next ({ s with nkevthart := s.nkevthart.set (hartDie h) (v.toNat % 32) }.hartDone h up)
  | .nkcmd =>
    if !s.hartReleased h then .next s
    else (match s.nkcmd h v with
      | (s, none) => .next s
      | (_, some o) => o.then fun s => s.hartDone h up)
  | .nkwake => if !s.hartReleased h then .next s else (execNkwake v s).then fun s => s.hartDone h up

/-- How a CSR instruction combines the old value with its operand. -/
inductive CsrOp where
  | rw | rs | rc
  deriving DecidableEq, Repr

def CsrOp.value (op : CsrOp) (old v : Word64) : Word64 :=
  match op with | .rw => v | .rs => old ||| v | .rc => old &&& ~~~v

/-- A CSR that a hart has. -/
def Hart.hasCsr (x : Hart) (h n : Nat) : Bool := (nkOf n).isSome || freeCounter n || (x.csrGet h 0 n).isSome

/-- A CSR instruction; `write` is clear where it only reads. A counter's value is free, and what is written to one is lost. -/
def State.csrInsn (s : State) (h : Nat) (insn : Word64) (n : Nat) (op : CsrOp) (v : Word64) (write : Bool) (rd : BitVec 5) : Out :=
  let x := s.hart h
  match if x.hasCsr h n then x.csrRefused n write else some 2 with
  | some c => .next (s.modHart h fun x => x.raised c insn)
  | none => match nkOf n with
    | some csr =>
      let old := s.csrValue h csr
      let up := fun (x : Hart) => x.setReg rd old
      if write then s.csrWrite h csr (op.value old v) up else .next (s.hartDone h up)
    | none =>
      let n := csrFor x.virt n
      if freeCounter n then s.hartFree h fun x v => x.setReg rd v
      else
        let old := (x.csrGet h s.time n).getD 0
        .next (s.hartDone h fun x => (if write then x.csrPut n (op.value old v) else x).setReg rd old)

/-! ### Instructions -/

/-- SFENCE.VMA (R426): the issuing hart's translations. A guest's are not cached (log 25). -/
def State.sfence (s : State) (h : Nat) (va : Option Word64) (asid : Option (BitVec 16)) : State :=
  let tagHit := fun (tag : Nat) => match asid with | some a => tag == a.toNat | none => true
  let hit := fun (t : TlbEntry) => t.unit == unitHart h && tagHit t.tag &&
    (match va with | some v => t.covers (unitHart h) t.tag v.toNat | none => true)
  let hitWalk := fun (t : WalkLine) => t.unit == unitHart h && tagHit t.tag &&
    (match va with | some v => t.covers (unitHart h) t.tag v.toNat | none => true)
  { s with tlb := s.tlb.filter fun t => !hit t, walks := s.walks.filter fun t => !hitWalk t }

/-- A fence of translations: in U-mode, and with TVM in S-mode, it is illegal; a guest's drops nothing of the host's. -/
def State.hartSfence (s : State) (h : Nat) (insn : Word64) (va : Option Word64) (asid : Option (BitVec 16)) : Out :=
  let x := s.hart h
  .next (if x.virt then
      (if x.priv = .u ∨ x.bit 0x600 20 then s.modHart h fun x => x.raised 22 insn else s.hartDone h id)
    else if x.priv = .u ∨ (x.priv = .s ∧ x.bit 0x300 20) then s.modHart h fun x => x.raised 2 insn
    else (s.sfence h va asid).hartDone h id)

/-- A fence whose predecessor set includes writes waits until the hart's latest completion time has passed (R250). -/
def State.hartFence (s : State) (h : Nat) (predWrites : Bool) : State :=
  if predWrites && !s.hartReleased h then s else s.hartDone h id

/-- SYSTEM instructions without a CSR. WRS.NTO and WRS.STO may end at once. -/
def State.hartSystem (s : State) (h : Nat) (insn : Word64) (w : Word) : Out :=
  let x := s.hart h
  let raise := fun (c : Nat) (v : Word64) => (.next (s.modHart h fun x => x.raised c v) : Out)
  let done : Out := .next (s.hartDone h id)
  let rs1 := BitVec.ofNat 5 (insnBits w 19 15)
  let rs2 := BitVec.ofNat 5 (insnBits w 24 20)
  let va := if rs1 = 0 then none else some (x.reg rs1)
  let asid := if rs2 = 0 then none else some ((x.reg rs2).setWidth 16)
  match w.toNat with
  | 0x00000073 => raise (match x.priv with | .u => 8 | .s => if x.virt then 10 else 9 | .m => 11) 0
  | 0x00100073 => raise 3 x.pc
  | 0x00D00073 | 0x01D00073 => done
  | 0x30200073 => if x.priv = .m then .next (s.modHart h Hart.mret) else raise 2 insn
  | 0x10200073 =>
    if x.virt then (if x.priv = .u ∨ x.bit 0x600 22 then raise 22 insn else .next (s.modHart h Hart.sret))
    else if x.priv = .u ∨ (x.priv = .s ∧ x.bit 0x300 22) then raise 2 insn
    else .next (s.modHart h Hart.sret)
  | 0x10500073 =>
    if x.priv ≠ .m ∧ x.bit 0x300 21 then raise 2 insn
    else if x.virt ∧ x.bit 0x600 21 then raise 22 insn
    else .next (s.hartDone h fun x => { x with wfi := x.ident.isEmpty && x.priv != .u })
  | _ => match insnBits w 31 25, insnBits w 11 7 with
    | 0x09, 0 | 0x0B, 0 => s.hartSfence h insn va asid
    | 0x0C, 0 =>
      if rs1 ≠ 0 ∨ 2 ≤ rs2.toNat then raise 2 insn
      else if x.priv = .u then raise (if x.virt then 22 else 2) insn else done
    | 0x11, 0 | 0x13, 0 | 0x31, 0 | 0x33, 0 =>
      if x.virt then raise 22 insn
      else if x.priv = .u ∨ (0x31 ≤ insnBits w 31 25 ∧ x.priv = .s ∧ x.bit 0x300 20) then raise 2 insn else done
    | _, _ => raise 2 insn

/-- The loads and stores of a guest's memory by its host; and beside them the may-be-operations, which write zero. -/
def State.hartGuest (s : State) (h : Nat) (insn : Word64) (w : Word) : Out :=
  let x := s.hart h
  let rd := BitVec.ofNat 5 (insnBits w 11 7)
  let rs2 := insnBits w 24 20
  let va := x.reg (BitVec.ofNat 5 (insnBits w 19 15))
  let who : Who := (if x.bit 0x600 8 then .s else .u, true)
  let f7 := insnBits w 31 25
  let log2 := (f7 - 0x30) / 2
  let legal := 0x30 ≤ f7 ∧ f7 ≤ 0x37 ∧
    (if f7 % 2 = 1 then rd = 0 else rs2 = 0 ∨ (rs2 = 1 ∧ log2 < 3) ∨ (rs2 = 3 ∧ (log2 = 1 ∨ log2 = 2)))
  if insnBits w 31 31 = 1 ∧ insnBits w 29 28 = 0 ∧ (insnBits w 25 25 = 1 ∨ insnBits w 25 22 = 7 * 2) then
    .next (s.hartDone h fun x => x.setReg rd 0)
  else if ¬ legal then s.hartIllegal h insn
  else if x.virt then .next (s.modHart h fun x => x.raised 22 insn)
  else if x.priv = .u ∧ ¬ x.bit 0x600 9 then s.hartIllegal h insn
  else if f7 % 2 = 1 then s.hartStoreAs h who (BitVec.ofNat 5 rs2) va log2
  else s.hartLoadAs h who (if rs2 = 3 then 2 else 0) rd va log2 (rs2 == 0)

/-- Cache-block instructions on the 64 bytes around an address: a hart's caches hold nothing that memory does not (R250), so that
all but CBO.ZERO only check the access. An environment register of a higher mode that is clear refuses one. -/
def State.hartCbo (s : State) (h : Nat) (insn : Word64) (k : Nat) (va : Word64) : Out :=
  let x := s.hart h
  let off : Nat → Bool := fun n => match k with
    | 0 => bits64 (x.csr n) 5 4 == 0 | 4 => !x.bit n 7 | _ => !x.bit n 6
  let base := va &&& ~~~63
  if x.priv ≠ .m ∧ (off 0x30A ∨ (¬ x.virt ∧ x.priv = .u ∧ off 0x10A)) then s.hartIllegal h insn
  else if x.virt ∧ (off 0x60A ∨ (x.priv = .u ∧ off 0x10A)) then .next (s.modHart h fun x => x.raised 22 insn)
  else match k with
    | 0 | 1 | 2 => s.hartAccess h x.who 0 base.toNat 64 15 (fun s _ => .next (s.hartDone h id)) fun s => .next (s.hartDone h id)
    | 4 => s.hartStoreOf h x.who base (List.replicate 64 0)
    | _ => s.hartIllegal h insn

/-- The operation of an AMO word. -/
def amoOf (f5 : Nat) : Option AmoOp :=
  match f5 with
  | 0 => some .add | 1 => some .swap | 4 => some .xor | 8 => some .or | 12 => some .and
  | 16 => some .min | 20 => some .max | 24 => some .minu | 28 => some .maxu | _ => none

/-- A result for rd, and the next instruction; none is an illegal one. -/
def State.hartResult (s : State) (h : Nat) (insn : Word64) (rd : BitVec 5) (v : Option Word64) : Out :=
  match v with
  | some v => .next (s.hartDone h fun x => x.setReg rd v)
  | none => s.hartIllegal h insn

/-- The hart that an instruction makes of the hart, and the next instruction; none is an illegal one. -/
def State.hartMade (s : State) (h : Nat) (insn : Word64) (x : Option Hart) : Out :=
  match x with
  | some x => .next (s.hartDone h fun _ => x)
  | none => s.hartIllegal h insn

/-- A transfer to an address, with the link register. -/
def State.hartJump (s : State) (h : Nat) (rd : BitVec 5) (target : Word64) : Out :=
  .next (s.modHart h fun x => { x.setReg rd (x.pc + BitVec.ofNat 64 x.ilen) with pc := target })

/-! ### Vector loads and stores -/

/-- One element of a vector access: its index, its address, its bytes, and where they stand among the vector registers. -/
structure VElem where
  i  : Nat
  va : Nat
  n  : Nat
  at_ : Nat

/-- The elements of a vector access one after another, `done` after the last. One that faults leaves its index in vstart, with
those before it done; a first-fault load's length ends at any but the first. -/
def State.vecAccess (s : State) (h : Nat) (store ff : Bool) : List VElem → Out
  | [] => .next (s.hartDone h Hart.vdone)
  | e :: rest =>
    let x := s.hart h
    let w := x.who
    let here := fun (s : State) => s.modHart h fun x => x.setCsr 8 (BitVec.ofNat 64 e.i)
    let short := fun (s : State) => (.next (s.hartDone h fun x => (x.setCsr 0xC20 (BitVec.ofNat 64 e.i)).vdone) : Out)
    let cause := if store then 15 else 13
    let load := fun (s : State) (v : Nat) => s.modHart h fun x => { x with v := cellsSet x.v (cellsAt e.at_ (bytesOfNat e.n v)) }
    match s.hartLocate h w (if store then 1 else 0) e.va e.n with
    | (s, .ok l) =>
      if store then State.vecAccess (s.hartWrite h w l (cellsGet x.v e.at_ e.n)) h store ff rest
      else
        let (v, s) := s.hartBytes h l
        State.vecAccess (load s v) h store ff rest
    | (s, .bad tag) =>
      let s := match tag with | some t => s.faultLater t | none => s
      if store then State.vecAccess s h store ff rest
      else
        let (v, s) := s.free
        State.vecAccess (load s v.toNat) h store ff rest
    | (t, .wait) => .next ((here s).waited (here t))
    | (s, .page a) => if ff ∧ e.i ≠ 0 then short s else (here s).hartFault h w cause a none
    | (s, .guest a g) => if ff ∧ e.i ≠ 0 then short s else (here s).hartFault h w cause a (some g)
    | (s, .absent) => if ff ∧ e.i ≠ 0 then short s else (here s).hartFault h w (accessCause cause) e.va none

/-- The elements of a vector load or store; none where it is illegal. Unit-stride, strided and indexed forms of nf fields, whole
registers, and masks. -/
def Hart.vecElems (x : Hart) (w : Word) : Option (List VElem) :=
  let store := insnBits w 6 0 == 0x27
  let nf := insnBits w 31 29 + 1
  let mop := insnBits w 27 26
  let vm := insnBits w 25 25 == 1
  let sub := insnBits w 24 20
  let n := match insnBits w 14 12 with | 0 => 1 | 5 => 2 | 6 => 4 | _ => 8
  let vd := insnBits w 11 7
  let base := (x.reg (BitVec.ofNat 5 (insnBits w 19 15))).toNat
  let elems := fun (count : Nat) (on : Nat → Bool) (fields regs bytes : Nat) (off : Nat → Nat) =>
    (((List.range count).filter fun i => decide (x.vstart ≤ i) && on i).flatMap fun i => (List.range fields).map fun j =>
      (⟨i, (base + off i + j * bytes) % 2 ^ 64, bytes, (vd + j * regs) * vlenb + i * bytes⟩ : VElem))
  if x.vecOff ∨ insnBits w 28 28 = 1 then none
  else if mop = 0 ∧ sub = 8 then
    (if vm ∧ [1, 2, 4, 8].contains nf ∧ vd % nf = 0 ∧ (!store || n == 1) then
      some (elems (nf * vlenb / n) (fun _ => true) 1 0 n fun i => i * n) else none)
  else match vtypeOf (x.csr 0xC21).toNat with
    | none => none
    | some (sew, l) =>
      if mop = 0 ∧ sub = 0x0B then
        (if vm ∧ nf = 1 ∧ n = 1 then some (elems (ceilDiv x.vl 8) (fun _ => true) 1 0 1 id) else none)
      else
        let indexed := mop % 2 == 1
        let bytes := if indexed then sew / 8 else n
        -- the multiplier of elements of the encoded width
        let le := l + (Nat.log2 (8 * n) : Int) - (Nat.log2 sew : Int)
        let ld := if indexed then l else le
        let regs := vregs ld
        let on := fun i => vm || x.vbit 0 i
        let stride := (x.reg (BitVec.ofNat 5 sub)).toNat
        let off := fun i => match mop with
          | 0 => i * (nf * bytes)
          | 2 => i * stride
          | _ => x.vget sub (8 * n) i
        let overlaps := if nf = 1 then !overlapOk vd regs sew sub le (8 * n) else decide (vd < sub + vregs le) && decide (sub < vd + nf * regs)
        if (mop = 0 ∧ sub ≠ 0 ∧ (sub ≠ 0x10 ∨ store)) ∨ !vgroupOk vd ld ∨ 8 < nf * regs ∨ 32 < vd + nf * regs ∨ (!store ∧ !vm ∧ vd = 0) ∨
            (indexed ∧ (!vgroupOk sub le ∨ (!store ∧ overlaps))) then none
        else some (elems x.vl on nf regs bytes off)

/-- A vector load or store. -/
def State.hartVecMem (s : State) (h : Nat) (insn : Word64) (w : Word) : Out :=
  let store := insnBits w 6 0 == 0x27
  match (s.hart h).vecElems w with
  | some l => s.vecAccess h store (!store && insnBits w 27 26 == 0 && insnBits w 24 20 == 0x10) l
  | none => s.hartIllegal h insn

/-- Loads and stores of the floating-point and vector registers, by width. -/
def State.hartFpMem (s : State) (h : Nat) (insn : Word64) (w : Word) : Out :=
  let x := s.hart h
  let store := insnBits w 6 0 == 0x27
  let a := x.reg (BitVec.ofNat 5 (insnBits w 19 15)) + (if store then immS w else immI w)
  let fmt : Option FFmt := match insnBits w 14 12 with | 1 => some .f16 | 2 => some .f32 | 3 => some .f64 | _ => none
  match fmt with
  | none => if insnBits w 14 12 = 4 then s.hartIllegal h insn else s.hartVecMem h insn w
  | some f =>
    let n := f.width / 8
    if x.fpOff then s.hartIllegal h insn
    else if store then s.hartStoreOf h x.who a (bytesOfNat n (x.freg (insnBits w 24 20)).toNat)
    else s.hartLoadTo h x.who 0 a n fun x v => x.fput f (insnBits w 11 7) v

/-! ### The whole -/

/-- MISC-MEM: fences, PAUSE, which orders nothing, and cache blocks. -/
def State.hartMisc (s : State) (h : Nat) (insn : Word64) (w : Word) : Out :=
  match insnBits w 14 12 with
  | 0 => if w = 0x0100000F then .next (s.hartDone h id) else .next (s.hartFence h (insnBits w 24 24 == 1))
  | 1 => .next (s.hartDone h id)
  | 2 => if insnBits w 11 7 = 0 then s.hartCbo h insn (insnBits w 31 20) ((s.hart h).reg (BitVec.ofNat 5 (insnBits w 19 15)))
    else s.hartIllegal h insn
  | _ => s.hartIllegal h insn

/-- The A extension. -/
def State.hartAtomic (s : State) (h : Nat) (insn : Word64) (w : Word) : Out :=
  let rd := BitVec.ofNat 5 (insnBits w 11 7)
  let rs2 := BitVec.ofNat 5 (insnBits w 24 20)
  let a := (s.hart h).reg (BitVec.ofNat 5 (insnBits w 19 15))
  let f3 := insnBits w 14 12
  if f3 ≠ 2 ∧ f3 ≠ 3 then s.hartIllegal h insn
  else match insnBits w 31 27 with
    | 2 => if rs2 = 0 then s.hartLr h rd a (f3 == 3) else s.hartIllegal h insn
    | 3 => s.hartSc h rd rs2 a (f3 == 3)
    | f5 => match amoOf f5 with
      | some op => s.hartAmo h op rd rs2 a (f3 == 3)
      | none => s.hartIllegal h insn

/-- SYSTEM: CSRs by a register or an immediate, and the rest. -/
def State.hartSys (s : State) (h : Nat) (insn : Word64) (w : Word) : Out :=
  let rd := BitVec.ofNat 5 (insnBits w 11 7)
  let a := (s.hart h).reg (BitVec.ofNat 5 (insnBits w 19 15))
  let n := insnBits w 31 20
  let src := insnBits w 19 15
  let imm := BitVec.ofNat 64 src
  match insnBits w 14 12 with
  | 0 => s.hartSystem h insn w
  | 1 => s.csrInsn h insn n .rw a true rd
  | 2 => s.csrInsn h insn n .rs a (src != 0) rd
  | 3 => s.csrInsn h insn n .rc a (src != 0) rd
  | 4 => s.hartGuest h insn w
  | 5 => s.csrInsn h insn n .rw imm true rd
  | 6 => s.csrInsn h insn n .rs imm (src != 0) rd
  | _ => s.csrInsn h insn n .rc imm (src != 0) rd

/-- An instruction of 32 bits (R424), `insn` what a trap on it reports: those of the profiles that R424 names; any other word is
an illegal instruction (log 25). -/
def State.hartWord (s : State) (h : Nat) (insn : Word64) (w : Word) : Out :=
  let x := s.hart h
  let rd := BitVec.ofNat 5 (insnBits w 11 7)
  let rs2 := BitVec.ofNat 5 (insnBits w 24 20)
  let f3 := insnBits w 14 12
  let f7 := insnBits w 31 25
  let a := x.reg (BitVec.ofNat 5 (insnBits w 19 15))
  let b := x.reg rs2
  let no : Out := s.hartIllegal h insn
  match insnBits w 6 0 with
  | 0x37 => s.hartResult h insn rd (some (immU w))
  | 0x17 => s.hartResult h insn rd (some (x.pc + immU w))
  | 0x6F => s.hartJump h rd (x.pc + immJ w)
  | 0x67 => if f3 = 0 then s.hartJump h rd ((a + immI w) &&& ~~~1) else no
  | 0x63 => (match branchTaken f3 a b with
    | some t => .next (if t then s.modHart h fun x => { x with pc := x.pc + immB w } else s.hartDone h id)
    | none => no)
  | 0x03 => if f3 = 7 then no else s.hartLoad h rd (a + immI w) (f3 % 4) (decide (f3 < 4))
  | 0x23 => if f3 < 4 then s.hartStore h rs2 (a + immS w) f3 else no
  | 0x13 => s.hartResult h insn rd (rvOpImm f3 (insnBits w 31 20) a)
  | 0x1B => s.hartResult h insn rd (rvOpImm32 f3 (insnBits w 31 20) a)
  | 0x33 => s.hartResult h insn rd (rvOp f7 f3 a b)
  | 0x3B => if f7 = 4 ∧ f3 = 4 ∧ rs2 = 0 then s.hartResult h insn rd (some ((a.setWidth 16).setWidth 64))
    else s.hartResult h insn rd (rvOp32 f7 f3 a b)
  | 0x0F => s.hartMisc h insn w
  | 0x2F => s.hartAtomic h insn w
  | 0x73 => s.hartSys h insn w
  | 0x07 | 0x27 => s.hartFpMem h insn w
  | 0x43 | 0x47 | 0x4B | 0x4F | 0x53 => s.hartMade h insn (x.fpWord w)
  | 0x57 => s.hartMade h insn (x.vecWord w)
  | _ => no

/-- An instruction by its bits: a parcel of 16 bits, or 32 bits where the lowest two are ones. -/
def State.hartInsn (s : State) (h n : Nat) : Out :=
  let run := fun (len : Nat) (w : Word) => (s.modHart h fun x => { x with ilen := len }).hartWord h (BitVec.ofNat 64 (n % 2 ^ (8 * len))) w
  if n % 4 = 3 then run 4 (BitVec.ofNat 32 n)
  else match rvcExpand (n % 65536) with
    | some w => run 2 w
    | none => s.hartIllegal h (BitVec.ofNat 64 (n % 65536))

/-- Two bytes of an instruction, and what follows; a page that refuses the fetch raises cause 12 (R425). -/
def State.hartParcel (s : State) (h : Nat) (va : Word64) (k : State → Nat → Out) : Out :=
  let x := s.hart h
  s.hartAccess h (x.priv, x.virt) 2 va.toNat 2 12
    (fun s l =>
      let (v, s) := s.hartBytes h l
      k s v)
    fun s =>
      let (v, s) := s.free
      k s (v.toNat % 65536)

/-- A hart's next instruction: an interrupt that it takes, or the instruction that it fetches at its PC. -/
def State.hartRun (s : State) (h : Nat) : Out :=
  let x := s.hart h
  match x.takes s.time with
  | some c => .next (s.modHart h fun x => x.enter true c ⟨0, 0, false⟩)
  | none => s.hartParcel h x.pc fun s lo =>
      if lo % 4 = 3 then s.hartParcel h (x.pc + 2) fun s hi => s.hartInsn h (lo + 65536 * hi) else s.hartInsn h lo

/-- The word of a CSR instruction. -/
def csrWord (n f3 rs1 rd : Nat) : Nat := (rvI n rs1 f3 rd 0x73).toNat

/-- KINDLING_INSTRUCTION (R424 to R427). A hart in WFI executes nothing until an interrupt that it has enabled is pending, and
one that has read an incomplete value at home nothing until it completes (R250). -/
def execKindlingInstruction (h : Nat) (op : HartOp) (s : State) : Out :=
  let x := s.hart h
  if Config.harts ≤ h ∨ s.time < x.hold ∨ (x.wfi ∧ x.pending s.time &&& x.csr 0x304 = 0) then .next s
  else
    let s := s.modHart h fun x => { x with wfi := false, ilen := 4 }
    match op with
    | .load rd va log2 signed => s.hartLoad h rd va log2 signed
    | .store rs va log2 => s.hartStore h rs va log2
    | .amo op rd rs va wide => s.hartAmo h op rd rs va wide
    | .fence w => .next (s.hartFence h w)
    -- the word without its registers, which the event does not name
    | .sfenceVma va asid => s.hartSfence h 0x12000073 va asid
    | .writeSatp rs => s.hartInsn h (csrWord 0x180 1 rs.toNat 0)
    | .readTime rd => s.hartInsn h (csrWord 0xC01 2 0 rd.toNat)
    | .readHartid rd => s.hartInsn h (csrWord 0xF14 2 0 rd.toNat)
    | .csrWrite csr rs => s.hartInsn h (csrWord (nkNum csr) 1 rs.toNat 0)
    | .csrRead csr rd => s.hartInsn h (csrWord (nkNum csr) 2 0 rd.toNat)
    | .standard w => s.hartInsn h w.toNat
    | .run => s.hartRun h

end Sys2Proof.Machine
end

