-- ==== Sys2Proof/Machine/Power.lean ====
section
/-! DEFINITION. Clocks, power limits, telemetry and standby (spec/23_power.md R447 to R451). None of these events changes
a value, an order or a device time. -/

namespace Sys2Proof.Machine

/-- The other ricks whose clocks are stretched. -/
def Power.droopBut (p : Power) (rick : Nat) : List Droop := p.droop.filter fun d => d.rick != rick

/-- DROOP_DETECT (R447): the rick's clock is stretched. -/
def execDroopDetect (rick : Nat) (s : State) : Out :=
  .next { s with power := { s.power with droop := s.power.droopBut rick ++ [⟨rick, none⟩] } }

/-- DROOP_RECOVER (R447): the rick's supply has recovered, and once it has for 64 of the rick's clocks the nominal period
returns. -/
def execDroopRecover (rick : Nat) (s : State) : Out :=
  match s.power.droop.find? fun d => d.rick == rick with
  | none => .next s
  | some d => match d.since with
    | none => .next { s with power := { s.power with droop := s.power.droopBut rick ++ [⟨rick, some (s.rickClk rick)⟩] } }
    | some n =>
      if n + 64000 ≤ s.rickClk rick then .next { s with power := { s.power with droop := s.power.droopBut rick } } else .next s

/-- A step of the arithmetic clock within 600 MHz and the speed grade's highest clock, at most one every 100 us (R448). The
highest clock is 1500 MHz, the rate that R12 gives for the part: the manual names no other grade (DESIGN CHOICE, log 49). -/
def State.clockTo (s : State) (mhz : Nat) : State :=
  let late := match s.power.lastStep with | some t => decide (t + 100000 ≤ s.time) | none => true
  if late && decide (600 ≤ mhz) && decide (mhz ≤ 1500) then
    { s with power := { s.power with clockMHz := mhz, lastStep := some s.time } }
  else s

/-! ### Limits (R448) -/

/-- The sum and the count of the module powers that the sensors gave in the last n nanoseconds. -/
def Power.window (p : Power) (now n : Nat) : Nat × Nat :=
  let l := (p.samples.filter fun x => decide (now < x.1 + n)).map fun x => x.2.power
  (l.foldl (· + ·) 0, l.length)

/-- The hottest rick sensor. -/
def hottest (t : Telemetry) : Nat := t.temps.foldl max 0

/-- A rolling average, or the hottest sensor, exceeds its limit (log 49). -/
def Power.exceeded (p : Power) (now : Nat) : Bool :=
  let above := fun (n limit : Nat) => let w := p.window now n; decide (limit * w.2 < w.1)
  above 1000000000 p.psust || above 10000000 p.ppeak || decide (p.tstep < hottest p.telemetry)

/-- Every limit holds with a margin of 5 %. -/
def Power.within (p : Power) (now : Nat) : Bool :=
  let ok := fun (n limit : Nat) => let w := p.window now n; decide (100 * w.1 ≤ 95 * limit * w.2)
  ok 1000000000 p.psust && ok 10000000 p.ppeak && decide (100 * hottest p.telemetry ≤ 95 * p.tstep)

/-- The time since when every limit has held with its margin, kept as long as they do. -/
def Power.judge (p : Power) (now : Nat) : Power :=
  { p with heldSince := if p.within now then some (p.heldSince.getD now) else none }

/-- The sensors have been read: the samples of the last second are kept, and the time since when the margins hold. -/
def Power.measure (p : Power) (t : Telemetry) (now : Nat) : Power :=
  { p with
    telemetry := t, telemetryClock := p.clockMHz, telemetryAt := now
    samples := (now, t) :: p.samples.filter fun x => decide (now < x.1 + 1000000000) }.judge now

/-- CLOCK_STEP_DOWN (R448), while a limit is exceeded. -/
def execClockStepDown (s : State) : Out :=
  .next (if s.power.exceeded s.time then s.clockTo (s.power.clockMHz - 25) else s)
/-- CLOCK_STEP_UP (R448), once every limit has held with its margin for 10 ms. -/
def execClockStepUp (s : State) : Out :=
  .next (match s.power.heldSince with
    | some t => if t + 10000000 ≤ s.time ∧ s.power.within s.time then s.clockTo (s.power.clockMHz + 25) else s
    | none => s)

/-- Telemetry is refreshed every 1 ms from what the sensors give (R448). -/
def State.refresh (s : State) : State :=
  match s.power.sensors with
  | some t =>
    if s.power.samples.isEmpty || decide (s.power.telemetryAt + 1000000 ≤ s.time) then { s with power := s.power.measure t s.time } else s
  | none => s

/-- TELEMETRY_REFRESH (R448): what the sensors give from now on, which the next refresh shows with the current clock. -/
def execTelemetryRefresh (t : Telemetry) (s : State) : Out :=
  .next { s with power := { s.power with sensors := some t } }.refresh

/-- TTRIP in degrees, which is fixed (R448). -/
def ttrip : Nat := 110
/-- THERMTRIP (R450), when a sensor exceeds TTRIP. -/
def execThermtrip (s : State) : Out :=
  .next (if ttrip < hottest s.power.telemetry then { s with frozen := true, tripped := true } else s)

/-- D3HOT_TRANSITION (R451): the device keeps all state and runs on. -/
def execD3hotTransition (port : Nat) (into : Bool) (s : State) : Out :=
  .next { s with hosts := modAt s.hosts port fun h => { h with d3hot := into } }
/-- LINK_L1_TRANSITION (R451): only that port's clocks are gated. -/
def execLinkL1Transition (port : Nat) (into : Bool) (s : State) : Out :=
  .next { s with hosts := modAt s.hosts port fun h => { h with l1 := into } }

end Sys2Proof.Machine
end

