-- ==== Sys2Proof/Machine/Boot.lean ====
section
/-! DEFINITION. Reset and boot, measurement registers, recovery, and what attestation and management answer
(spec/21_kindling.md R430 to R433). -/

namespace Sys2Proof.Machine

/-! ### Measurement registers (R431) -/

/-- M becomes SHAKE256(cat(M, x)): M holds the first bytes of the message (log 12). -/
def Boot.extend (b : Boot) (r : Nat) (x : List Byte) : Boot :=
  { b with meas := modAt b.meas r fun m => shake256 (m ++ x) }

/-- MEASUREMENT_EXTEND (R431): firmware extends registers 3 to 7. -/
def execMeasurementExtend (r : Nat) (x : List Byte) (s : State) : Out :=
  .next (if 3 ≤ r ∧ r ≤ 7 then { s with boot := s.boot.extend r x } else s)

/-! ### Boot (R430) -/

def headerBytes : Nat := 0xC19

/-- The image that a source holds: the bytes that follow its header (log 12). -/
def imageOf (src : List Byte) : List Byte := (src.drop headerBytes).take (numAt src 8 4)

/-- Steps 2 to 5 of R430 pass. -/
def bootPasses (b : Boot) (src : List Byte) : Bool :=
  let key := (src.drop 0x18).take 1793
  let sig := (src.drop 0x719).take 1280
  numAt src 0 8 == 0x4B5A373420494D47 && decide (headerBytes + numAt src 8 4 ≤ src.length) &&
    shake256 key == b.keyHash && falconValid key sig (shake256 (imageOf src)) && decide (b.secver ≤ numAt src 0xC 4)

/-- The device as RESET_N leaves it: flash, fuses, straps, the host's buffer and the size of BAR2 stay (log 2); both ports are
in PCIe mode until the firmware sets another (log 12). -/
def State.afterReset (s : State) : State :=
  { State.reset with
    agenda := s.agenda
    tick := s.tick
    serial := s.serial + 1
    hosts := s.hosts.map fun h => { HostPort.reset with bar2 := h.bar2 }
    boot := { Boot.reset with
      flash := s.boot.flash, buffer := s.boot.buffer, strapHost := s.boot.strapHost, keyHash := s.boot.keyHash,
      secver := s.boot.secver, romHash := s.boot.romHash, uds := s.boot.uds } }

/-- Where the ROM reads the image: the host's buffer when the strap selects it, flash otherwise and where both ports were in
CXL mode, so that the device has no host (R401, R430). -/
def State.bootSource (s : State) : List Byte :=
  if s.boot.strapHost && s.hosts.any fun h => h.mode == .pcie then s.boot.buffer else s.boot.flash

/-- The mode that an image's firmware sets for each die's host port (R401). -/
def hostModes (img : List Byte) (hosts : List HostPort) : List HostPort :=
  hosts.zipIdx.map fun x => { x.1 with mode := if Config.hostCxl img x.2 then .cxl else .pcie }

/-- RESET (R430): hart 0 runs the boot ROM to its end, which is the image's entry point or recovery mode. Whether the HBM
trains is open (log 12). -/
def execReset (s : State) : Out :=
  let src := s.bootSource
  let t := s.afterReset
  let b := t.boot
  if Config.hbmTrains s.serial && bootPasses b src then
    let img := imageOf src
    let base := Config.imageBase % hbmEnd
    .next { t with
      mem := cellsSet t.mem (cellsAt base img)
      hosts := hostModes img t.hosts
      boot := ((b.extend 0 b.romHash).extend 1 b.keyHash).extend 2 (shake256 img)
      harts := modAt t.harts 0 fun h => { h with pc := BitVec.ofNat 64 (base + numAt src 0x10 8), priv := .m } }
  else .next { t with boot := { b with recovery := true } }

/-- RECOVERY_IMAGE_WRITE (R432): it comes through BAR0 of port 0 (log 12), where D3hot drops it (R451). -/
def execRecoveryImageWrite (image : List Byte) (s : State) : Out :=
  .next (if s.boot.recovery && !((s.hosts[0]?).any fun h => h.d3hot) then { s with boot := { s.boot with flash := image } } else s)

/-! ### Attestation and management (R433) -/

/-- What MEASUREMENTS returns at an index: registers 0 to 7 as 1 to 8. Index 0 is their count and 255 all of them, as SPDM
gives; any other returns nothing (log 12). -/
def Boot.measurements (b : Boot) (index : Nat) : List Byte :=
  if index = 0 then [8]
  else if index = 255 then b.meas.flatMap id
  else b.meas.getD (index - 1) []

/-- The SPDM versions that the responder answers in, and the algorithms that it offers: no base algorithm, and one extended
one of each kind. -/
def spdmVersions : List Nat := [0x12, 0x13]
def spdmBase : List SpdmAlg := []
def spdmExtAsym : List SpdmAlg := [.falcon1024]
def spdmExtHash : List SpdmAlg := [.shake256]

/-- The device identity key, generated from SHAKE256 of the fused unique secret. -/
def Boot.identity (b : Boot) : List Byte := Config.identityKey (shake256 b.uds)

/-- A management transport is there: the I2C port, or PCIe VDM on a host port in PCIe mode. -/
def State.mgmtOpen (s : State) (via : MgmtPort) : Bool :=
  match via with
  | .i2c => true
  | .vdm p => (s.hosts[p]?).any fun h => h.mode == .pcie

/-- SPDM_GET_MEASUREMENTS (R433): answered in a version that the responder implements, with the key that signs and the
algorithms offered under the PCI-SIG registry with the Kolez vendor identifier. -/
def execSpdmGetMeasurements (r : SpdmRequest) (s : State) : Out :=
  .next (if s.mgmtOpen r.via ∧ r.version ∈ spdmVersions then
    { s with boot := { s.boot with
        answer := some ⟨r.version, .pciSig, .kolez, spdmBase, spdmExtAsym, spdmExtHash, s.boot.identity, s.boot.measurements r.index⟩ } }
  else s)

/-- PLDM_FIRMWARE_UPDATE (R433): flash is written, and read at the next reset. -/
def execPldmFirmwareUpdate (u : FirmwareUpdate) (s : State) : Out :=
  .next (if s.mgmtOpen u.via then { s with boot := { s.boot with flash := u.image } } else s)

/-- A limit's value. -/
def Power.limit (p : Power) : PowerLimit → Nat
  | .psust => p.psust
  | .ppeak => p.ppeak
  | .tstep => p.tstep
  | .ttrip => ttrip

/-- A write of a limit: one outside its range is refused (R448). -/
def Power.setLimit (p : Power) (l : PowerLimit) (v : Nat) : Power :=
  match l with
  | .psust => if 600 ≤ v ∧ v ≤ 1900 then { p with psust := v } else p
  | .ppeak => if p.psust ≤ v ∧ v ≤ 2100 then { p with ppeak := v } else p
  | .tstep => if 70 ≤ v ∧ v ≤ 95 then { p with tstep := v } else p
  | .ttrip => p

/-- PLDM_SET_LIMIT (R433, R448): a PLDM Type 2 message that writes a limit, or reads a limit or a sensor. The margins are judged
by the new limit at once. -/
def execPldmSetLimit (l : LimitName) (value : Nat) (s : State) : Out :=
  let p := s.power
  let gives := fun (x : Option Nat) => (.next { s with power := { p with answer := x } } : Out)
  if !s.mgmtOpen l.via then .next s
  else match l.item with
    | .set x =>
      let q := p.setLimit x value
      .next (if q = p then s else { s with power := q.judge s.time })
    | .get x => gives (some (p.limit x))
    | .power => gives (some p.telemetry.power)
    | .rail n => gives p.telemetry.rails[n]?
    | .temp n => gives p.telemetry.temps[n]?
    | .clock => gives (some p.telemetryClock)

/-- POWER_REMOVAL (R451): all device state is lost; flash, fuses and straps stay, and power-up boots under R430. -/
def execPowerRemoval (s : State) : Out :=
  .next { State.reset with
    agenda := (⟨0, .event .reset⟩ : Turn) :: s.agenda
    tick := s.tick
    serial := s.serial + 1
    boot := { Boot.reset with
      flash := s.boot.flash, strapHost := s.boot.strapHost, keyHash := s.boot.keyHash, secver := s.boot.secver,
      romHash := s.boot.romHash, uds := s.boot.uds } }

end Sys2Proof.Machine
end

