-- ==== Sys2Proof/Machine/Events.lean ====
section
/-! DEFINITION. Events of memory and of long-latency results: acceptance, completion and acknowledgement of a write
(spec/13_memory_order.md R231 to R233, R249), the end of a lease (R231), and a result that reaches its registers
(spec/08_wave.md R151); and the trap of an illegal encoding (spec/03_opcodes.md R59). An event whose condition does not
hold has no effect (log 5). -/

namespace Sys2Proof.Machine

/-- WRITE_ACCEPTANCE (R232): the write takes its place in coherence order and receives its completion time, which
returns to the writer. A release that has been made lets its store reach the L1 first (R241), and a write that another core's
write tenure holds back contends it (R235, R326). -/
def execWriteAcceptance (id : Nat) (s : State) : Out :=
  .next (s.settleRel.acceptOr id)

/-- WRITE_COMPLETION (R232, R233): from its completion time on the write's bytes are released to other cores, and its
pending bytes are dropped. -/
def execWriteCompletion (id : Nat) (s : State) : Out :=
  match s.write id with
  | some w => .next (if w.doneAt s.time then s.complete id else s)
  | none => .next s

/-- The write carries the pool's acknowledgement. -/
def State.acknowledge (s : State) (id : Nat) : State :=
  { s with writes := modWhere s.writes (fun w => w.id == id) fun w => { w with acked := true } }

/-- POOL_WRITE_ACKNOWLEDGE (R249): the pool device returns completion for an accepted write to a pool page. -/
def execPoolWriteAcknowledge (id : Nat) (s : State) : Out :=
  match s.write id with
  | some w =>
    if w.pool && !w.acked && w.ctime.isSome then
      let s := s.acknowledge id
      .next (if w.doneAt s.time then s.complete id else s)
    else .next s
  | none => .next s

/-- LEASE_EXPIRY (R231): a copy whose expiry `%time` has reached is invalid and leaves the core's L1. -/
def execLeaseExpiry (core sector : Nat) (s : State) : Out :=
  .next { s with l1 := s.l1.filter fun l => !(l.core == core && l.pa == sectorBase sector && !s.l1Valid l) }

/-- The registers of a fill in its lanes, full again, with the flags that the result raised (R68, R151). -/
def Wave.takeFill (w : Wave) (f : Fill) : Wave :=
  let w := (List.range f.data.length).foldl (fun w j =>
    w.setV (f.first + j) (mergeLanes f.mask (w.vAt (f.first + j)) (f.data.getD j zeroLanes))) w
  (w.markFull f.first f.data.length).orFlags f.flags

/-- LONG_LATENCY_FILL (R151). -/
def execLongLatencyFill (id : Nat) (s : State) : Out :=
  match s.fills.find? fun f => f.id == id with
  | some f =>
    let s := s.modWave f.wave fun w => w.takeFill f
    .next { s with fills := s.fills.filter fun x => x.id != id }
  | none => .next s

/-- ILLEGAL_OP (R59, R61): bits [63:0] of the instruction. -/
def execIllegalOp (bits : BitVec 128) (s : State) : Out :=
  s.trap 0x01 ((s.me.map Wave.exec).getD 0) (bits.setWidth 64)

end Sys2Proof.Machine
end

