-- ==== Sys2Proof/Machine/Matrix.lean ====
section
/-! DEFINITION. The matrix engine's instructions and operations (spec/17_matrix.md R342 to R357, spec/04_numbers.md R77 to R87). -/

namespace Sys2Proof.Machine

/-! ### Ranges (R343, R344, R352, R353) -/

/-- K-block length of a BLK code. -/
def blkLen (blk : Nat) : Nat := if blk = 0 then 0 else 8 * 2 ^ blk
/-- K of a format. -/
def mosK (ty : Nat) : Nat := if ty = 0xE then 128 else 32

/-- The regions of a range: offset and size of the data, scales and bitmap that are present (R344). -/
def mosRegions (ty pa blk soff boff : Nat) : List (Nat × Nat) :=
  [(0, if ty = 0xE then 1536 * pa else 6144)] ++
  (if blk = 0 then [] else [(32 * soff, 96 * 128 / blkLen blk)]) ++
  (if boff = 0 then [] else [(32 * boff, 96 * mosK ty / 8)])

/-- The regions lie within n bytes and do not overlap. -/
def regionsOk (n : Nat) (l : List (Nat × Nat)) : Bool :=
  (l.all fun r => decide (r.1 + r.2 ≤ n)) &&
  (List.range l.length).all fun i => (List.range i).all fun j =>
    let a := l.getD i (0, 0)
    let b := l.getD j (0, 0)
    decide (a.1 + a.2 ≤ b.1) || decide (b.1 + b.2 ≤ a.1)

/-- MOS.RSV (R352). -/
def execMosRsv (f : Fields) (s : State) : Out :=
  s.front (.mosRsv f) f .dest false fun s w =>
    let lay := (s.readS w (.int 32) f.a).toNat
    let start := f.imm.toNat % 256
    let len := f.imm.toNat / 256 % 256 + 1
    let ty := f.ty
    let pa := f.mbits 7 4
    let blk := f.mbits 10 8
    let soff := lay % 2048
    let boff := lay / 2 ^ 16 % 2048
    let side := sideOf w.id.part
    let here := s.ranges.filter fun r => r.core == w.core && r.side == side
    let ret := fun (s : State) (x : Nat) => s.finish f fun w => w.putS f.d (BitVec.ofNat 64 x)
    if lay / 2 ^ 11 % 32 ≠ 0 ∨ lay / 2 ^ 27 ≠ 0 ∨ 256 < start + len ∨ (blk = 0 ∧ soff ≠ 0) ∨
        ¬ regionsOk (256 * len) (mosRegions ty pa blk soff boff) then ret s 2
    else if here.any fun r => decide (r.start < 256 * (start + len)) && decide (256 * start < r.start + r.len) then ret s 1
    else if 32 ≤ here.length then ret s 3
    else
      let r : MosRange := { core := w.core, side := side, cord := w.cord, start := 256 * start, len := 256 * len, ty := ty,
                            pa := pa, blk := blk, soff := soff, boff := boff, bytes := [], readers := 0, writers := 0 }
      ret { s with ranges := s.ranges ++ [r] } 0

/-- %trapinfo of MOS_RANGE (R61). -/
def mosInfo (w : Wave) (off : Nat) : Word64 := BitVec.ofNat 64 (off % 65536 + 65536 * sideOf w.id.part)

/-- MOS.REL (R353). -/
def execMosRel (f : Fields) (s : State) : Out :=
  s.front (.mosRel f) f .dest false fun s w =>
    let start := s.natB w f % 256
    match s.rangeAt w start with
    | none => s.trap 0x29 w.exec (mosInfo w (256 * start))
    | some r => s.heldFault w (fun x => x.into r) fun s =>
      if r.readers ≠ 0 ∨ r.writers ≠ 0 then s.stall
      else { s with ranges := s.ranges.filter fun x => !r.same x }.finish f id

/-- MOS.WR (R354). -/
def execMosWr (f : Fields) (s : State) : Out :=
  s.front (.mosWr f) f .dest false fun s w =>
    let lanes := lanesOf w.exec
    let word := s.natB w f
    let start := word % 256
    let o0 := word / 256 % 65536
    let n := 4 * 2 ^ f.mbits 2 0
    let o := fun (l : Nat) => o0 + n * l
    let a := s.srcA w (.int 32) f
    let trapAt := fun (l : Nat) => s.trap 0x29 w.exec (mosInfo w (256 * start + o l))
    match lanes with
    | [] => s.finish f id
    | low :: _ => match s.rangeAt w start with
      | none => trapAt low
      | some r =>
        if word / 2 ^ 24 ≠ 0 ∨ o0 % 4 ≠ 0 then trapAt low
        else match lanes.find? fun l => decide (r.len < o l + 4) with
          | some l => trapAt l
          | none => s.heldFault w (fun x => x.into r) fun s =>
            if r.readers ≠ 0 then s.stall
            else
              let cells := lanes.flatMap fun l => cellsAt (o l) (bytesOfNat 4 (lo32 (laneOf a l)).toNat)
              (s.modRange r fun r => r.put cells).finish f id

/-! ### MOS.FILL (R355) -/

/-- The rows of a fill: source address, offset in the range, bytes. -/
def fillRows (a o0 count pitch rowlen : Nat) : List (Nat × Nat × Nat) :=
  if rowlen = 0 then [(a, o0, count)]
  else (List.range (count / rowlen)).map fun i => ((a + i * pitch) % 2 ^ 64, o0 + i * rowlen, rowlen)

/-- The pieces of a fill: one for each source sector of a row. -/
def fillPieces (rows : List (Nat × Nat × Nat)) (hint : Nat) : List Piece :=
  rows.flatMap fun r => (piecesOf r.1 r.2.2).map fun p =>
    { parts := [{ src := some (p.1 % 2 ^ 64), const := [], dst := r.2.1 + (p.1 - r.1), n := p.2 }], srcScratch := false,
      dstScratch := true, hint := 0, rhint := hint, st := .todo }

/-- The first fault of a list of source addresses, walked as reads. -/
def State.probeReads (w : Wave) : List Nat → State → State × Acc Unit
  | [], s => (s, .ok ())
  | a :: rest, s => match s.translate (unitFlue w.core) (s.tagOf w) w.die w.sup 0 a with
    | (.fault c p, s) => (s, .fault c p a)
    | (.ok _ _, s) => State.probeReads w rest s
    | (.bad, s) => (s, .bad)
    | (.wait, s) => (s, .wait)

/-- The first byte of a row in each 4 KiB page that it touches. -/
def rowPages (a n : Nat) : List Nat :=
  if n = 0 then []
  else (List.range ((a % 4096 + n + 4095) / 4096)).map fun i => if i = 0 then a else (a / 4096 * 4096 + 4096 * i) % 2 ^ 64

/-- MOS.FILL (R355). -/
def execMosFill (f : Fields) (s : State) : Out :=
  s.front (.mosFill f) f .dest false fun s w =>
    let word := if f.isW then f.imm.toNat else (s.readS w (.int 32) f.b).toNat
    let count := if f.isW then 32 * (f.mbits 16 7 + 1) else (s.readS w (.int 32) f.c).toNat
    let pitch := if f.isW then 0 else f.ebits 31 0
    let rowlen := if f.isW then 0 else f.ebits 47 32
    let start := word % 256
    let o0 := word / 256 % 65536
    let rows := fillRows (s.readS w (.int 64) f.a).toNat o0 count pitch rowlen
    let range := s.rangeAt w start
    let size := (range.map fun r => r.len).getD 0
    if range.isNone ∨ word / 2 ^ 24 ≠ 0 ∨ o0 % 32 ≠ 0 ∨ count % 32 ≠ 0 ∨ (rowlen ≠ 0 ∧ count % rowlen ≠ 0) ∨ size < o0 + count then
      s.trap 0x29 w.exec (mosInfo w (256 * start + o0))
    else match rows.findSome? fun r => badRange r.1 r.2.2 with
      | some a => s.trap 0x20 w.exec (pageInfo a 0 0)
      | none => State.take (State.probeReads w (rows.flatMap fun r => rowPages r.1 r.2.2) s) 0 fun s _ =>
          if count = 0 then s.finish f id
          else match s.rangeAt w start with
            | none => s.stall
            | some r =>
              if r.readers ≠ 0 then s.stall
              else
                let x : MosFill := { id := s.uid, wave := w.id, tag := s.tagOf w, core := w.core, side := r.side, start := r.start,
                                     sup := w.sup, pieces := fillPieces rows (f.mbits 3 2), told := [] }
                let s := { s with uid := s.uid + 1, mosFills := s.mosFills ++ [x] }
                (s.modRange r fun r => { r with writers := r.writers + 1 }).finish f id

/-! ### Elements (R344, R348) -/

/-- Bit i of a byte of a range's bytes. -/
def mosBit (bytes : List Host.Cell) (off i : Nat) : Bool := (cellGet bytes off).getLsbD i

/-- 2t + 1 for the k-bit value whose bits, the sign first, are given (R77). -/
def oddOf (bits : List Bool) : Int :=
  let n := bits.foldl (fun (x : Nat) b => 2 * x + (if b then 1 else 0)) 0
  let k := bits.length
  2 * (if 2 ^ (k - 1) ≤ n then (n : Int) - 2 ^ k else n) + 1

/-- Element (r, k) of an FP range. -/
def MosRange.fp (r : MosRange) (row k : Nat) : Word64 := BitVec.ofNat 64 (natOfBytes (cellsGet r.bytes (64 * row + 2 * k) 2))
/-- 2t + 1 of element (r, k) of an NI range. -/
def MosRange.ni (r : MosRange) (row k : Nat) : Int :=
  oddOf (tabulate r.pa fun j => mosBit r.bytes (1536 * j + 16 * row + k / 8) (k % 8))
/-- The E8 scale of the block of an element. -/
def MosRange.scale (r : MosRange) (row k : Nat) : Nat :=
  (cellGet r.bytes (32 * r.soff + row * (128 / blkLen r.blk) + k / blkLen r.blk)).toNat
/-- The bitmap bit of an element. -/
def MosRange.bit (r : MosRange) (row k : Nat) : Bool :=
  mosBit r.bytes (32 * r.boff + row * mosK r.ty / 8 + k / 8) (k % 8)

/-- The member of an operation whose quarter holds K row k, and the row within the quarter: members are in partition order. -/
def quarterOf (ms : List MmaMember) (ty k : Nat) : MmaMember × Nat :=
  let n := if ty = 0xE then 32 else 8
  (ms.getD (k / n) default, k % n)

/-- Element (k, n) of B in an FP format. -/
def bFp (ms : List MmaMember) (ty k n : Nat) : Word64 :=
  let (m, j) := quarterOf ms ty k
  elem16 (j % 2) ((lane (m.b.getD 0 []) (4 * n + j / 2)).setWidth 64)
/-- 2t + 1 of element (k, n) of B with PB planes. -/
def bNi (ms : List MmaMember) (pb k n : Nat) : Int :=
  let (m, j) := quarterOf ms 0xE k
  oddOf (tabulate pb fun p => (lane (m.b.getD (p / 4) []) (16 * (p % 4) + n)).getLsbD j)
/-- The scale of the B block of element (k, n): of the member whose quarter holds the block's first row. -/
def bScale (ms : List MmaMember) (l k n : Nat) : Nat :=
  let (m, j) := quarterOf ms 0xE (k / l * l)
  (lane m.bs n).toNat / 2 ^ (8 * (if l = 16 then j / 16 else 0)) % 256
/-- The bitmap bit of element (k, n) of B. -/
def bBit (ms : List MmaMember) (ty k n : Nat) : Bool :=
  let (m, j) := quarterOf ms ty k
  (lane m.bm n).getLsbD j

/-! ### Results (R85 to R87, R350) -/

/-- An integer times a power of two as an exact value; products that cancel give +0 (DESIGN CHOICE, log 52). -/
def scaledVal (x : Int) (e : Int) : FVal :=
  if 0 ≤ e then .fin (decide (x < 0)) (x.natAbs * 2 ^ e.toNat) 1 else .fin (decide (x < 0)) x.natAbs (2 ^ (-e).toNat)

/-- The result of one row and column of one member. -/
def mmaCell (ms : List MmaMember) (m : MmaMember) (rg : MosRange) (row n : Nat) (c : Word) : Word × FFlags :=
  let ty := m.f.ty
  let pb := m.f.ebits 19 16
  let rnd := Rnd.ofCode m.f.rnd
  let present := fun (k : Nat) => !m.sp || (rg.bit row k && bBit ms ty k n)
  let ks := (List.range (mosK ty)).filter present
  let one : FVal := .fin false 1 1
  if ty ≠ 0xE then
    let fm := FFmt.ofTy ty
    let r := (exactDot rnd (ks.map fun k => (unpack fm (rg.fp row k), unpack fm (bFp ms ty k n))) (unpack .f32 (c.setWidth 64))).round .f32 rnd
    (lo32 r.1, r.2)
  else if rg.blk ≠ 0 then
    let l := blkLen rg.blk
    let block := fun (b : Nat) =>
      let here := ks.filter fun k => k / l == b
      if here.isEmpty then []
      else
        let ea := rg.scale row (b * l)
        let eb := bScale ms l (b * l) n
        if ea = 255 ∨ eb = 255 then [((.nan false, one) : FVal × FVal)]
        else
          let d := (here.map fun k => rg.ni row k * bNi ms pb k n).foldl (· + ·) 0
          [(scaledVal d ((14 : Int) - rg.pa - pb + ((ea : Int) - 127) + ((eb : Int) - 127)), one)]
    let r := (exactDot rnd ((List.range (128 / l)).flatMap block) (unpack .f32 (c.setWidth 64))).round .f32 rnd
    (lo32 r.1, r.2)
  else
    let sum := (ks.map fun k => rg.ni row k * bNi ms pb k n).foldl (· + ·) 0 * 2 ^ (16 - rg.pa - pb)
    let x := c.toInt + sum
    (BitVec.ofInt 32 x, if x < -(2 ^ 31) ∨ 2 ^ 31 ≤ x then flagOF else 0)

/-- A member's accumulators after an operation, and its flags: rows of lanes that were not active keep their values. -/
def Wave.mmaWrite (w : Wave) (ms : List MmaMember) (m : MmaMember) (rg : MosRange) : Wave :=
  let d := vNum m.f.d
  (List.range 16).foldl (fun w n =>
    let old := w.vAt (d + n)
    let r := tabulate laneCount fun l => if m.exec.getLsbD l then mmaCell ms m rg l n (lane old l) else (lane old l, 0)
    ((w.setV (d + n) (r.map fun x => x.1)).orFlags (r.foldl (fun a x => a ||| x.2) 0))) w |>.markFull d 16

/-- MMA_OPERATION_COMPLETE (R349 to R351, R357): the side's first operation finishes. An uncorrectable error in a range or in
an accumulator that it reads faults the context (R16, R98, R358). -/
def execMmaOperationComplete (core side : Nat) (s : State) : Out :=
  match s.mmaOps.find? fun o => o.core == core && o.side == side with
  | none => .next s
  | some o =>
    let run := fun (s : State) (m : MmaMember) =>
      match s.waveAt m.wave with
      | none => s
      | some w => match s.rangeAt w (m.f.ebits 15 8) with
        | none => s
        | some rg => (match s.mosErrors rg with
          | (true, s) => s.faultLater (s.tagOf w)
          | (false, s) => (match s.readErrors w [(m.f.d, 16)] with
            | (true, s) => s.faultLater (s.tagOf w)
            | (false, s) => s.modWave m.wave fun w => w.mmaWrite o.members m rg))
    let s := o.members.foldl run s
    let s := o.members.foldl (fun s m => s.reader m.wave m.f (· - 1)) s
    .next { s with mmaOps := s.mmaOps.erase o }

/-! ### MMA and MMA.SP (R347, R357) -/

/-- What the members of a gather must have in common. -/
def State.mmaParams (s : State) (m : MmaMember) : Nat × Nat × Bool × Nat :=
  let blk := (((s.waveAt m.wave).bind fun w => s.rangeAt w (m.f.ebits 15 8)).map fun r => r.blk).getD 0
  (m.f.ty, m.f.ebits 19 16, m.sp, blk)

/-- Why a gather is broken (R347): what broke it, and else a member that has ended. -/
def State.brokenBy (s : State) (cord g : Nat) : Option Nat :=
  match (s.gatherOf cord g).broken with
  | some i => some i
  | none => (s.members cord g).find? fun i => s.memberEnded cord i

/-- The four members leave the gather as one operation, or their parameters differ and the gather is broken. -/
def State.gatherFull (s : State) (cord g : Nat) : State :=
  let x := s.gatherOf cord g
  let ms := sortBy (fun (m : MmaMember) => m.wave.part) x.members
  if ms.length ≠ 4 then s
  else
    let first := s.mmaParams (ms.getD 0 default)
    match ms.find? fun m => s.mmaParams m != first with
    | some m => s.breakGather cord g (((s.waveAt m.wave).map fun w => w.index).getD 0)
    | none =>
      let core := (ms.getD 0 default).wave.core
      let side := sideOf (ms.getD 0 default).wave.part
      let s := s.setGather cord { x with members := [] }
      let s := ms.foldl (fun s m => s.modWave m.wave fun w => (w.markEmpty (vNum m.f.d) 16).commit m.f) s
      { s with mmaOps := s.mmaOps ++ [⟨core, side, cord, ms⟩] }

/-- Whether a wave was blocked in a group's gather when it broke and has not raised QUARTET_BROKEN yet. -/
def State.gatherHit (s : State) (w : Wave) (g : Nat) : Bool := (s.gatherOf w.cord g).hit.contains w.index

/-- QUARTET_BROKEN (R347). -/
def State.quartetTrap (s : State) (w : Wave) (g i : Nat) : Out :=
  s.trapWith 0x3A w.exec (BitVec.ofNat 64 (g + 256 * (i % 64))) fun s =>
    let x := s.gatherOf w.cord g
    s.setGather w.cord { x with hit := x.hit.filter fun i => i != w.index }

/-- MMA and MMA.SP (R357). With an A range that has no scales, B names nothing. A wave that was blocked in its gather when
it broke raises QUARTET_BROKEN before anything else. -/
def State.mma (s : State) (i : Fields → Instr) (f : Fields) (sp : Bool) : Out :=
  let ra := f.ebits 15 8
  let g := f.ebits 7 0
  let unscaled := match s.me with | some w => ((s.rangeAt w ra).map fun r => r.blk) == some 0 | none => false
  let fr := if unscaled && f.b == .v 0 then { f with b := .none } else f
  s.front (i f) fr .late true fun s w =>
    let c := s.cordOf w
    if s.gatherHit w g then s.quartetTrap w g ((s.brokenBy w.cord g).getD 0)
    else match s.rangeAt w ra with
    | none => s.trap 0x29 w.exec (mosInfo w (256 * ra))
    | some r =>
      if r.ty ≠ f.ty ∨ (r.blk = 0 ∧ f.b ≠ .v 0) ∨ (sp ∧ r.boff = 0) then s.trap 0x29 w.exec (mosInfo w (256 * ra))
      else if c.kernel.groups.length ≤ g ∨ grpKind (c.group g) ≠ 1 ∨ ¬ (grpList (c.group g)).contains w.index then
        s.trap 0x39 w.exec (BitVec.ofNat 64 g)
      else s.heldFault w (fun x => x.into r) fun s =>
        if w.destBusy f.d 16 || r.writers ≠ 0 then s.stall
        else match s.brokenBy w.cord g with
          | some i => s.quartetTrap w g i
          | none =>
            let regs := fun (o : Opnd) (n : Nat) => tabulate n fun k => w.vAt (vNum o + k)
            let m : MmaMember := { wave := w.id, pc := w.pc, sp := sp, f := f, exec := w.exec,
                                   b := regs f.a (if 4 < f.ebits 19 16 then 2 else 1), bs := w.vAt (vNum f.b), bm := w.vAt (vNum f.c) }
            let x := s.gatherOf w.cord g
            let s := s.reader w.id f (· + 1)
            let s := s.setGather w.cord { x with members := x.members ++ [m] }
            .next ((s.modMe fun w => { w with wait := .gather g }).gatherFull w.cord g)

/-- MMA (R357). -/
def execMma (f : Fields) (s : State) : Out := s.mma .mma f false
/-- MMA.SP (R357). -/
def execMmaSp (f : Fields) (s : State) : Out := s.mma .mmaSp f true

end Sys2Proof.Machine
end

