-- ==== Sys2Proof/Machine/Repeat.lean ====
section
/-! DEFINITION. One iteration of an instruction that REP repeats (spec/08_wave.md R157): the checks of R40 on the
instruction as encoded, then the instruction itself with its v-register fields offset. -/

namespace Sys2Proof.Machine

/-- A field that takes no stride: not of class 00, or not an operand of the instruction (R157). -/
def noStride (r : Role) (o : Opnd) : Bool :=
  r == .unused || (match o with | .v _ => false | _ => true)

/-- A nonzero stride on such a field (R157, check 3 of R40). -/
def strideBad (g : Sig) (f : Fields) (m : Nat) : Bool :=
  (decide (m % 4 ≠ 0) && noStride g.d f.d) || (decide (m / 4 % 4 ≠ 0) && noStride g.a f.a) ||
  (decide (m / 16 % 4 ≠ 0) && noStride (g.bRole f) f.b) || (decide (m / 64 % 2 ≠ 0) && noStride g.c f.c)

/-- The stride code of the state that the wave is in (R102, R157). -/
def Wave.strides (w : Wave) : Nat := (if w.sup then w.repStrSup else w.repStr).toNat

/-- The fields of the iteration that the repeat count gives. A 64-bit operand that a stride makes name an odd register r is the
pair r, r + 1: the checks are those of the encoding (DESIGN CHOICE, log 7). -/
def Wave.iterFields (w : Wave) (f : Fields) : Fields :=
  let (d, a, b, c) := w.offsets
  { f with d := shiftReg f.d d, a := shiftReg f.a a, b := shiftReg f.b b, c := shiftReg f.c c }

/-- The meaning of an instruction that REP may repeat: OP 0x20 to 0x9F and 0xA2 to 0xA4 (R157). -/
def repeated (i : Instr) (s : State) : Out :=
  match i with
  | .sAdd f => execSAdd f s
  | .sSub f => execSSub f s
  | .sMul f => execSMul f s
  | .sMulh f => execSMulh f s
  | .sAnd f => execSAnd f s
  | .sOr f => execSOr f s
  | .sXor f => execSXor f s
  | .sAndn f => execSAndn f s
  | .sShl f => execSShl f s
  | .sShr f => execSShr f s
  | .sSar f => execSSar f s
  | .sRot f => execSRot f s
  | .sMin f => execSMin f s
  | .sMax f => execSMax f s
  | .sCmp f => execSCmp f s
  | .sSel f => execSSel f s
  | .sMov f => execSMov f s
  | .sMovi f => execSMovi f s
  | .sBfe f => execSBfe f s
  | .sBfi f => execSBfi f s
  | .sPopc f => execSPopc f s
  | .sClz f => execSClz f s
  | .sAdd64 f => execSAdd64 f s
  | .cLop f => execCLop f s
  | .vAdd f => execVAdd f s
  | .vSub f => execVSub f s
  | .vMul f => execVMul f s
  | .vMulh f => execVMulh f s
  | .mad f => execMad f s
  | .madw f => execMadw f s
  | .vAnd f => execVAnd f s
  | .vOr f => execVOr f s
  | .vXor f => execVXor f s
  | .vAndn f => execVAndn f s
  | .vShl f => execVShl f s
  | .vShr f => execVShr f s
  | .vSar f => execVSar f s
  | .vRot f => execVRot f s
  | .vMin f => execVMin f s
  | .vMax f => execVMax f s
  | .vAbs f => execVAbs f s
  | .vCmp f => execVCmp f s
  | .vSel f => execVSel f s
  | .vBfe f => execVBfe f s
  | .vBfi f => execVBfi f s
  | .vPopc f => execVPopc f s
  | .vClz f => execVClz f s
  | .vBrev f => execVBrev f s
  | .vAdd64 f => execVAdd64 f s
  | .prmt f => execPrmt f s
  | .dot4 f => execDot4 f s
  | .shflIdx f => execShflIdx f s
  | .shflXor f => execShflXor f s
  | .shflUp f => execShflUp f s
  | .shflDown f => execShflDown f s
  | .rdlane f => execRdlane f s
  | .wrlane f => execWrlane f s
  | .matchLanes f => execMatchLanes f s
  | .redux f => execRedux f s
  | .scan f => execScan f s
  | .fadd f => execFadd f s
  | .fsub f => execFsub f s
  | .fmul f => execFmul f s
  | .ffma f => execFfma f s
  | .fmin f => execFmin f s
  | .fmax f => execFmax f s
  | .fcmp f => execFcmp f s
  | .fclass f => execFclass f s
  | .frnd f => execFrnd f s
  | .fcvt f => execFcvt f s
  | .f2i f => execF2i f s
  | .i2f f => execI2f f s
  | .fldexp f => execFldexp f s
  | .ffrexp f => execFfrexp f s
  | .fexp2f f => execFexp2f f s
  | .flog2 f => execFlog2 f s
  | .frcp f => execFrcp f s
  | .frsq f => execFrsq f s
  | .fsqrt f => execFsqrt f s
  | .fsinr f => execFsinr f s
  | .fcosr f => execFcosr f s
  | .fdot2 f => execFdot2 f s
  | .fqni f => execFqni f s
  | .fdqni f => execFdqni f s
  | .reduxF f => execReduxF f s
  | .xaAdd f => execXaAdd f s
  | .xaRnd f => execXaRnd f s
  | .dadd f => execDadd f s
  | .dmul f => execDmul f s
  | .dfma f => execDfma f s
  | .dcmp f => execDcmp f s
  | .dminmax f => execDminmax f s
  | .ldS f => execLdS f s
  | .stS f => execStS f s
  | .ldK f => execLdK f s
  | i => s.trap 0x01 ((s.me.map Wave.exec).getD 0) (insnInfo i)

/-- REP_ITERATION (R157): checks 3 to 5 of R40 on the encoding, then the instruction with its fields offset; its guard,
its readiness and its own traps are those of an instruction in its own right, and its advance counts the iteration. -/
def execRepIteration (op : BitVec 8) (f : Fields) (s : State) : Out :=
  match s.me, Instr.ofOp op.toNat f with
  | some w, some i =>
    let k := (s.cordOf w).kernel
    if !repEligible op.toNat || !f.isV then s.trap 0x01 w.exec (insnInfo i)
    else match i.sig with
      | Option.none => s.trap 0x02 w.exec (insnInfo i)
      | some g =>
        let (od, oa, ob, oc) := w.offsets
        if strideBad g f w.strides || !g.ok f then s.trap 0x02 w.exec (insnInfo i)
        else if !w.sup && instrPriv i then s.trap 0x04 w.exec (insnInfo i)
        else match sigRegidx g f k.regs k.sregs od oa ob oc with
          | some info => s.trap 0x10 w.exec info
          | Option.none => match Instr.ofOp op.toNat (w.iterFields f) with
            | some j => repeated j s
            | Option.none => s.trap 0x02 w.exec (insnInfo i)
  | _, _ => .fault .noSuchEvent

end Sys2Proof.Machine
end

