-- ==== Sys2Proof/Machine/Texture.lean ====
section
/-! DEFINITION. Resource records, texels, filtering and the texture and record instructions (spec/19_rays.md R389 to
R394, spec/04_numbers.md R89 to R91). -/

namespace Sys2Proof.Machine

/-! ### Records (R389 to R391) -/

/-- A format of R390: bytes of a texel, channels stored, kind of conversion. -/
inductive TexConv where
  | unorm (bits : Nat)
  | snorm (bits : Nat)
  | fp (f : FFmt)
  | integer (bits : Nat)
  deriving DecidableEq, Repr, Inhabited

structure TexFmt where
  chans : Nat
  size  : Nat
  conv  : TexConv
  deriving DecidableEq, Repr, Inhabited

/-- The formats of R390 by code. -/
def texFmt (code : Nat) : Option TexFmt :=
  match code with
  | 0x01 => some ⟨1, 1, .unorm 8⟩
  | 0x02 => some ⟨4, 1, .unorm 8⟩
  | 0x03 => some ⟨1, 2, .unorm 16⟩
  | 0x04 => some ⟨4, 2, .unorm 16⟩
  | 0x05 => some ⟨4, 1, .snorm 8⟩
  | 0x06 => some ⟨1, 2, .snorm 16⟩
  | 0x07 => some ⟨1, 2, .fp .f16⟩
  | 0x08 => some ⟨4, 2, .fp .f16⟩
  | 0x09 => some ⟨1, 2, .fp .bf16⟩
  | 0x0A => some ⟨1, 4, .fp .f32⟩
  | 0x0B => some ⟨4, 4, .fp .f32⟩
  | 0x0C => some ⟨4, 1, .integer 8⟩
  | 0x0D => some ⟨1, 4, .integer 32⟩
  | _ => none

def TexFmt.isInt (f : TexFmt) : Bool := match f.conv with | .integer _ => true | _ => false
def TexFmt.bytes (f : TexFmt) : Nat := f.chans * f.size

/-- A valid record with the sampler word in force. -/
structure TexRec where
  type    : Nat
  fmt     : TexFmt
  top     : Nat
  w       : Nat
  h       : Nat
  d       : Nat
  base    : Nat
  sampler : Word
  border  : List Word64
  deriving DecidableEq, Repr, Inhabited

/-- A sampler word breaks R391. -/
def samplerBad (x : Word) : Bool := decide (x.toNat % 4 = 3) || decide (x.toNat / 2 ^ 24 ≠ 0)

/-- A record; none when it is null or breaks R389, by its own sampler word or by one put in its place. -/
def texRec (bs : List Byte) (over_ : Option Word) : Option TexRec :=
  let ty := byteAt bs 0
  let own : Word := BitVec.ofNat 32 (numAt bs 0x18 4)
  let x := over_.getD own
  match texFmt (byteAt bs 1) with
  | none => none
  | some fm =>
    let wm := numAt bs 4 2
    let hm := numAt bs 6 2
    let dm := numAt bs 8 2
    if ty = 0 ∨ 4 < ty ∨ 16 ≤ byteAt bs 2 ∨ byteAt bs 3 ≠ 0 ∨ 32767 < wm ∨ (ty = 1 ∧ hm ≠ 0) ∨ (ty ≤ 2 ∧ dm ≠ 0) ∨
       !zeroAt bs 0xA 6 ∨ numAt bs 0x10 8 % 256 ≠ 0 ∨ samplerBad own ∨ samplerBad x ∨ !zeroAt bs 0x1C 4 ∨ !zeroAt bs 0x30 16 then none
    else some ⟨ty, fm, byteAt bs 2, wm + 1, hm + 1, dm + 1, numAt bs 0x10 8, x,
      tabulate 4 fun c => BitVec.ofNat 64 (numAt bs (0x20 + 4 * c) 4)⟩

def TexRec.filter (r : TexRec) : Nat := r.sampler.toNat % 4
def TexRec.mode (r : TexRec) (axis : Nat) : Nat := r.sampler.toNat / 2 ^ (2 + 2 * axis) % 4
def TexRec.minLod (r : TexRec) : Nat := r.sampler.toNat / 2 ^ 8 % 16
def TexRec.maxLod (r : TexRec) : Nat := min (r.sampler.toNat / 2 ^ 12 % 16) r.top
def TexRec.bias (r : TexRec) : Int := (r.sampler.extractLsb' 16 8).toInt

/-! ### Levels (R391) -/

def TexRec.wl (r : TexRec) (l : Nat) : Nat := max 1 (r.w / 2 ^ l)
def TexRec.hl (r : TexRec) (l : Nat) : Nat := max 1 (r.h / 2 ^ l)
def TexRec.dl (r : TexRec) (l : Nat) : Nat := if r.type = 4 then r.d else max 1 (r.d / 2 ^ l)
def TexRec.rowPitch (r : TexRec) (l : Nat) : Nat := 32 * ceilDiv (r.wl l * r.fmt.bytes) 32
def TexRec.slicePitch (r : TexRec) (l : Nat) : Nat := r.rowPitch l * r.hl l
/-- Where a level starts. -/
def TexRec.start (r : TexRec) : Nat → Nat
  | 0 => r.base
  | l + 1 => 256 * ceilDiv (TexRec.start r l + r.slicePitch l * r.dl l) 256
/-- The address of a texel. -/
def TexRec.addr (r : TexRec) (l x y z : Nat) : Nat :=
  (r.start l + z * r.slicePitch l + y * r.rowPitch l + x * r.fmt.bytes) % 2 ^ 64

/-! ### Channels (R90, R390) -/

/-- A ratio rounded once to FP32. -/
def ratio32 (n : Int) (d : Nat) : Word64 := ((FExact.ofRat false n d).round .f32 .rne).1

/-- A stored channel as FP32 bits, or raw for an integer format. -/
def chanVal (c : TexConv) (x : Nat) : Word64 :=
  match c with
  | .unorm b => ratio32 x (2 ^ b - 1)
  | .snorm b =>
    let v : Int := (BitVec.ofNat b x).toInt
    if v < -(2 ^ (b - 1) - 1) then 0xBF800000 else ratio32 v (2 ^ (b - 1) - 1)
  | .fp .f32 => BitVec.ofNat 64 x
  | .fp f => (fpCvt f .f32 .rne (BitVec.ofNat 64 x)).1
  | .integer _ => BitVec.ofNat 64 x

/-- The four channels of a texel's bytes. -/
def texelVal (f : TexFmt) (bs : List Byte) : List Word64 :=
  tabulate 4 fun c =>
    if c < f.chans then chanVal f.conv (numAt bs (c * f.size) f.size)
    else if c = 3 then (if f.isInt then 1 else 0x3F800000) else 0

/-- A texel of a level read and converted. -/
def State.texel (s : State) (rd : Reader) (r : TexRec) (l x y z : Nat) : State × Acc (List Word64) :=
  andThen (s.unitLoad rd (r.addr l x y z) r.fmt.bytes) fun s bs => (s, .ok (texelVal r.fmt bs))

/-- A texel at coordinates under the address modes; a 1D or 2D texture has no mode on the axes it lacks, and an array
none on its layers (R394). -/
def State.texelAt (s : State) (rd : Reader) (r : TexRec) (l : Nat) (x y z : Int) : State × Acc (List Word64) :=
  let cy := if r.type = 1 then some 0 else boxCoord (r.mode 1) (r.hl l) y
  let cz := if r.type = 3 then boxCoord (r.mode 2) (r.dl l) z else some z.toNat
  match boxCoord (r.mode 0) (r.wl l) x, cy, cz with
  | some x, some y, some z => s.texel rd r l x y z
  | _, _, _ => (s, .ok r.border)

/-! ### Coordinates and level of detail (R89, R91, R394) -/

/-- n / d rounded RNE to a multiple of 2^-8, in units of 2^-8. -/
def round8 (n : Int) (d : Nat) : Int :=
  let t := (roundGrid .rne (decide (n < 0)) n.natAbs d (-8)).1
  if n < 0 then -(t : Int) else t

/-- The coordinate u · W, less one half for filtering, in units of 2^-8. -/
def texCoord (u : Word64) (w : Nat) (half : Bool) : Int :=
  let bound : Int := 2 ^ 20
  let lim := fun (n : Int) (d : Nat) =>
    if n < -(bound * d) then -(bound * 256) else if bound * d < n then bound * 256 else round8 n d
  match f32v u with
  | .nan _ => if half then -128 else 0
  | .inf s => if s then -(bound * 256) else bound * 256
  | .fin s n d => lim (2 * sgn s n * w - (if half then (d : Int) else 0)) (2 * d)

/-- λ in units of 2^-8. Where the sampler's range is empty no value is stated, and λ is a free value that a level of
the record meets (log 11). -/
def State.lod (s : State) (r : TexRec) (lam : Word64) : Nat × State :=
  let lo := r.minLod
  let hi := r.maxLod
  if hi < lo then
    let (v, s) := s.free
    (v.toNat % (256 * hi + 1), s)
  else
    let x := f32v (((exactAdd .rne (f32v lam) (.fin (decide (r.bias < 0)) r.bias.natAbs 16)).round .f32 .rne).1)
    let q := match x with
      | .nan _ => 256 * lo
      | .inf n => if n then 256 * lo else 256 * hi
      | .fin n a b => (min (max (round8 (sgn n a) b) (256 * lo)) (256 * hi)).toNat
    (q, s)

/-- The level of nearest and bilinear filtering. -/
def lodLevel (q : Nat) : Nat := (q + 128) / 256

/-- The array layer RNE(w), clamped (R394). -/
def texLayer (r : TexRec) (w : Word64) : Int :=
  max 0 (min (fpToInt .f32 true 32 .rne w).1 ((r.d : Int) - 1))

/-! ### Filtering (R91, R394) -/

/-- 2^-8 and 2^-16 as FP32. -/
def two8 : Word64 := 0x3B800000
def two16 : Word64 := 0x37800000

/-- x × (256 − f) + y × f. -/
def blend (x y : Word64) (f : Nat) : Word64 := sum32 (prod32 x (nat32 (256 - f))) (prod32 y (nat32 f))

/-- The address of a lane's sample: u, v, w and the texel offsets. -/
structure TexArg where
  u  : Word64
  v  : Word64
  w  : Word64
  ox : Int
  oy : Int
  oz : Int
  deriving DecidableEq, Repr, Inhabited

/-- The four texels of a bilinear fetch in a slice (R89). -/
def State.quad (s : State) (rd : Reader) (r : TexRec) (l : Nat) (a : TexArg) (z : Int) : State × Acc (List (List Word64)) :=
  let i := texCoord a.u (r.wl l) true / 256 + a.ox
  let j := texCoord a.v (r.hl l) true / 256 + a.oy
  andThen (s.texelAt rd r l i j z) fun s t00 => andThen (s.texelAt rd r l (i + 1) j z) fun s t10 =>
    if r.type = 1 then (s, .ok [t00, t10, [], []])
    else andThen (s.texelAt rd r l i (j + 1) z) fun s t01 => andThen (s.texelAt rd r l (i + 1) (j + 1) z) fun s t11 =>
      (s, .ok [t00, t10, t01, t11])

/-- One slice filtered (R91); a 1D texture gives row 0 alone. -/
def filterQuad (r : TexRec) (l : Nat) (a : TexArg) (t : List (List Word64)) : List Word64 :=
  let fx := (texCoord a.u (r.wl l) true % 256).toNat
  let fy := (texCoord a.v (r.hl l) true % 256).toNat
  tabulate 4 fun c =>
    let x := fun (k : Nat) => (t.getD k []).getD c 0
    let r0 := blend (x 0) (x 1) fx
    if r.type = 1 then prod32 r0 two8 else prod32 (blend r0 (blend (x 2) (x 3) fx) fy) two16

/-- A bilinear fetch of a level, between slices for a 3D texture (R394). -/
def State.bilinear (s : State) (rd : Reader) (r : TexRec) (l : Nat) (a : TexArg) : State × Acc (List Word64) :=
  if r.type = 3 then
    let cz := texCoord a.w (r.dl l) true
    let k := cz / 256 + a.oz
    let fz := (cz % 256).toNat
    andThen (s.quad rd r l a k) fun s t0 => andThen (s.quad rd r l a (k + 1)) fun s t1 =>
      let b0 := filterQuad r l a t0
      let b1 := filterQuad r l a t1
      (s, .ok (tabulate 4 fun c => prod32 (blend (b0.getD c 0) (b1.getD c 0) fz) two8))
  else
    let z := if r.type = 4 then texLayer r a.w else 0
    andThen (s.quad rd r l a z) fun s t => (s, .ok (filterQuad r l a t))

/-- A nearest fetch of a level (R394). -/
def State.nearest (s : State) (rd : Reader) (r : TexRec) (l : Nat) (a : TexArg) : State × Acc (List Word64) :=
  let at_ := fun (u : Word64) (n : Nat) => texCoord u n false / 256
  let z := if r.type = 3 then at_ a.w (r.dl l) + a.oz else if r.type = 4 then texLayer r a.w else 0
  s.texelAt rd r l (at_ a.u (r.wl l) + a.ox) (at_ a.v (r.hl l) + a.oy) z

/-- TEX.SMP of one lane through a valid record (R394). -/
def State.sample (s : State) (rd : Reader) (r : TexRec) (a : TexArg) (lam : Word64) : State × Acc (List Word64) :=
  let (q, s) := s.lod r lam
  if r.filter = 0 ∨ r.fmt.isInt then s.nearest rd r (lodLevel q) a
  else if r.filter = 1 then s.bilinear rd r (lodLevel q) a
  else
    let l := q / 256
    let fl := q % 256
    andThen (s.bilinear rd r l a) fun s b0 =>
      if l = r.top then (s, .ok b0)
      else andThen (s.bilinear rd r (l + 1) a) fun s b1 =>
        (s, .ok (tabulate 4 fun c => prod32 (blend (b0.getD c 0) (b1.getD c 0) fl) two8))

/-- TEX.GTHR of one lane through a valid record (R394). A 1D texture has row 0 alone and a 3D texture names no slice:
those texels are free values (log 11). -/
def State.gather (s : State) (rd : Reader) (r : TexRec) (a : TexArg) (lam : Word64) (ch : Nat) : State × Acc (List Word64) :=
  let (q, s) := s.lod r lam
  let (x, s) := s.free
  let (y, s) := s.free
  if r.type = 3 then (s, .ok [x, x >>> 32, y, y >>> 32])
  else
    let z := if r.type = 4 then texLayer r a.w else 0
    andThen (s.quad rd r (lodLevel q) a z) fun s t =>
      let v := fun (k : Nat) => (t.getD k []).getD ch 0
      (s, .ok [v 0, v 1, if r.type = 1 then x else v 2, if r.type = 1 then y else v 3])

/-- TEX.LD of one lane through a valid record (R394). -/
def State.fetchTexel (s : State) (rd : Reader) (r : TexRec) (x y z l : Int) : State × Acc (List Word64) :=
  let ok := fun (v : Int) (n : Nat) => decide (0 ≤ v) && decide (v < n)
  if ok l (r.top + 1) && ok x (r.wl l.toNat) && ok y (r.hl l.toNat) && ok z (r.dl l.toNat) then
    s.texel rd r l.toNat x.toNat y.toNat z.toNat
  else (s, .ok [0, 0, 0, 0])

/-! ### The instructions (R393) -/

/-- The record that a lane names (R389, R392). -/
def State.laneRecord (s : State) (rd : Reader) (heap : Nat) (idx : Word64) : State × Acc (List Byte) :=
  s.unitLoad rd ((heap + 64 * idx.toNat) % 2 ^ 64) 64

/-- The argument of a lane from its block and the offsets of E64. -/
def Wave.texArg (w : Wave) (f : Fields) (l : Nat) : TexArg :=
  let x := (w.spanLane f.a 4 l).map fun v => (v.setWidth 64 : Word64)
  let off := fun (k : Nat) => (f.ext.extractLsb' (4 * k) 4).toInt
  ⟨x.getD 0 0, x.getD 1 0, x.getD 2 0, off 0, off 1, off 2⟩

/-- λ before the sampler's bias: 0 under .l0 (R394). -/
def Wave.texLam (w : Wave) (f : Fields) (l : Nat) : Word64 :=
  if f.mbits 1 0 = 1 then (((w.spanLane f.a 4 l).getD 3 0).setWidth 64) else 0

/-- The sampler word of E64, when it stands in place of the record's. -/
def samplerOver (f : Fields) : Option Word := if f.ext.getLsbD 12 then some (f.ext.extractLsb' 16 32) else Option.none

def words4 (x : List Word64) : List Word := x.map lo32

/-- TEX.SMP (R393, R394). -/
def execTexSmp (f : Fields) (s : State) : Out :=
  s.front (.texSmp f) f .dest false fun s w =>
    let rd := s.readerOf w
    let idx := s.srcB w (.int 32) false f
    let heap := (s.readS w (.int 64) f.c).toNat
    s.unitLanes w f 4 fun s l =>
      andThen (s.laneRecord rd heap (laneOf idx l)) fun s bs =>
        match texRec bs (samplerOver f) with
        | Option.none => (s, .ok [0, 0, 0, 0])
        | some r => andThen (s.sample rd r (w.texArg f l) (w.texLam f l)) fun s x => (s, .ok (words4 x))

/-- TEX.GTHR (R393, R394). -/
def execTexGthr (f : Fields) (s : State) : Out :=
  s.front (.texGthr f) f .dest false fun s w =>
    let rd := s.readerOf w
    let idx := s.srcB w (.int 32) false f
    let heap := (s.readS w (.int 64) f.c).toNat
    s.unitLanes w f 4 fun s l =>
      andThen (s.laneRecord rd heap (laneOf idx l)) fun s bs =>
        match texRec bs (samplerOver f) with
        | Option.none => (s, .ok [0, 0, 0, 0])
        | some r => andThen (s.gather rd r (w.texArg f l) (w.texLam f l) (f.mbits 3 2)) fun s x => (s, .ok (words4 x))

/-- TEX.LD (R393, R394). -/
def execTexLd (f : Fields) (s : State) : Out :=
  s.front (.texLd f) f .dest false fun s w =>
    let rd := s.readerOf w
    let idx := s.srcB w (.int 32) false f
    let heap := (s.readS w (.int 64) f.c).toNat
    s.unitLanes w f 4 fun s l =>
      andThen (s.laneRecord rd heap (laneOf idx l)) fun s bs =>
        match texRec bs Option.none with
        | Option.none => (s, .ok [0, 0, 0, 0])
        | some r =>
          let c := fun (k : Nat) => ((w.spanLane f.a 4 l).getD k 0).toInt
          andThen (s.fetchTexel rd r (c 0) (c 1) (c 2) (c 3)) fun s x => (s, .ok (words4 x))

/-- REC.LD (R393, R394): words F to F + N − 1 of the record, raw. -/
def execRecLd (f : Fields) (s : State) : Out :=
  s.front (.recLd f) f .dest false fun s w =>
    let rd := s.readerOf w
    let idx := s.srcA w (.int 32) f
    let heap := (s.readS w (.int 64) f.b).toNat
    let n := f.mbits 6 4 + 1
    s.unitLanes w f n fun s l =>
      andThen (s.laneRecord rd heap (laneOf idx l)) fun s bs =>
        (s, .ok (tabulate n fun k => BitVec.ofNat 32 (numAt bs (4 * (f.mbits 3 0 + k)) 4)))

end Sys2Proof.Machine
end

