-- ==== Sys2Proof/Machine/Dispatch.lean ====
section
/-! DEFINITION. One arm for each constructor of Instr: a direct call of its meaning. -/

namespace Sys2Proof.Machine

def exec (i : Instr) (s : State) : Host.Outcome State Fault Refusal :=
  match i with
  | .nop f => Sys2Proof.Machine.execNop f s
  | .trap f => Sys2Proof.Machine.execTrap f s
  | .tret f => Sys2Proof.Machine.execTret f s
  | .upcall f => Sys2Proof.Machine.execUpcall f s
  | .sysRd f => Sys2Proof.Machine.execSysRd f s
  | .sysWr f => Sys2Proof.Machine.execSysWr f s
  | .sleep f => Sys2Proof.Machine.execSleep f s
  | .sleepDeadline w => Sys2Proof.Machine.execSleepDeadline w s
  | .bra f => Sys2Proof.Machine.execBra f s
  | .brez f => Sys2Proof.Machine.execBrez f s
  | .brx f => Sys2Proof.Machine.execBrx f s
  | .ret f => Sys2Proof.Machine.execRet f s
  | .call f => Sys2Proof.Machine.execCall f s
  | .exit f => Sys2Proof.Machine.execExit f s
  | .rep f => Sys2Proof.Machine.execRep f s
  | .repIteration op f => Sys2Proof.Machine.execRepIteration op f s
  | .loopPin f => Sys2Proof.Machine.execLoopPin f s
  | .loopEnd f => Sys2Proof.Machine.execLoopEnd f s
  | .yield f => Sys2Proof.Machine.execYield f s
  | .kAnd f => Sys2Proof.Machine.execKAnd f s
  | .kOr f => Sys2Proof.Machine.execKOr f s
  | .kXor f => Sys2Proof.Machine.execKXor f s
  | .kAndn f => Sys2Proof.Machine.execKAndn f s
  | .kNot f => Sys2Proof.Machine.execKNot f s
  | .kMov f => Sys2Proof.Machine.execKMov f s
  | .kLd f => Sys2Proof.Machine.execKLd f s
  | .kSt f => Sys2Proof.Machine.execKSt f s
  | .kPopc f => Sys2Proof.Machine.execKPopc f s
  | .kFirst f => Sys2Proof.Machine.execKFirst f s
  | .kTestAny f => Sys2Proof.Machine.execKTestAny f s
  | .kTestAll f => Sys2Proof.Machine.execKTestAll f s
  | .movxRd f => Sys2Proof.Machine.execMovxRd f s
  | .movxWr f => Sys2Proof.Machine.execMovxWr f s
  | .xset f => Sys2Proof.Machine.execXset f s
  | .xadd f => Sys2Proof.Machine.execXadd f s
  | .regGrow f => Sys2Proof.Machine.execRegGrow f s
  | .regShrink f => Sys2Proof.Machine.execRegShrink f s
  | .feWait f => Sys2Proof.Machine.execFeWait f s
  | .feWaitAll f => Sys2Proof.Machine.execFeWaitAll f s
  | .icInv f => Sys2Proof.Machine.execIcInv f s
  | .grpInfo f => Sys2Proof.Machine.execGrpInfo f s
  | .sAdd f => Sys2Proof.Machine.execSAdd f s
  | .sSub f => Sys2Proof.Machine.execSSub f s
  | .sMul f => Sys2Proof.Machine.execSMul f s
  | .sMulh f => Sys2Proof.Machine.execSMulh f s
  | .sAnd f => Sys2Proof.Machine.execSAnd f s
  | .sOr f => Sys2Proof.Machine.execSOr f s
  | .sXor f => Sys2Proof.Machine.execSXor f s
  | .sAndn f => Sys2Proof.Machine.execSAndn f s
  | .sShl f => Sys2Proof.Machine.execSShl f s
  | .sShr f => Sys2Proof.Machine.execSShr f s
  | .sSar f => Sys2Proof.Machine.execSSar f s
  | .sRot f => Sys2Proof.Machine.execSRot f s
  | .sMin f => Sys2Proof.Machine.execSMin f s
  | .sMax f => Sys2Proof.Machine.execSMax f s
  | .sCmp f => Sys2Proof.Machine.execSCmp f s
  | .sSel f => Sys2Proof.Machine.execSSel f s
  | .sMov f => Sys2Proof.Machine.execSMov f s
  | .sMovi f => Sys2Proof.Machine.execSMovi f s
  | .sBfe f => Sys2Proof.Machine.execSBfe f s
  | .sBfi f => Sys2Proof.Machine.execSBfi f s
  | .sPopc f => Sys2Proof.Machine.execSPopc f s
  | .sClz f => Sys2Proof.Machine.execSClz f s
  | .sAdd64 f => Sys2Proof.Machine.execSAdd64 f s
  | .cLop f => Sys2Proof.Machine.execCLop f s
  | .vAdd f => Sys2Proof.Machine.execVAdd f s
  | .vSub f => Sys2Proof.Machine.execVSub f s
  | .vMul f => Sys2Proof.Machine.execVMul f s
  | .vMulh f => Sys2Proof.Machine.execVMulh f s
  | .mad f => Sys2Proof.Machine.execMad f s
  | .madw f => Sys2Proof.Machine.execMadw f s
  | .vAnd f => Sys2Proof.Machine.execVAnd f s
  | .vOr f => Sys2Proof.Machine.execVOr f s
  | .vXor f => Sys2Proof.Machine.execVXor f s
  | .vAndn f => Sys2Proof.Machine.execVAndn f s
  | .vShl f => Sys2Proof.Machine.execVShl f s
  | .vShr f => Sys2Proof.Machine.execVShr f s
  | .vSar f => Sys2Proof.Machine.execVSar f s
  | .vRot f => Sys2Proof.Machine.execVRot f s
  | .vMin f => Sys2Proof.Machine.execVMin f s
  | .vMax f => Sys2Proof.Machine.execVMax f s
  | .vAbs f => Sys2Proof.Machine.execVAbs f s
  | .vCmp f => Sys2Proof.Machine.execVCmp f s
  | .vSel f => Sys2Proof.Machine.execVSel f s
  | .vBfe f => Sys2Proof.Machine.execVBfe f s
  | .vBfi f => Sys2Proof.Machine.execVBfi f s
  | .vPopc f => Sys2Proof.Machine.execVPopc f s
  | .vClz f => Sys2Proof.Machine.execVClz f s
  | .vBrev f => Sys2Proof.Machine.execVBrev f s
  | .vAdd64 f => Sys2Proof.Machine.execVAdd64 f s
  | .prmt f => Sys2Proof.Machine.execPrmt f s
  | .dot4 f => Sys2Proof.Machine.execDot4 f s
  | .shflIdx f => Sys2Proof.Machine.execShflIdx f s
  | .shflXor f => Sys2Proof.Machine.execShflXor f s
  | .shflUp f => Sys2Proof.Machine.execShflUp f s
  | .shflDown f => Sys2Proof.Machine.execShflDown f s
  | .rdlane f => Sys2Proof.Machine.execRdlane f s
  | .wrlane f => Sys2Proof.Machine.execWrlane f s
  | .matchLanes f => Sys2Proof.Machine.execMatchLanes f s
  | .redux f => Sys2Proof.Machine.execRedux f s
  | .scan f => Sys2Proof.Machine.execScan f s
  | .fadd f => Sys2Proof.Machine.execFadd f s
  | .fsub f => Sys2Proof.Machine.execFsub f s
  | .fmul f => Sys2Proof.Machine.execFmul f s
  | .ffma f => Sys2Proof.Machine.execFfma f s
  | .fmin f => Sys2Proof.Machine.execFmin f s
  | .fmax f => Sys2Proof.Machine.execFmax f s
  | .fcmp f => Sys2Proof.Machine.execFcmp f s
  | .fclass f => Sys2Proof.Machine.execFclass f s
  | .frnd f => Sys2Proof.Machine.execFrnd f s
  | .dadd f => Sys2Proof.Machine.execDadd f s
  | .dmul f => Sys2Proof.Machine.execDmul f s
  | .dfma f => Sys2Proof.Machine.execDfma f s
  | .dcmp f => Sys2Proof.Machine.execDcmp f s
  | .dminmax f => Sys2Proof.Machine.execDminmax f s
  | .fcvt f => Sys2Proof.Machine.execFcvt f s
  | .f2i f => Sys2Proof.Machine.execF2i f s
  | .i2f f => Sys2Proof.Machine.execI2f f s
  | .fldexp f => Sys2Proof.Machine.execFldexp f s
  | .ffrexp f => Sys2Proof.Machine.execFfrexp f s
  | .fexp2f f => Sys2Proof.Machine.execFexp2f f s
  | .flog2 f => Sys2Proof.Machine.execFlog2 f s
  | .frcp f => Sys2Proof.Machine.execFrcp f s
  | .frsq f => Sys2Proof.Machine.execFrsq f s
  | .fsqrt f => Sys2Proof.Machine.execFsqrt f s
  | .fsinr f => Sys2Proof.Machine.execFsinr f s
  | .fcosr f => Sys2Proof.Machine.execFcosr f s
  | .fdot2 f => Sys2Proof.Machine.execFdot2 f s
  | .fqni f => Sys2Proof.Machine.execFqni f s
  | .fdqni f => Sys2Proof.Machine.execFdqni f s
  | .reduxF f => Sys2Proof.Machine.execReduxF f s
  | .xaAdd f => Sys2Proof.Machine.execXaAdd f s
  | .xaRnd f => Sys2Proof.Machine.execXaRnd f s
  | .ld f => Sys2Proof.Machine.execLd f s
  | .st f => Sys2Proof.Machine.execSt f s
  | .ldK f => Sys2Proof.Machine.execLdK f s
  | .sLd f => Sys2Proof.Machine.execSLd f s
  | .sSt f => Sys2Proof.Machine.execSSt f s
  | .ldS f => Sys2Proof.Machine.execLdS f s
  | .stS f => Sys2Proof.Machine.execStS f s
  | .atom f => Sys2Proof.Machine.execAtom f s
  | .atomS f => Sys2Proof.Machine.execAtomS f s
  | .red f => Sys2Proof.Machine.execRed f s
  | .fence f => Sys2Proof.Machine.execFence f s
  | .acqRs f => Sys2Proof.Machine.execAcqRs f s
  | .pref f => Sys2Proof.Machine.execPref f s
  | .discard f => Sys2Proof.Machine.execDiscard f s
  | .cpy f => Sys2Proof.Machine.execCpy f s
  | .cpyBox f => Sys2Proof.Machine.execCpyBox f s
  | .cpyClose f => Sys2Proof.Machine.execCpyClose f s
  | .cpyWait f => Sys2Proof.Machine.execCpyWait f s
  | .copyPiece c piece => Sys2Proof.Machine.execCopyPiece c piece s
  | .copyBatchComplete c => Sys2Proof.Machine.execCopyBatchComplete c s
  | .strmDef f => Sys2Proof.Machine.execStrmDef f s
  | .strmGo f => Sys2Proof.Machine.execStrmGo f s
  | .strmStop f => Sys2Proof.Machine.execStrmStop f s
  | .streamElementFetch w id => Sys2Proof.Machine.execStreamElementFetch w id s
  | .tileOpen f => Sys2Proof.Machine.execTileOpen f s
  | .tileClose f => Sys2Proof.Machine.execTileClose f s
  | .tileAcq f => Sys2Proof.Machine.execTileAcq f s
  | .tileRel f => Sys2Proof.Machine.execTileRel f s
  | .tileSplit f => Sys2Proof.Machine.execTileSplit f s
  | .tileQry f => Sys2Proof.Machine.execTileQry f s
  | .tenureGrant root => Sys2Proof.Machine.execTenureGrant root s
  | .tenureRenew root core => Sys2Proof.Machine.execTenureRenew root core s
  | .tenureExpiry root core => Sys2Proof.Machine.execTenureExpiry root core s
  | .leaseExpiry core sector => Sys2Proof.Machine.execLeaseExpiry core sector s
  | .writeCompletion id => Sys2Proof.Machine.execWriteCompletion id s
  | .longLatencyFill id => Sys2Proof.Machine.execLongLatencyFill id s
  | .pgProbe f => Sys2Proof.Machine.execPgProbe f s
  | .pgInvVa f => Sys2Proof.Machine.execPgInvVa f s
  | .pgInvCtx f => Sys2Proof.Machine.execPgInvCtx f s
  | .invalidationComplete id => Sys2Proof.Machine.execInvalidationComplete id s
  | .pgSync f => Sys2Proof.Machine.execPgSync f s
  | .bar f => Sys2Proof.Machine.execBar f s
  | .barArv f => Sys2Proof.Machine.execBarArv f s
  | .barWait f => Sys2Proof.Machine.execBarWait f s
  | .barDev f => Sys2Proof.Machine.execBarDev f s
  | .barDrainComplete cord g => Sys2Proof.Machine.execBarDrainComplete cord g s
  | .qpush f => Sys2Proof.Machine.execQpush f s
  | .qnotify f => Sys2Proof.Machine.execQnotify f s
  | .spawn f => Sys2Proof.Machine.execSpawn f s
  | .join f => Sys2Proof.Machine.execJoin f s
  | .joinInc f => Sys2Proof.Machine.execJoinInc f s
  | .emit f => Sys2Proof.Machine.execEmit f s
  | .nodePop f => Sys2Proof.Machine.execNodePop f s
  | .mosRsv f => Sys2Proof.Machine.execMosRsv f s
  | .mosRel f => Sys2Proof.Machine.execMosRel f s
  | .mosWr f => Sys2Proof.Machine.execMosWr f s
  | .mosFill f => Sys2Proof.Machine.execMosFill f s
  | .mosFillComplete id => Sys2Proof.Machine.execMosFillComplete id s
  | .mma f => Sys2Proof.Machine.execMma f s
  | .mmaSp f => Sys2Proof.Machine.execMmaSp f s
  | .mmaOperationComplete core side => Sys2Proof.Machine.execMmaOperationComplete core side s
  | .rtBox f => Sys2Proof.Machine.execRtBox f s
  | .rtTri f => Sys2Proof.Machine.execRtTri f s
  | .rtTriReg f => Sys2Proof.Machine.execRtTriReg f s
  | .rtTrace f => Sys2Proof.Machine.execRtTrace f s
  | .texSmp f => Sys2Proof.Machine.execTexSmp f s
  | .texLd f => Sys2Proof.Machine.execTexLd f s
  | .texGthr f => Sys2Proof.Machine.execTexGthr f s
  | .recLd f => Sys2Proof.Machine.execRecLd f s
  | .cutGo f => Sys2Proof.Machine.execCutGo f s
  | .cutJobRun die => Sys2Proof.Machine.execCutJobRun die s
  | .cutJobStatus die => Sys2Proof.Machine.execCutJobStatus die s
  | .rgnIn f => Sys2Proof.Machine.execRgnIn f s
  | .rgnOut f => Sys2Proof.Machine.execRgnOut f s
  | .brk f => Sys2Proof.Machine.execBrk f s
  | .prog f => Sys2Proof.Machine.execProg f s
  | .qpPost f => Sys2Proof.Machine.execQpPost f s
  | .coll f => Sys2Proof.Machine.execColl f s
  | .collWait f => Sys2Proof.Machine.execCollWait f s
  | .pair p => Sys2Proof.Machine.execPair p s
  | .illegalOp bits => Sys2Proof.Machine.execIllegalOp bits s
  | .breakpointMatch w => Sys2Proof.Machine.execBreakpointMatch w s
  | .stopTakesEffect w => Sys2Proof.Machine.execStopTakesEffect w s
  | .resumeContinue w => Sys2Proof.Machine.execResumeContinue w s
  | .resumeDeliver w => Sys2Proof.Machine.execResumeDeliver w s
  | .resumeStep w => Sys2Proof.Machine.execResumeStep w s
  | .sample core => Sys2Proof.Machine.execSample core s
  | .registerWrite r value => Sys2Proof.Machine.execRegisterWrite r value s
  | .freeze => Sys2Proof.Machine.execFreeze s
  | .pldmFreeze => Sys2Proof.Machine.execPldmFreeze s
  | .ctxCreate tag blk => Sys2Proof.Machine.execCtxCreate tag blk s
  | .ctxCommit tag blk => Sys2Proof.Machine.execCtxCommit tag blk s
  | .ctxDestroy tag blk => Sys2Proof.Machine.execCtxDestroy tag blk s
  | .destroyComplete tag => Sys2Proof.Machine.execDestroyComplete tag s
  | .inval tag addr len blk => Sys2Proof.Machine.execInval tag addr len blk s
  | .qpModifyInit qpn blk => Sys2Proof.Machine.execQpModifyInit qpn blk s
  | .qpModifyReady qpn blk => Sys2Proof.Machine.execQpModifyReady qpn blk s
  | .qpModifyActive qpn blk => Sys2Proof.Machine.execQpModifyActive qpn blk s
  | .qpModifyDrain qpn blk => Sys2Proof.Machine.execQpModifyDrain qpn blk s
  | .qpModifyReset qpn blk => Sys2Proof.Machine.execQpModifyReset qpn blk s
  | .qpDrained qpn => Sys2Proof.Machine.execQpDrained qpn s
  | .portEnable port blk => Sys2Proof.Machine.execPortEnable port blk s
  | .portDisable port blk => Sys2Proof.Machine.execPortDisable port blk s
  | .portQuiesce port blk => Sys2Proof.Machine.execPortQuiesce port blk s
  | .portResume port blk => Sys2Proof.Machine.execPortResume port blk s
  | .portRetrain port blk => Sys2Proof.Machine.execPortRetrain port blk s
  | .linkUp port width => Sys2Proof.Machine.execLinkUp port width s
  | .trainingTimeout port => Sys2Proof.Machine.execTrainingTimeout port s
  | .versionNegotiation port major minor peer => Sys2Proof.Machine.execVersionNegotiation port major minor peer s
  | .laneLoss port width => Sys2Proof.Machine.execLaneLoss port width s
  | .replayLimitExceeded port => Sys2Proof.Machine.execReplayLimitExceeded port s
  | .commCreate tag index list n rank timeout blk => Sys2Proof.Machine.execCommCreate tag index list n rank timeout blk s
  | .cutSubmit tag addr blk => Sys2Proof.Machine.execCutSubmit tag addr blk s
  | .retireRead dest blk => Sys2Proof.Machine.execRetireRead dest blk s
  | .hbmMap dest blk => Sys2Proof.Machine.execHbmMap dest blk s
  | .nkwake value => Sys2Proof.Machine.execNkwake value s
  | .eventPost die => Sys2Proof.Machine.execEventPost die s
  | .doorbell tag q => Sys2Proof.Machine.execDoorbell tag q s
  | .queueMap slot => Sys2Proof.Machine.execQueueMap slot s
  | .sliceEnd slot => Sys2Proof.Machine.execSliceEnd slot s
  | .recordTake slot => Sys2Proof.Machine.execRecordTake slot s
  | .recordExpand slot => Sys2Proof.Machine.execRecordExpand slot s
  | .cordPlace slot => Sys2Proof.Machine.execCordPlace slot s
  | .cordRetire cord => Sys2Proof.Machine.execCordRetire cord s
  | .recordRetire rec => Sys2Proof.Machine.execRecordRetire rec s
  | .successorRelease die => Sys2Proof.Machine.execSuccessorRelease die s
  | .queueResume tag q => Sys2Proof.Machine.execQueueResume tag q s
  | .drainEnd tag => Sys2Proof.Machine.execDrainEnd tag s
  | .drainTimeout tag => Sys2Proof.Machine.execDrainTimeout tag s
  | .contextResume tag => Sys2Proof.Machine.execContextResume tag s
  | .cordRestore tag => Sys2Proof.Machine.execCordRestore tag s
  | .raygenRun rec => Sys2Proof.Machine.execRaygenRun rec s
  | .raygenComplete rec => Sys2Proof.Machine.execRaygenComplete rec s
  | .collectiveRun id ranks => Sys2Proof.Machine.execCollectiveRun id ranks s
  | .collectiveComplete id => Sys2Proof.Machine.execCollectiveComplete id s
  | .collectiveTimeout id => Sys2Proof.Machine.execCollectiveTimeout id s
  | .workRequestTake qpn => Sys2Proof.Machine.execWorkRequestTake qpn s
  | .packetReceive port qpn p => Sys2Proof.Machine.execPacketReceive port qpn p s
  | .ackReceive qpn a => Sys2Proof.Machine.execAckReceive qpn a s
  | .sequenceNak qpn epsn => Sys2Proof.Machine.execSequenceNak qpn epsn s
  | .ackTimeout qpn => Sys2Proof.Machine.execAckTimeout qpn s
  | .receiverNotReady qpn => Sys2Proof.Machine.execReceiverNotReady qpn s
  | .qpContextFetch die qpn => Sys2Proof.Machine.execQpContextFetch die qpn s
  | .hostBar2Access port a => Sys2Proof.Machine.execHostBar2Access port a s
  | .hostAtomicop port a => Sys2Proof.Machine.execHostAtomicop port a s
  | .backInvalidationSnoop sector => Sys2Proof.Machine.execBackInvalidationSnoop sector s
  | .reset => Sys2Proof.Machine.execReset s
  | .recoveryImageWrite image => Sys2Proof.Machine.execRecoveryImageWrite image s
  | .spdmGetMeasurements index => Sys2Proof.Machine.execSpdmGetMeasurements index s
  | .pldmSetLimit l value => Sys2Proof.Machine.execPldmSetLimit l value s
  | .pldmFirmwareUpdate image => Sys2Proof.Machine.execPldmFirmwareUpdate image s
  | .droopDetect rick => Sys2Proof.Machine.execDroopDetect rick s
  | .droopRecover rick => Sys2Proof.Machine.execDroopRecover rick s
  | .clockStepDown => Sys2Proof.Machine.execClockStepDown s
  | .clockStepUp => Sys2Proof.Machine.execClockStepUp s
  | .telemetryRefresh t => Sys2Proof.Machine.execTelemetryRefresh t s
  | .thermtrip => Sys2Proof.Machine.execThermtrip s
  | .powerRemoval => Sys2Proof.Machine.execPowerRemoval s
  | .writeAcceptance id => Sys2Proof.Machine.execWriteAcceptance id s
  | .poolWriteAcknowledge id => Sys2Proof.Machine.execPoolWriteAcknowledge id s
  | .kindlingInstruction hart op => Sys2Proof.Machine.execKindlingInstruction hart op s
  | .measurementExtend r x => Sys2Proof.Machine.execMeasurementExtend r x s
  | .d3hotTransition port into => Sys2Proof.Machine.execD3hotTransition port into s
  | .linkL1Transition port into => Sys2Proof.Machine.execLinkL1Transition port into s

end Sys2Proof.Machine
end

