-- ==== Sys2Proof/Machine/Issue.lean ====
section
/-! DEFINITION. A wave's turn: whether it may issue, what the debug unit does first, the fetch of its instruction, the checks
of R40 that come before decoding, one iteration under REP, and what follows an issue (spec/02_formats.md R20, R40,
spec/08_wave.md R147, R157, R161, spec/22_debug.md R438 to R443). -/

namespace Sys2Proof.Machine

/-- YIELD lets a wave issue again once every other ready wave of its partition has issued, or 64 clocks have passed (R161). -/
def Wave.yieldOver (w : Wave) (clk : Nat) : Bool :=
  match w.yield with
  | none => true
  | some (t, l) => l.isEmpty || decide (t ≤ clk)

/-- A wave may take a turn now. -/
def State.mayTurn (s : State) (w : Wave) : Bool := s.canIssue w && w.yieldOver (s.rickClk w.unit)

/-- An instruction that issued and does not wait to be executed again ends the wave's exemption from breakpoints (R439),
leaves no answer of a first-touch unit behind (R309), and counts for the waves of its partition that yielded (R161). -/
def State.issued (s : State) (id : WaveId) : State :=
  match s.waveAt id with
  | none => s.dropAnswers fun a => a.wave == some id
  | some w =>
    if w.wait.again then s
    else
      let s := s.dropAnswers fun a => a.wave == some id
      { s with waves := s.waves.map fun (x : Wave) =>
      if x.id = id then { x with exempt := false }
      else { x with yield := x.yield.map fun p => (p.1, p.2.erase id) } }

/-- REP may repeat the word (R157). -/
def repWord (b : BitVec 128) : Bool := (b.extractLsb' 0 2).toNat == 0 && repEligible (b.extractLsb' 2 8).toNat

/-- The instruction in the bits at the PC executes: the checks of R40 in their order. Under REP it is an iteration, and a
word that REP does not take ends the count (R157). -/
def State.run (s : State) (w : Wave) (b : BitVec 128) : Out :=
  if w.rep ≠ 0 ∧ ¬ repWord b then (s.modMe fun w => { w with rep := 0 }).trap 0x01 w.exec (b.setWidth 64)
  else match decodeBits b with
    | .error _ => s.trap 0x02 w.exec (b.setWidth 64)
    | .ok i =>
      if w.rep = 0 then exec i s
      else match i.opFields with
        | some (op, f) => exec (.repIteration op f) s
        | none => exec i s

/-- The wave whose turn it is fetches and executes (R20, R40). -/
def State.fetchRun (s : State) : Out :=
  match s.me with
  | none => .next s
  | some w => s.fetch w fun s bs =>
    let off := w.pc.toNat % 32
    let b := blockBits bs off
    if splits bs off then s.trap 0x03 w.exec (b.setWidth 64) else s.run w b

/-- What follows an outcome. -/
def Out.andAlso (o : Out) (f : State → State) : Out :=
  match o with
  | .next s => .next (f s)
  | .fault r => .fault r
  | .refused r => .refused r

/-- The wave has issued its instruction: it does not wait to execute it again. -/
def State.hasIssued (s : State) (id : WaveId) : Bool := !((s.waveAt id).any fun w => w.wait.again)

/-- A wave's turn. A wave that may not issue lets it pass. An issue that a trial holds is made once it has been held (R443). -/
def State.issue (s : State) (id : WaveId) : Out :=
  match s.waveAt id with
  | none => .next s
  | some w =>
    if !s.mayTurn w then .next s
    else
      let s := { s with cur := s.indexOf id, serial := s.serial + 1 }.modMe fun w => { w with yield := none }
      match s.debugHalt w with
      | some t => .next t
      | none =>
        match s.fetchRun with
        | .next t =>
          if !t.hasIssued id then .next (t.issued id)
          else if s.trialHolds w then .next (s.trialHold w)
          else .next ((t.trialIssue s w).issued id)
        | o => o

end Sys2Proof.Machine
end

