-- ==== Sys2Proof/Machine/Due.lean ====
section
/-! DEFINITION. What the device does of itself when nothing is on the agenda: the events whose conditions hold, in a fixed
order (log 1), each by the meaning of its row; and what every turn ends with. An event that the outside world
brings (a packet, an answer, a sensor's reading, a level on a pin) comes by the agenda. -/

namespace Sys2Proof.Machine

/-- A next state that differs; the order in which the lines of L2 were used, and what a retry caches, is no progress. -/
def State.progress (s : State) (o : Out) : Option State :=
  match o with
  | .next t => if { t with l2 := s.l2, tlb := s.tlb, walks := s.walks } = s then none else some t
  | _ => none

/-- The first of a list that makes progress. -/
def State.firstDue {α : Type} (s : State) (l : List α) (f : α → Out) : Option State := l.findSome? fun a => s.progress (f a)

/-! ### Memory and tenures -/

/-- The first access of each die's first-touch unit that it has not answered. -/
def State.touchHeads (s : State) : List Touch :=
  [0, 1].filterMap fun d => s.touches.find? fun t => t.die == d && t.active

def State.dueMemory (s : State) : Option State :=
  s.firstDue s.writes (fun w => execWriteCompletion w.id s) <|>
  s.firstDue s.writes (fun w => execWriteAcceptance w.id s) <|>
  s.firstDue (s.writes.filter fun w => w.pool) (fun w => execPoolWriteAcknowledge w.id s) <|>
  s.firstDue (s.l1.filter fun l => !s.l1Valid l) (fun l => execLeaseExpiry l.core l.pa s) <|>
  s.firstDue s.fills (fun f => execLongLatencyFill f.id s) <|>
  s.firstDue s.touchHeads (fun t => .next (s.serveTouch t)) <|>
  s.progress (.next s.ringAgain) <|>
  s.progress (.next s.wakeAgain)

def State.dueTenure (s : State) : Option State :=
  let held := s.handles.flatMap fun h => h.tenures.map fun t => (h.id, t.core)
  s.firstDue (s.handles.filter s.mayGrant) (fun h => execTenureGrant h.id s) <|>
  s.firstDue held (fun x => execTenureExpiry x.1 x.2 s) <|>
  s.firstDue held (fun x => execTenureRenew x.1 x.2 s)

/-- Invalidations, and INVAL commands whose invalidation has taken effect. -/
def State.dueInval (s : State) : Option State :=
  s.firstDue (s.allInvals.filter fun i => !i.done) (fun i => execInvalidationComplete i.id s) <|>
  s.progress (.next s.endCommands)

/-! ### Engines -/

def State.dueCopies (s : State) : Option State :=
  let batches := s.waves.flatMap fun w => w.batches.map fun b => (CopyRef.batch (waveNum w.id) b.number, b.pieces)
  let recs := s.recs.filterMap fun r => match r.stage with | .copying l => some (CopyRef.record r.uid, l) | _ => none
  let all := batches ++ recs
  let todo := all.flatMap fun x => ((List.range x.2.length).filter fun i => (x.2[i]?).any fun p => p.st.open).map fun i => (x.1, i)
  s.firstDue todo (fun x => execCopyPiece x.1 x.2 s) <|>
  s.firstDue (all.map fun x => x.1) (fun c => execCopyBatchComplete c s)

def State.dueEngines (s : State) : Option State :=
  let streams := s.waves.flatMap fun w => (w.streams.filter fun x => x.run == .running).map fun x => (w.id, x.id)
  s.firstDue s.cords (fun c => (c.bars.findSome? fun b => s.progress (execBarDrainComplete c.uid b.group s)).elim (.next s) .next) <|>
  s.dueCopies <|>
  s.firstDue streams (fun x => execStreamElementFetch x.1 x.2 s) <|>
  s.firstDue s.mosFills (fun f => execMosFillComplete f.id s) <|>
  s.firstDue s.mmaOps (fun o => execMmaOperationComplete o.core o.side s)

/-- Cut jobs that wait for an entry, whose context has gone on or whose die's queue has room (R378, R434). -/
def State.dueCutWait (s : State) : Option State :=
  s.firstDue s.cutWaits fun c => .next (s.cutAgain c)

def State.dueJobs (s : State) : Option State :=
  s.firstDue [0, 1] (fun d => execCutJobStatus d s) <|>
  s.firstDue [0, 1] (fun d => execCutJobRun d s) <|>
  s.dueCutWait <|>
  s.firstDue (s.recs.filter fun r => r.stage == .raygen) (fun r => execRaygenRun r.uid s) <|>
  s.firstDue s.recs (fun r => execRaygenComplete r.uid s)

/-! ### Queues and contexts -/

def State.dueQueues (s : State) : Option State :=
  let slots := List.range Config.queueSlots
  let used := s.slots.map fun x => x.slot
  let free := (slots.find? fun n => !used.contains n).toList
  s.firstDue (s.servers.map fun x => x.slot) (fun n => execRecordExpand n s) <|>
  s.firstDue (s.dispatchChoice.toList) (fun n => execCordPlace n s) <|>
  s.firstDue s.cords (fun c => execCordRetire c.uid s) <|>
  s.firstDue s.recs (fun r => execRecordRetire r.uid s) <|>
  s.firstDue [0, 1] (fun d => execSuccessorRelease d s) <|>
  s.firstDue used (fun n => execSliceEnd n s) <|>
  s.firstDue used (fun n => execRecordTake n s) <|>
  s.firstDue free (fun n => execQueueMap n s)

def State.dueContexts (s : State) : Option State :=
  let tags := s.ctxs.map fun c => c.tag
  s.firstDue tags (fun t => execDrainTimeout t s) <|>
  s.firstDue tags (fun t => execDrainEnd t s) <|>
  s.firstDue tags (fun t => execContextResume t s) <|>
  s.firstDue tags (fun t => execCordRestore t s) <|>
  s.firstDue tags (fun t => execDestroyComplete t s) <|>
  s.firstDue [0, 1] (fun d => execEventPost d s)

/-! ### Link -/

def State.dueLink (s : State) : Option State :=
  let qpns := s.qps.map fun q => q.qpn
  let off := (s.qps.filter fun q => q.backoff.any fun t => decide (t ≤ s.time)).map fun q => q.qpn
  let held := (s.hosts.zipIdx.filter fun x => !x.1.held.isEmpty)
  s.firstDue held (fun x => .next (State.serveHost x.2 x.1.held s)) <|>
  s.firstDue s.heldPkts (fun h => execQpContextFetch (h.port / 8) h.qpn s) <|>
  s.progress (.next s.endAnswers) <|>
  s.firstDue (s.qps.flatMap fun q => q.acks.map fun a => (q.qpn, a)) (fun x => .next (s.ackGo x.1 x.2)) <|>
  s.firstDue off (fun n => execReceiverNotReady n s) <|>
  s.firstDue qpns (fun n => execAckTimeout n s) <|>
  s.firstDue qpns (fun n => execWorkRequestTake n s) <|>
  s.firstDue qpns (fun n => execQpDrained n s) <|>
  s.firstDue s.colls (fun c => execCollectiveRun c.id [] s) <|>
  s.firstDue s.colls (fun c => execCollectiveTimeout c.id s) <|>
  s.firstDue s.colls (fun c => execCollectiveComplete c.id s) <|>
  s.firstDue (List.range Config.ports) (fun p => execTrainingTimeout p s)

/-! ### Waves that wait -/

def State.dueWaves (s : State) : Option State :=
  s.firstDue (s.waves.filter fun w => match w.wait with | .sleep t _ _ => decide (t ≤ s.time) | _ => false)
    (fun w => execSleepDeadline w.id s)

/-- Samples, resumptions that had to wait, the end of a droop, telemetry, the thermal trip and steps of the clock: what the debug
unit and the controller do by device time (R439, R442, R447, R448, R450). -/
def State.dueTimers (s : State) : Option State :=
  s.firstDue ((List.range Config.cores).filter fun c => !(s.dbg c).resumes.isEmpty) (fun c => .next (s.resumeAgain c)) <|>
  s.firstDue (s.power.droop.filter fun d => d.since.isSome) (fun d => execDroopRecover d.rick s) <|>
  s.progress (.next s.refresh) <|> s.progress (execThermtrip s) <|>
  (if s.dbgDies.all fun d => d.sampper == 0 then none else s.firstDue (List.range Config.cores) (fun c => execSample c s)) <|>
  s.progress (execClockStepDown s) <|> s.progress (execClockStepUp s)

/-- The first event whose condition holds. -/
def State.due (s : State) : Option State :=
  s.dueMemory <|> s.dueTenure <|> s.dueInval <|> s.dueWaves <|> s.dueEngines <|> s.dueJobs <|> s.dueQueues <|> s.dueContexts <|>
    s.dueLink <|> s.dueTimers

/-! ### The end of a turn -/

def Wait.grows (w : Wait) : Bool := match w with | .grow _ _ _ => true | _ => false

/-- A blocked REG.GROW whose granules are all free is granted (R154). -/
def State.grantGrow (s : State) (id : WaveId) : State :=
  match s.waveAt id with
  | none => s
  | some w => match w.wait with
    | .grow n d len => if s.growFits w n then s.modWave id fun w => (w.growTo n).growEnd d len true else s
    | _ => s

/-- Blocked growers are granted in ascending slot, before anything else may use granules; where every wave of a partition
blocks, all of them end with 0 (R154 to R156). -/
def State.settleGrow (s : State) : State :=
  let ids := (sortBy (fun (w : Wave) => slotNum w.id) (s.waves.filter fun w => w.wait.grows)).map fun w => w.id
  let s := ids.foldl State.grantGrow s
  (s.waves.filter fun w => w.wait.grows).foldl (fun s w => if s.othersGrow w then s.growFail w.id.core w.id.part else s) s

/-- Contexts for which the hardware met a poisoned sector fault (R16, R252). -/
def State.settleBad (s : State) : State := s.ctxBad.foldl (fun s t => s.ctxFault t 0x50) { s with ctxBad := [] }

/-- Faults that waited for room in their rings are tried again (R429). -/
def State.settleFaults (s : State) : State := s.faulting.foldl (fun s x => s.ctxFault x.1 x.2) { s with faulting := [] }

/-- A running context with no cord and no record in a slot is READY (R96). -/
def State.settleReady (s : State) : State :=
  ((s.ctxs.filter fun c => c.st == .running).map fun c => c.tag).foldl State.readyCheck s

/-- What every turn ends with: stores whose release has been made (R241), grants of registers, faults of contexts, the return to
READY, and the evictions of R324; nothing once the clocks have stopped (R445). -/
def State.after (s : State) : State :=
  if s.frozen then s else s.settleRel.settleGrow.settleFaults.settleBad.settleReady.fitDirectory

/-! ### The turn after -/

/-- The wave that follows the one whose turn it was, among those that may take a turn, in the order of the list. -/
def State.nextWave (s : State) : Option WaveId :=
  let n := s.waves.length
  (List.range n).findSome? fun i => match s.waves[(s.cur + 1 + i) % n]? with
    | some w => if s.mayTurn w then some w.id else none
    | none => none

/-- The device with an empty agenda: an event whose condition holds, or, as time passes, a wave's turn (log 1). -/
def State.idleTurn (s : State) : Out :=
  match s.due with
  | some t => .next t
  | none =>
    let s := s.pass s.tick
    match s.nextWave with
    | some id => s.issue id
    | none => .next s

/-- Only reset and the removal of power act on a device that is frozen; after THERMTRIP only the removal of power does
(R445, R450). -/
def State.acts (s : State) (x : Work) : Bool :=
  match x with
  | .event .reset => !s.tripped
  | .event .powerRemoval => true
  | _ => !s.frozen

/-- A turn of the agenda: time passes, unless the clocks have stopped, and the work is done. -/
def State.turn (s : State) (x : Turn) : Out :=
  let s := if s.frozen then s else s.pass x.after
  if !s.acts x.work then .next s
  else match x.work with
    | .event i => exec i s
    | .issue w => s.issue w

/-- The next turn. -/
def State.advance (s : State) : Out :=
  match s.agenda with
  | x :: rest => { s with agenda := rest }.turn x
  | [] => if s.frozen then .next s else s.idleTurn

end Sys2Proof.Machine
end

