-- ==== Sys2Proof/Machine/Step.lean ====
section
/-! DEFINITION. One step of the device: the next turn, and what every turn ends with; and the state in which a given
instruction word is the next to run (log 1, log 3). -/

namespace Sys2Proof.Machine

/-- One step. -/
def step (s : State) : Host.Outcome State Fault Refusal := s.advance.andAlso State.after

/-- The kernel of the wave that runs a placed word, with every register that an encoding can name (log 3). -/
def probeKernel : Kernel :=
  { code := 0, regs := 256, sregs := 128, waves := 1, depth := 0, glast := 0, scratch := 4096, persist := false, pullq := 0,
    keep := [], smask := 0, entry := 4096, nodes := [], streams := [], groups := [1] }

/-- A state with a wave: the first one, or a fresh one of R136 in context 0, alone in its cord. -/
def State.withWave (s : State) : State :=
  match s.waves with
  | _ :: _ => s
  | [] =>
    let c : Cord :=
      { uid := s.uid, tag := 0, core := 0, recUid := s.uid, cordid := 0, count := 1, kernel := probeKernel, frame := 0,
        scratchBase := 0, scratch := [], written := [], bars := [{ group := 0, slot := 0, phase := 0, dev := false, drain := none }],
        tenures := [], gathers := [], reacq := [], ended := [], order := s.uid }
    { s with
      uid := s.uid + 1
      cords := s.cords ++ [c]
      waves := [Wave.fresh ⟨0, 0, 0⟩ s.uid 0 0 0 probeKernel] }.modCtx 0 fun c => { c with st := .running, drain := none }

/-- The first wave ready to issue: nothing that R110, R161, R439 or a wait would hold back. -/
def Wave.primed (w : Wave) : Wave :=
  { w with wait := Wait.none, halted := false, stepOnce := false, exempt := true, hold := 0, delayed := some 0, yield := none, rep := 0, jumped := true,
           pc := w.pc - BitVec.ofNat 64 (w.pc.toNat % 32) }

/-- The instruction whose first bits are w, the rest zero, as the next to run: in the instruction cache at the PC of the
first wave, whose turn is next (log 3). -/
def State.withFetchWord (s : State) (nbits w : Nat) : State :=
  let s := s.withWave
  let s := { s with cur := 0, frozen := false, faulting := [], agenda := [], waves := modAt s.waves 0 Wave.primed }
  match s.me with
  | none => s
  | some x =>
    let tag := s.tagOf x
    let s := s.modCtx tag fun c => { c with st := .running, drain := none }
    let s := s.modCord x.cord fun c => { c with reacq := [] }
    let s := s.modDbg x.core fun d => { d with stopreq := 0 }
    { s.fillBlock x.core tag (fetchBlock x.pc) (bytesOfNat 32 (w % 2 ^ nbits)) false with agenda := [⟨0, .issue x.id⟩] }

end Sys2Proof.Machine
end

