-- ==== Sys2Proof/Safety.lean ====
section
/-! DEFINITION. The terms in which statements about the machine are made: when an instruction passes the checks that come
before its own work, what an outcome holds, what of a wave stays as it was, and the tables of instructions that share a
shape. -/

namespace Sys2Proof.Machine

/-! ### Running -/

/-- D is read as a source. -/
def DUse.reads : DUse → Bool | .dest | .late => false | _ => true
/-- The policy of D where it is read. -/
def DUse.policy : DUse → Bool | .dest | .late => false | .src p => p | .both p => p
/-- D is written. -/
def DUse.writes : DUse → Bool | .src _ | .late => false | _ => true

/-- No latent error lies in registers that a wave reads (R15), nor, where it reads `%trappc`, in the frame, whose translation
its rick's TLB holds. -/
def State.clean (s : State) (w : Wave) (l : List (Opnd × Nat)) : Bool :=
  (!s.flaws.any fun x => l.any fun y => opndFlawed w.id y.2 y.1 x.place) &&
  ((!l.any fun x => x.1 == .spec .trappc) || decide (s.meetFrame w = (false, s)))

/-- No latent error lies in the block at a wave's PC (R17). -/
def State.blockSound (s : State) (w : Wave) : Prop := ∀ x ∈ s.flaws, x.place ≠ .icache w.core (fetchBlock w.pc)

/-- The wave w has the turn and its instruction i with fields f passes checks 4 and 5 of R40, its guard is true (R31),
its sources are ready (R33, R34), and it waits neither for its destination (R152) nor for a value (R68, R237) nor for room
among its core's memory operations (R146). -/
def State.checked (s : State) (w : Wave) (i : Instr) (f : Fields) (du : DUse) (always : Bool) : Bool :=
  decide (s.me = some w) &&
  match i.sig with
  | Option.none => false
  | some g =>
    (w.sup || !instrPriv i) &&
    (sigRegidx g f (s.cordOf w).kernel.regs (s.cordOf w).kernel.sregs 0 0 0 0).isNone &&
    w.guard f.g && (w.ready encodeOpnd (sigSrcs g f du.reads du.policy always)).isNone &&
    !(du.writes && w.destBusy f.d g.d.span) && !s.specWaits w f du.reads && !(usesMemory i && s.opsFull w.core)

/-- What an instruction reads, by its signature. -/
def readsOf (i : Instr) (f : Fields) (du : DUse) : List (Opnd × Nat) :=
  match i.sig with | some g => sigReads g f du.reads | Option.none => []

/-- The same, and its sources hold no error (R15). -/
def State.runs (s : State) (w : Wave) (i : Instr) (f : Fields) (du : DUse) (always : Bool) : Bool :=
  s.checked w i f du always && s.clean w (readsOf i f du)

/-- The wave w has the turn and the whole pair passes its checks (R39). -/
def State.runsPair (s : State) (w : Wave) (p : PairFields) : Bool :=
  decide (s.me = some w) && (pairRegidx p (s.cordOf w).kernel.regs (s.cordOf w).kernel.sregs).isNone &&
  w.guard p.g && (w.ready encodeOpnd (pairSrcs p)).isNone && !(p.vop != .nop && w.destBusy (.v p.vd) 1) &&
  s.clean w (pairReads p)

/-- The state in which the wave of a slot executes when the agenda gives it its turn: n nanoseconds on, as the wave whose
turn it is (log 1). -/
def State.granted (s : State) (n : Nat) (rest : List Turn) (id : WaveId) : State :=
  let s := { s with agenda := rest }.pass n
  { s with cur := s.indexOf id, serial := s.serial + 1 }.modMe fun w => { w with yield := Option.none }

/-- The wave of slot id may take the turn that the agenda gives it, and the debug unit neither halts nor holds it. -/
def State.takesTurn (s : State) (n : Nat) (rest : List Turn) (id : WaveId) (w : Wave) : Prop :=
  s.agenda = ⟨n, .issue id⟩ :: rest ∧ s.frozen = false ∧
  let u := { s with agenda := rest }.pass n
  u.waveAt id = some w ∧ u.mayTurn w = true ∧
    (s.granted n rest id).debugHalt w = Option.none ∧ (s.granted n rest id).trialHolds w = false

/-- What the device does after a wave's turn, of which g is the state before: a trial's count where the instruction issued
(R443), the count of its turn for the others, and what every turn ends with. -/
def State.closed (t g : State) (id : WaveId) (w : Wave) : State :=
  ((if t.hasIssued id then t.trialIssue g w else t).issued id).after

/-- What holds of every next state of an outcome. -/
def Out.holds (o : Out) (p : State → Prop) : Prop := match o with | .next t => p t | _ => True

/-- The outcome is a next state, and something holds of it. -/
def Out.ends (o : Out) (p : State → Prop) : Prop := match o with | .next t => p t | _ => False

/-! ### What stays -/

/-- A register of a wave. -/
inductive RegName where
  | v (n : Nat) | o (n : Nat) | s (n : Nat) | k (n : Nat) | c (n : Nat) | x (n : Nat)
  deriving DecidableEq, Repr

/-- What a register holds, as numbers: a value for each lane where it has lanes. -/
def Wave.look (w : Wave) : RegName → List Nat
  | .v n => (w.vAt n).map BitVec.toNat
  | .o n => (w.oAt n).map BitVec.toNat
  | .s n => [(w.sAt n).toNat]
  | .k n => [(w.kAt n).toNat]
  | .c n => [(w.cAt n).toNat]
  | .x n => (w.x.getD n []).map BitVec.toNat

/-- The registers that a destination operand names; a 64-bit vector destination names two. -/
def destRegs (wide : Bool) : Opnd → List RegName
  | .v n => if wide then [.v n.toNat, .v (n.toNat + 1)] else [.v n.toNat]
  | .o n => if wide then [.o n.toNat, .o (n.toNat + 1)] else [.o n.toNat]
  | .s n => [.s n.toNat]
  | .sp n => [.s (2 * n.toNat), .s (2 * n.toNat + 1)]
  | .k n => [.k n.toNat]
  | .c n => [.c n.toNat]
  | .x n => [.x n.toNat]
  | _ => []

/-- Everything of a wave but its register files, its queues, the floating-point flags, the seed, and what the advance of the
PC changes. -/
def Wave.rest (w : Wave) : Wave :=
  { w with wait := Wait.none, pc := 0, jumped := false, loop := Option.none, loopSup := Option.none, rep := 0, k := [], c := 0,
           s := [], v := [], o := [], l := [], lSup := [], x := [], q := [], fpflags := 0, srseed := 0 }

/-- Every register but those listed holds what it held, no register has become empty or full, and the rest of the wave is
as it was. -/
def Wave.keeps (w w' : Wave) (regs : List RegName) : Prop :=
  (∀ r, r ∉ regs → w'.look r = w.look r) ∧ (∀ n, (w'.vReg n).producer = (w.vReg n).producer) ∧ w'.alloc = w.alloc ∧
    w'.rest = w.rest

/-- The lanes outside a mask of every v and o register hold what they held (R5). -/
def Wave.keepsLanes (w w' : Wave) (m : Mask) : Prop :=
  ∀ n l, l < 96 → m.getLsbD l = false → lane (w'.vAt n) l = lane (w.vAt n) l ∧ lane (w'.oAt n) l = lane (w.oAt n) l

/-- Every byte reads in one state as in another, from every wave's place and at home. -/
def State.sameBytes (s t : State) : Prop :=
  ∀ a, t.homeByte a = s.homeByte a ∧ t.latestByte a = s.latestByte a ∧ ∀ id, (t.coreByte id a).1 = (s.coreByte id a).1

/-- The instruction's end in a wave: the queues popped, and the PC advanced (R20, R34). -/
abbrev Wave.after (w : Wave) (f : Fields) : Wave := w.commit f

/-! ### Loads and stores -/

/-- The registers of one wave hold what those of another do. -/
def Wave.sameRegs (w w' : Wave) : Prop := ∀ r, w'.look r = w.look r

/-- The wave whose turn it is ends its instruction, with nothing else of the state changed. -/
def State.ended (s : State) (f : Fields) : State := s.modMe fun w => w.after f

/-- A result for the lanes of a mask on its way to D, where D names registers and the mask a lane (R151); the wave goes on
past its instruction, its pass dropped (R265). -/
def State.sent (s : State) (f : Fields) (mask : Mask) (data : List Lanes) : State :=
  match f.d with
  | .v n =>
    if mask = 0 then s.modMe fun w => w.dropPass.after f
    else
      { s with uid := s.uid + 1,
               fills := s.fills ++ [(⟨s.uid, ((s.me.map fun (w : Wave) => w.id)).getD default, n.toNat, mask, data, 0, false⟩ : Fill)] }.modMe
        fun w => (w.dropPass.markEmpty n.toNat data.length).after f
  | _ => s.modMe fun w => w.dropPass.after f

/-- The bytes of located pieces, as a wave reads them. -/
def State.waveBytes (s : State) (id : WaveId) (l : List (Nat × Nat × Word64)) : List Byte :=
  l.flatMap fun x => tabulate x.2.1 fun i => (s.waveByte id (x.1 + i)).1

/-- The bytes placed at located pieces. -/
def placed : List (Nat × Nat × Word64) → List Byte → List Host.Cell
  | [], _ => []
  | x :: r, bs => cellsAt x.1 (bs.take x.2.1) ++ placed r (bs.drop x.2.1)

/-- Names of writes are fresh: distinct, and below the next name (the model's own numbering, log 1). -/
abbrev namesFresh (s : State) : Prop := (s.writes.map fun x => x.id).Nodup ∧ ∀ x ∈ s.writes, x.id < s.uid

/-- Every write holds bytes of one sector. -/
abbrev inSectors (s : State) : Prop := ∀ x ∈ s.writes, ∀ c ∈ x.bytes, sectorBase c.1 = x.sector

/-- A wave has stored some cells: no other agent sees anything yet, and its core sees every other byte as before (R239). The
cells themselves, at distinct addresses, are what the wave reads there (R238) where its core held no dirty byte before, a
byte of a DOORBELL as zero (R114). -/
def State.stored (s t : State) (id : WaveId) (cells : List Host.Cell) : Prop :=
  (∀ a, t.homeByte a = s.homeByte a ∧ t.latestByte a = s.latestByte a) ∧
  (∀ a c, (c.core ≠ id.core ∨ ∀ x ∈ cells, x.1 ≠ a) → (t.coreByte c a).1 = (s.coreByte c a).1) ∧
  ((∀ d ∈ s.dirty, d.core ≠ id.core) → namesFresh s → inSectors s → (cells.map fun x => x.1).Nodup →
    ∀ x ∈ cells, [(t.waveByte id x.1).1] = s.doorless x.1 [x.2])

/-- The lanes of an atomic act on a span one after another, each on what the one before it left: their old values, and the cord
after them. -/
def spadServed (m bits aop : Nat) (offs : List Int) (data : List Nat) : List Nat → Cord → List (Nat × Nat) → Cord → Prop
  | [], c, r, d => r = [] ∧ d = c
  | i :: rest, c, r, d =>
    let a := (offs.getD i 0).toNat
    let old := natOfBytes (cellsGet c.scratch a m)
    ∃ q, r = (i, old) :: q ∧
      spadServed m bits aop offs data rest (c.spadPut (cellsAt a (bytesOfNat m (atomNew aop bits old (data.getD i 0) 0)))) q d

/-- A unit serves a list of lanes, one after another, and gives every lane its words. -/
def lanesServed (one : State → Nat → State × Acc (List Word)) : List Nat → State → List (Nat × List Word) → State → Prop
  | [], s, r, t => r = [] ∧ t = s
  | l :: rest, s, r, t => ∃ v u q, one s l = (u, .ok v) ∧ r = (l, v) :: q ∧ lanesServed one rest u q t

/-! ### Tables of one shape -/

/-- An instruction by its fields. -/
abbrev Form := Fields → Instr

/-- Scalar arithmetic on two 32-bit sources (R172). -/
def scalarArith : List (Form × IntOp) :=
  [(.sAdd, .add), (.sSub, .sub), (.sMul, .mul), (.sMulh, .mulh), (.sAnd, .and), (.sOr, .or), (.sXor, .xor), (.sAndn, .andn),
   (.sShl, .shl), (.sShr, .shr), (.sSar, .sar), (.sRot, .rot), (.sMin, .min), (.sMax, .max)]

/-- Vector arithmetic on two sources of a type (R172). -/
def vectorArith : List (Form × IntOp) :=
  [(.vAdd, .add), (.vSub, .sub), (.vMul, .mul), (.vMulh, .mulh), (.vAnd, .and), (.vOr, .or), (.vXor, .xor), (.vAndn, .andn),
   (.vShl, .shl), (.vShr, .shr), (.vSar, .sar), (.vRot, .rot), (.vMin, .min), (.vMax, .max)]

/-- Mask operations (R162). -/
def maskArith : List (Form × (Mask → Mask → Mask)) :=
  [(.kAnd, fun a b => a &&& b), (.kOr, fun a b => a ||| b), (.kXor, fun a b => a ^^^ b), (.kAndn, fun a b => a &&& ~~~b),
   (.kNot, fun a _ => ~~~a), (.kMov, fun a _ => a)]

/-- Floating-point operations on two sources, with the operation on one element (R194, R195, R199). -/
def floatArith (f : Fields) : List (Form × FFmt × (Word64 → Word64 → Word64 × FFlags)) :=
  let fm := FFmt.ofTy f.ty
  let r := Rnd.ofCode f.rnd
  [(.fadd, fm, fpAdd fm r), (.fsub, fm, fpSub fm r), (.fmul, fm, fpMul fm r), (.fmin, fm, fpMinMax fm false),
   (.fmax, fm, fpMinMax fm true), (.dadd, .f64, fpAdd .f64 r), (.dmul, .f64, fpMul .f64 r),
   (.dminmax, .f64, fpMinMax .f64 (f.rnd == 1))]

/-- Special functions (R206). -/
def specialFns (f : Fields) : List (Form × (Word64 → Word64 × FFlags)) :=
  [(.fexp2f, fpExp2), (.flog2, fpLog2), (.frcp, fpRcp), (.frsq, fpRsq), (.fsqrt, fpSqrt .f32 (Rnd.ofCode f.rnd)),
   (.fsinr, fpTrig false), (.fcosr, fpTrig true)]

/-- A result of the vector ALU without flags: the active lanes of D, and the last-result file (R145, R150). -/
def Wave.aluPut (w : Wave) (f : Fields) (wide : Bool) (x : List Word64) : Wave := (w.putV w.exec wide f.d x).shiftFor f.d

/-- A floating-point result: as the vector ALU's, with the flags of the active lanes (R67). -/
def Wave.fpPut (w : Wave) (f : Fields) (wide : Bool) (r : List (Word64 × FFlags)) : Wave :=
  (w.aluPut f wide (r.map fun x => x.1)).orFlags (activeFlags w.exec r)

end Sys2Proof.Machine
end

