-- ==== Sys2Proof/Certificates/Slice0/Obligations.lean ====
section
/-! DEFINITION. Statements for the provers, from the manual's numbered rules. Each docstring names the rules that it
formalises, and a log entry where it rests on the model's own choice. A statement with several parts is their
conjunction, so that each part can be proved on its own. -/

section Slice0

open Sys2Proof Sys2Proof.Machine

/-! ### Encodings -/

/-- Words that the manual writes out beside the instruction that they encode (R21, R35, R37), one or more of each family. -/
def Obligations.WordsOfTheManualDecode : Prop :=
  decodeTableWord 64 0x2400001805010100 = some (.vAdd ⟨.v64, 0, .v 4, .v 5, .v 6, .v 0, 0, 0x12⟩) ∧
  decodeTableWord 64 0x100006060380C080 = some (.sAdd ⟨.v64, 0, .s 3, .s 3, .int 1, .v 0, 0, 0x08⟩) ∧
  decodeTableWord 96 0x0000000400040000008080C6 = some (.sMovi ⟨.w96 4, 0, .s 2, .v 0, .v 0, .v 0, 0, 0x08⟩) ∧
  decodeTableWord 64 0x06000C0B00C00044 = some (.kAndn ⟨.v64, 0, .k 0, .k 0, .k 2, .v 0, 0, 3⟩) ∧
  decodeTableWord 64 0x180060140400C1CC = some (.ffma ⟨.v64, 0, .v 3, .v 4, .v 5, .v 6, 0, 0xC⟩) ∧
  decodeTableWord 64 0x0000000000000030 = some (.exit ⟨.v64, 0, .v 0, .v 0, .v 0, .v 0, 0, 0⟩) ∧
  decodeTableWord 64 0x00000CA800A08010 = some (.sysRd ⟨.v64, 0, .sp 2, .v 0, .spec .time, .v 0, 0, 0⟩) ∧
  decodeTableWord 64 0x62000000000002A8 = some (.fence ⟨.v64, 0, .v 0, .v 0, .v 0, .v 0, 0, 0x31⟩) ∧
  decodeTableWord 64 0x0000060E85818328 = some (.qpush ⟨.v64, 0, .s 6, .sp 5, .int 3, .v 0, 0, 0⟩) ∧
  decodeTableWord 128 0x000000000000026B0000000285A08303 =
    some (.tileOpen ⟨.x128 0x26B, 0, .sp 2, .sp 5, .v 0, .v 0, 0, 0⟩) ∧
  decodeTableWord 128 0x00000000000018011600000008080353 =
    some (.mma ⟨.x128 0x1801, 0, .v 32, .v 8, .v 0, .v 0, 0, 0xB⟩) ∧
  decodeTableWord 64 0x0000000000050080A0380 = some (.rtBox ⟨.v64, 0, .v 40, .v 8, .v 20, .v 0, 0, 0⟩) ∧
  decodeTableWord 64 0x0000060E858103D0 = some (.qpPost ⟨.v64, 0, .s 4, .sp 5, .int 3, .v 0, 0, 0⟩) ∧
  decodeTableWord 64 0x2612109204183041 = some (.pair ⟨0, .add, 3, 3, .imm 1, .fmulF32, 8, 9, .s 3, false⟩) ∧
  decodeTableWord 64 0x0080001C06016BE0 = some (.illegalOp 0x0080001C06016BE0)

/-- Every well-formed instruction, with every operand that its encoding admits, is what the decoder reads from the
encoder's bytes, whatever bytes follow (R18 to R39). -/
def Obligations.DecodeEncodeAgree : Prop :=
  ∀ (i : Instr) (rest : List Byte), i.wf = true → i.encoded = true → decode (encode i ++ rest) = .ok (i, rest)

/-- Whatever the decoder accepts is well-formed, has the length of its first byte, and is encoded by the bits it was read
from and no others (R18, R40). -/
def Obligations.EncodeDecodeAgree : Prop :=
  ∀ (w : BitVec 128) (i : Instr), decodeBits w = .ok i →
    i.wf = true ∧ i.encoded = true ∧ i.bytes = lengthOf (w.setWidth 8) ∧
      (encodeBits i).toNat = w.toNat % 2 ^ (8 * i.bytes)

/-! ### Reset and the step -/

/-- What the manual says of the device right after reset: P is 191 (R134), measurement registers are zero (R431), hart 0
runs in M-mode and every other hart waits (R430), every context is FREE (R96), every peer port is DOWN (R404), the debug
registers are zero (R437) and the limits have their defaults (R448). That peer ports and contexts start so, and the rest
of State.reset, is the model's choice (log 2). -/
def Obligations.ResetState : Prop :=
  State.reset.dispP = 191 ∧
  State.reset.boot.meas = List.replicate 8 (List.replicate 64 0) ∧
  (∀ h, h < 32 → (State.reset.hart h).priv = .m ∧ (State.reset.hart h).wfi = decide (h ≠ 0)) ∧
  (∀ tag, (State.reset.ctx tag).st = .free) ∧
  (∀ p, (State.reset.port p).st = .down) ∧
  State.reset.dbgCores = List.replicate 192 ⟨0, 0, 0, 0, 0, List.replicate 8 0, 0, 0, []⟩ ∧
  State.reset.dbgDies = List.replicate 2 ⟨0, 0, 0⟩ ∧
  State.reset.power.psust = 1900 ∧ State.reset.power.ppeak = 2100 ∧ State.reset.power.tstep = 95

/-- When the bytes at the PC of the wave whose turn comes decode to an instruction, the step is that instruction's meaning,
or an iteration of it under REP (R157), followed by a trial's count of the issue (R443), the count of the turn (R161, R439) and what every turn ends with: grants
of registers (R154, R155), faults of contexts (R16), the return to READY (R96) and the eviction of R324. -/
def Obligations.StepRunsTheDecodedInstruction : Prop :=
  ∀ (s : State) (n : Nat) (rest : List Turn) (id : WaveId) (w x : Wave) (bs : List Byte) (i : Instr),
    let g := s.granted n rest id
    s.takesTurn n rest id w → g.me = some x → g.heldBlock x = some bs → s.blockSound x →
    splits bs (x.pc.toNat % 32) = false → decodeBits (blockBits bs (x.pc.toNat % 32)) = .ok i →
    (x.rep = 0 → step s = Out.andAlso (exec i g) fun t => t.closed g id x) ∧
    (∀ op f, x.rep ≠ 0 → repWord (blockBits bs (x.pc.toNat % 32)) = true → i.opFields = some (op, f) →
      step s = Out.andAlso (exec (.repIteration op f) g) fun t => t.closed g id x)

/-- Encodings that are no instruction raise their traps, in the order of R40 and with the word in %trapinfo (R59): a
block crossed FETCH_SPLIT, an unassigned opcode ILLEGAL_OP, anything else RESERVED_BITS. -/
def Obligations.FetchTraps : Prop :=
  ∀ (s : State) (w : Wave) (bs : List Byte), s.me = some w → s.heldBlock w = some bs → s.blockSound w → w.rep = 0 →
    let off := w.pc.toNat % 32
    let b := blockBits bs off
    (splits bs off = true → s.fetchRun = s.trap 0x03 w.exec (b.setWidth 64)) ∧
    (splits bs off = false → illegalBits b = true → s.fetchRun = s.trap 0x01 w.exec (b.setWidth 64)) ∧
    (splits bs off = false → illegalBits b = false → (∀ i, decodeBits b ≠ .ok i) →
      s.fetchRun = s.trap 0x02 w.exec (b.setWidth 64))

/-! ### Memory as a list of bytes -/

/-- A byte reads as what was last written to it, and a write leaves every other byte alone. -/
def Claim.ReadAfterWrite : Prop :=
  ∀ (m : List Host.Cell) (a b : Nat) (x : Byte), Memory.wf m = true →
    cellGet (cellSet m a x) b = if a = b then x else cellGet m b

/-- Two memories in canonical form that read alike everywhere are the same data. -/
def Claim.MemoryIsWhatItReads : Prop :=
  ∀ m n : List Host.Cell, Memory.wf m = true → Memory.wf n = true → (∀ a, cellGet m a = cellGet n a) → m = n

/-- Memory as a list of bytes: reads after writes, and equality. -/
def Obligations.MemoryReads : Prop :=
  Claim.ReadAfterWrite ∧ Claim.MemoryIsWhatItReads

/-- The memory right after reset is in canonical form. -/
def Obligations.ResetMemoryIsCanonical : Prop := Memory.wf State.reset.mem = true

/-- Every step keeps the canonical form of memory. -/
def Obligations.StepKeepsMemoryCanonical : Prop :=
  ∀ s : State, Memory.wf s.mem = true → Out.holds (step s) fun t => Memory.wf t.mem = true

/-- Bytes in memory are little-endian (R2): bit n of a value of w bytes at byte address a lies in byte a + n / 8, at bit n mod 8,
where the value is written and where it is read; and an instruction's bits [7:0] stand at its lowest address. -/
def Obligations.BytesAreLittleEndian : Prop :=
  (∀ (m : List Host.Cell) (a w x n : Nat), Memory.wf m = true → n < 8 * w →
    (cellGet (cellsSet m (cellsAt a (bytesOfNat w x))) (a + n / 8)).getLsbD (n % 8) = x.testBit n) ∧
  (∀ (m : List Host.Cell) (a w n : Nat), n < 8 * w →
    (natOfBytes (cellsGet m a w)).testBit n = (cellGet m (a + n / 8)).getLsbD (n % 8)) ∧
  (∀ (bs : List Byte) (n : Nat), (natOfBytes bs).testBit n = (bs.getD (n / 8) 0).getLsbD (n % 8)) ∧
  (∀ (w x n : Nat), n < 8 * w → ((bytesOfNat w x).getD (n / 8) 0).getLsbD (n % 8) = x.testBit n) ∧
  (∀ (i : Instr), (encode i).length = i.bytes ∧ ∀ n < 8 * i.bytes, ((encode i).getD (n / 8) 0).getLsbD (n % 8) = (encodeBits i).getLsbD n)

/-! ### Integer instructions -/

/-- Scalar integer instructions that pass their checks end with their result in D and nothing else: R172 for the two-source
operations, R174, R176 to R181 for the others. The two-source operations do so once they have met the errors of what they read,
with `%trappc` its frame's (R15); one that cannot be corrected faults the context (R16). -/
def Obligations.ScalarIntegerCompletes : Prop :=
  (∀ x ∈ scalarArith, ∀ (s u : State) (w : Wave) (f : Fields), s.checked w (x.1 f) f .dest false = true →
    (s.readErrors w (readsOf (x.1 f) f .dest) = (true, u) → exec (x.1 f) s = .next (u.ctxFault (u.tagOf w) 0x50)) ∧
    (s.readErrors w (readsOf (x.1 f) f .dest) = (false, u) → exec (x.1 f) s = .next (u.setMe ((w.putS f.d
      (intAlu2 x.2 f.ty f.sat (u.readS w (.int 32) f.a) (u.scalB w (.int 32) (immSigned f.ty) f))).after f)))) ∧
  ∀ (s : State) (w : Wave) (f : Fields),
    (s.runs w (.sAdd64 f) f .dest false = true → exec (.sAdd64 f) s = .next (s.setMe ((w.putS f.d
      (intAdd64 f.ty f.sat (s.readS w (.int 64) f.a) (s.scalB w (.int 64) (immSigned f.ty) f))).after f))) ∧
    (s.runs w (.sBfe f) f .dest false = true → exec (.sBfe f) s = .next (s.setMe ((w.putS f.d
      (intBfe f.ty (s.readS w (.int 32) f.a) (s.scalB w (.int 32) (immSigned f.ty) f))).after f))) ∧
    (s.runs w (.sBfi f) f .dest false = true → exec (.sBfi f) s = .next (s.setMe ((w.putS f.d
      (intBfi (s.readS w (.int 32) f.a) (s.readS w (.int 32) f.b) (s.readS w (.int 32) f.c))).after f))) ∧
    (s.runs w (.sPopc f) f .dest false = true → exec (.sPopc f) s = .next (s.setMe ((w.putS f.d
      (intPopc f.ty (s.readS w (.ofTy f.ty) f.a))).after f))) ∧
    (s.runs w (.sClz f) f .dest false = true → exec (.sClz f) s = .next (s.setMe ((w.putS f.d
      (intClz f.ty (s.readS w (.ofTy f.ty) f.a))).after f))) ∧
    (s.runs w (.sMov f) f .dest false = true → exec (.sMov f) s = .next (s.setMe ((w.putS f.d
      (s.readS w (.ofTy f.ty) f.a)).after f))) ∧
    (s.runs w (.sMovi f) f .dest false = true → exec (.sMovi f) s = .next (s.setMe ((w.putS f.d
      ((Feed.ofTy f.ty).immediate (immSigned f.ty) f.imm)).after f))) ∧
    (s.runs w (.sSel f) f .dest false = true → exec (.sSel f) s = .next (s.setMe ((w.putS f.d
      (if w.readC f.c then s.readS w (.ofTy f.ty) f.a else s.readS w (.ofTy f.ty) f.b)).after f))) ∧
    (s.runs w (.sCmp f) f .dest false = true → exec (.sCmp f) s = .next (s.setMe ((w.putC f.d
      (intCmp f.rnd f.ty (s.readS w (.ofTy f.ty) f.a) (s.scalB w (.ofTy f.ty) (immSigned f.ty) f))).after f))) ∧
    (s.runs w (.cLop f) f .dest false = true → exec (.cLop f) s = .next (s.setMe ((w.putC f.d
      (f.m.getLsbD ((if w.readC f.a then 2 else 0) + (if w.readC f.b then 1 else 0)))).after f)))

/-- Vector integer instructions that pass their checks write the active lanes of D lane by lane, and shift the last-result
file: R172 for the two-source operations, R173 to R177, R179, R180, R182 and R183 for the others. -/
def Obligations.VectorIntegerCompletes : Prop :=
  (∀ x ∈ vectorArith, ∀ (s : State) (w : Wave) (f : Fields), s.runs w (x.1 f) f .dest false = true →
    exec (x.1 f) s = .next (s.setMe ((w.aluPut f (Feed.ofTy f.ty).wide (List.zipWith (intAlu2 x.2 f.ty f.sat)
      (s.srcA w (.ofTy f.ty) f) (s.srcB w (.ofTy f.ty) (immSigned f.ty) f))).after f))) ∧
  ∀ (s : State) (w : Wave) (f : Fields),
    let k := Feed.ofTy f.ty
    (s.runs w (.mad f) f .dest false = true → exec (.mad f) s = .next (s.setMe ((w.aluPut f false
      (zip3 (intMad f.ty f.sat) (s.srcA w (.int 32) f) (s.fieldB w (.int 32) f) (s.srcC w (.int 32) f))).after f))) ∧
    (s.runs w (.madw f) f .dest false = true → exec (.madw f) s = .next (s.setMe ((w.aluPut f true
      (zip3 (intMadw f.ty f.sat) (s.srcA w (.int 32) f) (s.fieldB w (.int 32) f) (s.srcC w (.int 64) f))).after f))) ∧
    (s.runs w (.vAdd64 f) f .dest false = true → exec (.vAdd64 f) s = .next (s.setMe ((w.aluPut f true
      (List.zipWith (intAdd64 f.ty f.sat) (s.srcA w (.int 64) f) (s.srcB w (.int 64) (immSigned f.ty) f))).after f))) ∧
    (s.runs w (.vAbs f) f .dest false = true → exec (.vAbs f) s = .next (s.setMe ((w.aluPut f false
      ((s.srcA w k f).map (intAbs f.ty f.sat))).after f))) ∧
    (s.runs w (.vCmp f) f .dest false = true → exec (.vCmp f) s = .next (s.setMe ((w.putK f.d (condMask w.exec
      (List.zipWith (intCmp f.rnd f.ty) (s.srcA w k f) (s.srcB w k (immSigned f.ty) f)))).after f))) ∧
    (s.runs w (.vSel f) f .dest false = true → exec (.vSel f) s = .next (s.setMe ((w.aluPut f k.wide
      (tabulate laneCount fun l => if (w.readK f.c).getLsbD l then laneOf (s.srcA w k f) l else laneOf (s.fieldB w k f) l)).after f))) ∧
    (s.runs w (.vBfe f) f .dest false = true → exec (.vBfe f) s = .next (s.setMe ((w.aluPut f false
      (List.zipWith (intBfe f.ty) (s.srcA w (.int 32) f) (s.srcB w (.int 32) (immSigned f.ty) f))).after f))) ∧
    (s.runs w (.vBfi f) f .dest false = true → exec (.vBfi f) s = .next (s.setMe ((w.aluPut f false
      (zip3 intBfi (s.srcA w (.int 32) f) (s.fieldB w (.int 32) f) (s.srcC w (.int 32) f))).after f))) ∧
    (s.runs w (.vPopc f) f .dest false = true → exec (.vPopc f) s = .next (s.setMe ((w.aluPut f false
      ((s.srcA w k f).map (intPopc f.ty))).after f))) ∧
    (s.runs w (.vClz f) f .dest false = true → exec (.vClz f) s = .next (s.setMe ((w.aluPut f false
      ((s.srcA w k f).map (intClz f.ty))).after f))) ∧
    (s.runs w (.vBrev f) f .dest false = true → exec (.vBrev f) s = .next (s.setMe ((w.aluPut f false
      ((s.srcA w (.int 32) f).map intBrev)).after f))) ∧
    (s.runs w (.prmt f) f .dest false = true → exec (.prmt f) s = .next (s.setMe ((w.aluPut f false
      (zip3 intPrmt (s.srcA w (.int 32) f) (s.fieldB w (.int 32) f)
        (if f.isW then List.replicate laneCount (f.imm.setWidth 64) else s.srcC w (.int 32) f))).after f))) ∧
    (s.runs w (.dot4 f) f .dest false = true → exec (.dot4 f) s = .next (s.setMe ((w.aluPut f false
      (zip3 (intDot4 (f.ty == 4) (f.m.getLsbD 5) f.sat) (s.srcA w (.int 8) f) (s.fieldB w (.int 8) f) (s.srcC w (.int 32) f))).after f)))

/-- Lane instructions that pass their checks end with their result (R185 to R190): SHFL reads the lane that its form
names or, beyond lane 95, its own; RDLANE and WRLANE act whatever exec holds; MATCH, REDUX and SCAN combine active
lanes. -/
def Obligations.LaneInstructionsComplete : Prop :=
  ∀ (s : State) (w : Wave) (f : Fields),
    let k := Feed.ofTy f.ty
    let a := s.srcA w k f
    let b := fun l => (laneOf (s.srcB w (.int 32) false f) l).toNat
    let act := lanesOf w.exec
    let shuffled := fun (pick : Nat → Int) => w.aluPut f (ty64 f.ty) (tabulate laneCount fun l =>
      if 0 ≤ pick l ∧ pick l ≤ 95 then laneOf a (pick l).toNat else laneOf a l)
    (s.runs w (.shflIdx f) f .dest false = true → exec (.shflIdx f) s = .next (s.setMe ((shuffled fun l => b l).after f))) ∧
    (s.runs w (.shflXor f) f .dest false = true →
      exec (.shflXor f) s = .next (s.setMe ((shuffled fun l => ((l ^^^ b l : Nat) : Int)).after f))) ∧
    (s.runs w (.shflUp f) f .dest false = true →
      exec (.shflUp f) s = .next (s.setMe ((shuffled fun l => (l : Int) - b l).after f))) ∧
    (s.runs w (.shflDown f) f .dest false = true →
      exec (.shflDown f) s = .next (s.setMe ((shuffled fun l => (l : Int) + b l).after f))) ∧
    (s.runs w (.rdlane f) f .dest true = true →
      let n := (s.scalB w (.int 32) false f).toNat
      exec (.rdlane f) s = .next (s.setMe ((w.putS f.d (if n ≤ 95 then laneOf a n else 0)).after f))) ∧
    (s.runs w (.wrlane f) f .dest false = true →
      let n := (s.scalB w (.int 32) false f).toNat
      exec (.wrlane f) s = .next (s.setMe (((w.putV (if n ≤ 95 then 1#96 <<< n else 0) (ty64 f.ty) f.d
        (List.replicate laneCount (s.readS w k f.a))).shiftFor f.d).after f))) ∧
    (s.runs w (.matchLanes f) f .dest false = true →
      exec (.matchLanes f) s = .next (s.setMe ((w.aluPut f false (tabulate laneCount fun l =>
        let e := act.filter fun j => laneOf a j == laneOf a l
        BitVec.ofNat 64 (match f.mbits 5 4 with
          | 0 => e.headD 0
          | 1 => (e.filter fun j => decide (j < l)).length
          | _ => e.length))).after f))) ∧
    (s.runs w (.redux f) f .dest false = true →
      let r := act.foldl (fun x j => reduxOp f.rnd f.ty x (laneOf a j)) (reduxIdentity f.rnd f.ty)
      exec (.redux f) s = .next (s.setMe ((((w.putS f.d r).putV w.exec (ty64 f.ty) f.d (List.replicate laneCount r)).shiftFor f.d).after f))) ∧
    (s.runs w (.scan f) f .dest false = true →
      exec (.scan f) s = .next (s.setMe ((w.aluPut f (ty64 f.ty) (tabulate laneCount fun l =>
        (act.filter fun j => decide (j < l) || (f.rnd != 1 && j == l)).foldl (fun x j => reduxOp f.rnd f.ty x (laneOf a j))
          (reduxIdentity f.rnd f.ty))).after f)))

/-- The 32-bit results of R172 without SAT, in bit-vector terms: sums, differences and products wrap, MULH is the high half
of the exact product, shifts take their whole count, and the high half of the carrier is zero. -/
def Obligations.ThirtyTwoBitResults : Prop :=
  ∀ a b : Word64,
    let x := lo32 a
    let y := lo32 b
    let n := y.toNat
    (∀ o t, t ∈ [2, 6, 8] → (intAlu2 o t false a b).toNat < 2 ^ 32) ∧
    (∀ t ∈ [2, 6, 8], lo32 (intAlu2 .add t false a b) = x + y ∧ lo32 (intAlu2 .sub t false a b) = x - y ∧
      lo32 (intAlu2 .mul t false a b) = x * y) ∧
    (lo32 (intAlu2 .mulh 2 false a b)).toInt = x.toInt * y.toInt / 2 ^ 32 ∧
    (lo32 (intAlu2 .mulh 6 false a b)).toNat = x.toNat * y.toNat / 2 ^ 32 ∧
    lo32 (intAlu2 .and 8 false a b) = x &&& y ∧ lo32 (intAlu2 .or 8 false a b) = x ||| y ∧
    lo32 (intAlu2 .xor 8 false a b) = x ^^^ y ∧ lo32 (intAlu2 .andn 8 false a b) = x &&& ~~~y ∧
    lo32 (intAlu2 .shl 8 false a b) = x <<< n ∧ lo32 (intAlu2 .shr 8 false a b) = x >>> n ∧
    lo32 (intAlu2 .sar 8 false a b) = x.sshiftRight n ∧ lo32 (intAlu2 .rot 8 false a b) = x.rotateLeft (n % 32) ∧
    (lo32 (intAlu2 .min 2 false a b)).toInt = min x.toInt y.toInt ∧ (lo32 (intAlu2 .max 2 false a b)).toInt = max x.toInt y.toInt ∧
    (lo32 (intAlu2 .min 6 false a b)).toNat = min x.toNat y.toNat ∧ (lo32 (intAlu2 .max 6 false a b)).toNat = max x.toNat y.toNat

/-- With SAT a result is the exact value clamped to its type (R171): sums, differences, products, and SHL, where any nonzero
value saturates under a count of 32 or more. -/
def Claim.SaturatedResults : Prop :=
  ∀ a b : Word64,
    let x := lo32 a
    let y := lo32 b
    let ci := fun (r : Int) => max (-2 ^ 31) (min (2 ^ 31 - 1) r)
    let cn := fun (r : Int) => max 0 (min (2 ^ 32 - 1) r)
    (lo32 (intAlu2 .add 2 true a b)).toInt = ci (x.toInt + y.toInt) ∧
    (lo32 (intAlu2 .sub 2 true a b)).toInt = ci (x.toInt - y.toInt) ∧
    (lo32 (intAlu2 .mul 2 true a b)).toInt = ci (x.toInt * y.toInt) ∧
    ((lo32 (intAlu2 .add 6 true a b)).toNat : Int) = cn (x.toNat + y.toNat) ∧
    ((lo32 (intAlu2 .sub 6 true a b)).toNat : Int) = cn (x.toNat - y.toNat) ∧
    ((lo32 (intAlu2 .mul 6 true a b)).toNat : Int) = cn (x.toNat * y.toNat) ∧
    (lo32 (intAlu2 .shl 2 true a b)).toInt = ci (x.toInt * 2 ^ y.toNat) ∧
    ((lo32 (intAlu2 .shl 6 true a b)).toNat : Int) = cn (x.toNat * 2 ^ y.toNat)

/-- Each element of a packed operand is computed on its own (R170): two of 16 bits, four of 8. -/
def Claim.PackedResults : Prop :=
  ∀ (a b : Word64) (sat : Bool) (o : IntOp), o ∈ [.add, .sub, .min, .max] →
    (∀ t ∈ [1, 5], ∀ i < 2, (intAlu2 o t sat a b).extractLsb' (16 * i) 16 =
      BitVec.ofNat 16 (writeInt sat (tySigned t) 16 (o.exact (tySigned t) 16
        (a.extractLsb' (16 * i) 16).toNat (b.extractLsb' (16 * i) 16).toNat))) ∧
    (∀ t ∈ [0, 4], ∀ i < 4, (intAlu2 o t sat a b).extractLsb' (8 * i) 8 =
      BitVec.ofNat 8 (writeInt sat (tySigned t) 8 (o.exact (tySigned t) 8
        (a.extractLsb' (8 * i) 8).toNat (b.extractLsb' (8 * i) 8).toNat)))

/-- Multiply-add, 64-bit sums, ABS and comparisons (R173 to R176). -/
def Claim.MultiplyAddAndCompareResults : Prop :=
  ∀ a b c : Word64,
    let x := lo32 a
    let y := lo32 b
    (∀ t ∈ [2, 6, 8], lo32 (intMad t false a b c) = x * y + lo32 c) ∧
    (intMadw 2 false a b c).toInt = (x.toInt * y.toInt + c.toInt).bmod (2 ^ 64) ∧
    intMadw 6 false a b c = x.setWidth 64 * y.setWidth 64 + c ∧
    (∀ t ∈ [3, 7, 9], intAdd64 t false a b = a + b) ∧
    (intAdd64 3 true a b).toInt = max (-2 ^ 63) (min (2 ^ 63 - 1) (a.toInt + b.toInt)) ∧
    (intAdd64 7 true a b).toNat = min (2 ^ 64 - 1) (a.toNat + b.toNat) ∧
    (lo32 (intAbs 2 true a)).toInt = min (2 ^ 31 - 1) (x.toInt.natAbs : Int) ∧
    lo32 (intAbs 2 false a) = (if x.toInt < 0 then -x else x) ∧
    intCmp 2 2 a b = decide (x.toInt < y.toInt) ∧ intCmp 2 6 a b = decide (x.toNat < y.toNat) ∧
    intCmp 5 3 a b = decide (b.toInt ≤ a.toInt) ∧ intCmp 4 7 a b = decide (b.toNat < a.toNat) ∧
    intCmp 0 8 a b = decide (x = y) ∧ intCmp 1 9 a b = decide (a ≠ b)

/-- Bit fields, counts, reversal and byte permutation, bit by bit (R179, R180, R182): p = min(pos, 32) and
q = min(len, 32 - p) of the control word. -/
def Claim.BitFieldResults : Prop :=
  ∀ a b c : Word64,
    let p := min (c.extractLsb' 0 8).toNat 32
    let q := min (c.extractLsb' 8 8).toNat (32 - p)
    (∀ i < 32, (intBfe 6 a c).getLsbD i = (decide (i < q) && (lo32 a).getLsbD (p + i))) ∧
    (∀ i < 32, (intBfe 2 a c).getLsbD i = (decide (0 < q) && (lo32 a).getLsbD (p + min i (q - 1)))) ∧
    (∀ i < 32, (intBfi a b c).getLsbD i = if p ≤ i ∧ i < p + q then a.getLsbD (i - p) else b.getLsbD i) ∧
    (intPopc 8 a).toNat = ((List.range 32).filter fun i => a.getLsbD i).length ∧
    (intPopc 9 a).toNat = ((List.range 64).filter fun i => a.getLsbD i).length ∧
    (intClz 8 a).toNat = ((List.range 32).takeWhile fun i => !a.getLsbD (31 - i)).length ∧
    (intClz 9 a).toNat = ((List.range 64).takeWhile fun i => !a.getLsbD (63 - i)).length ∧
    (∀ i < 32, (intBrev a).getLsbD i = a.getLsbD (31 - i)) ∧
    (∀ i < 4, (intPrmt a b c).extractLsb' (8 * i) 8 =
      let sel := (c.extractLsb' (4 * i) 4).toNat
      let byte := (lo32 b ++ lo32 a).extractLsb' (8 * (sel % 8)) 8
      if sel < 8 then byte else if byte.getLsbD 7 then 0xFF else 0)

/-- Integer results beyond the 32-bit ones (R170 to R182). -/
def Obligations.OtherIntegerResults : Prop :=
  Claim.SaturatedResults ∧ Claim.PackedResults ∧ Claim.MultiplyAddAndCompareResults ∧ Claim.BitFieldResults

/-! ### Floating point -/

/-- Floating-point operations on two sources that pass their checks write the active lanes, shift the last-result file and
raise the active lanes' flags (R67, R194, R195, R199). -/
def Claim.FloatArithmeticCompletes : Prop :=
  ∀ (s : State) (w : Wave) (f : Fields), ∀ x ∈ floatArith f, s.runs w (x.1 f) f .dest false = true →
    exec (x.1 f) s = .next (s.setMe ((w.fpPut f (Feed.fp x.2.1).wide (List.zipWith (packed2 x.2.1 x.2.2)
      (s.srcA w (.fp x.2.1) f) (s.srcB w (.fp x.2.1) true f))).after f))

/-- Fused operations, comparisons, classes and rounding to an integer that pass their checks end with their result (R194,
R196 to R199, R208). -/
def Claim.FusedAndTestOperationsComplete : Prop :=
  ∀ (s : State) (w : Wave) (f : Fields),
    let fm := FFmt.ofTy f.ty
    let r := Rnd.ofCode f.rnd
    let cmp := fun (m : FFmt) =>
      let c := List.zipWith (fpCondPacked m f.rnd) (s.srcA w (.fp m) f) (s.srcB w (.fp m) true f)
      ((w.putK f.d (condMask w.exec (c.map fun x => x.1))).orFlags
        (flagsOr ((lanesOf w.exec).map fun l => (c.getD l (false, 0)).2))).after f
    (s.runs w (.ffma f) f .dest false = true → exec (.ffma f) s = .next (s.setMe ((w.fpPut f (Feed.fp fm).wide
      ((List.zip (s.srcA w (.fp fm) f) (List.zip (s.fieldB w (.fp fm) f) (s.srcC w (.fp fm) f))).map fun x =>
        packed3 fm (fpFma fm r) x.1 x.2.1 x.2.2)).after f))) ∧
    (s.runs w (.dfma f) f .dest false = true → exec (.dfma f) s = .next (s.setMe ((w.fpPut f true
      ((List.zip (s.srcA w (.fp .f64) f) (List.zip (s.fieldB w (.fp .f64) f) (s.srcC w (.fp .f64) f))).map fun x =>
        fpFma .f64 r x.1 x.2.1 x.2.2)).after f))) ∧
    (s.runs w (.fdot2 f) f .dest false = true → exec (.fdot2 f) s = .next (s.setMe ((w.fpPut f false
      ((List.zip (s.srcA w (.fp fm) f) (List.zip (s.fieldB w (.fp fm) f) (s.srcC w (.fp .f32) f))).map fun x =>
        fpDot2 fm r x.1 x.2.1 x.2.2)).after f))) ∧
    (s.runs w (.fcmp f) f .dest false = true → exec (.fcmp f) s = .next (s.setMe (cmp fm))) ∧
    (s.runs w (.dcmp f) f .dest false = true → exec (.dcmp f) s = .next (s.setMe (cmp .f64))) ∧
    (s.runs w (.fclass f) f .dest false = true → exec (.fclass f) s = .next (s.setMe ((w.fpPut f false
      ((s.srcA w (.fp fm) f).map fun x => (fpClassPacked fm x, 0))).after f))) ∧
    (s.runs w (.frnd f) f .dest false = true → exec (.frnd f) s = .next (s.setMe ((w.fpPut f false
      ((s.srcA w (.fp fm) f).map (packed1 fm (fpRnd fm r)))).after f)))

/-- Floating-point arithmetic, fused operations and tests (R194 to R199, R208). -/
def Obligations.FloatOperationsComplete : Prop :=
  Claim.FloatArithmeticCompletes ∧ Claim.FusedAndTestOperationsComplete

/-- Conversions that pass their checks end with their result (R201 to R205, R209, R210); under SR the generator has made
three steps, whatever exec holds (R71). -/
def Claim.ConversionsComplete : Prop :=
  ∀ (s : State) (w : Wave) (f : Fields),
    let fm := FFmt.ofTy f.ty
    let src := FFmt.ofTy f.stype
    let seeded := if f.rnd = 5 then { w with srseed := xorshift64 (xorshift64 (xorshift64 w.srseed)) } else w
    let a := s.srcA w (.fp src) f
    let b := if f.cvtKind = 1 ∨ f.cvtKind = 2 then s.fieldB w (.fp src) f else a
    let byte := f.mbits 8 7
    (s.runs w (.fcvt f) f .dest false = true → exec (.fcvt f) s = .next (s.setMe ((seeded.fpPut f (f.ty == 0xD)
      (tabulate laneCount fun l => fcvtLane f (laneRnd f w.srseed l) (laneOf a l) (laneOf b l))).after f))) ∧
    (s.runs w (.f2i f) f .dest false = true → exec (.f2i f) s = .next (s.setMe ((w.fpPut f (ty64 f.ty) (a.map fun x =>
      let r := fpToInt src (tySigned f.ty) (tyWidth f.ty) (Rnd.ofCode f.rnd)
        (if f.stype = 0xA ∨ f.stype = 0xB then elem16 f.elem x else x)
      (if ty64 f.ty then wrap 64 r.1 else (wrap 32 r.1).setWidth 64, r.2))).after f))) ∧
    (s.runs w (.i2f f) f .dest false = true →
      let ka := Feed.ofTy f.stype
      let cv := fun (x : Word64) => fpOfInt fm (Rnd.ofCode f.rnd) (readInt (tySigned f.stype) (tyWidth f.stype) x.toNat)
      exec (.i2f f) s = .next (s.setMe ((if f.ty = 0xA ∨ f.ty = 0xB then
        w.fpPut f false (List.zipWith (fun x y => (pack16 (cv x).1 (cv y).1, (cv x).2 ||| (cv y).2)) (s.srcA w ka f) (s.fieldB w ka f))
        else w.fpPut f (f.ty == 0xD) ((s.srcA w ka f).map cv)).after f))) ∧
    (s.runs w (.fldexp f) f .dest false = true → exec (.fldexp f) s = .next (s.setMe ((w.fpPut f (f.ty == 0xD)
      (List.zipWith (fun x y => fpLdexp fm x (lo32 y).toInt) (s.srcA w (.fp fm) f) (s.srcB w (.int 32) true f))).after f))) ∧
    (s.runs w (.ffrexp f) f .dest false = true → exec (.ffrexp f) s = .next (s.setMe ((
      if f.mbits 4 4 = 0 then w.fpPut f (f.ty == 0xD) ((s.srcA w (.fp fm) f).map (fpMant fm))
      else w.fpPut f false ((s.srcA w (.fp fm) f).map fun x => ((wrap 32 (fpExp fm x)).setWidth 64, 0))).after f))) ∧
    (s.runs w (.fqni f) f (.both (f.pol.getLsbD 2)) false = true →
      let x := s.srcA w (.fp .f32) f
      let e := s.fieldB w (.int 32) f
      let old := s.readV w (.int 32) 0 f.d
      exec (.fqni f) s = .next (s.setMe ((seeded.fpPut f false (tabulate laneCount fun l =>
        let q := fqniCode (laneRnd f w.srseed l) (laneOf x l) ((laneOf e l).toNat % 256)
        ((laneOf old l &&& ~~~(0xFF#64 <<< (8 * byte))) ||| ((wrap 8 q.1).setWidth 64 <<< (8 * byte)), q.2))).after f))) ∧
    (s.runs w (.fdqni f) f .dest false = true → exec (.fdqni f) s = .next (s.setMe ((w.fpPut f false
      (List.zipWith (fun x e => fdqniVal (readInt true 8 (x.toNat / 2 ^ (8 * byte))) (f.mbits 12 9) (e.toNat % 256)
        (!f.m.getLsbD 13 || e.getLsbD 8)) (s.srcA w (.int 32) f) (s.fieldB w (.int 32) f))).after f)))

/-- Sums over lanes and the exact accumulator that pass their checks end with their result (R88, R211 to R213): REDUX.F
combines adjacent active lanes in a tree of seven levels, XA.ADD adds to eight registers, XA.RND rounds once. -/
def Claim.ExactSumsComplete : Prop :=
  ∀ (s : State) (w : Wave) (f : Fields),
    let a := s.srcA w (.fp .f32) f
    (s.runs w (.reduxF f) f .dest false = true →
      let fm := match f.mbits 1 0 with | 0 => FFmt.f32 | 1 => FFmt.f16 | _ => FFmt.bf16
      let o := f.mbits 3 2
      let op := packed2 fm (if o = 0 then fpAdd fm (Rnd.ofCode f.rnd) else fpMinMax fm (o == 2))
      let x := s.srcA w (.fp fm) f
      let r := treeFold op 7 (tabulate laneCount fun l => if w.exec.getLsbD l then some (laneOf x l) else Option.none) 0
      let v := r.1.getD (spreadFp fm (if o = 0 then 0 else fm.inf (o == 2)))
      exec (.reduxF f) s = .next (s.setMe (((((w.putS f.d v).putV w.exec false f.d (List.replicate laneCount v)).shiftFor f.d).orFlags
        r.2).after f))) ∧
    (s.runs w (.xaAdd f) f .dest false = true → exec (.xaAdd f) s = .next (s.setMe (((w.xaWrite (vNum f.d) (tabulate laneCount fun l =>
      if f.m = 1 then xaAddXa (w.xaRead (vNum f.d) l) (w.xaRead (vNum f.a) l)
      else xaAdd (w.xaRead (vNum f.d) l) (laneOf a l))).shiftFor f.d).after f))) ∧
    (s.runs w (.xaRnd f) f .dest false = true → exec (.xaRnd f) s = .next (s.setMe ((w.fpPut f false
      (tabulate laneCount fun l => xaRound (w.xaRead (vNum f.a) l))).after f)))

/-- A special function that passes its checks issues as a long-latency instruction (R151, R206, R207): its register is
empty and the result, with its flags, is on its way; without an active lane it does nothing, and a destination that is
no register receives only the flags. -/
def Claim.SpecialFunctionsComplete : Prop :=
  ∀ (s : State) (w : Wave) (f : Fields), ∀ x ∈ specialFns f, s.runs w (x.1 f) f .dest false = true →
    let r := (s.srcA w (.fp .f32) f).map x.2
    let fl := activeFlags w.exec r
    let sent := fun (n : Nat) (d : List Lanes) => { s with uid := s.uid + 1, fills := s.fills ++ [(⟨s.uid, w.id, n, w.exec, d, fl, true⟩ : Fill)] }
    (w.exec = 0 → exec (x.1 f) s = .next (s.setMe (w.after f))) ∧
    (∀ n, w.exec ≠ 0 → f.d = .v n → exec (x.1 f) s =
      .next ((sent n.toNat [r.map fun y => lo32 y.1]).setMe ((w.markEmpty n.toNat 1).after f))) ∧
    (w.exec ≠ 0 → (∀ n, f.d ≠ .v n) → exec (x.1 f) s = .next ((sent 0 []).setMe (w.after f)))

/-- Conversions, exact sums and special functions (R201 to R213). -/
def Obligations.ConversionsAndFunctionsComplete : Prop :=
  Claim.ConversionsComplete ∧ Claim.ExactSumsComplete ∧ Claim.SpecialFunctionsComplete

/-- NaN operands (R65, R194): a sum, difference, product or fused product with a NaN operand is the canonical quiet NaN, and
NV is raised when an operand signals; 0 × infinity and the difference of infinities raise NV. Under MIN and MAX one NaN
loses to a number. -/
def Claim.NanResults : Prop :=
  ∀ (fm : FFmt) (m : Rnd) (a b c : Word64),
    let x := unpack fm a
    let y := unpack fm b
    let z := unpack fm c
    let sig := flagIf (x.isSnan || y.isSnan) flagNV
    ((x.isNan || y.isNan) = true → fpAdd fm m a b = (fm.nan, sig) ∧ fpSub fm m a b = (fm.nan, sig) ∧ fpMul fm m a b = (fm.nan, sig)) ∧
    (x.isInf = true → y.isInf = true → x.neg ≠ y.neg → fpAdd fm m a b = (fm.nan, flagNV)) ∧
    (x.isInf = true → y.isInf = true → x.neg = y.neg → fpSub fm m a b = (fm.nan, flagNV)) ∧
    ((x.isInf && y.isZero || x.isZero && y.isInf) = true → fpMul fm m a b = (fm.nan, flagNV) ∧ fpFma fm m a b c = (fm.nan, flagNV)) ∧
    ((x.isNan || y.isNan || z.isNan) = true → (x.isInf && y.isZero || x.isZero && y.isInf) = false →
      fpFma fm m a b c = (fm.nan, flagIf (x.isSnan || y.isSnan || z.isSnan) flagNV)) ∧
    (x.isNan = true → y.isNan = false → ∀ g, (fpMinMax fm g a b).1.toNat = b.toNat % 2 ^ fm.width) ∧
    (x.isNan = false → y.isNan = true → ∀ g, (fpMinMax fm g a b).1.toNat = a.toNat % 2 ^ fm.width) ∧
    (x.isNan = true → y.isNan = true → ∀ g, fpMinMax fm g a b = (fm.nan, sig))

/-- A comparison holds under exactly one of less, equal, greater and unordered; the others follow from them, and the
ordered conditions raise NV for every NaN (R196). -/
def Claim.ComparisonsAreExclusive : Prop :=
  ∀ (fm : FFmt) (a b : Word64),
    let c := fun n => (fpCond fm n a b).1
    let un := (unpack fm a).isNan || (unpack fm b).isNan
    c 6 = un ∧ c 1 = !c 0 ∧ c 3 = (c 2 || c 0) ∧ c 5 = (c 4 || c 0) ∧
    ([c 0, c 2, c 4, c 6].filter id).length = 1 ∧
    (∀ n, 2 ≤ n → n ≤ 5 → (fpCond fm n a b).2 = flagIf un flagNV)

/-- Rounding changes no value that the format holds, and raises nothing (R63, R69): every bit pattern that is no NaN, under
every mode, stochastic rounding included. -/
def Claim.RepresentableValuesRoundToThemselves : Prop :=
  ∀ (fm : FFmt) (m : Rnd) (a : Word64), a.toNat < 2 ^ fm.width → (unpack fm a).isNan = false →
    (unpack fm a).exact.round fm m = (a, 0)

/-- A magnitude pattern of a format in units of its least positive value (R63). -/
def magUnits (fm : FFmt) (mag : Nat) : Nat :=
  if mag < 2 ^ fm.fb then mag else (mag % 2 ^ fm.fb + 2 ^ fm.fb) * 2 ^ (mag / 2 ^ fm.fb - 1)

/-- Rounding a positive rational n / d to a format (R69): under RTZ the greatest finite value that is not above it; under
RNE and RNA no finite value is nearer than a finite result. -/
def Claim.RoundingIsNearestOrBelow : Prop :=
  ∀ (fm : FFmt) (n d : Nat), 0 < n → 0 < d →
    let unit := 2 ^ (fm.bias + fm.fb - 1)
    (let r := (roundMag fm .rtz false n d).1.toNat
     r < fm.infMag ∧ magUnits fm r * d ≤ n * unit ∧
       ∀ y, y < fm.infMag → magUnits fm y * d ≤ n * unit → magUnits fm y ≤ magUnits fm r) ∧
    (∀ m ∈ [Rnd.rne, Rnd.rna],
      let r := (roundMag fm m false n d).1.toNat
      r ≤ fm.infMag ∧ (r < fm.infMag → ∀ y, y < fm.infMag →
        ((magUnits fm r * d : Int) - n * unit).natAbs ≤ ((magUnits fm y * d : Int) - n * unit).natAbs))

/-- A sum, a product and a fused product of numbers are their exact values rounded once (R65, R194): the value of a finite
pattern is sgn × num / den, and a result that is not zero is the rounding of the exact one. -/
def Claim.FusedProductRoundsOnce : Prop :=
  ∀ (fm : FFmt) (m : Rnd) (a b c : Word64) (s t u : Bool) (n d p q k l : Nat),
    unpack fm a = .fin s n d → unpack fm b = .fin t p q → unpack fm c = .fin u k l →
    let sum := sgn s n * q + sgn t p * d
    let prod := sgn s n * sgn t p
    let fused := prod * l + sgn u k * (d * q : Nat)
    (sum ≠ 0 → fpAdd fm m a b = roundMag fm m (decide (sum < 0)) sum.natAbs (d * q)) ∧
    (prod ≠ 0 → fpMul fm m a b = roundMag fm m (decide (prod < 0)) prod.natAbs (d * q)) ∧
    (prod = 0 → fpMul fm m a b = (fm.zero (s ^^ t), 0)) ∧
    (prod ≠ 0 → fused ≠ 0 → fpFma fm m a b c = roundMag fm m (decide (fused < 0)) fused.natAbs (d * q * l))

/-- Rounding (R63, R65, R69, R194). -/
def Obligations.RoundingIsCorrect : Prop :=
  Claim.RepresentableValuesRoundToThemselves ∧ Claim.RoundingIsNearestOrBelow ∧ Claim.FusedProductRoundsOnce

/-- A conversion to an integer clamps the rounded value to its range and raises NV where it clamps (R75): NaN gives 0. -/
def Claim.ConversionToIntegerClamps : Prop :=
  ∀ (fm : FFmt) (m : Rnd) (a : Word64),
    ((unpack fm a).isNan = true → fpToInt fm true 32 m a = (0, flagNV)) ∧
    (∀ s, unpack fm a = .inf s → (fpToInt fm true 32 m a) = (if s then -2 ^ 31 else 2 ^ 31 - 1, flagNV)) ∧
    (∀ s n d, unpack fm a = .fin s n d →
      let x := sgn s (roundInt m s n d).1
      (fpToInt fm true 32 m a).1 = max (-2 ^ 31) (min x (2 ^ 31 - 1)) ∧
      (fpToInt fm false 32 m a).1 = max 0 (min x (2 ^ 32 - 1)) ∧
      ((fpToInt fm true 32 m a).2 = flagNV ↔ (x < -2 ^ 31 ∨ 2 ^ 31 - 1 < x)))

/-- Corners of floating-point arithmetic (R65, R75, R194, R196). -/
def Obligations.FloatingPointCorners : Prop :=
  Claim.NanResults ∧ Claim.ComparisonsAreExclusive ∧ Claim.ConversionToIntegerClamps

/-! ### Masks, control transfer and the wave's own registers -/

/-- Mask instructions that pass their checks act on all 96 bits and write nothing but D (R162, R163). -/
def Claim.MaskInstructionsComplete : Prop :=
  ∀ (s : State) (w : Wave) (f : Fields),
    let a := w.readK f.a
    let b := w.readK f.b
    (∀ x ∈ maskArith, s.runs w (x.1 f) f .dest false = true → exec (x.1 f) s = .next (s.setMe ((w.putK f.d (x.2 a b)).after f))) ∧
    (s.runs w (.kPopc f) f .dest false = true → exec (.kPopc f) s = .next (s.setMe ((w.putS f.d
      (BitVec.ofNat 64 ((List.range 96).filter fun l => a.getLsbD l).length)).after f))) ∧
    (s.runs w (.kFirst f) f .dest false = true → exec (.kFirst f) s = .next (s.setMe ((w.putS f.d
      (BitVec.ofNat 64 (((List.range 96).find? fun l => a.getLsbD l).getD 96))).after f))) ∧
    (s.runs w (.kTestAny f) f .dest false = true →
      exec (.kTestAny f) s = .next (s.setMe ((w.putC f.d (decide (a &&& b ≠ 0))).after f))) ∧
    (s.runs w (.kTestAll f) f .dest false = true →
      exec (.kTestAll f) s = .next (s.setMe ((w.putC f.d (decide (a &&& b = b))).after f)))

/-- Every write of k0 is ANDed with the live mask, and no other mask register is (R147). -/
def Claim.ExecStaysWithinLive : Prop :=
  ∀ (w : Wave) (n : Nat) (m : Mask), w.k.length = 8 → n < 8 →
    (w.setK n m).kAt n = (if n = 0 then m &&& w.live else m) ∧ ∀ j, j ≠ n → (w.setK n m).kAt j = w.kAt j

/-- Mask instructions and the live mask (R147, R162, R163). -/
def Obligations.MaskInstructionsActOnAllLanes : Prop :=
  Claim.MaskInstructionsComplete ∧ Claim.ExecStaysWithinLive

/-- NOP and control transfers that pass their checks (R19, R20, R22, R159): the PC goes to the target, with bits [1:0] of a
register target read as zero; a target that is not canonical raises PAGE_FAULT 0x20 with the execute kind; CALL's D
receives the address of the sequential successor; BREZ branches when all 96 bits are zero. -/
def Claim.ControlTransferCompletes : Prop :=
  ∀ (s : State) (w : Wave) (f : Fields),
    let rel := w.pc + BitVec.ofInt 64 (4 * f.imm.toInt)
    let reg := fun (o : Opnd) => BitVec.ofNat 64 ((s.readS w (.int 64) o).toNat / 4 * 4)
    let goes := fun (i : Instr) (t : Word64) (up : Wave) =>
      (canonical t = true → exec i s = .next (s.setMe ({ up with wait := Wait.none }.goto t true))) ∧
      (canonical t = false → exec i s = s.trap 0x20 w.exec (pageInfo t.toNat 2 0))
    (s.runs w (.nop f) f .dest false = true → exec (.nop f) s = .next (s.setMe (w.after f))) ∧
    (s.runs w (.bra f) f .dest false = true → goes (.bra f) rel w) ∧
    (s.runs w (.brez f) f .dest false = true → w.readK f.a = 0 → goes (.brez f) rel w) ∧
    (s.runs w (.brez f) f .dest false = true → w.readK f.a ≠ 0 → exec (.brez f) s = .next (s.setMe (w.after f))) ∧
    (s.runs w (.brx f) f .dest false = true → goes (.brx f) (reg f.a) w) ∧
    (s.runs w (.ret f) f .dest false = true → goes (.ret f) (reg f.a) w) ∧
    (s.runs w (.call f) f .dest false = true →
      goes (.call f) (if f.isW then rel else reg f.b) (w.putS f.d (seqNext w.pc (fieldsBytes f))))

/-- The sequential successor of an instruction at a multiple of 4 that does not cross its fetch block is a multiple of 4 and
never at offset 28 (R20). -/
def Claim.SuccessorSkipsOffset28 : Prop :=
  ∀ (pc : Word64) (n : Nat), pc.toNat % 4 = 0 → n ∈ [8, 12, 16] → pc.toNat % 32 + n ≤ 32 →
    (seqNext pc n).toNat % 4 = 0 ∧ (seqNext pc n).toNat % 32 ≠ 28 ∧
      (seqNext pc n = pc + BitVec.ofNat 64 n ∨ (pc + BitVec.ofNat 64 n).toNat % 32 = 28 ∧ seqNext pc n = pc + BitVec.ofNat 64 n + 4)

/-- Control transfers and the sequential successor (R19, R20, R22, R159). -/
def Obligations.ControlTransfersComplete : Prop :=
  Claim.ControlTransferCompletes ∧ Claim.SuccessorSkipsOffset28

/-- REP, loops and YIELD that pass their checks (R157, R158, R161): REP loads the count and the strides of the wave's
state, and with a count of 0 skips its successor (one without a length to read by 8 bytes: the model's choice, log 63), whose
cache block is dropped if an error lies in it (R17); LOOP.PIN records the body in the state's own loop state when it is
legal and traps RESERVED_BITS when it is not; LOOP.END goes back to the start from the last instruction and is
otherwise a NOP; YIELD waits for the ready waves of its partition or for 64 clocks. -/
def Claim.RepeatAndLoopComplete : Prop :=
  ∀ (s : State) (w : Wave) (f : Fields),
    let n := (s.readS w (.int 32) f.a).toNat % 2 ^ 16
    let start := seqNext w.pc 12
    let last := w.pc + BitVec.ofInt 64 (4 * f.imm.toInt)
    let legal := start ≤ last ∧ last.toNat / 32 - start.toNat / 32 + 1 ≤ 32
    let idle := { w with wait := Wait.none }
    (s.runs w (.rep f) f .dest false = true → n ≠ 0 → exec (.rep f) s = .next (s.setMe
      (let x := idle.goto (seqNext w.pc 8) false
       if w.sup then { x with rep := BitVec.ofNat 16 n, repStrSup := f.m.setWidth 7 }
       else { x with rep := BitVec.ofNat 16 n, repStr := f.m.setWidth 7 }))) ∧
    (s.runs w (.rep f) f .dest false = true → n = 0 → let u := s.meetBlock w (seqNext w.pc 8)
      exec (.rep f) s = .next (u.setMe (idle.goto
      (seqNext (seqNext w.pc 8) (((u.codeByte w (seqNext w.pc 8)).map lengthOf).getD 8)) false))) ∧
    (s.runs w (.loopPin f) f .dest false = true → legal → exec (.loopPin f) s = .next (s.setMe
      ((if w.sup then { idle with loopSup := some ⟨start, last⟩ } else { idle with loop := some ⟨start, last⟩ }).goto start false))) ∧
    (s.me = some w → ¬ legal → exec (.loopPin f) s = s.trap 0x02 w.exec (insnInfo (.loopPin f))) ∧
    (s.runs w (.loopEnd f) f .dest false = true →
      (∀ l, (if w.sup then w.loopSup else w.loop) = some l → l.last = w.pc →
        exec (.loopEnd f) s = .next (s.setMe (idle.goto l.start false))) ∧
      ((∀ l, (if w.sup then w.loopSup else w.loop) = some l → l.last ≠ w.pc) →
        exec (.loopEnd f) s = .next (s.setMe (w.after f)))) ∧
    (s.runs w (.yield f) f .dest false = true → exec (.yield f) s = .next (s.setMe (({ w with
      yield := some (s.clkAfter w.unit 64, (s.waves.filter fun (x : Wave) => x.id.core == w.id.core && x.id.part == w.id.part &&
        x.id != w.id && s.canIssue x).map fun (x : Wave) => x.id) }).after f)))

/-- An iteration under REP of an instruction that REP may repeat, whose encoding passes checks 3 to 5 of R40, is that
instruction with its v registers offset by (count − 1) strides (R157); so an iteration of vector arithmetic that
passes its own checks ends with its result, one iteration less remaining. -/
def Claim.RepIterationCompletes : Prop :=
  ∀ (s : State) (w : Wave) (op : BitVec 8) (f : Fields) (i j : Instr) (g : Sig),
    let it := w.iterFields f
    let o := w.offsets
    s.me = some w → repEligible op.toNat = true → f.isV = true → Instr.ofOp op.toNat f = some i → i.sig = some g →
    (strideBad g f w.strides || !g.ok f) = false → (w.sup || !instrPriv i) = true →
    sigRegidx g f (s.cordOf w).kernel.regs (s.cordOf w).kernel.sregs o.1 o.2.1 o.2.2.1 o.2.2.2 = Option.none →
    Instr.ofOp op.toNat it = some j →
    exec (.repIteration op f) s = exec j s ∧
    ∀ x ∈ vectorArith, j = x.1 it → s.runs w j it .dest false = true →
      Out.ends (exec (.repIteration op f) s) fun t =>
        t = s.setMe ((w.aluPut it (Feed.ofTy it.ty).wide (List.zipWith (intAlu2 x.2 it.ty it.sat)
          (s.srcA w (.ofTy it.ty) it) (s.srcB w (.ofTy it.ty) (immSigned it.ty) it))).after it) ∧
        ∀ y, t.me = some y → 2 ≤ w.rep.toNat → y.pc = w.pc ∧ y.rep.toNat = w.rep.toNat - 1

/-- Repeats and loops (R157, R158, R161). -/
def Obligations.RepeatsAndLoopsComplete : Prop :=
  Claim.RepeatAndLoopComplete ∧ Claim.RepIterationCompletes

/-- Index registers (R153, R165, R166): XSET and XADD write the active lanes with the 16-bit sum; MOVX.RD and MOVX.WR
whose registers lie below the bound N and are full move one lane of a register for each active lane, the former once it has met
the errors of those lanes (R15, R16); an index at or beyond N traps REGIDX, and with a register empty the instruction waits or, under the trap policy, traps. -/
def Claim.IndexInstructionsComplete : Prop :=
  ∀ (s : State) (w : Wave) (f : Fields),
    let b := s.natB w f
    let sum := tabulate laneCount fun l => BitVec.ofNat 16 ((w.xAt (xNum f.a) l).toNat + b)
    let act := lanesOf w.exec
    let ia := act.map fun l => (l, (w.xAt (xNum f.a) l).toNat + b)
    let id := act.map fun l => (l, (w.xAt (xNum f.d) l).toNat + b)
    (s.runs w (.xset f) f .dest false = true → exec (.xset f) s = .next (s.setMe ((w.putX (xNum f.d) w.exec
      ((s.srcA w (.int 32) f).map fun x => BitVec.ofNat 16 (x.toNat + b))).after f))) ∧
    (∀ n, s.runs w (.xadd f) f .dest false = true → f.d = .x n →
      exec (.xadd f) s = .next (s.setMe ((w.putX n.toNat w.exec sum).after f))) ∧
    (s.runs w (.xadd f) f .dest false = true → (∀ n, f.d ≠ .x n) →
      exec (.xadd f) s = .next (s.setMe ((w.aluPut f false (sum.map fun x => x.setWidth 64)).after f))) ∧
    (∀ t, s.runs w (.movxRd f) f .dest false = true → (∀ x ∈ ia, x.2 < w.bound ∧ w.full x.2 = true) →
      (s.laneErrors w ia = (true, t) → exec (.movxRd f) s = .next (t.ctxFault (t.tagOf w) 0x50)) ∧
      (s.laneErrors w ia = (false, t) → exec (.movxRd f) s = .next (t.setMe ((w.aluPut f false
        (ia.foldl (fun (l : List Word64) x => l.set x.1 ((lane (w.vAt x.2) x.1).setWidth 64)) (List.replicate 96 0))).after f)))) ∧
    (s.runs w (.movxWr f) f .dest false = true → (∀ x ∈ id, x.2 < w.bound ∧ w.full x.2 = true) →
      exec (.movxWr f) s = .next (s.setMe ((id.foldl (fun w x =>
        w.setV x.2 ((w.vAt x.2).set x.1 (lo32 (laneOf (s.srcA w (.int 32) f) x.1)))) w).after f))) ∧
    (s.runs w (.movxRd f) f .dest false = true → (∃ x ∈ ia, w.bound ≤ x.2) → ∃ m info, exec (.movxRd f) s = s.trap 0x10 m info) ∧
    (s.runs w (.movxWr f) f .dest false = true → (∃ x ∈ id, w.bound ≤ x.2) → ∃ m info, exec (.movxWr f) s = s.trap 0x10 m info) ∧
    (s.runs w (.movxRd f) f .dest false = true → (∀ x ∈ ia, x.2 < w.bound) → (∃ x ∈ ia, w.full x.2 = false) →
      exec (.movxRd f) s = if f.pol.getLsbD 0 then s.trap 0x11 w.exec (emptyInfo 1 (encodeOpnd f.a)) else s.stall)

/-- REG.GROW and REG.SHRINK (R154 to R156): a size that is no multiple of 8 up to 256 raises GROW_LIMIT 0x12 with the size; a size
within the allocation only raises N; a growth whose granules are free adds registers that read zero and are full; a
shrink whose registers are full drops them; D of REG.GROW is 1. -/
def Claim.RegisterAllocationCompletes : Prop :=
  ∀ (s : State) (w : Wave) (f : Fields),
    let n := s.natB w f
    (s.runs w (.regGrow f) f .dest false = true →
      (256 < n ∨ n % 8 ≠ 0 → exec (.regGrow f) s = s.trap 0x12 w.exec (BitVec.ofNat 64 (min n 511))) ∧
      (n % 8 = 0 → n ≤ 256 → n ≤ w.alloc →
        exec (.regGrow f) s = .next (s.setMe (({ w with bound := max w.bound n }.putC f.d true).after f))) ∧
      (n % 8 = 0 → n ≤ 256 → w.alloc < n → s.growFits w n = true →
        exec (.regGrow f) s = .next (s.setMe (({ w with
          v := w.v ++ List.replicate (n - w.v.length) (⟨List.replicate 96 0, Option.none⟩ : VReg), bound := n }.putC f.d true).after f))) ∧
      (n % 8 = 0 → n ≤ 256 → w.alloc < n → s.growFits w n = false →
        Out.ends (exec (.regGrow f) s) fun t => s.othersGrow w = false → t = s.setMe { w with wait := .grow n f.d (fieldsBytes f) })) ∧
    (s.runs w (.regShrink f) f .dest false = true →
      (256 < n ∨ n % 8 ≠ 0 ∨ n < (s.cordOf w).kernel.regs → exec (.regShrink f) s = s.trap 0x12 w.exec (BitVec.ofNat 64 (min n 511))) ∧
      (n % 8 = 0 → n ≤ 256 → (s.cordOf w).kernel.regs ≤ n → w.alloc ≤ n → exec (.regShrink f) s = .next (s.setMe (w.after f))) ∧
      (n % 8 = 0 → (s.cordOf w).kernel.regs ≤ n → n ≤ 256 → n < w.alloc → (∀ i, n ≤ i → i < w.alloc → w.full i = true) →
        exec (.regShrink f) s = .next (s.setMe ({ w with v := w.v.take n, bound := min w.bound n }.after f))))

/-- Waits, instruction-cache invalidation and group queries (R144, R167, R220). -/
def Claim.WaitsAndGroupsComplete : Prop :=
  ∀ (s : State) (w : Wave) (f : Fields),
    (∀ n, s.runs w (.feWait f) { f with pol := 0 } .dest false = true → f.b = .int n →
      vNum f.a + n.toNat ≤ (s.cordOf w).kernel.regs →
      exec (.feWait f) s = if (∀ i, i < n.toNat → w.full (vNum f.a + i) = true) then
        .next (s.setMe (w.after f)) else s.stall) ∧
    (s.runs w (.feWaitAll f) f .dest false = true →
      exec (.feWaitAll f) s = if (∀ r ∈ w.v, r.producer = Option.none) then .next (s.setMe (w.after f)) else s.stall) ∧
    (s.runs w (.icInv f) f .dest false = true → s.released w = true →
      let a := (s.readS w (.int 64) f.a).toNat
      let n := s.natB w f
      exec (.icInv f) s = .next ({ s with icache := s.icache.filter fun l => !(l.tag == s.tagOf w &&
        (n == 0 || (decide (a < l.va.toNat + 32) && decide (l.va.toNat < a + n)))) }.setMe (w.after f))) ∧
    (s.runs w (.icInv f) f .dest false = true → s.released w = false → exec (.icInv f) s = s.stall) ∧
    (s.runs w (.grpInfo f) f .dest false = true → s.natB w f ≤ 255 →
      let e := (s.cordOf w).group (s.natB w f)
      let put := fun (r : Nat) => (.next (s.setMe ((w.putS f.d (BitVec.ofNat 64 r)).after f)) : Out)
      (f.m = 0 → exec (.grpInfo f) s = put (e.toNat % 2 ^ 64)) ∧
      (f.m = 1 → exec (.grpInfo f) s = put (e.toNat / 2 ^ 64 % 2 ^ 16 + if e.toNat % 2 ^ 64 = 0 then 0 else 2 ^ 16)) ∧
      (f.m = 2 → exec (.grpInfo f) s = put (if (grpList e).contains w.index then
        ((grpList e).filter fun i => decide (i < w.index)).length else 0xFFFFFFFF)) ∧
      (f.m = 3 → exec (.grpInfo f) s = put (grpList e).length) ∧
      Out.ends (exec (.grpInfo f) s) fun t => ∃ r, t = s.setMe ((w.putS f.d r).after f))

/-- Index registers, allocation, waits and groups (R144, R153 to R156, R165 to R167, R220). -/
def Obligations.IndexesAllocationAndWaitsComplete : Prop :=
  Claim.IndexInstructionsComplete ∧ Claim.RegisterAllocationCompletes ∧ Claim.WaitsAndGroupsComplete

/-! ### Traps, system registers and checks -/

/-- Taking a trap in user state (R100, R101, R103): the frame is stored in the wave's trap area, PC and REP in it as they
were; the wave is in supervisor state at TRAPVEC with REP 0, the cause, mask and information latched and k0 the
mask within live, and the rest of the wave is as it was. In supervisor state the context faults with reason 0x51; with 0x50 for
an error of a register that the frame holds, or a poisoned sector of the frame (R16); with 0x52 for a frame that does not
translate. -/
def Claim.TrapEntry : Prop :=
  ∀ (s : State) (w : Wave) (cause : Nat) (mask : Mask) (info : Word64), s.me = some w → cause < 256 →
    (w.sup = true → s.trap cause mask info = .next (s.ctxFault (s.tagOf w) 0x51)) ∧
    (∀ u, w.sup = false → s.readErrors w frameReads = (true, u) → s.trap cause mask info = .next (u.ctxFault (s.tagOf w) 0x50)) ∧
    (∀ u, w.sup = false → s.readErrors w frameReads = (false, u) →
      let frame := u.waveStore w true (u.trapArea w) (w.trapFrame cause mask info)
      (∀ t, frame = (t, .ok ()) →
        s.trap cause mask info = .next (t.modMe fun x => x.enterTrap (t.ctx (s.tagOf w)).trapvec cause mask info)) ∧
      (∀ t c p a, frame = (t, .fault c p a) → s.trap cause mask info = .next (t.ctxFault (s.tagOf w) 0x52)) ∧
      (∀ t, frame = (t, .bad) → s.trap cause mask info = .next (t.ctxFault (s.tagOf w) 0x50)) ∧
      (∀ t, frame = (t, .wait) → s.trap cause mask info = t.stall)) ∧
    (∀ v, w.k.length = 8 →
      let x := w.enterTrap v cause mask info
      x.sup = true ∧ x.pc.toNat = v / 4 * 4 % 2 ^ 64 ∧ x.rep = 0 ∧ x.trapcause.toNat = cause ∧ x.trapmask = mask ∧
      x.trapinfo = info ∧ x.exec = mask &&& w.live ∧ (∀ n, n ≠ 0 → x.kAt n = w.kAt n) ∧ x.c = w.c ∧ x.s = w.s ∧ x.v = w.v ∧
      x.o = w.o ∧ x.x = w.x ∧ x.q = w.q ∧ x.l = w.l ∧ x.lSup = w.lSup ∧ x.live = w.live ∧ x.loop = w.loop ∧ x.repStr = w.repStr)

/-- The 256 bytes of the trap frame (R101). -/
def Claim.TrapFrameLayout : Prop :=
  ∀ (w : Wave) (cause : Nat) (mask : Mask) (info : Word64), cause < 256 →
    let b := w.trapFrame cause mask info
    b.length = 256 ∧ numAt b 0 8 = w.pc.toNat ∧ numAt b 8 8 = info.toNat ∧ numAt b 0x10 4 = cause ∧ numAt b 0x14 4 = w.rep.toNat ∧
    numAt b 0x18 12 = mask.toNat ∧ numAt b 0x24 4 = w.c.toNat ∧
    (∀ i, i < 8 → numAt b (0x28 + 12 * i) 12 = (w.kAt i).toNat) ∧ (∀ i, i < 16 → numAt b (0x88 + 4 * i) 4 = (w.sAt i).toNat)

/-- Taking a trap (R100, R101, R103). -/
def Obligations.TakingATrap : Prop :=
  Claim.TrapEntry ∧ Claim.TrapFrameLayout

/-- A return from a trap undoes what taking it changed (R100, R101, R105): PC, state, REP, the conditions, the masks and s0
to s15 are as before the trap, whatever the frame's other bytes; what the trap latched stays. -/
def Obligations.TrapReturnRestores : Prop :=
  ∀ (w : Wave) (v cause : Nat) (mask : Mask) (info : Word64), w.sup = false → w.pc.toNat % 4 = 0 → w.c.getLsbD 0 = true →
    w.k.length = 8 → w.exec &&& w.live = w.exec → 16 ≤ w.s.length →
    let x := (w.enterTrap v cause mask info).leaveTrap (w.trapFrame cause mask info)
    x.pc = w.pc ∧ x.sup = false ∧ x.rep = w.rep ∧ x.c = w.c ∧ x.k = w.k ∧ x.s = w.s ∧ x.v = w.v ∧ x.live = w.live ∧
      x.trapmask = mask ∧ x.trapinfo = info

/-- Instructions whose effect is a trap or a return from one (R59, R104, R105): TRAP takes TRAP_INSN with its code and an
illegal encoding ILLEGAL_OP with its bits, whatever exec holds; TRET restores the wave from its frame. -/
def Claim.TrapInstructionsComplete : Prop :=
  ∀ (s : State) (w : Wave) (f : Fields),
    let code := (lo32 (s.scalB w (.int 32) false f)).setWidth 64
    (∀ u t, s.runs w (.trap f) f .dest false = true → w.sup = false → s.readErrors w frameReads = (false, u) →
      u.waveStore w true (u.trapArea w) (w.trapFrame 5 w.exec code) = (t, .ok ()) →
        exec (.trap f) s = .next (t.modMe fun x => x.enterTrap (t.ctx (s.tagOf w)).trapvec 5 w.exec code)) ∧
    (s.runs w (.trap f) f .dest false = true → w.sup = true → exec (.trap f) s = .next (s.ctxFault (s.tagOf w) 0x51)) ∧
    (∀ bits u t, s.me = some w → w.sup = false → s.readErrors w frameReads = (false, u) →
      u.waveStore w true (u.trapArea w) (w.trapFrame 1 w.exec (bits.setWidth 64)) = (t, .ok ()) →
        exec (.illegalOp bits) s = .next (t.modMe fun x => x.enterTrap (t.ctx (s.tagOf w)).trapvec 1 w.exec (bits.setWidth 64))) ∧
    (∀ t fr, s.runs w (.tret f) f .dest false = true → s.waveLoad w true (s.trapArea w) 200 0 = (t, .ok fr) →
      exec (.tret f) s = .next (t.modMe fun x => x.leaveTrap fr))

/-- System registers, sleep and upcalls (R67, R70, R106 to R109). SYS.RD gives D the register's value, waiting for
outstanding flags and completion times, and for %trappc once it has met the errors of the frame (R15, R16); SYS.WR keeps five flag bits, replaces a zero seed by 1, sets the frame pool and
stores %trappc to the frame; SLEEP ends at once on a pending wake or a duration of 0 and waits otherwise; UPCALL posts
its entry when the ring's next entry is free and the event of its die's ring has room (R429), and waits for its answer; that a
service number of 65,536 and more is taken modulo 65,536 is the model's choice (log 43). -/
def Claim.SystemInstructionsComplete : Prop :=
  ∀ (s : State) (w : Wave) (f : Fields),
    let x := s.readS w (.int 64) f.a
    (∀ r u, s.runs w (.sysRd f) f .dest false = true → f.sysReg = some r → (r = .spec .fpflags → s.flagsPending w = false) →
      (r = .spec .horizon → w.watch = []) →
      let met := if r = .spec .trappc then s.meetFrame w else (false, s)
      (met = (true, u) → exec (.sysRd f) s = .next (u.ctxFault (u.tagOf w) 0x50)) ∧
      (met = (false, u) → exec (.sysRd f) s = .next (u.setMe ((w.putS f.d (u.sysVal w r)).after f)))) ∧
    (s.runs w (.sysWr f) f .dest false = true →
      (f.sysReg = some (.spec .fpflags) → s.flagsPending w = false → exec (.sysWr f) s =
        .next (s.setMe ({ w with fpflags := (s.readS w (.int 32) f.a).setWidth 5 }.after f))) ∧
      (f.sysReg = some (.spec .srseed) → exec (.sysWr f) s = .next (s.setMe ({ w with srseed := if x = 0 then 1 else x }.after f))) ∧
      (f.sysReg = some .framepool → exec (.sysWr f) s =
        .next ((s.modCtx (s.tagOf w) fun c => { c with fpool := x.toNat }).setMe (w.after f))) ∧
      (∀ t, f.sysReg = some (.spec .trappc) → s.waveStore w true (s.trapArea w) (bytesOfNat 8 x.toNat) = (t, .ok ()) →
        exec (.sysWr f) s = .next (t.modMe fun y => y.after f))) ∧
    (s.runs w (.sleep f) f .dest false = true →
      exec (.sleep f) s = .next (s.setMe (
        if w.wake then ({ w with wake := false }.putS f.d 1).after f
        else if s.natB w f = 0 then (w.putS f.d 0).after f
        else { w with wait := .sleep (s.time + s.natB w f) f.d (fieldsBytes f) }))) ∧
    (∀ t l, s.runs w (.upcall f) f .dest false = true →
      let c := s.ctx (s.tagOf w)
      s.locate w.unit (s.tagOf w) w.die true 1 Option.none (piecesOf (c.mailbox + 64 * c.mbnext) 64) = (t, .ok l) →
      let pa := (l.map fun x => x.1).headD 0
      let free := t.homeBytes pa 4 = bytesOfNat 4 0 ∧ t.latestBytes pa 4 = bytesOfNat 4 0 ∧ t.mayPost w.die = true
      (¬ free → exec (.upcall f) s = t.stall) ∧
      (free → exec (.upcall f) s = .next (
        (((t.storePieces (.wave w.id) (some (t.tagOf w)) Option.none true l (t.mailEntry w (s.natB w f % 65536) x)).2.modCtx (s.tagOf w) fun c =>
          { c with mbnext := (c.mbnext + 1) % 2 ^ c.mblog2 }).post w.die 1 (s.tagOf w) c.mbnext 0).modMe fun y =>
            { y with wait := .upcall c.mbnext f.d Option.none (fieldsBytes f) })))

/-- Where a sleep ends (R109): at its deadline, with D 0 and the PC past it. -/
def Claim.SleepEndsAtItsDeadline : Prop :=
  ∀ (s : State) (id : WaveId) (w : Wave) (t len : Nat) (d : Opnd), s.waveAt id = some w → w.wait = .sleep t d len → t ≤ s.time →
    Out.ends (exec (.sleepDeadline id) s) fun u => u.waveAt id = some ((w.putS d 0).next len) ∧ u.mem = s.mem ∧ u.writes = s.writes

/-- System instructions (R59, R67, R70, R104 to R109). -/
def Obligations.SystemInstructionsEnd : Prop :=
  Claim.TrapInstructionsComplete ∧ Claim.SystemInstructionsComplete ∧ Claim.SleepEndsAtItsDeadline

/-- The privileged instructions (R40 check 4, R49): those whose opcode or whose operands are the supervisor's. -/
def Claim.PrivilegedInstructions : Prop :=
  ∀ (f : Fields),
    instrPriv (.tret f) = true ∧ instrPriv (.pgInvVa f) = true ∧ instrPriv (.pgInvCtx f) = true ∧ instrPriv (.pgSync f) = true ∧
    (f.sysReg ∈ [some SysReg.trapframe, some SysReg.supbase, some SysReg.framepool, some SysReg.mailbox] →
      instrPriv (.sysRd f) = true) ∧
    (f.sysReg ∈ [some SysReg.ctxtag, some SysReg.versions, some (.spec .time)] → instrPriv (.sysRd f) = false) ∧
    (∀ x ∈ vectorArith, instrPriv (x.1 f) = (supReg f.d || supReg f.a || supReg f.b || supReg f.c))

/-- The checks that come before an instruction's own work (R30, R31, R40, R49): for every instruction with operand fields
other than LOOP.PIN and FE.WAIT, whose own check of the encoding comes first, a supervisor instruction or register in
user state raises PRIVILEGED; and for these but MMA and MMA.SP, whose B field is no operand when unscaled, a register
beyond the kernel's declaration raises REGIDX, and a false guard only moves the PC on, dropping a kept pass (R265). -/
def Claim.ChecksComeFirst : Prop :=
  ∀ (s : State) (w : Wave) (i : Instr) (op : BitVec 8) (f : Fields) (g : Sig), s.me = some w → i.opFields = some (op, f) →
    i.sig = some g → (∀ h, i ≠ .loopPin h ∧ i ≠ .feWait h) →
    (w.sup = false → instrPriv i = true → exec i s = s.trap 0x04 w.exec (insnInfo i)) ∧
    ((w.sup || !instrPriv i) = true → (∀ h, i ≠ .mma h ∧ i ≠ .mmaSp h) →
      (∀ info, sigRegidx g f (s.cordOf w).kernel.regs (s.cordOf w).kernel.sregs 0 0 0 0 = some info →
        exec i s = s.trap 0x10 w.exec info) ∧
      (sigRegidx g f (s.cordOf w).kernel.regs (s.cordOf w).kernel.sregs 0 0 0 0 = Option.none → w.guard f.g = false →
        exec i s = .next (s.setMe (w.endPass.next (fieldsBytes f)))))

/-- The checks before execution (R30, R31, R40, R49). -/
def Obligations.ChecksBeforeExecution : Prop :=
  Claim.PrivilegedInstructions ∧ Claim.ChecksComeFirst

/-- A pair that passes its checks does both halves, their sources read before either writes (R37 to R39, R52, R53); with a
false guard it only moves the PC on. -/
def Obligations.PairCompletes : Prop :=
  ∀ (s : State) (w : Wave) (p : PairFields),
    let a := (w.sAt p.sa.toNat).setWidth 64
    let b := w.readSB p.sb
    let k := match vopFmt p.vop with | some m => Feed.fp m | Option.none => Feed.int 32
    let r := (List.zip (widen (w.vAt p.va.toNat)) (List.zip (s.readV w k 0 (vbOpnd p.vb)) (widen (w.vAt p.vd.toNat)))).map fun x =>
      vopLane p.vop x.1 x.2.1 x.2.2
    let x := match sopResult p.sop a b with | some y => w.setS p.sd.toNat (lo32 y) | Option.none => w
    let y := if p.vop = .nop then x else (((x.putV w.exec false (.v p.vd) (r.map fun z => z.1)).shiftFor (.v p.vd)).orFlags
      (activeFlags w.exec r)).pop [vbOpnd p.vb]
    (s.runsPair w p = true → exec (.pair p) s = .next (s.setMe (y.next 8))) ∧
    (s.me = some w → pairRegidx p (s.cordOf w).kernel.regs (s.cordOf w).kernel.sregs = Option.none → w.guard p.g = false →
      exec (.pair p) s = .next (s.setMe (w.next 8)))

/-! ### Frames of register instructions -/

/-- What integer, floating-point and mask instructions leave alone, when they pass their checks: every register but their
destination and c0, every lane that is not active, the floating-point flags of an integer instruction, every other wave
and every byte of memory (R5, R145, R168, R192). -/
def Obligations.RegisterInstructionsFrame : Prop :=
  ∀ (s : State) (w : Wave) (f : Fields), s.me = some w →
    (∀ x ∈ scalarArith, s.runs w (x.1 f) f .dest false = true → Out.ends (exec (x.1 f) s) fun t => ∃ y, t = s.setMe y ∧
      w.keeps y (destRegs false f.d) ∧ y.fpflags = w.fpflags ∧ y.v = w.v ∧ y.l = w.l ∧ y.lSup = w.lSup ∧ s.sameBytes t) ∧
    (∀ x ∈ vectorArith, s.runs w (x.1 f) f .dest false = true → Out.ends (exec (x.1 f) s) fun t => ∃ y, t = s.setMe y ∧
      w.keeps y (destRegs (Feed.ofTy f.ty).wide f.d) ∧ w.keepsLanes y w.exec ∧ y.fpflags = w.fpflags ∧ y.s = w.s ∧ s.sameBytes t) ∧
    (∀ x ∈ floatArith f, s.runs w (x.1 f) f .dest false = true → Out.ends (exec (x.1 f) s) fun t => ∃ y, t = s.setMe y ∧
      w.keeps y (destRegs (Feed.fp x.2.1).wide f.d) ∧ w.keepsLanes y w.exec ∧ y.srseed = w.srseed ∧ y.s = w.s ∧
      w.fpflags ||| y.fpflags = y.fpflags ∧ s.sameBytes t) ∧
    (∀ x ∈ maskArith, s.runs w (x.1 f) f .dest false = true → Out.ends (exec (x.1 f) s) fun t => ∃ y, t = s.setMe y ∧
      w.keeps y (destRegs false f.d) ∧ y.fpflags = w.fpflags ∧ y.v = w.v ∧ y.s = w.s ∧ y.l = w.l ∧ y.lSup = w.lSup ∧ s.sameBytes t)

/-! ### Memory instructions -/

/-- Vector loads that pass their checks give each active lane the bytes that the wave reads at the lane's address, narrow
ones extended, and send them to D; after translation they change no byte (R263 to R268, R151). -/
def Claim.VectorLoadsComplete : Prop :=
  ∀ (s t : State) (w : Wave) (f : Fields) (l : List Located),
    let n := 2 ^ f.msize
    let per := f.ord == 0
    let lanes := fun (ad : List Nat) => passGroups per (if per then w.firstPass else 0) (w.laneVas ad)
    let got := l.map fun x => (x.lane, loadWords f.msize f.sx (t.waveBytes w.id x.pieces))
    let done := fun (o : Out) => Out.ends o fun u => ∃ v, u = v.sent f (maskOf (l.map fun x => x.lane)) (lanesFrom (2 ^ (f.msize - 2)) got) ∧
      t.sameBytes v ∧ ∀ x y, t.me = some x → v.me = some y → x.sameRegs y
    (s.runs w (.ld f) f .dest false = true →
      State.checkGroups w per 0 n (lanes (s.indexedAddrs w f)) s = (t, l, .all) → done (exec (.ld f) s)) ∧
    (s.runs w (.ldK f) f .dest false = true →
      State.checkGroups w per 0 n (lanes (s.frameAddrs w f)) s = (t, l, .all) → done (exec (.ldK f) s))

/-- Scalar and mask loads whose address translates give D the bytes that the wave reads there (R164, R242, R267, R269). -/
def Claim.ScalarLoadsComplete : Prop :=
  ∀ (s t : State) (w : Wave) (f : Fields) (l : List (Nat × Nat × Word64)),
    let at_ := fun (va n : Nat) => s.locate w.unit (s.tagOf w) w.die w.sup 0 (some w.core) (piecesOf va n) = (t, .ok l)
    let done := fun (o : Out) (put : Wave → Wave) => Out.ends o fun u => ∃ v, u = v.modMe (fun x => (put x).after f) ∧ t.sameBytes v ∧
      ∀ x y, t.me = some x → v.me = some y → x.sameRegs y
    (s.runs w (.sLd f) f .dest false = true → at_ (s.scalarAddr w f) (2 ^ f.msize) →
      done (exec (.sLd f) s) fun x => x.putS f.d (match loadWords f.msize f.sx (t.waveBytes w.id l) with
        | [lo] => lo.setWidth 64
        | lo :: hi :: _ => hi ++ lo
        | [] => 0)) ∧
    (s.runs w (.kLd f) f .dest false = true → at_ (wrap64 ((s.readS w (.int 64) f.a).toNat + f.off)) 12 →
      done (exec (.kLd f) s) fun x => x.putK f.d (BitVec.ofNat 96 (natOfBytes (t.waveBytes w.id l))))

/-- The values that a load gives for its bytes (R267): little-endian, one byte or two extended by sign or zero, longer ones
as words from the lowest address up. -/
def Claim.LoadedWords : Prop :=
  ∀ b0 b1 b2 b3 b4 b5 b6 b7 : Byte,
    (∀ sx, (loadWords 0 sx [b0]).map BitVec.toInt = [if sx then b0.toInt else (b0.toNat : Int)]) ∧
    (∀ sx, (loadWords 1 sx [b0, b1]).map BitVec.toInt = [if sx then (b1 ++ b0).toInt else ((b1 ++ b0).toNat : Int)]) ∧
    (∀ sx, loadWords 2 sx [b0, b1, b2, b3] = [b3 ++ b2 ++ b1 ++ b0]) ∧
    (∀ sx, loadWords 3 sx [b0, b1, b2, b3, b4, b5, b6, b7] = [b3 ++ b2 ++ b1 ++ b0, b7 ++ b6 ++ b5 ++ b4])

/-- Addresses are computed exactly and wrap at 64 bits (R263). -/
def Claim.AddressesWrap : Prop :=
  ∀ (s : State) (w : Wave) (f : Fields) (n : Nat), n < 96 →
    let ix := fun (sg : Bool) (x : Word64) => if sg then (lo32 x).toInt else ((lo32 x).toNat : Int)
    ((s.indexedAddrs w f).getD n 0 : Int) = ((laneOf (s.srcA w (.int 64) f) n).toNat +
      ix f.bsgn (laneOf (s.fieldB w (.int 32) f) n) * 2 ^ f.scale +
      (if f.isX then ix f.csgn (laneOf (s.srcC w (.int 32) f) n) * f.cstride else 0) + f.off) % 2 ^ 64

/-- Loads and their addresses (R164, R242, R263 to R269). -/
def Obligations.LoadsComplete : Prop :=
  Claim.VectorLoadsComplete ∧ Claim.ScalarLoadsComplete ∧ Claim.LoadedWords ∧ Claim.AddressesWrap

/-- Stores whose addresses translate, those with release order too, put each active lane's bytes at the lane's address, the
higher lane's where two lanes write one byte, and every other byte reads as before (R239, R241, R242, R267). -/
def Claim.VectorStoresComplete : Prop :=
  ∀ (s t : State) (w : Wave) (f : Fields) (l : List Located),
    let pol := match f.fmt with | .x128 e => e.getLsbD 40 | _ => f.pol.getLsbD 2
    let per := f.ord == 0
    let data := s.dataLanes w f.msize (nthPop [f.a, f.b, f.c] f.d) f.d
    s.runs w (.st f) f (.src pol) false = true →
    State.checkGroups w per 1 (2 ^ f.msize) (passGroups per (if per then w.firstPass else 0) (w.laneVas (s.indexedAddrs w f))) s =
      (t, l, .all) →
    Out.ends (exec (.st f) s) fun u => ∃ v, u = v.modMe (fun x => x.dropPass.after f) ∧
      t.stored v w.id (storeCells (fun i => data.getD i []) l).1 ∧
      ∀ x y, t.me = some x → v.me = some y → x.sameRegs y

/-- Scalar and mask stores (R164, R239, R241, R242, R269). -/
def Claim.ScalarStoresComplete : Prop :=
  ∀ (s t : State) (w : Wave) (f : Fields) (l : List (Nat × Nat × Word64)),
    let at_ := fun (va n : Nat) => s.locate w.unit (s.tagOf w) w.die w.sup 1 (some w.core) (piecesOf va n) = (t, .ok l)
    let done := fun (o : Out) (bs : List Byte) => Out.ends o fun u => ∃ v, u = v.ended f ∧ t.stored v w.id (placed l bs) ∧
      ∀ x y, t.me = some x → v.me = some y → x.sameRegs y
    (s.runs w (.sSt f) f (.src false) false = true → at_ (s.scalarAddr w f) (2 ^ f.msize) →
      done (exec (.sSt f) s) (bytesOfNat (2 ^ f.msize) (s.readS w (.int (if f.msize = 3 then 64 else 32)) f.d).toNat)) ∧
    (s.runs w (.kSt f) f (.src false) false = true → at_ (wrap64 ((s.readS w (.int 64) f.a).toNat + f.off)) 12 →
      done (exec (.kSt f) s) (bytesOfNat 12 (w.readK f.d).toNat))

/-- Stores (R164, R239, R241, R242, R267, R269). -/
def Obligations.StoresComplete : Prop :=
  Claim.VectorStoresComplete ∧ Claim.ScalarStoresComplete

/-- Scratchpad instructions whose active lanes lie in the span, and meet no error that cannot be corrected, read and write
the cord's span; a lane outside the span traps SPAD_BOUNDS 0x28 (R270, R271, R276). The lanes
of ATOM.S act in ascending order, each on what the one before it left. -/
def Obligations.ScratchpadInstructionsComplete : Prop :=
  ∀ (s t : State) (w : Wave) (f : Fields),
    let n := 2 ^ f.msize
    let m := atomBytes f.aop f.msize
    let size := (s.cordOf w).kernel.scratch
    let offs := s.spadOffs w f
    let act := lanesOf w.exec
    let o := if f.isW then f.d else f.c
    let data := s.dataLanes w f.msize (nthPop [f.a] o) o
    let inside := fun (k : Nat) (l : List Int) => ∀ i ∈ act, 0 ≤ l.getD i 0 ∧ l.getD i 0 + k ≤ size
    let ao := (s.srcA w (.int 32) f).map fun x => (x.toNat : Int) + f.off
    (s.runs w (.ldS f) f .dest false = true → inside n offs → s.spadLaneErrors w n offs = (false, t) →
      exec (.ldS f) s = .next (t.sent f w.exec (lanesFrom (2 ^ (f.msize - 2)) (act.map fun i =>
        (i, loadWords f.msize f.sx (cellsGet (t.cordOf w).scratch (offs.getD i 0).toNat n)))))) ∧
    (s.runs w (.stS f) f (if f.isW then .src (f.pol.getLsbD 2) else .dest) false = true → inside n offs →
      s.spadLaneErrors w n offs = (false, t) →
      exec (.stS f) s = .next ((t.modCord w.cord fun c => c.spadPut (act.flatMap fun i =>
        cellsAt (offs.getD i 0).toNat (data.getD i []))).ended f)) ∧
    (s.runs w (.ldS f) f .dest false = true → ¬ inside n offs → ∃ k info, exec (.ldS f) s = s.trap 0x28 k info) ∧
    (s.runs w (.atomS f) f .dest false = true → inside m ao → (∀ i ∈ act, (ao.getD i 0) % 32 + m ≤ 32) →
      s.spadLaneErrors w m ao = (false, t) →
      Out.ends (exec (.atomS f) s) fun u => ∃ c r, spadServed m (8 * n) f.aop ao (t.atomData w f) act (t.cordOf w) r c ∧
        u = (t.modCord w.cord fun _ => c).sent f w.exec
          (lanesFrom (2 ^ (f.msize - 2)) (r.map fun x => (x.1, loadWords f.msize false (bytesOfNat n x.2)))))

/-- What an atomic leaves in memory for the value that it found (R274): 32 or 64 bits as numbers, natural or signed. -/
def Claim.AtomicOperators : Prop :=
  ∀ (bits old b c : Nat), bits ∈ [32, 64] → old < 2 ^ bits → b < 2 ^ bits →
    let sg := fun (x : Nat) => (BitVec.ofNat bits x).toInt
    atomNew 0 bits old b c = (old + b) % 2 ^ bits ∧
    sg (atomNew 1 bits old b c) = min (sg old) (sg b) ∧ atomNew 2 bits old b c = min old b ∧
    sg (atomNew 3 bits old b c) = max (sg old) (sg b) ∧ atomNew 4 bits old b c = max old b ∧
    BitVec.ofNat bits (atomNew 5 bits old b c) = BitVec.ofNat bits old &&& BitVec.ofNat bits b ∧
    BitVec.ofNat bits (atomNew 6 bits old b c) = BitVec.ofNat bits old ||| BitVec.ofNat bits b ∧
    BitVec.ofNat bits (atomNew 7 bits old b c) = BitVec.ofNat bits old ^^^ BitVec.ofNat bits b ∧
    atomNew 8 bits old b c = b ∧ atomNew 9 bits old b c = (if old = c then b else old) ∧ atomNew 15 bits old b c = old

/-- Fresh names hold at reset, and a new write, an acceptance and a completion keep them. -/
def Obligations.WriteNamesStayFresh : Prop :=
  namesFresh State.reset ∧
  ∀ s : State, namesFresh s →
    (∀ ag tag core bs g cm p bells, namesFresh (s.newWrite ag tag core bs g cm p bells).2) ∧
    (∀ b id, namesFresh (s.acceptAs b id)) ∧ (∀ id, namesFresh (s.complete id))

/-- Atomics whose checks pass, and that no release holds up, act lane by lane at home and send the old values to D, none for
RED (R243, R275, R277). That one with release order waits for its release (R241 speaks of stores), and that one follows the
wave's own store to its sector whose release has not been made (R238), is the model's reading (log 58); so is that the core's
own dirty bytes are written back first (log 18). -/
def Claim.AtomicsComplete : Prop :=
  ∀ (s t : State) (w : Wave) (f : Fields) (l : List Located), s.checkAtom w f (s.baseAddrs w f) = (t, l, .all) →
    let free := (f.ord ≠ 2 ∨ s.releasedAt w f.scope = true) ∧ t.ownHeld w l = false
    let r := State.performAtom w f (s.atomData w f) (s.atomCmp w f) l t
    let got := lanesFrom (2 ^ (f.msize - 2)) (r.1.map fun x => (x.1, loadWords f.msize false (bytesOfNat (2 ^ f.msize) x.2)))
    (s.runs w (.atom f) f .dest false = true → free → exec (.atom f) s = .next (r.2.sent f w.exec got)) ∧
    (s.runs w (.red f) f .dest false = true → free → exec (.red f) s = .next (r.2.sent { f with d := Opnd.none } w.exec got)) ∧
    (f.ord = 2 → s.releasedAt w f.scope = false →
      (s.runs w (.atom f) f .dest false = true → exec (.atom f) s = s.stall) ∧
      (s.runs w (.red f) f .dest false = true → exec (.red f) s = s.stall))

/-- One lane of an atomic (R243): what it returns is the latest value in coherence order once the core's earlier writes to
the sector have been accepted, its dirty bytes first (log 18), and where no other core's write tenure holds the bytes, their root
has or can have a directory entry (R324) and the sector is sound its own write comes next in that order; bytes of a DOORBELL
read as zero (R114). -/
def Claim.AtomicActsAtHome : Prop :=
  ∀ (s : State) (w : Wave) (va pa n : Nat) (e : Word64) (g : Nat → Nat), namesFresh s → inSectors s → 0 < n → pa % 32 + n ≤ 32 →
    (∀ x ∈ s.writes, x.agent = .wave w.id → x.sector = sectorBase pa → x.rel = none) →
    let u := (s.flushSector w.core (sectorBase pa)).acceptSector w.core (sectorBase pa)
    let r := s.atomHome w va pa n e g
    r.1 = natOfBytes (u.latestBytes pa n) ∧
    (u.poison.contains (sectorBase pa) = false → (∀ i, i < n → u.heldBack (pa + i) (some w.core) = false ∧ u.dirFull (pa + i) = false) →
      ∀ i, i < n → r.2.latestByte (pa + i) = (u.doorless pa (bytesOfNat n (g r.1))).getD i 0)

/-- Atomics and reductions (R243, R274 to R277). -/
def Obligations.AtomicsCompleteAtHome : Prop :=
  Claim.AtomicOperators ∧ Claim.AtomicsComplete ∧ Claim.AtomicActsAtHome

/-- Fences, promotion and hints (R241, R244, R279 to R283): a fence that orders earlier stores waits for the release of its
scope and otherwise goes on; ACQ.RS without open writes ends with H, which is 0 for a core number that names no core;
PREF waits where a load would wait, faults the context where it meets a poisoned sector (R16, log 30), and otherwise changes no
register and no byte; DISCARD drops the issuing core's copies of the range and sets the retain level of its lines at home to 1;
of a sector that the core holds dirty only the level changes (R283). -/
def Obligations.OrderingInstructionsComplete : Prop :=
  ∀ (s : State) (w : Wave) (f : Fields),
    (s.runs w (.fence f) f .dest false = true → (f.ord = 1 ∨ s.releasedAt w f.scope = true) →
      exec (.fence f) s = .next (s.setMe (w.after f))) ∧
    (s.runs w (.fence f) f .dest false = true → f.ord ≠ 1 → s.releasedAt w f.scope = false → exec (.fence f) s = s.stall) ∧
    (s.runs w (.acqRs f) f .dest false = true → (∀ ids h, w.wait ≠ .acq ids h) → 192 ≤ s.natB w f →
      exec (.acqRs f) s = .next (s.setMe ({ (w.putS f.d 0).raise 0 with hold := max w.hold 0 }.after f))) ∧
    (s.runs w (.acqRs f) f .dest false = true → (∀ ids h, w.wait ≠ .acq ids h) → s.natB w f < 192 →
      (∀ x ∈ s.throughs (s.natB w f), x.ctime.isSome = true) →
      let h := ((s.throughs (s.natB w f)).map fun x => x.ctime.getD 0).foldl max 0
      exec (.acqRs f) s = .next ({ s with l1 := s.l1.filter fun l => l.core != s.natB w f || s.dirtyIn (s.natB w f) l.pa }.setMe
        ({ (w.putS f.d (BitVec.ofNat 64 h)).raise h with hold := max w.hold h }.after f))) ∧
    (∀ h, s.runs w (.acqRs f) f .dest false = true → w.wait = .acq [] h →
      exec (.acqRs f) s = .next (s.setMe ({ (w.putS f.d (BitVec.ofNat 64 h)).raise h with hold := max w.hold h }.after f))) ∧
    (s.runs w (.pref f) f .dest false = true → w.exec = 0 → exec (.pref f) s = .next (s.setMe (w.after f))) ∧
    (∀ (t : State) (r : Acc (List (Nat × Nat × Word64))), s.runs w (.pref f) f .dest false = true →
      State.prefLanes w (2 ^ f.msize) ((lanesOf w.exec).map fun i => (s.indexedAddrs w f).getD i 0) s = (t, r) →
      (r = .wait → exec (.pref f) s = t.stall) ∧
      (r = .bad → exec (.pref f) s = .next (t.ctxFault (t.tagOf w) 0x50)) ∧
      (r ≠ .wait → r ≠ .bad → Out.ends (exec (.pref f) s) fun u => ∃ v : State, u = v.ended f ∧ t.sameBytes v ∧ v.dirty = t.dirty ∧
        v.waves = t.waves)) ∧
    (s.runs w (.discard f) f .dest false = true →
      let n := (s.readS w (.int 32) f.b).toNat
      let a := wrap64 ((s.readS w (.int 64) f.a).toNat + f.off)
      let mine := fun (l : L1Line) => l.core == w.core && l.tag == s.tagOf w && decide (a < l.va + 32) && decide (l.va < a + n)
      exec (.discard f) s = .next (if n = 0 then s.setMe (w.after f) else { s with
        l1 := (s.l1.filter fun l => !mine l || s.dirtyIn w.core l.pa).map fun l => if mine l then { l with level := 1 } else l
        l2 := s.l2.map fun (x : Nat × Nat) => if s.inRange (s.tagOf w) a n x.1 then (x.1, 1) else x }.setMe (w.after f)))

/-! ### Writes in coherence order -/

/-- Acceptance (R232), where no release store is due at its core's L1 (R241): a write on a tile that is accepted receives as its completion time C the largest of the device time, of E
(for memory that may be leased) and of the completion time of the tile's previous write, which becomes C; the writer
receives C; and no load at home sees its bytes before C. The writes of one host port complete in order besides (R250); those
of one hart too, which is the model's choice (log 25). A write that meets a poisoned sector takes no effect and faults the
context for which it is made (R252). -/
def Obligations.AcceptanceGivesCompletionTime : Prop :=
  ∀ (s : State) (id : Nat) (x : Write), s.write id = some x → s.canAccept x = true → (∀ y ∈ s.writes, y.id = id → y = x) →
    s.settleRel = s →
    (s.poison.contains x.sector = true →
      Out.ends (exec (.writeAcceptance id) s) fun t => t.write id = none ∧ (∀ g, x.tag = some g → g ∈ t.ctxBad) ∧ t.mem = s.mem) ∧
    (s.poison.contains x.sector = false →
    let pa := (x.bytes.head?.map fun c => c.1).getD 0
    let e := s.leaseOf (s.tileOf pa x.grain)
    let c := max (if x.cache = .normal then max (max s.time e.1) e.2 else max s.time e.2) (s.portFloor x.agent)
    Out.ends (exec (.writeAcceptance id) s) fun t => t.write id = some { x with ctime := some c } ∧ t.mem = s.mem ∧ t.time = s.time ∧
      (t.leases.find? fun l => l.tile == s.tileOf pa x.grain).map (fun l => l.clast) = some c ∧
      (∀ (i : Nat) (w v : Wave), s.waves[i]? = some w → t.waves[i]? = some v → id ∈ w.watch → c ≤ v.horizon ∧ v.watch = w.watch.erase id) ∧
      (s.time < c → ∀ a, t.homeByte a = s.homeByte a))

/-- A write that has completed, is acknowledged and is the earliest of its sector leaves the list, and memory takes its
bytes: the model's own representation of R232 and R233 (log 15). -/
def Claim.CompletionReachesMemory : Prop :=
  ∀ (s : State) (x : Write) (pre post : List Write), s.writes = pre ++ x :: post → (∀ y ∈ pre ++ post, y.id ≠ x.id) →
    (∀ y ∈ pre, y.sector ≠ x.sector) → x.doneAt s.time = true → x.acked = true →
    Out.ends (exec (.writeCompletion x.id) s) fun t => t.mem = cellsSet s.mem x.bytes ∧ t.writes = pre ++ post ∧
      t.agenda = s.agenda ++ x.bells.map (fun (i : Instr) => (⟨0, .event i⟩ : Turn)) ∧ t.time = s.time ∧ t.waves = s.waves

/-- A completion, a pool acknowledgement or the end of a lease changes no byte that a core reads at home (R231 to R233, R249):
it only moves values that had already been released. -/
def Obligations.CompletionChangesNoValue : Prop :=
  ∀ (s : State) (id : Nat), namesFresh s → (∀ x ∈ s.writes, (x.bytes.map fun c => c.1).Nodup ∧
      ∀ c ∈ x.bytes, sectorBase c.1 = x.sector) → Memory.wf s.mem = true →
    Out.ends (exec (.writeCompletion id) s) (fun t => ∀ a, t.homeByte a = s.homeByte a) ∧
    Out.ends (exec (.poolWriteAcknowledge id) s) (fun t => ∀ a, t.homeByte a = s.homeByte a) ∧
    ∀ core, Out.ends (exec (.leaseExpiry core id) s) fun t => ∀ a, t.homeByte a = s.homeByte a

/-- Pool acknowledgements, leases and long-latency results (R151, R231, R249). -/
def Claim.MemoryEventsComplete : Prop :=
  ∀ (s : State) (id : Nat),
    (∀ x, s.write id = some x → x.pool = true → x.acked = false → x.ctime.isSome = true → x.doneAt s.time = false →
      exec (.poolWriteAcknowledge id) s = .next { s with writes := modWhere s.writes (fun w => w.id == id) fun w => { w with acked := true } }) ∧
    (∀ core, exec (.leaseExpiry core id) s = .next { s with
      l1 := s.l1.filter fun l => !(l.core == core && l.pa == sectorBase id && !s.l1Valid l) }) ∧
    (∀ (f : Fill) (w : Wave), (s.fills.find? fun f => f.id == id) = some f → s.waveAt f.wave = some w →
      Out.ends (exec (.longLatencyFill id) s) fun t => t.fills = s.fills.filter (fun x => x.id != id) ∧
        t.waveAt f.wave = some (w.takeFill f) ∧ t.mem = s.mem ∧ t.writes = s.writes)

/-- A result that arrives fills its registers in its lanes only and raises its flags; the registers are full again (R68, R151). -/
def Claim.FillWritesItsLanes : Prop :=
  ∀ (w : Wave) (f : Fill) (j l : Nat), j < f.data.length → f.first + j < w.alloc → l < 96 →
    let x := w.takeFill f
    lane (x.vAt (f.first + j)) l = (if f.mask.getLsbD l then lane (f.data.getD j zeroLanes) l else lane (w.vAt (f.first + j)) l) ∧
    x.full (f.first + j) = true ∧ (∀ n, n < f.first ∨ f.first + f.data.length ≤ n → x.vReg n = w.vReg n) ∧
    x.fpflags = w.fpflags ||| f.flags

/-- Memory events (R68, R151, R231 to R233, R249). -/
def Obligations.MemoryEventsEnd : Prop :=
  Claim.CompletionReachesMemory ∧ Claim.MemoryEventsComplete ∧ Claim.FillWritesItsLanes

/-! ### Copies and streams -/

/-- Copies that pass their checks (R246, R284 to R290): CPY and CPY.BOX join the open batch, the 65th closing it first,
CPY.CLOSE closes it and gives its number, CPY.WAIT without a covered batch goes on and with an unfinished one waits; a
piece that performs records its writes, and a batch whose writes have completed leaves its wave. A box copy keeps the
origin x0, y0 of C and z0 of E64[31:0], signed (R288). A COPY record's pieces perform the same way, a fault stops its queue
with reason 0x0B (R121), and it is done under the same condition; that engine uid % 32 runs it is the model's choice (log
48). -/
def Claim.CopiesComplete : Prop :=
  ∀ (s : State) (w : Wave) (f : Fields),
    let dsp := f.ext.getLsbD 32
    let ssp := f.ext.getLsbD 33
    let dst := s.copyAddr w dsp f.a
    let src := s.copyAddr w ssp f.b
    let n := if f.c = .none then f.ebits 31 0 else (s.readS w (.int 32) f.c).toNat
    let sc := (s.cordOf w).kernel.scratch
    let item := CopyItem.linear dst src n dsp ssp (f.mbits 3 2) (f.ebits 35 34)
    (s.runs w (.cpy f) f .dest false = true → rangeTrap sc dsp dst n 1 = Option.none → rangeTrap sc ssp src n 0 = Option.none →
      (n = 0 → exec (.cpy f) s = .next (s.setMe (w.after f))) ∧
      (n ≠ 0 → w.openBatch.length < 64 →
        exec (.cpy f) s = .next (s.setMe ({ w with openBatch := w.openBatch ++ [item] }.after f))) ∧
      (n ≠ 0 → 64 ≤ w.openBatch.length → s.canClose w = true →
        exec (.cpy f) s = .next (s.setMe ({ w.closeBatch with openBatch := [item] }.after f)))) ∧
    (∀ t d, s.runs w (.cpyBox f) f .dest false = true →
      s.waveLoad w w.sup (s.readS w (.int 64) f.a).toNat 64 0 = (t, .ok d) → w.openBatch.length < 64 →
      rangeTrap (t.cordOf w).kernel.scratch dsp (t.copyAddr w dsp f.b)
        ((boxZ d - 1) * numAt d 0x38 4 + (boxY d - 1) * numAt d 0x34 4 + boxX d * boxEsz d) 1 = Option.none →
      let org := t.readS w (.int 64) f.c
      let z0 := (f.ext.setWidth 32 : Word).toInt
      exec (.cpyBox f) s = .next (t.modMe fun x => { x with openBatch := x.openBatch ++
        [CopyItem.box d (t.copyAddr w dsp f.b) dsp (lo32 org).toInt (hi32 org).toInt z0 (f.mbits 3 2) (f.ebits 35 34)] }.after f)) ∧
    (s.runs w (.cpyClose f) f .dest false = true → s.canClose w = true →
      exec (.cpyClose f) s = .next (s.setMe ((w.closeBatch.putS f.d (w.nextBatch.setWidth 64)).after f))) ∧
    (s.runs w (.cpyClose f) f .dest false = true → s.canClose w = false → exec (.cpyClose f) s = s.stall) ∧
    (let mine := w.batches.filter fun b => f.m == 1 || decide ((BitVec.ofNat 32 (s.natB w f) - b.number).toNat < 2 ^ 31)
     s.runs w (.cpyWait f) f .dest false = true →
      (mine = [] → exec (.cpyWait f) s = .next (s.setMe (w.after f))) ∧
      (mine ≠ [] → (∀ b ∈ mine, ∀ p ∈ b.pieces, p.st.told = false) → (∃ b ∈ mine, ∃ p ∈ b.pieces, p.st.open = true) →
        exec (.cpyWait f) s = s.stall)) ∧
    (∀ k number i b p t st, s.waveAt (waveOfNum k) = some w → (w.batches.find? fun b => b.number == number) = some b →
      b.pieces[i]? = some p → p.st.open = true → s.runPiece ⟨s.tagOf w, b.engine, b.sup, w.cord, w.core⟩ p = (t, some st) →
      exec (.copyPiece (.batch k number) i) s = .next (t.modWave w.id fun x => { x with
        batches := modWhere x.batches (fun b => b.number == number) fun y =>
          { y with pieces := modAt b.pieces i fun p => { p with st := st } } })) ∧
    (∀ k number, exec (.copyBatchComplete (.batch k number)) s = .next (s.modWave (waveOfNum k) fun x => { x with
      batches := x.batches.filter fun b => !(b.number == number && s.piecesDone b.pieces) })) ∧
    (∀ uid i r l p t st, (s.recs.find? fun r => r.uid == uid) = some r → r.stage = .copying l → l[i]? = some p → p.st.open = true →
      s.runPiece ⟨r.tag, uid % 32, false, 0, 0⟩ p = (t, some st) →
      let l' := modAt l i fun p => { p with st := st }
      let u := { t with recs := modWhere t.recs (fun r => r.uid == uid) fun r => { r with stage := .copying l' } }
      (st.fault = Option.none → exec (.copyPiece (.record uid) i) s = .next u) ∧
      (st.fault.isSome = true → u.qState r.tag r.q ≠ .stopped → u.canStop r.tag r.q = true →
        exec (.copyPiece (.record uid) i) s = .next (u.stopQueue r.tag r.q 0x0B))) ∧
    (∀ uid, exec (.copyBatchComplete (.record uid)) s = .next { s with recs := modWhere s.recs (fun r => r.uid == uid) fun r =>
      match r.stage with
      | .copying l => if s.piecesDone l then { r with stage := .expanded } else r
      | _ => r })

/-- The pieces of a linear copy cover its range byte by byte, each within one destination sector (R246, R285). -/
def Claim.CopyPiecesCoverTheRange : Prop :=
  ∀ (dst src n h r : Nat) (dsp ssp : Bool),
    let ps := linearPieces dst src n dsp ssp h r
    (ps.flatMap fun p => p.parts.flatMap fun q => (List.range q.n).map fun i => (q.dst + i, q.src.map fun a => a + i)) =
      (List.range n).map (fun i => (dst + i, some (src + i))) ∧
    ∀ p ∈ ps, p.st = .todo ∧ ∃ q, p.parts = [q] ∧ 0 < q.n ∧ q.dst % 32 + q.n ≤ 32

/-- Copies (R246, R284 to R290). -/
def Obligations.CopiesCoverTheirRange : Prop :=
  Claim.CopiesComplete ∧ Claim.CopyPiecesCoverTheRange

/-- Streams (R291 to R294): STRM.DEF takes a valid record and traps on any other, STRM.GO starts the walk at element 0
with the base read then (R292, R294), that of its index streams too (the model's choice, log 29), STRM.STOP ends it and empties the queue; a fetch whose elements are all readable takes them in. -/
def Obligations.StreamsComplete : Prop :=
  ∀ (s : State) (w : Wave) (f : Fields),
    let id := (s.readS w (.int 32) f.a).toNat
    (∀ t b, s.runs w (.strmDef f) f .dest false = true →
      s.waveLoad w w.sup (s.readS w (.int 64) f.a).toNat 64 0 = (t, .ok b) →
      (strmValid (w.streams.map fun x => (x.id, x.bytes)) (f.ebits 2 0) b = true →
        exec (.strmDef f) s = .next (t.modMe fun x =>
          let y := x.stopStream (f.ebits 2 0)
          { y with streams := (y.streams.filter fun (z : Stream) => z.id != f.ebits 2 0) ++
              [(⟨f.ebits 2 0, b, .stopped, false, Option.none, 0, []⟩ : Stream)] }.after f)) ∧
      (strmValid (w.streams.map fun x => (x.id, x.bytes)) (f.ebits 2 0) b = false →
        exec (.strmDef f) s = t.trap 0x2A w.exec (streamInfo 0 false 3 0))) ∧
    (∀ x, s.runs w (.strmGo f) f .dest false = true → (w.streams.find? fun x => x.id == id) = some x →
      strmFlag x.bytes 1 = false →
      exec (.strmGo f) s = .next ((s.startIndex w.id id).modMe fun w =>
        ({ w with q := modAt w.q (strmQueue x.bytes) fun _ => [] }.modStream id fun y =>
          { y with run := .running, sup := w.sup, base := some (numAt x.bytes 0 8), pos := 0, part := [] }).after f)) ∧
    (∀ x t bs, s.runs w (.strmGo f) f .dest false = true → (w.streams.find? fun x => x.id == id) = some x →
      strmFlag x.bytes 1 = true → s.waveLoad w w.sup ((s.cordOf w).frame + numAt x.bytes 0 2) 8 0 = (t, .ok bs) →
      exec (.strmGo f) s = .next ((t.startIndex w.id id).modMe fun w =>
        ({ w with q := modAt w.q (strmQueue x.bytes) fun _ => [] }.modStream id fun y =>
          { y with run := .running, sup := w.sup, base := some (natOfBytes bs), pos := 0, part := [] }).after f)) ∧
    (s.runs w (.strmStop f) f .dest false = true → exec (.strmStop f) s = .next (s.setMe ((w.stopStream id).after f))) ∧
    (∀ wid n x y z u l, s.waveAt wid = some w → (w.streams.find? fun x => x.id == n) = some x → w.streamRoom x = true →
      let t := (w.indexChain 9 n).foldl (fun s i => s.startStream wid i) s
      t.waveAt wid = some y → (y.streams.find? fun x => x.id == n) = some z → y.streamRoom z = true →
      (strmFlag z.bytes 1 = true → z.base.isSome = true) →
      State.elems y z (96 - z.part.length) z.pos t = (u, l, Option.none) →
      exec (.streamElementFetch wid n) s = .next (u.modWave wid fun y => y.takeElems z l))

/-! ### Pages and tiles -/

/-- Page instructions (R305, R306, R316 to R318): PG.PROBE gives the status, level and address of a walk or the entry, 1 for
an address that is not canonical, 6 where first touch finds the pool empty; a walk that reads a poisoned sector faults the
context (R252, R302); PG.INV starts an invalidation once the wave has released, and an empty range does
nothing; PG.SYNC goes on when all are done and their writes have passed; an invalidation's end records what it waits for. -/
def Claim.PageInstructionsComplete : Prop :=
  ∀ (s : State) (w : Wave) (f : Fields),
    let va := (s.readS w (.int 64) f.a).toNat
    let kind := f.mbits 1 0
    let pte := decide (f.mbits 3 3 = 1)
    let status := fun (e : WalkEnd) => (match e.kind with
      | .absent => 2
      | .malformed => 3
      | .anon => if permitted e.entry kind w.sup then 5 else 4
      | .leaf => if permitted e.entry kind w.sup then 0 else 4 : Nat)
    let give := fun (t : State) (e : WalkEnd) (st : Nat) => (.next (t.modMe fun y => (y.putS f.d (if pte then e.entry
      else BitVec.ofNat 64 ((if st = 0 then leafPa e.entry va % 2 ^ 52 else 0) + 2 ^ 52 * e.level + 2 ^ 56 * st))).after f) : Out)
    let served := fun (e : WalkEnd) => status e = 5 ∧ f.mbits 2 2 = 1 ∧ kind ≠ 2
    let start := fun (i : Instr) (range : Option (Nat × Nat)) => exec i s = .next ({ s with uid := s.uid + 1 }.setMe
      ({ w with invals := w.invals ++ [(⟨s.uid, s.tagOf w, range, [], false, 0⟩ : Inval)] }.after f))
    (s.runs w (.pgProbe f) f .dest false = true → canonical (BitVec.ofNat 64 va) = false →
      exec (.pgProbe f) s = .next (s.setMe ((w.putS f.d (if pte then 0 else 0x0100000000000000)).after f))) ∧
    (s.runs w (.pgProbe f) f .dest false = true → canonical (BitVec.ofNat 64 va) = true →
      (∀ t, s.walkMeet (s.tagOf w) va = (Option.none, t) → exec (.pgProbe f) s = .next (t.ctxFault (s.tagOf w) 0x50)) ∧
      (∀ t e, s.walkMeet (s.tagOf w) va = (some e, t) → e = s.walk (s.tagOf w) va ∧
        (¬ served e → exec (.pgProbe f) s = give t e (status e)) ∧
        (∀ u pa x, served e → t.translate w.unit (s.tagOf w) w.die w.sup kind va = (.ok pa x, u) →
          exec (.pgProbe f) s = .next (u.modMe fun y => (y.putS f.d (if pte then x else BitVec.ofNat 64
            (pa % 2 ^ 52 + 2 ^ 52 * e.level))).after f)) ∧
        (∀ u p, served e → t.translate w.unit (s.tagOf w) w.die w.sup kind va = (.fault 0x22 p, u) →
          exec (.pgProbe f) s = give u e 6))) ∧
    (s.runs w (.pgInvVa f) f .dest false = true → s.released w = true →
      (s.natB w f = 0 → exec (.pgInvVa f) s = .next (s.setMe (w.after f))) ∧
      (s.natB w f ≠ 0 → (w.invals.filter fun i => !i.done).length < 16 → start (.pgInvVa f) (some (va, s.natB w f)))) ∧
    (s.runs w (.pgInvCtx f) f .dest false = true → s.released w = true → (w.invals.filter fun i => !i.done).length < 16 →
      start (.pgInvCtx f) Option.none) ∧
    (s.runs w (.pgInvVa f) f .dest false = true → s.released w = false → exec (.pgInvVa f) s = s.stall) ∧
    (s.runs w (.pgSync f) f .dest false = true →
      let t := (w.invals.map fun i => i.upto).foldl max 0
      exec (.pgSync f) s = if (∀ i ∈ w.invals, i.done = true) ∧ t ≤ s.time
        then .next (s.setMe ({ w.raise t with invals := [] }.after f)) else s.stall) ∧
    (∀ id i, (s.allInvals.find? fun i => i.id == id) = some i → i.done = false →
      let r := s.invalidate i.tag i.range
      let all := (i.writes ++ r.1).eraseDups
      exec (.invalidationComplete id) s = .next (r.2.2.modInval id fun i => { i with
        writes := all, upto := max i.upto (r.2.2.latestTime all), done := r.2.1 && r.2.2.allAccepted all }).endCommands)

/-- A write to a page whose permission bits refuse it, and an access to an address that is not canonical or not mapped, are
faults with their causes (R296, R306): 0x21 for the permission, 0x20 for the others. A walk that meets a poisoned sector
reports it (R252). -/
def Claim.TranslationFaults : Prop :=
  ∀ (s : State) (unit tag die kind va : Nat) (sup : Bool),
    let r := (s.translate unit tag die sup kind va).1
    (canonical (BitVec.ofNat 64 va) = false → s.translate unit tag die sup kind va = (.fault 0x20 0, s)) ∧
    (canonical (BitVec.ofNat 64 va) = true → (∀ t ∈ s.tlb, t.covers unit tag va = false) →
      ((s.walkBy unit tag va).1 = none → r = .bad) ∧
      ∀ e, (s.walkBy unit tag va).1 = some e →
        ((∀ x ∈ s.walks, x.covers unit tag va = false) → e = s.walk tag va) ∧
        (e.kind = .leaf → permitted e.entry kind sup = false → r = .fault 0x21 0) ∧
        (e.kind ≠ .leaf → e.kind ≠ .anon → r = .fault 0x20 0) ∧
        (e.kind = .leaf → permitted e.entry kind sup = true →
          let x := e.entry ||| 0x200 ||| (if kind = 1 ∨ kind = 3 then 0x400 else 0)
          r = .ok (leafPa x va) x))

/-- Pages (R296, R305, R306, R316 to R318). -/
def Obligations.PagesTranslate : Prop :=
  Claim.PageInstructionsComplete ∧ Claim.TranslationFaults

/-- Tile instructions whose handle is open (R334 to R340): TILE.OPEN gives a handle and a status; TILE.CLOSE, TILE.QRY and
TILE.REL end with their results, TILE.REL once every earlier store of the wave is visible to its core; TILE.ACQ ends at once with 0 when its cord holds the root, 12 for a write to a
read-only root, and waits with a request otherwise; a handle that is not open traps TILE_STALE, and reads as 0 in QRY. -/
def Claim.TileInstructionsComplete : Prop :=
  ∀ (s : State) (w : Wave) (f : Fields),
    let v := lo32 (s.readS w (.int 32) f.a)
    let m : TenMode := if f.m = 1 then .w else .r
    let put := fun (t : State) (x : Word64) => (.next (t.modMe fun y => (y.putS f.d x).after f) : Out)
    (∀ t b, s.runs w (.tileOpen f) f .dest false = true →
      s.waveLoad w w.sup (s.readS w (.int 64) f.a).toNat 64 0 = (t, .ok b) →
      let r := t.tileOpen w b (footHandle b (f.ebits 2 0) (f.ebits 5 3) (f.ebits 8 6) (f.ebits 10 9 + 1))
      (∀ u st h, r = (u, .ok (st, h)) → exec (.tileOpen f) s = put u (pair32 (if st ≤ 1 then h.value else 0) (BitVec.ofNat 32 st))) ∧
      (∀ u, r = (u, .wait) → exec (.tileOpen f) s = u.stall)) ∧
    (s.openHandle (s.tagOf w) v = Option.none →
      (s.runs w (.tileClose f) f .dest false = true → exec (.tileClose f) s = s.trap 0x30 w.exec (v.setWidth 64)) ∧
      (s.runs w (.tileAcq f) f .dest false = true → exec (.tileAcq f) s = s.trap 0x30 w.exec (v.setWidth 64)) ∧
      (s.runs w (.tileQry f) f .dest false = true → exec (.tileQry f) s = put s 0)) ∧
    (∀ h, s.openHandle (s.tagOf w) v = some h →
      let r := s.rootHandle h
      let mine := (s.cordOf w).tenures.find? fun t => t.root == r.id
      (s.runs w (.tileClose f) f .dest false = true → exec (.tileClose f) s = put (s.tileClose h).2 (BitVec.ofNat 64 (s.tileClose h).1)) ∧
      (s.runs w (.tileQry f) f .dest false = true → exec (.tileQry f) s = put s (BitVec.ofNat 64 (s.tileQuery w h (f.mbits 2 0)))) ∧
      (∀ e, s.runs w (.tileRel f) f .dest false = true → mine = some e →
        (s.unreleasedOf w.id = [] → exec (.tileRel f) s =
          .next ((s.releaseEntry (s.cordOf w) e).2.modMe fun y => (y.raise (s.releaseEntry (s.cordOf w) e).1).after f)) ∧
        (s.unreleasedOf w.id ≠ [] → exec (.tileRel f) s = s.stall)) ∧
      (s.runs w (.tileRel f) f .dest false = true → mine = Option.none →
        exec (.tileRel f) s = s.trap 0x32 w.exec ((lo32 (s.readS w (.int 32) f.a)).setWidth 64)) ∧
      (s.runs w (.tileAcq f) f .dest false = true → r.orphan = false →
        (∀ e, mine = some e → e.lapsed = Option.none → (e.mode = .w ∨ e.mode = m) → exec (.tileAcq f) s = put s 0) ∧
        (mine = Option.none → m = .w → r.ro = true → exec (.tileAcq f) s = put s 12) ∧
        (mine = Option.none → (m = .r ∨ r.ro = false) → (s.cordOf w).tenures.length < 32 → (∀ t ∈ r.tenures, t.core ≠ w.core) →
          (r.dir = true ∨ s.sliceFull r.home = false) →
          Out.ends (exec (.tileAcq f) s) fun t => t.me = some { w with wait := .tile r.id f.d (fieldsBytes f) } ∧
            ∀ x, s.handle r.id = some x → (t.handle r.id).map (fun y => y.reqs) = some (x.reqs ++ [⟨w.id, w.cord, w.core, m⟩]))) ∧
      (s.runs w (.tileAcq f) f .dest false = true → r.orphan = true →
        exec (.tileAcq f) s = s.trap 0x31 w.exec ((lo32 (s.readS w (.int 32) f.a)).setWidth 64)) ∧
      (s.runs w (.tileSplit f) f .dest false = true →
        let st := s.splitStatus w h (f.mbits 1 0) (s.natB w f)
        (st ≠ 0 → exec (.tileSplit f) s = put s (pair32 0 (BitVec.ofNat 32 st))) ∧
        (∀ p t, st = 0 → s.tileSplit w h (f.mbits 1 0) (s.natB w f) = (t, .ok (some p)) →
          exec (.tileSplit f) s = put t (pair32 p.1.value p.2.value))))

/-- Tenures over time (R325 to R328): a grantable request is granted for its mode's length from now and its wave goes on; a
tenure near its expiry and not contended is renewed; one that is contended and past its expiry ends. -/
def Claim.TenureEventsComplete : Prop :=
  ∀ (s : State) (r : RootId) (h : Handle), s.handle r = some h →
    (∀ q, h.reqs = [q] → s.mayGrant h = true → q.wave.part ≠ Config.partitions →
      Out.ends (exec (.tenureGrant r) s) fun t => ∃ x, t.handle r = some x ∧ x.reqs = [] ∧
        (∃ m, x.tenures = (h.tenures.filter fun y => y.core != q.core) ++ [⟨q.core, m, s.time + h.len m, false⟩] ∧ (m = .w ∨ m = q.mode)) ∧
        (∀ w d len, s.waveAt q.wave = some w → w.wait = .tile r d len →
          t.waveAt q.wave = some { (w.putS d 0).next len with hold := max w.hold (s.leaseOf (.root r)).2 })) ∧
    (∀ core, Out.ends (exec (.tenureRenew r core) s) fun t => (t.handle r).map (fun x => x.tenures) =
      some (h.tenures.map fun y => if y.core = core ∧ y.contended = false ∧ 2 * y.expiry ≤ 2 * s.time + h.len y.mode
        then { y with expiry := s.time + h.len y.mode } else y)) ∧
    (∀ core, (∃ y ∈ h.tenures, y.core = core ∧ y.contended = true ∧ y.expiry ≤ s.time) →
      Out.ends (exec (.tenureExpiry r core) s) fun t => ∀ x, t.handle r = some x → ∀ y ∈ x.tenures, y.core ≠ core)

/-- Tiles and tenures (R325 to R328, R334 to R340). -/
def Obligations.TilesAndTenuresComplete : Prop :=
  Claim.TileInstructionsComplete ∧ Claim.TenureEventsComplete

/-! ### Barriers and the end of a wave -/

/-- Barrier instructions whose group is legal (R221 to R226): an arrival that leaves lanes out only adds its lanes; one that
completes the wave's arrival records its horizon, waits under BAR and BAR.DEV and goes on under BAR.ARV, and completes
the phase when every member has arrived; an arrival waits for the wave's release at core scope (R227); BAR.WAIT waits while
the wave's arrival stands; a group that is not legal raises BAR_NOTMEMBER (0x39). -/
def Claim.BarrierInstructionsComplete : Prop :=
  ∀ (s : State) (w : Wave) (f : Fields),
    let g := s.barGroup w f
    let a := w.arrival g
    let all := a.arr ||| w.exec
    let here := w.setArrival { group := g, arr := 0, done := true, h := w.horizon, hset := w.watch }
    let dev := s.modCord w.cord fun c => { c with bars := modWhere c.bars (fun b => b.group == g) fun b => { b with dev := true } }
    let free := a.done = false ∧ s.releasedAt w 0 = true
    (s.barTrap w g false = Option.none → free → all ≠ w.live →
      (s.runs w (.bar f) f .dest false = true → exec (.bar f) s = .next (s.setMe ((w.setArrival { a with arr := all }).after f))) ∧
      (s.runs w (.barArv f) f .dest false = true → exec (.barArv f) s = .next (s.setMe ((w.setArrival { a with arr := all }).after f))) ∧
      (s.runs w (.barDev f) f .dest false = true → exec (.barDev f) s = .next (s.setMe ((w.setArrival { a with arr := all }).after f)))) ∧
    (s.barTrap w g false = Option.none → free → all = w.live →
      (s.runs w (.bar f) f .dest false = true →
        exec (.bar f) s = .next ((s.setMe { here with wait := .barrier g (fieldsBytes f) }).barCheck w.cord g)) ∧
      (s.runs w (.barArv f) f .dest false = true → exec (.barArv f) s = .next ((s.setMe (here.after f)).barCheck w.cord g)) ∧
      (s.runs w (.barDev f) f .dest false = true →
        exec (.barDev f) s = .next ((dev.setMe { here with wait := .barrier g (fieldsBytes f) }).barCheck w.cord g))) ∧
    (s.barTrap w g false = Option.none → ¬ free →
      (s.runs w (.bar f) f .dest false = true → exec (.bar f) s = s.stall) ∧
      (s.runs w (.barArv f) f .dest false = true → exec (.barArv f) s = s.stall) ∧
      (s.runs w (.barDev f) f .dest false = true → exec (.barDev f) s = s.stall)) ∧
    (s.runs w (.barWait f) f .dest false = true → s.barTrap w g true = Option.none → exec (.barWait f) s = .next (s.setMe
      (if a.done then { w with wait := .barrier g (fieldsBytes f) } else w.after f))) ∧
    (∀ c info, s.runs w (.bar f) f .dest false = true → s.barTrap w g false = some (c, info) → exec (.bar f) s = s.trap c w.exec info) ∧
    ((s.cordOf w).kernel.groups.length ≤ g → s.barTrap w g false = some (0x39, BitVec.ofNat 64 (g % 256))) ∧
    (∀ cord h b t, s.barSlot cord h = some b → b.dev = true → s.phaseFull cord h = true → s.devHorizon cord h = some t →
      t ≤ s.time → exec (.barDrainComplete cord h) s = .next (s.completePhase cord h))

/-- The completion of a phase (R223): the slot's phase counts on, and of the cord's waves each forgets its arrival and those
that wait at the barrier go on; waves of other cords stay as they are. -/
def Claim.PhaseCompletionReleases : Prop :=
  ∀ (s : State) (cord g i : Nat) (w : Wave), s.waves[i]? = some w →
    (w.cord ≠ cord → (s.completePhase cord g).waves[i]? = some w) ∧
    (∀ len, w.cord = cord → w.wait = .barrier g len → ∃ x, (s.completePhase cord g).waves[i]? = some x ∧ x.wait = .none ∧
      x.pc = (w.next len).pc ∧ (x.arrival g).done = false ∧ x.k = w.k ∧ x.s = w.s ∧ x.v = w.v) ∧
    (w.cord = cord → (∀ h len, w.wait = .barrier h len → h ≠ g) → ∃ x, (s.completePhase cord g).waves[i]? = some x ∧
      x.wait = w.wait ∧ x.pc = w.pc ∧ x.s = w.s ∧ x.v = w.v) ∧
    (s.completePhase cord g).mem = s.mem

/-- EXIT (R160, R225): with no active lane it does nothing; its active lanes end otherwise, and leave every arrival; when no
lane is left, and nothing of the wave is still on its way, the wave ends; lanes of a partial arrival that would be left
alone trap. -/
def Claim.ExitCompletes : Prop :=
  ∀ (s : State) (w : Wave) (f : Fields), s.runs w (.exit f) f .dest false = true →
    let left := w.live &&& ~~~w.exec
    let out := { { w with live := left }.setK 0 (w.exec &&& left) with arrivals := w.arrivals.map fun a => { a with arr := a.arr &&& left } }
    (w.exec = 0 → exec (.exit f) s = .next (s.setMe (w.after f))) ∧
    (w.exec ≠ 0 → left ≠ 0 → w.partialOn = Option.none → exec (.exit f) s = .next (s.setMe (out.after f))) ∧
    (w.exec ≠ 0 → left = 0 → w.partialOn = Option.none → w.batches = [] → (∀ x ∈ s.mosFills, x.wave ≠ w.id) →
      exec (.exit f) s = .next ((s.setMe out).endWave w.id)) ∧
    (∀ g, w.exec ≠ 0 → w.partialOn = some g → left &&& ~~~(w.arrival g).arr = 0 →
      exec (.exit f) s = s.trap 0x38 w.exec (BitVec.ofNat 64 (g + 65536)))

/-- Barriers and the end of a wave (R160, R221 to R226). -/
def Obligations.BarriersAndExitComplete : Prop :=
  Claim.BarrierInstructionsComplete ∧ Claim.PhaseCompletionReleases ∧ Claim.ExitCompletes

/-! ### Queues, records and joins -/

/-- Producers and consumers whose checks pass (R117, R123 to R128, R139 to R143): a full ring, an absent queue and a stopped
one give their status; a push with room publishes its record and gives 0; SPAWN buffers a child, and a push or a spawn that
waits for room keeps the record that it has read; where the descriptor of a spawner's queue cannot be read, no priority is too
high (the model's choice, log 28); JOIN and JOIN.inc give
the old count; EMIT publishes one record for each active lane; NODE.POP sends each lane's payload. -/
def Claim.QueueInstructionsComplete : Prop :=
  ∀ (s : State) (w : Wave) (f : Fields),
    let tag := s.tagOf w
    let v := s.wavesVia w
    let put := fun (t : State) (x : Nat) => (.next (t.modMe fun y => (y.putS f.d (BitVec.ofNat 64 x)).after f) : Out)
    (s.runs w (.qpush f) f .dest false = true →
      let q := s.natB w f
      let a := (s.readS w (.int 64) f.a).toNat
      let desc := s.qDesc tag q
      let pushes := fun (t : State) (r : List Byte) => ∀ s2 d s3 resv, t.viaLoad v desc 64 = (s2, .ok d) →
        s2.viaPeek v (desc + 0x10) 8 = (s3, .ok resv) →
        (2 ^ descLog2 d ≤ resv - descHead d → exec (.qpush f) s = if f.m.getLsbD 0
          then .next (s3.modMe fun y => { y with wait := .push r }) else put s3 1) ∧
        (∀ s4, resv - descHead d < 2 ^ descLog2 d → s3.ringAdd v desc d resv [r] = (s4, .ok ()) → exec (.qpush f) s = put s4 0)
      (∀ r, w.wait = .push r → pushes s r) ∧
      ((∀ r, w.wait ≠ .push r) → s.released w = true →
        ((s.ctx tag).qcount ≤ q → exec (.qpush f) s = put s 3) ∧
        (q < (s.ctx tag).qcount → s.qState tag q = .stopped → exec (.qpush f) s = put s 2) ∧
        (∀ s0 r s1 prio, q < (s.ctx tag).qcount → s.qState tag q ≠ .stopped → a % 64 = 0 → s.viaLoad v a 64 = (s0, .ok r) →
          s0.prioVia v q = (s1, .ok prio) → recordReason (s1.ctx tag).recver.toNat prio r = Option.none → pushes s1 r))) ∧
    (s.runs w (.qnotify f) f .dest false = true → s.released w = true →
      let q := (s.readS w (.int 32) f.a).toNat
      let c := s.natB w f
      let hit := fun (x : Cord) => x.tag == tag && s.cordQueue x == some q && (c == 0xFFFFFFFF || x.cordid == c)
      let hits := (s.cords.filter hit).map fun x => x.uid
      exec (.qnotify f) s = .next (({ s with waves := modWhere s.waves (fun w => hits.contains w.cord) (Wave.woken s.time) }.modCtx tag
        fun x => { x with images := modWhere x.images (fun m => hit m.cord) fun m =>
          { m with waves := m.waves.map (Wave.woken s.time) } }).ended f)) ∧
    (s.runs w (.spawn f) f .dest false = true →
      let me := s.cordOf w
      let a := (s.readS w (.int 64) f.a + (lo32 (s.scalB w (.int 32) true f)).signExtend 64).toNat
      let q := (s.cordQueue me).getD 0
      let enters := fun (s1 : State) (r : List Byte) =>
        (1024 ≤ s1.buffered w.die → exec (.spawn f) s = if f.m.getLsbD 0
          then .next (s1.modMe fun y => { y with wait := .push r }) else put s1 1) ∧
        (s1.buffered w.die < 1024 → Out.ends (exec (.spawn f) s) fun t => ∃ x : Rec,
          t = ({ s1 with uid := s1.uid + 1, recs := s1.recs ++ [x] }.modMe fun y => (y.putS f.d 0).after f) ∧
          x.tag = s1.tagOf w ∧ x.bytes = r ∧ x.parent = some (s1.cordOf w).recUid ∧ x.buffer = some w.die ∧ x.stage = .taken)
      (∀ r, w.wait = .push r → enters s r) ∧
      ((∀ r, w.wait ≠ .push r) → s.released w = true →
        ∀ s1 r, a % 64 = 0 → s.viaLoad v a 64 = (s1, .ok r) →
          recordReason (s1.ctx tag).recver.toNat ((s1.queuePrioOf tag q).getD 7) r = Option.none → recType r ≠ 5 → enters s1 r)) ∧
    (∀ t old, s.released w = true → (s.readS w (.int 64) f.a).toNat % 16 = 0 →
      (s.runs w (.join f) f .dest false = true →
        s.joinStep v (s.readS w (.int 64) f.a).toNat (s.natB w f) false = (t, .ok old) → exec (.join f) s = put t old) ∧
      (s.runs w (.joinInc f) f .dest false = true →
        s.joinStep v (s.readS w (.int 64) f.a).toNat (s.natB w f) true = (t, .ok old) → exec (.joinInc f) s = put t old)) ∧
    (s.runs w (.emit f) f .dest false = true →
      let me := s.cordOf w
      let r := ((s.recs.find? fun x => x.uid == me.recUid).map fun x => x.bytes).getD []
      let node := me.kernel.nodes.getD (s.natB w f) (0, 0, false)
      let self := node.1 == recCode r
      let desc := s.qDesc tag node.2.1
      let made := (lanesOf w.exec).map fun l => nodeRecord (s.ctx tag).recver.toNat (recPrio r) (if self then recDepth r + 1 else 0)
        node.1 (laneOf (s.srcA w (.int 64) f) l).toNat (recJoin r)
      (w.exec = 0 → exec (.emit f) s = put s 0) ∧
      (∀ s1 d s2 resv s3 l3 s5 l5 s4, w.exec ≠ 0 → s.natB w f ≤ 15 → node.2.2 = true → (self && recDepth r == me.kernel.depth) = false →
        node.2.1 < (s.ctx tag).qcount → s.qState tag node.2.1 ≠ .stopped → s.viaLoad v desc 64 = (s1, .ok d) →
        made.length ≤ 2 ^ descLog2 d →
        made.findSome? (recordReason (s1.ctx tag).recver.toNat (match s1.slotOf tag node.2.1 with
          | some x => x.prio | Option.none => descPrio d)) = Option.none → s1.released w = true →
        s1.viaPeek v (desc + 0x10) 8 = (s2, .ok resv) → resv - descHead d + made.length ≤ 2 ^ descLog2 d →
        s2.viaLocate v 3 (if recJoin r = 0 then [] else [(recJoin r, 16)]) = (s3, .ok l3) →
        s3.viaLocate v 1 (((List.range made.length).flatMap fun i => piecesOf (entryVa d (resv + i)) 64) ++ [(desc + 0x20, 8)]) =
          (s5, .ok l5) →
        s5.emitAll v desc d resv (recJoin r) made = (s4, .ok ()) → exec (.emit f) s = put s4 0)) ∧
    (s.runs w (.nodePop f) f .dest false = true →
      let k := (s.cordOf w).kernel
      let q := (s.readS w (.int 32) f.a).toNat
      k.persist = true → k.pullq = q →
      let reads := fun (u t : State) (n : Nat) => ∃ a x b head, u.ringOfQueue v q = (a, .ok x) ∧
        a.viaPeek v (a.qDesc v.tag q + 0x18) 8 = (b, .ok head) ∧ State.popReads v x n head b = (t, .ok ())
      let pops := fun (u : State) => ∀ u' t r, reads u u' (lanesOf w.exec).length →
        u'.whole (State.popLanes v q k.code (lanesOf w.exec)) = (t, .ok r) → exec (.nodePop f) s = .next (t.sent f w.exec (lanesFrom 2 (r.map fun x =>
          (x.1, [BitVec.ofNat 32 x.2, BitVec.ofNat 32 (x.2 / 2 ^ 32)]))))
      (f.m.getLsbD 0 = false → pops s) ∧
      (f.m.getLsbD 0 = true → w.exec = 0 → exec (.nodePop f) s = .next (s.setMe (w.after f))) ∧
      (f.m.getLsbD 0 = true → w.exec ≠ 0 → w.wait = .pop q true → pops s) ∧
      (∀ u t n x, f.m.getLsbD 0 = true → w.exec ≠ 0 → (∀ p b, w.wait ≠ .pop p b) → reads s u 1 → u.headEntry v q = (t, .ok (n, x)) →
        (x = Option.none → exec (.nodePop f) s = .next (t.modMe fun y => { y with wait := .pop q false })) ∧
        (x ≠ Option.none → pops t)))

/-- A step of a join counter (R123, R124, R140): down, COUNT stops at zero and a step beyond it sets STAT.UNDER; up, it
counts modulo 2^32; the rest of the counter stays, and only a step that takes COUNT to zero releases a successor. -/
def Claim.JoinCounterSteps : Prop :=
  ∀ (x n : Nat), x < 2 ^ 128 → n < 2 ^ 32 →
    joinCount (joinNew false n x) = joinCount x - n ∧
    joinCount (joinNew true n x) = (joinCount x + n) % 2 ^ 32 ∧
    joinNew true n x / 2 ^ 32 = x / 2 ^ 32 ∧
    (n ≤ joinCount x → joinNew false n x / 2 ^ 32 = x / 2 ^ 32) ∧
    (joinCount x < n → joinNew false n x / 2 ^ 48 % 2 = 1 ∧ joinSucc (joinNew false n x) = joinSucc x ∧
      joinQueue (joinNew false n x) = joinQueue x) ∧
    (joinHits false n x = true ↔ joinCount x ≠ 0 ∧ joinCount x ≤ n ∧ joinSucc x ≠ 0) ∧ joinHits true n x = false

/-- Queues and joins (R117, R123 to R128, R139 to R143). -/
def Obligations.QueueInstructionsEnd : Prop :=
  Claim.QueueInstructionsComplete ∧ Claim.JoinCounterSteps

/-! ### The matrix engine -/

/-- Matrix instructions whose checks pass (R342 to R355): MOS.RSV reserves a range, with the fields of its record and every
byte of it zero (R342, R343), or gives its status, MOS.REL frees one
that nothing uses, MOS.WR writes the active lanes' words, MOS.FILL starts a fill that its completion ends, and the end of an
operation on ranges without errors writes the accumulators of each member and gives back the readers of the ranges that
its members name. -/
def Claim.MatrixInstructionsComplete : Prop :=
  ∀ (s : State) (w : Wave) (f : Fields),
    (s.runs w (.mosRsv f) f .dest false = true →
      let lay := (s.readS w (.int 32) f.a).toNat
      let start := f.imm.toNat % 256
      let len := f.imm.toNat / 256 % 256 + 1
      let blk := f.mbits 10 8
      let here := s.ranges.filter fun r => r.core == w.core && r.side == sideOf w.id.part
      let legal := lay / 2 ^ 11 % 32 = 0 ∧ lay / 2 ^ 27 = 0 ∧ start + len ≤ 256 ∧ (blk = 0 → lay % 2048 = 0) ∧
        regionsOk (256 * len) (mosRegions f.ty (f.mbits 7 4) blk (lay % 2048) (lay / 2 ^ 16 % 2048)) = true
      let meets := ∃ r ∈ here, r.start < 256 * (start + len) ∧ 256 * start < r.start + r.len
      let put := fun (x : Nat) => (.next (s.setMe ((w.putS f.d (BitVec.ofNat 64 x)).after f)) : Out)
      (¬ legal → exec (.mosRsv f) s = put 2) ∧ (legal → meets → exec (.mosRsv f) s = put 1) ∧
      (legal → ¬ meets → 32 ≤ here.length → exec (.mosRsv f) s = put 3) ∧
      (legal → ¬ meets → here.length < 32 →
        let r : MosRange := { core := w.core, side := sideOf w.id.part, cord := w.cord, start := 256 * start, len := 256 * len,
                              ty := f.ty, pa := f.mbits 7 4, blk := blk, soff := lay % 2048, boff := lay / 2 ^ 16 % 2048,
                              bytes := [], readers := 0, writers := 0 }
        exec (.mosRsv f) s = .next ({ s with ranges := s.ranges ++ [r] }.setMe ((w.putS f.d 0).after f)) ∧
          ∀ a, cellGet r.bytes a = 0)) ∧
    (∀ r, s.runs w (.mosRel f) f .dest false = true → s.rangeAt w (s.natB w f % 256) = some r →
      (∀ x ∈ s.mosFills, x.into r = false) → r.readers = 0 → r.writers = 0 →
      exec (.mosRel f) s = .next ({ s with ranges := s.ranges.filter fun x => !r.same x }.setMe (w.after f))) ∧
    (s.runs w (.mosRel f) f .dest false = true → s.rangeAt w (s.natB w f % 256) = Option.none →
      exec (.mosRel f) s = s.trap 0x29 w.exec (mosInfo w (256 * (s.natB w f % 256)))) ∧
    (s.runs w (.mosWr f) f .dest false = true →
      let word := s.natB w f
      let at_ := fun (l : Nat) => word / 256 % 65536 + 4 * 2 ^ f.mbits 2 0 * l
      (w.exec = 0 → exec (.mosWr f) s = .next (s.setMe (w.after f))) ∧
      (∀ r, w.exec ≠ 0 → s.rangeAt w (word % 256) = some r → word / 2 ^ 24 = 0 → word / 256 % 65536 % 4 = 0 →
        (∀ l ∈ lanesOf w.exec, at_ l + 4 ≤ r.len) → (∀ x ∈ s.mosFills, x.into r = false) → r.readers = 0 →
        exec (.mosWr f) s = .next ((s.modRange r fun r => r.put ((lanesOf w.exec).flatMap fun l =>
          cellsAt (at_ l) (bytesOfNat 4 (lo32 (laneOf (s.srcA w (.int 32) f) l)).toNat))).setMe (w.after f)))) ∧
    (s.runs w (.mosFill f) f .dest false = true →
      let word := if f.isW then f.imm.toNat else (s.readS w (.int 32) f.b).toNat
      let count := if f.isW then 32 * (f.mbits 16 7 + 1) else (s.readS w (.int 32) f.c).toNat
      let rowlen := if f.isW then 0 else f.ebits 47 32
      let rows := fillRows (s.readS w (.int 64) f.a).toNat (word / 256 % 65536) count (if f.isW then 0 else f.ebits 31 0) rowlen
      ∀ r t, s.rangeAt w (word % 256) = some r → word / 2 ^ 24 = 0 → word / 256 % 65536 % 32 = 0 → count % 32 = 0 →
        (rowlen = 0 ∨ count % rowlen = 0) → word / 256 % 65536 + count ≤ r.len →
        (rows.findSome? fun x => badRange x.1 x.2.2) = Option.none →
        State.probeReads w (rows.flatMap fun x => rowPages x.1 x.2.2) s = (t, .ok ()) → t.rangeAt w (word % 256) = some r →
        (count = 0 → exec (.mosFill f) s = .next (t.modMe fun y => y.after f)) ∧
        (count ≠ 0 → r.readers = 0 → Out.ends (exec (.mosFill f) s) fun u => ∃ x : MosFill,
          u = (({ t with uid := t.uid + 1, mosFills := t.mosFills ++ [x] } : State).modRange r fun r => { r with writers := r.writers + 1 }).ended f ∧ x.wave = w.id ∧
          x.pieces = fillPieces rows (f.mbits 3 2))) ∧
    (∀ id x y ps t, (s.mosFills.find? fun x => x.id == id) = some x → s.waveAt x.wave = some y →
      State.runFill y x x.pieces s = (ps, false, t) → (∀ p ∈ ps, ∃ l, p.st = .done l) →
      exec (.mosFillComplete id) s = .next { t with
        mosFills := t.mosFills.filter fun y => y.id != id
        ranges := modWhere t.ranges x.into fun r => { r with writers := r.writers - 1 } }) ∧
    (∀ core side o, (s.mmaOps.find? fun o => o.core == core && o.side == side) = some o →
      (o.members.map fun m => m.wave).Nodup → (∀ x ∈ s.flaws, (∀ c d k, x.place ≠ .mos c d k) ∧ ∀ v n l, x.place ≠ .vreg v n l) →
      let range := fun (m : MmaMember) => (s.waveAt m.wave).bind fun x => s.rangeAt x (m.f.ebits 15 8)
      Out.ends (exec (.mmaOperationComplete core side) s) fun t => t.mmaOps = s.mmaOps.erase o ∧ t.mem = s.mem ∧
        (∀ m ∈ o.members, ∀ x rg, s.waveAt m.wave = some x → range m = some rg →
          t.waveAt m.wave = some (x.mmaWrite o.members m rg)) ∧
        (∀ id, (∀ m ∈ o.members, m.wave ≠ id) → t.waveAt id = s.waveAt id) ∧
        t.ranges = o.members.foldl (fun l m => match range m with
          | some rg => modWhere l rg.same fun r => { r with readers := r.readers - 1 }
          | Option.none => l) s.ranges) ∧
    (∀ (ms : List MmaMember) (m : MmaMember) (rg : MosRange) (n l : Nat), n < 16 → l < 96 → vNum m.f.d + 16 ≤ w.alloc →
      let old := lane (w.vAt (vNum m.f.d + n)) l
      lane ((w.mmaWrite ms m rg).vAt (vNum m.f.d + n)) l = (if m.exec.getLsbD l then (mmaCell ms m rg l n old).1 else old) ∧
      (w.mmaWrite ms m rg).full (vNum m.f.d + n) = true ∧
      (∀ k, k < vNum m.f.d ∨ vNum m.f.d + 16 ≤ k → (w.mmaWrite ms m rg).vReg k = w.vReg k))

/-- MMA and MMA.SP that pass their checks wait in their group's gather (R345 to R347, R357), whose fourth member, where all
agree, makes them one operation, each of them going on past its instruction with its accumulators on their way; a broken
gather, a range or a group that does not fit traps. -/
def Claim.MatrixGathers : Prop :=
  ∀ (s : State) (w : Wave) (f : Fields) (sp : Bool),
    let i := if sp then Instr.mmaSp f else Instr.mma f
    let ra := f.ebits 15 8
    let g := f.ebits 7 0
    let c := s.cordOf w
    let unscaled := ((s.rangeAt w ra).map fun r => r.blk) == some 0
    let fr := if unscaled && f.b == .v 0 then { f with b := Opnd.none } else f
    (∀ cord g, let x := s.gatherOf cord g
      let ms := sortBy (fun (m : MmaMember) => m.wave.part) x.members
      (x.members.length ≠ 4 → s.gatherFull cord g = s) ∧
      (x.members.length = 4 → (x.members.map fun m => m.wave).Nodup → (∀ m ∈ x.members, ∀ n ∈ x.members, s.mmaParams m = s.mmaParams n) →
        (∃ core side, (s.gatherFull cord g).mmaOps = s.mmaOps ++ [⟨core, side, cord, ms⟩]) ∧
        ∀ m ∈ x.members, (s.gatherFull cord g).waveAt m.wave =
          (s.waveAt m.wave).map fun y => (y.markEmpty (vNum m.f.d) 16).commit m.f)) ∧
    (s.runs w i fr .late true = true →
      (s.gatherHit w g = true → exec i s = s.quartetTrap w g ((s.brokenBy w.cord g).getD 0)) ∧
      (s.gatherHit w g = false →
      (s.rangeAt w ra = Option.none → exec i s = s.trap 0x29 w.exec (mosInfo w (256 * ra))) ∧
      (∀ r, s.rangeAt w ra = some r → r.ty = f.ty → (r.blk = 0 → f.b = .v 0) → (sp = true → r.boff ≠ 0) →
        ((c.kernel.groups.length ≤ g ∨ grpKind (c.group g) ≠ 1 ∨ (grpList (c.group g)).contains w.index = false) →
          exec i s = s.trap 0x39 w.exec (BitVec.ofNat 64 g)) ∧
        (g < c.kernel.groups.length → grpKind (c.group g) = 1 → (grpList (c.group g)).contains w.index = true →
          (∀ x ∈ s.mosFills, x.into r = false) →
          ((w.destBusy f.d 16 = true ∨ r.writers ≠ 0) → exec i s = s.stall) ∧
          (∀ k, w.destBusy f.d 16 = false → r.writers = 0 → s.brokenBy w.cord g = some k → exec i s = s.quartetTrap w g k) ∧
          (w.destBusy f.d 16 = false → r.writers = 0 → s.brokenBy w.cord g = Option.none →
            let regs := fun (o : Opnd) (n : Nat) => tabulate n fun k => w.vAt (vNum o + k)
            let m : MmaMember := { wave := w.id, pc := w.pc, sp := sp, f := f, exec := w.exec,
                                   b := regs f.a (if 4 < f.ebits 19 16 then 2 else 1), bs := w.vAt (vNum f.b), bm := w.vAt (vNum f.c) }
            exec i s = .next ((((s.reader w.id f (· + 1)).setGather w.cord
              (let x := s.gatherOf w.cord g; { x with members := x.members ++ [m] })).modMe fun y =>
                { y with wait := .gather g }).gatherFull w.cord g))))))

/-- Matrix instructions (R342 to R357). -/
def Obligations.MatrixInstructionsEnd : Prop :=
  Claim.MatrixInstructionsComplete ∧ Claim.MatrixGathers

/-! ### Rays and textures -/

/-- Ray and texture instructions whose lanes are all served send their results to D (R380 to R394): five words for RT.BOX
and RT.TRACE, four for triangles and samples, N for REC.LD; a node that is not aligned gives RT.BOX's bad result, and
an invalid record or index zeros. -/
def Obligations.RayAndTextureInstructionsComplete : Prop :=
  ∀ (s t : State) (w : Wave) (f : Fields) (r : List (Nat × List Word)),
    let rd := s.readerOf w
    let serves := fun (i : Instr) (n : Nat) (one : State → Nat → State × Acc (List Word)) =>
      s.runs w i f .dest false = true → lanesServed one (lanesOf w.exec) s r t → exec i s = .next (t.sent f w.exec (lanesFrom n r))
    let a := s.srcA w (.int 32) f
    let b64 := s.srcB w (.int 64) false f
    let b32 := s.srcB w (.int 32) false f
    let fieldB := s.fieldB w (.int 64) f
    let heap := (s.readS w (.int 64) f.c).toNat
    let c32 := s.srcC w (.int 32) f
    let heapB := (s.readS w (.int 64) f.b).toNat
    let n := f.mbits 6 4 + 1
    serves (.rtBox f) 5 (fun s l =>
      let va := (laneOf b64 l).toNat
      if va % 128 ≠ 0 then (s, .ok (boxWords [] true))
      else andThen (s.unitLoad rd va 128) fun s x =>
        (s, .ok (if nodeBad x then boxWords [] true else boxWords (hitChildren (w.ray f.a l) x) false))) ∧
    serves (.rtTri f) 4 (fun s l =>
      andThen (s.unitLoad rd (laneOf b64 l).toNat 64) fun s h =>
        andThen (s.corners rd (laneOf b64 l).toNat h ((laneOf c32 l).toNat % 128)) fun s x =>
          (s, .ok (triWords (x.bind (triTest (f.mbits 1 0) (w.ray f.a l)))))) ∧
    (s.runs w (.rtTriReg f) f .dest false = true →
      exec (.rtTriReg f) s = .next (s.sent f w.exec (lanesFrom 4 ((lanesOf w.exec).map fun l =>
        let x := (w.spanLane f.b 9 l).map fun v => (v.setWidth 64 : Word64)
        (l, triWords (triTest (f.mbits 1 0) (w.ray f.a l) [x.take 3, (x.drop 3).take 3, x.drop 6])))))) ∧
    serves (.rtTrace f) 5 (fun s l =>
      andThen (s.unitLoad rd (wrap64 ((laneOf fieldB l).toNat + f.imm.toInt)) 32) fun s bs =>
        andThen (s.traverse rd (w.ray f.a l) (f.mbits 1 0) (f.mbits 2 2 == 1) (sceneOf bs)) fun s x => (s, .ok (traceWords x))) ∧
    serves (.texSmp f) 4 (fun s l =>
      andThen (s.laneRecord rd heap (laneOf b32 l)) fun s bs =>
        match texRec bs (samplerOver f) with
        | Option.none => (s, .ok [0, 0, 0, 0])
        | some q => andThen (s.sample rd q (w.texArg f l) (w.texLam f l)) fun s x => (s, .ok (words4 x))) ∧
    serves (.texGthr f) 4 (fun s l =>
      andThen (s.laneRecord rd heap (laneOf b32 l)) fun s bs =>
        match texRec bs (samplerOver f) with
        | Option.none => (s, .ok [0, 0, 0, 0])
        | some q => andThen (s.gather rd q (w.texArg f l) (w.texLam f l) (f.mbits 3 2)) fun s x => (s, .ok (words4 x))) ∧
    serves (.texLd f) 4 (fun s l =>
      andThen (s.laneRecord rd heap (laneOf b32 l)) fun s bs =>
        match texRec bs Option.none with
        | Option.none => (s, .ok [0, 0, 0, 0])
        | some q =>
          let c := fun (k : Nat) => ((w.spanLane f.a 4 l).getD k 0).toInt
          andThen (s.fetchTexel rd q (c 0) (c 1) (c 2) (c 3)) fun s x => (s, .ok (words4 x))) ∧
    serves (.recLd f) n (fun s l =>
      andThen (s.laneRecord rd heapB (laneOf a l)) fun s bs =>
        (s, .ok (tabulate n fun k => BitVec.ofNat 32 (numAt bs (4 * (f.mbits 3 0 + k)) 4))))

/-- A ray block is eight consecutive registers from vR, with R at most 248: the origin, tmin, the direction and tmax. A ray that
holds a NaN, or whose direction is zero on all three axes, hits no box and no triangle (R381). -/
def Obligations.DeadRaysHitNothing : Prop :=
  (∀ (w : Wave) (r : BitVec 8) (l : Nat),
    let x := fun (k : Nat) => ((lane (w.vAt (r.toNat + k)) l).setWidth 64 : Word64)
    w.ray (.v r) l = ⟨[x 0, x 1, x 2], x 3, [x 4, x 5, x 6], x 7⟩) ∧
  (∀ (f : Fields) (r : BitVec 8), f.a = .v r →
    ∀ i ∈ [Instr.rtBox f, .rtTri f, .rtTriReg f, .rtTrace f], i.wf = true → r.toNat ≤ 248) ∧
  (∀ (r : Ray) (n : List Byte) (cull : Nat) (corners : List (List Word64)),
    ((∃ x ∈ r.o ++ r.d ++ [r.tmin, r.tmax], (f32v x).isNan = true) ∨ (∀ x ∈ r.d, (f32v x).isZero = true)) →
      hitChildren r n = [] ∧ triTest cull r corners = Option.none)

/-! ### Measurement and debug -/

/-- Debug instructions that pass their checks (R435, R436, R440, R443): RGN.IN pushes and RGN.OUT pops the stack, with a
trace record where tracing is on, of the stack after the push and before the pop (the model's reading, log 40); a pop of another region or of an empty stack traps; BRK halts where halting is
enabled for its context, does nothing in supervisor state and traps BREAK otherwise; PROG counts in a trial. -/
def Claim.DebugInstructionsComplete : Prop :=
  ∀ (s : State) (w : Wave) (f : Fields),
    let d := s.dbg w.core
    let depth := w.rgndepth.toNat
    let name : BitVec 16 := f.imm.setWidth 16
    let top := w.regions.getD (depth - 1) 0
    let pushed := { w with regions := if depth < 16 then w.regions.take depth ++ [name] else w.regions
                           rgndepth := if depth < 65535 then w.rgndepth + 1 else w.rgndepth }
    (s.runs w (.rgnIn f) f .dest false = true →
      exec (.rgnIn f) s = .next (((s.setMe pushed).trace pushed 1).modMe fun y => y.after f)) ∧
    (s.runs w (.rgnOut f) f .dest false = true →
      (depth = 0 → exec (.rgnOut f) s = s.trap 0x48 w.exec (name.setWidth 64)) ∧
      (depth ≠ 0 → depth ≤ 16 → top ≠ name → exec (.rgnOut f) s = s.trap 0x48 w.exec (name.setWidth 64 + top.setWidth 64 <<< 16)) ∧
      (depth ≠ 0 → (16 < depth ∨ top = name) → exec (.rgnOut f) s = .next ((s.trace w 2).modMe fun y =>
        { y with rgndepth := y.rgndepth - 1, regions := y.regions.take (depth - 1) }.after f))) ∧
    (s.runs w (.brk f) f .dest false = true →
      (w.sup = true → exec (.brk f) s = .next (s.setMe (w.after f))) ∧
      (w.sup = false → dbgHalten d = true → dbgTag d = s.tagOf w → exec (.brk f) s = .next (s.haltWave w 1 0 8)) ∧
      (w.sup = false → (dbgHalten d = false ∨ dbgTag d ≠ s.tagOf w) → exec (.brk f) s = s.trap 0x06 w.exec 8)) ∧
    (s.runs w (.prog f) f .dest false = true → exec (.prog f) s = .next ((if s.trialOf w then { s with trial := { s.trial with
      prog := modAt s.trial.prog ((s.readS w (.int 32) f.a).toNat % 8) (· + 1) } } else s).setMe (w.after f)))

/-- Debug events (R437 to R445): a breakpoint or a stop request halts a wave that may issue, and only a stop request that takes
effect is no longer pending; a halted wave is restored from its frame and goes on, is delivered to TRAPVEC with cause BREAK, or
runs one step, at once or once its frame may be read; a sample records the next slot in rotation, once a period (the rotation is
the model's reading, log 40); a trial holds an issue outside its range and counts one that is made; a wave that leaves its slot
leaves no HALTED bit there and a stop request for it is cancelled, by a fault or DESTROY too (R446, and log 40 for those); the
read-out of a frozen device is each wave's fields from TIME to WAVE (R442, R445); reserved bits of the debug registers stay zero and read-only ones keep their values; a freeze stops the device. -/
def Claim.DebugEventsComplete : Prop :=
  ∀ (s : State) (id : WaveId) (w : Wave), s.waveAt id = some w →
    (∀ m, s.canIssue w = true → w.exempt = false → s.bpMatch w = some m → exec (.breakpointMatch id) s = .next (s.haltWave w 0
      (m.1 + if m.2 then 8 else 0) (BitVec.ofNat 64 (m.1 + if m.2 then 2 ^ 63 else 0)))) ∧
    (s.canIssue w = true → s.stopNow w = true → exec (.stopTakesEffect id) s = .next (s.haltStop w)) ∧
    (∀ t fr, w.halted = true → s.waveLoad w true (s.trapArea w) 200 0 = (t, .ok fr) →
      let go := fun (k : Wave → Wave) => (.next ((t.modWave id fun x => k { x.leaveTrap fr with halted := false }).modDbg id.core
        fun d => { d with halted := bitClear d.halted (slotNum id) }) : Out)
      exec (.resumeContinue id) s = go (fun x => { x with exempt := true, stepOnce := false }) ∧
      exec (.resumeStep id) s = go (fun x => { x with exempt := true, stepOnce := true }) ∧
      exec (.resumeDeliver id) s = go (fun x => { x with exempt := false, stepOnce := false }.enterTrap
        (s.ctx (s.tagOf x)).trapvec 6 (BitVec.ofNat 96 (numAt fr 0x18 12)) (BitVec.ofNat 64 (numAt fr 8 8)))) ∧
    (∀ q t st bp info, w.id = id → w.sup = false → s.readErrors w frameReads = (false, q) →
      q.waveStore w true (q.trapArea w) (w.trapFrame 6 w.exec info) = (t, .ok ()) → (t.waveAt id).isSome = true →
      let u := s.haltWave w st bp info
      (∃ x, u.waveAt id = some x ∧ x.halted = true ∧ x.haltAs = (st, bp, info)) ∧ (u.dbg w.core).stopreq = (t.dbg w.core).stopreq ∧
        (st = 2 → bp = 0 → info = 0 → s.haltStop w = u.modDbg w.core fun d => { d with stopreq := bitClear d.stopreq (slotNum id) })) ∧
    (∀ t, w.halted = true → s.waveLoad w true (s.trapArea w) 200 0 = (t, .wait) → exec (.resumeContinue id) s =
      .next (t.modDbg id.core fun d => { d with resumes := d.resumes ++ [BitVec.ofNat 64 (slotNum id)] })) ∧
    (∀ core, let n := (s.dbgDies.getD (dieOf core) ⟨0, 0, 0⟩).sampper.toNat
      (n = 0 ∨ s.time < (s.dbg core).sampled + n ∨ s.time < (s.dbg core).sampled + 1000) → exec (.sample core) s = .next s) ∧
    (∀ core, let n := (s.dbgDies.getD (dieOf core) ⟨0, 0, 0⟩).sampper.toNat
      n ≠ 0 → (s.dbg core).sampled + n ≤ s.time → (s.dbg core).sampled + 1000 ≤ s.time → id.core = core → slotNum id = (s.dbg core).next → w.wait ≠ .ended →
      (∀ x ∈ s.waves, x.id.core = core → slotNum x.id = slotNum id → x = w) → slotNum id < 64 → w.id = id →
      let u := s.modDbg core fun d => { d with sampled := s.time }
      exec (.sample core) s = .next ((u.modDbg core fun d => { d with next := (slotNum id + 1) % 64 }).record w 0
        (u.sampleState w).1 0 (u.sampleState w).2)) ∧
    (∀ (c : Nat) (x : Word64),
      exec (.registerWrite (.dbgctl c) x) s = .next (s.modDbg c fun d => { d with ctl := x &&& 0x7FFF }) ∧
      exec (.registerWrite (.stopreq c) x) s = .next (s.modDbg c fun d => { d with stopreq := x }) ∧
      exec (.registerWrite (.stopmode c) x) s = .next (s.modDbg c fun d => { d with stopmode := x &&& 1 }) ∧
      exec (.registerWrite (.cancelled c) x) s = .next (s.modDbg c fun d => { d with cancelled := d.cancelled &&& ~~~x }) ∧
      exec (.registerWrite (.halted c) x) s = .next s ∧ exec (.registerWrite (.drop c) x) s = .next s ∧
      exec (.registerWrite .trialctl x) s = .next { s with trial := { s.trial with ctl := x &&& 0x1FFFFF } }) ∧
    (s.mayTurn w = true →
      let u := { s with cur := s.indexOf id, serial := s.serial + 1 }.modMe fun w => { w with yield := Option.none }
      ∀ t, u.debugHalt w = Option.none → u.fetchRun = .next t →
        (t.hasIssued id = false → s.issue id = .next (t.issued id)) ∧
        (t.hasIssued id = true → u.trialHolds w = true → s.issue id = .next (u.trialHold w)) ∧
        (t.hasIssued id = true → u.trialHolds w = false → s.issue id = .next ((t.trialIssue u w).issued id))) ∧
    (∀ (tag n : Nat), (w.cord = n ∧ ∃ c ∈ s.cords, c.uid = n ∧ c.tag = tag) → w.id = id →
      let gone := fun (t : State) => (t.dbg id.core).stopreq.getLsbD (slotNum id) = false ∧
        (t.dbg id.core).halted.getLsbD (slotNum id) = false ∧
        ((s.dbg id.core).stopreq.getLsbD (slotNum id) = true → (t.dbg id.core).cancelled.getLsbD (slotNum id) = true)
      gone (s.dropCords tag) ∧ (∀ c, s.cordAt n = some c → c.tenures = [] → gone (s.takeImage n).2)) ∧
    exec .freeze s = .next { s with frozen := true } ∧ exec .pldmFreeze s = .next { s with frozen := true } ∧
    s.readOut = s.waves.map fun x => bytesOfNat 8 s.time ++ bytesOfNat 8 x.pc.toNat ++ bytesOfNat 8 (s.sampleState x).2.toNat ++
      x.topRegions ++ bytesOfNat 2 x.rgndepth.toNat ++ bytesOfNat 2 (s.tagOf x) ++ bytesOfNat 1 x.core ++ bytesOfNat 1 (slotNum x.id) ++
      bytesOfNat 1 0 ++ bytesOfNat 1 (s.sampleState x).1 ++ bytesOfNat 4 (s.cordOf x).cordid ++ bytesOfNat 1 x.index

/-- A frozen device does nothing but reset and lose power (R445): any other step only takes its turn off the agenda, and device
time stands still. -/
def Claim.FrozenDeviceStops : Prop :=
  ∀ (s : State), s.frozen = true →
    (s.agenda = [] → step s = .next s) ∧
    (∀ x rest, s.agenda = x :: rest → x.work ≠ .event .reset → x.work ≠ .event .powerRemoval →
      step s = .next { s with agenda := rest })

/-- Measurement and debug (R435 to R445). -/
def Obligations.DebugComplete : Prop :=
  Claim.DebugInstructionsComplete ∧ Claim.DebugEventsComplete ∧ Claim.FrozenDeviceStops

/-! ### The scheduler -/

/-- Queues (R115 to R118, R121, R142): a doorbell of a served context sets an IDLE queue that is not empty waiting, and on a
pull queue rings its blocked pops; a free slot takes the waiting queue of highest priority that has waited longest, whose
descriptor it checks; a slice that ends with nobody to take the slot is renewed, and its queue waits again where one
takes it, its context pre-empted when no other slot is left to it, once its taken records have expanded; a slot's own copy in
error is not used before it is read again (R17); QUEUE_RESUME makes a STOPPED queue IDLE. That a doorbell that cannot read its
queue yet is kept, and a priority that cannot be read counts as 0, is the model's choice (log 28), as is what a doorbell of a
context does that is not served (log 31). -/
def Claim.QueueSchedulingCompletes : Prop :=
  ∀ (s : State) (tag q slot : Nat),
    (∀ t h r, q < (s.ctx tag).qcount → ((s.ctx tag).st = .ready ∨ (s.ctx tag).st = .running ∨ (s.ctx tag).st = .preempted) →
      s.isPullQ tag q = false → s.qState tag q = .idle → s.headEntry (schedVia tag) q = (t, .ok (h, some r)) →
      exec (.doorbell tag q) s = .next (t.setQueue tag q .waiting)) ∧
    (∀ t, q < (s.ctx tag).qcount → ((s.ctx tag).st = .ready ∨ (s.ctx tag).st = .running ∨ (s.ctx tag).st = .preempted) →
      s.isPullQ tag q = false → s.qState tag q = .idle → s.headEntry (schedVia tag) q = (t, .wait) →
      exec (.doorbell tag q) s = .next { s.waited t with bells := (s.waited t).bells ++ [(tag, q)] }) ∧
    (q < (s.ctx tag).qcount → ((s.ctx tag).st = .ready ∨ (s.ctx tag).st = .running ∨ (s.ctx tag).st = .preempted) →
      s.isPullQ tag q = true → Out.ends (exec (.doorbell tag q) s) fun t =>
        { t with waves := s.waves } = s ∧ t.waves.length = s.waves.length ∧ ∀ (i : Nat) (w x : Wave), s.waves[i]? = some w → t.waves[i]? = some x →
          { x with wait := w.wait } = w ∧ x.wait = match w.wait with
            | .pop p b => if p = q ∧ s.tagOf w = tag then .pop p true else .pop p b
            | y => y) ∧
    (∀ (x : Queue) t u d l, slot < 64 → (∀ y ∈ s.slots, y.slot ≠ slot) → s.nextWaiting = some x →
      s.viaLoad (schedVia x.tag) (s.qDesc x.tag x.q) 64 = (t, .ok d) →
      t.viaLocate (schedVia x.tag) 1 [(s.qDesc x.tag x.q, 32)] = (u, .ok l) →
      let y : Slot := ⟨slot, x.tag, x.q, byteAt d 8 / 32, numAt d 10 2, u.time + 1000 * numAt d 10 2, descLog2 d, descBase d⟩
      exec (.queueMap slot) s = .next (if descOk (u.ctx x.tag) d
        then { u.setQueue x.tag x.q .mapped with slots := u.slots ++ [y] }
        else if s.canStop x.tag x.q then u.stopQueue x.tag x.q 0x10 else s)) ∧
    (∀ x, s.nextWaiting = some x → x ∈ s.queues ∧ x.st = .waiting ∧
      ∀ y ∈ s.waiting, s.queuePrio y.tag y.q < s.queuePrio x.tag x.q ∨
        (s.queuePrio y.tag y.q = s.queuePrio x.tag x.q ∧ x.since ≤ y.since)) ∧
    (∀ x, (s.slots.find? fun y => y.slot == slot) = some x → (∀ f ∈ s.flaws, f.place ≠ .slot slot) → s.meetSlot slot = (some x, s)) ∧
    (∀ x t, s.meetSlot slot = (some x, t) → x.sliceEnd ≤ t.time →
      (t.sliceTaker x = Option.none → let l := modWhere t.slots (fun y => y.slot == slot) fun y => { y with sliceEnd := t.time + 1000 * y.slice }
        exec (.sliceEnd slot) s = .next { t with slots := l }) ∧
      (∀ y, t.sliceTaker x = some y → t.expandsOf x.tag x.q = true → exec (.sliceEnd slot) s = .next t) ∧
      (∀ y, t.sliceTaker x = some y → t.expandsOf x.tag x.q = false →
        let u := { t with slots := t.slots.filter fun z => z.slot != slot }.setQueue x.tag x.q .waiting
        exec (.sliceEnd slot) s = .next ((if (∃ z ∈ u.slots, z.tag = x.tag) ∨ y.tag = x.tag then u
          else u.preempt x.tag).mapQueue slot y.tag y.q))) ∧
    (s.qState tag q = .stopped → Out.ends (exec (.queueResume tag q) s) fun t =>
      { t with recs := s.recs } = s.setQueue tag q .idle ∧ t.recs.length = s.recs.length ∧
      ∀ (i : Nat) (r x : Rec), s.recs[i]? = some r → t.recs[i]? = some x → { x with stage := r.stage } = r)

/-- Records (R117, R119, R121, R122, R131, R137): a mapped queue's published entry is taken and HEAD advances; a record that
fails its checks is refused with its reason and its queue stops; a SIGNAL record (type 3) is expanded at once, a COPY or RAYGEN
record begins its own work, and a grid begins with cord 0 of its kernel once the kernel passes; a record whose cords have retired decrements its join and
goes; the first held successor of a die whose ring has room enters it. -/
def Claim.RecordsComplete : Prop :=
  ∀ (s : State) (slot : Nat),
    (∀ x s0 t h r, s.meetSlot slot = (some x, s0) → s0.canServe x.tag = true → s0.mayTake x.tag x.q = true →
      s0.sliceOver x = false → s0.headEntry (schedVia x.tag) x.q = (t, .ok (h, some r)) →
      let u := t.descStore x.tag (t.qDesc x.tag x.q + 0x18) (bytesOfNat 8 (h + 1))
      let y : Rec := ⟨u.uid, x.tag, x.q, r, Option.none, Option.none, .taken, Option.none, 0, 0, u.uid, h⟩
      exec (.recordTake slot) s = .next { u with uid := u.uid + 1, recs := u.recs ++ [y] }) ∧
    (∀ x, let s0 := (s.meetSlot slot).2
      (∀ f ∈ s0.flaws, f.place ≠ .slot slot) → (s0.servers.find? fun y => y.slot == slot) = some x → s0.canServe x.tag = true →
      (∀ r, (∀ y ∈ s0.recs, y.tag = x.tag → y.q = x.q → ∀ n, y.stage ≠ .expanding n) → s0.nextRec x.tag x.q = some r → s0.serialOk r = true →
        let why := recordReason (s0.ctx x.tag).recver.toNat x.prio r.bytes
        let begin := fun (s : State) (st : RecStage) (k : Option Kernel) =>
          s.modRec r.uid fun y => { y with stage := st, kernel := k, grid := recCount r.bytes, buffer := Option.none }
        (∀ c, why = some c → exec (.recordExpand slot) s = .next (s0.refuse r c)) ∧
        (why = Option.none →
          (recType r.bytes = 3 → exec (.recordExpand slot) s = .next (begin s0 .expanded Option.none)) ∧
          (recType r.bytes = 4 → exec (.recordExpand slot) s = .next (begin s0 (.copying (linearPieces (recFrame r.bytes)
            (recCode r.bytes) (recG r.bytes 0) false false 0 0)) Option.none)) ∧
          (recType r.bytes = 5 → exec (.recordExpand slot) s = .next (begin s0 .raygen Option.none)) ∧
          (recType r.bytes ≠ 3 → recType r.bytes ≠ 4 → recType r.bytes ≠ 5 →
            (∀ t k, s0.readKernel x.tag (recCode r.bytes) = (t, .ok (.inl k)) →
              exec (.recordExpand slot) s = .next (begin t (.expanding 0) (some k))) ∧
            (∀ t c, s0.readKernel x.tag (recCode r.bytes) = (t, .ok (.inr c)) →
              exec (.recordExpand slot) s = .next (t.refuse r c)))))) ∧
    (∀ uid r t, s.recOf uid = some r → r.stage = .expanded → s.hasCords uid = false → (∀ x ∈ s.recs, x.parent ≠ some uid) →
      r.horizon ≤ s.time → s.joinDec r.tag (recJoin r.bytes) = (t, true) →
      exec (.recordRetire uid) s = .next (({ t with recs := t.recs.filter fun x => x.uid != uid }.idleCheck r.tag r.q).readyCheck r.tag)) ∧
    (∀ die h rest t, (s.helds.filter fun h => h.1 == die) = h :: rest → s.enqueue h.2.tag h.2.q h.2.bytes = (t, .ok true) →
      exec (.successorRelease die) s = .next { t with helds := t.helds.erase h }) ∧
    (∀ die h rest t, (s.helds.filter fun h => h.1 == die) = h :: rest → s.enqueue h.2.tag h.2.q h.2.bytes = (t, .ok false) →
      exec (.successorRelease die) s = .next (s.releaseHeld rest))

/-- The queue scheduler (R115 to R122, R131, R137, R142). -/
def Obligations.SchedulerCompletes : Prop :=
  Claim.QueueSchedulingCompletes ∧ Claim.RecordsComplete

/-- A kernel's reasons for refusal do not depend on more than its descriptor, its groups and the number of queues, and come in
order (R131, R217): an accepted kernel has 1 to 256 registers, 1 to 64 waves, and room for its registers in every
partition. -/
def Claim.AcceptedKernelsAreWithinLimits : Prop :=
  ∀ (qcount : Nat) (d : List Byte) (k : Kernel), kernelReason qcount d k = Option.none →
    1 ≤ k.regs ∧ k.regs ≤ 256 ∧ 16 ≤ k.sregs ∧ k.sregs ≤ 128 ∧ 1 ≤ k.waves ∧ k.waves ≤ 64 ∧
    k.scratch ≤ Config.scratchBytes ∧ k.barriers.length ≤ 64 ∧
    (∀ p < 8, k.partRegs p ≤ 384) ∧ (∀ w < k.waves, ((List.range k.groups.length).filter fun g =>
      (k.groups.getD g 0).getLsbD w).length ≤ 4)

/-- Placement (R133 to R136, R118): the chosen slot's cord takes the berths and the scratchpad found on the first core it
fits; its waves start at the entry with every lane live, K0 full, C = 1, every register zero, and no horizon. A cord
whose waves have ended releases its tenures first, and is removed once everything has completed. -/
def Obligations.PlacementAndRetirement : Prop :=
  ∀ (s : State) (slot : Nat),
    (∀ x r k n core l a, s.dispatchChoice = some slot → (s.servers.find? fun x => x.slot == slot) = some x →
      s.placeable x = some (r, k, n, core, l, a) →
      let done := (s.served.filter fun (x : Nat × Nat) => x.1 != recPrio r.bytes) ++ [(recPrio r.bytes, slot)]
      exec (.cordPlace slot) s = .next ({ s with served := done }.place r k n core l a) ∧
      Out.ends (exec (.cordPlace slot) s) fun t => t.dispP = core ∧
        ∃ c : Cord, t.cords = s.cords ++ [c] ∧ c.core = core ∧ c.cordid = n ∧ c.count = r.grid ∧ c.frame = recFrame r.bytes ∧
          c.kernel = k ∧ c.scratch = [] ∧ c.tenures = [] ∧
        ∃ ws, t.waves = s.waves ++ ws ∧ ws.length = l.length ∧ ∀ w ∈ ws, w.cord = c.uid ∧ w.pc = BitVec.ofNat 64 k.entry ∧
          w.live = BitVec.allOnes 96 ∧ w.kAt 0 = BitVec.allOnes 96 ∧ w.c = 1 ∧ w.sup = false ∧ w.horizon = 0 ∧
          w.bound = k.regs ∧ ∀ n, w.sAt n = 0 ∧ (w.vReg n).producer = Option.none) ∧
    (∀ uid c, s.cordAt uid = some c → (∀ w ∈ s.waves, w.cord = uid → w.wait = .ended) → s.wavesQuiet uid = true → c.tenures = [] →
      exec (.cordRetire uid) s = .next (((s.removeCord c).idleCheck c.tag (((s.recOf c.recUid).map fun r => r.q).getD 0)).readyCheck c.tag) ∧
      Out.ends (exec (.cordRetire uid) s) fun t => (∀ x ∈ t.cords, x.uid ≠ uid) ∧ ∀ w ∈ t.waves, w.cord ≠ uid)

/-- Two waves of a core never share a register granule or a slot by placement (R134): the berths that placement finds are free
and differ from one another. -/
def Claim.BerthsDoNotOverlap : Prop :=
  ∀ (core : Nat) (want : List (Nat × Nat)) (used : List Berth) (l : List (Nat × Berth)),
    placeWaves core want used = some l →
      l.map (fun x => x.1) = want.map (fun x => x.1) ∧
      (∀ x ∈ l, x.2.id.core = core ∧ x.2.id.part = x.1 % 8 ∧ x.2.id.slot < Config.slotsPerPartition ∧ x.2.first + x.2.n ≤ Config.granules ∧
        ∀ b ∈ used, b.id.part = x.2.id.part →
          (x.2.first + x.2.n ≤ b.first ∨ b.first + b.n ≤ x.2.first) ∧ b.id.slot ≠ x.2.id.slot) ∧
      l.Pairwise fun x y => x.2.id.part = y.2.id.part →
        (x.2.first + x.2.n ≤ y.2.first ∨ y.2.first + y.2.n ≤ x.2.first) ∧ x.2.id.slot ≠ y.2.id.slot

/-- Limits of kernels and of placement (R131, R134, R217). -/
def Obligations.KernelsAndBerthsAreWithinLimits : Prop :=
  Claim.AcceptedKernelsAreWithinLimits ∧ Claim.BerthsDoNotOverlap

/-! ### Contexts -/

/-- Context commands (R94 to R99, R317, R428): CREATE of a FREE tag makes it BUILDING and writes the reset block; COMMIT of a
good block of known versions makes it READY with its fields; DESTROY stops every cord, puts the queue pairs in ERROR and makes it
DESTROYING, which ends once their requests are flushed and its event has room; INVAL
queues its invalidation; the wrong state, FREE for INVAL, gives BADSTATE and changes nothing else. A block with a poisoned
sector gives FAULT, and the context stays BUILDING (the model's choice, log 22). -/
def Obligations.ContextCommandsComplete : Prop :=
  ∀ (s : State) (tag blk : Nat),
    let bad := s.cmdStatus blk 1
    ((s.ctx tag).st = .free → exec (.ctxCreate tag blk) s = .next (((s.physStore tag (s.ctxBlock tag) (bytesOfNat 8 0 ++
      bytesOfNat 2 (tag + 4096) ++ List.replicate 118 0)).2.modCtx tag fun _ => { Ctx.empty tag with st := .building }).cmdStatus blk 0)) ∧
    ((s.ctx tag).st ≠ .free → exec (.ctxCreate tag blk) s = .next bad) ∧
    ((s.ctx tag).st = .building → ∀ t, s.readBlock tag = (Option.none, t) → exec (.ctxCommit tag blk) s = .next (t.cmdStatus blk 5)) ∧
    (∀ b s1, (s.ctx tag).st = .building → s.readBlock tag = (some b, s1) →
      let at_ := s1.ctxBlock tag
      b = s1.ownBytes at_ 128 ∧
      (blockBad b = true → exec (.ctxCommit tag blk) s = .next (s1.cmdStatus blk 2)) ∧
      (blockBad b = false → (∃ i ∈ [88, 89, 90], byteAt b i / 16 ≠ 1) → exec (.ctxCommit tag blk) s = .next (s1.cmdStatus blk 3)) ∧
      (blockBad b = false → (∀ i ∈ [88, 89, 90], byteAt b i / 16 = 1) →
        let v := [16 + min (byteAt b 88 % 16) 1, 16, 16]
        exec (.ctxCommit tag blk) s = .next ((((s1.physStore tag (at_ + 88) (v.flatMap fun x => bytesOfNat 1 x)).2.modCtx tag fun c => { c with
          ptroot := numAt b 0 8 / 4096 % 2 ^ 40 * 4096, prio := byteAt b 10 % 8, trapvec := numAt b 16 8, supbase := numAt b 24 8, supsize := numAt b 32 8, htable := numAt b 40 8, fpool := numAt b 48 8, mailbox := numAt b 56 8, mblog2 := byteAt b 64 % 16, qlist := numAt b 72 8, qcount := numAt b 80 2, recver := BitVec.ofNat 8 (v.getD 0 0), qver := 16, mbver := 16, savebase := numAt b 96 8, savesize := numAt b 104 8, mbnext := 0 }).setCtx tag .ready).cmdStatus blk 0))) ∧
    ((s.ctx tag).st ≠ .building → exec (.ctxCommit tag blk) s = .next bad) ∧
    ((s.ctx tag).st ≠ .free → (s.ctx tag).st ≠ .destroying → 
      let u := ((s.dropCords tag).dropRecords tag).freeSlots tag true
      exec (.ctxDestroy tag blk) s =
        .next ((((u.qpsOf tag).foldl (fun s q => s.qpError q Option.none) u).setCtx tag .destroying).cmdStatus blk 0)) ∧
    (((s.ctx tag).st = .free ∨ (s.ctx tag).st = .destroying) → exec (.ctxDestroy tag blk) s = .next bad) ∧
    ((s.ctx tag).st = .destroying → s.qpsFlushed tag = true → s.mayPost (homeDie (s.ctxBlock tag)) = true → Out.ends (exec (.destroyComplete tag) s) fun t =>
      (∀ x ∈ t.ctxs, x.tag ≠ tag) ∧ (∀ x ∈ t.tlb, x.tag ≠ tag) ∧ (∀ x ∈ t.queues, x.tag ≠ tag) ∧ (∀ x ∈ t.l1, x.tag ≠ tag) ∧
        (∀ x ∈ t.icache, x.tag ≠ tag) ∧ (∀ x ∈ t.walks, x.tag ≠ tag) ∧ (∀ x ∈ t.touches, x.tag ≠ tag) ∧ ∀ x ∈ t.comms, x.tag ≠ tag) ∧
    ((s.ctx tag).st = .destroying → (s.qpsFlushed tag = false ∨ s.mayPost (homeDie (s.ctxBlock tag)) = false) →
      exec (.destroyComplete tag) s = .next s) ∧
    (∀ addr len : Word64, (s.ctx tag).st ≠ .free → let i : Inval := ⟨s.uid, tag, if len = 0 then Option.none else some (addr.toNat, len.toNat), [], false, 0⟩
      exec (.inval tag addr len blk) s = .next { s with uid := s.uid + 1, commands := s.commands ++ [(⟨i, blk⟩ : Command)] }) ∧
    (∀ addr len : Word64, (s.ctx tag).st = .free → exec (.inval tag addr len blk) s = .next bad)

/-- Pre-emption (R98, R108 to R113, R427): within 20 µs of the stop a context whose cords have drained, without a latent error
in their scratchpads, is saved; later it faults with 0x53. A resumed context with nothing saved is READY, and with
images stays PREEMPTED while its children return; the next image is restored where it fits, its halted waves halt
again (R446), and it re-acquires before the next is placed. NKWAKE of an answered entry gives its wave the result and frees the entry, and otherwise does nothing. -/
def Claim.PreemptionCompletes : Prop :=
  ∀ (s : State) (tag : Nat),
    let c := s.ctx tag
    let cords := s.cords.filter fun c => c.tag == tag
    (∀ t, c.drain = some t → s.time ≤ t + 20000 → (∀ x ∈ cords, s.drained x.uid = true) → s.flaws = [] →
      let u := (cords.flatMap fun c => c.gathers.map fun g => (c.uid, g.group)).foldl (fun s x => s.dropGather x.1 x.2) s
      exec (.drainEnd tag) s = .next (u.saveContext tag u)) ∧
    (∀ t, c.drain = some t → exec (.drainTimeout tag) s = .next (if t + 20000 < s.time then s.ctxFault tag 0x53 else s)) ∧
    (c.st = .preempted → s.resumed tag = true →
      (c.savedKids = [] → exec (.contextResume tag) s =
        let u := s.modCtx tag fun c => { c with savedKids := [] }
        .next (if c.images = [] then u.setCtx tag .ready else u)) ∧
      (∀ t b, c.savedKids ≠ [] →
        s.viaLoad (schedVia tag) (c.images.foldl (fun a m => max a (m.base + pageUp m.bytes)) c.savebase) (64 * c.savedKids.length) = (t, .ok b) →
        exec (.contextResume tag) s =
          let u := t.modCtx tag fun c => { c with savedKids := [] }
          .next (if c.images = [] then u.setCtx tag .ready else u))) ∧
    (∀ x, (s.cords.find? fun x => x.tag == tag && !x.reacq.isEmpty) = some x → exec (.cordRestore tag) s = .next (s.reacquire x)) ∧
    (∀ m rest core l a t x, (∀ x ∈ s.cords, x.tag = tag → x.reacq = []) → (c.st = .preempted ∨ c.st = .running) → c.drain = Option.none →
      s.resumed tag = true → c.savedKids = [] → c.images = m :: rest → s.coreOrder.findSome? (s.restoreFit m) = some (core, l, a) →
      s.imageGood tag m = (t, .ok true) →
      let u := (t.restoreCord m core l a).modCtx tag fun c => { c with images := rest }
      let u := if c.st = .preempted then u.setCtx tag .running else u
      u.cords.getLast? = some x → ∀ v y, State.haltsAgain (u.waves.filter fun w => w.cord == x.uid && w.halted) u = (v, .ok ()) →
      v.cords.getLast? = some y → exec (.cordRestore tag) s = .next (v.reacquire y)) ∧
    (∀ (v : Word64) (t : State) b,
      let entry := v.toNat % 2 ^ 16
      let tag := v.toNat / 2 ^ 16 % 2 ^ 12
      let va := (s.ctx tag).mailbox + 64 * entry
      v.toNat < 2 ^ 28 → entry < 2 ^ (s.ctx tag).mblog2 → ((s.ctx tag).st = .running ∨ (s.ctx tag).st = .preempted) →
      ∀ t0 l, s.viaLoad (schedVia tag) va 64 = (t0, .ok b) → t0.viaLocate (schedVia tag) 1 [(va, 4)] = (t, .ok l) →
      (numAt b 0 4 ≠ 2 → exec (.nkwake v) s = .next s) ∧
      (numAt b 0 4 = 2 →
        let x := BitVec.ofNat 64 (numAt b 0x28 8)
        let u := { t with waves := modWhere t.waves (fun w => t.tagOf w == tag) fun w => w.answered entry x true }
        exec (.nkwake v) s = .next ((u.modCtx tag fun c => { c with images := c.images.map fun m =>
          { m with waves := m.waves.map fun w => w.answered entry x false } }).storePieces .engine (some tag) Option.none true l (bytesOfNat 4 0)).2)) ∧
    (∀ die (e : EventEntry) x t, (s.events.find? fun x => x.1 == die) = some (x, e) → s.nkevt.getD die 0 ≠ 0 →
      s.ringPost unitSched 0 die (s.nkevt.getD die 0).toNat 16 (bytesOfNat 12 (e.code + 2 ^ 8 * (e.tag % 4096) + 2 ^ 32 * (e.arg % 2 ^ 32) +
        2 ^ 64 * (e.arg2 % 2 ^ 32))) = (t, .ok true) →
      exec (.eventPost die) s = .next ({ t with events := t.events.erase (die, e) }.interrupt (t.nkevthart.getD die 0) 1))

/-- A wave that waits for an answer takes it as its UPCALL's result, where it is resident, and keeps every other register
(R108, R113). -/
def Claim.AnswerReachesItsWave : Prop :=
  ∀ (w : Wave) (entry e : Nat) (x : Word64) (d : Opnd) (len : Nat),
    w.wait = .upcall e d Option.none len →
      (e = entry → w.answered entry x true = (w.putS d x).next len) ∧
      (e = entry → w.answered entry x false = { w with wait := .upcall e d (some x) len }) ∧
      (e ≠ entry → ∀ b, w.answered entry x b = w)

/-- Pre-emption and wakes (R98, R108 to R113, R427). -/
def Obligations.PreemptionAndWakesComplete : Prop :=
  Claim.PreemptionCompletes ∧ Claim.AnswerReachesItsWave

/-! ### Ports, hosts and queue pairs -/

/-- Peer ports (R404 to R406, R428, R429): in the states that R404 gives, each command and link event makes its transition,
which is reported as event 0x07 and recomputes the routes; in other states a command answers BADSTATE and an event
changes nothing; while the die's event ring has no room all of them wait. The loss of lanes narrows the link while one remains
and of all lanes is an error; a command for a port of 16 or more answers BADCMD. -/
def Claim.PortsComplete : Prop :=
  ∀ (s : State) (p blk : Nat),
    let x := s.port p
    let move := fun (f : PeerPort → PeerPort) => s.portTo p f
    let ok := fun (f : PeerPort → PeerPort) => (.next ((move f).cmdStatus blk 0) : Out)
    let bad := (.next (s.cmdStatus blk 1) : Out)
    let up := x.st = .active ∨ x.st = .degraded
    let train := fun (p : PeerPort) => { p with st := PortState.training, since := s.time, peer := Option.none, width := 0 }
    (16 ≤ p → ∀ i ∈ [Instr.portEnable p blk, .portDisable p blk, .portQuiesce p blk, .portResume p blk, .portRetrain p blk],
      exec i s = .next (s.cmdStatus blk 4)) ∧
    (p < 16 → s.mayPost (p / 8) = true →
      exec (.portEnable p blk) s = (if x.st = .down then ok train else bad) ∧
      exec (.portDisable p blk) s = ok (fun p => { p with st := .down, peer := Option.none, width := 0 }) ∧
      exec (.portQuiesce p blk) s = (if x.st = .active ∨ x.st = .degraded then ok fun p => { p with st := .quiesced, before := p.st } else bad) ∧
      exec (.portResume p blk) s = (if x.st = .quiesced then ok fun p => { p with st := p.before } else bad) ∧
      exec (.portRetrain p blk) s = (if x.st = .error then ok train else bad) ∧
      (∀ n, x.st = .training → n ∈ [1, 2, 4] → exec (.linkUp p n) s = .next (move fun p => { p with st := .negotiating, width := n })) ∧
      (∀ n, (x.st ≠ .training ∨ n ∉ [1, 2, 4]) → exec (.linkUp p n) s = .next s) ∧
      (x.st = .training → x.since + 100000000 ≤ s.time → exec (.trainingTimeout p) s = .next (move fun p => { p with st := .down })) ∧
      ((x.st ≠ .training ∨ s.time < x.since + 100000000) → exec (.trainingTimeout p) s = .next s) ∧
      (∀ minor peer, x.st = .negotiating → exec (.versionNegotiation p 1 minor peer) s =
        .next (move fun p => { p with st := if p.width = 4 then .active else .degraded, peer := some (peer % 256) })) ∧
      (∀ major minor peer, x.st = .negotiating → major ≠ 1 → exec (.versionNegotiation p major minor peer) s =
        .next (move fun p => { p with st := .error })) ∧
      (∀ n, up → (n = 1 ∨ n = 2) → n < x.width → exec (.laneLoss p n) s = .next (move fun p => { p with st := .degraded, width := n })) ∧
      (∀ n, n ≠ 0 → (¬ up ∨ 2 < n ∨ x.width ≤ n) → exec (.laneLoss p n) s = .next s) ∧
      (∀ i ∈ [Instr.replayLimitExceeded p, .laneLoss p 0],
        (up → exec i s = .next ({ s with heldPkts := s.heldPkts.filter fun h => h.port != p }.portTo p
          fun p => { p with st := .error, peer := Option.none })) ∧
        (¬ up → exec i s = .next s)) ∧
      (∀ f, p < s.ports.length → (move f).port p = f x ∧ (move f).mem = s.mem ∧ ∀ q, q ≠ p → (move f).port q = s.port q)) ∧
    (p < 16 → s.mayPost (p / 8) = false → ∀ n major minor peer,
      ∀ i ∈ [Instr.portEnable p blk, .portDisable p blk, .portQuiesce p blk, .portResume p blk, .portRetrain p blk, .linkUp p n,
        .trainingTimeout p, .versionNegotiation p major minor peer, .laneLoss p n, .replayLimitExceeded p], exec i s = .next s)

/-- A port that transmits is ACTIVE or DEGRADED, and only then on a route (R404, R406): the ports of a route stand in ascending
order, belong to the die and lead to the peer. -/
def Claim.RoutesAreOpenPorts : Prop :=
  ∀ (s : State) (die peer : Nat), (s.route die peer).Pairwise (· < ·) ∧ ∀ p, p ∈ s.route die peer ↔
    p < 16 ∧ p / 8 = die ∧ ((s.port p).st = .active ∨ (s.port p).st = .degraded) ∧ (s.port p).peer = some peer

/-- The host (R243, R249, R250, R401, R402, R430, R432, R437): an access to a port in PCIe mode that holds none performs: one in
the BAR2 window that translates reads and answers, stores its bytes, or, once the port's earlier writes have been
accepted, is an AtomicOp that answers with the old bytes; BAR0, of 64 MiB, shows the debug registers at 0x2000000, zero at a
reserved offset there (R4), and takes doorbells. One outside the window, or an AtomicOp that is not aligned, answers nothing
(the model's choice, log 27). A CXL port takes none. That the boot buffer stands at offset 0 of BAR0, that a doorbell there names
its queue, and that recovery mode takes only BAR0 on port 0 are PRESUMED (log 12). A snoop in CXL mode drops the L2 copy and
shows what the pool device made coherent, after the writes that the pool has acknowledged. -/
def Claim.HostAccessesComplete : Prop :=
  ∀ (s : State) (port : Nat) (h : HostPort), s.hosts[port]? = some h →
    let via := hostVia port
    let taken := fun (r : HostReq) => { s with hosts := modAt s.hosts port fun x => { x with held := [r] } }
    let served := fun (t : State) => (.next { t with hosts := modAt t.hosts port fun x => { x with held := [] } } : Out)
    (h.mode = .pcie → s.boot.recovery = false → h.held = [] →
      (∀ va n t bs, va.toNat + n ≤ 2 ^ h.bar2 → (taken (.access (.read va n))).viaLoad via va.toNat n = (t, .ok bs) →
        exec (.hostBar2Access port (.read va n)) s = served (t.hostAnswer port bs)) ∧
      (∀ va bs t l, va.toNat + bs.length ≤ 2 ^ h.bar2 → (taken (.access (.write va bs))).viaLocate via 1 (piecesOf va.toNat bs.length) = (t, .ok l) →
        exec (.hostBar2Access port (.write va bs)) s = served (t.storePieces (.host port) (some 0) Option.none false l bs).2) ∧
      (∀ va n, 2 ^ h.bar2 < va.toNat + n →
        exec (.hostBar2Access port (.read va n)) s = served ((taken (.access (.read va n))).hostAnswer port [])) ∧
      (∀ va bs, 2 ^ h.bar2 < va.toNat + bs.length →
        exec (.hostBar2Access port (.write va bs)) s = served (taken (.access (.write va bs)))) ∧
      (∀ a t old, (hostAtomicParts a).1 % (hostAtomicParts a).2.1 = 0 → (hostAtomicParts a).1 + (hostAtomicParts a).2.1 ≤ 2 ^ h.bar2 →
        (∀ w ∈ s.writes, w.agent = .host port → w.ctime.isSome = true) →
        (taken (.atomic a)).viaAtomic via (hostAtomicParts a).1 (hostAtomicParts a).2.1 (hostAtomicParts a).2.2 = (t, .ok old) →
        exec (.hostAtomicop port a) s = served (t.hostAnswer port (bytesOfNat (hostAtomicParts a).2.1 old))) ∧
      (∀ a, (hostAtomicParts a).1 % (hostAtomicParts a).2.1 ≠ 0 →
        exec (.hostAtomicop port a) s = served ((taken (.atomic a)).hostAnswer port [])) ∧
      (∀ a, (hostAtomicParts a).1 % (hostAtomicParts a).2.1 = 0 → 2 ^ h.bar2 < (hostAtomicParts a).1 + (hostAtomicParts a).2.1 →
        exec (.hostAtomicop port a) s = served ((taken (.atomic a)).hostAnswer port []))) ∧
    (h.mode = .pcie → (s.boot.recovery = false ∨ port = 0) → h.held = [] →
      (∀ off n, exec (.hostBar2Access port (.bar0Read off n)) s = served ((taken (.access (.bar0Read off n))).hostAnswer port
        (if 2 ^ 26 < off + n then [] else tabulate n fun i => s.bar0Byte (off + i)))) ∧
      (∀ off bs, off + bs.length ≤ 2 ^ 26 →
        exec (.hostBar2Access port (.bar0Write off bs)) s = served ((taken (.access (.bar0Write off bs))).bar0Write port off bs)) ∧
      (∀ off bs, 2 ^ 26 < off + bs.length →
        exec (.hostBar2Access port (.bar0Write off bs)) s = served (taken (.access (.bar0Write off bs)))) ∧
      (∀ tag q, exec (.hostBar2Access port (.doorbell tag q)) s =
        served ((taken (.access (.doorbell tag q))).bar0Doorbell port tag q))) ∧
    (∀ off, (off < 2 ^ 25 → s.bar0Byte off = s.boot.buffer.getD off 0) ∧
      (2 ^ 25 ≤ off → s.bar0Byte off = match bar0Reg (off / 8 * 8) with
        | some r => (bytesOfNat 8 (s.hwReg r).toNat).getD (off % 8) 0
        | Option.none => 0)) ∧
    ((h.mode ≠ .pcie ∨ s.boot.recovery = true) → ∀ a, exec (.hostAtomicop port a) s = .next s) ∧
    (∀ a, (h.mode ≠ .pcie ∨ (s.boot.recovery = true ∧ ((HostReq.access a).onBar0 = false ∨ port ≠ 0))) →
      exec (.hostBar2Access port a) s = .next s) ∧
    (∀ sector bytes, exec (.backInvalidationSnoop ⟨sector, bytes⟩) s = .next
      (if poolBase ≤ sector ∧ sector < 2 ^ 52 ∧ (∃ x ∈ s.hosts, x.mode = .cxl) then { s with
        l2 := s.l2.filter fun x => x.1 != sectorBase sector
        mem := cellsSet s.mem (cellsAt (sectorBase sector) (bytes.take 32))
        writes := modWhere s.writes (fun w => w.pool && w.acked) fun w => { w with bytes := w.bytes.map fun c =>
          (c.1, (((cellsAt (sectorBase sector) (bytes.take 32)).find? fun x => x.1 == c.1).map fun x => x.2).getD c.2) } } else s))

/-- Ports (R250, R401 to R406, R428, R432). -/
def Obligations.PortsAndHostComplete : Prop :=
  Claim.PortsComplete ∧ Claim.RoutesAreOpenPorts ∧ Claim.HostAccessesComplete

/-- MODIFY of a queue pair (R407, R408, R428): each named transition happens from its state and answers OK, and from any other
answers BADSTATE; a number of 2^20 or more answers BADCMD; a pair that drains becomes READY once the last request
posted before has completed (that these are the last taken is the model's choice, log 36). -/
def Claim.QueuePairStatesComplete : Prop :=
  ∀ (s : State) (q blk : Nat),
    let b := s.qpBytes q
    let st := byteAt b 0 % 16
    let live := (s.ctx (numAt b 2 2 % 4096)).st = .ready ∨ (s.ctx (numAt b 2 2 % 4096)).st = .running
    let bad := (.next (s.cmdStatus blk 1) : Out)
    let ok := fun (t : State) => (.next (t.cmdStatus blk 0) : Out)
    (q < 2 ^ 20 →
      (st = 0 → qpReserved b = false → live → exec (.qpModifyInit q blk) s = ok ((s.modQp q fun _ => Qp.empty q).qpSetState q 1)) ∧
      ((st ≠ 0 ∨ qpReserved b = true ∨ ¬ live) → exec (.qpModifyInit q blk) s = bad) ∧
      exec (.qpModifyReady q blk) s = (if st = 1 then ok (s.qpSetState q 2) else bad) ∧
      exec (.qpModifyActive q blk) s = (if st = 2 then ok ((s.modQp q fun x => { x with port := s.qpPort q }).qpSetState q 3) else bad) ∧
      exec (.qpModifyDrain q blk) s = (if st = 3 then ok ((s.modQp q fun x => { x with drainTo := s.qpPosted q }).qpSetState q 4) else bad) ∧
      (st = 5 → exec (.qpModifyReset q blk) s =
        let t := ((s.qpPut q 1 [0]).qpPut q 8 [0, 0, 0]).qpPut q 12 [0, 0, 0]
        let u := { t with qps := t.qps.filter fun x => x.qpn != q, heldPkts := t.heldPkts.filter fun h => h.qpn != q }
        ok (u.qpSetState q 0)) ∧
      (st ≠ 5 → exec (.qpModifyReset q blk) s = bad)) ∧
    (2 ^ 20 ≤ q → ∀ i ∈ [Instr.qpModifyInit q blk, .qpModifyReady q blk, .qpModifyActive q blk, .qpModifyDrain q blk, .qpModifyReset q blk],
      exec i s = .next (s.cmdStatus blk 4)) ∧
    (let t := s.qpComplete q
     byteAt (t.qpBytes q) 0 % 16 = 4 → (t.qp q).reqs = [] → (t.qp q).drainTo ≤ t.qpHead q → (t.qps.any fun x => x.qpn == q) = true →
      exec (.qpDrained q) s = .next (t.qpSetState q 2))

/-- Queue-pair traffic (R409 to R415, R423): a published request of an ACTIVE pair, or of a DRAINING one that it was posted to
before (the model's choice, log 36), is taken after what was ready was done; an
answer to a packet that awaits one is taken and what can be sent is sent, or kept while its local write waits; a sequence NAK and a timeout within RETRY send
again, beyond RETRY the oldest request fails with 3; receiver-not-ready starts a backoff and then sends again, beyond
RNRLIM it fails with 4; a packet whose context is cached and whose turn it is meets the responder, and otherwise waits
in its port's buffer; the fetch of a context lets them through. -/
def Claim.QueuePairTrafficCompletes : Prop :=
  ∀ (s : State) (n : Nat),
    let q := s.qp n
    let b := s.qpBytes n
    (∀ t, (qpState b = 3 ∨ qpState b = 5 ∨ (qpState b = 4 ∧ (s.qpAdvance n).qpHead n < ((s.qpAdvance n).qp n).drainTo)) → (∃ x ∈ (s.qpAdvance n).qps, x.qpn = n) → (s.qpAdvance n).qpTake n (qpState b == 5) = (t, .ok true) →
      exec (.workRequestTake n) s = .next (t.qpAdvance n)) ∧
    (∀ a r, (∃ x ∈ q.unacked, x.p.psn = a.psn) → (q.reqs.find? fun r => r.status.isNone && (r.psn == some a.psn || r.flagPsn == some a.psn)) = some r →
      let t := (s.modQp n fun q => { q with unacked := q.unacked.filter fun x => x.p.psn != a.psn, retries := 0, rnr := 0 }).modQp n
        fun q => { q with acks := q.acks.erase a }
      let u := t.qpAnswer n r a
      (u.2 = true → exec (.ackReceive n a) s = .next (u.1.qpAdvance n)) ∧
      (u.2 = false → exec (.ackReceive n a) s = .next (u.1.modQp n fun q => { q with acks := a :: q.acks })) ∧
      ((a.refused = true ∨ wrOp r.bytes = 1 ∨ wrOp r.bytes = 2) → u.2 = true) ∧
      (∀ l v, a.refused = false → wrOp r.bytes ≠ 1 → wrOp r.bytes ≠ 2 → t.viaLocate (qpDataVia (t.qpBytes n)) 1
        (piecesOf (wrLaddr r.bytes) (if wrOp r.bytes = 3 then a.data.length else 2 ^ wrSize r.bytes)) = (v, .ok l) → u.2 = true)) ∧
    (∀ epsn, exec (.sequenceNak n epsn) s = .next (s.modQp n fun q => { q with
      unacked := modWhere q.unacked (fun x => decide ((x.p.psn - epsn).toNat < 2 ^ 23)) fun (x : SentPacket) => { x with sent := s.time } })) ∧
    (∀ x, q.unacked.head? = some x → q.backoff = Option.none → x.sent + 1000 * qpAckto b ≤ s.time →
      (q.retries < qpRetry b → exec (.ackTimeout n) s = .next ((s.modQp n fun q => { q with retries := q.retries + 1 }).qpResend n fun _ => true)) ∧
      (qpRetry b ≤ q.retries → exec (.ackTimeout n) s = .next (s.qpFailOldest n 3))) ∧
    (q.unacked ≠ [] →
      (q.backoff = Option.none → (qpRnrlim b = 15 ∨ q.rnr < qpRnrlim b) → exec (.receiverNotReady n) s =
        .next (s.modQp n fun q => { q with backoff := some (s.time + 1000 * 2 ^ min q.rnr 10), rnr := q.rnr + 1 })) ∧
      (q.backoff = Option.none → qpRnrlim b ≠ 15 → qpRnrlim b ≤ q.rnr → exec (.receiverNotReady n) s = .next (s.qpFailOldest n 4)) ∧
      (∀ t, q.backoff = some t → t ≤ s.time → exec (.receiverNotReady n) s =
        .next (((s.modQp n fun q => { q with backoff := Option.none }).qpResend n fun _ => true).qpAdvance n))) ∧
    (∀ (port : Nat) (p : Packet), (s.port port).open_ = true → n < 2 ^ 20 → (∀ h ∈ s.heldPkts, ¬ (h.port = port ∧ h.qpn = n)) →
      (s.qpCached (port / 8) n = false → (s.heldPkts.filter fun h => h.port == port).length < 64 →
        exec (.packetReceive port n p) s = .next { s with heldPkts := s.heldPkts ++ [(⟨port, n, p⟩ : HeldPacket)] }) ∧
      (s.qpCached (port / 8) n = false → 64 ≤ (s.heldPkts.filter fun h => h.port == port).length →
        exec (.packetReceive port n p) s = .next (s.qpReply n (.rnr p.psn))) ∧
      (∀ t, s.qpCached (port / 8) n = true → s.packetMeet n p = (t, true) → exec (.packetReceive port n p) s = .next t) ∧
      (∀ t, s.qpCached (port / 8) n = true → s.packetMeet n p = (t, false) → exec (.packetReceive port n p) s = .next
        (if 64 ≤ (t.heldPkts.filter fun h => h.port == port).length then t.qpReply n (.rnr p.psn)
         else { t with heldPkts := t.heldPkts ++ [(⟨port, n, p⟩ : HeldPacket)] }))) ∧
    (∀ die, s.qpCached die n = true → s.heldPkts = [] → Out.ends (exec (.qpContextFetch die n) s) fun t => t.mem = s.mem ∧
      t.qpCached die n = true) ∧
    (∀ die, s.qpCached die n = false → (s.qps.filter fun q => q.cached.contains die).length < 4096 → s.heldPkts = [] →
      exec (.qpContextFetch die n) s = .next (s.modQp n fun q => { q with cached := if q.cached.contains die then q.cached else q.cached ++ [die] }))

/-- The responder (R412, R414): the expected packet of a READY, ACTIVE or DRAINING pair executes, one from the future is
answered with a sequence NAK at EPSN, a duplicate write is acknowledged and a duplicate ATOMIC gets its stored result;
a pair in ERROR refuses. A packet that executes advances EPSN; one that is refused is not executed and leaves it (the model's
reading, log 21). -/
def Claim.ResponderAnswersInSequence : Prop :=
  ∀ (s : State) (n : Nat) (p : Packet),
    let b := s.qpBytes n
    let e := BitVec.ofNat 24 (qpEpsn b)
    (qpState b ∈ [2, 3, 4] →
      (p.psn = e → s.packetMeet n p = s.packetRun n p) ∧
      (p.psn ≠ e → (p.psn - e).toNat < 2 ^ 23 → s.packetMeet n p = (s.qpReply n (.seqNak e), true)) ∧
      (2 ^ 23 ≤ (p.psn - e).toNat → (∀ x ∈ (s.qp n).pending, x.1 ≠ p.psn) →
        (p.op.toNat ≠ 3 → p.op.toNat ≠ 4 → s.packetMeet n p = (s.qpReply n (ackOk p.psn [] 0), true)) ∧
        (∀ x, p.op.toNat = 4 → ((s.qp n).results.find? fun x => x.1 == p.psn) = some x →
          s.packetMeet n p = (s.qpReply n (ackOk p.psn [] x.2), true)))) ∧
    (qpState b = 5 → s.packetMeet n p = (s.qpReply n (ackRefused p.psn), true)) ∧
    (∀ t x y z, s.packetPerform b p = (t, .ok (x, y, z)) →
      let u := t.qpPut n 12 (bytesOfNat 3 ((qpEpsn b + 1) % 2 ^ 24))
      let u := if p.op = 4 then u.modQp n fun q => { q with results := (q.results ++ [(p.psn, y)]).drop (q.results.length - 15) } else u
      (z = [] → s.packetRun n p = (u.qpReply n (ackOk p.psn x y), true)) ∧
        (z ≠ [] → s.packetRun n p = (u.modQp n fun q => { q with pending := q.pending ++ [(p.psn, z)] }, true))) ∧
    (∀ t c l a, s.packetPerform b p = (t, .fault c l a) → s.packetRun n p = (t.qpReply n (ackRefused p.psn), true))

/-- QP.POST (R416) of a wave that has released: 3 for a queue pair of another context, 2 in any state but ACTIVE, 4 for a request
that is not aligned or breaks the table of R410, 1 on a full ring (or a wait with the request that it has read, with M bit 0), and 0
once the request is published. -/
def Claim.QpPostCompletes : Prop :=
  ∀ (s : State) (w : Wave) (f : Fields), s.runs w (.qpPost f) f .dest false = true →
    let v := s.wavesVia w
    let q := s.natB w f
    let a := (s.readS w (.int 64) f.a).toNat
    let b := s.qpBytes q
    let put := fun (t : State) (x : Nat) => (.next (t.modMe fun y => (y.putS f.d (BitVec.ofNat 64 x)).after f) : Out)
    let posts := fun (s1 : State) (r : List Byte) => ∀ s2 d s3 resv, s1.viaLoad v (qpSq (s1.qpBytes q)) 64 = (s2, .ok d) →
      s2.viaPeek v (qpSq (s1.qpBytes q) + 0x10) 8 = (s3, .ok resv) →
      (2 ^ descLog2 d ≤ resv - descHead d → exec (.qpPost f) s = if f.m.getLsbD 0
        then .next (s3.modMe fun y => { y with wait := .push r }) else put s3 1) ∧
      (∀ s4, resv - descHead d < 2 ^ descLog2 d → s3.ringAdd v (qpSq (s1.qpBytes q)) d resv [r] = (s4, .ok ()) →
        exec (.qpPost f) s = put s4 0)
    let first := ∀ r, w.wait ≠ .push r
    (∀ r, w.wait = .push r → posts s r) ∧
    (first → s.released w = false → exec (.qpPost f) s = s.stall) ∧
    (first → s.released w = true → (2 ^ 20 ≤ q ∨ qpTag b ≠ s.tagOf w) → exec (.qpPost f) s = put s 3) ∧
    (first → s.released w = true → q < 2 ^ 20 → qpTag b = s.tagOf w →
      (qpState b ≠ 3 → exec (.qpPost f) s = put s 2) ∧
      (qpState b = 3 → a % 64 ≠ 0 → exec (.qpPost f) s = put s 4) ∧
      (∀ s1 r, qpState b = 3 → a % 64 = 0 → s.viaLoad v a 64 = (s1, .ok r) →
        (wrBad r = true → exec (.qpPost f) s = put s1 4) ∧
        (wrBad r = false → posts s1 r)))

/-- Queue pairs (R407 to R416, R428). -/
def Obligations.QueuePairsComplete : Prop :=
  Claim.QueuePairStatesComplete ∧ Claim.QueuePairTrafficCompletes ∧ Claim.ResponderAnswersInSequence ∧ Claim.QpPostCompletes

/-! ### Collectives, cuts and the frame front -/

/-- Collectives (R417 to R422): COMM_CREATE within its ranges makes the communicator of an index, in place of any other; COLL
takes a descriptor into the communicator's sequence; COLL.WAIT gives 0 or the first status that is not DONE; a collective
whose ranks do not join in time or cannot be reached ends with 3 or 4 at every rank, one with a descriptor that breaks R418 at
any rank with 6, one whose ranks disagree with 2, one whose buffer fails at any rank with 5; any other is performed; its STATUS
follows its writes and their acknowledgement (R248, R249). That a list holds one byte for each rank, at a physical address, is the
model's choice (log 23), and the order of statuses 4, 3, 6, 2, 5 its reading (log 37). -/
def Claim.CollectivesComplete : Prop :=
  ∀ (s : State) (w : Wave) (f : Fields),
    let mine := (s.collsOf w).filter fun c => f.m.getLsbD 0 || decide ((lo32 (s.scalB w (.int 32) false f) - c.number).toNat < 2 ^ 31)
    (∀ tag i list n rank timeout blk t p, i < 64 → 2 ≤ n → n ≤ 256 → rank < n → 1000 ≤ timeout → timeout ≤ 10000000 →
      s.locatePhys 0 (piecesOf list n) = (t, .ok p) →
      let c : Comm := ⟨tag, i, (t.pieceBytes p).map BitVec.toNat, rank, 1000 * timeout, 0⟩
      let l := (t.comms.filter fun (x : Comm) => !(x.tag == tag && x.index == i)) ++ [c]
      exec (.commCreate tag i list n rank timeout blk) s = .next ({ t with comms := l }.cmdStatus blk 0)) ∧
    (∀ tag i list n rank timeout blk, (64 ≤ i ∨ n < 2 ∨ 256 < n ∨ n ≤ rank ∨ timeout < 1000 ∨ 10000000 < timeout) →
      exec (.commCreate tag i list n rank timeout blk) s = .next (s.cmdStatus blk 4)) ∧
    (s.runs w (.coll f) f .dest false = true →
      let addr := s.readS w (.int 64) f.a + (f.ext.extractLsb' 0 32).signExtend 64
      let open_ := ((s.collsOf w).filter fun c => c.status.isNone).length
      (s.releasedAt w 2 = false → exec (.coll f) s = s.stall) ∧
      (s.releasedAt w 2 = true → canonical addr = false → exec (.coll f) s = s.trap 0x20 w.exec (pageInfo addr.toNat 0 0)) ∧
      (s.releasedAt w 2 = true → canonical addr = true → 4 ≤ open_ → exec (.coll f) s = s.stall) ∧
      (∀ t d u, s.releasedAt w 2 = true → canonical addr = true → open_ < 4 → s.viaLoad (s.wavesVia w) addr.toNat 64 = (t, .ok d) →
        t.collAdd w addr.toNat d = (u, .ok ()) →
        exec (.coll f) s = .next (u.modMe fun x =>
          ({ x with nextColl := x.nextColl + 1 }.putS f.d (x.nextColl.setWidth 64)).after f))) ∧
    (s.runs w (.collWait f) f .dest false = true →
      ((∃ c ∈ mine, c.status = Option.none) → exec (.collWait f) s = s.stall) ∧
      ((∀ c ∈ mine, c.status ≠ Option.none) → exec (.collWait f) s = .next (s.setMe
        ((w.putS f.d (BitVec.ofNat 64 (((mine.filterMap fun c => c.status).find? fun x => x != 1).getD 0))).after f)))) ∧
    (∀ id (c : Collect) (m : Comm), s.coll id = some c → s.comm c.tag (collComm c.bytes) = some m →
      (c.outcome = Option.none → c.joined + m.timeout ≤ s.time → exec (.collectiveTimeout id) s = .next (s.collEnd c m.ids.length 3 [])) ∧
      (∀ ranks, c.outcome = Option.none →
        (∀ x ∈ s.colls, x.tag = c.tag → collComm x.bytes = m.index → x.outcome = Option.none → c.seq ≤ x.seq) →
        let ends := fun (st : Nat) => exec (.collectiveRun id ranks) s = .next (s.collEnd c m.ids.length st [])
        let wrong := ∃ r ∈ ranks, r.rank ≠ m.rank ∧ collDescBad m.ids.length r.desc = true
        let apart := ∃ r ∈ ranks, r.rank ≠ m.rank ∧ collAgree c.bytes r.desc = false
        let failed := ∃ r ∈ ranks, r.rank ≠ m.rank ∧ r.fault = true
        let ended := fun (st : Nat) => ∃ r ∈ ranks, r.rank ≠ m.rank ∧ r.ends = some st
        ((s.collCut c m = true ∨ ended 4) → ends 4) ∧
        (s.collCut c m = false → ¬ ended 4 → ended 3 → ends 3) ∧
        (s.collCut c m = false → ¬ ended 4 → ¬ ended 3 → ranksWhole c.bytes m ranks = true →
          (wrong → ends 6) ∧ (¬ wrong → apart → ends 2) ∧ (¬ wrong → ¬ apart → failed → ends 5) ∧
          (¬ wrong → ¬ apart → ¬ failed → ∀ t x p a,
            s.unitLoad (collReader c) (collSrc c.bytes) (collCount c.bytes * collElem c.bytes) = (t, .fault x p a) →
            exec (.collectiveRun id ranks) s = .next (t.collEnd c m.ids.length 5 [])) ∧
          (¬ wrong → ¬ apart → ¬ failed → ∀ t bs u ids,
            s.unitLoad (collReader c) (collSrc c.bytes) (collCount c.bytes * collElem c.bytes) = (t, .ok bs) →
            let src := tabulate m.ids.length fun i => if i = m.rank then elemsOf (collElem c.bytes) bs
              else ((ranks.find? fun r => r.rank == i).map fun r => r.data).getD []
            t.cutStore (collReader c) (collDst c.bytes)
              ((collResult c.bytes m.rank m.ids.length src).flatMap fun x => bytesOfNat (collElem c.bytes) x.toNat) = (u, .ok ids) →
            exec (.collectiveRun id ranks) s = .next (u.modColl id fun x => { x with outcome := some 1, writes := ids }))))) ∧
    (∀ id (c : Collect) st t u a b, s.coll id = some c → c.outcome = some st → c.status = Option.none → s.allAcked c.writes = true →
      s.cutStore (collReader c) (c.addr + 0x28) (bytesOfNat 8 s.time) = (t, .ok a) →
      t.cutStore (collReader c) (c.addr + 0x20) (bytesOfNat 4 st) = (u, .ok b) →
      exec (.collectiveComplete id) s = .next ((b.foldl (fun s i => s.notBefore ((a.map s.ctimeOf).foldl max 0) i) u).modColl id
        fun x => { x with status := some st }))

/-- What a collective gives (R419): for sums of integers every rank of an all-reduce gets the sum of the ranks' elements, a
reduce-scatter its share of it, an all-gather the sources in rank order, and a broadcast the root's source. -/
def Claim.CollectiveResults : Prop :=
  ∀ (d : List Byte) (r n i : Nat) (src : List (List Word64)), i < collCount d → src ≠ [] →
    (collOpc d = 1 → (collResult d r n src).length = collCount d) ∧
    (collOpc d = 1 → collTy d = 0x2 → collRop d = 0 → collMode d = 0 → (∀ x ∈ src, ∀ y ∈ x, y.toNat < 2 ^ 32) →
      ((collResult d r n src).getD i 0).toNat = ((src.map fun x => (x.getD i 0).toNat).foldl (· + ·) 0) % 2 ^ 32) ∧
    (collOpc d = 2 → i < collCount d / n → (collResult d r n src).getD i 0 = collReduce d (src.map fun x => x.getD (r * (collCount d / n) + i) 0)) ∧
    (collOpc d = 3 → collResult d r n src = src.flatten) ∧
    (collOpc d = 4 → collResult d r n src = src.getD (collRoot d) [])

/-- Collectives (R417 to R422). -/
def Obligations.CollectivesEnd : Prop :=
  Claim.CollectivesComplete ∧ Claim.CollectiveResults

/-- Cut jobs (R373 to R378): CUT.GO of a released wave with a canonical, aligned address queues the job where the die's queue
has room and gives 0, 1 where it has none or waits with the block that it has read, 2 where the address is not aligned;
CUT_SUBMIT queues it for a context in use: its die 0, its read in supervisor state, BADSTATE, BADCMD and its wait in the order of
arrival are the model's reading (log 24). A free engine computes the job that came first, with the code that R375 gives, makes its
writes and its counts, and once these have completed writes TDONE and STATUS, and then decrements JOIN. A job of which a read or a
write does not translate, its counts among them, has code 6. -/
def Claim.CutJobsComplete : Prop :=
  ∀ (s : State) (w : Wave) (f : Fields),
    let addr := s.readS w (.int 64) f.a + (lo32 (s.scalB w (.int 32) true f)).signExtend 64
    let put := fun (t : State) (x : Word64) => (.next (t.modMe fun y => (y.putS f.d x).after f) : Out)
    let add := fun (t : State) (die tag addr : Nat) (sup : Bool) (b : List Byte) =>
      { t with jobs := t.jobs ++ [(⟨die, tag, addr, sup, b, false, 0, [], false, Option.none, t.uid⟩ : CutJob)], uid := t.uid + 1 }
    (s.runs w (.cutGo f) f .dest false = true →
      let enters := fun (t : State) (b : List Byte) =>
        (t.queuedJobs w.die < 16 → exec (.cutGo f) s = put (add t w.die (t.tagOf w) addr.toNat w.sup b) 0) ∧
        (16 ≤ t.queuedJobs w.die → exec (.cutGo f) s = if f.m.getLsbD 0
          then .next (t.modMe fun y => { y with wait := .push b }) else put t 1)
      let first := ∀ b, w.wait ≠ .push b
      (∀ b, w.wait = .push b → enters s b) ∧
      (first → s.released w = false → exec (.cutGo f) s = s.stall) ∧
      (first → s.released w = true →
        (canonical addr = false → exec (.cutGo f) s = s.trap 0x20 w.exec (pageInfo addr.toNat 0 0)) ∧
        (canonical addr = true → addr.toNat % 128 ≠ 0 → exec (.cutGo f) s = put s 2) ∧
        (∀ t b, canonical addr = true → addr.toNat % 128 = 0 → s.viaLoad (s.wavesVia w) addr.toNat 128 = (t, .ok b) → enters t b))) ∧
    (∀ tag (a : Word64) blk,
      let st := (s.ctx tag).st
      let c : CutWait := ⟨0, tag, a, blk, Option.none⟩
      let s1 := { s with cutWaits := s.cutWaits ++ [c] }
      let look := s1.viaLoad ⟨unitCut 0, tag, 0, true, .engine, Option.none⟩ a.toNat 128
      ((st = .ready ∨ st = .running ∨ st = .preempted) → a.toNat % 128 = 0 →
        (∀ t b, look = (t, .ok b) →
          let d := { c with bytes := some b }
          let v := { t with cutWaits := modWhere t.cutWaits (· == c) fun _ => d }
          (t.queuedJobs 0 < 16 → exec (.cutSubmit tag a blk) s =
            .next ((add { v with cutWaits := v.cutWaits.erase d } 0 tag a.toNat true b).cmdStatus blk 0)) ∧
          (16 ≤ t.queuedJobs 0 → exec (.cutSubmit tag a blk) s = .next v)) ∧
        (∀ t x p y, look = (t, .fault x p y) → exec (.cutSubmit tag a blk) s =
          .next ({ t with cutWaits := t.cutWaits.erase c }.cmdStatus blk 5)) ∧
        (∀ t, look = (t, .wait) → exec (.cutSubmit tag a blk) s = .next (s1.waited t))) ∧
      ((st = .ready ∨ st = .running ∨ st = .preempted) → a.toNat % 128 ≠ 0 → exec (.cutSubmit tag a blk) s = .next (s.cmdStatus blk 4)) ∧
      (¬ (st = .ready ∨ st = .running ∨ st = .preempted) → exec (.cutSubmit tag a blk) s =
        .next ({ s1 with cutWaits := s1.cutWaits.erase c }.cmdStatus blk 1))) ∧
    (∀ (rd : Reader) (a : Nat) (b : List Byte), (zeroAt b 0x60 32 = false → s.cutCompute rd a b = (s, .ok (cutFail 5 a))) ∧
      (∀ t vb, zeroAt b 0x60 32 = true → s.unitLoad rd (numAt b 8 8) 32 = (t, .ok vb) →
        (viewOf vb (BitVec.ofNat 64 (numAt b 0x38 4)) = Option.none → s.cutCompute rd a b = (t, .ok (cutFail 5 (numAt b 8 8)))) ∧
        (∀ v u gb, viewOf vb (BitVec.ofNat 64 (numAt b 0x38 4)) = some v → t.unitLoad rd (numAt b 0 8) 64 = (u, .ok gb) →
          graphOf gb = Option.none → s.cutCompute rd a b = (u, .ok (cutFail 4 (numAt b 0 8)))))) ∧
    (∀ (b : List Byte) (v : View) (sets : List MergeSet) (cs : List Cluster),
      let sel := selectOf (refAll v sets) cs
      let code := (cutResult b v sets cs).code
      ((∃ c ∈ sel, sphereBad c.sphere = true) → code = 4) ∧
      ((∀ c ∈ sel, sphereBad c.sphere = false) →
        (numAt b 0x18 4 < sel.length → code = 2) ∧
        (sel.length ≤ numAt b 0x18 4 → code = if numAt b 0x1C 4 < (buildNodes sel).length then 3 else 1))) ∧
    (∀ die j, (s.jobs.find? fun j => j.die == die && !j.ran) = some j →
      (s.jobs.filter fun j => j.die == die && j.ran && !j.posted).length < 2 →
      let rd := State.jobReader j
      (∀ t u a b c, s.cutCompute rd j.addr j.bytes = (t, .fault a b c) → t.cutFinish j (cutFail 6 c) ⟨0, 0, []⟩ = (u, .ok ()) →
        exec (.cutJobRun die) s = .next u) ∧
      (∀ t o u r v a b c, s.cutCompute rd j.addr j.bytes = (t, .ok o) → t.cutEffects rd j.bytes o = (u, r, .fault a b c) →
        u.cutFinish j (cutFail 6 c) r = (v, .ok ()) → exec (.cutJobRun die) s = .next v)) ∧
    (∀ (j : CutJob) o r v p, s.cutSpoil (State.jobReader j) j.bytes o.code = (v, .ok p) →
      (o.code = 1 → v = s ∧ p = []) ∧
      (∀ x c, v.cutCounts (State.jobReader j) j.addr o r = (x, .ok c) →
        s.cutFinish j o r = (x.jobRan j o.code (r.writes ++ p ++ c) Option.none, .ok ())) ∧
      (∀ x a b c y q, v.cutCounts (State.jobReader j) j.addr o r = (x, .fault a b c) →
        x.cutSpoil (State.jobReader j) j.bytes 6 = (y, .ok q) →
        s.cutFinish j o r = (y.jobRan j 6 (r.writes ++ p ++ q) (some (r.posted, r.drops)), .ok ()))) ∧
    (∀ die j t o u r, (s.jobs.find? fun j => j.die == die && !j.ran) = some j →
      (s.jobs.filter fun j => j.die == die && j.ran && !j.posted).length < 2 →
      s.cutCompute (State.jobReader j) j.addr j.bytes = (t, .ok o) → t.cutEffects (State.jobReader j) j.bytes o = (u, r, .ok ()) →
      let gone := fun (v : State) (c : List Nat) => (.next { v with jobs := v.jobs.map fun x =>
        if x.id = j.id then { x with ran := true, code := o.code, writes := r.writes ++ c, owed := Option.none } else x } : Out)
      (∀ v, u.cutFinish j o r = (v, .ok ()) → exec (.cutJobRun die) s = .next v) ∧
      (∀ v c, o.code = 1 → u.cutCounts (State.jobReader j) j.addr o r = (v, .ok c) → exec (.cutJobRun die) s = gone v c) ∧
      (∀ v p x c, o.code = 3 → u.cutUndefined (State.jobReader j) (numAt j.bytes 0x20 8) (128 * jobNodemax j.bytes) = (v, .ok p) →
        v.cutCounts (State.jobReader j) j.addr o r = (x, .ok c) → exec (.cutJobRun die) s = gone x (p ++ c))) ∧
    (∀ die j, (s.jobs.find? fun j => j.die == die && j.ran && s.allDone j.writes) = some j →
      (∀ t u a b, j.posted = false → j.owed = Option.none → s.cutStore (State.jobReader j) (j.addr + 0x50) (bytesOfNat 8 s.time) = (t, .ok a) →
        t.cutStore (State.jobReader j) (j.addr + 0x3C) (bytesOfNat 4 j.code) = (u, .ok b) →
        let v := b.foldl (fun s i => s.notBefore ((a.map s.ctimeOf).foldl max 0) i) u
        let l := v.jobs.map fun x => if x.id = j.id then { x with posted := true, writes := a ++ b } else x
        exec (.cutJobStatus die) s = .next { v with jobs := l }) ∧
      (∀ t, j.posted = true → s.joinDec j.tag (jobJoin j.bytes) = (t, true) →
        exec (.cutJobStatus die) s = .next { t with jobs := t.jobs.filter fun x => x.id != j.id }))

/-- A cluster is selected exactly when its group's set may be refined and its producer, if it has one, may not, and every ref is
computed before (R370); a set's ref is its own test, its residency, and the refs of every set that its outputs list. -/
def Obligations.CutSelectsTheFrontier : Prop :=
  ∀ (v : View) (sets : List MergeSet) (cs : List Cluster) (c : Cluster),
    let refs := refAll v sets
    let ref := fun (g : Nat) => refs.getD g false = true
    (c ∈ selectOf refs cs ↔ c ∈ cs ∧ ref c.group ∧ (c.prod = 0xFFFFFFFF ∨ ¬ ref c.prod)) ∧
    (∀ g m, sets[g]? = some m → (∀ o ∈ m.outs, o < g) →
      (ref g ↔ setTest v m = true ∧ m.res = true ∧ ∀ o ∈ m.outs, ref o))

/-- The frame front (R395 to R399): a RAYGEN record handed to it runs on its block; once the run's writes have completed it
writes RCOUNT, TDONE and STATUS, and once these have completed its grid is expanded, or the record has none. That die 0's front reads
the block and reports, STATUS 4 with RCOUNT and TDONE where the block does not translate, and that a block that R395 refuses takes
STATUS alone, are log 35. -/
def Claim.FrameFrontCompletes : Prop :=
  ∀ (s : State) (rec : Nat) (r : Rec), s.recOf rec = some r →
    let rd := frontReader 0 r.tag
    let frame := recFrame r.bytes
    (r.stage = .raygen →
      (∀ t b, s.unitLoad rd frame 256 = (t, .ok b) → exec (.raygenRun rec) s = .next (s.frontRun t rec r.tag frame rd b)) ∧
      (∀ t c p a, s.unitLoad rd frame 256 = (t, .fault c p a) →
        exec (.raygenRun rec) s = .next (t.frontRan rec Option.none 4 ⟨0, false, []⟩))) ∧
    (∀ status count writes h, r.stage = .raygenRan status count writes h → s.allDone writes = true →
      (status = 0 → exec (.raygenComplete rec) s = .next (s.modRec rec fun x => match x.kernel with
        | some k => if count = 0 then { x with stage := .expanded } else
          { x with stage := .expanding 0, grid := ceilDiv count (96 * k.waves) }
        | Option.none => { x with stage := .expanded })) ∧
      (∀ t ids, status ≠ 0 → s.frontStatus rd frame status count = (t, .ok ids) → exec (.raygenComplete rec) s =
        .next (t.modRec rec fun x => { x with stage := .raygenRan 0 (if status ≤ 2 then count else 0) ids 0 })))

/-- Cut jobs and the frame front (R373 to R378, R395 to R399). -/
def Obligations.CutJobsAndFrameFrontComplete : Prop :=
  Claim.CutJobsComplete ∧ Claim.FrameFrontCompletes

/-! ### Harts, boot and power -/

/-- Hart accesses and registers that complete (R243, R250, R424 to R427), for a hart that executes: a load of 1, 2, 4 or 8 bytes
gives its bytes extended, a store stores them, an AMO gives the old value after the hart's own writes have reached home, each
with the pc past its instruction; a page fault takes the exception of its cause; FENCE and a write of NKCMD or NKWAKE wait until
the hart has released; SFENCE.VMA drops only its own translations; the custom CSRs hold what was written in their fields and
are illegal in U-mode and VS-mode; MODE 14 with a set ASID[15:12] is not taken; register x0 stays zero; what is fetched runs as
the standard instruction that it is. What R424 does not restate of the standard is presumed (log 25): that an interrupt comes
first, the access fault where no memory stands, the free value of a poisoned sector, and every word, for which LUI, ADDI, BEQ,
C.MV, ECALL and MRET stand, with no word without an effect. -/
def Claim.KindlingInstructionsComplete : Prop :=
  ∀ (o : State) (h : Nat), h < 32 → (o.hart h).hold ≤ o.time →
    ((o.hart h).wfi = false ∨ (o.hart h).pending o.time &&& (o.hart h).csr 0x304 ≠ 0) →
    let s := o.modHart h fun y => { y with wfi := false, ilen := 4 }
    let x := s.hart h
    let run := fun (op : HartOp) => exec (.kindlingInstruction h op) o
    let done := fun (t : State) (k : Hart → Hart) => (.next (t.modHart h fun y => { k y with pc := (k y).pc + BitVec.ofNat 64 (k y).ilen }) : Out)
    let quiet := x.watch = [] ∧ x.horizon ≤ s.time
    let faults := fun (t : State) (cause a : Nat) => (.next (t.modHart h fun y => y.enter false cause ⟨BitVec.ofNat 64 a, 0, x.who.2⟩) : Out)
    let guestFaults := fun (t : State) (cause a g : Nat) => (.next (t.modHart h fun y => y.enter false cause ⟨BitVec.ofNat 64 a, g, true⟩) : Out)
    let ext := fun (signed : Bool) (n v : Nat) => if signed then (BitVec.ofNat (8 * n) v).signExtend 64 else BitVec.ofNat 64 (v % 2 ^ (8 * n))
    (∀ rd va k signed t, k < 4 →
      (∀ l, s.hartLocate h x.who 0 va.toNat (2 ^ k) = (t, .ok l) →
        let u := l.foldl (fun s p => s.unitLease p.1 p.2.2) t
        let v := natOfBytes (l.flatMap fun p => tabulate p.2.1 fun i => u.hartByte h (p.1 + i))
        run (.load rd va k signed) = done u fun y => y.setReg rd (ext signed (2 ^ k) v)) ∧
      (∀ a, s.hartLocate h x.who 0 va.toNat (2 ^ k) = (t, .page a) → run (.load rd va k signed) = faults t 13 a) ∧
      (∀ a g, s.hartLocate h x.who 0 va.toNat (2 ^ k) = (t, .guest a g) → run (.load rd va k signed) = guestFaults t 21 a g) ∧
      (s.hartLocate h x.who 0 va.toNat (2 ^ k) = (t, .absent) → run (.load rd va k signed) = faults t 5 va.toNat) ∧
      (∀ tag, s.hartLocate h x.who 0 va.toNat (2 ^ k) = (t, .bad (some tag)) →
        let (v, u) := (t.faultLater tag).free
        run (.load rd va k signed) = done u fun y => y.setReg rd (ext signed (2 ^ k) v.toNat))) ∧
    (∀ rs va k t, k < 4 →
      (∀ l, s.hartLocate h x.who 1 va.toNat (2 ^ k) = (t, .ok l) → run (.store rs va k) =
        done (t.storePieces (.hart h) (t.hartTag h x.who) Option.none false l (bytesOfNat (2 ^ k) (x.reg rs).toNat)).2 id) ∧
      (∀ a, s.hartLocate h x.who 1 va.toNat (2 ^ k) = (t, .page a) → run (.store rs va k) = faults t 15 a) ∧
      (∀ a g, s.hartLocate h x.who 1 va.toNat (2 ^ k) = (t, .guest a g) → run (.store rs va k) = guestFaults t 23 a g) ∧
      (s.hartLocate h x.who 1 va.toNat (2 ^ k) = (t, .absent) → run (.store rs va k) = faults t 7 va.toNat)) ∧
    (∀ op rd rs (va : Word64) wide t,
      let n := if wide then 8 else 4
      let found := s.hartLocate h x.who 3 va.toNat n
      let amo := run (.amo op rd rs va wide)
      (va.toNat % n ≠ 0 → amo = .next (s.modHart h fun y => y.raised 6 va)) ∧
      (va.toNat % n = 0 →
        (∀ pa m e l, found = (t, .ok ((pa, m, e) :: l)) →
          let u := t.hartFlush h
          let v := u.modHart h fun y => { y with hold := max y.hold (u.completesAt h pa n) }
          let old := natOfBytes (v.latestBytes pa n)
          (u.hartFlushed h = false → amo = .next u) ∧
          (u.hartFlushed h = true → amo =
            done (v.putHome (.hart h) (v.hartTag h (v.hart h).who) Option.none pa e (bytesOfNat n (amoNew op n old ((v.hart h).reg rs).toNat))).2
              fun y => y.setReg rd ((BitVec.ofNat (8 * n) old).signExtend 64))) ∧
        (∀ a, found = (t, .page a) → amo = faults t 15 a) ∧ (found = (t, .absent) → amo = faults t 7 va.toNat))) ∧
    (∀ b, (b = false ∨ quiet) → run (.fence b) = done s id) ∧
    (¬ quiet → run (.fence true) = .next s) ∧
    (x.priv = .m → x.virt = false → ∀ rd, run (.readTime rd) = done s (fun y => y.setReg rd (BitVec.ofNat 64 s.time)) ∧
      run (.readHartid rd) = done s fun y => y.setReg rd (BitVec.ofNat 64 h)) ∧
    (x.virt = false → x.priv ≠ .u →
      (∀ rs, run (.csrWrite .nkctxtab rs) = done { s with nkctxtab := x.reg rs &&& ~~~0x7FFFF } id) ∧
      (∀ rs, run (.csrWrite .nkqpbase rs) = done { s with nkqpbase := x.reg rs &&& ~~~0xFFF } id) ∧
      (∀ rs, run (.csrWrite .nkevt rs) = done { s with nkevt := s.nkevt.set (h / 16) (x.reg rs) } id) ∧
      (∀ rs, run (.csrWrite .nkevthart rs) = done { s with nkevthart := s.nkevthart.set (h / 16) ((x.reg rs).toNat % 32) } id) ∧
      (∀ c ∈ [NkCsr.nkcmd, .nkwake], ∀ rs, ¬ quiet → run (.csrWrite c rs) = .next s) ∧
      (∀ rs t, quiet → exec (.nkwake (x.reg rs)) s = .next t → run (.csrWrite .nkwake rs) = done t id) ∧
      (∀ rs t u, quiet → s.nkcmd h (x.reg rs) = (u, some (.next t)) → run (.csrWrite .nkcmd rs) = done t id) ∧
      (∀ rs u, quiet → s.nkcmd h (x.reg rs) = (u, Option.none) → run (.csrWrite .nkcmd rs) = .next u) ∧
      (∀ rd, run (.csrRead .nkctxtab rd) = done s fun y => y.setReg rd s.nkctxtab) ∧
      (∀ rd, run (.csrRead .nkqpbase rd) = done s fun y => y.setReg rd s.nkqpbase) ∧
      (∀ rd, run (.csrRead .nkevt rd) = done s fun y => y.setReg rd (s.nkevt.getD (h / 16) 0)) ∧
      (∀ rd, run (.csrRead .nkevthart rd) = done s fun y => y.setReg rd (BitVec.ofNat 64 (s.nkevthart.getD (h / 16) 0))) ∧
      (∀ rd, ∀ c ∈ [NkCsr.nkcmd, .nkwake], run (.csrRead c rd) = done s fun y => y.setReg rd 0)) ∧
    (x.priv = .u ∨ (x.priv = .s ∧ x.virt = true) → ∀ c r,
      run (.csrWrite c r) = .next (s.modHart h fun y => y.raised 2 (BitVec.ofNat 64 (csrWord (nkNum c) 1 r.toNat 0))) ∧
      run (.csrRead c r) = .next (s.modHart h fun y => y.raised 2 (BitVec.ofNat 64 (csrWord (nkNum c) 2 0 r.toNat)))) ∧
    (x.virt = false → (x.priv = .m ∨ (x.priv = .s ∧ x.bit 0x300 20 = false)) →
      (∀ rs, run (.writeSatp rs) = done s fun y =>
        if (x.reg rs).toNat / 2 ^ 60 ∈ [0, 8, 9, 10] ∨ ((x.reg rs).toNat / 2 ^ 60 = 14 ∧ (x.reg rs).toNat / 2 ^ 56 % 16 = 0)
        then y.setCsr 0x180 (x.reg rs) else y) ∧
      (∀ va asid, Out.ends (run (.sfenceVma va asid)) fun t => (∀ e ∈ t.tlb, e ∈ s.tlb) ∧ (∀ e ∈ s.tlb, e.unit ≠ unitHart h → e ∈ t.tlb) ∧
        (∀ e ∈ t.walks, e ∈ s.walks) ∧ (∀ e ∈ s.walks, e.unit ≠ unitHart h → e ∈ t.walks) ∧
        (va = Option.none → asid = Option.none → (∀ e ∈ t.tlb, e.unit ≠ unitHart h) ∧ ∀ e ∈ t.walks, e.unit ≠ unitHart h))) ∧
    (∀ v, ((x.setReg 0 v).reg 0) = 0) ∧
    (∀ c, x.takes s.time = some c → run .run = .next (s.modHart h fun y => y.enter true c ⟨0, 0, false⟩)) ∧
    (∀ t, x.takes s.time = Option.none →
      let found := s.hartLocate h (x.priv, x.virt) 2 x.pc.toNat 2
      (∀ l lo u, found = (t, .ok l) → t.hartBytes h l = (lo, u) →
        (lo % 4 ≠ 3 → run .run = u.hartInsn h lo) ∧
        (∀ v l' hi w, lo % 4 = 3 → u.hartLocate h ((u.hart h).priv, (u.hart h).virt) 2 (x.pc + 2).toNat 2 = (v, .ok l') →
          v.hartBytes h l' = (hi, w) → run .run = w.hartInsn h (lo + 65536 * hi))) ∧
      (∀ a, found = (t, .page a) → run .run = .next (t.modHart h fun y => y.enter false 12 ⟨BitVec.ofNat 64 a, 0, x.virt⟩)) ∧
      (found = (t, .absent) → run .run = .next (t.modHart h fun y => y.enter false 1 ⟨x.pc, 0, x.virt⟩))) ∧
    (∀ (rd a b : BitVec 5) (i : BitVec 12) (u : BitVec 20),
      run (.standard (u ++ rd ++ (0x37 : BitVec 7))) = done s (fun y => y.setReg rd ((u ++ (0 : BitVec 12)).signExtend 64)) ∧
      run (.standard (i ++ a ++ (0 : BitVec 3) ++ rd ++ (0x13 : BitVec 7))) = done s (fun y => y.setReg rd (x.reg a + i.signExtend 64)) ∧
      run (.standard ((0 : BitVec 7) ++ b ++ a ++ (0 : BitVec 3) ++ (8 : BitVec 5) ++ (0x63 : BitVec 7))) =
        .next (s.modHart h fun y => { y with pc := y.pc + if x.reg a = x.reg b then 8 else BitVec.ofNat 64 y.ilen }) ∧
      (rd ≠ 0 → b ≠ 0 → run (.standard ((0 : BitVec 16) ++ (8 : BitVec 4) ++ rd ++ b ++ (2 : BitVec 2))) =
        .next (s.modHart h fun y => { y.setReg rd (x.reg b) with pc := y.pc + 2, ilen := 2 }))) ∧
    (∀ w : Word, w.toNat % 4 = 3 → w.toNat % 128 ≠ 0x73 → ∃ t, run (.standard w) = .next t) ∧
    (x.priv = .m → run (.standard 0x00000073) = .next (s.modHart h fun y => y.raised 11 0) ∧
      run (.standard 0x30200073) = .next (s.modHart h Hart.mret)) ∧
    (x.priv = .m → ∀ (y : Hart) c v, y = x.raised c v → y.priv = .m ∧ y.csr 0x341 = x.pc ∧ y.csr 0x342 = BitVec.ofNat 64 c ∧ y.csr 0x343 = v ∧
      y.pc = x.csr 0x305 &&& ~~~3)

/-- Firmware commands that write tables (R315, R428): RETIRE_READ gives 256 entries, its unused ones zeros (log 26), and HBM_MAP
the bytes homed at each of the 64 slices, at a physical address, and both answer OK; an address where there is no memory answers
FAULT. -/
def Claim.TableCommandsComplete : Prop :=
  ∀ (s : State) (dest blk : Nat) (t : State),
    (∀ l, s.locatePhys 1 (piecesOf dest 2048) = (t, .ok l) →
      exec (.retireRead dest blk) s = .next ((t.storePieces .engine Option.none Option.none true l
        ((List.range 256).flatMap fun i => bytesOfNat 8 (s.retired.getD i 0))).2.cmdStatus blk 0)) ∧
    (∀ l, s.locatePhys 1 (piecesOf dest 512) = (t, .ok l) →
      exec (.hbmMap dest blk) s = .next ((t.storePieces .engine Option.none Option.none true l
        ((List.range 64).flatMap fun i => bytesOfNat 8 (Config.hbmHomed i).toNat)).2.cmdStatus blk 0)) ∧
    (s.locatePhys 1 (piecesOf dest 2048) = (t, .absent) → exec (.retireRead dest blk) s = .next (t.cmdStatus blk stFault)) ∧
    (s.locatePhys 1 (piecesOf dest 512) = (t, .absent) → exec (.hbmMap dest blk) s = .next (t.cmdStatus blk stFault))

/-- Kindling harts (R243, R250, R315, R424 to R428). -/
def Obligations.KindlingComplete : Prop :=
  Claim.KindlingInstructionsComplete ∧ Claim.TableCommandsComplete

/-- Measurement register r becomes SHAKE256 of its contents followed by x, and no other register changes; firmware extends
registers 3 to 7 only (R431; that its contents come first is the model's reading, log 12). -/
def Claim.MeasurementExtends : Prop :=
  ∀ (s : State) (r : Nat) (x : List Byte), s.boot.meas.length = 8 →
    (3 ≤ r → r ≤ 7 → Out.ends (exec (.measurementExtend r x) s) fun t =>
      t.boot.meas.getD r [] = shake256 (s.boot.meas.getD r [] ++ x) ∧ (∀ i, i ≠ r → t.boot.meas.getD i [] = s.boot.meas.getD i []) ∧
      { t with boot := s.boot } = s) ∧
    ((r < 3 ∨ 7 < r) → exec (.measurementExtend r x) s = .next s)

/-- Reset and boot (R401, R430, R432, R433): where the HBM trains and an image passes every check, hart 0 starts at its entry in
M-mode with registers 0 to 2 extended and the other registers of the hart as reset leaves them; otherwise the device is in
recovery mode, in which alone an image is written to flash, unless port 0 is in D3hot (R451), and its ports in PCIe mode;
MEASUREMENTS answers register n at index n + 1, in the versions 1.2 and 1.3, under the PCI-SIG registry with the Kolez vendor
identifier; a firmware update writes flash. Where the image lies in memory (imageBase), which ports its firmware sets to CXL
(hostCxl), whether the HBM trains, that recovery comes by port 0, and that a transport of a port in CXL mode gives no answer are
the model's (log 12). -/
def Claim.BootCompletes : Prop :=
  ∀ (s : State),
    let b := s.boot
    let src := if b.strapHost && s.hosts.any fun h => h.mode == .pcie then b.buffer else b.flash
    let ok := Config.hbmTrains s.serial && bootPasses b src
    let zero := List.replicate 64 0
    Out.ends (exec .reset s) (fun t => t.boot.recovery = !ok ∧ t.waves = [] ∧ t.ctxs = [] ∧ t.writes = [] ∧ t.tlb = [] ∧ t.retired = [] ∧
      t.mem = (if ok then cellsSet [] (cellsAt (Config.imageBase % hbmEnd) (imageOf src)) else []) ∧
      (∃ x, t.harts[0]? = some x ∧ x.priv = .m ∧ x.wfi = false ∧
        x.pc = if ok then BitVec.ofNat 64 (Config.imageBase % hbmEnd + numAt src 0x10 8) else 0) ∧
      (∀ (h : Nat) (x : Hart), 1 ≤ h → t.harts[h]? = some x → x.wfi = true) ∧
      (∀ (p : Nat) (k : HostPort), t.hosts[p]? = some k → k.mode = if ok && Config.hostCxl (imageOf src) p then .cxl else .pcie) ∧
      (∀ i, i < 8 → t.boot.meas.getD i [] = if ok = true ∧ i < 3
        then shake256 (zero ++ [b.romHash, b.keyHash, shake256 (imageOf src)].getD i []) else zero) ∧
      t.boot.flash = b.flash ∧ t.boot.secver = b.secver ∧ t.boot.keyHash = b.keyHash) ∧
    (∀ img, ((b.recovery = false ∨ ∃ k, s.hosts[0]? = some k ∧ k.d3hot = true) → exec (.recoveryImageWrite img) s = .next s) ∧
      (b.recovery = true → (∀ k, s.hosts[0]? = some k → k.d3hot = false) →
        exec (.recoveryImageWrite img) s = .next { s with boot := { b with flash := img } })) ∧
    (∀ via, (via = .i2c ∨ ∃ p k, via = .vdm p ∧ s.hosts[p]? = some k ∧ k.mode = .pcie) →
      (∀ img, exec (.pldmFirmwareUpdate ⟨via, img⟩) s = .next { s with boot := { b with flash := img } }) ∧
      ∀ v ∈ [0x12, 0x13], ∀ n < 8, exec (.spdmGetMeasurements ⟨via, v, n + 1⟩) s = .next { s with boot := { b with
        answer := some ⟨v, .pciSig, .kolez, [], [.falcon1024], [.shake256], Config.identityKey (shake256 b.uds), b.meas.getD n []⟩ } }) ∧
    (∀ p k, s.hosts[p]? = some k → k.mode = .cxl →
      (∀ img, exec (.pldmFirmwareUpdate ⟨.vdm p, img⟩) s = .next s) ∧ ∀ v n, exec (.spdmGetMeasurements ⟨.vdm p, v, n⟩) s = .next s) ∧
    (∀ src, numAt src 0 8 ≠ 0x4B5A373420494D47 → bootPasses b src = false) ∧
    (∀ src, numAt src 0xC 4 < b.secver → bootPasses b src = false) ∧
    (∀ src, shake256 ((src.drop 0x18).take 1793) ≠ b.keyHash → bootPasses b src = false) ∧
    (∀ src, falconValid ((src.drop 0x18).take 1793) ((src.drop 0x719).take 1280) (shake256 (imageOf src)) = false → bootPasses b src = false)

/-- Power events (R447 to R451): a droop stretches its rick's clock until the supply has recovered for 64 of its clocks; the clock
steps by 25 MHz between 600 and 1,500 MHz, at most once in 100 us, down while a limit is exceeded and up once all have held with
their margin for 10 ms; a limit within its range is taken and any other refused; limits and sensors are read; telemetry is sampled
with the current clock, 1 ms after the last sample; THERMTRIP stops a device with a sensor above 110 degrees; standby changes a
port's own state; power removal leaves flash, fuses and straps only. None but the last changes a value that a program sees. The highest
clock of 1,500 MHz and averages over the samples held are log 49, the closed transports log 12, and what power removal keeps log 2. -/
def Claim.PowerEventsComplete : Prop :=
  ∀ (s : State),
    let p := s.power
    let free := ∀ t, p.lastStep = some t → t + 100000 ≤ s.time
    let others := fun (r : Nat) => p.droop.filter fun d => d.rick != r
    (∀ r, exec (.droopDetect r) s = .next { s with power := { p with droop := others r ++ [⟨r, Option.none⟩] } }) ∧
    (∀ r, (∀ d ∈ p.droop, d.rick ≠ r) → exec (.droopRecover r) s = .next s) ∧
    (∀ r d, (p.droop.find? fun d => d.rick == r) = some d →
      (d.since = Option.none →
        exec (.droopRecover r) s = .next { s with power := { p with droop := others r ++ [⟨r, some (s.rickClk r)⟩] } }) ∧
      (∀ n, d.since = some n → (s.rickClk r < n + 64000 → exec (.droopRecover r) s = .next s) ∧
        (n + 64000 ≤ s.rickClk r → exec (.droopRecover r) s = .next { s with power := { p with droop := others r } }))) ∧
    (p.exceeded s.time = true → free → 625 ≤ p.clockMHz → p.clockMHz ≤ 1525 → exec .clockStepDown s =
      .next { s with power := { p with clockMHz := p.clockMHz - 25, lastStep := some s.time } }) ∧
    (∀ since, p.heldSince = some since → since + 10000000 ≤ s.time → p.within s.time = true → free → 575 ≤ p.clockMHz →
      p.clockMHz ≤ 1475 → exec .clockStepUp s =
      .next { s with power := { p with clockMHz := p.clockMHz + 25, lastStep := some s.time } }) ∧
    ((¬ free ∨ p.exceeded s.time = false) → exec .clockStepDown s = .next s) ∧
    ((¬ free ∨ p.within s.time = false ∨ ∀ t, p.heldSince = some t → s.time < t + 10000000) → exec .clockStepUp s = .next s) ∧
    (p.tstep < hottest p.telemetry → p.exceeded s.time = true) ∧
    (∀ x, p.samples = [(s.time, x)] → (p.psust < x.power ∨ p.ppeak < x.power) → p.exceeded s.time = true) ∧
    (∀ via, s.mgmtOpen via = true →
      let say := fun (x : PldmItem) (v : Nat) (y : Option Nat) => exec (.pldmSetLimit ⟨via, x⟩ v) s = .next { s with power := { p with answer := y } }
      let sets := fun (x : PowerLimit) (v lo hi : Nat) (q : Power) => ((lo ≤ v ∧ v ≤ hi ∧ q ≠ p →
          exec (.pldmSetLimit ⟨via, .set x⟩ v) s = .next { s with power := { q with
            heldSince := if q.within s.time then some (p.heldSince.getD s.time) else Option.none } }) ∧
        ((v < lo ∨ hi < v ∨ q = p) → exec (.pldmSetLimit ⟨via, .set x⟩ v) s = .next s))
      ∀ v, sets .psust v 600 1900 { p with psust := v } ∧ sets .ppeak v p.psust 2100 { p with ppeak := v } ∧
        sets .tstep v 70 95 { p with tstep := v } ∧ exec (.pldmSetLimit ⟨via, .set .ttrip⟩ v) s = .next s ∧
        say (.get .psust) v (some p.psust) ∧ say (.get .ppeak) v (some p.ppeak) ∧ say (.get .tstep) v (some p.tstep) ∧
        say (.get .ttrip) v (some 110) ∧ say .power v (some p.telemetry.power) ∧ say .clock v (some p.telemetryClock) ∧
        ∀ n, say (.rail n) v (p.telemetry.rails[n]?) ∧ say (.temp n) v (p.telemetry.temps[n]?)) ∧
    (∀ via l v, s.mgmtOpen via = false → exec (.pldmSetLimit ⟨via, l⟩ v) s = .next s) ∧
    (∀ x, ((p.samples = [] ∨ p.telemetryAt + 1000000 ≤ s.time) → Out.ends (exec (.telemetryRefresh x) s) fun t => { t with power := p } = s ∧
        t.power.sensors = some x ∧ t.power.telemetry = x ∧
        t.power.telemetryClock = p.clockMHz ∧ t.power.telemetryAt = s.time ∧ t.power.samples.head? = some (s.time, x) ∧
        { t.power with sensors := p.sensors, telemetry := p.telemetry, telemetryClock := p.telemetryClock, telemetryAt := p.telemetryAt,
                       samples := p.samples, heldSince := p.heldSince } = p) ∧
      (p.samples ≠ [] → s.time < p.telemetryAt + 1000000 →
        exec (.telemetryRefresh x) s = .next { s with power := { p with sensors := some x } })) ∧
    ((∃ x ∈ p.telemetry.temps, 110 < x) → exec .thermtrip s = .next { s with frozen := true, tripped := true }) ∧
    ((∀ x ∈ p.telemetry.temps, x ≤ 110) → exec .thermtrip s = .next s) ∧
    (∀ port b, exec (.d3hotTransition port b) s = .next { s with hosts := modAt s.hosts port fun h => { h with d3hot := b } }) ∧
    (∀ port b, exec (.linkL1Transition port b) s = .next { s with hosts := modAt s.hosts port fun h => { h with l1 := b } }) ∧
    Out.ends (exec .powerRemoval s) fun t => t.mem = [] ∧ t.waves = [] ∧ t.cords = [] ∧ t.ctxs = [] ∧ t.qps = [] ∧ t.time = 0 ∧
      t.boot.flash = s.boot.flash ∧ t.boot.keyHash = s.boot.keyHash ∧ t.boot.secver = s.boot.secver ∧ t.boot.recovery = false

/-- Boot, management and power (R430 to R433, R447 to R451). -/
def Obligations.BootAndPowerComplete : Prop :=
  Claim.MeasurementExtends ∧ Claim.BootCompletes ∧ Claim.PowerEventsComplete

end Slice0
end

