-- ==== Sys2Proof/Laws/State.lean ====
section
/-! SUPPORT. What each named update of a state or a wave leaves in each field: one lemma per field per update. -/

namespace Sys2Proof.Machine

/-! ### State.setMe -/

@[simp] theorem State.setMe_time (s : State) (w : Wave) : (s.setMe w).time = s.time := rfl
@[simp] theorem State.setMe_frozen (s : State) (w : Wave) : (s.setMe w).frozen = s.frozen := rfl
@[simp] theorem State.setMe_tripped (s : State) (w : Wave) : (s.setMe w).tripped = s.tripped := rfl
@[simp] theorem State.setMe_agenda (s : State) (w : Wave) : (s.setMe w).agenda = s.agenda := rfl
@[simp] theorem State.setMe_tick (s : State) (w : Wave) : (s.setMe w).tick = s.tick := rfl
@[simp] theorem State.setMe_cur (s : State) (w : Wave) : (s.setMe w).cur = s.cur := rfl
@[simp] theorem State.setMe_serial (s : State) (w : Wave) : (s.setMe w).serial = s.serial := rfl
@[simp] theorem State.setMe_uid (s : State) (w : Wave) : (s.setMe w).uid = s.uid := rfl
@[simp] theorem State.setMe_cords (s : State) (w : Wave) : (s.setMe w).cords = s.cords := rfl
@[simp] theorem State.setMe_ctxs (s : State) (w : Wave) : (s.setMe w).ctxs = s.ctxs := rfl
@[simp] theorem State.setMe_queues (s : State) (w : Wave) : (s.setMe w).queues = s.queues := rfl
@[simp] theorem State.setMe_slots (s : State) (w : Wave) : (s.setMe w).slots = s.slots := rfl
@[simp] theorem State.setMe_recs (s : State) (w : Wave) : (s.setMe w).recs = s.recs := rfl
@[simp] theorem State.setMe_helds (s : State) (w : Wave) : (s.setMe w).helds = s.helds := rfl
@[simp] theorem State.setMe_bells (s : State) (w : Wave) : (s.setMe w).bells = s.bells := rfl
@[simp] theorem State.setMe_wakes (s : State) (w : Wave) : (s.setMe w).wakes = s.wakes := rfl
@[simp] theorem State.setMe_served (s : State) (w : Wave) : (s.setMe w).served = s.served := rfl
@[simp] theorem State.setMe_dispP (s : State) (w : Wave) : (s.setMe w).dispP = s.dispP := rfl
@[simp] theorem State.setMe_mem (s : State) (w : Wave) : (s.setMe w).mem = s.mem := rfl
@[simp] theorem State.setMe_writes (s : State) (w : Wave) : (s.setMe w).writes = s.writes := rfl
@[simp] theorem State.setMe_leases (s : State) (w : Wave) : (s.setMe w).leases = s.leases := rfl
@[simp] theorem State.setMe_l1 (s : State) (w : Wave) : (s.setMe w).l1 = s.l1 := rfl
@[simp] theorem State.setMe_l2 (s : State) (w : Wave) : (s.setMe w).l2 = s.l2 := rfl
@[simp] theorem State.setMe_dirty (s : State) (w : Wave) : (s.setMe w).dirty = s.dirty := rfl
@[simp] theorem State.setMe_tlb (s : State) (w : Wave) : (s.setMe w).tlb = s.tlb := rfl
@[simp] theorem State.setMe_walks (s : State) (w : Wave) : (s.setMe w).walks = s.walks := rfl
@[simp] theorem State.setMe_touches (s : State) (w : Wave) : (s.setMe w).touches = s.touches := rfl
@[simp] theorem State.setMe_icache (s : State) (w : Wave) : (s.setMe w).icache = s.icache := rfl
@[simp] theorem State.setMe_fills (s : State) (w : Wave) : (s.setMe w).fills = s.fills := rfl
@[simp] theorem State.setMe_handles (s : State) (w : Wave) : (s.setMe w).handles = s.handles := rfl
@[simp] theorem State.setMe_pastRoots (s : State) (w : Wave) : (s.setMe w).pastRoots = s.pastRoots := rfl
@[simp] theorem State.setMe_poison (s : State) (w : Wave) : (s.setMe w).poison = s.poison := rfl
@[simp] theorem State.setMe_retired (s : State) (w : Wave) : (s.setMe w).retired = s.retired := rfl
@[simp] theorem State.setMe_flaws (s : State) (w : Wave) : (s.setMe w).flaws = s.flaws := rfl
@[simp] theorem State.setMe_corrected (s : State) (w : Wave) : (s.setMe w).corrected = s.corrected := rfl
@[simp] theorem State.setMe_ctxBad (s : State) (w : Wave) : (s.setMe w).ctxBad = s.ctxBad := rfl
@[simp] theorem State.setMe_faulting (s : State) (w : Wave) : (s.setMe w).faulting = s.faulting := rfl
@[simp] theorem State.setMe_ranges (s : State) (w : Wave) : (s.setMe w).ranges = s.ranges := rfl
@[simp] theorem State.setMe_mosFills (s : State) (w : Wave) : (s.setMe w).mosFills = s.mosFills := rfl
@[simp] theorem State.setMe_mmaOps (s : State) (w : Wave) : (s.setMe w).mmaOps = s.mmaOps := rfl
@[simp] theorem State.setMe_jobs (s : State) (w : Wave) : (s.setMe w).jobs = s.jobs := rfl
@[simp] theorem State.setMe_cutWaits (s : State) (w : Wave) : (s.setMe w).cutWaits = s.cutWaits := rfl
@[simp] theorem State.setMe_hosts (s : State) (w : Wave) : (s.setMe w).hosts = s.hosts := rfl
@[simp] theorem State.setMe_ports (s : State) (w : Wave) : (s.setMe w).ports = s.ports := rfl
@[simp] theorem State.setMe_qps (s : State) (w : Wave) : (s.setMe w).qps = s.qps := rfl
@[simp] theorem State.setMe_heldPkts (s : State) (w : Wave) : (s.setMe w).heldPkts = s.heldPkts := rfl
@[simp] theorem State.setMe_comms (s : State) (w : Wave) : (s.setMe w).comms = s.comms := rfl
@[simp] theorem State.setMe_colls (s : State) (w : Wave) : (s.setMe w).colls = s.colls := rfl
@[simp] theorem State.setMe_harts (s : State) (w : Wave) : (s.setMe w).harts = s.harts := rfl
@[simp] theorem State.setMe_nkctxtab (s : State) (w : Wave) : (s.setMe w).nkctxtab = s.nkctxtab := rfl
@[simp] theorem State.setMe_nkqpbase (s : State) (w : Wave) : (s.setMe w).nkqpbase = s.nkqpbase := rfl
@[simp] theorem State.setMe_nkevt (s : State) (w : Wave) : (s.setMe w).nkevt = s.nkevt := rfl
@[simp] theorem State.setMe_nkevthart (s : State) (w : Wave) : (s.setMe w).nkevthart = s.nkevthart := rfl
@[simp] theorem State.setMe_events (s : State) (w : Wave) : (s.setMe w).events = s.events := rfl
@[simp] theorem State.setMe_commands (s : State) (w : Wave) : (s.setMe w).commands = s.commands := rfl
@[simp] theorem State.setMe_invals (s : State) (w : Wave) : (s.setMe w).invals = s.invals := rfl
@[simp] theorem State.setMe_boot (s : State) (w : Wave) : (s.setMe w).boot = s.boot := rfl
@[simp] theorem State.setMe_dbgCores (s : State) (w : Wave) : (s.setMe w).dbgCores = s.dbgCores := rfl
@[simp] theorem State.setMe_dbgDies (s : State) (w : Wave) : (s.setMe w).dbgDies = s.dbgDies := rfl
@[simp] theorem State.setMe_trial (s : State) (w : Wave) : (s.setMe w).trial = s.trial := rfl
@[simp] theorem State.setMe_power (s : State) (w : Wave) : (s.setMe w).power = s.power := rfl

/-! ### State.modMe -/

@[simp] theorem State.modMe_time (s : State) (f : Wave → Wave) : (s.modMe f).time = s.time := rfl
@[simp] theorem State.modMe_frozen (s : State) (f : Wave → Wave) : (s.modMe f).frozen = s.frozen := rfl
@[simp] theorem State.modMe_tripped (s : State) (f : Wave → Wave) : (s.modMe f).tripped = s.tripped := rfl
@[simp] theorem State.modMe_agenda (s : State) (f : Wave → Wave) : (s.modMe f).agenda = s.agenda := rfl
@[simp] theorem State.modMe_tick (s : State) (f : Wave → Wave) : (s.modMe f).tick = s.tick := rfl
@[simp] theorem State.modMe_cur (s : State) (f : Wave → Wave) : (s.modMe f).cur = s.cur := rfl
@[simp] theorem State.modMe_serial (s : State) (f : Wave → Wave) : (s.modMe f).serial = s.serial := rfl
@[simp] theorem State.modMe_uid (s : State) (f : Wave → Wave) : (s.modMe f).uid = s.uid := rfl
@[simp] theorem State.modMe_cords (s : State) (f : Wave → Wave) : (s.modMe f).cords = s.cords := rfl
@[simp] theorem State.modMe_ctxs (s : State) (f : Wave → Wave) : (s.modMe f).ctxs = s.ctxs := rfl
@[simp] theorem State.modMe_queues (s : State) (f : Wave → Wave) : (s.modMe f).queues = s.queues := rfl
@[simp] theorem State.modMe_slots (s : State) (f : Wave → Wave) : (s.modMe f).slots = s.slots := rfl
@[simp] theorem State.modMe_recs (s : State) (f : Wave → Wave) : (s.modMe f).recs = s.recs := rfl
@[simp] theorem State.modMe_helds (s : State) (f : Wave → Wave) : (s.modMe f).helds = s.helds := rfl
@[simp] theorem State.modMe_bells (s : State) (f : Wave → Wave) : (s.modMe f).bells = s.bells := rfl
@[simp] theorem State.modMe_wakes (s : State) (f : Wave → Wave) : (s.modMe f).wakes = s.wakes := rfl
@[simp] theorem State.modMe_served (s : State) (f : Wave → Wave) : (s.modMe f).served = s.served := rfl
@[simp] theorem State.modMe_dispP (s : State) (f : Wave → Wave) : (s.modMe f).dispP = s.dispP := rfl
@[simp] theorem State.modMe_mem (s : State) (f : Wave → Wave) : (s.modMe f).mem = s.mem := rfl
@[simp] theorem State.modMe_writes (s : State) (f : Wave → Wave) : (s.modMe f).writes = s.writes := rfl
@[simp] theorem State.modMe_leases (s : State) (f : Wave → Wave) : (s.modMe f).leases = s.leases := rfl
@[simp] theorem State.modMe_l1 (s : State) (f : Wave → Wave) : (s.modMe f).l1 = s.l1 := rfl
@[simp] theorem State.modMe_l2 (s : State) (f : Wave → Wave) : (s.modMe f).l2 = s.l2 := rfl
@[simp] theorem State.modMe_dirty (s : State) (f : Wave → Wave) : (s.modMe f).dirty = s.dirty := rfl
@[simp] theorem State.modMe_tlb (s : State) (f : Wave → Wave) : (s.modMe f).tlb = s.tlb := rfl
@[simp] theorem State.modMe_walks (s : State) (f : Wave → Wave) : (s.modMe f).walks = s.walks := rfl
@[simp] theorem State.modMe_touches (s : State) (f : Wave → Wave) : (s.modMe f).touches = s.touches := rfl
@[simp] theorem State.modMe_icache (s : State) (f : Wave → Wave) : (s.modMe f).icache = s.icache := rfl
@[simp] theorem State.modMe_fills (s : State) (f : Wave → Wave) : (s.modMe f).fills = s.fills := rfl
@[simp] theorem State.modMe_handles (s : State) (f : Wave → Wave) : (s.modMe f).handles = s.handles := rfl
@[simp] theorem State.modMe_pastRoots (s : State) (f : Wave → Wave) : (s.modMe f).pastRoots = s.pastRoots := rfl
@[simp] theorem State.modMe_poison (s : State) (f : Wave → Wave) : (s.modMe f).poison = s.poison := rfl
@[simp] theorem State.modMe_retired (s : State) (f : Wave → Wave) : (s.modMe f).retired = s.retired := rfl
@[simp] theorem State.modMe_flaws (s : State) (f : Wave → Wave) : (s.modMe f).flaws = s.flaws := rfl
@[simp] theorem State.modMe_corrected (s : State) (f : Wave → Wave) : (s.modMe f).corrected = s.corrected := rfl
@[simp] theorem State.modMe_ctxBad (s : State) (f : Wave → Wave) : (s.modMe f).ctxBad = s.ctxBad := rfl
@[simp] theorem State.modMe_faulting (s : State) (f : Wave → Wave) : (s.modMe f).faulting = s.faulting := rfl
@[simp] theorem State.modMe_ranges (s : State) (f : Wave → Wave) : (s.modMe f).ranges = s.ranges := rfl
@[simp] theorem State.modMe_mosFills (s : State) (f : Wave → Wave) : (s.modMe f).mosFills = s.mosFills := rfl
@[simp] theorem State.modMe_mmaOps (s : State) (f : Wave → Wave) : (s.modMe f).mmaOps = s.mmaOps := rfl
@[simp] theorem State.modMe_jobs (s : State) (f : Wave → Wave) : (s.modMe f).jobs = s.jobs := rfl
@[simp] theorem State.modMe_cutWaits (s : State) (f : Wave → Wave) : (s.modMe f).cutWaits = s.cutWaits := rfl
@[simp] theorem State.modMe_hosts (s : State) (f : Wave → Wave) : (s.modMe f).hosts = s.hosts := rfl
@[simp] theorem State.modMe_ports (s : State) (f : Wave → Wave) : (s.modMe f).ports = s.ports := rfl
@[simp] theorem State.modMe_qps (s : State) (f : Wave → Wave) : (s.modMe f).qps = s.qps := rfl
@[simp] theorem State.modMe_heldPkts (s : State) (f : Wave → Wave) : (s.modMe f).heldPkts = s.heldPkts := rfl
@[simp] theorem State.modMe_comms (s : State) (f : Wave → Wave) : (s.modMe f).comms = s.comms := rfl
@[simp] theorem State.modMe_colls (s : State) (f : Wave → Wave) : (s.modMe f).colls = s.colls := rfl
@[simp] theorem State.modMe_harts (s : State) (f : Wave → Wave) : (s.modMe f).harts = s.harts := rfl
@[simp] theorem State.modMe_nkctxtab (s : State) (f : Wave → Wave) : (s.modMe f).nkctxtab = s.nkctxtab := rfl
@[simp] theorem State.modMe_nkqpbase (s : State) (f : Wave → Wave) : (s.modMe f).nkqpbase = s.nkqpbase := rfl
@[simp] theorem State.modMe_nkevt (s : State) (f : Wave → Wave) : (s.modMe f).nkevt = s.nkevt := rfl
@[simp] theorem State.modMe_nkevthart (s : State) (f : Wave → Wave) : (s.modMe f).nkevthart = s.nkevthart := rfl
@[simp] theorem State.modMe_events (s : State) (f : Wave → Wave) : (s.modMe f).events = s.events := rfl
@[simp] theorem State.modMe_commands (s : State) (f : Wave → Wave) : (s.modMe f).commands = s.commands := rfl
@[simp] theorem State.modMe_invals (s : State) (f : Wave → Wave) : (s.modMe f).invals = s.invals := rfl
@[simp] theorem State.modMe_boot (s : State) (f : Wave → Wave) : (s.modMe f).boot = s.boot := rfl
@[simp] theorem State.modMe_dbgCores (s : State) (f : Wave → Wave) : (s.modMe f).dbgCores = s.dbgCores := rfl
@[simp] theorem State.modMe_dbgDies (s : State) (f : Wave → Wave) : (s.modMe f).dbgDies = s.dbgDies := rfl
@[simp] theorem State.modMe_trial (s : State) (f : Wave → Wave) : (s.modMe f).trial = s.trial := rfl
@[simp] theorem State.modMe_power (s : State) (f : Wave → Wave) : (s.modMe f).power = s.power := rfl

/-! ### State.modWave -/

@[simp] theorem State.modWave_time (s : State) (id : WaveId) (f : Wave → Wave) : (s.modWave id f).time = s.time := rfl
@[simp] theorem State.modWave_frozen (s : State) (id : WaveId) (f : Wave → Wave) : (s.modWave id f).frozen = s.frozen := rfl
@[simp] theorem State.modWave_tripped (s : State) (id : WaveId) (f : Wave → Wave) : (s.modWave id f).tripped = s.tripped := rfl
@[simp] theorem State.modWave_agenda (s : State) (id : WaveId) (f : Wave → Wave) : (s.modWave id f).agenda = s.agenda := rfl
@[simp] theorem State.modWave_tick (s : State) (id : WaveId) (f : Wave → Wave) : (s.modWave id f).tick = s.tick := rfl
@[simp] theorem State.modWave_cur (s : State) (id : WaveId) (f : Wave → Wave) : (s.modWave id f).cur = s.cur := rfl
@[simp] theorem State.modWave_serial (s : State) (id : WaveId) (f : Wave → Wave) : (s.modWave id f).serial = s.serial := rfl
@[simp] theorem State.modWave_uid (s : State) (id : WaveId) (f : Wave → Wave) : (s.modWave id f).uid = s.uid := rfl
@[simp] theorem State.modWave_cords (s : State) (id : WaveId) (f : Wave → Wave) : (s.modWave id f).cords = s.cords := rfl
@[simp] theorem State.modWave_ctxs (s : State) (id : WaveId) (f : Wave → Wave) : (s.modWave id f).ctxs = s.ctxs := rfl
@[simp] theorem State.modWave_queues (s : State) (id : WaveId) (f : Wave → Wave) : (s.modWave id f).queues = s.queues := rfl
@[simp] theorem State.modWave_slots (s : State) (id : WaveId) (f : Wave → Wave) : (s.modWave id f).slots = s.slots := rfl
@[simp] theorem State.modWave_recs (s : State) (id : WaveId) (f : Wave → Wave) : (s.modWave id f).recs = s.recs := rfl
@[simp] theorem State.modWave_helds (s : State) (id : WaveId) (f : Wave → Wave) : (s.modWave id f).helds = s.helds := rfl
@[simp] theorem State.modWave_bells (s : State) (id : WaveId) (f : Wave → Wave) : (s.modWave id f).bells = s.bells := rfl
@[simp] theorem State.modWave_wakes (s : State) (id : WaveId) (f : Wave → Wave) : (s.modWave id f).wakes = s.wakes := rfl
@[simp] theorem State.modWave_served (s : State) (id : WaveId) (f : Wave → Wave) : (s.modWave id f).served = s.served := rfl
@[simp] theorem State.modWave_dispP (s : State) (id : WaveId) (f : Wave → Wave) : (s.modWave id f).dispP = s.dispP := rfl
@[simp] theorem State.modWave_mem (s : State) (id : WaveId) (f : Wave → Wave) : (s.modWave id f).mem = s.mem := rfl
@[simp] theorem State.modWave_writes (s : State) (id : WaveId) (f : Wave → Wave) : (s.modWave id f).writes = s.writes := rfl
@[simp] theorem State.modWave_leases (s : State) (id : WaveId) (f : Wave → Wave) : (s.modWave id f).leases = s.leases := rfl
@[simp] theorem State.modWave_l1 (s : State) (id : WaveId) (f : Wave → Wave) : (s.modWave id f).l1 = s.l1 := rfl
@[simp] theorem State.modWave_l2 (s : State) (id : WaveId) (f : Wave → Wave) : (s.modWave id f).l2 = s.l2 := rfl
@[simp] theorem State.modWave_dirty (s : State) (id : WaveId) (f : Wave → Wave) : (s.modWave id f).dirty = s.dirty := rfl
@[simp] theorem State.modWave_tlb (s : State) (id : WaveId) (f : Wave → Wave) : (s.modWave id f).tlb = s.tlb := rfl
@[simp] theorem State.modWave_walks (s : State) (id : WaveId) (f : Wave → Wave) : (s.modWave id f).walks = s.walks := rfl
@[simp] theorem State.modWave_touches (s : State) (id : WaveId) (f : Wave → Wave) : (s.modWave id f).touches = s.touches := rfl
@[simp] theorem State.modWave_icache (s : State) (id : WaveId) (f : Wave → Wave) : (s.modWave id f).icache = s.icache := rfl
@[simp] theorem State.modWave_fills (s : State) (id : WaveId) (f : Wave → Wave) : (s.modWave id f).fills = s.fills := rfl
@[simp] theorem State.modWave_handles (s : State) (id : WaveId) (f : Wave → Wave) : (s.modWave id f).handles = s.handles := rfl
@[simp] theorem State.modWave_pastRoots (s : State) (id : WaveId) (f : Wave → Wave) : (s.modWave id f).pastRoots = s.pastRoots := rfl
@[simp] theorem State.modWave_poison (s : State) (id : WaveId) (f : Wave → Wave) : (s.modWave id f).poison = s.poison := rfl
@[simp] theorem State.modWave_retired (s : State) (id : WaveId) (f : Wave → Wave) : (s.modWave id f).retired = s.retired := rfl
@[simp] theorem State.modWave_flaws (s : State) (id : WaveId) (f : Wave → Wave) : (s.modWave id f).flaws = s.flaws := rfl
@[simp] theorem State.modWave_corrected (s : State) (id : WaveId) (f : Wave → Wave) : (s.modWave id f).corrected = s.corrected := rfl
@[simp] theorem State.modWave_ctxBad (s : State) (id : WaveId) (f : Wave → Wave) : (s.modWave id f).ctxBad = s.ctxBad := rfl
@[simp] theorem State.modWave_faulting (s : State) (id : WaveId) (f : Wave → Wave) : (s.modWave id f).faulting = s.faulting := rfl
@[simp] theorem State.modWave_ranges (s : State) (id : WaveId) (f : Wave → Wave) : (s.modWave id f).ranges = s.ranges := rfl
@[simp] theorem State.modWave_mosFills (s : State) (id : WaveId) (f : Wave → Wave) : (s.modWave id f).mosFills = s.mosFills := rfl
@[simp] theorem State.modWave_mmaOps (s : State) (id : WaveId) (f : Wave → Wave) : (s.modWave id f).mmaOps = s.mmaOps := rfl
@[simp] theorem State.modWave_jobs (s : State) (id : WaveId) (f : Wave → Wave) : (s.modWave id f).jobs = s.jobs := rfl
@[simp] theorem State.modWave_cutWaits (s : State) (id : WaveId) (f : Wave → Wave) : (s.modWave id f).cutWaits = s.cutWaits := rfl
@[simp] theorem State.modWave_hosts (s : State) (id : WaveId) (f : Wave → Wave) : (s.modWave id f).hosts = s.hosts := rfl
@[simp] theorem State.modWave_ports (s : State) (id : WaveId) (f : Wave → Wave) : (s.modWave id f).ports = s.ports := rfl
@[simp] theorem State.modWave_qps (s : State) (id : WaveId) (f : Wave → Wave) : (s.modWave id f).qps = s.qps := rfl
@[simp] theorem State.modWave_heldPkts (s : State) (id : WaveId) (f : Wave → Wave) : (s.modWave id f).heldPkts = s.heldPkts := rfl
@[simp] theorem State.modWave_comms (s : State) (id : WaveId) (f : Wave → Wave) : (s.modWave id f).comms = s.comms := rfl
@[simp] theorem State.modWave_colls (s : State) (id : WaveId) (f : Wave → Wave) : (s.modWave id f).colls = s.colls := rfl
@[simp] theorem State.modWave_harts (s : State) (id : WaveId) (f : Wave → Wave) : (s.modWave id f).harts = s.harts := rfl
@[simp] theorem State.modWave_nkctxtab (s : State) (id : WaveId) (f : Wave → Wave) : (s.modWave id f).nkctxtab = s.nkctxtab := rfl
@[simp] theorem State.modWave_nkqpbase (s : State) (id : WaveId) (f : Wave → Wave) : (s.modWave id f).nkqpbase = s.nkqpbase := rfl
@[simp] theorem State.modWave_nkevt (s : State) (id : WaveId) (f : Wave → Wave) : (s.modWave id f).nkevt = s.nkevt := rfl
@[simp] theorem State.modWave_nkevthart (s : State) (id : WaveId) (f : Wave → Wave) : (s.modWave id f).nkevthart = s.nkevthart := rfl
@[simp] theorem State.modWave_events (s : State) (id : WaveId) (f : Wave → Wave) : (s.modWave id f).events = s.events := rfl
@[simp] theorem State.modWave_commands (s : State) (id : WaveId) (f : Wave → Wave) : (s.modWave id f).commands = s.commands := rfl
@[simp] theorem State.modWave_invals (s : State) (id : WaveId) (f : Wave → Wave) : (s.modWave id f).invals = s.invals := rfl
@[simp] theorem State.modWave_boot (s : State) (id : WaveId) (f : Wave → Wave) : (s.modWave id f).boot = s.boot := rfl
@[simp] theorem State.modWave_dbgCores (s : State) (id : WaveId) (f : Wave → Wave) : (s.modWave id f).dbgCores = s.dbgCores := rfl
@[simp] theorem State.modWave_dbgDies (s : State) (id : WaveId) (f : Wave → Wave) : (s.modWave id f).dbgDies = s.dbgDies := rfl
@[simp] theorem State.modWave_trial (s : State) (id : WaveId) (f : Wave → Wave) : (s.modWave id f).trial = s.trial := rfl
@[simp] theorem State.modWave_power (s : State) (id : WaveId) (f : Wave → Wave) : (s.modWave id f).power = s.power := rfl

/-! ### State.modCord -/

@[simp] theorem State.modCord_time (s : State) (uid : Nat) (f : Cord → Cord) : (s.modCord uid f).time = s.time := rfl
@[simp] theorem State.modCord_frozen (s : State) (uid : Nat) (f : Cord → Cord) : (s.modCord uid f).frozen = s.frozen := rfl
@[simp] theorem State.modCord_tripped (s : State) (uid : Nat) (f : Cord → Cord) : (s.modCord uid f).tripped = s.tripped := rfl
@[simp] theorem State.modCord_agenda (s : State) (uid : Nat) (f : Cord → Cord) : (s.modCord uid f).agenda = s.agenda := rfl
@[simp] theorem State.modCord_tick (s : State) (uid : Nat) (f : Cord → Cord) : (s.modCord uid f).tick = s.tick := rfl
@[simp] theorem State.modCord_cur (s : State) (uid : Nat) (f : Cord → Cord) : (s.modCord uid f).cur = s.cur := rfl
@[simp] theorem State.modCord_serial (s : State) (uid : Nat) (f : Cord → Cord) : (s.modCord uid f).serial = s.serial := rfl
@[simp] theorem State.modCord_uid (s : State) (uid : Nat) (f : Cord → Cord) : (s.modCord uid f).uid = s.uid := rfl
@[simp] theorem State.modCord_waves (s : State) (uid : Nat) (f : Cord → Cord) : (s.modCord uid f).waves = s.waves := rfl
@[simp] theorem State.modCord_ctxs (s : State) (uid : Nat) (f : Cord → Cord) : (s.modCord uid f).ctxs = s.ctxs := rfl
@[simp] theorem State.modCord_queues (s : State) (uid : Nat) (f : Cord → Cord) : (s.modCord uid f).queues = s.queues := rfl
@[simp] theorem State.modCord_slots (s : State) (uid : Nat) (f : Cord → Cord) : (s.modCord uid f).slots = s.slots := rfl
@[simp] theorem State.modCord_recs (s : State) (uid : Nat) (f : Cord → Cord) : (s.modCord uid f).recs = s.recs := rfl
@[simp] theorem State.modCord_helds (s : State) (uid : Nat) (f : Cord → Cord) : (s.modCord uid f).helds = s.helds := rfl
@[simp] theorem State.modCord_bells (s : State) (uid : Nat) (f : Cord → Cord) : (s.modCord uid f).bells = s.bells := rfl
@[simp] theorem State.modCord_wakes (s : State) (uid : Nat) (f : Cord → Cord) : (s.modCord uid f).wakes = s.wakes := rfl
@[simp] theorem State.modCord_served (s : State) (uid : Nat) (f : Cord → Cord) : (s.modCord uid f).served = s.served := rfl
@[simp] theorem State.modCord_dispP (s : State) (uid : Nat) (f : Cord → Cord) : (s.modCord uid f).dispP = s.dispP := rfl
@[simp] theorem State.modCord_mem (s : State) (uid : Nat) (f : Cord → Cord) : (s.modCord uid f).mem = s.mem := rfl
@[simp] theorem State.modCord_writes (s : State) (uid : Nat) (f : Cord → Cord) : (s.modCord uid f).writes = s.writes := rfl
@[simp] theorem State.modCord_leases (s : State) (uid : Nat) (f : Cord → Cord) : (s.modCord uid f).leases = s.leases := rfl
@[simp] theorem State.modCord_l1 (s : State) (uid : Nat) (f : Cord → Cord) : (s.modCord uid f).l1 = s.l1 := rfl
@[simp] theorem State.modCord_l2 (s : State) (uid : Nat) (f : Cord → Cord) : (s.modCord uid f).l2 = s.l2 := rfl
@[simp] theorem State.modCord_dirty (s : State) (uid : Nat) (f : Cord → Cord) : (s.modCord uid f).dirty = s.dirty := rfl
@[simp] theorem State.modCord_tlb (s : State) (uid : Nat) (f : Cord → Cord) : (s.modCord uid f).tlb = s.tlb := rfl
@[simp] theorem State.modCord_walks (s : State) (uid : Nat) (f : Cord → Cord) : (s.modCord uid f).walks = s.walks := rfl
@[simp] theorem State.modCord_touches (s : State) (uid : Nat) (f : Cord → Cord) : (s.modCord uid f).touches = s.touches := rfl
@[simp] theorem State.modCord_icache (s : State) (uid : Nat) (f : Cord → Cord) : (s.modCord uid f).icache = s.icache := rfl
@[simp] theorem State.modCord_fills (s : State) (uid : Nat) (f : Cord → Cord) : (s.modCord uid f).fills = s.fills := rfl
@[simp] theorem State.modCord_handles (s : State) (uid : Nat) (f : Cord → Cord) : (s.modCord uid f).handles = s.handles := rfl
@[simp] theorem State.modCord_pastRoots (s : State) (uid : Nat) (f : Cord → Cord) : (s.modCord uid f).pastRoots = s.pastRoots := rfl
@[simp] theorem State.modCord_poison (s : State) (uid : Nat) (f : Cord → Cord) : (s.modCord uid f).poison = s.poison := rfl
@[simp] theorem State.modCord_retired (s : State) (uid : Nat) (f : Cord → Cord) : (s.modCord uid f).retired = s.retired := rfl
@[simp] theorem State.modCord_flaws (s : State) (uid : Nat) (f : Cord → Cord) : (s.modCord uid f).flaws = s.flaws := rfl
@[simp] theorem State.modCord_corrected (s : State) (uid : Nat) (f : Cord → Cord) : (s.modCord uid f).corrected = s.corrected := rfl
@[simp] theorem State.modCord_ctxBad (s : State) (uid : Nat) (f : Cord → Cord) : (s.modCord uid f).ctxBad = s.ctxBad := rfl
@[simp] theorem State.modCord_faulting (s : State) (uid : Nat) (f : Cord → Cord) : (s.modCord uid f).faulting = s.faulting := rfl
@[simp] theorem State.modCord_ranges (s : State) (uid : Nat) (f : Cord → Cord) : (s.modCord uid f).ranges = s.ranges := rfl
@[simp] theorem State.modCord_mosFills (s : State) (uid : Nat) (f : Cord → Cord) : (s.modCord uid f).mosFills = s.mosFills := rfl
@[simp] theorem State.modCord_mmaOps (s : State) (uid : Nat) (f : Cord → Cord) : (s.modCord uid f).mmaOps = s.mmaOps := rfl
@[simp] theorem State.modCord_jobs (s : State) (uid : Nat) (f : Cord → Cord) : (s.modCord uid f).jobs = s.jobs := rfl
@[simp] theorem State.modCord_cutWaits (s : State) (uid : Nat) (f : Cord → Cord) : (s.modCord uid f).cutWaits = s.cutWaits := rfl
@[simp] theorem State.modCord_hosts (s : State) (uid : Nat) (f : Cord → Cord) : (s.modCord uid f).hosts = s.hosts := rfl
@[simp] theorem State.modCord_ports (s : State) (uid : Nat) (f : Cord → Cord) : (s.modCord uid f).ports = s.ports := rfl
@[simp] theorem State.modCord_qps (s : State) (uid : Nat) (f : Cord → Cord) : (s.modCord uid f).qps = s.qps := rfl
@[simp] theorem State.modCord_heldPkts (s : State) (uid : Nat) (f : Cord → Cord) : (s.modCord uid f).heldPkts = s.heldPkts := rfl
@[simp] theorem State.modCord_comms (s : State) (uid : Nat) (f : Cord → Cord) : (s.modCord uid f).comms = s.comms := rfl
@[simp] theorem State.modCord_colls (s : State) (uid : Nat) (f : Cord → Cord) : (s.modCord uid f).colls = s.colls := rfl
@[simp] theorem State.modCord_harts (s : State) (uid : Nat) (f : Cord → Cord) : (s.modCord uid f).harts = s.harts := rfl
@[simp] theorem State.modCord_nkctxtab (s : State) (uid : Nat) (f : Cord → Cord) : (s.modCord uid f).nkctxtab = s.nkctxtab := rfl
@[simp] theorem State.modCord_nkqpbase (s : State) (uid : Nat) (f : Cord → Cord) : (s.modCord uid f).nkqpbase = s.nkqpbase := rfl
@[simp] theorem State.modCord_nkevt (s : State) (uid : Nat) (f : Cord → Cord) : (s.modCord uid f).nkevt = s.nkevt := rfl
@[simp] theorem State.modCord_nkevthart (s : State) (uid : Nat) (f : Cord → Cord) : (s.modCord uid f).nkevthart = s.nkevthart := rfl
@[simp] theorem State.modCord_events (s : State) (uid : Nat) (f : Cord → Cord) : (s.modCord uid f).events = s.events := rfl
@[simp] theorem State.modCord_commands (s : State) (uid : Nat) (f : Cord → Cord) : (s.modCord uid f).commands = s.commands := rfl
@[simp] theorem State.modCord_invals (s : State) (uid : Nat) (f : Cord → Cord) : (s.modCord uid f).invals = s.invals := rfl
@[simp] theorem State.modCord_boot (s : State) (uid : Nat) (f : Cord → Cord) : (s.modCord uid f).boot = s.boot := rfl
@[simp] theorem State.modCord_dbgCores (s : State) (uid : Nat) (f : Cord → Cord) : (s.modCord uid f).dbgCores = s.dbgCores := rfl
@[simp] theorem State.modCord_dbgDies (s : State) (uid : Nat) (f : Cord → Cord) : (s.modCord uid f).dbgDies = s.dbgDies := rfl
@[simp] theorem State.modCord_trial (s : State) (uid : Nat) (f : Cord → Cord) : (s.modCord uid f).trial = s.trial := rfl
@[simp] theorem State.modCord_power (s : State) (uid : Nat) (f : Cord → Cord) : (s.modCord uid f).power = s.power := rfl

/-! ### State.modHandle -/

@[simp] theorem State.modHandle_time (s : State) (r : RootId) (f : Handle → Handle) : (s.modHandle r f).time = s.time := rfl
@[simp] theorem State.modHandle_frozen (s : State) (r : RootId) (f : Handle → Handle) : (s.modHandle r f).frozen = s.frozen := rfl
@[simp] theorem State.modHandle_tripped (s : State) (r : RootId) (f : Handle → Handle) : (s.modHandle r f).tripped = s.tripped := rfl
@[simp] theorem State.modHandle_agenda (s : State) (r : RootId) (f : Handle → Handle) : (s.modHandle r f).agenda = s.agenda := rfl
@[simp] theorem State.modHandle_tick (s : State) (r : RootId) (f : Handle → Handle) : (s.modHandle r f).tick = s.tick := rfl
@[simp] theorem State.modHandle_cur (s : State) (r : RootId) (f : Handle → Handle) : (s.modHandle r f).cur = s.cur := rfl
@[simp] theorem State.modHandle_serial (s : State) (r : RootId) (f : Handle → Handle) : (s.modHandle r f).serial = s.serial := rfl
@[simp] theorem State.modHandle_uid (s : State) (r : RootId) (f : Handle → Handle) : (s.modHandle r f).uid = s.uid := rfl
@[simp] theorem State.modHandle_waves (s : State) (r : RootId) (f : Handle → Handle) : (s.modHandle r f).waves = s.waves := rfl
@[simp] theorem State.modHandle_cords (s : State) (r : RootId) (f : Handle → Handle) : (s.modHandle r f).cords = s.cords := rfl
@[simp] theorem State.modHandle_ctxs (s : State) (r : RootId) (f : Handle → Handle) : (s.modHandle r f).ctxs = s.ctxs := rfl
@[simp] theorem State.modHandle_queues (s : State) (r : RootId) (f : Handle → Handle) : (s.modHandle r f).queues = s.queues := rfl
@[simp] theorem State.modHandle_slots (s : State) (r : RootId) (f : Handle → Handle) : (s.modHandle r f).slots = s.slots := rfl
@[simp] theorem State.modHandle_recs (s : State) (r : RootId) (f : Handle → Handle) : (s.modHandle r f).recs = s.recs := rfl
@[simp] theorem State.modHandle_helds (s : State) (r : RootId) (f : Handle → Handle) : (s.modHandle r f).helds = s.helds := rfl
@[simp] theorem State.modHandle_bells (s : State) (r : RootId) (f : Handle → Handle) : (s.modHandle r f).bells = s.bells := rfl
@[simp] theorem State.modHandle_wakes (s : State) (r : RootId) (f : Handle → Handle) : (s.modHandle r f).wakes = s.wakes := rfl
@[simp] theorem State.modHandle_served (s : State) (r : RootId) (f : Handle → Handle) : (s.modHandle r f).served = s.served := rfl
@[simp] theorem State.modHandle_dispP (s : State) (r : RootId) (f : Handle → Handle) : (s.modHandle r f).dispP = s.dispP := rfl
@[simp] theorem State.modHandle_mem (s : State) (r : RootId) (f : Handle → Handle) : (s.modHandle r f).mem = s.mem := rfl
@[simp] theorem State.modHandle_writes (s : State) (r : RootId) (f : Handle → Handle) : (s.modHandle r f).writes = s.writes := rfl
@[simp] theorem State.modHandle_leases (s : State) (r : RootId) (f : Handle → Handle) : (s.modHandle r f).leases = s.leases := rfl
@[simp] theorem State.modHandle_l1 (s : State) (r : RootId) (f : Handle → Handle) : (s.modHandle r f).l1 = s.l1 := rfl
@[simp] theorem State.modHandle_l2 (s : State) (r : RootId) (f : Handle → Handle) : (s.modHandle r f).l2 = s.l2 := rfl
@[simp] theorem State.modHandle_dirty (s : State) (r : RootId) (f : Handle → Handle) : (s.modHandle r f).dirty = s.dirty := rfl
@[simp] theorem State.modHandle_tlb (s : State) (r : RootId) (f : Handle → Handle) : (s.modHandle r f).tlb = s.tlb := rfl
@[simp] theorem State.modHandle_walks (s : State) (r : RootId) (f : Handle → Handle) : (s.modHandle r f).walks = s.walks := rfl
@[simp] theorem State.modHandle_touches (s : State) (r : RootId) (f : Handle → Handle) : (s.modHandle r f).touches = s.touches := rfl
@[simp] theorem State.modHandle_icache (s : State) (r : RootId) (f : Handle → Handle) : (s.modHandle r f).icache = s.icache := rfl
@[simp] theorem State.modHandle_fills (s : State) (r : RootId) (f : Handle → Handle) : (s.modHandle r f).fills = s.fills := rfl
@[simp] theorem State.modHandle_pastRoots (s : State) (r : RootId) (f : Handle → Handle) : (s.modHandle r f).pastRoots = s.pastRoots := rfl
@[simp] theorem State.modHandle_poison (s : State) (r : RootId) (f : Handle → Handle) : (s.modHandle r f).poison = s.poison := rfl
@[simp] theorem State.modHandle_retired (s : State) (r : RootId) (f : Handle → Handle) : (s.modHandle r f).retired = s.retired := rfl
@[simp] theorem State.modHandle_flaws (s : State) (r : RootId) (f : Handle → Handle) : (s.modHandle r f).flaws = s.flaws := rfl
@[simp] theorem State.modHandle_corrected (s : State) (r : RootId) (f : Handle → Handle) : (s.modHandle r f).corrected = s.corrected := rfl
@[simp] theorem State.modHandle_ctxBad (s : State) (r : RootId) (f : Handle → Handle) : (s.modHandle r f).ctxBad = s.ctxBad := rfl
@[simp] theorem State.modHandle_faulting (s : State) (r : RootId) (f : Handle → Handle) : (s.modHandle r f).faulting = s.faulting := rfl
@[simp] theorem State.modHandle_ranges (s : State) (r : RootId) (f : Handle → Handle) : (s.modHandle r f).ranges = s.ranges := rfl
@[simp] theorem State.modHandle_mosFills (s : State) (r : RootId) (f : Handle → Handle) : (s.modHandle r f).mosFills = s.mosFills := rfl
@[simp] theorem State.modHandle_mmaOps (s : State) (r : RootId) (f : Handle → Handle) : (s.modHandle r f).mmaOps = s.mmaOps := rfl
@[simp] theorem State.modHandle_jobs (s : State) (r : RootId) (f : Handle → Handle) : (s.modHandle r f).jobs = s.jobs := rfl
@[simp] theorem State.modHandle_cutWaits (s : State) (r : RootId) (f : Handle → Handle) : (s.modHandle r f).cutWaits = s.cutWaits := rfl
@[simp] theorem State.modHandle_hosts (s : State) (r : RootId) (f : Handle → Handle) : (s.modHandle r f).hosts = s.hosts := rfl
@[simp] theorem State.modHandle_ports (s : State) (r : RootId) (f : Handle → Handle) : (s.modHandle r f).ports = s.ports := rfl
@[simp] theorem State.modHandle_qps (s : State) (r : RootId) (f : Handle → Handle) : (s.modHandle r f).qps = s.qps := rfl
@[simp] theorem State.modHandle_heldPkts (s : State) (r : RootId) (f : Handle → Handle) : (s.modHandle r f).heldPkts = s.heldPkts := rfl
@[simp] theorem State.modHandle_comms (s : State) (r : RootId) (f : Handle → Handle) : (s.modHandle r f).comms = s.comms := rfl
@[simp] theorem State.modHandle_colls (s : State) (r : RootId) (f : Handle → Handle) : (s.modHandle r f).colls = s.colls := rfl
@[simp] theorem State.modHandle_harts (s : State) (r : RootId) (f : Handle → Handle) : (s.modHandle r f).harts = s.harts := rfl
@[simp] theorem State.modHandle_nkctxtab (s : State) (r : RootId) (f : Handle → Handle) : (s.modHandle r f).nkctxtab = s.nkctxtab := rfl
@[simp] theorem State.modHandle_nkqpbase (s : State) (r : RootId) (f : Handle → Handle) : (s.modHandle r f).nkqpbase = s.nkqpbase := rfl
@[simp] theorem State.modHandle_nkevt (s : State) (r : RootId) (f : Handle → Handle) : (s.modHandle r f).nkevt = s.nkevt := rfl
@[simp] theorem State.modHandle_nkevthart (s : State) (r : RootId) (f : Handle → Handle) : (s.modHandle r f).nkevthart = s.nkevthart := rfl
@[simp] theorem State.modHandle_events (s : State) (r : RootId) (f : Handle → Handle) : (s.modHandle r f).events = s.events := rfl
@[simp] theorem State.modHandle_commands (s : State) (r : RootId) (f : Handle → Handle) : (s.modHandle r f).commands = s.commands := rfl
@[simp] theorem State.modHandle_invals (s : State) (r : RootId) (f : Handle → Handle) : (s.modHandle r f).invals = s.invals := rfl
@[simp] theorem State.modHandle_boot (s : State) (r : RootId) (f : Handle → Handle) : (s.modHandle r f).boot = s.boot := rfl
@[simp] theorem State.modHandle_dbgCores (s : State) (r : RootId) (f : Handle → Handle) : (s.modHandle r f).dbgCores = s.dbgCores := rfl
@[simp] theorem State.modHandle_dbgDies (s : State) (r : RootId) (f : Handle → Handle) : (s.modHandle r f).dbgDies = s.dbgDies := rfl
@[simp] theorem State.modHandle_trial (s : State) (r : RootId) (f : Handle → Handle) : (s.modHandle r f).trial = s.trial := rfl
@[simp] theorem State.modHandle_power (s : State) (r : RootId) (f : Handle → Handle) : (s.modHandle r f).power = s.power := rfl

/-! ### State.post -/

@[simp] theorem State.post_time (s : State) (die code tag arg arg2 : Nat) : (s.post die code tag arg arg2).time = s.time := rfl
@[simp] theorem State.post_frozen (s : State) (die code tag arg arg2 : Nat) : (s.post die code tag arg arg2).frozen = s.frozen := rfl
@[simp] theorem State.post_tripped (s : State) (die code tag arg arg2 : Nat) : (s.post die code tag arg arg2).tripped = s.tripped := rfl
@[simp] theorem State.post_agenda (s : State) (die code tag arg arg2 : Nat) : (s.post die code tag arg arg2).agenda = s.agenda := rfl
@[simp] theorem State.post_tick (s : State) (die code tag arg arg2 : Nat) : (s.post die code tag arg arg2).tick = s.tick := rfl
@[simp] theorem State.post_cur (s : State) (die code tag arg arg2 : Nat) : (s.post die code tag arg arg2).cur = s.cur := rfl
@[simp] theorem State.post_serial (s : State) (die code tag arg arg2 : Nat) : (s.post die code tag arg arg2).serial = s.serial := rfl
@[simp] theorem State.post_uid (s : State) (die code tag arg arg2 : Nat) : (s.post die code tag arg arg2).uid = s.uid := rfl
@[simp] theorem State.post_waves (s : State) (die code tag arg arg2 : Nat) : (s.post die code tag arg arg2).waves = s.waves := rfl
@[simp] theorem State.post_cords (s : State) (die code tag arg arg2 : Nat) : (s.post die code tag arg arg2).cords = s.cords := rfl
@[simp] theorem State.post_ctxs (s : State) (die code tag arg arg2 : Nat) : (s.post die code tag arg arg2).ctxs = s.ctxs := rfl
@[simp] theorem State.post_queues (s : State) (die code tag arg arg2 : Nat) : (s.post die code tag arg arg2).queues = s.queues := rfl
@[simp] theorem State.post_slots (s : State) (die code tag arg arg2 : Nat) : (s.post die code tag arg arg2).slots = s.slots := rfl
@[simp] theorem State.post_recs (s : State) (die code tag arg arg2 : Nat) : (s.post die code tag arg arg2).recs = s.recs := rfl
@[simp] theorem State.post_helds (s : State) (die code tag arg arg2 : Nat) : (s.post die code tag arg arg2).helds = s.helds := rfl
@[simp] theorem State.post_bells (s : State) (die code tag arg arg2 : Nat) : (s.post die code tag arg arg2).bells = s.bells := rfl
@[simp] theorem State.post_wakes (s : State) (die code tag arg arg2 : Nat) : (s.post die code tag arg arg2).wakes = s.wakes := rfl
@[simp] theorem State.post_served (s : State) (die code tag arg arg2 : Nat) : (s.post die code tag arg arg2).served = s.served := rfl
@[simp] theorem State.post_dispP (s : State) (die code tag arg arg2 : Nat) : (s.post die code tag arg arg2).dispP = s.dispP := rfl
@[simp] theorem State.post_mem (s : State) (die code tag arg arg2 : Nat) : (s.post die code tag arg arg2).mem = s.mem := rfl
@[simp] theorem State.post_writes (s : State) (die code tag arg arg2 : Nat) : (s.post die code tag arg arg2).writes = s.writes := rfl
@[simp] theorem State.post_leases (s : State) (die code tag arg arg2 : Nat) : (s.post die code tag arg arg2).leases = s.leases := rfl
@[simp] theorem State.post_l1 (s : State) (die code tag arg arg2 : Nat) : (s.post die code tag arg arg2).l1 = s.l1 := rfl
@[simp] theorem State.post_l2 (s : State) (die code tag arg arg2 : Nat) : (s.post die code tag arg arg2).l2 = s.l2 := rfl
@[simp] theorem State.post_dirty (s : State) (die code tag arg arg2 : Nat) : (s.post die code tag arg arg2).dirty = s.dirty := rfl
@[simp] theorem State.post_tlb (s : State) (die code tag arg arg2 : Nat) : (s.post die code tag arg arg2).tlb = s.tlb := rfl
@[simp] theorem State.post_walks (s : State) (die code tag arg arg2 : Nat) : (s.post die code tag arg arg2).walks = s.walks := rfl
@[simp] theorem State.post_touches (s : State) (die code tag arg arg2 : Nat) : (s.post die code tag arg arg2).touches = s.touches := rfl
@[simp] theorem State.post_icache (s : State) (die code tag arg arg2 : Nat) : (s.post die code tag arg arg2).icache = s.icache := rfl
@[simp] theorem State.post_fills (s : State) (die code tag arg arg2 : Nat) : (s.post die code tag arg arg2).fills = s.fills := rfl
@[simp] theorem State.post_handles (s : State) (die code tag arg arg2 : Nat) : (s.post die code tag arg arg2).handles = s.handles := rfl
@[simp] theorem State.post_pastRoots (s : State) (die code tag arg arg2 : Nat) : (s.post die code tag arg arg2).pastRoots = s.pastRoots := rfl
@[simp] theorem State.post_poison (s : State) (die code tag arg arg2 : Nat) : (s.post die code tag arg arg2).poison = s.poison := rfl
@[simp] theorem State.post_retired (s : State) (die code tag arg arg2 : Nat) : (s.post die code tag arg arg2).retired = s.retired := rfl
@[simp] theorem State.post_flaws (s : State) (die code tag arg arg2 : Nat) : (s.post die code tag arg arg2).flaws = s.flaws := rfl
@[simp] theorem State.post_corrected (s : State) (die code tag arg arg2 : Nat) : (s.post die code tag arg arg2).corrected = s.corrected := rfl
@[simp] theorem State.post_ctxBad (s : State) (die code tag arg arg2 : Nat) : (s.post die code tag arg arg2).ctxBad = s.ctxBad := rfl
@[simp] theorem State.post_faulting (s : State) (die code tag arg arg2 : Nat) : (s.post die code tag arg arg2).faulting = s.faulting := rfl
@[simp] theorem State.post_ranges (s : State) (die code tag arg arg2 : Nat) : (s.post die code tag arg arg2).ranges = s.ranges := rfl
@[simp] theorem State.post_mosFills (s : State) (die code tag arg arg2 : Nat) : (s.post die code tag arg arg2).mosFills = s.mosFills := rfl
@[simp] theorem State.post_mmaOps (s : State) (die code tag arg arg2 : Nat) : (s.post die code tag arg arg2).mmaOps = s.mmaOps := rfl
@[simp] theorem State.post_jobs (s : State) (die code tag arg arg2 : Nat) : (s.post die code tag arg arg2).jobs = s.jobs := rfl
@[simp] theorem State.post_cutWaits (s : State) (die code tag arg arg2 : Nat) : (s.post die code tag arg arg2).cutWaits = s.cutWaits := rfl
@[simp] theorem State.post_hosts (s : State) (die code tag arg arg2 : Nat) : (s.post die code tag arg arg2).hosts = s.hosts := rfl
@[simp] theorem State.post_ports (s : State) (die code tag arg arg2 : Nat) : (s.post die code tag arg arg2).ports = s.ports := rfl
@[simp] theorem State.post_qps (s : State) (die code tag arg arg2 : Nat) : (s.post die code tag arg arg2).qps = s.qps := rfl
@[simp] theorem State.post_heldPkts (s : State) (die code tag arg arg2 : Nat) : (s.post die code tag arg arg2).heldPkts = s.heldPkts := rfl
@[simp] theorem State.post_comms (s : State) (die code tag arg arg2 : Nat) : (s.post die code tag arg arg2).comms = s.comms := rfl
@[simp] theorem State.post_colls (s : State) (die code tag arg arg2 : Nat) : (s.post die code tag arg arg2).colls = s.colls := rfl
@[simp] theorem State.post_harts (s : State) (die code tag arg arg2 : Nat) : (s.post die code tag arg arg2).harts = s.harts := rfl
@[simp] theorem State.post_nkctxtab (s : State) (die code tag arg arg2 : Nat) : (s.post die code tag arg arg2).nkctxtab = s.nkctxtab := rfl
@[simp] theorem State.post_nkqpbase (s : State) (die code tag arg arg2 : Nat) : (s.post die code tag arg arg2).nkqpbase = s.nkqpbase := rfl
@[simp] theorem State.post_nkevt (s : State) (die code tag arg arg2 : Nat) : (s.post die code tag arg arg2).nkevt = s.nkevt := rfl
@[simp] theorem State.post_nkevthart (s : State) (die code tag arg arg2 : Nat) : (s.post die code tag arg arg2).nkevthart = s.nkevthart := rfl
@[simp] theorem State.post_commands (s : State) (die code tag arg arg2 : Nat) : (s.post die code tag arg arg2).commands = s.commands := rfl
@[simp] theorem State.post_invals (s : State) (die code tag arg arg2 : Nat) : (s.post die code tag arg arg2).invals = s.invals := rfl
@[simp] theorem State.post_boot (s : State) (die code tag arg arg2 : Nat) : (s.post die code tag arg arg2).boot = s.boot := rfl
@[simp] theorem State.post_dbgCores (s : State) (die code tag arg arg2 : Nat) : (s.post die code tag arg arg2).dbgCores = s.dbgCores := rfl
@[simp] theorem State.post_dbgDies (s : State) (die code tag arg arg2 : Nat) : (s.post die code tag arg arg2).dbgDies = s.dbgDies := rfl
@[simp] theorem State.post_trial (s : State) (die code tag arg arg2 : Nat) : (s.post die code tag arg arg2).trial = s.trial := rfl
@[simp] theorem State.post_power (s : State) (die code tag arg arg2 : Nat) : (s.post die code tag arg arg2).power = s.power := rfl

/-! ### State.modWrite -/

@[simp] theorem State.modWrite_time (s : State) (id : Nat) (f : Write → Write) : (s.modWrite id f).time = s.time := rfl
@[simp] theorem State.modWrite_frozen (s : State) (id : Nat) (f : Write → Write) : (s.modWrite id f).frozen = s.frozen := rfl
@[simp] theorem State.modWrite_tripped (s : State) (id : Nat) (f : Write → Write) : (s.modWrite id f).tripped = s.tripped := rfl
@[simp] theorem State.modWrite_agenda (s : State) (id : Nat) (f : Write → Write) : (s.modWrite id f).agenda = s.agenda := rfl
@[simp] theorem State.modWrite_tick (s : State) (id : Nat) (f : Write → Write) : (s.modWrite id f).tick = s.tick := rfl
@[simp] theorem State.modWrite_cur (s : State) (id : Nat) (f : Write → Write) : (s.modWrite id f).cur = s.cur := rfl
@[simp] theorem State.modWrite_serial (s : State) (id : Nat) (f : Write → Write) : (s.modWrite id f).serial = s.serial := rfl
@[simp] theorem State.modWrite_uid (s : State) (id : Nat) (f : Write → Write) : (s.modWrite id f).uid = s.uid := rfl
@[simp] theorem State.modWrite_waves (s : State) (id : Nat) (f : Write → Write) : (s.modWrite id f).waves = s.waves := rfl
@[simp] theorem State.modWrite_cords (s : State) (id : Nat) (f : Write → Write) : (s.modWrite id f).cords = s.cords := rfl
@[simp] theorem State.modWrite_ctxs (s : State) (id : Nat) (f : Write → Write) : (s.modWrite id f).ctxs = s.ctxs := rfl
@[simp] theorem State.modWrite_queues (s : State) (id : Nat) (f : Write → Write) : (s.modWrite id f).queues = s.queues := rfl
@[simp] theorem State.modWrite_slots (s : State) (id : Nat) (f : Write → Write) : (s.modWrite id f).slots = s.slots := rfl
@[simp] theorem State.modWrite_recs (s : State) (id : Nat) (f : Write → Write) : (s.modWrite id f).recs = s.recs := rfl
@[simp] theorem State.modWrite_helds (s : State) (id : Nat) (f : Write → Write) : (s.modWrite id f).helds = s.helds := rfl
@[simp] theorem State.modWrite_bells (s : State) (id : Nat) (f : Write → Write) : (s.modWrite id f).bells = s.bells := rfl
@[simp] theorem State.modWrite_wakes (s : State) (id : Nat) (f : Write → Write) : (s.modWrite id f).wakes = s.wakes := rfl
@[simp] theorem State.modWrite_served (s : State) (id : Nat) (f : Write → Write) : (s.modWrite id f).served = s.served := rfl
@[simp] theorem State.modWrite_dispP (s : State) (id : Nat) (f : Write → Write) : (s.modWrite id f).dispP = s.dispP := rfl
@[simp] theorem State.modWrite_mem (s : State) (id : Nat) (f : Write → Write) : (s.modWrite id f).mem = s.mem := rfl
@[simp] theorem State.modWrite_leases (s : State) (id : Nat) (f : Write → Write) : (s.modWrite id f).leases = s.leases := rfl
@[simp] theorem State.modWrite_l1 (s : State) (id : Nat) (f : Write → Write) : (s.modWrite id f).l1 = s.l1 := rfl
@[simp] theorem State.modWrite_l2 (s : State) (id : Nat) (f : Write → Write) : (s.modWrite id f).l2 = s.l2 := rfl
@[simp] theorem State.modWrite_dirty (s : State) (id : Nat) (f : Write → Write) : (s.modWrite id f).dirty = s.dirty := rfl
@[simp] theorem State.modWrite_tlb (s : State) (id : Nat) (f : Write → Write) : (s.modWrite id f).tlb = s.tlb := rfl
@[simp] theorem State.modWrite_walks (s : State) (id : Nat) (f : Write → Write) : (s.modWrite id f).walks = s.walks := rfl
@[simp] theorem State.modWrite_touches (s : State) (id : Nat) (f : Write → Write) : (s.modWrite id f).touches = s.touches := rfl
@[simp] theorem State.modWrite_icache (s : State) (id : Nat) (f : Write → Write) : (s.modWrite id f).icache = s.icache := rfl
@[simp] theorem State.modWrite_fills (s : State) (id : Nat) (f : Write → Write) : (s.modWrite id f).fills = s.fills := rfl
@[simp] theorem State.modWrite_handles (s : State) (id : Nat) (f : Write → Write) : (s.modWrite id f).handles = s.handles := rfl
@[simp] theorem State.modWrite_pastRoots (s : State) (id : Nat) (f : Write → Write) : (s.modWrite id f).pastRoots = s.pastRoots := rfl
@[simp] theorem State.modWrite_poison (s : State) (id : Nat) (f : Write → Write) : (s.modWrite id f).poison = s.poison := rfl
@[simp] theorem State.modWrite_retired (s : State) (id : Nat) (f : Write → Write) : (s.modWrite id f).retired = s.retired := rfl
@[simp] theorem State.modWrite_flaws (s : State) (id : Nat) (f : Write → Write) : (s.modWrite id f).flaws = s.flaws := rfl
@[simp] theorem State.modWrite_corrected (s : State) (id : Nat) (f : Write → Write) : (s.modWrite id f).corrected = s.corrected := rfl
@[simp] theorem State.modWrite_ctxBad (s : State) (id : Nat) (f : Write → Write) : (s.modWrite id f).ctxBad = s.ctxBad := rfl
@[simp] theorem State.modWrite_faulting (s : State) (id : Nat) (f : Write → Write) : (s.modWrite id f).faulting = s.faulting := rfl
@[simp] theorem State.modWrite_ranges (s : State) (id : Nat) (f : Write → Write) : (s.modWrite id f).ranges = s.ranges := rfl
@[simp] theorem State.modWrite_mosFills (s : State) (id : Nat) (f : Write → Write) : (s.modWrite id f).mosFills = s.mosFills := rfl
@[simp] theorem State.modWrite_mmaOps (s : State) (id : Nat) (f : Write → Write) : (s.modWrite id f).mmaOps = s.mmaOps := rfl
@[simp] theorem State.modWrite_jobs (s : State) (id : Nat) (f : Write → Write) : (s.modWrite id f).jobs = s.jobs := rfl
@[simp] theorem State.modWrite_cutWaits (s : State) (id : Nat) (f : Write → Write) : (s.modWrite id f).cutWaits = s.cutWaits := rfl
@[simp] theorem State.modWrite_hosts (s : State) (id : Nat) (f : Write → Write) : (s.modWrite id f).hosts = s.hosts := rfl
@[simp] theorem State.modWrite_ports (s : State) (id : Nat) (f : Write → Write) : (s.modWrite id f).ports = s.ports := rfl
@[simp] theorem State.modWrite_qps (s : State) (id : Nat) (f : Write → Write) : (s.modWrite id f).qps = s.qps := rfl
@[simp] theorem State.modWrite_heldPkts (s : State) (id : Nat) (f : Write → Write) : (s.modWrite id f).heldPkts = s.heldPkts := rfl
@[simp] theorem State.modWrite_comms (s : State) (id : Nat) (f : Write → Write) : (s.modWrite id f).comms = s.comms := rfl
@[simp] theorem State.modWrite_colls (s : State) (id : Nat) (f : Write → Write) : (s.modWrite id f).colls = s.colls := rfl
@[simp] theorem State.modWrite_harts (s : State) (id : Nat) (f : Write → Write) : (s.modWrite id f).harts = s.harts := rfl
@[simp] theorem State.modWrite_nkctxtab (s : State) (id : Nat) (f : Write → Write) : (s.modWrite id f).nkctxtab = s.nkctxtab := rfl
@[simp] theorem State.modWrite_nkqpbase (s : State) (id : Nat) (f : Write → Write) : (s.modWrite id f).nkqpbase = s.nkqpbase := rfl
@[simp] theorem State.modWrite_nkevt (s : State) (id : Nat) (f : Write → Write) : (s.modWrite id f).nkevt = s.nkevt := rfl
@[simp] theorem State.modWrite_nkevthart (s : State) (id : Nat) (f : Write → Write) : (s.modWrite id f).nkevthart = s.nkevthart := rfl
@[simp] theorem State.modWrite_events (s : State) (id : Nat) (f : Write → Write) : (s.modWrite id f).events = s.events := rfl
@[simp] theorem State.modWrite_commands (s : State) (id : Nat) (f : Write → Write) : (s.modWrite id f).commands = s.commands := rfl
@[simp] theorem State.modWrite_invals (s : State) (id : Nat) (f : Write → Write) : (s.modWrite id f).invals = s.invals := rfl
@[simp] theorem State.modWrite_boot (s : State) (id : Nat) (f : Write → Write) : (s.modWrite id f).boot = s.boot := rfl
@[simp] theorem State.modWrite_dbgCores (s : State) (id : Nat) (f : Write → Write) : (s.modWrite id f).dbgCores = s.dbgCores := rfl
@[simp] theorem State.modWrite_dbgDies (s : State) (id : Nat) (f : Write → Write) : (s.modWrite id f).dbgDies = s.dbgDies := rfl
@[simp] theorem State.modWrite_trial (s : State) (id : Nat) (f : Write → Write) : (s.modWrite id f).trial = s.trial := rfl
@[simp] theorem State.modWrite_power (s : State) (id : Nat) (f : Write → Write) : (s.modWrite id f).power = s.power := rfl

/-! ### State.modHart -/

@[simp] theorem State.modHart_time (s : State) (h : Nat) (f : Hart → Hart) : (s.modHart h f).time = s.time := rfl
@[simp] theorem State.modHart_frozen (s : State) (h : Nat) (f : Hart → Hart) : (s.modHart h f).frozen = s.frozen := rfl
@[simp] theorem State.modHart_tripped (s : State) (h : Nat) (f : Hart → Hart) : (s.modHart h f).tripped = s.tripped := rfl
@[simp] theorem State.modHart_agenda (s : State) (h : Nat) (f : Hart → Hart) : (s.modHart h f).agenda = s.agenda := rfl
@[simp] theorem State.modHart_tick (s : State) (h : Nat) (f : Hart → Hart) : (s.modHart h f).tick = s.tick := rfl
@[simp] theorem State.modHart_cur (s : State) (h : Nat) (f : Hart → Hart) : (s.modHart h f).cur = s.cur := rfl
@[simp] theorem State.modHart_serial (s : State) (h : Nat) (f : Hart → Hart) : (s.modHart h f).serial = s.serial := rfl
@[simp] theorem State.modHart_uid (s : State) (h : Nat) (f : Hart → Hart) : (s.modHart h f).uid = s.uid := rfl
@[simp] theorem State.modHart_waves (s : State) (h : Nat) (f : Hart → Hart) : (s.modHart h f).waves = s.waves := rfl
@[simp] theorem State.modHart_cords (s : State) (h : Nat) (f : Hart → Hart) : (s.modHart h f).cords = s.cords := rfl
@[simp] theorem State.modHart_ctxs (s : State) (h : Nat) (f : Hart → Hart) : (s.modHart h f).ctxs = s.ctxs := rfl
@[simp] theorem State.modHart_queues (s : State) (h : Nat) (f : Hart → Hart) : (s.modHart h f).queues = s.queues := rfl
@[simp] theorem State.modHart_slots (s : State) (h : Nat) (f : Hart → Hart) : (s.modHart h f).slots = s.slots := rfl
@[simp] theorem State.modHart_recs (s : State) (h : Nat) (f : Hart → Hart) : (s.modHart h f).recs = s.recs := rfl
@[simp] theorem State.modHart_helds (s : State) (h : Nat) (f : Hart → Hart) : (s.modHart h f).helds = s.helds := rfl
@[simp] theorem State.modHart_bells (s : State) (h : Nat) (f : Hart → Hart) : (s.modHart h f).bells = s.bells := rfl
@[simp] theorem State.modHart_wakes (s : State) (h : Nat) (f : Hart → Hart) : (s.modHart h f).wakes = s.wakes := rfl
@[simp] theorem State.modHart_served (s : State) (h : Nat) (f : Hart → Hart) : (s.modHart h f).served = s.served := rfl
@[simp] theorem State.modHart_dispP (s : State) (h : Nat) (f : Hart → Hart) : (s.modHart h f).dispP = s.dispP := rfl
@[simp] theorem State.modHart_mem (s : State) (h : Nat) (f : Hart → Hart) : (s.modHart h f).mem = s.mem := rfl
@[simp] theorem State.modHart_writes (s : State) (h : Nat) (f : Hart → Hart) : (s.modHart h f).writes = s.writes := rfl
@[simp] theorem State.modHart_leases (s : State) (h : Nat) (f : Hart → Hart) : (s.modHart h f).leases = s.leases := rfl
@[simp] theorem State.modHart_l1 (s : State) (h : Nat) (f : Hart → Hart) : (s.modHart h f).l1 = s.l1 := rfl
@[simp] theorem State.modHart_l2 (s : State) (h : Nat) (f : Hart → Hart) : (s.modHart h f).l2 = s.l2 := rfl
@[simp] theorem State.modHart_dirty (s : State) (h : Nat) (f : Hart → Hart) : (s.modHart h f).dirty = s.dirty := rfl
@[simp] theorem State.modHart_tlb (s : State) (h : Nat) (f : Hart → Hart) : (s.modHart h f).tlb = s.tlb := rfl
@[simp] theorem State.modHart_walks (s : State) (h : Nat) (f : Hart → Hart) : (s.modHart h f).walks = s.walks := rfl
@[simp] theorem State.modHart_touches (s : State) (h : Nat) (f : Hart → Hart) : (s.modHart h f).touches = s.touches := rfl
@[simp] theorem State.modHart_icache (s : State) (h : Nat) (f : Hart → Hart) : (s.modHart h f).icache = s.icache := rfl
@[simp] theorem State.modHart_fills (s : State) (h : Nat) (f : Hart → Hart) : (s.modHart h f).fills = s.fills := rfl
@[simp] theorem State.modHart_handles (s : State) (h : Nat) (f : Hart → Hart) : (s.modHart h f).handles = s.handles := rfl
@[simp] theorem State.modHart_pastRoots (s : State) (h : Nat) (f : Hart → Hart) : (s.modHart h f).pastRoots = s.pastRoots := rfl
@[simp] theorem State.modHart_poison (s : State) (h : Nat) (f : Hart → Hart) : (s.modHart h f).poison = s.poison := rfl
@[simp] theorem State.modHart_retired (s : State) (h : Nat) (f : Hart → Hart) : (s.modHart h f).retired = s.retired := rfl
@[simp] theorem State.modHart_flaws (s : State) (h : Nat) (f : Hart → Hart) : (s.modHart h f).flaws = s.flaws := rfl
@[simp] theorem State.modHart_corrected (s : State) (h : Nat) (f : Hart → Hart) : (s.modHart h f).corrected = s.corrected := rfl
@[simp] theorem State.modHart_ctxBad (s : State) (h : Nat) (f : Hart → Hart) : (s.modHart h f).ctxBad = s.ctxBad := rfl
@[simp] theorem State.modHart_faulting (s : State) (h : Nat) (f : Hart → Hart) : (s.modHart h f).faulting = s.faulting := rfl
@[simp] theorem State.modHart_ranges (s : State) (h : Nat) (f : Hart → Hart) : (s.modHart h f).ranges = s.ranges := rfl
@[simp] theorem State.modHart_mosFills (s : State) (h : Nat) (f : Hart → Hart) : (s.modHart h f).mosFills = s.mosFills := rfl
@[simp] theorem State.modHart_mmaOps (s : State) (h : Nat) (f : Hart → Hart) : (s.modHart h f).mmaOps = s.mmaOps := rfl
@[simp] theorem State.modHart_jobs (s : State) (h : Nat) (f : Hart → Hart) : (s.modHart h f).jobs = s.jobs := rfl
@[simp] theorem State.modHart_cutWaits (s : State) (h : Nat) (f : Hart → Hart) : (s.modHart h f).cutWaits = s.cutWaits := rfl
@[simp] theorem State.modHart_hosts (s : State) (h : Nat) (f : Hart → Hart) : (s.modHart h f).hosts = s.hosts := rfl
@[simp] theorem State.modHart_ports (s : State) (h : Nat) (f : Hart → Hart) : (s.modHart h f).ports = s.ports := rfl
@[simp] theorem State.modHart_qps (s : State) (h : Nat) (f : Hart → Hart) : (s.modHart h f).qps = s.qps := rfl
@[simp] theorem State.modHart_heldPkts (s : State) (h : Nat) (f : Hart → Hart) : (s.modHart h f).heldPkts = s.heldPkts := rfl
@[simp] theorem State.modHart_comms (s : State) (h : Nat) (f : Hart → Hart) : (s.modHart h f).comms = s.comms := rfl
@[simp] theorem State.modHart_colls (s : State) (h : Nat) (f : Hart → Hart) : (s.modHart h f).colls = s.colls := rfl
@[simp] theorem State.modHart_nkctxtab (s : State) (h : Nat) (f : Hart → Hart) : (s.modHart h f).nkctxtab = s.nkctxtab := rfl
@[simp] theorem State.modHart_nkqpbase (s : State) (h : Nat) (f : Hart → Hart) : (s.modHart h f).nkqpbase = s.nkqpbase := rfl
@[simp] theorem State.modHart_nkevt (s : State) (h : Nat) (f : Hart → Hart) : (s.modHart h f).nkevt = s.nkevt := rfl
@[simp] theorem State.modHart_nkevthart (s : State) (h : Nat) (f : Hart → Hart) : (s.modHart h f).nkevthart = s.nkevthart := rfl
@[simp] theorem State.modHart_events (s : State) (h : Nat) (f : Hart → Hart) : (s.modHart h f).events = s.events := rfl
@[simp] theorem State.modHart_commands (s : State) (h : Nat) (f : Hart → Hart) : (s.modHart h f).commands = s.commands := rfl
@[simp] theorem State.modHart_invals (s : State) (h : Nat) (f : Hart → Hart) : (s.modHart h f).invals = s.invals := rfl
@[simp] theorem State.modHart_boot (s : State) (h : Nat) (f : Hart → Hart) : (s.modHart h f).boot = s.boot := rfl
@[simp] theorem State.modHart_dbgCores (s : State) (h : Nat) (f : Hart → Hart) : (s.modHart h f).dbgCores = s.dbgCores := rfl
@[simp] theorem State.modHart_dbgDies (s : State) (h : Nat) (f : Hart → Hart) : (s.modHart h f).dbgDies = s.dbgDies := rfl
@[simp] theorem State.modHart_trial (s : State) (h : Nat) (f : Hart → Hart) : (s.modHart h f).trial = s.trial := rfl
@[simp] theorem State.modHart_power (s : State) (h : Nat) (f : Hart → Hart) : (s.modHart h f).power = s.power := rfl

/-! ### State.modRec -/

@[simp] theorem State.modRec_time (s : State) (uid : Nat) (f : Rec → Rec) : (s.modRec uid f).time = s.time := rfl
@[simp] theorem State.modRec_frozen (s : State) (uid : Nat) (f : Rec → Rec) : (s.modRec uid f).frozen = s.frozen := rfl
@[simp] theorem State.modRec_tripped (s : State) (uid : Nat) (f : Rec → Rec) : (s.modRec uid f).tripped = s.tripped := rfl
@[simp] theorem State.modRec_agenda (s : State) (uid : Nat) (f : Rec → Rec) : (s.modRec uid f).agenda = s.agenda := rfl
@[simp] theorem State.modRec_tick (s : State) (uid : Nat) (f : Rec → Rec) : (s.modRec uid f).tick = s.tick := rfl
@[simp] theorem State.modRec_cur (s : State) (uid : Nat) (f : Rec → Rec) : (s.modRec uid f).cur = s.cur := rfl
@[simp] theorem State.modRec_serial (s : State) (uid : Nat) (f : Rec → Rec) : (s.modRec uid f).serial = s.serial := rfl
@[simp] theorem State.modRec_uid (s : State) (uid : Nat) (f : Rec → Rec) : (s.modRec uid f).uid = s.uid := rfl
@[simp] theorem State.modRec_waves (s : State) (uid : Nat) (f : Rec → Rec) : (s.modRec uid f).waves = s.waves := rfl
@[simp] theorem State.modRec_cords (s : State) (uid : Nat) (f : Rec → Rec) : (s.modRec uid f).cords = s.cords := rfl
@[simp] theorem State.modRec_ctxs (s : State) (uid : Nat) (f : Rec → Rec) : (s.modRec uid f).ctxs = s.ctxs := rfl
@[simp] theorem State.modRec_queues (s : State) (uid : Nat) (f : Rec → Rec) : (s.modRec uid f).queues = s.queues := rfl
@[simp] theorem State.modRec_slots (s : State) (uid : Nat) (f : Rec → Rec) : (s.modRec uid f).slots = s.slots := rfl
@[simp] theorem State.modRec_helds (s : State) (uid : Nat) (f : Rec → Rec) : (s.modRec uid f).helds = s.helds := rfl
@[simp] theorem State.modRec_bells (s : State) (uid : Nat) (f : Rec → Rec) : (s.modRec uid f).bells = s.bells := rfl
@[simp] theorem State.modRec_wakes (s : State) (uid : Nat) (f : Rec → Rec) : (s.modRec uid f).wakes = s.wakes := rfl
@[simp] theorem State.modRec_served (s : State) (uid : Nat) (f : Rec → Rec) : (s.modRec uid f).served = s.served := rfl
@[simp] theorem State.modRec_dispP (s : State) (uid : Nat) (f : Rec → Rec) : (s.modRec uid f).dispP = s.dispP := rfl
@[simp] theorem State.modRec_mem (s : State) (uid : Nat) (f : Rec → Rec) : (s.modRec uid f).mem = s.mem := rfl
@[simp] theorem State.modRec_writes (s : State) (uid : Nat) (f : Rec → Rec) : (s.modRec uid f).writes = s.writes := rfl
@[simp] theorem State.modRec_leases (s : State) (uid : Nat) (f : Rec → Rec) : (s.modRec uid f).leases = s.leases := rfl
@[simp] theorem State.modRec_l1 (s : State) (uid : Nat) (f : Rec → Rec) : (s.modRec uid f).l1 = s.l1 := rfl
@[simp] theorem State.modRec_l2 (s : State) (uid : Nat) (f : Rec → Rec) : (s.modRec uid f).l2 = s.l2 := rfl
@[simp] theorem State.modRec_dirty (s : State) (uid : Nat) (f : Rec → Rec) : (s.modRec uid f).dirty = s.dirty := rfl
@[simp] theorem State.modRec_tlb (s : State) (uid : Nat) (f : Rec → Rec) : (s.modRec uid f).tlb = s.tlb := rfl
@[simp] theorem State.modRec_walks (s : State) (uid : Nat) (f : Rec → Rec) : (s.modRec uid f).walks = s.walks := rfl
@[simp] theorem State.modRec_touches (s : State) (uid : Nat) (f : Rec → Rec) : (s.modRec uid f).touches = s.touches := rfl
@[simp] theorem State.modRec_icache (s : State) (uid : Nat) (f : Rec → Rec) : (s.modRec uid f).icache = s.icache := rfl
@[simp] theorem State.modRec_fills (s : State) (uid : Nat) (f : Rec → Rec) : (s.modRec uid f).fills = s.fills := rfl
@[simp] theorem State.modRec_handles (s : State) (uid : Nat) (f : Rec → Rec) : (s.modRec uid f).handles = s.handles := rfl
@[simp] theorem State.modRec_pastRoots (s : State) (uid : Nat) (f : Rec → Rec) : (s.modRec uid f).pastRoots = s.pastRoots := rfl
@[simp] theorem State.modRec_poison (s : State) (uid : Nat) (f : Rec → Rec) : (s.modRec uid f).poison = s.poison := rfl
@[simp] theorem State.modRec_retired (s : State) (uid : Nat) (f : Rec → Rec) : (s.modRec uid f).retired = s.retired := rfl
@[simp] theorem State.modRec_flaws (s : State) (uid : Nat) (f : Rec → Rec) : (s.modRec uid f).flaws = s.flaws := rfl
@[simp] theorem State.modRec_corrected (s : State) (uid : Nat) (f : Rec → Rec) : (s.modRec uid f).corrected = s.corrected := rfl
@[simp] theorem State.modRec_ctxBad (s : State) (uid : Nat) (f : Rec → Rec) : (s.modRec uid f).ctxBad = s.ctxBad := rfl
@[simp] theorem State.modRec_faulting (s : State) (uid : Nat) (f : Rec → Rec) : (s.modRec uid f).faulting = s.faulting := rfl
@[simp] theorem State.modRec_ranges (s : State) (uid : Nat) (f : Rec → Rec) : (s.modRec uid f).ranges = s.ranges := rfl
@[simp] theorem State.modRec_mosFills (s : State) (uid : Nat) (f : Rec → Rec) : (s.modRec uid f).mosFills = s.mosFills := rfl
@[simp] theorem State.modRec_mmaOps (s : State) (uid : Nat) (f : Rec → Rec) : (s.modRec uid f).mmaOps = s.mmaOps := rfl
@[simp] theorem State.modRec_jobs (s : State) (uid : Nat) (f : Rec → Rec) : (s.modRec uid f).jobs = s.jobs := rfl
@[simp] theorem State.modRec_cutWaits (s : State) (uid : Nat) (f : Rec → Rec) : (s.modRec uid f).cutWaits = s.cutWaits := rfl
@[simp] theorem State.modRec_hosts (s : State) (uid : Nat) (f : Rec → Rec) : (s.modRec uid f).hosts = s.hosts := rfl
@[simp] theorem State.modRec_ports (s : State) (uid : Nat) (f : Rec → Rec) : (s.modRec uid f).ports = s.ports := rfl
@[simp] theorem State.modRec_qps (s : State) (uid : Nat) (f : Rec → Rec) : (s.modRec uid f).qps = s.qps := rfl
@[simp] theorem State.modRec_heldPkts (s : State) (uid : Nat) (f : Rec → Rec) : (s.modRec uid f).heldPkts = s.heldPkts := rfl
@[simp] theorem State.modRec_comms (s : State) (uid : Nat) (f : Rec → Rec) : (s.modRec uid f).comms = s.comms := rfl
@[simp] theorem State.modRec_colls (s : State) (uid : Nat) (f : Rec → Rec) : (s.modRec uid f).colls = s.colls := rfl
@[simp] theorem State.modRec_harts (s : State) (uid : Nat) (f : Rec → Rec) : (s.modRec uid f).harts = s.harts := rfl
@[simp] theorem State.modRec_nkctxtab (s : State) (uid : Nat) (f : Rec → Rec) : (s.modRec uid f).nkctxtab = s.nkctxtab := rfl
@[simp] theorem State.modRec_nkqpbase (s : State) (uid : Nat) (f : Rec → Rec) : (s.modRec uid f).nkqpbase = s.nkqpbase := rfl
@[simp] theorem State.modRec_nkevt (s : State) (uid : Nat) (f : Rec → Rec) : (s.modRec uid f).nkevt = s.nkevt := rfl
@[simp] theorem State.modRec_nkevthart (s : State) (uid : Nat) (f : Rec → Rec) : (s.modRec uid f).nkevthart = s.nkevthart := rfl
@[simp] theorem State.modRec_events (s : State) (uid : Nat) (f : Rec → Rec) : (s.modRec uid f).events = s.events := rfl
@[simp] theorem State.modRec_commands (s : State) (uid : Nat) (f : Rec → Rec) : (s.modRec uid f).commands = s.commands := rfl
@[simp] theorem State.modRec_invals (s : State) (uid : Nat) (f : Rec → Rec) : (s.modRec uid f).invals = s.invals := rfl
@[simp] theorem State.modRec_boot (s : State) (uid : Nat) (f : Rec → Rec) : (s.modRec uid f).boot = s.boot := rfl
@[simp] theorem State.modRec_dbgCores (s : State) (uid : Nat) (f : Rec → Rec) : (s.modRec uid f).dbgCores = s.dbgCores := rfl
@[simp] theorem State.modRec_dbgDies (s : State) (uid : Nat) (f : Rec → Rec) : (s.modRec uid f).dbgDies = s.dbgDies := rfl
@[simp] theorem State.modRec_trial (s : State) (uid : Nat) (f : Rec → Rec) : (s.modRec uid f).trial = s.trial := rfl
@[simp] theorem State.modRec_power (s : State) (uid : Nat) (f : Rec → Rec) : (s.modRec uid f).power = s.power := rfl

/-! ### State.modRange -/

@[simp] theorem State.modRange_time (s : State) (r : MosRange) (f : MosRange → MosRange) : (s.modRange r f).time = s.time := rfl
@[simp] theorem State.modRange_frozen (s : State) (r : MosRange) (f : MosRange → MosRange) : (s.modRange r f).frozen = s.frozen := rfl
@[simp] theorem State.modRange_tripped (s : State) (r : MosRange) (f : MosRange → MosRange) : (s.modRange r f).tripped = s.tripped := rfl
@[simp] theorem State.modRange_agenda (s : State) (r : MosRange) (f : MosRange → MosRange) : (s.modRange r f).agenda = s.agenda := rfl
@[simp] theorem State.modRange_tick (s : State) (r : MosRange) (f : MosRange → MosRange) : (s.modRange r f).tick = s.tick := rfl
@[simp] theorem State.modRange_cur (s : State) (r : MosRange) (f : MosRange → MosRange) : (s.modRange r f).cur = s.cur := rfl
@[simp] theorem State.modRange_serial (s : State) (r : MosRange) (f : MosRange → MosRange) : (s.modRange r f).serial = s.serial := rfl
@[simp] theorem State.modRange_uid (s : State) (r : MosRange) (f : MosRange → MosRange) : (s.modRange r f).uid = s.uid := rfl
@[simp] theorem State.modRange_waves (s : State) (r : MosRange) (f : MosRange → MosRange) : (s.modRange r f).waves = s.waves := rfl
@[simp] theorem State.modRange_cords (s : State) (r : MosRange) (f : MosRange → MosRange) : (s.modRange r f).cords = s.cords := rfl
@[simp] theorem State.modRange_ctxs (s : State) (r : MosRange) (f : MosRange → MosRange) : (s.modRange r f).ctxs = s.ctxs := rfl
@[simp] theorem State.modRange_queues (s : State) (r : MosRange) (f : MosRange → MosRange) : (s.modRange r f).queues = s.queues := rfl
@[simp] theorem State.modRange_slots (s : State) (r : MosRange) (f : MosRange → MosRange) : (s.modRange r f).slots = s.slots := rfl
@[simp] theorem State.modRange_recs (s : State) (r : MosRange) (f : MosRange → MosRange) : (s.modRange r f).recs = s.recs := rfl
@[simp] theorem State.modRange_helds (s : State) (r : MosRange) (f : MosRange → MosRange) : (s.modRange r f).helds = s.helds := rfl
@[simp] theorem State.modRange_bells (s : State) (r : MosRange) (f : MosRange → MosRange) : (s.modRange r f).bells = s.bells := rfl
@[simp] theorem State.modRange_wakes (s : State) (r : MosRange) (f : MosRange → MosRange) : (s.modRange r f).wakes = s.wakes := rfl
@[simp] theorem State.modRange_served (s : State) (r : MosRange) (f : MosRange → MosRange) : (s.modRange r f).served = s.served := rfl
@[simp] theorem State.modRange_dispP (s : State) (r : MosRange) (f : MosRange → MosRange) : (s.modRange r f).dispP = s.dispP := rfl
@[simp] theorem State.modRange_mem (s : State) (r : MosRange) (f : MosRange → MosRange) : (s.modRange r f).mem = s.mem := rfl
@[simp] theorem State.modRange_writes (s : State) (r : MosRange) (f : MosRange → MosRange) : (s.modRange r f).writes = s.writes := rfl
@[simp] theorem State.modRange_leases (s : State) (r : MosRange) (f : MosRange → MosRange) : (s.modRange r f).leases = s.leases := rfl
@[simp] theorem State.modRange_l1 (s : State) (r : MosRange) (f : MosRange → MosRange) : (s.modRange r f).l1 = s.l1 := rfl
@[simp] theorem State.modRange_l2 (s : State) (r : MosRange) (f : MosRange → MosRange) : (s.modRange r f).l2 = s.l2 := rfl
@[simp] theorem State.modRange_dirty (s : State) (r : MosRange) (f : MosRange → MosRange) : (s.modRange r f).dirty = s.dirty := rfl
@[simp] theorem State.modRange_tlb (s : State) (r : MosRange) (f : MosRange → MosRange) : (s.modRange r f).tlb = s.tlb := rfl
@[simp] theorem State.modRange_walks (s : State) (r : MosRange) (f : MosRange → MosRange) : (s.modRange r f).walks = s.walks := rfl
@[simp] theorem State.modRange_touches (s : State) (r : MosRange) (f : MosRange → MosRange) : (s.modRange r f).touches = s.touches := rfl
@[simp] theorem State.modRange_icache (s : State) (r : MosRange) (f : MosRange → MosRange) : (s.modRange r f).icache = s.icache := rfl
@[simp] theorem State.modRange_fills (s : State) (r : MosRange) (f : MosRange → MosRange) : (s.modRange r f).fills = s.fills := rfl
@[simp] theorem State.modRange_handles (s : State) (r : MosRange) (f : MosRange → MosRange) : (s.modRange r f).handles = s.handles := rfl
@[simp] theorem State.modRange_pastRoots (s : State) (r : MosRange) (f : MosRange → MosRange) : (s.modRange r f).pastRoots = s.pastRoots := rfl
@[simp] theorem State.modRange_poison (s : State) (r : MosRange) (f : MosRange → MosRange) : (s.modRange r f).poison = s.poison := rfl
@[simp] theorem State.modRange_retired (s : State) (r : MosRange) (f : MosRange → MosRange) : (s.modRange r f).retired = s.retired := rfl
@[simp] theorem State.modRange_flaws (s : State) (r : MosRange) (f : MosRange → MosRange) : (s.modRange r f).flaws = s.flaws := rfl
@[simp] theorem State.modRange_corrected (s : State) (r : MosRange) (f : MosRange → MosRange) : (s.modRange r f).corrected = s.corrected := rfl
@[simp] theorem State.modRange_ctxBad (s : State) (r : MosRange) (f : MosRange → MosRange) : (s.modRange r f).ctxBad = s.ctxBad := rfl
@[simp] theorem State.modRange_faulting (s : State) (r : MosRange) (f : MosRange → MosRange) : (s.modRange r f).faulting = s.faulting := rfl
@[simp] theorem State.modRange_mosFills (s : State) (r : MosRange) (f : MosRange → MosRange) : (s.modRange r f).mosFills = s.mosFills := rfl
@[simp] theorem State.modRange_mmaOps (s : State) (r : MosRange) (f : MosRange → MosRange) : (s.modRange r f).mmaOps = s.mmaOps := rfl
@[simp] theorem State.modRange_jobs (s : State) (r : MosRange) (f : MosRange → MosRange) : (s.modRange r f).jobs = s.jobs := rfl
@[simp] theorem State.modRange_cutWaits (s : State) (r : MosRange) (f : MosRange → MosRange) : (s.modRange r f).cutWaits = s.cutWaits := rfl
@[simp] theorem State.modRange_hosts (s : State) (r : MosRange) (f : MosRange → MosRange) : (s.modRange r f).hosts = s.hosts := rfl
@[simp] theorem State.modRange_ports (s : State) (r : MosRange) (f : MosRange → MosRange) : (s.modRange r f).ports = s.ports := rfl
@[simp] theorem State.modRange_qps (s : State) (r : MosRange) (f : MosRange → MosRange) : (s.modRange r f).qps = s.qps := rfl
@[simp] theorem State.modRange_heldPkts (s : State) (r : MosRange) (f : MosRange → MosRange) : (s.modRange r f).heldPkts = s.heldPkts := rfl
@[simp] theorem State.modRange_comms (s : State) (r : MosRange) (f : MosRange → MosRange) : (s.modRange r f).comms = s.comms := rfl
@[simp] theorem State.modRange_colls (s : State) (r : MosRange) (f : MosRange → MosRange) : (s.modRange r f).colls = s.colls := rfl
@[simp] theorem State.modRange_harts (s : State) (r : MosRange) (f : MosRange → MosRange) : (s.modRange r f).harts = s.harts := rfl
@[simp] theorem State.modRange_nkctxtab (s : State) (r : MosRange) (f : MosRange → MosRange) : (s.modRange r f).nkctxtab = s.nkctxtab := rfl
@[simp] theorem State.modRange_nkqpbase (s : State) (r : MosRange) (f : MosRange → MosRange) : (s.modRange r f).nkqpbase = s.nkqpbase := rfl
@[simp] theorem State.modRange_nkevt (s : State) (r : MosRange) (f : MosRange → MosRange) : (s.modRange r f).nkevt = s.nkevt := rfl
@[simp] theorem State.modRange_nkevthart (s : State) (r : MosRange) (f : MosRange → MosRange) : (s.modRange r f).nkevthart = s.nkevthart := rfl
@[simp] theorem State.modRange_events (s : State) (r : MosRange) (f : MosRange → MosRange) : (s.modRange r f).events = s.events := rfl
@[simp] theorem State.modRange_commands (s : State) (r : MosRange) (f : MosRange → MosRange) : (s.modRange r f).commands = s.commands := rfl
@[simp] theorem State.modRange_invals (s : State) (r : MosRange) (f : MosRange → MosRange) : (s.modRange r f).invals = s.invals := rfl
@[simp] theorem State.modRange_boot (s : State) (r : MosRange) (f : MosRange → MosRange) : (s.modRange r f).boot = s.boot := rfl
@[simp] theorem State.modRange_dbgCores (s : State) (r : MosRange) (f : MosRange → MosRange) : (s.modRange r f).dbgCores = s.dbgCores := rfl
@[simp] theorem State.modRange_dbgDies (s : State) (r : MosRange) (f : MosRange → MosRange) : (s.modRange r f).dbgDies = s.dbgDies := rfl
@[simp] theorem State.modRange_trial (s : State) (r : MosRange) (f : MosRange → MosRange) : (s.modRange r f).trial = s.trial := rfl
@[simp] theorem State.modRange_power (s : State) (r : MosRange) (f : MosRange → MosRange) : (s.modRange r f).power = s.power := rfl

/-! ### State.fillBlock -/

@[simp] theorem State.fillBlock_time (s : State) (core tag : Nat) (va : Word64) (bs : List Byte) (sup : Bool) : (s.fillBlock core tag va bs sup).time = s.time := rfl
@[simp] theorem State.fillBlock_frozen (s : State) (core tag : Nat) (va : Word64) (bs : List Byte) (sup : Bool) : (s.fillBlock core tag va bs sup).frozen = s.frozen := rfl
@[simp] theorem State.fillBlock_tripped (s : State) (core tag : Nat) (va : Word64) (bs : List Byte) (sup : Bool) : (s.fillBlock core tag va bs sup).tripped = s.tripped := rfl
@[simp] theorem State.fillBlock_agenda (s : State) (core tag : Nat) (va : Word64) (bs : List Byte) (sup : Bool) : (s.fillBlock core tag va bs sup).agenda = s.agenda := rfl
@[simp] theorem State.fillBlock_tick (s : State) (core tag : Nat) (va : Word64) (bs : List Byte) (sup : Bool) : (s.fillBlock core tag va bs sup).tick = s.tick := rfl
@[simp] theorem State.fillBlock_cur (s : State) (core tag : Nat) (va : Word64) (bs : List Byte) (sup : Bool) : (s.fillBlock core tag va bs sup).cur = s.cur := rfl
@[simp] theorem State.fillBlock_serial (s : State) (core tag : Nat) (va : Word64) (bs : List Byte) (sup : Bool) : (s.fillBlock core tag va bs sup).serial = s.serial := rfl
@[simp] theorem State.fillBlock_uid (s : State) (core tag : Nat) (va : Word64) (bs : List Byte) (sup : Bool) : (s.fillBlock core tag va bs sup).uid = s.uid := rfl
@[simp] theorem State.fillBlock_waves (s : State) (core tag : Nat) (va : Word64) (bs : List Byte) (sup : Bool) : (s.fillBlock core tag va bs sup).waves = s.waves := rfl
@[simp] theorem State.fillBlock_cords (s : State) (core tag : Nat) (va : Word64) (bs : List Byte) (sup : Bool) : (s.fillBlock core tag va bs sup).cords = s.cords := rfl
@[simp] theorem State.fillBlock_ctxs (s : State) (core tag : Nat) (va : Word64) (bs : List Byte) (sup : Bool) : (s.fillBlock core tag va bs sup).ctxs = s.ctxs := rfl
@[simp] theorem State.fillBlock_queues (s : State) (core tag : Nat) (va : Word64) (bs : List Byte) (sup : Bool) : (s.fillBlock core tag va bs sup).queues = s.queues := rfl
@[simp] theorem State.fillBlock_slots (s : State) (core tag : Nat) (va : Word64) (bs : List Byte) (sup : Bool) : (s.fillBlock core tag va bs sup).slots = s.slots := rfl
@[simp] theorem State.fillBlock_recs (s : State) (core tag : Nat) (va : Word64) (bs : List Byte) (sup : Bool) : (s.fillBlock core tag va bs sup).recs = s.recs := rfl
@[simp] theorem State.fillBlock_helds (s : State) (core tag : Nat) (va : Word64) (bs : List Byte) (sup : Bool) : (s.fillBlock core tag va bs sup).helds = s.helds := rfl
@[simp] theorem State.fillBlock_bells (s : State) (core tag : Nat) (va : Word64) (bs : List Byte) (sup : Bool) : (s.fillBlock core tag va bs sup).bells = s.bells := rfl
@[simp] theorem State.fillBlock_wakes (s : State) (core tag : Nat) (va : Word64) (bs : List Byte) (sup : Bool) : (s.fillBlock core tag va bs sup).wakes = s.wakes := rfl
@[simp] theorem State.fillBlock_served (s : State) (core tag : Nat) (va : Word64) (bs : List Byte) (sup : Bool) : (s.fillBlock core tag va bs sup).served = s.served := rfl
@[simp] theorem State.fillBlock_dispP (s : State) (core tag : Nat) (va : Word64) (bs : List Byte) (sup : Bool) : (s.fillBlock core tag va bs sup).dispP = s.dispP := rfl
@[simp] theorem State.fillBlock_mem (s : State) (core tag : Nat) (va : Word64) (bs : List Byte) (sup : Bool) : (s.fillBlock core tag va bs sup).mem = s.mem := rfl
@[simp] theorem State.fillBlock_writes (s : State) (core tag : Nat) (va : Word64) (bs : List Byte) (sup : Bool) : (s.fillBlock core tag va bs sup).writes = s.writes := rfl
@[simp] theorem State.fillBlock_leases (s : State) (core tag : Nat) (va : Word64) (bs : List Byte) (sup : Bool) : (s.fillBlock core tag va bs sup).leases = s.leases := rfl
@[simp] theorem State.fillBlock_l1 (s : State) (core tag : Nat) (va : Word64) (bs : List Byte) (sup : Bool) : (s.fillBlock core tag va bs sup).l1 = s.l1 := rfl
@[simp] theorem State.fillBlock_l2 (s : State) (core tag : Nat) (va : Word64) (bs : List Byte) (sup : Bool) : (s.fillBlock core tag va bs sup).l2 = s.l2 := rfl
@[simp] theorem State.fillBlock_dirty (s : State) (core tag : Nat) (va : Word64) (bs : List Byte) (sup : Bool) : (s.fillBlock core tag va bs sup).dirty = s.dirty := rfl
@[simp] theorem State.fillBlock_tlb (s : State) (core tag : Nat) (va : Word64) (bs : List Byte) (sup : Bool) : (s.fillBlock core tag va bs sup).tlb = s.tlb := rfl
@[simp] theorem State.fillBlock_walks (s : State) (core tag : Nat) (va : Word64) (bs : List Byte) (sup : Bool) : (s.fillBlock core tag va bs sup).walks = s.walks := rfl
@[simp] theorem State.fillBlock_touches (s : State) (core tag : Nat) (va : Word64) (bs : List Byte) (sup : Bool) : (s.fillBlock core tag va bs sup).touches = s.touches := rfl
@[simp] theorem State.fillBlock_fills (s : State) (core tag : Nat) (va : Word64) (bs : List Byte) (sup : Bool) : (s.fillBlock core tag va bs sup).fills = s.fills := rfl
@[simp] theorem State.fillBlock_handles (s : State) (core tag : Nat) (va : Word64) (bs : List Byte) (sup : Bool) : (s.fillBlock core tag va bs sup).handles = s.handles := rfl
@[simp] theorem State.fillBlock_pastRoots (s : State) (core tag : Nat) (va : Word64) (bs : List Byte) (sup : Bool) : (s.fillBlock core tag va bs sup).pastRoots = s.pastRoots := rfl
@[simp] theorem State.fillBlock_poison (s : State) (core tag : Nat) (va : Word64) (bs : List Byte) (sup : Bool) : (s.fillBlock core tag va bs sup).poison = s.poison := rfl
@[simp] theorem State.fillBlock_retired (s : State) (core tag : Nat) (va : Word64) (bs : List Byte) (sup : Bool) : (s.fillBlock core tag va bs sup).retired = s.retired := rfl
@[simp] theorem State.fillBlock_flaws (s : State) (core tag : Nat) (va : Word64) (bs : List Byte) (sup : Bool) : (s.fillBlock core tag va bs sup).flaws = s.flaws := rfl
@[simp] theorem State.fillBlock_corrected (s : State) (core tag : Nat) (va : Word64) (bs : List Byte) (sup : Bool) : (s.fillBlock core tag va bs sup).corrected = s.corrected := rfl
@[simp] theorem State.fillBlock_ctxBad (s : State) (core tag : Nat) (va : Word64) (bs : List Byte) (sup : Bool) : (s.fillBlock core tag va bs sup).ctxBad = s.ctxBad := rfl
@[simp] theorem State.fillBlock_faulting (s : State) (core tag : Nat) (va : Word64) (bs : List Byte) (sup : Bool) : (s.fillBlock core tag va bs sup).faulting = s.faulting := rfl
@[simp] theorem State.fillBlock_ranges (s : State) (core tag : Nat) (va : Word64) (bs : List Byte) (sup : Bool) : (s.fillBlock core tag va bs sup).ranges = s.ranges := rfl
@[simp] theorem State.fillBlock_mosFills (s : State) (core tag : Nat) (va : Word64) (bs : List Byte) (sup : Bool) : (s.fillBlock core tag va bs sup).mosFills = s.mosFills := rfl
@[simp] theorem State.fillBlock_mmaOps (s : State) (core tag : Nat) (va : Word64) (bs : List Byte) (sup : Bool) : (s.fillBlock core tag va bs sup).mmaOps = s.mmaOps := rfl
@[simp] theorem State.fillBlock_jobs (s : State) (core tag : Nat) (va : Word64) (bs : List Byte) (sup : Bool) : (s.fillBlock core tag va bs sup).jobs = s.jobs := rfl
@[simp] theorem State.fillBlock_cutWaits (s : State) (core tag : Nat) (va : Word64) (bs : List Byte) (sup : Bool) : (s.fillBlock core tag va bs sup).cutWaits = s.cutWaits := rfl
@[simp] theorem State.fillBlock_hosts (s : State) (core tag : Nat) (va : Word64) (bs : List Byte) (sup : Bool) : (s.fillBlock core tag va bs sup).hosts = s.hosts := rfl
@[simp] theorem State.fillBlock_ports (s : State) (core tag : Nat) (va : Word64) (bs : List Byte) (sup : Bool) : (s.fillBlock core tag va bs sup).ports = s.ports := rfl
@[simp] theorem State.fillBlock_qps (s : State) (core tag : Nat) (va : Word64) (bs : List Byte) (sup : Bool) : (s.fillBlock core tag va bs sup).qps = s.qps := rfl
@[simp] theorem State.fillBlock_heldPkts (s : State) (core tag : Nat) (va : Word64) (bs : List Byte) (sup : Bool) : (s.fillBlock core tag va bs sup).heldPkts = s.heldPkts := rfl
@[simp] theorem State.fillBlock_comms (s : State) (core tag : Nat) (va : Word64) (bs : List Byte) (sup : Bool) : (s.fillBlock core tag va bs sup).comms = s.comms := rfl
@[simp] theorem State.fillBlock_colls (s : State) (core tag : Nat) (va : Word64) (bs : List Byte) (sup : Bool) : (s.fillBlock core tag va bs sup).colls = s.colls := rfl
@[simp] theorem State.fillBlock_harts (s : State) (core tag : Nat) (va : Word64) (bs : List Byte) (sup : Bool) : (s.fillBlock core tag va bs sup).harts = s.harts := rfl
@[simp] theorem State.fillBlock_nkctxtab (s : State) (core tag : Nat) (va : Word64) (bs : List Byte) (sup : Bool) : (s.fillBlock core tag va bs sup).nkctxtab = s.nkctxtab := rfl
@[simp] theorem State.fillBlock_nkqpbase (s : State) (core tag : Nat) (va : Word64) (bs : List Byte) (sup : Bool) : (s.fillBlock core tag va bs sup).nkqpbase = s.nkqpbase := rfl
@[simp] theorem State.fillBlock_nkevt (s : State) (core tag : Nat) (va : Word64) (bs : List Byte) (sup : Bool) : (s.fillBlock core tag va bs sup).nkevt = s.nkevt := rfl
@[simp] theorem State.fillBlock_nkevthart (s : State) (core tag : Nat) (va : Word64) (bs : List Byte) (sup : Bool) : (s.fillBlock core tag va bs sup).nkevthart = s.nkevthart := rfl
@[simp] theorem State.fillBlock_events (s : State) (core tag : Nat) (va : Word64) (bs : List Byte) (sup : Bool) : (s.fillBlock core tag va bs sup).events = s.events := rfl
@[simp] theorem State.fillBlock_commands (s : State) (core tag : Nat) (va : Word64) (bs : List Byte) (sup : Bool) : (s.fillBlock core tag va bs sup).commands = s.commands := rfl
@[simp] theorem State.fillBlock_invals (s : State) (core tag : Nat) (va : Word64) (bs : List Byte) (sup : Bool) : (s.fillBlock core tag va bs sup).invals = s.invals := rfl
@[simp] theorem State.fillBlock_boot (s : State) (core tag : Nat) (va : Word64) (bs : List Byte) (sup : Bool) : (s.fillBlock core tag va bs sup).boot = s.boot := rfl
@[simp] theorem State.fillBlock_dbgCores (s : State) (core tag : Nat) (va : Word64) (bs : List Byte) (sup : Bool) : (s.fillBlock core tag va bs sup).dbgCores = s.dbgCores := rfl
@[simp] theorem State.fillBlock_dbgDies (s : State) (core tag : Nat) (va : Word64) (bs : List Byte) (sup : Bool) : (s.fillBlock core tag va bs sup).dbgDies = s.dbgDies := rfl
@[simp] theorem State.fillBlock_trial (s : State) (core tag : Nat) (va : Word64) (bs : List Byte) (sup : Bool) : (s.fillBlock core tag va bs sup).trial = s.trial := rfl
@[simp] theorem State.fillBlock_power (s : State) (core tag : Nat) (va : Word64) (bs : List Byte) (sup : Bool) : (s.fillBlock core tag va bs sup).power = s.power := rfl

/-! ### State.fillTlb -/

@[simp] theorem State.fillTlb_time (s : State) (unit tag va level slot : Nat) (e : Word64) : (s.fillTlb unit tag va level slot e).time = s.time := rfl
@[simp] theorem State.fillTlb_frozen (s : State) (unit tag va level slot : Nat) (e : Word64) : (s.fillTlb unit tag va level slot e).frozen = s.frozen := rfl
@[simp] theorem State.fillTlb_tripped (s : State) (unit tag va level slot : Nat) (e : Word64) : (s.fillTlb unit tag va level slot e).tripped = s.tripped := rfl
@[simp] theorem State.fillTlb_agenda (s : State) (unit tag va level slot : Nat) (e : Word64) : (s.fillTlb unit tag va level slot e).agenda = s.agenda := rfl
@[simp] theorem State.fillTlb_tick (s : State) (unit tag va level slot : Nat) (e : Word64) : (s.fillTlb unit tag va level slot e).tick = s.tick := rfl
@[simp] theorem State.fillTlb_cur (s : State) (unit tag va level slot : Nat) (e : Word64) : (s.fillTlb unit tag va level slot e).cur = s.cur := rfl
@[simp] theorem State.fillTlb_serial (s : State) (unit tag va level slot : Nat) (e : Word64) : (s.fillTlb unit tag va level slot e).serial = s.serial := rfl
@[simp] theorem State.fillTlb_uid (s : State) (unit tag va level slot : Nat) (e : Word64) : (s.fillTlb unit tag va level slot e).uid = s.uid := rfl
@[simp] theorem State.fillTlb_waves (s : State) (unit tag va level slot : Nat) (e : Word64) : (s.fillTlb unit tag va level slot e).waves = s.waves := rfl
@[simp] theorem State.fillTlb_cords (s : State) (unit tag va level slot : Nat) (e : Word64) : (s.fillTlb unit tag va level slot e).cords = s.cords := rfl
@[simp] theorem State.fillTlb_ctxs (s : State) (unit tag va level slot : Nat) (e : Word64) : (s.fillTlb unit tag va level slot e).ctxs = s.ctxs := rfl
@[simp] theorem State.fillTlb_queues (s : State) (unit tag va level slot : Nat) (e : Word64) : (s.fillTlb unit tag va level slot e).queues = s.queues := rfl
@[simp] theorem State.fillTlb_slots (s : State) (unit tag va level slot : Nat) (e : Word64) : (s.fillTlb unit tag va level slot e).slots = s.slots := rfl
@[simp] theorem State.fillTlb_recs (s : State) (unit tag va level slot : Nat) (e : Word64) : (s.fillTlb unit tag va level slot e).recs = s.recs := rfl
@[simp] theorem State.fillTlb_helds (s : State) (unit tag va level slot : Nat) (e : Word64) : (s.fillTlb unit tag va level slot e).helds = s.helds := rfl
@[simp] theorem State.fillTlb_bells (s : State) (unit tag va level slot : Nat) (e : Word64) : (s.fillTlb unit tag va level slot e).bells = s.bells := rfl
@[simp] theorem State.fillTlb_wakes (s : State) (unit tag va level slot : Nat) (e : Word64) : (s.fillTlb unit tag va level slot e).wakes = s.wakes := rfl
@[simp] theorem State.fillTlb_served (s : State) (unit tag va level slot : Nat) (e : Word64) : (s.fillTlb unit tag va level slot e).served = s.served := rfl
@[simp] theorem State.fillTlb_dispP (s : State) (unit tag va level slot : Nat) (e : Word64) : (s.fillTlb unit tag va level slot e).dispP = s.dispP := rfl
@[simp] theorem State.fillTlb_mem (s : State) (unit tag va level slot : Nat) (e : Word64) : (s.fillTlb unit tag va level slot e).mem = s.mem := rfl
@[simp] theorem State.fillTlb_writes (s : State) (unit tag va level slot : Nat) (e : Word64) : (s.fillTlb unit tag va level slot e).writes = s.writes := rfl
@[simp] theorem State.fillTlb_leases (s : State) (unit tag va level slot : Nat) (e : Word64) : (s.fillTlb unit tag va level slot e).leases = s.leases := rfl
@[simp] theorem State.fillTlb_l1 (s : State) (unit tag va level slot : Nat) (e : Word64) : (s.fillTlb unit tag va level slot e).l1 = s.l1 := rfl
@[simp] theorem State.fillTlb_l2 (s : State) (unit tag va level slot : Nat) (e : Word64) : (s.fillTlb unit tag va level slot e).l2 = s.l2 := rfl
@[simp] theorem State.fillTlb_dirty (s : State) (unit tag va level slot : Nat) (e : Word64) : (s.fillTlb unit tag va level slot e).dirty = s.dirty := rfl
@[simp] theorem State.fillTlb_walks (s : State) (unit tag va level slot : Nat) (e : Word64) : (s.fillTlb unit tag va level slot e).walks = s.walks := rfl
@[simp] theorem State.fillTlb_touches (s : State) (unit tag va level slot : Nat) (e : Word64) : (s.fillTlb unit tag va level slot e).touches = s.touches := rfl
@[simp] theorem State.fillTlb_icache (s : State) (unit tag va level slot : Nat) (e : Word64) : (s.fillTlb unit tag va level slot e).icache = s.icache := rfl
@[simp] theorem State.fillTlb_fills (s : State) (unit tag va level slot : Nat) (e : Word64) : (s.fillTlb unit tag va level slot e).fills = s.fills := rfl
@[simp] theorem State.fillTlb_handles (s : State) (unit tag va level slot : Nat) (e : Word64) : (s.fillTlb unit tag va level slot e).handles = s.handles := rfl
@[simp] theorem State.fillTlb_pastRoots (s : State) (unit tag va level slot : Nat) (e : Word64) : (s.fillTlb unit tag va level slot e).pastRoots = s.pastRoots := rfl
@[simp] theorem State.fillTlb_poison (s : State) (unit tag va level slot : Nat) (e : Word64) : (s.fillTlb unit tag va level slot e).poison = s.poison := rfl
@[simp] theorem State.fillTlb_retired (s : State) (unit tag va level slot : Nat) (e : Word64) : (s.fillTlb unit tag va level slot e).retired = s.retired := rfl
@[simp] theorem State.fillTlb_flaws (s : State) (unit tag va level slot : Nat) (e : Word64) : (s.fillTlb unit tag va level slot e).flaws = s.flaws := rfl
@[simp] theorem State.fillTlb_corrected (s : State) (unit tag va level slot : Nat) (e : Word64) : (s.fillTlb unit tag va level slot e).corrected = s.corrected := rfl
@[simp] theorem State.fillTlb_ctxBad (s : State) (unit tag va level slot : Nat) (e : Word64) : (s.fillTlb unit tag va level slot e).ctxBad = s.ctxBad := rfl
@[simp] theorem State.fillTlb_faulting (s : State) (unit tag va level slot : Nat) (e : Word64) : (s.fillTlb unit tag va level slot e).faulting = s.faulting := rfl
@[simp] theorem State.fillTlb_ranges (s : State) (unit tag va level slot : Nat) (e : Word64) : (s.fillTlb unit tag va level slot e).ranges = s.ranges := rfl
@[simp] theorem State.fillTlb_mosFills (s : State) (unit tag va level slot : Nat) (e : Word64) : (s.fillTlb unit tag va level slot e).mosFills = s.mosFills := rfl
@[simp] theorem State.fillTlb_mmaOps (s : State) (unit tag va level slot : Nat) (e : Word64) : (s.fillTlb unit tag va level slot e).mmaOps = s.mmaOps := rfl
@[simp] theorem State.fillTlb_jobs (s : State) (unit tag va level slot : Nat) (e : Word64) : (s.fillTlb unit tag va level slot e).jobs = s.jobs := rfl
@[simp] theorem State.fillTlb_cutWaits (s : State) (unit tag va level slot : Nat) (e : Word64) : (s.fillTlb unit tag va level slot e).cutWaits = s.cutWaits := rfl
@[simp] theorem State.fillTlb_hosts (s : State) (unit tag va level slot : Nat) (e : Word64) : (s.fillTlb unit tag va level slot e).hosts = s.hosts := rfl
@[simp] theorem State.fillTlb_ports (s : State) (unit tag va level slot : Nat) (e : Word64) : (s.fillTlb unit tag va level slot e).ports = s.ports := rfl
@[simp] theorem State.fillTlb_qps (s : State) (unit tag va level slot : Nat) (e : Word64) : (s.fillTlb unit tag va level slot e).qps = s.qps := rfl
@[simp] theorem State.fillTlb_heldPkts (s : State) (unit tag va level slot : Nat) (e : Word64) : (s.fillTlb unit tag va level slot e).heldPkts = s.heldPkts := rfl
@[simp] theorem State.fillTlb_comms (s : State) (unit tag va level slot : Nat) (e : Word64) : (s.fillTlb unit tag va level slot e).comms = s.comms := rfl
@[simp] theorem State.fillTlb_colls (s : State) (unit tag va level slot : Nat) (e : Word64) : (s.fillTlb unit tag va level slot e).colls = s.colls := rfl
@[simp] theorem State.fillTlb_harts (s : State) (unit tag va level slot : Nat) (e : Word64) : (s.fillTlb unit tag va level slot e).harts = s.harts := rfl
@[simp] theorem State.fillTlb_nkctxtab (s : State) (unit tag va level slot : Nat) (e : Word64) : (s.fillTlb unit tag va level slot e).nkctxtab = s.nkctxtab := rfl
@[simp] theorem State.fillTlb_nkqpbase (s : State) (unit tag va level slot : Nat) (e : Word64) : (s.fillTlb unit tag va level slot e).nkqpbase = s.nkqpbase := rfl
@[simp] theorem State.fillTlb_nkevt (s : State) (unit tag va level slot : Nat) (e : Word64) : (s.fillTlb unit tag va level slot e).nkevt = s.nkevt := rfl
@[simp] theorem State.fillTlb_nkevthart (s : State) (unit tag va level slot : Nat) (e : Word64) : (s.fillTlb unit tag va level slot e).nkevthart = s.nkevthart := rfl
@[simp] theorem State.fillTlb_events (s : State) (unit tag va level slot : Nat) (e : Word64) : (s.fillTlb unit tag va level slot e).events = s.events := rfl
@[simp] theorem State.fillTlb_commands (s : State) (unit tag va level slot : Nat) (e : Word64) : (s.fillTlb unit tag va level slot e).commands = s.commands := rfl
@[simp] theorem State.fillTlb_invals (s : State) (unit tag va level slot : Nat) (e : Word64) : (s.fillTlb unit tag va level slot e).invals = s.invals := rfl
@[simp] theorem State.fillTlb_boot (s : State) (unit tag va level slot : Nat) (e : Word64) : (s.fillTlb unit tag va level slot e).boot = s.boot := rfl
@[simp] theorem State.fillTlb_dbgCores (s : State) (unit tag va level slot : Nat) (e : Word64) : (s.fillTlb unit tag va level slot e).dbgCores = s.dbgCores := rfl
@[simp] theorem State.fillTlb_dbgDies (s : State) (unit tag va level slot : Nat) (e : Word64) : (s.fillTlb unit tag va level slot e).dbgDies = s.dbgDies := rfl
@[simp] theorem State.fillTlb_trial (s : State) (unit tag va level slot : Nat) (e : Word64) : (s.fillTlb unit tag va level slot e).trial = s.trial := rfl
@[simp] theorem State.fillTlb_power (s : State) (unit tag va level slot : Nat) (e : Word64) : (s.fillTlb unit tag va level slot e).power = s.power := rfl

/-! ### State.modCtx -/

@[simp] theorem State.modCtx_time (s : State) (tag : Nat) (f : Ctx → Ctx) : (s.modCtx tag f).time = s.time := by
  unfold State.modCtx; split <;> rfl
@[simp] theorem State.modCtx_frozen (s : State) (tag : Nat) (f : Ctx → Ctx) : (s.modCtx tag f).frozen = s.frozen := by
  unfold State.modCtx; split <;> rfl
@[simp] theorem State.modCtx_tripped (s : State) (tag : Nat) (f : Ctx → Ctx) : (s.modCtx tag f).tripped = s.tripped := by
  unfold State.modCtx; split <;> rfl
@[simp] theorem State.modCtx_agenda (s : State) (tag : Nat) (f : Ctx → Ctx) : (s.modCtx tag f).agenda = s.agenda := by
  unfold State.modCtx; split <;> rfl
@[simp] theorem State.modCtx_tick (s : State) (tag : Nat) (f : Ctx → Ctx) : (s.modCtx tag f).tick = s.tick := by
  unfold State.modCtx; split <;> rfl
@[simp] theorem State.modCtx_cur (s : State) (tag : Nat) (f : Ctx → Ctx) : (s.modCtx tag f).cur = s.cur := by
  unfold State.modCtx; split <;> rfl
@[simp] theorem State.modCtx_serial (s : State) (tag : Nat) (f : Ctx → Ctx) : (s.modCtx tag f).serial = s.serial := by
  unfold State.modCtx; split <;> rfl
@[simp] theorem State.modCtx_uid (s : State) (tag : Nat) (f : Ctx → Ctx) : (s.modCtx tag f).uid = s.uid := by
  unfold State.modCtx; split <;> rfl
@[simp] theorem State.modCtx_waves (s : State) (tag : Nat) (f : Ctx → Ctx) : (s.modCtx tag f).waves = s.waves := by
  unfold State.modCtx; split <;> rfl
@[simp] theorem State.modCtx_cords (s : State) (tag : Nat) (f : Ctx → Ctx) : (s.modCtx tag f).cords = s.cords := by
  unfold State.modCtx; split <;> rfl
@[simp] theorem State.modCtx_queues (s : State) (tag : Nat) (f : Ctx → Ctx) : (s.modCtx tag f).queues = s.queues := by
  unfold State.modCtx; split <;> rfl
@[simp] theorem State.modCtx_slots (s : State) (tag : Nat) (f : Ctx → Ctx) : (s.modCtx tag f).slots = s.slots := by
  unfold State.modCtx; split <;> rfl
@[simp] theorem State.modCtx_recs (s : State) (tag : Nat) (f : Ctx → Ctx) : (s.modCtx tag f).recs = s.recs := by
  unfold State.modCtx; split <;> rfl
@[simp] theorem State.modCtx_helds (s : State) (tag : Nat) (f : Ctx → Ctx) : (s.modCtx tag f).helds = s.helds := by
  unfold State.modCtx; split <;> rfl
@[simp] theorem State.modCtx_bells (s : State) (tag : Nat) (f : Ctx → Ctx) : (s.modCtx tag f).bells = s.bells := by
  unfold State.modCtx; split <;> rfl
@[simp] theorem State.modCtx_wakes (s : State) (tag : Nat) (f : Ctx → Ctx) : (s.modCtx tag f).wakes = s.wakes := by
  unfold State.modCtx; split <;> rfl
@[simp] theorem State.modCtx_served (s : State) (tag : Nat) (f : Ctx → Ctx) : (s.modCtx tag f).served = s.served := by
  unfold State.modCtx; split <;> rfl
@[simp] theorem State.modCtx_dispP (s : State) (tag : Nat) (f : Ctx → Ctx) : (s.modCtx tag f).dispP = s.dispP := by
  unfold State.modCtx; split <;> rfl
@[simp] theorem State.modCtx_mem (s : State) (tag : Nat) (f : Ctx → Ctx) : (s.modCtx tag f).mem = s.mem := by
  unfold State.modCtx; split <;> rfl
@[simp] theorem State.modCtx_writes (s : State) (tag : Nat) (f : Ctx → Ctx) : (s.modCtx tag f).writes = s.writes := by
  unfold State.modCtx; split <;> rfl
@[simp] theorem State.modCtx_leases (s : State) (tag : Nat) (f : Ctx → Ctx) : (s.modCtx tag f).leases = s.leases := by
  unfold State.modCtx; split <;> rfl
@[simp] theorem State.modCtx_l1 (s : State) (tag : Nat) (f : Ctx → Ctx) : (s.modCtx tag f).l1 = s.l1 := by
  unfold State.modCtx; split <;> rfl
@[simp] theorem State.modCtx_l2 (s : State) (tag : Nat) (f : Ctx → Ctx) : (s.modCtx tag f).l2 = s.l2 := by
  unfold State.modCtx; split <;> rfl
@[simp] theorem State.modCtx_dirty (s : State) (tag : Nat) (f : Ctx → Ctx) : (s.modCtx tag f).dirty = s.dirty := by
  unfold State.modCtx; split <;> rfl
@[simp] theorem State.modCtx_tlb (s : State) (tag : Nat) (f : Ctx → Ctx) : (s.modCtx tag f).tlb = s.tlb := by
  unfold State.modCtx; split <;> rfl
@[simp] theorem State.modCtx_walks (s : State) (tag : Nat) (f : Ctx → Ctx) : (s.modCtx tag f).walks = s.walks := by
  unfold State.modCtx; split <;> rfl
@[simp] theorem State.modCtx_touches (s : State) (tag : Nat) (f : Ctx → Ctx) : (s.modCtx tag f).touches = s.touches := by
  unfold State.modCtx; split <;> rfl
@[simp] theorem State.modCtx_icache (s : State) (tag : Nat) (f : Ctx → Ctx) : (s.modCtx tag f).icache = s.icache := by
  unfold State.modCtx; split <;> rfl
@[simp] theorem State.modCtx_fills (s : State) (tag : Nat) (f : Ctx → Ctx) : (s.modCtx tag f).fills = s.fills := by
  unfold State.modCtx; split <;> rfl
@[simp] theorem State.modCtx_handles (s : State) (tag : Nat) (f : Ctx → Ctx) : (s.modCtx tag f).handles = s.handles := by
  unfold State.modCtx; split <;> rfl
@[simp] theorem State.modCtx_pastRoots (s : State) (tag : Nat) (f : Ctx → Ctx) : (s.modCtx tag f).pastRoots = s.pastRoots := by
  unfold State.modCtx; split <;> rfl
@[simp] theorem State.modCtx_poison (s : State) (tag : Nat) (f : Ctx → Ctx) : (s.modCtx tag f).poison = s.poison := by
  unfold State.modCtx; split <;> rfl
@[simp] theorem State.modCtx_retired (s : State) (tag : Nat) (f : Ctx → Ctx) : (s.modCtx tag f).retired = s.retired := by
  unfold State.modCtx; split <;> rfl
@[simp] theorem State.modCtx_flaws (s : State) (tag : Nat) (f : Ctx → Ctx) : (s.modCtx tag f).flaws = s.flaws := by
  unfold State.modCtx; split <;> rfl
@[simp] theorem State.modCtx_corrected (s : State) (tag : Nat) (f : Ctx → Ctx) : (s.modCtx tag f).corrected = s.corrected := by
  unfold State.modCtx; split <;> rfl
@[simp] theorem State.modCtx_ctxBad (s : State) (tag : Nat) (f : Ctx → Ctx) : (s.modCtx tag f).ctxBad = s.ctxBad := by
  unfold State.modCtx; split <;> rfl
@[simp] theorem State.modCtx_faulting (s : State) (tag : Nat) (f : Ctx → Ctx) : (s.modCtx tag f).faulting = s.faulting := by
  unfold State.modCtx; split <;> rfl
@[simp] theorem State.modCtx_ranges (s : State) (tag : Nat) (f : Ctx → Ctx) : (s.modCtx tag f).ranges = s.ranges := by
  unfold State.modCtx; split <;> rfl
@[simp] theorem State.modCtx_mosFills (s : State) (tag : Nat) (f : Ctx → Ctx) : (s.modCtx tag f).mosFills = s.mosFills := by
  unfold State.modCtx; split <;> rfl
@[simp] theorem State.modCtx_mmaOps (s : State) (tag : Nat) (f : Ctx → Ctx) : (s.modCtx tag f).mmaOps = s.mmaOps := by
  unfold State.modCtx; split <;> rfl
@[simp] theorem State.modCtx_jobs (s : State) (tag : Nat) (f : Ctx → Ctx) : (s.modCtx tag f).jobs = s.jobs := by
  unfold State.modCtx; split <;> rfl
@[simp] theorem State.modCtx_cutWaits (s : State) (tag : Nat) (f : Ctx → Ctx) : (s.modCtx tag f).cutWaits = s.cutWaits := by
  unfold State.modCtx; split <;> rfl
@[simp] theorem State.modCtx_hosts (s : State) (tag : Nat) (f : Ctx → Ctx) : (s.modCtx tag f).hosts = s.hosts := by
  unfold State.modCtx; split <;> rfl
@[simp] theorem State.modCtx_ports (s : State) (tag : Nat) (f : Ctx → Ctx) : (s.modCtx tag f).ports = s.ports := by
  unfold State.modCtx; split <;> rfl
@[simp] theorem State.modCtx_qps (s : State) (tag : Nat) (f : Ctx → Ctx) : (s.modCtx tag f).qps = s.qps := by
  unfold State.modCtx; split <;> rfl
@[simp] theorem State.modCtx_heldPkts (s : State) (tag : Nat) (f : Ctx → Ctx) : (s.modCtx tag f).heldPkts = s.heldPkts := by
  unfold State.modCtx; split <;> rfl
@[simp] theorem State.modCtx_comms (s : State) (tag : Nat) (f : Ctx → Ctx) : (s.modCtx tag f).comms = s.comms := by
  unfold State.modCtx; split <;> rfl
@[simp] theorem State.modCtx_colls (s : State) (tag : Nat) (f : Ctx → Ctx) : (s.modCtx tag f).colls = s.colls := by
  unfold State.modCtx; split <;> rfl
@[simp] theorem State.modCtx_harts (s : State) (tag : Nat) (f : Ctx → Ctx) : (s.modCtx tag f).harts = s.harts := by
  unfold State.modCtx; split <;> rfl
@[simp] theorem State.modCtx_nkctxtab (s : State) (tag : Nat) (f : Ctx → Ctx) : (s.modCtx tag f).nkctxtab = s.nkctxtab := by
  unfold State.modCtx; split <;> rfl
@[simp] theorem State.modCtx_nkqpbase (s : State) (tag : Nat) (f : Ctx → Ctx) : (s.modCtx tag f).nkqpbase = s.nkqpbase := by
  unfold State.modCtx; split <;> rfl
@[simp] theorem State.modCtx_nkevt (s : State) (tag : Nat) (f : Ctx → Ctx) : (s.modCtx tag f).nkevt = s.nkevt := by
  unfold State.modCtx; split <;> rfl
@[simp] theorem State.modCtx_nkevthart (s : State) (tag : Nat) (f : Ctx → Ctx) : (s.modCtx tag f).nkevthart = s.nkevthart := by
  unfold State.modCtx; split <;> rfl
@[simp] theorem State.modCtx_events (s : State) (tag : Nat) (f : Ctx → Ctx) : (s.modCtx tag f).events = s.events := by
  unfold State.modCtx; split <;> rfl
@[simp] theorem State.modCtx_commands (s : State) (tag : Nat) (f : Ctx → Ctx) : (s.modCtx tag f).commands = s.commands := by
  unfold State.modCtx; split <;> rfl
@[simp] theorem State.modCtx_invals (s : State) (tag : Nat) (f : Ctx → Ctx) : (s.modCtx tag f).invals = s.invals := by
  unfold State.modCtx; split <;> rfl
@[simp] theorem State.modCtx_boot (s : State) (tag : Nat) (f : Ctx → Ctx) : (s.modCtx tag f).boot = s.boot := by
  unfold State.modCtx; split <;> rfl
@[simp] theorem State.modCtx_dbgCores (s : State) (tag : Nat) (f : Ctx → Ctx) : (s.modCtx tag f).dbgCores = s.dbgCores := by
  unfold State.modCtx; split <;> rfl
@[simp] theorem State.modCtx_dbgDies (s : State) (tag : Nat) (f : Ctx → Ctx) : (s.modCtx tag f).dbgDies = s.dbgDies := by
  unfold State.modCtx; split <;> rfl
@[simp] theorem State.modCtx_trial (s : State) (tag : Nat) (f : Ctx → Ctx) : (s.modCtx tag f).trial = s.trial := by
  unfold State.modCtx; split <;> rfl
@[simp] theorem State.modCtx_power (s : State) (tag : Nat) (f : Ctx → Ctx) : (s.modCtx tag f).power = s.power := by
  unfold State.modCtx; split <;> rfl

/-! ### State.modLease -/

@[simp] theorem State.modLease_time (s : State) (l : LeaseTile) (f : Lease → Lease) : (s.modLease l f).time = s.time := by
  unfold State.modLease; split <;> rfl
@[simp] theorem State.modLease_frozen (s : State) (l : LeaseTile) (f : Lease → Lease) : (s.modLease l f).frozen = s.frozen := by
  unfold State.modLease; split <;> rfl
@[simp] theorem State.modLease_tripped (s : State) (l : LeaseTile) (f : Lease → Lease) : (s.modLease l f).tripped = s.tripped := by
  unfold State.modLease; split <;> rfl
@[simp] theorem State.modLease_agenda (s : State) (l : LeaseTile) (f : Lease → Lease) : (s.modLease l f).agenda = s.agenda := by
  unfold State.modLease; split <;> rfl
@[simp] theorem State.modLease_tick (s : State) (l : LeaseTile) (f : Lease → Lease) : (s.modLease l f).tick = s.tick := by
  unfold State.modLease; split <;> rfl
@[simp] theorem State.modLease_cur (s : State) (l : LeaseTile) (f : Lease → Lease) : (s.modLease l f).cur = s.cur := by
  unfold State.modLease; split <;> rfl
@[simp] theorem State.modLease_serial (s : State) (l : LeaseTile) (f : Lease → Lease) : (s.modLease l f).serial = s.serial := by
  unfold State.modLease; split <;> rfl
@[simp] theorem State.modLease_uid (s : State) (l : LeaseTile) (f : Lease → Lease) : (s.modLease l f).uid = s.uid := by
  unfold State.modLease; split <;> rfl
@[simp] theorem State.modLease_waves (s : State) (l : LeaseTile) (f : Lease → Lease) : (s.modLease l f).waves = s.waves := by
  unfold State.modLease; split <;> rfl
@[simp] theorem State.modLease_cords (s : State) (l : LeaseTile) (f : Lease → Lease) : (s.modLease l f).cords = s.cords := by
  unfold State.modLease; split <;> rfl
@[simp] theorem State.modLease_ctxs (s : State) (l : LeaseTile) (f : Lease → Lease) : (s.modLease l f).ctxs = s.ctxs := by
  unfold State.modLease; split <;> rfl
@[simp] theorem State.modLease_queues (s : State) (l : LeaseTile) (f : Lease → Lease) : (s.modLease l f).queues = s.queues := by
  unfold State.modLease; split <;> rfl
@[simp] theorem State.modLease_slots (s : State) (l : LeaseTile) (f : Lease → Lease) : (s.modLease l f).slots = s.slots := by
  unfold State.modLease; split <;> rfl
@[simp] theorem State.modLease_recs (s : State) (l : LeaseTile) (f : Lease → Lease) : (s.modLease l f).recs = s.recs := by
  unfold State.modLease; split <;> rfl
@[simp] theorem State.modLease_helds (s : State) (l : LeaseTile) (f : Lease → Lease) : (s.modLease l f).helds = s.helds := by
  unfold State.modLease; split <;> rfl
@[simp] theorem State.modLease_bells (s : State) (l : LeaseTile) (f : Lease → Lease) : (s.modLease l f).bells = s.bells := by
  unfold State.modLease; split <;> rfl
@[simp] theorem State.modLease_wakes (s : State) (l : LeaseTile) (f : Lease → Lease) : (s.modLease l f).wakes = s.wakes := by
  unfold State.modLease; split <;> rfl
@[simp] theorem State.modLease_served (s : State) (l : LeaseTile) (f : Lease → Lease) : (s.modLease l f).served = s.served := by
  unfold State.modLease; split <;> rfl
@[simp] theorem State.modLease_dispP (s : State) (l : LeaseTile) (f : Lease → Lease) : (s.modLease l f).dispP = s.dispP := by
  unfold State.modLease; split <;> rfl
@[simp] theorem State.modLease_mem (s : State) (l : LeaseTile) (f : Lease → Lease) : (s.modLease l f).mem = s.mem := by
  unfold State.modLease; split <;> rfl
@[simp] theorem State.modLease_writes (s : State) (l : LeaseTile) (f : Lease → Lease) : (s.modLease l f).writes = s.writes := by
  unfold State.modLease; split <;> rfl
@[simp] theorem State.modLease_l1 (s : State) (l : LeaseTile) (f : Lease → Lease) : (s.modLease l f).l1 = s.l1 := by
  unfold State.modLease; split <;> rfl
@[simp] theorem State.modLease_l2 (s : State) (l : LeaseTile) (f : Lease → Lease) : (s.modLease l f).l2 = s.l2 := by
  unfold State.modLease; split <;> rfl
@[simp] theorem State.modLease_dirty (s : State) (l : LeaseTile) (f : Lease → Lease) : (s.modLease l f).dirty = s.dirty := by
  unfold State.modLease; split <;> rfl
@[simp] theorem State.modLease_tlb (s : State) (l : LeaseTile) (f : Lease → Lease) : (s.modLease l f).tlb = s.tlb := by
  unfold State.modLease; split <;> rfl
@[simp] theorem State.modLease_walks (s : State) (l : LeaseTile) (f : Lease → Lease) : (s.modLease l f).walks = s.walks := by
  unfold State.modLease; split <;> rfl
@[simp] theorem State.modLease_touches (s : State) (l : LeaseTile) (f : Lease → Lease) : (s.modLease l f).touches = s.touches := by
  unfold State.modLease; split <;> rfl
@[simp] theorem State.modLease_icache (s : State) (l : LeaseTile) (f : Lease → Lease) : (s.modLease l f).icache = s.icache := by
  unfold State.modLease; split <;> rfl
@[simp] theorem State.modLease_fills (s : State) (l : LeaseTile) (f : Lease → Lease) : (s.modLease l f).fills = s.fills := by
  unfold State.modLease; split <;> rfl
@[simp] theorem State.modLease_handles (s : State) (l : LeaseTile) (f : Lease → Lease) : (s.modLease l f).handles = s.handles := by
  unfold State.modLease; split <;> rfl
@[simp] theorem State.modLease_pastRoots (s : State) (l : LeaseTile) (f : Lease → Lease) : (s.modLease l f).pastRoots = s.pastRoots := by
  unfold State.modLease; split <;> rfl
@[simp] theorem State.modLease_poison (s : State) (l : LeaseTile) (f : Lease → Lease) : (s.modLease l f).poison = s.poison := by
  unfold State.modLease; split <;> rfl
@[simp] theorem State.modLease_retired (s : State) (l : LeaseTile) (f : Lease → Lease) : (s.modLease l f).retired = s.retired := by
  unfold State.modLease; split <;> rfl
@[simp] theorem State.modLease_flaws (s : State) (l : LeaseTile) (f : Lease → Lease) : (s.modLease l f).flaws = s.flaws := by
  unfold State.modLease; split <;> rfl
@[simp] theorem State.modLease_corrected (s : State) (l : LeaseTile) (f : Lease → Lease) : (s.modLease l f).corrected = s.corrected := by
  unfold State.modLease; split <;> rfl
@[simp] theorem State.modLease_ctxBad (s : State) (l : LeaseTile) (f : Lease → Lease) : (s.modLease l f).ctxBad = s.ctxBad := by
  unfold State.modLease; split <;> rfl
@[simp] theorem State.modLease_faulting (s : State) (l : LeaseTile) (f : Lease → Lease) : (s.modLease l f).faulting = s.faulting := by
  unfold State.modLease; split <;> rfl
@[simp] theorem State.modLease_ranges (s : State) (l : LeaseTile) (f : Lease → Lease) : (s.modLease l f).ranges = s.ranges := by
  unfold State.modLease; split <;> rfl
@[simp] theorem State.modLease_mosFills (s : State) (l : LeaseTile) (f : Lease → Lease) : (s.modLease l f).mosFills = s.mosFills := by
  unfold State.modLease; split <;> rfl
@[simp] theorem State.modLease_mmaOps (s : State) (l : LeaseTile) (f : Lease → Lease) : (s.modLease l f).mmaOps = s.mmaOps := by
  unfold State.modLease; split <;> rfl
@[simp] theorem State.modLease_jobs (s : State) (l : LeaseTile) (f : Lease → Lease) : (s.modLease l f).jobs = s.jobs := by
  unfold State.modLease; split <;> rfl
@[simp] theorem State.modLease_cutWaits (s : State) (l : LeaseTile) (f : Lease → Lease) : (s.modLease l f).cutWaits = s.cutWaits := by
  unfold State.modLease; split <;> rfl
@[simp] theorem State.modLease_hosts (s : State) (l : LeaseTile) (f : Lease → Lease) : (s.modLease l f).hosts = s.hosts := by
  unfold State.modLease; split <;> rfl
@[simp] theorem State.modLease_ports (s : State) (l : LeaseTile) (f : Lease → Lease) : (s.modLease l f).ports = s.ports := by
  unfold State.modLease; split <;> rfl
@[simp] theorem State.modLease_qps (s : State) (l : LeaseTile) (f : Lease → Lease) : (s.modLease l f).qps = s.qps := by
  unfold State.modLease; split <;> rfl
@[simp] theorem State.modLease_heldPkts (s : State) (l : LeaseTile) (f : Lease → Lease) : (s.modLease l f).heldPkts = s.heldPkts := by
  unfold State.modLease; split <;> rfl
@[simp] theorem State.modLease_comms (s : State) (l : LeaseTile) (f : Lease → Lease) : (s.modLease l f).comms = s.comms := by
  unfold State.modLease; split <;> rfl
@[simp] theorem State.modLease_colls (s : State) (l : LeaseTile) (f : Lease → Lease) : (s.modLease l f).colls = s.colls := by
  unfold State.modLease; split <;> rfl
@[simp] theorem State.modLease_harts (s : State) (l : LeaseTile) (f : Lease → Lease) : (s.modLease l f).harts = s.harts := by
  unfold State.modLease; split <;> rfl
@[simp] theorem State.modLease_nkctxtab (s : State) (l : LeaseTile) (f : Lease → Lease) : (s.modLease l f).nkctxtab = s.nkctxtab := by
  unfold State.modLease; split <;> rfl
@[simp] theorem State.modLease_nkqpbase (s : State) (l : LeaseTile) (f : Lease → Lease) : (s.modLease l f).nkqpbase = s.nkqpbase := by
  unfold State.modLease; split <;> rfl
@[simp] theorem State.modLease_nkevt (s : State) (l : LeaseTile) (f : Lease → Lease) : (s.modLease l f).nkevt = s.nkevt := by
  unfold State.modLease; split <;> rfl
@[simp] theorem State.modLease_nkevthart (s : State) (l : LeaseTile) (f : Lease → Lease) : (s.modLease l f).nkevthart = s.nkevthart := by
  unfold State.modLease; split <;> rfl
@[simp] theorem State.modLease_events (s : State) (l : LeaseTile) (f : Lease → Lease) : (s.modLease l f).events = s.events := by
  unfold State.modLease; split <;> rfl
@[simp] theorem State.modLease_commands (s : State) (l : LeaseTile) (f : Lease → Lease) : (s.modLease l f).commands = s.commands := by
  unfold State.modLease; split <;> rfl
@[simp] theorem State.modLease_invals (s : State) (l : LeaseTile) (f : Lease → Lease) : (s.modLease l f).invals = s.invals := by
  unfold State.modLease; split <;> rfl
@[simp] theorem State.modLease_boot (s : State) (l : LeaseTile) (f : Lease → Lease) : (s.modLease l f).boot = s.boot := by
  unfold State.modLease; split <;> rfl
@[simp] theorem State.modLease_dbgCores (s : State) (l : LeaseTile) (f : Lease → Lease) : (s.modLease l f).dbgCores = s.dbgCores := by
  unfold State.modLease; split <;> rfl
@[simp] theorem State.modLease_dbgDies (s : State) (l : LeaseTile) (f : Lease → Lease) : (s.modLease l f).dbgDies = s.dbgDies := by
  unfold State.modLease; split <;> rfl
@[simp] theorem State.modLease_trial (s : State) (l : LeaseTile) (f : Lease → Lease) : (s.modLease l f).trial = s.trial := by
  unfold State.modLease; split <;> rfl
@[simp] theorem State.modLease_power (s : State) (l : LeaseTile) (f : Lease → Lease) : (s.modLease l f).power = s.power := by
  unfold State.modLease; split <;> rfl

/-! ### Wave.setS -/

@[simp] theorem Wave.setS_id (w : Wave) (n : Nat) (x : Word) : (w.setS n x).id = w.id := rfl
@[simp] theorem Wave.setS_cord (w : Wave) (n : Nat) (x : Word) : (w.setS n x).cord = w.cord := rfl
@[simp] theorem Wave.setS_index (w : Wave) (n : Nat) (x : Word) : (w.setS n x).index = w.index := rfl
@[simp] theorem Wave.setS_wait (w : Wave) (n : Nat) (x : Word) : (w.setS n x).wait = w.wait := rfl
@[simp] theorem Wave.setS_pc (w : Wave) (n : Nat) (x : Word) : (w.setS n x).pc = w.pc := rfl
@[simp] theorem Wave.setS_jumped (w : Wave) (n : Nat) (x : Word) : (w.setS n x).jumped = w.jumped := rfl
@[simp] theorem Wave.setS_sup (w : Wave) (n : Nat) (x : Word) : (w.setS n x).sup = w.sup := rfl
@[simp] theorem Wave.setS_live (w : Wave) (n : Nat) (x : Word) : (w.setS n x).live = w.live := rfl
@[simp] theorem Wave.setS_k (w : Wave) (n : Nat) (x : Word) : (w.setS n x).k = w.k := rfl
@[simp] theorem Wave.setS_c (w : Wave) (n : Nat) (x : Word) : (w.setS n x).c = w.c := rfl
@[simp] theorem Wave.setS_v (w : Wave) (n : Nat) (x : Word) : (w.setS n x).v = w.v := rfl
@[simp] theorem Wave.setS_o (w : Wave) (n : Nat) (x : Word) : (w.setS n x).o = w.o := rfl
@[simp] theorem Wave.setS_l (w : Wave) (n : Nat) (x : Word) : (w.setS n x).l = w.l := rfl
@[simp] theorem Wave.setS_lSup (w : Wave) (n : Nat) (x : Word) : (w.setS n x).lSup = w.lSup := rfl
@[simp] theorem Wave.setS_x (w : Wave) (n : Nat) (x : Word) : (w.setS n x).x = w.x := rfl
@[simp] theorem Wave.setS_q (w : Wave) (n : Nat) (x : Word) : (w.setS n x).q = w.q := rfl
@[simp] theorem Wave.setS_bound (w : Wave) (n : Nat) (x : Word) : (w.setS n x).bound = w.bound := rfl
@[simp] theorem Wave.setS_granule (w : Wave) (n : Nat) (x : Word) : (w.setS n x).granule = w.granule := rfl
@[simp] theorem Wave.setS_fpflags (w : Wave) (n : Nat) (x : Word) : (w.setS n x).fpflags = w.fpflags := rfl
@[simp] theorem Wave.setS_srseed (w : Wave) (n : Nat) (x : Word) : (w.setS n x).srseed = w.srseed := rfl
@[simp] theorem Wave.setS_horizon (w : Wave) (n : Nat) (x : Word) : (w.setS n x).horizon = w.horizon := rfl
@[simp] theorem Wave.setS_rep (w : Wave) (n : Nat) (x : Word) : (w.setS n x).rep = w.rep := rfl
@[simp] theorem Wave.setS_repStr (w : Wave) (n : Nat) (x : Word) : (w.setS n x).repStr = w.repStr := rfl
@[simp] theorem Wave.setS_repStrSup (w : Wave) (n : Nat) (x : Word) : (w.setS n x).repStrSup = w.repStrSup := rfl
@[simp] theorem Wave.setS_loop (w : Wave) (n : Nat) (x : Word) : (w.setS n x).loop = w.loop := rfl
@[simp] theorem Wave.setS_loopSup (w : Wave) (n : Nat) (x : Word) : (w.setS n x).loopSup = w.loopSup := rfl
@[simp] theorem Wave.setS_trapcause (w : Wave) (n : Nat) (x : Word) : (w.setS n x).trapcause = w.trapcause := rfl
@[simp] theorem Wave.setS_trapmask (w : Wave) (n : Nat) (x : Word) : (w.setS n x).trapmask = w.trapmask := rfl
@[simp] theorem Wave.setS_trapinfo (w : Wave) (n : Nat) (x : Word) : (w.setS n x).trapinfo = w.trapinfo := rfl
@[simp] theorem Wave.setS_pass (w : Wave) (n : Nat) (x : Word) : (w.setS n x).pass = w.pass := rfl
@[simp] theorem Wave.setS_arrivals (w : Wave) (n : Nat) (x : Word) : (w.setS n x).arrivals = w.arrivals := rfl
@[simp] theorem Wave.setS_endH (w : Wave) (n : Nat) (x : Word) : (w.setS n x).endH = w.endH := rfl
@[simp] theorem Wave.setS_endSet (w : Wave) (n : Nat) (x : Word) : (w.setS n x).endSet = w.endSet := rfl
@[simp] theorem Wave.setS_wake (w : Wave) (n : Nat) (x : Word) : (w.setS n x).wake = w.wake := rfl
@[simp] theorem Wave.setS_yield (w : Wave) (n : Nat) (x : Word) : (w.setS n x).yield = w.yield := rfl
@[simp] theorem Wave.setS_hold (w : Wave) (n : Nat) (x : Word) : (w.setS n x).hold = w.hold := rfl
@[simp] theorem Wave.setS_delayed (w : Wave) (n : Nat) (x : Word) : (w.setS n x).delayed = w.delayed := rfl
@[simp] theorem Wave.setS_openBatch (w : Wave) (n : Nat) (x : Word) : (w.setS n x).openBatch = w.openBatch := rfl
@[simp] theorem Wave.setS_batches (w : Wave) (n : Nat) (x : Word) : (w.setS n x).batches = w.batches := rfl
@[simp] theorem Wave.setS_nextBatch (w : Wave) (n : Nat) (x : Word) : (w.setS n x).nextBatch = w.nextBatch := rfl
@[simp] theorem Wave.setS_streams (w : Wave) (n : Nat) (x : Word) : (w.setS n x).streams = w.streams := rfl
@[simp] theorem Wave.setS_invals (w : Wave) (n : Nat) (x : Word) : (w.setS n x).invals = w.invals := rfl
@[simp] theorem Wave.setS_watch (w : Wave) (n : Nat) (x : Word) : (w.setS n x).watch = w.watch := rfl
@[simp] theorem Wave.setS_nextColl (w : Wave) (n : Nat) (x : Word) : (w.setS n x).nextColl = w.nextColl := rfl
@[simp] theorem Wave.setS_regions (w : Wave) (n : Nat) (x : Word) : (w.setS n x).regions = w.regions := rfl
@[simp] theorem Wave.setS_rgndepth (w : Wave) (n : Nat) (x : Word) : (w.setS n x).rgndepth = w.rgndepth := rfl
@[simp] theorem Wave.setS_halted (w : Wave) (n : Nat) (x : Word) : (w.setS n x).halted = w.halted := rfl
@[simp] theorem Wave.setS_haltAs (w : Wave) (n : Nat) (x : Word) : (w.setS n x).haltAs = w.haltAs := rfl
@[simp] theorem Wave.setS_stepOnce (w : Wave) (n : Nat) (x : Word) : (w.setS n x).stepOnce = w.stepOnce := rfl
@[simp] theorem Wave.setS_exempt (w : Wave) (n : Nat) (x : Word) : (w.setS n x).exempt = w.exempt := rfl

/-! ### Wave.setK -/

@[simp] theorem Wave.setK_id (w : Wave) (n : Nat) (m : Mask) : (w.setK n m).id = w.id := rfl
@[simp] theorem Wave.setK_cord (w : Wave) (n : Nat) (m : Mask) : (w.setK n m).cord = w.cord := rfl
@[simp] theorem Wave.setK_index (w : Wave) (n : Nat) (m : Mask) : (w.setK n m).index = w.index := rfl
@[simp] theorem Wave.setK_wait (w : Wave) (n : Nat) (m : Mask) : (w.setK n m).wait = w.wait := rfl
@[simp] theorem Wave.setK_pc (w : Wave) (n : Nat) (m : Mask) : (w.setK n m).pc = w.pc := rfl
@[simp] theorem Wave.setK_jumped (w : Wave) (n : Nat) (m : Mask) : (w.setK n m).jumped = w.jumped := rfl
@[simp] theorem Wave.setK_sup (w : Wave) (n : Nat) (m : Mask) : (w.setK n m).sup = w.sup := rfl
@[simp] theorem Wave.setK_live (w : Wave) (n : Nat) (m : Mask) : (w.setK n m).live = w.live := rfl
@[simp] theorem Wave.setK_c (w : Wave) (n : Nat) (m : Mask) : (w.setK n m).c = w.c := rfl
@[simp] theorem Wave.setK_s (w : Wave) (n : Nat) (m : Mask) : (w.setK n m).s = w.s := rfl
@[simp] theorem Wave.setK_v (w : Wave) (n : Nat) (m : Mask) : (w.setK n m).v = w.v := rfl
@[simp] theorem Wave.setK_o (w : Wave) (n : Nat) (m : Mask) : (w.setK n m).o = w.o := rfl
@[simp] theorem Wave.setK_l (w : Wave) (n : Nat) (m : Mask) : (w.setK n m).l = w.l := rfl
@[simp] theorem Wave.setK_lSup (w : Wave) (n : Nat) (m : Mask) : (w.setK n m).lSup = w.lSup := rfl
@[simp] theorem Wave.setK_x (w : Wave) (n : Nat) (m : Mask) : (w.setK n m).x = w.x := rfl
@[simp] theorem Wave.setK_q (w : Wave) (n : Nat) (m : Mask) : (w.setK n m).q = w.q := rfl
@[simp] theorem Wave.setK_bound (w : Wave) (n : Nat) (m : Mask) : (w.setK n m).bound = w.bound := rfl
@[simp] theorem Wave.setK_granule (w : Wave) (n : Nat) (m : Mask) : (w.setK n m).granule = w.granule := rfl
@[simp] theorem Wave.setK_fpflags (w : Wave) (n : Nat) (m : Mask) : (w.setK n m).fpflags = w.fpflags := rfl
@[simp] theorem Wave.setK_srseed (w : Wave) (n : Nat) (m : Mask) : (w.setK n m).srseed = w.srseed := rfl
@[simp] theorem Wave.setK_horizon (w : Wave) (n : Nat) (m : Mask) : (w.setK n m).horizon = w.horizon := rfl
@[simp] theorem Wave.setK_rep (w : Wave) (n : Nat) (m : Mask) : (w.setK n m).rep = w.rep := rfl
@[simp] theorem Wave.setK_repStr (w : Wave) (n : Nat) (m : Mask) : (w.setK n m).repStr = w.repStr := rfl
@[simp] theorem Wave.setK_repStrSup (w : Wave) (n : Nat) (m : Mask) : (w.setK n m).repStrSup = w.repStrSup := rfl
@[simp] theorem Wave.setK_loop (w : Wave) (n : Nat) (m : Mask) : (w.setK n m).loop = w.loop := rfl
@[simp] theorem Wave.setK_loopSup (w : Wave) (n : Nat) (m : Mask) : (w.setK n m).loopSup = w.loopSup := rfl
@[simp] theorem Wave.setK_trapcause (w : Wave) (n : Nat) (m : Mask) : (w.setK n m).trapcause = w.trapcause := rfl
@[simp] theorem Wave.setK_trapmask (w : Wave) (n : Nat) (m : Mask) : (w.setK n m).trapmask = w.trapmask := rfl
@[simp] theorem Wave.setK_trapinfo (w : Wave) (n : Nat) (m : Mask) : (w.setK n m).trapinfo = w.trapinfo := rfl
@[simp] theorem Wave.setK_pass (w : Wave) (n : Nat) (m : Mask) : (w.setK n m).pass = w.pass := rfl
@[simp] theorem Wave.setK_arrivals (w : Wave) (n : Nat) (m : Mask) : (w.setK n m).arrivals = w.arrivals := rfl
@[simp] theorem Wave.setK_endH (w : Wave) (n : Nat) (m : Mask) : (w.setK n m).endH = w.endH := rfl
@[simp] theorem Wave.setK_endSet (w : Wave) (n : Nat) (m : Mask) : (w.setK n m).endSet = w.endSet := rfl
@[simp] theorem Wave.setK_wake (w : Wave) (n : Nat) (m : Mask) : (w.setK n m).wake = w.wake := rfl
@[simp] theorem Wave.setK_yield (w : Wave) (n : Nat) (m : Mask) : (w.setK n m).yield = w.yield := rfl
@[simp] theorem Wave.setK_hold (w : Wave) (n : Nat) (m : Mask) : (w.setK n m).hold = w.hold := rfl
@[simp] theorem Wave.setK_delayed (w : Wave) (n : Nat) (m : Mask) : (w.setK n m).delayed = w.delayed := rfl
@[simp] theorem Wave.setK_openBatch (w : Wave) (n : Nat) (m : Mask) : (w.setK n m).openBatch = w.openBatch := rfl
@[simp] theorem Wave.setK_batches (w : Wave) (n : Nat) (m : Mask) : (w.setK n m).batches = w.batches := rfl
@[simp] theorem Wave.setK_nextBatch (w : Wave) (n : Nat) (m : Mask) : (w.setK n m).nextBatch = w.nextBatch := rfl
@[simp] theorem Wave.setK_streams (w : Wave) (n : Nat) (m : Mask) : (w.setK n m).streams = w.streams := rfl
@[simp] theorem Wave.setK_invals (w : Wave) (n : Nat) (m : Mask) : (w.setK n m).invals = w.invals := rfl
@[simp] theorem Wave.setK_watch (w : Wave) (n : Nat) (m : Mask) : (w.setK n m).watch = w.watch := rfl
@[simp] theorem Wave.setK_nextColl (w : Wave) (n : Nat) (m : Mask) : (w.setK n m).nextColl = w.nextColl := rfl
@[simp] theorem Wave.setK_regions (w : Wave) (n : Nat) (m : Mask) : (w.setK n m).regions = w.regions := rfl
@[simp] theorem Wave.setK_rgndepth (w : Wave) (n : Nat) (m : Mask) : (w.setK n m).rgndepth = w.rgndepth := rfl
@[simp] theorem Wave.setK_halted (w : Wave) (n : Nat) (m : Mask) : (w.setK n m).halted = w.halted := rfl
@[simp] theorem Wave.setK_haltAs (w : Wave) (n : Nat) (m : Mask) : (w.setK n m).haltAs = w.haltAs := rfl
@[simp] theorem Wave.setK_stepOnce (w : Wave) (n : Nat) (m : Mask) : (w.setK n m).stepOnce = w.stepOnce := rfl
@[simp] theorem Wave.setK_exempt (w : Wave) (n : Nat) (m : Mask) : (w.setK n m).exempt = w.exempt := rfl

/-! ### Wave.setV -/

@[simp] theorem Wave.setV_id (w : Wave) (n : Nat) (l : Lanes) : (w.setV n l).id = w.id := rfl
@[simp] theorem Wave.setV_cord (w : Wave) (n : Nat) (l : Lanes) : (w.setV n l).cord = w.cord := rfl
@[simp] theorem Wave.setV_index (w : Wave) (n : Nat) (l : Lanes) : (w.setV n l).index = w.index := rfl
@[simp] theorem Wave.setV_wait (w : Wave) (n : Nat) (l : Lanes) : (w.setV n l).wait = w.wait := rfl
@[simp] theorem Wave.setV_pc (w : Wave) (n : Nat) (l : Lanes) : (w.setV n l).pc = w.pc := rfl
@[simp] theorem Wave.setV_jumped (w : Wave) (n : Nat) (l : Lanes) : (w.setV n l).jumped = w.jumped := rfl
@[simp] theorem Wave.setV_sup (w : Wave) (n : Nat) (l : Lanes) : (w.setV n l).sup = w.sup := rfl
@[simp] theorem Wave.setV_live (w : Wave) (n : Nat) (l : Lanes) : (w.setV n l).live = w.live := rfl
@[simp] theorem Wave.setV_k (w : Wave) (n : Nat) (l : Lanes) : (w.setV n l).k = w.k := rfl
@[simp] theorem Wave.setV_c (w : Wave) (n : Nat) (l : Lanes) : (w.setV n l).c = w.c := rfl
@[simp] theorem Wave.setV_s (w : Wave) (n : Nat) (l : Lanes) : (w.setV n l).s = w.s := rfl
@[simp] theorem Wave.setV_o (w : Wave) (n : Nat) (l : Lanes) : (w.setV n l).o = w.o := rfl
@[simp] theorem Wave.setV_l (w : Wave) (n : Nat) (l : Lanes) : (w.setV n l).l = w.l := rfl
@[simp] theorem Wave.setV_lSup (w : Wave) (n : Nat) (l : Lanes) : (w.setV n l).lSup = w.lSup := rfl
@[simp] theorem Wave.setV_x (w : Wave) (n : Nat) (l : Lanes) : (w.setV n l).x = w.x := rfl
@[simp] theorem Wave.setV_q (w : Wave) (n : Nat) (l : Lanes) : (w.setV n l).q = w.q := rfl
@[simp] theorem Wave.setV_bound (w : Wave) (n : Nat) (l : Lanes) : (w.setV n l).bound = w.bound := rfl
@[simp] theorem Wave.setV_granule (w : Wave) (n : Nat) (l : Lanes) : (w.setV n l).granule = w.granule := rfl
@[simp] theorem Wave.setV_fpflags (w : Wave) (n : Nat) (l : Lanes) : (w.setV n l).fpflags = w.fpflags := rfl
@[simp] theorem Wave.setV_srseed (w : Wave) (n : Nat) (l : Lanes) : (w.setV n l).srseed = w.srseed := rfl
@[simp] theorem Wave.setV_horizon (w : Wave) (n : Nat) (l : Lanes) : (w.setV n l).horizon = w.horizon := rfl
@[simp] theorem Wave.setV_rep (w : Wave) (n : Nat) (l : Lanes) : (w.setV n l).rep = w.rep := rfl
@[simp] theorem Wave.setV_repStr (w : Wave) (n : Nat) (l : Lanes) : (w.setV n l).repStr = w.repStr := rfl
@[simp] theorem Wave.setV_repStrSup (w : Wave) (n : Nat) (l : Lanes) : (w.setV n l).repStrSup = w.repStrSup := rfl
@[simp] theorem Wave.setV_loop (w : Wave) (n : Nat) (l : Lanes) : (w.setV n l).loop = w.loop := rfl
@[simp] theorem Wave.setV_loopSup (w : Wave) (n : Nat) (l : Lanes) : (w.setV n l).loopSup = w.loopSup := rfl
@[simp] theorem Wave.setV_trapcause (w : Wave) (n : Nat) (l : Lanes) : (w.setV n l).trapcause = w.trapcause := rfl
@[simp] theorem Wave.setV_trapmask (w : Wave) (n : Nat) (l : Lanes) : (w.setV n l).trapmask = w.trapmask := rfl
@[simp] theorem Wave.setV_trapinfo (w : Wave) (n : Nat) (l : Lanes) : (w.setV n l).trapinfo = w.trapinfo := rfl
@[simp] theorem Wave.setV_pass (w : Wave) (n : Nat) (l : Lanes) : (w.setV n l).pass = w.pass := rfl
@[simp] theorem Wave.setV_arrivals (w : Wave) (n : Nat) (l : Lanes) : (w.setV n l).arrivals = w.arrivals := rfl
@[simp] theorem Wave.setV_endH (w : Wave) (n : Nat) (l : Lanes) : (w.setV n l).endH = w.endH := rfl
@[simp] theorem Wave.setV_endSet (w : Wave) (n : Nat) (l : Lanes) : (w.setV n l).endSet = w.endSet := rfl
@[simp] theorem Wave.setV_wake (w : Wave) (n : Nat) (l : Lanes) : (w.setV n l).wake = w.wake := rfl
@[simp] theorem Wave.setV_yield (w : Wave) (n : Nat) (l : Lanes) : (w.setV n l).yield = w.yield := rfl
@[simp] theorem Wave.setV_hold (w : Wave) (n : Nat) (l : Lanes) : (w.setV n l).hold = w.hold := rfl
@[simp] theorem Wave.setV_delayed (w : Wave) (n : Nat) (l : Lanes) : (w.setV n l).delayed = w.delayed := rfl
@[simp] theorem Wave.setV_openBatch (w : Wave) (n : Nat) (l : Lanes) : (w.setV n l).openBatch = w.openBatch := rfl
@[simp] theorem Wave.setV_batches (w : Wave) (n : Nat) (l : Lanes) : (w.setV n l).batches = w.batches := rfl
@[simp] theorem Wave.setV_nextBatch (w : Wave) (n : Nat) (l : Lanes) : (w.setV n l).nextBatch = w.nextBatch := rfl
@[simp] theorem Wave.setV_streams (w : Wave) (n : Nat) (l : Lanes) : (w.setV n l).streams = w.streams := rfl
@[simp] theorem Wave.setV_invals (w : Wave) (n : Nat) (l : Lanes) : (w.setV n l).invals = w.invals := rfl
@[simp] theorem Wave.setV_watch (w : Wave) (n : Nat) (l : Lanes) : (w.setV n l).watch = w.watch := rfl
@[simp] theorem Wave.setV_nextColl (w : Wave) (n : Nat) (l : Lanes) : (w.setV n l).nextColl = w.nextColl := rfl
@[simp] theorem Wave.setV_regions (w : Wave) (n : Nat) (l : Lanes) : (w.setV n l).regions = w.regions := rfl
@[simp] theorem Wave.setV_rgndepth (w : Wave) (n : Nat) (l : Lanes) : (w.setV n l).rgndepth = w.rgndepth := rfl
@[simp] theorem Wave.setV_halted (w : Wave) (n : Nat) (l : Lanes) : (w.setV n l).halted = w.halted := rfl
@[simp] theorem Wave.setV_haltAs (w : Wave) (n : Nat) (l : Lanes) : (w.setV n l).haltAs = w.haltAs := rfl
@[simp] theorem Wave.setV_stepOnce (w : Wave) (n : Nat) (l : Lanes) : (w.setV n l).stepOnce = w.stepOnce := rfl
@[simp] theorem Wave.setV_exempt (w : Wave) (n : Nat) (l : Lanes) : (w.setV n l).exempt = w.exempt := rfl

/-! ### Wave.setO -/

@[simp] theorem Wave.setO_id (w : Wave) (n : Nat) (l : Lanes) : (w.setO n l).id = w.id := rfl
@[simp] theorem Wave.setO_cord (w : Wave) (n : Nat) (l : Lanes) : (w.setO n l).cord = w.cord := rfl
@[simp] theorem Wave.setO_index (w : Wave) (n : Nat) (l : Lanes) : (w.setO n l).index = w.index := rfl
@[simp] theorem Wave.setO_wait (w : Wave) (n : Nat) (l : Lanes) : (w.setO n l).wait = w.wait := rfl
@[simp] theorem Wave.setO_pc (w : Wave) (n : Nat) (l : Lanes) : (w.setO n l).pc = w.pc := rfl
@[simp] theorem Wave.setO_jumped (w : Wave) (n : Nat) (l : Lanes) : (w.setO n l).jumped = w.jumped := rfl
@[simp] theorem Wave.setO_sup (w : Wave) (n : Nat) (l : Lanes) : (w.setO n l).sup = w.sup := rfl
@[simp] theorem Wave.setO_live (w : Wave) (n : Nat) (l : Lanes) : (w.setO n l).live = w.live := rfl
@[simp] theorem Wave.setO_k (w : Wave) (n : Nat) (l : Lanes) : (w.setO n l).k = w.k := rfl
@[simp] theorem Wave.setO_c (w : Wave) (n : Nat) (l : Lanes) : (w.setO n l).c = w.c := rfl
@[simp] theorem Wave.setO_s (w : Wave) (n : Nat) (l : Lanes) : (w.setO n l).s = w.s := rfl
@[simp] theorem Wave.setO_v (w : Wave) (n : Nat) (l : Lanes) : (w.setO n l).v = w.v := rfl
@[simp] theorem Wave.setO_l (w : Wave) (n : Nat) (l : Lanes) : (w.setO n l).l = w.l := rfl
@[simp] theorem Wave.setO_lSup (w : Wave) (n : Nat) (l : Lanes) : (w.setO n l).lSup = w.lSup := rfl
@[simp] theorem Wave.setO_x (w : Wave) (n : Nat) (l : Lanes) : (w.setO n l).x = w.x := rfl
@[simp] theorem Wave.setO_q (w : Wave) (n : Nat) (l : Lanes) : (w.setO n l).q = w.q := rfl
@[simp] theorem Wave.setO_bound (w : Wave) (n : Nat) (l : Lanes) : (w.setO n l).bound = w.bound := rfl
@[simp] theorem Wave.setO_granule (w : Wave) (n : Nat) (l : Lanes) : (w.setO n l).granule = w.granule := rfl
@[simp] theorem Wave.setO_fpflags (w : Wave) (n : Nat) (l : Lanes) : (w.setO n l).fpflags = w.fpflags := rfl
@[simp] theorem Wave.setO_srseed (w : Wave) (n : Nat) (l : Lanes) : (w.setO n l).srseed = w.srseed := rfl
@[simp] theorem Wave.setO_horizon (w : Wave) (n : Nat) (l : Lanes) : (w.setO n l).horizon = w.horizon := rfl
@[simp] theorem Wave.setO_rep (w : Wave) (n : Nat) (l : Lanes) : (w.setO n l).rep = w.rep := rfl
@[simp] theorem Wave.setO_repStr (w : Wave) (n : Nat) (l : Lanes) : (w.setO n l).repStr = w.repStr := rfl
@[simp] theorem Wave.setO_repStrSup (w : Wave) (n : Nat) (l : Lanes) : (w.setO n l).repStrSup = w.repStrSup := rfl
@[simp] theorem Wave.setO_loop (w : Wave) (n : Nat) (l : Lanes) : (w.setO n l).loop = w.loop := rfl
@[simp] theorem Wave.setO_loopSup (w : Wave) (n : Nat) (l : Lanes) : (w.setO n l).loopSup = w.loopSup := rfl
@[simp] theorem Wave.setO_trapcause (w : Wave) (n : Nat) (l : Lanes) : (w.setO n l).trapcause = w.trapcause := rfl
@[simp] theorem Wave.setO_trapmask (w : Wave) (n : Nat) (l : Lanes) : (w.setO n l).trapmask = w.trapmask := rfl
@[simp] theorem Wave.setO_trapinfo (w : Wave) (n : Nat) (l : Lanes) : (w.setO n l).trapinfo = w.trapinfo := rfl
@[simp] theorem Wave.setO_pass (w : Wave) (n : Nat) (l : Lanes) : (w.setO n l).pass = w.pass := rfl
@[simp] theorem Wave.setO_arrivals (w : Wave) (n : Nat) (l : Lanes) : (w.setO n l).arrivals = w.arrivals := rfl
@[simp] theorem Wave.setO_endH (w : Wave) (n : Nat) (l : Lanes) : (w.setO n l).endH = w.endH := rfl
@[simp] theorem Wave.setO_endSet (w : Wave) (n : Nat) (l : Lanes) : (w.setO n l).endSet = w.endSet := rfl
@[simp] theorem Wave.setO_wake (w : Wave) (n : Nat) (l : Lanes) : (w.setO n l).wake = w.wake := rfl
@[simp] theorem Wave.setO_yield (w : Wave) (n : Nat) (l : Lanes) : (w.setO n l).yield = w.yield := rfl
@[simp] theorem Wave.setO_hold (w : Wave) (n : Nat) (l : Lanes) : (w.setO n l).hold = w.hold := rfl
@[simp] theorem Wave.setO_delayed (w : Wave) (n : Nat) (l : Lanes) : (w.setO n l).delayed = w.delayed := rfl
@[simp] theorem Wave.setO_openBatch (w : Wave) (n : Nat) (l : Lanes) : (w.setO n l).openBatch = w.openBatch := rfl
@[simp] theorem Wave.setO_batches (w : Wave) (n : Nat) (l : Lanes) : (w.setO n l).batches = w.batches := rfl
@[simp] theorem Wave.setO_nextBatch (w : Wave) (n : Nat) (l : Lanes) : (w.setO n l).nextBatch = w.nextBatch := rfl
@[simp] theorem Wave.setO_streams (w : Wave) (n : Nat) (l : Lanes) : (w.setO n l).streams = w.streams := rfl
@[simp] theorem Wave.setO_invals (w : Wave) (n : Nat) (l : Lanes) : (w.setO n l).invals = w.invals := rfl
@[simp] theorem Wave.setO_watch (w : Wave) (n : Nat) (l : Lanes) : (w.setO n l).watch = w.watch := rfl
@[simp] theorem Wave.setO_nextColl (w : Wave) (n : Nat) (l : Lanes) : (w.setO n l).nextColl = w.nextColl := rfl
@[simp] theorem Wave.setO_regions (w : Wave) (n : Nat) (l : Lanes) : (w.setO n l).regions = w.regions := rfl
@[simp] theorem Wave.setO_rgndepth (w : Wave) (n : Nat) (l : Lanes) : (w.setO n l).rgndepth = w.rgndepth := rfl
@[simp] theorem Wave.setO_halted (w : Wave) (n : Nat) (l : Lanes) : (w.setO n l).halted = w.halted := rfl
@[simp] theorem Wave.setO_haltAs (w : Wave) (n : Nat) (l : Lanes) : (w.setO n l).haltAs = w.haltAs := rfl
@[simp] theorem Wave.setO_stepOnce (w : Wave) (n : Nat) (l : Lanes) : (w.setO n l).stepOnce = w.stepOnce := rfl
@[simp] theorem Wave.setO_exempt (w : Wave) (n : Nat) (l : Lanes) : (w.setO n l).exempt = w.exempt := rfl

/-! ### Wave.orFlags -/

@[simp] theorem Wave.orFlags_id (w : Wave) (f : BitVec 5) : (w.orFlags f).id = w.id := rfl
@[simp] theorem Wave.orFlags_cord (w : Wave) (f : BitVec 5) : (w.orFlags f).cord = w.cord := rfl
@[simp] theorem Wave.orFlags_index (w : Wave) (f : BitVec 5) : (w.orFlags f).index = w.index := rfl
@[simp] theorem Wave.orFlags_wait (w : Wave) (f : BitVec 5) : (w.orFlags f).wait = w.wait := rfl
@[simp] theorem Wave.orFlags_pc (w : Wave) (f : BitVec 5) : (w.orFlags f).pc = w.pc := rfl
@[simp] theorem Wave.orFlags_jumped (w : Wave) (f : BitVec 5) : (w.orFlags f).jumped = w.jumped := rfl
@[simp] theorem Wave.orFlags_sup (w : Wave) (f : BitVec 5) : (w.orFlags f).sup = w.sup := rfl
@[simp] theorem Wave.orFlags_live (w : Wave) (f : BitVec 5) : (w.orFlags f).live = w.live := rfl
@[simp] theorem Wave.orFlags_k (w : Wave) (f : BitVec 5) : (w.orFlags f).k = w.k := rfl
@[simp] theorem Wave.orFlags_c (w : Wave) (f : BitVec 5) : (w.orFlags f).c = w.c := rfl
@[simp] theorem Wave.orFlags_s (w : Wave) (f : BitVec 5) : (w.orFlags f).s = w.s := rfl
@[simp] theorem Wave.orFlags_v (w : Wave) (f : BitVec 5) : (w.orFlags f).v = w.v := rfl
@[simp] theorem Wave.orFlags_o (w : Wave) (f : BitVec 5) : (w.orFlags f).o = w.o := rfl
@[simp] theorem Wave.orFlags_l (w : Wave) (f : BitVec 5) : (w.orFlags f).l = w.l := rfl
@[simp] theorem Wave.orFlags_lSup (w : Wave) (f : BitVec 5) : (w.orFlags f).lSup = w.lSup := rfl
@[simp] theorem Wave.orFlags_x (w : Wave) (f : BitVec 5) : (w.orFlags f).x = w.x := rfl
@[simp] theorem Wave.orFlags_q (w : Wave) (f : BitVec 5) : (w.orFlags f).q = w.q := rfl
@[simp] theorem Wave.orFlags_bound (w : Wave) (f : BitVec 5) : (w.orFlags f).bound = w.bound := rfl
@[simp] theorem Wave.orFlags_granule (w : Wave) (f : BitVec 5) : (w.orFlags f).granule = w.granule := rfl
@[simp] theorem Wave.orFlags_srseed (w : Wave) (f : BitVec 5) : (w.orFlags f).srseed = w.srseed := rfl
@[simp] theorem Wave.orFlags_horizon (w : Wave) (f : BitVec 5) : (w.orFlags f).horizon = w.horizon := rfl
@[simp] theorem Wave.orFlags_rep (w : Wave) (f : BitVec 5) : (w.orFlags f).rep = w.rep := rfl
@[simp] theorem Wave.orFlags_repStr (w : Wave) (f : BitVec 5) : (w.orFlags f).repStr = w.repStr := rfl
@[simp] theorem Wave.orFlags_repStrSup (w : Wave) (f : BitVec 5) : (w.orFlags f).repStrSup = w.repStrSup := rfl
@[simp] theorem Wave.orFlags_loop (w : Wave) (f : BitVec 5) : (w.orFlags f).loop = w.loop := rfl
@[simp] theorem Wave.orFlags_loopSup (w : Wave) (f : BitVec 5) : (w.orFlags f).loopSup = w.loopSup := rfl
@[simp] theorem Wave.orFlags_trapcause (w : Wave) (f : BitVec 5) : (w.orFlags f).trapcause = w.trapcause := rfl
@[simp] theorem Wave.orFlags_trapmask (w : Wave) (f : BitVec 5) : (w.orFlags f).trapmask = w.trapmask := rfl
@[simp] theorem Wave.orFlags_trapinfo (w : Wave) (f : BitVec 5) : (w.orFlags f).trapinfo = w.trapinfo := rfl
@[simp] theorem Wave.orFlags_pass (w : Wave) (f : BitVec 5) : (w.orFlags f).pass = w.pass := rfl
@[simp] theorem Wave.orFlags_arrivals (w : Wave) (f : BitVec 5) : (w.orFlags f).arrivals = w.arrivals := rfl
@[simp] theorem Wave.orFlags_endH (w : Wave) (f : BitVec 5) : (w.orFlags f).endH = w.endH := rfl
@[simp] theorem Wave.orFlags_endSet (w : Wave) (f : BitVec 5) : (w.orFlags f).endSet = w.endSet := rfl
@[simp] theorem Wave.orFlags_wake (w : Wave) (f : BitVec 5) : (w.orFlags f).wake = w.wake := rfl
@[simp] theorem Wave.orFlags_yield (w : Wave) (f : BitVec 5) : (w.orFlags f).yield = w.yield := rfl
@[simp] theorem Wave.orFlags_hold (w : Wave) (f : BitVec 5) : (w.orFlags f).hold = w.hold := rfl
@[simp] theorem Wave.orFlags_delayed (w : Wave) (f : BitVec 5) : (w.orFlags f).delayed = w.delayed := rfl
@[simp] theorem Wave.orFlags_openBatch (w : Wave) (f : BitVec 5) : (w.orFlags f).openBatch = w.openBatch := rfl
@[simp] theorem Wave.orFlags_batches (w : Wave) (f : BitVec 5) : (w.orFlags f).batches = w.batches := rfl
@[simp] theorem Wave.orFlags_nextBatch (w : Wave) (f : BitVec 5) : (w.orFlags f).nextBatch = w.nextBatch := rfl
@[simp] theorem Wave.orFlags_streams (w : Wave) (f : BitVec 5) : (w.orFlags f).streams = w.streams := rfl
@[simp] theorem Wave.orFlags_invals (w : Wave) (f : BitVec 5) : (w.orFlags f).invals = w.invals := rfl
@[simp] theorem Wave.orFlags_watch (w : Wave) (f : BitVec 5) : (w.orFlags f).watch = w.watch := rfl
@[simp] theorem Wave.orFlags_nextColl (w : Wave) (f : BitVec 5) : (w.orFlags f).nextColl = w.nextColl := rfl
@[simp] theorem Wave.orFlags_regions (w : Wave) (f : BitVec 5) : (w.orFlags f).regions = w.regions := rfl
@[simp] theorem Wave.orFlags_rgndepth (w : Wave) (f : BitVec 5) : (w.orFlags f).rgndepth = w.rgndepth := rfl
@[simp] theorem Wave.orFlags_halted (w : Wave) (f : BitVec 5) : (w.orFlags f).halted = w.halted := rfl
@[simp] theorem Wave.orFlags_haltAs (w : Wave) (f : BitVec 5) : (w.orFlags f).haltAs = w.haltAs := rfl
@[simp] theorem Wave.orFlags_stepOnce (w : Wave) (f : BitVec 5) : (w.orFlags f).stepOnce = w.stepOnce := rfl
@[simp] theorem Wave.orFlags_exempt (w : Wave) (f : BitVec 5) : (w.orFlags f).exempt = w.exempt := rfl

/-! ### Wave.raise -/

@[simp] theorem Wave.raise_id (w : Wave) (t : Nat) : (w.raise t).id = w.id := rfl
@[simp] theorem Wave.raise_cord (w : Wave) (t : Nat) : (w.raise t).cord = w.cord := rfl
@[simp] theorem Wave.raise_index (w : Wave) (t : Nat) : (w.raise t).index = w.index := rfl
@[simp] theorem Wave.raise_wait (w : Wave) (t : Nat) : (w.raise t).wait = w.wait := rfl
@[simp] theorem Wave.raise_pc (w : Wave) (t : Nat) : (w.raise t).pc = w.pc := rfl
@[simp] theorem Wave.raise_jumped (w : Wave) (t : Nat) : (w.raise t).jumped = w.jumped := rfl
@[simp] theorem Wave.raise_sup (w : Wave) (t : Nat) : (w.raise t).sup = w.sup := rfl
@[simp] theorem Wave.raise_live (w : Wave) (t : Nat) : (w.raise t).live = w.live := rfl
@[simp] theorem Wave.raise_k (w : Wave) (t : Nat) : (w.raise t).k = w.k := rfl
@[simp] theorem Wave.raise_c (w : Wave) (t : Nat) : (w.raise t).c = w.c := rfl
@[simp] theorem Wave.raise_s (w : Wave) (t : Nat) : (w.raise t).s = w.s := rfl
@[simp] theorem Wave.raise_v (w : Wave) (t : Nat) : (w.raise t).v = w.v := rfl
@[simp] theorem Wave.raise_o (w : Wave) (t : Nat) : (w.raise t).o = w.o := rfl
@[simp] theorem Wave.raise_l (w : Wave) (t : Nat) : (w.raise t).l = w.l := rfl
@[simp] theorem Wave.raise_lSup (w : Wave) (t : Nat) : (w.raise t).lSup = w.lSup := rfl
@[simp] theorem Wave.raise_x (w : Wave) (t : Nat) : (w.raise t).x = w.x := rfl
@[simp] theorem Wave.raise_q (w : Wave) (t : Nat) : (w.raise t).q = w.q := rfl
@[simp] theorem Wave.raise_bound (w : Wave) (t : Nat) : (w.raise t).bound = w.bound := rfl
@[simp] theorem Wave.raise_granule (w : Wave) (t : Nat) : (w.raise t).granule = w.granule := rfl
@[simp] theorem Wave.raise_fpflags (w : Wave) (t : Nat) : (w.raise t).fpflags = w.fpflags := rfl
@[simp] theorem Wave.raise_srseed (w : Wave) (t : Nat) : (w.raise t).srseed = w.srseed := rfl
@[simp] theorem Wave.raise_rep (w : Wave) (t : Nat) : (w.raise t).rep = w.rep := rfl
@[simp] theorem Wave.raise_repStr (w : Wave) (t : Nat) : (w.raise t).repStr = w.repStr := rfl
@[simp] theorem Wave.raise_repStrSup (w : Wave) (t : Nat) : (w.raise t).repStrSup = w.repStrSup := rfl
@[simp] theorem Wave.raise_loop (w : Wave) (t : Nat) : (w.raise t).loop = w.loop := rfl
@[simp] theorem Wave.raise_loopSup (w : Wave) (t : Nat) : (w.raise t).loopSup = w.loopSup := rfl
@[simp] theorem Wave.raise_trapcause (w : Wave) (t : Nat) : (w.raise t).trapcause = w.trapcause := rfl
@[simp] theorem Wave.raise_trapmask (w : Wave) (t : Nat) : (w.raise t).trapmask = w.trapmask := rfl
@[simp] theorem Wave.raise_trapinfo (w : Wave) (t : Nat) : (w.raise t).trapinfo = w.trapinfo := rfl
@[simp] theorem Wave.raise_pass (w : Wave) (t : Nat) : (w.raise t).pass = w.pass := rfl
@[simp] theorem Wave.raise_arrivals (w : Wave) (t : Nat) : (w.raise t).arrivals = w.arrivals := rfl
@[simp] theorem Wave.raise_endH (w : Wave) (t : Nat) : (w.raise t).endH = w.endH := rfl
@[simp] theorem Wave.raise_endSet (w : Wave) (t : Nat) : (w.raise t).endSet = w.endSet := rfl
@[simp] theorem Wave.raise_wake (w : Wave) (t : Nat) : (w.raise t).wake = w.wake := rfl
@[simp] theorem Wave.raise_yield (w : Wave) (t : Nat) : (w.raise t).yield = w.yield := rfl
@[simp] theorem Wave.raise_hold (w : Wave) (t : Nat) : (w.raise t).hold = w.hold := rfl
@[simp] theorem Wave.raise_delayed (w : Wave) (t : Nat) : (w.raise t).delayed = w.delayed := rfl
@[simp] theorem Wave.raise_openBatch (w : Wave) (t : Nat) : (w.raise t).openBatch = w.openBatch := rfl
@[simp] theorem Wave.raise_batches (w : Wave) (t : Nat) : (w.raise t).batches = w.batches := rfl
@[simp] theorem Wave.raise_nextBatch (w : Wave) (t : Nat) : (w.raise t).nextBatch = w.nextBatch := rfl
@[simp] theorem Wave.raise_streams (w : Wave) (t : Nat) : (w.raise t).streams = w.streams := rfl
@[simp] theorem Wave.raise_invals (w : Wave) (t : Nat) : (w.raise t).invals = w.invals := rfl
@[simp] theorem Wave.raise_watch (w : Wave) (t : Nat) : (w.raise t).watch = w.watch := rfl
@[simp] theorem Wave.raise_nextColl (w : Wave) (t : Nat) : (w.raise t).nextColl = w.nextColl := rfl
@[simp] theorem Wave.raise_regions (w : Wave) (t : Nat) : (w.raise t).regions = w.regions := rfl
@[simp] theorem Wave.raise_rgndepth (w : Wave) (t : Nat) : (w.raise t).rgndepth = w.rgndepth := rfl
@[simp] theorem Wave.raise_halted (w : Wave) (t : Nat) : (w.raise t).halted = w.halted := rfl
@[simp] theorem Wave.raise_haltAs (w : Wave) (t : Nat) : (w.raise t).haltAs = w.haltAs := rfl
@[simp] theorem Wave.raise_stepOnce (w : Wave) (t : Nat) : (w.raise t).stepOnce = w.stepOnce := rfl
@[simp] theorem Wave.raise_exempt (w : Wave) (t : Nat) : (w.raise t).exempt = w.exempt := rfl

/-! ### Wave.watchAdd -/

@[simp] theorem Wave.watchAdd_id (w : Wave) (l : List Nat) : (w.watchAdd l).id = w.id := rfl
@[simp] theorem Wave.watchAdd_cord (w : Wave) (l : List Nat) : (w.watchAdd l).cord = w.cord := rfl
@[simp] theorem Wave.watchAdd_index (w : Wave) (l : List Nat) : (w.watchAdd l).index = w.index := rfl
@[simp] theorem Wave.watchAdd_wait (w : Wave) (l : List Nat) : (w.watchAdd l).wait = w.wait := rfl
@[simp] theorem Wave.watchAdd_pc (w : Wave) (l : List Nat) : (w.watchAdd l).pc = w.pc := rfl
@[simp] theorem Wave.watchAdd_jumped (w : Wave) (l : List Nat) : (w.watchAdd l).jumped = w.jumped := rfl
@[simp] theorem Wave.watchAdd_sup (w : Wave) (l : List Nat) : (w.watchAdd l).sup = w.sup := rfl
@[simp] theorem Wave.watchAdd_live (w : Wave) (l : List Nat) : (w.watchAdd l).live = w.live := rfl
@[simp] theorem Wave.watchAdd_k (w : Wave) (l : List Nat) : (w.watchAdd l).k = w.k := rfl
@[simp] theorem Wave.watchAdd_c (w : Wave) (l : List Nat) : (w.watchAdd l).c = w.c := rfl
@[simp] theorem Wave.watchAdd_s (w : Wave) (l : List Nat) : (w.watchAdd l).s = w.s := rfl
@[simp] theorem Wave.watchAdd_v (w : Wave) (l : List Nat) : (w.watchAdd l).v = w.v := rfl
@[simp] theorem Wave.watchAdd_o (w : Wave) (l : List Nat) : (w.watchAdd l).o = w.o := rfl
@[simp] theorem Wave.watchAdd_l (w : Wave) (l : List Nat) : (w.watchAdd l).l = w.l := rfl
@[simp] theorem Wave.watchAdd_lSup (w : Wave) (l : List Nat) : (w.watchAdd l).lSup = w.lSup := rfl
@[simp] theorem Wave.watchAdd_x (w : Wave) (l : List Nat) : (w.watchAdd l).x = w.x := rfl
@[simp] theorem Wave.watchAdd_q (w : Wave) (l : List Nat) : (w.watchAdd l).q = w.q := rfl
@[simp] theorem Wave.watchAdd_bound (w : Wave) (l : List Nat) : (w.watchAdd l).bound = w.bound := rfl
@[simp] theorem Wave.watchAdd_granule (w : Wave) (l : List Nat) : (w.watchAdd l).granule = w.granule := rfl
@[simp] theorem Wave.watchAdd_fpflags (w : Wave) (l : List Nat) : (w.watchAdd l).fpflags = w.fpflags := rfl
@[simp] theorem Wave.watchAdd_srseed (w : Wave) (l : List Nat) : (w.watchAdd l).srseed = w.srseed := rfl
@[simp] theorem Wave.watchAdd_horizon (w : Wave) (l : List Nat) : (w.watchAdd l).horizon = w.horizon := rfl
@[simp] theorem Wave.watchAdd_rep (w : Wave) (l : List Nat) : (w.watchAdd l).rep = w.rep := rfl
@[simp] theorem Wave.watchAdd_repStr (w : Wave) (l : List Nat) : (w.watchAdd l).repStr = w.repStr := rfl
@[simp] theorem Wave.watchAdd_repStrSup (w : Wave) (l : List Nat) : (w.watchAdd l).repStrSup = w.repStrSup := rfl
@[simp] theorem Wave.watchAdd_loop (w : Wave) (l : List Nat) : (w.watchAdd l).loop = w.loop := rfl
@[simp] theorem Wave.watchAdd_loopSup (w : Wave) (l : List Nat) : (w.watchAdd l).loopSup = w.loopSup := rfl
@[simp] theorem Wave.watchAdd_trapcause (w : Wave) (l : List Nat) : (w.watchAdd l).trapcause = w.trapcause := rfl
@[simp] theorem Wave.watchAdd_trapmask (w : Wave) (l : List Nat) : (w.watchAdd l).trapmask = w.trapmask := rfl
@[simp] theorem Wave.watchAdd_trapinfo (w : Wave) (l : List Nat) : (w.watchAdd l).trapinfo = w.trapinfo := rfl
@[simp] theorem Wave.watchAdd_pass (w : Wave) (l : List Nat) : (w.watchAdd l).pass = w.pass := rfl
@[simp] theorem Wave.watchAdd_arrivals (w : Wave) (l : List Nat) : (w.watchAdd l).arrivals = w.arrivals := rfl
@[simp] theorem Wave.watchAdd_endH (w : Wave) (l : List Nat) : (w.watchAdd l).endH = w.endH := rfl
@[simp] theorem Wave.watchAdd_endSet (w : Wave) (l : List Nat) : (w.watchAdd l).endSet = w.endSet := rfl
@[simp] theorem Wave.watchAdd_wake (w : Wave) (l : List Nat) : (w.watchAdd l).wake = w.wake := rfl
@[simp] theorem Wave.watchAdd_yield (w : Wave) (l : List Nat) : (w.watchAdd l).yield = w.yield := rfl
@[simp] theorem Wave.watchAdd_hold (w : Wave) (l : List Nat) : (w.watchAdd l).hold = w.hold := rfl
@[simp] theorem Wave.watchAdd_delayed (w : Wave) (l : List Nat) : (w.watchAdd l).delayed = w.delayed := rfl
@[simp] theorem Wave.watchAdd_openBatch (w : Wave) (l : List Nat) : (w.watchAdd l).openBatch = w.openBatch := rfl
@[simp] theorem Wave.watchAdd_batches (w : Wave) (l : List Nat) : (w.watchAdd l).batches = w.batches := rfl
@[simp] theorem Wave.watchAdd_nextBatch (w : Wave) (l : List Nat) : (w.watchAdd l).nextBatch = w.nextBatch := rfl
@[simp] theorem Wave.watchAdd_streams (w : Wave) (l : List Nat) : (w.watchAdd l).streams = w.streams := rfl
@[simp] theorem Wave.watchAdd_invals (w : Wave) (l : List Nat) : (w.watchAdd l).invals = w.invals := rfl
@[simp] theorem Wave.watchAdd_nextColl (w : Wave) (l : List Nat) : (w.watchAdd l).nextColl = w.nextColl := rfl
@[simp] theorem Wave.watchAdd_regions (w : Wave) (l : List Nat) : (w.watchAdd l).regions = w.regions := rfl
@[simp] theorem Wave.watchAdd_rgndepth (w : Wave) (l : List Nat) : (w.watchAdd l).rgndepth = w.rgndepth := rfl
@[simp] theorem Wave.watchAdd_halted (w : Wave) (l : List Nat) : (w.watchAdd l).halted = w.halted := rfl
@[simp] theorem Wave.watchAdd_haltAs (w : Wave) (l : List Nat) : (w.watchAdd l).haltAs = w.haltAs := rfl
@[simp] theorem Wave.watchAdd_stepOnce (w : Wave) (l : List Nat) : (w.watchAdd l).stepOnce = w.stepOnce := rfl
@[simp] theorem Wave.watchAdd_exempt (w : Wave) (l : List Nat) : (w.watchAdd l).exempt = w.exempt := rfl

/-! ### Wave.markEmpty -/

@[simp] theorem Wave.markEmpty_id (w : Wave) (a n : Nat) : (w.markEmpty a n).id = w.id := rfl
@[simp] theorem Wave.markEmpty_cord (w : Wave) (a n : Nat) : (w.markEmpty a n).cord = w.cord := rfl
@[simp] theorem Wave.markEmpty_index (w : Wave) (a n : Nat) : (w.markEmpty a n).index = w.index := rfl
@[simp] theorem Wave.markEmpty_wait (w : Wave) (a n : Nat) : (w.markEmpty a n).wait = w.wait := rfl
@[simp] theorem Wave.markEmpty_pc (w : Wave) (a n : Nat) : (w.markEmpty a n).pc = w.pc := rfl
@[simp] theorem Wave.markEmpty_jumped (w : Wave) (a n : Nat) : (w.markEmpty a n).jumped = w.jumped := rfl
@[simp] theorem Wave.markEmpty_sup (w : Wave) (a n : Nat) : (w.markEmpty a n).sup = w.sup := rfl
@[simp] theorem Wave.markEmpty_live (w : Wave) (a n : Nat) : (w.markEmpty a n).live = w.live := rfl
@[simp] theorem Wave.markEmpty_k (w : Wave) (a n : Nat) : (w.markEmpty a n).k = w.k := rfl
@[simp] theorem Wave.markEmpty_c (w : Wave) (a n : Nat) : (w.markEmpty a n).c = w.c := rfl
@[simp] theorem Wave.markEmpty_s (w : Wave) (a n : Nat) : (w.markEmpty a n).s = w.s := rfl
@[simp] theorem Wave.markEmpty_o (w : Wave) (a n : Nat) : (w.markEmpty a n).o = w.o := rfl
@[simp] theorem Wave.markEmpty_l (w : Wave) (a n : Nat) : (w.markEmpty a n).l = w.l := rfl
@[simp] theorem Wave.markEmpty_lSup (w : Wave) (a n : Nat) : (w.markEmpty a n).lSup = w.lSup := rfl
@[simp] theorem Wave.markEmpty_x (w : Wave) (a n : Nat) : (w.markEmpty a n).x = w.x := rfl
@[simp] theorem Wave.markEmpty_q (w : Wave) (a n : Nat) : (w.markEmpty a n).q = w.q := rfl
@[simp] theorem Wave.markEmpty_bound (w : Wave) (a n : Nat) : (w.markEmpty a n).bound = w.bound := rfl
@[simp] theorem Wave.markEmpty_granule (w : Wave) (a n : Nat) : (w.markEmpty a n).granule = w.granule := rfl
@[simp] theorem Wave.markEmpty_fpflags (w : Wave) (a n : Nat) : (w.markEmpty a n).fpflags = w.fpflags := rfl
@[simp] theorem Wave.markEmpty_srseed (w : Wave) (a n : Nat) : (w.markEmpty a n).srseed = w.srseed := rfl
@[simp] theorem Wave.markEmpty_horizon (w : Wave) (a n : Nat) : (w.markEmpty a n).horizon = w.horizon := rfl
@[simp] theorem Wave.markEmpty_rep (w : Wave) (a n : Nat) : (w.markEmpty a n).rep = w.rep := rfl
@[simp] theorem Wave.markEmpty_repStr (w : Wave) (a n : Nat) : (w.markEmpty a n).repStr = w.repStr := rfl
@[simp] theorem Wave.markEmpty_repStrSup (w : Wave) (a n : Nat) : (w.markEmpty a n).repStrSup = w.repStrSup := rfl
@[simp] theorem Wave.markEmpty_loop (w : Wave) (a n : Nat) : (w.markEmpty a n).loop = w.loop := rfl
@[simp] theorem Wave.markEmpty_loopSup (w : Wave) (a n : Nat) : (w.markEmpty a n).loopSup = w.loopSup := rfl
@[simp] theorem Wave.markEmpty_trapcause (w : Wave) (a n : Nat) : (w.markEmpty a n).trapcause = w.trapcause := rfl
@[simp] theorem Wave.markEmpty_trapmask (w : Wave) (a n : Nat) : (w.markEmpty a n).trapmask = w.trapmask := rfl
@[simp] theorem Wave.markEmpty_trapinfo (w : Wave) (a n : Nat) : (w.markEmpty a n).trapinfo = w.trapinfo := rfl
@[simp] theorem Wave.markEmpty_pass (w : Wave) (a n : Nat) : (w.markEmpty a n).pass = w.pass := rfl
@[simp] theorem Wave.markEmpty_arrivals (w : Wave) (a n : Nat) : (w.markEmpty a n).arrivals = w.arrivals := rfl
@[simp] theorem Wave.markEmpty_endH (w : Wave) (a n : Nat) : (w.markEmpty a n).endH = w.endH := rfl
@[simp] theorem Wave.markEmpty_endSet (w : Wave) (a n : Nat) : (w.markEmpty a n).endSet = w.endSet := rfl
@[simp] theorem Wave.markEmpty_wake (w : Wave) (a n : Nat) : (w.markEmpty a n).wake = w.wake := rfl
@[simp] theorem Wave.markEmpty_yield (w : Wave) (a n : Nat) : (w.markEmpty a n).yield = w.yield := rfl
@[simp] theorem Wave.markEmpty_hold (w : Wave) (a n : Nat) : (w.markEmpty a n).hold = w.hold := rfl
@[simp] theorem Wave.markEmpty_delayed (w : Wave) (a n : Nat) : (w.markEmpty a n).delayed = w.delayed := rfl
@[simp] theorem Wave.markEmpty_openBatch (w : Wave) (a n : Nat) : (w.markEmpty a n).openBatch = w.openBatch := rfl
@[simp] theorem Wave.markEmpty_batches (w : Wave) (a n : Nat) : (w.markEmpty a n).batches = w.batches := rfl
@[simp] theorem Wave.markEmpty_nextBatch (w : Wave) (a n : Nat) : (w.markEmpty a n).nextBatch = w.nextBatch := rfl
@[simp] theorem Wave.markEmpty_streams (w : Wave) (a n : Nat) : (w.markEmpty a n).streams = w.streams := rfl
@[simp] theorem Wave.markEmpty_invals (w : Wave) (a n : Nat) : (w.markEmpty a n).invals = w.invals := rfl
@[simp] theorem Wave.markEmpty_watch (w : Wave) (a n : Nat) : (w.markEmpty a n).watch = w.watch := rfl
@[simp] theorem Wave.markEmpty_nextColl (w : Wave) (a n : Nat) : (w.markEmpty a n).nextColl = w.nextColl := rfl
@[simp] theorem Wave.markEmpty_regions (w : Wave) (a n : Nat) : (w.markEmpty a n).regions = w.regions := rfl
@[simp] theorem Wave.markEmpty_rgndepth (w : Wave) (a n : Nat) : (w.markEmpty a n).rgndepth = w.rgndepth := rfl
@[simp] theorem Wave.markEmpty_halted (w : Wave) (a n : Nat) : (w.markEmpty a n).halted = w.halted := rfl
@[simp] theorem Wave.markEmpty_haltAs (w : Wave) (a n : Nat) : (w.markEmpty a n).haltAs = w.haltAs := rfl
@[simp] theorem Wave.markEmpty_stepOnce (w : Wave) (a n : Nat) : (w.markEmpty a n).stepOnce = w.stepOnce := rfl
@[simp] theorem Wave.markEmpty_exempt (w : Wave) (a n : Nat) : (w.markEmpty a n).exempt = w.exempt := rfl

/-! ### Wave.markFull -/

@[simp] theorem Wave.markFull_id (w : Wave) (a n : Nat) : (w.markFull a n).id = w.id := rfl
@[simp] theorem Wave.markFull_cord (w : Wave) (a n : Nat) : (w.markFull a n).cord = w.cord := rfl
@[simp] theorem Wave.markFull_index (w : Wave) (a n : Nat) : (w.markFull a n).index = w.index := rfl
@[simp] theorem Wave.markFull_wait (w : Wave) (a n : Nat) : (w.markFull a n).wait = w.wait := rfl
@[simp] theorem Wave.markFull_pc (w : Wave) (a n : Nat) : (w.markFull a n).pc = w.pc := rfl
@[simp] theorem Wave.markFull_jumped (w : Wave) (a n : Nat) : (w.markFull a n).jumped = w.jumped := rfl
@[simp] theorem Wave.markFull_sup (w : Wave) (a n : Nat) : (w.markFull a n).sup = w.sup := rfl
@[simp] theorem Wave.markFull_live (w : Wave) (a n : Nat) : (w.markFull a n).live = w.live := rfl
@[simp] theorem Wave.markFull_k (w : Wave) (a n : Nat) : (w.markFull a n).k = w.k := rfl
@[simp] theorem Wave.markFull_c (w : Wave) (a n : Nat) : (w.markFull a n).c = w.c := rfl
@[simp] theorem Wave.markFull_s (w : Wave) (a n : Nat) : (w.markFull a n).s = w.s := rfl
@[simp] theorem Wave.markFull_o (w : Wave) (a n : Nat) : (w.markFull a n).o = w.o := rfl
@[simp] theorem Wave.markFull_l (w : Wave) (a n : Nat) : (w.markFull a n).l = w.l := rfl
@[simp] theorem Wave.markFull_lSup (w : Wave) (a n : Nat) : (w.markFull a n).lSup = w.lSup := rfl
@[simp] theorem Wave.markFull_x (w : Wave) (a n : Nat) : (w.markFull a n).x = w.x := rfl
@[simp] theorem Wave.markFull_q (w : Wave) (a n : Nat) : (w.markFull a n).q = w.q := rfl
@[simp] theorem Wave.markFull_bound (w : Wave) (a n : Nat) : (w.markFull a n).bound = w.bound := rfl
@[simp] theorem Wave.markFull_granule (w : Wave) (a n : Nat) : (w.markFull a n).granule = w.granule := rfl
@[simp] theorem Wave.markFull_fpflags (w : Wave) (a n : Nat) : (w.markFull a n).fpflags = w.fpflags := rfl
@[simp] theorem Wave.markFull_srseed (w : Wave) (a n : Nat) : (w.markFull a n).srseed = w.srseed := rfl
@[simp] theorem Wave.markFull_horizon (w : Wave) (a n : Nat) : (w.markFull a n).horizon = w.horizon := rfl
@[simp] theorem Wave.markFull_rep (w : Wave) (a n : Nat) : (w.markFull a n).rep = w.rep := rfl
@[simp] theorem Wave.markFull_repStr (w : Wave) (a n : Nat) : (w.markFull a n).repStr = w.repStr := rfl
@[simp] theorem Wave.markFull_repStrSup (w : Wave) (a n : Nat) : (w.markFull a n).repStrSup = w.repStrSup := rfl
@[simp] theorem Wave.markFull_loop (w : Wave) (a n : Nat) : (w.markFull a n).loop = w.loop := rfl
@[simp] theorem Wave.markFull_loopSup (w : Wave) (a n : Nat) : (w.markFull a n).loopSup = w.loopSup := rfl
@[simp] theorem Wave.markFull_trapcause (w : Wave) (a n : Nat) : (w.markFull a n).trapcause = w.trapcause := rfl
@[simp] theorem Wave.markFull_trapmask (w : Wave) (a n : Nat) : (w.markFull a n).trapmask = w.trapmask := rfl
@[simp] theorem Wave.markFull_trapinfo (w : Wave) (a n : Nat) : (w.markFull a n).trapinfo = w.trapinfo := rfl
@[simp] theorem Wave.markFull_pass (w : Wave) (a n : Nat) : (w.markFull a n).pass = w.pass := rfl
@[simp] theorem Wave.markFull_arrivals (w : Wave) (a n : Nat) : (w.markFull a n).arrivals = w.arrivals := rfl
@[simp] theorem Wave.markFull_endH (w : Wave) (a n : Nat) : (w.markFull a n).endH = w.endH := rfl
@[simp] theorem Wave.markFull_endSet (w : Wave) (a n : Nat) : (w.markFull a n).endSet = w.endSet := rfl
@[simp] theorem Wave.markFull_wake (w : Wave) (a n : Nat) : (w.markFull a n).wake = w.wake := rfl
@[simp] theorem Wave.markFull_yield (w : Wave) (a n : Nat) : (w.markFull a n).yield = w.yield := rfl
@[simp] theorem Wave.markFull_hold (w : Wave) (a n : Nat) : (w.markFull a n).hold = w.hold := rfl
@[simp] theorem Wave.markFull_delayed (w : Wave) (a n : Nat) : (w.markFull a n).delayed = w.delayed := rfl
@[simp] theorem Wave.markFull_openBatch (w : Wave) (a n : Nat) : (w.markFull a n).openBatch = w.openBatch := rfl
@[simp] theorem Wave.markFull_batches (w : Wave) (a n : Nat) : (w.markFull a n).batches = w.batches := rfl
@[simp] theorem Wave.markFull_nextBatch (w : Wave) (a n : Nat) : (w.markFull a n).nextBatch = w.nextBatch := rfl
@[simp] theorem Wave.markFull_streams (w : Wave) (a n : Nat) : (w.markFull a n).streams = w.streams := rfl
@[simp] theorem Wave.markFull_invals (w : Wave) (a n : Nat) : (w.markFull a n).invals = w.invals := rfl
@[simp] theorem Wave.markFull_watch (w : Wave) (a n : Nat) : (w.markFull a n).watch = w.watch := rfl
@[simp] theorem Wave.markFull_nextColl (w : Wave) (a n : Nat) : (w.markFull a n).nextColl = w.nextColl := rfl
@[simp] theorem Wave.markFull_regions (w : Wave) (a n : Nat) : (w.markFull a n).regions = w.regions := rfl
@[simp] theorem Wave.markFull_rgndepth (w : Wave) (a n : Nat) : (w.markFull a n).rgndepth = w.rgndepth := rfl
@[simp] theorem Wave.markFull_halted (w : Wave) (a n : Nat) : (w.markFull a n).halted = w.halted := rfl
@[simp] theorem Wave.markFull_haltAs (w : Wave) (a n : Nat) : (w.markFull a n).haltAs = w.haltAs := rfl
@[simp] theorem Wave.markFull_stepOnce (w : Wave) (a n : Nat) : (w.markFull a n).stepOnce = w.stepOnce := rfl
@[simp] theorem Wave.markFull_exempt (w : Wave) (a n : Nat) : (w.markFull a n).exempt = w.exempt := rfl

/-! ### Wave.pop -/

@[simp] theorem Wave.pop_id (w : Wave) (l : List Opnd) : (w.pop l).id = w.id := rfl
@[simp] theorem Wave.pop_cord (w : Wave) (l : List Opnd) : (w.pop l).cord = w.cord := rfl
@[simp] theorem Wave.pop_index (w : Wave) (l : List Opnd) : (w.pop l).index = w.index := rfl
@[simp] theorem Wave.pop_wait (w : Wave) (l : List Opnd) : (w.pop l).wait = w.wait := rfl
@[simp] theorem Wave.pop_pc (w : Wave) (l : List Opnd) : (w.pop l).pc = w.pc := rfl
@[simp] theorem Wave.pop_jumped (w : Wave) (l : List Opnd) : (w.pop l).jumped = w.jumped := rfl
@[simp] theorem Wave.pop_sup (w : Wave) (l : List Opnd) : (w.pop l).sup = w.sup := rfl
@[simp] theorem Wave.pop_live (w : Wave) (l : List Opnd) : (w.pop l).live = w.live := rfl
@[simp] theorem Wave.pop_k (w : Wave) (l : List Opnd) : (w.pop l).k = w.k := rfl
@[simp] theorem Wave.pop_c (w : Wave) (l : List Opnd) : (w.pop l).c = w.c := rfl
@[simp] theorem Wave.pop_s (w : Wave) (l : List Opnd) : (w.pop l).s = w.s := rfl
@[simp] theorem Wave.pop_v (w : Wave) (l : List Opnd) : (w.pop l).v = w.v := rfl
@[simp] theorem Wave.pop_o (w : Wave) (l : List Opnd) : (w.pop l).o = w.o := rfl
@[simp] theorem Wave.pop_l (w : Wave) (l : List Opnd) : (w.pop l).l = w.l := rfl
@[simp] theorem Wave.pop_lSup (w : Wave) (l : List Opnd) : (w.pop l).lSup = w.lSup := rfl
@[simp] theorem Wave.pop_x (w : Wave) (l : List Opnd) : (w.pop l).x = w.x := rfl
@[simp] theorem Wave.pop_bound (w : Wave) (l : List Opnd) : (w.pop l).bound = w.bound := rfl
@[simp] theorem Wave.pop_granule (w : Wave) (l : List Opnd) : (w.pop l).granule = w.granule := rfl
@[simp] theorem Wave.pop_fpflags (w : Wave) (l : List Opnd) : (w.pop l).fpflags = w.fpflags := rfl
@[simp] theorem Wave.pop_srseed (w : Wave) (l : List Opnd) : (w.pop l).srseed = w.srseed := rfl
@[simp] theorem Wave.pop_horizon (w : Wave) (l : List Opnd) : (w.pop l).horizon = w.horizon := rfl
@[simp] theorem Wave.pop_rep (w : Wave) (l : List Opnd) : (w.pop l).rep = w.rep := rfl
@[simp] theorem Wave.pop_repStr (w : Wave) (l : List Opnd) : (w.pop l).repStr = w.repStr := rfl
@[simp] theorem Wave.pop_repStrSup (w : Wave) (l : List Opnd) : (w.pop l).repStrSup = w.repStrSup := rfl
@[simp] theorem Wave.pop_loop (w : Wave) (l : List Opnd) : (w.pop l).loop = w.loop := rfl
@[simp] theorem Wave.pop_loopSup (w : Wave) (l : List Opnd) : (w.pop l).loopSup = w.loopSup := rfl
@[simp] theorem Wave.pop_trapcause (w : Wave) (l : List Opnd) : (w.pop l).trapcause = w.trapcause := rfl
@[simp] theorem Wave.pop_trapmask (w : Wave) (l : List Opnd) : (w.pop l).trapmask = w.trapmask := rfl
@[simp] theorem Wave.pop_trapinfo (w : Wave) (l : List Opnd) : (w.pop l).trapinfo = w.trapinfo := rfl
@[simp] theorem Wave.pop_pass (w : Wave) (l : List Opnd) : (w.pop l).pass = w.pass := rfl
@[simp] theorem Wave.pop_arrivals (w : Wave) (l : List Opnd) : (w.pop l).arrivals = w.arrivals := rfl
@[simp] theorem Wave.pop_endH (w : Wave) (l : List Opnd) : (w.pop l).endH = w.endH := rfl
@[simp] theorem Wave.pop_endSet (w : Wave) (l : List Opnd) : (w.pop l).endSet = w.endSet := rfl
@[simp] theorem Wave.pop_wake (w : Wave) (l : List Opnd) : (w.pop l).wake = w.wake := rfl
@[simp] theorem Wave.pop_yield (w : Wave) (l : List Opnd) : (w.pop l).yield = w.yield := rfl
@[simp] theorem Wave.pop_hold (w : Wave) (l : List Opnd) : (w.pop l).hold = w.hold := rfl
@[simp] theorem Wave.pop_delayed (w : Wave) (l : List Opnd) : (w.pop l).delayed = w.delayed := rfl
@[simp] theorem Wave.pop_openBatch (w : Wave) (l : List Opnd) : (w.pop l).openBatch = w.openBatch := rfl
@[simp] theorem Wave.pop_batches (w : Wave) (l : List Opnd) : (w.pop l).batches = w.batches := rfl
@[simp] theorem Wave.pop_nextBatch (w : Wave) (l : List Opnd) : (w.pop l).nextBatch = w.nextBatch := rfl
@[simp] theorem Wave.pop_streams (w : Wave) (l : List Opnd) : (w.pop l).streams = w.streams := rfl
@[simp] theorem Wave.pop_invals (w : Wave) (l : List Opnd) : (w.pop l).invals = w.invals := rfl
@[simp] theorem Wave.pop_watch (w : Wave) (l : List Opnd) : (w.pop l).watch = w.watch := rfl
@[simp] theorem Wave.pop_nextColl (w : Wave) (l : List Opnd) : (w.pop l).nextColl = w.nextColl := rfl
@[simp] theorem Wave.pop_regions (w : Wave) (l : List Opnd) : (w.pop l).regions = w.regions := rfl
@[simp] theorem Wave.pop_rgndepth (w : Wave) (l : List Opnd) : (w.pop l).rgndepth = w.rgndepth := rfl
@[simp] theorem Wave.pop_halted (w : Wave) (l : List Opnd) : (w.pop l).halted = w.halted := rfl
@[simp] theorem Wave.pop_haltAs (w : Wave) (l : List Opnd) : (w.pop l).haltAs = w.haltAs := rfl
@[simp] theorem Wave.pop_stepOnce (w : Wave) (l : List Opnd) : (w.pop l).stepOnce = w.stepOnce := rfl
@[simp] theorem Wave.pop_exempt (w : Wave) (l : List Opnd) : (w.pop l).exempt = w.exempt := rfl

/-! ### Wave.putX -/

@[simp] theorem Wave.putX_id (w : Wave) (n : Nat) (m : Mask) (x : List (BitVec 16)) : (w.putX n m x).id = w.id := rfl
@[simp] theorem Wave.putX_cord (w : Wave) (n : Nat) (m : Mask) (x : List (BitVec 16)) : (w.putX n m x).cord = w.cord := rfl
@[simp] theorem Wave.putX_index (w : Wave) (n : Nat) (m : Mask) (x : List (BitVec 16)) : (w.putX n m x).index = w.index := rfl
@[simp] theorem Wave.putX_wait (w : Wave) (n : Nat) (m : Mask) (x : List (BitVec 16)) : (w.putX n m x).wait = w.wait := rfl
@[simp] theorem Wave.putX_pc (w : Wave) (n : Nat) (m : Mask) (x : List (BitVec 16)) : (w.putX n m x).pc = w.pc := rfl
@[simp] theorem Wave.putX_jumped (w : Wave) (n : Nat) (m : Mask) (x : List (BitVec 16)) : (w.putX n m x).jumped = w.jumped := rfl
@[simp] theorem Wave.putX_sup (w : Wave) (n : Nat) (m : Mask) (x : List (BitVec 16)) : (w.putX n m x).sup = w.sup := rfl
@[simp] theorem Wave.putX_live (w : Wave) (n : Nat) (m : Mask) (x : List (BitVec 16)) : (w.putX n m x).live = w.live := rfl
@[simp] theorem Wave.putX_k (w : Wave) (n : Nat) (m : Mask) (x : List (BitVec 16)) : (w.putX n m x).k = w.k := rfl
@[simp] theorem Wave.putX_c (w : Wave) (n : Nat) (m : Mask) (x : List (BitVec 16)) : (w.putX n m x).c = w.c := rfl
@[simp] theorem Wave.putX_s (w : Wave) (n : Nat) (m : Mask) (x : List (BitVec 16)) : (w.putX n m x).s = w.s := rfl
@[simp] theorem Wave.putX_v (w : Wave) (n : Nat) (m : Mask) (x : List (BitVec 16)) : (w.putX n m x).v = w.v := rfl
@[simp] theorem Wave.putX_o (w : Wave) (n : Nat) (m : Mask) (x : List (BitVec 16)) : (w.putX n m x).o = w.o := rfl
@[simp] theorem Wave.putX_l (w : Wave) (n : Nat) (m : Mask) (x : List (BitVec 16)) : (w.putX n m x).l = w.l := rfl
@[simp] theorem Wave.putX_lSup (w : Wave) (n : Nat) (m : Mask) (x : List (BitVec 16)) : (w.putX n m x).lSup = w.lSup := rfl
@[simp] theorem Wave.putX_q (w : Wave) (n : Nat) (m : Mask) (x : List (BitVec 16)) : (w.putX n m x).q = w.q := rfl
@[simp] theorem Wave.putX_bound (w : Wave) (n : Nat) (m : Mask) (x : List (BitVec 16)) : (w.putX n m x).bound = w.bound := rfl
@[simp] theorem Wave.putX_granule (w : Wave) (n : Nat) (m : Mask) (x : List (BitVec 16)) : (w.putX n m x).granule = w.granule := rfl
@[simp] theorem Wave.putX_fpflags (w : Wave) (n : Nat) (m : Mask) (x : List (BitVec 16)) : (w.putX n m x).fpflags = w.fpflags := rfl
@[simp] theorem Wave.putX_srseed (w : Wave) (n : Nat) (m : Mask) (x : List (BitVec 16)) : (w.putX n m x).srseed = w.srseed := rfl
@[simp] theorem Wave.putX_horizon (w : Wave) (n : Nat) (m : Mask) (x : List (BitVec 16)) : (w.putX n m x).horizon = w.horizon := rfl
@[simp] theorem Wave.putX_rep (w : Wave) (n : Nat) (m : Mask) (x : List (BitVec 16)) : (w.putX n m x).rep = w.rep := rfl
@[simp] theorem Wave.putX_repStr (w : Wave) (n : Nat) (m : Mask) (x : List (BitVec 16)) : (w.putX n m x).repStr = w.repStr := rfl
@[simp] theorem Wave.putX_repStrSup (w : Wave) (n : Nat) (m : Mask) (x : List (BitVec 16)) : (w.putX n m x).repStrSup = w.repStrSup := rfl
@[simp] theorem Wave.putX_loop (w : Wave) (n : Nat) (m : Mask) (x : List (BitVec 16)) : (w.putX n m x).loop = w.loop := rfl
@[simp] theorem Wave.putX_loopSup (w : Wave) (n : Nat) (m : Mask) (x : List (BitVec 16)) : (w.putX n m x).loopSup = w.loopSup := rfl
@[simp] theorem Wave.putX_trapcause (w : Wave) (n : Nat) (m : Mask) (x : List (BitVec 16)) : (w.putX n m x).trapcause = w.trapcause := rfl
@[simp] theorem Wave.putX_trapmask (w : Wave) (n : Nat) (m : Mask) (x : List (BitVec 16)) : (w.putX n m x).trapmask = w.trapmask := rfl
@[simp] theorem Wave.putX_trapinfo (w : Wave) (n : Nat) (m : Mask) (x : List (BitVec 16)) : (w.putX n m x).trapinfo = w.trapinfo := rfl
@[simp] theorem Wave.putX_pass (w : Wave) (n : Nat) (m : Mask) (x : List (BitVec 16)) : (w.putX n m x).pass = w.pass := rfl
@[simp] theorem Wave.putX_arrivals (w : Wave) (n : Nat) (m : Mask) (x : List (BitVec 16)) : (w.putX n m x).arrivals = w.arrivals := rfl
@[simp] theorem Wave.putX_endH (w : Wave) (n : Nat) (m : Mask) (x : List (BitVec 16)) : (w.putX n m x).endH = w.endH := rfl
@[simp] theorem Wave.putX_endSet (w : Wave) (n : Nat) (m : Mask) (x : List (BitVec 16)) : (w.putX n m x).endSet = w.endSet := rfl
@[simp] theorem Wave.putX_wake (w : Wave) (n : Nat) (m : Mask) (x : List (BitVec 16)) : (w.putX n m x).wake = w.wake := rfl
@[simp] theorem Wave.putX_yield (w : Wave) (n : Nat) (m : Mask) (x : List (BitVec 16)) : (w.putX n m x).yield = w.yield := rfl
@[simp] theorem Wave.putX_hold (w : Wave) (n : Nat) (m : Mask) (x : List (BitVec 16)) : (w.putX n m x).hold = w.hold := rfl
@[simp] theorem Wave.putX_delayed (w : Wave) (n : Nat) (m : Mask) (x : List (BitVec 16)) : (w.putX n m x).delayed = w.delayed := rfl
@[simp] theorem Wave.putX_openBatch (w : Wave) (n : Nat) (m : Mask) (x : List (BitVec 16)) : (w.putX n m x).openBatch = w.openBatch := rfl
@[simp] theorem Wave.putX_batches (w : Wave) (n : Nat) (m : Mask) (x : List (BitVec 16)) : (w.putX n m x).batches = w.batches := rfl
@[simp] theorem Wave.putX_nextBatch (w : Wave) (n : Nat) (m : Mask) (x : List (BitVec 16)) : (w.putX n m x).nextBatch = w.nextBatch := rfl
@[simp] theorem Wave.putX_streams (w : Wave) (n : Nat) (m : Mask) (x : List (BitVec 16)) : (w.putX n m x).streams = w.streams := rfl
@[simp] theorem Wave.putX_invals (w : Wave) (n : Nat) (m : Mask) (x : List (BitVec 16)) : (w.putX n m x).invals = w.invals := rfl
@[simp] theorem Wave.putX_watch (w : Wave) (n : Nat) (m : Mask) (x : List (BitVec 16)) : (w.putX n m x).watch = w.watch := rfl
@[simp] theorem Wave.putX_nextColl (w : Wave) (n : Nat) (m : Mask) (x : List (BitVec 16)) : (w.putX n m x).nextColl = w.nextColl := rfl
@[simp] theorem Wave.putX_regions (w : Wave) (n : Nat) (m : Mask) (x : List (BitVec 16)) : (w.putX n m x).regions = w.regions := rfl
@[simp] theorem Wave.putX_rgndepth (w : Wave) (n : Nat) (m : Mask) (x : List (BitVec 16)) : (w.putX n m x).rgndepth = w.rgndepth := rfl
@[simp] theorem Wave.putX_halted (w : Wave) (n : Nat) (m : Mask) (x : List (BitVec 16)) : (w.putX n m x).halted = w.halted := rfl
@[simp] theorem Wave.putX_haltAs (w : Wave) (n : Nat) (m : Mask) (x : List (BitVec 16)) : (w.putX n m x).haltAs = w.haltAs := rfl
@[simp] theorem Wave.putX_stepOnce (w : Wave) (n : Nat) (m : Mask) (x : List (BitVec 16)) : (w.putX n m x).stepOnce = w.stepOnce := rfl
@[simp] theorem Wave.putX_exempt (w : Wave) (n : Nat) (m : Mask) (x : List (BitVec 16)) : (w.putX n m x).exempt = w.exempt := rfl

/-! ### Wave.setC -/

@[simp] theorem Wave.setC_id (w : Wave) (n : Nat) (b : Bool) : (w.setC n b).id = w.id := by
  unfold Wave.setC; split <;> rfl
@[simp] theorem Wave.setC_cord (w : Wave) (n : Nat) (b : Bool) : (w.setC n b).cord = w.cord := by
  unfold Wave.setC; split <;> rfl
@[simp] theorem Wave.setC_index (w : Wave) (n : Nat) (b : Bool) : (w.setC n b).index = w.index := by
  unfold Wave.setC; split <;> rfl
@[simp] theorem Wave.setC_wait (w : Wave) (n : Nat) (b : Bool) : (w.setC n b).wait = w.wait := by
  unfold Wave.setC; split <;> rfl
@[simp] theorem Wave.setC_pc (w : Wave) (n : Nat) (b : Bool) : (w.setC n b).pc = w.pc := by
  unfold Wave.setC; split <;> rfl
@[simp] theorem Wave.setC_jumped (w : Wave) (n : Nat) (b : Bool) : (w.setC n b).jumped = w.jumped := by
  unfold Wave.setC; split <;> rfl
@[simp] theorem Wave.setC_sup (w : Wave) (n : Nat) (b : Bool) : (w.setC n b).sup = w.sup := by
  unfold Wave.setC; split <;> rfl
@[simp] theorem Wave.setC_live (w : Wave) (n : Nat) (b : Bool) : (w.setC n b).live = w.live := by
  unfold Wave.setC; split <;> rfl
@[simp] theorem Wave.setC_k (w : Wave) (n : Nat) (b : Bool) : (w.setC n b).k = w.k := by
  unfold Wave.setC; split <;> rfl
@[simp] theorem Wave.setC_s (w : Wave) (n : Nat) (b : Bool) : (w.setC n b).s = w.s := by
  unfold Wave.setC; split <;> rfl
@[simp] theorem Wave.setC_v (w : Wave) (n : Nat) (b : Bool) : (w.setC n b).v = w.v := by
  unfold Wave.setC; split <;> rfl
@[simp] theorem Wave.setC_o (w : Wave) (n : Nat) (b : Bool) : (w.setC n b).o = w.o := by
  unfold Wave.setC; split <;> rfl
@[simp] theorem Wave.setC_l (w : Wave) (n : Nat) (b : Bool) : (w.setC n b).l = w.l := by
  unfold Wave.setC; split <;> rfl
@[simp] theorem Wave.setC_lSup (w : Wave) (n : Nat) (b : Bool) : (w.setC n b).lSup = w.lSup := by
  unfold Wave.setC; split <;> rfl
@[simp] theorem Wave.setC_x (w : Wave) (n : Nat) (b : Bool) : (w.setC n b).x = w.x := by
  unfold Wave.setC; split <;> rfl
@[simp] theorem Wave.setC_q (w : Wave) (n : Nat) (b : Bool) : (w.setC n b).q = w.q := by
  unfold Wave.setC; split <;> rfl
@[simp] theorem Wave.setC_bound (w : Wave) (n : Nat) (b : Bool) : (w.setC n b).bound = w.bound := by
  unfold Wave.setC; split <;> rfl
@[simp] theorem Wave.setC_granule (w : Wave) (n : Nat) (b : Bool) : (w.setC n b).granule = w.granule := by
  unfold Wave.setC; split <;> rfl
@[simp] theorem Wave.setC_fpflags (w : Wave) (n : Nat) (b : Bool) : (w.setC n b).fpflags = w.fpflags := by
  unfold Wave.setC; split <;> rfl
@[simp] theorem Wave.setC_srseed (w : Wave) (n : Nat) (b : Bool) : (w.setC n b).srseed = w.srseed := by
  unfold Wave.setC; split <;> rfl
@[simp] theorem Wave.setC_horizon (w : Wave) (n : Nat) (b : Bool) : (w.setC n b).horizon = w.horizon := by
  unfold Wave.setC; split <;> rfl
@[simp] theorem Wave.setC_rep (w : Wave) (n : Nat) (b : Bool) : (w.setC n b).rep = w.rep := by
  unfold Wave.setC; split <;> rfl
@[simp] theorem Wave.setC_repStr (w : Wave) (n : Nat) (b : Bool) : (w.setC n b).repStr = w.repStr := by
  unfold Wave.setC; split <;> rfl
@[simp] theorem Wave.setC_repStrSup (w : Wave) (n : Nat) (b : Bool) : (w.setC n b).repStrSup = w.repStrSup := by
  unfold Wave.setC; split <;> rfl
@[simp] theorem Wave.setC_loop (w : Wave) (n : Nat) (b : Bool) : (w.setC n b).loop = w.loop := by
  unfold Wave.setC; split <;> rfl
@[simp] theorem Wave.setC_loopSup (w : Wave) (n : Nat) (b : Bool) : (w.setC n b).loopSup = w.loopSup := by
  unfold Wave.setC; split <;> rfl
@[simp] theorem Wave.setC_trapcause (w : Wave) (n : Nat) (b : Bool) : (w.setC n b).trapcause = w.trapcause := by
  unfold Wave.setC; split <;> rfl
@[simp] theorem Wave.setC_trapmask (w : Wave) (n : Nat) (b : Bool) : (w.setC n b).trapmask = w.trapmask := by
  unfold Wave.setC; split <;> rfl
@[simp] theorem Wave.setC_trapinfo (w : Wave) (n : Nat) (b : Bool) : (w.setC n b).trapinfo = w.trapinfo := by
  unfold Wave.setC; split <;> rfl
@[simp] theorem Wave.setC_pass (w : Wave) (n : Nat) (b : Bool) : (w.setC n b).pass = w.pass := by
  unfold Wave.setC; split <;> rfl
@[simp] theorem Wave.setC_arrivals (w : Wave) (n : Nat) (b : Bool) : (w.setC n b).arrivals = w.arrivals := by
  unfold Wave.setC; split <;> rfl
@[simp] theorem Wave.setC_endH (w : Wave) (n : Nat) (b : Bool) : (w.setC n b).endH = w.endH := by
  unfold Wave.setC; split <;> rfl
@[simp] theorem Wave.setC_endSet (w : Wave) (n : Nat) (b : Bool) : (w.setC n b).endSet = w.endSet := by
  unfold Wave.setC; split <;> rfl
@[simp] theorem Wave.setC_wake (w : Wave) (n : Nat) (b : Bool) : (w.setC n b).wake = w.wake := by
  unfold Wave.setC; split <;> rfl
@[simp] theorem Wave.setC_yield (w : Wave) (n : Nat) (b : Bool) : (w.setC n b).yield = w.yield := by
  unfold Wave.setC; split <;> rfl
@[simp] theorem Wave.setC_hold (w : Wave) (n : Nat) (b : Bool) : (w.setC n b).hold = w.hold := by
  unfold Wave.setC; split <;> rfl
@[simp] theorem Wave.setC_delayed (w : Wave) (n : Nat) (b : Bool) : (w.setC n b).delayed = w.delayed := by
  unfold Wave.setC; split <;> rfl
@[simp] theorem Wave.setC_openBatch (w : Wave) (n : Nat) (b : Bool) : (w.setC n b).openBatch = w.openBatch := by
  unfold Wave.setC; split <;> rfl
@[simp] theorem Wave.setC_batches (w : Wave) (n : Nat) (b : Bool) : (w.setC n b).batches = w.batches := by
  unfold Wave.setC; split <;> rfl
@[simp] theorem Wave.setC_nextBatch (w : Wave) (n : Nat) (b : Bool) : (w.setC n b).nextBatch = w.nextBatch := by
  unfold Wave.setC; split <;> rfl
@[simp] theorem Wave.setC_streams (w : Wave) (n : Nat) (b : Bool) : (w.setC n b).streams = w.streams := by
  unfold Wave.setC; split <;> rfl
@[simp] theorem Wave.setC_invals (w : Wave) (n : Nat) (b : Bool) : (w.setC n b).invals = w.invals := by
  unfold Wave.setC; split <;> rfl
@[simp] theorem Wave.setC_watch (w : Wave) (n : Nat) (b : Bool) : (w.setC n b).watch = w.watch := by
  unfold Wave.setC; split <;> rfl
@[simp] theorem Wave.setC_nextColl (w : Wave) (n : Nat) (b : Bool) : (w.setC n b).nextColl = w.nextColl := by
  unfold Wave.setC; split <;> rfl
@[simp] theorem Wave.setC_regions (w : Wave) (n : Nat) (b : Bool) : (w.setC n b).regions = w.regions := by
  unfold Wave.setC; split <;> rfl
@[simp] theorem Wave.setC_rgndepth (w : Wave) (n : Nat) (b : Bool) : (w.setC n b).rgndepth = w.rgndepth := by
  unfold Wave.setC; split <;> rfl
@[simp] theorem Wave.setC_halted (w : Wave) (n : Nat) (b : Bool) : (w.setC n b).halted = w.halted := by
  unfold Wave.setC; split <;> rfl
@[simp] theorem Wave.setC_haltAs (w : Wave) (n : Nat) (b : Bool) : (w.setC n b).haltAs = w.haltAs := by
  unfold Wave.setC; split <;> rfl
@[simp] theorem Wave.setC_stepOnce (w : Wave) (n : Nat) (b : Bool) : (w.setC n b).stepOnce = w.stepOnce := by
  unfold Wave.setC; split <;> rfl
@[simp] theorem Wave.setC_exempt (w : Wave) (n : Nat) (b : Bool) : (w.setC n b).exempt = w.exempt := by
  unfold Wave.setC; split <;> rfl

/-! ### Wave.shiftL -/

@[simp] theorem Wave.shiftL_id (w : Wave) (x : Lanes) : (w.shiftL x).id = w.id := by
  unfold Wave.shiftL; split <;> rfl
@[simp] theorem Wave.shiftL_cord (w : Wave) (x : Lanes) : (w.shiftL x).cord = w.cord := by
  unfold Wave.shiftL; split <;> rfl
@[simp] theorem Wave.shiftL_index (w : Wave) (x : Lanes) : (w.shiftL x).index = w.index := by
  unfold Wave.shiftL; split <;> rfl
@[simp] theorem Wave.shiftL_wait (w : Wave) (x : Lanes) : (w.shiftL x).wait = w.wait := by
  unfold Wave.shiftL; split <;> rfl
@[simp] theorem Wave.shiftL_pc (w : Wave) (x : Lanes) : (w.shiftL x).pc = w.pc := by
  unfold Wave.shiftL; split <;> rfl
@[simp] theorem Wave.shiftL_jumped (w : Wave) (x : Lanes) : (w.shiftL x).jumped = w.jumped := by
  unfold Wave.shiftL; split <;> rfl
@[simp] theorem Wave.shiftL_sup (w : Wave) (x : Lanes) : (w.shiftL x).sup = w.sup := by
  unfold Wave.shiftL; split <;> rfl
@[simp] theorem Wave.shiftL_live (w : Wave) (x : Lanes) : (w.shiftL x).live = w.live := by
  unfold Wave.shiftL; split <;> rfl
@[simp] theorem Wave.shiftL_k (w : Wave) (x : Lanes) : (w.shiftL x).k = w.k := by
  unfold Wave.shiftL; split <;> rfl
@[simp] theorem Wave.shiftL_c (w : Wave) (x : Lanes) : (w.shiftL x).c = w.c := by
  unfold Wave.shiftL; split <;> rfl
@[simp] theorem Wave.shiftL_s (w : Wave) (x : Lanes) : (w.shiftL x).s = w.s := by
  unfold Wave.shiftL; split <;> rfl
@[simp] theorem Wave.shiftL_v (w : Wave) (x : Lanes) : (w.shiftL x).v = w.v := by
  unfold Wave.shiftL; split <;> rfl
@[simp] theorem Wave.shiftL_o (w : Wave) (x : Lanes) : (w.shiftL x).o = w.o := by
  unfold Wave.shiftL; split <;> rfl
@[simp] theorem Wave.shiftL_x (w : Wave) (x : Lanes) : (w.shiftL x).x = w.x := by
  unfold Wave.shiftL; split <;> rfl
@[simp] theorem Wave.shiftL_q (w : Wave) (x : Lanes) : (w.shiftL x).q = w.q := by
  unfold Wave.shiftL; split <;> rfl
@[simp] theorem Wave.shiftL_bound (w : Wave) (x : Lanes) : (w.shiftL x).bound = w.bound := by
  unfold Wave.shiftL; split <;> rfl
@[simp] theorem Wave.shiftL_granule (w : Wave) (x : Lanes) : (w.shiftL x).granule = w.granule := by
  unfold Wave.shiftL; split <;> rfl
@[simp] theorem Wave.shiftL_fpflags (w : Wave) (x : Lanes) : (w.shiftL x).fpflags = w.fpflags := by
  unfold Wave.shiftL; split <;> rfl
@[simp] theorem Wave.shiftL_srseed (w : Wave) (x : Lanes) : (w.shiftL x).srseed = w.srseed := by
  unfold Wave.shiftL; split <;> rfl
@[simp] theorem Wave.shiftL_horizon (w : Wave) (x : Lanes) : (w.shiftL x).horizon = w.horizon := by
  unfold Wave.shiftL; split <;> rfl
@[simp] theorem Wave.shiftL_rep (w : Wave) (x : Lanes) : (w.shiftL x).rep = w.rep := by
  unfold Wave.shiftL; split <;> rfl
@[simp] theorem Wave.shiftL_repStr (w : Wave) (x : Lanes) : (w.shiftL x).repStr = w.repStr := by
  unfold Wave.shiftL; split <;> rfl
@[simp] theorem Wave.shiftL_repStrSup (w : Wave) (x : Lanes) : (w.shiftL x).repStrSup = w.repStrSup := by
  unfold Wave.shiftL; split <;> rfl
@[simp] theorem Wave.shiftL_loop (w : Wave) (x : Lanes) : (w.shiftL x).loop = w.loop := by
  unfold Wave.shiftL; split <;> rfl
@[simp] theorem Wave.shiftL_loopSup (w : Wave) (x : Lanes) : (w.shiftL x).loopSup = w.loopSup := by
  unfold Wave.shiftL; split <;> rfl
@[simp] theorem Wave.shiftL_trapcause (w : Wave) (x : Lanes) : (w.shiftL x).trapcause = w.trapcause := by
  unfold Wave.shiftL; split <;> rfl
@[simp] theorem Wave.shiftL_trapmask (w : Wave) (x : Lanes) : (w.shiftL x).trapmask = w.trapmask := by
  unfold Wave.shiftL; split <;> rfl
@[simp] theorem Wave.shiftL_trapinfo (w : Wave) (x : Lanes) : (w.shiftL x).trapinfo = w.trapinfo := by
  unfold Wave.shiftL; split <;> rfl
@[simp] theorem Wave.shiftL_pass (w : Wave) (x : Lanes) : (w.shiftL x).pass = w.pass := by
  unfold Wave.shiftL; split <;> rfl
@[simp] theorem Wave.shiftL_arrivals (w : Wave) (x : Lanes) : (w.shiftL x).arrivals = w.arrivals := by
  unfold Wave.shiftL; split <;> rfl
@[simp] theorem Wave.shiftL_endH (w : Wave) (x : Lanes) : (w.shiftL x).endH = w.endH := by
  unfold Wave.shiftL; split <;> rfl
@[simp] theorem Wave.shiftL_endSet (w : Wave) (x : Lanes) : (w.shiftL x).endSet = w.endSet := by
  unfold Wave.shiftL; split <;> rfl
@[simp] theorem Wave.shiftL_wake (w : Wave) (x : Lanes) : (w.shiftL x).wake = w.wake := by
  unfold Wave.shiftL; split <;> rfl
@[simp] theorem Wave.shiftL_yield (w : Wave) (x : Lanes) : (w.shiftL x).yield = w.yield := by
  unfold Wave.shiftL; split <;> rfl
@[simp] theorem Wave.shiftL_hold (w : Wave) (x : Lanes) : (w.shiftL x).hold = w.hold := by
  unfold Wave.shiftL; split <;> rfl
@[simp] theorem Wave.shiftL_delayed (w : Wave) (x : Lanes) : (w.shiftL x).delayed = w.delayed := by
  unfold Wave.shiftL; split <;> rfl
@[simp] theorem Wave.shiftL_openBatch (w : Wave) (x : Lanes) : (w.shiftL x).openBatch = w.openBatch := by
  unfold Wave.shiftL; split <;> rfl
@[simp] theorem Wave.shiftL_batches (w : Wave) (x : Lanes) : (w.shiftL x).batches = w.batches := by
  unfold Wave.shiftL; split <;> rfl
@[simp] theorem Wave.shiftL_nextBatch (w : Wave) (x : Lanes) : (w.shiftL x).nextBatch = w.nextBatch := by
  unfold Wave.shiftL; split <;> rfl
@[simp] theorem Wave.shiftL_streams (w : Wave) (x : Lanes) : (w.shiftL x).streams = w.streams := by
  unfold Wave.shiftL; split <;> rfl
@[simp] theorem Wave.shiftL_invals (w : Wave) (x : Lanes) : (w.shiftL x).invals = w.invals := by
  unfold Wave.shiftL; split <;> rfl
@[simp] theorem Wave.shiftL_watch (w : Wave) (x : Lanes) : (w.shiftL x).watch = w.watch := by
  unfold Wave.shiftL; split <;> rfl
@[simp] theorem Wave.shiftL_nextColl (w : Wave) (x : Lanes) : (w.shiftL x).nextColl = w.nextColl := by
  unfold Wave.shiftL; split <;> rfl
@[simp] theorem Wave.shiftL_regions (w : Wave) (x : Lanes) : (w.shiftL x).regions = w.regions := by
  unfold Wave.shiftL; split <;> rfl
@[simp] theorem Wave.shiftL_rgndepth (w : Wave) (x : Lanes) : (w.shiftL x).rgndepth = w.rgndepth := by
  unfold Wave.shiftL; split <;> rfl
@[simp] theorem Wave.shiftL_halted (w : Wave) (x : Lanes) : (w.shiftL x).halted = w.halted := by
  unfold Wave.shiftL; split <;> rfl
@[simp] theorem Wave.shiftL_haltAs (w : Wave) (x : Lanes) : (w.shiftL x).haltAs = w.haltAs := by
  unfold Wave.shiftL; split <;> rfl
@[simp] theorem Wave.shiftL_stepOnce (w : Wave) (x : Lanes) : (w.shiftL x).stepOnce = w.stepOnce := by
  unfold Wave.shiftL; split <;> rfl
@[simp] theorem Wave.shiftL_exempt (w : Wave) (x : Lanes) : (w.shiftL x).exempt = w.exempt := by
  unfold Wave.shiftL; split <;> rfl

/-! ### Wave.goto -/

@[simp] theorem Wave.goto_id (w : Wave) (t : Word64) (j : Bool) : (w.goto t j).id = w.id := by
  unfold Wave.goto; split <;> rfl
@[simp] theorem Wave.goto_cord (w : Wave) (t : Word64) (j : Bool) : (w.goto t j).cord = w.cord := by
  unfold Wave.goto; split <;> rfl
@[simp] theorem Wave.goto_index (w : Wave) (t : Word64) (j : Bool) : (w.goto t j).index = w.index := by
  unfold Wave.goto; split <;> rfl
@[simp] theorem Wave.goto_wait (w : Wave) (t : Word64) (j : Bool) : (w.goto t j).wait = w.wait := by
  unfold Wave.goto; split <;> rfl
@[simp] theorem Wave.goto_sup (w : Wave) (t : Word64) (j : Bool) : (w.goto t j).sup = w.sup := by
  unfold Wave.goto; split <;> rfl
@[simp] theorem Wave.goto_live (w : Wave) (t : Word64) (j : Bool) : (w.goto t j).live = w.live := by
  unfold Wave.goto; split <;> rfl
@[simp] theorem Wave.goto_k (w : Wave) (t : Word64) (j : Bool) : (w.goto t j).k = w.k := by
  unfold Wave.goto; split <;> rfl
@[simp] theorem Wave.goto_c (w : Wave) (t : Word64) (j : Bool) : (w.goto t j).c = w.c := by
  unfold Wave.goto; split <;> rfl
@[simp] theorem Wave.goto_s (w : Wave) (t : Word64) (j : Bool) : (w.goto t j).s = w.s := by
  unfold Wave.goto; split <;> rfl
@[simp] theorem Wave.goto_v (w : Wave) (t : Word64) (j : Bool) : (w.goto t j).v = w.v := by
  unfold Wave.goto; split <;> rfl
@[simp] theorem Wave.goto_o (w : Wave) (t : Word64) (j : Bool) : (w.goto t j).o = w.o := by
  unfold Wave.goto; split <;> rfl
@[simp] theorem Wave.goto_l (w : Wave) (t : Word64) (j : Bool) : (w.goto t j).l = w.l := by
  unfold Wave.goto; split <;> rfl
@[simp] theorem Wave.goto_lSup (w : Wave) (t : Word64) (j : Bool) : (w.goto t j).lSup = w.lSup := by
  unfold Wave.goto; split <;> rfl
@[simp] theorem Wave.goto_x (w : Wave) (t : Word64) (j : Bool) : (w.goto t j).x = w.x := by
  unfold Wave.goto; split <;> rfl
@[simp] theorem Wave.goto_q (w : Wave) (t : Word64) (j : Bool) : (w.goto t j).q = w.q := by
  unfold Wave.goto; split <;> rfl
@[simp] theorem Wave.goto_bound (w : Wave) (t : Word64) (j : Bool) : (w.goto t j).bound = w.bound := by
  unfold Wave.goto; split <;> rfl
@[simp] theorem Wave.goto_granule (w : Wave) (t : Word64) (j : Bool) : (w.goto t j).granule = w.granule := by
  unfold Wave.goto; split <;> rfl
@[simp] theorem Wave.goto_fpflags (w : Wave) (t : Word64) (j : Bool) : (w.goto t j).fpflags = w.fpflags := by
  unfold Wave.goto; split <;> rfl
@[simp] theorem Wave.goto_srseed (w : Wave) (t : Word64) (j : Bool) : (w.goto t j).srseed = w.srseed := by
  unfold Wave.goto; split <;> rfl
@[simp] theorem Wave.goto_horizon (w : Wave) (t : Word64) (j : Bool) : (w.goto t j).horizon = w.horizon := by
  unfold Wave.goto; split <;> rfl
@[simp] theorem Wave.goto_rep (w : Wave) (t : Word64) (j : Bool) : (w.goto t j).rep = w.rep := by
  unfold Wave.goto; split <;> rfl
@[simp] theorem Wave.goto_repStr (w : Wave) (t : Word64) (j : Bool) : (w.goto t j).repStr = w.repStr := by
  unfold Wave.goto; split <;> rfl
@[simp] theorem Wave.goto_repStrSup (w : Wave) (t : Word64) (j : Bool) : (w.goto t j).repStrSup = w.repStrSup := by
  unfold Wave.goto; split <;> rfl
@[simp] theorem Wave.goto_trapcause (w : Wave) (t : Word64) (j : Bool) : (w.goto t j).trapcause = w.trapcause := by
  unfold Wave.goto; split <;> rfl
@[simp] theorem Wave.goto_trapmask (w : Wave) (t : Word64) (j : Bool) : (w.goto t j).trapmask = w.trapmask := by
  unfold Wave.goto; split <;> rfl
@[simp] theorem Wave.goto_trapinfo (w : Wave) (t : Word64) (j : Bool) : (w.goto t j).trapinfo = w.trapinfo := by
  unfold Wave.goto; split <;> rfl
@[simp] theorem Wave.goto_pass (w : Wave) (t : Word64) (j : Bool) : (w.goto t j).pass = w.pass := by
  unfold Wave.goto; split <;> rfl
@[simp] theorem Wave.goto_arrivals (w : Wave) (t : Word64) (j : Bool) : (w.goto t j).arrivals = w.arrivals := by
  unfold Wave.goto; split <;> rfl
@[simp] theorem Wave.goto_endH (w : Wave) (t : Word64) (j : Bool) : (w.goto t j).endH = w.endH := by
  unfold Wave.goto; split <;> rfl
@[simp] theorem Wave.goto_endSet (w : Wave) (t : Word64) (j : Bool) : (w.goto t j).endSet = w.endSet := by
  unfold Wave.goto; split <;> rfl
@[simp] theorem Wave.goto_wake (w : Wave) (t : Word64) (j : Bool) : (w.goto t j).wake = w.wake := by
  unfold Wave.goto; split <;> rfl
@[simp] theorem Wave.goto_yield (w : Wave) (t : Word64) (j : Bool) : (w.goto t j).yield = w.yield := by
  unfold Wave.goto; split <;> rfl
@[simp] theorem Wave.goto_hold (w : Wave) (t : Word64) (j : Bool) : (w.goto t j).hold = w.hold := by
  unfold Wave.goto; split <;> rfl
@[simp] theorem Wave.goto_delayed (w : Wave) (t : Word64) (j : Bool) : (w.goto t j).delayed = w.delayed := by
  unfold Wave.goto; split <;> rfl
@[simp] theorem Wave.goto_openBatch (w : Wave) (t : Word64) (j : Bool) : (w.goto t j).openBatch = w.openBatch := by
  unfold Wave.goto; split <;> rfl
@[simp] theorem Wave.goto_batches (w : Wave) (t : Word64) (j : Bool) : (w.goto t j).batches = w.batches := by
  unfold Wave.goto; split <;> rfl
@[simp] theorem Wave.goto_nextBatch (w : Wave) (t : Word64) (j : Bool) : (w.goto t j).nextBatch = w.nextBatch := by
  unfold Wave.goto; split <;> rfl
@[simp] theorem Wave.goto_streams (w : Wave) (t : Word64) (j : Bool) : (w.goto t j).streams = w.streams := by
  unfold Wave.goto; split <;> rfl
@[simp] theorem Wave.goto_invals (w : Wave) (t : Word64) (j : Bool) : (w.goto t j).invals = w.invals := by
  unfold Wave.goto; split <;> rfl
@[simp] theorem Wave.goto_watch (w : Wave) (t : Word64) (j : Bool) : (w.goto t j).watch = w.watch := by
  unfold Wave.goto; split <;> rfl
@[simp] theorem Wave.goto_nextColl (w : Wave) (t : Word64) (j : Bool) : (w.goto t j).nextColl = w.nextColl := by
  unfold Wave.goto; split <;> rfl
@[simp] theorem Wave.goto_regions (w : Wave) (t : Word64) (j : Bool) : (w.goto t j).regions = w.regions := by
  unfold Wave.goto; split <;> rfl
@[simp] theorem Wave.goto_rgndepth (w : Wave) (t : Word64) (j : Bool) : (w.goto t j).rgndepth = w.rgndepth := by
  unfold Wave.goto; split <;> rfl
@[simp] theorem Wave.goto_halted (w : Wave) (t : Word64) (j : Bool) : (w.goto t j).halted = w.halted := by
  unfold Wave.goto; split <;> rfl
@[simp] theorem Wave.goto_haltAs (w : Wave) (t : Word64) (j : Bool) : (w.goto t j).haltAs = w.haltAs := by
  unfold Wave.goto; split <;> rfl
@[simp] theorem Wave.goto_stepOnce (w : Wave) (t : Word64) (j : Bool) : (w.goto t j).stepOnce = w.stepOnce := by
  unfold Wave.goto; split <;> rfl
@[simp] theorem Wave.goto_exempt (w : Wave) (t : Word64) (j : Bool) : (w.goto t j).exempt = w.exempt := by
  unfold Wave.goto; split <;> rfl

end Sys2Proof.Machine
end

