-- ==== Sys2Proof/Laws/Front.lean ====
section
/-! SUPPORT. The operations that every wave instruction goes through: the wave that has the turn, the checks before an
instruction's own work, and its end. -/

namespace Sys2Proof.Machine

theorem modAt_of_get {α : Type} (l : List α) (i : Nat) (a : α) (f : α → α) (h : l[i]? = some a) :
    modAt l i f = l.set i (f a) := by
  induction l generalizing i with
  | nil => simp at h
  | cons b r ih =>
    cases i with
    | zero => simp at h; simp [modAt, h]
    | succ n => simp at h; simp [modAt, ih n h]

@[simp] theorem modAt_length {α : Type} (l : List α) (i : Nat) (f : α → α) : (modAt l i f).length = l.length := by
  induction l generalizing i with
  | nil => rfl
  | cons b r ih => cases i <;> simp [modAt, ih]

theorem modAt_get? {α : Type} (l : List α) (i j : Nat) (f : α → α) :
    (modAt l i f)[j]? = if i = j then l[j]?.map f else l[j]? := by
  induction l generalizing i j with
  | nil => simp [modAt]
  | cons b r ih => cases i <;> cases j <;> simp [modAt, ih]

@[simp] theorem modWhere_length {α : Type} (l : List α) (p : α → Bool) (f : α → α) : (modWhere l p f).length = l.length := by
  simp [modWhere]

@[simp] theorem tabulate_length {α : Type} (n : Nat) (f : Nat → α) : (tabulate n f).length = n := by simp [tabulate]

theorem tabulate_get? {α : Type} (n i : Nat) (f : Nat → α) (h : i < n) : (tabulate n f)[i]? = some (f i) := by
  simp [tabulate, h]

/-- A change of the wave that has the turn is a replacement of it. -/
theorem State.modMe_eq (s : State) (w : Wave) (f : Wave → Wave) (h : s.me = some w) : s.modMe f = s.setMe (f w) := by
  unfold State.modMe State.setMe
  rw [modAt_of_get _ _ w f h]

/-- The wave that has the turn, replaced, has the turn. -/
theorem State.setMe_me (s : State) (w x : Wave) (h : s.me = some w) : (s.setMe x).me = some x := by
  have hl : s.cur < s.waves.length := by
    unfold State.me at h
    by_contra hn
    rw [List.getElem?_eq_none (by omega)] at h
    cases h
  simp [State.me, State.setMe, hl]

theorem State.setMe_setMe (s : State) (x y : Wave) : (s.setMe x).setMe y = s.setMe y := by
  simp [State.setMe]

/-- An instruction's end is a replacement of its wave. -/
theorem State.finish_eq (s : State) (w : Wave) (f : Fields) (up : Wave → Wave) (h : s.me = some w) :
    s.finish f up = .next (s.setMe ((up w).commit f)) := by
  unfold State.finish; rw [s.modMe_eq w _ h]

/-- Registers without an error leave the state as it is. -/
theorem State.clean_readErrors {s : State} {w : Wave} {l : List (Opnd × Nat)} (h : s.clean w l = true) :
    s.readErrors w l = (false, s) := by
  unfold State.clean at h
  simp only [Bool.and_eq_true, Bool.or_eq_true, decide_eq_true_eq] at h
  obtain ⟨h, hf⟩ := h
  unfold State.readErrors State.takeFlaws
  have : (s.flaws.filter fun f => l.any fun x => opndFlawed w.id x.2 x.1 f.place) = [] := by
    rw [List.filter_eq_nil_iff]
    intro a ha hn
    simp only [Bool.not_eq_true', List.any_eq_false] at h
    exact h a ha hn
  simp only [this]
  rcases hf with hf | hf
  · simp only [Bool.not_eq_true'] at hf
    simp [hf]
  · simp [hf]

theorem State.checked_me {s : State} {w : Wave} {i : Instr} {f : Fields} {du : DUse} {al : Bool}
    (h : s.checked w i f du al = true) : s.me = some w := by
  unfold State.checked at h
  simp only [Bool.and_eq_true, decide_eq_true_eq] at h
  exact h.1

theorem State.runs_checked {s : State} {w : Wave} {i : Instr} {f : Fields} {du : DUse} {al : Bool}
    (h : s.runs w i f du al = true) : s.checked w i f du al = true ∧ s.readErrors w (readsOf i f du) = (false, s) := by
  unfold State.runs at h
  simp only [Bool.and_eq_true] at h
  exact ⟨h.1, State.clean_readErrors h.2⟩

theorem State.runs_me {s : State} {w : Wave} {i : Instr} {f : Fields} {du : DUse} {al : Bool}
    (h : s.runs w i f du al = true) : s.me = some w := State.checked_me (State.runs_checked h).1

/-- An instruction that passes its checks does its own work once it has met the errors of what it reads. -/
theorem State.front_checked {s u : State} {w : Wave} {i : Instr} {f : Fields} {du : DUse} {al : Bool}
    (body : State → Wave → Out) (h : s.checked w i f du al = true) (hc : s.readErrors w (readsOf i f du) = (false, u)) :
    s.front i f du al body = body u w := by
  have hm := State.checked_me h
  unfold State.checked at h
  unfold readsOf at hc
  cases hs : i.sig with
  | none => simp [hs] at h
  | some g =>
    simp only [hs, Bool.and_eq_true, decide_eq_true_eq, Option.isNone_iff_eq_none, Bool.not_eq_true'] at h hc
    obtain ⟨-, ⟨⟨⟨⟨⟨hp, hr⟩, hg⟩, hy⟩, hd⟩, hw⟩, hm'⟩ := h
    unfold State.front
    simp only [hm, hs]
    have hq : ¬ (usesMemory i = true ∧ s.opsFull w.core = true) := by
      cases h1 : usesMemory i <;> cases h2 : s.opsFull w.core <;> simp_all
    have hp2 : ¬ (w.sup = false ∧ instrPriv i = true) := by
      cases h1 : w.sup <;> cases h2 : instrPriv i <;> simp_all
    clear hm' hp
    cases du <;> simp_all [DUse.reads, DUse.policy, DUse.writes] <;>
      (split <;> [simp_all; (split <;> simp_all)])

/-- An instruction that passes its checks and reads no error does its own work. -/
theorem State.front_runs {s : State} {w : Wave} {i : Instr} {f : Fields} {du : DUse} {al : Bool}
    (body : State → Wave → Out) (h : s.runs w i f du al = true) : s.front i f du al body = body s w :=
  State.front_checked body (State.runs_checked h).1 (State.runs_checked h).2

end Sys2Proof.Machine
end

