-- ==== Sys2Proof/Laws/Memory.lean ====
section
/-! SUPPORT. The canonical form of memory, and what a byte reads as after a write: every operation over a memory keeps the
form. -/

namespace Sys2Proof.Machine

/-- Every listed address lies above a bound. -/
def cellsAbove (b : Nat) (m : List Host.Cell) : Prop := ∀ c ∈ m, b < c.1

theorem Memory.wf_cons (k : Nat) (v : Byte) (r : List Host.Cell) :
    Memory.wf ((k, v) :: r) = true ↔ v ≠ unlisted ∧ cellsAbove k r ∧ Memory.wf r = true := by
  induction r generalizing k v with
  | nil => simp [Memory.wf, cellsAbove]
  | cons c r ih =>
    obtain ⟨k', v'⟩ := c
    have h := ih k' v'
    simp only [Memory.wf, Bool.and_eq_true, bne_iff_ne, decide_eq_true_eq]
    rw [h]
    constructor
    · rintro ⟨⟨hv, hk⟩, hv', ha, hw⟩
      refine ⟨hv, ?_, hv', ha, hw⟩
      intro c hc
      rcases List.mem_cons.1 hc with rfl | hc
      · exact hk
      · exact Nat.lt_trans hk (ha c hc)
    · rintro ⟨hv, ha, hv', hb, hw⟩
      exact ⟨⟨hv, ha (k', v') (by simp)⟩, hv', hb, hw⟩

theorem cellSet_above (b : Nat) (m : List Host.Cell) (a : Nat) (x : Byte) (hb : b < a) (h : cellsAbove b m) :
    cellsAbove b (cellSet m a x) := by
  induction m with
  | nil =>
    unfold cellSet; split
    · simp [cellsAbove]
    · simpa [cellsAbove] using hb
  | cons c r ih =>
    obtain ⟨k, v⟩ := c
    have hk : b < k := h (k, v) (by simp)
    have hr : cellsAbove b r := fun c hc => h c (by simp [hc])
    have ih := ih hr
    unfold cellSet
    split
    · split
      · exact h
      · intro c hc
        rcases List.mem_cons.1 hc with rfl | hc
        · exact hb
        · exact h c hc
    · split
      · split
        · exact hr
        · intro c hc
          rcases List.mem_cons.1 hc with rfl | hc
          · exact hb
          · exact hr c hc
      · intro c hc
        rcases List.mem_cons.1 hc with rfl | hc
        · exact hk
        · exact ih c hc

/-- A write of one byte keeps the canonical form. -/
theorem cellSet_wf (m : List Host.Cell) (a : Nat) (x : Byte) (h : Memory.wf m = true) : Memory.wf (cellSet m a x) = true := by
  induction m with
  | nil => unfold cellSet; split <;> simp_all [Memory.wf]
  | cons c r ih =>
    obtain ⟨k, v⟩ := c
    obtain ⟨hv, ha, hw⟩ := (Memory.wf_cons k v r).1 h
    unfold cellSet
    split
    · split
      · exact h
      · rw [Memory.wf_cons]
        refine ⟨by assumption, ?_, h⟩
        intro c hc
        rcases List.mem_cons.1 hc with rfl | hc
        · assumption
        · exact Nat.lt_trans (by assumption) (ha c hc)
    · split
      · split
        · exact hw
        · rw [Memory.wf_cons]
          subst_vars
          exact ⟨by assumption, ha, hw⟩
      · rw [Memory.wf_cons]
        exact ⟨hv, cellSet_above k r a x (by omega) ha, ih hw⟩

/-- Writes of several bytes keep the canonical form. -/
theorem cellsSet_wf (m bs : List Host.Cell) (h : Memory.wf m = true) : Memory.wf (cellsSet m bs) = true := by
  unfold cellsSet
  induction bs generalizing m with
  | nil => exact h
  | cons c r ih => exact ih _ (cellSet_wf m c.1 c.2 h)

/-- Writes of lists of bytes, one after another, keep it too. -/
theorem foldCells_wf {α : Type} (l : List α) (f : α → List Host.Cell) (m : List Host.Cell) (h : Memory.wf m = true) :
    Memory.wf (l.foldl (fun m x => cellsSet m (f x)) m) = true := by
  induction l generalizing m with
  | nil => exact h
  | cons c r ih => exact ih _ (cellsSet_wf m _ h)

/-- The memory right after reset is in canonical form. -/
theorem reset_mem_wf : Memory.wf State.reset.mem = true := rfl

end Sys2Proof.Machine
end

