-- ==== Sys2Proof/Tests/Slice0.lean ====
section
/-! SUPPORT. The model's own tests: words that the manual writes out, decoded; ill-formed terms, refused; one step each of
small states; and a state that meets the hypotheses of each statement. Expected results come from the manual's examples
and tables. -/

namespace Sys2Proof.Tests

open Sys2Proof Sys2Proof.Machine

/- One evaluation at a time: each holds a thread and its stack until the declarations before it are checked. -/
set_option Elab.async false

/-! ### Fields and words -/

/-- The fields of a V64 instruction whose guard is the constant 1. -/
def fv (d a b c : Opnd) (m : BitVec 17) : Fields := { fmt := .v64, g := 0, d := d, a := a, b := b, c := c, pol := 0, m := m }
/-- The fields of a W96 instruction. -/
def fw (i : Word) (d a b : Opnd) (m : BitVec 17) : Fields :=
  { fmt := .w96 i, g := 0, d := d, a := a, b := b, c := .v 0, pol := 0, m := m }
/-- The fields of an X128 instruction. -/
def fx (e : Word64) (d a b c : Opnd) (m : BitVec 17) : Fields :=
  { fmt := .x128 e, g := 0, d := d, a := a, b := b, c := c, pol := 0, m := m }

/-- The instruction that listed 32-bit words name, lowest address first. -/
def words (l : List Nat) : Option Instr := decodeTableWord (32 * l.length) (l.foldr (fun x r => x + 2 ^ 32 * r) 0)

abbrev z : Opnd := .v 0

/-- spec/05_context.md, 06_queue.md, 07_kernel.md: the control family. -/
theorem test_decode_control :
    words [0x00000004, 0x0000061C] = some (.trap (fv z z (.int 7) z 0)) ∧
    words [0x00A08010, 0x00000CA8] = some (.sysRd (fv (.sp 2) z (.spec .time) z 0)) ∧
    words [0x00C4C06E, 0x00000000, 0x00000040] = some (.regGrow (fw 64 (.c 3) z z 0)) ∧
    words [0x84000034, 0x0A000001] = some (.rep (fv z (.int 4) z z 5)) ∧
    words [0x0000001E, 0x00000000, 0xFFFFFFFA] = some (.bra (fw 0xFFFFFFFA z z z 0)) ∧
    words [0x00000030, 0x00000000] = some (.exit (fv z z z z 0)) ∧
    words [0x00C00044, 0x06000C0B] = some (.kAndn (fv (.k 0) (.k 0) (.k 2) z 3)) ∧
    words [0x0081407C, 0x04000608] = some (.grpInfo (fv (.s 5) z (.int 2) z 2)) := by decide +kernel

/-- spec/09_integer.md: the scalar, vector and lane families. -/
theorem test_decode_integer :
    words [0x05010100, 0x24000018] = some (.vAdd (fv (.v 4) (.v 5) (.v 6) z 0x12)) ∧
    words [0x0380C080, 0x10000606] = some (.sAdd (fv (.s 3) (.s 3) (.int 1) z 8)) ∧
    words [0x20028114, 0x0C284643] = some (.madw (fv (.v 10) (.spec .laneid) (.int 16) (.sp 4) 6)) ∧
    words [0x05C480B8, 0x4400062A] = some (.sCmp (fv (.c 2) (.s 5) (.int 10) z 0x22)) ∧
    words [0x01C08144, 0x44000600] = some (.vCmp (fv (.k 2) (.v 1) (.int 0) z 0x22)) ∧
    words [0x008080C6, 0x00040000, 4] = some (.sMovi (fw 4 (.s 2) z z 8)) ∧
    words [0x11C4C0DC, 0x08000C4B] = some (.cLop (fv (.c 3) (.c 1) (.c 2) z 4)) ∧
    words [0x0801C166, 0x00000024, 0x0000C410] = some (.prmt (fw 0xC410 (.v 7) (.v 8) (.v 9) 0)) ∧
    words [0x01008180, 0x30000604] = some (.shflXor (fv (.v 2) (.v 1) (.int 1) z 0x18)) := by decide +kernel

/-- spec/10_float.md: the floating-point family. -/
theorem test_decode_float :
    words [0x0400C1CC, 0x18006014] = some (.ffma (fv (.v 3) (.v 4) (.v 5) (.v 6) 0xC)) ∧
    words [0x01C081D8, 0x58000600] = some (.fcmp (fv (.k 2) (.v 1) (.int 0) z 0x2C)) ∧
    words [0x090201E6, 0x032D8028, 0] = some (.fcvt (fw 0 (.v 8) (.v 9) (.v 10) 0x65B)) ∧
    words [0x0181C220, 0] = some (.reduxF (fv (.s 7) (.v 1) z z 0)) ∧
    words [0x03040224, 0x18000000] = some (.xaAdd (fv (.v 16) (.v 3) z z 0xC)) := by decide +kernel

/-- spec/03_opcodes.md, 14_memory_isa.md, 15_page.md: memory, copies, fences and pages. -/
theorem test_decode_memory :
    words [0x000002A8, 0x62000000] = some (.fence (fv z z z z 0x31)) ∧
    words [0x02014288, 0x00000640] = some (.ldS (fv (.v 5) (.v 2) (.int 16) z 0)) ∧
    words [0x008142C0, 0] = some (.cpyClose (fv (.s 5) z z z 0)) ∧
    words [0x000002C4, 0x00000814] = some (.cpyWait (fv z z (.s 5) z 0)) ∧
    words [0x85A08318, 0x02000002] = some (.pgProbe (fv (.sp 2) (.sp 5) z z 1)) ∧
    words [0x8500031E, 2, 0x00010000] = some (.pgInvVa (fw 65536 z (.sp 5) z 0)) ∧
    words [0x0000031C, 0x02000000] = some (.pgInvCtx (fv z z z z 1)) ∧
    words [0x00000320, 0] = some (.pgSync (fv z z z z 0)) := by decide +kernel

/-- spec/06_queue.md, 07_kernel.md, 16_tile.md, 17_matrix.md: queues, tiles and matrices. -/
theorem test_decode_units :
    words [0x85818328, 0x0000060E] = some (.qpush (fv (.s 6) (.sp 5) (.int 3) z 0)) ∧
    words [0x14810338, 0x00000608] = some (.emit (fv (.s 4) (.v 20) (.int 2) z 0)) ∧
    words [0x85A08303, 2, 0x26B, 0] = some (.tileOpen (fx 0x26B (.sp 2) (.sp 5) z z 0)) ∧
    words [0x03818308, 0x02000002] = some (.tileAcq (fv (.s 6) (.s 3) z z 1)) ∧
    words [0x0300030C, 2] = some (.tileRel (fv z (.s 3) z z 0)) ∧
    words [0x03A10312, 0x00008002, 0x20] = some (.tileSplit (fw 32 (.sp 4) (.s 3) z 1)) ∧
    words [0x80810342, 0x00058001, 0x1718] = some (.mosRsv (fw 0x1718 (.s 4) (.int 0) z 0xB)) ∧
    words [0x00000344, 0x660] = some (.mosRel (fv z z (.int 24) z 0)) ∧
    words [0x28000348, 0x08000818] = some (.mosWr (fv z (.v 40) (.s 6) z 4)) ∧
    words [0x08080353, 0x16000000, 0x1801, 0] = some (.mma (fx 0x1801 (.v 32) (.v 8) z z 0xB)) ∧
    words [0x080C0357, 0x1C00A024, 0x00042001, 0] = some (.mmaSp (fx 0x42001 (.v 48) (.v 8) (.v 9) (.v 10) 0xE)) := by
  decide +kernel

/-- spec/18_geometry.md to 22_debug.md: cuts, rays, textures, links and debug. -/
theorem test_decode_engines :
    words [0x8581039C, 0x00000602] = some (.cutGo (fv (.s 4) (.sp 5) (.int 0) z 0)) ∧
    words [0x080A0380, 0x00000050] = some (.rtBox (fv (.v 40) (.v 8) (.v 20) z 0)) ∧
    words [0x080B0384, 0x00018058] = some (.rtTri (fv (.v 44) (.v 8) (.v 22) (.v 24) 0)) ∧
    words [0x080C0388, 0x00000A14] = some (.rtTrace (fv (.v 48) (.v 8) (.sp 5) z 0)) ∧
    words [0x1E0D038C, 0x0028607C] = some (.texSmp (fv (.v 52) (.v 30) (.v 31) (.sp 6) 0)) ∧
    words [0x1F0E0398, 0x68000A18] = some (.recLd (fv (.v 56) (.v 31) (.sp 6) z 0x34)) ∧
    words [0x858103D0, 0x0000060E] = some (.qpPost (fv (.s 4) (.sp 5) (.int 3) z 0)) ∧
    words [0x858103D7, 2, 0, 0] = some (.coll (fx 0 (.s 4) (.sp 5) z z 0)) ∧
    words [0x008143D8, 0x00000810] = some (.collWait (fv (.s 5) z (.s 4) z 0)) ∧
    words [0x000003C2, 0, 7] = some (.rgnIn (fw 7 z z z 0)) ∧
    words [0x000003C8, 0] = some (.brk (fv z z z z 0)) ∧
    words [0x830003CC, 1] = some (.prog (fv z (.int 3) z z 0)) := by decide +kernel

/-- spec/02_formats.md R40: an unassigned opcode is an ILLEGAL_OP word; spec/03_opcodes.md: the pair that it writes out. -/
theorem test_decode_pair_and_illegal :
    words [0x06016BE0, 0x0080001C] = some (.illegalOp 0x0080001C06016BE0) ∧
    words [0x04183041, 0x26121092] = some (.pair ⟨0, .add, 3, 3, .imm 1, .fmulF32, 8, 9, .s 3, false⟩) := by decide +kernel


/-! ### Well-formedness -/

/-- An ill-formed term for each check, which the check refuses: an odd pair for 64 bits, an unused field, a length the opcode
does not have, IMM32 where B must be zero, a modifier that the entry does not define, a ray block beyond v248, a policy
bit without a v source, a pair without a scalar half whose
scalar fields are set, a legal word as an illegal one, and units that do not exist. -/
theorem test_ill_formed_refused :
    ([.vAdd (fv (.v 4) (.v 5) (.v 6) (.v 1) 0x12), .vAdd (fv (.v 4) (.k 1) (.v 6) z 0x12), .vAdd64 (fv (.v 5) (.v 4) (.v 6) z 3),
      .vAdd (fx 0 (.v 4) (.v 5) (.v 6) z 0x12), .vAdd (fw 1 (.v 4) (.v 5) (.v 6) 0x12), .vAdd (fv (.v 4) (.v 5) (.v 6) z 0x1F),
      .nop (fv z z z z 1), .rtBox (fv (.v 12) (.v 249) (.v 4) z 0), .sysWr (fv z (.s 6) (.spec .time) z 0),
      .vAdd { fv (.v 4) (.v 5) (.s 6) z 0x12 with pol := 2 }, .pair ⟨0, .nop, 3, 3, .imm 1, .mad, 8, 9, .s 0, false⟩,
      .illegalOp 0x2400001805010100, .doorbell 4096 0, .queueMap 64, .portEnable 16 0, .sample 192, .measurementExtend 2 [],
      .kindlingInstruction 32 (.fence false), .droopDetect 48, .cutJobRun 2, .repIteration 0 (fv z z z z 0)] : List Instr).any
      Instr.wf = false := by decide +kernel

/-! ### A small state -/

/-- A kernel of one wave with 64 registers and a scratchpad of 4 KiB. -/
def tinyKernel : Kernel := { probeKernel with regs := 64, entry := 0x1000 }
/-- Its wave, in supervisor state. -/
def tw : Wave := { Wave.fresh ⟨0, 0, 0⟩ 1 0 0 0 tinyKernel with sup := true }
/-- A device with one cord of that wave in context 0, and the first page mapped to itself for every unit. -/
def tiny : State :=
  let c : Cord :=
    { uid := 1, tag := 0, core := 0, recUid := 9, cordid := 0, count := 1, kernel := tinyKernel, frame := 0, scratchBase := 0,
      scratch := [], written := [], bars := [{ group := 0, slot := 0, phase := 0, dev := false, drain := none }], tenures := [],
      gathers := [], reacq := [], ended := [], order := 1 }
  { State.reset with
    agenda := [], uid := 2, cords := [c], waves := [tw],
    tlb := [0, 48, 50, 52, 53, 54, 55, 56, 58, 64, 96, 104, 128].map fun u => (⟨u, 0, 0, 0, 0, 0x63B⟩ : TlbEntry) }.modCtx 0 fun c =>
      { c with st := .running, drain := none }
/-- The same with its wave changed. -/
def tinyW (k : Wave → Wave) : State := { tiny with waves := [k tw] }
def user (w : Wave) : Wave := { w with sup := false }
/-- Bytes at an address of the first page. -/
def poke (s : State) (a : Nat) (bs : List Byte) : State := { s with mem := cellsSet s.mem (cellsAt a bs) }
/-- The instruction passes its checks in the small state. -/
def goes (x : (Fields → Instr) × Fields) : Bool := (x.1 x.2).wf && tiny.runs tw (x.1 x.2) x.2 .dest false
def good {α : Type} (r : State × Acc α) : Bool := match r.2 with | .ok _ => true | _ => false
def isNext (o : Out) : Bool := match o with | .next _ => true | _ => false
/-- A number of a next state. -/
def seen (o : Out) (k : State → Nat) : Option Nat := match o with | .next t => some (k t) | _ => none
def wave0 (s : State) : Wave := s.waves.headD tw

/-! ### Instructions that pass their checks, one or more for each statement about them -/

theorem witness_runs_ctl0 : ([
   (.nop, fv z z z z 0), (.trap, fv z z (.s 6) z 0), (.tret, fv z z z z 0), (.upcall, fv (.sp 4) (.sp 4) (.s 6) z 0),
   (.sleep, fv (.s 6) z (.s 6) z 0), (.bra, fw 1 z z z 0), (.brx, fv z (.sp 4) z z 0), (.call, fv (.sp 4) z (.sp 4) z 0),
   (.ret, fv z (.sp 4) z z 0), (.brez, fw 1 z (.k 1) z 0), (.exit, fv z z z z 0), (.rep, fv z (.s 6) z z 0),
   (.loopEnd, fv z z z z 0), (.yield, fv z z z z 0), (.kAnd, fv (.k 1) (.k 1) (.k 1) z 0), (.kOr, fv (.k 1) (.k 1) (.k 1) z 1),
   (.kXor, fv (.k 1) (.k 1) (.k 1) z 2), (.kAndn, fv (.k 1) (.k 1) (.k 1) z 3), (.kNot, fv (.k 1) (.k 1) z z 4), (.kMov, fv (.k 1) (.k 1) z z 5),
   (.kLd, fw 1 (.k 1) (.sp 4) z 0), (.kPopc, fv (.s 6) (.k 1) z z 0), (.kFirst, fv (.s 6) (.k 1) z z 0), (.kTestAny, fv (.c 1) (.k 1) (.k 1) z 0)] :
    List ((Fields → Instr) × Fields)).all goes = true := by decide +kernel

theorem witness_runs_ctl1 : ([
   (.kTestAll, fv (.c 1) (.k 1) (.k 1) z 1), (.movxRd, fv (.v 12) (.x 1) (.s 6) z 0), (.movxWr, fv (.x 1) (.v 4) (.s 6) z 0), (.xset, fv (.x 1) (.v 4) (.s 6) z 0),
   (.xadd, fv (.v 12) (.x 1) (.s 6) z 0), (.regGrow, fv (.c 1) z (.s 6) z 0), (.regShrink, fv z z (.s 6) z 0), (.feWaitAll, fv z z z z 1),
   (.icInv, fv z (.sp 4) (.s 6) z 0), (.grpInfo, fv (.sp 4) z (.s 6) z 0), (.sysRd, fv (.sp 2) z (.spec .time) z 0), (.sysWr, fv z (.s 6) (.spec .fpflags) z 0)] :
    List ((Fields → Instr) × Fields)).all goes = true := by decide +kernel

theorem witness_runs_int0 : ([
   (.sAdd, fv (.s 6) (.s 6) (.s 6) z 2), (.sSub, fv (.s 6) (.s 6) (.s 6) z 2), (.sMul, fv (.s 6) (.s 6) (.s 6) z 2), (.sMulh, fv (.s 6) (.s 6) (.s 6) z 2),
   (.sAnd, fv (.s 6) (.s 6) (.s 6) z 8), (.sOr, fv (.s 6) (.s 6) (.s 6) z 8), (.sXor, fv (.s 6) (.s 6) (.s 6) z 8), (.sAndn, fv (.s 6) (.s 6) (.s 6) z 8),
   (.sShl, fv (.s 6) (.s 6) (.s 6) z 8), (.sShr, fv (.s 6) (.s 6) (.s 6) z 8), (.sSar, fv (.s 6) (.s 6) (.s 6) z 8), (.sRot, fv (.s 6) (.s 6) (.s 6) z 8),
   (.sMin, fv (.s 6) (.s 6) (.s 6) z 2), (.sMax, fv (.s 6) (.s 6) (.s 6) z 2), (.sCmp, fv (.c 1) (.s 6) (.s 6) z 2), (.sSel, fv (.s 6) (.s 6) (.s 6) (.c 2) 8),
   (.sMov, fv (.s 6) (.s 6) z z 8), (.sMovi, fw 1 (.sp 4) z z 3), (.sBfe, fv (.s 6) (.s 6) (.s 6) z 2), (.sBfi, fv (.s 6) (.s 6) (.s 6) (.s 6) 8),
   (.sPopc, fv (.s 6) (.s 6) z z 8), (.sClz, fv (.s 6) (.s 6) z z 8), (.sAdd64, fv (.sp 4) (.sp 4) (.sp 4) z 3), (.cLop, fv (.c 1) (.c 2) (.c 2) z 0)] :
    List ((Fields → Instr) × Fields)).all goes = true := by decide +kernel

theorem witness_runs_int1 : ([
   (.vAdd, fv (.v 12) (.v 4) (.v 4) z 0), (.vSub, fv (.v 12) (.v 4) (.v 4) z 0), (.vMul, fv (.v 12) (.v 4) (.v 4) z 2), (.vMulh, fv (.v 12) (.v 4) (.v 4) z 2),
   (.mad, fv (.v 12) (.v 4) (.v 4) (.v 4) 2), (.madw, fv (.v 12) (.v 4) (.v 4) (.v 4) 2), (.vAnd, fv (.v 12) (.v 4) (.v 4) z 8), (.vOr, fv (.v 12) (.v 4) (.v 4) z 8),
   (.vXor, fv (.v 12) (.v 4) (.v 4) z 8), (.vAndn, fv (.v 12) (.v 4) (.v 4) z 8), (.vShl, fv (.v 12) (.v 4) (.v 4) z 8), (.vShr, fv (.v 12) (.v 4) (.v 4) z 8),
   (.vSar, fv (.v 12) (.v 4) (.v 4) z 8), (.vRot, fv (.v 12) (.v 4) (.v 4) z 8), (.vMin, fv (.v 12) (.v 4) (.v 4) z 0), (.vMax, fv (.v 12) (.v 4) (.v 4) z 0),
   (.vAbs, fv (.v 12) (.v 4) z z 0), (.vCmp, fv (.k 1) (.v 4) (.v 4) z 2), (.vSel, fv (.v 12) (.v 4) (.v 4) (.k 1) 8), (.vBfe, fv (.v 12) (.v 4) (.v 4) z 2),
   (.vBfi, fv (.v 12) (.v 4) (.v 4) (.v 4) 8), (.vPopc, fv (.v 12) (.v 4) z z 8), (.vClz, fv (.v 12) (.v 4) z z 8), (.vBrev, fv (.v 12) (.v 4) z z 8)] :
    List ((Fields → Instr) × Fields)).all goes = true := by decide +kernel

theorem witness_runs_int2 : ([
   (.vAdd64, fv (.v 12) (.v 4) (.v 4) z 3), (.prmt, fv (.v 12) (.v 4) (.v 4) (.v 4) 0), (.dot4, fv (.v 12) (.v 4) (.v 4) (.v 4) 0), (.shflIdx, fv (.v 12) (.v 4) (.v 4) z 8),
   (.shflXor, fv (.v 12) (.v 4) (.v 4) z 24), (.shflUp, fv (.v 12) (.v 4) (.v 4) z 40), (.shflDown, fv (.v 12) (.v 4) (.v 4) z 56), (.wrlane, fv (.v 12) (.s 6) (.s 6) z 8),
   (.matchLanes, fv (.v 12) (.v 4) z z 8), (.redux, fv (.v 12) (.v 4) z z 2), (.scan, fv (.v 12) (.v 4) z z 2)] :
    List ((Fields → Instr) × Fields)).all goes = true := by decide +kernel

theorem witness_runs_fp0 : ([
   (.fadd, fv (.v 12) (.v 4) (.v 4) z 10), (.fsub, fv (.v 12) (.v 4) (.v 4) z 10), (.fmul, fv (.v 12) (.v 4) (.v 4) z 10), (.ffma, fv (.v 12) (.v 4) (.v 4) (.v 4) 10),
   (.fmin, fv (.v 12) (.v 4) (.v 4) z 10), (.fmax, fv (.v 12) (.v 4) (.v 4) z 10), (.fcmp, fv (.k 1) (.v 4) (.v 4) z 10), (.fclass, fv (.v 12) (.v 4) z z 10),
   (.frnd, fv (.v 12) (.v 4) z z 10), (.fldexp, fv (.v 12) (.v 4) (.v 4) z 12), (.ffrexp, fv (.v 12) (.v 4) z z 12), (.fexp2f, fv (.v 12) (.v 4) z z 12),
   (.flog2, fv (.v 12) (.v 4) z z 12), (.frcp, fv (.v 12) (.v 4) z z 12), (.frsq, fv (.v 12) (.v 4) z z 12), (.fsqrt, fv (.v 12) (.v 4) z z 12),
   (.fsinr, fv (.v 12) (.v 4) z z 12), (.fcosr, fv (.v 12) (.v 4) z z 12), (.fdot2, fv (.v 12) (.v 4) (.v 4) (.v 4) 10), (.reduxF, fv (.v 12) (.v 4) z z 0),
   (.xaAdd, fv (.v 12) (.v 4) z z 1), (.xaRnd, fv (.v 12) (.v 4) z z 12), (.dadd, fv (.v 12) (.v 4) (.v 4) z 13), (.dmul, fv (.v 12) (.v 4) (.v 4) z 13)] :
    List ((Fields → Instr) × Fields)).all goes = true := by decide +kernel

theorem witness_runs_fp1 : ([
   (.dfma, fv (.v 12) (.v 4) (.v 4) (.v 4) 13), (.dcmp, fv (.k 1) (.v 4) (.v 4) z 13), (.dminmax, fv (.v 12) (.v 4) (.v 4) z 13), (.fcvt, fw 0 (.v 12) (.v 4) z 1291),
   (.f2i, fw 0 (.v 12) (.v 4) z 1280), (.i2f, fw 0 (.v 12) (.v 4) (.v 4) 266), (.fdqni, fw 0 (.v 12) (.v 4) (.v 4) 1038)] :
    List ((Fields → Instr) × Fields)).all goes = true := by decide +kernel

theorem witness_runs_mem0 : ([
   (.ld, fw 0 (.v 12) (.v 4) .none 256), (.ldS, fv (.v 12) (.v 4) (.s 6) z 0), (.ldK, fv (.v 12) (.v 4) z z 0), (.sLd, fw 1 (.s 6) (.sp 4) (.s 6) 0),
   (.atom, fw 1 (.v 12) (.v 4) (.v 4) 256), (.atomS, fw 1 (.v 12) (.v 4) (.v 4) 256), (.red, fw 1 z (.v 4) (.v 4) 256), (.fence, fv z z z z 16),
   (.acqRs, fv (.sp 4) z (.s 6) z 0), (.pref, fw 1 z (.v 4) (.v 4) 0), (.discard, fw 1 z (.sp 4) (.s 6) 0), (.cpy, fx 0 z (.sp 4) (.sp 4) (.s 6) 0),
   (.cpyBox, fx 0 z (.sp 4) (.sp 4) (.sp 4) 0), (.cpyClose, fv (.s 6) z z z 0), (.cpyWait, fv z z (.s 6) z 0), (.strmDef, fx 0 z (.sp 4) z z 0),
   (.strmGo, fv z (.s 6) z z 0), (.strmStop, fv z (.s 6) z z 0)] :
    List ((Fields → Instr) × Fields)).all goes = true := by decide +kernel

theorem witness_runs_unit0 : ([
   (.tileOpen, fx 0 (.sp 4) (.sp 4) z z 0), (.tileClose, fv (.s 6) (.s 6) z z 0), (.tileAcq, fv (.s 6) (.s 6) z z 0), (.tileRel, fv z (.s 6) z z 0),
   (.tileSplit, fv (.sp 4) (.s 6) (.s 6) z 0), (.tileQry, fv (.s 6) (.s 6) z z 0), (.pgProbe, fv (.sp 4) (.sp 4) z z 0), (.pgInvVa, fv z (.sp 4) (.s 6) z 0),
   (.pgInvCtx, fv z z z z 1), (.pgSync, fv z z z z 0), (.bar, fv z (.s 6) z z 0), (.barArv, fv z (.s 6) z z 1),
   (.barWait, fv z (.s 6) z z 2), (.barDev, fv z (.s 6) z z 3), (.qpush, fv (.s 6) (.sp 4) (.s 6) z 0), (.qnotify, fv z (.s 6) (.s 6) z 0),
   (.spawn, fv (.s 6) (.sp 4) (.s 6) z 0), (.join, fv (.s 6) (.sp 4) (.s 6) z 0), (.joinInc, fv (.s 6) (.sp 4) (.s 6) z 1), (.emit, fv (.s 6) (.v 4) (.s 6) z 0),
   (.nodePop, fv (.v 12) (.s 6) z z 0), (.mosRsv, fw 1 (.s 6) (.s 6) z 10), (.mosRel, fv z z (.s 6) z 0), (.mosWr, fv z (.v 4) (.s 6) z 0)] :
    List ((Fields → Instr) × Fields)).all goes = true := by decide +kernel

theorem witness_runs_unit1 : ([
   (.mosFill, fw 1 z (.sp 4) z 0), (.rtBox, fv (.v 12) (.v 4) (.v 4) z 0), (.rtTri, fv (.v 12) (.v 4) (.v 4) (.v 4) 0), (.rtTriReg, fv (.v 12) (.v 4) (.v 4) z 4),
   (.rtTrace, fv (.v 12) (.v 4) (.v 4) z 0), (.texSmp, fv (.v 12) (.v 4) (.v 4) (.sp 4) 0), (.texLd, fv (.v 12) (.v 4) (.v 4) (.sp 4) 0), (.texGthr, fv (.v 12) (.v 4) (.v 4) (.sp 4) 0),
   (.recLd, fv (.v 12) (.v 4) (.sp 4) z 0), (.cutGo, fv (.s 6) (.sp 4) (.s 6) z 0), (.rgnIn, fw 1 z z z 0), (.rgnOut, fw 1 z z z 0),
   (.brk, fv z z z z 0), (.prog, fv z (.s 6) z z 0), (.qpPost, fv (.s 6) (.sp 4) (.s 6) z 0), (.coll, fx 0 (.s 6) (.sp 4) z z 0),
   (.collWait, fv (.s 6) z (.s 6) z 0)] :
    List ((Fields → Instr) × Fields)).all goes = true := by decide +kernel

theorem witness_runs_sources :
    (tiny.runs tw (.sSt (fw 0 (.s 6) (.sp 4) (.s 6) 0)) (fw 0 (.s 6) (.sp 4) (.s 6) 0) (.src false) false &&
     tiny.runs tw (.kSt (fw 0 (.k 1) (.sp 4) z 0)) (fw 0 (.k 1) (.sp 4) z 0) (.src false) false &&
     tiny.runs tw (.st (fw 0 (.v 12) (.v 4) .none 256)) (fw 0 (.v 12) (.v 4) .none 256) (.src false) false &&
     tiny.runs tw (.stS (fv z (.v 4) (.s 6) (.v 4) 0)) (fv z (.v 4) (.s 6) (.v 4) 0) .dest false &&
     tiny.runs tw (.fqni (fw 0 (.v 12) (.v 4) (.v 4) 12)) (fw 0 (.v 12) (.v 4) (.v 4) 12) (.both false) false &&
     tiny.runs tw (.rdlane (fv (.s 6) (.v 4) (.s 6) z 8)) (fv (.s 6) (.v 4) (.s 6) z 8) .dest true &&
     tiny.runs tw (.mma (fx 0 (.v 12) (.v 4) (.v 4) z 10)) (fx 0 (.v 12) (.v 4) (.v 4) z 10) .dest true &&
     tiny.runs tw (.mmaSp (fx 0 (.v 12) (.v 4) (.v 4) (.v 4) 10)) (fx 0 (.v 12) (.v 4) (.v 4) (.v 4) 10) .dest true &&
     tiny.runs tw (.loopPin (fw 1 z z z 0)) (fw 1 z z z 0) .dest false &&
     tiny.runs tw (.feWait (fv z (.v 4) (.int 1) z 0)) (fv z (.v 4) (.int 1) z 0) .dest false) = true := by decide +kernel

/-! ### Encodings and the step -/

theorem witness_DecodeEncodeAgree :
    ([.vAdd (fw 7 (.v 255) (.q 3) z 0x12), .sAdd64 (fv (.sp 63) (.sp 63) (.int 63) z 3), .exit (fv z z z z 0),
      .pair ⟨0, .add, 3, 3, .imm 1, .fmulF32, 8, 9, .s 3, false⟩, .illegalOp 0x0080001C06016BE0] : List Instr).all
      (fun i => i.wf && i.encoded) = true := by decide +kernel

theorem witness_EncodeDecodeAgree : (match decodeBits 0x2400001805010100 with | .ok _ => true | .error _ => false) = true := by
  decide +kernel

/-- The state after reset with ADD v4, v5, v6 placed as the next instruction. -/
def placedAdd : State := State.reset.withFetchWord 64 0x2400001805010100
def placedWave : Wave := wave0 placedAdd

theorem witness_StepRunsTheDecodedInstruction :
    placedAdd.takesTurn 0 [] ⟨0, 0, 0⟩ placedWave ∧
    (match (placedAdd.granted 0 [] ⟨0, 0, 0⟩).me with
     | some x => x.rep == 0 && (match (placedAdd.granted 0 [] ⟨0, 0, 0⟩).heldBlock x with
       | some bs => !splits bs (x.pc.toNat % 32) && (match decodeBits (blockBits bs (x.pc.toNat % 32)) with
         | .ok i => i == .vAdd (fv (.v 4) (.v 5) (.v 6) z 0x12)
         | .error _ => false)
       | none => false)
     | none => false) = true := by
  refine ⟨⟨by decide +kernel, by decide +kernel, by decide +kernel, by decide +kernel, by decide +kernel⟩, by decide +kernel⟩

/-- The same under a repeat count: the word is one that REP may repeat. -/
theorem witness_StepRunsTheDecodedInstruction_rep :
    (let s := { placedAdd with waves := [{ placedWave with rep := 2 }] }
     let w := wave0 s
     s.takesTurn 0 [] ⟨0, 0, 0⟩ w) ∧
    (let s := { placedAdd with waves := [{ placedWave with rep := 2 }] }
     match (s.granted 0 [] ⟨0, 0, 0⟩).me with
     | some x => x.rep == 2 && repWord 0x2400001805010100 && ((Instr.vAdd (fv (.v 4) (.v 5) (.v 6) z 0x12)).opFields).isSome
     | none => false) = true := by
  refine ⟨⟨by decide +kernel, by decide +kernel, by decide +kernel, by decide +kernel, by decide +kernel⟩, by decide +kernel⟩

/-- A block of the instruction cache that holds a word at an offset, with the wave's PC there. -/
def held (off w : Nat) : State :=
  let s := State.reset.withFetchWord 64 0
  let bs := List.replicate off (0 : Byte) ++ bytesOfNat (32 - off) w
  { s with icache := s.icache.map fun l => { l with bytes := bs }, waves := s.waves.map fun x => { x with pc := x.pc + BitVec.ofNat 64 off } }

theorem witness_FetchTraps :
    ([(28, 0, 0), (0, 0x0080001C06016BE0, 1), (0, 4, 2), (24, 2, 0)] : List (Nat × Nat × Nat)).all (fun x =>
      let s := held x.1 x.2.1
      match s.me with
      | some w => w.rep == 0 && (match s.heldBlock w with
        | some bs =>
          let b := blockBits bs x.1
          if splits bs x.1 then x.2.2 == 0
          else if illegalBits b then x.2.2 == 1
          else (match decodeBits b with | .error _ => x.2.2 == 2 | .ok _ => x.2.2 == 3)
        | none => false)
      | none => false) = true := by decide +kernel

theorem witness_MemoryReads : Memory.wf [(3, 5), (9, 1)] = true ∧ Memory.wf (cellSet [(3, 5), (9, 1)] 9 0) = true := by
  decide +kernel

/-- The step that runs the placed instruction answers a next state from a canonical memory. -/
theorem witness_StepKeepsMemoryCanonical : Memory.wf placedAdd.mem = true ∧ isNext (step placedAdd) = true := by decide +kernel

/-! ### One step each -/

/-- R20: the placed V64 instruction ends at the next 8 bytes. -/
theorem test_step_advances :
    seen (step placedAdd) (fun t => (wave0 t).pc.toNat) = some 0x1008 := by decide +kernel

/-- R172, R150: 0xFFFFFFFF + 1 wraps to 0 in the active lanes, and the result enters l0. -/
theorem test_add_wraps :
    seen (exec (.vAdd (fv (.v 4) (.v 5) (.int 1) z 0x12))
      (tinyW fun w => w.setV 5 (List.replicate 96 0xFFFFFFFF))) (fun t => (lane ((wave0 t).vAt 4) 95).toNat) = some 0 := by
  decide +kernel

/-- R171: a saturated signed sum stops at 2^31 - 1. -/
theorem test_add_saturates :
    seen (exec (.sAdd (fv (.s 3) (.s 3) (.int 1) z 0x12)) (tinyW fun w => w.setS 3 0x7FFFFFFF))
      (fun t => ((wave0 t).sAt 3).toNat) = some 0x7FFFFFFF := by decide +kernel

/-- R147, R162: k0 takes only live lanes. -/
theorem test_exec_within_live :
    seen (exec (.kNot (fv (.k 0) (.k 1) z z 4)) (tinyW fun w => { w with live := 5 })) (fun t => (wave0 t).exec.toNat) = some 5 := by
  decide +kernel

/-- R100, R104: TRAP 7 in user state saves and goes to TRAPVEC with cause 5. -/
theorem test_trap_enters :
    seen (exec (.trap (fv z z (.int 7) z 0)) (tinyW user)) (fun t => (wave0 t).trapcause.toNat + 256 * (wave0 t).trapinfo.toNat) =
      some (5 + 256 * 7) := by decide +kernel

/-- R196, the manual's example: lanes 0 and 3 are below +0, and lane 2 is a NaN that sets NV. -/
theorem test_fcmp_example :
    (let s := tinyW fun w => (w.setV 1 ([0xBF800000, 0x80000000, 0x7FC00000, 0x80000001] ++ List.replicate 92 0)).setK 0 0xF
     let o := exec (.fcmp (fv (.k 2) (.v 1) (.int 0) z 0x2C)) s
     (seen o fun t => ((wave0 t).kAt 2).toNat, seen o fun t => (wave0 t).fpflags.toNat)) = (some 9, some 16) := by decide +kernel

/-- R75, the manual's examples: F2I.n8.rne of -0.4 is 0 with NX, of -0.6 is 0 with NV; F2I.i8.rtz of 300.7 is 127 with NV. -/
theorem test_f2i_examples :
    fpToInt .f32 false 8 .rne 0xBECCCCCD = (0, flagNX) ∧ fpToInt .f32 false 8 .rne 0xBF19999A = (0, flagNV) ∧
    fpToInt .f32 true 8 .rtz 0x4396599A = (127, flagNV) := by decide +kernel

/-- R197, the manual's example: an FP16 pair of a signalling NaN over -0. -/
theorem test_fclass_example :
    seen (exec (.fclass (fv (.v 2) (.v 1) z z 0xA)) (tinyW fun w => w.setV 1 (List.replicate 96 0x7C018000)))
      (fun t => (lane ((wave0 t).vAt 2) 0).toNat) = some 0x01000008 := by decide +kernel

/-! ### States that meet the hypotheses of the statements, beyond the checks -/

/-- The instruction passes its checks in a state whose wave is its first. -/
def ready (s : State) (i : Instr) (f : Fields) : Bool := s.runs (wave0 s) i f .dest false
def fails {α : Type} (r : State × Acc α) : Bool := match r.2 with | .fault _ _ _ => true | _ => false

theorem witness_RepeatsAndLoopsComplete :
    (let s := tinyW fun w => w.setS 6 2
     let w := wave0 s
     ready s (.rep (fv z (.s 6) z z 0)) (fv z (.s 6) z z 0) && (s.readS w (.int 32) (.s 6)).toNat == 2) = true ∧
    (let f := fw 4 z z z 0
     let start := seqNext tw.pc 12
     let last := tw.pc + BitVec.ofInt 64 (4 * f.imm.toInt)
     decide (start ≤ last ∧ last.toNat / 32 - start.toNat / 32 + 1 ≤ 32) &&
       !decide (start ≤ tw.pc + BitVec.ofInt 64 (4 * (fw 0 z z z 0).imm.toInt))) = true ∧
    ready (tinyW fun w => { w with loopSup := some ⟨0, w.pc⟩ }) (.loopEnd (fv z z z z 0)) (fv z z z z 0) = true := by
  decide +kernel

theorem witness_RepIterationCompletes :
    (let f := fv (.v 12) (.v 4) (.v 4) z 0x12
     let s := tinyW fun w => { w with rep := 3 }
     let w := wave0 s
     let it := w.iterFields f
     let o := w.offsets
     match (Instr.vAdd f).opFields, (Instr.vAdd f).sig with
     | some (op, _), some g =>
       repEligible op.toNat && f.isV && Instr.ofOp op.toNat f == some (.vAdd f) && !(strideBad g f w.strides || !g.ok it) &&
       (sigRegidx g f (s.cordOf w).kernel.regs (s.cordOf w).kernel.sregs o.1 o.2.1 o.2.2.1 o.2.2.2).isNone &&
       Instr.ofOp op.toNat it == some (.vAdd it) && ready s (.vAdd it) it
     | _, _ => false) = true := by decide +kernel

theorem witness_IndexesAllocationAndWaits :
    (let f := fv (.v 12) (.x 1) (.s 6) z 0
     let at_ := fun (s : State) => (lanesOf (wave0 s).exec).map fun l => ((wave0 s).xAt 1 l).toNat + s.natB (wave0 s) f
     (at_ tiny).all (fun n => decide (n < tw.bound) && tw.full n) &&
     (at_ (tinyW fun w => w.setS 6 64)).any (fun n => decide (tw.bound ≤ n)) &&
     (let s := tinyW fun w => w.markEmpty 0 1
      ready s (.movxRd f) f && (at_ s).any fun n => !(wave0 s).full n)) = true ∧
    (let f := fv (.c 1) z (.s 6) z 0
     let grow := fun n => tinyW fun w => w.setS 6 n
     [0, 64, 72, 257, 9].all (fun n => ready (grow n) (.regGrow f) f && ready (grow n) (.regShrink (fv z z (.s 6) z 0)) (fv z z (.s 6) z 0)) &&
     tw.alloc == 64 && tiny.growFits tw 72 && !tiny.growFits tw 1000) = true ∧
    (let s := tinyW fun w => { w with v := w.v ++ w.v.take 8, bound := 72 }.setS 6 64
     (wave0 s).alloc == 72 && (wave0 s).full 71 && ready s (.regShrink (fv z z (.s 6) z 0)) (fv z z (.s 6) z 0)) = true ∧
    (tiny.released tw && decide (tiny.natB tw (fv (.sp 4) z (.s 6) z 0) ≤ 255) &&
     tw.v.all fun r => r.producer.isNone) = true := by
  decide +kernel

/-- A trap's frame is stored in user state, and is not where no page is mapped. -/
theorem witness_TakingATrap :
    (let s := tinyW user
     let w := wave0 s
     let u := { s with tlb := [] }
     s.me == some w && !w.sup && good (s.waveStore w true (s.trapArea w) (w.trapFrame 5 w.exec 7)) &&
       fails (u.waveStore w true (u.trapArea w) (w.trapFrame 5 w.exec 7)) && w.k.length == 8) = true := by decide +kernel

theorem witness_TrapReturnRestores :
    (let w := user tw
     !w.sup && w.pc.toNat % 4 == 0 && w.c.getLsbD 0 && w.k.length == 8 && (w.exec &&& w.live) == w.exec && decide (16 ≤ w.s.length)) = true := by
  decide +kernel

theorem witness_SystemInstructionsEnd :
    ((fv (.sp 2) z (.spec .time) z 0).sysReg == some (.spec .time) && (fv z (.s 6) (.spec .fpflags) z 0).sysReg == some (.spec .fpflags) &&
     !tiny.flagsPending tw && tw.watch == [] &&
     [SysReg.spec .srseed, .spec .trappc].all (fun r =>
       [Opnd.spec .srseed, .spec .trappc, .int 3, .int 4, .int 5, .int 6].any fun b => (fv z (.sp 3) b z 0).sysReg == some r) &&
     good (tiny.waveStore tw true (tiny.trapArea tw) (bytesOfNat 8 1)) && good (tiny.waveLoad tw true (tiny.trapArea tw) 200 0)) = true ∧
    (let s := tiny
     let f := fv (.sp 4) (.sp 4) (.s 6) z 0
     let c := s.ctx (s.tagOf tw)
     let r := fun (s : State) => s.locate tw.unit (s.tagOf tw) tw.die true 1 Option.none (piecesOf (c.mailbox + 64 * c.mbnext) 64)
     match r s, r (poke s 0 [1]) with
     | (t, .ok l), (u, .ok m) => ready s (.upcall f) f && natOfBytes (t.homeBytes ((l.map fun x => x.1).headD 0) 4) == 0 &&
         natOfBytes (u.homeBytes ((m.map fun x => x.1).headD 0) 4) == 1
     | _, _ => false) = true ∧
    (let s := tinyW fun w => { w with wait := .sleep 0 (.s 6) 8 }
     (s.waveAt ⟨0, 0, 0⟩).map (fun w => w.wait) == some (.sleep 0 (.s 6) 8)) = true := by decide +kernel

theorem witness_ChecksBeforeExecution :
    (let s := tinyW user
     let w := wave0 s
     s.me == some w && instrPriv (.pgSync (fv z z z z 0)) && (Instr.pgSync (fv z z z z 0)).sig.isSome &&
     (fw 0x102 (.sp 3) z z 0).sysReg == some .supbase) = true ∧
    (let f := fv (.v 64) (.v 4) (.v 6) z 0x12
     let g := { fv (.v 4) (.v 5) (.v 6) z 0x12 with g := 1 }
     match (Instr.vAdd f).sig, (Instr.vAdd g).sig with
     | some x, some y => (sigRegidx x f 64 128 0 0 0 0).isSome && (sigRegidx y g 64 128 0 0 0 0).isNone && !tw.guard g.g
     | _, _ => false) = true := by decide +kernel

theorem witness_PairCompletes :
    (tiny.runsPair tw ⟨0, .add, 3, 3, .imm 1, .fmulF32, 8, 9, .s 3, false⟩ &&
     (pairRegidx ⟨1, .add, 3, 3, .imm 1, .fmulF32, 8, 9, .s 3, false⟩ 64 128).isNone && !tw.guard 1) = true := by decide +kernel

/-- The exclusive conditions of a comparison, and a wave whose k0 can be written. -/
theorem witness_MaskInstructionsActOnAllLanes :
    (tw.k.length == 8) = true ∧ (tw.readK (.k 1) = 0) ∧ (tinyW fun w => w.setK 1 1).waves.headD tw ≠ tw := by decide +kernel

theorem witness_ControlTransfersComplete :
    (canonical (tw.pc + 4) && !canonical (BitVec.ofNat 64 (2 ^ 63 - 4)) && tw.readK (.k 1) == 0 &&
     (wave0 (tinyW fun w => w.setK 1 2)).readK (.k 1) != 0 && (0x1014 % 4 == 0) && decide (0x1014 % 32 + 8 ≤ 32)) = true := by
  decide +kernel

/-- Operands of each kind for the floating-point statements. -/
theorem witness_FloatingPointCorners :
    ((unpack .f32 0x7FC00000).isNan && (unpack .f32 0x7F800001).isSnan && (unpack .f32 0x7F800000).isInf && (unpack .f32 0xFF800000).isInf &&
     (unpack .f32 0xFF800000).neg && (unpack .f32 0).isZero && !(unpack .f32 0x3F800000).isNan &&
     (match unpack .f32 0x3F800000 with | .fin _ _ _ => true | _ => false)) = true := by decide +kernel

/-- A wave with s14:s15 = 0x100, s12:s13 = 0x20, and the addresses 0, 8, 16 and on in v4:v5. -/
def mw : Wave :=
  { tw with s := (((tw.s.set 14 0x100).set 15 0).set 12 0x20).set 13 0
            v := (tw.v.set 4 ⟨(List.range 96).map (fun l => BitVec.ofNat 32 (8 * l)), none⟩) }
def onW (w : Wave) : State := { tiny with waves := [w] }
/-- Every access of the groups is located. -/
def allPass (r : State × List Located × PassEnd) : Bool := match r.2.2 with | .all => !r.2.1.isEmpty | _ => false

theorem witness_RoundingIsCorrect :
    ((match unpack .f16 0x3C01 with | .fin _ n d => decide (0 < n) && decide (0 < d) | _ => false) &&
     !(unpack .f16 0x7BFF).isNan && decide ((0x7BFF#64).toNat < 2 ^ FFmt.f16.width)) = true := by decide +kernel

theorem witness_LoadsComplete :
    (let s := onW mw
     let f := fw 0 (.v 12) (.v 4) .none 256
     let g := fw 0 (.v 12) (.v 4) .none 0
     ready s (.ld f) f && allPass (State.checkGroups mw true 0 1 (passGroups true 0 (mw.laneVas (s.indexedAddrs mw f))) s) &&
     ready s (.ld g) g && allPass (State.checkGroups mw (g.ord == 0) 0 (2 ^ g.msize) (passGroups (g.ord == 0) 0 (mw.laneVas (s.indexedAddrs mw g))) s) &&
     good (s.locate mw.unit (s.tagOf mw) mw.die true 0 (some 0) (piecesOf (s.scalarAddr mw (fw 1 (.s 6) (.sp 7) .none 0)) 4)) &&
     good (s.locate mw.unit (s.tagOf mw) mw.die true 0 (some 0) (piecesOf 0x100 12))) = true := by decide +kernel

theorem witness_StoresComplete :
    (let s := onW mw
     let f := fw 0 (.v 12) (.v 4) .none 256
     s.runs mw (.st f) f (.src false) false && f.ord != 2 &&
     allPass (State.checkGroups mw (f.ord == 0) 1 (2 ^ f.msize) (passGroups (f.ord == 0) 0 (mw.laneVas (s.indexedAddrs mw f))) s) &&
     good (s.locate mw.unit (s.tagOf mw) mw.die true 1 (some 0) (piecesOf 0x100 12))) = true := by decide +kernel

/-- Lanes inside the span, and past it. -/
theorem witness_ScratchpadInstructionsComplete :
    (let s := onW (mw.setK 0 0x10)
     let w := wave0 s
     let f := fv (.v 12) (.v 4) (.s 6) z 0
     let g := fw 16 (.v 12) (.v 4) (.v 4) 0
     (lanesOf w.exec == [4]) && (s.spadOffs w f).getD 4 0 == 32 && !(s.spadLaneErrors w 1 (s.spadOffs w f)).1 &&
     ready s (.ldS f) f && ready s (.atomS g) g && (s.cordOf w).kernel.scratch == 4096 &&
     ready (onW (tw.setV 4 (List.replicate 96 4096))) (.ldS f) f) = true := by decide +kernel

theorem witness_AtomicsCompleteAtHome :
    (let s := onW mw
     let f := fw 0 (.v 12) (.v 4) (.v 4) 256
     ready s (.atom f) f && ready s (.red { f with d := z }) { f with d := z } && f.ord != 2 && allPass (s.checkAtom mw f (s.baseAddrs mw f))) = true ∧
    namesFresh State.reset ∧
    ((tiny.flushSector 0 0x20).acceptSector 0 0x20).heldBack 0x20 (some 0) = false := by
  refine ⟨by decide +kernel, ⟨by decide +kernel, by decide +kernel⟩, by decide +kernel⟩

/-- A write by its name, its place, its byte and its completion time; one of pool memory waits for its acknowledgement. -/
def wr (id a : Nat) (x : Byte) (t : Option Nat) (pool : Bool) : Write :=
  ⟨id, .wave ⟨0, 0, 0⟩, some 0, some 0, [(a, x)], 4096, .normal, pool, !pool, [], [], none, true, [], t⟩
theorem witness_OrderingInstructionsComplete :
    (let s := onW mw
     s.releasedAt mw 3 && (fv z z z z 0x30).ord != 1 && mw.wait == .none && decide (s.natB mw (fv (.sp 3) z (.int 1) z 0) < 192) &&
     decide (192 ≤ (onW (mw.setS 9 192)).natB (mw.setS 9 192) (fv (.sp 3) z (.s 9) z 0)) &&
     ready (onW { mw with wait := .acq [] 7 }) (.acqRs (fv (.sp 3) z (.int 1) z 0)) (fv (.sp 3) z (.int 1) z 0) &&
     ready (onW (mw.setK 0 0)) (.pref (fw 0 z (.v 4) (.int 0) 0)) (fw 0 z (.v 4) (.int 0) 0)) = true ∧
    (let s := { onW { mw with watch := [5] } with writes := [wr 5 0x40 5 none false] }
     s.releasedAt (wave0 s) 3 == false && ready s (.fence (fv z z z z 0x30)) (fv z z z z 0x30)) = true := by decide +kernel

/-- Two writes of one sector that have completed, one that may be accepted, and one that the pool has not acknowledged. -/
def written : State :=
  { onW { mw with watch := [5] } with
    time := 10, uid := 9, writes := [wr 2 0x20 9 (some 4) false, wr 3 0x21 7 (some 8) false, wr 5 0x40 5 none false, wr 7 0x80 6 (some 40) true] }

theorem witness_AcceptanceGivesCompletionTime :
    (match written.write 5 with
     | some x => written.canAccept x && (written.writes.all fun y => y.id != 5 || y == x) && x.tag == some 0 &&
         !written.poison.contains x.sector && { written with poison := [x.sector] }.poison.contains x.sector
     | none => false) = true := by decide +kernel

theorem witness_CompletionChangesNoValue :
    namesFresh written ∧ Memory.wf written.mem = true ∧
    (∀ x ∈ written.writes, (x.bytes.map fun c => c.1).Nodup ∧ ∀ c ∈ x.bytes, sectorBase c.1 = x.sector) := by
  refine ⟨⟨by decide +kernel, by decide +kernel⟩, by decide +kernel, by decide +kernel⟩

theorem witness_MemoryEventsEnd :
    (let x := wr 2 0x20 9 (some 4) false
     let f : Fill := ⟨7, ⟨0, 0, 0⟩, 2, 0xFF, [List.replicate 96 5], 3, true⟩
     written.writes == [] ++ x :: written.writes.drop 1 && x.doneAt 10 && x.acked && (written.writes.drop 1).all (fun y => y.id != 2) &&
     (match written.write 7 with | some y => y.pool && !y.acked && y.ctime.isSome && !y.doneAt 10 | none => false) &&
     (({ written with fills := [f] }.fills.find? fun g => g.id == 7) == some f) && (written.waveAt ⟨0, 0, 0⟩).isSome &&
     decide (2 < tw.alloc)) = true := by decide +kernel

def item : CopyItem := .linear 0x110 0x20 40 false false 0 0
/-- Waves with a full open batch, and with a batch that has not finished. -/
def fullBatch : Wave := { mw with openBatch := List.replicate 64 item }
def inBatch : Wave := { mw with openBatch := [item] }.closeBatch

theorem witness_CopiesCoverTheirRange :
    (let f := fx 0x40 z (.sp 7) (.sp 6) .none 0
     let s := onW mw
     rangeTrap 4096 false (s.copyAddr mw false f.a) 0x40 1 == none && rangeTrap 4096 false (s.copyAddr mw false f.b) 0x40 0 == none &&
     ready s (.cpy f) f && ready (onW fullBatch) (.cpy f) f && (onW fullBatch).canClose fullBatch && s.canClose mw &&
     !(onW { mw with batches := List.replicate 8 ⟨0, true, 0, []⟩ }).canClose { mw with batches := List.replicate 8 ⟨0, true, 0, []⟩ } &&
     good (s.waveLoad mw true 0x100 64 0) && ready s (.cpyBox (fx 0 z (.sp 7) (.sp 6) (.sp 7) 0)) (fx 0 z (.sp 7) (.sp 6) (.sp 7) 0) &&
     inBatch.batches.any (fun b => b.pieces.any fun p => p.st.open && !p.st.told) &&
     (match inBatch.batches with
      | b :: _ => (match b.pieces with
        | p :: _ => ((onW inBatch).runPiece ⟨0, 0, b.sup, 1, 0⟩ p).2.isSome
        | [] => false)
      | [] => false)) = true := by decide +kernel

/-- A stream record of 8 elements of 4 bytes at 0x20 for queue 1, by its flags. -/
def streamRec (flags : Nat) : List Byte :=
  bytesOfNat 8 0x20 ++ bytesOfNat 8 0 ++ bytesOfNat 4 8 ++ bytesOfNat 4 1 ++ bytesOfNat 4 1 ++ bytesOfNat 4 1 ++ bytesOfNat 4 4 ++
  bytesOfNat 16 0 ++ [4, 1, BitVec.ofNat 8 flags, 0] ++ bytesOfNat 8 0

theorem witness_StreamsComplete :
    (let s := onW mw
     let w := fun b => { mw with streams := [⟨0, streamRec b, .running, true, some 0x20, 0, []⟩] }
     let x := fun b => (w b).streams.headD default
     strmValid [] 2 (streamRec 1) && !strmValid [] 2 (streamRec 0) && good (s.waveLoad mw true 0x100 64 0) &&
     ready (onW (w 1)) (.strmGo (fv z (.s 3) z z 0)) (fv z (.s 3) z z 0) && !strmFlag (streamRec 1) 1 && strmFlag (streamRec 3) 1 &&
     good (s.waveLoad mw true 0x20 8 0) && (w 1).streamRoom (x 1) && good ((onW (w 1)).streamBase (w 1) (x 1)) &&
     (match State.elems (w 1) (x 1) 96 0 (onW (w 1)) with | (_, l, none) => !l.isEmpty | _ => false)) = true := by decide +kernel

/-- The first page through five levels of tables: a leaf for any access, one that user state may not read, and none. -/
def tables : State :=
  { [(0x8000, 0x9001), (0x9000, 0xA001), (0xA000, 0xB001), (0xB000, 0xC001), (0xC000, 0x23B), (0xC008, 0x203)].foldl
      (fun s (x : Nat × Nat) => poke s x.1 (bytesOfNat 8 x.2)) tiny with tlb := [] }.modCtx 0 fun c => { c with ptroot := 0x8000 }

theorem witness_PagesTranslate :
    ((tables.walk 0 0).kind == .leaf && permitted (tables.walk 0 0).entry 0 true && (tables.walk 0 0x1000).kind == .leaf &&
     !permitted (tables.walk 0 0x1000).entry 1 true && (tables.walk 0 0x4000).kind == .absent && ({ tables with poison := [0x8000] }.walkBy 0 0 0).1.isNone && (tables.walkBy 0 0 0).1.isSome && canonical 0 && !canonical (2 ^ 63)) = true ∧
    (let s := onW mw
     s.released mw && s.natB mw (fv z (.sp 7) (.int 0) z 0) == 0 && s.natB mw (fv z (.sp 7) (.int 8) z 0) == 8 && mw.invals == [] &&
     !written.released (wave0 written) && ready written (.pgInvVa (fv z (.sp 7) (.int 8) z 0)) (fv z (.sp 7) (.int 8) z 0) &&
     (let u := { s with waves := [{ mw with invals := [⟨3, 0, none, [], false, 0⟩] }] }
      (u.allInvals.find? fun i => i.id == 3).isSome)) = true := by decide +kernel

/-- A root of 64 elements, with what the directory holds of it. -/
def root (k : Handle → Handle) : Handle :=
  k { id := ⟨0, 0⟩, gen := 1, record := 0, view := false, orphan := false, ro := false, root := 0, rlc := 0, wlc := 0, esz := 0, dims := 1,
      base := 0x400, ext := [64], stride := [1], pages := [], dir := true, used := 0, tenures := [], reqs := [] }
def withRoot (k : Handle → Handle) (held : List TenEntry) (w : Wave) : State :=
  { onW w with time := 100, handles := [root k], cords := tiny.cords.map fun c => { c with tenures := held } }
def hw : Wave := mw.setS 6 0x10000

theorem witness_TilesAndTenuresComplete :
    (let s := withRoot id [] hw
     let acq := fv (.s 6) (.s 6) z z 1
     let ready := fun (s : State) => ready s (.tileAcq acq) acq && ready s (.tileRel (fv z (.s 6) z z 0)) (fv z (.s 6) z z 0)
     good ((onW mw).waveLoad mw true 0x100 64 0) && s.openHandle 0 0x10000 == some (root id) && ready s &&
     (withRoot (fun h => { h with gen := 2 }) [] hw).openHandle 0 0x10000 == none &&
     (s.cordOf hw).tenures == [] && ready (withRoot id [⟨⟨0, 0⟩, .w, none⟩] hw) && (root fun h => { h with ro := true }).ro &&
     ready (withRoot (fun h => { h with ro := true }) [] hw) && ready (withRoot (fun h => { h with orphan := true }) [] hw) &&
     (root id).dir &&
     s.splitStatus hw (root id) 0 32 == 0 && (match (s.tileSplit hw (root id) 0 32).2 with | .ok p => p.isSome | _ => false) && s.splitStatus hw (root id) 3 4 != 0) = true ∧
    (let q : TenReq := ⟨⟨0, 0, 0⟩, 1, 0, .r⟩
     let s := withRoot (fun h => { h with reqs := [q] }) [] { hw with wait := .tile ⟨0, 0⟩ (.s 3) 8 }
     (s.handle ⟨0, 0⟩).map (fun h => (h.reqs, s.mayGrant h)) == some ([q], true) && q.wave.part != Config.partitions &&
     decide (∃ y ∈ (root fun h => { h with tenures := [⟨7, .r, 90, true⟩] }).tenures, y.core = 7 ∧ y.contended = true ∧ y.expiry ≤ 100)) =
      true := by decide +kernel

/-- A partial arrival of group 0. -/
def half : Arrival := { group := 0, arr := 0xF, done := false, h := 0, hset := [] }

theorem witness_BarriersAndExitComplete :
    (let f := fv z (.int 0) z z 0
     let e := fv z z z z 0
     let s := fun (w : Wave) => onW w
     let eight := { mw with live := (0xFF : Mask), k := mw.k.set 0 (0xF0 : Mask) }
     let part := { eight with arrivals := [half] }
     let three := mw.setK 0 3
     (s mw).releasedAt mw 0 && (s mw).barGroup mw f == 0 && (s mw).barTrap mw 0 false == none && !(mw.arrival 0).done && ((mw.arrival 0).arr ||| mw.exec) == mw.live &&
     ready (s mw) (.bar f) f && ((three.arrival 0).arr ||| three.exec) != three.live && ready (s three) (.bar f) f &&
     ({ mw with arrivals := [{ half with done := true }] }.arrival 0).done && decide ((tiny.cordOf mw).kernel.groups.length ≤ 9) &&
     ready (s eight) (.exit e) e && eight.partialOn == none && (eight.live &&& ~~~eight.exec) != 0 &&
     (mw.live &&& ~~~mw.exec) == 0 && mw.partialOn == none && mw.batches == [] && (s mw).mosFills == [] &&
     part.partialOn == some 0 && (part.live &&& ~~~part.exec &&& ~~~(part.arrival 0).arr) == 0) = true ∧
    (let s := onW { mw with wait := .barrier 0 8 }
     s.waves[0]? == some (wave0 s) && (wave0 s).cord == 1 &&
     (match tiny.barSlot 1 0 with | some b => b.group == 0 | none => false)) = true := by decide +kernel

/-- A queue descriptor, a work record, and a kernel descriptor with its group table, as bytes. -/
def ringDesc (base head resv : Nat) : List Byte :=
  bytesOfNat 8 base ++ [4, 0] ++ bytesOfNat 2 10 ++ [0x10, 0, 0, 0] ++ bytesOfNat 8 resv ++ bytesOfNat 8 head ++ bytesOfNat 32 0
def workRec (t code frame join mark : Nat) : List Byte :=
  [BitVec.ofNat 8 t, 0x11, 0, 0, 0, 0, 0, 0] ++ bytesOfNat 8 code ++ bytesOfNat 8 frame ++ bytesOfNat 8 join ++ bytesOfNat 4 1 ++ bytesOfNat 4 1 ++
  bytesOfNat 4 1 ++ bytesOfNat 16 0 ++ bytesOfNat 4 mark
def kernelBytes : List Byte :=
  [0x10, 0, 8, 0, 16, 1, 0, 0] ++ bytesOfNat 8 0 ++ bytesOfNat 4 0x3A0 ++ List.replicate (0x380 - 20) 0 ++ bytesOfNat 16 1
/-- Queue 0 is empty and queue 1 holds one record; a join counter of 1 at 0xF0. -/
def queued : State :=
  [(0x200, ringDesc 0x800 0 0), (0x240, ringDesc 0xC00 2 3), (0xC80, workRec 1 0x400 0x20 0 3), (0x100, workRec 1 0x400 0x20 0 0),
   (0xF0, bytesOfNat 4 1), (0x400, kernelBytes)].foldl (fun s (x : Nat × List Byte) => poke s x.1 x.2) (onW mw) |>.modCtx 0 fun c =>
      { c with qlist := 0x200, qcount := 2, prio := 7, qver := 0x10, recver := 0x11, mbver := 0x10 }

theorem witness_QueueInstructionsEnd :
    (let s := queued
     let v := s.wavesVia mw
     let d := ringDesc 0x800 0 0
     let r := workRec 1 0x400 0x20 0 0
     s.released mw && (s.ctx 0).qcount == 2 && s.qState 0 0 != .stopped && good (s.viaLoad v 0x100 64) &&
     (match (s.prioVia v 0).2 with | .ok p => recordReason 0x11 p r == none | _ => false) && good (s.viaLoad v 0x200 64) &&
     good (s.viaPeek v 0x210 8) && ready { s with waves := [{ mw with wait := .push r }] } (.qpush (fv (.s 3) (.sp 7) (.int 0) z 0)) (fv (.s 3) (.sp 7) (.int 0) z 0) &&
     good (s.ringAdd v 0x200 d 0 [r]) && good (s.emitAll v 0x200 d 0 0xF0 [r, r]) && decide (s.buffered mw.die < 1024) && recType r != 5 &&
     good (s.joinStep v 0xF0 1 false) && good (s.joinStep v 0xF0 1 true) &&
     { s with queues := [⟨0, 1, .stopped, 0⟩] }.qState 0 1 == .stopped &&
     good (s.whole (State.popLanes v 1 0x400 [0, 1])) &&
     (match s.headEntry v 0 with | (_, .ok (_, none)) => true | _ => false) &&
     (match s.headEntry v 1 with | (_, .ok (_, some _)) => true | _ => false) && mw.wait == .none &&
     (let w := mw.setK 0 3
      let k := { tinyKernel with nodes := [(0x900, 0, true)], depth := 3, persist := true, pullq := 1, code := 0x400 }
      let e := { s with waves := [w], cords := s.cords.map fun (c : Cord) => { c with kernel := k } }
      let made := (lanesOf w.exec).map fun l => nodeRecord 0x11 0 0 0x900 (laneOf (e.srcA w (.int 64) (fv (.s 3) (.v 4) (.int 0) z 0)) l).toNat 0
      let pop := { mw with wait := .pop 1 true }
      ready e (.emit (fv (.s 3) (.v 4) (.int 0) z 0)) (fv (.s 3) (.v 4) (.int 0) z 0) && decide (made.length ≤ 16) &&
      (made.findSome? (recordReason 0x11 0)).isNone && good (e.emitAll v 0x200 d 0 0 made) &&
      ready { e with waves := [pop.setS 6 1] } (.nodePop (fv (.v 12) (.s 6) z z 1)) (fv (.v 12) (.s 6) z z 1) &&
      ready s (.spawn (fv (.s 3) (.sp 7) (.int 0) z 0)) (fv (.s 3) (.sp 7) (.int 0) z 0))) = true := by decide +kernel

/-- A range of 512 bytes of the operand store. -/
def range0 : MosRange := ⟨0, 0, 1, 0, 512, 0xA, 0, 0, 0, 0, [], 0, 0⟩
def quartet : Kernel := { tinyKernel with groups := [1, BitVec.ofNat 128 (0xF + 2 ^ 64)] }

theorem witness_MatrixInstructionsEnd :
    (let s := { onW mw with ranges := [range0], cords := tiny.cords.map fun c => { c with kernel := quartet }, waves := (List.range 4).map fun i => { mw with id := { mw.id with part := i }, index := i } }
     let f := fx 1 (.v 12) (.v 4) z z 0xA
     regionsOk (256 * 64) (mosRegions 0xA 0 0 0 0) && !regionsOk 512 (mosRegions 0xA 0 0 0 0) && s.rangeAt mw 0 == some range0 &&
     s.rangeAt mw 9 == none && s.mosFills == [] && (lanesOf mw.exec).all (fun l => decide (4 * l + 4 ≤ 512)) &&
     good (State.probeReads mw (rowPages 0x100 64) s) && badRange 0x100 64 == none &&
     s.runs mw (.mma f) { f with b := Opnd.none } .late true && !s.gatherHit mw 1 && !mw.destBusy f.d 16 && range0.ty == f.ty && grpKind ((s.cordOf mw).group 1) == 1 &&
     (grpList ((s.cordOf mw).group 1)).contains mw.index && s.brokenBy mw.cord 1 == none &&
     (let x : MosFill := ⟨4, ⟨0, 0, 0⟩, 0, 0, 0, 0, true, fillPieces (fillRows 0x100 0 32 0 0) 0, []⟩
      let r := State.runFill mw x x.pieces s
      !r.2.1 && r.1.all fun p => match p.st with | .done _ => true | _ => false)) = true ∧
    (let m := fun (i : Nat) => (⟨{ mw.id with part := i }, 0x1000, false, fx 1 (.v 12) (.v 4) z z 0xA, mw.exec, [], [], []⟩ : MmaMember)
     let o : MmaOp := ⟨0, 0, 1, [m 0]⟩
     let s : State := { onW mw with mmaOps := [o], ranges := [range0] }
     (s.mmaOps.find? fun o => o.core == 0 && o.side == 0) == some o && s.flaws == [] && (s.rangeAt mw 0).isSome &&
     (s.waveAt (m 0).wave).isSome && decide (vNum (.v 12) + 16 ≤ mw.alloc) &&
     (let g : Gather := ⟨1, [m 0, m 1, m 2, m 3], none, []⟩
      let t := { s with cords := tiny.cords.map fun (c : Cord) => { c with gathers := [g] } }
      (t.gatherOf 1 1).members.length == 4 && (t.gatherOf 1 1).members.all fun a => t.mmaParams a == t.mmaParams (m 0)) &&
     (let t := { s with cords := tiny.cords.map fun (c : Cord) => { c with gathers := [⟨1, [], some 3, [mw.index]⟩] } }
      t.gatherHit mw 1)) = true := by decide +kernel

theorem witness_RayAndTextureInstructionsComplete :
    (let w := mw.setK 0 1
     let s := onW w
     let rd := s.readerOf w
     lanesOf w.exec == [0] && good (s.unitLoad rd 0 128) && good (s.laneRecord rd 0x100 0) && good (s.unitLoad rd 0 32)) = true := by
  decide +kernel

theorem witness_DeadRaysHitNothing :
    ((f32v 0x7FC00000).isNan && (f32v 0).isZero && (Instr.rtBox (fv (.v 12) (.v 248) (.v 4) z 0)).wf) = true := by decide +kernel

def halting (w : Wave) : State :=
  (onW w).modDbg 0 fun d => { d with ctl := 0x7000, bp := d.bp.set 2 (0x8000000000000000 ||| w.pc), stopreq := 1, stopmode := 1 }

/-- A wave outside the range of a running trial that holds for one clock, and a core that a second of sampling awaits. -/
def tried (w : Wave) : State :=
  { onW w with time := 1000000000, trial := { (onW w).trial with ctl := 0x101000, lo := 4, hi := 8 },
               dbgDies := [⟨5, 0, 0⟩, ⟨0, 0, 0⟩] }

theorem witness_DebugEvents :
    (let u := user mw
     let s := tried u
     [s.mayTurn u, (s.debugHalt u).isNone, s.trialHolds u, (s.dbg 0).sampled + 1000 ≤ s.time, s.sampPeriod 0 == 1000,
      (s.cordAt u.cord).any (fun c => c.tenures == [] && c.tag == 0 && c.uid == u.cord),
      ((halting u).leaveSlot u.id).dbg 0 |>.cancelled.getLsbD 0].all id = true) := by decide +kernel

theorem witness_DebugComplete :
    (let u := user mw
     let s := halting u
     dbgHalten (s.dbg 0) && dbgTag (s.dbg 0) == s.tagOf u && !dbgHalten ((onW u).dbg 0) && (s.bpMatch u).isSome && s.stopNow u &&
     s.canIssue u && !u.exempt && good (s.waveStore u true (s.trapArea u) (u.trapFrame 6 u.exec 8)) &&
     ready (onW { mw with regions := [1], rgndepth := 1 }) (.rgnOut (fw 1 z z z 0)) (fw 1 z z z 0) &&
     { mw with halted := true }.halted && (onW mw).dbgDies.all (fun d => d.sampper == 0) && slotNum mw.id == 0 &&
     (onW mw).waves.all (fun x => slotNum x.id != 0 || x == mw)) = true ∧
    ({ onW mw with frozen := true, agenda := [⟨1, .event .freeze⟩] } : State).agenda ≠ [] := by decide +kernel

/-- The queue and kernel of `queued` with its second queue mapped to a slot, and a record of each kind in flight. -/
def slot0 : Slot := ⟨0, 0, 1, 0, 10, 100, 4, 0xC00⟩
def recOf (t : Nat) (stage : RecStage) : Rec := ⟨40, 0, 1, workRec t 0x400 0x20 0 0, none, none, stage, none, 1, 0, 40, 2⟩
def mapped (l : List Rec) : State := { queued with queues := [⟨0, 1, .mapped, 0⟩], slots := [slot0], recs := l }

def pulling : State :=
  { queued with cords := queued.cords.map fun (c : Cord) => { c with kernel := { c.kernel with persist := true, pullq := 1 } } }

theorem witness_SchedulerCompletes :
    (let s := queued
     let w := { s with queues := [⟨0, 1, .waiting, 3⟩] }
     let v := schedVia 0
     let head := fun (s : State) => match s.headEntry v 1 with | (_, .ok (_, some _)) => true | _ => false
     [(s.ctx 0).st == .running, !s.isPullQ 0 1, s.qState 0 1 == .idle, head s,
      ({ s with queues := [⟨0, 1, .stopped, 0⟩] }).qState 0 1 == .stopped, w.nextWaiting == some ⟨0, 1, .waiting, 3⟩,
      good (w.viaLoad v (w.qDesc 0 1) 64), good (w.viaLocate v 1 [(w.qDesc 0 1, 32)]),
      pulling.isPullQ 0 1]).all id = true ∧
    (let s := mapped []
     let r := recOf 1 .taken
     let t := mapped [r]
     let c := { mapped [recOf 1 .expanded] with cords := [], waves := [] }
     [s.canServe 0, s.mayTake 0 1, (s.meetSlot 0 == (some slot0, s)), (match s.headEntry (schedVia 0) 1 with | (_, .ok (_, some _)) => true | _ => false),
      t.nextRec 0 1 == some r, t.serialOk r, recordReason 0x11 0 r.bytes == none, (recordReason 0x11 0 (recOf 9 .taken).bytes).isSome,
      ([workRec 3 0 0 0 0, workRec 4 0x400 0x20 0 0, workRec 5 0x400 0x100 0 0].all fun r => recordReason 0x11 0 r == none),
      !s.sliceOver slot0, (s.servers.find? fun y => y.slot == 0) == some slot0,
      (match t.readKernel 0 0x400 with | (_, .ok (.inl _)) => true | _ => false),
      (match t.readKernel 0 0x440 with | (_, .ok (.inr _)) => true | _ => false),
      !c.hasCords 40, (c.joinDec 0 0).2, ({ s with time := 100 }).expandsOf 0 1 == false, ({ s with time := 100 }).sliceTaker slot0 == none,
      (let h : HeldSucc := ⟨0, 0, workRec 1 0x400 0x20 0 0⟩
       match (s.enqueue h.tag h.q h.bytes).2 with | .ok true => true | _ => false)]).all id = true := by decide +kernel

/-- A record that expands a grid of one cord of one wave. -/
def expanding : State :=
  let r := { recOf 1 (.expanding 0) with kernel := some { tinyKernel with regs := 8 } }
  { mapped [r] with cords := [], waves := [] }

theorem witness_PlacementAndRetirement :
    (let s := expanding
     let e := onW { mw with wait := .ended }
     [s.dispatchChoice == some 0, (s.placeable slot0).isSome, (e.cordAt 1).isSome, e.wavesQuiet 1,
      e.waves.all fun w => w.wait == .ended, (e.cordAt 1).all fun c => c.tenures == []]).all id = true := by decide +kernel

theorem witness_KernelsAndBerthsAreWithinLimits :
    ([kernelReason 2 kernelBytes (match queued.readKernel 0 0x400 with | (_, .ok (.inl k)) => k | _ => tinyKernel) == none,
      (placeWaves 0 [(0, 2), (8, 1)] []).isSome]).all id = true := by decide +kernel

/-- A context block, and the context table with it as the block of tag 3. -/
def block (v : List Byte) : List Byte :=
  bytesOfNat 8 0 ++ bytesOfNat 2 4096 ++ List.replicate 6 0 ++ bytesOfNat 8 0x100000 ++ bytesOfNat 8 0x100000 ++ bytesOfNat 8 0xC00000 ++
  List.replicate 24 0 ++ [6] ++ List.replicate 23 0 ++ v ++ List.replicate 37 0
def building (b : List Byte) : State :=
  (poke { State.reset with nkctxtab := 0x80000 } 0x80180 b).modCtx 3 fun c => { c with st := .building }

theorem witness_ContextCommandsComplete :
    (let s := building (block [0x11, 0x10, 0x10])
     let b := s.latestBytes (s.ctxBlock 3) 128
     [State.reset.ctx 3 == Ctx.empty 3, (State.reset.ctx 3).st == .free, (s.ctx 3).st == .building, !blockBad b,
      ([88, 89, 90].all fun i => byteAt b i / 16 == 1),
      (let t := building (block [0x21, 0x10, 0x10])
       !blockBad (t.latestBytes (t.ctxBlock 3) 128)), blockBad ((building (List.replicate 128 1)).latestBytes (s.ctxBlock 3) 128),
      (let d := s.modCtx 3 fun c => { c with st := .destroying }
       (d.ctx 3).st == .destroying && d.qpsFlushed 3 && d.mayPost 0 && d.mayPost 1), (tiny.ctx 0).st == .running]).all id = true := by
  decide +kernel

/-- A saved cord without waves, and a context that is pre-empted with it. -/
def image0 : Image := ⟨{ (tiny.cords.headD default) with uid := 70 }, [], [], [], 0x100, 0, 0, true, []⟩
def preempted : State :=
  { onW mw with cords := [], waves := [], slots := [slot0] }.modCtx 0 fun c => { c with st := .preempted, images := [image0] }

/-- A halted wave is restored halted, with its HALTED bit (R446). -/
theorem test_restored_halted :
    (let m := { image0 with sup := false, waves := [{ user mw with cord := 70, halted := true, haltAs := (1, 0, 8) }] }
     let s := preempted.modCtx 0 fun c => { c with images := [m] }
     match execCordRestore 0 s with
     | .next t => (t.waves.map fun w => (w.halted, (t.dbg w.core).halted.getLsbD (slotNum w.id)))
     | _ => []) = [(true, true)] := by decide +kernel

theorem witness_PreemptionAndWakesComplete :
    (let s := { onW mw with cords := [], waves := [] }.modCtx 0 fun c => { c with drain := some 0 }
     [(s.ctx 0).drain == some 0, s.flaws == [], (s.cords.all fun c => s.drained c.uid),
      preempted.resumed 0, (preempted.ctx 0).savedKids == [], (preempted.coreOrder.findSome? (preempted.restoreFit image0)).isSome,
      (match preempted.imageGood 0 image0 with | (_, .ok true) => true | _ => false),
      (let l := tiny.cords.map fun c => { c with reacq := [(⟨0, 0⟩, .r)] }
       (l.find? fun x => x.tag == 0 && !x.reacq.isEmpty).isSome)]).all
        id = true ∧
    (let s := (poke tiny 0x500 (bytesOfNat 4 2)).modCtx 0 fun c => { c with mailbox := 0x500, mblog2 := 2 }
     let e : EventEntry := ⟨7, 0, 1, 2⟩
     let t := { poke s 0x200 (bytesOfNat 8 0x600 ++ List.replicate 16 0 ++ [4]) with events := [(0, e)], nkevt := s.nkevt.set 0 0x200 }
     [(match s.viaLoad (schedVia 0) 0x500 64 with | (_, .ok b) => numAt b 0 4 == 2 | _ => false),
      (t.events.find? fun x => x.1 == 0) == some (0, e), t.nkevt.getD 0 0 != (0 : Word64),
      (match (t.ringPost unitSched 0 0 0x200 16 (bytesOfNat 12 7)).2 with | .ok true => true | _ => false)]).all id = true ∧
    ({ mw with wait := .upcall 3 (.s 3) none 8 } : Wave).wait = .upcall 3 (.s 3) none 8 := by decide +kernel

theorem witness_PortsAndHostComplete :
    (let s := onW mw
     let via := hostVia 0
     let h := s.hosts.getD 0 default
     [s.hosts[0]?.isSome, h.mode == .pcie, h.held == [], !s.boot.recovery, good (s.viaLoad via 0x24 4), good (s.viaLocate via 1 (piecesOf 0x24 4)),
      (hostAtomicParts (.fetchAdd 0x24 false 3)).1 % (hostAtomicParts (.fetchAdd 0x24 false 3)).2.1 == 0,
      good (s.viaAtomic via 0x24 4 id), (hostAtomicParts (.fetchAdd 0x25 false 3)).1 % (hostAtomicParts (.fetchAdd 0x25 false 3)).2.1 != 0,
      (s.port 0).st == .down, s.ports.length == 16]).all id = true ∧
    ([.training, .active, .quiesced, .error, .negotiating] : List PortState).all (fun st =>
      (({ tiny with ports := tiny.ports.set 0 ⟨st, .active, 4, 0, none⟩ } : State).port 0).st == st) = true := by decide +kernel

/-- A queue pair context of state st that expects packet 4, with its rings; a request of an opcode; and a packet. -/
def qpCtx (st : Nat) : List Byte :=
  [BitVec.ofNat 8 st, 0, 0, 0, 9] ++ bytesOfNat 3 5 ++ bytesOfNat 4 0 ++ bytesOfNat 3 4 ++ [0x33] ++ bytesOfNat 2 10 ++ [0, 0] ++
  bytesOfNat 8 0x280 ++ bytesOfNat 8 0x300 ++ List.replicate 92 0
def request (op : Nat) : List Byte :=
  [BitVec.ofNat 8 op, 1, 0, if op = 4 then 2 else 0] ++ bytesOfNat 4 (if op = 4 then 0 else 4) ++ bytesOfNat 8 0x20 ++ bytesOfNat 8 0x40 ++
  bytesOfNat 16 0 ++ bytesOfNat 8 77 ++ bytesOfNat 12 0 ++ bytesOfNat 4 1
def packet (op psn : Nat) : Packet := ⟨BitVec.ofNat 24 psn, BitVec.ofNat 8 op, 0, 2, 4, 0x20, 1, 0, [1, 2, 3]⟩
def paired (st : Nat) (k : Qp → Qp) : State :=
  ([(0x700, qpCtx st), (0x280, ringDesc 0x800 0 1), (0x800, request 1)].foldl (fun s (x : Nat × List Byte) => poke s x.1 x.2)
    { onW mw with nkqpbase := 0x700, time := 50000 }).modQp 0 k
/-- A request that was sent as packet 5 and is not acknowledged. -/
def awaiting (op : Nat) (q : Qp) : Qp :=
  { q with reqs := [⟨0, request op, some 5, none, false, none, 0, []⟩], unacked := [⟨packet op 5, 0⟩] }

theorem witness_QueuePairsComplete :
    [0, 1, 2, 3, 4, 5].all (fun st => byteAt ((paired st id).qpBytes 0) 0 % 16 == st && !qpReserved ((paired st id).qpBytes 0)) = true ∧
    (let s := paired 3 id
     let b := s.qpBytes 0
     let w := fun (op : Nat) => paired 3 (awaiting op)
     let t := paired 4 id
     let d := t.qpComplete 0
     [(s.ctx (numAt b 2 2 % 4096)).st == .running, byteAt (d.qpBytes 0) 0 % 16 == 4, (d.qp 0).reqs == [], d.qps.any fun x => x.qpn == 0,
      ((s.qpAdvance 0).qps.any fun x => x.qpn == 0), (match (s.qpAdvance 0).qpTake 0 false with | (_, .ok true) => true | _ => false),
      (w 1).qps.any fun q => q.unacked.any fun x => x.p.psn == 5,
      good ((w 3).viaLocate (qpDataVia b) 1 (piecesOf (wrLaddr (request 3)) 2)), wrOp (request 3) == 3,
      decide ((d.qp 0).drainTo ≤ d.qpHead 0), (s.ctx 0).st == .running,
      (let p := poke s 0x100 (request 1)
       let f := fv (.s 3) (.sp 7) (.int 0) z 0
       let v := p.wavesVia mw
       ready p (.qpPost f) f && p.released mw && qpTag b == p.tagOf mw && qpState b == 3 && good (p.viaLoad v 0x100 64) && !wrBad (request 1) &&
       wrBad (request 9) && good (p.viaLoad v (qpSq b) 64) && good (p.viaPeek v (qpSq b + 0x10) 8) &&
       good (p.ringAdd v (qpSq b) (ringDesc 0x800 0 1) 1 [request 1])),
      (let q := paired 4 fun q => { q with drainTo := 5 }
       qpState (q.qpBytes 0) == 4 && decide ((q.qpAdvance 0).qpHead 0 < ((q.qpAdvance 0).qp 0).drainTo)),
      decide (1000 * qpAckto b ≤ s.time), qpRetry b == 3, qpRnrlim b == 3, ((w 1).qp 0).retries == 0, ((w 1).qp 0).backoff == none]).all id = true ∧
    (let s := { paired 3 id with ports := tiny.ports.set 0 ⟨.active, .active, 4, 0, some 9⟩ }
     let t := { s with qps := (paired 3 fun q => { q with cached := [0] }).qps }
     let b := s.qpBytes 0
     [(s.port 0).open_, s.heldPkts == [], !s.qpCached 0 0, t.qpCached 0 0, (t.packetMeet 0 (packet 1 4)).2,
      (packet 1 4).psn == BitVec.ofNat 24 (qpEpsn b), decide (((packet 1 5).psn - BitVec.ofNat 24 (qpEpsn b)).toNat < 2 ^ 23),
      decide (2 ^ 23 ≤ ((packet 1 3).psn - BitVec.ofNat 24 (qpEpsn b)).toNat), good (s.packetPerform b (packet 1 4))]).all id = true := by
  decide +kernel

/-- A descriptor of an all-reduce of two words by communicator 0, a communicator of two ranks, and a collective. -/
def collDesc : List Byte := [1, 2, 0, 0, 0, 0, 0, 0] ++ bytesOfNat 8 0x20 ++ bytesOfNat 8 0x60 ++ bytesOfNat 4 2 ++ List.replicate 36 0
def comm0 : Comm := ⟨0, 0, [1, 2], 0, 1000000, 0⟩
def coll0 (o : Option Nat) : Collect := ⟨7, 0, 0, 0, 1, 0, 0, 0x200, collDesc, 0, 0, o, [], none⟩
def joined (o : Option Nat) (open_ : Bool) : State :=
  let p : PeerPort := ⟨.active, .active, 4, 0, some 2⟩
  { onW mw with comms := [comm0], colls := [coll0 o], time := 2000000, ports := if open_ then tiny.ports.set 0 p else tiny.ports }

theorem witness_CollectivesEnd :
    (let f := fv (.s 6) (.sp 7) z z 0
     let s := poke (onW mw) 0x100 collDesc
     let j := joined none true
     let r : RankInput := ⟨1, collDesc, [5, 6], false, none⟩
     let done := joined (some 1) true
     [ready s (.coll f) f, ready (onW mw) (.collWait (fv (.s 6) z (.s 7) z 1)) (fv (.s 6) z (.s 7) z 1), s.releasedAt mw 2, canonical (s.readS mw (.int 64) f.a),
      (s.collsOf mw).length == 0, good (s.viaLoad (s.wavesVia mw) 0x100 64), good (s.collAdd mw 0x100 collDesc),
      (match s.locatePhys 0 (piecesOf 0x100 2) with | (_, .ok _) => true | _ => false), j.coll 7 == some (coll0 none), j.comm 0 0 == some comm0,
      decide (comm0.timeout ≤ j.time), !j.collCut (coll0 none) comm0, (joined none false).collCut (coll0 none) comm0,
      ranksWhole collDesc comm0 [r], collAgree collDesc r.desc, !collAgree collDesc (collDesc.set 2 1), ranksWhole collDesc comm0 [{ r with desc := collDesc.set 2 1 }],
      !collDescBad 2 collDesc, collDescBad 2 (collDesc.set 0 9), ({ r with fault := true }).fault, good (j.unitLoad (collReader (coll0 none)) 0x20 8),
      good (j.cutStore (collReader (coll0 none)) 0x60 (bytesOfNat 8 0)), done.allAcked [], good (done.cutStore (collReader (coll0 (some 1))) 0x228 (bytesOfNat 8 1)), collCount collDesc == 2, collOpc collDesc == 1]).all id = true := by
  decide +kernel

theorem witness_CutSelectsTheFrontier :
    (let v : View := ⟨[0, 0, 0], 0x3F800000, 0x3F800000, 0⟩
     let m : MergeSet := ⟨0, [0, 0, 0, 0], 0x3F800000, 0, 1, 0, [], true⟩
     let n : MergeSet := { m with id := 1, outs := [0], res := false }
     [refAll v [m, n] == [true, false], (selectOf (refAll v [m, n]) [⟨0, 0, [], 0, 1, 0⟩]).length == 1, n.outs.all fun o => decide (o < 1)]).all
      id = true := by decide +kernel

/-- A cut job whose view is legal, and a RAYGEN record on a zero frame. -/
def job0 : CutJob :=
  ⟨0, 0, 0x400, true, bytesOfNat 8 0x240 ++ bytesOfNat 8 0x200 ++ bytesOfNat 8 0x800 ++ bytesOfNat 4 4 ++ bytesOfNat 4 4 ++ bytesOfNat 8 0xA00 ++
    List.replicate 88 0, false, 0, [], false, none, 60⟩
/-- A graph of one set of one cluster, whose page is not resident. -/
def graphBytes : List Byte :=
  bytesOfNat 8 0x2C0 ++ bytesOfNat 8 0 ++ bytesOfNat 8 0x2A0 ++ bytesOfNat 8 0x2A8 ++ bytesOfNat 8 0x2B0 ++ bytesOfNat 4 1 ++ bytesOfNat 4 1 ++
  bytesOfNat 4 1 ++ [0x10] ++ List.replicate 11 0
def setBytes : List Byte := List.replicate 16 0 ++ bytesOfNat 4 0x7F800000 ++ bytesOfNat 4 0 ++ bytesOfNat 2 1 ++ List.replicate 22 0
def jobs (j : CutJob) : State :=
  { [(0x200, List.replicate 12 0 ++ bytesOfNat 4 0x3F800000 ++ bytesOfNat 4 0x3F800000 ++ List.replicate 12 0), (0x240, graphBytes),
      (0x2C0, setBytes)].foldl (fun s (x : Nat × List Byte) => poke s x.1 x.2) (onW mw) with jobs := [j] }

theorem witness_CutJobsAndFrameFrontComplete :
    (let f := fv (.s 6) (.sp 4) (.int 0) z 0
     let s := onW mw
     let t := jobs job0
     let rd := State.jobReader job0
     let o := match t.cutCompute rd job0.addr job0.bytes with | (t, .ok o) => some (t, o) | _ => none
     [ready s (.cutGo f) f, s.released mw, good (s.viaLoad (s.wavesVia mw) 0 128), s.queuedJobs 0 == 0, (s.ctx 0).st == .running,
      good (s.viaLoad ⟨unitCut 0, 0, 0, true, .engine, none⟩ 0x400 128), (t.jobs.find? fun j => j.die == 0 && !j.ran) == some job0,
      (t.jobs.filter fun j => j.die == 0 && j.ran && !j.posted).length == 0,
      (match o with
       | some (t, o) => o.code == 1 && (match t.cutEffects rd job0.bytes o with
         | (u, r, .ok _) => good (u.cutCounts rd 0x400 o r) && good (u.cutUndefined rd 0 128)
         | _ => false)
       | none => false),
      ((jobs { job0 with ran := true }).jobs.find? fun j => j.die == 0 && j.ran && (jobs job0).allDone j.writes).isSome,
      good (t.cutStore rd 0x450 (bytesOfNat 8 1)), (t.joinDec 0 0).2]).all id = true ∧
    (let r := fun (st : RecStage) => { recOf 5 st with kernel := some tinyKernel }
     let s := fun (st : RecStage) => { onW mw with recs := [r st] }
     let f := recFrame (r .raygen).bytes
     let rd := frontReader 0 0
     [((s .raygen).recOf 40).isSome, good ((s .raygen).unitLoad rd f 256), (((s (.raygenRan 0 3 [] 0)).recOf 40).any fun x =>
        x.stage == .raygenRan 0 3 [] 0), (s .raygen).allDone [], good ((s .raygen).frontStatus rd f 1 3),
      !good ({ s .raygen with tlb := [] }.unitLoad rd f 256)]).all id = true := by decide +kernel

/-- A hart in M-mode, and one of context 0 in U-mode whose accesses are translated. -/
def hartAt (p : HPriv) (satp : Word64) : State := (onW mw).modHart 0 fun x => { x with priv := p, csrs := [(0x180, satp)], wfi := false }
/-- A write of hart 0 that has not been accepted. -/
def hartWrites (s : State) : State := { s with writes := [{ wr 5 0x40 5 none false with agent := .hart 0 }] }
def located (r : State × HAcc (List (Nat × Nat × Word64))) : Bool := match r.2 with | .ok _ => true | _ => false
def refused (r : State × HAcc (List (Nat × Nat × Word64))) : Bool := match r.2 with | .page _ => true | _ => false

theorem witness_KindlingComplete :
    (let m := hartAt .m 0
     let u := hartAt .u 0xE000000000000000
     let s := hartAt .s 0xE000000000000000
     let x := m.hart 0
     let p := poke m 0 (bytesOfNat 4 0x00000013)
     [!x.wfi, located (m.hartLocate 0 x.who 0 0x20 4), located (m.hartLocate 0 x.who 1 0x20 8), located (m.hartLocate 0 x.who 3 0x20 8),
      m.hartFlushed 0, refused (u.hartLocate 0 (u.hart 0).who 0 0x7000000 4), refused (u.hartLocate 0 (u.hart 0).who 1 0x7000000 4),
      x.watch == [], decide (x.horizon ≤ m.time), x.priv == .m, !x.virt, (u.hart 0).priv == .u, (s.hart 0).priv == .s, !(s.hart 0).bit 0x300 20,
      isNext (execNkwake 0 m), (match m.nkcmd 0 0x400 with | (_, some o) => isNext o | _ => false),
      (x.takes m.time).isNone, (match p.hartLocate 0 (.m, false) 2 0 4 with | (t, .ok l) => (t.hartBytes 0 l).1 % 4 == 3 | _ => false),
      refused (({ u with tlb := [] }).hartLocate 0 (.u, false) 2 0x7000000 4),
      (let b := m.modHart 0 fun x => { x with watch := [5] }
       (b.hart 0).watch != [])]).all id = true ∧
    (let m := hartAt .m 0
     let absent := fun (r : State × HAcc (List (Nat × Nat × Word64))) => match r.2 with | .absent => true | _ => false
     [located (m.locatePhys 1 (piecesOf 0x1000 2048)), located (m.locatePhys 1 (piecesOf 0x1000 512)),
      absent (m.locatePhys 1 (piecesOf hbmEnd 2048)), absent (m.locatePhys 1 (piecesOf hbmEnd 512)),
      ([0xE000000000000000, 0xEF00000000000000, 0x7000000000000000] : List Word64).map (fun v => satpTaken 0x180 v) == [true, false, false]]).all
        id = true := by decide +kernel

/-- A header whose magic and version pass, with a key whose first byte is not Falcon's. -/
def image : List Byte := bytesOfNat 8 0x4B5A373420494D47 ++ List.replicate (headerBytes - 8) 0

theorem witness_BootAndPowerComplete :
    [State.reset.boot.meas.length == 8, numAt image 0 8 == 0x4B5A373420494D47, numAt [] 0 8 != 0x4B5A373420494D47, decide (numAt image 0xC 4 < 1),
      !falconValid [] [] [], (State.reset.hosts[0]?).any (fun k => k.mode == .pcie), State.reset.mgmtOpen .i2c, !State.reset.mgmtOpen (.vdm 2),
      ({ State.reset with hosts := [{ HostPort.reset with mode := .cxl }] } : State).mgmtOpen (.vdm 0) == false,
      { State.reset.power with samples := [(0, ⟨1901, [], [111]⟩)], telemetry := ⟨1901, [], [111]⟩ }.exceeded 0,
      { State.reset.power with samples := [(0, ⟨1000, [], [50]⟩)], heldSince := some 0 }.within 0, !State.reset.power.exceeded 0,
      (State.reset.power.lastStep).isNone, decide (625 ≤ State.reset.power.clockMHz), decide (State.reset.power.clockMHz ≤ 1525)].all
      id = true ∧
    shake256 [] ≠ List.replicate 64 0 := by
  refine ⟨by decide +kernel, by decide +kernel⟩

/-! ### Errors, waits and bounds -/

/-- A latent error that cannot be corrected. -/
def flawed (s : State) (p : FlawPlace) : State := { s with flaws := [⟨p, false⟩] }

theorem witness_ErrorsAreMet :
    (let u := user mw
     let s := flawed (onW u) (.sreg u.id 5)
     let f := fv (.s 6) (.s 5) (.s 6) z 2
     let x := fv (.v 12) (.x 1) (.s 6) z 0
     let l := flawed (onW mw) (.vreg mw.id 4 0)
     [(s.readErrors u frameReads).1, !((onW u).readErrors u frameReads).1, (s.readErrors u (readsOf (.sAdd f) f .dest)).1,
      s.checked u (.sAdd f) f .dest false, (l.laneErrors mw [(0, 4)]).1, !((onW mw).laneErrors mw [(0, 4)]).1, ready (onW mw) (.movxRd x) x,
      (match ({ onW u with poison := [0x0] }.waveStore u true ((onW u).trapArea u) (u.trapFrame 6 u.exec 8)).2 with | .bad => true | _ => false),
      (match (State.prefLanes mw 4 [0x20] { onW mw with poison := [0x20] }).2 with | .bad => true | _ => false),
      ({ tables with poison := [0x8000] }.walkMeet 0 0).1.isNone, (tables.walkMeet 0 0).1 == some (tables.walk 0 0),
      written.settleRel == written]).all id = true := by decide +kernel

/-- A COPY record with one piece to do, and a wave whose release store keeps a tenure. -/
theorem witness_CopyRecords :
    (let p := linearPieces 0x110 0x20 8 false false 0 0
     let r := { recOf 4 (.copying p) with bytes := workRec 4 0x400 0x20 0 0 }
     let s := mapped [r]
     [(s.recs.find? fun r => r.uid == 40) == some r, p.all fun x => x.st.open,
      (match s.runPiece ⟨0, 40 % 32, false, 0, 0⟩ (p.headD default) with | (_, some st) => st.fault.isNone | _ => false),
      (match s.runPiece ⟨0, 40 % 32, false, 0, 0⟩ ((linearPieces 0x110 0x7000000 8 false false 0 0).headD default) with | (_, some st) => st.fault.isSome | _ => false),
      s.qState 0 1 != .stopped, s.canStop 0 1]).all id = true ∧
    (let s := { withRoot id [⟨⟨0, 0⟩, .w, none⟩] { hw with watch := [5] } with writes := [{ wr 5 0x40 5 none false with rel := some ⟨9, [], []⟩ }] }
     s.unreleasedOf hw.id != [] && ready s (.tileRel (fv z (.s 6) z z 0)) (fv z (.s 6) z z 0)) = true := by decide +kernel

/-- Pushes that have read what they push and wait for room, a pop that reads its ring, and what a block without room meets. -/
theorem witness_Pushes :
    (let s := { queued with waves := [{ mw with wait := .push (workRec 1 0x400 0x20 0 0) }] }
     let g := fv (.s 3) (.sp 7) (.int 0) z 0
     let v := s.wavesVia mw
     [ready s (.spawn g) g, ready s (.qpPost g) g, ready { s with waves := [{ mw with wait := .push (job0.bytes) }] } (.cutGo (fv (.s 6) (.sp 4) (.int 0) z 0))
        (fv (.s 6) (.sp 4) (.int 0) z 0), good (s.ringOfQueue v 1), good (s.viaPeek v (s.qDesc v.tag 1 + 0x18) 8), good (State.popReads v (0xC00, 4) 1 2 s),
      (s.meetSlot 0).1.isNone, (mapped [recOf 1 .taken]).expandsOf 0 1,
      ({ mapped [] with queues := [⟨0, 1, .mapped, 0⟩, ⟨0, 0, .waiting, 3⟩], slots := [{ slot0 with prio := 0 }] }.sliceTaker { slot0 with prio := 0 }).isSome,
      (({ building (block [0x11, 0x10, 0x10]) with poison := [0x80180] }).readBlock 3).1.isNone, ((building (block [0x11, 0x10, 0x10])).readBlock 3).1.isSome,
      (let s := paired 3 (awaiting 1)
       (s.qpAnswer 0 (((s.qp 0).reqs).headD default) ⟨5, false, [], 0⟩).2)]).all id = true := by decide +kernel

/-- Bounds: ports 15 and 16, COMM_CREATE, and the limits that PLDM writes. -/
theorem witness_Bounds :
    [tiny.mayPost (15 / 8), commBad 63 2 0 1000 == false, commBad 64 2 0 1000, commBad 0 1 0 1000, commBad 0 256 255 1000 == false,
      commBad 0 257 0 1000, commBad 0 2 2 1000, commBad 0 2 0 999, commBad 0 2 0 10000000 == false, commBad 0 2 0 10000001].all id = true ∧
    (let set := fun (l : PowerLimit) (v : Nat) => seen (execPldmSetLimit ⟨.i2c, .set l⟩ v tiny) fun t => t.power.limit l
     [set .psust 599, set .psust 600, set .psust 1900, set .psust 1901, set .ppeak 1899, set .ppeak 1900, set .ppeak 2100, set .ppeak 2101, set .tstep 69,
      set .tstep 70, set .tstep 95, set .tstep 96, set .ttrip 109]) =
      [some 1900, some 600, some 1900, some 1900, some 2100, some 1900, some 2100, some 2100, some 95, some 70, some 95, some 95, some 110] ∧
    (let s := tiny.rickClk 3
     let d := { tiny with power := { tiny.power with droop := [⟨3, some 0⟩], clk := 64000 } }
     [s == 0, d.rickClk 3 == 64000, { d with power := { d.power with clk := 63999 } }.rickClk 3 == 63999,
      (d.power.droop.find? fun d => d.rick == 3) == some ⟨3, some 0⟩]).all id = true := by
  refine ⟨by decide +kernel, by decide +kernel, by decide +kernel⟩

/-- Cut jobs: a job with a field that is not zero, a wait, and a command without room. -/
theorem witness_CutJobs :
    (let t := jobs job0
     let rd := State.jobReader job0
     let b := job0.bytes.take 0x60 ++ [1] ++ job0.bytes.drop 0x61
     let full := { onW mw with jobs := List.replicate 16 job0 }
     [!zeroAt b 0x60 32, zeroAt job0.bytes 0x60 32, good (t.unitLoad rd (numAt job0.bytes 8 8) 32), full.queuedJobs 0 == 16,
      (match (onW mw).viaLoad ⟨unitCut 0, 0, 0, true, .engine, none⟩ 0x7000000 128 with | (_, .fault _ _ _) => true | _ => false),
      (match t.cutSpoil rd job0.bytes 1 with | (_, .ok p) => p == [] | _ => false)]).all id = true := by decide +kernel

/-- A hart in S-mode of a guest, and addresses where no memory is; a hart's word that is no instruction ends in a trap. -/
theorem witness_HartsAndTheirTraps :
    (let m := hartAt .m 0
     let v := m.modHart 0 fun x => { x with priv := .s, virt := true }
     let absent := fun (r : State × HAcc (List (Nat × Nat × Word64))) => match r.2 with | .absent => true | _ => false
     let bad := { hartAt .u 0xE000000000000000 with poison := [0x20] }
     [decide ((m.hart 0).hold ≤ m.time), (v.hart 0).virt, (v.hart 0).priv == .s, absent (m.hartLocate 0 (m.hart 0).who 0 hbmEnd 4),
      (match (bad.hartLocate 0 (bad.hart 0).who 0 0x20 4).2 with | .bad (some _) => true | _ => false),
      ((m.modHart 0 fun x => { x with csrs := [(0x344, 2), (0x304, 2)] }).hart 0).pending 0 &&& 2 == 2]).all id = true := by decide +kernel

/-- An illegal word reports its bits with cause 2 (R424). -/
theorem test_illegal_word :
    (let s := hartAt .m 0
     match execKindlingInstruction 0 (.standard 0xFFFFFFFF) s with
     | .next t => [(t.hart 0).csr 0x342, (t.hart 0).csr 0x343]
     | _ => []) = [2, 0xFFFFFFFF] := by decide +kernel
/-- FADD.D of 1 and 1, and ADDI of a compressed word. -/
theorem test_float_and_compressed :
    (let s := (hartAt .m 0).modHart 0 fun x => { x with csrs := [(0x300, 0x2000)], f := x.f.set 1 0x3FF0000000000000, x := x.x.set 5 7 }
     let reg := fun (w : Word) (k : Hart → Word64) => match execKindlingInstruction 0 (.standard w) s with | .next t => k (t.hart 0) | _ => 0
     [reg 0x0210F153 fun x => x.f.getD 2 0, reg 0x0285 fun x => x.reg 5, reg 0x0285 fun x => x.pc - (s.hart 0).pc]) =
      [0x4000000000000000, 8, 2] := by decide +kernel
end Sys2Proof.Tests
end

section
/-! Memory as a list of bytes, and the little-endian layout of values (R2). -/

namespace Sys2Proof.Machine

/-! ### Canonical memory -/

/-- A byte below every listed address reads as unlisted. -/
theorem cellGet_of_above {b a : Nat} {m : List Host.Cell} (h : cellsAbove b m) (ha : a ≤ b) : cellGet m a = unlisted := by
  cases m with
  | nil => rfl
  | cons c r =>
    have hc : b < c.1 := h c (by simp)
    simp only [cellGet]
    rw [if_neg (by omega), if_pos (by omega)]

theorem readAfterWrite : Claim.ReadAfterWrite := by
  intro m a b x h
  induction m with
  | nil => simp only [cellSet]; split_ifs with hx <;> grind [cellGet]
  | cons c r ih =>
    obtain ⟨k, v⟩ := c
    obtain ⟨-, hk, hr⟩ := (Memory.wf_cons k v r).1 h
    have below : ∀ j, j ≤ k → cellGet r j = unlisted := fun j => cellGet_of_above hk
    rcases Nat.lt_trichotomy a k with ha | rfl | ha
    · rw [cellSet, if_pos ha]
      split_ifs with hx <;> grind [cellGet]
    · rw [cellSet, if_neg (Nat.lt_irrefl a), if_pos rfl]
      split_ifs with hx <;> grind [cellGet]
    · rw [cellSet, if_neg (Nat.lt_asymm ha), if_neg (Nat.ne_of_lt ha)]
      simp only [cellGet, ih hr]
      grind

/-- The head of a canonical memory is the lowest byte that does not read as unlisted. -/
theorem cellGet_head_ne {k : Nat} {v : Byte} {r : List Host.Cell} (h : Memory.wf ((k, v) :: r) = true) :
    cellGet ((k, v) :: r) k = v ∧ v ≠ unlisted ∧ ∀ a < k, cellGet ((k, v) :: r) a = unlisted :=
  ⟨by simp [cellGet], ((Memory.wf_cons k v r).1 h).1, fun a ha => by
    simp only [cellGet]; rw [if_neg (by omega), if_pos ha]⟩

theorem memoryIsWhatItReads : Claim.MemoryIsWhatItReads := by
  intro m
  induction m with
  | nil =>
    rintro (_ | ⟨⟨k, v⟩, r⟩) - hn heq
    · rfl
    · obtain ⟨hv, hne, -⟩ := cellGet_head_ne hn
      exact absurd ((hv.symm.trans (heq k).symm)) hne
  | cons c r ih =>
    obtain ⟨k, v⟩ := c
    rintro (_ | ⟨⟨k', v'⟩, r'⟩) hm hn heq
    · obtain ⟨hv, hne, -⟩ := cellGet_head_ne hm
      exact absurd (hv.symm.trans (heq k)) hne
    · obtain ⟨hv, hne, hlow⟩ := cellGet_head_ne hm
      obtain ⟨hv', hne', hlow'⟩ := cellGet_head_ne hn
      have hk : k = k' := by
        rcases Nat.lt_trichotomy k k' with h | h | h
        · exact absurd (hv.symm.trans ((heq k).trans (hlow' k h))) hne
        · exact h
        · exact absurd (hv'.symm.trans ((heq k').symm.trans (hlow k' h))) hne'
      subst hk
      obtain rfl : v = v' := hv.symm.trans ((heq k).trans hv')
      obtain ⟨-, habove, hr⟩ := (Memory.wf_cons k v r).1 hm
      obtain ⟨-, habove', hr'⟩ := (Memory.wf_cons k v r').1 hn
      have tails : ∀ a, cellGet r a = cellGet r' a := by
        intro a
        rcases Nat.lt_or_ge k a with h | h
        · simpa [cellGet, Nat.ne_of_lt h, Nat.lt_asymm h] using heq a
        · rw [cellGet_of_above habove h, cellGet_of_above habove' h]
      rw [ih r' hr hr' tails]

/-- Settles O9: the two claims, by induction on the list of bytes. -/
theorem memoryReads : Obligations.MemoryReads := ⟨readAfterWrite, memoryIsWhatItReads⟩

/-! ### Bytes at consecutive addresses -/

theorem cellsAt_cons (a : Nat) (b : Byte) (bs : List Byte) : cellsAt a (b :: bs) = (a, b) :: cellsAt (a + 1) bs := by
  simp only [cellsAt, List.length_cons, List.range_succ_eq_map, List.zipWith_cons_cons, List.zipWith_map_left]
  simp [Nat.add_comm, Nat.add_left_comm]

/-- What memory reads as after bytes are written at consecutive addresses. -/
theorem cellGet_cellsSet_cellsAt (m : List Host.Cell) (a : Nat) (bs : List Byte) (c : Nat) (h : Memory.wf m = true) :
    cellGet (cellsSet m (cellsAt a bs)) c = if a ≤ c ∧ c < a + bs.length then bs.getD (c - a) 0 else cellGet m c := by
  induction bs generalizing m a with
  | nil => rw [if_neg (by simp)]; rfl
  | cons b r ih =>
    have hstep : cellsSet m (cellsAt a (b :: r)) = cellsSet (cellSet m a b) (cellsAt (a + 1) r) := by
      rw [cellsAt_cons]; rfl
    rw [hstep, ih _ _ (cellSet_wf m a b h), readAfterWrite m a c b h, List.length_cons]
    rcases Nat.lt_trichotomy c a with hc | rfl | hc
    · grind
    · simp
    · obtain ⟨j, rfl⟩ : ∃ j, c = a + 1 + j := ⟨c - a - 1, by omega⟩
      have hj : a + 1 + j - a = j + 1 := by omega
      rw [hj, List.getD_cons_succ, Nat.add_sub_cancel_left]
      grind

/-! ### Little-endian values -/

/-- Bit n of the number that little-endian bytes make is bit n mod 8 of byte n / 8. -/
theorem natOfBytes_testBit (bs : List Byte) (n : Nat) :
    (natOfBytes bs).testBit n = (bs.getD (n / 8) 0).getLsbD (n % 8) := by
  induction bs generalizing n with
  | nil => simp [natOfBytes]
  | cons b r ih =>
    have hb : b.toNat < 2 ^ 8 := b.isLt
    have hsum : natOfBytes (b :: r) = 2 ^ 8 * natOfBytes r + b.toNat := by rw [natOfBytes]; omega
    rw [hsum, Nat.testBit_two_pow_mul_add _ hb]
    split_ifs with hn
    · rw [Nat.div_eq_of_lt hn, Nat.mod_eq_of_lt hn]; rfl
    · obtain ⟨j, rfl⟩ : ∃ j, n = j + 8 := ⟨n - 8, by omega⟩
      rw [Nat.add_sub_cancel, ih, Nat.add_div_right _ (by omega), Nat.add_mod_right]
      rfl

/-- Bit n of a number is bit n mod 8 of byte n / 8 of its little-endian bytes. -/
theorem bytesOfNat_getLsbD (w x n : Nat) (h : n < 8 * w) :
    ((bytesOfNat w x).getD (n / 8) 0).getLsbD (n % 8) = x.testBit n := by
  induction w generalizing x n with
  | zero => omega
  | succ w ih =>
    rw [bytesOfNat]
    rcases Nat.lt_or_ge n 8 with hn | hn
    · rw [Nat.div_eq_of_lt hn, Nat.mod_eq_of_lt hn, List.getD_cons_zero, BitVec.getLsbD_ofNat]
      simp [hn]
    · obtain ⟨j, rfl⟩ : ∃ j, n = j + 8 := ⟨n - 8, by omega⟩
      rw [Nat.add_div_right _ (by omega), Nat.add_mod_right, List.getD_cons_succ, ih _ _ (by omega),
        show x / 256 = x / 2 ^ 8 from rfl, Nat.testBit_div_two_pow]

/-- A byte of a value written at an address is that byte of the value. -/
theorem cellGet_of_written {m : List Host.Cell} {a w x i : Nat} (h : Memory.wf m = true) (hi : i < w) :
    cellGet (cellsSet m (cellsAt a (bytesOfNat w x))) (a + i) = (bytesOfNat w x).getD i 0 := by
  rw [cellGet_cellsSet_cellsAt _ _ _ _ h, bytesOfNat_length, if_pos (by omega), Nat.add_sub_cancel_left]

theorem cellsGet_getD {m : List Host.Cell} {a w i : Nat} (hi : i < w) : (cellsGet m a w).getD i 0 = cellGet m (a + i) := by
  rw [cellsGet, List.getD_eq_getElem?_getD, tabulate_get? _ _ _ hi, Option.getD_some]

/-- Settles O4: each clause is the layout of `natOfBytes` or of `bytesOfNat`, at the bytes that memory or the encoder gives. -/
theorem bytesAreLittleEndian : Obligations.BytesAreLittleEndian := by
  refine ⟨fun m a w x n hm hn => ?_, fun m a w n hn => ?_, natOfBytes_testBit, bytesOfNat_getLsbD, fun i => ⟨?_, fun n hn => ?_⟩⟩
  · rw [cellGet_of_written hm (by omega), bytesOfNat_getLsbD w x n hn]
  · rw [natOfBytes_testBit, cellsGet_getD (by omega)]
  · rw [encode, bytesOfNat_length]
  · rw [encode, bytesOfNat_getLsbD _ _ _ hn, BitVec.testBit_toNat]

end Sys2Proof.Machine
end

section
/-! What register instructions leave unchanged (R5, R145, R168, R192): first what each write of a wave keeps, then the
instructions of the four tables of arithmetic. -/

namespace Sys2Proof.Machine

/-! ### What a wave keeps -/

section
variable {w x y : Wave} {l l' : List RegName} {m : Mask}

theorem Wave.keeps_trans (h : w.keeps x l) (h' : x.keeps y l') : w.keeps y (l ++ l') := by
  obtain ⟨hlook, hprod, halloc, hrest⟩ := h
  obtain ⟨hlook', hprod', halloc', hrest'⟩ := h'
  refine ⟨fun r hr => ?_, fun n => (hprod' n).trans (hprod n), halloc'.trans halloc, hrest'.trans hrest⟩
  rw [List.mem_append, not_or] at hr
  exact (hlook' r hr.2).trans (hlook r hr.1)

/-- A later change that keeps every register adds nothing to what the earlier one wrote. -/
theorem Wave.keeps_then (h : w.keeps x l) (h' : x.keeps y []) : w.keeps y l := by
  simpa using Wave.keeps_trans h h'

/-- A wave with the same register files keeps every register. -/
theorem Wave.keeps_of_files (hv : y.v = w.v) (ho : y.o = w.o) (hs : y.s = w.s) (hk : y.k = w.k) (hc : y.c = w.c) (hx : y.x = w.x)
    (hr : y.rest = w.rest) : w.keeps y [] := by
  refine ⟨fun r _ => ?_, fun n => by simp [Wave.vReg, hv], by simp [Wave.alloc, hv], hr⟩
  cases r <;> simp [Wave.look, Wave.vAt, Wave.vReg, Wave.oAt, Wave.sAt, Wave.kAt, Wave.cAt, hv, ho, hs, hk, hc, hx]

theorem Wave.keepsLanes_trans (h : w.keepsLanes x m) (h' : x.keepsLanes y m) : w.keepsLanes y m := fun n i hi hm =>
  ⟨(h' n i hi hm).1.trans (h n i hi hm).1, (h' n i hi hm).2.trans (h n i hi hm).2⟩

theorem Wave.keepsLanes_of_files (hv : y.v = w.v) (ho : y.o = w.o) : w.keepsLanes y m := fun n i _ _ => by
  simp [Wave.vAt, Wave.vReg, Wave.oAt, hv, ho]

end

/-! ### A write of one register -/

theorem Wave.setS_sAt (w : Wave) (n : Nat) (x : Word) (j : Nat) (h : j ≠ n) : (w.setS n x).sAt j = w.sAt j := by
  simp [Wave.setS, Wave.sAt, List.getD_eq_getElem?_getD, List.getElem?_set_ne h.symm]

theorem Wave.setK_kAt (w : Wave) (n : Nat) (x : Mask) (j : Nat) (h : j ≠ n) : (w.setK n x).kAt j = w.kAt j := by
  simp [Wave.setK, Wave.kAt, List.getD_eq_getElem?_getD, List.getElem?_set_ne h.symm]

theorem Wave.setO_oAt (w : Wave) (n : Nat) (x : Lanes) (j : Nat) (h : j ≠ n) : (w.setO n x).oAt j = w.oAt j := by
  simp [Wave.setO, Wave.oAt, List.getD_eq_getElem?_getD, List.getElem?_set_ne h.symm]

/-- A v register after a write of one: its lanes are written, where it is allocated, and its producer stays. -/
theorem Wave.setV_vReg (w : Wave) (n : Nat) (x : Lanes) (j : Nat) :
    (w.setV n x).vReg j = if j = n ∧ n < w.v.length then { w.vReg n with lanes := x } else w.vReg j := by
  simp only [Wave.setV, Wave.vReg, List.getD_eq_getElem?_getD, modAt_get?]
  by_cases hj : j = n
  · subst hj
    by_cases hl : j < w.v.length
    · simp [hl]
    · simp [hl]
  · rw [if_neg (Ne.symm hj), if_neg (fun h => hj h.1)]

theorem Wave.setS_keeps (w : Wave) (n : Nat) (x : Word) : w.keeps (w.setS n x) [.s n] := by
  refine ⟨fun r hr => ?_, fun _ => rfl, rfl, rfl⟩
  cases r with
  | s j => simp only [Wave.look, w.setS_sAt n x j (by simpa using hr)]
  | v _ | o _ | k _ | c _ | x _ => rfl

theorem Wave.setK_keeps (w : Wave) (n : Nat) (x : Mask) : w.keeps (w.setK n x) [.k n] := by
  refine ⟨fun r hr => ?_, fun _ => rfl, rfl, rfl⟩
  cases r with
  | k j => simp only [Wave.look, w.setK_kAt n x j (by simpa using hr)]
  | v _ | o _ | s _ | c _ | x _ => rfl

theorem Wave.setO_keeps (w : Wave) (n : Nat) (x : Lanes) : w.keeps (w.setO n x) [.o n] := by
  refine ⟨fun r hr => ?_, fun _ => rfl, rfl, rfl⟩
  cases r with
  | o j => simp only [Wave.look, w.setO_oAt n x j (by simpa using hr)]
  | v _ | s _ | k _ | c _ | x _ => rfl

theorem Wave.setV_keeps (w : Wave) (n : Nat) (x : Lanes) : w.keeps (w.setV n x) [.v n] := by
  refine ⟨fun r hr => ?_, fun j => ?_, by simp [Wave.alloc, Wave.setV], rfl⟩
  · cases r with
    | v j =>
      have hj : ¬ (j = n ∧ n < w.v.length) := fun h => hr (by simp [h.1])
      simp only [Wave.look, Wave.vAt, Wave.setV_vReg, if_neg hj]
    | o _ | s _ | k _ | c _ | x _ => rfl
  · rw [Wave.setV_vReg]
    split_ifs with h
    · rw [h.1]
    · rfl

/-! ### A write of some lanes (R5) -/

theorem lane_mergeLanes (m : Mask) (old new : Lanes) (i : Nat) (hi : i < 96) :
    lane (mergeLanes m old new) i = if m.getLsbD i then lane new i else lane old i := by
  simp only [mergeLanes, lane, List.getD_eq_getElem?_getD, tabulate_get? _ _ _ hi, Option.getD_some]

theorem Wave.setV_keepsLanes (w : Wave) (m : Mask) (n : Nat) (x : Lanes) :
    w.keepsLanes (w.setV n (mergeLanes m (w.vAt n) x)) m := by
  refine fun j i hi hm => ⟨?_, rfl⟩
  rw [Wave.vAt, Wave.setV_vReg]
  split_ifs with h
  · rw [lane_mergeLanes _ _ _ _ hi, hm, h.1]; rfl
  · rfl

theorem Wave.setO_keepsLanes (w : Wave) (m : Mask) (n : Nat) (x : Lanes) :
    w.keepsLanes (w.setO n (mergeLanes m (w.oAt n) x)) m := by
  refine fun j i hi hm => ⟨rfl, ?_⟩
  by_cases hj : j = n
  · subst hj
    by_cases hl : j < w.o.length
    · have hset : (w.setO j (mergeLanes m (w.oAt j) x)).oAt j = mergeLanes m (w.oAt j) x := by
        simp [Wave.setO, Wave.oAt, List.getD_eq_getElem?_getD, hl]
      rw [hset, lane_mergeLanes _ _ _ _ hi, hm]; rfl
    · rw [Wave.setO, List.set_eq_of_length_le (Nat.not_lt.1 hl)]
  · rw [w.setO_oAt n _ j hj]

/-! ### Destinations -/

/-- A result in a scalar destination leaves every other register alone. -/
theorem Wave.putS_keeps (w : Wave) (d : Opnd) (x : Word64) : w.keeps (w.putS d x) (destRegs false d) := by
  cases d with
  | s n => exact w.setS_keeps _ _
  | sp n => exact Wave.keeps_trans (w.setS_keeps _ _) (Wave.setS_keeps _ _ _)
  | _ => exact ⟨fun _ _ => rfl, fun _ => rfl, rfl, rfl⟩

/-- A mask in its destination leaves every other register alone. -/
theorem Wave.putK_keeps (w : Wave) (d : Opnd) (x : Mask) : w.keeps (w.putK d x) (destRegs false d) := by
  cases d with
  | k n => exact w.setK_keeps _ _
  | _ => exact ⟨fun _ _ => rfl, fun _ => rfl, rfl, rfl⟩

/-- A result in the lanes of a vector destination leaves every other register alone. -/
theorem Wave.putV_keeps (w : Wave) (m : Mask) (wide : Bool) (d : Opnd) (x : List Word64) :
    w.keeps (w.putV m wide d x) (destRegs wide d) := by
  cases d with
  | v n => cases wide with
    | false => exact w.setV_keeps _ _
    | true => exact Wave.keeps_trans (w.setV_keeps _ _) (Wave.setV_keeps _ _ _)
  | o n => cases wide with
    | false => exact w.setO_keeps _ _
    | true => exact Wave.keeps_trans (w.setO_keeps _ _) (Wave.setO_keeps _ _ _)
  | _ => exact ⟨fun _ _ => rfl, fun _ => rfl, rfl, rfl⟩

/-- A result in the lanes of a mask leaves every other lane alone (R5). -/
theorem Wave.putV_keepsLanes (w : Wave) (m : Mask) (wide : Bool) (d : Opnd) (x : List Word64) :
    w.keepsLanes (w.putV m wide d x) m := by
  cases d with
  | v n => cases wide with
    | false => exact w.setV_keepsLanes _ _ _
    | true => exact Wave.keepsLanes_trans (w.setV_keepsLanes _ _ _) (Wave.setV_keepsLanes _ _ _ _)
  | o n => cases wide with
    | false => exact w.setO_keepsLanes _ _ _
    | true => exact Wave.keepsLanes_trans (w.setO_keepsLanes _ _ _) (Wave.setO_keepsLanes _ _ _ _)
  | _ => exact fun _ _ _ _ => ⟨rfl, rfl⟩

/-! ### What a write or an instruction's end changes of a wave -/

theorem Wave.putS_eq (w : Wave) (d : Opnd) (x : Word64) : ∃ s, w.putS d x = { w with s := s } := by
  cases d <;> exact ⟨_, rfl⟩

theorem Wave.putK_eq (w : Wave) (d : Opnd) (x : Mask) : ∃ k, w.putK d x = { w with k := k } := by
  cases d <;> exact ⟨_, rfl⟩

theorem Wave.putV_eq (w : Wave) (m : Mask) (wide : Bool) (d : Opnd) (x : List Word64) :
    ∃ v o, w.putV m wide d x = { w with v := v, o := o } := by
  cases d <;> cases wide <;> exact ⟨_, _, rfl⟩

theorem Wave.shiftFor_eq (w : Wave) (d : Opnd) : ∃ l lSup, w.shiftFor d = { w with l := l, lSup := lSup } := by
  have shift : ∀ x, ∃ l lSup, w.shiftL x = { w with l := l, lSup := lSup } := fun x => by
    unfold Wave.shiftL; split <;> exact ⟨_, _, rfl⟩
  cases d with
  | v n => exact shift _
  | o n => exact shift _
  | _ => exact ⟨_, _, rfl⟩

theorem Wave.aluPut_eq (w : Wave) (f : Fields) (wide : Bool) (x : List Word64) :
    ∃ v o l lSup, w.aluPut f wide x = { w with v := v, o := o, l := l, lSup := lSup } := by
  obtain ⟨v, o, hp⟩ := w.putV_eq w.exec wide f.d x
  obtain ⟨l, lSup, hs⟩ := Wave.shiftFor_eq { w with v := v, o := o } f.d
  exact ⟨v, o, l, lSup, by rw [Wave.aluPut, hp, hs]⟩

theorem Wave.goto_eq (w : Wave) (t : Word64) (b : Bool) :
    ∃ loop loopSup, w.goto t b = { w with pc := t, jumped := b, loop := loop, loopSup := loopSup } := by
  unfold Wave.goto; split <;> exact ⟨_, _, rfl⟩

/-- An instruction's end changes the queues, the wait and the advance of the PC alone (R20, R34, R157). -/
theorem Wave.after_eq (w : Wave) (f : Fields) : ∃ q rep pc jumped loop loopSup, w.after f =
    { w with q := q, wait := Wait.none, rep := rep, pc := pc, jumped := jumped, loop := loop, loopSup := loopSup } := by
  unfold Wave.after Wave.commit Wave.next
  dsimp only
  split
  · obtain ⟨loop, loopSup, h⟩ := Wave.goto_eq
      { w.pop [f.a, f.b, f.c, f.d] with wait := Wait.none, rep := 0 } (seqNext w.pc (fieldsBytes f)) false
    exact ⟨_, _, _, _, _, _, h⟩
  · exact ⟨_, _, _, _, _, _, rfl⟩

theorem Wave.shiftFor_keeps (w : Wave) (d : Opnd) : w.keeps (w.shiftFor d) [] := by
  obtain ⟨l, lSup, h⟩ := w.shiftFor_eq d
  rw [h]
  exact Wave.keeps_of_files rfl rfl rfl rfl rfl rfl rfl

theorem Wave.shiftFor_keepsLanes (w : Wave) (d : Opnd) (m : Mask) : w.keepsLanes (w.shiftFor d) m := by
  obtain ⟨l, lSup, h⟩ := w.shiftFor_eq d
  rw [h]
  exact Wave.keepsLanes_of_files rfl rfl

theorem Wave.orFlags_keeps (w : Wave) (x : BitVec 5) : w.keeps (w.orFlags x) [] :=
  Wave.keeps_of_files rfl rfl rfl rfl rfl rfl rfl

theorem Wave.after_keeps (w : Wave) (f : Fields) : w.keeps (w.after f) [] := by
  obtain ⟨q, rep, pc, jumped, loop, loopSup, h⟩ := w.after_eq f
  rw [h]
  exact Wave.keeps_of_files rfl rfl rfl rfl rfl rfl rfl

theorem Wave.after_keepsLanes (w : Wave) (f : Fields) (m : Mask) : w.keepsLanes (w.after f) m := by
  obtain ⟨q, rep, pc, jumped, loop, loopSup, h⟩ := w.after_eq f
  rw [h]
  exact Wave.keepsLanes_of_files rfl rfl

theorem Wave.aluPut_keeps (w : Wave) (f : Fields) (wide : Bool) (x : List Word64) :
    w.keeps (w.aluPut f wide x) (destRegs wide f.d) :=
  Wave.keeps_then (w.putV_keeps _ wide f.d x) (Wave.shiftFor_keeps _ _)

theorem Wave.aluPut_keepsLanes (w : Wave) (f : Fields) (wide : Bool) (x : List Word64) :
    w.keepsLanes (w.aluPut f wide x) w.exec :=
  Wave.keepsLanes_trans (w.putV_keepsLanes _ wide f.d x) (Wave.shiftFor_keepsLanes _ _ _)

/-- The wave that has the turn holds no byte of memory. -/
theorem State.setMe_sameBytes (s : State) (w : Wave) : s.sameBytes (s.setMe w) := fun _ => ⟨rfl, rfl, fun _ => rfl⟩

/-! ### The next states of the tables of arithmetic -/

section
variable {s : State} {w : Wave} {f : Fields}

theorem exec_scalarArith : ∀ x ∈ scalarArith, s.runs w (x.1 f) f .dest false = true →
    exec (x.1 f) s = .next (s.setMe ((w.putS f.d
      (intAlu2 x.2 f.ty f.sat (s.readS w (.int 32) f.a) (s.scalB w (.int 32) (immSigned f.ty) f))).after f)) := by
  intro x hx hr
  have hshape : exec (x.1 f) s = s.scal2 (x.1 f) f (.int 32) (intAlu2 x.2 f.ty f.sat) := by
    clear hr; fin_cases hx <;> rfl
  rw [hshape, State.scal2, State.front_runs _ hr, State.finish_eq s w f _ (State.runs_me hr)]

theorem exec_vectorArith : ∀ x ∈ vectorArith, s.runs w (x.1 f) f .dest false = true →
    exec (x.1 f) s = .next (s.setMe ((w.aluPut f (Feed.ofTy f.ty).wide (List.zipWith (intAlu2 x.2 f.ty f.sat)
      (s.srcA w (.ofTy f.ty) f) (s.srcB w (.ofTy f.ty) (immSigned f.ty) f))).after f)) := by
  intro x hx hr
  have hshape : exec (x.1 f) s = s.vec2 (x.1 f) f (Feed.ofTy f.ty) (intAlu2 x.2 f.ty f.sat) := by
    clear hr; fin_cases hx <;> rfl
  rw [hshape, State.vec2, State.front_runs _ hr, State.aluEnd, State.finish_eq s w f _ (State.runs_me hr)]
  rfl

theorem exec_floatArith : ∀ x ∈ floatArith f, s.runs w (x.1 f) f .dest false = true →
    exec (x.1 f) s = .next (s.setMe ((w.fpPut f (Feed.fp x.2.1).wide (List.zipWith (packed2 x.2.1 x.2.2)
      (s.srcA w (.fp x.2.1) f) (s.srcB w (.fp x.2.1) true f))).after f)) := by
  intro x hx hr
  have hshape : exec (x.1 f) s = s.fp2 (x.1 f) f x.2.1 x.2.2 := by
    clear hr; fin_cases hx <;> rfl
  rw [hshape, State.fp2, State.front_runs _ hr, State.fpEnd, State.finish_eq s w f _ (State.runs_me hr)]
  rfl

theorem exec_maskArith : ∀ x ∈ maskArith, s.runs w (x.1 f) f .dest false = true →
    exec (x.1 f) s = .next (s.setMe ((w.putK f.d (x.2 (w.readK f.a) (w.readK f.b))).after f)) := by
  intro x hx hr
  have hshape : exec (x.1 f) s = s.maskOp (x.1 f) f x.2 := by
    clear hr; fin_cases hx <;> rfl
  rw [hshape, State.maskOp, State.front_runs _ hr, State.finish_eq s w f _ (State.runs_me hr)]

end

/-! ### The frame of each result -/

section
variable (w : Wave) (f : Fields)

theorem Wave.putS_after_frame (x : Word64) : let y := (w.putS f.d x).after f
    w.keeps y (destRegs false f.d) ∧ y.fpflags = w.fpflags ∧ y.v = w.v ∧ y.l = w.l ∧ y.lSup = w.lSup := by
  refine ⟨Wave.keeps_then (w.putS_keeps f.d x) (Wave.after_keeps _ f), ?_⟩
  obtain ⟨s, hp⟩ := w.putS_eq f.d x
  obtain ⟨q, rep, pc, jumped, loop, loopSup, ha⟩ := (w.putS f.d x).after_eq f
  rw [ha, hp]
  exact ⟨rfl, rfl, rfl, rfl⟩

theorem Wave.putK_after_frame (x : Mask) : let y := (w.putK f.d x).after f
    w.keeps y (destRegs false f.d) ∧ y.fpflags = w.fpflags ∧ y.v = w.v ∧ y.s = w.s ∧ y.l = w.l ∧ y.lSup = w.lSup := by
  refine ⟨Wave.keeps_then (w.putK_keeps f.d x) (Wave.after_keeps _ f), ?_⟩
  obtain ⟨k, hp⟩ := w.putK_eq f.d x
  obtain ⟨q, rep, pc, jumped, loop, loopSup, ha⟩ := (w.putK f.d x).after_eq f
  rw [ha, hp]
  exact ⟨rfl, rfl, rfl, rfl, rfl⟩

theorem Wave.aluPut_after_frame (wide : Bool) (x : List Word64) : let y := (w.aluPut f wide x).after f
    w.keeps y (destRegs wide f.d) ∧ w.keepsLanes y w.exec ∧ y.fpflags = w.fpflags ∧ y.s = w.s := by
  refine ⟨Wave.keeps_then (w.aluPut_keeps f wide x) (Wave.after_keeps _ f),
    Wave.keepsLanes_trans (w.aluPut_keepsLanes f wide x) (Wave.after_keepsLanes _ f _), ?_⟩
  obtain ⟨v, o, l, lSup, hp⟩ := w.aluPut_eq f wide x
  obtain ⟨q, rep, pc, jumped, loop, loopSup, ha⟩ := (w.aluPut f wide x).after_eq f
  rw [ha, hp]
  exact ⟨rfl, rfl⟩

theorem Wave.fpPut_after_frame (wide : Bool) (r : List (Word64 × FFlags)) : let y := (w.fpPut f wide r).after f
    w.keeps y (destRegs wide f.d) ∧ w.keepsLanes y w.exec ∧ y.srseed = w.srseed ∧ y.s = w.s ∧
      w.fpflags ||| y.fpflags = y.fpflags := by
  have hflags : (w.aluPut f wide (r.map fun x => x.1)).keeps (w.fpPut f wide r) [] := Wave.orFlags_keeps _ _
  have hlanes : (w.aluPut f wide (r.map fun x => x.1)).keepsLanes (w.fpPut f wide r) w.exec :=
    Wave.keepsLanes_of_files rfl rfl
  refine ⟨Wave.keeps_then (Wave.keeps_then (w.aluPut_keeps f wide _) hflags) (Wave.after_keeps _ f),
    Wave.keepsLanes_trans (Wave.keepsLanes_trans (w.aluPut_keepsLanes f wide _) hlanes) (Wave.after_keepsLanes _ f _), ?_⟩
  obtain ⟨v, o, l, lSup, hp⟩ := w.aluPut_eq f wide (r.map fun x => x.1)
  obtain ⟨q, rep, pc, jumped, loop, loopSup, ha⟩ := (w.fpPut f wide r).after_eq f
  rw [ha, Wave.fpPut, hp]
  refine ⟨rfl, rfl, ?_⟩
  simp only [Wave.orFlags, ← BitVec.or_assoc, BitVec.or_self]

end

/-- Settles O29: each instruction of a table replaces its wave by one with a single result, whose frame is known. -/
theorem registerInstructionsFrame : Obligations.RegisterInstructionsFrame := by
  intro s w f _
  refine ⟨fun x hx hr => ?_, fun x hx hr => ?_, fun x hx hr => ?_, fun x hx hr => ?_⟩
  · rw [exec_scalarArith x hx hr]
    refine ⟨_, rfl, ?_⟩
    obtain ⟨hk, hf, hv, hl, hls⟩ := w.putS_after_frame f _
    exact ⟨hk, hf, hv, hl, hls, s.setMe_sameBytes _⟩
  · rw [exec_vectorArith x hx hr]
    refine ⟨_, rfl, ?_⟩
    obtain ⟨hk, hlanes, hf, hs⟩ := w.aluPut_after_frame f _ _
    exact ⟨hk, hlanes, hf, hs, s.setMe_sameBytes _⟩
  · rw [exec_floatArith x hx hr]
    refine ⟨_, rfl, ?_⟩
    obtain ⟨hk, hlanes, hseed, hs, hf⟩ := w.fpPut_after_frame f _ _
    exact ⟨hk, hlanes, hseed, hs, hf, s.setMe_sameBytes _⟩
  · rw [exec_maskArith x hx hr]
    refine ⟨_, rfl, ?_⟩
    obtain ⟨hk, hf, hv, hs, hl, hls⟩ := w.putK_after_frame f _
    exact ⟨hk, hf, hv, hs, hl, hls, s.setMe_sameBytes _⟩

end Sys2Proof.Machine
end

section
/-! Peer ports and their routes (R404 to R406, R428, R429). -/

namespace Sys2Proof.Machine

/-! ### A port's transition -/

@[simp] theorem State.modQp_ports (s : State) (q : Nat) (f : Qp → Qp) : (s.modQp q f).ports = s.ports := by
  unfold State.modQp; split <;> rfl
@[simp] theorem State.modQp_mem (s : State) (q : Nat) (f : Qp → Qp) : (s.modQp q f).mem = s.mem := by
  unfold State.modQp; split <;> rfl

/-- A field that every round leaves alone, the whole fold leaves alone. -/
theorem foldl_keeps {α β γ : Type} (get : β → γ) (one : β → α → β) (h : ∀ b a, get (one b a) = get b) (l : List α) (b : β) :
    get (l.foldl one b) = get b := by
  induction l generalizing b with
  | nil => rfl
  | cons a r ih => rw [List.foldl_cons, ih, h]

@[simp] theorem State.reroute_ports (s : State) : s.reroute.ports = s.ports := by
  unfold State.reroute
  refine foldl_keeps State.ports _ (fun t q => ?_) s.qps s
  dsimp only
  split <;> simp

@[simp] theorem State.reroute_mem (s : State) : s.reroute.mem = s.mem := by
  unfold State.reroute
  refine foldl_keeps State.mem _ (fun t q => ?_) s.qps s
  dsimp only
  split <;> simp

@[simp] theorem State.portTo_ports (s : State) (p : Nat) (f : PeerPort → PeerPort) :
    (s.portTo p f).ports = modAt s.ports p f := by simp [State.portTo]
@[simp] theorem State.portTo_mem (s : State) (p : Nat) (f : PeerPort → PeerPort) : (s.portTo p f).mem = s.mem := by
  simp [State.portTo]

/-- A transition changes the port that makes it, by its function, and no other. -/
theorem State.portTo_port (s : State) (p q : Nat) (f : PeerPort → PeerPort) (h : p < s.ports.length) :
    (s.portTo p f).port q = if q = p then f (s.port p) else s.port q := by
  simp only [State.port, List.getD_eq_getElem?_getD, State.portTo_ports, modAt_get?]
  split_ifs with hpq hqp hqp
  · subst hpq; simp [h]
  · omega
  · omega
  · rfl

theorem PeerPort.open_iff (p : PeerPort) : p.open_ = true ↔ p.st = .active ∨ p.st = .degraded := by
  simp [PeerPort.open_]

/-! ### What a command or a link event does to a port -/

section
variable {s : State} {p : Nat}

theorem exec_portEnable (blk : Nat) : exec (.portEnable p blk) s = s.portCmd p blk (· == .down) s.train := rfl
theorem exec_portDisable (blk : Nat) : exec (.portDisable p blk) s =
    s.portCmd p blk (fun _ => true) fun x => { x with st := .down, peer := Option.none, width := 0 } := rfl
theorem exec_portQuiesce (blk : Nat) : exec (.portQuiesce p blk) s =
    s.portCmd p blk (fun st => st == .active || st == .degraded) fun x => { x with st := .quiesced, before := x.st } := rfl
theorem exec_portResume (blk : Nat) : exec (.portResume p blk) s =
    s.portCmd p blk (· == .quiesced) fun x => { x with st := x.before } := rfl
theorem exec_portRetrain (blk : Nat) : exec (.portRetrain p blk) s = s.portCmd p blk (· == .error) s.train := rfl

/-- The PORT commands (R428) have one shape. -/
theorem exec_port_command {blk : Nat} {i : Instr} (hi : i ∈ [Instr.portEnable p blk, .portDisable p blk, .portQuiesce p blk,
    .portResume p blk, .portRetrain p blk]) : ∃ ok f, exec i s = s.portCmd p blk ok f := by
  simp only [List.mem_cons, List.not_mem_nil, or_false] at hi
  rcases hi with rfl | rfl | rfl | rfl | rfl
  · exact ⟨_, _, exec_portEnable blk⟩
  · exact ⟨_, _, exec_portDisable blk⟩
  · exact ⟨_, _, exec_portQuiesce blk⟩
  · exact ⟨_, _, exec_portResume blk⟩
  · exact ⟨_, _, exec_portRetrain blk⟩

theorem State.portCmd_of_noPort (hp : 16 ≤ p) (blk : Nat) (ok : PortState → Bool) (f : PeerPort → PeerPort) :
    s.portCmd p blk ok f = .next (s.cmdStatus blk 4) := by
  unfold State.portCmd; rw [if_pos hp]

theorem State.portCmd_of_room (hp : p < 16) (hr : s.mayPost (p / 8) = true) (blk : Nat) (ok : PortState → Bool)
    (f : PeerPort → PeerPort) : s.portCmd p blk ok f =
      if ok (s.port p).st then .next ((s.portTo p f).cmdStatus blk 0) else .next (s.cmdStatus blk 1) := by
  unfold State.portCmd; rw [if_neg (Nat.not_le.2 hp), hr]; rfl

theorem State.portCmd_of_full (hp : p < 16) (hr : s.mayPost (p / 8) = false) (blk : Nat) (ok : PortState → Bool)
    (f : PeerPort → PeerPort) : s.portCmd p blk ok f = .next s := by
  unfold State.portCmd; rw [if_neg (Nat.not_le.2 hp), hr]; rfl

theorem exec_linkUp (hr : s.mayPost (p / 8) = true) (n : Nat) : exec (.linkUp p n) s =
    if (s.port p).st = .training ∧ n ∈ [1, 2, 4] then .next (s.portTo p fun x => { x with st := .negotiating, width := n })
    else .next s := by
  change execLinkUp p n s = _
  have hn : (n = 4 ∨ n = 2 ∨ n = 1) ↔ n ∈ [1, 2, 4] := by simp; omega
  simp only [execLinkUp, hr, true_and, hn]

theorem exec_trainingTimeout (hr : s.mayPost (p / 8) = true) : exec (.trainingTimeout p) s =
    if (s.port p).st = .training ∧ (s.port p).since + 100000000 ≤ s.time then .next (s.portTo p fun x => { x with st := .down })
    else .next s := by
  change execTrainingTimeout p s = _
  simp only [execTrainingTimeout, hr, true_and]

theorem exec_versionNegotiation (hr : s.mayPost (p / 8) = true) (hn : (s.port p).st = .negotiating) (major minor peer : Nat) :
    exec (.versionNegotiation p major minor peer) s = .next (if major = 1
      then s.portTo p fun x => { x with st := if x.width = 4 then .active else .degraded, peer := some (peer % 256) }
      else s.portTo p fun x => { x with st := .error }) := by
  change execVersionNegotiation p major minor peer s = _
  unfold execVersionNegotiation
  rw [if_neg (by simp [hn, hr])]
  split <;> rfl

theorem exec_laneLoss (hr : s.mayPost (p / 8) = true) {n : Nat} (hn : n ≠ 0) : exec (.laneLoss p n) s =
    if (s.port p).open_ = true ∧ n ≤ 2 ∧ n < (s.port p).width then .next (s.portTo p fun x => { x with st := .degraded, width := n })
    else .next s := by
  change execLaneLoss p n s = _
  have h2 : (n = 2 ∨ n = 1) ↔ n ≤ 2 := by omega
  simp [execLaneLoss, hr, hn, h2, and_assoc]

/-- The loss of all lanes and the replay limit fail a port that is open, and nothing else. -/
theorem State.portError_of_room (hr : s.mayPost (p / 8) = true) : s.portError p =
    if (s.port p).open_ then { s with heldPkts := s.heldPkts.filter fun h => h.port != p }.portTo p
      fun x => { x with st := .error, peer := Option.none }
    else s := by
  simp only [State.portError, hr, Bool.true_and]

theorem exec_port_failure {i : Instr} (hi : i ∈ [Instr.replayLimitExceeded p, .laneLoss p 0]) :
    exec i s = .next (s.portError p) := by
  simp only [List.mem_cons, List.not_mem_nil, or_false] at hi
  rcases hi with rfl | rfl <;> rfl

/-- While the die's event ring has no room, commands and link events of a port wait (R429). -/
theorem exec_port_waits (hp : p < 16) (hr : s.mayPost (p / 8) = false) (blk n major minor peer : Nat) {i : Instr}
    (hi : i ∈ [Instr.portEnable p blk, .portDisable p blk, .portQuiesce p blk, .portResume p blk, .portRetrain p blk, .linkUp p n,
      .trainingTimeout p, .versionNegotiation p major minor peer, .laneLoss p n, .replayLimitExceeded p]) : exec i s = .next s := by
  rcases (List.mem_append (s := [_, _, _, _, _]) (t := [_, _, _, _, _])).1 hi with hi | hi
  · obtain ⟨ok, f, h⟩ := exec_port_command (s := s) hi
    rw [h, State.portCmd_of_full hp hr]
  · have herr : s.portError p = s := by simp [State.portError, hr]
    simp only [List.mem_cons, List.not_mem_nil, or_false] at hi
    rcases hi with rfl | rfl | rfl | rfl | rfl
    · change execLinkUp p n s = _; simp [execLinkUp, hr]
    · change execTrainingTimeout p s = _; simp [execTrainingTimeout, hr]
    · change execVersionNegotiation p major minor peer s = _; simp [execVersionNegotiation, hr]
    · change execLaneLoss p n s = _; simp [execLaneLoss, hr, herr]
    · change Host.Outcome.next (s.portError p) = _; rw [herr]

end

theorem portsComplete : Claim.PortsComplete := by
  intro s p blk x move ok bad up train
  have hup : x.open_ = true ↔ up := PeerPort.open_iff x
  refine ⟨fun hp i hi => ?_, fun hp hr => ⟨?_, ?_, ?_, ?_, ?_, ?_, ?_, ?_, ?_, ?_, ?_, ?_, ?_, ?_, ?_⟩,
    fun hp hr n major minor peer i hi => exec_port_waits hp hr blk n major minor peer hi⟩
  · obtain ⟨c, f, h⟩ := exec_port_command (s := s) hi
    rw [h, State.portCmd_of_noPort hp]
  -- the commands of R428
  · rw [exec_portEnable, State.portCmd_of_room hp hr]; simp only [beq_iff_eq]; rfl
  · rw [exec_portDisable, State.portCmd_of_room hp hr]; rfl
  · rw [exec_portQuiesce, State.portCmd_of_room hp hr]; simp only [Bool.or_eq_true, beq_iff_eq]; rfl
  · rw [exec_portResume, State.portCmd_of_room hp hr]; simp only [beq_iff_eq]; rfl
  · rw [exec_portRetrain, State.portCmd_of_room hp hr]; simp only [beq_iff_eq]; rfl
  -- training and negotiation
  · intro n ht hn; rw [exec_linkUp hr, if_pos ⟨ht, hn⟩]
  · intro n h; rw [exec_linkUp hr, if_neg (by tauto)]
  · intro ht hl; rw [exec_trainingTimeout hr, if_pos ⟨ht, hl⟩]
  · intro h; rw [exec_trainingTimeout hr, if_neg (by rintro ⟨ht, hl⟩; exact h.elim (· ht) (Nat.not_lt.2 hl))]
  · intro minor peer hn; rw [exec_versionNegotiation hr hn, if_pos rfl]
  · intro major minor peer hn h1; rw [exec_versionNegotiation hr hn, if_neg h1]
  -- the loss of lanes, and failures
  · intro n hu hn hw; rw [exec_laneLoss hr (by omega), if_pos ⟨hup.2 hu, by omega, hw⟩]
  · intro n hn h
    rw [exec_laneLoss hr hn, if_neg]
    rintro ⟨ho, h2, hw⟩
    rcases h with h | h | h
    · exact h (hup.1 ho)
    · omega
    · exact absurd hw (Nat.not_lt.2 h)
  · intro i hi
    rw [exec_port_failure hi, State.portError_of_room hr]
    exact ⟨fun hu => by rw [if_pos (hup.2 hu)], fun hu => by rw [if_neg (mt hup.1 hu)]⟩
  -- what a transition leaves alone
  · intro f hp
    refine ⟨by rw [s.portTo_port p p f hp, if_pos rfl], s.portTo_mem p f, fun q hq => ?_⟩
    rw [s.portTo_port p q f hp, if_neg hq]

theorem routesAreOpenPorts : Claim.RoutesAreOpenPorts := by
  intro s die peer
  refine ⟨List.pairwise_lt_range.filter _, fun p => ?_⟩
  simp only [State.route, List.mem_filter, List.mem_range, Bool.and_eq_true, decide_eq_true_eq, beq_iff_eq, PeerPort.open_iff,
    and_assoc]

end Sys2Proof.Machine
end

section
/-! The host's accesses and the snoops of pool devices (R243, R249, R250, R401, R402, R430, R432, R437). -/

namespace Sys2Proof.Machine

/-! ### A port that holds one access -/

/-- A host port has taken an access that it has not yet performed. -/
def State.hostTaken (s : State) (port : Nat) (r : HostReq) : State :=
  { s with hosts := modAt s.hosts port fun h => { h with held := [r] } }

/-- A host port has performed the one access that it held. -/
def State.hostServed (s : State) (port : Nat) : State :=
  { s with hosts := modAt s.hosts port fun h => { h with held := [] } }

section
variable {s t : State} {port : Nat} {h : HostPort} {r : HostReq}

/-- The BAR2 window is as large while a port holds an access as before. -/
theorem State.hostTaken_inBar2 (hs : s.hosts[port]? = some h) (va n : Nat) :
    (s.hostTaken port r).inBar2 port va n = decide (va + n ≤ 2 ^ h.bar2) := by
  simp [State.inBar2, State.hostTaken, modAt_get?, hs]

theorem State.hostTaken_bar0Byte (off : Nat) : (s.hostTaken port r).bar0Byte off = s.bar0Byte off := rfl

/-- An access that may reach a port in PCIe mode (R401, R432) performs at once where the port holds none. -/
theorem State.hostReceive_performs (hs : s.hosts[port]? = some h) (hm : h.mode = .pcie)
    (hr : s.boot.recovery = false ∨ (r.onBar0 = true ∧ port = 0)) (hh : h.held = [])
    (hp : (s.hostTaken port r).hostPerform port r = (t, true)) : s.hostReceive port r = t.hostServed port := by
  have hopen : ¬ (s.hostMode port ≠ some .pcie ∨ (s.boot.recovery ∧ ¬ (r.onBar0 ∧ port = 0))) := by
    rw [State.hostMode, hs, Option.map_some, hm]
    rcases hr with hr | hr <;> simp [hr]
  unfold State.hostTaken at hp
  simp only [State.hostReceive, if_neg hopen, hs, Option.map_some, hh, Option.getD_some, List.nil_append, State.serveHost, hp]
  rfl

/-- An access that may not reach a port changes nothing (R401, R432). -/
theorem State.hostReceive_refused (hs : s.hosts[port]? = some h)
    (hr : h.mode ≠ .pcie ∨ (s.boot.recovery = true ∧ (r.onBar0 = false ∨ port ≠ 0))) : s.hostReceive port r = s := by
  unfold State.hostReceive
  rw [if_pos]
  rw [State.hostMode, hs, Option.map_some]
  rcases hr with hm | ⟨hb, hb0 | hp⟩
  · simp [hm]
  · simp [hb, hb0]
  · simp [hb, hp]

/-! ### What each access performs -/

theorem State.hostPerform_read {va : Word64} {n : Nat} {bs : List Byte} (hw : s.inBar2 port va.toNat n = true)
    (hl : s.viaLoad (hostVia port) va.toNat n = (t, .ok bs)) :
    s.hostPerform port (.access (.read va n)) = (t.hostAnswer port bs, true) := by
  simp [State.hostPerform, hw, hl]

theorem State.hostPerform_read_outside {va : Word64} {n : Nat} (hw : s.inBar2 port va.toNat n = false) :
    s.hostPerform port (.access (.read va n)) = (s.hostAnswer port [], true) := by
  simp [State.hostPerform, hw]

theorem State.hostPerform_write {va : Word64} {bs : List Byte} {l : List (Nat × Nat × Word64)}
    (hw : s.inBar2 port va.toNat bs.length = true)
    (hl : s.viaLocate (hostVia port) 1 (piecesOf va.toNat bs.length) = (t, .ok l)) :
    s.hostPerform port (.access (.write va bs)) = ((t.storePieces (.host port) (some 0) none false l bs).2, true) := by
  simp [State.hostPerform, hw, hl]

theorem State.hostPerform_write_outside {va : Word64} {bs : List Byte} (hw : s.inBar2 port va.toNat bs.length = false) :
    s.hostPerform port (.access (.write va bs)) = (s, true) := by
  simp [State.hostPerform, hw]

/-- An AtomicOp performs once the port's earlier writes have been accepted (R243, R250). -/
theorem State.hostPerform_atomic {a : HostAtomic} {old : Nat} (ha : (hostAtomicParts a).1 % (hostAtomicParts a).2.1 = 0)
    (hw : s.inBar2 port (hostAtomicParts a).1 (hostAtomicParts a).2.1 = true)
    (hacc : ∀ w ∈ s.writes, w.agent = .host port → w.ctime.isSome = true)
    (hx : s.viaAtomic (hostVia port) (hostAtomicParts a).1 (hostAtomicParts a).2.1 (hostAtomicParts a).2.2 = (t, .ok old)) :
    s.hostPerform port (.atomic a) = (t.hostAnswer port (bytesOfNat (hostAtomicParts a).2.1 old), true) := by
  have hnone : ¬ (s.writes.any fun w => w.agent == .host port && w.ctime.isNone) = true := by
    rw [List.any_eq_true]
    rintro ⟨w, hm, hb⟩
    rw [Bool.and_eq_true, beq_iff_eq, Option.isNone_iff_eq_none] at hb
    simpa [hb.2] using hacc w hm hb.1
  unfold State.hostPerform
  simp only [ha, hw, hx, ne_eq, not_true_eq_false, or_self, if_false, if_neg hnone]

theorem State.hostPerform_atomic_refused {a : HostAtomic} (ha : (hostAtomicParts a).1 % (hostAtomicParts a).2.1 ≠ 0 ∨
    s.inBar2 port (hostAtomicParts a).1 (hostAtomicParts a).2.1 = false) :
    s.hostPerform port (.atomic a) = (s.hostAnswer port [], true) := by
  unfold State.hostPerform
  dsimp only
  rw [if_pos (ha.imp_right fun h => by simp [h])]

theorem State.hostPerform_bar0Write {off : Nat} {bs : List Byte} (hw : off + bs.length ≤ 2 ^ 26) :
    s.hostPerform port (.access (.bar0Write off bs)) = (s.bar0Write port off bs, true) := by
  have hin : ¬ bar0Bytes < off + bs.length := Nat.not_lt.2 hw
  simp only [State.hostPerform, if_neg hin]

theorem State.hostPerform_bar0Write_outside {off : Nat} {bs : List Byte} (hw : 2 ^ 26 < off + bs.length) :
    s.hostPerform port (.access (.bar0Write off bs)) = (s, true) := by
  have hout : bar0Bytes < off + bs.length := hw
  simp only [State.hostPerform, if_pos hout]

/-! ### What the events do -/

/-- HOST_BAR2_ACCESS takes its access and performs it. -/
theorem exec_hostBar2Access_performs {a : HostAccess} (hs : s.hosts[port]? = some h) (hm : h.mode = .pcie)
    (hr : s.boot.recovery = false ∨ ((HostReq.access a).onBar0 = true ∧ port = 0)) (hh : h.held = [])
    (hp : (s.hostTaken port (.access a)).hostPerform port (.access a) = (t, true)) :
    exec (.hostBar2Access port a) s = .next (t.hostServed port) :=
  congrArg Host.Outcome.next (State.hostReceive_performs hs hm hr hh hp)

/-- HOST_ATOMICOP takes its AtomicOp and performs it. -/
theorem exec_hostAtomicop_performs {a : HostAtomic} (hs : s.hosts[port]? = some h) (hm : h.mode = .pcie)
    (hr : s.boot.recovery = false) (hh : h.held = [])
    (hp : (s.hostTaken port (.atomic a)).hostPerform port (.atomic a) = (t, true)) :
    exec (.hostAtomicop port a) s = .next (t.hostServed port) :=
  congrArg Host.Outcome.next (State.hostReceive_performs hs hm (.inl hr) hh hp)

/-- A snoop drops the copy in L2 and shows the device's bytes, where the pool and a port in CXL mode are there (R249, R402). -/
theorem exec_backInvalidationSnoop (s : State) (sector : Nat) (bytes : List Byte) : exec (.backInvalidationSnoop ⟨sector, bytes⟩) s =
    .next (if poolBase ≤ sector ∧ sector < 2 ^ 52 ∧ (∃ x ∈ s.hosts, x.mode = .cxl) then { s with
      l2 := s.l2.filter fun x => x.1 != sectorBase sector
      mem := cellsSet s.mem (cellsAt (sectorBase sector) (bytes.take 32))
      writes := modWhere s.writes (fun w => w.pool && w.acked) fun w => { w with bytes := w.bytes.map fun c =>
        (c.1, (((cellsAt (sectorBase sector) (bytes.take 32)).find? fun x => x.1 == c.1).map fun x => x.2).getD c.2) } } else s) := by
  have hc : (s.hosts.any fun h => h.mode == .cxl) = true ↔ ∃ x ∈ s.hosts, x.mode = .cxl := by simp
  have hcond : (sector < poolBase ∨ 2 ^ 52 ≤ sector ∨ ¬ (s.hosts.any fun h => h.mode == .cxl) = true) ↔
      ¬ (poolBase ≤ sector ∧ sector < 2 ^ 52 ∧ ∃ x ∈ s.hosts, x.mode = .cxl) := by
    rw [hc, not_and_or, not_and_or, Nat.not_le, Nat.not_lt]
  change execBackInvalidationSnoop ⟨sector, bytes⟩ s = _
  simp only [execBackInvalidationSnoop, hcond, ite_not]

end

/-- BAR0 reads as the boot buffer below the debug registers, and as those, or as zero (R4), above (R401, R437). -/
theorem State.bar0Byte_cases (s : State) (off : Nat) : (off < 2 ^ 25 → s.bar0Byte off = s.boot.buffer.getD off 0) ∧
    (2 ^ 25 ≤ off → s.bar0Byte off = match bar0Reg (off / 8 * 8) with
      | some r => (bytesOfNat 8 (s.hwReg r).toNat).getD (off % 8) 0
      | Option.none => 0) := by
  unfold State.bar0Byte
  refine ⟨fun h => if_pos h, fun h => ?_⟩
  have hreg : ¬ off < bar0Debug := Nat.not_lt.2 h
  exact if_neg hreg

theorem hostAccessesComplete : Claim.HostAccessesComplete := by
  intro s port h hs via taken served
  have window : ∀ r va n, (s.hostTaken port r).inBar2 port va n = decide (va + n ≤ 2 ^ h.bar2) :=
    fun _ => State.hostTaken_inBar2 hs
  refine ⟨fun hm hr hh => ?_, fun hm hr hh => ?_, s.bar0Byte_cases, fun hr a => ?_, fun a hr => ?_, exec_backInvalidationSnoop s⟩
  -- accesses to BAR2
  · refine ⟨fun va n t bs hin hl => ?_, fun va bs t l hin hl => ?_, fun va n hout => ?_, fun va bs hout => ?_,
      fun a t old ha hin hacc hx => ?_, fun a ha => ?_, fun a ha hout => ?_⟩
    · exact exec_hostBar2Access_performs hs hm (.inl hr) hh (State.hostPerform_read (by simpa [window] using hin) hl)
    · exact exec_hostBar2Access_performs hs hm (.inl hr) hh (State.hostPerform_write (by simpa [window] using hin) hl)
    · exact exec_hostBar2Access_performs hs hm (.inl hr) hh (State.hostPerform_read_outside (by simpa [window] using hout))
    · exact exec_hostBar2Access_performs hs hm (.inl hr) hh (State.hostPerform_write_outside (by simpa [window] using hout))
    · exact exec_hostAtomicop_performs hs hm hr hh (State.hostPerform_atomic ha (by simpa [window] using hin) hacc hx)
    · exact exec_hostAtomicop_performs hs hm hr hh (State.hostPerform_atomic_refused (.inl ha))
    · exact exec_hostAtomicop_performs hs hm hr hh (State.hostPerform_atomic_refused (.inr (by simpa [window] using hout)))
  -- accesses to BAR0
  · have reach : ∀ r : HostReq, r.onBar0 = true → s.boot.recovery = false ∨ (r.onBar0 = true ∧ port = 0) :=
      fun r h0 => hr.imp_right fun hp => ⟨h0, hp⟩
    refine ⟨fun off n => ?_, fun off bs hin => ?_, fun off bs hout => ?_, fun tag q => ?_⟩
    · exact exec_hostBar2Access_performs hs hm (reach _ rfl) hh rfl
    · exact exec_hostBar2Access_performs hs hm (reach _ rfl) hh (State.hostPerform_bar0Write hin)
    · exact exec_hostBar2Access_performs hs hm (reach _ rfl) hh (State.hostPerform_bar0Write_outside hout)
    · exact exec_hostBar2Access_performs hs hm (reach _ rfl) hh rfl
  · exact congrArg Host.Outcome.next (State.hostReceive_refused hs (hr.imp_right fun hb => ⟨hb, .inl rfl⟩))
  · exact congrArg Host.Outcome.next (State.hostReceive_refused hs hr)

/-- Settles O54: ports, routes, and the host's accesses. -/
theorem portsAndHostComplete : Obligations.PortsAndHostComplete :=
  ⟨portsComplete, routesAreOpenPorts, hostAccessesComplete⟩

end Sys2Proof.Machine
end

section
/-! A wave's turn: from the agenda to the meaning of the instruction at its PC (R17, R20, R40, R157). -/

namespace Sys2Proof.Machine

/-! ### Device time and the wave that has the turn -/

theorem State.pass_keeps (s : State) (n : Nat) :
    (s.pass n).frozen = s.frozen ∧ (s.pass n).flaws = s.flaws := by
  have hfold : ∀ (l : List Droop) (t : State), (l.foldl (fun t d => t.loseClocks n d.rick) t).frozen = t.frozen ∧
      (l.foldl (fun t d => t.loseClocks n d.rick) t).flaws = t.flaws := by
    intro l
    induction l with
    | nil => exact fun _ => ⟨rfl, rfl⟩
    | cons d r ih => exact fun t => ih (t.loseClocks n d.rick)
  unfold State.pass
  split
  · exact ⟨rfl, rfl⟩
  · exact hfold _ s

/-- The pass of time and the choice of a wave put no error into the instruction cache. -/
theorem State.granted_blockSound {s : State} {n : Nat} {rest : List Turn} {id : WaveId} {w : Wave} (h : s.blockSound w) :
    (s.granted n rest id).blockSound w := by
  have hflaws : (s.granted n rest id).flaws = s.flaws := (State.pass_keeps { s with agenda := rest } n).2
  intro x hx
  exact h x (hflaws ▸ hx)

/-- The wave of a slot, where there is one, stands at the slot's index. -/
theorem State.getElem?_indexOf {s : State} {id : WaveId} {w : Wave} (h : s.waveAt id = some w) :
    s.waves[s.indexOf id]? = some w := by
  rw [State.indexOf, ← List.find?_eq_getElem?_findIdx]
  exact h

/-- The wave of a slot that the agenda gives its turn executes as the slot holds it, its yield over (R161). -/
theorem State.granted_me {s : State} {n : Nat} {rest : List Turn} {id : WaveId} {w : Wave}
    (h : (State.pass { s with agenda := rest } n).waveAt id = some w) :
    (s.granted n rest id).me = some { w with yield := none } := by
  have hw := State.getElem?_indexOf h
  simp [State.granted, State.me, State.modMe, modAt_get?, hw]

/-! ### The instruction at the PC -/

/-- A block without an error is met as it is. -/
theorem State.meetBlock_of_sound {s : State} {w : Wave} {va : Word64}
    (h : ∀ x ∈ s.flaws, x.place ≠ .icache w.core (fetchBlock va)) : s.meetBlock w va = s := by
  have hnone : (s.flaws.filter fun x => x.place == .icache w.core (fetchBlock va)) = [] := by
    simpa [List.filter_eq_nil_iff] using h
  simp [State.meetBlock, State.takeFlaws, hnone]

/-- A block that the instruction cache holds, without an error, is what is fetched. -/
theorem State.fetch_held {s : State} {w : Wave} {bs : List Byte} (k : State → List Byte → Out)
    (hb : s.heldBlock w = some bs) (hs : s.blockSound w) : s.fetch w k = k s bs := by
  simp only [State.fetch, State.meetBlock_of_sound hs, hb]

theorem State.fetchRun_held {s : State} {w : Wave} {bs : List Byte} (hm : s.me = some w) (hb : s.heldBlock w = some bs)
    (hs : s.blockSound w) (hx : splits bs (w.pc.toNat % 32) = false) :
    s.fetchRun = s.run w (blockBits bs (w.pc.toNat % 32)) := by
  simp [State.fetchRun, hm, State.fetch_held _ hb hs, hx]

theorem State.run_decoded {s : State} {w : Wave} {b : BitVec 128} {i : Instr} (hr : w.rep = 0) (hd : decodeBits b = .ok i) :
    s.run w b = exec i s := by
  simp [State.run, hr, hd]

theorem State.run_repeated {s : State} {w : Wave} {b : BitVec 128} {i : Instr} {op : BitVec 8} {f : Fields} (hr : w.rep ≠ 0)
    (hw : repWord b = true) (hd : decodeBits b = .ok i) (ho : i.opFields = some (op, f)) :
    s.run w b = exec (.repIteration op f) s := by
  rw [State.run, if_neg (fun h => h.2 hw), hd]
  simp only [if_neg hr, ho]

/-! ### The turn -/

/-- What an issue counts depends on the wave only through fields that the end of its yield leaves alone (R443). -/
theorem State.trialIssue_yield (t g : State) (w : Wave) : t.trialIssue g { w with yield := none } = t.trialIssue g w := rfl

/-- A wave that nothing halts or holds fetches and executes, and its issue is counted (R443). -/
theorem State.issue_unhindered {u g : State} {id : WaveId} {w : Wave} (hat : u.waveAt id = some w) (hmay : u.mayTurn w = true)
    (hg : { u with cur := u.indexOf id, serial := u.serial + 1 }.modMe (fun w => { w with yield := none }) = g)
    (hdebug : g.debugHalt w = none) (htrial : g.trialHolds w = false) :
    u.issue id = g.fetchRun.andAlso fun t => (if t.hasIssued id then t.trialIssue g w else t).issued id := by
  rw [State.issue, hat]
  simp only [hmay, Bool.not_true, Bool.false_eq_true, if_false, hg, hdebug, htrial]
  cases g.fetchRun with
  | next t => cases hi : t.hasIssued id <;> simp [hi, Out.andAlso]
  | fault r => rfl
  | refused r => rfl

theorem Out.andAlso_andAlso (o : Out) (f g : State → State) : (o.andAlso f).andAlso g = o.andAlso fun t => g (f t) := by
  cases o <;> rfl

/-- A wave whose turn the agenda gives, and which nothing halts or holds, fetches and executes; then the turn closes. -/
theorem step_of_takesTurn {s : State} {n : Nat} {rest : List Turn} {id : WaveId} {w x : Wave} (h : s.takesTurn n rest id w)
    (hx : (s.granted n rest id).me = some x) :
    step s = Out.andAlso (s.granted n rest id).fetchRun fun t => t.closed (s.granted n rest id) id x := by
  obtain ⟨hagenda, hfrozen, hat, hmay, hdebug, htrial⟩ := h
  obtain rfl : { w with yield := none } = x := Option.some.inj ((State.granted_me hat).symm.trans hx)
  have hturn : s.advance = (State.pass { s with agenda := rest } n).issue id := by
    rw [State.advance, hagenda]
    simp [State.turn, State.acts, hfrozen, (State.pass_keeps _ n).1]
  rw [step, hturn, State.issue_unhindered hat hmay rfl hdebug htrial, Out.andAlso_andAlso]
  rfl

/-- Settles O7: the turn fetches the held block, and the bits in it run as the instruction that they decode to. -/
theorem stepRunsTheDecodedInstruction : Obligations.StepRunsTheDecodedInstruction := by
  intro s n rest id w x bs i g hturn hme hblock hsound hsplit hdecode
  have hstep := step_of_takesTurn hturn hme
  rw [State.fetchRun_held hme hblock (State.granted_blockSound hsound) hsplit] at hstep
  exact ⟨fun hr => by rw [hstep, State.run_decoded hr hdecode],
    fun op f hr hw ho => by rw [hstep, State.run_repeated hr hw hdecode ho]⟩

end Sys2Proof.Machine
end

section
/-! Two statements that fail where a wave watches a name that no write has yet. A read of `%trappc` meets the errors of its
frame (R15), so it translates the frame's address and may set A in the leaf; that write takes the next name, and its
completion time returns to whoever watches this name (R237). Names are fresh in every state that the device reaches (log 1),
but the statements speak of every state. -/

namespace Sys2Proof.Machine

/-- A wave in supervisor state that watches write 0. -/
def nextWatcher : Wave := { (default : Wave) with sup := true, watch := [0] }

/-- A device in which no write has a name yet, with that wave and with tables that map the first GiB to itself by a leaf
whose A is zero. -/
def watchedNext : State :=
  { State.reset with
    mem := [(0, 0x01), (1, 0x10), (0x1000, 0x01), (0x1001, 0x20), (0x2000, 0x0B), (0x2007, 0x90)]
    waves := [nextWatcher] }

/-- S.ADD of `%trappc` and 0. -/
def addTrappc : Fields := { fmt := .v64, g := 0, d := .none, a := .spec .trappc, b := .int 0, c := .v 0, pol := 0, m := 8 }
/-- SYS.RD of `%trappc` by its number. -/
def readTrappc : Fields := { fmt := .w96 0x32, g := 0, d := .none, a := .v 0, b := .v 0, c := .v 0, pol := 0, m := 0 }

/-- What the waves of a next state watch. -/
def Out.watches (o : Out) : List (List Nat) := match o with | .next t => t.waves.map Wave.watch | _ => []

/-- Refutes O11: S.ADD of `%trappc` sets A in the frame's leaf, and the end of that write reaches the wave, which the statement
takes as it was before. -/
theorem not_scalarIntegerCompletes : ¬ Obligations.ScalarIntegerCompletes := by
  intro h
  let u := (watchedNext.readErrors nextWatcher (readsOf (.sAdd addTrappc) addTrappc .dest)).2
  have hchecked : watchedNext.checked nextWatcher (.sAdd addTrappc) addTrappc .dest false = true := by decide +kernel
  have hread : watchedNext.readErrors nextWatcher (readsOf (.sAdd addTrappc) addTrappc .dest) = (false, u) :=
    Prod.ext (by decide +kernel) rfl
  have hend := (h.1 (.sAdd, .add) (by simp [scalarArith]) watchedNext u nextWatcher addTrappc hchecked).2 hread
  exact absurd (congrArg Out.watches hend) (by decide +kernel)

/-- Refutes O26: SYS.RD of `%trappc` by its number sets A in the frame's leaf, and the end of that write reaches the wave, which
the statement takes as it was before. -/
theorem not_systemInstructionsEnd : ¬ Obligations.SystemInstructionsEnd := by
  intro h
  let u := (watchedNext.meetFrame nextWatcher).2
  have hruns : watchedNext.runs nextWatcher (.sysRd readTrappc) readTrappc .dest false = true := by decide +kernel
  have hmet : (if SysReg.spec .trappc = .spec .trappc then watchedNext.meetFrame nextWatcher else (false, watchedNext)) = (false, u) :=
    Prod.ext (by decide +kernel) rfl
  have hend := ((h.2.1 watchedNext nextWatcher readTrappc).1 (.spec .trappc) u hruns (by decide +kernel) (by simp) (by simp)).2 hmet
  exact absurd (congrArg Out.watches hend) (by decide +kernel)

end Sys2Proof.Machine
end

section
/-! REP and its iterations, loops and YIELD (R17, R157, R158, R161). -/

namespace Sys2Proof.Machine

/-- An iteration under REP means what the instruction means alone (R157): no opcode that REP may repeat is left out. -/
theorem repeated_eq_exec {op : Nat} {f : Fields} {j : Instr} (s : State) (he : repEligible op = true)
    (hj : Instr.ofOp op f = some j) : repeated j s = exec j s := by
  simp only [repEligible, Bool.or_eq_true, Bool.and_eq_true, decide_eq_true_eq] at he
  by_cases hshfl : op = 0x60
  · have hofOp : Instr.ofOp 0x60 f = match f.mbits 5 4 with
        | 0 => some (.shflIdx f) | 1 => some (.shflXor f) | 2 => some (.shflUp f) | 3 => some (.shflDown f) | _ => none := rfl
    rw [hshfl, hofOp] at hj
    split at hj <;> cases hj <;> rfl
  · have hrange : (0x20 ≤ op ∧ op ≤ 0x5F) ∨ (0x61 ≤ op ∧ op ≤ 0x9F) ∨ (0xA2 ≤ op ∧ op ≤ 0xA4) := by omega
    clear he hshfl
    rcases hrange with ⟨hlo, hhi⟩ | ⟨hlo, hhi⟩ | ⟨hlo, hhi⟩ <;> interval_cases op <;> cases hj <;> rfl

/-! ### Errors of a cached block -/

/-- Errors that are met change the errors and their counts alone (R15). -/
theorem State.takeFlaws_eq (s : State) (die : Nat) (here : FlawPlace → Bool) :
    ∃ flaws corrected, (s.takeFlaws die here).2 = { s with flaws := flaws, corrected := corrected } := by
  have hcount : ∀ (l : List Flaw) (t : State), ∃ corrected,
      l.foldl (fun t f => if f.correctable then t.countError die else t) t = { t with corrected := corrected } := by
    intro l
    induction l with
    | nil => exact fun t => ⟨_, rfl⟩
    | cons f r ih =>
      intro t
      obtain ⟨c, hc⟩ := ih (if f.correctable then t.countError die else t)
      rw [List.foldl_cons, hc]
      split
      · exact ⟨c, rfl⟩
      · exact ⟨c, rfl⟩
  unfold State.takeFlaws
  dsimp only
  split
  · exact ⟨_, _, rfl⟩
  · obtain ⟨c, hc⟩ := hcount (s.flaws.filter fun f => here f.place) { s with flaws := s.flaws.filter fun f => !here f.place }
    exact ⟨_, c, hc⟩

theorem State.takeFlaws_me (s : State) (die : Nat) (here : FlawPlace → Bool) : (s.takeFlaws die here).2.me = s.me := by
  obtain ⟨fl, c, h⟩ := s.takeFlaws_eq die here
  rw [h]; rfl

theorem State.meetBlock_me (s : State) (w : Wave) (va : Word64) : (s.meetBlock w va).me = s.me := by
  have hme := s.takeFlaws_me w.die fun p => p == .icache w.core (fetchBlock va)
  unfold State.meetBlock
  split
  · next t ht => rw [ht] at hme; exact hme
  · next t ht => rw [ht] at hme; exact hme

/-! ### REP, LOOP.PIN, LOOP.END, YIELD -/

/-- The distance of a relative target is 4 times IMM32 as a signed number. -/
theorem relTarget_eq (pc : Word64) (f : Fields) : relTarget pc f = pc + BitVec.ofInt 64 (4 * f.imm.toInt) := by
  rw [relTarget, BitVec.signExtend, BitVec.shiftLeft_eq_mul_twoPow, BitVec.ofInt_mul, BitVec.mul_comm]
  rfl

section
variable {s : State} {w : Wave} {f : Fields}

theorem exec_rep_count (h : s.runs w (.rep f) f .dest false = true) (hn : (s.readS w (.int 32) f.a).toNat % 2 ^ 16 ≠ 0) :
    exec (.rep f) s = .next (s.setMe (
      let x := { w with wait := Wait.none }.goto (seqNext w.pc 8) false
      let n := BitVec.ofNat 16 ((s.readS w (.int 32) f.a).toNat % 2 ^ 16)
      if w.sup then { x with rep := n, repStrSup := f.m.setWidth 7 } else { x with rep := n, repStr := f.m.setWidth 7 })) := by
  have hcount : (s.readS w (.int 32) f.a).setWidth 16 = BitVec.ofNat 16 ((s.readS w (.int 32) f.a).toNat % 2 ^ 16) := by
    apply BitVec.eq_of_toNat_eq; simp
  have hne : BitVec.ofNat 16 ((s.readS w (.int 32) f.a).toNat % 2 ^ 16) ≠ 0 := by
    intro h0
    have := congrArg BitVec.toNat h0
    simp at this hn
    omega
  change execRep f s = _
  rw [execRep, State.front_runs _ h]
  simp only [hcount, if_neg hne, s.modMe_eq w _ (State.runs_me h), Wave.goto_sup]

/-- A count of 0 skips the successor by its length, or by 8 bytes where it has none to read (log 63). -/
theorem exec_rep_skip (h : s.runs w (.rep f) f .dest false = true) (hn : (s.readS w (.int 32) f.a).toNat % 2 ^ 16 = 0) :
    let u := s.meetBlock w (seqNext w.pc 8)
    exec (.rep f) s = .next (u.setMe ({ w with wait := Wait.none }.goto
      (seqNext (seqNext w.pc 8) (((u.codeByte w (seqNext w.pc 8)).map lengthOf).getD 8)) false)) := by
  have hzero : (s.readS w (.int 32) f.a).setWidth 16 = (0 : BitVec 16) := by
    apply BitVec.eq_of_toNat_eq; simpa using hn
  have hme := (s.meetBlock_me w (seqNext w.pc 8)).trans (State.runs_me h)
  intro u
  change execRep f s = _
  rw [execRep, State.front_runs _ h]
  simp only [hzero, if_true, State.modMe_eq _ w _ hme]
  cases hb : (s.meetBlock w (seqNext w.pc 8)).codeByte w (seqNext w.pc 8) with
  | none => simp [u]
  | some b => simp [u]

/-- The body of LOOP.PIN lies after its successor within 32 fetch blocks (R158). -/
def pinLegal (pc : Word64) (f : Fields) : Prop :=
  seqNext pc 12 ≤ relTarget pc f ∧ (relTarget pc f).toNat / 32 - (seqNext pc 12).toNat / 32 + 1 ≤ 32

theorem pinLegal_iff {pc : Word64} : pinLegal pc f ↔
    ¬ (relTarget pc f < seqNext pc 12 ∨ 32 < (relTarget pc f).toNat / 32 - (seqNext pc 12).toNat / 32 + 1) := by
  rw [pinLegal, not_or, BitVec.not_lt, Nat.not_lt]

theorem exec_loopPin (h : s.runs w (.loopPin f) f .dest false = true) (hl : pinLegal w.pc f) :
    exec (.loopPin f) s = .next (s.setMe (
      let body : Loop := ⟨seqNext w.pc 12, relTarget w.pc f⟩
      (if w.sup then { w with wait := Wait.none, loopSup := some body }
        else { w with wait := Wait.none, loop := some body }).goto (seqNext w.pc 12) false)) := by
  have hme := State.runs_me h
  change execLoopPin f s = _
  simp only [execLoopPin, hme]
  rw [if_neg (pinLegal_iff.1 hl), State.front_runs _ h, s.modMe_eq w _ hme]
  cases w.sup <;> rfl

theorem exec_loopPin_illegal (hm : s.me = some w) (hl : ¬ pinLegal w.pc f) :
    exec (.loopPin f) s = s.trap 0x02 w.exec (insnInfo (.loopPin f)) := by
  change execLoopPin f s = _
  simp only [execLoopPin, hm]
  rw [if_pos (not_not.1 fun hn => hl (pinLegal_iff.2 hn))]

/-- The loop state of the state that the wave is in (R158). -/
def Wave.pinned (w : Wave) : Option Loop := if w.sup then w.loopSup else w.loop

theorem exec_loopEnd_back {l : Loop} (h : s.runs w (.loopEnd f) f .dest false = true) (hl : w.pinned = some l)
    (hp : l.last = w.pc) : exec (.loopEnd f) s = .next (s.setMe ({ w with wait := Wait.none }.goto l.start false)) := by
  change execLoopEnd f s = _
  rw [Wave.pinned] at hl
  rw [execLoopEnd, State.front_runs _ h]
  simp only [hl, hp, if_true, s.modMe_eq w _ (State.runs_me h)]

theorem exec_loopEnd_nop (h : s.runs w (.loopEnd f) f .dest false = true) (hl : ∀ l, w.pinned = some l → l.last ≠ w.pc) :
    exec (.loopEnd f) s = .next (s.setMe (w.after f)) := by
  have hend := s.finish_eq w f id (State.runs_me h)
  change execLoopEnd f s = _
  rw [execLoopEnd, State.front_runs _ h]
  change (match w.pinned with | some l => _ | none => _) = _
  cases hp : w.pinned with
  | none => exact hend
  | some l => simp only [if_neg (hl l hp)]; exact hend

theorem exec_yield (h : s.runs w (.yield f) f .dest false = true) :
    exec (.yield f) s = .next (s.setMe (({ w with
      yield := some (s.clkAfter w.unit 64, (s.waves.filter fun (x : Wave) => x.id.core == w.id.core && x.id.part == w.id.part &&
        x.id != w.id && s.canIssue x).map fun (x : Wave) => x.id) }).after f)) := by
  change execYield f s = _
  rw [execYield, State.front_runs _ h, s.finish_eq w f _ (State.runs_me h)]

end

theorem repeatAndLoopComplete : Claim.RepeatAndLoopComplete := by
  intro s w f
  simp only [← relTarget_eq]
  exact ⟨exec_rep_count, exec_rep_skip, exec_loopPin, exec_loopPin_illegal,
    fun h => ⟨fun l => exec_loopEnd_back h, exec_loopEnd_nop h⟩, exec_yield⟩

/-! ### Iterations -/

/-- An iteration whose encoding passes checks 3 to 5 of R40 runs the instruction with its fields offset. -/
theorem exec_repIteration {s : State} {w : Wave} {op : BitVec 8} {f : Fields} {i j : Instr} {g : Sig} (hm : s.me = some w)
    (he : repEligible op.toNat = true) (hv : f.isV = true) (hi : Instr.ofOp op.toNat f = some i) (hg : i.sig = some g)
    (hs : (strideBad g f w.strides || !g.ok f) = false) (hp : (w.sup || !instrPriv i) = true)
    (hx : sigRegidx g f (s.cordOf w).kernel.regs (s.cordOf w).kernel.sregs w.offsets.1 w.offsets.2.1 w.offsets.2.2.1
      w.offsets.2.2.2 = none) (hj : Instr.ofOp op.toNat (w.iterFields f) = some j) :
    exec (.repIteration op f) s = exec j s := by
  have hpriv : (!w.sup && instrPriv i) = false := by
    cases hw : w.sup <;> simp_all
  change execRepIteration op f s = _
  unfold execRepIteration
  simp only [hm, hi, he, hv, hg, hs, hpriv, hx, hj, Bool.not_true, Bool.or_false, Bool.false_eq_true, if_false]
  exact repeated_eq_exec s he hj

/-- While iterations remain, an instruction's end keeps the PC and counts one (R157). -/
theorem Wave.after_rep {w : Wave} {f : Fields} (h : 2 ≤ w.rep.toNat) :
    (w.after f).pc = w.pc ∧ (w.after f).rep.toNat = w.rep.toNat - 1 := by
  have hnext : w.after f = { w.pop [f.a, f.b, f.c, f.d] with wait := Wait.none, rep := w.rep - 1 } := by
    unfold Wave.after Wave.commit Wave.next
    exact if_neg (Nat.not_le.2 h)
  rw [hnext]
  refine ⟨rfl, ?_⟩
  change (w.rep - 1).toNat = w.rep.toNat - 1
  have := w.rep.isLt
  rw [BitVec.toNat_sub]
  simp
  omega

theorem repIterationCompletes : Claim.RepIterationCompletes := by
  intro s w op f i j g it o hm he hv hi hg hs hp hx hj
  have hiter := exec_repIteration hm he hv hi hg hs hp hx hj
  refine ⟨hiter, fun x hxm hjx hruns => ?_⟩
  subst hjx
  rw [hiter, exec_vectorArith x hxm hruns]
  refine ⟨rfl, fun y hy hrep => ?_⟩
  obtain rfl := Option.some.inj ((State.setMe_me s w _ hm).symm.trans hy)
  obtain ⟨v, ro, l, lSup, hput⟩ := w.aluPut_eq it (Feed.ofTy it.ty).wide (List.zipWith (intAlu2 x.2 it.ty it.sat)
    (s.srcA w (.ofTy it.ty) it) (s.srcB w (.ofTy it.ty) (immSigned it.ty) it))
  rw [hput]
  exact Wave.after_rep hrep

/-- Settles O22: the repeats and loops of a wave, and the iterations of REP. -/
theorem repeatsAndLoopsComplete : Obligations.RepeatsAndLoopsComplete := ⟨repeatAndLoopComplete, repIterationCompletes⟩

end Sys2Proof.Machine
end

section
/-! Taking a trap (R16, R100, R101, R103). -/

namespace Sys2Proof.Machine

/-! ### Entry -/

section
variable {s u t : State} {w : Wave} {cause : Nat} {mask : Mask} {info : Word64}

/-- A trap in supervisor state faults the context (R103). -/
theorem State.trap_sup (hm : s.me = some w) (hs : w.sup = true) : s.trap cause mask info = .next (s.ctxFault (s.tagOf w) 0x51) := by
  simp only [State.trap, State.trapWith, hm, hs, if_true]

/-- So does an error of a register that the frame holds (R16). -/
theorem State.trap_flawed (hm : s.me = some w) (hs : w.sup = false) (hr : s.readErrors w frameReads = (true, u)) :
    s.trap cause mask info = .next (u.ctxFault (s.tagOf w) 0x50) := by
  simp only [State.trap, State.trapWith, hm, hs, hr, Bool.false_eq_true, if_false]

/-- Otherwise the trap is what the store of the frame makes of it. -/
theorem State.trap_frame (hm : s.me = some w) (hs : w.sup = false) (hr : s.readErrors w frameReads = (false, u)) :
    s.trap cause mask info = match u.waveStore w true (u.trapArea w) (w.trapFrame cause mask info) with
      | (t, .ok _) => .next (t.modMe fun x => x.enterTrap (t.ctx (s.tagOf w)).trapvec cause mask info)
      | (t, .fault _ _ _) => .next (t.ctxFault (s.tagOf w) 0x52)
      | (t, .bad) => .next (t.ctxFault (s.tagOf w) 0x50)
      | (t, .wait) => t.stall := by
  simp only [State.trap, State.trapWith, hm, hs, hr, Bool.false_eq_true, if_false]
  rcases u.waveStore w true (u.trapArea w) (w.trapFrame cause mask info) with ⟨t, _ | _ | _ | _⟩ <;> rfl

end

/-- k0 after a trap's entry is the mask within live, and the other masks are as they were (R100, R147). -/
theorem Wave.setK_zero {w : Wave} (m : Mask) (hk : w.k.length = 8) :
    (w.setK 0 m).exec = m &&& w.live ∧ ∀ n, n ≠ 0 → (w.setK 0 m).kAt n = w.kAt n :=
  ⟨by simp [Wave.exec, Wave.setK, List.getD_eq_getElem?_getD, hk], fun n hn => w.setK_kAt 0 m n hn⟩

/-- The wave after a trap's entry: in supervisor state, so that the pinned loop of the user's state stays (R100, R158). -/
theorem Wave.enterTrap_eq (w : Wave) (v cause : Nat) (mask : Mask) (info : Word64) :
    w.enterTrap v cause mask info = { w.setK 0 mask with
      trapcause := BitVec.ofNat 8 cause, trapmask := mask, trapinfo := info, rep := 0, sup := true, wait := Wait.none
      pc := BitVec.ofNat 64 (v / 4 * 4), jumped := true, loopSup := loopAfter w.loopSup (BitVec.ofNat 64 (v / 4 * 4)) } := rfl

theorem trapEntry : Claim.TrapEntry := by
  intro s w cause mask info hm hcause
  refine ⟨State.trap_sup hm, fun u => State.trap_flawed hm, fun u hs hr => ?_, fun v hk => ?_⟩
  · have htrap := State.trap_frame (cause := cause) (mask := mask) (info := info) hm hs hr
    refine ⟨fun t hf => ?_, fun t c p a hf => ?_, fun t hf => ?_, fun t hf => ?_⟩ <;> rw [htrap, hf]
  · obtain ⟨hexec, hkeep⟩ := Wave.setK_zero mask hk
    have hcode : (BitVec.ofNat 8 cause).toNat = cause := Nat.mod_eq_of_lt hcause
    rw [Wave.enterTrap_eq]
    exact ⟨rfl, rfl, rfl, hcode, rfl, rfl, hexec, hkeep, rfl, rfl, rfl, rfl, rfl, rfl, rfl, rfl, rfl, rfl, rfl⟩

/-! ### The frame -/

theorem natOfBytes_bytesOfNat (n x : Nat) : natOfBytes (bytesOfNat n x) = x % 256 ^ n := by
  induction n generalizing x with
  | zero => simp [bytesOfNat, natOfBytes, Nat.mod_one]
  | succ n ih =>
    rw [bytesOfNat, natOfBytes, ih, BitVec.toNat_ofNat, show 256 ^ (n + 1) = 2 ^ 8 * 256 ^ n from Nat.pow_succ', Nat.mod_mul]
    rfl

/-- A number that fits its field is read back from it. -/
theorem numAt_field {n x : Nat} (r : List Byte) (h : x < 256 ^ n) : numAt (bytesOfNat n x ++ r) 0 n = x := by
  rw [numAt, List.drop_zero, List.take_left' (bytesOfNat_length n x), natOfBytes_bytesOfNat, Nat.mod_eq_of_lt h]

/-- A field beyond a first part is a field of what follows. -/
theorem numAt_beyond {p r : List Byte} {k off n : Nat} (hp : p.length = k) (hk : k ≤ off) :
    numAt (p ++ r) off n = numAt r (off - k) n := by
  rw [numAt, numAt, List.drop_append, List.drop_eq_nil_of_le (by omega), List.nil_append, hp]

theorem numAt_beyond_field {k x off n : Nat} (r : List Byte) (hk : k ≤ off) :
    numAt (bytesOfNat k x ++ r) off n = numAt r (off - k) n := numAt_beyond (bytesOfNat_length k x) hk

/-- The fields of a row of registers, one after another. -/
def fieldRow (k n : Nat) (g : Nat → Nat) : List Byte := (tabulate k fun i => bytesOfNat n (g i)).flatten

theorem fieldRow_succ (k n : Nat) (g : Nat → Nat) : fieldRow (k + 1) n g = bytesOfNat n (g 0) ++ fieldRow k n (fun i => g (i + 1)) := by
  simp [fieldRow, tabulate, List.range_succ_eq_map, Function.comp_def]

theorem fieldRow_length (k n : Nat) (g : Nat → Nat) : (fieldRow k n g).length = k * n := by
  induction k generalizing g with
  | zero => simp [fieldRow, tabulate]
  | succ k ih => rw [fieldRow_succ, List.length_append, bytesOfNat_length, ih, Nat.succ_mul, Nat.add_comm]

theorem numAt_fieldRow {k n i : Nat} {g : Nat → Nat} (r : List Byte) (hi : i < k) (hg : g i < 256 ^ n) :
    numAt (fieldRow k n g ++ r) (n * i) n = g i := by
  induction k generalizing i g with
  | zero => omega
  | succ k ih =>
    rw [fieldRow_succ, List.append_assoc]
    cases i with
    | zero => exact numAt_field _ hg
    | succ i =>
      rw [numAt_beyond_field _ (Nat.le_mul_of_pos_right n i.succ_pos), Nat.mul_succ, Nat.add_sub_cancel]
      exact ih (g := fun i => g (i + 1)) (by omega) hg

/-- The frame's fields in their order (R101). -/
theorem Wave.trapFrame_eq (w : Wave) (cause : Nat) (mask : Mask) (info : Word64) : w.trapFrame cause mask info =
    bytesOfNat 8 w.pc.toNat ++ (bytesOfNat 8 info.toNat ++ (bytesOfNat 4 cause ++ (bytesOfNat 4 w.rep.toNat ++
      (bytesOfNat 12 mask.toNat ++ (bytesOfNat 4 w.c.toNat ++ (fieldRow 8 12 (fun i => (w.kAt i).toNat) ++
        (fieldRow 16 4 (fun i => (w.sAt i).toNat) ++ List.replicate 56 0))))))) := by
  simp only [Wave.trapFrame, fieldRow, List.append_assoc]

theorem trapFrameLayout : Claim.TrapFrameLayout := by
  intro w cause mask info hcause b
  have hb : b = _ := w.trapFrame_eq cause mask info
  have fits : ∀ {n m : Nat} (x : BitVec n), 2 ^ n ≤ 256 ^ m → x.toNat < 256 ^ m := fun x h => Nat.lt_of_lt_of_le x.isLt h
  rw [hb]
  refine ⟨by simp [bytesOfNat_length, fieldRow_length], numAt_field _ (fits _ (by decide)), ?_, ?_, ?_, ?_, ?_,
    fun i hi => ?_, fun i hi => ?_⟩
  · rw [numAt_beyond_field _ (by decide)]
    exact numAt_field _ (fits _ (by decide))
  · iterate 2 rw [numAt_beyond_field _ (by decide)]
    exact numAt_field _ (by omega)
  · iterate 3 rw [numAt_beyond_field _ (by decide)]
    exact numAt_field _ (fits _ (by decide))
  · iterate 4 rw [numAt_beyond_field _ (by decide)]
    exact numAt_field _ (fits _ (by decide))
  · iterate 5 rw [numAt_beyond_field _ (by decide)]
    exact numAt_field _ (fits _ (by decide))
  · iterate 6 rw [numAt_beyond_field _ (by omega)]
    rw [show 0x28 + 12 * i - 8 - 8 - 4 - 4 - 12 - 4 = 12 * i by omega]
    exact numAt_fieldRow (g := fun i => (w.kAt i).toNat) _ hi (fits _ (by decide))
  · iterate 6 rw [numAt_beyond_field _ (by omega)]
    rw [numAt_beyond (fieldRow_length 8 12 _) (by omega), show 0x88 + 4 * i - 8 - 8 - 4 - 4 - 12 - 4 - 8 * 12 = 4 * i by omega]
    exact numAt_fieldRow (g := fun i => (w.sAt i).toNat) _ hi (fits _ (by decide))

/-- Settles O24: what a trap's entry does, and where the frame holds what. -/
theorem takingATrap : Obligations.TakingATrap := ⟨trapEntry, trapFrameLayout⟩

end Sys2Proof.Machine
end

section
/-! Fences, promotion and hints (R16, R241, R244, R279 to R283). -/

namespace Sys2Proof.Machine

section
variable {s : State} {w : Wave} {f : Fields}

/-! ### FENCE and ACQ.RS -/

theorem exec_fence (h : s.runs w (.fence f) f .dest false = true) :
    exec (.fence f) s = if f.ord ≠ 1 ∧ ¬ s.releasedAt w f.scope then s.stall else .next (s.setMe (w.after f)) := by
  change execFence f s = _
  rw [execFence, State.front_runs _ h, s.finish_eq w f id (State.runs_me h)]
  rfl

/-- The wave after ACQ.RS with H (R244). -/
def Wave.acquired (w : Wave) (f : Fields) (h : Nat) : Wave :=
  { (w.putS f.d (BitVec.ofNat 64 h)).raise h with hold := max w.hold h }.after f

theorem State.acqEnd_eq {h : Nat} (hm : s.me = some w) : s.acqEnd f h = .next (s.setMe (w.acquired f h)) :=
  s.finish_eq w f _ hm

theorem exec_acqRs (h : s.runs w (.acqRs f) f .dest false = true) (hw : ∀ ids h, w.wait ≠ .acq ids h) :
    exec (.acqRs f) s =
      if 192 ≤ s.natB w f then s.acqEnd f 0
      else
        let c := s.natB w f
        let s := ((s.throughs c).filter fun x => x.ctime.isNone).foldl (fun s x => s.acceptOr x.id) s
        let s := { s with l1 := s.l1.filter fun l => l.core != c || s.dirtyIn c l.pa }
        let open_ := ((s.throughs c).filter fun x => x.ctime.isNone).map fun x => x.id
        let h := (s.throughs c).foldl (fun h x => max h (x.ctime.getD 0)) 0
        if open_.isEmpty then s.acqEnd f h else .next (s.modMe fun w => { w with wait := .acq open_ h }) := by
  change execAcqRs f s = _
  rw [execAcqRs, State.front_runs _ h]
  split
  · next hq => exact absurd hq (hw _ _)
  · next hq => exact absurd hq (hw _ _)
  · rfl

theorem exec_acqRs_absent (h : s.runs w (.acqRs f) f .dest false = true) (hw : ∀ ids h, w.wait ≠ .acq ids h)
    (hc : 192 ≤ s.natB w f) : exec (.acqRs f) s = .next (s.setMe (w.acquired f 0)) := by
  rw [exec_acqRs h hw, if_pos hc, State.acqEnd_eq (State.runs_me h)]

/-- A core whose write-throughs have all been accepted gives up its clean copies at once (R244). -/
theorem exec_acqRs_accepted (h : s.runs w (.acqRs f) f .dest false = true) (hw : ∀ ids h, w.wait ≠ .acq ids h)
    (hc : s.natB w f < 192) (ha : ∀ x ∈ s.throughs (s.natB w f), x.ctime.isSome = true) :
    exec (.acqRs f) s = .next ({ s with l1 := s.l1.filter fun l => l.core != s.natB w f || s.dirtyIn (s.natB w f) l.pa }.setMe
      (w.acquired f (((s.throughs (s.natB w f)).map fun (x : Write) => x.ctime.getD 0).foldl max 0))) := by
  have hnone : ((s.throughs (s.natB w f)).filter fun x => x.ctime.isNone) = [] := by
    rw [List.filter_eq_nil_iff]
    intro x hx
    simp [Option.isSome_iff_ne_none.1 (ha x hx)]
  have hme := State.runs_me h
  have hsame : ∀ l1, State.throughs { s with l1 := l1 } (s.natB w f) = s.throughs (s.natB w f) := fun _ => rfl
  rw [exec_acqRs h hw, if_neg (Nat.not_le.2 hc)]
  simp only [hnone, List.foldl_nil, hsame, List.map_nil, List.isEmpty_nil, if_true]
  rw [List.foldl_map]
  exact State.acqEnd_eq hme

theorem exec_acqRs_answered {n : Nat} (h : s.runs w (.acqRs f) f .dest false = true) (hw : w.wait = .acq [] n) :
    exec (.acqRs f) s = .next (s.setMe (w.acquired f n)) := by
  change execAcqRs f s = _
  rw [execAcqRs, State.front_runs _ h, hw, ← State.acqEnd_eq (State.runs_me h)]

/-! ### DISCARD -/

theorem exec_discard (h : s.runs w (.discard f) f .dest false = true) :
    let n := (s.readS w (.int 32) f.b).toNat
    let a := wrap64 ((s.readS w (.int 64) f.a).toNat + f.off)
    let mine := fun (l : L1Line) => l.core == w.core && l.tag == s.tagOf w && decide (a < l.va + 32) && decide (l.va < a + n)
    exec (.discard f) s = .next (if n = 0 then s.setMe (w.after f) else { s with
      l1 := (s.l1.filter fun l => !mine l || s.dirtyIn w.core l.pa).map fun l => if mine l then { l with level := 1 } else l
      l2 := s.l2.map fun (x : Nat × Nat) => if s.inRange (s.tagOf w) a n x.1 then (x.1, 1) else x }.setMe (w.after f)) := by
  intro n a mine
  have hme := State.runs_me h
  change execDiscard f s = _
  rw [execDiscard, State.front_runs _ h]
  dsimp only
  split
  · exact s.finish_eq w f id hme
  · exact State.finish_eq _ w f id hme

end

/-! ### PREF -/

/-- Nothing but copies, leases and the directory differs: every byte reads as it did, and the waves are as they were. -/
def State.sameButCopies (s t : State) : Prop :=
  t.mem = s.mem ∧ t.writes = s.writes ∧ t.time = s.time ∧ t.dirty = s.dirty ∧ t.waves = s.waves

theorem State.sameButCopies_refl (s : State) : s.sameButCopies s := ⟨rfl, rfl, rfl, rfl, rfl⟩

theorem State.sameButCopies_trans {s t u : State} (h : s.sameButCopies t) (h' : t.sameButCopies u) : s.sameButCopies u := by
  obtain ⟨hm, hw, ht, hd, hv⟩ := h
  obtain ⟨hm', hw', ht', hd', hv'⟩ := h'
  exact ⟨hm'.trans hm, hw'.trans hw, ht'.trans ht, hd'.trans hd, hv'.trans hv⟩

theorem State.sameButCopies_bytes {s t : State} (h : s.sameButCopies t) : s.sameBytes t := by
  obtain ⟨hm, hw, ht, hd, -⟩ := h
  have hhome : ∀ a, t.homeByte a = s.homeByte a := fun a => by simp only [State.homeByte, hm, hw, ht]
  refine fun a => ⟨hhome a, by simp only [State.latestByte, hm, hw], fun id => ?_⟩
  simp only [State.coreByte, hhome, hw, ht, hd]

theorem State.contend_sameButCopies (s : State) (pa : Nat) (core : Option Nat) (write : Bool) :
    s.sameButCopies (s.contend pa core write) := by
  unfold State.contend
  split <;> exact ⟨rfl, rfl, rfl, rfl, rfl⟩

theorem State.fitL1_sameButCopies (s : State) (core : Nat) : s.sameButCopies (s.fitL1 core) := by
  unfold State.fitL1
  split
  · exact s.sameButCopies_refl
  · split <;> exact ⟨rfl, rfl, rfl, rfl, rfl⟩

theorem State.useL2_sameButCopies (s : State) (sec hint : Nat) (cache : CacheMode) : s.sameButCopies (s.useL2 sec hint cache) := by
  have hfit : ∀ t : State, t.sameButCopies (t.fitL2 sec) := fun t => by
    unfold State.fitL2
    dsimp only
    split
    · exact t.sameButCopies_refl
    · split <;> exact ⟨rfl, rfl, rfl, rfl, rfl⟩
  unfold State.useL2
  split
  · exact ⟨rfl, rfl, rfl, rfl, rfl⟩
  · split
    · exact s.sameButCopies_refl
    · exact hfit _

theorem State.modLease_sameButCopies (s : State) (t : LeaseTile) (f : Lease → Lease) : s.sameButCopies (s.modLease t f) := by
  unfold State.modLease
  split <;> exact ⟨rfl, rfl, rfl, rfl, rfl⟩

theorem State.fetchLine_sameButCopies (s : State) (core tag va pa : Nat) (e : Word64) (lvl : Nat) :
    s.sameButCopies (s.fetchLine core tag va pa e lvl) := by
  unfold State.fetchLine
  split
  · exact State.fitL1_sameButCopies { s with l1 := _ } core
  · exact State.sameButCopies_trans (s.modLease_sameButCopies _ _) (State.fitL1_sameButCopies { s.modLease _ _ with l1 := _ } core)

theorem State.prefPiece_sameButCopies (s : State) (w : Wave) (l2only : Bool) (hint va pa : Nat) (e : Word64) :
    s.sameButCopies (s.prefPiece w l2only hint va pa e) := by
  let hit := (s.l1Hit w.core (s.tagOf w) va).isSome
  have hhome : s.sameButCopies (if hit then s else s.contend pa (some w.core) false) := by
    split
    · exact s.sameButCopies_refl
    · exact s.contend_sameButCopies _ _ _
  have hcopy : ∀ t : State, t.sameButCopies (if l2only || cacheMode e != .normal || ptePool e then t
      else if hit then t.useL1 w.core (sectorBase pa) (hintLevel hint)
      else t.fetchLine w.core (t.tagOf w) va pa e (hintLevel hint)) := fun t => by
    split
    · exact t.sameButCopies_refl
    · split
      · exact ⟨rfl, rfl, rfl, rfl, rfl⟩
      · exact t.fetchLine_sameButCopies _ _ _ _ _ _
  exact State.sameButCopies_trans (State.sameButCopies_trans hhome (hcopy _)) (State.useL2_sameButCopies _ _ _ _)

/-- The pieces of a prefetch, one after another. -/
def State.prefetched (s : State) (w : Wave) (f : Fields) (l : List (Nat × Nat × Word64)) : State :=
  l.foldl (fun s x => s.prefPiece w (f.mbits 6 6 == 1) f.hint x.1 x.2.1 x.2.2) s

theorem State.prefetched_sameButCopies (s : State) (w : Wave) (f : Fields) (l : List (Nat × Nat × Word64)) :
    s.sameButCopies (s.prefetched w f l) := by
  induction l generalizing s with
  | nil => exact s.sameButCopies_refl
  | cons x r ih => exact State.sameButCopies_trans (s.prefPiece_sameButCopies w _ f.hint _ _ _) (ih _)

section
variable {s t : State} {w : Wave} {f : Fields} {r : Acc (List (Nat × Nat × Word64))}

/-- What a prefetch makes of its lanes (R282). -/
theorem exec_pref (h : s.runs w (.pref f) f .dest false = true)
    (hp : State.prefLanes w (2 ^ f.msize) ((lanesOf w.exec).map fun i => (s.indexedAddrs w f).getD i 0) s = (t, r)) :
    exec (.pref f) s = match r with
      | .wait => t.stall
      | .bad => .next (t.ctxFault (t.tagOf w) 0x50)
      | .fault _ _ _ => .next (t.ended f)
      | .ok l => .next ((t.prefetched w f l).ended f) := by
  have hsize : sizeBytes f.msize = 2 ^ f.msize := rfl
  change execPref f s = _
  rw [execPref, State.front_runs _ h]
  simp only [hsize, hp]
  cases r <;> rfl

theorem exec_pref_idle (h : s.runs w (.pref f) f .dest false = true) (he : w.exec = 0) :
    exec (.pref f) s = .next (s.setMe (w.after f)) := by
  have hlanes : lanesOf w.exec = [] := by rw [he]; decide
  rw [exec_pref h (t := s) (r := .ok []) (by rw [hlanes]; rfl)]
  exact congrArg Host.Outcome.next (s.modMe_eq w _ (State.runs_me h))

/-- A prefetch that neither waits nor meets a poisoned sector changes no register and no byte. -/
theorem exec_pref_bytes (h : s.runs w (.pref f) f .dest false = true)
    (hp : State.prefLanes w (2 ^ f.msize) ((lanesOf w.exec).map fun i => (s.indexedAddrs w f).getD i 0) s = (t, r))
    (hw : r ≠ .wait) (hb : r ≠ .bad) : Out.ends (exec (.pref f) s) fun u => ∃ v : State, u = v.ended f ∧ t.sameBytes v ∧
      v.dirty = t.dirty ∧ v.waves = t.waves := by
  have hends : ∀ v, t.sameButCopies v → exec (.pref f) s = .next (v.ended f) → Out.ends (exec (.pref f) s) fun u =>
      ∃ v : State, u = v.ended f ∧ t.sameBytes v ∧ v.dirty = t.dirty ∧ v.waves = t.waves := fun v hv hx => by
    have hbytes := State.sameButCopies_bytes hv
    obtain ⟨-, -, -, hd, hwaves⟩ := hv
    rw [hx]
    exact ⟨v, rfl, hbytes, hd, hwaves⟩
  have hexec := exec_pref h hp
  cases r with
  | wait => exact absurd rfl hw
  | bad => exact absurd rfl hb
  | fault c p a => exact hends t t.sameButCopies_refl hexec
  | ok l => exact hends _ (t.prefetched_sameButCopies w f l) hexec

end

/-- Settles O35: one lemma for each outcome of FENCE, ACQ.RS, PREF and DISCARD. -/
theorem orderingInstructionsComplete : Obligations.OrderingInstructionsComplete := by
  intro s w f
  refine ⟨fun h hr => ?_, fun h ho hr => ?_, exec_acqRs_absent, exec_acqRs_accepted, fun n => exec_acqRs_answered, exec_pref_idle,
    fun t r h hp => ⟨fun hr => ?_, fun hr => ?_, exec_pref_bytes h hp⟩, exec_discard⟩
  · rw [exec_fence h, if_neg (fun hn => hr.elim hn.1 hn.2)]
  · rw [exec_fence h, if_pos ⟨ho, by simp [hr]⟩]
  · subst hr; exact exec_pref h hp
  · subst hr; exact exec_pref h hp

end Sys2Proof.Machine
end

section
/-! Index registers, register allocation, waits and group queries (R15, R16, R144, R153 to R156, R165 to R167, R220). -/

namespace Sys2Proof.Machine

section
variable {s t : State} {w : Wave} {f : Fields}

/-! ### Index registers -/

theorem exec_xset (h : s.runs w (.xset f) f .dest false = true) :
    exec (.xset f) s = .next (s.setMe ((w.putX (xNum f.d) w.exec
      ((s.srcA w (.int 32) f).map fun x => BitVec.ofNat 16 (x.toNat + s.natB w f))).after f)) := by
  change execXset f s = _
  rw [execXset, State.front_runs _ h, s.finish_eq w f _ (State.runs_me h)]

/-- The sums that XADD gives, 16 bits each (R165). -/
def State.indexSums (s : State) (w : Wave) (f : Fields) : List (BitVec 16) :=
  tabulate laneCount fun l => BitVec.ofNat 16 ((w.xAt (xNum f.a) l).toNat + s.natB w f)

theorem exec_xadd_index {n : BitVec 2} (h : s.runs w (.xadd f) f .dest false = true) (hd : f.d = .x n) :
    exec (.xadd f) s = .next (s.setMe ((w.putX n.toNat w.exec (s.indexSums w f)).after f)) := by
  change execXadd f s = _
  rw [execXadd, State.front_runs _ h]
  simp only [hd]
  rw [s.finish_eq w f _ (State.runs_me h)]
  rfl

theorem exec_xadd_vector (h : s.runs w (.xadd f) f .dest false = true) (hd : ∀ n, f.d ≠ .x n) :
    exec (.xadd f) s = .next (s.setMe ((w.aluPut f false ((s.indexSums w f).map fun x => x.setWidth 64)).after f)) := by
  change execXadd f s = _
  rw [execXadd, State.front_runs _ h]
  dsimp only
  split
  · next n hn => exact absurd hn (hd n)
  · exact s.finish_eq w f _ (State.runs_me h)

/-- An index beyond the bound traps (R153). -/
theorem indexTrap_some {bound which : Nat} {l : List (Nat × Nat)} (h : ∃ x ∈ l, bound ≤ x.2) :
    ∃ m info, indexTrap bound which l = some (m, info) := by
  obtain ⟨x, hx, hb⟩ := h
  have hmem : x ∈ l.filter fun x => decide (bound ≤ x.2) := List.mem_filter.2 ⟨hx, by simpa using hb⟩
  unfold indexTrap
  dsimp only
  split
  · next hnil => rw [hnil] at hmem; cases hmem
  · exact ⟨_, _, rfl⟩

theorem indexTrap_none {bound which : Nat} {l : List (Nat × Nat)} (h : ∀ x ∈ l, x.2 < bound) : indexTrap bound which l = none := by
  have hnil : (l.filter fun x => decide (bound ≤ x.2)) = [] := by
    rw [List.filter_eq_nil_iff]
    intro x hx
    simpa using h x hx
  simp only [indexTrap, hnil]

theorem State.laneErrors_me (s : State) (w : Wave) (ix : List (Nat × Nat)) : (s.laneErrors w ix).2.me = s.me := s.takeFlaws_me _ _

/-- MOVX.RD whose indexes lie below the bound (R166). -/
theorem exec_movxRd (h : s.runs w (.movxRd f) f .dest false = true) (hb : ∀ x ∈ s.indices w f f.a, x.2 < w.bound) :
    exec (.movxRd f) s =
      if (s.indices w f f.a).any fun x => !w.full x.2 then
        (if f.pol.getLsbD 0 then s.trap 0x11 w.exec (emptyInfo 1 (encodeOpnd f.a)) else s.stall)
      else match s.laneErrors w (s.indices w f f.a) with
        | (true, t) => .next (t.ctxFault (t.tagOf w) 0x50)
        | (false, t) => t.aluEnd f false ((s.indices w f f.a).foldl
            (fun (l : List Word64) x => l.set x.1 ((lane (w.vAt x.2) x.1).setWidth 64)) (List.replicate laneCount 0)) := by
  change execMovxRd f s = _
  rw [execMovxRd, State.front_runs _ h]
  simp only [indexTrap_none hb] <;> rfl

theorem any_empty_false {w : Wave} {l : List (Nat × Nat)} (h : ∀ x ∈ l, w.full x.2 = true) : (l.any fun x => !w.full x.2) = false := by
  rw [List.any_eq_false]
  intro x hx
  simp [h x hx]

theorem exec_movxRd_full (h : s.runs w (.movxRd f) f .dest false = true)
    (hx : ∀ x ∈ s.indices w f f.a, x.2 < w.bound ∧ w.full x.2 = true) :
    (s.laneErrors w (s.indices w f f.a) = (true, t) → exec (.movxRd f) s = .next (t.ctxFault (t.tagOf w) 0x50)) ∧
    (s.laneErrors w (s.indices w f f.a) = (false, t) → exec (.movxRd f) s = .next (t.setMe ((w.aluPut f false
      ((s.indices w f f.a).foldl (fun (l : List Word64) x => l.set x.1 ((lane (w.vAt x.2) x.1).setWidth 64))
        (List.replicate 96 0))).after f))) := by
  rw [exec_movxRd h fun x hm => (hx x hm).1, any_empty_false fun x hm => (hx x hm).2, if_neg Bool.false_ne_true]
  refine ⟨fun he => by rw [he], fun he => ?_⟩
  have hme : t.me = some w := by
    have := s.laneErrors_me w (s.indices w f f.a)
    rw [he] at this
    exact this.trans (State.runs_me h)
  rw [he]
  exact t.finish_eq w f _ hme

theorem exec_movxRd_empty (h : s.runs w (.movxRd f) f .dest false = true) (hb : ∀ x ∈ s.indices w f f.a, x.2 < w.bound)
    (he : ∃ x ∈ s.indices w f f.a, w.full x.2 = false) :
    exec (.movxRd f) s = if f.pol.getLsbD 0 then s.trap 0x11 w.exec (emptyInfo 1 (encodeOpnd f.a)) else s.stall := by
  obtain ⟨x, hx, hf⟩ := he
  rw [exec_movxRd h hb, if_pos (List.any_eq_true.2 ⟨x, hx, by simp [hf]⟩)]

theorem exec_movxRd_beyond (h : s.runs w (.movxRd f) f .dest false = true) (hb : ∃ x ∈ s.indices w f f.a, w.bound ≤ x.2) :
    ∃ m info, exec (.movxRd f) s = s.trap 0x10 m info := by
  obtain ⟨m, info, ht⟩ := indexTrap_some (which := 1) hb
  refine ⟨m, info, ?_⟩
  change execMovxRd f s = _
  rw [execMovxRd, State.front_runs _ h]
  simp only [ht]

theorem exec_movxWr_beyond (h : s.runs w (.movxWr f) f .dest false = true) (hb : ∃ x ∈ s.indices w f f.d, w.bound ≤ x.2) :
    ∃ m info, exec (.movxWr f) s = s.trap 0x10 m info := by
  obtain ⟨m, info, ht⟩ := indexTrap_some (which := 0) hb
  refine ⟨m, info, ?_⟩
  change execMovxWr f s = _
  rw [execMovxWr, State.front_runs _ h]
  simp only [ht]

theorem laneOf_widen (l : Lanes) (j : Nat) : laneOf (widen l) j = (lane l j).setWidth 64 := by
  by_cases hj : j < l.length <;> simp [laneOf, widen, lane, List.getD_eq_getElem?_getD, hj]

/-- A write of one lane of a v register changes no other lane of it. -/
theorem Wave.lane_vAt_setV (w : Wave) (r n i j : Nat) (x : Word) (h : j ≠ i) :
    lane ((w.setV r ((w.vAt r).set i x)).vAt n) j = lane (w.vAt n) j := by
  rw [Wave.vAt, Wave.setV_vReg]
  split_ifs with hn
  · rw [hn.1]
    simp [lane, List.getD_eq_getElem?_getD, List.getElem?_set_ne h.symm]
  · rfl

/-- A write of one lane of a v register leaves what operand A reads in every other lane. -/
theorem State.laneOf_srcA_setV (s : State) (w : Wave) (f : Fields) (r i j : Nat) (x : Word) (h : j ≠ i) :
    laneOf (s.srcA (w.setV r ((w.vAt r).set i x)) (.int 32) f) j = laneOf (s.srcA w (.int 32) f) j := by
  have hv : ∀ (y : Wave) n, s.readV y (.int 32) 0 (.v n) = widen (y.vAt n.toNat) := fun _ _ => rfl
  unfold State.srcA
  cases f.a with
  | v n => rw [hv, hv, laneOf_widen, laneOf_widen, w.lane_vAt_setV _ _ _ _ _ h]
  | spec r => cases r <;> rfl
  | _ => rfl

/-- MOVX.WR reads its source before it writes: a lane written earlier is not one that is read later (R166). -/
theorem State.foldl_setV_srcA (s : State) (f : Fields) (w : Wave) (l : List (Nat × Nat)) (hl : (l.map fun x => x.1).Nodup) (y : Wave)
    (hy : ∀ x ∈ l, laneOf (s.srcA y (.int 32) f) x.1 = laneOf (s.srcA w (.int 32) f) x.1) :
    l.foldl (fun w x => w.setV x.2 ((w.vAt x.2).set x.1 (lo32 (laneOf (s.srcA w (.int 32) f) x.1)))) y =
      l.foldl (fun z x => z.setV x.2 ((z.vAt x.2).set x.1 (lo32 (laneOf (s.srcA w (.int 32) f) x.1)))) y := by
  induction l generalizing y with
  | nil => rfl
  | cons a r ih =>
    rw [List.map_cons, List.nodup_cons] at hl
    rw [List.foldl_cons, List.foldl_cons, hy a (by simp)]
    refine ih hl.2 _ fun x hx => ?_
    have hne : x.1 ≠ a.1 := fun h => hl.1 (h ▸ List.mem_map_of_mem hx)
    rw [s.laneOf_srcA_setV _ _ _ _ _ _ hne, hy x (by simp [hx])]

theorem State.indices_nodup (s : State) (w : Wave) (f : Fields) (x : Opnd) : ((s.indices w f x).map fun y => y.1).Nodup := by
  simp only [State.indices, List.map_map, Function.comp_def, List.map_id', lanesOf]
  exact List.nodup_range.filter _

theorem exec_movxWr_full (h : s.runs w (.movxWr f) f .dest false = true)
    (hx : ∀ x ∈ s.indices w f f.d, x.2 < w.bound ∧ w.full x.2 = true) :
    exec (.movxWr f) s = .next (s.setMe (((s.indices w f f.d).foldl (fun w x =>
      w.setV x.2 ((w.vAt x.2).set x.1 (lo32 (laneOf (s.srcA w (.int 32) f) x.1)))) w).after f)) := by
  rw [s.foldl_setV_srcA f w _ (s.indices_nodup w f f.d) w fun _ _ => rfl]
  change execMovxWr f s = _
  rw [execMovxWr, State.front_runs _ h]
  simp only [indexTrap_none fun x hm => (hx x hm).1, any_empty_false fun x hm => (hx x hm).2]
  rw [if_neg Bool.false_ne_true, s.finish_eq w f _ (State.runs_me h)]

end

theorem indexInstructionsComplete : Claim.IndexInstructionsComplete := fun _ _ _ =>
  ⟨exec_xset, fun _ => exec_xadd_index, exec_xadd_vector, fun _ => exec_movxRd_full, exec_movxWr_full, exec_movxRd_beyond,
    exec_movxWr_beyond, exec_movxRd_empty⟩

/-! ### Register allocation -/

section
variable {s : State} {w : Wave} {f : Fields}

theorem exec_regGrow (h : s.runs w (.regGrow f) f .dest false = true) (h8 : s.natB w f % 8 = 0) (h256 : s.natB w f ≤ 256) :
    exec (.regGrow f) s =
      if s.natB w f ≤ w.alloc then .next (s.setMe (({ w with bound := max w.bound (s.natB w f) }.putC f.d true).after f))
      else if s.growFits w (s.natB w f) then .next (s.setMe (((w.growTo (s.natB w f)).putC f.d true).after f))
      else
        let t := s.setMe { w with wait := .grow (s.natB w f) f.d (fieldsBytes f) }
        .next (if t.othersGrow w then t.growFail w.id.core w.id.part else t) := by
  have hme := State.runs_me h
  change execRegGrow f s = _
  rw [execRegGrow, State.front_runs _ h]
  simp only [if_neg (show ¬ (256 < s.natB w f ∨ s.natB w f % 8 ≠ 0) by omega), s.finish_eq w f _ hme, s.modMe_eq w _ hme]

/-- A size that is no multiple of 8 up to 256 raises GROW_LIMIT (R154). -/
theorem exec_regGrow_limit (h : s.runs w (.regGrow f) f .dest false = true) (hn : 256 < s.natB w f ∨ s.natB w f % 8 ≠ 0) :
    exec (.regGrow f) s = s.trap 0x12 w.exec (BitVec.ofNat 64 (min (s.natB w f) 511)) := by
  change execRegGrow f s = _
  rw [execRegGrow, State.front_runs _ h]
  exact if_pos hn

/-- What the wave that has the turn waits for says nothing of the others (R155). -/
theorem State.othersGrow_setMe {x : Wave} (hm : s.me = some w) (hx : x.id = w.id) : (s.setMe x).othersGrow w = s.othersGrow w := by
  have hdrop : ∀ (l : List Wave) (i : Nat) (p : Wave → Bool), l[i]? = some w → p w = false → p x = false →
      (l.set i x).filter p = l.filter p := by
    intro l i p hi hw hp
    induction l generalizing i with
    | nil => rfl
    | cons a r ih =>
      cases i with
      | zero =>
        obtain rfl : a = w := by simpa using hi
        simp [hw, hp]
      | succ i => simp only [List.set_cons_succ, List.filter_cons, ih i (by simpa using hi)]
  simp only [State.othersGrow, State.setMe]
  rw [hdrop _ _ _ hm (by simp) (by simp [hx])]

theorem exec_regGrow_blocked (h : s.runs w (.regGrow f) f .dest false = true) (h8 : s.natB w f % 8 = 0) (h256 : s.natB w f ≤ 256)
    (ha : w.alloc < s.natB w f) (hfit : s.growFits w (s.natB w f) = false) :
    Out.ends (exec (.regGrow f) s) fun t => s.othersGrow w = false →
      t = s.setMe { w with wait := .grow (s.natB w f) f.d (fieldsBytes f) } := by
  rw [exec_regGrow h h8 h256, if_neg (Nat.not_le.2 ha), hfit, if_neg Bool.false_ne_true]
  intro ho
  rw [State.othersGrow_setMe (State.runs_me h) (by rfl), ho, if_neg Bool.false_ne_true]

/-- A wave may shrink to n registers: a multiple of 8 that its kernel's declaration does not exceed (R156). -/
theorem shrinkLegal_iff {n regs : Nat} :
    ¬ (256 < n ∨ n % 8 ≠ 0 ∨ n < 8 * ceilDiv regs 8) ↔ n % 8 = 0 ∧ n ≤ 256 ∧ regs ≤ n := by
  unfold ceilDiv
  omega

theorem exec_regShrink (h : s.runs w (.regShrink f) f .dest false = true) (h8 : s.natB w f % 8 = 0) (h256 : s.natB w f ≤ 256)
    (hr : (s.cordOf w).kernel.regs ≤ s.natB w f) :
    exec (.regShrink f) s =
      if w.alloc ≤ s.natB w f then .next (s.setMe (w.after f))
      else if (List.range (w.alloc - s.natB w f)).any fun i => !w.full (s.natB w f + i) then s.stall
      else .next (s.setMe ({ w with v := w.v.take (s.natB w f), bound := min w.bound (s.natB w f) }.after f)) := by
  have hme := State.runs_me h
  change execRegShrink f s = _
  rw [execRegShrink, State.front_runs _ h]
  simp only [if_neg (shrinkLegal_iff.2 ⟨h8, h256, hr⟩), s.finish_eq w f _ hme]
  rfl

theorem exec_regShrink_limit (h : s.runs w (.regShrink f) f .dest false = true)
    (hn : 256 < s.natB w f ∨ s.natB w f % 8 ≠ 0 ∨ s.natB w f < (s.cordOf w).kernel.regs) :
    exec (.regShrink f) s = s.trap 0x12 w.exec (BitVec.ofNat 64 (min (s.natB w f) 511)) := by
  change execRegShrink f s = _
  rw [execRegShrink, State.front_runs _ h]
  exact if_pos (not_not.1 fun hl => by have := shrinkLegal_iff.1 hl; omega)

theorem exec_regShrink_drops (h : s.runs w (.regShrink f) f .dest false = true) (h8 : s.natB w f % 8 = 0)
    (hr : (s.cordOf w).kernel.regs ≤ s.natB w f) (h256 : s.natB w f ≤ 256) (ha : s.natB w f < w.alloc)
    (hfull : ∀ i, s.natB w f ≤ i → i < w.alloc → w.full i = true) :
    exec (.regShrink f) s = .next (s.setMe ({ w with v := w.v.take (s.natB w f), bound := min w.bound (s.natB w f) }.after f)) := by
  have hnone : ((List.range (w.alloc - s.natB w f)).any fun i => !w.full (s.natB w f + i)) = false := by
    rw [List.any_eq_false]
    intro i hi
    rw [List.mem_range] at hi
    simp [hfull (s.natB w f + i) (by omega) (by omega)]
  rw [exec_regShrink h h8 h256 hr, if_neg (Nat.not_le.2 ha), hnone, if_neg Bool.false_ne_true]

end

theorem registerAllocationCompletes : Claim.RegisterAllocationCompletes := by
  intro s w f
  refine ⟨fun h => ⟨exec_regGrow_limit h, fun h8 h256 ha => ?_, fun h8 h256 ha hfit => ?_, exec_regGrow_blocked h⟩,
    fun h => ⟨exec_regShrink_limit h, fun h8 h256 hr ha => ?_, exec_regShrink_drops h⟩⟩
  · rw [exec_regGrow h h8 h256, if_pos ha]
  · rw [exec_regGrow h h8 h256, if_neg (Nat.not_le.2 ha), if_pos hfit]
    rfl
  · rw [exec_regShrink h h8 h256 hr, if_pos ha]

/-! ### Waits, code and groups -/

section
variable {s : State} {w : Wave} {f : Fields}

theorem exec_feWait {n : BitVec 6} (h : s.runs w (.feWait f) { f with pol := 0 } .dest false = true) (hb : f.b = .int n)
    (hr : vNum f.a + n.toNat ≤ (s.cordOf w).kernel.regs) :
    exec (.feWait f) s = if (∀ i, i < n.toNat → w.full (vNum f.a + i) = true) then .next (s.setMe (w.after f)) else s.stall := by
  have hme := State.runs_me h
  have hspan : spanOver (vNum f.a) n.toNat (s.cordOf w).kernel.regs = none := if_neg (Nat.not_lt.2 hr)
  have hany : ((List.range n.toNat).any fun i => !w.full (vNum f.a + i)) = true ↔ ¬ ∀ i, i < n.toNat → w.full (vNum f.a + i) = true := by
    simp
  change execFeWait f s = _
  unfold execFeWait
  simp only [hme]
  rw [State.front_runs _ h, s.finish_eq w f id hme]
  simp only [hb, hspan, hany, ite_not]
  rfl

theorem exec_feWaitAll (h : s.runs w (.feWaitAll f) f .dest false = true) :
    exec (.feWaitAll f) s = if (∀ r ∈ w.v, r.producer = none) then .next (s.setMe (w.after f)) else s.stall := by
  have hany : (w.v.any fun r => r.producer.isSome) = true ↔ ¬ ∀ r ∈ w.v, r.producer = none := by
    simp [Option.isSome_iff_ne_none]
  change execFeWaitAll f s = _
  rw [execFeWaitAll, State.front_runs _ h, s.finish_eq w f id (State.runs_me h)]
  simp only [hany, ite_not]
  rfl

/-- IC.INV waits for the release of the wave's stores, then drops the context's lines of the range (R144). -/
theorem exec_icInv (h : s.runs w (.icInv f) f .dest false = true) :
    let a := (s.readS w (.int 64) f.a).toNat
    let n := s.natB w f
    exec (.icInv f) s = if s.released w then .next ({ s with icache := s.icache.filter fun l => !(l.tag == s.tagOf w &&
      (n == 0 || (decide (a < l.va.toNat + 32) && decide (l.va.toNat < a + n)))) }.setMe (w.after f)) else s.stall := by
  have hme := State.runs_me h
  intro a n
  change execIcInv f s = _
  rw [execIcInv, State.front_runs _ h]
  cases hrel : s.released w with
  | true => exact State.finish_eq _ w f id hme
  | false => rfl

/-! ### Group queries (R220) -/

theorem grpList_eq_nil {e : BitVec 128} : (grpList e).isEmpty = true ↔ e.toNat % 2 ^ 64 = 0 := by
  rw [List.isEmpty_iff, grpList, List.filter_eq_nil_iff]
  constructor
  · intro h
    apply Nat.eq_of_testBit_eq
    intro i
    rw [Nat.testBit_mod_two_pow, Nat.zero_testBit]
    by_cases hi : i < 64
    · rw [decide_eq_true hi, Bool.true_and]
      exact Bool.eq_false_iff.2 (h i (List.mem_range.2 hi))
    · simp [hi]
  · intro h i hi
    have hbit := congrArg (fun x => x.testBit i) h
    simp only [Nat.testBit_mod_two_pow, Nat.zero_testBit, List.mem_range.1 hi, decide_true, Bool.true_and] at hbit
    simp [BitVec.getLsbD, hbit]

/-- The answer of GRP.INFO for an entry, by its modifier (R220). -/
def Cord.groupAnswer (c : Cord) (index : Nat) (e : BitVec 128) (m : Nat) : Nat :=
  match m with
  | 0 => grpMembers e
  | 1 => grpKind e + 256 * grpSide e + (if (grpList e).isEmpty then 0 else 65536)
  | 2 => if (grpList e).contains index then ((grpList e).filter fun i => decide (i < index)).length else 0xFFFFFFFF
  | 3 => (grpList e).length
  | _ =>
    let mine := (List.range c.kernel.groups.length).filter fun g => (grpList (c.group g)).contains index
    natOfBytes ((mine.map fun g => BitVec.ofNat 8 g) ++ List.replicate (4 - mine.length) 0xFF)

theorem exec_grpInfo (h : s.runs w (.grpInfo f) f .dest false = true) (hg : s.natB w f ≤ 255) :
    exec (.grpInfo f) s = .next (s.setMe ((w.putS f.d (BitVec.ofNat 64
      ((s.cordOf w).groupAnswer w.index ((s.cordOf w).group (s.natB w f)) f.m.toNat))).after f)) := by
  change execGrpInfo f s = _
  rw [execGrpInfo, State.front_runs _ h]
  simp only [if_neg (Nat.not_lt.2 hg), s.finish_eq w f _ (State.runs_me h)]
  rfl

/-- Modifier 1 gives the kind and the side, and bit 16 for an entry with members. -/
theorem groupAnswer_one (c : Cord) (index : Nat) (e : BitVec 128) :
    c.groupAnswer index e 1 = e.toNat / 2 ^ 64 % 2 ^ 16 + if e.toNat % 2 ^ 64 = 0 then 0 else 2 ^ 16 := by
  have hside : grpKind e + 256 * grpSide e = e.toNat / 2 ^ 64 % 2 ^ 16 := by
    unfold grpKind grpSide
    omega
  rw [Cord.groupAnswer, hside]
  simp only [grpList_eq_nil]
  rfl

end

theorem waitsAndGroupsComplete : Claim.WaitsAndGroupsComplete := by
  intro s w f
  refine ⟨fun n => exec_feWait, exec_feWaitAll, fun h hr => ?_, fun h hr => ?_, fun h hg => ?_⟩
  · rw [exec_icInv h, if_pos hr]
  · rw [exec_icInv h, hr]; rfl
  · refine ⟨fun hm => ?_, fun hm => ?_, fun hm => ?_, fun hm => ?_, ?_⟩ <;> rw [exec_grpInfo h hg]
    · rw [hm]; rfl
    · rw [hm, show (1 : BitVec 17).toNat = 1 from rfl, groupAnswer_one]
    · rw [hm]; rfl
    · rw [hm]; rfl
    · exact ⟨_, rfl⟩

/-- Settles O23: index registers, register allocation, waits and group queries. -/
theorem indexesAllocationAndWaitsComplete : Obligations.IndexesAllocationAndWaitsComplete :=
  ⟨indexInstructionsComplete, registerAllocationCompletes, waitsAndGroupsComplete⟩

end Sys2Proof.Machine
end

section
/-! What the hardware's own stores leave alone: the records that the scheduler holds. -/

namespace Sys2Proof.Machine

/-! ### Writes -/

@[simp] theorem State.returnTime_recs (s : State) (id c : Nat) : (s.returnTime id c).recs = s.recs := rfl
@[simp] theorem State.dropResv_recs (s : State) (w : Write) : (s.dropResv w).recs = s.recs := rfl

@[simp] theorem State.raisePort_recs (s : State) (a : Agent) (c : Nat) : (s.raisePort a c).recs = s.recs := by
  unfold State.raisePort; split <;> rfl

@[simp] theorem State.contend_recs (s : State) (pa : Nat) (core : Option Nat) (write : Bool) :
    (s.contend pa core write).recs = s.recs := by
  unfold State.contend; split <;> rfl

@[simp] theorem State.newWrite_recs (s : State) (agent : Agent) (tag core : Option Nat) (bytes : List Host.Cell) (grain : Nat)
    (cache : CacheMode) (pool : Bool) (bells : List Instr) :
    (s.newWrite agent tag core bytes grain cache pool bells).2.recs = s.recs := by
  cases agent <;> rfl

@[simp] theorem State.acceptAs_recs (contends : Bool) (s : State) (id : Nat) : (s.acceptAs contends id).recs = s.recs := by
  unfold State.acceptAs
  split
  · rfl
  · split
    · rfl
    · split
      · rfl
      · cases contends <;> simp

@[simp] theorem State.contendWrite_recs (s : State) (w : Write) : (s.contendWrite w).recs = s.recs := by
  have hfold : ∀ (l : List Host.Cell) (t : State),
      (l.foldl (fun s c => if s.heldBack c.1 w.core then s.contend c.1 w.core true else s) t).recs = t.recs := by
    intro l
    induction l with
    | nil => exact fun _ => rfl
    | cons c r ih => intro t; rw [List.foldl_cons, ih]; split <;> simp
  unfold State.contendWrite
  split
  · exact hfold _ s
  · rfl

@[simp] theorem State.acceptOr_recs (s : State) (id : Nat) : (s.acceptOr id).recs = s.recs := by
  unfold State.acceptOr
  split
  · split <;> simp [State.acceptNow]
  · rfl

@[simp] theorem State.writeHome_recs (s : State) (tag : Option Nat) (bytes : List Host.Cell) (grain : Nat) (cache : CacheMode)
    (pool : Bool) : (s.writeHome tag bytes grain cache pool).2.recs = s.recs := by
  simp [State.writeHome]

/-! ### Errors -/

@[simp] theorem State.faultLater_recs (s : State) (tag : Nat) : (s.faultLater tag).recs = s.recs := by
  unfold State.faultLater; split <;> rfl

@[simp] theorem State.countError_recs (s : State) (die : Nat) : (s.countError die).recs = s.recs := rfl
@[simp] theorem State.poisonSector_recs (s : State) (tag pa : Nat) : (s.poisonSector tag pa).recs = s.recs := rfl

/-- A fold of steps that each leave the records alone. -/
theorem foldl_recs {α : Type} (f : State → α → State) (hf : ∀ s a, (f s a).recs = s.recs) (l : List α) (s : State) :
    (l.foldl f s).recs = s.recs := by
  induction l generalizing s with
  | nil => rfl
  | cons a l ih => rw [List.foldl_cons, ih, hf]

@[simp] theorem State.meetErrors_recs (s : State) (core : Option Nat) (tag pa : Nat) : (s.meetErrors core tag pa).2.recs = s.recs := by
  unfold State.meetErrors
  dsimp only
  rw [foldl_recs]
  · split <;> rfl
  · intro t f
    split
    · rfl
    · split
      · split <;> rfl
      · rfl
      · rfl

/-! ### Translations -/

theorem State.meetReads_recs (tag : Nat) (l : List Nat) (p : Bool × State) :
    (l.foldl (fun (p : Bool × State) a => (p.1 || (p.2.meetErrors none tag a).1, (p.2.meetErrors none tag a).2)) p).2.recs =
      p.2.recs := by
  induction l generalizing p with
  | nil => rfl
  | cons a l ih => rw [List.foldl_cons, ih]; exact State.meetErrors_recs ..

@[simp] theorem State.walkOver_recs (s : State) (tag va level table : Nat) : (s.walkOver tag va level table).2.recs = s.recs := by
  have h := State.meetReads_recs tag (((level, table) :: walkTables s.readEntry (vaBits va) level table).flatMap fun x =>
    tableReads s.readEntry (vaBits va) x.1 x.2) (false, s)
  unfold State.walkOver
  dsimp only
  split <;> exact h

@[simp] theorem State.walkBy_recs (s : State) (unit tag va : Nat) : (s.walkBy unit tag va).2.recs = s.recs := by
  have h := s.walkOver_recs tag va (s.walkStart unit tag va).1 (s.walkStart unit tag va).2
  unfold State.walkBy
  split <;> next e => rw [e] at h; exact h

@[simp] theorem State.setEntry_recs (s : State) (tag pa : Nat) (e : Word64) : (s.setEntry tag pa e).recs = s.recs := by
  simp [State.setEntry]

@[simp] theorem State.useLeaf_recs (s : State) (unit tag : Nat) (sup : Bool) (kind va : Nat) (w : WalkEnd) :
    (s.useLeaf unit tag sup kind va w).2.recs = s.recs := by
  unfold State.useLeaf
  split
  · rfl
  · dsimp only
    rw [State.fillTlb_recs, apply_ite State.recs, State.setEntry_recs, ite_self]

@[simp] theorem State.walkLeaf_recs (s : State) (unit tag : Nat) (sup : Bool) (kind va : Nat) :
    (s.walkLeaf unit tag sup kind va).2.recs = s.recs := by
  have h := s.walkBy_recs unit tag va
  unfold State.walkLeaf
  split
  · next e => rw [e] at h; exact h
  · next w t e =>
    rw [e] at h
    split
    · rw [State.useLeaf_recs]; exact h
    · exact h

@[simp] theorem State.meetTlb_recs (s : State) (unit tag va : Nat) : (s.meetTlb unit tag va).recs = s.recs := by
  unfold State.meetTlb
  dsimp only
  split <;> rfl

@[simp] theorem State.translateNoFt_recs (s : State) (unit tag : Nat) (sup : Bool) (kind va : Nat) :
    (s.translateNoFt unit tag sup kind va).2.recs = s.recs := by
  unfold State.translateNoFt
  split
  · rfl
  · dsimp only
    split
    · split <;> simp
    · simp

@[simp] theorem State.askTouch_recs (s : State) (unit tag die kind va : Nat) (w : WalkEnd) :
    (s.askTouch unit tag die kind va w).2.recs = s.recs := by
  unfold State.askTouch
  dsimp only
  split
  · dsimp only; split <;> rfl
  · split <;> rfl

@[simp] theorem State.translate_recs (s : State) (unit tag die : Nat) (sup : Bool) (kind va : Nat) :
    (s.translate unit tag die sup kind va).2.recs = s.recs := by
  have h := s.translateNoFt_recs unit tag sup kind va
  unfold State.translate
  split
  · next c p t e =>
    rw [e] at h
    have hw := t.walkBy_recs unit tag va
    split
    · exact h
    · split
      · next e => rw [e] at hw; exact hw.trans h
      · next w u e =>
        rw [e] at hw
        split
        · exact hw.trans h
        · split
          · exact hw.trans h
          · rw [State.askTouch_recs]; exact hw.trans h
  · exact h

/-! ### Descriptors -/

@[simp] theorem State.descStore_recs (s : State) (tag va : Nat) (bs : List Byte) : (s.descStore tag va bs).recs = s.recs := by
  have h := s.translate_recs unitSched tag 0 true 1 va
  unfold State.descStore
  split
  · next pa e t eq =>
    rw [eq] at h
    have hm := t.meetErrors_recs none tag pa
    split
    · next eq => rw [eq] at hm; rw [State.faultLater_recs]; exact hm.trans h
    · next eq => rw [eq] at hm; rw [State.writeHome_recs]; exact hm.trans h
  · next eq => rw [eq] at h; rw [State.faultLater_recs]; exact h
  · next eq => rw [eq] at h; exact h

@[simp] theorem State.setQueue_recs (s : State) (tag q : Nat) (st : QState) : (s.setQueue tag q st).recs = s.recs := by
  unfold State.setQueue
  simp

end Sys2Proof.Machine
end

section
/-! Doorbells, mapping, slices and resumption of queues (R115 to R118, R142), and the records that slots take, expand and
retire (R119 to R122, R131, R137). -/

namespace Sys2Proof.Machine

/-! ### The queue that has waited longest -/

/-- What is known of the best queue of a list so far: it has been seen, and none that has been seen waited longer. -/
def IsLongest (seen : List Queue) : Option Queue → Prop
  | none => seen = []
  | some x => x ∈ seen ∧ ∀ y ∈ seen, x.since ≤ y.since

/-- One step of `longestWaiting`. -/
def longerWait (b : Option Queue) (x : Queue) : Option Queue := match b with
  | none => some x
  | some y => if x.since < y.since then some x else some y

theorem longestWaiting_eq (l : List Queue) : longestWaiting l = l.foldl longerWait none := rfl

theorem isLongest_longerWait {seen : List Queue} {b : Option Queue} (h : IsLongest seen b) (x : Queue) :
    IsLongest (seen ++ [x]) (longerWait b x) := by
  cases b with
  | none =>
    subst h
    exact ⟨by simp, by simp⟩
  | some y =>
    obtain ⟨hy, hle⟩ := h
    unfold longerWait
    dsimp only
    split
    · next hlt =>
      refine ⟨by simp, fun z hz => ?_⟩
      rcases List.mem_append.1 hz with hz | hz
      · exact (Nat.le_of_lt hlt).trans (hle z hz)
      · rw [List.mem_singleton.1 hz]
    · next hge =>
      refine ⟨by simp [hy], fun z hz => ?_⟩
      rcases List.mem_append.1 hz with hz | hz
      · exact hle z hz
      · rw [List.mem_singleton.1 hz]; exact Nat.le_of_not_lt hge

theorem isLongest_foldl (l : List Queue) {seen : List Queue} {b : Option Queue} (h : IsLongest seen b) :
    IsLongest (seen ++ l) (l.foldl longerWait b) := by
  induction l generalizing seen b with
  | nil => rw [List.append_nil]; exact h
  | cons x l ih => rw [List.append_cons]; exact ih (isLongest_longerWait h x)

theorem isLongest_longestWaiting (l : List Queue) : IsLongest l (longestWaiting l) := by
  rw [longestWaiting_eq]
  exact isLongest_foldl l (seen := []) (b := none) rfl

theorem le_foldl_max {l : List Nat} (a : Nat) {n : Nat} (h : n ∈ l) : n ≤ l.foldl max a := by
  have hstart : ∀ (l : List Nat) (a : Nat), a ≤ l.foldl max a := by
    intro l
    induction l with
    | nil => exact fun a => Nat.le_refl a
    | cons b l ih => exact fun a => (Nat.le_max_left a b).trans (ih _)
  induction l generalizing a with
  | nil => cases h
  | cons b l ih =>
    rcases List.mem_cons.1 h with rfl | h
    · exact (Nat.le_max_right a n).trans (hstart l _)
    · exact ih _ h

/-- A free slot goes to a waiting queue of the highest priority that has waited longest (R118). -/
theorem State.nextWaiting_spec {s : State} {x : Queue} (h : s.nextWaiting = some x) :
    x ∈ s.waiting ∧ ∀ y ∈ s.waiting, s.queuePrio y.tag y.q < s.queuePrio x.tag x.q ∨
      (s.queuePrio y.tag y.q = s.queuePrio x.tag x.q ∧ x.since ≤ y.since) := by
  have hl := isLongest_longestWaiting (s.waiting.filter fun x =>
    s.queuePrio x.tag x.q == (s.waiting.map fun x => s.queuePrio x.tag x.q).foldl max 0)
  rw [show longestWaiting _ = some x from h] at hl
  obtain ⟨hx, hle⟩ := hl
  simp only [List.mem_filter, beq_iff_eq] at hx hle
  refine ⟨hx.1, fun y hy => ?_⟩
  have htop : s.queuePrio y.tag y.q ≤ (s.waiting.map fun x => s.queuePrio x.tag x.q).foldl max 0 := by
    exact le_foldl_max 0 (List.mem_map_of_mem hy)
  rw [← hx.2] at htop
  rcases Nat.lt_or_eq_of_le htop with hlt | heq
  · exact .inl hlt
  · exact .inr ⟨heq, hle y ⟨hy, heq.trans hx.2⟩⟩

theorem State.mem_waiting {s : State} {x : Queue} (h : x ∈ s.waiting) : x ∈ s.queues ∧ x.st = .waiting := by
  simp only [State.waiting, List.mem_filter, Bool.and_eq_true, beq_iff_eq] at h
  exact ⟨h.1, h.2.1⟩

/-! ### Doorbells -/

/-- The doorbell reaches a queue of a context that the scheduler serves (R116, R117). -/
def State.Rings (s : State) (tag q : Nat) : Prop :=
  q < (s.ctx tag).qcount ∧ ((s.ctx tag).st = .ready ∨ (s.ctx tag).st = .running ∨ (s.ctx tag).st = .preempted)

/-- A blocked pop of the queue is rung (R142). -/
def State.ringPop (s : State) (tag q : Nat) (w : Wave) : Wave := match w.wait with
  | .pop p _ => if p = q ∧ s.tagOf w = tag then { w with wait := .pop p true } else w
  | _ => w

section
variable {s : State} {tag q : Nat}

theorem State.ring_pull (h : s.Rings tag q) (hp : s.isPullQ tag q = true) :
    s.ring tag q = ({ s with waves := s.waves.map (s.ringPop tag q) }, true) := by
  obtain ⟨hq, hst⟩ := h
  unfold State.ring
  simp only [Nat.not_le.2 hq, hst, not_true, or_self, if_false, hp, if_true]
  rfl

theorem State.ring_idle (h : s.Rings tag q) (hp : s.isPullQ tag q = false) (hi : s.qState tag q = .idle) :
    s.ring tag q = match s.headEntry (schedVia tag) q with
      | (s, .ok (_, some _)) => (s.setQueue tag q .waiting, true)
      | (s, .ok (_, none)) => (s, true)
      | (s, .fault _ _ _) => (s.setQueue tag q .waiting, true)
      | (s, .bad) => (s.faultLater tag, true)
      | (t, .wait) => (s.waited t, false) := by
  obtain ⟨hq, hst⟩ := h
  unfold State.ring
  simp only [Nat.not_le.2 hq, hst, not_true, or_self, if_false, hp, hi, ne_eq, Bool.false_eq_true] <;> rfl

theorem doorbell_waiting {t : State} {h : Nat} {r : List Byte} (hr : s.Rings tag q) (hp : s.isPullQ tag q = false)
    (hi : s.qState tag q = .idle) (he : s.headEntry (schedVia tag) q = (t, .ok (h, some r))) :
    exec (.doorbell tag q) s = .next (t.setQueue tag q .waiting) := by
  show execDoorbell tag q s = _
  rw [execDoorbell, State.ring_idle hr hp hi, he]

theorem doorbell_kept {t : State} (hr : s.Rings tag q) (hp : s.isPullQ tag q = false)
    (hi : s.qState tag q = .idle) (he : s.headEntry (schedVia tag) q = (t, .wait)) :
    exec (.doorbell tag q) s = .next { s.waited t with bells := (s.waited t).bells ++ [(tag, q)] } := by
  show execDoorbell tag q s = _
  rw [execDoorbell, State.ring_idle hr hp hi, he]

theorem doorbell_pull (hr : s.Rings tag q) (hp : s.isPullQ tag q = true) :
    exec (.doorbell tag q) s = .next { s with waves := s.waves.map (s.ringPop tag q) } := by
  show execDoorbell tag q s = _
  rw [execDoorbell, State.ring_pull hr hp]

/-- Ringing a wave changes nothing but its wait. -/
theorem State.ringPop_wait (w : Wave) : { s.ringPop tag q w with wait := w.wait } = w ∧
    (s.ringPop tag q w).wait = match w.wait with
      | .pop p b => if p = q ∧ s.tagOf w = tag then .pop p true else .pop p b
      | y => y := by
  unfold State.ringPop
  split
  · next p b he =>
    rw [he]
    dsimp only
    split
    · exact ⟨by rw [← he], rfl⟩
    · exact ⟨by rw [← he], he⟩
  · next hne => exact ⟨rfl, rfl⟩

end

/-! ### Mapping -/

section
variable {s t u : State} {slot tag q : Nat} {d : List Byte} {l : List (Nat × Nat × Word64)}

theorem State.mapQueue_of_reads (hd : s.viaLoad (schedVia tag) (s.qDesc tag q) 64 = (t, .ok d))
    (hl : t.viaLocate (schedVia tag) 1 [(s.qDesc tag q, 32)] = (u, .ok l)) :
    s.mapQueue slot tag q =
      if descOk (u.ctx tag) d
      then { u.setQueue tag q .mapped with slots := u.slots ++ [(⟨slot, tag, q, byteAt d 8 / 32, numAt d 10 2,
        u.time + 1000 * numAt d 10 2, descLog2 d, descBase d⟩ : Slot)] }
      else if s.canStop tag q then u.stopQueue tag q 0x10 else s := by
  unfold State.mapQueue
  simp only [hd, hl, andThen, Bool.not_eq_true']
  cases descOk (u.ctx tag) d <;> rfl

theorem execQueueMap_eq {x : Queue} (hs : slot < 64) (hf : ∀ y ∈ s.slots, y.slot ≠ slot) (hx : s.nextWaiting = some x) :
    exec (.queueMap slot) s = .next (s.mapQueue slot x.tag x.q) := by
  show execQueueMap slot s = _
  have hany : (s.slots.any fun x => x.slot == slot) = false := by simpa using hf
  rw [execQueueMap, if_neg (by simp [hany, Config.queueSlots, hs]), hx]

end

/-! ### Slices -/

theorem State.meetSlot_sound {s : State} {slot : Nat} {x : Slot} (hx : (s.slots.find? fun y => y.slot == slot) = some x)
    (hf : ∀ f ∈ s.flaws, f.place ≠ .slot slot) : s.meetSlot slot = (some x, s) := by
  have hany : (s.flaws.any fun f => f.place == .slot slot) = false := by simpa using hf
  unfold State.meetSlot
  simp only [hx, hany, Bool.false_eq_true, if_false]

section
variable {s t : State} {slot : Nat} {x : Slot} {y : Queue}

/-- A slot whose slice has ended, as it stands once its own copy has met its errors. -/
def State.Over (s : State) (slot : Nat) (x : Slot) (t : State) : Prop := s.meetSlot slot = (some x, t) ∧ x.sliceEnd ≤ t.time

theorem execSliceEnd_over (h : s.Over slot x t) : exec (.sliceEnd slot) s = match t.sliceTaker x with
      | none => .next { t with slots := modWhere t.slots (fun y => y.slot == slot) fun y =>
          { y with sliceEnd := t.time + 1000 * y.slice } }
      | some y =>
        if t.expandsOf x.tag x.q then .next t
        else
        let s := { t with slots := t.slots.filter fun z => z.slot != slot }.setQueue x.tag x.q .waiting
        let s := if s.slots.any fun z => z.tag == x.tag then s else if y.tag = x.tag then s else s.preempt x.tag
        .next (s.mapQueue slot y.tag y.q) := by
  obtain ⟨hm, he⟩ := h
  show execSliceEnd slot s = _
  unfold execSliceEnd
  simp only [hm, Nat.not_lt.2 he, if_false] <;> rfl

theorem sliceEnd_renewed (h : s.Over slot x t) (ht : t.sliceTaker x = none) :
    exec (.sliceEnd slot) s = .next { t with slots := modWhere t.slots (fun y => y.slot == slot) fun y =>
      { y with sliceEnd := t.time + 1000 * y.slice } } := by
  rw [execSliceEnd_over h, ht]

theorem sliceEnd_expanding (h : s.Over slot x t) (ht : t.sliceTaker x = some y) (he : t.expandsOf x.tag x.q = true) :
    exec (.sliceEnd slot) s = .next t := by
  rw [execSliceEnd_over h, ht]
  exact if_pos he

theorem sliceEnd_taken (h : s.Over slot x t) (ht : t.sliceTaker x = some y) (he : t.expandsOf x.tag x.q = false)
    {u : State} (hu : u = { t with slots := t.slots.filter fun z => z.slot != slot }.setQueue x.tag x.q .waiting) :
    exec (.sliceEnd slot) s = .next ((if (∃ z ∈ u.slots, z.tag = x.tag) ∨ y.tag = x.tag then u
      else u.preempt x.tag).mapQueue slot y.tag y.q) := by
  rw [execSliceEnd_over h, ht]
  simp only [he, Bool.false_eq_true, if_false, ← hu, List.any_eq_true, beq_iff_eq, ite_or]

end

/-! ### Resumption -/

/-- A record of a queue that is resumed: the pieces of a COPY record that have stopped are tried again (R121). -/
def Rec.resumed (tag q : Nat) (r : Rec) : Rec := match r.stage with
  | .copying l => if r.tag = tag ∧ r.q = q then
      { r with stage := .copying (l.map fun p => match p.st with | .stopped _ _ => { p with st := PieceState.todo } | _ => p) } else r
  | _ => r

theorem Rec.resumed_stage (tag q : Nat) (r : Rec) : { r.resumed tag q with stage := r.stage } = r := by
  unfold Rec.resumed
  split
  · split <;> rfl
  · rfl

theorem queueResume_eq {s : State} {tag q : Nat} (h : s.qState tag q = .stopped) :
    exec (.queueResume tag q) s =
      .next { s.setQueue tag q .idle with recs := (s.setQueue tag q .idle).recs.map (Rec.resumed tag q) } := by
  show execQueueResume tag q s = _
  unfold execQueueResume
  simp only [h, ne_eq, not_true, if_false]
  rfl

end Sys2Proof.Machine
end

section
/-! Records: taken, refused, expanded and retired (R117, R119, R121, R122, R131, R137). -/

namespace Sys2Proof.Machine

/-! ### Taking -/

section
variable {s s0 t : State} {slot h : Nat} {x : Slot} {r : List Byte}

theorem recordTake_takes (hm : s.meetSlot slot = (some x, s0)) (hc : s0.canServe x.tag = true)
    (ht : s0.mayTake x.tag x.q = true) (ho : s0.sliceOver x = false)
    (he : s0.headEntry (schedVia x.tag) x.q = (t, .ok (h, some r))) {u : State}
    (hu : u = t.descStore x.tag (t.qDesc x.tag x.q + 0x18) (bytesOfNat 8 (h + 1))) :
    exec (.recordTake slot) s = .next { u with
      uid := u.uid + 1
      recs := u.recs ++ [(⟨u.uid, x.tag, x.q, r, Option.none, Option.none, .taken, Option.none, 0, 0, u.uid, h⟩ : Rec)] } := by
  show execRecordTake slot s = _
  unfold execRecordTake
  simp only [hm, hc, ht, ho, he, ← hu, Bool.not_true, Bool.or_self, Bool.false_eq_true, if_false]

end

/-! ### Expansion -/

/-- A record's work begins in a stage, with its kernel where it has one. -/
def State.beginRec (s : State) (r : Rec) (st : RecStage) (k : Option Kernel) : State :=
  s.modRec r.uid fun y => { y with stage := st, kernel := k, grid := recCount r.bytes, buffer := Option.none }

/-- What RECORD_EXPAND does with a record that passes its checks: a record of each type begins its own work (R122). -/
def State.expandPassed (s : State) (x : Slot) (r : Rec) : Out := match recType r.bytes with
  | 3 => .next (s.beginRec r .expanded none)
  | 4 => .next (s.beginRec r (.copying (linearPieces (recFrame r.bytes) (recCode r.bytes) (recG r.bytes 0) false false 0 0)) none)
  | 5 => .next (s.beginRec r .raygen none)
  | _ => match s.readKernel x.tag (recCode r.bytes) with
    | (s, .ok (.inl k)) => .next (s.beginRec r (.expanding 0) (some k))
    | (s, .ok (.inr c)) => .next (s.refuse r c)
    | (s, .bad) => .next (s.ctxFault x.tag 0x50)
    | (t, .wait) => .next (s.waited t)
    | (s, .fault _ _ _) => .next (s.refuse r 0x05)

section
variable {s s0 t : State} {slot c : Nat} {x : Slot} {r : Rec} {k : Kernel}

/-- The record that a server expands next: no other of its queue expands, and a SERIAL one waits for those before it. -/
structure State.Expands (s s0 : State) (slot : Nat) (x : Slot) (r : Rec) : Prop where
  met : (s.meetSlot slot).2 = s0
  sound : ∀ f ∈ s0.flaws, f.place ≠ .slot slot
  server : (s0.servers.find? fun y => y.slot == slot) = some x
  serves : s0.canServe x.tag = true
  alone : ∀ y ∈ s0.recs, y.tag = x.tag → y.q = x.q → ∀ n, y.stage ≠ .expanding n
  next : s0.nextRec x.tag x.q = some r
  serial : s0.serialOk r = true

theorem State.Expands.eq (h : s.Expands s0 slot x r) : exec (.recordExpand slot) s =
    match recordReason (s0.ctx x.tag).recver.toNat x.prio r.bytes with
    | some c => .next (s0.refuse r c)
    | none => s0.expandPassed x r := by
  obtain ⟨hm, hf, hx, hc, ha, hn, hs⟩ := h
  have hflaw : (s0.flaws.any fun f => f.place == .slot slot) = false := by simpa using hf
  have hgoing : (s0.recs.any fun r => r.tag == x.tag && r.q == x.q &&
      (match r.stage with | .expanding _ => true | _ => false)) = false := by
    rw [List.any_eq_false]
    intro y hy
    simp only [Bool.and_eq_true, beq_iff_eq, not_and]
    rintro ⟨htag, hq⟩
    split
    · next n he => exact absurd he (ha y hy htag hq n)
    · exact Bool.false_ne_true
  show execRecordExpand slot s = _
  unfold execRecordExpand
  simp only [hm, hflaw, hx, hc, hn, hs, Bool.false_eq_true, if_false, Bool.not_true, Bool.false_or]
  exact if_neg (ne_true_of_eq_false hgoing)

theorem recordExpand_refuses (h : s.Expands s0 slot x r)
    (hw : recordReason (s0.ctx x.tag).recver.toNat x.prio r.bytes = some c) :
    exec (.recordExpand slot) s = .next (s0.refuse r c) := by
  rw [h.eq, hw]

theorem recordExpand_passes (h : s.Expands s0 slot x r)
    (hw : recordReason (s0.ctx x.tag).recver.toNat x.prio r.bytes = none) :
    exec (.recordExpand slot) s = s0.expandPassed x r := by
  rw [h.eq, hw]

theorem State.expandPassed_grid (h3 : recType r.bytes ≠ 3) (h4 : recType r.bytes ≠ 4) (h5 : recType r.bytes ≠ 5) :
    s.expandPassed x r = match s.readKernel x.tag (recCode r.bytes) with
      | (s, .ok (.inl k)) => .next (s.beginRec r (.expanding 0) (some k))
      | (s, .ok (.inr c)) => .next (s.refuse r c)
      | (s, .bad) => .next (s.ctxFault x.tag 0x50)
      | (t, .wait) => .next (s.waited t)
      | (s, .fault _ _ _) => .next (s.refuse r 0x05) := by
  unfold State.expandPassed
  split
  · exact absurd ‹_› h3
  · exact absurd ‹_› h4
  · exact absurd ‹_› h5
  · rfl

end

/-! ### Retirement and held successors -/

theorem recordRetire_goes {s t : State} {uid : Nat} {r : Rec} (hr : s.recOf uid = some r) (he : r.stage = .expanded)
    (hc : s.hasCords uid = false) (hp : ∀ x ∈ s.recs, x.parent ≠ some uid) (hh : r.horizon ≤ s.time)
    (hj : s.joinDec r.tag (recJoin r.bytes) = (t, true)) :
    exec (.recordRetire uid) s =
      .next (({ t with recs := t.recs.filter fun x => x.uid != uid }.idleCheck r.tag r.q).readyCheck r.tag) := by
  have hany : (s.recs.any fun x => x.parent == some uid) = false := by simpa using hp
  show execRecordRetire uid s = _
  unfold execRecordRetire
  simp only [hr, he, hc, hany, Nat.not_lt.2 hh, hj, ne_eq, not_true, Bool.false_eq_true, or_self, if_false]

section
variable {s t : State} {die : Nat} {h : Nat × HeldSucc} {rest : List (Nat × HeldSucc)}

theorem successorRelease_enters (hl : (s.helds.filter fun h => h.1 == die) = h :: rest)
    (he : s.enqueue h.2.tag h.2.q h.2.bytes = (t, .ok true)) :
    exec (.successorRelease die) s = .next { t with helds := t.helds.erase h } := by
  show execSuccessorRelease die s = _
  rw [execSuccessorRelease, hl, State.releaseHeld, he]

theorem successorRelease_full (hl : (s.helds.filter fun h => h.1 == die) = h :: rest)
    (he : s.enqueue h.2.tag h.2.q h.2.bytes = (t, .ok false)) :
    exec (.successorRelease die) s = .next (s.releaseHeld rest) := by
  show execSuccessorRelease die s = _
  rw [execSuccessorRelease, hl, State.releaseHeld, he]

end

/-! ### The scheduler -/

theorem queueSchedulingCompletes : Claim.QueueSchedulingCompletes := by
  intro s tag q slot
  refine ⟨fun t h r hq hst hp hi he => doorbell_waiting ⟨hq, hst⟩ hp hi he,
    fun t hq hst hp hi he => doorbell_kept ⟨hq, hst⟩ hp hi he, fun hq hst hp => ?pull,
    fun x t u d l hs hf hx hd hl => ?map, fun x hx => ?next, fun x hx hf => State.meetSlot_sound hx hf,
    fun x t hm he => ⟨fun ht => sliceEnd_renewed ⟨hm, he⟩ ht, fun y ht hex => sliceEnd_expanding ⟨hm, he⟩ ht hex,
      fun y ht hex => sliceEnd_taken ⟨hm, he⟩ ht hex rfl⟩, fun hst => ?resume⟩
  case pull =>
    rw [doorbell_pull ⟨hq, hst⟩ hp]
    refine ⟨rfl, List.length_map .., fun i w x hw hx => ?_⟩
    rw [List.getElem?_map, hw] at hx
    cases hx
    exact State.ringPop_wait w
  case map => rw [execQueueMap_eq hs hf hx, State.mapQueue_of_reads hd hl]
  case next =>
    obtain ⟨hmem, hbest⟩ := State.nextWaiting_spec hx
    exact ⟨(State.mem_waiting hmem).1, (State.mem_waiting hmem).2, hbest⟩
  case resume =>
    rw [queueResume_eq hst]
    refine ⟨?_, by simp, fun i r x hr hx => ?_⟩
    · rw [← State.setQueue_recs s tag q .idle]
    · rw [List.getElem?_map, State.setQueue_recs, hr] at hx
      cases hx
      exact r.resumed_stage tag q

theorem recordsComplete : Claim.RecordsComplete := by
  intro s slot
  refine ⟨fun x s0 t h r hm hc ht ho he => recordTake_takes hm hc ht ho he rfl, ?expand,
    fun uid r t hr he hc hp hh hj => recordRetire_goes hr he hc hp hh hj,
    fun die h rest t hl he => successorRelease_enters hl he, fun die h rest t hl he => successorRelease_full hl he⟩
  intro x s0 hf hx hc r ha hn hs
  have hE : s.Expands s0 slot x r := ⟨rfl, hf, hx, hc, ha, hn, hs⟩
  refine ⟨fun c hw => recordExpand_refuses hE hw, fun hw => ?_⟩
  rw [recordExpand_passes hE hw]
  refine ⟨fun h3 => ?_, fun h4 => ?_, fun h5 => ?_, fun h3 h4 h5 => ?_⟩
  · rw [State.expandPassed, h3]; rfl
  · rw [State.expandPassed, h4]; rfl
  · rw [State.expandPassed, h5]; rfl
  · rw [State.expandPassed_grid h3 h4 h5]
    exact ⟨fun t k hk => by rw [hk]; rfl, fun t c hk => by rw [hk]⟩

/-- Settles O49. Each step is the branch of the model's definition that its hypotheses select; the two facts beyond that are
that the slot's taker is the best of a fold over the waiting queues, and that resuming a queue stores to its descriptor without
touching a record. -/
theorem schedulerCompletes : Obligations.SchedulerCompletes := ⟨queueSchedulingCompletes, recordsComplete⟩

end Sys2Proof.Machine
end

section
/-! The encodings of instructions (R18 to R40): the decoder and the encoder of each field and of each format undo each other. -/

namespace Sys2Proof

/-! ### Bits of a word -/

/-- Bits of a word are a concatenation exactly where its parts are. -/
theorem extractLsb'_eq_append_iff {k m n s : Nat} {w : BitVec k} {a : BitVec m} {b : BitVec n} :
    w.extractLsb' s (m + n) = a ++ b ↔ w.extractLsb' (s + n) m = a ∧ w.extractLsb' s n = b := by
  constructor
  · intro h
    constructor
    · rw [← BitVec.extractLsb'_append_eq_left (a := a) (b := b), ← h]
      ext i hi
      simp [hi, Nat.add_assoc, Nat.add_comm n]
    · rw [← BitVec.extractLsb'_append_eq_right (a := a) (b := b), ← h]
      ext i hi
      simp [show i < m + n by omega]
  · rintro ⟨rfl, rfl⟩
    ext i hi
    by_cases hn : i < n
    · simp [BitVec.getElem_append, hn]
    · simp [BitVec.getElem_append, hn, show s + n + (i - n) = s + i by omega]

/-- Words that agree in their low bits agree in every field that lies there. -/
theorem extractLsb'_congr {k n s l : Nat} {w x : BitVec k} (h : w.toNat % 2 ^ n = x.toNat % 2 ^ n) (hl : s + l ≤ n) :
    w.extractLsb' s l = x.extractLsb' s l := by
  have hbit : ∀ j, j < n → w.getLsbD j = x.getLsbD j := fun j hj => by
    simpa [Nat.testBit_mod_two_pow, hj, BitVec.testBit_toNat] using congrArg (Nat.testBit · j) h
  ext i hi
  simpa using hbit (s + i) (by omega)

theorem toNat_extractLsb'_zero {k n : Nat} (w : BitVec k) : (w.extractLsb' 0 n).toNat = w.toNat % 2 ^ n := by simp

/-! ### Operands -/

theorem decodeOpnd_encodeOpnd (o : Opnd) : decodeOpnd (encodeOpnd o) = some o := by
  cases o with
  | none => rfl
  | spec r => cases r <;> rfl
  | v n | o n | l n | q n | int n | fconst n | s n | sp n | k n | c n | x n => revert n; decide

theorem encodeOpnd_of_decodeOpnd : ∀ x : BitVec 10, ∀ o ∈ decodeOpnd x, encodeOpnd o = x := by decide +kernel

/-- A field names an operand exactly where it is the operand's field (R23, R24, R29). -/
theorem decodeOpnd_eq_some_iff {x : BitVec 10} {o : Opnd} : decodeOpnd x = some o ↔ x = encodeOpnd o :=
  ⟨fun h => (encodeOpnd_of_decodeOpnd x o h).symm, fun h => h ▸ decodeOpnd_encodeOpnd o⟩

theorem decodeVB_encodeVB (b : PairVB) : decodeVB (encodeVB b) = some b := by
  cases b with
  | o n | l n | q n | s n | int n | fconst n => revert n; decide

theorem encodeVB_of_decodeVB : ∀ x : BitVec 6, ∀ b ∈ decodeVB x, encodeVB b = x := by decide

theorem decodeVB_eq_some_iff {x : BitVec 6} {b : PairVB} : decodeVB x = some b ↔ x = encodeVB b :=
  ⟨fun h => (encodeVB_of_decodeVB x b h).symm, fun h => h ▸ decodeVB_encodeVB b⟩

theorem decodeSB_encodeSB (b : PairSB) : decodeSB (encodeSB b) = b := by
  cases b with
  | s n | imm n => revert n; decide

theorem encodeSB_decodeSB : ∀ x : BitVec 8, encodeSB (decodeSB x) = x := by decide

theorem decodeSB_eq_iff {x : BitVec 8} {b : PairSB} : decodeSB x = b ↔ x = encodeSB b :=
  ⟨fun h => h ▸ (encodeSB_decodeSB x).symm, fun h => h ▸ decodeSB_encodeSB b⟩

theorem sopMap_getElem?_eq_some_iff {x : BitVec 6} {o : SPairOp} : sopMap[x.toNat]? = some o ↔ x = BitVec.ofNat 6 o.code := by
  cases o <;> revert x <;> decide

theorem vopMap_getElem?_eq_some_iff {x : BitVec 6} {o : VPairOp} : vopMap[x.toNat]? = some o ↔ x = BitVec.ofNat 6 o.code := by
  cases o <;> revert x <;> decide

/-! ### Formats -/

theorem setWidth_seven_eq_iff {x : BitVec 7} {m : BitVec 17} : x.setWidth 17 = m ↔ m.toNat < 128 ∧ x = m.setWidth 7 := by
  have hx : x.toNat < 128 := x.isLt
  simp only [BitVec.toNat_eq, BitVec.toNat_setWidth]
  omega

/-- Bits [63:0] of a V64 or X128 word, with the modifier of 7 bits (R21, R36). -/
theorem decodeFields64_eq_some_iff {w : BitVec 128} {fmt : Fmt} {f : Fields} : decodeFields64 w fmt = some f ↔
    f.fmt = fmt ∧ f.m.toNat < 128 ∧ w.extractLsb' 0 64 = encodeFields64 (w.extractLsb' 0 2) (w.extractLsb' 2 8) f := by
  obtain ⟨ft, g, d, a, b, c, pol, m⟩ := f
  have hword : w.extractLsb' 0 64 = encodeFields64 (w.extractLsb' 0 2) (w.extractLsb' 2 8) ⟨ft, g, d, a, b, c, pol, m⟩ ↔
      w.extractLsb' 57 7 = m.setWidth 7 ∧ w.extractLsb' 54 3 = pol ∧ w.extractLsb' 44 10 = encodeOpnd c ∧
      w.extractLsb' 34 10 = encodeOpnd b ∧ w.extractLsb' 24 10 = encodeOpnd a ∧ w.extractLsb' 14 10 = encodeOpnd d ∧
      w.extractLsb' 10 4 = g := by
    show w.extractLsb' 0 (7 + 3 + 10 + 10 + 10 + 10 + 4 + 8 + 2) = _ ↔ _
    simp only [encodeFields64, extractLsb'_eq_append_iff, and_assoc]
    simp only [Nat.zero_add, Nat.reduceAdd, and_true]
  rw [hword]
  simp only [decodeFields64, Option.bind_eq_bind, Option.bind_eq_some_iff, decodeOpnd_eq_some_iff, Option.pure_def,
    Option.some.injEq, Fields.mk.injEq, setWidth_seven_eq_iff]
  constructor
  · rintro ⟨d, hd, a, ha, b, hb, c, hc, rfl, rfl, rfl, rfl, rfl, rfl, rfl, hm, hx⟩
    exact ⟨rfl, hm, hx, rfl, hc, hb, ha, hd, rfl⟩
  · rintro ⟨rfl, hm, hx, rfl, hc, hb, ha, hd, rfl⟩
    exact ⟨d, hd, a, ha, b, hb, c, hc, rfl, rfl, rfl, rfl, rfl, rfl, rfl, hm, hx⟩

/-- A W96 word, which has no C field (R35). -/
theorem decodeFields96_eq_some_iff {w : BitVec 128} {f : Fields} (hlen : w.extractLsb' 0 2 = 0b10#2) :
    decodeFields96 w = some f ↔
      f.c = .v 0 ∧ ∃ imm, f.fmt = .w96 imm ∧ w.extractLsb' 0 96 = encodeFields96 (w.extractLsb' 2 8) f imm := by
  obtain ⟨ft, g, d, a, b, c, pol, m⟩ := f
  have hword : ∀ imm, w.extractLsb' 0 96 = encodeFields96 (w.extractLsb' 2 8) ⟨ft, g, d, a, b, c, pol, m⟩ imm ↔
      w.extractLsb' 64 32 = imm ∧ w.extractLsb' 47 17 = m ∧ w.extractLsb' 44 3 = pol ∧ w.extractLsb' 34 10 = encodeOpnd b ∧
      w.extractLsb' 24 10 = encodeOpnd a ∧ w.extractLsb' 14 10 = encodeOpnd d ∧ w.extractLsb' 10 4 = g := fun imm => by
    show w.extractLsb' 0 (32 + 17 + 3 + 10 + 10 + 10 + 4 + 8 + 2) = _ ↔ _
    simp only [encodeFields96, extractLsb'_eq_append_iff, and_assoc]
    simp only [Nat.zero_add, Nat.reduceAdd, hlen, and_true]
  simp only [hword, decodeFields96, Option.bind_eq_bind, Option.bind_eq_some_iff, decodeOpnd_eq_some_iff, Option.pure_def,
    Option.some.injEq, Fields.mk.injEq]
  constructor
  · rintro ⟨d, hd, a, ha, b, hb, rfl, rfl, rfl, rfl, rfl, rfl, rfl, rfl⟩
    exact ⟨rfl, _, rfl, rfl, rfl, rfl, hb, ha, hd, rfl⟩
  · rintro ⟨rfl, _, rfl, rfl, rfl, rfl, hb, ha, hd, rfl⟩
    exact ⟨d, hd, a, ha, b, hb, rfl, rfl, rfl, rfl, rfl, rfl, rfl, rfl⟩

theorem getLsbD_eq_iff {k i : Nat} {w : BitVec k} {b : Bool} : w.getLsbD i = b ↔ w.extractLsb' i 1 = BitVec.ofBool b := by
  rw [BitVec.getLsbD_eq_extractLsb']
  generalize w.extractLsb' i 1 = x
  revert x b
  decide

/-- A P64 word, whose bit 34 is zero (R37). -/
theorem decodePairFields_eq_some_iff {w : BitVec 128} {p : PairFields} (hlen : w.extractLsb' 0 2 = 0b01#2) :
    (w.getLsbD 34 = false ∧ decodePairFields w = some p) ↔ w.extractLsb' 0 64 = encodePair p := by
  obtain ⟨g, sop, sd, sa, sb, vop, vd, va, vb, pol⟩ := p
  have hword : w.extractLsb' 0 64 = encodePair ⟨g, sop, sd, sa, sb, vop, vd, va, vb, pol⟩ ↔
      w.extractLsb' 63 1 = BitVec.ofBool pol ∧ w.extractLsb' 57 6 = encodeVB vb ∧ w.extractLsb' 49 8 = va ∧
      w.extractLsb' 41 8 = vd ∧ w.extractLsb' 35 6 = BitVec.ofNat 6 vop.code ∧ w.extractLsb' 34 1 = 0b0#1 ∧
      w.extractLsb' 26 8 = encodeSB sb ∧ w.extractLsb' 19 7 = sa ∧ w.extractLsb' 12 7 = sd ∧
      w.extractLsb' 6 6 = BitVec.ofNat 6 sop.code ∧ w.extractLsb' 2 4 = g := by
    show w.extractLsb' 0 (1 + 6 + 8 + 8 + 6 + 1 + 8 + 7 + 7 + 6 + 4 + 2) = _ ↔ _
    simp only [encodePair, extractLsb'_eq_append_iff, and_assoc]
    simp only [Nat.zero_add, Nat.reduceAdd, hlen, and_true]
  rw [hword]
  simp only [decodePairFields, Option.bind_eq_bind, Option.bind_eq_some_iff, sopMap_getElem?_eq_some_iff,
    vopMap_getElem?_eq_some_iff, decodeVB_eq_some_iff, Option.pure_def, Option.some.injEq, PairFields.mk.injEq, decodeSB_eq_iff,
    getLsbD_eq_iff, BitVec.ofBool_false]
  constructor
  · rintro ⟨h34, sop, hsop, vop, hvop, vb, hvb, rfl, rfl, rfl, rfl, hsb, rfl, rfl, rfl, rfl, hpol⟩
    exact ⟨hpol, hvb, rfl, rfl, hvop, h34, hsb, rfl, rfl, hsop, rfl⟩
  · rintro ⟨hpol, hvb, rfl, rfl, hvop, h34, hsb, rfl, rfl, hsop, rfl⟩
    exact ⟨h34, sop, hsop, vop, hvop, vb, hvb, rfl, rfl, rfl, rfl, hsb, rfl, rfl, rfl, rfl, hpol⟩

/-! ### Instructions -/

/-- The opcodes whose entry a selector in the modifier chooses (R51). -/
def selectorOps : List Nat := [0x11, 0x16, 0x1d, 0x60, 0xc7, 0xc9, 0xcd, 0xe1]

section
variable {n : Nat} {f : Fields} {i : Instr}

theorem opFields_of_selected (hn : n ∈ selectorOps) (h : Instr.ofOp n f = some i) :
    i.opFields = some (BitVec.ofNat 8 n, f) := by
  fin_cases hn
  · replace h : (match f.mbits 2 0 with
      | 0 => some (.kAnd f) | 1 => some (.kOr f) | 2 => some (.kXor f) | 3 => some (.kAndn f) | 4 => some (.kNot f)
      | 5 => some (.kMov f) | _ => none) = some i := h
    split at h <;> cases h <;> rfl
  · replace h : (match f.mbits 0 0 with | 0 => some (.kTestAny f) | 1 => some (.kTestAll f) | _ => none) = some i := h
    split at h <;> cases h <;> rfl
  · replace h : (match f.mbits 0 0 with | 0 => some (.feWait f) | 1 => some (.feWaitAll f) | _ => none) = some i := h
    split at h <;> cases h <;> rfl
  · replace h : (match f.mbits 5 4 with
      | 0 => some (.shflIdx f) | 1 => some (.shflXor f) | 2 => some (.shflUp f) | 3 => some (.shflDown f) | _ => none) =
      some i := h
    split at h <;> cases h <;> rfl
  · replace h : (match f.mbits 0 0 with | 0 => some (.pgInvVa f) | 1 => some (.pgInvCtx f) | _ => none) = some i := h
    split at h <;> cases h <;> rfl
  · replace h : (match f.mbits 1 0 with
      | 0 => some (.bar f) | 1 => some (.barArv f) | 2 => some (.barWait f) | 3 => some (.barDev f) | _ => none) = some i := h
    split at h <;> cases h <;> rfl
  · replace h : (match f.mbits 0 0 with | 0 => some (.join f) | 1 => some (.joinInc f) | _ => none) = some i := h
    split at h <;> cases h <;> rfl
  · replace h : (match f.mbits 2 2 with | 0 => some (.rtTri f) | 1 => some (.rtTriReg f) | _ => none) = some i := h
    split at h <;> cases h <;> rfl

/-- The instruction of an opcode and fields has that opcode and those fields (R49, R51). -/
theorem opFields_of_ofOp (hn : n < 256) (h : Instr.ofOp n f = some i) : i.opFields = some (BitVec.ofNat 8 n, f) := by
  by_cases hs : n ∈ selectorOps
  · exact opFields_of_selected hs h
  · have hrange : n < 0x11 ∨ (0x12 ≤ n ∧ n < 0x16) ∨ (0x17 ≤ n ∧ n < 0x1d) ∨ (0x1e ≤ n ∧ n < 0x60) ∨ (0x61 ≤ n ∧ n < 0xc7) ∨
        (0xc8 ≤ n ∧ n < 0xc9) ∨ (0xca ≤ n ∧ n < 0xcd) ∨ (0xce ≤ n ∧ n < 0xe1) ∨ 0xe2 ≤ n := by
      simp only [selectorOps, List.mem_cons, List.not_mem_nil, or_false, not_or] at hs
      omega
    clear hs
    rcases hrange with hn | ⟨hlo, hhi⟩ | ⟨hlo, hhi⟩ | ⟨hlo, hhi⟩ | ⟨hlo, hhi⟩ | ⟨hlo, hhi⟩ | ⟨hlo, hhi⟩ | ⟨hlo, hhi⟩ | hlo
    all_goals interval_cases n <;> cases h <;> rfl

end

section
variable {i : Instr} {op : BitVec 8} {f : Fields}

/-- An instruction with operand fields is well-formed where its entry accepts them (R40 check 3). -/
theorem wf_iff_of_opFields (h : i.opFields = some (op, f)) :
    i.wf = true ↔ Instr.ofOp op.toNat f = some i ∧ ∃ g, i.sig = some g ∧ g.ok f = true := by
  unfold Instr.wf
  split
  · cases h
  · cases h
  · rw [h]
    cases hs : i.sig with
    | none => simp
    | some g => simp

theorem bytes_of_opFields (h : i.opFields = some (op, f)) :
    i.bytes = Machine.fieldsBytes f := by
  unfold Instr.bytes
  split
  · cases h
  · cases h
  · rw [h]; rfl

theorem encodeBits_of_opFields (h : i.opFields = some (op, f)) : encodeBits i = encodeFields op f := by
  unfold encodeBits
  split
  · cases h
  · cases h
  · rw [h]

theorem opLengths_of_sig {g : Sig} (ho : i.opFields = some (op, f)) (hg : i.sig = some g) :
    ∃ l, opLengths op.toNat = some l ∧ (g.v = true → l.has .v64 = true) ∧ (g.w = true → l.has (.w96 0) = true) ∧
      (g.x = true → l.has (.x128 0) = true) := by
  have h : ((opLengths op.toNat).any fun l =>
      (!g.v || l.has .v64) && (!g.w || l.has (.w96 0)) && (!g.x || l.has (.x128 0))) = true := by
    cases i with
    | _ => cases ho <;> cases hg <;> rfl
  simpa [Option.any_eq_true, and_assoc, imp_iff_not_or] using h

theorem instrOfFields_eq_ok_iff {x : Option Fields} : instrOfFields op x = .ok i ↔
    ∃ f, x = some f ∧ i.opFields = some (op, f) ∧ i.wf = true := by
  constructor
  · intro h
    unfold instrOfFields at h
    split at h
    · cases h
    · next f =>
      split at h
      · cases h
      · next j hj =>
        split at h
        · cases h
        · next g hg =>
          split_ifs at h with hok
          cases h
          have ho : i.opFields = some (op, f) := by simpa using opFields_of_ofOp op.isLt hj
          exact ⟨f, rfl, ho, (wf_iff_of_opFields ho).2 ⟨hj, g, hg, hok⟩⟩
  · rintro ⟨f, rfl, ho, hw⟩
    obtain ⟨hi, g, hg, hok⟩ := (wf_iff_of_opFields ho).1 hw
    simp only [instrOfFields, hi, hg, hok, if_true]

/-- The lengths of an instruction's entry are those at which its opcode is assigned, and the modifier fits its format. -/
theorem formatOk_of_wf (ho : i.opFields = some (op, f)) (hw : i.wf = true) :
    (∃ l, opLengths op.toNat = some l ∧ l.has f.fmt = true) ∧ (f.isW = false → f.m.toNat < 128) ∧
      (f.isW = true → f.c = .v 0) := by
  obtain ⟨-, g, hg, hok⟩ := (wf_iff_of_opFields ho).1 hw
  obtain ⟨l, hl, hv, hw, hx⟩ := opLengths_of_sig ho hg
  simp only [Sig.ok, Bool.and_eq_true, Bool.or_eq_true, decide_eq_true_eq] at hok
  obtain ⟨⟨⟨⟨⟨⟨⟨⟨hfmt, hm⟩, -⟩, -⟩, -⟩, -⟩, hc⟩, -⟩, -⟩ := hok
  refine ⟨⟨l, hl, ?_⟩, fun h => by simpa [h] using hm, fun h => by simpa [h] using hc⟩
  cases hf : f.fmt with
  | v64 => exact hv (by simpa [hf] using hfmt)
  | w96 imm =>
    have himm : l.has (.w96 imm) = l.has (.w96 0) := by cases l <;> rfl
    exact himm.trans (hw (by simpa [hf] using hfmt))
  | x128 ext =>
    have hext : l.has (.x128 ext) = l.has (.x128 0) := by cases l <;> rfl
    exact hext.trans (hx (by simpa [hf] using hfmt))
end

/-! ### The first bytes of a word -/

theorem lengthOf_setWidth {w : BitVec 128} {x : BitVec 2} (h : w.extractLsb' 0 2 = x) :
    lengthOf (w.setWidth 8) = lengthOf (x.setWidth 8) := by
  have hx : ∀ x : BitVec 2, (x.setWidth 8 : BitVec 8).extractLsb' 0 2 = x := by decide
  rw [lengthOf, lengthOf, hx, BitVec.extractLsb'_setWidth_of_le (by omega), h]

section
variable {w : BitVec 128} (hl : illegalBits w = false)
include hl

theorem decodeBits_v64 (h : w.extractLsb' 0 2 = 0#2) :
    decodeBits w = instrOfFields (w.extractLsb' 2 8) (decodeFields64 w .v64) := by
  simp [decodeBits, hl, h]

theorem decodeBits_w96 (h : w.extractLsb' 0 2 = 2#2) :
    decodeBits w = instrOfFields (w.extractLsb' 2 8) (decodeFields96 w) := by
  simp [decodeBits, hl, h]

theorem decodeBits_x128 (h : w.extractLsb' 0 2 = 3#2) :
    decodeBits w = instrOfFields (w.extractLsb' 2 8) (decodeFields64 w (.x128 (w.extractLsb' 64 64))) := by
  simp [decodeBits, hl, h]

theorem decodeBits_p64_eq_ok_iff {i : Instr} (h : w.extractLsb' 0 2 = 1#2) :
    decodeBits w = .ok i ↔ ∃ p, i = .pair p ∧ p.ok = true ∧ w.extractLsb' 0 64 = encodePair p := by
  have hcode : (w.extractLsb' 0 2).toNat = 1 := by rw [h]; rfl
  simp only [decodeBits, hl, hcode, ← decodePairFields_eq_some_iff h, Bool.false_eq_true, if_false]
  cases h34 : w.getLsbD 34 with
  | true => simp
  | false =>
    cases hp : decodePairFields w with
    | none => simp
    | some p =>
      constructor
      · intro hd
        rw [if_neg (by simp)] at hd
        dsimp only at hd
        split_ifs at hd with hok
        exact ⟨p, (Except.ok.inj hd).symm, hok, rfl, rfl⟩
      · rintro ⟨p', rfl, hok, -, hp'⟩
        cases hp'
        simp [hok]
end

/-! ### Words that are no instruction (R40 check 2, R59) -/

theorem illegalBits_congr {w x : BitVec 128} (h : w.toNat % 2 ^ 64 = x.toNat % 2 ^ 64) : illegalBits w = illegalBits x := by
  simp only [illegalBits, extractLsb'_congr h (s := 0) (l := 2) (by omega), extractLsb'_congr h (s := 2) (l := 8) (by omega),
    extractLsb'_congr h (s := 6) (l := 6) (by omega), extractLsb'_congr h (s := 35) (l := 6) (by omega)]

theorem lengthOf_cases (b : Byte) : lengthOf b = 8 ∨ lengthOf b = 12 ∨ lengthOf b = 16 := by
  revert b; decide

/-- The word of an illegal encoding: as many of the bits as its length says. -/
def illegalWord (w : BitVec 128) : BitVec 128 := BitVec.ofNat 128 (w.toNat % 2 ^ (8 * lengthOf (w.setWidth 8)))

theorem decodeBits_illegal {w : BitVec 128} (h : illegalBits w = true) : decodeBits w = .ok (.illegalOp (illegalWord w)) := by
  rw [decodeBits, if_pos h]; rfl

theorem illegalWord_toNat (w : BitVec 128) : (illegalWord w).toNat = w.toNat % 2 ^ (8 * lengthOf (w.setWidth 8)) := by
  rw [illegalWord, BitVec.toNat_ofNat]
  exact Nat.mod_eq_of_lt (Nat.lt_of_le_of_lt (Nat.mod_le _ _) w.isLt)

theorem illegalWord_low (w : BitVec 128) : (illegalWord w).toNat % 2 ^ 64 = w.toNat % 2 ^ 64 := by
  rw [illegalWord_toNat]
  exact Nat.mod_mod_of_dvd _ (Nat.pow_dvd_pow 2 (by have := lengthOf_cases (w.setWidth 8); omega))

/-- The first byte of a word lies in its low 64 bits. -/
theorem setWidth_congr {w x : BitVec 128} (h : w.toNat % 2 ^ 64 = x.toNat % 2 ^ 64) :
    (w.setWidth 8 : BitVec 8) = x.setWidth 8 := by
  rw [BitVec.setWidth_eq_extractLsb' (by omega), BitVec.setWidth_eq_extractLsb' (by omega), extractLsb'_congr h (by omega)]

/-! ### What the decoder accepts -/

/-- An instruction is encoded by the bits of a word that its length takes, and by no others. -/
structure Reads (w : BitVec 128) (i : Instr) : Prop where
  wf : i.wf = true
  bytes : i.bytes = lengthOf (w.setWidth 8)
  bits : (encodeBits i).toNat = w.toNat % 2 ^ (8 * i.bytes)

theorem Reads.encoded {w : BitVec 128} {i : Instr} (h : Reads w i) : i.encoded = true := by
  have := lengthOf_cases (w.setWidth 8)
  have hb := h.bytes
  simp only [Instr.encoded, decide_eq_true_eq]
  omega

theorem reads_illegalOp {w : BitVec 128} (h : illegalBits w = true) : Reads w (.illegalOp (illegalWord w)) := by
  have hlow := illegalWord_low w
  have hbytes : (Instr.illegalOp (illegalWord w)).bytes = lengthOf (w.setWidth 8) := congrArg lengthOf (setWidth_congr hlow)
  refine ⟨?_, hbytes, by rw [hbytes]; exact illegalWord_toNat w⟩
  change (illegalBits (illegalWord w) && decide ((illegalWord w).toNat < 2 ^ (8 * lengthOf ((illegalWord w).setWidth 8)))) = true
  rw [illegalBits_congr hlow, h, setWidth_congr hlow, illegalWord_toNat]
  simpa using Nat.mod_lt _ (by positivity)

theorem reads_pair {w : BitVec 128} {p : PairFields} (h : w.extractLsb' 0 2 = 1#2) (hok : p.ok = true)
    (hw : w.extractLsb' 0 64 = encodePair p) : Reads w (.pair p) := by
  refine ⟨hok, (lengthOf_setWidth h).symm, ?_⟩
  change ((encodePair p).setWidth 128).toNat = w.toNat % 2 ^ 64
  rw [← hw, BitVec.toNat_setWidth_of_le (by omega), toNat_extractLsb'_zero]

section
variable {w : BitVec 128} {i : Instr} {f : Fields} (ho : i.opFields = some (w.extractLsb' 2 8, f)) (hi : i.wf = true)
include ho hi

theorem reads_v64 (h : w.extractLsb' 0 2 = 0#2) (hf : decodeFields64 w .v64 = some f) : Reads w i := by
  obtain ⟨hfmt, -, hw⟩ := decodeFields64_eq_some_iff.1 hf
  have hbytes : i.bytes = 8 := by rw [bytes_of_opFields ho, Machine.fieldsBytes, hfmt]
  refine ⟨hi, hbytes.trans (lengthOf_setWidth h).symm, ?_⟩
  rw [encodeBits_of_opFields ho, hbytes, encodeFields, hfmt]
  dsimp only
  rw [BitVec.toNat_setWidth_of_le (by omega), ← toNat_extractLsb'_zero, hw, h]
  rfl

theorem reads_w96 (h : w.extractLsb' 0 2 = 2#2) (hf : decodeFields96 w = some f) : Reads w i := by
  obtain ⟨-, imm, hfmt, hw⟩ := (decodeFields96_eq_some_iff h).1 hf
  have hbytes : i.bytes = 12 := by rw [bytes_of_opFields ho, Machine.fieldsBytes, hfmt]
  refine ⟨hi, hbytes.trans (lengthOf_setWidth h).symm, ?_⟩
  rw [encodeBits_of_opFields ho, hbytes, encodeFields, hfmt]
  dsimp only
  rw [BitVec.toNat_setWidth_of_le (by omega), ← toNat_extractLsb'_zero, hw]

theorem reads_x128 (h : w.extractLsb' 0 2 = 3#2) (hf : decodeFields64 w (.x128 (w.extractLsb' 64 64)) = some f) : Reads w i := by
  obtain ⟨hfmt, -, hw⟩ := decodeFields64_eq_some_iff.1 hf
  have hbytes : i.bytes = 16 := by rw [bytes_of_opFields ho, Machine.fieldsBytes, hfmt]
  refine ⟨hi, hbytes.trans (lengthOf_setWidth h).symm, ?_⟩
  rw [encodeBits_of_opFields ho, hbytes, encodeFields, hfmt]
  dsimp only
  rw [h] at hw
  change (w.extractLsb' 64 64 ++ encodeFields64 3#2 (w.extractLsb' 2 8) f).toNat = _
  rw [← hw, BitVec.extractLsb'_append_extractLsb', Nat.mod_eq_of_lt w.isLt]

end

theorem reads_of_decodeBits {w : BitVec 128} {i : Instr} (h : decodeBits w = .ok i) : Reads w i := by
  cases hl : illegalBits w with
  | true =>
    rw [decodeBits_illegal hl] at h
    cases h
    exact reads_illegalOp hl
  | false =>
    have hcode : ∀ x : BitVec 2, x = 0#2 ∨ x = 1#2 ∨ x = 2#2 ∨ x = 3#2 := by decide
    rcases hcode (w.extractLsb' 0 2) with hc | hc | hc | hc
    · rw [decodeBits_v64 hl hc] at h
      obtain ⟨f, hf, ho, hi⟩ := instrOfFields_eq_ok_iff.1 h
      exact reads_v64 ho hi hc hf
    · obtain ⟨p, rfl, hok, hw⟩ := (decodeBits_p64_eq_ok_iff hl hc).1 h
      exact reads_pair hc hok hw
    · rw [decodeBits_w96 hl hc] at h
      obtain ⟨f, hf, ho, hi⟩ := instrOfFields_eq_ok_iff.1 h
      exact reads_w96 ho hi hc hf
    · rw [decodeBits_x128 hl hc] at h
      obtain ⟨f, hf, ho, hi⟩ := instrOfFields_eq_ok_iff.1 h
      exact reads_x128 ho hi hc hf

/-- Settles O3: a word that decodes is read by its instruction. -/
theorem encodeDecodeAgree : Obligations.EncodeDecodeAgree := by
  intro w i h
  have hr := reads_of_decodeBits h
  exact ⟨hr.wf, hr.encoded, hr.bytes, hr.bits⟩

/-! ### What the encoder writes -/

theorem head_of_encodeFields64 {w : BitVec 128} {len : BitVec 2} {op : BitVec 8} {f : Fields}
    (h : w.extractLsb' 0 64 = encodeFields64 len op f) : w.extractLsb' 0 2 = len ∧ w.extractLsb' 2 8 = op := by
  replace h : w.extractLsb' 0 (54 + 8 + 2) = _ := h
  simp only [encodeFields64, extractLsb'_eq_append_iff (m := 54) (n := 8), extractLsb'_eq_append_iff (m := 54 + 8)] at h
  exact ⟨h.2, h.1.2⟩

theorem head_of_encodeFields96 {w : BitVec 128} {op : BitVec 8} {f : Fields} {imm : Word}
    (h : w.extractLsb' 0 96 = encodeFields96 op f imm) : w.extractLsb' 0 2 = 0b10#2 ∧ w.extractLsb' 2 8 = op := by
  replace h : w.extractLsb' 0 (86 + 8 + 2) = _ := h
  simp only [encodeFields96, extractLsb'_eq_append_iff (m := 86) (n := 8), extractLsb'_eq_append_iff (m := 86 + 8)] at h
  exact ⟨h.2, h.1.2⟩

theorem head_of_encodePair {w : BitVec 128} {p : PairFields} (h : w.extractLsb' 0 64 = encodePair p) :
    w.extractLsb' 0 2 = 0b01#2 := by
  replace h : w.extractLsb' 0 (62 + 2) = _ := h
  simp only [encodePair, extractLsb'_eq_append_iff (m := 62)] at h
  exact h.2

section
variable {i : Instr} {op : BitVec 8} {f : Fields} {w : BitVec 128} (ho : i.opFields = some (op, f)) (hi : i.wf = true)
include ho hi

theorem decodeBits_of_v64 (hf : f.fmt = .v64) (hw : w.extractLsb' 0 64 = encodeFields64 0b00#2 op f) :
    decodeBits w = .ok i := by
  obtain ⟨hlen, hop⟩ := head_of_encodeFields64 hw
  obtain ⟨⟨l, hl, hhas⟩, hm, -⟩ := formatOk_of_wf ho hi
  have hlegal : illegalBits w = false := by simp [illegalBits, hlen, hop, hl, ← hf, hhas]
  have hfields : decodeFields64 w .v64 = some f :=
    decodeFields64_eq_some_iff.2 ⟨hf, hm (by simp [Fields.isW, hf]), by rw [hlen, hop, hw]⟩
  rw [decodeBits_v64 hlegal hlen, instrOfFields_eq_ok_iff]
  exact ⟨f, hfields, hop ▸ ho, hi⟩

theorem decodeBits_of_w96 {imm : Word} (hf : f.fmt = .w96 imm) (hw : w.extractLsb' 0 96 = encodeFields96 op f imm) :
    decodeBits w = .ok i := by
  obtain ⟨hlen, hop⟩ := head_of_encodeFields96 hw
  obtain ⟨⟨l, hl, hhas⟩, -, hc⟩ := formatOk_of_wf ho hi
  have himm : l.has (.w96 0#32) = true := by rw [← hhas, hf]; cases l <;> rfl
  have hlegal : illegalBits w = false := by simp [illegalBits, hlen, hop, hl, himm]
  have hfields : decodeFields96 w = some f :=
    (decodeFields96_eq_some_iff hlen).2 ⟨hc (by simp [Fields.isW, hf]), imm, hf, by rw [hop, hw]⟩
  rw [decodeBits_w96 hlegal hlen, instrOfFields_eq_ok_iff]
  exact ⟨f, hfields, hop ▸ ho, hi⟩

theorem decodeBits_of_x128 {ext : Word64} (hf : f.fmt = .x128 ext) (hx : w.extractLsb' 64 64 = ext)
    (hw : w.extractLsb' 0 64 = encodeFields64 0b11#2 op f) : decodeBits w = .ok i := by
  obtain ⟨hlen, hop⟩ := head_of_encodeFields64 hw
  obtain ⟨⟨l, hl, hhas⟩, hm, -⟩ := formatOk_of_wf ho hi
  have hext : l.has (.x128 0#64) = true := by rw [← hhas, hf]; cases l <;> rfl
  have hlegal : illegalBits w = false := by simp [illegalBits, hlen, hop, hl, hext]
  have hfields : decodeFields64 w (.x128 (w.extractLsb' 64 64)) = some f :=
    decodeFields64_eq_some_iff.2 ⟨by rw [hf, hx], hm (by simp [Fields.isW, hf]), by rw [hlen, hop, hw]⟩
  rw [decodeBits_x128 hlegal hlen, instrOfFields_eq_ok_iff]
  exact ⟨f, hfields, hop ▸ ho, hi⟩

theorem decodeBits_encodeFields : decodeBits (encodeFields op f) = .ok i := by
  cases hf : f.fmt with
  | v64 =>
    refine decodeBits_of_v64 ho hi hf ?_
    rw [encodeFields, hf]
    dsimp only
    rw [BitVec.extractLsb'_setWidth_of_le (by omega), BitVec.extractLsb'_eq_self]
    rfl
  | w96 imm =>
    refine decodeBits_of_w96 ho hi hf ?_
    rw [encodeFields, hf]
    dsimp only
    rw [BitVec.extractLsb'_setWidth_of_le (by omega), BitVec.extractLsb'_eq_self]
  | x128 ext =>
    have hword : encodeFields op f = ext ++ encodeFields64 0b11#2 op f := by rw [encodeFields, hf]; rfl
    rw [hword]
    exact decodeBits_of_x128 ho hi hf BitVec.extractLsb'_append_eq_left BitVec.extractLsb'_append_eq_right

end

/-- A pair's word has assigned operations (R52, R53). -/
theorem ops_assigned_of_decodePairFields {w : BitVec 128} {p : PairFields} (h : decodePairFields w = some p) :
    (w.extractLsb' 6 6).toNat < sopMap.length ∧ (w.extractLsb' 35 6).toNat < vopMap.length := by
  simp only [decodePairFields, Option.bind_eq_bind, Option.bind_eq_some_iff] at h
  obtain ⟨sop, hsop, vop, hvop, -⟩ := h
  exact ⟨(List.getElem?_eq_some_iff.1 hsop).1, (List.getElem?_eq_some_iff.1 hvop).1⟩

theorem decodeBits_of_pair {p : PairFields} {w : BitVec 128} (hok : p.ok = true) (hw : w.extractLsb' 0 64 = encodePair p) :
    decodeBits w = .ok (.pair p) := by
  have hlen := head_of_encodePair hw
  obtain ⟨hs, hv⟩ := ops_assigned_of_decodePairFields ((decodePairFields_eq_some_iff hlen).2 hw).2
  have hlegal : illegalBits w = false := by
    simp only [illegalBits, hlen]
    change (decide (_ ≤ _) || decide (_ ≤ _)) = false
    rw [decide_eq_false (Nat.not_le.2 hs), decide_eq_false (Nat.not_le.2 hv)]
    rfl
  exact (decodeBits_p64_eq_ok_iff hlegal hlen).2 ⟨p, rfl, hok, hw⟩

theorem decodeBits_of_illegal {w : BitVec 128} (hi : illegalBits w = true) (hw : w.toNat < 2 ^ (8 * lengthOf (w.setWidth 8))) :
    decodeBits w = .ok (.illegalOp w) := by
  have hword : illegalWord w = w := by
    apply BitVec.eq_of_toNat_eq
    rw [illegalWord_toNat, Nat.mod_eq_of_lt hw]
  rw [decodeBits_illegal hi, hword]

/-- Only pairs, illegal words and instructions with operand fields have an encoding. -/
theorem cases_of_encoded {i : Instr} (h : i.encoded = true) :
    (∃ p, i = .pair p) ∨ (∃ w, i = .illegalOp w) ∨ ∃ op f, i.opFields = some (op, f) := by
  rw [Instr.encoded, decide_eq_true_eq, Instr.bytes.eq_def] at h
  split at h
  · next p => exact .inl ⟨p, rfl⟩
  · next w => exact .inr (.inl ⟨w, rfl⟩)
  · split at h
    · next op f ho => exact .inr (.inr ⟨op, f, ho⟩)
    · exact absurd rfl h

theorem decodeBits_encodeBits {i : Instr} (hi : i.wf = true) (he : i.encoded = true) : decodeBits (encodeBits i) = .ok i := by
  rcases cases_of_encoded he with ⟨p, rfl⟩ | ⟨w, rfl⟩ | ⟨op, f, ho⟩
  · refine decodeBits_of_pair hi ?_
    change ((encodePair p).setWidth 128).extractLsb' 0 64 = _
    rw [BitVec.extractLsb'_setWidth_of_le (by omega), BitVec.extractLsb'_eq_self]
  · replace hi : (illegalBits w && decide (w.toNat < 2 ^ (8 * lengthOf (w.setWidth 8)))) = true := hi
    rw [Bool.and_eq_true, decide_eq_true_eq] at hi
    exact decodeBits_of_illegal hi.1 hi.2
  · rw [encodeBits_of_opFields ho]
    exact decodeBits_encodeFields ho hi

/-- The bytes of a word that its length takes decode as the word, whatever bytes follow. -/
theorem decode_bytesOfNat {w : BitVec 128} {i : Instr} (rest : List Byte) (hd : decodeBits w = .ok i)
    (hw : w.toNat < 2 ^ (8 * lengthOf (w.setWidth 8))) :
    decode (bytesOfNat (lengthOf (w.setWidth 8)) w.toNat ++ rest) = .ok (i, rest) := by
  obtain ⟨n, hn⟩ : ∃ n, lengthOf (w.setWidth 8) = n + 1 :=
    ⟨lengthOf (w.setWidth 8) - 1, by have := lengthOf_cases (w.setWidth 8); omega⟩
  have hlen : (bytesOfNat (n + 1) w.toNat).length = n + 1 := bytesOfNat_length _ _
  have hnat : natOfBytes (bytesOfNat (n + 1) w.toNat) = w.toNat := by
    rw [Machine.natOfBytes_bytesOfNat, show 256 = 2 ^ 8 by rfl, ← Nat.pow_mul, ← hn, Nat.mod_eq_of_lt hw]
  have htake := List.take_left' (l₂ := rest) hlen
  have hdrop := List.drop_left' (l₂ := rest) hlen
  rw [hn]
  generalize hbs : bytesOfNat (n + 1) w.toNat ++ rest = bs at *
  cases bs with
  | nil => simp [bytesOfNat] at hbs
  | cons b r =>
    have hb : b = w.setWidth 8 := by
      rw [bytesOfNat, List.cons_append] at hbs
      rw [← (List.cons.inj hbs).1]
      exact BitVec.ofNat_toNat _ _
    have hlong : ¬ (b :: r).length < n + 1 := by
      rw [← hbs, List.length_append, hlen]; omega
    simp only [decode, hb, hn]
    rw [hb] at hlong htake hdrop
    rw [if_neg hlong, htake, hdrop, hnat, BitVec.ofNat_toNat, BitVec.setWidth_eq, hd]

/-- Settles O2: the encoder's word decodes to its instruction, whose length takes exactly the encoder's bytes. -/
theorem decodeEncodeAgree : Obligations.DecodeEncodeAgree := by
  intro i rest hi he
  have hd := decodeBits_encodeBits hi he
  have hr := reads_of_decodeBits hd
  have hlt : (encodeBits i).toNat < 2 ^ (8 * lengthOf ((encodeBits i).setWidth 8)) := by
    have hbits := hr.bits
    rw [hr.bytes] at hbits
    rw [hbits]
    exact Nat.mod_lt _ (by positivity)
  rw [encode, hr.bytes]
  exact decode_bytesOfNat rest hd hlt

/-- Settles O1: the words, decoded. -/
theorem wordsOfTheManualDecode : Obligations.WordsOfTheManualDecode := by
  unfold Obligations.WordsOfTheManualDecode
  decide +kernel

end Sys2Proof
end

section
/-! Bytes that are no instruction (R20, R40, R59), control transfers, and the sequential successor (R19, R20, R22, R159). -/

namespace Sys2Proof.Machine

/-! ### Bytes that are no instruction -/

section
variable {s : State} {w : Wave} {bs : List Byte} {b : BitVec 128}

theorem State.fetchRun_split (hm : s.me = some w) (hb : s.heldBlock w = some bs) (hs : s.blockSound w)
    (hx : splits bs (w.pc.toNat % 32) = true) :
    s.fetchRun = s.trap 0x03 w.exec ((blockBits bs (w.pc.toNat % 32)).setWidth 64) := by
  simp [State.fetchRun, hm, State.fetch_held _ hb hs, hx]

/-- A word without an assigned opcode runs as ILLEGAL_OP on its own bits, whatever its length. -/
theorem State.run_illegal (hm : s.me = some w) (hr : w.rep = 0) (hi : illegalBits b = true) :
    s.run w b = s.trap 0x01 w.exec (b.setWidth 64) := by
  have hinfo : ((illegalWord b).setWidth 64 : BitVec 64) = b.setWidth 64 := by
    apply BitVec.eq_of_toNat_eq
    simpa using illegalWord_low b
  rw [State.run_decoded hr (decodeBits_illegal hi)]
  change s.trap 0x01 ((s.me.map Wave.exec).getD 0) ((illegalWord b).setWidth 64) = _
  rw [hm, hinfo]
  rfl

theorem State.run_reserved (hr : w.rep = 0) (hd : ∀ i, decodeBits b ≠ .ok i) :
    s.run w b = s.trap 0x02 w.exec (b.setWidth 64) := by
  cases h : decodeBits b with
  | ok i => exact absurd h (hd i)
  | error e => simp [State.run, hr, h]

end

/-- Settles O8: the block is held, so that its bytes alone choose the trap, in the order of R40. -/
theorem fetchTraps : Obligations.FetchTraps := by
  intro s w bs hm hb hs hr off b
  refine ⟨State.fetchRun_split hm hb hs, fun hx hi => ?_, fun hx _ hd => ?_⟩
  · rw [State.fetchRun_held hm hb hs hx, State.run_illegal hm hr hi]
  · rw [State.fetchRun_held hm hb hs hx, State.run_reserved hr hd]

/-! ### Control transfers -/

/-- Bits [1:0] of a target are cleared by rounding it down to a multiple of 4 (R19). -/
theorem alignPc_eq (x : Word64) : alignPc x = BitVec.ofNat 64 (x.toNat / 4 * 4) := by
  have hthree : ∀ i, (3 : Word64).getLsbD i = decide (i < 2) := fun i => by
    change (BitVec.ofNat 64 (2 ^ 2 - 1)).getLsbD i = _
    rw [BitVec.getLsbD_ofNat, Nat.testBit_two_pow_sub_one]
    simp only [Bool.and_eq_right_iff_imp, decide_eq_true_eq]
    omega
  apply BitVec.eq_of_getLsbD_eq
  intro i hi
  rw [alignPc, BitVec.getLsbD_and, BitVec.getLsbD_not, hthree, BitVec.getLsbD_ofNat, show 4 = 2 ^ 2 from rfl,
    Nat.testBit_mul_two_pow, Nat.testBit_div_two_pow]
  by_cases h2 : i < 2
  · simp [h2]
  · simp [hi, Nat.not_lt.1 h2, h2, BitVec.testBit_toNat]

section
variable {s : State} {w : Wave} {f : Fields} {t : Word64}

/-- A transfer to t, as R159 states it: the PC goes to t where t is canonical, and the wave traps where it is not. -/
def State.Transfers (s : State) (w : Wave) (o : Out) (t : Word64) (up : Wave) : Prop :=
  (canonical t = true → o = .next (s.setMe ({ up with wait := Wait.none }.goto t true))) ∧
  (canonical t = false → o = s.trap 0x20 w.exec (pageInfo t.toNat 2 0))

theorem State.jump_transfers (hm : s.me = some w) (up : Wave → Wave) : s.Transfers w (s.jump t up) t (up w) := by
  refine ⟨fun h => ?_, fun h => ?_⟩
  · rw [State.jump, if_pos h, s.modMe_eq w _ hm]
  · rw [State.jump, if_neg (by simp [h]), hm]; rfl

theorem exec_nop (h : s.runs w (.nop f) f .dest false = true) : exec (.nop f) s = .next (s.setMe (w.after f)) := by
  change execNop f s = _
  rw [execNop, State.front_runs _ h, s.finish_eq w f id (State.runs_me h)]
  rfl

theorem exec_bra (h : s.runs w (.bra f) f .dest false = true) : s.Transfers w (exec (.bra f) s) (relTarget w.pc f) w := by
  change s.Transfers w (execBra f s) _ _
  rw [execBra, State.front_runs _ h]
  exact State.jump_transfers (State.runs_me h) id

theorem exec_brez_taken (h : s.runs w (.brez f) f .dest false = true) (hk : w.readK f.a = 0) :
    s.Transfers w (exec (.brez f) s) (relTarget w.pc f) w := by
  change s.Transfers w (execBrez f s) _ _
  rw [execBrez, State.front_runs _ h, if_pos hk]
  exact State.jump_transfers (State.runs_me h) id

theorem exec_brez_not_taken (h : s.runs w (.brez f) f .dest false = true) (hk : w.readK f.a ≠ 0) :
    exec (.brez f) s = .next (s.setMe (w.after f)) := by
  change execBrez f s = _
  rw [execBrez, State.front_runs _ h, if_neg hk, s.finish_eq w f id (State.runs_me h)]
  rfl

theorem exec_brx (h : s.runs w (.brx f) f .dest false = true) :
    s.Transfers w (exec (.brx f) s) (alignPc (s.readS w (.int 64) f.a)) w := by
  change s.Transfers w (execBrx f s) _ _
  rw [execBrx, State.front_runs _ h]
  exact State.jump_transfers (State.runs_me h) id

theorem exec_ret (h : s.runs w (.ret f) f .dest false = true) :
    s.Transfers w (exec (.ret f) s) (alignPc (s.readS w (.int 64) f.a)) w := by
  change s.Transfers w (execRet f s) _ _
  rw [execRet, State.front_runs _ h]
  exact State.jump_transfers (State.runs_me h) id

theorem exec_call (h : s.runs w (.call f) f .dest false = true) :
    s.Transfers w (exec (.call f) s) (if f.isW then relTarget w.pc f else alignPc (s.readS w (.int 64) f.b))
      (w.putS f.d (seqNext w.pc (fieldsBytes f))) := by
  change s.Transfers w (execCall f s) _ _
  rw [execCall, State.front_runs _ h]
  exact State.jump_transfers (State.runs_me h) fun w => w.putS f.d (seqNext w.pc (fieldsBytes f))

end

theorem controlTransferCompletes : Claim.ControlTransferCompletes := by
  intro s w f
  simp only [← relTarget_eq, ← alignPc_eq]
  exact ⟨exec_nop, exec_bra, exec_brez_taken, exec_brez_not_taken, exec_brx, exec_ret, exec_call⟩

/-! ### The sequential successor -/

theorem toNat_add_ofNat_mod32 (pc : Word64) (n : Nat) : (pc + BitVec.ofNat 64 n).toNat % 32 = (pc.toNat + n) % 32 := by
  rw [BitVec.toNat_add, BitVec.toNat_ofNat, Nat.add_mod_mod, Nat.mod_mod_of_dvd _ (by decide)]

theorem successorSkipsOffset28 : Claim.SuccessorSkipsOffset28 := by
  intro pc n h4 hn hx
  have hsum := toNat_add_ofNat_mod32 pc n
  have hskip : (pc + BitVec.ofNat 64 n + 4).toNat % 32 = _ := toNat_add_ofNat_mod32 (pc + BitVec.ofNat 64 n) 4
  simp only [List.mem_cons, List.not_mem_nil, or_false] at hn
  unfold seqNext
  dsimp only
  split_ifs with h28
  · exact ⟨by omega, by omega, .inr ⟨h28, rfl⟩⟩
  · exact ⟨by omega, h28, .inl rfl⟩

/-- Settles O21: each transfer ends in a jump to its target, and 4 more than offset 28 begins a fetch block. -/
theorem controlTransfersComplete : Obligations.ControlTransfersComplete := ⟨controlTransferCompletes, successorSkipsOffset28⟩

end Sys2Proof.Machine
end

section
/-! The checks that come before an instruction's own work (R30, R31, R40, R49), and pairs (R37 to R39). -/

namespace Sys2Proof.Machine

/-! ### What the checks answer -/

section
variable {s : State} {w : Wave} {i : Instr} {f : Fields} {du : DUse} {always : Bool} {body : State → Wave → Out} {g : Sig}

theorem State.front_unprivileged (hm : s.me = some w) (hg : i.sig = some g) (hu : w.sup = false) (hp : instrPriv i = true) :
    s.front i f du always body = s.trap 0x04 w.exec (insnInfo i) := by
  unfold State.front
  simp [hm, hg, hu, hp]

theorem notPrivileged (hp : (w.sup || !instrPriv i) = true) : (!w.sup && instrPriv i) = false := by
  rw [← Bool.not_eq_true', Bool.not_and, Bool.not_not]
  exact hp

theorem State.front_regidx {info : Word64} (hm : s.me = some w) (hg : i.sig = some g) (hp : (w.sup || !instrPriv i) = true)
    (hr : sigRegidx g f (s.cordOf w).kernel.regs (s.cordOf w).kernel.sregs 0 0 0 0 = some info) :
    s.front i f du always body = s.trap 0x10 w.exec info := by
  unfold State.front
  simp only [hm, hg, notPrivileged hp, hr, Bool.false_eq_true, if_false]

theorem State.front_guardFalse (hm : s.me = some w) (hg : i.sig = some g) (hp : (w.sup || !instrPriv i) = true)
    (hr : sigRegidx g f (s.cordOf w).kernel.regs (s.cordOf w).kernel.sregs 0 0 0 0 = none) (hf : w.guard f.g = false) :
    s.front i f du always body = .next (s.setMe (w.endPass.next (fieldsBytes f))) := by
  unfold State.front
  simp only [hm, hg, notPrivileged hp, hr, hf, Bool.false_eq_true, if_false, Bool.not_false, if_true]

end

/-- An outcome that the checks of instruction i on fields f come before. -/
def State.Checks (s : State) (i : Instr) (f : Fields) (o : Out) : Prop := ∃ du always body, o = s.front i f du always body

section
variable {s : State} {i : Instr} {f : Fields} {k kc : Feed} {fm : FFmt} {b b' : Bool}

theorem State.front_checks {du : DUse} {body : State → Wave → Out} : s.Checks i f (s.front i f du b body) := ⟨_, _, _, rfl⟩
theorem State.scal1_checks {op : Word64 → Word64} : s.Checks i f (s.scal1 i f k op) := State.front_checks
theorem State.scal2_checks {op : Word64 → Word64 → Word64} : s.Checks i f (s.scal2 i f k op) := State.front_checks
theorem State.vec1_checks {op : Word64 → Word64} : s.Checks i f (s.vec1 i f k b op) := State.front_checks
theorem State.vec2_checks {op : Word64 → Word64 → Word64} : s.Checks i f (s.vec2 i f k op) := State.front_checks
theorem State.vec3_checks {op : Word64 → Word64 → Word64 → Word64} : s.Checks i f (s.vec3 i f k kc op) :=
  State.front_checks
theorem State.shfl_checks {pick : Nat → Nat → Int} : s.Checks i f (s.shfl i f pick) := State.front_checks
theorem State.maskOp_checks {op : Mask → Mask → Mask} : s.Checks i f (s.maskOp i f op) := State.front_checks
theorem State.fp1_checks {op : Word64 → Word64 × FFlags} : s.Checks i f (s.fp1 i f k b op) := State.front_checks
theorem State.fp2_checks {op : Word64 → Word64 → Word64 × FFlags} : s.Checks i f (s.fp2 i f fm op) := State.front_checks
theorem State.fp3_checks {op : Word64 → Word64 → Word64 → Word64 × FFlags} : s.Checks i f (s.fp3 i f k kc op) :=
  State.front_checks
theorem State.fpCompare_checks : s.Checks i f (s.fpCompare i f fm) := State.front_checks
theorem State.sfu_checks {op : Word64 → Word64 × FFlags} : s.Checks i f (s.sfu i f op) := State.front_checks
theorem State.barrier_checks : s.Checks i f (s.barrier i f b b') := State.front_checks
theorem State.joinBy_checks : s.Checks i f (s.joinBy i f b) := State.front_checks

end

/-- Every instruction with operand fields begins with the checks on them, but for LOOP.PIN and FE.WAIT, whose own check of the
encoding comes first, and MMA and MMA.SP, which may drop B. -/
theorem exec_checks {i : Instr} {op : BitVec 8} {f : Fields} (s : State) (ho : i.opFields = some (op, f))
    (hl : ∀ h, i ≠ .loopPin h ∧ i ≠ .feWait h) (hm : ∀ h, i ≠ .mma h ∧ i ≠ .mmaSp h) : s.Checks i f (exec i s) := by
  cases i with
  | loopPin h => exact absurd rfl (hl h).1
  | feWait h => exact absurd rfl (hl h).2
  | mma h => exact absurd rfl (hm h).1
  | mmaSp h => exact absurd rfl (hm h).2
  | sMov _ | sPopc _ | sClz _ => cases ho; unfold exec; exact State.scal1_checks
  | sAdd _ | sSub _ | sMul _ | sMulh _ | sAnd _ | sOr _ | sXor _ | sAndn _ | sShl _ | sShr _ | sSar _ | sRot _ | sMin _
  | sMax _ | sBfe _ | sAdd64 _ => cases ho; unfold exec; exact State.scal2_checks
  | vAbs _ | vPopc _ | vClz _ | vBrev _ => cases ho; unfold exec; exact State.vec1_checks
  | vAdd _ | vSub _ | vMul _ | vMulh _ | vAnd _ | vOr _ | vXor _ | vAndn _ | vShl _ | vShr _ | vSar _ | vRot _ | vMin _
  | vMax _ | vBfe _ | vAdd64 _ => cases ho; unfold exec; exact State.vec2_checks
  | mad _ | madw _ | vBfi _ | dot4 _ => cases ho; unfold exec; exact State.vec3_checks
  | shflIdx _ | shflXor _ | shflUp _ | shflDown _ => cases ho; unfold exec; exact State.shfl_checks
  | kAnd _ | kOr _ | kXor _ | kAndn _ | kNot _ | kMov _ => cases ho; unfold exec; exact State.maskOp_checks
  | fclass _ | frnd _ | f2i _ | ffrexp _ => cases ho; unfold exec; exact State.fp1_checks
  | fadd _ | fsub _ | fmul _ | fmin _ | fmax _ | dadd _ | dmul _ | dminmax _ => cases ho; unfold exec; exact State.fp2_checks
  | ffma _ | dfma _ | fdot2 _ => cases ho; unfold exec; exact State.fp3_checks
  | fcmp _ | dcmp _ => cases ho; unfold exec; exact State.fpCompare_checks
  | fexp2f _ | flog2 _ | frcp _ | frsq _ | fsqrt _ | fsinr _ | fcosr _ => cases ho; unfold exec; exact State.sfu_checks
  | bar _ | barArv _ | barDev _ => cases ho; unfold exec; exact State.barrier_checks
  | join _ | joinInc _ => cases ho; unfold exec; exact State.joinBy_checks
  | st _ => cases ho; unfold exec execSt; exact State.front_checks
  | _ => cases ho <;> unfold exec <;> exact State.front_checks

/-- MMA and MMA.SP begin with the checks too, on fields whose B may be dropped. -/
theorem State.mma_checks (s : State) (i : Form) (f : Fields) (sp : Bool) : ∃ f', s.Checks (i f) f' (s.mma i f sp) := by
  unfold State.mma
  exact ⟨_, State.front_checks⟩

theorem exec_checks_some {i : Instr} {op : BitVec 8} {f : Fields} (s : State) (ho : i.opFields = some (op, f))
    (hl : ∀ h, i ≠ .loopPin h ∧ i ≠ .feWait h) : ∃ f', s.Checks i f' (exec i s) := by
  by_cases hm : ∀ h, i ≠ .mma h ∧ i ≠ .mmaSp h
  · exact ⟨f, exec_checks s ho hl hm⟩
  · simp only [not_forall, not_and_or, not_not] at hm
    obtain ⟨h, rfl | rfl⟩ := hm
    · exact s.mma_checks .mma h false
    · exact s.mma_checks .mmaSp h true

theorem privilegedInstructions : Claim.PrivilegedInstructions := by
  intro f
  refine ⟨rfl, rfl, rfl, rfl, fun h => ?_, fun h => ?_, fun x hx => by fin_cases hx <;> rfl⟩
  · simp only [List.mem_cons, List.not_mem_nil, or_false] at h
    rcases h with h | h | h | h <;> simp [instrPriv, h, SysReg.supRead]
  · simp only [List.mem_cons, List.not_mem_nil, or_false] at h
    rcases h with h | h | h <;> simp [instrPriv, h, SysReg.supRead, SpecReg.sup]

theorem checksComeFirst : Claim.ChecksComeFirst := by
  intro s w i op f g hm ho hg hl
  refine ⟨fun hu hp => ?_, fun hp hn => ?_⟩
  · obtain ⟨f', du, always, body, hexec⟩ := exec_checks_some s ho hl
    rw [hexec, State.front_unprivileged hm hg hu hp]
  · obtain ⟨du, always, body, hexec⟩ := exec_checks s ho hl hn
    rw [hexec]
    exact ⟨fun info => State.front_regidx hm hg hp, State.front_guardFalse hm hg hp⟩

/-- Settles O27: whatever an instruction does, it begins with the checks of `State.front`. -/
theorem checksBeforeExecution : Obligations.ChecksBeforeExecution := ⟨privilegedInstructions, checksComeFirst⟩

/-! ### Pairs -/

section
variable {s : State} {w : Wave} {p : PairFields}

theorem State.runsPair_iff : s.runsPair w p = true ↔ s.me = some w ∧
    pairRegidx p (s.cordOf w).kernel.regs (s.cordOf w).kernel.sregs = none ∧ w.guard p.g = true ∧
    w.ready encodeOpnd (pairSrcs p) = none ∧ (p.vop != .nop && w.destBusy (.v p.vd) 1) = false ∧
    s.clean w (pairReads p) = true := by
  simp only [State.runsPair, Bool.and_eq_true, decide_eq_true_eq, Option.isNone_iff_eq_none, Bool.not_eq_true', and_assoc]

theorem exec_pair_runs (h : s.runsPair w p = true) : exec (.pair p) s = .next (s.setMe ((w.pairEffect s p).next 8)) := by
  obtain ⟨hm, hx, hg, hy, hd, hc⟩ := State.runsPair_iff.1 h
  change execPair p s = _
  simp only [execPair, hm, hx, hg, hy, hd, State.clean_readErrors hc, Bool.not_true, Bool.false_eq_true, if_false]

theorem exec_pair_guardFalse (hm : s.me = some w)
    (hx : pairRegidx p (s.cordOf w).kernel.regs (s.cordOf w).kernel.sregs = none) (hg : w.guard p.g = false) :
    exec (.pair p) s = .next (s.setMe (w.next 8)) := by
  change execPair p s = _
  simp only [execPair, hm, hx, hg, Bool.not_false, if_true]

end

/-- Settles O28: a pair that passes its checks has the effect of both halves, of which the scalar one leaves exec alone. -/
theorem pairCompletes : Obligations.PairCompletes := by
  intro s w p a b k r x y
  refine ⟨fun h => ?_, exec_pair_guardFalse⟩
  have heffect : w.pairEffect s p = y := by
    have hexec : x.exec = w.exec := by
      simp only [x]
      split <;> rfl
    unfold Wave.pairEffect
    dsimp only
    split
    · next hv => rw [show y = x from if_pos hv]
    · next hv =>
      rw [show y = _ from if_neg hv, ← hexec]
  rw [exec_pair_runs h, heffect]

end Sys2Proof.Machine
end

section
/-! Floating-point values and their one rounding (R63, R65, R69, R194): every finite value is a whole number of units of the
format's least positive value, a rounding divides by the weight of the value's grid, and the places of a grid are consecutive
values of the format. -/

namespace Sys2Proof.Machine

/-! ### Formats -/

theorem FFmt.bias_pos (f : FFmt) : 1 ≤ f.bias := by cases f <;> decide

/-- The sign bit stands above the exponent and the fraction (R63). -/
theorem FFmt.signWeight (f : FFmt) : 2 ^ (f.width - 1) = 2 ^ f.eb * 2 ^ f.fb := by
  rw [← Nat.pow_add, show f.width - 1 = f.eb + f.fb by unfold FFmt.width; omega]

theorem FFmt.infMag_lt (f : FFmt) : f.infMag < 2 ^ (f.width - 1) := by cases f <;> decide

theorem FFmt.width_le (f : FFmt) : f.width ≤ 64 := by cases f <;> decide

/-- The least positive value of a format is 2 to the minus this (R63). -/
def FFmt.unitExp (f : FFmt) : Nat := f.bias + f.fb - 1

/-- The magnitude bits of a pattern. -/
def FFmt.magOf (f : FFmt) (a : Word64) : Nat := a.toNat % 2 ^ f.width % 2 ^ (f.width - 1)
/-- The sign bit of a pattern. -/
def FFmt.negOf (f : FFmt) (a : Word64) : Bool := decide (2 ^ (f.width - 1) ≤ a.toNat % 2 ^ f.width)

theorem FFmt.two_pow_width (f : FFmt) : 2 ^ f.width = 2 * 2 ^ (f.width - 1) := by
  rw [← Nat.pow_succ', show (f.width - 1).succ = f.width by unfold FFmt.width; omega]

/-- A pattern of the format is its sign and its magnitude. -/
theorem FFmt.pack_negOf_magOf (f : FFmt) (a : Word64) (h : a.toNat < 2 ^ f.width) : f.pack (f.negOf a) (f.magOf a) = a := by
  have hw := f.two_pow_width
  apply BitVec.eq_of_toNat_eq
  simp only [FFmt.pack, FFmt.negOf, FFmt.magOf, BitVec.toNat_ofNat, Nat.mod_eq_of_lt h, decide_eq_true_eq]
  have hsum : (if 2 ^ (f.width - 1) ≤ a.toNat then 2 ^ (f.width - 1) else 0) + a.toNat % 2 ^ (f.width - 1) = a.toNat := by
    split_ifs with hs
    · rw [Nat.mod_eq_sub_mod hs, Nat.mod_eq_of_lt (by omega)]; omega
    · rw [Nat.mod_eq_of_lt (by omega), Nat.zero_add]
  rw [hsum, Nat.mod_eq_of_lt a.isLt]

theorem FFmt.pack_false_toNat (f : FFmt) {mag : Nat} (h : mag ≤ f.infMag) : (f.pack false mag).toNat = mag := by
  have hinf := f.infMag_lt
  have hle : 2 ^ (f.width - 1) ≤ 2 ^ 64 := Nat.pow_le_pow_right (by omega) (by have := f.width_le; omega)
  simp only [FFmt.pack, Bool.false_eq_true, if_false, Nat.zero_add, BitVec.toNat_ofNat]
  exact Nat.mod_eq_of_lt (by omega)

/-! ### Magnitudes in units of the least positive value -/

section
variable {f : FFmt} {k t : Nat}

/-- On the grid of weight 2^k, from the first value that has it, the magnitude bits count the grid's places. -/
theorem magUnits_grid (ht : t ≤ 2 * 2 ^ f.fb) (hk : k = 0 ∨ 2 ^ f.fb ≤ t) : magUnits f (k * 2 ^ f.fb + t) = t * 2 ^ k := by
  have hp : 0 < 2 ^ f.fb := Nat.two_pow_pos _
  unfold magUnits
  generalize 2 ^ f.fb = p at *
  rcases Nat.lt_or_ge t p with hlt | hge
  · obtain rfl : k = 0 := hk.resolve_right (by omega)
    simp [hlt]
  · rcases Nat.lt_or_ge t (2 * p) with hlt' | hge'
    · obtain ⟨j, rfl⟩ : ∃ j, t = j + p := ⟨t - p, by omega⟩
      have hsplit : k * p + (j + p) = j + (k + 1) * p := by ring
      rw [hsplit, if_neg (by have := Nat.le_mul_of_pos_left p (Nat.succ_pos k); omega), Nat.add_mul_mod_self_right,
        Nat.add_mul_div_right _ _ hp, Nat.mod_eq_of_lt (by omega), Nat.div_eq_of_lt (by omega)]
      simp
    · obtain rfl : t = 2 * p := by omega
      have hsplit : k * p + 2 * p = (k + 2) * p := by ring
      rw [hsplit, if_neg (by have := Nat.le_mul_of_pos_left p (Nat.succ_pos (k + 1)); omega), Nat.mul_mod_left,
        Nat.mul_div_left _ hp, Nat.zero_add, show k + 2 - 1 = k + 1 by omega, Nat.pow_succ]
      ring

/-- Every magnitude stands on its grid. -/
theorem exists_grid (f : FFmt) (mag : Nat) :
    ∃ k t, mag = k * 2 ^ f.fb + t ∧ t < 2 * 2 ^ f.fb ∧ (k = 0 ∨ 2 ^ f.fb ≤ t) := by
  have hp : 0 < 2 ^ f.fb := Nat.two_pow_pos _
  rcases Nat.lt_or_ge mag (2 * 2 ^ f.fb) with h | h
  · exact ⟨0, mag, by omega, h, .inl rfl⟩
  · have hdiv : 1 ≤ mag / 2 ^ f.fb := (Nat.one_le_div_iff hp).2 (by omega)
    have hmod := Nat.mod_lt mag hp
    have hsum := Nat.div_add_mod' mag (2 ^ f.fb)
    refine ⟨mag / 2 ^ f.fb - 1, mag % 2 ^ f.fb + 2 ^ f.fb, ?_, by omega, .inr (by omega)⟩
    obtain ⟨j, hj⟩ : ∃ j, mag / 2 ^ f.fb = j + 1 := ⟨mag / 2 ^ f.fb - 1, by omega⟩
    rw [hj, Nat.succ_mul] at hsum
    rw [hj, Nat.add_sub_cancel]
    omega

theorem magUnits_strictMono (f : FFmt) : StrictMono (magUnits f) := by
  refine strictMono_nat_of_lt_succ fun mag => ?_
  obtain ⟨k, t, rfl, ht, hk⟩ := exists_grid f mag
  rw [magUnits_grid ht.le hk, Nat.add_assoc, magUnits_grid (by omega) (hk.imp_right fun h => by omega)]
  exact Nat.mul_lt_mul_of_pos_right (Nat.lt_succ_self t) (Nat.two_pow_pos k)

theorem magUnits_eq_zero {mag : Nat} (h : magUnits f mag = 0) : mag = 0 :=
  (magUnits_strictMono f).injective (h.trans (by simp [magUnits]))

end

/-! ### The value of a pattern -/

/-- The significand of a magnitude, with its hidden bit (R63). -/
def FFmt.sigOf (f : FFmt) (mag : Nat) : Nat :=
  if mag / 2 ^ f.fb = 0 then mag % 2 ^ f.fb else mag % 2 ^ f.fb + 2 ^ f.fb
/-- The exponent field of a magnitude, where a subnormal one counts as 1 (R63). -/
def FFmt.expOf (f : FFmt) (mag : Nat) : Nat := max (mag / 2 ^ f.fb) 1

theorem magUnits_eq_sig (f : FFmt) (mag : Nat) : magUnits f mag = f.sigOf mag * 2 ^ (f.expOf mag - 1) := by
  have hp : 0 < 2 ^ f.fb := Nat.two_pow_pos _
  unfold magUnits FFmt.sigOf FFmt.expOf
  split_ifs with h h0 h0
  · simp [h0, Nat.mod_eq_of_lt h]
  · exact absurd (Nat.div_eq_of_lt h) h0
  · exact absurd ((Nat.div_eq_zero_iff_lt hp).1 h0) h
  · rw [Nat.max_eq_left (Nat.pos_of_ne_zero h0)]

theorem FFmt.magOf_lt (f : FFmt) (a : Word64) : f.magOf a < 2 ^ f.eb * 2 ^ f.fb :=
  f.signWeight ▸ Nat.mod_lt _ (Nat.two_pow_pos _)

theorem FFmt.infMag_of_fields {f : FFmt} {mag : Nat} (he : mag / 2 ^ f.fb = 2 ^ f.eb - 1) (hm : mag % 2 ^ f.fb = 0) :
    mag = f.infMag := by
  rw [FFmt.infMag, ← he, Nat.div_mul_cancel (Nat.dvd_of_mod_eq_zero hm)]

theorem FFmt.lt_infMag_of_exp {f : FFmt} {mag : Nat} (h : mag < 2 ^ f.eb * 2 ^ f.fb) (he : mag / 2 ^ f.fb ≠ 2 ^ f.eb - 1) :
    mag < f.infMag := by
  have hdiv : mag / 2 ^ f.fb < 2 ^ f.eb := Nat.div_lt_of_lt_mul (by rwa [Nat.mul_comm])
  exact (Nat.div_lt_iff_lt_mul (Nat.two_pow_pos _)).1 (by omega)

/-- What `unpack` gives, by the sign and the magnitude bits (R63): a finite value is a whole number of units. -/
theorem unpack_cases (f : FFmt) (a : Word64) :
    (∃ s, unpack f a = .nan s) ∨ (unpack f a = .inf (f.negOf a) ∧ f.magOf a = f.infMag) ∨
    ∃ n d, unpack f a = .fin (f.negOf a) n d ∧ 0 < d ∧ n * 2 ^ f.unitExp = magUnits f (f.magOf a) * d ∧ f.magOf a < f.infMag := by
  have hbias := f.bias_pos
  have hmag := f.magOf_lt a
  have hun : unpack f a = (if f.magOf a / 2 ^ f.fb = 2 ^ f.eb - 1 then
      if f.magOf a % 2 ^ f.fb = 0 then .inf (f.negOf a) else .nan (decide (f.magOf a % 2 ^ f.fb < 2 ^ (f.fb - 1)))
    else if f.bias + f.fb ≤ f.expOf (f.magOf a) then
      .fin (f.negOf a) (f.sigOf (f.magOf a) * 2 ^ (f.expOf (f.magOf a) - (f.bias + f.fb))) 1
    else .fin (f.negOf a) (f.sigOf (f.magOf a)) (2 ^ (f.bias + f.fb - f.expOf (f.magOf a)))) := rfl
  have hexp : 1 ≤ f.expOf (f.magOf a) := Nat.le_max_right _ _
  rw [hun, magUnits_eq_sig]
  generalize f.magOf a = mag at *
  split_ifs with he hm hk
  · exact .inr (.inl ⟨rfl, FFmt.infMag_of_fields he hm⟩)
  · exact .inl ⟨_, rfl⟩
  · refine .inr (.inr ⟨_, _, rfl, Nat.one_pos, ?_, FFmt.lt_infMag_of_exp hmag he⟩)
    rw [Nat.mul_assoc, ← Nat.pow_add, Nat.mul_one, FFmt.unitExp]
    congr 2; omega
  · refine .inr (.inr ⟨_, _, rfl, Nat.two_pow_pos _, ?_, FFmt.lt_infMag_of_exp hmag he⟩)
    rw [Nat.mul_assoc, ← Nat.pow_add, FFmt.unitExp]
    congr 2; omega

/-! ### The exponent of a ratio -/

section
variable {n d : Nat}

theorem ilog2_eq (n d : Nat) : ilog2 n d =
    if d * 2 ^ n.log2 ≤ n * 2 ^ d.log2 then (n.log2 : Int) - d.log2 else (n.log2 : Int) - d.log2 - 1 := by
  unfold ilog2
  rcases Nat.le_total d.log2 n.log2 with h | h
  · obtain ⟨k, hk⟩ := Nat.le.dest h
    rw [← hk, show ((d.log2 + k : Nat) : Int) - d.log2 = Int.ofNat k by simp]
    have hiff : d * 2 ^ (d.log2 + k) ≤ n * 2 ^ d.log2 ↔ d * 2 ^ k ≤ n := by
      rw [Nat.pow_add, Nat.mul_left_comm, Nat.mul_comm n]
      exact Nat.mul_le_mul_left_iff (Nat.two_pow_pos _)
    simp [hiff]
  · rcases Nat.eq_or_lt_of_le h with h | h
    · rw [h, show (d.log2 : Int) - d.log2 = Int.ofNat 0 by simp]
      have hiff : d * 2 ^ d.log2 ≤ n * 2 ^ d.log2 ↔ d ≤ n := Nat.mul_le_mul_right_iff (Nat.two_pow_pos _)
      simp [hiff]
    · obtain ⟨k, hk⟩ := Nat.exists_eq_add_of_lt h
      rw [show (n.log2 : Int) - d.log2 = Int.negSucc k by omega, hk]
      have hiff : d * 2 ^ n.log2 ≤ n * 2 ^ (n.log2 + k + 1) ↔ d ≤ n * 2 ^ (k + 1) := by
        rw [Nat.add_assoc, Nat.pow_add, Nat.mul_left_comm, Nat.mul_comm d]
        exact Nat.mul_le_mul_left_iff (Nat.two_pow_pos _)
      simp [hiff]

/-- `ilog2 n d` is the exponent of n / d: the greatest whose power of two is not above it. -/
theorem le_ilog2_iff (hn : 0 < n) (hd : 0 < d) (a b : Nat) : (a : Int) - b ≤ ilog2 n d ↔ d * 2 ^ a ≤ n * 2 ^ b := by
  have hn1 : 2 ^ n.log2 ≤ n := Nat.log2_self_le hn.ne'
  have hn2 : n < 2 ^ (n.log2 + 1) := Nat.lt_log2_self
  have hd1 : 2 ^ d.log2 ≤ d := Nat.log2_self_le hd.ne'
  have hd2 : d < 2 ^ (d.log2 + 1) := Nat.lt_log2_self
  rw [ilog2_eq]
  generalize n.log2 = N at *
  generalize d.log2 = D at *
  split_ifs with h
  · refine ⟨fun hle => ?_, fun hle => ?_⟩
    · refine Nat.le_of_mul_le_mul_right (?_ : _ * 2 ^ N ≤ _ * 2 ^ N) (Nat.two_pow_pos N)
      calc d * 2 ^ a * 2 ^ N = d * 2 ^ N * 2 ^ a := Nat.mul_right_comm ..
        _ ≤ n * 2 ^ D * 2 ^ a := Nat.mul_le_mul_right _ h
        _ = n * 2 ^ (D + a) := by rw [Nat.mul_assoc, Nat.pow_add]
        _ ≤ n * 2 ^ (b + N) := Nat.mul_le_mul_left _ (Nat.pow_le_pow_right (by omega) (by omega))
        _ = n * 2 ^ b * 2 ^ N := by rw [Nat.mul_assoc, Nat.pow_add]
    · by_contra hlt
      refine absurd hle (Nat.not_le.2 ?_)
      calc n * 2 ^ b < 2 ^ (N + 1) * 2 ^ b := Nat.mul_lt_mul_of_pos_right hn2 (Nat.two_pow_pos b)
        _ = 2 ^ (N + 1 + b) := (Nat.pow_add ..).symm
        _ ≤ 2 ^ (D + a) := Nat.pow_le_pow_right (by omega) (by omega)
        _ = 2 ^ D * 2 ^ a := Nat.pow_add ..
        _ ≤ d * 2 ^ a := Nat.mul_le_mul_right _ hd1
  · refine ⟨fun hle => ?_, fun hle => ?_⟩
    · calc d * 2 ^ a ≤ 2 ^ (D + 1) * 2 ^ a := Nat.mul_le_mul_right _ hd2.le
        _ = 2 ^ (D + 1 + a) := (Nat.pow_add ..).symm
        _ ≤ 2 ^ (N + b) := Nat.pow_le_pow_right (by omega) (by omega)
        _ = 2 ^ N * 2 ^ b := Nat.pow_add ..
        _ ≤ n * 2 ^ b := Nat.mul_le_mul_right _ hn1
    · by_contra hlt
      refine absurd (Nat.mul_le_mul_right (2 ^ D) hle) (Nat.not_le.2 ?_)
      calc n * 2 ^ b * 2 ^ D = n * 2 ^ D * 2 ^ b := Nat.mul_right_comm ..
        _ < d * 2 ^ N * 2 ^ b := Nat.mul_lt_mul_of_pos_right (Nat.not_le.1 h) (Nat.two_pow_pos b)
        _ = d * 2 ^ (N + b) := by rw [Nat.mul_assoc, Nat.pow_add]
        _ ≤ d * 2 ^ (a + D) := Nat.mul_le_mul_left _ (Nat.pow_le_pow_right (by omega) (by omega))
        _ = d * 2 ^ a * 2 ^ D := by rw [Nat.mul_assoc, Nat.pow_add]

end

/-! ### Rounding to a grid -/

/-- The decision to round up depends on the fraction r / d alone. -/
theorem Rnd.up_scale (m : Rnd) (neg odd : Bool) (r d : Nat) {c : Nat} (hc : 0 < c) :
    m.up neg odd (r * c) (d * c) = m.up neg odd r d := by
  have hlt : d * c < 2 * (r * c) ↔ d < 2 * r := by
    rw [← Nat.mul_assoc]; exact Nat.mul_lt_mul_right hc
  have heq : 2 * (r * c) = d * c ↔ 2 * r = d := by
    rw [← Nat.mul_assoc]; exact Nat.mul_left_inj hc.ne'
  have hle : d * c ≤ 2 * (r * c) ↔ d ≤ 2 * r := by
    rw [← Nat.mul_assoc]; exact Nat.mul_le_mul_right_iff hc
  have hpos : 0 < r * c ↔ 0 < r := by simp [hc]
  have hdiv : r * c * 2 ^ 16 / (d * c) = r * 2 ^ 16 / d := by
    rw [Nat.mul_right_comm, Nat.mul_div_mul_right _ _ hc]
  cases m <;> simp only [Rnd.up, hlt, heq, hle, hpos, hdiv]

/-- A value that stands on the grid is not rounded up, in any mode (R69, R73). -/
theorem Rnd.up_zero (m : Rnd) (neg odd : Bool) {d : Nat} (hd : 0 < d) : m.up neg odd 0 d = false := by
  cases m with
  | rne => simp [Rnd.up, hd.ne]
  | sr u => simp [Rnd.up, u.isLt]
  | rtz | rup | rdn | rna => simp [Rnd.up]

/-- Scaling n / d by 2^(u - k) is the division of n * 2^u by d * 2^k, up to a common factor of remainder and divisor. -/
theorem scaledDiv_eq (n d k u : Nat) : ∃ c, 0 < c ∧ (scaledDiv n d (-((k : Int) - u))).1 = n * 2 ^ u / (d * 2 ^ k) ∧
    (scaledDiv n d (-((k : Int) - u))).2.1 * c = n * 2 ^ u % (d * 2 ^ k) ∧
    (scaledDiv n d (-((k : Int) - u))).2.2 * c = d * 2 ^ k := by
  rcases Nat.lt_or_ge u k with h | h
  · obtain ⟨j, rfl⟩ := Nat.exists_eq_add_of_lt h
    have hD : d * 2 ^ (u + j + 1) = d * 2 ^ (j + 1) * 2 ^ u := by
      rw [Nat.add_assoc, Nat.add_comm, Nat.pow_add, Nat.mul_assoc]
    rw [show -((u + j + 1 : Nat) - (u : Int)) = Int.negSucc j by omega, hD]
    exact ⟨2 ^ u, Nat.two_pow_pos u, (Nat.mul_div_mul_right _ _ (Nat.two_pow_pos u)).symm, (Nat.mul_mod_mul_right ..).symm, rfl⟩
  · obtain ⟨j, rfl⟩ := Nat.exists_eq_add_of_le h
    have hN : n * 2 ^ (k + j) = n * 2 ^ j * 2 ^ k := by rw [Nat.add_comm, Nat.pow_add, Nat.mul_assoc]
    rw [show -((k : Int) - (k + j : Nat)) = Int.ofNat j by simp, hN]
    exact ⟨2 ^ k, Nat.two_pow_pos k, (Nat.mul_div_mul_right _ _ (Nat.two_pow_pos k)).symm, (Nat.mul_mod_mul_right ..).symm, rfl⟩

/-- Rounding n / d to a grid of weight 2^(k - u) is that division, and the decision on its remainder. -/
theorem roundGrid_eq (m : Rnd) (neg : Bool) (n d k u : Nat) : roundGrid m neg n d ((k : Int) - u) =
    (if m.up neg (n * 2 ^ u / (d * 2 ^ k) % 2 == 1) (n * 2 ^ u % (d * 2 ^ k)) (d * 2 ^ k) then n * 2 ^ u / (d * 2 ^ k) + 1
      else n * 2 ^ u / (d * 2 ^ k), decide (n * 2 ^ u % (d * 2 ^ k) ≠ 0)) := by
  obtain ⟨c, hc, hq, hr, hd⟩ := scaledDiv_eq n d k u
  have hzero : (scaledDiv n d (-((k : Int) - u))).2.1 ≠ 0 ↔ n * 2 ^ u % (d * 2 ^ k) ≠ 0 := by rw [← hr]; simp [hc.ne']
  rw [← decide_eq_decide.2 hzero, ← hq, ← hr, ← hd, Rnd.up_scale _ _ _ _ _ hc]
  rfl

/-! ### Rounding to a format -/

section
variable (f : FFmt) (m : Rnd) (neg : Bool) {n d : Nat}

/-- The grid of n / d in the format has this many times the weight of the least positive value, as a power of two (R69). -/
def FFmt.gridExp (f : FFmt) (n d : Nat) : Nat := (ilog2 n d - (1 - (f.bias : Int))).toNat

theorem FFmt.grid_eq (n d : Nat) :
    max (ilog2 n d) (1 - (f.bias : Int)) - (f.fb : Int) = (f.gridExp n d : Int) - f.unitExp := by
  have := f.bias_pos
  unfold FFmt.gridExp FFmt.unitExp
  omega

/-- The magnitude bits of n / d rounded, before the test for overflow. -/
def FFmt.roundedMag (f : FFmt) (m : Rnd) (neg : Bool) (n d : Nat) : Nat :=
  f.gridExp n d * 2 ^ f.fb + (roundGrid m neg n d ((f.gridExp n d : Int) - f.unitExp)).1

/-- What n / d loses on its grid. -/
def FFmt.inexact (f : FFmt) (m : Rnd) (neg : Bool) (n d : Nat) : Bool :=
  (roundGrid m neg n d ((f.gridExp n d : Int) - f.unitExp)).2

/-- A result past the largest finite value is the infinity (R69). -/
def Rnd.overflowsToInf (m : Rnd) (neg : Bool) : Bool :=
  match m with | .rtz => false | .rup => !neg | .rdn => neg | _ => true

/-- A rounding either overflows, or gives the magnitude on the grid with the flags of what was lost (R66, R69). -/
theorem roundMag_cases (n d : Nat) :
    (f.infMag ≤ f.roundedMag m neg n d ∧ roundMag f m neg n d =
      (if m.overflowsToInf neg then f.inf neg else f.pack neg (f.infMag - 1), flagOF ||| flagNX)) ∨
    (f.roundedMag m neg n d < f.infMag ∧ ∃ tiny : Bool, roundMag f m neg n d =
      (f.pack neg (f.roundedMag m neg n d),
        flagIf (f.inexact m neg n d) flagNX ||| flagIf (f.inexact m neg n d && tiny) flagUF)) := by
  have hbias := f.bias_pos
  have hexp : ((f.gridExp n d : Int) - f.unitExp - (1 - (f.bias : Int) - (f.fb : Int))).toNat = f.gridExp n d := by
    unfold FFmt.unitExp; omega
  unfold roundMag
  simp only [FFmt.grid_eq, hexp]
  rcases Nat.lt_or_ge (f.roundedMag m neg n d) f.infMag with h | h
  · exact .inr ⟨h, _, if_neg (Nat.not_le.2 h)⟩
  · exact .inl ⟨h, if_pos h⟩

end

/-! ### Where n / d stands among the values of the format -/

section
variable {f : FFmt} {m : Rnd} {neg : Bool} {n d : Nat}

/-- n / d on its grid: the place below it, counted from zero. -/
def FFmt.place (f : FFmt) (n d : Nat) : Nat := n * 2 ^ f.unitExp / (d * 2 ^ f.gridExp n d)
/-- What remains of n / d above that place, over d × 2^gridExp. -/
def FFmt.remains (f : FFmt) (n d : Nat) : Nat := n * 2 ^ f.unitExp % (d * 2 ^ f.gridExp n d)

theorem FFmt.place_lt (hn : 0 < n) (hd : 0 < d) : f.place n d < 2 * 2 ^ f.fb := by
  have hbias := f.bias_pos
  rw [FFmt.place, Nat.div_lt_iff_lt_mul (Nat.mul_pos hd (Nat.two_pow_pos _))]
  have h := (le_ilog2_iff hn hd (f.fb + 1 + f.gridExp n d) f.unitExp).not.1 (by unfold FFmt.gridExp FFmt.unitExp; omega)
  calc n * 2 ^ f.unitExp < d * 2 ^ (f.fb + 1 + f.gridExp n d) := Nat.not_le.1 h
    _ = 2 * 2 ^ f.fb * (d * 2 ^ f.gridExp n d) := by ring

theorem FFmt.le_place (hn : 0 < n) (hd : 0 < d) : f.gridExp n d = 0 ∨ 2 ^ f.fb ≤ f.place n d := by
  have hbias := f.bias_pos
  refine or_iff_not_imp_left.2 fun hk => ?_
  rw [FFmt.place, Nat.le_div_iff_mul_le (Nat.mul_pos hd (Nat.two_pow_pos _))]
  have h := (le_ilog2_iff hn hd (f.fb + f.gridExp n d) f.unitExp).1 (by unfold FFmt.gridExp FFmt.unitExp at *; omega)
  calc 2 ^ f.fb * (d * 2 ^ f.gridExp n d) = d * 2 ^ (f.fb + f.gridExp n d) := by ring
    _ ≤ n * 2 ^ f.unitExp := h

/-- The magnitude bits of the greatest value that is not above n / d. -/
def FFmt.floorMag (f : FFmt) (n d : Nat) : Nat := f.gridExp n d * 2 ^ f.fb + f.place n d

theorem magUnits_floorMag (hn : 0 < n) (hd : 0 < d) : magUnits f (f.floorMag n d) = f.place n d * 2 ^ f.gridExp n d :=
  magUnits_grid (FFmt.place_lt hn hd).le (FFmt.le_place hn hd)

theorem magUnits_floorMag_succ (hn : 0 < n) (hd : 0 < d) :
    magUnits f (f.floorMag n d + 1) = (f.place n d + 1) * 2 ^ f.gridExp n d :=
  magUnits_grid (f := f) (k := f.gridExp n d) (FFmt.place_lt hn hd) ((FFmt.le_place hn hd).imp_right Nat.le_succ_of_le)

/-- n / d in units, over d: its place and what remains. -/
theorem place_add_remains (hn : 0 < n) (hd : 0 < d) :
    magUnits f (f.floorMag n d) * d + f.remains n d = n * 2 ^ f.unitExp := by
  have h := Nat.div_add_mod' (n * 2 ^ f.unitExp) (d * 2 ^ f.gridExp n d)
  rw [magUnits_floorMag hn hd, Nat.mul_assoc, Nat.mul_comm _ d]
  exact h

theorem remains_lt (hd : 0 < d) : f.remains n d < d * 2 ^ f.gridExp n d :=
  Nat.mod_lt _ (Nat.mul_pos hd (Nat.two_pow_pos _))

/-- The next value is above n / d. -/
theorem lt_magUnits_floorMag_succ (hn : 0 < n) (hd : 0 < d) : n * 2 ^ f.unitExp < magUnits f (f.floorMag n d + 1) * d := by
  have hsum := place_add_remains (f := f) hn hd
  have hlt := remains_lt (f := f) (n := n) hd
  rw [magUnits_floorMag hn hd] at hsum
  rw [magUnits_floorMag_succ hn hd, ← hsum, Nat.succ_mul, Nat.add_mul, Nat.mul_comm (2 ^ _) d]
  omega

theorem le_floorMag_iff (hn : 0 < n) (hd : 0 < d) (y : Nat) : y ≤ f.floorMag n d ↔ magUnits f y * d ≤ n * 2 ^ f.unitExp := by
  have hsum := place_add_remains (f := f) hn hd
  refine ⟨fun h => ?_, fun h => ?_⟩
  · have := Nat.mul_le_mul_right d ((magUnits_strictMono f).monotone h)
    omega
  · have hlt := Nat.lt_of_mul_lt_mul_right (h.trans_lt (lt_magUnits_floorMag_succ hn hd))
    exact Nat.lt_succ_iff.1 ((magUnits_strictMono f).lt_iff_lt.1 hlt)

theorem roundedMag_eq : f.roundedMag m neg n d =
    if m.up neg (f.place n d % 2 == 1) (f.remains n d) (d * 2 ^ f.gridExp n d) then f.floorMag n d + 1 else f.floorMag n d := by
  rw [FFmt.roundedMag, roundGrid_eq, FFmt.floorMag, ← FFmt.place, ← FFmt.remains]
  split_ifs <;> rfl

theorem inexact_eq : f.inexact m neg n d = decide (f.remains n d ≠ 0) := by
  rw [FFmt.inexact, roundGrid_eq]; rfl

end

/-! ### Representable values -/

/-- A value of the format stands on its own place. -/
theorem floorMag_of_representable {f : FFmt} {n d mag : Nat} (hn : 0 < n) (hd : 0 < d)
    (h : n * 2 ^ f.unitExp = magUnits f mag * d) : f.floorMag n d = mag := by
  refine Nat.le_antisymm ?_ ((le_floorMag_iff hn hd mag).2 h.ge)
  have hle := h ▸ (le_floorMag_iff (f := f) hn hd _).1 le_rfl
  exact (magUnits_strictMono f).le_iff_le.1 (Nat.le_of_mul_le_mul_right hle hd)

theorem remains_of_representable {f : FFmt} {n d mag : Nat} (hn : 0 < n) (hd : 0 < d)
    (h : n * 2 ^ f.unitExp = magUnits f mag * d) : f.remains n d = 0 := by
  have hsum := place_add_remains (f := f) hn hd
  rw [floorMag_of_representable hn hd h, h] at hsum
  omega

theorem roundMag_of_representable {f : FFmt} {m : Rnd} {neg : Bool} {n d mag : Nat} (hn : 0 < n) (hd : 0 < d)
    (h : n * 2 ^ f.unitExp = magUnits f mag * d) (hmag : mag < f.infMag) : roundMag f m neg n d = (f.pack neg mag, 0) := by
  have hrem := remains_of_representable hn hd h
  have hround : f.roundedMag m neg n d = mag := by
    rw [roundedMag_eq, hrem, Rnd.up_zero _ _ _ (Nat.mul_pos hd (Nat.two_pow_pos _)), if_neg Bool.false_ne_true,
      floorMag_of_representable hn hd h]
  have hexact : f.inexact m neg n d = false := by simp [inexact_eq, hrem]
  rcases roundMag_cases f m neg n d with ⟨hover, -⟩ | ⟨-, tiny, heq⟩
  · omega
  · simp [heq, hround, hexact, flagIf]

theorem representableValuesRoundToThemselves : Claim.RepresentableValuesRoundToThemselves := by
  intro f m a ha hnan
  have hpack := f.pack_negOf_magOf a ha
  rcases unpack_cases f a with ⟨s, h⟩ | ⟨h, hmag⟩ | ⟨n, d, h, hd, hval, hmag⟩
  · rw [h] at hnan; exact absurd hnan (by simp [FVal.isNan])
  · rw [hmag] at hpack
    rw [h, FVal.exact, FExact.round, FFmt.inf, hpack]
  · rw [h, FVal.exact]
    split_ifs with h0
    · have hzero : f.magOf a = 0 := magUnits_eq_zero (f := f) (by simpa [h0, hd.ne'] using hval.symm)
      rw [hzero] at hpack
      rw [FExact.round, FFmt.zero, hpack]
    · rw [FExact.round, roundMag_of_representable (Nat.pos_of_ne_zero h0) hd hval hmag, hpack]

/-! ### Nearest and below -/

theorem roundMag_rtz_toNat (f : FFmt) (n d : Nat) :
    (roundMag f .rtz false n d).1.toNat = min (f.floorMag n d) (f.infMag - 1) := by
  have hround : f.roundedMag .rtz false n d = f.floorMag n d := roundedMag_eq
  rcases roundMag_cases f .rtz false n d with ⟨hover, heq⟩ | ⟨hlt, tiny, heq⟩
  · rw [heq, Rnd.overflowsToInf, if_neg Bool.false_ne_true, FFmt.pack_false_toNat f (Nat.sub_le _ _)]
    omega
  · rw [heq, FFmt.pack_false_toNat f hlt.le]
    omega

/-- RNE and RNA round up no less than half of the grid's weight, and down no more (R69). -/
theorem Rnd.up_nearest {m : Rnd} (hm : m ∈ [Rnd.rne, Rnd.rna]) (neg odd : Bool) {r d : Nat} :
    (m.up neg odd r d = true → d ≤ 2 * r) ∧ (m.up neg odd r d = false → 2 * r ≤ d) := by
  simp only [List.mem_cons, List.not_mem_nil, or_false] at hm
  rcases hm with rfl | rfl
  · simp only [Rnd.up, Bool.or_eq_true, Bool.and_eq_true, Bool.or_eq_false_iff, decide_eq_true_eq, decide_eq_false_iff_not]
    omega
  · simp only [Rnd.up, Bool.and_eq_true, Bool.and_eq_false_iff, decide_eq_true_eq, decide_eq_false_iff_not]
    omega

theorem Rnd.nearest_overflowsToInf {m : Rnd} (hm : m ∈ [Rnd.rne, Rnd.rna]) (neg : Bool) : m.overflowsToInf neg = true := by
  simp only [List.mem_cons, List.not_mem_nil, or_false] at hm
  rcases hm with rfl | rfl <;> rfl

theorem roundMag_nearest_toNat {m : Rnd} (hm : m ∈ [Rnd.rne, Rnd.rna]) (f : FFmt) (n d : Nat) :
    (roundMag f m false n d).1.toNat = min (f.roundedMag m false n d) f.infMag := by
  rcases roundMag_cases f m false n d with ⟨hover, heq⟩ | ⟨hlt, tiny, heq⟩
  · rw [heq, Rnd.nearest_overflowsToInf hm, if_pos rfl, FFmt.inf, FFmt.pack_false_toNat f le_rfl, Nat.min_eq_right hover]
  · rw [heq, FFmt.pack_false_toNat f hlt.le, Nat.min_eq_left hlt.le]

section
variable {f : FFmt} {n d : Nat} (hn : 0 < n) (hd : 0 < d)
include hn hd

theorem roundMag_rtz_greatest : let r := (roundMag f .rtz false n d).1.toNat
    r < f.infMag ∧ magUnits f r * d ≤ n * 2 ^ f.unitExp ∧
      ∀ y, y < f.infMag → magUnits f y * d ≤ n * 2 ^ f.unitExp → magUnits f y ≤ magUnits f r := by
  have hinf : 0 < f.infMag := by cases f <;> decide
  dsimp only
  rw [roundMag_rtz_toNat]
  refine ⟨by omega, (le_floorMag_iff hn hd _).1 (Nat.min_le_left _ _), fun y hy hle => ?_⟩
  exact (magUnits_strictMono f).monotone (Nat.le_min.2 ⟨(le_floorMag_iff hn hd y).2 hle, Nat.le_sub_one_of_lt hy⟩)

/-- A value that is rounded to nearest stands as near to n / d as every value of the format: the values below stand no nearer
than the place below it, and the others no nearer than the next place. -/
theorem roundedMag_nearest {m : Rnd} (hm : m ∈ [Rnd.rne, Rnd.rna]) (y : Nat) :
    ((magUnits f (f.roundedMag m false n d) * d : Int) - (n * 2 ^ f.unitExp : Nat)).natAbs ≤
      ((magUnits f y * d : Int) - (n * 2 ^ f.unitExp : Nat)).natAbs := by
  have hbelow := place_add_remains (f := f) hn hd
  have habove : magUnits f (f.floorMag n d + 1) * d = magUnits f (f.floorMag n d) * d + d * 2 ^ f.gridExp n d := by
    rw [magUnits_floorMag_succ hn hd, magUnits_floorMag hn hd]; ring
  have hlt := remains_lt (f := f) (n := n) hd
  obtain ⟨hup, hdown⟩ := Rnd.up_nearest hm false (f.place n d % 2 == 1) (r := f.remains n d) (d := d * 2 ^ f.gridExp n d)
  have hy : magUnits f y * d ≤ magUnits f (f.floorMag n d) * d ∨ magUnits f (f.floorMag n d + 1) * d ≤ magUnits f y * d := by
    rcases Nat.lt_or_ge (f.floorMag n d) y with h | h
    · exact .inr (Nat.mul_le_mul_right d ((magUnits_strictMono f).monotone h))
    · exact .inl (Nat.mul_le_mul_right d ((magUnits_strictMono f).monotone h))
  rw [roundedMag_eq]
  simp only [← Nat.cast_mul]
  split_ifs with h
  · have := hup h
    omega
  · have := hdown (Bool.not_eq_true _ ▸ h)
    omega

end

theorem roundingIsNearestOrBelow : Claim.RoundingIsNearestOrBelow := by
  intro f n d hn hd
  refine ⟨roundMag_rtz_greatest hn hd, fun m hm => ?_⟩
  dsimp only
  rw [roundMag_nearest_toNat hm]
  refine ⟨Nat.min_le_right _ _, fun hlt y _ => ?_⟩
  rw [Nat.min_eq_left (by omega)]
  exact_mod_cast roundedMag_nearest hn hd hm y

/-! ### One rounding -/

theorem sgn_decide_natAbs (x : Int) : sgn (decide (x < 0)) x.natAbs = x := by
  unfold sgn; split_ifs with h <;> simp at h <;> omega

theorem FExact.ofRat_of_ne (zneg : Bool) {x : Int} (d : Nat) (h : x ≠ 0) :
    FExact.ofRat zneg x d = .val (decide (x < 0)) x.natAbs d := if_neg h

theorem FExact.ofRat_zero (zneg : Bool) (d : Nat) : FExact.ofRat zneg 0 d = .zero zneg := rfl

theorem exactFma_fin (m : Rnd) {s t u : Bool} {n d p q k l : Nat} (h : sgn s n * sgn t p ≠ 0) :
    exactFma m (.fin s n d) (.fin t p q) (.fin u k l) =
      exactAdd m (.fin (decide (sgn s n * sgn t p < 0)) (sgn s n * sgn t p).natAbs (d * q)) (.fin u k l) := by
  simp [exactFma, exactMul, FExact.ofRat_of_ne _ _ h, FVal.isZero, FVal.isInf, FVal.isNan]

theorem fusedProductRoundsOnce : Claim.FusedProductRoundsOnce := by
  intro f m a b c s t u n d p q k l ha hb hc
  refine ⟨fun h => ?_, fun h => ?_, fun h => ?_, fun hprod h => ?_⟩
  · rw [fpAdd, ha, hb, exactAdd, FExact.ofRat_of_ne _ _ h, FExact.round]
  · rw [fpMul, ha, hb, exactMul, FExact.ofRat_of_ne _ _ h, FExact.round]
  · rw [fpMul, ha, hb, exactMul, h, FExact.ofRat_zero, FExact.round]
  · rw [fpFma, ha, hb, hc, exactFma_fin m hprod, exactAdd, sgn_decide_natAbs, FExact.ofRat_of_ne _ _ h, FExact.round]

/-- Settles O19: a rounding is a division on the value's own grid (`roundGrid_eq`), whose places are consecutive values of the
format (`magUnits_floorMag`, `magUnits_floorMag_succ`). -/
theorem roundingIsCorrect : Obligations.RoundingIsCorrect :=
  ⟨representableValuesRoundToThemselves, roundingIsNearestOrBelow, fusedProductRoundsOnce⟩

end Sys2Proof.Machine
end

section
/-! Corners of floating-point arithmetic: NaN operands, comparisons, and conversions to integers (R65, R75, R194, R196). -/

namespace Sys2Proof.Machine

/-! ### Values and their negation -/

@[simp] theorem FVal.negate_isNan (x : FVal) : x.negate.isNan = x.isNan := by cases x <;> rfl
@[simp] theorem FVal.negate_isSnan (x : FVal) : x.negate.isSnan = x.isSnan := by cases x <;> rfl
@[simp] theorem FVal.negate_isInf (x : FVal) : x.negate.isInf = x.isInf := by cases x <;> rfl

theorem FVal.eq_nan {x : FVal} (h : x.isNan = true) : x = .nan x.isSnan := by
  cases x with
  | nan s => rfl
  | inf _ | fin _ _ _ => cases h

theorem FVal.eq_inf {x : FVal} (h : x.isInf = true) : x = .inf x.neg := by
  cases x with
  | inf s => rfl
  | nan _ | fin _ _ _ => cases h

theorem FVal.eq_zero {x : FVal} (h : x.isZero = true) : ∃ s d, x = .fin s 0 d := by
  cases x with
  | fin s n d => exact ⟨s, d, by rw [beq_iff_eq.1 h]⟩
  | nan _ | inf _ => cases h

theorem FVal.negate_neg_of_isInf {x : FVal} (h : x.isInf = true) : x.negate.neg = !x.neg := by
  rw [FVal.eq_inf h]; rfl

/-! ### NaN operands (R65, R194) -/

section
variable (f : FFmt) (m : Rnd) {x y z : FVal}

theorem exactAdd_nan (h : (x.isNan || y.isNan) = true) : exactAdd m x y = .nan (x.isSnan || y.isSnan) := by
  cases x with
  | nan s => rfl
  | inf _ | fin _ _ _ => rw [FVal.eq_nan (x := y) h]; rfl

theorem exactMul_nan (h : (x.isNan || y.isNan) = true) : exactMul x y = .nan (x.isSnan || y.isSnan) := by
  cases x with
  | nan s => rfl
  | inf _ | fin _ _ _ => rw [FVal.eq_nan (x := y) h]; rfl

/-- The difference of infinities has no value. -/
theorem exactAdd_inf_inf (hx : x.isInf = true) (hy : y.isInf = true) (h : x.neg ≠ y.neg) : exactAdd m x y = .nan true := by
  rw [FVal.eq_inf hx, FVal.eq_inf hy, exactAdd, if_neg h]

/-- Nor has 0 × infinity. -/
theorem exactMul_zero_inf (h : (x.isInf && y.isZero || x.isZero && y.isInf) = true) : exactMul x y = .nan true := by
  simp only [Bool.or_eq_true, Bool.and_eq_true] at h
  rcases h with ⟨hx, hy⟩ | ⟨hx, hy⟩
  · obtain ⟨s, d, rfl⟩ := FVal.eq_zero hy
    rw [FVal.eq_inf hx]; rfl
  · obtain ⟨s, d, rfl⟩ := FVal.eq_zero hx
    rw [FVal.eq_inf hy]; rfl

theorem exactFma_zero_inf (h : (x.isInf && y.isZero || x.isZero && y.isInf) = true) : exactFma m x y z = .nan true :=
  if_pos (Bool.or_comm .. ▸ h)

theorem exactFma_nan (h : (x.isInf && y.isZero || x.isZero && y.isInf) = false) (hn : (x.isNan || y.isNan || z.isNan) = true) :
    exactFma m x y z = .nan (x.isSnan || y.isSnan || z.isSnan) := by
  rw [Bool.or_comm] at h
  rw [exactFma, h, hn, if_neg Bool.false_ne_true, if_pos rfl]

theorem toNat_ofNat_mod_width (a : Word64) : (BitVec.ofNat 64 (a.toNat % 2 ^ f.width)).toNat = a.toNat % 2 ^ f.width := by
  rw [BitVec.toNat_ofNat, Nat.mod_eq_of_lt (lt_of_le_of_lt (Nat.mod_le ..) a.isLt)]

theorem nanResults : Claim.NanResults := by
  intro f m a b c
  refine ⟨fun h => ⟨?_, ?_, ?_⟩, fun hx hy hne => ?_, fun hx hy he => ?_, fun h => ⟨?_, ?_⟩, fun h hzi => ?_,
    fun hx hy g => ?_, fun hx hy g => ?_, fun hx hy g => ?_⟩
  · rw [fpAdd, exactAdd_nan m h, FExact.round]
  · rw [fpSub, exactAdd_nan m (by simpa using h), FExact.round, FVal.negate_isSnan]
  · rw [fpMul, exactMul_nan h, FExact.round]
  · rw [fpAdd, exactAdd_inf_inf m hx hy hne]; rfl
  · rw [fpSub, exactAdd_inf_inf m hx (by simpa using hy) (by simp [FVal.negate_neg_of_isInf hy, he])]; rfl
  · rw [fpMul, exactMul_zero_inf h]; rfl
  · rw [fpFma, exactFma_zero_inf m h]; rfl
  · rw [fpFma, exactFma_nan m hzi h, FExact.round]
  · simp only [fpMinMax, hx, hy, toNat_ofNat_mod_width]
  · simp only [fpMinMax, hx, hy, toNat_ofNat_mod_width]
  · simp only [fpMinMax, hx, hy]

end

/-! ### Comparisons (R196) -/

theorem FVal.lt_of_nan {x y : FVal} (h : (x.isNan || y.isNan) = true) : x.lt y = false := by
  cases x with
  | nan s => rfl
  | inf _ | fin _ _ _ => rw [FVal.eq_nan (x := y) h]; rfl

theorem FVal.lt_asymm {x y : FVal} (h : x.lt y = true) : y.lt x = false := by
  cases x with
  | nan _ => cases h
  | inf s =>
    cases y with
    | nan _ => cases h
    | inf t => simp_all [FVal.lt]
    | fin t p q => simp_all [FVal.lt]
  | fin s n d =>
    cases y with
    | nan _ => cases h
    | inf t => simp_all [FVal.lt]
    | fin t p q => simp only [FVal.lt, decide_eq_true_eq, decide_eq_false_iff_not] at *; omega

theorem comparisonsAreExclusive : Claim.ComparisonsAreExclusive := by
  intro f a b
  refine ⟨rfl, rfl, rfl, rfl, ?_, fun n hn2 hn5 => ?_⟩
  · simp only [fpCond]
    cases hun : (unpack f a).isNan || (unpack f b).isNan with
    | true => simp [FVal.lt_of_nan hun, FVal.lt_of_nan (Bool.or_comm .. ▸ hun)]
    | false =>
      cases hlt : (unpack f a).lt (unpack f b) with
      | true => simp [FVal.lt_asymm hlt]
      | false => cases (unpack f b).lt (unpack f a) <;> rfl
  · obtain rfl | rfl | rfl | rfl : n = 2 ∨ n = 3 ∨ n = 4 ∨ n = 5 := by omega
    all_goals rfl

/-! ### Conversions to an integer (R75) -/

section
variable (f : FFmt) (signed : Bool) (w : Nat) (m : Rnd) (a : Word64)

/-- The clamped integer, with NV where it differs from the rounded one. -/
theorem fpToInt_fin {s : Bool} {n d : Nat} (h : unpack f a = .fin s n d) :
    let x := sgn s (roundInt m s n d).1
    let c := if signed then satI w x else satN w x
    (fpToInt f signed w m a).1 = c ∧ ((fpToInt f signed w m a).2 = flagNV ↔ c ≠ x) := by
  intro x c
  have hnx : ∀ b, flagIf b flagNX ≠ flagNV := by decide
  have heq : fpToInt f signed w m a = if c = x then (x, flagIf (roundInt m s n d).2 flagNX) else (c, flagNV) := by
    rw [fpToInt, h]
  rw [heq]
  split_ifs with hc
  · exact ⟨hc.symm, fun hf => absurd hf (hnx _), fun hne => absurd hc hne⟩
  · exact ⟨rfl, fun _ => hc, fun _ => rfl⟩

theorem conversionToIntegerClamps : Claim.ConversionToIntegerClamps := by
  intro f m a
  refine ⟨fun h => ?_, fun s h => ?_, fun s n d h => ?_⟩
  · rw [fpToInt, FVal.eq_nan h]
  · rw [fpToInt, h]; rfl
  · obtain ⟨hv, hf⟩ := fpToInt_fin f true 32 m a h
    obtain ⟨hn, -⟩ := fpToInt_fin f false 32 m a h
    refine ⟨hv, hn, hf.trans ?_⟩
    simp only [if_true, satI]
    omega

end

/-- Settles O18: what the exact results of NaNs and infinities are, that no two conditions hold at once, and that a conversion
clamps. -/
theorem floatingPointCorners : Obligations.FloatingPointCorners :=
  ⟨nanResults, comparisonsAreExclusive, conversionToIntegerClamps⟩

end Sys2Proof.Machine
end

section
/-! The next states of floating-point instructions (R67, R71, R88, R151, R194 to R213). -/

namespace Sys2Proof.Machine

/-! ### The shared shapes -/

section
variable {s : State} {w : Wave} {i : Instr} {f : Fields} {du : DUse} {always : Bool}

/-- A result with flags is written into the wave that has the turn. -/
theorem State.fpEnd_eq (hm : s.me = some w) (wide : Bool) (r : List (Word64 × FFlags)) :
    s.fpEnd f wide r = .next (s.setMe ((w.fpPut f wide r).after f)) := by
  rw [State.fpEnd, State.finish_eq s w f _ hm]; rfl

theorem State.fp1_runs (h : s.runs w i f .dest false = true) (k : Feed) (wide : Bool) (op : Word64 → Word64 × FFlags) :
    s.fp1 i f k wide op = .next (s.setMe ((w.fpPut f wide ((s.srcA w k f).map op)).after f)) := by
  rw [State.fp1, State.front_runs _ h, State.fpEnd_eq (State.runs_me h)]

theorem State.fp3_runs (h : s.runs w i f .dest false = true) (k kc : Feed) (op : Word64 → Word64 → Word64 → Word64 × FFlags) :
    s.fp3 i f k kc op = .next (s.setMe ((w.fpPut f kc.wide
      ((List.zip (s.srcA w k f) (List.zip (s.fieldB w k f) (s.srcC w kc f))).map fun x => op x.1 x.2.1 x.2.2)).after f)) := by
  rw [State.fp3, State.front_runs _ h, State.fpEnd_eq (State.runs_me h)]

theorem State.fpCompare_runs (h : s.runs w i f .dest false = true) (fm : FFmt) : s.fpCompare i f fm =
    let c := List.zipWith (fpCondPacked fm f.rnd) (s.srcA w (.fp fm) f) (s.srcB w (.fp fm) true f)
    .next (s.setMe (((w.putK f.d (condMask w.exec (c.map fun x => x.1))).orFlags
      (flagsOr ((lanesOf w.exec).map fun l => (c.getD l (false, 0)).2))).after f)) := by
  rw [State.fpCompare, State.front_runs _ h, State.finish_eq s w f _ (State.runs_me h)]

/-- Under SR the generator has made three steps before the result is written (R71). -/
def Wave.seeded (w : Wave) (f : Fields) : Wave := if f.rnd = 5 then { w with srseed := srAdvance w.srseed } else w

theorem State.fpEnd_seeded (hm : s.me = some w) (wide : Bool) (r : List (Word64 × FFlags)) :
    (if f.rnd = 5 then s.modMe fun w => { w with srseed := srAdvance w.srseed } else s).fpEnd f wide r =
      .next (s.setMe (((w.seeded f).fpPut f wide r).after f)) := by
  unfold Wave.seeded
  split_ifs with h5
  · rw [s.modMe_eq w _ hm, State.fpEnd_eq (s.setMe_me w _ hm), State.setMe_setMe]
  · exact State.fpEnd_eq hm wide r

end

/-! ### Arithmetic, comparisons, classes -/

theorem fusedAndTestOperationsComplete : Claim.FusedAndTestOperationsComplete := by
  intro s w f
  refine ⟨fun h => ?_, fun h => ?_, fun h => ?_, fun h => ?_, fun h => ?_, fun h => ?_, fun h => ?_⟩
  · exact State.fp3_runs h _ _ _
  · exact State.fp3_runs h _ _ _
  · exact State.fp3_runs h _ _ _
  · exact State.fpCompare_runs h _
  · exact State.fpCompare_runs h _
  · exact State.fp1_runs h _ _ _
  · exact State.fp1_runs h _ _ _

/-- Settles O16: each operation has one of three shapes, and the shape writes its result into the wave that has the turn. -/
theorem floatOperationsComplete : Obligations.FloatOperationsComplete :=
  ⟨fun _ _ _ => exec_floatArith, fusedAndTestOperationsComplete⟩

/-! ### Conversions -/

section
variable {s : State} {w : Wave} {f : Fields}

theorem exec_fcvt (h : s.runs w (.fcvt f) f .dest false = true) : exec (.fcvt f) s =
    let a := s.srcA w (.fp (FFmt.ofTy f.stype)) f
    let b := if f.cvtKind = 1 ∨ f.cvtKind = 2 then s.fieldB w (.fp (FFmt.ofTy f.stype)) f else a
    .next (s.setMe (((w.seeded f).fpPut f (f.ty == 0xD)
      (tabulate laneCount fun l => fcvtLane f (laneRnd f w.srseed l) (laneOf a l) (laneOf b l))).after f)) := by
  change execFcvt f s = _
  rw [execFcvt, State.front_runs _ h]
  exact State.fpEnd_seeded (State.runs_me h) _ _

theorem exec_i2f (h : s.runs w (.i2f f) f .dest false = true) : exec (.i2f f) s =
    let ka := Feed.ofTy f.stype
    let cv := fun (x : Word64) => fpOfInt (FFmt.ofTy f.ty) (Rnd.ofCode f.rnd) (readInt (tySigned f.stype) (tyWidth f.stype) x.toNat)
    .next (s.setMe ((if f.ty = 0xA ∨ f.ty = 0xB then
      w.fpPut f false (List.zipWith (fun x y => (pack16 (cv x).1 (cv y).1, (cv x).2 ||| (cv y).2)) (s.srcA w ka f) (s.fieldB w ka f))
      else w.fpPut f (f.ty == 0xD) ((s.srcA w ka f).map cv)).after f)) := by
  change execI2f f s = _
  rw [execI2f, State.front_runs _ h]
  dsimp only
  split_ifs with ht
  · exact State.fpEnd_eq (State.runs_me h) _ _
  · exact State.fpEnd_eq (State.runs_me h) _ _

theorem exec_ffrexp (h : s.runs w (.ffrexp f) f .dest false = true) : exec (.ffrexp f) s =
    let fm := FFmt.ofTy f.ty
    .next (s.setMe ((if f.mbits 4 4 = 0 then w.fpPut f (f.ty == 0xD) ((s.srcA w (.fp fm) f).map (fpMant fm))
      else w.fpPut f false ((s.srcA w (.fp fm) f).map fun x => ((wrap 32 (fpExp fm x)).setWidth 64, 0))).after f)) := by
  change execFfrexp f s = _
  rw [execFfrexp, State.fp1_runs h]
  by_cases hm : f.mbits 4 4 = 0
  · simp only [hm, beq_self_eq_true, Bool.and_true, if_true]
  · simp only [beq_eq_false_iff_ne.2 hm, Bool.and_false, if_neg hm, Bool.false_eq_true, if_false]

theorem exec_fqni (h : s.runs w (.fqni f) f (.both (f.pol.getLsbD 2)) false = true) : exec (.fqni f) s =
    let byte := f.mbits 8 7
    let x := s.srcA w (.fp .f32) f
    let e := s.fieldB w (.int 32) f
    let old := s.readV w (.int 32) 0 f.d
    .next (s.setMe (((w.seeded f).fpPut f false (tabulate laneCount fun l =>
      let q := fqniCode (laneRnd f w.srseed l) (laneOf x l) ((laneOf e l).toNat % 256)
      ((laneOf old l &&& ~~~(0xFF#64 <<< (8 * byte))) ||| ((wrap 8 q.1).setWidth 64 <<< (8 * byte)), q.2))).after f)) := by
  change execFqni f s = _
  rw [execFqni, State.front_runs _ h]
  exact State.fpEnd_seeded (State.runs_me h) _ _

end

theorem conversionsComplete : Claim.ConversionsComplete := by
  intro s w f
  refine ⟨exec_fcvt, fun h => ?_, exec_i2f, fun h => ?_, exec_ffrexp, exec_fqni, fun h => ?_⟩
  · exact State.fp1_runs h _ _ _
  · change execFldexp f s = _
    rw [execFldexp, State.front_runs _ h]
    exact State.fpEnd_eq (State.runs_me h) _ _
  · change execFdqni f s = _
    rw [execFdqni, State.front_runs _ h]
    exact State.fpEnd_eq (State.runs_me h) _ _

/-! ### Sums -/

theorem exactSumsComplete : Claim.ExactSumsComplete := by
  intro s w f
  refine ⟨fun h => ?_, fun h => ?_, fun h => ?_⟩
  · change execReduxF f s = _
    rw [execReduxF, State.front_runs _ h]
    exact State.finish_eq s w f _ (State.runs_me h)
  · change execXaAdd f s = _
    rw [execXaAdd, State.front_runs _ h]
    exact State.finish_eq s w f _ (State.runs_me h)
  · change execXaRnd f s = _
    rw [execXaRnd, State.front_runs _ h]
    exact State.fpEnd_eq (State.runs_me h) _ _

/-! ### Special functions -/

/-- A producer's result on its way to a wave's registers (R151). -/
def State.withFill (s : State) (w : Wave) (first : Nat) (data : List Lanes) (fl : FFlags) : State :=
  { s with uid := s.uid + 1, fills := s.fills ++ [(⟨s.uid, w.id, first, w.exec, data, fl, true⟩ : Fill)] }

section
variable {s : State} {w : Wave} {f : Fields} (hm : s.me = some w) (data : List Lanes) (fl : FFlags)
include hm

theorem State.startFill_idle (he : w.exec = 0) : s.startFill w f data fl = .next (s.setMe (w.after f)) := by
  rw [State.startFill, if_pos he]
  exact State.finish_eq s w f _ hm

theorem State.startFill_reg (he : w.exec ≠ 0) {n : BitVec 8} (hd : f.d = .v n) : s.startFill w f data fl =
    .next ((s.withFill w n.toNat data fl).setMe ((w.markEmpty n.toNat data.length).after f)) := by
  rw [State.startFill, if_neg he, hd]
  exact State.finish_eq (s.withFill w n.toNat data fl) w f _ hm

theorem State.startFill_flags (he : w.exec ≠ 0) (hd : ∀ n, f.d ≠ .v n) : s.startFill w f data fl =
    .next ((s.withFill w 0 [] fl).setMe (w.after f)) := by
  rw [State.startFill, if_neg he]
  split
  · next n hn => exact absurd hn (hd n)
  · exact State.finish_eq (s.withFill w 0 [] fl) w f _ hm

end

theorem specialFunctionsComplete : Claim.SpecialFunctionsComplete := by
  intro s w f x hx h
  have hshape : exec (x.1 f) s = s.sfu (x.1 f) f x.2 := by
    clear h; fin_cases hx <;> rfl
  have hm := State.runs_me h
  rw [hshape, State.sfu, State.front_runs _ h]
  exact ⟨State.startFill_idle hm _ _, fun n he hd => State.startFill_reg hm _ _ he hd, State.startFill_flags hm _ _⟩

/-- Settles O17: every conversion and sum ends as a write of the wave, and every special function as a fill on its way. -/
theorem conversionsAndFunctionsComplete : Obligations.ConversionsAndFunctionsComplete :=
  ⟨conversionsComplete, exactSumsComplete, specialFunctionsComplete⟩

end Sys2Proof.Machine
end

section
/-! Events of memory and results that arrive (R68, R151, R231 to R233, R249). -/

namespace Sys2Proof.Machine

/-! ### A write that completes -/

section
variable {s : State} {x : Write} {pre post : List Write}

/-- The write of a name, where only one has it. -/
theorem State.write_of_split (h : s.writes = pre ++ x :: post) (hid : ∀ y ∈ pre, y.id ≠ x.id) : s.write x.id = some x := by
  have hpre : pre.find? (fun y => y.id == x.id) = none := by simpa using hid
  rw [State.write, h, List.find?_append, hpre]
  simp

/-- The earliest write of its sector completes alone. -/
theorem State.complete_first (h : s.writes = pre ++ x :: post) (hid : ∀ y ∈ pre ++ post, y.id ≠ x.id)
    (hsec : ∀ y ∈ pre, y.sector ≠ x.sector) (hdone : x.doneAt s.time = true) (hack : x.acked = true) :
    s.complete x.id = { s with
      mem := cellsSet s.mem x.bytes
      agenda := s.agenda ++ x.bells.map fun (i : Instr) => (⟨0, .event i⟩ : Turn)
      writes := pre ++ post } := by
  have hpre : ∀ y ∈ pre, y.id ≠ x.id := fun y hy => hid y (List.mem_append_left _ hy)
  have hupto : s.writes.takeWhile (fun y => y.id != x.id) = pre := by
    rw [h, List.takeWhile_append_of_pos (by simpa using hpre)]
    simp
  have hfold : ((pre ++ [x]).filter fun y => y.sector == x.sector).takeWhile (fun y => y.doneAt s.time && y.acked) = [x] := by
    have : pre.filter (fun y => y.sector == x.sector) = [] := by simpa using hsec
    simp [this, hdone, hack]
  have hkeep : s.writes.filter (fun y => !([x].any fun z => z.id == y.id)) = pre ++ post := by
    have hne : ∀ y ∈ pre ++ post, (!([x].any fun z => z.id == y.id)) = true := fun y hy => by simpa using (hid y hy).symm
    rw [h, List.filter_append, List.filter_cons_of_neg (by simp), ← List.filter_append, List.filter_eq_self.2 hne]
  rw [State.complete, State.write_of_split h hpre]
  simp only [hupto, hfold, hkeep]
  simp
end

theorem completionReachesMemory : Claim.CompletionReachesMemory := by
  intro s x pre post h hid hsec hdone hack
  have hfind := State.write_of_split h fun y hy => hid y (List.mem_append_left _ hy)
  have hexec : exec (.writeCompletion x.id) s = .next (s.complete x.id) := by
    change execWriteCompletion x.id s = _
    simp only [execWriteCompletion, hfind, hdone, if_true]
  rw [hexec, State.complete_first h hid hsec hdone hack]
  exact ⟨rfl, rfl, rfl, rfl, rfl⟩

/-! ### Acknowledgements, leases and fills -/

theorem find?_modWhere {α : Type} (l : List α) (p : α → Bool) (f : α → α) (h : ∀ a, p (f a) = p a) :
    (modWhere l p f).find? p = (l.find? p).map f := by
  induction l with
  | nil => rfl
  | cons a r ih =>
    cases hp : p a with
    | true => simp [modWhere, hp, h]
    | false => simpa [modWhere, hp] using ih

theorem State.modWave_waveAt (s : State) (id : WaveId) (f : Wave → Wave) (h : ∀ w, (f w).id = w.id) :
    (s.modWave id f).waveAt id = (s.waveAt id).map f :=
  find?_modWhere _ _ _ fun w => by simp only [h]

/-- An event of a fill: its wave takes it, and it leaves the list. -/
theorem exec_longLatencyFill (s : State) (id : Nat) {f : Fill} (h : (s.fills.find? fun f => f.id == id) = some f) :
    exec (.longLatencyFill id) s = .next { s.modWave f.wave fun w => w.takeFill f with
      fills := s.fills.filter fun x => x.id != id } := by
  change execLongLatencyFill id s = _
  rw [execLongLatencyFill, h]
  rfl

/-! ### A fill's registers -/

section
variable (w : Wave) (f : Fill)

/-- The registers of a wave with the lanes of the first n registers of a fill. -/
def Wave.fillLanes (n : Nat) : Wave :=
  (List.range n).foldl (fun w j =>
    w.setV (f.first + j) (mergeLanes f.mask (w.vAt (f.first + j)) (f.data.getD j zeroLanes))) w

theorem Wave.takeFill_eq :
    w.takeFill f = ((w.fillLanes f f.data.length).markFull f.first f.data.length).orFlags f.flags := rfl

theorem Wave.fillLanes_succ (n : Nat) : w.fillLanes f (n + 1) = (w.fillLanes f n).setV (f.first + n)
    (mergeLanes f.mask ((w.fillLanes f n).vAt (f.first + n)) (f.data.getD n zeroLanes)) := by
  simp [Wave.fillLanes, List.range_succ]

theorem Wave.fillLanes_eq (n : Nat) : ∃ v, w.fillLanes f n = { w with v := v } ∧ v.length = w.alloc := by
  induction n with
  | zero => exact ⟨_, rfl, rfl⟩
  | succ n ih =>
    obtain ⟨v, hv, hl⟩ := ih
    rw [Wave.fillLanes_succ, hv]
    exact ⟨_, rfl, by rw [modAt_length, hl]⟩

theorem Wave.fillLanes_vReg_outside (n k : Nat) (h : k < f.first ∨ f.first + n ≤ k) : (w.fillLanes f n).vReg k = w.vReg k := by
  induction n with
  | zero => rfl
  | succ n ih => rw [Wave.fillLanes_succ, Wave.setV_vReg, if_neg (by omega), ih (by omega)]

theorem Wave.fillLanes_vAt (n j : Nat) (hj : j < n) (ha : f.first + j < w.alloc) :
    (w.fillLanes f n).vAt (f.first + j) = mergeLanes f.mask (w.vAt (f.first + j)) (f.data.getD j zeroLanes) := by
  induction n with
  | zero => omega
  | succ n ih =>
    obtain ⟨v, hv, hl⟩ := w.fillLanes_eq f n
    have hlen : (w.fillLanes f n).v.length = w.alloc := by rw [hv, hl]
    rw [Wave.fillLanes_succ, Wave.vAt, Wave.setV_vReg, hlen]
    rcases Nat.lt_succ_iff_lt_or_eq.1 hj with h | rfl
    · rw [if_neg (by omega)]
      exact ih h
    · rw [if_pos ⟨rfl, ha⟩, Wave.vAt, w.fillLanes_vReg_outside f j _ (by omega)]
      rfl

/-- Registers marked full are full, and otherwise as they were. -/
theorem Wave.markFull_vReg (first n k : Nat) : (w.markFull first n).vReg k =
    if first ≤ k ∧ k < first + n then { w.vReg k with producer := none } else w.vReg k := by
  induction n with
  | zero => rw [if_neg (by omega)]; rfl
  | succ n ih =>
    have hstep : (w.markFull first (n + 1)).v = modAt (w.markFull first n).v (first + n) fun r => { r with producer := none } := by
      simp [Wave.markFull, List.range_succ]
    rw [Wave.vReg, List.getD_eq_getElem?_getD] at ih
    rw [Wave.vReg, List.getD_eq_getElem?_getD, hstep, modAt_get?]
    by_cases hk : first + n = k
    · rw [if_neg (by omega)] at ih
      rw [if_pos hk, if_pos (by omega), ← ih]
      cases (w.markFull first n).v[k]? <;> rfl
    · rw [if_neg hk, ih]
      exact if_congr (by omega) rfl rfl

end

theorem fillWritesItsLanes : Claim.FillWritesItsLanes := by
  intro w f j l hj ha hl
  obtain ⟨v, hv, -⟩ := w.fillLanes_eq f f.data.length
  have hreg : ∀ k, (w.takeFill f).vReg k = if f.first ≤ k ∧ k < f.first + f.data.length then
      { (w.fillLanes f f.data.length).vReg k with producer := none } else (w.fillLanes f f.data.length).vReg k :=
    fun k => Wave.markFull_vReg _ _ _ k
  refine ⟨?_, ?_, fun n hn => ?_, ?_⟩
  · have hlanes := w.fillLanes_vAt f _ j hj ha
    rw [Wave.vAt] at hlanes
    rw [Wave.vAt, hreg, if_pos (by omega), hlanes, lane_mergeLanes _ _ _ _ hl]
  · rw [Wave.full, hreg, if_pos (by omega)]; rfl
  · rw [hreg, if_neg (by omega), w.fillLanes_vReg_outside f _ n hn]
  · rw [Wave.takeFill_eq, hv]; rfl

theorem Wave.takeFill_id (w : Wave) (f : Fill) : (w.takeFill f).id = w.id := by
  obtain ⟨v, hv, -⟩ := w.fillLanes_eq f f.data.length
  rw [Wave.takeFill_eq, hv]; rfl

theorem memoryEventsComplete : Claim.MemoryEventsComplete := by
  intro s id
  refine ⟨fun x hx hpool hack hacc hdone => ?_, fun _ => rfl, fun f w hf hw => ?_⟩
  · change execPoolWriteAcknowledge id s = _
    rw [execPoolWriteAcknowledge, hx]
    simp [hpool, hack, hacc, hdone, State.acknowledge]
  · rw [exec_longLatencyFill s id hf]
    refine ⟨rfl, ?_, rfl, rfl⟩
    have hat := s.modWave_waveAt f.wave (fun w => w.takeFill f) fun w => w.takeFill_id f
    rw [hw] at hat
    exact hat

/-- Settles O37: what an event does to the list of writes, to the copies in L1, and to a wave's registers. -/
theorem memoryEventsEnd : Obligations.MemoryEventsEnd :=
  ⟨completionReachesMemory, memoryEventsComplete, fillWritesItsLanes⟩

end Sys2Proof.Machine
end

section
/-! The device right after reset (R96, R134, R404, R430, R431, R437, R448). -/

namespace Sys2Proof.Machine

theorem State.reset_hart {h : Nat} (hh : h < 32) : State.reset.hart h = Hart.reset h := by
  have hget : State.reset.harts[h]? = some (Hart.reset h) := by
    change ((List.range 32).map Hart.reset)[h]? = _
    rw [List.getElem?_map, List.getElem?_range hh, Option.map_some]
  rw [State.hart, List.getD_eq_getElem?_getD, hget, Option.getD_some]

/-- No context is listed, so every tag has the context that a list without it stands for. -/
theorem State.reset_ctx (tag : Nat) : State.reset.ctx tag = Ctx.empty tag := rfl

theorem State.reset_port (p : Nat) : State.reset.port p = ⟨.down, .down, 0, 0, none⟩ := by
  change (List.replicate 16 _).getD p _ = _
  rw [List.getD_eq_getElem?_getD, List.getElem?_replicate]
  split <;> rfl

/-- Settles O5: harts, contexts and ports stand as their reset values say, and the rest is written out in `State.reset`. -/
theorem resetState : Obligations.ResetState := by
  refine ⟨rfl, rfl, fun h hh => ?_, fun tag => ?_, fun p => ?_, rfl, rfl, rfl, rfl, rfl⟩
  · rw [State.reset_hart hh]; exact ⟨rfl, rfl⟩
  · rw [State.reset_ctx]; rfl
  · rw [State.reset_port]

end Sys2Proof.Machine
end

section
/-! A return from a trap (R100, R101, R105): its frame's fields, the registers that it writes back, and what it undoes. -/

namespace Sys2Proof.Machine

/-! ### Parts of a field -/

theorem bytesOfNat_add (k n x : Nat) : bytesOfNat (k + n) x = bytesOfNat k x ++ bytesOfNat n (x / 256 ^ k) := by
  induction k generalizing x with
  | zero => simp [bytesOfNat]
  | succ k ih =>
    rw [Nat.succ_add, bytesOfNat, bytesOfNat, ih, Nat.div_div_eq_div_mul, Nat.pow_succ', List.cons_append]

/-- A number that fits the first bytes of its field is read back from them. -/
theorem numAt_field_low {k n x : Nat} (r : List Byte) (h : x < 256 ^ k) : numAt (bytesOfNat (k + n) x ++ r) 0 k = x := by
  rw [bytesOfNat_add, List.append_assoc, numAt_field _ h]

theorem byteAt_eq_numAt (l : List Byte) (off : Nat) : byteAt l off = numAt l off 1 := by
  rw [byteAt, numAt, List.getD_eq_getElem?_getD, ← Nat.add_zero off, ← List.getElem?_drop, Nat.add_zero]
  cases l.drop off <;> simp [natOfBytes]

/-! ### The frame's fields, whatever the cause -/

section
variable (w : Wave) (cause : Nat) (mask : Mask) (info : Word64)

theorem Wave.trapFrame_pc : numAt (w.trapFrame cause mask info) 0 8 = w.pc.toNat := by
  rw [w.trapFrame_eq cause mask info]
  exact numAt_field _ w.pc.isLt

/-- The cause has 4 bytes of its own. -/
theorem Wave.trapFrame_beyond_cause {off n : Nat} (h : 0x14 ≤ off) :
    numAt (w.trapFrame cause mask info) off n = numAt (w.trapFrame 0 mask info) off n := by
  rw [w.trapFrame_eq cause mask info, w.trapFrame_eq 0 mask info]
  conv_lhs => rw [numAt_beyond_field _ (by omega), numAt_beyond_field _ (by omega), numAt_beyond_field _ (by omega)]
  conv_rhs => rw [numAt_beyond_field _ (by omega), numAt_beyond_field _ (by omega), numAt_beyond_field _ (by omega)]

/-- TRET reads two of REP's four bytes (R101, R105). -/
theorem Wave.trapFrame_rep : numAt (w.trapFrame cause mask info) 0x14 2 = w.rep.toNat := by
  rw [w.trapFrame_eq cause mask info]
  iterate 3 rw [numAt_beyond_field _ (by decide)]
  exact numAt_field_low (n := 2) _ w.rep.isLt

theorem Wave.trapFrame_c : byteAt (w.trapFrame cause mask info) 0x24 = w.c.toNat := by
  rw [byteAt_eq_numAt, w.trapFrame_eq cause mask info]
  iterate 5 rw [numAt_beyond_field _ (by decide)]
  exact numAt_field_low (n := 3) _ w.c.isLt

theorem Wave.trapFrame_k {i : Nat} (hi : i < 8) : numAt (w.trapFrame cause mask info) (0x28 + 12 * i) 12 = (w.kAt i).toNat := by
  obtain ⟨-, -, -, -, -, -, -, hk, -⟩ := trapFrameLayout w 0 mask info (by decide)
  rw [w.trapFrame_beyond_cause cause mask info (by omega), hk i hi]

theorem Wave.trapFrame_s {i : Nat} (hi : i < 16) : numAt (w.trapFrame cause mask info) (0x88 + 4 * i) 4 = (w.sAt i).toNat := by
  obtain ⟨-, -, -, -, -, -, -, -, hs⟩ := trapFrameLayout w 0 mask info (by decide)
  rw [w.trapFrame_beyond_cause cause mask info (by omega), hs i hi]

end

/-! ### The registers that a return writes -/

/-- The first n mask registers written one after another. -/
def Wave.setMasks (w : Wave) (m : Nat → Mask) (n : Nat) : Wave := (List.range n).foldl (fun w i => w.setK i (m i)) w

theorem Wave.setMasks_succ (w : Wave) (m : Nat → Mask) (n : Nat) : w.setMasks m (n + 1) = (w.setMasks m n).setK n (m n) := by
  simp [Wave.setMasks, List.range_succ]

theorem Wave.setMasks_eq (w : Wave) (m : Nat → Mask) (n : Nat) : ∃ k, w.setMasks m n = { w with k := k } := by
  induction n with
  | zero => exact ⟨_, rfl⟩
  | succ n ih =>
    obtain ⟨k, hk⟩ := ih
    rw [Wave.setMasks_succ, hk]
    exact ⟨_, rfl⟩

/-- Masks that are the registers' earlier values, k0 within live, put those values back (R147). -/
theorem Wave.setMasks_k {w : Wave} {k : List Mask} {m : Nat → Mask} (hlen : w.k.length = k.length)
    (hlive : k.getD 0 0 &&& w.live = k.getD 0 0) (n : Nat) (hn : n ≤ k.length) (hm : ∀ i, i < n → m i = k.getD i 0) :
    (w.setMasks m n).k = k.take n ++ w.k.drop n := by
  induction n with
  | zero => rfl
  | succ n ih =>
    obtain ⟨k', hk'⟩ := w.setMasks_eq m n
    have hval : (if n = 0 then m n &&& (w.setMasks m n).live else m n) = k[n] := by
      have hget : k.getD n 0 = k[n] := List.getD_eq_getElem _ _ hn
      rw [← hget, hm n n.lt_succ_self, hk']
      split
      · next h => subst h; exact hlive
      · rfl
    have hset : (k.take n ++ w.k.drop n).set n k[n] = k.take (n + 1) ++ w.k.drop (n + 1) := by
      rw [List.set_append_right _ _ (by simp), List.length_take_of_le (by omega), Nat.sub_self,
        List.drop_eq_getElem_cons (by omega), List.set_cons_zero, List.take_succ_eq_append_getElem (by omega), List.append_assoc]
      rfl
    rw [Wave.setMasks_succ, ← hset, ← ih (by omega) fun i hi => hm i (by omega), ← hval]
    rfl

theorem tabulate_eq_take {α : Type} {l : List α} {n : Nat} {f : Nat → α} (hn : n ≤ l.length)
    (hf : ∀ i (h : i < n), f i = l[i]) : tabulate n f = l.take n := by
  refine List.ext_getElem (by simp [hn]) fun i hi _ => ?_
  rw [tabulate_length] at hi
  simp [tabulate, hf i hi]

/-- s0 to s15 as a frame holds them (R101). -/
def Wave.withScalars (w : Wave) (fr : List Byte) : Wave :=
  { w with s := tabulate 16 (fun i => BitVec.ofNat 32 (numAt fr (0x88 + 4 * i) 4)) ++ w.s.drop 16 }

/-- A mask register as a frame holds it (R101). -/
def frameMask (fr : List Byte) (i : Nat) : Mask := BitVec.ofNat 96 (numAt fr (0x28 + 12 * i) 12)

/-- What a return takes from the frame, and what it leaves (R105). -/
theorem Wave.leaveTrap_fields (w : Wave) (fr : List Byte) :
    let x := w.leaveTrap fr
    x.pc = BitVec.ofNat 64 (numAt fr 0 8 / 4 * 4) ∧ x.sup = false ∧ x.rep = BitVec.ofNat 16 (numAt fr 0x14 2) ∧
      x.c = BitVec.ofNat 8 (byteAt fr 0x24) ||| 1 ∧ x.k = ((w.withScalars fr).setMasks (frameMask fr) 8).k ∧
      x.s = (w.withScalars fr).s ∧ x.v = w.v ∧ x.live = w.live ∧ x.trapmask = w.trapmask ∧ x.trapinfo = w.trapinfo := by
  intro x
  obtain ⟨k, hk⟩ := (w.withScalars fr).setMasks_eq (frameMask fr) 8
  have hx : ∃ loop loopSup pass, x = { (w.withScalars fr) with
      k := k, pc := BitVec.ofNat 64 (numAt fr 0 8 / 4 * 4), jumped := true, c := BitVec.ofNat 8 (byteAt fr 0x24) ||| 1
      rep := BitVec.ofNat 16 (numAt fr 0x14 2), sup := false, wait := Wait.none, loop := loop, loopSup := loopSup, pass := pass } := by
    obtain ⟨l, m, hgoto⟩ := ((w.withScalars fr).setMasks (frameMask fr) 8).goto_eq (BitVec.ofNat 64 (numAt fr 0 8 / 4 * 4)) true
    change ∃ loop loopSup pass, Wave.goto { ((w.withScalars fr).setMasks (frameMask fr) 8).goto _ true with
      c := _, rep := _, sup := false, pass := _, wait := _ } _ _ = _
    rw [hgoto, hk]
    exact ⟨_, _, _, rfl⟩
  obtain ⟨loop, loopSup, pass, hx⟩ := hx
  rw [hx, hk]
  exact ⟨rfl, rfl, rfl, rfl, rfl, rfl, rfl, rfl, rfl, rfl⟩

/-! ### What it undoes -/

theorem or_one_of_bit_zero : ∀ c : BitVec 8, c.getLsbD 0 = true → c ||| 1 = c := by decide

section
variable (w : Wave) (v cause : Nat) (mask : Mask) (info : Word64)

/-- The scalar registers go back to what they were: the frame holds the first 16, and the entry leaves the rest. -/
theorem Wave.withScalars_trapFrame (hs : 16 ≤ w.s.length) :
    ((w.enterTrap v cause mask info).withScalars (w.trapFrame cause mask info)).s = w.s := by
  change tabulate 16 _ ++ w.s.drop 16 = w.s
  rw [tabulate_eq_take hs fun i hi => ?_, List.take_append_drop]
  rw [w.trapFrame_s cause mask info hi, BitVec.ofNat_toNat, BitVec.setWidth_eq]
  exact List.getD_eq_getElem _ _ _

/-- So do the mask registers, k0 too, which the entry replaces by the trap's mask (R100). -/
theorem Wave.setMasks_trapFrame (hk : w.k.length = 8) (hlive : w.exec &&& w.live = w.exec) :
    (((w.enterTrap v cause mask info).withScalars (w.trapFrame cause mask info)).setMasks
      (frameMask (w.trapFrame cause mask info)) 8).k = w.k := by
  have hmask : ∀ i, i < 8 → frameMask (w.trapFrame cause mask info) i = w.k.getD i 0 := fun i hi => by
    rw [frameMask, w.trapFrame_k cause mask info hi, BitVec.ofNat_toNat, BitVec.setWidth_eq, Wave.kAt]
  have hlen : ((w.enterTrap v cause mask info).withScalars (w.trapFrame cause mask info)).k.length = w.k.length :=
    List.length_set
  rw [Wave.setMasks_k hlen hlive 8 (by omega) hmask, List.take_of_length_le (by omega), List.drop_of_length_le (by omega),
    List.append_nil]

end

/-- Settles O25: each register that TRET writes comes from the field of the frame that the trap's entry stored it in. -/
theorem trapReturnRestores : Obligations.TrapReturnRestores := by
  intro w v cause mask info _ hpc hc hk hlive hs x
  obtain ⟨hxpc, hxsup, hxrep, hxc, hxk, hxs, hxv, hxlive, hxmask, hxinfo⟩ :=
    (w.enterTrap v cause mask info).leaveTrap_fields (w.trapFrame cause mask info)
  refine ⟨?_, hxsup, ?_, ?_, hxk.trans (w.setMasks_trapFrame v cause mask info hk hlive),
    hxs.trans (w.withScalars_trapFrame v cause mask info hs), hxv, hxlive, hxmask, hxinfo⟩
  · rw [hxpc, Wave.trapFrame_pc, Nat.div_mul_cancel (Nat.dvd_of_mod_eq_zero hpc), BitVec.ofNat_toNat, BitVec.setWidth_eq]
  · rw [hxrep, Wave.trapFrame_rep, BitVec.ofNat_toNat, BitVec.setWidth_eq]
  · rw [hxc, Wave.trapFrame_c, BitVec.ofNat_toNat, BitVec.setWidth_eq, or_one_of_bit_zero w.c hc]

end Sys2Proof.Machine
end

section
/-! Context commands (R94 to R99, R317, R428). -/

namespace Sys2Proof.Machine

/-! ### CREATE and COMMIT -/

section
variable {s s1 t : State} {tag blk : Nat} {b : List Byte}

theorem exec_ctxCreate_free (h : (s.ctx tag).st = .free) : exec (.ctxCreate tag blk) s =
    .next (((s.physStore tag (s.ctxBlock tag) (bytesOfNat 8 0 ++ bytesOfNat 2 (tag + 4096) ++ List.replicate 118 0)).2.modCtx tag
      fun _ => { Ctx.empty tag with st := .building }).cmdStatus blk 0) := if_neg (not_not.2 h)

theorem exec_ctxCreate_taken (h : (s.ctx tag).st ≠ .free) : exec (.ctxCreate tag blk) s = .next (s.cmdStatus blk 1) := if_pos h

/-- A block that is read is read as it stands once its sectors' errors have been met (R16, R94). -/
theorem State.readBlock_some (h : s.readBlock tag = (some b, s1)) : b = s1.ownBytes (s1.ctxBlock tag) 128 := by
  rw [State.readBlock] at h
  split at h
  obtain ⟨hb, rfl⟩ := Prod.mk.inj h
  split at hb
  · cases hb
  · exact (Option.some.inj hb).symm

/-- A version of major number 1 is accepted with the lower of the two minor numbers (R97). -/
theorem negotiate_eq_some_iff {written minor v : Nat} :
    negotiate written 1 minor = some v ↔ written / 16 = 1 ∧ v = 16 + min (written % 16) minor := by
  rw [negotiate]
  split
  · next h => simp [h, eq_comm]
  · next h => simp [h]

theorem exec_ctxCommit_wrongState (h : (s.ctx tag).st ≠ .building) : exec (.ctxCommit tag blk) s = .next (s.cmdStatus blk 1) :=
  if_pos h

theorem exec_ctxCommit_poisoned (h : (s.ctx tag).st = .building) (hr : s.readBlock tag = (none, t)) :
    exec (.ctxCommit tag blk) s = .next (t.cmdStatus blk 5) := by
  change execCtxCommit tag blk s = _
  rw [execCtxCommit, if_neg (not_not.2 h), hr]

theorem exec_ctxCommit_badBlock (h : (s.ctx tag).st = .building) (hr : s.readBlock tag = (some b, s1)) (hb : blockBad b = true) :
    exec (.ctxCommit tag blk) s = .next (s1.cmdStatus blk 2) := by
  change execCtxCommit tag blk s = _
  rw [execCtxCommit, if_neg (not_not.2 h), hr]
  exact if_pos hb

theorem exec_ctxCommit_version (h : (s.ctx tag).st = .building) (hr : s.readBlock tag = (some b, s1)) (hb : blockBad b = false)
    (hv : ∃ i ∈ [88, 89, 90], byteAt b i / 16 ≠ 1) : exec (.ctxCommit tag blk) s = .next (s1.cmdStatus blk 3) := by
  change execCtxCommit tag blk s = _
  rw [execCtxCommit, if_neg (not_not.2 h), hr]
  dsimp only
  rw [if_neg (by simp [hb])]
  split
  · next hrv hqv hmv =>
    obtain ⟨i, hi, hne⟩ := hv
    simp only [List.mem_cons, List.not_mem_nil, or_false] at hi
    rcases hi with rfl | rfl | rfl
    · exact absurd (negotiate_eq_some_iff.1 hrv).1 hne
    · exact absurd (negotiate_eq_some_iff.1 hqv).1 hne
    · exact absurd (negotiate_eq_some_iff.1 hmv).1 hne
  · rfl

/-- What COMMIT takes from a block, with the version of records that the device and the block agree on (R94, R97). -/
def Ctx.committing (c : Ctx) (b : List Byte) (v : List Nat) : Ctx :=
  { c with
    ptroot := numAt b 0 8 / 4096 % 2 ^ 40 * 4096, prio := byteAt b 10 % 8, trapvec := numAt b 16 8, supbase := numAt b 24 8
    supsize := numAt b 32 8, htable := numAt b 40 8, fpool := numAt b 48 8, mailbox := numAt b 56 8, mblog2 := byteAt b 64 % 16
    qlist := numAt b 72 8, qcount := numAt b 80 2, recver := BitVec.ofNat 8 (v.getD 0 0), qver := 16, mbver := 16
    savebase := numAt b 96 8, savesize := numAt b 104 8, mbnext := 0 }

theorem exec_ctxCommit_good (h : (s.ctx tag).st = .building) (hr : s.readBlock tag = (some b, s1)) (hb : blockBad b = false)
    (hv : ∀ i ∈ [88, 89, 90], byteAt b i / 16 = 1) :
    let v := [16 + min (byteAt b 88 % 16) 1, 16, 16]
    exec (.ctxCommit tag blk) s = .next ((((s1.physStore tag (s1.ctxBlock tag + 88) (v.flatMap fun x => bytesOfNat 1 x)).2.modCtx tag
      fun c => c.committing b v).setCtx tag .ready).cmdStatus blk 0) := by
  have hrv := negotiate_eq_some_iff (minor := 1).2 ⟨hv 88 (by simp), rfl⟩
  have hqv := negotiate_eq_some_iff (minor := 0) (v := 16).2 ⟨hv 89 (by simp), by rw [Nat.min_zero]⟩
  have hmv := negotiate_eq_some_iff (minor := 0) (v := 16).2 ⟨hv 90 (by simp), by rw [Nat.min_zero]⟩
  change execCtxCommit tag blk s = _
  rw [execCtxCommit, if_neg (not_not.2 h), hr]
  dsimp only
  rw [if_neg (by simp [hb]), hrv, hqv, hmv]
  rfl

/-! ### DESTROY and INVAL -/

theorem exec_ctxDestroy (hf : (s.ctx tag).st ≠ .free) (hd : (s.ctx tag).st ≠ .destroying) :
    let u := ((s.dropCords tag).dropRecords tag).freeSlots tag true
    exec (.ctxDestroy tag blk) s =
      .next ((((u.qpsOf tag).foldl (fun s q => s.qpError q none) u).setCtx tag .destroying).cmdStatus blk 0) :=
  if_neg (not_or_intro hf hd)

theorem exec_ctxDestroy_wrongState (h : (s.ctx tag).st = .free ∨ (s.ctx tag).st = .destroying) :
    exec (.ctxDestroy tag blk) s = .next (s.cmdStatus blk 1) := if_pos h

theorem exec_inval {addr len : Word64} (h : (s.ctx tag).st ≠ .free) :
    let i : Inval := ⟨s.uid, tag, if len = 0 then none else some (addr.toNat, len.toNat), [], false, 0⟩
    exec (.inval tag addr len blk) s = .next { s with uid := s.uid + 1, commands := s.commands ++ [(⟨i, blk⟩ : Command)] } :=
  if_neg h

theorem exec_inval_free {addr len : Word64} (h : (s.ctx tag).st = .free) :
    exec (.inval tag addr len blk) s = .next (s.cmdStatus blk 1) := if_pos h

end

/-! ### The tables that hold entries by tag -/

/-- No table but that of contexts differs, except by lines that have left L1. -/
def State.keepsTables (s t : State) : Prop :=
  t.tlb = s.tlb ∧ t.queues = s.queues ∧ t.icache = s.icache ∧ t.walks = s.walks ∧ t.touches = s.touches ∧ t.comms = s.comms ∧
    ∀ x ∈ t.l1, x ∈ s.l1

theorem State.keepsTables_refl (s : State) : s.keepsTables s := ⟨rfl, rfl, rfl, rfl, rfl, rfl, fun _ h => h⟩

theorem State.keepsTables.trans {s t u : State} (h : s.keepsTables t) (h' : t.keepsTables u) : s.keepsTables u := by
  obtain ⟨ht, hq, hi, hw, hf, hc, hl⟩ := h
  obtain ⟨ht', hq', hi', hw', hf', hc', hl'⟩ := h'
  exact ⟨ht'.trans ht, hq'.trans hq, hi'.trans hi, hw'.trans hw, hf'.trans hf, hc'.trans hc, fun x h => hl x (hl' x h)⟩

/-- A fold of steps that each keep the tables. -/
theorem State.foldl_keepsTables {α β : Type} (get : β → State) (one : β → α → β) (h : ∀ b a, (get b).keepsTables (get (one b a)))
    (l : List α) (b : β) : (get b).keepsTables (get (l.foldl one b)) := by
  induction l generalizing b with
  | nil => exact (get b).keepsTables_refl
  | cons a l ih => exact (h b a).trans (ih (one b a))

theorem State.modCtx_keepsTables (s : State) (tag : Nat) (f : Ctx → Ctx) : s.keepsTables (s.modCtx tag f) := by
  unfold State.modCtx; split <;> exact s.keepsTables_refl

theorem State.modLease_keepsTables (s : State) (t : LeaseTile) (f : Lease → Lease) : s.keepsTables (s.modLease t f) := by
  unfold State.modLease; split <;> exact s.keepsTables_refl

theorem State.contend_keepsTables (s : State) (pa : Nat) (core : Option Nat) (write : Bool) :
    s.keepsTables (s.contend pa core write) := by
  unfold State.contend; split <;> exact s.keepsTables_refl

theorem State.raisePort_keepsTables (s : State) (a : Agent) (c : Nat) : s.keepsTables (s.raisePort a c) := by
  unfold State.raisePort; split <;> exact s.keepsTables_refl

theorem State.acceptNow_keepsTables (s : State) (n : Nat) : s.keepsTables (s.acceptNow n) := by
  have hplace : ∀ (t : State) (l : List Write) (c : Nat), t.keepsTables (State.returnTime { t with writes := l } n c) :=
    fun t _ _ => t.keepsTables_refl
  unfold State.acceptNow State.acceptAs
  split
  · exact s.keepsTables_refl
  · split
    · exact s.keepsTables_refl
    · split
      · exact s.keepsTables_refl
      · refine State.keepsTables.trans ?_ (hplace _ _ _)
        refine State.keepsTables.trans ?_ (State.modLease_keepsTables _ _ _)
        exact (s.raisePort_keepsTables _ _).trans (State.contend_keepsTables _ _ _ _)

theorem State.acceptOr_keepsTables (s : State) (n : Nat) : s.keepsTables (s.acceptOr n) := by
  unfold State.acceptOr
  split
  · next w _ =>
    split
    · exact s.acceptNow_keepsTables n
    · unfold State.contendWrite
      split
      · refine State.foldl_keepsTables id _ (fun t c => ?_) w.bytes s
        dsimp only [id]
        split
        · exact t.contend_keepsTables _ _ _
        · exact t.keepsTables_refl
      · exact s.keepsTables_refl
  · exact s.keepsTables_refl

theorem State.writeHome_keepsTables (s : State) (tag : Option Nat) (bytes : List Host.Cell) (grain : Nat) (cache : CacheMode)
    (pool : Bool) : s.keepsTables (s.writeHome tag bytes grain cache pool).2 :=
  State.acceptOr_keepsTables (s.newWrite .engine tag none bytes grain cache pool []).2 _

theorem State.faultLater_keepsTables (s : State) (tag : Nat) : s.keepsTables (s.faultLater tag) := by
  unfold State.faultLater; split <;> exact s.keepsTables_refl

/-- An error drops copies of its sector from L1, and nothing else (R16). -/
theorem State.meetErrors_keepsTables (s : State) (core : Option Nat) (tag pa : Nat) : s.keepsTables (s.meetErrors core tag pa).2 := by
  have hdrop : ∀ (t : State) (p : L1Line → Bool), t.keepsTables { t with l1 := t.l1.filter p } := fun t p =>
    ⟨rfl, rfl, rfl, rfl, rfl, rfl, fun _ h => (List.mem_filter.1 h).1⟩
  unfold State.meetErrors
  dsimp only
  refine State.keepsTables.trans ?_ (State.foldl_keepsTables id _ (fun t f => ?_) _ _)
  · split <;> exact s.keepsTables_refl
  · dsimp only [id]
    split
    · exact t.keepsTables_refl
    · split
      · split
        · exact t.keepsTables_refl
        · exact hdrop t _
      · exact hdrop t _
      · exact t.keepsTables_refl

theorem State.physStore_keepsTables (s : State) (tag pa : Nat) (bs : List Byte) : s.keepsTables (s.physStore tag pa bs).2 := by
  refine State.foldl_keepsTables Prod.snd _ (fun p x => ?_) (piecesOf pa bs.length) ([], s)
  have hmeet := p.2.meetErrors_keepsTables none tag x.1
  split
  · next t h => rw [h] at hmeet; exact hmeet.trans (t.faultLater_keepsTables tag)
  · next t h => rw [h] at hmeet; exact hmeet.trans (t.writeHome_keepsTables _ _ _ _ _)

theorem State.setCtx_keepsTables (s : State) (tag : Nat) (st : CtxState) : s.keepsTables (s.setCtx tag st) :=
  (s.modCtx_keepsTables tag _).trans (State.physStore_keepsTables _ _ _ _)

/-! ### The end of a destroyed context -/

section
variable {s : State} {tag : Nat}

/-- The entries of a tag leave the tables (R99). -/
def State.forgetTag (s : State) (tag : Nat) : State :=
  { s with
    queues := s.queues.filter fun q => q.tag != tag
    walks := s.walks.filter fun t => t.tag != tag
    touches := s.touches.filter fun t => t.tag != tag
    bells := s.bells.filter fun b => b.1 != tag
    tlb := s.tlb.filter fun t => t.tag != tag
    l1 := s.l1.filter fun l => l.tag != tag
    icache := s.icache.filter fun l => l.tag != tag
    comms := s.comms.filter fun c => c.tag != tag }

/-- What has been done of the context before its entries leave does not matter to what is left of them. -/
theorem exec_destroyComplete (hst : (s.ctx tag).st = .destroying) (hq : s.qpsFlushed tag = true)
    (hp : s.mayPost (homeDie (s.ctxBlock tag)) = true) : ∃ u : State, exec (.destroyComplete tag) s =
      let t := (u.forgetTag tag).setCtx tag .free
      .next ({ t with ctxs := t.ctxs.filter fun c => c.tag != tag }.post (homeDie (t.ctxBlock tag)) 6 tag 0 0) :=
  ⟨_, if_neg (by simp [hst, hq, hp])⟩

theorem exec_destroyComplete_waits (h : s.qpsFlushed tag = false ∨ s.mayPost (homeDie (s.ctxBlock tag)) = false) :
    exec (.destroyComplete tag) s = .next s := if_pos (by simp [h])

theorem tag_ne_of_mem_filter {α : Type} {f : α → Nat} {l : List α} {x : α} (h : x ∈ l.filter fun y => f y != tag) : f x ≠ tag :=
  bne_iff_ne.1 (List.mem_filter.1 h).2

theorem destroyComplete_forgets (hst : (s.ctx tag).st = .destroying) (hq : s.qpsFlushed tag = true)
    (hp : s.mayPost (homeDie (s.ctxBlock tag)) = true) : Out.ends (exec (.destroyComplete tag) s) fun t =>
      (∀ x ∈ t.ctxs, x.tag ≠ tag) ∧ (∀ x ∈ t.tlb, x.tag ≠ tag) ∧ (∀ x ∈ t.queues, x.tag ≠ tag) ∧ (∀ x ∈ t.l1, x.tag ≠ tag) ∧
        (∀ x ∈ t.icache, x.tag ≠ tag) ∧ (∀ x ∈ t.walks, x.tag ≠ tag) ∧ (∀ x ∈ t.touches, x.tag ≠ tag) ∧ ∀ x ∈ t.comms, x.tag ≠ tag := by
  obtain ⟨u, hu⟩ := exec_destroyComplete hst hq hp
  obtain ⟨htlb, hqueues, hicache, hwalks, htouches, hcomms, hl1⟩ := (u.forgetTag tag).setCtx_keepsTables tag .free
  rw [hu]
  dsimp only [Out.ends, State.post]
  rw [htlb, hqueues, hicache, hwalks, htouches, hcomms]
  exact ⟨fun _ => tag_ne_of_mem_filter, fun _ => tag_ne_of_mem_filter, fun _ => tag_ne_of_mem_filter,
    fun x h => tag_ne_of_mem_filter (hl1 x h), fun _ => tag_ne_of_mem_filter, fun _ => tag_ne_of_mem_filter,
    fun _ => tag_ne_of_mem_filter, fun _ => tag_ne_of_mem_filter⟩

end

/-- Settles O52: one lemma for each command and the state of the context that it meets. -/
theorem contextCommandsComplete : Obligations.ContextCommandsComplete := by
  intro s tag blk bad
  exact ⟨exec_ctxCreate_free, exec_ctxCreate_taken, fun h t => exec_ctxCommit_poisoned h,
    fun b s1 h hr => ⟨State.readBlock_some hr, exec_ctxCommit_badBlock h hr, exec_ctxCommit_version h hr,
      exec_ctxCommit_good h hr⟩,
    exec_ctxCommit_wrongState, exec_ctxDestroy, exec_ctxDestroy_wrongState, destroyComplete_forgets,
    fun _ => exec_destroyComplete_waits, fun _ _ => exec_inval, fun _ _ => exec_inval_free⟩

end Sys2Proof.Machine
end

section
/-! Pre-emption, restore and wakes (R98, R108 to R113, R427, R446). -/

namespace Sys2Proof.Machine

/-! ### Save -/

/-- A cord without a latent error anywhere is saved as it stands (R113). -/
theorem State.saveErrors_of_flawless {s : State} (h : s.flaws = []) (c : Cord) : s.saveErrors c = (false, s) := by
  simp only [State.saveErrors, State.takeFlaws, h, List.filter_nil, List.isEmpty_nil, if_true]

section
variable {s t : State} {tag t0 : Nat}

/-- The errors that the save of some cords meets, one cord after another (R16, R110). -/
def State.saveHits (s : State) (cords : List Cord) : Bool × State :=
  cords.foldl (fun (p : Bool × State) c => (p.1 || (p.2.saveErrors c).1, (p.2.saveErrors c).2)) (false, s)

theorem State.saveHits_of_flawless (h : s.flaws = []) (cords : List Cord) : s.saveHits cords = (false, s) := by
  induction cords with
  | nil => rfl
  | cons c r ih => rw [State.saveHits, List.foldl_cons, State.saveErrors_of_flawless h]; exact ih

theorem exec_drainEnd_saves (hd : (s.ctx tag).drain = some t0) (ht : s.time ≤ t0 + 20000)
    (hc : ∀ x ∈ s.cords.filter fun c => c.tag == tag, s.drained x.uid = true) (hf : s.flaws = []) :
    let u := ((s.cords.filter fun c => c.tag == tag).flatMap fun c => c.gathers.map fun g => (c.uid, g.group)).foldl
      (fun s x => s.dropGather x.1 x.2) s
    exec (.drainEnd tag) s = .next (u.saveContext tag u) := by
  have hall : ((s.cords.filter fun c => c.tag == tag).all fun c => s.drained c.uid) = true := List.all_eq_true.2 hc
  have hhit := State.saveHits_of_flawless hf (s.cords.filter fun c => c.tag == tag)
  change execDrainEnd tag s = _
  rw [State.saveHits] at hhit
  simp only [execDrainEnd, hd, if_neg (not_or_intro (Nat.not_lt.2 ht) (not_not.2 hall)), hhit, Bool.false_eq_true, if_false]

theorem exec_drainTimeout (hd : (s.ctx tag).drain = some t0) :
    exec (.drainTimeout tag) s = .next (if t0 + 20000 < s.time then s.ctxFault tag 0x53 else s) := by
  change execDrainTimeout tag s = _
  rw [execDrainTimeout, hd]

/-! ### Resumption -/

/-- A resumed context whose children have been read back: READY when it has no image, PREEMPTED still otherwise (R112, R139). -/
def State.childrenBack (s : State) (tag : Nat) (images : List Image) : State :=
  let u := s.modCtx tag fun c => { c with savedKids := [] }
  if images = [] then u.setCtx tag .ready else u

theorem State.resumable (hst : (s.ctx tag).st = .preempted) (hr : s.resumed tag = true) :
    ¬ ((s.ctx tag).st ≠ .preempted ∨ ¬ s.resumed tag = true) := not_or_intro (not_not.2 hst) (not_not.2 hr)

theorem exec_contextResume_childless (hst : (s.ctx tag).st = .preempted) (hr : s.resumed tag = true)
    (hk : (s.ctx tag).savedKids = []) : exec (.contextResume tag) s = .next (s.childrenBack tag (s.ctx tag).images) := by
  change execContextResume tag s = _
  simp only [execContextResume, if_neg (State.resumable hst hr), hk, List.isEmpty_iff, if_true]
  rfl

theorem exec_contextResume_children {b : List Byte} (hst : (s.ctx tag).st = .preempted) (hr : s.resumed tag = true)
    (hk : (s.ctx tag).savedKids ≠ [])
    (hload : s.viaLoad (schedVia tag) ((s.ctx tag).images.foldl (fun a m => max a (m.base + pageUp m.bytes)) (s.ctx tag).savebase)
      (64 * (s.ctx tag).savedKids.length) = (t, .ok b)) :
    exec (.contextResume tag) s = .next (t.childrenBack tag (s.ctx tag).images) := by
  change execContextResume tag s = _
  simp only [execContextResume, if_neg (State.resumable hst hr), List.isEmpty_iff, if_neg hk, hload]
  rfl

/-! ### Restore -/

theorem exec_cordRestore_reacquires {x : Cord} (h : (s.cords.find? fun x => x.tag == tag && !x.reacq.isEmpty) = some x) :
    exec (.cordRestore tag) s = .next (s.reacquire x) := by
  change execCordRestore tag s = _
  simp only [execCordRestore, h]

/-- The device with an image restored and taken off the list of those to come (R112). -/
def State.restoredNext (t : State) (tag : Nat) (st : CtxState) (m : Image) (rest : List Image) (core : Nat) (l : List (Nat × Berth))
    (a : Nat) : State :=
  let u := (t.restoreCord m core l a).modCtx tag fun c => { c with images := rest }
  if st = .preempted then u.setCtx tag .running else u

theorem exec_cordRestore_places {m : Image} {rest : List Image} {core a : Nat} {l : List (Nat × Berth)} {x y : Cord} {v : State}
    (hq : ∀ x ∈ s.cords, x.tag = tag → x.reacq = []) (hst : (s.ctx tag).st = .preempted ∨ (s.ctx tag).st = .running)
    (hd : (s.ctx tag).drain = none) (hr : s.resumed tag = true) (hk : (s.ctx tag).savedKids = [])
    (hi : (s.ctx tag).images = m :: rest) (hfit : s.coreOrder.findSome? (s.restoreFit m) = some (core, l, a))
    (hgood : s.imageGood tag m = (t, .ok true))
    (hx : (t.restoredNext tag (s.ctx tag).st m rest core l a).cords.getLast? = some x)
    (hh : State.haltsAgain ((t.restoredNext tag (s.ctx tag).st m rest core l a).waves.filter fun w => w.cord == x.uid && w.halted)
      (t.restoredNext tag (s.ctx tag).st m rest core l a) = (v, .ok ()))
    (hy : v.cords.getLast? = some y) : exec (.cordRestore tag) s = .next (v.reacquire y) := by
  have hnone : (s.cords.find? fun x => x.tag == tag && !x.reacq.isEmpty) = none :=
    List.find?_eq_none.2 fun z hz h => by
      obtain ⟨htag, hne⟩ := Bool.and_eq_true_iff.1 h
      rw [hq z hz (beq_iff_eq.1 htag)] at hne
      cases hne
  have hready : ¬ (¬ ((s.ctx tag).st = .preempted ∨ (s.ctx tag).st = .running) ∨ (s.ctx tag).drain.isSome = true ∨
      ¬ s.resumed tag = true ∨ ¬ (s.ctx tag).savedKids.isEmpty = true) := by simp [hst, hd, hr, hk]
  rw [State.restoredNext] at hx hh
  change execCordRestore tag s = _
  simp only [execCordRestore, hnone, if_neg hready, hi, hfit, hgood, hx, Option.map_some, Option.getD_some, hh, hy]

end

/-! ### Wakes -/

section
variable {s t t0 : State} {v : Word64} {b : List Byte} {l : List (Nat × Nat × Word64)}

/-- The mailbox entry and the context that a value written to NKWAKE names (R427). -/
def wakeIndex (v : Word64) : Nat := v.toNat % 2 ^ 16
def wakeTag (v : Word64) : Nat := v.toNat / 2 ^ 16 % 2 ^ 12

/-- The entry lies in the mailbox of a context that can have waves waiting (R108, R427). -/
def State.WakeNames (s : State) (v : Word64) : Prop :=
  v.toNat < 2 ^ 28 ∧ wakeIndex v < 2 ^ (s.ctx (wakeTag v)).mblog2 ∧
    ((s.ctx (wakeTag v)).st = .running ∨ (s.ctx (wakeTag v)).st = .preempted)

/-- An entry answered: the waves that wait for it take the answer, resident or saved, and the entry is free (R108, R113). -/
def State.wakeAnswers (t : State) (v : Word64) (b : List Byte) (l : List (Nat × Nat × Word64)) : State :=
  let x := BitVec.ofNat 64 (numAt b 0x28 8)
  let u := { t with waves := modWhere t.waves (fun w => t.tagOf w == wakeTag v) fun w => w.answered (wakeIndex v) x true }
  ((u.modCtx (wakeTag v) fun c => { c with images := c.images.map fun m =>
    { m with waves := m.waves.map fun w => w.answered (wakeIndex v) x false } }).storePieces .engine (some (wakeTag v)) none true l
      (bytesOfNat 4 0)).2

/-- A wake whose entry is read has its effect when the entry is answered, and none otherwise. -/
theorem State.wakeEntry_read (h : s.WakeNames v)
    (hload : s.viaLoad (schedVia (wakeTag v)) ((s.ctx (wakeTag v)).mailbox + 64 * wakeIndex v) 64 = (t0, .ok b))
    (hloc : t0.viaLocate (schedVia (wakeTag v)) 1 [((s.ctx (wakeTag v)).mailbox + 64 * wakeIndex v, 4)] = (t, .ok l)) :
    s.wakeEntry v = (if numAt b 0 4 ≠ 2 then s else t.wakeAnswers v b l, true) := by
  obtain ⟨hv, he, hst⟩ := h
  have hindex : bits64 v 15 0 = wakeIndex v := by rw [bits64, Nat.pow_zero, Nat.div_one, wakeIndex]
  have htag : bits64 v 27 16 = wakeTag v := rfl
  have hrest : bits64 v 63 28 = 0 := by rw [bits64, Nat.div_eq_of_lt hv, Nat.zero_mod]
  have hnames : ¬ (0 ≠ 0 ∨ 2 ^ (s.ctx (wakeTag v)).mblog2 ≤ wakeIndex v ∨
      ¬ ((s.ctx (wakeTag v)).st = .running ∨ (s.ctx (wakeTag v)).st = .preempted)) := by
    rintro (h | h | h)
    exacts [h rfl, Nat.not_le.2 he h, h hst]
  simp only [State.wakeEntry, hindex, htag, hrest, if_neg hnames, hload, andThen, hloc]
  split <;> rfl

theorem exec_nkwake_read (h : s.WakeNames v)
    (hload : s.viaLoad (schedVia (wakeTag v)) ((s.ctx (wakeTag v)).mailbox + 64 * wakeIndex v) 64 = (t0, .ok b))
    (hloc : t0.viaLocate (schedVia (wakeTag v)) 1 [((s.ctx (wakeTag v)).mailbox + 64 * wakeIndex v, 4)] = (t, .ok l)) :
    exec (.nkwake v) s = .next (if numAt b 0 4 ≠ 2 then s else t.wakeAnswers v b l) := by
  change execNkwake v s = _
  rw [execNkwake, State.wakeEntry_read h hload hloc]

end

/-- The event that waits for a die's ring leaves once it has been posted there (R429). -/
theorem exec_eventPost {s t : State} {die d : Nat} {e : EventEntry} (he : (s.events.find? fun x => x.1 == die) = some (d, e))
    (hr : s.nkevt.getD die 0 ≠ 0)
    (hp : s.ringPost unitSched 0 die (s.nkevt.getD die 0).toNat 16 (bytesOfNat 12 (e.code + 2 ^ 8 * (e.tag % 4096) +
      2 ^ 32 * (e.arg % 2 ^ 32) + 2 ^ 64 * (e.arg2 % 2 ^ 32))) = (t, .ok true)) :
    exec (.eventPost die) s = .next ({ t with events := t.events.erase (die, e) }.interrupt (t.nkevthart.getD die 0) 1) := by
  change execEventPost die s = _
  simp only [execEventPost, he, if_neg hr, hp]

theorem preemptionCompletes : Claim.PreemptionCompletes := by
  intro s tag c cords
  refine ⟨fun t => exec_drainEnd_saves, fun t => exec_drainTimeout, fun hst hr => ⟨exec_contextResume_childless hst hr, fun t b hk =>
    exec_contextResume_children hst hr hk⟩, fun x => exec_cordRestore_reacquires, ?_, ?_, ?_⟩
  · intro m rest core l a t x hq hst hd hr hk hi hfit hgood u u' hx v y hh hy
    exact exec_cordRestore_places hq hst hd hr hk hi hfit hgood hx hh hy
  · intro v t b entry tag va hv he hst t0 l hload hloc
    have h := exec_nkwake_read ⟨hv, he, hst⟩ hload hloc
    exact ⟨fun hn => h.trans (by rw [if_pos hn]), fun ha => h.trans (by rw [if_neg (not_not.2 ha)]; rfl)⟩
  · exact fun die e x t he hr hp => exec_eventPost he hr hp

/-- Only a wave that waits for the entry without an answer is changed. -/
theorem Wave.answered_waiting {w : Wave} {entry e len : Nat} {x : Word64} {d : Opnd} (resident : Bool)
    (h : w.wait = .upcall e d none len) : w.answered entry x resident = if e ≠ entry then w else
      if resident then (w.putS d x).next len else { w with wait := .upcall e d (some x) len } := by
  rw [Wave.answered, h]

theorem answerReachesItsWave : Claim.AnswerReachesItsWave := by
  intro w entry e x d len h
  refine ⟨fun he => ?_, fun he => ?_, fun he resident => ?_⟩
  · rw [Wave.answered_waiting true h, if_neg (not_not.2 he), if_pos rfl]
  · rw [Wave.answered_waiting false h, if_neg (not_not.2 he), if_neg Bool.false_ne_true]
  · rw [Wave.answered_waiting resident h, if_pos he]

/-- Settles O53: the branches that a context's state selects of a save, a restore and a wake, and what an answer does to a wave. -/
theorem preemptionAndWakesComplete : Obligations.PreemptionAndWakesComplete := ⟨preemptionCompletes, answerReachesItsWave⟩

end Sys2Proof.Machine
end

section
/-! Copies: the pieces of a linear copy (R246, R285), CPY, CPY.BOX, CPY.CLOSE and CPY.WAIT, and the turns of a piece and of a
batch (R284 to R290). -/

namespace Sys2Proof.Machine

/-! ### Pieces of a range -/

/-- A sector piece begins no lower than its range, holds a byte, and lies in one sector (R242). -/
theorem mem_sectorPieces {fuel a n : Nat} {p : Nat × Nat} (h : p ∈ sectorPieces fuel a n) :
    a ≤ p.1 ∧ 0 < p.2 ∧ p.1 % 32 + p.2 ≤ 32 := by
  induction fuel generalizing a n with
  | zero => cases h
  | succ fuel ih =>
    rw [sectorPieces] at h
    split at h
    · cases h
    · rcases List.mem_cons.1 h with rfl | h
      · dsimp only; omega
      · have := ih h; omega

/-- The sector pieces of a range hold its bytes in order, where the fuel reaches the last sector. -/
theorem sectorPieces_bytes {fuel a n : Nat} (h : n = 0 ∨ a % 32 + n ≤ 32 * fuel) :
    ((sectorPieces fuel a n).flatMap fun p => (List.range p.2).map (p.1 + ·)) = (List.range n).map (a + ·) := by
  induction fuel generalizing a n with
  | zero => obtain rfl : n = 0 := by omega
            rfl
  | succ fuel ih =>
    rw [sectorPieces]
    split
    · next hn => subst hn; rfl
    · obtain ⟨m, hm⟩ : ∃ m, n = min n (32 - a % 32) + m := ⟨n - min n (32 - a % 32), by omega⟩
      generalize hk : min n (32 - a % 32) = k at hm ⊢
      subst hm
      rw [List.flatMap_cons, Nat.add_sub_cancel_left, ih (by omega), List.range_add, List.map_append, List.map_map]
      simp only [Function.comp_def, Nat.add_assoc]

/-- The pieces of an access hold its bytes in order. -/
theorem piecesOf_bytes (a n : Nat) : ((piecesOf a n).flatMap fun p => (List.range p.2).map (p.1 + ·)) = (List.range n).map (a + ·) :=
  sectorPieces_bytes (.inr (by omega))

theorem copyPiecesCoverTheRange : Claim.CopyPiecesCoverTheRange := by
  intro dst src n h r dsp ssp
  refine ⟨?_, fun p hp => ?_⟩
  · have hmap := congrArg (List.map fun a => (a, some (src + (a - dst)))) (piecesOf_bytes dst n)
    rw [List.map_flatMap, List.map_map] at hmap
    simp only [Function.comp_def, Nat.add_sub_cancel_left, List.map_map] at hmap
    rw [← hmap, linearPieces, List.flatMap_map]
    refine List.flatMap_congr fun p hp => ?_
    have hle := (mem_sectorPieces hp).1
    simp only [List.flatMap_singleton, Option.map_some, List.map_inj_left]
    intro i _
    rw [Nat.add_assoc, Nat.sub_add_comm hle]
  · obtain ⟨x, hx, rfl⟩ := List.mem_map.1 hp
    exact ⟨rfl, _, rfl, (mem_sectorPieces hx).2⟩

/-! ### Instructions -/

section
variable {s t : State} {w : Wave} {f : Fields}

theorem State.addCopy_joins (hm : s.me = some w) (hl : w.openBatch.length < 64) (c : CopyItem) :
    s.addCopy w f c = .next (s.setMe ({ w with openBatch := w.openBatch ++ [c] }.after f)) := by
  rw [State.addCopy, if_pos hl, s.finish_eq w f _ hm]

/-- The 65th copy closes the batch first (R284). -/
theorem State.addCopy_closes (hm : s.me = some w) (hl : 64 ≤ w.openBatch.length) (hc : s.canClose w = true) (c : CopyItem) :
    s.addCopy w f c = .next (s.setMe ({ w.closeBatch with openBatch := [c] }.after f)) := by
  rw [State.addCopy, if_neg (Nat.not_lt.2 hl), hc, if_neg (by decide), s.finish_eq w f _ hm]

/-- The bytes that CPY copies, by C or by E64 (R285). -/
def State.cpyBytes (s : State) (w : Wave) (f : Fields) : Nat :=
  if f.c = .none then f.ebits 31 0 else (s.readS w (.int 32) f.c).toNat

/-- The copy that CPY asks for (R285). -/
def State.cpyItem (s : State) (w : Wave) (f : Fields) : CopyItem :=
  .linear (s.copyAddr w (f.ext.getLsbD 32) f.a) (s.copyAddr w (f.ext.getLsbD 33) f.b) (s.cpyBytes w f) (f.ext.getLsbD 32)
    (f.ext.getLsbD 33) (f.mbits 3 2) (f.ebits 35 34)

theorem exec_cpy (h : s.runs w (.cpy f) f .dest false = true)
    (hd : rangeTrap (s.cordOf w).kernel.scratch (f.ext.getLsbD 32) (s.copyAddr w (f.ext.getLsbD 32) f.a) (s.cpyBytes w f) 1 = none)
    (hs : rangeTrap (s.cordOf w).kernel.scratch (f.ext.getLsbD 33) (s.copyAddr w (f.ext.getLsbD 33) f.b) (s.cpyBytes w f) 0 = none) :
    exec (.cpy f) s = if s.cpyBytes w f = 0 then .next (s.setMe (w.after f)) else s.addCopy w f (s.cpyItem w f) := by
  unfold State.cpyBytes at hd hs
  change execCpy f s = _
  rw [execCpy, State.front_runs _ h]
  simp only [hd, hs, s.finish_eq w f id (State.runs_me h)]
  rfl

theorem exec_cpyBox {d : List Byte} (h : s.runs w (.cpyBox f) f .dest false = true)
    (hl : s.waveLoad w w.sup (s.readS w (.int 64) f.a).toNat 64 0 = (t, .ok d)) (ho : w.openBatch.length < 64)
    (hr : rangeTrap (t.cordOf w).kernel.scratch (f.ext.getLsbD 32) (t.copyAddr w (f.ext.getLsbD 32) f.b)
      ((boxZ d - 1) * numAt d 0x38 4 + (boxY d - 1) * numAt d 0x34 4 + boxX d * boxEsz d) 1 = none) :
    let org := t.readS w (.int 64) f.c
    exec (.cpyBox f) s = .next (t.modMe fun x => { x with openBatch := x.openBatch ++
      [CopyItem.box d (t.copyAddr w (f.ext.getLsbD 32) f.b) (f.ext.getLsbD 32) (lo32 org).toInt (hi32 org).toInt
        (f.ext.setWidth 32 : Word).toInt (f.mbits 3 2) (f.ebits 35 34)] }.after f) := by
  change execCpyBox f s = _
  rw [execCpyBox, State.front_runs _ h]
  simp only [hl, State.take, hr, State.addCopy, if_pos ho]
  rfl

theorem exec_cpyClose (h : s.runs w (.cpyClose f) f .dest false = true) : exec (.cpyClose f) s =
    if s.canClose w = true then .next (s.setMe ((w.closeBatch.putS f.d (w.nextBatch.setWidth 64)).after f)) else s.stall := by
  change execCpyClose f s = _
  rw [execCpyClose, State.front_runs _ h]
  cases s.canClose w
  · rfl
  · exact s.finish_eq w f _ (State.runs_me h)

/-- The batches that CPY.WAIT covers (R290). -/
def State.covered (s : State) (w : Wave) (f : Fields) (b : Batch) : Bool :=
  f.m == 1 || decide ((BitVec.ofNat 32 (s.natB w f) - b.number).toNat < 2 ^ 31)

theorem exec_cpyWait (h : s.runs w (.cpyWait f) f .dest false = true) :
    exec (.cpyWait f) s = s.copyWait w (s.covered w f) fun s => s.finish f id := by
  change execCpyWait f s = _
  rw [execCpyWait, State.front_runs _ h]
  rfl

theorem State.copyWait_nothing {p : Batch → Bool} (h : w.batches.filter p = []) (k : State → Out) : s.copyWait w p k = k s := by
  rw [State.copyWait, h]; rfl

/-- A covered piece that has not ended, and no fault that the wave has been told of, make the wave wait (R290). -/
theorem State.copyWait_open {p : Batch → Bool} (h : w.batches.filter p ≠ [])
    (ht : ∀ b ∈ w.batches.filter p, ∀ x ∈ b.pieces, x.st.told = false)
    (ho : ∃ b ∈ w.batches.filter p, ∃ x ∈ b.pieces, x.st.open = true) (k : State → Out) : s.copyWait w p k = s.stall := by
  have hempty : (w.batches.filter p).isEmpty = false := by simpa [List.isEmpty_eq_false_iff] using h
  have htold : (((w.batches.filter p).flatMap fun b => b.pieces).any fun x => x.st.told) = false := by
    rw [List.any_eq_false]
    intro x hx
    obtain ⟨b, hb, hx⟩ := List.mem_flatMap.1 hx
    simp [ht b hb x hx]
  have hopen : (((w.batches.filter p).flatMap fun b => b.pieces).any fun x => x.st.open) = true := by
    obtain ⟨b, hb, x, hx, ho⟩ := ho
    exact List.any_eq_true.2 ⟨x, List.mem_flatMap.2 ⟨b, hb, hx⟩, ho⟩
  simp only [State.copyWait, hempty, htold, hopen, if_true, Bool.false_eq_true, if_false]

end

/-! ### The turns of pieces and batches -/

section
variable {s t : State} {p : Piece} {st : PieceState} {i : Nat}

theorem State.runNth_open {v : CopyEnv} {l : List Piece} (hp : l[i]? = some p) (ho : p.st.open = true)
    (hr : s.runPiece v p = (t, some st)) : s.runNth v l i = (t, some (modAt l i fun p => { p with st := st })) := by
  simp [State.runNth, hp, ho, hr]

theorem exec_copyPiece_batch {w : Wave} {b : Batch} {k : Nat} {number : Word} (hw : s.waveAt (waveOfNum k) = some w)
    (hb : (w.batches.find? fun b => b.number == number) = some b) (hp : b.pieces[i]? = some p) (ho : p.st.open = true)
    (hr : s.runPiece ⟨s.tagOf w, b.engine, b.sup, w.cord, w.core⟩ p = (t, some st)) :
    exec (.copyPiece (.batch k number) i) s = .next (t.modWave w.id fun x => { x with
      batches := modWhere x.batches (fun b => b.number == number) fun y =>
        { y with pieces := modAt b.pieces i fun p => { p with st := st } } }) := by
  change execCopyPiece (.batch k number) i s = _
  simp only [execCopyPiece, hw, hb, State.runNth_open hp ho hr]

/-- The pieces of a COPY record after one of them has performed. -/
def State.pieceDone (t : State) (uid : Nat) (l : List Piece) (i : Nat) (st : PieceState) : State :=
  { t with recs := modWhere t.recs (fun r => r.uid == uid) fun r =>
      { r with stage := .copying (modAt l i fun p => { p with st := st }) } }

theorem exec_copyPiece_record {r : Rec} {uid : Nat} {l : List Piece} (hf : (s.recs.find? fun r => r.uid == uid) = some r)
    (hs : r.stage = .copying l) (hp : l[i]? = some p) (ho : p.st.open = true)
    (hr : s.runPiece ⟨r.tag, uid % 32, false, 0, 0⟩ p = (t, some st)) :
    let u := t.pieceDone uid l i st
    exec (.copyPiece (.record uid) i) s = .next (if !(st.fault.isSome && u.qState r.tag r.q != .stopped) then u
      else if u.canStop r.tag r.q then u.stopQueue r.tag r.q 0x0B else s) := by
  have hi : (modAt l i fun p => { p with st := st })[i]? = some { p with st := st } := by
    rw [modAt_get?, if_pos rfl, hp, Option.map_some]
  change execCopyPiece (.record uid) i s = _
  simp only [execCopyPiece, hf, hs, State.runNth_open hp ho hr, hi, Option.any_some]
  rfl

end

theorem copiesComplete : Claim.CopiesComplete := by
  intro s w f
  refine ⟨fun h hd hs => ⟨fun hn => ?_, fun hn hl => ?_, fun hn hl hc => ?_⟩,
    fun t d h hl ho hr => exec_cpyBox h hl ho hr,
    fun h hc => (exec_cpyClose h).trans (if_pos hc), fun h hc => (exec_cpyClose h).trans (if_neg (Bool.eq_false_iff.1 hc)),
    fun h => ⟨fun hn => ?_, fun hn ht ho => ?_⟩,
    fun k number i b p t st hw hb hp ho hr => exec_copyPiece_batch hw hb hp ho hr, fun k number => rfl,
    fun uid i r l p t st hf hs hp ho hr => ⟨fun hn => ?_, fun hs' hq hc => ?_⟩, fun uid => rfl⟩
  · exact (exec_cpy h hd hs).trans (if_pos hn)
  · exact ((exec_cpy h hd hs).trans (if_neg hn)).trans (State.addCopy_joins (State.runs_me h) hl _)
  · exact ((exec_cpy h hd hs).trans (if_neg hn)).trans (State.addCopy_closes (State.runs_me h) hl hc _)
  · exact ((exec_cpyWait h).trans (State.copyWait_nothing hn _)).trans (s.finish_eq w f id (State.runs_me h))
  · exact (exec_cpyWait h).trans (State.copyWait_open hn ht ho _)
  · refine (exec_copyPiece_record hf hs hp ho hr).trans ?_
    rw [hn]; rfl
  · refine (exec_copyPiece_record hf hs hp ho hr).trans ?_
    have hlive : ((t.pieceDone uid l i st).qState r.tag r.q != .stopped) = true := bne_iff_ne.2 hq
    rw [hs', hlive]
    exact congrArg Host.Outcome.next (if_pos hc)

/-- Settles O39: one lemma for each outcome of the copy instructions and of the turns of pieces, and the induction over the
sectors of a range. -/
theorem copiesCoverTheirRange : Obligations.CopiesCoverTheirRange := ⟨copiesComplete, copyPiecesCoverTheRange⟩

end Sys2Proof.Machine
end

section
/-! What an access to memory leaves alone, whatever it meets on its way: the cords and the contexts. Translation, the errors of
storage, the directory and the caches are all that it changes (R15 to R17, R296 to R310, R324). -/

namespace Sys2Proof.Machine

/-- The cords and the contexts are as they were. -/
def State.samePlaces (s t : State) : Prop := t.cords = s.cords ∧ t.ctxs = s.ctxs

theorem State.samePlaces_refl (s : State) : s.samePlaces s := ⟨rfl, rfl⟩

theorem State.samePlaces.trans {s t u : State} (h : s.samePlaces t) (h' : t.samePlaces u) : s.samePlaces u :=
  ⟨h'.1.trans h.1, h'.2.trans h.2⟩

theorem State.samePlaces.wavesVia {s t : State} (h : s.samePlaces t) (w : Wave) : t.wavesVia w = s.wavesVia w := by
  simp only [State.wavesVia, State.tagOf, State.cordOf, State.cordAt, h.1]

theorem State.samePlaces.qDesc {s t : State} (h : s.samePlaces t) (tag q : Nat) : t.qDesc tag q = s.qDesc tag q := by
  simp only [State.qDesc, State.ctx, h.2]

/-- A fold of steps that each keep the cords and contexts. -/
theorem State.foldl_samePlaces {α β : Type} (get : β → State) (one : β → α → β)
    (h : ∀ b a, (get b).samePlaces (get (one b a))) (l : List α) (b : β) : (get b).samePlaces (get (l.foldl one b)) := by
  induction l generalizing b with
  | nil => exact State.samePlaces_refl _
  | cons a l ih => exact (h b a).trans (ih (one b a))

/-! ### Writes and errors -/

theorem State.contend_samePlaces (s : State) (pa : Nat) (core : Option Nat) (write : Bool) :
    s.samePlaces (s.contend pa core write) := by
  unfold State.contend; split <;> exact s.samePlaces_refl

theorem State.modLease_samePlaces (s : State) (t : LeaseTile) (f : Lease → Lease) : s.samePlaces (s.modLease t f) := by
  unfold State.modLease; split <;> exact s.samePlaces_refl

theorem State.raisePort_samePlaces (s : State) (a : Agent) (c : Nat) : s.samePlaces (s.raisePort a c) := by
  unfold State.raisePort; split <;> exact s.samePlaces_refl

theorem State.acceptAs_samePlaces (contends : Bool) (s : State) (id : Nat) : s.samePlaces (s.acceptAs contends id) := by
  have hplace : ∀ (t : State) (l : List Write) (c : Nat), t.samePlaces (State.returnTime { t with writes := l } id c) :=
    fun t _ _ => t.samePlaces_refl
  unfold State.acceptAs
  split
  · exact s.samePlaces_refl
  · split
    · exact s.samePlaces_refl
    · split
      · exact s.samePlaces_refl
      · refine State.samePlaces.trans ?_ ((State.modLease_samePlaces _ _ _).trans (hplace _ _ _))
        cases contends
        · exact s.raisePort_samePlaces _ _
        · exact (s.raisePort_samePlaces _ _).trans (State.contend_samePlaces _ _ _ _)

theorem State.setEntry_samePlaces (s : State) (tag pa : Nat) (e : Word64) : s.samePlaces (s.setEntry tag pa e) :=
  State.acceptAs_samePlaces false (s.newWrite .engine (some tag) none (cellsAt pa (bytesOfNat 8 e.toNat)) 32 .normal false []).2 _

theorem State.takeFlaws_samePlaces (s : State) (die : Nat) (here : FlawPlace → Bool) : s.samePlaces (s.takeFlaws die here).2 := by
  obtain ⟨flaws, corrected, h⟩ := s.takeFlaws_eq die here
  rw [h]
  exact s.samePlaces_refl

theorem State.meetErrors_samePlaces (s : State) (core : Option Nat) (tag pa : Nat) : s.samePlaces (s.meetErrors core tag pa).2 := by
  unfold State.meetErrors
  dsimp only
  refine State.samePlaces.trans ?_ (State.foldl_samePlaces id _ (fun t f => ?_) _ _)
  · split <;> exact s.samePlaces_refl
  · dsimp only [id]
    split
    · exact t.samePlaces_refl
    · split
      · split <;> exact t.samePlaces_refl
      · exact t.samePlaces_refl
      · exact t.samePlaces_refl

/-! ### Translation -/

theorem State.walkBy_samePlaces (s : State) (unit tag va : Nat) : s.samePlaces (s.walkBy unit tag va).2 := by
  have hover : ∀ level table, s.samePlaces (s.walkOver tag va level table).2 := fun level table => by
    have h := State.foldl_samePlaces Prod.snd (fun (p : Bool × State) a =>
      (p.1 || (p.2.meetErrors none tag a).1, (p.2.meetErrors none tag a).2)) (fun p a => p.2.meetErrors_samePlaces none tag a)
      (((level, table) :: walkTables s.readEntry (vaBits va) level table).flatMap fun x => tableReads s.readEntry (vaBits va) x.1 x.2)
      (false, s)
    unfold State.walkOver
    dsimp only
    split <;> exact h
  have h := hover (s.walkStart unit tag va).1 (s.walkStart unit tag va).2
  unfold State.walkBy
  split <;> next e => rw [e] at h; exact h

theorem State.useLeaf_samePlaces (s : State) (unit tag : Nat) (sup : Bool) (kind va : Nat) (w : WalkEnd) :
    s.samePlaces (s.useLeaf unit tag sup kind va w).2 := by
  have hset : ∀ e, s.samePlaces (if e = w.entry then s else s.setEntry tag w.slot e) := fun e => by
    split
    · exact s.samePlaces_refl
    · exact s.setEntry_samePlaces _ _ _
  unfold State.useLeaf
  split
  · exact s.samePlaces_refl
  · exact hset _

theorem State.walkLeaf_samePlaces (s : State) (unit tag : Nat) (sup : Bool) (kind va : Nat) :
    s.samePlaces (s.walkLeaf unit tag sup kind va).2 := by
  have h := s.walkBy_samePlaces unit tag va
  unfold State.walkLeaf
  split
  · next e => rw [e] at h; exact h
  · next w t e =>
    rw [e] at h
    split
    · exact h.trans (t.useLeaf_samePlaces _ _ _ _ _ _)
    · exact h

theorem State.translateNoFt_samePlaces (s : State) (unit tag : Nat) (sup : Bool) (kind va : Nat) :
    s.samePlaces (s.translateNoFt unit tag sup kind va).2 := by
  have hmeet : s.samePlaces (s.meetTlb unit tag va) := by
    unfold State.meetTlb; dsimp only; split <;> exact s.samePlaces_refl
  unfold State.translateNoFt
  split
  · exact s.samePlaces_refl
  · dsimp only
    split
    · split
      · exact hmeet
      · exact hmeet.trans (State.walkLeaf_samePlaces { s.meetTlb unit tag va with tlb := _ } _ _ _ _ _)
    · exact hmeet.trans (State.walkLeaf_samePlaces _ _ _ _ _ _)

theorem State.askTouch_samePlaces (s : State) (unit tag die kind va : Nat) (w : WalkEnd) :
    s.samePlaces (s.askTouch unit tag die kind va w).2 := by
  unfold State.askTouch
  dsimp only
  split
  · dsimp only; split <;> exact s.samePlaces_refl
  · split <;> exact s.samePlaces_refl

theorem State.translate_samePlaces (s : State) (unit tag die : Nat) (sup : Bool) (kind va : Nat) :
    s.samePlaces (s.translate unit tag die sup kind va).2 := by
  have h := s.translateNoFt_samePlaces unit tag sup kind va
  unfold State.translate
  split
  · next c p t e =>
    rw [e] at h
    have hw := t.walkBy_samePlaces unit tag va
    split
    · exact h
    · split
      · next e => rw [e] at hw; exact h.trans hw
      · next w u e =>
        rw [e] at hw
        split
        · exact h.trans hw
        · split
          · exact h.trans hw
          · exact (h.trans hw).trans (u.askTouch_samePlaces _ _ _ _ _ _)
  · exact h

/-! ### Accesses -/

theorem andThen_samePlaces {α β : Type} {s : State} {r : State × Acc α} {k : State → α → State × Acc β} (h : s.samePlaces r.1)
    (hk : ∀ (t : State) (a : α), t.samePlaces (k t a).1) : s.samePlaces (andThen r k).1 := by
  obtain ⟨t, a | _ | _ | _⟩ := r
  · exact h.trans (hk t a)
  all_goals exact h

theorem State.l1Serve_samePlaces (s : State) (core : Option Nat) (tag : Nat) (sup : Bool) (kind va : Nat) :
    s.samePlaces (s.l1Serve core tag sup kind va).2 := by
  unfold State.l1Serve
  split
  · exact s.samePlaces_refl
  · split
    · exact s.samePlaces_refl
    · split
      · exact s.samePlaces_refl
      · dsimp only
        split
        · exact s.samePlaces_refl
        · split <;> next e => exact (congrArg (fun x => s.samePlaces x.2) e).mp (s.takeFlaws_samePlaces _ _)

theorem State.atHome_samePlaces (s : State) (tag : Nat) (core : Option Nat) (write : Bool) (pa : Nat) :
    s.samePlaces (s.atHome tag core write pa).1 := by
  have henter : ∀ t : State, t.samePlaces (t.enter pa) := fun t => by
    unfold State.enter
    split
    · split <;> exact t.samePlaces_refl
    · exact t.samePlaces_refl
  have h := s.meetErrors_samePlaces core tag pa
  unfold State.atHome
  split
  · next e => rw [e] at h; exact h
  · next t e =>
    rw [e] at h
    split
    · exact h.trans (t.contend_samePlaces _ _ _)
    · split
      · exact h
      · exact h.trans (henter t)

theorem State.locate_samePlaces (s : State) (unit tag die : Nat) (sup : Bool) (kind : Nat) (core : Option Nat)
    (l : List (Nat × Nat)) : s.samePlaces (s.locate unit tag die sup kind core l).1 := by
  induction l generalizing s with
  | nil => exact s.samePlaces_refl
  | cons x rest ih =>
    obtain ⟨va, n⟩ := x
    have hserve := s.l1Serve_samePlaces core tag sup kind (va % 2 ^ 64)
    rw [State.locate]
    split
    · next pa e t eq =>
      rw [eq] at hserve
      exact hserve.trans (andThen_samePlaces (ih t) fun u _ => u.samePlaces_refl)
    · next t eq =>
      rw [eq] at hserve
      have htrans := hserve.trans (t.translate_samePlaces unit tag die sup kind (va % 2 ^ 64))
      split
      · next eq => rw [eq] at htrans; exact htrans
      · next eq => rw [eq] at htrans; exact htrans
      · next eq => rw [eq] at htrans; exact htrans
      · next pa e u eq =>
        rw [eq] at htrans
        exact htrans.trans (andThen_samePlaces (u.atHome_samePlaces _ _ _ _) fun v _ =>
          andThen_samePlaces (ih v) fun x _ => x.samePlaces_refl)

theorem State.useL2_samePlaces (s : State) (sec hint : Nat) (cache : CacheMode) : s.samePlaces (s.useL2 sec hint cache) := by
  have hfit : ∀ t : State, t.samePlaces (t.fitL2 sec) := fun t => by
    unfold State.fitL2
    dsimp only
    split
    · exact t.samePlaces_refl
    · split <;> exact t.samePlaces_refl
  unfold State.useL2
  split
  · exact s.samePlaces_refl
  · split
    · exact s.samePlaces_refl
    · exact hfit _

theorem State.useHome_samePlaces (s : State) (hint : Nat) (l : List (Nat × Nat × Word64)) : s.samePlaces (s.useHome hint l) :=
  State.foldl_samePlaces id _ (fun t _ => t.useL2_samePlaces _ _ _) l s

theorem State.viaLoad_samePlaces (s : State) (v : Via) (va n : Nat) : s.samePlaces (s.viaLoad v va n).1 := by
  refine andThen_samePlaces (s.locate_samePlaces _ _ _ _ _ _ _) fun t l => ?_
  have h := t.useHome_samePlaces 0 l
  dsimp only
  split <;> exact h

theorem State.prioVia_samePlaces (s : State) (v : Via) (q : Nat) : s.samePlaces (s.prioVia v q).1 := by
  unfold State.prioVia
  split
  · exact s.samePlaces_refl
  · exact andThen_samePlaces (s.viaLoad_samePlaces _ _ _) fun t _ => t.samePlaces_refl

/-! ### Results on their way -/

/-- A result of a memory instruction sets out for D (R151). -/
theorem State.fillLanes_eq_sent (s : State) (f : Fields) (mask : Mask) (data : List Lanes) :
    s.fillLanes f mask data = .next (s.sent f mask data) := by
  unfold State.fillLanes State.sent
  split
  · split <;> rfl
  · rfl

end Sys2Proof.Machine
end

section
/-! Producers and consumers of records (R117, R123 to R128, R139 to R143), and a step of a join counter (R123, R124, R140). -/

namespace Sys2Proof.Machine

section
variable {s t : State} {w : Wave} {f : Fields}

/-! ### QPUSH and QNOTIFY -/

/-- What a push makes of a ring that it has read (R127). -/
theorem State.pushLoop_eq {s2 s3 : State} {q resv : Nat} {r d : List Byte}
    (hd : t.viaLoad (t.wavesVia w) (t.qDesc (t.tagOf w) q) 64 = (s2, .ok d))
    (hp : s2.viaPeek (t.wavesVia w) (t.qDesc (t.tagOf w) q + 0x10) 8 = (s3, .ok resv)) :
    t.pushLoop w f q r =
      if 2 ^ descLog2 d ≤ resv - descHead d then
        (if f.m.getLsbD 0 then .next (s3.modMe fun y => { y with wait := .push r }) else s3.ret f 1)
      else State.take (s3.ringAdd (t.wavesVia w) (t.qDesc (t.tagOf w) q) d resv [r]) 1 fun s _ => s.ret f 0 := by
  simp only [State.pushLoop, hd, hp, State.take]

/-- A push from a state in which the wave's place and the queue's descriptor are where they were. -/
theorem State.pushLoop_samePlaces (h : s.samePlaces t) (q : Nat) (r : List Byte) : ∀ s2 d s3 resv,
    t.viaLoad (s.wavesVia w) (s.qDesc (s.tagOf w) q) 64 = (s2, .ok d) →
    s2.viaPeek (s.wavesVia w) (s.qDesc (s.tagOf w) q + 0x10) 8 = (s3, .ok resv) →
    (2 ^ descLog2 d ≤ resv - descHead d → t.pushLoop w f q r =
      if f.m.getLsbD 0 then .next (s3.modMe fun y => { y with wait := .push r }) else s3.ret f 1) ∧
    (∀ s4, resv - descHead d < 2 ^ descLog2 d →
      s3.ringAdd (s.wavesVia w) (s.qDesc (s.tagOf w) q) d resv [r] = (s4, .ok ()) → t.pushLoop w f q r = s4.ret f 0) := by
  intro s2 d s3 resv hd hp
  have htag : t.tagOf w = s.tagOf w := congrArg Via.tag (h.wavesVia w)
  rw [← h.wavesVia w, ← h.qDesc, ← htag] at hd hp ⊢
  refine ⟨fun hfull => (State.pushLoop_eq hd hp).trans (if_pos hfull), fun s4 hroom hadd => ?_⟩
  rw [State.pushLoop_eq hd hp, if_neg (Nat.not_le.2 hroom), hadd]
  rfl

theorem exec_qpush_again {r : List Byte} (h : s.runs w (.qpush f) f .dest false = true) (hw : w.wait = .push r) :
    exec (.qpush f) s = s.pushLoop w f (s.natB w f) r := by
  change execQpush f s = _
  rw [execQpush, State.front_runs _ h]
  simp only [hw]

theorem exec_qpush (h : s.runs w (.qpush f) f .dest false = true) (hw : ∀ r, w.wait ≠ .push r) (hr : s.released w = true) :
    exec (.qpush f) s =
      if (s.ctx (s.tagOf w)).qcount ≤ s.natB w f then s.ret f 3
      else if s.qState (s.tagOf w) (s.natB w f) = .stopped then s.ret f 2
      else if (s.readS w (.int 64) f.a).toNat % 64 ≠ 0 then s.recInvalid w 0x0A
      else State.take (s.viaLoad (s.wavesVia w) (s.readS w (.int 64) f.a).toNat 64) 0 fun t r =>
        State.take (t.prioVia (s.wavesVia w) (s.natB w f)) 0 fun t prio =>
          match recordReason (t.ctx (s.tagOf w)).recver.toNat prio r with
          | some c => t.recInvalid w c
          | Option.none => t.pushLoop w f (s.natB w f) r := by
  change execQpush f s = _
  rw [execQpush, State.front_runs _ h]
  split
  · next r hq => exact absurd hq (hw r)
  · rw [hr]; rfl

/-- A record that passes its checks goes on to the ring. -/
theorem exec_qpush_checked {s0 s1 : State} {r : List Byte} {prio : Nat} (h : s.runs w (.qpush f) f .dest false = true)
    (hw : ∀ r, w.wait ≠ .push r) (hr : s.released w = true) (hq : s.natB w f < (s.ctx (s.tagOf w)).qcount)
    (hs : s.qState (s.tagOf w) (s.natB w f) ≠ .stopped) (ha : (s.readS w (.int 64) f.a).toNat % 64 = 0)
    (hl : s.viaLoad (s.wavesVia w) (s.readS w (.int 64) f.a).toNat 64 = (s0, .ok r))
    (hp : s0.prioVia (s.wavesVia w) (s.natB w f) = (s1, .ok prio))
    (hc : recordReason (s1.ctx (s.tagOf w)).recver.toNat prio r = none) :
    exec (.qpush f) s = s1.pushLoop w f (s.natB w f) r ∧ s.samePlaces s1 := by
  have hload := s.viaLoad_samePlaces (s.wavesVia w) (s.readS w (.int 64) f.a).toNat 64
  have hprio := s0.prioVia_samePlaces (s.wavesVia w) (s.natB w f)
  rw [hl] at hload
  rw [hp] at hprio
  refine ⟨?_, hload.trans hprio⟩
  rw [exec_qpush h hw hr, if_neg (Nat.not_le.2 hq), if_neg hs, if_neg (not_not.2 ha)]
  simp only [hl, State.take, hp, hc]

/-! ### SPAWN -/

/-- What a child makes of its die's buffer (R139). -/
theorem State.spawnEnter_cases (t : State) (w : Wave) (f : Fields) (q : Nat) (r : List Byte) :
    (1024 ≤ t.buffered w.die → t.spawnEnter w f q r =
      if f.m.getLsbD 0 then .next (t.modMe fun y => { y with wait := .push r }) else t.ret f 1) ∧
    (t.buffered w.die < 1024 → Out.ends (t.spawnEnter w f q r) fun u => ∃ x : Rec,
      u = ({ t with uid := t.uid + 1, recs := t.recs ++ [x] }.modMe fun y => (y.putS f.d 0).after f) ∧
      x.tag = t.tagOf w ∧ x.bytes = r ∧ x.parent = some (t.cordOf w).recUid ∧ x.buffer = some w.die ∧ x.stage = .taken) := by
  unfold State.spawnEnter
  refine ⟨fun h => if_pos h, fun h => ?_⟩
  rw [if_neg (Nat.not_le.2 h)]
  exact ⟨_, rfl, rfl, rfl, rfl, rfl, rfl⟩

theorem exec_spawn_again {r : List Byte} (h : s.runs w (.spawn f) f .dest false = true) (hw : w.wait = .push r) :
    exec (.spawn f) s = s.spawnEnter w f ((s.cordQueue (s.cordOf w)).getD 0) r := by
  change execSpawn f s = _
  rw [execSpawn, State.front_runs _ h]
  simp only [hw]

/-- Where SPAWN reads its record (R139). -/
def State.spawnAddr (s : State) (w : Wave) (f : Fields) : Nat :=
  (s.readS w (.int 64) f.a + (lo32 (s.scalB w (.int 32) true f)).signExtend 64).toNat

theorem exec_spawn_checked {r : List Byte} (h : s.runs w (.spawn f) f .dest false = true) (hw : ∀ r, w.wait ≠ .push r)
    (hr : s.released w = true) (ha : s.spawnAddr w f % 64 = 0)
    (hl : s.viaLoad (s.wavesVia w) (s.spawnAddr w f) 64 = (t, .ok r))
    (hc : recordReason (t.ctx (s.tagOf w)).recver.toNat
      ((t.queuePrioOf (s.tagOf w) ((s.cordQueue (s.cordOf w)).getD 0)).getD 7) r = none) (h5 : recType r ≠ 5) :
    exec (.spawn f) s = t.spawnEnter w f ((s.cordQueue (s.cordOf w)).getD 0) r := by
  unfold State.spawnAddr at ha hl
  change execSpawn f s = _
  rw [execSpawn, State.front_runs _ h]
  split
  · next r hq => exact absurd hq (hw r)
  · simp only [hr, ha, hl, hc, h5, State.take, Bool.not_true, Bool.false_eq_true, if_false, ne_eq, not_true_eq_false]

/-! ### JOIN and EMIT -/

theorem State.joinBy_counted {i : Instr} {inc : Bool} {old : Nat} (h : s.runs w i f .dest false = true) (hr : s.released w = true)
    (ha : (s.readS w (.int 64) f.a).toNat % 16 = 0)
    (hj : s.joinStep (s.wavesVia w) (s.readS w (.int 64) f.a).toNat (s.natB w f) inc = (t, .ok old)) :
    s.joinBy i f inc = t.ret f old := by
  rw [State.joinBy, State.front_runs _ h]
  simp only [hr, ha, hj, State.take, Bool.not_true, Bool.false_eq_true, if_false, ne_eq, not_true_eq_false]

theorem lanesOf_isEmpty {m : Mask} : (lanesOf m).isEmpty = true ↔ m = 0 := by
  rw [List.isEmpty_iff, lanesOf, List.filter_eq_nil_iff]
  refine ⟨fun h => BitVec.eq_of_getLsbD_eq fun i hi => ?_, fun h i _ => by simp [h]⟩
  simpa using h i (List.mem_range.2 hi)

/-- The record of the emitter's cord (R141). -/
def State.emitter (s : State) (w : Wave) : List Byte :=
  ((s.recs.find? fun x => x.uid == (s.cordOf w).recUid).map fun x => x.bytes).getD []

/-- The node that EMIT names: CODE, QUEUE and VALID (R130). -/
def State.emitNode (s : State) (w : Wave) (f : Fields) : Nat × Nat × Bool :=
  (s.cordOf w).kernel.nodes.getD (s.natB w f) (0, 0, false)

/-- EMIT names the node that runs it. -/
def State.emitSelf (s : State) (w : Wave) (f : Fields) : Bool := (s.emitNode w f).1 == recCode (s.emitter w)

/-- The records that EMIT makes, one for each active lane (R141). -/
def State.emitted (s : State) (w : Wave) (f : Fields) : List (List Byte) :=
  (lanesOf w.exec).map fun l => nodeRecord (s.ctx (s.tagOf w)).recver.toNat (recPrio (s.emitter w))
    (if s.emitSelf w f then recDepth (s.emitter w) + 1 else 0) (s.emitNode w f).1 (laneOf (s.srcA w (.int 64) f) l).toNat
    (recJoin (s.emitter w))

/-- The priority to which EMIT's records are held (R141). -/
def State.emitPrio (s : State) (tag q : Nat) (d : List Byte) : Nat := match s.slotOf tag q with
  | some x => x.prio
  | Option.none => descPrio d

/-- EMIT once it has read the descriptor d of queue q at desc (R141). -/
def State.emitOn (s : State) (w : Wave) (f : Fields) (t : State) (d : List Byte) : Out :=
  let tag := s.tagOf w
  let v := s.wavesVia w
  let desc := s.qDesc tag (s.emitNode w f).2.1
  let made := s.emitted w f
  let join := recJoin (s.emitter w)
  if 2 ^ descLog2 d < (lanesOf w.exec).length then t.ret f 4
  else match made.findSome? (recordReason (t.ctx tag).recver.toNat (t.emitPrio tag (s.emitNode w f).2.1 d)) with
    | some c => t.recInvalid w c
    | Option.none =>
      if !t.released w then t.stall
      else State.take (t.viaPeek v (desc + 0x10) 8) 3 fun t resv =>
        if 2 ^ descLog2 d < resv - descHead d + (lanesOf w.exec).length then t.stall
        else State.take (t.viaLocate v 3 (if join = 0 then [] else [(join, 16)])) 3 fun t _ =>
          State.take (t.viaLocate v 1 (((List.range made.length).flatMap fun i => piecesOf (entryVa d (resv + i)) 64) ++
            [(desc + 0x20, 8)])) 1 fun t _ =>
          State.take (t.emitAll v desc d resv join made) 3 fun t _ => t.ret f 0

theorem exec_emit (h : s.runs w (.emit f) f .dest false = true) : exec (.emit f) s =
    if (lanesOf w.exec).isEmpty then s.ret f 0
    else if 15 < s.natB w f ∨ !(s.emitNode w f).2.2 then s.recInvalid w 0x0A
    else if s.emitSelf w f && recDepth (s.emitter w) == (s.cordOf w).kernel.depth then
      s.trap 0x40 w.exec (BitVec.ofNat 64 (s.cordOf w).kernel.depth)
    else if (s.ctx (s.tagOf w)).qcount ≤ (s.emitNode w f).2.1 then s.ret f 1
    else if s.qState (s.tagOf w) (s.emitNode w f).2.1 = .stopped then s.ret f 2
    else State.take (s.viaLoad (s.wavesVia w) (s.qDesc (s.tagOf w) (s.emitNode w f).2.1) 64) 0 (s.emitOn w f) := by
  change execEmit f s = _
  rw [execEmit, State.front_runs _ h]
  rfl

/-- EMIT that passes the checks of its node and queue reads the descriptor. -/
theorem exec_emit_reads {d : List Byte} (h : s.runs w (.emit f) f .dest false = true) (he : w.exec ≠ 0) (hn : s.natB w f ≤ 15)
    (hv : (s.emitNode w f).2.2 = true)
    (hself : (s.emitSelf w f && recDepth (s.emitter w) == (s.cordOf w).kernel.depth) = false)
    (hq : (s.emitNode w f).2.1 < (s.ctx (s.tagOf w)).qcount) (hs : s.qState (s.tagOf w) (s.emitNode w f).2.1 ≠ .stopped)
    (hl : s.viaLoad (s.wavesVia w) (s.qDesc (s.tagOf w) (s.emitNode w f).2.1) 64 = (t, .ok d)) :
    exec (.emit f) s = s.emitOn w f t d := by
  have hnode : ¬ (15 < s.natB w f ∨ (!(s.emitNode w f).2.2) = true) := by simpa using ⟨hn, hv⟩
  rw [exec_emit h, if_neg (mt lanesOf_isEmpty.1 he), if_neg hnode, if_neg (Bool.eq_false_iff.1 hself), if_neg (Nat.not_le.2 hq),
    if_neg hs, hl]
  rfl

/-- EMIT publishes its records where nothing stops it (R141). -/
theorem State.emitOn_publishes {d : List Byte} {s2 s3 s4 s5 : State} {resv : Nat} {l3 l5 : List (Nat × Nat × Word64)}
    (hroom : (s.emitted w f).length ≤ 2 ^ descLog2 d)
    (hgood : (s.emitted w f).findSome? (recordReason (t.ctx (s.tagOf w)).recver.toNat
      (t.emitPrio (s.tagOf w) (s.emitNode w f).2.1 d)) = none) (hr : t.released w = true)
    (hp : t.viaPeek (s.wavesVia w) (s.qDesc (s.tagOf w) (s.emitNode w f).2.1 + 0x10) 8 = (s2, .ok resv))
    (hfits : resv - descHead d + (s.emitted w f).length ≤ 2 ^ descLog2 d)
    (h3 : s2.viaLocate (s.wavesVia w) 3 (if recJoin (s.emitter w) = 0 then [] else [(recJoin (s.emitter w), 16)]) = (s3, .ok l3))
    (h5 : s3.viaLocate (s.wavesVia w) 1 (((List.range (s.emitted w f).length).flatMap fun i => piecesOf (entryVa d (resv + i)) 64) ++
      [(s.qDesc (s.tagOf w) (s.emitNode w f).2.1 + 0x20, 8)]) = (s5, .ok l5))
    (h4 : s5.emitAll (s.wavesVia w) (s.qDesc (s.tagOf w) (s.emitNode w f).2.1) d resv (recJoin (s.emitter w)) (s.emitted w f) =
      (s4, .ok ())) : s.emitOn w f t d = s4.ret f 0 := by
  have hlen : (s.emitted w f).length = (lanesOf w.exec).length := List.length_map _
  rw [State.emitOn, ← hlen, if_neg (Nat.not_lt.2 hroom)]
  simp only [hgood, hr, hp, State.take, if_neg (Nat.not_lt.2 hfits), h3, h5, h4, Bool.not_true, Bool.false_eq_true, if_false]

/-! ### NODE.POP -/

/-- The reads of n takes go through, and leave a state (R143). -/
def State.PopReads (v : Via) (q : Nat) (u t : State) (n : Nat) : Prop :=
  ∃ a x b head, u.ringOfQueue v q = (a, .ok x) ∧ a.viaPeek v (a.qDesc v.tag q + 0x18) 8 = (b, .ok head) ∧
    State.popReads v x n head b = (t, .ok ())

theorem State.popChecked_of_reads {v : Via} {q n : Nat} {u : State} (h : State.PopReads v q u t n) (k : State → Out) :
    u.popChecked v q n k = k t := by
  obtain ⟨a, x, b, head, hx, hh, hr⟩ := h
  simp only [State.popChecked, State.take, hx, hh, hr]

/-- The takes of NODE.POP from a state, and its results on their way (R143). -/
def State.popGoes (s : State) (w : Wave) (f : Fields) (u : State) : Out :=
  let q := (s.readS w (.int 32) f.a).toNat
  u.popChecked (s.wavesVia w) q (lanesOf w.exec).length fun t =>
    State.take (t.whole (State.popLanes (s.wavesVia w) q (s.cordOf w).kernel.code (lanesOf w.exec))) 3 fun t r =>
      t.fillLanes f w.exec (lanesFrom 2 (r.map fun x => (x.1, [BitVec.ofNat 32 x.2, BitVec.ofNat 32 (x.2 / 2 ^ 32)])))

theorem State.popGoes_of_reads {u u' : State} {r : List (Nat × Nat)}
    (hu : State.PopReads (s.wavesVia w) (s.readS w (.int 32) f.a).toNat u u' (lanesOf w.exec).length)
    (hl : u'.whole (State.popLanes (s.wavesVia w) (s.readS w (.int 32) f.a).toNat (s.cordOf w).kernel.code (lanesOf w.exec)) =
      (t, .ok r)) :
    s.popGoes w f u = .next (t.sent f w.exec (lanesFrom 2 (r.map fun x =>
      (x.1, [BitVec.ofNat 32 x.2, BitVec.ofNat 32 (x.2 / 2 ^ 32)])))) := by
  unfold State.popGoes
  rw [State.popChecked_of_reads hu, hl]
  exact t.fillLanes_eq_sent _ _ _

/-- The wave that a doorbell has woken from its wait on queue q (R142). -/
def Wave.rung (w : Wave) (q : Nat) : Bool := match w.wait with | .pop p b => p == q && b | _ => false

theorem Wave.rung_of_wait {q : Nat} (h : w.wait = .pop q true) : w.rung q = true := by simp [Wave.rung, h]

theorem Wave.rung_of_no_wait {q : Nat} (h : ∀ p b, w.wait ≠ .pop p b) : w.rung q = false := by
  unfold Wave.rung
  split
  · next p b hw => exact absurd hw (h p b)
  · rfl

theorem exec_nodePop (h : s.runs w (.nodePop f) f .dest false = true) (hp : (s.cordOf w).kernel.persist = true)
    (hq : (s.cordOf w).kernel.pullq = (s.readS w (.int 32) f.a).toNat) : exec (.nodePop f) s =
    let q := (s.readS w (.int 32) f.a).toNat
    if f.m.getLsbD 0 && (lanesOf w.exec).isEmpty then s.finish f id
    else if !f.m.getLsbD 0 || w.rung q then s.popGoes w f s
    else s.popChecked (s.wavesVia w) q 1 fun t => State.take (t.headEntry (s.wavesVia w) q) 3 fun t x =>
      if x.2.isSome then s.popGoes w f t else .next (t.modMe fun w => { w with wait := .pop q false }) := by
  have hgood : (!(s.cordOf w).kernel.persist || (s.cordOf w).kernel.pullq != (s.readS w (.int 32) f.a).toNat) = false := by
    rw [hp, hq]; simp
  change execNodePop f s = _
  rw [execNodePop, State.front_runs _ h]
  simp only [hgood, Bool.false_eq_true, if_false]
  rfl

/-- NODE.POP that does not wait, or that a doorbell has woken, takes at once (R142, R143). -/
theorem exec_nodePop_goes (h : s.runs w (.nodePop f) f .dest false = true) (hp : (s.cordOf w).kernel.persist = true)
    (hq : (s.cordOf w).kernel.pullq = (s.readS w (.int 32) f.a).toNat)
    (hg : f.m.getLsbD 0 = false ∨ w.exec ≠ 0 ∧ w.wait = .pop (s.readS w (.int 32) f.a).toNat true) :
    exec (.nodePop f) s = s.popGoes w f s := by
  rw [exec_nodePop h hp hq]
  rcases hg with hm | ⟨he, hw⟩
  · simp only [hm, Bool.false_and, Bool.not_false, Bool.true_or, Bool.false_eq_true, if_false, if_true]
  · have hlanes : (lanesOf w.exec).isEmpty = false := Bool.eq_false_iff.2 fun hn => he (lanesOf_isEmpty.1 hn)
    simp only [hlanes, Wave.rung_of_wait hw, Bool.and_false, Bool.or_true, Bool.false_eq_true, if_false, if_true]

/-- NODE.POP that waits, and that nothing has woken, looks at the head of its queue first (R142, R143). -/
theorem exec_nodePop_looks {u : State} {n : Nat} {x : Option (List Byte)} (h : s.runs w (.nodePop f) f .dest false = true)
    (hp : (s.cordOf w).kernel.persist = true) (hq : (s.cordOf w).kernel.pullq = (s.readS w (.int 32) f.a).toNat)
    (hm : f.m.getLsbD 0 = true) (he : w.exec ≠ 0) (hw : ∀ p b, w.wait ≠ .pop p b)
    (hu : State.PopReads (s.wavesVia w) (s.readS w (.int 32) f.a).toNat s u 1)
    (hh : u.headEntry (s.wavesVia w) (s.readS w (.int 32) f.a).toNat = (t, .ok (n, x))) : exec (.nodePop f) s =
    if x.isSome then s.popGoes w f t
    else .next (t.modMe fun y => { y with wait := .pop (s.readS w (.int 32) f.a).toNat false }) := by
  have hlanes : (lanesOf w.exec).isEmpty = false := Bool.eq_false_iff.2 fun hn => he (lanesOf_isEmpty.1 hn)
  rw [exec_nodePop h hp hq]
  simp only [hm, hlanes, Wave.rung_of_no_wait hw, State.popChecked_of_reads hu, hh, State.take, Bool.and_false, Bool.not_true,
    Bool.or_self, Bool.false_eq_true, if_false]

end

/-! ### The whole -/

theorem queueInstructionsComplete : Claim.QueueInstructionsComplete := by
  intro s w f tag v put
  refine ⟨fun h => ⟨fun r hw => ?_, fun hw hr => ⟨fun hq => ?_, fun hq hs => ?_,
      fun s0 r s1 prio hq hs ha hl hp hc => ?_⟩⟩,
    fun h hr => ?_,
    fun h => ⟨fun r hw => ?_, fun hw hr s1 r ha hl hc h5 => ?_⟩,
    fun t old hr ha => ⟨fun h hj => State.joinBy_counted h hr ha hj, fun h hj => State.joinBy_counted h hr ha hj⟩,
    fun h => ⟨fun he => ?_, ?_⟩,
    fun h hp hq => ⟨fun hm => ?_, fun hm he => ?_, fun hm he hw => ?_,
      fun u t n x hm he hw hu hh => ⟨fun hx => ?_, fun hx => ?_⟩⟩⟩
  · rw [exec_qpush_again h hw]; exact State.pushLoop_samePlaces s.samePlaces_refl _ r
  · rw [exec_qpush h hw hr, if_pos hq]; rfl
  · rw [exec_qpush h hw hr, if_neg (Nat.not_le.2 hq), if_pos hs]; rfl
  · obtain ⟨hexec, hsame⟩ := exec_qpush_checked h hw hr hq hs ha hl hp hc
    rw [hexec]; exact State.pushLoop_samePlaces hsame _ r
  · change execQnotify f s = _
    rw [execQnotify, State.front_runs _ h, hr]; rfl
  · rw [exec_spawn_again h hw]; exact s.spawnEnter_cases w f _ r
  · rw [exec_spawn_checked h hw hr ha hl hc h5]; exact s1.spawnEnter_cases w f _ r
  · rw [exec_emit h, if_pos (lanesOf_isEmpty.2 he)]; rfl
  · intro s1 d s2 resv s3 l3 s5 l5 s4 he hn hv hself hq hs hl hroom hgood hr hp hfits h3 h5 h4
    exact (exec_emit_reads h he hn hv hself hq hs hl).trans (State.emitOn_publishes hroom hgood hr hp hfits h3 h5 h4)
  · intro u t r hu hl
    rw [exec_nodePop_goes h hp hq (.inl hm)]; exact State.popGoes_of_reads hu hl
  · rw [exec_nodePop h hp hq, hm, lanesOf_isEmpty.2 he]; exact s.finish_eq w f id (State.runs_me h)
  · intro u t r hu hl
    rw [exec_nodePop_goes h hp hq (.inr ⟨he, hw⟩)]; exact State.popGoes_of_reads hu hl
  · rw [exec_nodePop_looks h hp hq hm he hw hu hh, hx]; rfl
  · intro u' t' r hu' hl
    rw [exec_nodePop_looks h hp hq hm he hw hu hh, if_pos (Option.isSome_iff_ne_none.2 hx)]; exact State.popGoes_of_reads hu' hl

/-! ### Join counters -/

/-- Setting a bit of a counter adds its weight where it was clear. -/
theorem joinSet_eq (x bit : Nat) : joinSet x bit = x + (1 - x / 2 ^ bit % 2) * 2 ^ bit := by
  unfold joinSet
  split
  · next h => rw [h]; omega
  · have h : x / 2 ^ bit % 2 = 0 := by omega
    rw [h]; omega

theorem joinNew_inc (n x : Nat) : joinNew true n x = x / 2 ^ 32 * 2 ^ 32 + (x + n) % 2 ^ 32 := by
  simp only [joinNew, joinCount, if_true]; omega

theorem joinNew_dec {n x : Nat} (h : n ≤ joinCount x) : joinNew false n x = x - n := by
  have hlt : ¬ x % 2 ^ 32 < n := Nat.not_lt.2 h
  simp only [joinNew, joinCount, Bool.false_eq_true, if_false, hlt]; omega

/-- A step beyond zero leaves COUNT zero and STAT.UNDER set (R124). -/
theorem joinNew_under {n x : Nat} (h : joinCount x < n) : joinNew false n x =
    x / 2 ^ 32 * 2 ^ 32 + (1 - x / 2 ^ 48 % 2) * 2 ^ 48 := by
  have hz : x - x % 2 ^ 32 + (x % 2 ^ 32 - n) = x / 2 ^ 32 * 2 ^ 32 := by unfold joinCount at h; omega
  unfold joinCount at h
  simp only [joinNew, joinCount, Bool.false_eq_true, if_false, if_pos h, hz, joinSet_eq]; omega

theorem joinCounterSteps : Claim.JoinCounterSteps := by
  intro x n _ hn
  refine ⟨?_, ?_, ?_, fun h => ?_, fun h => ?_, ?_, rfl⟩
  · rcases Nat.lt_or_ge (joinCount x) n with h | h
    · rw [joinNew_under h]; simp only [joinCount] at *; omega
    · rw [joinNew_dec h]; simp only [joinCount] at *; omega
  · rw [joinNew_inc]; simp only [joinCount]; omega
  · rw [joinNew_inc]; omega
  · rw [joinNew_dec h]; simp only [joinCount] at *; omega
  · rw [joinNew_under h]; simp only [joinSucc, joinQueue]; omega
  · simp only [joinHits, Bool.not_false, Bool.true_and, Bool.and_eq_true, bne_iff_ne, decide_eq_true_eq, and_assoc]

/-- Settles O44: the branches of each queue instruction, which an access before them leaves as they are, and the arithmetic of
a counter. -/
theorem queueInstructionsEnd : Obligations.QueueInstructionsEnd := ⟨queueInstructionsComplete, joinCounterSteps⟩

end Sys2Proof.Machine
end

section
/-! The list of writes: what a new write and an acceptance make of it and of its names (R230, R232, R239). -/

namespace Sys2Proof.Machine

/-! ### The list of writes -/

/-- No write has entered, changed or gone. -/
def State.sameWrites (s t : State) : Prop := t.writes = s.writes ∧ t.uid = s.uid

theorem State.sameWrites_refl (s : State) : s.sameWrites s := ⟨rfl, rfl⟩

theorem State.sameWrites.trans {s t u : State} (h : s.sameWrites t) (h' : t.sameWrites u) : s.sameWrites u :=
  ⟨h'.1.trans h.1, h'.2.trans h.2⟩

theorem State.contend_sameWrites (s : State) (pa : Nat) (core : Option Nat) (write : Bool) :
    s.sameWrites (s.contend pa core write) := by
  unfold State.contend; split <;> exact s.sameWrites_refl

theorem State.contendWrite_sameWrites (s : State) (w : Write) : s.sameWrites (s.contendWrite w) := by
  unfold State.contendWrite
  split
  · refine List.foldlRecOn (motive := s.sameWrites) w.bytes _ s.sameWrites_refl fun t h c _ => ?_
    split
    · exact h.trans (t.contend_sameWrites _ _ _)
    · exact h
  · exact s.sameWrites_refl

theorem State.takeFlaws_sameWrites (s : State) (die : Nat) (here : FlawPlace → Bool) : s.sameWrites (s.takeFlaws die here).2 := by
  obtain ⟨flaws, corrected, h⟩ := s.takeFlaws_eq die here
  rw [h]
  exact s.sameWrites_refl

theorem State.faultLater_sameWrites (s : State) (tag : Nat) : s.sameWrites (s.faultLater tag) := by
  unfold State.faultLater; split <;> exact s.sameWrites_refl

/-- The write that enters under the next name (R239). -/
def State.nextWrite (s : State) (agent : Agent) (tag core : Option Nat) (bytes : List Host.Cell) (grain : Nat) (cache : CacheMode)
    (pool : Bool) (bells : List Instr) : Write :=
  ⟨s.uid, agent, tag, core, bytes, grain, cache, pool, !pool, bells, [], none, false, [], none⟩

section
variable (s : State) (agent : Agent) (tag core : Option Nat) (bytes : List Host.Cell) (grain : Nat) (cache : CacheMode) (pool : Bool)
  (bells : List Instr)

theorem State.newWrite_writes : (s.newWrite agent tag core bytes grain cache pool bells).2.writes =
    s.writes ++ [s.nextWrite agent tag core bytes grain cache pool bells] := by
  cases agent <;> rfl

theorem State.newWrite_uid : (s.newWrite agent tag core bytes grain cache pool bells).2.uid = s.uid + 1 := by
  cases agent <;> rfl

end

/-- The writes with one of them accepted at time c: after every accepted one, before every other (R230). -/
def acceptedAt (l : List Write) (w : Write) (c : Nat) : List Write :=
  let rest := l.filter fun x => x.id != w.id
  (rest.filter fun x => x.ctime.isSome) ++ [{ w with ctime := some c }] ++ rest.filter fun x => x.ctime.isNone

section
variable {s : State} {w : Write} {id : Nat} (contends : Bool)

theorem State.write_id (h : s.write id = some w) : w.id = id := by
  simpa using List.find?_some h

theorem State.write_mem (h : s.write id = some w) : w ∈ s.writes := List.mem_of_find?_eq_some h

theorem State.acceptAs_absent (h : s.write id = none) : s.acceptAs contends id = s := by
  rw [State.acceptAs, h]

theorem State.acceptAs_accepted (h : s.write id = some w) (hc : w.ctime.isSome = true) : s.acceptAs contends id = s := by
  rw [State.acceptAs, h]; exact if_pos hc

theorem State.acceptAs_poisoned (h : s.write id = some w) (hc : w.ctime.isSome = false) (hp : s.poison.contains w.sector = true) :
    (s.acceptAs contends id).writes = s.writes.filter (fun x => x.id != id) ∧ (s.acceptAs contends id).uid = s.uid := by
  simp only [State.acceptAs, h, hc, hp, Bool.false_eq_true, if_false, if_true]
  exact ⟨rfl, rfl⟩

/-- When a write that is accepted now completes (R232, R236, R250). -/
def State.acceptTime (s : State) (w : Write) : Nat :=
  let e := s.leaseOf (s.tileOf ((w.bytes.head?.map fun c => c.1).getD 0) w.grain)
  if w.cache = .normal then max (max (max s.time e.1) e.2) (s.portFloor w.agent) else max (max s.time e.2) (s.portFloor w.agent)

/-- What acceptance changes before the write takes its place: its port, reservations, tenures and lease (R232, R250, R326). -/
def State.accepting (s : State) (contends : Bool) (w : Write) : State :=
  let pa := (w.bytes.head?.map fun c => c.1).getD 0
  let t := (s.raisePort w.agent (s.acceptTime w)).dropResv w
  (if contends then t.contend pa w.core true else t).modLease (s.tileOf pa w.grain) fun l => { l with clast := s.acceptTime w }

theorem State.accepting_sameWrites : s.sameWrites (s.accepting contends w) := by
  have hlease : ∀ (t : State) (x : LeaseTile) (f : Lease → Lease), t.sameWrites (t.modLease x f) := fun t x f => by
    unfold State.modLease; split <;> exact t.sameWrites_refl
  have hport : s.sameWrites ((s.raisePort w.agent (s.acceptTime w)).dropResv w) := by
    unfold State.raisePort; split <;> exact s.sameWrites_refl
  refine State.sameWrites.trans ?_ (hlease _ _ _)
  cases contends
  · exact hport
  · exact hport.trans (State.contend_sameWrites _ _ _ _)

/-- A sound sector's write takes its place in coherence order (R230, R232). -/
theorem State.acceptAs_eq (h : s.write id = some w) (hc : w.ctime.isSome = false) (hp : s.poison.contains w.sector = false) :
    s.acceptAs contends id = State.returnTime { s.accepting contends w with
      writes := acceptedAt (s.accepting contends w).writes w (s.acceptTime w) } id (s.acceptTime w) := by
  simp only [acceptedAt, State.write_id h, State.acceptAs, h, hc, hp, Bool.false_eq_true, if_false]
  rfl

theorem State.acceptAs_sound (h : s.write id = some w) (hc : w.ctime.isSome = false) (hp : s.poison.contains w.sector = false) :
    (s.acceptAs contends id).writes = acceptedAt s.writes w (s.acceptTime w) ∧ (s.acceptAs contends id).uid = s.uid := by
  obtain ⟨hw, hu⟩ := State.accepting_sameWrites (s := s) (w := w) contends
  rw [State.acceptAs_eq contends h hc hp]
  exact ⟨congrArg (acceptedAt · w _) hw, hu⟩

end

/-! ### Names and waiting writes -/

section
variable {s t : State}

theorem namesFresh_of_subset (h : namesFresh s) (hd : (t.writes.map fun x => x.id).Nodup)
    (hs : ∀ x ∈ t.writes, ∃ y ∈ s.writes, x.id = y.id) (hu : s.uid ≤ t.uid) : namesFresh t :=
  ⟨hd, fun x hx => by obtain ⟨y, hy, e⟩ := hs x hx; exact e ▸ Nat.lt_of_lt_of_le (h.2 y hy) hu⟩

theorem State.sameWrites.namesFresh (hs : s.sameWrites t) (h : namesFresh s) : namesFresh t := by
  unfold Machine.namesFresh; rw [hs.1, hs.2]; exact h

theorem State.newWrite_namesFresh (h : namesFresh s) (agent : Agent) (tag core : Option Nat) (bytes : List Host.Cell) (grain : Nat)
    (cache : CacheMode) (pool : Bool) (bells : List Instr) : namesFresh (s.newWrite agent tag core bytes grain cache pool bells).2 := by
  obtain ⟨hd, hlt⟩ := h
  unfold namesFresh
  rw [State.newWrite_writes, State.newWrite_uid, List.map_append, List.nodup_append]
  refine ⟨⟨hd, List.nodup_singleton _, fun n hn m hm => ?_⟩, fun x hx => ?_⟩
  · obtain ⟨x, hx, rfl⟩ := List.mem_map.1 hn
    exact fun e => Nat.ne_of_lt (hlt x hx) (e.trans (List.mem_singleton.1 hm))
  · rcases List.mem_append.1 hx with hx | hx
    · exact Nat.lt_succ_of_lt (hlt x hx)
    · rw [List.mem_singleton.1 hx]; exact Nat.lt_succ_self _

theorem mem_acceptedAt {l : List Write} {w x : Write} {c : Nat} :
    x ∈ acceptedAt l w c ↔ x = { w with ctime := some c } ∨ x ∈ l ∧ x.id ≠ w.id := by
  cases hx : x.ctime <;> simp [acceptedAt, hx, or_comm]

theorem acceptedAt_names {l : List Write} {w : Write} (c : Nat) (h : (l.map fun x => x.id).Nodup) :
    ((acceptedAt l w c).map fun x => x.id).Nodup := by
  let rest := l.filter fun x => x.id != w.id
  have hperm : ((acceptedAt l w c).map fun x => x.id).Perm (w.id :: rest.map fun x => x.id) := by
    have hsplit := List.filter_append_perm (fun x : Write => x.ctime.isSome) rest
    simp only [Option.not_isSome] at hsplit
    simp only [acceptedAt, List.append_assoc, List.singleton_append]
    exact ((List.perm_middle.trans (hsplit.cons _)).map fun x : Write => x.id)
  refine hperm.nodup_iff.2 (List.nodup_cons.2 ⟨fun hm => ?_, h.sublist (List.filter_sublist.map _)⟩)
  obtain ⟨x, hx, e⟩ := List.mem_map.1 hm
  simp [rest, e] at hx

/-- Acceptance makes nothing of a write but an accepted one, of the write that it names (R230, R232). -/
theorem State.acceptAs_mem (contends : Bool) {id : Nat} {x : Write} (hx : x ∈ (s.acceptAs contends id).writes) :
    x ∈ s.writes ∨ ∃ w c, w ∈ s.writes ∧ x = { w with ctime := some c } := by
  cases h : s.write id with
  | none => rw [State.acceptAs_absent contends h] at hx; exact .inl hx
  | some w =>
    cases hc : w.ctime.isSome with
    | true => rw [State.acceptAs_accepted contends h hc] at hx; exact .inl hx
    | false =>
      cases hp : s.poison.contains w.sector with
      | true =>
        rw [(State.acceptAs_poisoned contends h hc hp).1] at hx
        exact .inl (List.mem_of_mem_filter hx)
      | false =>
        obtain ⟨hl, -⟩ := State.acceptAs_sound contends h hc hp
        rw [hl] at hx
        rcases mem_acceptedAt.1 hx with rfl | hx
        · exact .inr ⟨w, _, State.write_mem h, rfl⟩
        · exact .inl hx.1

theorem State.acceptAs_namesFresh (h : namesFresh s) (contends : Bool) (id : Nat) : namesFresh (s.acceptAs contends id) := by
  have hs : ∀ x ∈ (s.acceptAs contends id).writes, ∃ y ∈ s.writes, x.id = y.id := fun x hx => by
    rcases State.acceptAs_mem contends hx with hx | ⟨w, c, hw, rfl⟩
    · exact ⟨x, hx, rfl⟩
    · exact ⟨w, hw, rfl⟩
  cases hw : s.write id with
  | none => rwa [State.acceptAs_absent contends hw]
  | some w =>
    cases hc : w.ctime.isSome with
    | true => rwa [State.acceptAs_accepted contends hw hc]
    | false =>
      cases hp : s.poison.contains w.sector with
      | true =>
        obtain ⟨hl, hu⟩ := State.acceptAs_poisoned contends hw hc hp
        exact namesFresh_of_subset h (hl ▸ h.1.sublist (List.filter_sublist.map _)) hs hu.ge
      | false =>
        obtain ⟨hl, hu⟩ := State.acceptAs_sound contends hw hc hp
        exact namesFresh_of_subset h (hl ▸ acceptedAt_names _ h.1) hs hu.ge

/-- A write that still waits has waited, and acceptance named another (R230). -/
theorem State.acceptAs_open (h : namesFresh s) (contends : Bool) {id : Nat} {x : Write} (hx : x ∈ (s.acceptAs contends id).writes)
    (ho : x.ctime = none) : x ∈ s.writes ∧ x.id ≠ id := by
  cases hw : s.write id with
  | none =>
    rw [State.acceptAs_absent contends hw] at hx
    exact ⟨hx, by simpa using List.find?_eq_none.1 hw x hx⟩
  | some w =>
    cases hc : w.ctime.isSome with
    | true =>
      rw [State.acceptAs_accepted contends hw hc] at hx
      refine ⟨hx, fun e => ?_⟩
      obtain rfl := List.inj_on_of_nodup_map h.1 hx (State.write_mem hw) (e.trans (State.write_id hw).symm)
      simp [ho] at hc
    | false =>
      cases hp : s.poison.contains w.sector with
      | true =>
        rw [(State.acceptAs_poisoned contends hw hc hp).1] at hx
        simpa using hx
      | false =>
        obtain ⟨hl, -⟩ := State.acceptAs_sound contends hw hc hp
        rw [hl] at hx
        rcases mem_acceptedAt.1 hx with rfl | hx
        · cases ho
        · exact State.write_id hw ▸ hx

end

end Sys2Proof.Machine
end

section
/-! Atomics (R243, R274 to R277): what one finds at home once its core's earlier writes to the sector have been accepted, and its
own write, which is accepted at once. -/

namespace Sys2Proof.Machine

/-! ### A wave's stores that wait for no release -/

/-- Names are fresh, and no store of a wave to a sector that has not been accepted waits for a release (R238, R241). -/
def State.ownReleased (s : State) (id : WaveId) (sec : Nat) : Prop :=
  namesFresh s ∧ ∀ x ∈ s.writes, x.ctime = none → x.agent = .wave id → x.sector = sec → x.rel = none

section
variable {s t : State} {id : WaveId} {sec : Nat}

theorem State.sameWrites.ownReleased (hs : s.sameWrites t) (h : s.ownReleased id sec) : t.ownReleased id sec :=
  ⟨hs.namesFresh h.1, hs.1.symm ▸ h.2⟩

theorem State.acceptAs_ownReleased (h : s.ownReleased id sec) (contends : Bool) (n : Nat) :
    (s.acceptAs contends n).ownReleased id sec :=
  ⟨State.acceptAs_namesFresh h.1 contends n, fun x hx ho => h.2 x (State.acceptAs_open h.1 contends hx ho).1 ho⟩

theorem State.acceptOr_ownReleased (h : s.ownReleased id sec) (n : Nat) : (s.acceptOr n).ownReleased id sec := by
  unfold State.acceptOr
  split
  · split
    · exact State.acceptAs_ownReleased h true n
    · exact (s.contendWrite_sameWrites _).ownReleased h
  · exact h

theorem State.acceptSector_ownReleased (h : s.ownReleased id sec) (core sector : Nat) :
    (s.acceptSector core sector).ownReleased id sec :=
  List.foldlRecOn (motive := fun t : State => t.ownReleased id sec) _ _ h fun _ ht _ _ => State.acceptAs_ownReleased ht true _

/-- A write of the hardware, with the waves whose stores it carries (R238). -/
theorem State.newWrite_owned_ownReleased (h : s.ownReleased id sec) (tag core : Option Nat) (bytes : List Host.Cell) (grain : Nat)
    (cache : CacheMode) (pool : Bool) (bells : List Instr) (n : Nat) (owners : List (Nat × WaveId)) :
    ((s.newWrite .engine tag core bytes grain cache pool bells).2.modWrite n fun w => { w with owners := owners }).ownReleased
      id sec := by
  obtain ⟨hd, hlt⟩ := State.newWrite_namesFresh h.1 .engine tag core bytes grain cache pool bells
  have hmem : ∀ x ∈ ((s.newWrite .engine tag core bytes grain cache pool bells).2.modWrite n fun w =>
      { w with owners := owners }).writes, ∃ y ∈ (s.newWrite .engine tag core bytes grain cache pool bells).2.writes,
      x.id = y.id ∧ x.ctime = y.ctime ∧ x.agent = y.agent ∧ x.sector = y.sector ∧ x.rel = y.rel := fun x hx => by
    obtain ⟨y, hy, rfl⟩ := List.mem_map.1 hx
    refine ⟨y, hy, ?_⟩
    split <;> exact ⟨rfl, rfl, rfl, rfl, rfl⟩
  have hids : ∀ l : List Write, ((modWhere l (fun w => w.id == n) fun w => { w with owners := owners }).map fun x => x.id) =
      l.map fun x => x.id := fun l => by
    rw [modWhere, List.map_map]
    refine List.map_congr_left fun x _ => ?_
    dsimp only [Function.comp_apply]
    split <;> rfl
  refine ⟨⟨(hids _).symm ▸ hd, fun x hx => ?_⟩, fun x hx ho ha hsec => ?_⟩
  · obtain ⟨y, hy, hid, -⟩ := hmem x hx
    exact hid ▸ hlt y hy
  · obtain ⟨y, hy, -, hctime, hagent, hsector, hrel⟩ := hmem x hx
    rw [State.newWrite_writes] at hy
    rcases List.mem_append.1 hy with hy | hy
    · exact hrel.trans (h.2 y hy (hctime ▸ ho) (hagent ▸ ha) (hsector ▸ hsec))
    · rw [hagent, List.mem_singleton.1 hy] at ha; cases ha

theorem State.sendBack_ownReleased (h : s.ownReleased id sec) (core : Nat) (d : Dirty) (bs : List Host.Cell) :
    (s.sendBack core d bs).2.ownReleased id sec := by
  unfold State.sendBack
  dsimp only
  split
  · next t e =>
    have ht : s.sameWrites t := (congrArg (fun p => s.sameWrites p.2) e).mp (s.takeFlaws_sameWrites _ _)
    exact (State.faultLater_sameWrites _ _).ownReleased (State.sameWrites.ownReleased ht h)
  · next t e =>
    have ht : t.ownReleased id sec :=
      ((congrArg (fun p => s.sameWrites p.2) e).mp (s.takeFlaws_sameWrites _ _) : s.sameWrites t).ownReleased h
    split
    · exact (t.faultLater_sameWrites _).ownReleased ht
    · refine State.acceptOr_ownReleased ?_ _
      exact State.newWrite_owned_ownReleased (State.acceptSector_ownReleased ht _ _) _ _ _ _ _ _ _ _ _

theorem State.flushSector_ownReleased (h : s.ownReleased id sec) (core sector : Nat) :
    (s.flushSector core sector).ownReleased id sec := by
  refine List.foldlRecOn (motive := fun p : Nat × State => p.2.ownReleased id sec) _ _ h fun p hp d _ => ?_
  exact List.foldlRecOn (motive := fun p : Nat × State => p.2.ownReleased id sec) _ _ hp fun q hq bs _ =>
    State.sendBack_ownReleased hq _ _ _

/-- What an atomic finds of its core's writes to the sector: none waits but behind another wave's release (R238, R239). -/
def State.settled (u : State) (id : WaveId) (sec : Nat) : Prop :=
  namesFresh u ∧
    ∀ x ∈ u.writes, x.ctime = none → x.core = some id.core → x.sector = sec → x.rel.isSome ∧ x.agent ≠ .wave id

/-- A fold of acceptances leaves waiting only what it does not name. -/
theorem State.foldl_acceptNow_open (h : namesFresh s) (l : List Write) {x : Write}
    (hx : x ∈ (l.foldl (fun s w => s.acceptNow w.id) s).writes) (ho : x.ctime = none) :
    x ∈ s.writes ∧ ∀ w ∈ l, x.id ≠ w.id := by
  induction l generalizing s with
  | nil => exact ⟨hx, fun w hw => absurd hw List.not_mem_nil⟩
  | cons w r ih =>
    obtain ⟨hmem, hr⟩ := ih (State.acceptAs_namesFresh h true w.id) hx
    obtain ⟨hs, hw⟩ := State.acceptAs_open h true hmem ho
    exact ⟨hs, fun y hy => by rcases List.mem_cons.1 hy with rfl | hy; exacts [hw, hr y hy]⟩

theorem State.acceptSector_settled (h : s.ownReleased id sec) : (s.acceptSector id.core sec).settled id sec := by
  refine ⟨(State.acceptSector_ownReleased h _ _).1, fun x hx ho hc hsec => ?_⟩
  obtain ⟨hmem, hnot⟩ := State.foldl_acceptNow_open h.1 _ hx ho
  have hrel : x.rel ≠ none := fun hr =>
    hnot x (List.mem_filter.2 ⟨hmem, by simp [ho, hr, hc, hsec]⟩) rfl
  exact ⟨Option.isSome_iff_ne_none.2 hrel, fun ha => hrel (h.2 x hmem ho ha hsec)⟩

end

/-! ### Bytes of a write -/

theorem mem_cellsAt {a : Nat} {bs : List Byte} {c : Host.Cell} (h : c ∈ cellsAt a bs) : ∃ i < bs.length, c.1 = a + i := by
  induction bs generalizing a with
  | nil => cases h
  | cons b r ih =>
    rw [cellsAt_cons] at h
    rcases List.mem_cons.1 h with rfl | h
    · exact ⟨0, Nat.succ_pos _, rfl⟩
    · obtain ⟨i, hi, hc⟩ := ih h
      exact ⟨i + 1, Nat.succ_lt_succ hi, by omega⟩

/-- The byte that stands at an address among bytes at consecutive addresses. -/
theorem find?_cellsAt {a i : Nat} {bs : List Byte} (h : i < bs.length) :
    ((cellsAt a bs).find? fun c => c.1 == a + i).map (fun c => c.2) = some (bs.getD i 0) := by
  induction bs generalizing a i with
  | nil => cases h
  | cons b r ih =>
    rw [cellsAt_cons]
    cases i with
    | zero => simp
    | succ i =>
      rw [List.find?_cons_of_neg (by simp), List.getD_cons_succ, ← ih (a := a + 1) (Nat.lt_of_succ_lt_succ h)]
      simp only [Nat.add_assoc, Nat.add_comm 1]

theorem State.doorless_length (s : State) (pa : Nat) (bs : List Byte) : (s.doorless pa bs).length = bs.length := by
  unfold State.doorless
  refine List.foldlRecOn (motive := fun l : List Byte => l.length = bs.length) _ _ rfl fun l hl x _ => ?_
  refine List.foldlRecOn (motive := fun l : List Byte => l.length = bs.length) _ _ hl fun l hl i _ => ?_
  split
  · split
    · rw [List.length_set, hl]
    · exact hl
  · exact hl

/-- Writes that wait change no latest value (R243). -/
theorem foldl_latest_open (pa : Nat) (l : List Write) (h : ∀ x ∈ l, x.ctime = none) (b : Byte) :
    l.foldl (fun b w => if w.ctime.isSome then (w.byte pa).getD b else b) b = b := by
  induction l with
  | nil => rfl
  | cons w r ih =>
    have hw := h w (List.mem_cons_self ..)
    simp only [List.foldl_cons, hw, Option.isSome_none, Bool.false_eq_true, if_false]
    exact ih fun x hx => h x (List.mem_cons_of_mem _ hx)

/-- A write that has just been accepted gives its bytes their latest value (R230, R243). -/
theorem State.latestByte_of_accepted {t : State} {l : List Write} {w : Write} {c pa : Nat} {b : Byte}
    (h : t.writes = acceptedAt l w c) (hb : w.byte pa = some b) : t.latestByte pa = b := by
  have hbyte : Write.byte { w with ctime := some c } pa = some b := hb
  rw [State.latestByte, h, acceptedAt, List.foldl_append, foldl_latest_open, List.foldl_append, List.foldl_cons, List.foldl_nil,
    hbyte]
  · rfl
  · intro x hx
    simpa using (List.mem_filter.1 hx).2

/-! ### The atomic's own write -/

section
variable {u t : State} {id : WaveId} {x : Write}

/-- The next write of a wave to a settled sector may be accepted where no tenure and no full directory holds it (R235, R324). -/
theorem State.canAccept_next (hu : u.settled id x.sector) (hw : t.writes = u.writes ++ [x]) (hh : t.handles = u.handles)
    (hx : x.ctime = none ∧ x.rel = none ∧ x.agent = .wave id ∧ x.core = some id.core)
    (hfree : ∀ c ∈ x.bytes, u.heldBack c.1 (some id.core) = false ∧ u.dirFull c.1 = false) : t.canAccept x = true := by
  obtain ⟨hc, hr, ha, hcore⟩ := hx
  have hroot : ∀ pa, t.rootOf pa = u.rootOf pa := fun pa => by rw [State.rootOf, hh, State.rootOf]
  have hfree' : (x.bytes.any fun c => t.heldBack c.1 x.core || t.dirFull c.1) = false := by
    rw [List.any_eq_false]
    intro c hc
    obtain ⟨hback, hfull⟩ := hfree c hc
    have hb : t.heldBack c.1 x.core = false := by rw [State.heldBack, hroot, hcore]; exact hback
    have hd : t.dirFull c.1 = false := by
      rw [State.dirFull] at hfull ⊢; simp only [hroot, State.sliceFull, hh] at hfull ⊢; exact hfull
    simp [hb, hd]
  have horders : ∀ y : Write, y.orders x = (y.core.isSome && y.core == x.core && y.sector == x.sector) := fun y => by
    rw [Write.orders, ha]; cases y.agent <;> simp
  have hfirst : (t.writes.any fun y => y.ctime.isNone && decide (y.id < x.id) && y.orders x &&
      (y.rel.isNone || y.agent == x.agent)) = false := by
    rw [List.any_eq_false, hw]
    intro y hy hn
    simp only [horders, hcore, ha, Bool.and_eq_true, Bool.or_eq_true, Option.isNone_iff_eq_none, decide_eq_true_eq,
      beq_iff_eq] at hn
    obtain ⟨⟨⟨ho, hlt⟩, ⟨-, hy1⟩, hy2⟩, hrel⟩ := hn
    rcases List.mem_append.1 hy with hy | hy
    · obtain ⟨hsome, hne⟩ := hu.2 y hy ho hy1 hy2
      rcases hrel with hrel | hag
      · simp [hrel] at hsome
      · exact hne hag
    · rw [List.mem_singleton.1 hy] at hlt; exact Nat.lt_irrefl _ hlt
  simp only [State.canAccept, State.reaches, hc, hr, hfirst, hfree', Option.isNone_none, Bool.not_false, Bool.and_self]

/-- It is accepted at once, and its bytes are the latest (R243). -/
theorem State.acceptOr_next (hu : u.settled id x.sector) (hw : t.writes = u.writes ++ [x]) (hh : t.handles = u.handles)
    (hp : t.poison = u.poison) (hid : x.id = u.uid)
    (hx : x.ctime = none ∧ x.rel = none ∧ x.agent = .wave id ∧ x.core = some id.core)
    (hfree : ∀ c ∈ x.bytes, u.heldBack c.1 (some id.core) = false ∧ u.dirFull c.1 = false)
    (hsound : u.poison.contains x.sector = false) {pa : Nat} {b : Byte} (hb : x.byte pa = some b) :
    (t.acceptOr u.uid).latestByte pa = b := by
  have hwrite : t.write u.uid = some x := by
    rw [← hid]
    exact State.write_of_split (post := []) hw fun y hy => hid ▸ Nat.ne_of_lt (hu.1.2 y hy)
  obtain ⟨hl, -⟩ := State.acceptAs_sound true hwrite (by simp [hx.1]) (hp ▸ hsound)
  have haccept := State.canAccept_next hu hw hh hx hfree
  have hnow : t.acceptOr u.uid = t.acceptAs true u.uid := by
    rw [State.acceptOr, hwrite]; exact if_pos haccept
  exact State.latestByte_of_accepted (hnow ▸ hl) hb

end

/-- A change of the write that has just entered. -/
theorem State.modWrite_last {s : State} {l : List Write} {x : Write} (hw : s.writes = l ++ [x]) (hl : ∀ y ∈ l, y.id < x.id)
    (f : Write → Write) : (s.modWrite x.id f).writes = l ++ [f x] := by
  have hkeep : modWhere l (fun w => w.id == x.id) f = l := by
    refine (List.map_congr_left fun y hy => ?_).trans (List.map_id l)
    rw [if_neg (by simpa using Nat.ne_of_lt (hl y hy))]; rfl
  rw [State.modWrite, hw]
  simp only [modWhere, List.map_append] at hkeep ⊢
  rw [hkeep]; simp

theorem atomicActsAtHome : Claim.AtomicActsAtHome := by
  intro s w va pa n e g hn _ hpos hsec hrel u r
  refine ⟨rfl, fun hsound hfree i hi => ?_⟩
  have hu : u.settled w.id (sectorBase pa) := State.acceptSector_settled (State.flushSector_ownReleased
    ⟨hn, fun x hx _ ha hs => hrel x hx ha hs⟩ _ _)
  let bs := u.doorless pa (bytesOfNat n (g r.1))
  have hlen : bs.length = n := (u.doorless_length _ _).trans (bytesOfNat_length _ _)
  let v := u.modWave w.id fun x => x.saw u (u.latestIds pa n)
  let x0 := v.nextWrite (.wave w.id) (some (v.tagOf w)) (some w.core) (cellsAt pa bs) (grainBytes (pteGrain e)) (cacheMode e)
    (ptePool e) (v.bellsFor pa (bytesOfNat n (g r.1)))
  let x : Write := { x0 with via := [(sectorBase va, e)] }
  let t := (v.enterWrite (.wave w.id) (some (v.tagOf w)) (some w.core) pa e (bytesOfNat n (g r.1))).2.modWrite x0.id fun x =>
    { x with via := [(sectorBase va, e)] }
  have hw : t.writes = u.writes ++ [x] := State.modWrite_last (State.newWrite_writes v _ _ _ _ _ _ _ _) hu.1.2 _
  have hsector : x.sector = sectorBase pa := by
    obtain ⟨b, l, hbs⟩ := List.exists_cons_of_length_pos (hlen.symm ▸ hpos : 0 < bs.length)
    change (((cellsAt pa bs).head?).map fun c => sectorBase c.1).getD 0 = _
    rw [hbs, cellsAt_cons]; rfl
  refine State.acceptOr_next (t := t) (hsector.symm ▸ hu) hw rfl rfl rfl ⟨rfl, rfl, rfl, rfl⟩ (fun c hc => ?_)
    (hsector.symm ▸ hsound) (find?_cellsAt (hlen.symm ▸ hi))
  obtain ⟨j, hj, hc⟩ := mem_cellsAt hc
  exact hc ▸ hfree j (hlen ▸ hj)

/-! ### Operators and instructions -/

theorem atomicOperators : Claim.AtomicOperators := by
  intro bits old b c _ hold hb sg
  refine ⟨rfl, ?_, rfl, ?_, rfl, BitVec.ofNat_and .., BitVec.ofNat_or .., BitVec.ofNat_xor .., rfl, rfl, rfl⟩
  · have hmin : sg (atomNew 1 bits old b c) = if sg b < sg old then sg b else sg old := apply_ite sg ..
    rw [hmin]; split <;> omega
  · have hmax : sg (atomNew 3 bits old b c) = if sg old < sg b then sg b else sg old := apply_ite sg ..
    rw [hmax]; split <;> omega

section
variable {s t : State} {w : Wave} {f : Fields} {l : List Located}

theorem State.atomic_waits (ho : f.ord = 2) (hr : s.releasedAt w f.scope = false) : s.atomic w f = s.stall :=
  if_pos ⟨ho, by simp [hr]⟩

/-- An atomic whose checks pass acts lane by lane, and its old values set out for D (R275). -/
theorem State.atomic_performs (hc : s.checkAtom w f (s.baseAddrs w f) = (t, l, .all))
    (hfree : (f.ord ≠ 2 ∨ s.releasedAt w f.scope = true) ∧ t.ownHeld w l = false) :
    let r := State.performAtom w f (s.atomData w f) (s.atomCmp w f) l t
    s.atomic w f = .next (r.2.sent f w.exec
      (lanesFrom (2 ^ (f.msize - 2)) (r.1.map fun x => (x.1, loadWords f.msize false (bytesOfNat (2 ^ f.msize) x.2))))) := by
  obtain ⟨hr, hh⟩ := hfree
  have hgo : ¬ (f.ord = 2 ∧ ¬ s.releasedAt w f.scope = true) := fun h => hr.elim (· h.1) h.2
  simp only [State.atomic, if_neg hgo, hc, hh, Bool.false_eq_true, if_false, State.fillLanes_eq_sent]
  rfl

/-- The lanes of RED act as those of ATOM: nothing in their action reads D. -/
theorem State.performAtom_dest (d : Opnd) (data cmp : List Nat) :
    State.performAtom w { f with d := d } data cmp l s = State.performAtom w f data cmp l s := by
  induction l generalizing s with
  | nil => rfl
  | cons x r ih => simp only [State.performAtom]; rw [ih]; rfl

end

theorem atomicsComplete : Claim.AtomicsComplete := by
  intro s t w f l hc free r got
  refine ⟨fun h hf => ?_, fun h hf => ?_, fun ho hr => ⟨fun h => ?_, fun h => ?_⟩⟩
  · change execAtom f s = _
    rw [execAtom, State.front_runs _ h]
    exact State.atomic_performs hc hf
  · change execRed f s = _
    rw [execRed, State.front_runs _ h]
    have hred := State.atomic_performs (f := { f with d := .none }) hc hf
    dsimp only at hred
    rw [State.performAtom_dest] at hred
    exact hred
  · change execAtom f s = _
    rw [execAtom, State.front_runs _ h]
    exact State.atomic_waits ho hr
  · change execRed f s = _
    rw [execRed, State.front_runs _ h]
    exact State.atomic_waits (f := { f with d := .none }) ho hr

/-- Settles O33: the operators as numbers, the branches of ATOM and RED, and the acceptance of an atomic's own write in a sector
whose earlier writes of the core have been accepted. -/
theorem atomicsCompleteAtHome : Obligations.AtomicsCompleteAtHome := ⟨atomicOperators, atomicsComplete, atomicActsAtHome⟩

end Sys2Proof.Machine
end

section
/-! A statement that fails for a kernel whose entry is no multiple of 4. Whatever loads the PC from a record ignores the two low
bits (R19), and placement starts a wave so; the statement takes the entry itself. R131 lets no descriptor with such an entry
through, so no record that the device expands holds such a kernel, but the statement speaks of every state. -/

namespace Sys2Proof.Machine

/-- A kernel of one wave whose entry is 2. -/
def oddEntry : Kernel := { (default : Kernel) with regs := 8, waves := 1, entry := 2 }

/-- A record that expands a grid of one cord of that kernel. -/
def oddRec : Rec := { (default : Rec) with stage := .expanding 0, kernel := some oddEntry, grid := 1 }

/-- The slot onto which its queue is mapped. -/
def oddSlot : Slot := ⟨0, 0, 0, 0, 0, 0, 0, 0⟩

/-- A device in which context 0 runs, with no wave and nothing to place but that record's cord. -/
def oddPlacement : State :=
  { State.reset with ctxs := [{ Ctx.empty 0 with st := .running }], slots := [oddSlot], recs := [oddRec] }

/-- Where the waves of a next state stand. -/
def Out.pcs (o : Out) : List Word64 := match o with | .next t => t.waves.map Wave.pc | _ => []

theorem Out.ends_next {o : Out} {p : State → Prop} (h : o.ends p) : ∃ t, o = .next t ∧ p t := by
  cases o with
  | next t => exact ⟨t, rfl, h⟩
  | _ => exact absurd h id

/-- Refutes O51: a kernel with entry 2 is placed, and its wave starts at 0. -/
theorem not_placementAndRetirement : ¬ Obligations.PlacementAndRetirement := by
  intro h
  have hoffer : oddPlacement.offer oddSlot = some (oddRec, oddEntry, 0) := by decide +kernel
  have hfits : oddPlacement.findCore oddEntry oddEntry.wants = some (0, [(0, ⟨⟨0, 0, 0⟩, 0, 1⟩)], 0) := by decide +kernel
  have hplace : oddPlacement.placeable oddSlot = some (oddRec, oddEntry, 0, 0, [(0, ⟨⟨0, 0, 0⟩, 0, 1⟩)], 0) := by
    rw [State.placeable, hoffer]; exact congrArg (Option.map fun y => (oddRec, oddEntry, 0, y)) hfits
  have hends := ((h oddPlacement 0).1 oddSlot _ _ _ _ _ _ (by decide +kernel) (by decide +kernel) hplace).2
  have hpcs : Out.pcs (exec (.cordPlace 0) oddPlacement) = [0] := by decide +kernel
  obtain ⟨t, ht, -, c, -, -, -, -, -, -, -, -, ws, hws, -, hwaves⟩ := Out.ends_next hends
  rw [ht, Out.pcs, hws] at hpcs
  obtain ⟨w, hw, hpc⟩ := List.mem_map.1 (hpcs ▸ List.mem_singleton.2 rfl : (0 : Word64) ∈ ws.map Wave.pc)
  obtain ⟨-, hentry, -⟩ := hwaves w hw
  exact absurd (hpc.symm.trans hentry) (by decide)

end Sys2Proof.Machine
end

section
/-! Placement keeps the berths of a core apart (R134), and the limits that an accepted kernel meets (R131, R217). -/

namespace Sys2Proof.Machine

/-- Two berths share no granule and no slot: they lie on different partitions, or their spans and their slots differ (R134). -/
def Berth.Apart (a b : Berth) : Prop :=
  a.id.part = b.id.part → (a.first + a.n ≤ b.first ∨ b.first + b.n ≤ a.first) ∧ a.id.slot ≠ b.id.slot

theorem Berth.Apart.symm {a b : Berth} (h : a.Apart b) : b.Apart a := fun hpart =>
  have ⟨hspan, hslot⟩ := h hpart.symm
  ⟨hspan.symm, hslot.symm⟩

theorem granulesFree_iff {l : List Berth} {part g n : Nat} :
    granulesFree l part g n = true ↔
      g + n ≤ Config.granules ∧ ∀ b ∈ l, b.id.part = part → g + n ≤ b.first ∨ b.first + b.n ≤ g := by
  simp only [granulesFree, Bool.and_eq_true, List.all_eq_true, Bool.or_eq_true, bne_iff_ne, decide_eq_true_eq, ne_eq,
    or_assoc, imp_iff_not_or]

/-- The berth that a partition gives lies within it, and apart from every berth in use. -/
theorem berthFor_spec {l : List Berth} {core part n : Nat} {b : Berth} (h : berthFor l core part n = some b) :
    b.id.core = core ∧ b.id.part = part ∧ b.id.slot < Config.slotsPerPartition ∧ b.first + b.n ≤ Config.granules ∧
      ∀ u ∈ l, b.Apart u := by
  unfold berthFor at h
  split at h
  next i g hslot hspan =>
    obtain rfl : (⟨⟨core, part, i⟩, g, n⟩ : Berth) = b := Option.some.inj h
    have hfree := List.find?_some hslot
    obtain ⟨hfits, hclear⟩ := granulesFree_iff.1 (List.find?_some (p := fun g => granulesFree l part g n) hspan)
    refine ⟨rfl, rfl, List.mem_range.1 (List.mem_of_find?_eq_some hslot), hfits, fun u hu hpart => ⟨hclear u hu hpart.symm, ?_⟩⟩
    rintro (rfl : i = u.id.slot)
    exact absurd hfree (by simpa using ⟨u, hu, hpart.symm, rfl⟩)
  next => cases h

/-- What a placement of several waves is: a berth for the first, and the others placed beside it. -/
theorem placeWaves_cons {core w n : Nat} {rest : List (Nat × Nat)} {used : List Berth} {l : List (Nat × Berth)}
    (h : placeWaves core ((w, n) :: rest) used = some l) :
    ∃ b t, berthFor used core (w % 8) n = some b ∧ placeWaves core rest (used ++ [b]) = some t ∧ l = (w, b) :: t := by
  rw [placeWaves] at h
  split at h
  next => cases h
  next b hb =>
    obtain ⟨t, ht, rfl⟩ := Option.map_eq_some_iff.1 h
    exact ⟨b, t, hb, ht, rfl⟩

theorem placeWaves_indices {core : Nat} {want : List (Nat × Nat)} {used : List Berth} {l : List (Nat × Berth)}
    (h : placeWaves core want used = some l) : l.map Prod.fst = want.map Prod.fst := by
  induction want generalizing used l with
  | nil => cases h; rfl
  | cons x rest ih =>
    obtain ⟨b, t, -, ht, rfl⟩ := placeWaves_cons h
    simp [ih ht]

/-- Each berth that placement finds lies in its wave's partition, and apart from every berth in use before. -/
theorem placeWaves_free {core : Nat} {want : List (Nat × Nat)} {used : List Berth} {l : List (Nat × Berth)}
    (h : placeWaves core want used = some l) :
    ∀ x ∈ l, x.2.id.core = core ∧ x.2.id.part = x.1 % 8 ∧ x.2.id.slot < Config.slotsPerPartition ∧
      x.2.first + x.2.n ≤ Config.granules ∧ ∀ u ∈ used, x.2.Apart u := by
  induction want generalizing used l with
  | nil => cases h; simp
  | cons x rest ih =>
    obtain ⟨b, t, hb, ht, rfl⟩ := placeWaves_cons h
    intro y hy
    obtain rfl | hy := List.mem_cons.1 hy
    · exact berthFor_spec hb
    · obtain ⟨hcore, hpart, hslot, hfits, hapart⟩ := ih ht y hy
      exact ⟨hcore, hpart, hslot, hfits, fun u hu => hapart u (List.mem_append_left _ hu)⟩

/-- A wave is placed with the berths of the waves before it in use, so their berths differ. -/
theorem placeWaves_pairwise {core : Nat} {want : List (Nat × Nat)} {used : List Berth} {l : List (Nat × Berth)}
    (h : placeWaves core want used = some l) : l.Pairwise fun x y => x.2.Apart y.2 := by
  induction want generalizing used l with
  | nil => cases h; exact .nil
  | cons x rest ih =>
    obtain ⟨b, t, -, ht, rfl⟩ := placeWaves_cons h
    refine .cons (fun y hy => ?_) (ih ht)
    obtain ⟨-, -, -, -, hapart⟩ := placeWaves_free ht y hy
    exact (hapart b (List.mem_append_right _ (List.mem_singleton.2 rfl))).symm

theorem berthsDoNotOverlap : Claim.BerthsDoNotOverlap := by
  intro core want used l h
  refine ⟨placeWaves_indices h, fun x hx => ?_, placeWaves_pairwise h⟩
  obtain ⟨hcore, hpart, hslot, hfits, hapart⟩ := placeWaves_free h x hx
  refine ⟨hcore, hpart, hslot, hfits, fun b hb hsame => ?_⟩
  obtain ⟨hspan, hslots⟩ := hapart b hb hsame.symm
  exact ⟨hspan, hslots.symm⟩

/-- What the checks of R131 on a descriptor say of the counts that it states. -/
theorem kernelOk_limits {qcount : Nat} {d : List Byte} {k : Kernel} (h : kernelOk qcount d k = true) :
    1 ≤ k.regs ∧ k.regs ≤ 256 ∧ 16 ≤ k.sregs ∧ k.sregs ≤ 128 ∧ 1 ≤ k.waves ∧ k.waves ≤ 64 ∧ k.scratch ≤ Config.scratchBytes := by
  simp only [kernelOk, Bool.and_eq_true, decide_eq_true_eq] at h
  tauto

theorem ite_some_eq_none_iff {p : Prop} [Decidable p] {a : Nat} {o : Option Nat} :
    (if p then some a else o) = none ↔ ¬p ∧ o = none := by
  split <;> simp [*]

/-- A kernel is accepted when none of the five checks gives its reason. -/
theorem kernelReason_eq_none_iff {qcount : Nat} {d : List Byte} {k : Kernel} :
    kernelReason qcount d k = none ↔
      kernelOk qcount d k = true ∧ (∀ g < k.groups.length, groupOk k g = true) ∧
      (∀ w < k.waves, ((List.range k.groups.length).filter fun g => (k.groups.getD g 0).getLsbD w).length ≤ 4) ∧
      (∀ g < k.groups.length, quartetOk (k.groups.getD g 0) = true) ∧
      k.barriers.length ≤ 64 ∧ ∀ p < 8, k.partRegs p ≤ 384 := by
  simp [kernelReason, ite_some_eq_none_iff]

theorem acceptedKernelsAreWithinLimits : Claim.AcceptedKernelsAreWithinLimits := by
  intro qcount d k h
  obtain ⟨hok, -, hmember, -, hbarriers, hregs⟩ := kernelReason_eq_none_iff.1 h
  obtain ⟨hregs1, hregs2, hsregs1, hsregs2, hwaves1, hwaves2, hscratch⟩ := kernelOk_limits hok
  exact ⟨hregs1, hregs2, hsregs1, hsregs2, hwaves1, hwaves2, hscratch, hbarriers, hregs, hmember⟩

/-- Settles O50: the checks that an accepted kernel passes, and the induction over the waves that placement takes in order. -/
theorem kernelsAndBerthsAreWithinLimits : Obligations.KernelsAndBerthsAreWithinLimits :=
  ⟨acceptedKernelsAreWithinLimits, berthsDoNotOverlap⟩

end Sys2Proof.Machine
end

section
/-! Mask instructions and the live mask (R147, R162, R163). -/

namespace Sys2Proof.Machine

section
variable {s : State} {w : Wave} {f : Fields}

theorem exec_kPopc (h : s.runs w (.kPopc f) f .dest false = true) : exec (.kPopc f) s =
    .next (s.setMe ((w.putS f.d (BitVec.ofNat 64 (lanesOf (w.readK f.a)).length)).after f)) :=
  (State.front_runs _ h).trans (s.finish_eq w f _ (State.runs_me h))

theorem exec_kFirst (h : s.runs w (.kFirst f) f .dest false = true) : exec (.kFirst f) s =
    .next (s.setMe ((w.putS f.d (BitVec.ofNat 64 (lowLane (w.readK f.a)))).after f)) :=
  (State.front_runs _ h).trans (s.finish_eq w f _ (State.runs_me h))

theorem exec_kTestAny (h : s.runs w (.kTestAny f) f .dest false = true) : exec (.kTestAny f) s =
    .next (s.setMe ((w.putC f.d (w.readK f.a &&& w.readK f.b != 0)).after f)) :=
  (State.front_runs _ h).trans (s.finish_eq w f _ (State.runs_me h))

theorem exec_kTestAll (h : s.runs w (.kTestAll f) f .dest false = true) : exec (.kTestAll f) s =
    .next (s.setMe ((w.putC f.d (w.readK f.a &&& w.readK f.b == w.readK f.b)).after f)) :=
  (State.front_runs _ h).trans (s.finish_eq w f _ (State.runs_me h))

end

/-- The lowest lane of a mask is the first of the 96 whose bit is set. -/
theorem lowLane_eq_find (m : Mask) : lowLane m = ((List.range 96).find? fun l => m.getLsbD l).getD 96 := by
  rw [lowLane, lanesOf, List.head?_filter]

theorem maskInstructionsComplete : Claim.MaskInstructionsComplete := by
  intro s w f
  refine ⟨exec_maskArith, exec_kPopc, fun h => ?_, fun h => ?_, fun h => ?_⟩
  · rw [exec_kFirst h, lowLane_eq_find]
  · rw [exec_kTestAny h, bne, beq_eq_decide, ← decide_not]
  · rw [exec_kTestAll h, beq_eq_decide]

theorem Wave.setK_kAt_same {w : Wave} {n : Nat} {m : Mask} (h : n < w.k.length) :
    (w.setK n m).kAt n = if n = 0 then m &&& w.live else m := by
  simp [Wave.setK, Wave.kAt, h]

theorem execStaysWithinLive : Claim.ExecStaysWithinLive := fun w n m hk hn =>
  ⟨Wave.setK_kAt_same (hk ▸ hn), fun j hj => w.setK_kAt n m j hj⟩

/-- Settles O20: each mask instruction replaces its wave by one with a single result, and a write of a mask register
changes that register alone. -/
theorem maskInstructionsActOnAllLanes : Obligations.MaskInstructionsActOnAllLanes :=
  ⟨maskInstructionsComplete, execStaysWithinLive⟩

end Sys2Proof.Machine
end

section
/-! Barriers, the completion of a phase, and the end of a wave (R160, R221 to R227). -/

namespace Sys2Proof.Machine

/-! ### Barrier instructions -/

section
variable {s : State} {w : Wave} {f : Fields} {g : Nat} {waits dev : Bool}

/-- BAR and its forms with a legal group arrive (R226). -/
theorem State.barrier_legal {i : Instr} (h : s.runs w i f .dest false = true) (hg : s.barTrap w (s.barGroup w f) false = none) :
    s.barrier i f waits dev = s.arrive w f (s.barGroup w f) waits dev := by
  simp only [State.barrier, State.front_runs _ h, hg]

/-- With one that is not legal they trap (R226). -/
theorem State.barrier_illegal {i : Instr} {c : Nat} {info : Word64} (h : s.runs w i f .dest false = true)
    (hg : s.barTrap w (s.barGroup w f) false = some (c, info)) : s.barrier i f waits dev = s.trap c w.exec info := by
  simp only [State.barrier, State.front_runs _ h, hg]

/-- An arrival may be made: none stands, and the wave's release at core scope holds (R224, R227). -/
def State.mayArrive (s : State) (w : Wave) (g : Nat) : Prop := (w.arrival g).done = false ∧ s.releasedAt w 0 = true

theorem State.arrive_held (h : ¬ s.mayArrive w g) : s.arrive w f g waits dev = s.stall := by
  refine if_pos ?_
  rw [State.mayArrive] at h
  cases hd : (w.arrival g).done <;> cases hr : s.releasedAt w 0 <;> simp_all

theorem State.mayArrive.eq (h : s.mayArrive w g) : ((w.arrival g).done || !s.releasedAt w 0) = false := by
  rw [h.1, h.2]; rfl

theorem State.arrive_partial (hm : s.me = some w) (h : s.mayArrive w g) (hl : (w.arrival g).arr ||| w.exec ≠ w.live) :
    s.arrive w f g waits dev =
      .next (s.setMe ((w.setArrival { w.arrival g with arr := (w.arrival g).arr ||| w.exec }).after f)) := by
  simp only [State.arrive, h.eq, Bool.false_eq_true, if_false, if_pos hl]
  exact s.finish_eq w f _ hm

/-- The wave once every live lane has arrived (R221, R224). -/
def Wave.arrived (w : Wave) (g : Nat) : Wave :=
  w.setArrival { group := g, arr := 0, done := true, h := w.horizon, hset := w.watch }

/-- DEV is set in the slot of a group (R224). -/
def State.markDev (s : State) (w : Wave) (g : Nat) : State :=
  s.modCord w.cord fun c => { c with bars := modWhere c.bars (fun b => b.group == g) fun b => { b with dev := true } }

/-- The wave goes on, or waits at the barrier (R224). -/
def Wave.pastArrival (w : Wave) (f : Fields) (g : Nat) (waits : Bool) : Wave :=
  if waits then { w with wait := .barrier g (fieldsBytes f) } else w.after f

theorem State.modMe_pastArrival (s : State) : (if waits then s.modMe fun w => { w with wait := .barrier g (fieldsBytes f) }
    else s.modMe fun w => w.commit f) = s.modMe fun w => w.pastArrival f g waits := by
  cases waits <;> rfl

theorem State.setMe_modMe (hm : s.me = some w) (x : Wave) (k : Wave → Wave) : (s.setMe x).modMe k = s.setMe (k x) := by
  rw [State.modMe_eq _ x k (s.setMe_me w x hm), State.setMe_setMe]

theorem State.arrive_all (hm : s.me = some w) (h : s.mayArrive w g) (hl : (w.arrival g).arr ||| w.exec = w.live) :
    s.arrive w f g waits dev =
      .next (((if dev then s.markDev w g else s).setMe ((w.arrived g).pastArrival f g waits)).barCheck w.cord g) := by
  have hend : (if dev then (s.setMe (w.arrived g)).markDev w g else s.setMe (w.arrived g)).modMe (fun w => w.pastArrival f g waits) =
      (if dev then s.markDev w g else s).setMe ((w.arrived g).pastArrival f g waits) := by
    cases dev
    · exact State.setMe_modMe hm _ _
    · exact State.setMe_modMe (s := s.markDev w g) hm _ _
  rw [← hend, ← State.modMe_pastArrival, ← s.modMe_eq w (fun x => x.arrived g) hm]
  simp only [State.arrive, h.eq, Bool.false_eq_true, if_false, hl, ne_eq, not_true_eq_false]
  rfl

/-! BAR, BAR.ARV and BAR.DEV with a legal group, by what their arrival meets. -/

section
variable {i : Instr} (hg : s.barTrap w (s.barGroup w f) false = none)
include hg

theorem State.barrier_held (h : ¬ s.mayArrive w (s.barGroup w f)) (hi : s.runs w i f .dest false = true) :
    s.barrier i f waits dev = s.stall :=
  (State.barrier_legal hi hg).trans (State.arrive_held h)

theorem State.barrier_partial (h : s.mayArrive w (s.barGroup w f)) (hl : (w.arrival (s.barGroup w f)).arr ||| w.exec ≠ w.live)
    (hi : s.runs w i f .dest false = true) : s.barrier i f waits dev = .next (s.setMe ((w.setArrival
      { w.arrival (s.barGroup w f) with arr := (w.arrival (s.barGroup w f)).arr ||| w.exec }).after f)) :=
  (State.barrier_legal hi hg).trans (State.arrive_partial (State.runs_me hi) h hl)

theorem State.barrier_all (h : s.mayArrive w (s.barGroup w f)) (hl : (w.arrival (s.barGroup w f)).arr ||| w.exec = w.live)
    (hi : s.runs w i f .dest false = true) : s.barrier i f waits dev =
      .next (((if dev then s.markDev w (s.barGroup w f) else s).setMe
        ((w.arrived (s.barGroup w f)).pastArrival f (s.barGroup w f) waits)).barCheck w.cord (s.barGroup w f)) :=
  (State.barrier_legal hi hg).trans (State.arrive_all (State.runs_me hi) h hl)

end

/-- BAR.WAIT with a legal group waits while the wave's arrival stands (R226). -/
theorem exec_barWait (h : s.runs w (.barWait f) f .dest false = true) (hg : s.barTrap w (s.barGroup w f) true = none) :
    exec (.barWait f) s = .next (s.setMe (if (w.arrival (s.barGroup w f)).done
      then { w with wait := .barrier (s.barGroup w f) (fieldsBytes f) } else w.after f)) := by
  have hm := State.runs_me h
  refine (State.front_runs _ h).trans ?_
  simp only [hg]
  split
  · rw [s.modMe_eq w _ hm]
  · exact s.finish_eq w f id hm

theorem State.barTrap_noGroup (wt : Bool) (h : (s.cordOf w).kernel.groups.length ≤ g) :
    s.barTrap w g wt = some (0x39, BitVec.ofNat 64 (g % 256)) := if_pos (.inl h)

/-- A phase under DEV whose horizons have passed completes (R223). -/
theorem exec_barDrainComplete {cord t : Nat} {b : BarSlot} (hb : s.barSlot cord g = some b) (hd : b.dev = true)
    (hf : s.phaseFull cord g = true) (hh : s.devHorizon cord g = some t) (ht : t ≤ s.time) :
    exec (.barDrainComplete cord g) s = .next (s.completePhase cord g) := by
  refine (show exec (.barDrainComplete cord g) s = execBarDrainComplete cord g s from rfl).trans ?_
  simp [execBarDrainComplete, hb, hh, hd, hf, ht]

end

theorem barrierInstructionsComplete : Claim.BarrierInstructionsComplete := fun _ _ _ =>
  ⟨fun hg hf hl => ⟨State.barrier_partial hg hf hl, State.barrier_partial hg hf hl, State.barrier_partial hg hf hl⟩,
    fun hg hf hl => ⟨State.barrier_all hg hf hl, State.barrier_all hg hf hl, State.barrier_all hg hf hl⟩,
    fun hg hf => ⟨State.barrier_held hg hf, State.barrier_held hg hf, State.barrier_held hg hf⟩,
    exec_barWait, fun _ _ h hg => State.barrier_illegal h hg, State.barTrap_noGroup false,
    fun _ _ _ _ hb hd hf hh ht => exec_barDrainComplete hb hd hf hh ht⟩

/-! ### The completion of a phase -/

/-- A wave forgets its arrival on a group (R223 step 2). -/
def Wave.forget (w : Wave) (g : Nat) : Wave :=
  if w.arrivals.any fun a => a.group == g then w.setArrival { w.arrival g with done := false, h := 0, hset := [] } else w

/-- A wave that waits at a group's barrier goes on (R223 step 3). -/
def Wave.passBarrier (w : Wave) (g : Nat) : Wave :=
  match w.wait with
  | .barrier x len => if x = g then w.next len else w
  | _ => w

/-- What the completion of a phase does to each wave. -/
theorem State.completePhase_waves (s : State) (cord g i : Nat) : (s.completePhase cord g).waves[i]? =
    (s.waves[i]?).map fun w => if w.cord = cord then (w.forget g).passBarrier g else w :=
  List.getElem?_map

theorem Wave.forget_eq (w : Wave) (g : Nat) : ∃ l, w.forget g = { w with arrivals := l } := by
  unfold Wave.forget
  split
  · exact ⟨_, rfl⟩
  · exact ⟨_, rfl⟩

theorem Wave.arrival_group (w : Wave) (g : Nat) : (w.arrival g).group = g := by
  unfold Wave.arrival
  cases hf : w.arrivals.find? fun a => a.group == g with
  | none => rfl
  | some a => simpa using List.find?_some hf

theorem Wave.setArrival_arrival (w : Wave) {a : Arrival} {g : Nat} (h : a.group = g) : (w.setArrival a).arrival g = a := by
  subst h
  have hnone : (w.arrivals.filter fun x => x.group != a.group).find? (fun x => x.group == a.group) = none := by
    simp
  simp [Wave.setArrival, Wave.arrival, List.find?_append, hnone]

theorem Wave.forget_done (w : Wave) (g : Nat) : ((w.forget g).arrival g).done = false := by
  unfold Wave.forget
  split
  case isTrue =>
    exact congrArg Arrival.done (w.setArrival_arrival (by exact w.arrival_group g))
  case isFalse h =>
    have hnone : w.arrivals.find? (fun a => a.group == g) = none := by simpa using h
    rw [Wave.arrival, hnone]; rfl

theorem Wave.passBarrier_released {w : Wave} {g len : Nat} (h : w.wait = .barrier g len) : w.passBarrier g = w.next len := by
  simp [Wave.passBarrier, h]

theorem Wave.passBarrier_other {w : Wave} {g : Nat} (h : ∀ x len, w.wait = .barrier x len → x ≠ g) : w.passBarrier g = w := by
  unfold Wave.passBarrier
  split
  case h_1 x len hw => exact if_neg (h x len hw)
  case h_2 => rfl

/-- The advance of the PC reads and writes the PC, the repeat and the loops alone, and ends a wait. -/
theorem Wave.next_arrivals (w : Wave) (l : List Arrival) (n : Nat) :
    ({ w with arrivals := l } : Wave).next n = { w.next n with arrivals := l } := by
  by_cases hr : w.rep.toNat ≤ 1
  · simp only [Wave.next, hr, if_true, Wave.goto]
    cases w.sup <;> rfl
  · simp only [Wave.next, hr, if_false]

theorem Wave.next_eq (w : Wave) (n : Nat) : ∃ rep pc jumped loop loopSup, w.next n =
    { w with wait := Wait.none, rep := rep, pc := pc, jumped := jumped, loop := loop, loopSup := loopSup } := by
  unfold Wave.next
  dsimp only
  split
  · obtain ⟨loop, loopSup, h⟩ := Wave.goto_eq { w with wait := Wait.none, rep := 0 } (seqNext w.pc n) false
    exact ⟨_, _, _, _, _, h⟩
  · exact ⟨_, _, _, _, _, rfl⟩

theorem phaseCompletionReleases : Claim.PhaseCompletionReleases := by
  intro s cord g i w hw
  obtain ⟨l, hl⟩ := w.forget_eq g
  have hwaves := s.completePhase_waves cord g i
  rw [hw, Option.map_some] at hwaves
  refine ⟨fun hc => ?_, fun len hc hwait => ?_, fun hc hwait => ?_, rfl⟩
  · rw [hwaves, if_neg hc]
  · rw [hwaves, if_pos hc]
    obtain ⟨rep, pc, jumped, loop, loopSup, hn⟩ := w.next_eq len
    have hgo : (w.forget g).passBarrier g = { w.next len with arrivals := l } := by
      rw [Wave.passBarrier_released (by rw [hl]; exact hwait), hl, w.next_arrivals]
    have hdone : (((w.forget g).passBarrier g).arrival g).done = false := by
      rw [← w.forget_done g, hgo, hl]; rfl
    refine ⟨_, rfl, ?_, ?_, hdone, ?_⟩ <;> rw [hgo, hn]
    exact ⟨rfl, rfl, rfl⟩
  · rw [hwaves, if_pos hc, Wave.passBarrier_other (by rw [hl]; exact hwait)]
    exact ⟨_, rfl, by rw [hl], by rw [hl], by rw [hl], by rw [hl]⟩

/-! ### The end of a wave -/

section
variable {s : State} {w : Wave} {f : Fields}

/-- The lanes that stay live past an EXIT (R160). -/
def Wave.staying (w : Wave) : Mask := w.live &&& ~~~w.exec

/-- The wave when the lanes of a mask stay live and the others end (R160, R225). -/
def Wave.shrinkTo (w : Wave) (left : Mask) : Wave :=
  { { w with live := left }.setK 0 (w.exec &&& left) with arrivals := w.arrivals.map fun a => { a with arr := a.arr &&& left } }

theorem exec_exit_idle (h : s.runs w (.exit f) f .dest false = true) (he : w.exec = 0) :
    exec (.exit f) s = .next (s.setMe (w.after f)) := by
  refine (State.front_runs _ h).trans ?_
  simp only [he, if_true]
  exact s.finish_eq w f id (State.runs_me h)

/-- Lanes of a partial arrival that would be left alone trap (R225). -/
theorem exec_exit_split {g : Nat} (h : s.runs w (.exit f) f .dest false = true) (he : w.exec ≠ 0) (hp : w.partialOn = some g)
    (hl : w.staying &&& ~~~(w.arrival g).arr = 0) : exec (.exit f) s = s.trap 0x38 w.exec (BitVec.ofNat 64 (g + 65536)) := by
  rw [Wave.staying] at hl
  refine (State.front_runs _ h).trans ?_
  simp only [he, if_false, hp, hl, if_true]

/-- Active lanes end while others stay (R160). -/
theorem exec_exit_some (h : s.runs w (.exit f) f .dest false = true) (he : w.exec ≠ 0) (hp : w.partialOn = none)
    (hl : w.staying ≠ 0) : exec (.exit f) s = .next (s.setMe ((w.shrinkTo w.staying).after f)) := by
  rw [Wave.staying] at hl
  refine (State.front_runs _ h).trans ?_
  simp only [he, if_false, hp, hl]
  exact s.finish_eq w f _ (State.runs_me h)

/-- A wave without fills of its own waits for none (R355). -/
theorem State.fillWait_nothing (h : ∀ x ∈ s.mosFills, x.wave ≠ w.id) (k : State → Out) : s.fillWait w k = k s := by
  have hmine : ∀ q : MosFill → Bool, (s.mosFills.any fun x => x.wave == w.id && q x) = false := by simp +contextual [h]
  have hheld : ∀ q : MosFill → Bool, (s.mosFills.filter fun x => x.wave == w.id && q x) = [] := by simp +contextual [h]
  have hown : (s.mosFills.any fun x => x.wave == w.id) = false := by simpa using h
  simp only [State.fillWait, State.heldFault, Bool.and_assoc, hmine, hheld, hown, Bool.false_eq_true, if_false]
  rfl

/-- The last lanes end, and the wave with them (R137, R160). -/
theorem exec_exit_last (h : s.runs w (.exit f) f .dest false = true) (he : w.exec ≠ 0) (hp : w.partialOn = none)
    (hl : w.staying = 0) (hb : w.batches = []) (hm : ∀ x ∈ s.mosFills, x.wave ≠ w.id) :
    exec (.exit f) s = .next ((s.setMe (w.shrinkTo w.staying)).endWave w.id) := by
  have hbatches : w.batches.filter (fun _ => true) = [] := by rw [hb]; rfl
  rw [← s.modMe_eq w (fun x => x.shrinkTo w.staying) (State.runs_me h)]
  refine (State.front_runs _ h).trans ?_
  rw [Wave.staying] at hl ⊢
  simp only [if_neg he, hp, if_pos hl, State.copyWait_nothing hbatches, State.fillWait_nothing hm]
  rfl

end

theorem exitCompletes : Claim.ExitCompletes := fun _ _ _ h =>
  ⟨exec_exit_idle h, fun he hl hp => exec_exit_some h he hp hl, fun he hl hp hb hm => exec_exit_last h he hp hl hb hm,
    fun _ he hp hl => exec_exit_split h he hp hl⟩

/-- Settles O43: one lemma for each outcome of an arrival, what a completed phase does to each wave, and the outcomes of
EXIT. -/
theorem barriersAndExitComplete : Obligations.BarriersAndExitComplete :=
  ⟨barrierInstructionsComplete, phaseCompletionReleases, exitCompletes⟩

end Sys2Proof.Machine
end

section
/-! Two statements that fail where the names of writes are not fresh. The model tells writes apart by names (log 1): a wave
watches the writes that it waits for by name (R237), and a store that has just entered the list takes its release by name
(R241). The model draws fresh names from a counter, but the statements speak of every state, and neither asks for fresh names. -/

namespace Sys2Proof.Machine

/-! ### A core with one wave -/

/-- A cord whose kernel has 8 v and 16 s registers. -/
def twoLaneCord : Cord := { (default : Cord) with kernel := { (default : Kernel) with regs := 8, sregs := 16 } }

/-- Its wave, in supervisor state, with lanes 0 and 4 active and every register zero. -/
def twoLaneWave : Wave := { (default : Wave) with sup := true, live := 0x11, k := [0x11] }

/-- A write of one byte, without a completion time, that a wave of core 0 has made. -/
def openStore (id : Nat) (slot : Nat) (cell : Host.Cell) (rel : Option Release) : Write :=
  ⟨id, .wave ⟨0, 0, slot⟩, some 0, some 0, [cell], 32, .normal, false, true, [], [], rel, true, [], none⟩

/-- The device with that wave, some writes, and a translation that maps the first GiB to itself for loads and stores. -/
def twoLaneDevice (uid : Nat) (writes : List Write) : State :=
  { State.reset with
    uid := uid, waves := [twoLaneWave], cords := [twoLaneCord], writes := writes, tlb := [⟨0, 0, 0, 3, 0, 0x900000000000061B⟩] }

/-! ### A load -/

/-- Two writes of one name: a store of byte 0 by another wave of the core, and one of byte 32 by the wave itself, which waits
for a release and which the wave does not watch. -/
def sharedName : State := twoLaneDevice 1 [openStore 0 1 (0, 1) none, openStore 0 0 (32, 7) (some ⟨1, [], []⟩)]

/-- LD of 4 bytes at 8 times the lane's number: lane 0 reads bytes 0 to 3, and lane 4 bytes 32 to 35. -/
def loadByLane : Fields := { fmt := .w96 0, g := 0, d := .v 0, a := .int 0, b := .spec .laneid, c := .v 0, pol := 0, m := 0x1900 }

/-- The data of the latest result on its way in a next state. -/
def Out.lastFill (o : Out) : Option (List Lanes) := match o with | .next t => t.fills.getLast?.map Fill.data | _ => none

theorem Out.lastFill_sent (s : State) {f : Fields} {n : BitVec 8} {mask : Mask} (data : List Lanes) (hd : f.d = .v n) (hm : mask ≠ 0) :
    Out.lastFill (.next (s.sent f mask data)) = some data := by
  simp only [Out.lastFill, State.sent, hd, if_neg hm, State.modMe_fills, List.getLast?_concat, Option.map_some]

/-- Refutes O30: lane 0 reads the other wave's store, whose name the wave then watches; so lane 4 reads the wave's own store of
byte 32, which the wave did not see when the addresses were translated. -/
theorem not_loadsComplete : ¬ Obligations.LoadsComplete := by
  intro h
  let r := State.checkGroups twoLaneWave true 0 4
    (passGroups true 0 (twoLaneWave.laneVas (sharedName.indexedAddrs twoLaneWave loadByLane))) sharedName
  have hruns : sharedName.runs twoLaneWave (.ld loadByLane) loadByLane .dest false = true := by decide +kernel
  have hpass : r = (r.1, r.2.1, .all) := Prod.ext rfl (Prod.ext rfl (by decide +kernel))
  obtain ⟨u, hu, v, hv, -, -⟩ := Out.ends_next ((h.1 sharedName r.1 twoLaneWave loadByLane r.2.1).1 hruns hpass)
  have hdata := (congrArg Out.lastFill (hu.trans (congrArg _ hv))).trans (Out.lastFill_sent v _ rfl (by decide +kernel))
  exact absurd hdata (by decide +kernel)

/-! ### A store -/

/-- A write that has the name that the next write will take: a store of byte 64 by another wave of the core, which waits for a
release. -/
def takenName : State := twoLaneDevice 0 [openStore 0 1 (64, 7) (some ⟨1, [], []⟩)]

/-- S.ST of the constant 1 to bytes 0 to 3. -/
def storeWord : Fields := { fmt := .w96 0, g := 0, d := .int 1, a := .sp 0, b := .none, c := .v 0, pol := 0, m := 0x100 }

/-- A byte of a next state as a wave's core reads it. -/
def Out.coreByte (o : Out) (id : WaveId) (pa : Nat) : Option Byte := match o with | .next t => some (t.coreByte id pa).1 | _ => none

/-- Refutes O31: the store, which waits for no release, ends the wait of the write that shares its name, so the core reads
byte 64 otherwise than before. -/
theorem not_storesComplete : ¬ Obligations.StoresComplete := by
  intro h
  let t := (takenName.locate 0 0 0 true 1 (some 0) (piecesOf 0 4)).1
  have hruns : takenName.runs twoLaneWave (.sSt storeWord) storeWord (.src false) false = true := by decide +kernel
  have hat : takenName.locate 0 0 0 true 1 (some 0) (piecesOf 0 4) = (t, .ok [(0, 4, 0x900000000000061B)]) :=
    Prod.ext rfl (by decide +kernel)
  obtain ⟨u, hu, v, hv, ⟨-, hothers, -⟩, -⟩ := Out.ends_next ((h.2 takenName t twoLaneWave storeWord _).1 hruns hat)
  have hbyte : Out.coreByte (exec (.sSt storeWord) takenName) ⟨0, 0, 0⟩ 64 = some (t.coreByte ⟨0, 0, 0⟩ 64).1 := by
    rw [hu, hv]
    exact congrArg some (hothers 64 ⟨0, 0, 0⟩ (.inr (by decide +kernel)))
  exact absurd hbyte (by decide +kernel)

end Sys2Proof.Machine
end

section
/-! Vector integer instructions and lane instructions (R168, R172 to R190). -/

namespace Sys2Proof.Machine

/-! ### The shared shapes -/

section
variable {s : State} {w : Wave} {i : Instr} {f : Fields}

/-- A vector-ALU result is written into the wave that has the turn. -/
theorem State.aluEnd_eq (hm : s.me = some w) (wide : Bool) (x : List Word64) :
    s.aluEnd f wide x = .next (s.setMe ((w.aluPut f wide x).after f)) :=
  s.finish_eq w f _ hm

variable (h : s.runs w i f .dest false = true)
include h

theorem State.vec1_runs (k : Feed) (wide : Bool) (op : Word64 → Word64) :
    s.vec1 i f k wide op = .next (s.setMe ((w.aluPut f wide ((s.srcA w k f).map op)).after f)) :=
  (State.front_runs _ h).trans (State.aluEnd_eq (State.runs_me h) _ _)

theorem State.vec2_runs (k : Feed) (op : Word64 → Word64 → Word64) : s.vec2 i f k op =
    .next (s.setMe ((w.aluPut f k.wide (List.zipWith op (s.srcA w k f) (s.srcB w k (immSigned f.ty) f))).after f)) :=
  (State.front_runs _ h).trans (State.aluEnd_eq (State.runs_me h) _ _)

theorem State.vec3_runs (k kc : Feed) (op : Word64 → Word64 → Word64 → Word64) : s.vec3 i f k kc op =
    .next (s.setMe ((w.aluPut f kc.wide (zip3 op (s.srcA w k f) (s.fieldB w k f) (s.srcC w kc f))).after f)) :=
  (State.front_runs _ h).trans (State.aluEnd_eq (State.runs_me h) _ _)

/-- SHFL in each of its modes: the lane that the mode picks, or the lane's own (R185). -/
theorem State.shfl_runs (pick : Nat → Nat → Int) : s.shfl i f pick =
    .next (s.setMe ((w.aluPut f (ty64 f.ty) (tabulate laneCount fun l =>
      shflLane (s.srcA w (.ofTy f.ty) f) l (pick l (laneOf (s.srcB w (.int 32) false f) l).toNat))).after f)) :=
  (State.front_runs _ h).trans (State.aluEnd_eq (State.runs_me h) _ _)

end

/-! ### The instructions -/

/-- Settles O12: each operation has one of three shapes; CMP, SEL and PRMT, which have none of them, end as their own results
say. -/
theorem vectorIntegerCompletes : Obligations.VectorIntegerCompletes := by
  refine ⟨fun x hx s w f => exec_vectorArith x hx, fun s w f => ?_⟩
  refine ⟨fun h => ?mad, fun h => ?madw, fun h => ?add64, fun h => ?abs, fun h => ?cmp, fun h => ?sel, fun h => ?bfe,
    fun h => ?bfi, fun h => ?popc, fun h => ?clz, fun h => ?brev, fun h => ?prmt, fun h => ?dot4⟩
  case mad => exact State.vec3_runs h _ _ _
  case madw => exact State.vec3_runs h _ _ _
  case add64 => exact State.vec2_runs h _ _
  case abs => exact State.vec1_runs h _ _ _
  case cmp => exact (State.front_runs _ h).trans (s.finish_eq w f _ (State.runs_me h))
  case sel => exact (State.front_runs _ h).trans (State.aluEnd_eq (State.runs_me h) _ _)
  case bfe => exact State.vec2_runs h _ _
  case bfi => exact State.vec3_runs h _ _ _
  case popc => exact State.vec1_runs h _ _ _
  case clz => exact State.vec1_runs h _ _ _
  case brev => exact State.vec1_runs h _ _ _
  case prmt => exact (State.front_runs _ h).trans (State.aluEnd_eq (State.runs_me h) _ _)
  case dot4 => exact State.vec3_runs h _ _ _

/-- Settles O13: the modes of SHFL have one shape, a vector-ALU result; RDLANE, WRLANE and REDUX end with results of their own. -/
theorem laneInstructionsComplete : Obligations.LaneInstructionsComplete := by
  intro s w f
  refine ⟨fun h => ?idx, fun h => ?xor, fun h => ?up, fun h => ?down, fun h => ?rdlane, fun h => ?wrlane, fun h => ?matchLanes,
    fun h => ?redux, fun h => ?scan⟩
  case idx => exact State.shfl_runs h fun _ b => b
  case xor => exact State.shfl_runs h fun l b => (l ^^^ b : Nat)
  case up => exact State.shfl_runs h fun l b => (l : Int) - b
  case down => exact State.shfl_runs h fun l b => (l : Int) + b
  case rdlane => exact (State.front_runs _ h).trans (s.finish_eq w f _ (State.runs_me h))
  case wrlane => exact (State.front_runs _ h).trans (s.finish_eq w f _ (State.runs_me h))
  case matchLanes => exact (State.front_runs _ h).trans (State.aluEnd_eq (State.runs_me h) _ _)
  case redux => exact (State.front_runs _ h).trans (s.finish_eq w f _ (State.runs_me h))
  case scan => exact (State.front_runs _ h).trans (State.aluEnd_eq (State.runs_me h) _ _)

end Sys2Proof.Machine
end

section
/-! Integer results as bit vectors: what an element reads as, what a result is written as, and the operations of R172 on
elements of each width (R169 to R172). -/

namespace Sys2Proof.Machine

/-! ### Elements read in their type (R169) -/

theorem readInt_signed {n : Nat} (w : Nat) (x : BitVec n) : readInt true w x.toNat = (x.setWidth w).toInt := by
  rw [BitVec.toInt_eq_toNat_cond, BitVec.toNat_setWidth, readInt]
  cases w with
  | zero => simp [Nat.mod_one]
  | succ w =>
    by_cases h : 2 ^ w ≤ x.toNat % 2 ^ (w + 1)
    · rw [if_pos (by simpa using h), if_neg (by omega)]; norm_cast
    · rw [if_neg (by simpa using h), if_pos (by omega)]

theorem readInt_natural {n : Nat} (w : Nat) (x : BitVec n) : readInt false w x.toNat = ((x.setWidth w).toNat : Int) := by
  rw [BitVec.toNat_setWidth]; rfl

theorem readInt_toInt {w : Nat} (x : BitVec w) : readInt true w x.toNat = x.toInt := by
  rw [readInt_signed, BitVec.setWidth_eq]

theorem readInt_toNat {w : Nat} (x : BitVec w) : readInt false w x.toNat = (x.toNat : Int) := by
  rw [readInt_natural, BitVec.setWidth_eq]

/-- Read in either type, an element is a residue of its bits. -/
theorem ofInt_readInt {n : Nat} (sg : Bool) (w : Nat) (x : BitVec n) : BitVec.ofInt w (readInt sg w x.toNat) = x.setWidth w := by
  cases sg with
  | false => rw [readInt_natural, BitVec.ofInt_natCast, BitVec.ofNat_toNat, BitVec.setWidth_eq]
  | true => rw [readInt_signed, BitVec.ofInt_toInt]

/-! ### Results written in their type (R171) -/

theorem writeInt_lt (sat sg : Bool) (w : Nat) (r : Int) : writeInt sat sg w r < 2 ^ w := by
  have hpos : (0 : Int) < (2 ^ w : Nat) := by positivity
  simp only [writeInt]
  have := Int.emod_lt_of_pos (if sat then (if sg then satI w r else satN w r) else r) hpos
  have := Int.emod_nonneg (if sat then (if sg then satI w r else satN w r) else r) hpos.ne'
  omega

theorem ofNat_writeInt (sat sg : Bool) (w : Nat) (r : Int) : BitVec.ofNat w (writeInt sat sg w r) =
    BitVec.ofInt w (if sat then (if sg then satI w r else satN w r) else r) := by
  refine BitVec.eq_of_toNat_eq ?_
  rw [BitVec.toNat_ofNat, Nat.mod_eq_of_lt (writeInt_lt ..), BitVec.toNat_ofInt, writeInt]

/-- Without SAT a result wraps. -/
theorem ofNat_writeInt_wrap (sg : Bool) (w : Nat) (r : Int) : BitVec.ofNat w (writeInt false sg w r) = BitVec.ofInt w r :=
  ofNat_writeInt false sg w r

theorem toInt_ofNat_writeInt_sat {w : Nat} (hw : 0 < w) (r : Int) :
    (BitVec.ofNat w (writeInt true true w r)).toInt = satI w r := by
  have hpos : (0 : Int) < 2 ^ (w - 1) := by positivity
  rw [ofNat_writeInt, if_pos rfl, if_pos rfl, BitVec.toInt_ofInt_eq_self hw] <;> unfold satI <;> omega

theorem toNat_ofNat_writeInt_sat (w : Nat) (r : Int) :
    ((BitVec.ofNat w (writeInt true false w r)).toNat : Int) = satN w r := by
  have hpos : (0 : Int) < 2 ^ w := by positivity
  have hr : 0 ≤ satN w r ∧ satN w r < 2 ^ w := by unfold satN; omega
  rw [ofNat_writeInt, if_pos rfl, if_neg Bool.false_ne_true, BitVec.toNat_ofInt]
  push_cast
  rw [Int.emod_eq_of_lt hr.1 hr.2, Int.toNat_of_nonneg hr.1]

/-! ### One element of 32 bits -/

section
variable {t : Nat} (o : IntOp) (sat : Bool) (a b : Word64)

/-- The high half of the carrier of a 32-bit result is zero. -/
theorem intAlu2_word (ht : tyWidth t = 32) : intAlu2 o t sat a b =
    BitVec.ofNat 64 (writeInt sat (tySigned t) 32 (o.exact (tySigned t) 32 (lo32 a).toNat (lo32 b).toNat)) := by
  simp only [intAlu2, tyElems, ht, mapElems2, Nat.mul_zero, Nat.add_zero]
  rfl

theorem lo32_intAlu2 (ht : tyWidth t = 32) : lo32 (intAlu2 o t sat a b) =
    BitVec.ofNat 32 (writeInt sat (tySigned t) 32 (o.exact (tySigned t) 32 (lo32 a).toNat (lo32 b).toNat)) := by
  rw [intAlu2_word o sat a b ht, lo32, BitVec.setWidth_ofNat_of_le (by omega)]

theorem lo32_intAlu2_wrap (ht : tyWidth t = 32) : lo32 (intAlu2 o t false a b) =
    BitVec.ofInt 32 (o.exact (tySigned t) 32 (lo32 a).toNat (lo32 b).toNat) := by
  rw [lo32_intAlu2 o false a b ht, ofNat_writeInt_wrap]

end

/-- The 32-bit types of R56. -/
theorem tyWidth_word {t : Nat} (ht : t ∈ [2, 6, 8]) : tyWidth t = 32 := by
  fin_cases ht <;> rfl

/-! ### Exact results and the operations of bit vectors (R172) -/

section
variable {w : Nat} (sg : Bool) (x y : BitVec w)

theorem ofInt_exact_add : BitVec.ofInt w (IntOp.add.exact sg w x.toNat y.toNat) = x + y := by
  rw [IntOp.exact, BitVec.ofInt_add, ofInt_readInt, ofInt_readInt, BitVec.setWidth_eq, BitVec.setWidth_eq]

theorem ofInt_exact_sub : BitVec.ofInt w (IntOp.sub.exact sg w x.toNat y.toNat) = x - y := by
  rw [IntOp.exact, Int.sub_eq_add_neg, BitVec.ofInt_add, BitVec.ofInt_neg, ofInt_readInt, ofInt_readInt, BitVec.setWidth_eq,
    BitVec.setWidth_eq, BitVec.sub_eq_add_neg]

theorem ofInt_exact_mul : BitVec.ofInt w (IntOp.mul.exact sg w x.toNat y.toNat) = x * y := by
  rw [IntOp.exact, BitVec.ofInt_mul, ofInt_readInt, ofInt_readInt, BitVec.setWidth_eq, BitVec.setWidth_eq]

theorem ofInt_exact_and : BitVec.ofInt w (IntOp.and.exact sg w x.toNat y.toNat) = x &&& y := by
  simp [IntOp.exact]

theorem ofInt_exact_or : BitVec.ofInt w (IntOp.or.exact sg w x.toNat y.toNat) = x ||| y := by
  simp [IntOp.exact]

theorem ofInt_exact_xor : BitVec.ofInt w (IntOp.xor.exact sg w x.toNat y.toNat) = x ^^^ y := by
  simp [IntOp.exact]

theorem ofInt_exact_andn : BitVec.ofInt w (IntOp.andn.exact sg w x.toNat y.toNat) = x &&& ~~~y := by
  have hones : BitVec.ofNat w (2 ^ w - 1) = BitVec.allOnes w := by
    refine BitVec.eq_of_toNat_eq ?_
    simp
  simp only [IntOp.exact, BitVec.ofInt_natCast, BitVec.ofNat_and, BitVec.ofNat_xor, BitVec.ofNat_toNat, BitVec.setWidth_eq, hones,
    BitVec.xor_allOnes]

/-- A count of 64 or more shifts as 64 does. -/
theorem ofInt_exact_shl (hw : w ≤ 64) : BitVec.ofInt w (IntOp.shl.exact sg w x.toNat y.toNat) = x <<< y.toNat := by
  have hpow : BitVec.ofNat w (2 ^ min y.toNat 64) = BitVec.twoPow w y.toNat := by
    refine BitVec.eq_of_toNat_eq ?_
    rw [BitVec.toNat_ofNat, BitVec.toNat_twoPow]
    rcases Nat.le_total y.toNat 64 with h | h
    · rw [Nat.min_eq_left h]
    · rw [Nat.min_eq_right h, Nat.mod_eq_zero_of_dvd (pow_dvd_pow 2 hw), Nat.mod_eq_zero_of_dvd (pow_dvd_pow 2 (hw.trans h))]
  change BitVec.ofInt w (readInt sg w x.toNat * (2 : Nat) ^ min y.toNat 64) = _
  rw [← Nat.cast_pow, BitVec.ofInt_mul, ofInt_readInt, BitVec.setWidth_eq, BitVec.ofInt_natCast, hpow,
    BitVec.shiftLeft_eq_mul_twoPow]

theorem ofInt_exact_shr (hw : w ≤ 64) : BitVec.ofInt w (IntOp.shr.exact sg w x.toNat y.toNat) = x >>> y.toNat := by
  refine BitVec.eq_of_toNat_eq ?_
  have hx : ∀ n, w ≤ n → x.toNat / 2 ^ n = 0 := fun n hn =>
    Nat.div_eq_of_lt (lt_of_lt_of_le x.isLt (Nat.pow_le_pow_right (by omega) hn))
  have hdiv : x.toNat / 2 ^ min y.toNat 64 = x.toNat / 2 ^ y.toNat := by
    rcases Nat.le_total y.toNat 64 with h | h
    · rw [Nat.min_eq_left h]
    · rw [Nat.min_eq_right h, hx 64 hw, hx _ (hw.trans h)]
  change (BitVec.ofNat w (x.toNat / 2 ^ min y.toNat 64)).toNat = _
  rw [BitVec.toNat_ofNat, hdiv, BitVec.toNat_ushiftRight, Nat.shiftRight_eq_div_pow]
  exact Nat.mod_eq_of_lt (lt_of_le_of_lt (Nat.div_le_self ..) x.isLt)

end

/-! ### Shifts of 32 bits and rotation -/

/-- A 32-bit value shifted right by 31 or more is its sign. -/
theorem word_toInt_div (x : Word) {n : Nat} (hn : 31 ≤ n) : x.toInt / 2 ^ n = if x.toInt < 0 then -1 else 0 := by
  have hpow : (2 : Int) ^ 31 ≤ 2 ^ n := pow_le_pow_right₀ (by norm_num) hn
  have hlow := x.le_toInt
  have hhigh := x.toInt_lt
  split_ifs with h
  · rw [Int.ediv_eq_iff_of_pos (by positivity)]; omega
  · exact Int.ediv_eq_zero_of_lt (by omega) (by omega)

theorem ofInt_exact_sar (sg : Bool) (x y : Word) :
    BitVec.ofInt 32 (IntOp.sar.exact sg 32 x.toNat y.toNat) = x.sshiftRight y.toNat := by
  have hdiv : x.toInt / 2 ^ min y.toNat 31 = x.toInt / 2 ^ y.toNat := by
    rcases Nat.le_total y.toNat 31 with h | h
    · rw [Nat.min_eq_left h]
    · rw [Nat.min_eq_right h, word_toInt_div x le_rfl, word_toInt_div x h]
  change BitVec.ofInt 32 (readInt true 32 x.toNat / 2 ^ min y.toNat 31) = _
  rw [readInt_toInt, hdiv, BitVec.sshiftRight, Int.shiftRight_eq_div_pow]
  norm_cast

/-- The bits that leave at the top come in at the bottom, where the shift has left room. -/
theorem toNat_rotateLeft_eq_add (x : Word) {k : Nat} (hk : k < 32) :
    (x.rotateLeft k).toNat = x.toNat * 2 ^ k % 2 ^ 32 + x.toNat / 2 ^ (32 - k) := by
  have hlow : x.toNat / 2 ^ (32 - k) < 2 ^ k :=
    Nat.div_lt_of_lt_mul (by rw [← pow_add, Nat.sub_add_cancel hk.le]; exact x.isLt)
  have hhigh : x.toNat * 2 ^ k % 2 ^ 32 = 2 ^ k * (x.toNat % 2 ^ (32 - k)) := by
    rw [mul_comm, ← Nat.mul_mod_mul_left, ← pow_add, Nat.add_sub_cancel' hk.le]
  rw [BitVec.toNat_rotateLeft, Nat.mod_eq_of_lt hk, Nat.shiftLeft_eq, Nat.shiftRight_eq_div_pow, hhigh,
    Nat.two_pow_add_eq_or_of_lt hlow]

theorem ofInt_exact_rot (sg : Bool) (x y : Word) :
    BitVec.ofInt 32 (IntOp.rot.exact sg 32 x.toNat y.toNat) = x.rotateLeft (y.toNat % 32) := by
  have hk : y.toNat % 32 < 32 := Nat.mod_lt _ (by omega)
  rw [IntOp.exact, ← toNat_rotateLeft_eq_add x hk, BitVec.ofInt_natCast, BitVec.ofNat_toNat, BitVec.setWidth_eq]

/-! ### Least and greatest -/

section
variable {w : Nat} (x y : BitVec w)

theorem toInt_ofInt_exact_min : (BitVec.ofInt w (IntOp.min.exact true w x.toNat y.toNat)).toInt = min x.toInt y.toInt := by
  simp only [IntOp.exact, readInt_toInt]
  rcases min_choice x.toInt y.toInt with h | h <;> rw [h, BitVec.ofInt_toInt]

theorem toInt_ofInt_exact_max : (BitVec.ofInt w (IntOp.max.exact true w x.toNat y.toNat)).toInt = max x.toInt y.toInt := by
  simp only [IntOp.exact, readInt_toInt]
  rcases max_choice x.toInt y.toInt with h | h <;> rw [h, BitVec.ofInt_toInt]

theorem toNat_ofInt_exact_min : (BitVec.ofInt w (IntOp.min.exact false w x.toNat y.toNat)).toNat = min x.toNat y.toNat := by
  simp only [IntOp.exact, readInt_toNat, ← Nat.cast_min, BitVec.ofInt_natCast, BitVec.toNat_ofNat]
  exact Nat.mod_eq_of_lt (lt_of_le_of_lt (min_le_left ..) x.isLt)

theorem toNat_ofInt_exact_max : (BitVec.ofInt w (IntOp.max.exact false w x.toNat y.toNat)).toNat = max x.toNat y.toNat := by
  simp only [IntOp.exact, readInt_toNat, ← Nat.cast_max, BitVec.ofInt_natCast, BitVec.toNat_ofNat]
  exact Nat.mod_eq_of_lt (max_lt x.isLt y.isLt)

end

/-! ### The high half of a product -/

theorem toInt_ofInt_exact_mulh (x y : Word) :
    (BitVec.ofInt 32 (IntOp.mulh.exact true 32 x.toNat y.toNat)).toInt = x.toInt * y.toInt / 2 ^ 32 := by
  have hhigh := BitVec.toInt_mul_toInt_le (x := x) (y := y)
  have hlow := BitVec.le_toInt_mul_toInt (x := x) (y := y)
  simp only [IntOp.exact, readInt_toInt]
  exact BitVec.toInt_ofInt_eq_self (by omega) (by omega) (by omega)

theorem toNat_ofInt_exact_mulh (x y : Word) :
    (BitVec.ofInt 32 (IntOp.mulh.exact false 32 x.toNat y.toNat)).toNat = x.toNat * y.toNat / 2 ^ 32 := by
  have hlt : x.toNat * y.toNat / 2 ^ 32 < 2 ^ 32 :=
    Nat.div_lt_of_lt_mul (Nat.mul_lt_mul'' x.isLt y.isLt)
  simp only [IntOp.exact, readInt_toNat]
  exact_mod_cast Nat.mod_eq_of_lt hlt

/-- Settles O14: a result is the exact one modulo 2^32, and so the operation of bit vectors. -/
theorem thirtyTwoBitResults : Obligations.ThirtyTwoBitResults := by
  intro a b x y n
  refine ⟨fun o t ht => ?_, fun t ht => ⟨?_, ?_, ?_⟩, ?_, ?_, ?_, ?_, ?_, ?_, ?_, ?_, ?_, ?_, ?_, ?_, ?_, ?_⟩
  · rw [intAlu2_word o false a b (tyWidth_word ht), BitVec.toNat_ofNat]
    exact lt_of_le_of_lt (Nat.mod_le ..) (writeInt_lt ..)
  · rw [lo32_intAlu2_wrap _ a b (tyWidth_word ht), ofInt_exact_add]
  · rw [lo32_intAlu2_wrap _ a b (tyWidth_word ht), ofInt_exact_sub]
  · rw [lo32_intAlu2_wrap _ a b (tyWidth_word ht), ofInt_exact_mul]
  · rw [lo32_intAlu2_wrap _ a b rfl]; exact toInt_ofInt_exact_mulh x y
  · rw [lo32_intAlu2_wrap _ a b rfl]; exact toNat_ofInt_exact_mulh x y
  · rw [lo32_intAlu2_wrap _ a b rfl, ofInt_exact_and]
  · rw [lo32_intAlu2_wrap _ a b rfl, ofInt_exact_or]
  · rw [lo32_intAlu2_wrap _ a b rfl, ofInt_exact_xor]
  · rw [lo32_intAlu2_wrap _ a b rfl, ofInt_exact_andn]
  · rw [lo32_intAlu2_wrap _ a b rfl, ofInt_exact_shl _ _ _ (by omega)]
  · rw [lo32_intAlu2_wrap _ a b rfl, ofInt_exact_shr _ _ _ (by omega)]
  · rw [lo32_intAlu2_wrap _ a b rfl, ofInt_exact_sar]
  · rw [lo32_intAlu2_wrap _ a b rfl, ofInt_exact_rot]
  · rw [lo32_intAlu2_wrap _ a b rfl]; exact toInt_ofInt_exact_min x y
  · rw [lo32_intAlu2_wrap _ a b rfl]; exact toInt_ofInt_exact_max x y
  · rw [lo32_intAlu2_wrap _ a b rfl]; exact toNat_ofInt_exact_min x y
  · rw [lo32_intAlu2_wrap _ a b rfl]; exact toNat_ofInt_exact_max x y

end Sys2Proof.Machine
end

section
/-! Saturated, packed, multiply-add, 64-bit, ABS and comparison results (R170, R171, R173 to R176). -/

namespace Sys2Proof.Machine

/-! ### Saturated results (R171) -/

/-- Beyond 2^64 the factor of a shift no longer matters to a result that is clamped to at most 2^64 in size. -/
theorem clamp_mul_two_pow {lo hi : Int} (hlo : -2 ^ 64 ≤ lo) (hhi : hi ≤ 2 ^ 64) (x : Int) (n : Nat) :
    max lo (min hi (x * 2 ^ min n 64)) = max lo (min hi (x * 2 ^ n)) := by
  rcases Nat.le_total n 64 with h | h
  · rw [Nat.min_eq_left h]
  · have hpow : (2 : Int) ^ 64 ≤ 2 ^ n := pow_le_pow_right₀ (by norm_num) h
    rw [Nat.min_eq_right h]
    rcases lt_trichotomy x 0 with hx | rfl | hx
    · have : x * 2 ^ n ≤ -2 ^ 64 := by nlinarith
      omega
    · rw [zero_mul, zero_mul]
    · have : 2 ^ 64 ≤ x * 2 ^ n := by nlinarith
      omega

section
variable (o : IntOp) (a b : Word64)

theorem toInt_intAlu2_sat : (lo32 (intAlu2 o 2 true a b)).toInt =
    max (-2 ^ 31) (min (2 ^ 31 - 1) (o.exact true 32 (lo32 a).toNat (lo32 b).toNat)) := by
  rw [lo32_intAlu2 o true a b rfl, min_comm]
  exact toInt_ofNat_writeInt_sat (by omega) _

theorem toNat_intAlu2_sat : ((lo32 (intAlu2 o 6 true a b)).toNat : Int) =
    max 0 (min (2 ^ 32 - 1) (o.exact false 32 (lo32 a).toNat (lo32 b).toNat)) := by
  rw [lo32_intAlu2 o true a b rfl, min_comm]
  exact toNat_ofNat_writeInt_sat _ _

end

theorem saturatedResults : Claim.SaturatedResults := by
  intro a b x y ci cn
  refine ⟨?_, ?_, ?_, ?_, ?_, ?_, ?_, ?_⟩
  · rw [toInt_intAlu2_sat, IntOp.exact, readInt_toInt, readInt_toInt]
  · rw [toInt_intAlu2_sat, IntOp.exact, readInt_toInt, readInt_toInt]
  · rw [toInt_intAlu2_sat, IntOp.exact, readInt_toInt, readInt_toInt]
  · rw [toNat_intAlu2_sat, IntOp.exact, readInt_toNat, readInt_toNat]
  · rw [toNat_intAlu2_sat, IntOp.exact, readInt_toNat, readInt_toNat]
  · rw [toNat_intAlu2_sat, IntOp.exact, readInt_toNat, readInt_toNat]
  · rw [toInt_intAlu2_sat, IntOp.exact, readInt_toInt]
    exact clamp_mul_two_pow (by omega) (by omega) _ _
  · rw [toNat_intAlu2_sat, IntOp.exact, readInt_toNat]
    exact clamp_mul_two_pow (by omega) (by omega) _ _

/-! ### Elements of a packed operand (R170) -/

/-- Element i of a result is the operation on element i of each operand. -/
theorem mapElems2_elem {w : Nat} {f : Nat → Nat → Nat} (hf : ∀ x y, f x y < 2 ^ w) {n i : Nat} (hi : i < n) (a b : Nat) :
    mapElems2 w f n a b / 2 ^ (w * i) % 2 ^ w = f (a / 2 ^ (w * i) % 2 ^ w) (b / 2 ^ (w * i) % 2 ^ w) := by
  induction n generalizing a b i with
  | zero => omega
  | succ n ih =>
    rw [mapElems2]
    cases i with
    | zero => simp [Nat.mod_eq_of_lt (hf _ _)]
    | succ i =>
      have hdiv : ∀ x : Nat, x / 2 ^ (w * (i + 1)) = x / 2 ^ w / 2 ^ (w * i) := fun x => by
        rw [Nat.div_div_eq_div_mul, ← pow_add, Nat.mul_succ, Nat.add_comm]
      rw [hdiv, Nat.add_mul_div_left _ _ (by positivity), Nat.div_eq_of_lt (hf _ _), Nat.zero_add, ih (by omega), hdiv, hdiv]

theorem extractLsb'_ofNat {n start len : Nat} (h : start + len ≤ n) (x : Nat) :
    (BitVec.ofNat n x).extractLsb' start len = BitVec.ofNat len (x / 2 ^ start % 2 ^ len) := by
  refine BitVec.eq_of_getLsbD_eq fun i hi => ?_
  have hlt : start + i < n := by omega
  simp only [BitVec.getLsbD_extractLsb', BitVec.getLsbD_ofNat, Nat.testBit_mod_two_pow, Nat.testBit_div_two_pow, hi, hlt,
    Nat.add_comm i, decide_true, Bool.true_and]

theorem intAlu2_elem (o : IntOp) {t w i : Nat} (hw : tyWidth t = w) (hi : i < tyElems t) (hin : w * i + w ≤ 64)
    (sat : Bool) (a b : Word64) :
    (intAlu2 o t sat a b).extractLsb' (w * i) w = BitVec.ofNat w (writeInt sat (tySigned t) w
      (o.exact (tySigned t) w (a.extractLsb' (w * i) w).toNat (b.extractLsb' (w * i) w).toNat)) := by
  subst hw
  rw [intAlu2, extractLsb'_ofNat hin, mapElems2_elem (fun _ _ => writeInt_lt ..) hi, BitVec.extractLsb'_toNat, BitVec.extractLsb'_toNat,
    Nat.shiftRight_eq_div_pow, Nat.shiftRight_eq_div_pow]

theorem packedResults : Claim.PackedResults := by
  intro a b sat o _
  refine ⟨fun t ht i hi => ?_, fun t ht i hi => ?_⟩
  · have hw : tyWidth t = 16 := by fin_cases ht <;> rfl
    exact intAlu2_elem o hw (by rw [tyElems, hw]; exact hi) (by omega) sat a b
  · have hw : tyWidth t = 8 := by fin_cases ht <;> rfl
    exact intAlu2_elem o hw (by rw [tyElems, hw]; exact hi) (by omega) sat a b

/-! ### Multiply-add, 64-bit sums, ABS and comparisons (R173 to R176) -/

section
variable (a b c : Word64)

theorem lo32_intMad_wrap (t : Nat) : lo32 (intMad t false a b c) = lo32 a * lo32 b + lo32 c := by
  rw [intMad, lo32, BitVec.setWidth_ofNat_of_le (by omega), ofNat_writeInt_wrap, BitVec.ofInt_add, BitVec.ofInt_mul,
    ofInt_readInt, ofInt_readInt, ofInt_readInt]
  rfl

theorem toInt_intMadw_wrap : (intMadw 2 false a b c).toInt = ((lo32 a).toInt * (lo32 b).toInt + c.toInt).bmod (2 ^ 64) := by
  rw [intMadw, ofNat_writeInt_wrap, BitVec.toInt_ofInt]
  change Int.bmod (readInt true 32 a.toNat * readInt true 32 b.toNat + readInt true 64 c.toNat) _ = _
  rw [readInt_signed, readInt_signed, readInt_toInt]
  rfl

theorem intMadw_natural_wrap : intMadw 6 false a b c = (lo32 a).setWidth 64 * (lo32 b).setWidth 64 + c := by
  rw [intMadw, ofNat_writeInt_wrap, BitVec.ofInt_add, BitVec.ofInt_mul, ofInt_readInt, BitVec.setWidth_eq]
  change BitVec.ofInt 64 (readInt false 32 a.toNat) * BitVec.ofInt 64 (readInt false 32 b.toNat) + c = _
  rw [readInt_natural, readInt_natural, BitVec.ofInt_natCast, BitVec.ofInt_natCast, BitVec.ofNat_toNat, BitVec.ofNat_toNat]
  rfl

theorem intAdd64_wrap (t : Nat) : intAdd64 t false a b = a + b := by
  rw [intAdd64, ofNat_writeInt_wrap, BitVec.ofInt_add, ofInt_readInt, ofInt_readInt, BitVec.setWidth_eq, BitVec.setWidth_eq]

theorem toInt_intAdd64_sat : (intAdd64 3 true a b).toInt = max (-2 ^ 63) (min (2 ^ 63 - 1) (a.toInt + b.toInt)) := by
  change (BitVec.ofNat 64 (writeInt true true 64 (readInt true 64 a.toNat + readInt true 64 b.toNat))).toInt = _
  rw [toInt_ofNat_writeInt_sat (by omega), readInt_toInt, readInt_toInt, min_comm]
  rfl

theorem toNat_intAdd64_sat : (intAdd64 7 true a b).toNat = min (2 ^ 64 - 1) (a.toNat + b.toNat) := by
  have h : ((intAdd64 7 true a b).toNat : Int) = satN 64 (readInt false 64 a.toNat + readInt false 64 b.toNat) :=
    toNat_ofNat_writeInt_sat _ _
  rw [readInt_toNat, readInt_toNat, satN] at h
  omega

/-- ABS of one 32-bit element. -/
theorem lo32_intAbs (sat : Bool) : lo32 (intAbs 2 sat a) = BitVec.ofNat 32 (writeInt sat true 32 (lo32 a).toInt.natAbs) := by
  have h : intAbs 2 sat a = BitVec.ofNat 64 (writeInt sat true 32 (readInt true 32 (lo32 a).toNat).natAbs) := rfl
  rw [h, readInt_toInt, lo32, BitVec.setWidth_ofNat_of_le (by omega)]

theorem toInt_intAbs_sat : (lo32 (intAbs 2 true a)).toInt = min (2 ^ 31 - 1) ((lo32 a).toInt.natAbs : Int) := by
  rw [lo32_intAbs, toInt_ofNat_writeInt_sat (by omega), satI]
  omega

theorem lo32_intAbs_wrap : lo32 (intAbs 2 false a) = if (lo32 a).toInt < 0 then -lo32 a else lo32 a := by
  rw [lo32_intAbs, ofNat_writeInt_wrap]
  split_ifs with h
  · rw [Int.ofNat_natAbs_of_nonpos h.le, BitVec.ofInt_neg, BitVec.ofInt_toInt]
  · rw [Int.natAbs_of_nonneg (by omega), BitVec.ofInt_toInt]

end

theorem multiplyAddAndCompareResults : Claim.MultiplyAddAndCompareResults := by
  intro a b c x y
  refine ⟨fun t _ => lo32_intMad_wrap a b c t, toInt_intMadw_wrap a b c, intMadw_natural_wrap a b c, fun t _ => intAdd64_wrap a b t,
    toInt_intAdd64_sat a b, toNat_intAdd64_sat a b, toInt_intAbs_sat a, lo32_intAbs_wrap a, ?_, ?_, ?_, ?_, ?_, ?_⟩
  · change decide (readInt true 32 a.toNat < readInt true 32 b.toNat) = _
    rw [readInt_signed, readInt_signed]; rfl
  · change decide (readInt false 32 a.toNat < readInt false 32 b.toNat) = _
    rw [readInt_natural, readInt_natural]
    exact decide_eq_decide.2 Nat.cast_lt
  · change decide (readInt true 64 a.toNat ≥ readInt true 64 b.toNat) = _
    rw [readInt_toInt, readInt_toInt]
  · change decide (readInt false 64 a.toNat > readInt false 64 b.toNat) = _
    rw [readInt_toNat, readInt_toNat]
    exact decide_eq_decide.2 Nat.cast_lt
  · change decide (readInt false 32 a.toNat = readInt false 32 b.toNat) = _
    rw [readInt_natural, readInt_natural]
    exact decide_eq_decide.2 (Nat.cast_inj.trans BitVec.toNat_inj)
  · change decide (readInt false 64 a.toNat ≠ readInt false 64 b.toNat) = _
    rw [readInt_toNat, readInt_toNat]
    exact decide_eq_decide.2 (Nat.cast_inj.trans BitVec.toNat_inj).not

end Sys2Proof.Machine
end

section
/-! Bit fields, counts, reversal and byte permutation (R179, R180, R182). -/

namespace Sys2Proof.Machine

/-! ### Bit fields (R179) -/

theorem readInt_empty (sg : Bool) (x : Nat) : readInt sg 0 x = 0 := by
  simp [readInt, Nat.mod_one]

section
variable (a b c : Word64)

theorem fieldPos_eq : fieldPos c = min (c.extractLsb' 0 8).toNat 32 := by
  rw [BitVec.extractLsb'_toNat]; rfl

theorem fieldLen_eq : fieldLen c = min (c.extractLsb' 8 8).toNat (32 - fieldPos c) := by
  rw [BitVec.extractLsb'_toNat, Nat.shiftRight_eq_div_pow]; rfl

/-- The field of a word at a control word, which is empty where q is 0. -/
def fieldOf : BitVec (fieldLen c) := (lo32 a).extractLsb' (fieldPos c) (fieldLen c)

/-- BFE extends the field to 32 bits, as its type is read. -/
theorem intBfe_eq (t : Nat) : intBfe t a c =
    (if tySigned t then (fieldOf a c).signExtend 32 else (fieldOf a c).setWidth 32).setWidth 64 := by
  have hval : intBfe t a c = BitVec.ofNat 64 (writeInt false true 32 (readInt (tySigned t) (fieldLen c) (fieldOf a c).toNat)) := by
    unfold intBfe
    dsimp only
    split_ifs with hq
    · generalize (fieldOf a c).toNat = x
      rw [hq, readInt_empty]; rfl
    · rw [fieldOf, BitVec.extractLsb'_toNat, Nat.shiftRight_eq_div_pow]; rfl
  rw [hval, ← BitVec.setWidth_ofNat_of_le_of_lt (by omega) (writeInt_lt ..), ofNat_writeInt_wrap]
  cases tySigned t with
  | false => rw [readInt_toNat, BitVec.ofInt_natCast, BitVec.ofNat_toNat]; rfl
  | true => rw [readInt_toInt]; rfl

theorem bfe_natural_bit {i : Nat} (hi : i < 32) :
    (intBfe 6 a c).getLsbD i = (decide (i < fieldLen c) && (lo32 a).getLsbD (fieldPos c + i)) := by
  rw [intBfe_eq]
  change (((fieldOf a c).setWidth 32).setWidth 64).getLsbD i = _
  simp [fieldOf, hi, show i < 64 by omega]

theorem bfe_signed_bit {i : Nat} (hi : i < 32) : (intBfe 2 a c).getLsbD i =
    (decide (0 < fieldLen c) && (lo32 a).getLsbD (fieldPos c + min i (fieldLen c - 1))) := by
  rw [intBfe_eq]
  change (((fieldOf a c).signExtend 32).setWidth 64).getLsbD i = _
  rw [BitVec.getLsbD_setWidth, BitVec.getLsbD_signExtend, BitVec.msb_eq_getLsbD_last]
  by_cases hq : i < fieldLen c
  · have hmin : min i (fieldLen c - 1) = i := by omega
    simp [fieldOf, hi, hq, hmin, show i < 64 by omega, show 0 < fieldLen c by omega]
  · have hmin : min i (fieldLen c - 1) = fieldLen c - 1 := by omega
    simp [fieldOf, hi, hq, hmin, show i < 64 by omega]

theorem intBfi_bit {i : Nat} (hi : i < 32) : (intBfi a b c).getLsbD i =
    if fieldPos c ≤ i ∧ i < fieldPos c + fieldLen c then a.getLsbD (i - fieldPos c) else b.getLsbD i := by
  have hlow : b.toNat % 2 ^ 32 % 2 ^ fieldPos c < 2 ^ fieldPos c := Nat.mod_lt _ (by positivity)
  have hmid : 2 ^ fieldPos c * (a.toNat % 2 ^ fieldLen c) + b.toNat % 2 ^ 32 % 2 ^ fieldPos c < 2 ^ (fieldPos c + fieldLen c) := by
    have := Nat.mod_lt a.toNat (show 0 < 2 ^ fieldLen c by positivity)
    have := Nat.mul_le_mul_left (2 ^ fieldPos c) (Nat.succ_le_of_lt this)
    rw [pow_add]; rw [Nat.mul_succ] at this; omega
  have hsum : intBfi a b c = BitVec.ofNat 64 (2 ^ (fieldPos c + fieldLen c) * (b.toNat % 2 ^ 32 / 2 ^ (fieldPos c + fieldLen c)) +
      (2 ^ fieldPos c * (a.toNat % 2 ^ fieldLen c) + b.toNat % 2 ^ 32 % 2 ^ fieldPos c)) := by
    rw [intBfi, Nat.add_comm, Nat.add_comm (2 ^ fieldPos c * _)]
  rw [hsum, BitVec.getLsbD_ofNat, Nat.testBit_two_pow_mul_add _ hmid, Nat.testBit_two_pow_mul_add _ hlow]
  simp only [Nat.testBit_mod_two_pow, Nat.testBit_div_two_pow, BitVec.testBit_toNat]
  rcases Nat.lt_or_ge i (fieldPos c) with hp | hp
  · simp [hp, show i < 64 by omega, show i < fieldPos c + fieldLen c by omega, show ¬ fieldPos c ≤ i by omega, hi]
  · rcases Nat.lt_or_ge i (fieldPos c + fieldLen c) with hq | hq
    · simp [hq, show i < 64 by omega, hp, show ¬ i < fieldPos c by omega, show i - fieldPos c < fieldLen c by omega]
    · simp [show ¬ i < fieldPos c + fieldLen c by omega, show i < 64 by omega, hi, Nat.sub_add_cancel hq]

end

/-! ### Counts and reversal (R180) -/

theorem popcount_eq (n x : Nat) : popcount n x = ((List.range n).filter fun i => x.testBit i).length := by
  induction n generalizing x with
  | zero => rfl
  | succ n ih =>
    have htail : (fun i => x.testBit i) ∘ Nat.succ = fun i => (x / 2).testBit i := funext fun i => Nat.testBit_succ x i
    rw [popcount, ih, List.range_succ_eq_map, List.filter_cons, List.filter_map, htail]
    rcases Nat.mod_two_eq_zero_or_one x with h | h <;> simp [Nat.testBit_zero, h, Nat.add_comm]

theorem tyWidth_le (t : Nat) : tyWidth t ≤ 64 := by
  unfold tyWidth; split <;> omega

theorem popcount_le (n x : Nat) : popcount n x ≤ n := by
  rw [popcount_eq]
  exact (List.length_filter_le ..).trans_eq List.length_range

theorem toNat_intPopc (t : Nat) (a : Word64) :
    (intPopc t a).toNat = ((List.range (tyWidth t)).filter fun i => a.getLsbD i).length := by
  have := popcount_le (tyWidth t) a.toNat
  have := tyWidth_le t
  rw [intPopc, BitVec.toNat_ofNat, Nat.mod_eq_of_lt (by omega), popcount_eq]
  rfl

/-- The numbers below n that a predicate holds of without a gap. -/
theorem length_takeWhile_range {n k : Nat} {p : Nat → Bool} (hk : k ≤ n) (hp : ∀ i < k, p i = true) (hstop : k < n → p k = false) :
    ((List.range n).takeWhile p).length = k := by
  obtain ⟨m, rfl⟩ := Nat.exists_eq_add_of_le hk
  rw [List.range_add, List.takeWhile_append_of_pos (fun i hi => hp i (List.mem_range.1 hi))]
  cases m with
  | zero => simp
  | succ m => simp [List.range_succ_eq_map, hstop]

theorem leadingZeros_eq (n x : Nat) : leadingZeros n x = ((List.range n).takeWhile fun i => !x.testBit (n - 1 - i)).length := by
  have hlow : ∀ i, i < n → x.testBit i = (x % 2 ^ n).testBit i := fun i hi => by simp [hi]
  rw [leadingZeros]
  split_ifs with hz
  · refine (length_takeWhile_range le_rfl (fun i hi => ?_) (by omega)).symm
    rw [hlow _ (by omega), hz, Nat.zero_testBit]; rfl
  · have hlog : (x % 2 ^ n).log2 < n := (Nat.log2_lt hz).2 (Nat.mod_lt _ (by positivity))
    refine (length_takeWhile_range (by omega) (fun i hi => ?_) (fun hi => ?_)).symm
    · rw [hlow _ (by omega), Nat.testBit_lt_two_pow ((Nat.log2_lt hz).1 (by omega))]; rfl
    · rw [hlow _ (by omega), show n - 1 - (n - 1 - (x % 2 ^ n).log2) = (x % 2 ^ n).log2 by omega, Nat.testBit_log2 hz]; rfl

theorem leadingZeros_le (n x : Nat) : leadingZeros n x ≤ n := by
  rw [leadingZeros]; split_ifs <;> omega

theorem toNat_intClz (t : Nat) (a : Word64) :
    (intClz t a).toNat = ((List.range (tyWidth t)).takeWhile fun i => !a.getLsbD (tyWidth t - 1 - i)).length := by
  have := leadingZeros_le (tyWidth t) a.toNat
  have := tyWidth_le t
  rw [intClz, BitVec.toNat_ofNat, Nat.mod_eq_of_lt (by omega), leadingZeros_eq]
  rfl

theorem reverseBits_lt (n x : Nat) : reverseBits n x < 2 ^ n := by
  induction n generalizing x with
  | zero => simp [reverseBits]
  | succ n ih =>
    have := ih (x / 2)
    have := Nat.mul_le_mul_right (2 ^ n) (show x % 2 ≤ 1 by omega)
    rw [reverseBits, pow_succ]; omega

theorem reverseBits_testBit {n i : Nat} (hi : i < n) (x : Nat) : (reverseBits n x).testBit i = x.testBit (n - 1 - i) := by
  induction n generalizing x with
  | zero => omega
  | succ n ih =>
    rw [reverseBits, Nat.mul_comm, Nat.testBit_two_pow_mul_add _ (reverseBits_lt n _)]
    split_ifs with h
    · rw [ih h, ← Nat.testBit_add_one, show n - 1 - i + 1 = n + 1 - 1 - i by omega]
    · rw [show i = n by omega, Nat.sub_self, show n + 1 - 1 - n = 0 by omega]; simp [Nat.testBit_zero]

theorem intBrev_bit (a : Word64) {i : Nat} (hi : i < 32) : (intBrev a).getLsbD i = a.getLsbD (31 - i) := by
  rw [intBrev, BitVec.getLsbD_ofNat, reverseBits_testBit hi, decide_eq_true (by omega : i < 64), Bool.true_and]
  rfl

/-! ### Byte permutation (R182) -/

theorem prmtByte_lt (x s : Nat) : prmtByte x s < 256 := by
  unfold prmtByte; dsimp only; split_ifs <;> omega

/-- A result byte, from the selector nibble and the eight bytes. -/
theorem prmtByte_eq (x : Word64) {s : Nat} (hs : s < 16) : BitVec.ofNat 8 (prmtByte x.toNat s) =
    let byte := x.extractLsb' (8 * (s % 8)) 8
    if s < 8 then byte else if byte.getLsbD 7 then 0xFF else 0 := by
  have hbyte : x.toNat / 2 ^ (8 * (s % 8)) % 256 = (x.extractLsb' (8 * (s % 8)) 8).toNat := by
    rw [BitVec.extractLsb'_toNat, Nat.shiftRight_eq_div_pow]
  have hsign : s / 8 % 2 = 0 ↔ s < 8 := by omega
  simp only [prmtByte, hbyte, hsign]
  generalize x.extractLsb' (8 * (s % 8)) 8 = byte
  have hmsb : byte.getLsbD 7 = decide (128 ≤ byte.toNat) := (BitVec.msb_eq_getLsbD_last byte).symm.trans byte.msb_eq_decide
  simp only [hmsb, decide_eq_true_eq]
  split_ifs
  · exact BitVec.ofNat_toNat .. |>.trans (BitVec.setWidth_eq _)
  · rfl
  · rfl

theorem toNat_append_words (a b : Word) : (b ++ a).toNat = a.toNat + 2 ^ 32 * b.toNat := by
  rw [BitVec.toNat_append, ← Nat.shiftLeft_add_eq_or_of_lt a.isLt, Nat.shiftLeft_eq, Nat.add_comm, Nat.mul_comm]

theorem byte_of_four {f : Nat → Nat} (hf : ∀ j, f j < 256) {i : Nat} (hi : i < 4) :
    (f 0 + 2 ^ 8 * f 1 + 2 ^ 16 * f 2 + 2 ^ 24 * f 3) / 2 ^ (8 * i) % 2 ^ 8 = f i := by
  have h0 := hf 0
  have h1 := hf 1
  have h2 := hf 2
  have h3 := hf 3
  interval_cases i <;> omega

theorem intPrmt_byte (a b c : Word64) {i : Nat} (hi : i < 4) : (intPrmt a b c).extractLsb' (8 * i) 8 =
    BitVec.ofNat 8 (prmtByte (lo32 b ++ lo32 a).toNat (c.extractLsb' (4 * i) 4).toNat) := by
  have hx : (lo32 b ++ lo32 a).toNat = a.toNat % 2 ^ 32 + 2 ^ 32 * (b.toNat % 2 ^ 32) := toNat_append_words _ _
  rw [intPrmt, ← hx, extractLsb'_ofNat (by omega), BitVec.extractLsb'_toNat, Nat.shiftRight_eq_div_pow]
  have h := byte_of_four (f := fun j => prmtByte (lo32 b ++ lo32 a).toNat (c.toNat / 2 ^ (4 * j) % 2 ^ 4)) (fun j => prmtByte_lt ..) hi
  simp only [Nat.mul_zero, pow_zero, Nat.div_one] at h
  exact congrArg (BitVec.ofNat 8) h

theorem bitFieldResults : Claim.BitFieldResults := by
  intro a b c
  rw [← fieldPos_eq]
  dsimp only
  rw [← fieldLen_eq]
  refine ⟨fun i hi => bfe_natural_bit a c hi, fun i hi => bfe_signed_bit a c hi, fun i hi => intBfi_bit a b c hi,
    toNat_intPopc 8 a, toNat_intPopc 9 a, toNat_intClz 8 a, toNat_intClz 9 a, fun i hi => intBrev_bit a hi, fun i hi => ?_⟩
  rw [intPrmt_byte a b c hi]
  exact prmtByte_eq _ (BitVec.isLt _)

/-- Settles O15: a saturated result is the exact one clamped, an element of a packed result is the operation on the elements of its
operands, and each bit of a field, a count, a reversal or a permutation is found in the digits of the model's number. -/
theorem otherIntegerResults : Obligations.OtherIntegerResults :=
  ⟨saturatedResults, packedResults, multiplyAddAndCompareResults, bitFieldResults⟩

end Sys2Proof.Machine
end

section
/-! A frame for memory at home (R232, R233): that an outcome leaves memory as it was, and how this passes through lists of changes and
through accesses one after another. The sections after this one say it of each function that a step calls, in the order of the
model's files, and say of the functions that take another one what they end with. These are many short proofs, which are elaborated
one after another. -/

namespace Sys2Proof.Machine

/-- An outcome's next state has the given memory. -/
def Out.memIs (m : List Host.Cell) : Out → Prop
  | .next t => t.mem = m
  | _ => True

/-- The same for a firmware command, which may wait in a state of its own (R427). -/
def CmdOut.memIs (m : List Host.Cell) (r : CmdOut) : Prop := r.1.mem = m ∧ ∀ o, r.2 = some o → Out.memIs m o

theorem Out.memIs_next (m : List Host.Cell) (t : State) : Out.memIs m (.next t) = (t.mem = m) := rfl

theorem Out.memIs_ite {p : Prop} [Decidable p] {a b : Out} {m : List Host.Cell} (ha : Out.memIs m a) (hb : Out.memIs m b) :
    Out.memIs m (if p then a else b) := by
  split
  · exact ha
  · exact hb

theorem Out.memIs.of_eq {o : Out} {m n : List Host.Cell} (h : Out.memIs m o) (e : m = n) : Out.memIs n o := e ▸ h

/-! ### Lists of changes -/

theorem foldl_mem_or {α : Type} (f : State → α → State) (l : List α) (s : State) :
    (l.foldl f s).mem = s.mem ∨ ∃ t a, (f t a).mem ≠ t.mem := by
  induction l generalizing s with
  | nil => exact .inl rfl
  | cons a l ih => grind

theorem foldl_fst_mem_or {α β : Type} (f : State × β → α → State × β) (l : List α) (p : State × β) :
    (l.foldl f p).1.mem = p.1.mem ∨ ∃ q a, (f q a).1.mem ≠ q.1.mem := by
  induction l generalizing p with
  | nil => exact .inl rfl
  | cons a l ih => grind

theorem foldl_snd_mem_or {α β : Type} (f : β × State → α → β × State) (l : List α) (p : β × State) :
    (l.foldl f p).2.mem = p.2.mem ∨ ∃ q a, (f q a).2.mem ≠ q.2.mem := by
  induction l generalizing p with
  | nil => exact .inl rfl
  | cons a l ih => grind

theorem foldl_mem {α : Type} {f : State → α → State} (hf : ∀ s a, (f s a).mem = s.mem) (l : List α) (s : State) :
    (l.foldl f s).mem = s.mem := (foldl_mem_or f l s).resolve_right fun ⟨t, a, h⟩ => h (hf t a)

theorem foldl_fst_mem {α β : Type} {f : State × β → α → State × β} (hf : ∀ p a, (f p a).1.mem = p.1.mem) (l : List α)
    (p : State × β) : (l.foldl f p).1.mem = p.1.mem := (foldl_fst_mem_or f l p).resolve_right fun ⟨t, a, h⟩ => h (hf t a)

theorem foldl_snd_mem {α β : Type} {f : β × State → α → β × State} (hf : ∀ p a, (f p a).2.mem = p.2.mem) (l : List α)
    (p : β × State) : (l.foldl f p).2.mem = p.2.mem := (foldl_snd_mem_or f l p).resolve_right fun ⟨t, a, h⟩ => h (hf t a)

/-! ### One access after another -/

theorem andThen_mem_eq {α β : Type} {r : State × Acc α} {k : State → α → State × Acc β} {m : List Host.Cell}
    (hr : r.1.mem = m) (hk : ∀ t a, t.mem = m → (k t a).1.mem = m) : (andThen r k).1.mem = m := by
  obtain ⟨t, a | _ | _ | _⟩ := r
  · exact hk t a hr
  all_goals exact hr

theorem mem_of_andThen {α β : Type} {r : State × Acc α} {k : State → α → State × Acc β} {t : State} {x : Acc β}
    {m : List Host.Cell} (e : andThen r k = (t, x)) (hr : r.1.mem = m) (hk : ∀ t a, t.mem = m → (k t a).1.mem = m) : t.mem = m :=
  (congrArg (fun p => p.1.mem) e).symm.trans (andThen_mem_eq hr hk)

theorem State.finish_memIs {s : State} {m : List Host.Cell} (h : s.mem = m) (f : Fields) (up : Wave → Wave) :
    Out.memIs m (s.finish f up) := h

theorem State.ret_memIs {s : State} {m : List Host.Cell} (h : s.mem = m) (f : Fields) (x : Nat) : Out.memIs m (s.ret f x) := h

end Sys2Proof.Machine
end

section
/-! What the functions of Sys2Proof/Machine/Regs.lean leave of memory at home. -/

namespace Sys2Proof.Machine

set_option Elab.async false

theorem State.free_keepsMem (s : State) : (s.free).2.mem = s.mem := rfl

end Sys2Proof.Machine
end

section
/-! What the functions of Sys2Proof/Machine/Memory.lean leave of memory at home. -/

namespace Sys2Proof.Machine

set_option Elab.async false

theorem State.contend_keepsMem (s : State) (pa : Nat) (core : Option Nat) (write : Bool) :
    (s.contend pa core write).mem = s.mem := by
  unfold State.contend
  split <;> rfl

theorem State.enter_keepsMem (s : State) (pa : Nat) : (s.enter pa).mem = s.mem := by
  unfold State.enter
  grind [!State.modHandle_mem]

theorem State.newWrite_keepsMem (s : State) (agent : Agent) (tag core : Option Nat) (bytes : List Host.Cell) (grain : Nat)
    (cache : CacheMode) (pool : Bool) (bells : List Instr) :
    (s.newWrite agent tag core bytes grain cache pool bells).2.mem = s.mem := by
  unfold State.newWrite
  split <;> rfl

theorem State.returnTime_keepsMem (s : State) (id c : Nat) : (s.returnTime id c).mem = s.mem := rfl

theorem State.dropResv_keepsMem (s : State) (w : Write) : (s.dropResv w).mem = s.mem := rfl

theorem State.raisePort_keepsMem (s : State) (a : Agent) (c : Nat) : (s.raisePort a c).mem = s.mem := by
  unfold State.raisePort
  split <;> rfl

theorem State.acceptAs_keepsMem (contends : Bool) (s : State) (id : Nat) : (State.acceptAs contends s id).mem = s.mem := by
  unfold State.acceptAs
  grind [!State.contend_keepsMem, !State.returnTime_keepsMem, !State.raisePort_keepsMem, !State.modLease_mem,
    !State.dropResv_keepsMem]

theorem State.acceptNow_keepsMem (s : State) (id : Nat) : (s.acceptNow id).mem = s.mem := by
  unfold State.acceptNow
  grind [!State.acceptAs_keepsMem]

theorem State.notBefore_keepsMem (s : State) (t id : Nat) : (s.notBefore t id).mem = s.mem := by
  unfold State.notBefore
  grind [!State.modLease_mem, !State.modWave_mem]

theorem State.contendWrite_keepsMem (s : State) (w : Write) : (s.contendWrite w).mem = s.mem := by
  unfold State.contendWrite
  grind [!State.contend_keepsMem, foldl_mem_or, foldl_fst_mem_or, foldl_snd_mem_or]

theorem State.acceptSector_keepsMem (s : State) (core sector : Nat) : (s.acceptSector core sector).mem = s.mem := by
  unfold State.acceptSector
  grind [!State.acceptNow_keepsMem, foldl_mem_or, foldl_fst_mem_or, foldl_snd_mem_or]

theorem State.acceptOr_keepsMem (s : State) (id : Nat) : (s.acceptOr id).mem = s.mem := by
  unfold State.acceptOr
  grind [!State.contendWrite_keepsMem, !State.acceptNow_keepsMem]

theorem State.writeHome_keepsMem (s : State) (tag : Option Nat) (bytes : List Host.Cell) (grain : Nat) (cache : CacheMode)
    (pool : Bool) :
    (s.writeHome tag bytes grain cache pool).2.mem = s.mem := by
  unfold State.writeHome
  grind [!State.acceptOr_keepsMem, !State.newWrite_keepsMem]

theorem State.fitL1_keepsMem (s : State) (core : Nat) : (s.fitL1 core).mem = s.mem := by
  unfold State.fitL1
  grind

theorem State.grantLease_keepsMem (s : State) (core tag va pa : Nat) (leaf : Word64) (size lc grain level : Nat) :
    (s.grantLease core tag va pa leaf size lc grain level).mem = s.mem := by
  unfold State.grantLease
  grind [!State.fitL1_keepsMem, !State.modLease_mem]

theorem State.holdLine_keepsMem (s : State) (core tag va pa : Nat) (leaf : Word64) (size level : Nat) :
    (s.holdLine core tag va pa leaf size level).mem = s.mem := by
  unfold State.holdLine
  grind [!State.fitL1_keepsMem]

theorem State.useL1_keepsMem (s : State) (core sec lvl : Nat) : (s.useL1 core sec lvl).mem = s.mem := rfl

theorem State.fitL2_keepsMem (s : State) (sec : Nat) : (s.fitL2 sec).mem = s.mem := by
  unfold State.fitL2
  grind

theorem State.useL2_keepsMem (s : State) (sec hint : Nat) (cache : CacheMode) : (s.useL2 sec hint cache).mem = s.mem := by
  unfold State.useL2
  grind [!State.fitL2_keepsMem]

theorem State.poisonSector_keepsMem (s : State) (tag pa : Nat) : (s.poisonSector tag pa).mem = s.mem := rfl

theorem State.faultLater_keepsMem (s : State) (tag : Nat) : (s.faultLater tag).mem = s.mem := by
  unfold State.faultLater
  split <;> rfl

theorem State.countError_keepsMem (s : State) (die : Nat) : (s.countError die).mem = s.mem := rfl

theorem State.takeFlaws_keepsMem (s : State) (die : Nat) (here : FlawPlace → Bool) : (s.takeFlaws die here).2.mem = s.mem := by
  unfold State.takeFlaws
  grind [!State.countError_keepsMem, foldl_mem_or, foldl_fst_mem_or, foldl_snd_mem_or]

theorem State.putDirty_keepsMem (s : State) (id : WaveId) (r : RootId) (cells : List Host.Cell) (bells : List Instr) :
    (s.putDirty id r cells bells).mem = s.mem := by
  unfold State.putDirty
  grind [!State.fitL1_keepsMem]

theorem State.releaseWrite_keepsMem (s : State) (w : Write) : (s.releaseWrite w).mem = s.mem := by
  unfold State.releaseWrite
  grind [!State.returnTime_keepsMem, !State.putDirty_keepsMem, !State.modWrite_mem, !State.holdLine_keepsMem, foldl_mem_or,
    foldl_fst_mem_or, foldl_snd_mem_or]

theorem State.settleRel_keepsMem (s : State) : (s.settleRel).mem = s.mem := by
  unfold State.settleRel
  grind [!State.releaseWrite_keepsMem, foldl_mem_or, foldl_fst_mem_or, foldl_snd_mem_or]

theorem State.sendBack_keepsMem (s : State) (core : Nat) (d : Dirty) (bs : List Host.Cell) :
    (s.sendBack core d bs).2.mem = s.mem := by
  unfold State.sendBack
  grind [!State.acceptSector_keepsMem, !State.poisonSector_keepsMem, !State.acceptOr_keepsMem, !State.newWrite_keepsMem,
    !State.takeFlaws_keepsMem, !State.modWrite_mem, !State.faultLater_keepsMem]

theorem State.writeBackIf_keepsMem (s : State) (test : Dirty → Nat → Bool) : (s.writeBackIf test).2.mem = s.mem := by
  unfold State.writeBackIf
  grind [!State.sendBack_keepsMem, foldl_mem_or, foldl_fst_mem_or, foldl_snd_mem_or]

theorem State.writeBack_keepsMem (s : State) (core : Nat) (r : RootId) : (s.writeBack core r).2.mem = s.mem := by
  unfold State.writeBack
  grind [!State.writeBackIf_keepsMem]

theorem State.dropCopies_keepsMem (s : State) (core : Nat) (r : RootId) : (s.dropCopies core r).mem = s.mem := rfl

theorem State.endTenure_keepsMem (s : State) (r : RootId) (core : Nat) : (s.endTenure r core).mem = s.mem := by
  unfold State.endTenure
  grind [!State.modLease_mem, !State.dropCopies_keepsMem, !State.modHandle_mem, !State.writeBack_keepsMem, foldl_mem_or,
    foldl_fst_mem_or, foldl_snd_mem_or]

theorem State.releaseEntry_keepsMem (s : State) (cord : Cord) (e : TenEntry) : (s.releaseEntry cord e).2.mem = s.mem := by
  unfold State.releaseEntry
  grind [!State.dropCopies_keepsMem, !State.modCord_mem, !State.modHandle_mem, !State.writeBack_keepsMem]

end Sys2Proof.Machine
end

section
/-! What the functions of Sys2Proof/Machine/Page.lean leave of memory at home. -/

namespace Sys2Proof.Machine

set_option Elab.async false

theorem State.meetErrors_keepsMem (s : State) (core : Option Nat) (tag pa : Nat) : (s.meetErrors core tag pa).2.mem = s.mem := by
  unfold State.meetErrors
  grind [!State.poisonSector_keepsMem, !State.countError_keepsMem, foldl_mem_or, foldl_fst_mem_or, foldl_snd_mem_or]

theorem State.setEntry_keepsMem (s : State) (tag pa : Nat) (e : Word64) : (s.setEntry tag pa e).mem = s.mem := by
  unfold State.setEntry
  grind [!State.acceptAs_keepsMem, !State.newWrite_keepsMem]

theorem State.fillWalks_keepsMem (s : State) (unit tag va : Nat) (l : List (Nat × Nat)) :
    (s.fillWalks unit tag va l).mem = s.mem := rfl

theorem State.walkOver_keepsMem (s : State) (tag va level table : Nat) : (s.walkOver tag va level table).2.mem = s.mem := by
  unfold State.walkOver
  grind [!State.meetErrors_keepsMem, foldl_mem_or, foldl_fst_mem_or, foldl_snd_mem_or]

theorem State.walkMeet_keepsMem (s : State) (tag va : Nat) : (s.walkMeet tag va).2.mem = s.mem := by
  unfold State.walkMeet
  grind [!State.walkOver_keepsMem]

theorem State.walkBy_keepsMem (s : State) (unit tag va : Nat) : (s.walkBy unit tag va).2.mem = s.mem := by
  unfold State.walkBy
  grind [!State.fillWalks_keepsMem, !State.walkOver_keepsMem]

theorem State.useLeaf_keepsMem (s : State) (unit tag : Nat) (sup : Bool) (kind va : Nat) (w : WalkEnd) :
    (s.useLeaf unit tag sup kind va w).2.mem = s.mem := by
  unfold State.useLeaf
  grind [!State.fillTlb_mem, !State.setEntry_keepsMem]

theorem State.walkLeaf_keepsMem (s : State) (unit tag : Nat) (sup : Bool) (kind va : Nat) :
    (s.walkLeaf unit tag sup kind va).2.mem = s.mem := by
  unfold State.walkLeaf
  grind [!State.useLeaf_keepsMem, !State.walkBy_keepsMem]

theorem State.meetTlb_keepsMem (s : State) (unit tag va : Nat) : (s.meetTlb unit tag va).mem = s.mem := by
  unfold State.meetTlb
  grind

theorem State.translateNoFt_keepsMem (s : State) (unit tag : Nat) (sup : Bool) (kind va : Nat) :
    (s.translateNoFt unit tag sup kind va).2.mem = s.mem := by
  unfold State.translateNoFt
  grind [!State.walkLeaf_keepsMem, !State.meetTlb_keepsMem]

/-- Two accesses in a row end as the first alone, or as the second after it. -/
theorem andThen_cases {α β : Type} (r : State × Acc α) (k : State → α → State × Acc β) :
    (andThen r k).1 = r.1 ∨ ∃ a, r.2 = .ok a ∧ andThen r k = k r.1 a := by
  obtain ⟨t, a | _ | _ | _⟩ := r <;> simp [andThen]

theorem State.waited_keepsMem (s t : State) : (s.waited t).mem = s.mem := rfl

/-- An access that is made whole leaves the state, or ends as the access itself. -/
theorem State.whole_cases {α : Type} (s : State) (k : State → State × Acc α) :
    (s.whole k).1.mem = s.mem ∨ (s.whole k).1 = (k s).1 := by
  unfold State.whole
  split <;> simp_all [State.waited]

theorem State.atHome_keepsMem (s : State) (tag : Nat) (core : Option Nat) (write : Bool) (pa : Nat) :
    (s.atHome tag core write pa).1.mem = s.mem := by
  unfold State.atHome
  grind [!State.contend_keepsMem, !State.meetErrors_keepsMem, !State.enter_keepsMem]

theorem State.dropAnswers_keepsMem (s : State) (p : Asker → Bool) : (s.dropAnswers p).mem = s.mem := rfl

theorem State.askTouch_keepsMem (s : State) (unit tag die kind va : Nat) (w : WalkEnd) :
    (s.askTouch unit tag die kind va w).2.mem = s.mem := by
  unfold State.askTouch
  grind [!State.dropAnswers_keepsMem]

theorem State.translate_keepsMem (s : State) (unit tag die : Nat) (sup : Bool) (kind va : Nat) :
    (s.translate unit tag die sup kind va).2.mem = s.mem := by
  unfold State.translate
  grind [!State.askTouch_keepsMem, !State.translateNoFt_keepsMem, !State.walkBy_keepsMem]

theorem State.l1Serve_keepsMem (s : State) (core : Option Nat) (tag : Nat) (sup : Bool) (kind va : Nat) :
    (s.l1Serve core tag sup kind va).2.mem = s.mem := by
  unfold State.l1Serve
  grind [!State.takeFlaws_keepsMem]

theorem State.locate_keepsMem (s : State) (unit tag die : Nat) (sup : Bool) (kind : Nat) (core : Option Nat)
    (a : List (Nat × Nat)) :
    (s.locate unit tag die sup kind core a).1.mem = s.mem := by
  fun_induction State.locate <;> grind [!State.translate_keepsMem, !State.l1Serve_keepsMem, !andThen_cases, !State.atHome_keepsMem]

theorem State.useHome_keepsMem (s : State) (hint : Nat) (l : List (Nat × Nat × Word64)) : (s.useHome hint l).mem = s.mem := by
  unfold State.useHome
  grind [!State.useL2_keepsMem, foldl_mem_or, foldl_fst_mem_or, foldl_snd_mem_or]

theorem State.hwLoadHint_keepsMem (s : State) (unit tag die : Nat) (sup : Bool) (va n hint : Nat) :
    (s.hwLoadHint unit tag die sup va n hint).1.mem = s.mem := by
  unfold State.hwLoadHint
  grind [!State.locate_keepsMem, !andThen_cases, !State.useHome_keepsMem]

theorem State.hwLoad_keepsMem (s : State) (unit tag die : Nat) (sup : Bool) (va n : Nat) :
    (s.hwLoad unit tag die sup va n).1.mem = s.mem := by
  unfold State.hwLoad
  grind [!State.hwLoadHint_keepsMem]

theorem State.enterWrite_keepsMem (s : State) (agent : Agent) (tag core : Option Nat) (pa : Nat) (e : Word64) (bs : List Byte) :
    (s.enterWrite agent tag core pa e bs).2.mem = s.mem := by
  unfold State.enterWrite
  grind [!State.newWrite_keepsMem]

theorem State.putHome_keepsMem (s : State) (agent : Agent) (tag core : Option Nat) (pa : Nat) (e : Word64) (bs : List Byte) :
    (s.putHome agent tag core pa e bs).2.mem = s.mem := by
  unfold State.putHome
  grind [!State.acceptOr_keepsMem, !State.enterWrite_keepsMem]

theorem State.storePieces_keepsMem (s : State) (agent : Agent) (tag core : Option Nat) (now : Bool)
    (a1 : List (Nat × Nat × Word64)) (a2 : List Byte) :
    (s.storePieces agent tag core now a1 a2).2.mem = s.mem := by
  fun_induction State.storePieces <;> grind [!State.enterWrite_keepsMem, !State.useHome_keepsMem, !State.acceptNow_keepsMem]

theorem State.hwStore_keepsMem (s : State) (agent : Agent) (unit tag die : Nat) (sup : Bool) (va : Nat) (bs : List Byte) :
    (s.hwStore agent unit tag die sup va bs).1.mem = s.mem := by
  unfold State.hwStore
  grind [!State.locate_keepsMem, !andThen_cases, !State.storePieces_keepsMem]

theorem State.hwAtomic_keepsMem (s : State) (unit tag die : Nat) (sup : Bool) (va n : Nat) (f : Nat → Nat) :
    (s.hwAtomic unit tag die sup va n f).1.mem = s.mem := by
  unfold State.hwAtomic
  grind [!State.locate_keepsMem, !andThen_cases, !State.putHome_keepsMem, !State.useHome_keepsMem]

theorem State.physStore_keepsMem (s : State) (tag pa : Nat) (bs : List Byte) : (s.physStore tag pa bs).2.mem = s.mem := by
  unfold State.physStore
  grind [!State.meetErrors_keepsMem, !State.writeHome_keepsMem, !State.faultLater_keepsMem, foldl_mem_or, foldl_fst_mem_or,
    foldl_snd_mem_or]

/-- Two accesses of a hart in a row end as the first alone, or as the second after it. -/
theorem hartThen_cases {α β : Type} (r : State × HAcc α) (k : State → α → State × HAcc β) :
    (hartThen r k).1 = r.1 ∨ ∃ a, r.2 = .ok a ∧ hartThen r k = k r.1 a := by
  obtain ⟨t, a | _ | _ | _ | _ | _⟩ := r <;> simp [hartThen]

theorem hartThen_mem {α β : Type} {r : State × HAcc α} {k : State → α → State × HAcc β} {m : List Host.Cell}
    (hr : r.1.mem = m) (hk : ∀ t a, t.mem = m → (k t a).1.mem = m) : (hartThen r k).1.mem = m := by
  rcases hartThen_cases r k with e | ⟨a, -, e⟩
  · exact e ▸ hr
  · exact e ▸ hk _ a hr

theorem State.locatePhys_keepsMem (s : State) (kind : Nat) (a : List (Nat × Nat)) : (s.locatePhys kind a).1.mem = s.mem := by
  fun_induction State.locatePhys <;> grind [!State.contend_keepsMem, !State.meetErrors_keepsMem, !State.enter_keepsMem,
    !hartThen_cases]

end Sys2Proof.Machine
end

section
/-! What the functions of Sys2Proof/Machine/Operands.lean leave of memory at home. -/

namespace Sys2Proof.Machine

set_option Elab.async false

theorem State.meetFrame_keepsMem (s : State) (w : Wave) : (s.meetFrame w).2.mem = s.mem := by
  unfold State.meetFrame
  grind [!State.translate_keepsMem, !State.meetErrors_keepsMem]

theorem State.readErrors_keepsMem (s : State) (w : Wave) (l : List (Opnd × Nat)) : (s.readErrors w l).2.mem = s.mem := by
  unfold State.readErrors
  grind [!State.takeFlaws_keepsMem, !State.meetFrame_keepsMem]

end Sys2Proof.Machine
end

section
/-! What the functions of Sys2Proof/Machine/QueuePair.lean leave of memory at home. -/

namespace Sys2Proof.Machine

set_option Elab.async false

theorem State.ringPost_keepsMem (s : State) (unit tag die desc esz : Nat) (entry : List Byte) :
    (s.ringPost unit tag die desc esz entry).1.mem = s.mem := by
  unfold State.ringPost
  refine andThen_mem_eq (s.hwLoad_keepsMem ..) fun t d ht => ?_
  dsimp only
  split
  · exact ht
  · refine andThen_mem_eq ((t.locate_keepsMem ..).trans ht) fun t _ ht => ?_
    refine andThen_mem_eq ((t.hwStore_keepsMem ..).trans ht) fun t i ht => ?_
    refine andThen_mem_eq ((t.hwStore_keepsMem ..).trans ht) fun t j ht => ?_
    grind [foldl_mem_or, !State.notBefore_keepsMem]

theorem State.qpPut_keepsMem (s : State) (qpn off : Nat) (bs : List Byte) : (s.qpPut qpn off bs).mem = s.mem := by
  unfold State.qpPut
  grind [!State.physStore_keepsMem]

theorem State.qpSetState_keepsMem (s : State) (qpn st : Nat) : (s.qpSetState qpn st).mem = s.mem := by
  unfold State.qpSetState
  grind [!State.qpPut_keepsMem]

theorem State.qpCompleteLoop_keepsMem (qpn a1 : Nat) (a2 : State) : (State.qpCompleteLoop qpn a1 a2).mem = a2.mem := by
  fun_induction State.qpCompleteLoop <;> grind [!State.modQp_mem, !State.ringPost_keepsMem]

theorem State.qpComplete_keepsMem (s : State) (qpn : Nat) : (s.qpComplete qpn).mem = s.mem := by
  unfold State.qpComplete
  grind [!State.qpCompleteLoop_keepsMem]

theorem State.qpError_keepsMem (s : State) (qpn : Nat) (fail : Option (Nat × Nat)) : (s.qpError qpn fail).mem = s.mem := by
  unfold State.qpError
  grind [!State.modQp_mem, !State.qpSetState_keepsMem, !State.qpPut_keepsMem, !State.qpComplete_keepsMem]

end Sys2Proof.Machine
end

section
/-! What the functions of Sys2Proof/Machine/FirstTouch.lean leave of memory at home. -/

namespace Sys2Proof.Machine

set_option Elab.async false

theorem State.ftAt_keepsMem (s : State) (die tag kind va : Nat) : (s.ftAt die tag kind va).1.mem = s.mem := by
  unfold State.ftAt
  grind [!andThen_cases, !State.atHome_keepsMem, !State.translateNoFt_keepsMem]

theorem State.ftLoad_keepsMem (s : State) (die tag va n : Nat) : (s.ftLoad die tag va n).1.mem = s.mem := by
  unfold State.ftLoad
  grind [!andThen_cases, !State.ftAt_keepsMem]

theorem State.ftPut_keepsMem (s : State) (tag : Nat) (x : Nat × Word64) (v : Nat) : (s.ftPut tag x v).mem = s.mem := by
  unfold State.ftPut
  grind [!State.writeHome_keepsMem]

theorem State.takeRing_keepsMem (die tag blk size fuel : Nat) (s : State) :
    (State.takeRing die tag blk size fuel s).1.mem = s.mem := by
  induction fuel generalizing s with
  | zero => rfl
  | succ fuel ih =>
    rw [State.takeRing]
    refine andThen_mem_eq (s.ftLoad_keepsMem ..) fun t tail ht => ?_
    refine andThen_mem_eq ((t.ftLoad_keepsMem ..).trans ht) fun t base ht => ?_
    refine andThen_mem_eq ((t.ftLoad_keepsMem ..).trans ht) fun t lg ht => ?_
    refine andThen_mem_eq ((t.ftAt_keepsMem ..).trans ht) fun t h ht => ?_
    dsimp only
    split
    · exact ht
    · refine andThen_mem_eq ((t.ftLoad_keepsMem ..).trans ht) fun t fr ht => ?_
      grind [!State.ftPut_keepsMem]

theorem State.wantRefill_keepsMem (s : State) (die tag blk ring : Nat) : (s.wantRefill die tag blk ring).1.mem = s.mem := by
  unfold State.wantRefill
  grind [!State.post_mem, !andThen_cases, !State.ftLoad_keepsMem, !State.ftAt_keepsMem]

theorem State.takeFrame_keepsMem (s : State) (die tag ring size : Nat) : (s.takeFrame die tag ring size).1.mem = s.mem := by
  unfold State.takeFrame
  grind [!State.waited_keepsMem, !State.takeRing_keepsMem, !andThen_cases, !State.ftPut_keepsMem, !State.ftAt_keepsMem,
    !State.wantRefill_keepsMem]

theorem State.keepFrame_keepsMem (s : State) (die tag ring fr : Nat) : (s.keepFrame die tag ring fr).1.mem = s.mem := by
  unfold State.keepFrame
  grind [!State.waited_keepsMem, !State.ftPut_keepsMem, !State.faultLater_keepsMem, !State.ftAt_keepsMem]

theorem State.serveTouch_keepsMem (s : State) (t : Touch) : (s.serveTouch t).mem = s.mem := by
  unfold State.serveTouch
  grind [!State.setEntry_keepsMem, !State.dropAnswers_keepsMem, !State.meetErrors_keepsMem, !State.keepFrame_keepsMem,
    !State.takeFrame_keepsMem, !State.faultLater_keepsMem]

end Sys2Proof.Machine
end

section
/-! What the functions of Sys2Proof/Machine/Ops.lean leave of memory at home. -/

namespace Sys2Proof.Machine

set_option Elab.async false

theorem State.setCtx_keepsMem (s : State) (tag : Nat) (st : CtxState) : (s.setCtx tag st).mem = s.mem := by
  unfold State.setCtx
  grind [!State.physStore_keepsMem, !State.modCtx_mem]

theorem State.descStore_keepsMem (s : State) (tag va : Nat) (bs : List Byte) : (s.descStore tag va bs).mem = s.mem := by
  unfold State.descStore
  grind [!State.translate_keepsMem, !State.meetErrors_keepsMem, !State.writeHome_keepsMem, !State.faultLater_keepsMem]

theorem State.setQueue_keepsMem (s : State) (tag q : Nat) (st : QState) : (s.setQueue tag q st).mem = s.mem := by
  unfold State.setQueue
  grind [!State.descStore_keepsMem]

theorem State.stopQueue_keepsMem (s : State) (tag q err : Nat) : (s.stopQueue tag q err).mem = s.mem := by
  unfold State.stopQueue
  grind [!State.post_mem, !State.setQueue_keepsMem, !State.descStore_keepsMem]

theorem State.freeSlots_keepsMem (s : State) (tag : Nat) (gone : Bool) : (s.freeSlots tag gone).mem = s.mem := by
  unfold State.freeSlots
  grind [!State.setQueue_keepsMem, foldl_mem_or, foldl_fst_mem_or, foldl_snd_mem_or]

theorem State.modDbg_keepsMem (s : State) (core : Nat) (f : DbgCore → DbgCore) : (s.modDbg core f).mem = s.mem := rfl

theorem State.cancelStop_keepsMem (s : State) (id : WaveId) : (s.cancelStop id).mem = s.mem := rfl

theorem State.leaveSlot_keepsMem (s : State) (id : WaveId) : (s.leaveSlot id).mem = s.mem := rfl

theorem State.keepInvals_keepsMem (s : State) (l : List Wave) : (s.keepInvals l).mem = s.mem := rfl

theorem State.dropCords_keepsMem (s : State) (tag : Nat) : (s.dropCords tag).mem = s.mem := by
  unfold State.dropCords
  grind [!State.leaveSlot_keepsMem, !State.keepInvals_keepsMem, foldl_mem_or, foldl_fst_mem_or, foldl_snd_mem_or]

theorem State.dropRecords_keepsMem (s : State) (tag : Nat) : (s.dropRecords tag).mem = s.mem := by
  unfold State.dropRecords
  grind [!State.keepInvals_keepsMem, !State.modCtx_mem]

theorem State.endTenures_keepsMem (s : State) (tag : Nat) : (s.endTenures tag).mem = s.mem := by
  unfold State.endTenures
  grind [!State.endTenure_keepsMem, foldl_mem_or, foldl_fst_mem_or, foldl_snd_mem_or]

theorem State.ctxFaulted_keepsMem (s : State) (tag reason : Nat) : (s.ctxFaulted tag reason).mem = s.mem := by
  unfold State.ctxFaulted
  grind [!State.post_mem, !State.qpError_keepsMem, !State.dropCords_keepsMem, !State.dropRecords_keepsMem, !State.modCtx_mem,
    !State.endTenures_keepsMem, !State.setCtx_keepsMem, !State.freeSlots_keepsMem, foldl_mem_or, foldl_fst_mem_or,
    foldl_snd_mem_or]

theorem State.ctxFault_keepsMem (s : State) (tag reason : Nat) : (s.ctxFault tag reason).mem = s.mem := by
  unfold State.ctxFault
  grind [!State.ctxFaulted_keepsMem]

theorem State.stall_keepsMem (s : State) : Out.memIs s.mem (s.stall) := rfl

theorem State.finish_keepsMem (s : State) (f : Fields) (up : Wave → Wave) : Out.memIs s.mem (s.finish f up) := rfl

theorem State.wavePut_keepsMem (s : State) (id : WaveId) (via : List (Nat × Word64)) (cells : List Host.Cell) (hint : Nat)
    (rel : Option Release) :
    (s.wavePut id via cells hint rel).mem = s.mem := by
  unfold State.wavePut
  grind [!State.putDirty_keepsMem, !State.newWrite_keepsMem, !State.modWrite_mem, !State.holdLine_keepsMem, foldl_mem_or,
    foldl_fst_mem_or, foldl_snd_mem_or]

theorem State.useLines_keepsMem (s : State) (core sec hint : Nat) (cache : CacheMode) :
    (s.useLines core sec hint cache).mem = s.mem := by
  unfold State.useLines
  grind [!State.useL2_keepsMem, !State.useL1_keepsMem]

theorem accAt_fst {α : Type} (va : Nat) (r : State × Acc α) : (accAt va r).1 = r.1 := by
  unfold accAt
  split <;> rfl

theorem State.waveStoreRel_keepsMem (s : State) (w : Wave) (sup : Bool) (va : Nat) (bs : List Byte) (hint : Nat)
    (rel : Option Release) :
    (s.waveStoreRel w sup va bs hint rel).1.mem = s.mem := by
  unfold State.waveStoreRel
  grind [!State.locate_keepsMem, !accAt_fst, !State.useLines_keepsMem, !andThen_cases, !State.wavePut_keepsMem, foldl_mem_or,
    foldl_fst_mem_or, foldl_snd_mem_or]

theorem State.waveStore_keepsMem (s : State) (w : Wave) (sup : Bool) (va : Nat) (bs : List Byte) :
    (s.waveStore w sup va bs).1.mem = s.mem := by
  unfold State.waveStore
  grind [!State.waveStoreRel_keepsMem]

theorem State.fetchLine_keepsMem (s : State) (core tag va pa : Nat) (e : Word64) (lvl : Nat) :
    (s.fetchLine core tag va pa e lvl).mem = s.mem := by
  unfold State.fetchLine
  grind [!State.grantLease_keepsMem, !State.holdLine_keepsMem]

theorem State.loadPiece_keepsMem (s : State) (w : Wave) (va pa n : Nat) (e : Word64) (hint : Nat) :
    (s.loadPiece w va pa n e hint).2.mem = s.mem := by
  unfold State.loadPiece
  grind [!State.contend_keepsMem, !State.useL2_keepsMem, !State.modWave_mem, !State.useL1_keepsMem, !State.fetchLine_keepsMem]

theorem State.waveLoad_keepsMem (s : State) (w : Wave) (sup : Bool) (va n hint : Nat) :
    (s.waveLoad w sup va n hint).1.mem = s.mem := by
  unfold State.waveLoad
  grind [!State.locate_keepsMem, !accAt_fst, !State.loadPiece_keepsMem, !andThen_cases, foldl_mem_or, foldl_fst_mem_or,
    foldl_snd_mem_or]

/-- A trap leaves memory, or ends as the change that comes with it in a state of the same memory. -/
theorem State.trapWith_cases (s : State) (cause : Nat) (mask : Mask) (info : Word64) (up : State → State) :
    Out.memIs s.mem (s.trapWith cause mask info up) ∨ ∃ t, t.mem = s.mem ∧ s.trapWith cause mask info up = .next (up t) := by
  unfold State.trapWith
  grind [Out.memIs, !State.readErrors_keepsMem, !State.ctxFault_keepsMem, !State.waveStore_keepsMem, !State.modMe_mem,
    !State.stall_keepsMem]

theorem State.trap_keepsMem (s : State) (cause : Nat) (mask : Mask) (info : Word64) : Out.memIs s.mem (s.trap cause mask info) := by
  unfold State.trap
  grind [!State.trapWith_cases, Out.memIs]

/-- What an access ends with leaves memory as the access did, or is what follows the access. -/
theorem State.take_cases {α : Type} (r : State × Acc α) (kind : Nat) (k : State → α → Out) :
    Out.memIs r.1.mem (State.take r kind k) ∨ ∃ a, r.2 = .ok a ∧ State.take r kind k = k r.1 a := by
  obtain ⟨t, a | _ | _ | _⟩ := r
  · exact .inr ⟨a, rfl, rfl⟩
  · exact .inl (t.trap_keepsMem ..)
  · exact .inl (t.ctxFault_keepsMem ..)
  · exact .inl t.stall_keepsMem

theorem take_memIs {α : Type} {r : State × Acc α} {kind : Nat} {k : State → α → Out} {m : List Host.Cell}
    (h : r.1.mem = m) (hk : ∀ t a, t.mem = m → Out.memIs m (k t a)) : Out.memIs m (State.take r kind k) := by
  subst h
  rcases State.take_cases r kind k with h | ⟨a, -, h⟩
  · exact h
  · exact h ▸ hk _ a rfl

theorem State.notReady_keepsMem (s : State) (c : Nat) (info : Word64) (mask : Mask) : Out.memIs s.mem (s.notReady c info mask) := by
  unfold State.notReady
  grind [!State.stall_keepsMem, !State.trapWith_cases, !State.modMe_mem, !State.trap_keepsMem, Out.memIs]

/-- An instruction whose checks fail leaves memory; otherwise its body runs in a state of the same memory. -/
theorem State.front_cases (s : State) (i : Instr) (f : Fields) (du : DUse) (always : Bool) (body : State → Wave → Out) :
    Out.memIs s.mem (s.front i f du always body) ∨
      ∃ t w, t.mem = s.mem ∧ s.front i f du always body = body t w := by
  unfold State.front
  grind [Out.memIs, !State.trap_keepsMem, !State.notReady_keepsMem, !State.stall_keepsMem, !State.readErrors_keepsMem,
    !State.ctxFault_keepsMem, !State.setMe_mem]

theorem front_memIs {s : State} {i : Instr} {f : Fields} {du : DUse} {always : Bool} {body : State → Wave → Out}
    (h : ∀ t w, t.mem = s.mem → Out.memIs s.mem (body t w)) : Out.memIs s.mem (s.front i f du always body) := by
  rcases State.front_cases s i f du always body with h' | ⟨t, w, ht, e⟩
  · exact h'
  · exact e ▸ h t w ht

theorem State.loseClocks_keepsMem (s : State) (dt rick : Nat) : (s.loseClocks dt rick).mem = s.mem := rfl

theorem State.pass_keepsMem (s : State) (dt : Nat) : (s.pass dt).mem = s.mem := by
  unfold State.pass
  grind [!State.loseClocks_keepsMem, foldl_mem_or, foldl_fst_mem_or, foldl_snd_mem_or]

end Sys2Proof.Machine
end

section
/-! What the functions of Sys2Proof/Machine/IntExec.lean leave of memory at home. -/

namespace Sys2Proof.Machine

set_option Elab.async false

theorem State.aluEnd_keepsMem (s : State) (f : Fields) (wide : Bool) (x : List Word64) : Out.memIs s.mem (s.aluEnd f wide x) := rfl

theorem State.vec1_keepsMem (s : State) (i : Instr) (f : Fields) (k : Feed) (dwide : Bool) (op : Word64 → Word64) :
    Out.memIs s.mem (s.vec1 i f k dwide op) := by
  unfold State.vec1
  grind [!State.front_cases, !State.aluEnd_keepsMem, Out.memIs]

theorem State.vec2_keepsMem (s : State) (i : Instr) (f : Fields) (k : Feed) (op : Word64 → Word64 → Word64) :
    Out.memIs s.mem (s.vec2 i f k op) := by
  unfold State.vec2
  grind [!State.front_cases, !State.aluEnd_keepsMem, Out.memIs]

theorem State.vec3_keepsMem (s : State) (i : Instr) (f : Fields) (k kc : Feed) (op : Word64 → Word64 → Word64 → Word64) :
    Out.memIs s.mem (s.vec3 i f k kc op) := by
  unfold State.vec3
  grind [!State.front_cases, !State.aluEnd_keepsMem, Out.memIs]

theorem State.scal2_keepsMem (s : State) (i : Instr) (f : Fields) (k : Feed) (op : Word64 → Word64 → Word64) :
    Out.memIs s.mem (s.scal2 i f k op) := by
  unfold State.scal2
  grind [!State.finish_keepsMem, !State.front_cases, Out.memIs]

theorem State.scal1_keepsMem (s : State) (i : Instr) (f : Fields) (k : Feed) (op : Word64 → Word64) :
    Out.memIs s.mem (s.scal1 i f k op) := by
  unfold State.scal1
  grind [!State.finish_keepsMem, !State.front_cases, Out.memIs]

theorem execSAdd_keepsMem (f : Fields) (s : State) : Out.memIs s.mem (execSAdd f s) := by
  unfold execSAdd
  grind [!State.scal2_keepsMem, Out.memIs]

theorem execSSub_keepsMem (f : Fields) (s : State) : Out.memIs s.mem (execSSub f s) := by
  unfold execSSub
  grind [!State.scal2_keepsMem, Out.memIs]

theorem execSMul_keepsMem (f : Fields) (s : State) : Out.memIs s.mem (execSMul f s) := by
  unfold execSMul
  grind [!State.scal2_keepsMem, Out.memIs]

theorem execSMulh_keepsMem (f : Fields) (s : State) : Out.memIs s.mem (execSMulh f s) := by
  unfold execSMulh
  grind [!State.scal2_keepsMem, Out.memIs]

theorem execSAnd_keepsMem (f : Fields) (s : State) : Out.memIs s.mem (execSAnd f s) := by
  unfold execSAnd
  grind [!State.scal2_keepsMem, Out.memIs]

theorem execSOr_keepsMem (f : Fields) (s : State) : Out.memIs s.mem (execSOr f s) := by
  unfold execSOr
  grind [!State.scal2_keepsMem, Out.memIs]

theorem execSXor_keepsMem (f : Fields) (s : State) : Out.memIs s.mem (execSXor f s) := by
  unfold execSXor
  grind [!State.scal2_keepsMem, Out.memIs]

theorem execSAndn_keepsMem (f : Fields) (s : State) : Out.memIs s.mem (execSAndn f s) := by
  unfold execSAndn
  grind [!State.scal2_keepsMem, Out.memIs]

theorem execSShl_keepsMem (f : Fields) (s : State) : Out.memIs s.mem (execSShl f s) := by
  unfold execSShl
  grind [!State.scal2_keepsMem, Out.memIs]

theorem execSShr_keepsMem (f : Fields) (s : State) : Out.memIs s.mem (execSShr f s) := by
  unfold execSShr
  grind [!State.scal2_keepsMem, Out.memIs]

theorem execSSar_keepsMem (f : Fields) (s : State) : Out.memIs s.mem (execSSar f s) := by
  unfold execSSar
  grind [!State.scal2_keepsMem, Out.memIs]

theorem execSRot_keepsMem (f : Fields) (s : State) : Out.memIs s.mem (execSRot f s) := by
  unfold execSRot
  grind [!State.scal2_keepsMem, Out.memIs]

theorem execSMin_keepsMem (f : Fields) (s : State) : Out.memIs s.mem (execSMin f s) := by
  unfold execSMin
  grind [!State.scal2_keepsMem, Out.memIs]

theorem execSMax_keepsMem (f : Fields) (s : State) : Out.memIs s.mem (execSMax f s) := by
  unfold execSMax
  grind [!State.scal2_keepsMem, Out.memIs]

theorem execVAdd_keepsMem (f : Fields) (s : State) : Out.memIs s.mem (execVAdd f s) := by
  unfold execVAdd
  grind [!State.vec2_keepsMem, Out.memIs]

theorem execVSub_keepsMem (f : Fields) (s : State) : Out.memIs s.mem (execVSub f s) := by
  unfold execVSub
  grind [!State.vec2_keepsMem, Out.memIs]

theorem execVMul_keepsMem (f : Fields) (s : State) : Out.memIs s.mem (execVMul f s) := by
  unfold execVMul
  grind [!State.vec2_keepsMem, Out.memIs]

theorem execVMulh_keepsMem (f : Fields) (s : State) : Out.memIs s.mem (execVMulh f s) := by
  unfold execVMulh
  grind [!State.vec2_keepsMem, Out.memIs]

theorem execVAnd_keepsMem (f : Fields) (s : State) : Out.memIs s.mem (execVAnd f s) := by
  unfold execVAnd
  grind [!State.vec2_keepsMem, Out.memIs]

theorem execVOr_keepsMem (f : Fields) (s : State) : Out.memIs s.mem (execVOr f s) := by
  unfold execVOr
  grind [!State.vec2_keepsMem, Out.memIs]

theorem execVXor_keepsMem (f : Fields) (s : State) : Out.memIs s.mem (execVXor f s) := by
  unfold execVXor
  grind [!State.vec2_keepsMem, Out.memIs]

theorem execVAndn_keepsMem (f : Fields) (s : State) : Out.memIs s.mem (execVAndn f s) := by
  unfold execVAndn
  grind [!State.vec2_keepsMem, Out.memIs]

theorem execVShl_keepsMem (f : Fields) (s : State) : Out.memIs s.mem (execVShl f s) := by
  unfold execVShl
  grind [!State.vec2_keepsMem, Out.memIs]

theorem execVShr_keepsMem (f : Fields) (s : State) : Out.memIs s.mem (execVShr f s) := by
  unfold execVShr
  grind [!State.vec2_keepsMem, Out.memIs]

theorem execVSar_keepsMem (f : Fields) (s : State) : Out.memIs s.mem (execVSar f s) := by
  unfold execVSar
  grind [!State.vec2_keepsMem, Out.memIs]

theorem execVRot_keepsMem (f : Fields) (s : State) : Out.memIs s.mem (execVRot f s) := by
  unfold execVRot
  grind [!State.vec2_keepsMem, Out.memIs]

theorem execVMin_keepsMem (f : Fields) (s : State) : Out.memIs s.mem (execVMin f s) := by
  unfold execVMin
  grind [!State.vec2_keepsMem, Out.memIs]

theorem execVMax_keepsMem (f : Fields) (s : State) : Out.memIs s.mem (execVMax f s) := by
  unfold execVMax
  grind [!State.vec2_keepsMem, Out.memIs]

theorem execMad_keepsMem (f : Fields) (s : State) : Out.memIs s.mem (execMad f s) := by
  unfold execMad
  grind [!State.vec3_keepsMem, Out.memIs]

theorem execMadw_keepsMem (f : Fields) (s : State) : Out.memIs s.mem (execMadw f s) := by
  unfold execMadw
  grind [!State.vec3_keepsMem, Out.memIs]

theorem execVAdd64_keepsMem (f : Fields) (s : State) : Out.memIs s.mem (execVAdd64 f s) := by
  unfold execVAdd64
  grind [!State.vec2_keepsMem, Out.memIs]

theorem execSAdd64_keepsMem (f : Fields) (s : State) : Out.memIs s.mem (execSAdd64 f s) := by
  unfold execSAdd64
  grind [!State.scal2_keepsMem, Out.memIs]

theorem execVAbs_keepsMem (f : Fields) (s : State) : Out.memIs s.mem (execVAbs f s) := by
  unfold execVAbs
  grind [!State.vec1_keepsMem, Out.memIs]

theorem execSCmp_keepsMem (f : Fields) (s : State) : Out.memIs s.mem (execSCmp f s) := by
  unfold execSCmp
  grind [!State.finish_keepsMem, !State.front_cases, Out.memIs]

theorem execVCmp_keepsMem (f : Fields) (s : State) : Out.memIs s.mem (execVCmp f s) := by
  unfold execVCmp
  grind [!State.finish_keepsMem, !State.front_cases, Out.memIs]

theorem execVSel_keepsMem (f : Fields) (s : State) : Out.memIs s.mem (execVSel f s) := by
  unfold execVSel
  grind [!State.front_cases, !State.aluEnd_keepsMem, Out.memIs]

theorem execSSel_keepsMem (f : Fields) (s : State) : Out.memIs s.mem (execSSel f s) := by
  unfold execSSel
  grind [!State.finish_keepsMem, !State.front_cases, Out.memIs]

theorem execSMov_keepsMem (f : Fields) (s : State) : Out.memIs s.mem (execSMov f s) := by
  unfold execSMov
  grind [!State.scal1_keepsMem, Out.memIs]

theorem execSMovi_keepsMem (f : Fields) (s : State) : Out.memIs s.mem (execSMovi f s) := by
  unfold execSMovi
  grind [!State.finish_keepsMem, !State.front_cases, Out.memIs]

theorem execVBfe_keepsMem (f : Fields) (s : State) : Out.memIs s.mem (execVBfe f s) := by
  unfold execVBfe
  grind [!State.vec2_keepsMem, Out.memIs]

theorem execSBfe_keepsMem (f : Fields) (s : State) : Out.memIs s.mem (execSBfe f s) := by
  unfold execSBfe
  grind [!State.scal2_keepsMem, Out.memIs]

theorem execVBfi_keepsMem (f : Fields) (s : State) : Out.memIs s.mem (execVBfi f s) := by
  unfold execVBfi
  grind [!State.vec3_keepsMem, Out.memIs]

theorem execSBfi_keepsMem (f : Fields) (s : State) : Out.memIs s.mem (execSBfi f s) := by
  unfold execSBfi
  grind [!State.finish_keepsMem, !State.front_cases, Out.memIs]

theorem execVPopc_keepsMem (f : Fields) (s : State) : Out.memIs s.mem (execVPopc f s) := by
  unfold execVPopc
  grind [!State.vec1_keepsMem, Out.memIs]

theorem execVClz_keepsMem (f : Fields) (s : State) : Out.memIs s.mem (execVClz f s) := by
  unfold execVClz
  grind [!State.vec1_keepsMem, Out.memIs]

theorem execVBrev_keepsMem (f : Fields) (s : State) : Out.memIs s.mem (execVBrev f s) := by
  unfold execVBrev
  grind [!State.vec1_keepsMem, Out.memIs]

theorem execSPopc_keepsMem (f : Fields) (s : State) : Out.memIs s.mem (execSPopc f s) := by
  unfold execSPopc
  grind [!State.scal1_keepsMem, Out.memIs]

theorem execSClz_keepsMem (f : Fields) (s : State) : Out.memIs s.mem (execSClz f s) := by
  unfold execSClz
  grind [!State.scal1_keepsMem, Out.memIs]

theorem execCLop_keepsMem (f : Fields) (s : State) : Out.memIs s.mem (execCLop f s) := by
  unfold execCLop
  grind [!State.finish_keepsMem, !State.front_cases, Out.memIs]

theorem execPrmt_keepsMem (f : Fields) (s : State) : Out.memIs s.mem (execPrmt f s) := by
  unfold execPrmt
  grind [!State.front_cases, !State.aluEnd_keepsMem, Out.memIs]

theorem execDot4_keepsMem (f : Fields) (s : State) : Out.memIs s.mem (execDot4 f s) := by
  unfold execDot4
  grind [!State.vec3_keepsMem, Out.memIs]

theorem State.shfl_keepsMem (s : State) (i : Instr) (f : Fields) (pick : Nat → Nat → ℤ) : Out.memIs s.mem (s.shfl i f pick) := by
  unfold State.shfl
  grind [!State.front_cases, !State.aluEnd_keepsMem, Out.memIs]

theorem execShflIdx_keepsMem (f : Fields) (s : State) : Out.memIs s.mem (execShflIdx f s) := by
  unfold execShflIdx
  grind [!State.shfl_keepsMem, Out.memIs]

theorem execShflXor_keepsMem (f : Fields) (s : State) : Out.memIs s.mem (execShflXor f s) := by
  unfold execShflXor
  grind [!State.shfl_keepsMem, Out.memIs]

theorem execShflUp_keepsMem (f : Fields) (s : State) : Out.memIs s.mem (execShflUp f s) := by
  unfold execShflUp
  grind [!State.shfl_keepsMem, Out.memIs]

theorem execShflDown_keepsMem (f : Fields) (s : State) : Out.memIs s.mem (execShflDown f s) := by
  unfold execShflDown
  grind [!State.shfl_keepsMem, Out.memIs]

theorem execRdlane_keepsMem (f : Fields) (s : State) : Out.memIs s.mem (execRdlane f s) := by
  unfold execRdlane
  grind [!State.finish_keepsMem, !State.front_cases, Out.memIs]

theorem execWrlane_keepsMem (f : Fields) (s : State) : Out.memIs s.mem (execWrlane f s) := by
  unfold execWrlane
  grind [!State.finish_keepsMem, !State.front_cases, Out.memIs]

theorem execMatchLanes_keepsMem (f : Fields) (s : State) : Out.memIs s.mem (execMatchLanes f s) := by
  unfold execMatchLanes
  grind [!State.front_cases, !State.aluEnd_keepsMem, Out.memIs]

theorem execRedux_keepsMem (f : Fields) (s : State) : Out.memIs s.mem (execRedux f s) := by
  unfold execRedux
  grind [!State.finish_keepsMem, !State.front_cases, Out.memIs]

theorem execScan_keepsMem (f : Fields) (s : State) : Out.memIs s.mem (execScan f s) := by
  unfold execScan
  grind [!State.front_cases, !State.aluEnd_keepsMem, Out.memIs]

end Sys2Proof.Machine
end

section
/-! What the functions of Sys2Proof/Machine/FloatExec.lean leave of memory at home. -/

namespace Sys2Proof.Machine

set_option Elab.async false

theorem State.fpEnd_keepsMem (s : State) (f : Fields) (wide : Bool) (r : List (Word64 × FFlags)) :
    Out.memIs s.mem (s.fpEnd f wide r) := rfl

theorem State.fp1_keepsMem (s : State) (i : Instr) (f : Fields) (k : Feed) (dwide : Bool) (op : Word64 → Word64 × FFlags) :
    Out.memIs s.mem (s.fp1 i f k dwide op) := by
  unfold State.fp1
  grind [!State.front_cases, !State.fpEnd_keepsMem, Out.memIs]

theorem State.fp2_keepsMem (s : State) (i : Instr) (f : Fields) (fm : FFmt) (op : Word64 → Word64 → Word64 × FFlags) :
    Out.memIs s.mem (s.fp2 i f fm op) := by
  unfold State.fp2
  grind [!State.front_cases, !State.fpEnd_keepsMem, Out.memIs]

theorem State.fp3_keepsMem (s : State) (i : Instr) (f : Fields) (k kc : Feed) (op : Word64 → Word64 → Word64 → Word64 × FFlags) :
    Out.memIs s.mem (s.fp3 i f k kc op) := by
  unfold State.fp3
  grind [!State.front_cases, !State.fpEnd_keepsMem, Out.memIs]

theorem State.fpCompare_keepsMem (s : State) (i : Instr) (f : Fields) (fm : FFmt) : Out.memIs s.mem (s.fpCompare i f fm) := by
  unfold State.fpCompare
  grind [!State.finish_keepsMem, !State.front_cases, Out.memIs]

theorem State.startFill_keepsMem (s : State) (w : Wave) (f : Fields) (data : List Lanes) (fl : FFlags) :
    Out.memIs s.mem (s.startFill w f data fl) := by
  unfold State.startFill
  grind [State.finish_memIs]

theorem State.sfu_keepsMem (s : State) (i : Instr) (f : Fields) (op : Word64 → Word64 × FFlags) :
    Out.memIs s.mem (s.sfu i f op) := by
  unfold State.sfu
  grind [!State.front_cases, !State.startFill_keepsMem, Out.memIs]

theorem execFadd_keepsMem (f : Fields) (s : State) : Out.memIs s.mem (execFadd f s) := by
  unfold execFadd
  grind [!State.fp2_keepsMem, Out.memIs]

theorem execFsub_keepsMem (f : Fields) (s : State) : Out.memIs s.mem (execFsub f s) := by
  unfold execFsub
  grind [!State.fp2_keepsMem, Out.memIs]

theorem execFmul_keepsMem (f : Fields) (s : State) : Out.memIs s.mem (execFmul f s) := by
  unfold execFmul
  grind [!State.fp2_keepsMem, Out.memIs]

theorem execFfma_keepsMem (f : Fields) (s : State) : Out.memIs s.mem (execFfma f s) := by
  unfold execFfma
  grind [!State.fp3_keepsMem, Out.memIs]

theorem execFmin_keepsMem (f : Fields) (s : State) : Out.memIs s.mem (execFmin f s) := by
  unfold execFmin
  grind [!State.fp2_keepsMem, Out.memIs]

theorem execFmax_keepsMem (f : Fields) (s : State) : Out.memIs s.mem (execFmax f s) := by
  unfold execFmax
  grind [!State.fp2_keepsMem, Out.memIs]

theorem execFcmp_keepsMem (f : Fields) (s : State) : Out.memIs s.mem (execFcmp f s) := by
  unfold execFcmp
  grind [!State.fpCompare_keepsMem, Out.memIs]

theorem execFclass_keepsMem (f : Fields) (s : State) : Out.memIs s.mem (execFclass f s) := by
  unfold execFclass
  grind [!State.fp1_keepsMem, Out.memIs]

theorem execFrnd_keepsMem (f : Fields) (s : State) : Out.memIs s.mem (execFrnd f s) := by
  unfold execFrnd
  grind [!State.fp1_keepsMem, Out.memIs]

theorem execDadd_keepsMem (f : Fields) (s : State) : Out.memIs s.mem (execDadd f s) := by
  unfold execDadd
  grind [!State.fp2_keepsMem, Out.memIs]

theorem execDmul_keepsMem (f : Fields) (s : State) : Out.memIs s.mem (execDmul f s) := by
  unfold execDmul
  grind [!State.fp2_keepsMem, Out.memIs]

theorem execDfma_keepsMem (f : Fields) (s : State) : Out.memIs s.mem (execDfma f s) := by
  unfold execDfma
  grind [!State.fp3_keepsMem, Out.memIs]

theorem execDcmp_keepsMem (f : Fields) (s : State) : Out.memIs s.mem (execDcmp f s) := by
  unfold execDcmp
  grind [!State.fpCompare_keepsMem, Out.memIs]

theorem execDminmax_keepsMem (f : Fields) (s : State) : Out.memIs s.mem (execDminmax f s) := by
  unfold execDminmax
  grind [!State.fp2_keepsMem, Out.memIs]

theorem execFcvt_keepsMem (f : Fields) (s : State) : Out.memIs s.mem (execFcvt f s) := by
  unfold execFcvt
  grind [!State.front_cases, !State.modMe_mem, !State.fpEnd_keepsMem, Out.memIs]

theorem execF2i_keepsMem (f : Fields) (s : State) : Out.memIs s.mem (execF2i f s) := by
  unfold execF2i
  grind [!State.fp1_keepsMem, Out.memIs]

theorem execI2f_keepsMem (f : Fields) (s : State) : Out.memIs s.mem (execI2f f s) := by
  unfold execI2f
  grind [!State.front_cases, !State.fpEnd_keepsMem, Out.memIs]

theorem execFldexp_keepsMem (f : Fields) (s : State) : Out.memIs s.mem (execFldexp f s) := by
  unfold execFldexp
  grind [!State.front_cases, !State.fpEnd_keepsMem, Out.memIs]

theorem execFfrexp_keepsMem (f : Fields) (s : State) : Out.memIs s.mem (execFfrexp f s) := by
  unfold execFfrexp
  grind [!State.fp1_keepsMem, Out.memIs]

theorem execFqni_keepsMem (f : Fields) (s : State) : Out.memIs s.mem (execFqni f s) := by
  unfold execFqni
  grind [!State.front_cases, !State.modMe_mem, !State.fpEnd_keepsMem, Out.memIs]

theorem execFdqni_keepsMem (f : Fields) (s : State) : Out.memIs s.mem (execFdqni f s) := by
  unfold execFdqni
  grind [!State.front_cases, !State.fpEnd_keepsMem, Out.memIs]

theorem execFexp2f_keepsMem (f : Fields) (s : State) : Out.memIs s.mem (execFexp2f f s) := by
  unfold execFexp2f
  grind [!State.sfu_keepsMem, Out.memIs]

theorem execFlog2_keepsMem (f : Fields) (s : State) : Out.memIs s.mem (execFlog2 f s) := by
  unfold execFlog2
  grind [!State.sfu_keepsMem, Out.memIs]

theorem execFrcp_keepsMem (f : Fields) (s : State) : Out.memIs s.mem (execFrcp f s) := by
  unfold execFrcp
  grind [!State.sfu_keepsMem, Out.memIs]

theorem execFrsq_keepsMem (f : Fields) (s : State) : Out.memIs s.mem (execFrsq f s) := by
  unfold execFrsq
  grind [!State.sfu_keepsMem, Out.memIs]

theorem execFsqrt_keepsMem (f : Fields) (s : State) : Out.memIs s.mem (execFsqrt f s) := by
  unfold execFsqrt
  grind [!State.sfu_keepsMem, Out.memIs]

theorem execFsinr_keepsMem (f : Fields) (s : State) : Out.memIs s.mem (execFsinr f s) := by
  unfold execFsinr
  grind [!State.sfu_keepsMem, Out.memIs]

theorem execFcosr_keepsMem (f : Fields) (s : State) : Out.memIs s.mem (execFcosr f s) := by
  unfold execFcosr
  grind [!State.sfu_keepsMem, Out.memIs]

theorem execFdot2_keepsMem (f : Fields) (s : State) : Out.memIs s.mem (execFdot2 f s) := by
  unfold execFdot2
  grind [!State.fp3_keepsMem, Out.memIs]

theorem execReduxF_keepsMem (f : Fields) (s : State) : Out.memIs s.mem (execReduxF f s) := by
  unfold execReduxF
  grind [!State.finish_keepsMem, !State.front_cases, Out.memIs]

theorem execXaAdd_keepsMem (f : Fields) (s : State) : Out.memIs s.mem (execXaAdd f s) := by
  unfold execXaAdd
  grind [!State.finish_keepsMem, !State.front_cases, Out.memIs]

theorem execXaRnd_keepsMem (f : Fields) (s : State) : Out.memIs s.mem (execXaRnd f s) := by
  unfold execXaRnd
  grind [!State.front_cases, !State.fpEnd_keepsMem, Out.memIs]

end Sys2Proof.Machine
end

section
/-! What the functions of Sys2Proof/Machine/Pair.lean leave of memory at home. -/

namespace Sys2Proof.Machine

set_option Elab.async false

theorem execPair_keepsMem (p : PairFields) (s : State) : Out.memIs s.mem (execPair p s) := by
  unfold execPair
  grind [!State.ctxFault_keepsMem, !State.stall_keepsMem, !State.readErrors_keepsMem, !State.setMe_mem, !State.notReady_keepsMem,
    !State.trap_keepsMem, Out.memIs]

end Sys2Proof.Machine
end

section
/-! What the functions of Sys2Proof/Machine/Fetch.lean leave of memory at home. -/

namespace Sys2Proof.Machine

set_option Elab.async false

theorem State.meetBlock_keepsMem (s : State) (w : Wave) (va : Word64) : (s.meetBlock w va).mem = s.mem := by
  unfold State.meetBlock
  grind [!State.takeFlaws_keepsMem]

/-- A fetch that fails leaves memory; otherwise what follows runs in a state of the same memory. -/
theorem State.fetch_cases (s : State) (w : Wave) (k : State → List Byte → Out) :
    Out.memIs s.mem (s.fetch w k) ∨ ∃ t bs, t.mem = s.mem ∧ s.fetch w k = k t bs := by
  unfold State.fetch
  grind [Out.memIs, !State.meetBlock_keepsMem, !State.translate_keepsMem, !State.trap_keepsMem, !State.ctxFault_keepsMem,
    !State.stall_keepsMem, !State.meetErrors_keepsMem, !State.fillBlock_mem]

end Sys2Proof.Machine
end

section
/-! What the functions of Sys2Proof/Machine/WaveCtl.lean leave of memory at home. -/

namespace Sys2Proof.Machine

set_option Elab.async false

theorem execNop_keepsMem (f : Fields) (s : State) : Out.memIs s.mem (execNop f s) := by
  unfold execNop
  grind [!State.finish_keepsMem, !State.front_cases, Out.memIs]

theorem execTrap_keepsMem (f : Fields) (s : State) : Out.memIs s.mem (execTrap f s) := by
  unfold execTrap
  grind [!State.front_cases, !State.trap_keepsMem, Out.memIs]

theorem execTret_keepsMem (f : Fields) (s : State) : Out.memIs s.mem (execTret f s) := by
  unfold execTret
  grind [!State.waveLoad_keepsMem, !State.take_cases, !State.front_cases, !State.modMe_mem, Out.memIs]

theorem execSysRd_keepsMem (f : Fields) (s : State) : Out.memIs s.mem (execSysRd f s) := by
  unfold execSysRd
  grind [!State.ctxFault_keepsMem, !State.stall_keepsMem, !State.finish_keepsMem, !State.front_cases, !State.meetFrame_keepsMem,
    Out.memIs]

theorem execSysWr_keepsMem (f : Fields) (s : State) : Out.memIs s.mem (execSysWr f s) := by
  unfold execSysWr
  grind [!State.stall_keepsMem, !State.waveStore_keepsMem, !State.finish_keepsMem, !State.take_cases, !State.front_cases,
    !State.modCtx_mem, Out.memIs]

theorem execUpcall_keepsMem (f : Fields) (s : State) : Out.memIs s.mem (execUpcall f s) := by
  unfold execUpcall
  grind [!State.post_mem, !State.stall_keepsMem, !State.locate_keepsMem, !State.take_cases, !State.front_cases,
    !State.storePieces_keepsMem, !State.modMe_mem, !State.modCtx_mem, Out.memIs]

theorem execSleep_keepsMem (f : Fields) (s : State) : Out.memIs s.mem (execSleep f s) := by
  unfold execSleep
  grind [!State.finish_keepsMem, !State.front_cases, !State.modMe_mem, Out.memIs]

theorem State.jump_keepsMem (s : State) (t : Word64) (up : Wave → Wave) : Out.memIs s.mem (s.jump t up) := by
  unfold State.jump
  grind [!State.modMe_mem, !State.trap_keepsMem, Out.memIs]

theorem execBra_keepsMem (f : Fields) (s : State) : Out.memIs s.mem (execBra f s) := by
  unfold execBra
  grind [!State.front_cases, !State.jump_keepsMem, Out.memIs]

theorem execBrez_keepsMem (f : Fields) (s : State) : Out.memIs s.mem (execBrez f s) := by
  unfold execBrez
  grind [!State.finish_keepsMem, !State.front_cases, !State.jump_keepsMem, Out.memIs]

theorem execBrx_keepsMem (f : Fields) (s : State) : Out.memIs s.mem (execBrx f s) := by
  unfold execBrx
  grind [!State.front_cases, !State.jump_keepsMem, Out.memIs]

theorem execRet_keepsMem (f : Fields) (s : State) : Out.memIs s.mem (execRet f s) := by
  unfold execRet
  grind [!State.front_cases, !State.jump_keepsMem, Out.memIs]

theorem execCall_keepsMem (f : Fields) (s : State) : Out.memIs s.mem (execCall f s) := by
  unfold execCall
  grind [!State.front_cases, !State.jump_keepsMem, Out.memIs]

theorem execRep_keepsMem (f : Fields) (s : State) : Out.memIs s.mem (execRep f s) := by
  unfold execRep
  grind [!State.meetBlock_keepsMem, !State.front_cases, !State.modMe_mem, Out.memIs]

theorem execLoopPin_keepsMem (f : Fields) (s : State) : Out.memIs s.mem (execLoopPin f s) := by
  unfold execLoopPin
  grind [!State.front_cases, !State.modMe_mem, !State.trap_keepsMem, Out.memIs]

theorem execLoopEnd_keepsMem (f : Fields) (s : State) : Out.memIs s.mem (execLoopEnd f s) := by
  unfold execLoopEnd
  grind [!State.finish_keepsMem, !State.front_cases, !State.modMe_mem, Out.memIs]

theorem execYield_keepsMem (f : Fields) (s : State) : Out.memIs s.mem (execYield f s) := by
  unfold execYield
  grind [!State.finish_keepsMem, !State.front_cases, Out.memIs]

theorem State.maskOp_keepsMem (s : State) (i : Instr) (f : Fields) (op : Mask → Mask → Mask) :
    Out.memIs s.mem (s.maskOp i f op) := by
  unfold State.maskOp
  grind [!State.finish_keepsMem, !State.front_cases, Out.memIs]

theorem execKAnd_keepsMem (f : Fields) (s : State) : Out.memIs s.mem (execKAnd f s) := by
  unfold execKAnd
  grind [!State.maskOp_keepsMem, Out.memIs]

theorem execKOr_keepsMem (f : Fields) (s : State) : Out.memIs s.mem (execKOr f s) := by
  unfold execKOr
  grind [!State.maskOp_keepsMem, Out.memIs]

theorem execKXor_keepsMem (f : Fields) (s : State) : Out.memIs s.mem (execKXor f s) := by
  unfold execKXor
  grind [!State.maskOp_keepsMem, Out.memIs]

theorem execKAndn_keepsMem (f : Fields) (s : State) : Out.memIs s.mem (execKAndn f s) := by
  unfold execKAndn
  grind [!State.maskOp_keepsMem, Out.memIs]

theorem execKNot_keepsMem (f : Fields) (s : State) : Out.memIs s.mem (execKNot f s) := by
  unfold execKNot
  grind [!State.maskOp_keepsMem, Out.memIs]

theorem execKMov_keepsMem (f : Fields) (s : State) : Out.memIs s.mem (execKMov f s) := by
  unfold execKMov
  grind [!State.maskOp_keepsMem, Out.memIs]

theorem execKPopc_keepsMem (f : Fields) (s : State) : Out.memIs s.mem (execKPopc f s) := by
  unfold execKPopc
  grind [!State.finish_keepsMem, !State.front_cases, Out.memIs]

theorem execKFirst_keepsMem (f : Fields) (s : State) : Out.memIs s.mem (execKFirst f s) := by
  unfold execKFirst
  grind [!State.finish_keepsMem, !State.front_cases, Out.memIs]

theorem execKTestAny_keepsMem (f : Fields) (s : State) : Out.memIs s.mem (execKTestAny f s) := by
  unfold execKTestAny
  grind [!State.finish_keepsMem, !State.front_cases, Out.memIs]

theorem execKTestAll_keepsMem (f : Fields) (s : State) : Out.memIs s.mem (execKTestAll f s) := by
  unfold execKTestAll
  grind [!State.finish_keepsMem, !State.front_cases, Out.memIs]

theorem execXset_keepsMem (f : Fields) (s : State) : Out.memIs s.mem (execXset f s) := by
  unfold execXset
  grind [!State.finish_keepsMem, !State.front_cases, Out.memIs]

theorem execXadd_keepsMem (f : Fields) (s : State) : Out.memIs s.mem (execXadd f s) := by
  unfold execXadd
  grind [!State.finish_keepsMem, !State.front_cases, !State.aluEnd_keepsMem, Out.memIs]

theorem State.laneErrors_keepsMem (s : State) (w : Wave) (ix : List (Nat × Nat)) : (s.laneErrors w ix).2.mem = s.mem := by
  unfold State.laneErrors
  grind [!State.takeFlaws_keepsMem]

theorem execMovxRd_keepsMem (f : Fields) (s : State) : Out.memIs s.mem (execMovxRd f s) := by
  unfold execMovxRd
  grind [!State.ctxFault_keepsMem, !State.stall_keepsMem, !State.front_cases, !State.aluEnd_keepsMem, !State.trap_keepsMem,
    !State.laneErrors_keepsMem, Out.memIs, foldl_mem_or, foldl_fst_mem_or, foldl_snd_mem_or]

theorem execMovxWr_keepsMem (f : Fields) (s : State) : Out.memIs s.mem (execMovxWr f s) := by
  unfold execMovxWr
  grind [!State.stall_keepsMem, !State.finish_keepsMem, !State.front_cases, !State.trap_keepsMem, Out.memIs, foldl_mem_or,
    foldl_fst_mem_or, foldl_snd_mem_or]

theorem State.growFail_keepsMem (s : State) (core part : Nat) : (s.growFail core part).mem = s.mem := rfl

theorem execRegGrow_keepsMem (f : Fields) (s : State) : Out.memIs s.mem (execRegGrow f s) := by
  unfold execRegGrow
  grind [!State.growFail_keepsMem, !State.finish_keepsMem, !State.front_cases, !State.modMe_mem, !State.trap_keepsMem, Out.memIs]

theorem execRegShrink_keepsMem (f : Fields) (s : State) : Out.memIs s.mem (execRegShrink f s) := by
  unfold execRegShrink
  grind [!State.stall_keepsMem, !State.finish_keepsMem, !State.front_cases, !State.trap_keepsMem, Out.memIs]

theorem execFeWait_keepsMem (f : Fields) (s : State) : Out.memIs s.mem (execFeWait f s) := by
  unfold execFeWait
  grind [!State.stall_keepsMem, !State.finish_keepsMem, !State.front_cases, !State.trap_keepsMem, Out.memIs]

theorem execFeWaitAll_keepsMem (f : Fields) (s : State) : Out.memIs s.mem (execFeWaitAll f s) := by
  unfold execFeWaitAll
  grind [!State.stall_keepsMem, !State.finish_keepsMem, !State.front_cases, Out.memIs]

theorem execIcInv_keepsMem (f : Fields) (s : State) : Out.memIs s.mem (execIcInv f s) := by
  unfold execIcInv
  grind [!State.front_cases, State.finish_memIs, !State.stall_keepsMem]

theorem execGrpInfo_keepsMem (f : Fields) (s : State) : Out.memIs s.mem (execGrpInfo f s) := by
  unfold execGrpInfo
  grind [!State.finish_keepsMem, !State.front_cases, Out.memIs]

end Sys2Proof.Machine
end

section
/-! What the functions of Sys2Proof/Machine/Debug.lean leave of memory at home. -/

namespace Sys2Proof.Machine

set_option Elab.async false

theorem State.msix_keepsMem (s : State) (die vector : Nat) : (s.msix die vector).mem = s.mem := rfl

theorem State.interrupt_keepsMem (s : State) (hart ident : Nat) : (s.interrupt hart ident).mem = s.mem := rfl

theorem State.record_keepsMem (s : State) (w : Wave) (kind st bp : Nat) (blame : Word64) :
    (s.record w kind st bp blame).mem = s.mem := by
  unfold State.record
  grind [!State.ringPost_keepsMem, !State.faultLater_keepsMem]

theorem State.halted_keepsMem (s : State) (w : Wave) (st bp : Nat) (info : Word64) : (s.halted w st bp info).mem = s.mem := by
  unfold State.halted
  grind [!State.record_keepsMem, !State.interrupt_keepsMem, !State.modWave_mem, !State.msix_keepsMem, !State.modDbg_keepsMem]

theorem State.haltFrame_keepsMem (s : State) (w : Wave) (info : Word64) : (s.haltFrame w info).1.mem = s.mem := by
  unfold State.haltFrame
  grind [!State.readErrors_keepsMem, !State.waveStore_keepsMem]

theorem State.haltWave_keepsMem (s : State) (w : Wave) (st bp : Nat) (info : Word64) : (s.haltWave w st bp info).mem = s.mem := by
  unfold State.haltWave
  grind [!State.ctxFault_keepsMem, !State.halted_keepsMem, !State.haltFrame_keepsMem]

theorem State.haltStop_keepsMem (s : State) (w : Wave) : (s.haltStop w).mem = s.mem := by
  unfold State.haltStop
  grind [!State.haltWave_keepsMem, !State.modDbg_keepsMem]

theorem State.haltsAgain_keepsMem (a1 : List Wave) (a2 : State) : (State.haltsAgain a1 a2).1.mem = a2.mem := by
  fun_induction State.haltsAgain <;> grind [!State.halted_keepsMem, !andThen_cases, !State.haltFrame_keepsMem]

theorem State.haltBp_keepsMem (s : State) (w : Wave) (m : Nat × Bool) : (s.haltBp w m).mem = s.mem := by
  unfold State.haltBp
  grind [!State.haltWave_keepsMem]

theorem execBreakpointMatch_keepsMem (id : WaveId) (s : State) : Out.memIs s.mem (execBreakpointMatch id s) := by
  unfold execBreakpointMatch
  grind [!State.haltBp_keepsMem, Out.memIs]

theorem execStopTakesEffect_keepsMem (id : WaveId) (s : State) : Out.memIs s.mem (execStopTakesEffect id s) := by
  unfold execStopTakesEffect
  grind [!State.haltStop_keepsMem, Out.memIs]

theorem State.debugHalt_keepsMem (s : State) (w : Wave) : ∀ t, s.debugHalt w = some t → t.mem = s.mem := by
  unfold State.debugHalt
  grind [!State.haltWave_keepsMem, !State.haltBp_keepsMem, !State.haltStop_keepsMem]

theorem State.resume_keepsMem (s : State) (id : WaveId) (mode : Nat) (k : Wave → List Byte → Wave) :
    (s.resume id mode k).mem = s.mem := by
  unfold State.resume
  grind [!State.ctxFault_keepsMem, !State.waveLoad_keepsMem, !State.modWave_mem, !State.modDbg_keepsMem]

theorem State.resumeMode_keepsMem (s : State) (id : WaveId) (mode : Nat) : (s.resumeMode id mode).mem = s.mem := by
  unfold State.resumeMode
  grind [!State.resume_keepsMem]

theorem execResumeContinue_keepsMem (w : WaveId) (s : State) : Out.memIs s.mem (execResumeContinue w s) := by
  unfold execResumeContinue
  grind [!State.resumeMode_keepsMem, Out.memIs]

theorem execResumeDeliver_keepsMem (w : WaveId) (s : State) : Out.memIs s.mem (execResumeDeliver w s) := by
  unfold execResumeDeliver
  grind [!State.resumeMode_keepsMem, Out.memIs]

theorem execResumeStep_keepsMem (w : WaveId) (s : State) : Out.memIs s.mem (execResumeStep w s) := by
  unfold execResumeStep
  grind [!State.resumeMode_keepsMem, Out.memIs]

theorem State.resumeWrite_keepsMem (s : State) (core : Nat) (v : Word64) : (s.resumeWrite core v).mem = s.mem := by
  unfold State.resumeWrite
  grind [!State.resumeMode_keepsMem]

theorem State.resumeAgain_keepsMem (s : State) (core : Nat) : (s.resumeAgain core).mem = s.mem := by
  unfold State.resumeAgain
  grind [!State.resumeWrite_keepsMem, !State.modDbg_keepsMem, foldl_mem_or, foldl_fst_mem_or, foldl_snd_mem_or]

theorem State.trace_keepsMem (s : State) (w : Wave) (kind : Nat) : (s.trace w kind).mem = s.mem := by
  unfold State.trace
  grind [!State.record_keepsMem]

theorem execRgnIn_keepsMem (f : Fields) (s : State) : Out.memIs s.mem (execRgnIn f s) := by
  unfold execRgnIn
  refine front_memIs fun t w ht => ?_
  dsimp only
  refine State.finish_memIs ?_ f id
  cases (t.modMe _).me with
  | none => exact ht
  | some w => exact (State.trace_keepsMem ..).trans ht

theorem execRgnOut_keepsMem (f : Fields) (s : State) : Out.memIs s.mem (execRgnOut f s) := by
  unfold execRgnOut
  grind [!State.trace_keepsMem, !State.finish_keepsMem, !State.front_cases, !State.trap_keepsMem, Out.memIs]

theorem execBrk_keepsMem (f : Fields) (s : State) : Out.memIs s.mem (execBrk f s) := by
  unfold execBrk
  grind [!State.haltWave_keepsMem, !State.finish_keepsMem, !State.front_cases, !State.trap_keepsMem, Out.memIs]

theorem execProg_keepsMem (f : Fields) (s : State) : Out.memIs s.mem (execProg f s) := by
  unfold execProg
  grind [!State.front_cases, State.finish_memIs]

theorem State.trialHold_keepsMem (s : State) (w : Wave) : (s.trialHold w).mem = s.mem := rfl

theorem State.trialIssue_keepsMem (s old : State) (w : Wave) : (s.trialIssue old w).mem = s.mem := by
  unfold State.trialIssue
  grind [!State.modWave_mem]

theorem execSample_keepsMem (core : Nat) (s : State) : Out.memIs s.mem (execSample core s) := by
  unfold execSample
  grind [!State.record_keepsMem, !State.modDbg_keepsMem, Out.memIs]

theorem execRegisterWrite_keepsMem (r : HwReg) (value : Word64) (s : State) : Out.memIs s.mem (execRegisterWrite r value s) := by
  unfold execRegisterWrite
  grind [!State.resumeWrite_keepsMem, !State.modDbg_keepsMem, Out.memIs]

theorem execFreeze_keepsMem (s : State) : Out.memIs s.mem (execFreeze s) := rfl

theorem execPldmFreeze_keepsMem (s : State) : Out.memIs s.mem (execPldmFreeze s) := rfl

end Sys2Proof.Machine
end

section
/-! What the functions of Sys2Proof/Machine/MemInstr.lean leave of memory at home. -/

namespace Sys2Proof.Machine

set_option Elab.async false

theorem State.locateLanes_keepsMem (w : Wave) (kind n : Nat) (a1 : List (Nat × Nat)) (a2 : State) :
    (State.locateLanes w kind n a1 a2).1.mem = a2.mem := by
  fun_induction State.locateLanes <;> grind [!State.locate_keepsMem]

theorem State.checkGroups_keepsMem (w : Wave) (perPass : Bool) (kind n : Nat) (a1 : List (List (Nat × Nat))) (a2 : State) :
    (State.checkGroups w perPass kind n a1 a2).1.mem = a2.mem := by
  fun_induction State.checkGroups <;> grind [!State.locateLanes_keepsMem]

theorem State.performLoads_keepsMem (w : Wave) (n hint : Nat) (a1 : List Located) (a2 : State) :
    (State.performLoads w n hint a1 a2).2.mem = a2.mem := by
  fun_induction State.performLoads <;> grind [!State.loadPiece_keepsMem, foldl_mem_or, foldl_fst_mem_or, foldl_snd_mem_or]

theorem State.fillLanes_keepsMem (s : State) (f : Fields) (mask : Mask) (data : List Lanes) :
    Out.memIs s.mem (s.fillLanes f mask data) := by
  unfold State.fillLanes
  grind [State.finish_memIs]

theorem State.vectorLoad_keepsMem (s : State) (w : Wave) (f : Fields) (ad : List Nat) : Out.memIs s.mem (s.vectorLoad w f ad) := by
  unfold State.vectorLoad
  grind [!State.ctxFault_keepsMem, !State.stall_keepsMem, !State.checkGroups_keepsMem, !State.performLoads_keepsMem,
    !State.modMe_mem, !State.fillLanes_keepsMem, !State.trap_keepsMem, Out.memIs]

theorem State.performStores_keepsMem (s : State) (w : Wave) (hint : Nat) (rel : Option Release) (data : Nat → List Byte)
    (l : List Located) :
    (s.performStores w hint rel data l).mem = s.mem := by
  unfold State.performStores
  grind [!State.useLines_keepsMem, !State.wavePut_keepsMem, foldl_mem_or, foldl_fst_mem_or, foldl_snd_mem_or]

theorem execLd_keepsMem (f : Fields) (s : State) : Out.memIs s.mem (execLd f s) := by
  unfold execLd
  grind [!State.front_cases, !State.vectorLoad_keepsMem, Out.memIs]

theorem execSt_keepsMem (f : Fields) (s : State) : Out.memIs s.mem (execSt f s) := by
  unfold execSt
  grind [!State.ctxFault_keepsMem, !State.stall_keepsMem, !State.finish_keepsMem, !State.front_cases, !State.checkGroups_keepsMem,
    !State.performStores_keepsMem, !State.modMe_mem, !State.trap_keepsMem, Out.memIs]

theorem execLdK_keepsMem (f : Fields) (s : State) : Out.memIs s.mem (execLdK f s) := by
  unfold execLdK
  grind [!State.front_cases, !State.vectorLoad_keepsMem, Out.memIs]

theorem execSLd_keepsMem (f : Fields) (s : State) : Out.memIs s.mem (execSLd f s) := by
  unfold execSLd
  grind [!State.waveLoad_keepsMem, !State.finish_keepsMem, !State.take_cases, !State.front_cases, Out.memIs]

theorem execSSt_keepsMem (f : Fields) (s : State) : Out.memIs s.mem (execSSt f s) := by
  unfold execSSt
  grind [!State.waveStoreRel_keepsMem, !State.finish_keepsMem, !State.take_cases, !State.front_cases, Out.memIs]

theorem execKLd_keepsMem (f : Fields) (s : State) : Out.memIs s.mem (execKLd f s) := by
  unfold execKLd
  grind [!State.waveLoad_keepsMem, !State.finish_keepsMem, !State.take_cases, !State.front_cases, Out.memIs]

theorem execKSt_keepsMem (f : Fields) (s : State) : Out.memIs s.mem (execKSt f s) := by
  unfold execKSt
  grind [!State.waveStoreRel_keepsMem, !State.finish_keepsMem, !State.take_cases, !State.front_cases, Out.memIs]

theorem State.spadErrors_keepsMem (s : State) (cord core o n : Nat) : (s.spadErrors cord core o n).2.mem = s.mem := by
  unfold State.spadErrors
  grind [!State.takeFlaws_keepsMem]

theorem State.spadLaneErrors_keepsMem (s : State) (w : Wave) (n : Nat) (offs : List ℤ) :
    (s.spadLaneErrors w n offs).2.mem = s.mem := by
  unfold State.spadLaneErrors
  grind [!State.spadErrors_keepsMem, foldl_mem_or, foldl_fst_mem_or, foldl_snd_mem_or]

theorem State.spadChecked_cases (s : State) (w : Wave) (n : Nat) (offs : List Int) (k : State → Out) :
    Out.memIs s.mem (s.spadChecked w n offs k) ∨ ∃ t, t.mem = s.mem ∧ s.spadChecked w n offs k = k t := by
  unfold State.spadChecked
  grind [Out.memIs, !State.trap_keepsMem, !State.spadLaneErrors_keepsMem, !State.ctxFault_keepsMem]

theorem execLdS_keepsMem (f : Fields) (s : State) : Out.memIs s.mem (execLdS f s) := by
  unfold execLdS
  grind [!State.spadChecked_cases, !State.front_cases, !State.fillLanes_keepsMem, Out.memIs]

theorem execStS_keepsMem (f : Fields) (s : State) : Out.memIs s.mem (execStS f s) := by
  unfold execStS
  grind [!State.spadChecked_cases, !State.finish_keepsMem, !State.front_cases, !State.modCord_mem, Out.memIs]

theorem State.flushSector_keepsMem (s : State) (core sec : Nat) : (s.flushSector core sec).mem = s.mem := by
  unfold State.flushSector
  grind [!State.writeBackIf_keepsMem]

theorem State.atomHome_keepsMem (s : State) (w : Wave) (va pa n : Nat) (e : Word64) (f : Nat → Nat) :
    (s.atomHome w va pa n e f).2.mem = s.mem := by
  unfold State.atomHome
  grind [!State.acceptSector_keepsMem, !State.acceptOr_keepsMem, !State.modWrite_mem, !State.enterWrite_keepsMem,
    !State.modWave_mem, !State.flushSector_keepsMem]

theorem State.checkAtom_keepsMem (s : State) (w : Wave) (f : Fields) (ad : List Nat) : (s.checkAtom w f ad).1.mem = s.mem := by
  unfold State.checkAtom
  grind [!State.locateLanes_keepsMem]

theorem State.performAtom_keepsMem (w : Wave) (f : Fields) (data cmp : List Nat) (a1 : List Located) (a2 : State) :
    (State.performAtom w f data cmp a1 a2).2.mem = a2.mem := by
  fun_induction State.performAtom <;> grind [!State.atomHome_keepsMem, !State.useLines_keepsMem]

theorem State.atomic_keepsMem (s : State) (w : Wave) (f : Fields) : Out.memIs s.mem (s.atomic w f) := by
  unfold State.atomic
  grind [!State.ctxFault_keepsMem, !State.stall_keepsMem, !State.checkAtom_keepsMem, !State.fillLanes_keepsMem,
    !State.performAtom_keepsMem, !State.trap_keepsMem, Out.memIs]

theorem execAtom_keepsMem (f : Fields) (s : State) : Out.memIs s.mem (execAtom f s) := by
  unfold execAtom
  grind [!State.front_cases, !State.atomic_keepsMem, Out.memIs]

theorem execRed_keepsMem (f : Fields) (s : State) : Out.memIs s.mem (execRed f s) := by
  unfold execRed
  grind [!State.front_cases, !State.atomic_keepsMem, Out.memIs]

theorem execAtomS_keepsMem (f : Fields) (s : State) : Out.memIs s.mem (execAtomS f s) := by
  unfold execAtomS
  grind [!State.ctxFault_keepsMem, !State.spadLaneErrors_keepsMem, !State.front_cases, !State.modCord_mem,
    !State.fillLanes_keepsMem, !State.trap_keepsMem, Out.memIs, foldl_mem_or, foldl_fst_mem_or, foldl_snd_mem_or]

theorem execFence_keepsMem (f : Fields) (s : State) : Out.memIs s.mem (execFence f s) := by
  unfold execFence
  grind [!State.stall_keepsMem, !State.finish_keepsMem, !State.front_cases, Out.memIs]

theorem State.acqEnd_keepsMem (s : State) (f : Fields) (h : Nat) : Out.memIs s.mem (s.acqEnd f h) := rfl

theorem execAcqRs_keepsMem (f : Fields) (s : State) : Out.memIs s.mem (execAcqRs f s) := by
  refine front_memIs fun t w ht => ?_
  dsimp only
  split
  · exact Out.memIs.of_eq (t.acqEnd_keepsMem ..) ht
  · exact ht
  · have hfold := foldl_mem (fun s (x : Write) => s.acceptOr_keepsMem x.id) ((t.throughs (t.natB w f)).filter fun x => x.ctime.isNone) t
    split
    · exact Out.memIs.of_eq (t.acqEnd_keepsMem ..) ht
    · split
      · exact Out.memIs.of_eq (State.acqEnd_keepsMem ..) (hfold.trans ht)
      · exact (State.modMe_mem ..).trans (hfold.trans ht)

theorem State.locatePref_keepsMem (w : Wave) (a1 : List (Nat × Nat)) (a2 : State) : (State.locatePref w a1 a2).1.mem = a2.mem := by
  fun_induction State.locatePref <;> grind [!State.l1Serve_keepsMem, !andThen_cases, !State.atHome_keepsMem,
    !State.translateNoFt_keepsMem]

theorem State.prefLanes_keepsMem (w : Wave) (n : Nat) (a1 : List Nat) (a2 : State) :
    (State.prefLanes w n a1 a2).1.mem = a2.mem := by
  fun_induction State.prefLanes <;> grind [!andThen_cases, !State.locatePref_keepsMem]

theorem State.prefPiece_keepsMem (s : State) (w : Wave) (l2only : Bool) (hint va pa : Nat) (e : Word64) :
    (s.prefPiece w l2only hint va pa e).mem = s.mem := by
  unfold State.prefPiece
  grind [!State.contend_keepsMem, !State.useL2_keepsMem, !State.useL1_keepsMem, !State.fetchLine_keepsMem]

theorem execPref_keepsMem (f : Fields) (s : State) : Out.memIs s.mem (execPref f s) := by
  unfold execPref
  grind [!State.ctxFault_keepsMem, !State.stall_keepsMem, !State.finish_keepsMem, !State.front_cases, !State.prefPiece_keepsMem,
    !State.prefLanes_keepsMem, Out.memIs, foldl_mem_or, foldl_fst_mem_or, foldl_snd_mem_or]

theorem execDiscard_keepsMem (f : Fields) (s : State) : Out.memIs s.mem (execDiscard f s) := by
  unfold execDiscard
  grind [!State.front_cases, State.finish_memIs]

end Sys2Proof.Machine
end

section
/-! What the functions of Sys2Proof/Machine/Copies.lean leave of memory at home. -/

namespace Sys2Proof.Machine

set_option Elab.async false

theorem State.partRead_keepsMem (s : State) (v : CopyEnv) (p : Piece) (q : PiecePart) : (s.partRead v p q).1.mem = s.mem := by
  unfold State.partRead
  grind [!State.spadErrors_keepsMem, !State.hwLoadHint_keepsMem]

theorem State.partsRead_keepsMem (v : CopyEnv) (p : Piece) (a1 : List PiecePart) (a2 : State) :
    (State.partsRead v p a1 a2).1.mem = a2.mem := by
  fun_induction State.partsRead <;> grind [!andThen_cases, !State.partRead_keepsMem]

theorem State.pieceWrite_keepsMem (s : State) (v : CopyEnv) (p : Piece) (cells : List Host.Cell) :
    (s.pieceWrite v p cells).1.mem = s.mem := by
  unfold State.pieceWrite
  grind [!State.locate_keepsMem, !State.newWrite_keepsMem, !State.useL2_keepsMem, !andThen_cases, !State.acceptNow_keepsMem,
    foldl_mem_or, foldl_fst_mem_or, foldl_snd_mem_or]

theorem State.runPiece_keepsMem (s : State) (v : CopyEnv) (p : Piece) : (s.runPiece v p).1.mem = s.mem := by
  unfold State.runPiece
  grind [!State.ctxFault_keepsMem, !State.modCord_mem, !State.partsRead_keepsMem, !State.pieceWrite_keepsMem]

theorem State.runNth_keepsMem (s : State) (v : CopyEnv) (l : List Piece) (i : Nat) : (s.runNth v l i).1.mem = s.mem := by
  unfold State.runNth
  grind [!State.runPiece_keepsMem]

theorem execCopyPiece_keepsMem (c : CopyRef) (piece : Nat) (s : State) : Out.memIs s.mem (execCopyPiece c piece s) := by
  cases c with
  | batch n number =>
    unfold execCopyPiece
    grind [Out.memIs, !State.runNth_keepsMem, !State.modWave_mem]
  | record uid =>
    unfold execCopyPiece
    grind [Out.memIs, !State.runNth_keepsMem, !State.stopQueue_keepsMem]

theorem execCopyBatchComplete_keepsMem (c : CopyRef) (s : State) : Out.memIs s.mem (execCopyBatchComplete c s) := by
  unfold execCopyBatchComplete
  split <;> rfl

theorem State.addCopy_keepsMem (s : State) (w : Wave) (f : Fields) (c : CopyItem) : Out.memIs s.mem (s.addCopy w f c) := by
  unfold State.addCopy
  grind [!State.stall_keepsMem, !State.finish_keepsMem, Out.memIs]

theorem execCpy_keepsMem (f : Fields) (s : State) : Out.memIs s.mem (execCpy f s) := by
  unfold execCpy
  grind [!State.finish_keepsMem, !State.front_cases, !State.addCopy_keepsMem, !State.trap_keepsMem, Out.memIs]

theorem execCpyBox_keepsMem (f : Fields) (s : State) : Out.memIs s.mem (execCpyBox f s) := by
  unfold execCpyBox
  grind [!State.waveLoad_keepsMem, !State.take_cases, !State.front_cases, !State.addCopy_keepsMem, !State.trap_keepsMem, Out.memIs]

theorem execCpyClose_keepsMem (f : Fields) (s : State) : Out.memIs s.mem (execCpyClose f s) := by
  unfold execCpyClose
  grind [!State.stall_keepsMem, !State.finish_keepsMem, !State.front_cases, Out.memIs]

theorem State.copyWait_cases (s : State) (w : Wave) (p : Batch → Bool) (k : State → Out) :
    Out.memIs s.mem (s.copyWait w p k) ∨ ∃ t, t.mem = s.mem ∧ s.copyWait w p k = k t := by
  unfold State.copyWait
  grind [Out.memIs, !State.trapWith_cases, !State.modMe_mem, !State.stall_keepsMem]

theorem execCpyWait_keepsMem (f : Fields) (s : State) : Out.memIs s.mem (execCpyWait f s) := by
  unfold execCpyWait
  grind [!State.finish_keepsMem, !State.front_cases, !State.copyWait_cases, Out.memIs]

end Sys2Proof.Machine
end

section
/-! What the functions of Sys2Proof/Machine/Streams.lean leave of memory at home. -/

namespace Sys2Proof.Machine

set_option Elab.async false

theorem State.flueLoad_keepsMem (s : State) (w : Wave) (sup : Bool) (va n hint : Nat) :
    (s.flueLoad w sup va n hint).1.mem = s.mem := by
  unfold State.flueLoad
  grind [!State.locate_keepsMem, !accAt_fst, !andThen_cases, !State.useHome_keepsMem]

theorem State.streamBase_keepsMem (s : State) (w : Wave) (x : Stream) : (s.streamBase w x).1.mem = s.mem := by
  unfold State.streamBase
  grind [!State.flueLoad_keepsMem, !andThen_cases]

theorem State.startStream_keepsMem (s : State) (id : WaveId) (n : Nat) : (s.startStream id n).mem = s.mem := by
  unfold State.startStream
  grind [!State.streamBase_keepsMem, !State.modWave_mem, !State.faultLater_keepsMem]

theorem State.startStreams_keepsMem (s : State) (id : WaveId) : (s.startStreams id).mem = s.mem := by
  unfold State.startStreams
  grind [!State.startStream_keepsMem, foldl_mem_or, foldl_fst_mem_or, foldl_snd_mem_or]

theorem State.elem_keepsMem (w : Wave) (a1 : Nat) (a2 : Stream) (a3 : Nat) (a4 : State) :
    (State.elem w a1 a2 a3 a4).1.mem = a4.mem := by
  fun_induction State.elem <;> grind [!State.flueLoad_keepsMem, !State.free_keepsMem, !State.streamBase_keepsMem, !andThen_cases]

theorem State.elems_keepsMem (w : Wave) (x : Stream) (a1 a2 : Nat) (a3 : State) : (State.elems w x a1 a2 a3).1.mem = a3.mem := by
  fun_induction State.elems <;> grind [!State.elem_keepsMem]

theorem execStreamElementFetch_keepsMem (id : WaveId) (n : Nat) (s : State) : Out.memIs s.mem (execStreamElementFetch id n s) := by
  unfold execStreamElementFetch
  split
  · rfl
  split
  · rfl
  split
  · rfl
  next w _ _ _ _ _ =>
  have hstart := foldl_mem (fun s i => s.startStream_keepsMem id i) (w.indexChain 9 n) s
  dsimp only
  generalize (w.indexChain 9 n).foldl (fun s i => s.startStream id i) s = t at hstart ⊢
  rw [← hstart]
  grind [Out.memIs, !State.elems_keepsMem, !State.modWave_mem, !State.ctxFault_keepsMem]

theorem execStrmDef_keepsMem (f : Fields) (s : State) : Out.memIs s.mem (execStrmDef f s) := by
  unfold execStrmDef
  grind [!State.waveLoad_keepsMem, !State.finish_keepsMem, !State.take_cases, !State.front_cases, !State.trap_keepsMem, Out.memIs]

theorem State.startIndex_keepsMem (s : State) (id : WaveId) (n : Nat) : (s.startIndex id n).mem = s.mem := by
  unfold State.startIndex
  grind [!State.modWave_mem, !State.startStream_keepsMem, foldl_mem_or, foldl_fst_mem_or, foldl_snd_mem_or]

theorem execStrmGo_keepsMem (f : Fields) (s : State) : Out.memIs s.mem (execStrmGo f s) := by
  unfold execStrmGo
  grind [!State.waveLoad_keepsMem, !State.startIndex_keepsMem, !State.finish_keepsMem, !State.take_cases, !State.front_cases,
    !State.trap_keepsMem, Out.memIs]

theorem execStrmStop_keepsMem (f : Fields) (s : State) : Out.memIs s.mem (execStrmStop f s) := by
  unfold execStrmStop
  grind [!State.finish_keepsMem, !State.front_cases, Out.memIs]

end Sys2Proof.Machine
end

section
/-! What the functions of Sys2Proof/Machine/Mos.lean leave of memory at home. -/

namespace Sys2Proof.Machine

set_option Elab.async false

theorem State.reader_keepsMem (s : State) (id : WaveId) (f : Fields) (g : Nat → Nat) : (s.reader id f g).mem = s.mem := by
  unfold State.reader
  split <;> rfl

theorem State.mosErrors_keepsMem (s : State) (r : MosRange) : (s.mosErrors r).2.mem = s.mem := by
  unfold State.mosErrors
  grind [!State.takeFlaws_keepsMem]

/-- A fill that has stopped ends the instruction; otherwise the instruction goes on. -/
theorem State.heldFault_cases (s : State) (w : Wave) (p : MosFill → Bool) (k : State → Out) :
    Out.memIs s.mem (s.heldFault w p k) ∨ s.heldFault w p k = k s := by
  unfold State.heldFault
  dsimp only
  split
  · exact .inl (State.stall_keepsMem { s with mosFills := _ })
  · split
    · next x _ =>
      rcases State.trapWith_cases s x.cause w.exec (pageInfo x.addr 0 x.pool) fun s =>
        { s with mosFills := modWhere s.mosFills (fun x => p x && !(stoppedPieces [x]).isEmpty) fun y =>
          { y with told := y.told ++ [(w.id, w.pc)] } } with h | ⟨t, ht, h⟩
      · exact .inl h
      · exact .inl (h ▸ ht)
    · exact .inr rfl

theorem State.heldFault_memIs {s : State} {w : Wave} {p : MosFill → Bool} {k : State → Out} {m : List Host.Cell} (h : s.mem = m)
    (hk : Out.memIs m (k s)) : Out.memIs m (s.heldFault w p k) := by
  subst h
  rcases s.heldFault_cases w p k with e | e
  · exact e
  · exact e ▸ hk

/-- A fill under way ends the instruction; otherwise the instruction goes on. -/
theorem State.fillWait_cases (s : State) (w : Wave) (k : State → Out) :
    Out.memIs s.mem (s.fillWait w k) ∨ s.fillWait w k = k s := by
  rcases State.heldFault_cases s w (fun x => x.wave == w.id) fun s => if s.mosFills.any (fun x => x.wave == w.id) then s.stall else k s with h | h
  · exact .inl h
  · unfold State.fillWait
    dsimp only
    rw [h]
    split
    · exact .inl s.stall_keepsMem
    · exact .inr rfl

theorem State.runFill_keepsMem (w : Wave) (x : MosFill) (a1 : List Piece) (a2 : State) :
    (State.runFill w x a1 a2).2.2.mem = a2.mem := by
  fun_induction State.runFill <;> grind [!State.flueLoad_keepsMem]

theorem execMosFillComplete_keepsMem (id : Nat) (s : State) : Out.memIs s.mem (execMosFillComplete id s) := by
  unfold execMosFillComplete
  grind [!State.ctxFault_keepsMem, !State.runFill_keepsMem, Out.memIs]

end Sys2Proof.Machine
end

section
/-! What the functions of Sys2Proof/Machine/PageInstr.lean leave of memory at home. -/

namespace Sys2Proof.Machine

set_option Elab.async false

theorem execPgProbe_keepsMem (f : Fields) (s : State) : Out.memIs s.mem (execPgProbe f s) := by
  unfold execPgProbe
  grind [!State.ctxFault_keepsMem, !State.stall_keepsMem, !State.walkMeet_keepsMem, !State.translate_keepsMem,
    !State.finish_keepsMem, !State.front_cases, Out.memIs]

theorem State.passRoot_keepsMem (s : State) (h : Handle) : (s.passRoot h).mem = s.mem := rfl

theorem State.orphan_keepsMem (s : State) (h : Handle) : (s.orphan h).mem = s.mem := by
  unfold State.orphan
  grind [!State.physStore_keepsMem, !State.endTenure_keepsMem, !State.passRoot_keepsMem, !State.modHandle_mem, foldl_mem_or,
    foldl_fst_mem_or, foldl_snd_mem_or]

theorem State.invalidate_keepsMem (s : State) (tag : Nat) (range : Option (Nat × Nat)) :
    (s.invalidate tag range).2.2.mem = s.mem := by
  unfold State.invalidate
  grind [!State.acceptOr_keepsMem, !State.orphan_keepsMem, !State.writeBackIf_keepsMem, foldl_mem_or, foldl_fst_mem_or,
    foldl_snd_mem_or]

theorem State.modInval_keepsMem (s : State) (id : Nat) (f : Inval → Inval) : (s.modInval id f).mem = s.mem := rfl

theorem State.cmdStatus_keepsMem (s : State) (blk st : Nat) : (s.cmdStatus blk st).mem = s.mem := by
  unfold State.cmdStatus
  grind [!State.notBefore_keepsMem, !State.physStore_keepsMem, foldl_mem_or, foldl_fst_mem_or, foldl_snd_mem_or]

theorem State.endCommands_keepsMem (s : State) : (s.endCommands).mem = s.mem := by
  unfold State.endCommands
  grind [!State.cmdStatus_keepsMem, foldl_mem_or, foldl_fst_mem_or, foldl_snd_mem_or]

theorem execInvalidationComplete_keepsMem (id : Nat) (s : State) : Out.memIs s.mem (execInvalidationComplete id s) := by
  unfold execInvalidationComplete
  grind [!State.modInval_keepsMem, !State.invalidate_keepsMem, !State.endCommands_keepsMem, Out.memIs]

theorem State.startInval_keepsMem (s : State) (w : Wave) (f : Fields) (range : Option (Nat × Nat)) :
    Out.memIs s.mem (s.startInval w f range) := by
  unfold State.startInval
  grind [State.finish_memIs, !State.stall_keepsMem]

theorem execPgInvVa_keepsMem (f : Fields) (s : State) : Out.memIs s.mem (execPgInvVa f s) := by
  unfold execPgInvVa
  grind [!State.front_cases, !State.startInval_keepsMem, Out.memIs]

theorem execPgInvCtx_keepsMem (f : Fields) (s : State) : Out.memIs s.mem (execPgInvCtx f s) := by
  unfold execPgInvCtx
  grind [!State.front_cases, !State.startInval_keepsMem, Out.memIs]

theorem execPgSync_keepsMem (f : Fields) (s : State) : Out.memIs s.mem (execPgSync f s) := by
  unfold execPgSync
  grind [!State.stall_keepsMem, !State.finish_keepsMem, !State.front_cases, Out.memIs, foldl_mem_or, foldl_fst_mem_or,
    foldl_snd_mem_or]

end Sys2Proof.Machine
end

section
/-! What the functions of Sys2Proof/Machine/Barrier.lean leave of memory at home. -/

namespace Sys2Proof.Machine

set_option Elab.async false

theorem State.completePhase_keepsMem (s : State) (cord g : Nat) : (s.completePhase cord g).mem = s.mem := rfl

theorem State.barCheck_keepsMem (s : State) (cord g : Nat) : (s.barCheck cord g).mem = s.mem := by
  unfold State.barCheck
  grind [!State.completePhase_keepsMem]

theorem execBarDrainComplete_keepsMem (cord g : Nat) (s : State) : Out.memIs s.mem (execBarDrainComplete cord g s) := by
  unfold execBarDrainComplete
  grind [!State.completePhase_keepsMem, Out.memIs]

theorem State.arrive_keepsMem (s : State) (w : Wave) (f : Fields) (g : Nat) (waits dev : Bool) :
    Out.memIs s.mem (s.arrive w f g waits dev) := by
  unfold State.arrive
  grind [!State.stall_keepsMem, !State.barCheck_keepsMem, !State.finish_keepsMem, !State.modMe_mem, !State.modCord_mem, Out.memIs]

theorem State.barrier_keepsMem (s : State) (i : Instr) (f : Fields) (waits dev : Bool) :
    Out.memIs s.mem (s.barrier i f waits dev) := by
  unfold State.barrier
  grind [!State.arrive_keepsMem, !State.front_cases, !State.trap_keepsMem, Out.memIs]

theorem execBar_keepsMem (f : Fields) (s : State) : Out.memIs s.mem (execBar f s) := by
  unfold execBar
  grind [!State.barrier_keepsMem, Out.memIs]

theorem execBarArv_keepsMem (f : Fields) (s : State) : Out.memIs s.mem (execBarArv f s) := by
  unfold execBarArv
  grind [!State.barrier_keepsMem, Out.memIs]

theorem execBarDev_keepsMem (f : Fields) (s : State) : Out.memIs s.mem (execBarDev f s) := by
  unfold execBarDev
  grind [!State.barrier_keepsMem, Out.memIs]

theorem execBarWait_keepsMem (f : Fields) (s : State) : Out.memIs s.mem (execBarWait f s) := by
  unfold execBarWait
  grind [!State.finish_keepsMem, !State.front_cases, !State.modMe_mem, !State.trap_keepsMem, Out.memIs]

theorem State.dropGather_keepsMem (s : State) (cord g : Nat) : (s.dropGather cord g).mem = s.mem := by
  unfold State.dropGather
  grind [!State.reader_keepsMem, !State.modCord_mem, foldl_mem_or, foldl_fst_mem_or, foldl_snd_mem_or]

theorem State.setGather_keepsMem (s : State) (cord : Nat) (x : Gather) : (s.setGather cord x).mem = s.mem := rfl

theorem State.breakGather_keepsMem (s : State) (cord g i : Nat) : (s.breakGather cord g i).mem = s.mem := by
  unfold State.breakGather
  grind [!State.dropGather_keepsMem, !State.setGather_keepsMem]

theorem State.endWave_keepsMem (s : State) (id : WaveId) : (s.endWave id).mem = s.mem := by
  unfold State.endWave
  grind [!State.breakGather_keepsMem, !State.barCheck_keepsMem, !State.modWave_mem, !State.cancelStop_keepsMem, foldl_mem_or,
    foldl_fst_mem_or, foldl_snd_mem_or]

theorem execExit_keepsMem (f : Fields) (s : State) : Out.memIs s.mem (execExit f s) := by
  refine front_memIs fun t w ht => ?_
  dsimp only
  split
  · exact State.finish_memIs ht f id
  · split
    · exact ht ▸ t.trap_keepsMem ..
    · split
      · rcases t.copyWait_cases w (fun _ => true) _ with h | ⟨u, hu, h⟩
        · exact ht ▸ h
        · rw [h]
          rcases State.fillWait_cases u w _ with h | h
          · exact ht ▸ hu ▸ h
          · rw [h]
            exact (State.endWave_keepsMem ..).trans ((State.modMe_mem ..).trans (hu.trans ht))
      · exact State.finish_memIs ht f _

end Sys2Proof.Machine
end

section
/-! What the functions of Sys2Proof/Machine/Tiles.lean leave of memory at home. -/

namespace Sys2Proof.Machine

set_option Elab.async false

theorem State.writeRecord_keepsMem (s : State) (h : Handle) : (s.writeRecord h).mem = s.mem := by
  unfold State.writeRecord
  grind [!State.physStore_keepsMem]

theorem State.writeViews_keepsMem (s : State) (r : RootId) : (s.writeViews r).mem = s.mem := by
  unfold State.writeViews
  grind [!State.physStore_keepsMem]

theorem State.evict_keepsMem (s : State) (h : Handle) : (s.evict h).mem = s.mem := by
  unfold State.evict
  grind [!State.physStore_keepsMem, !State.endTenure_keepsMem, !State.modHandle_mem, foldl_mem_or, foldl_fst_mem_or,
    foldl_snd_mem_or]

theorem State.evictLoop_keepsMem (a1 : Nat) (a2 : State) : (State.evictLoop a1 a2).mem = a2.mem := by
  fun_induction State.evictLoop <;> grind [!State.evict_keepsMem]

theorem State.fitDirectory_keepsMem (s : State) : (s.fitDirectory).mem = s.mem := by
  unfold State.fitDirectory
  grind [!State.evictLoop_keepsMem]

theorem State.rehold_keepsMem (s : State) (uid : Nat) (r : RootId) (m : TenMode) (clast : Nat) :
    (s.rehold uid r m clast).mem = s.mem := rfl

theorem State.grantOne_keepsMem (s : State) (r : RootId) (q : TenReq) : (s.grantOne r q).mem = s.mem := by
  unfold State.grantOne
  split <;> rfl

theorem State.grantLoop_keepsMem (r : RootId) (a1 : Nat) (a2 : State) : (State.grantLoop r a1 a2).mem = a2.mem := by
  fun_induction State.grantLoop <;> grind [!State.grantOne_keepsMem]

theorem execTenureGrant_keepsMem (r : RootId) (s : State) : Out.memIs s.mem (execTenureGrant r s) := by
  unfold execTenureGrant
  grind [!State.grantLoop_keepsMem, Out.memIs]

theorem execTenureRenew_keepsMem (r : RootId) (core : Nat) (s : State) : Out.memIs s.mem (execTenureRenew r core s) := rfl

theorem execTenureExpiry_keepsMem (r : RootId) (core : Nat) (s : State) : Out.memIs s.mem (execTenureExpiry r core s) := by
  unfold execTenureExpiry
  grind [!State.endTenure_keepsMem, Out.memIs]

theorem State.reacquire_keepsMem (s : State) (c : Cord) : (s.reacquire c).mem = s.mem := by
  unfold State.reacquire
  grind [!State.rehold_keepsMem, !State.modCord_mem, !State.modHandle_mem]

theorem State.openPages_keepsMem (w : Wave) (a1 : List Nat) (a2 : Nat) (a3 : List (Nat × Nat × Nat)) (a4 : Bool) (a5 : State) :
    (State.openPages w a1 a2 a3 a4 a5).1.mem = a5.mem := by
  fun_induction State.openPages <;> grind [!State.translate_keepsMem, !State.walkBy_keepsMem]

theorem State.openRecord_keepsMem (s : State) (h : Handle) (i : Nat) : (s.openRecord h i).1.mem = s.mem := by
  unfold State.openRecord
  grind [!State.writeRecord_keepsMem, !State.writeViews_keepsMem, !State.modLease_mem, foldl_mem_or, foldl_fst_mem_or,
    foldl_snd_mem_or]

theorem State.tileOpen_keepsMem (s : State) (w : Wave) (b : List Byte) (h : Handle) : (s.tileOpen w b h).1.mem = s.mem := by
  unfold State.tileOpen
  dsimp only
  split
  · rfl
  split
  · rfl
  next i _ =>
  have hrec := s.translate_keepsMem w.unit (s.tagOf w) w.die true 1 ((s.ctx (s.tagOf w)).htable + 128 * i)
  split <;> rename_i e <;> rw [e] at hrec
  · exact hrec
  · exact hrec
  · exact hrec
  · refine andThen_mem_eq ((State.openPages_keepsMem ..).trans hrec) fun u r hu => ?_
    split
    · exact hu
    · exact (State.openRecord_keepsMem ..).trans hu

theorem execTileOpen_keepsMem (f : Fields) (s : State) : Out.memIs s.mem (execTileOpen f s) := by
  unfold execTileOpen
  grind [!State.waveLoad_keepsMem, !State.finish_keepsMem, !State.take_cases, !State.tileOpen_keepsMem, !State.front_cases,
    Out.memIs]

theorem State.dropHandle_keepsMem (s : State) (h : Handle) : (s.dropHandle h).mem = s.mem := by
  unfold State.dropHandle
  grind [!State.physStore_keepsMem, !State.passRoot_keepsMem]

theorem State.tileClose_keepsMem (s : State) (h : Handle) : (s.tileClose h).2.mem = s.mem := by
  unfold State.tileClose
  grind [!State.writeViews_keepsMem, !State.dropHandle_keepsMem]

theorem State.withHandle_cases (s : State) (w : Wave) (f : Fields) (k : Handle → Out) :
    Out.memIs s.mem (s.withHandle w f k) ∨ ∃ h, s.withHandle w f k = k h := by
  unfold State.withHandle
  grind [Out.memIs, !State.trap_keepsMem]

theorem execTileClose_keepsMem (f : Fields) (s : State) : Out.memIs s.mem (execTileClose f s) := by
  unfold execTileClose
  grind [!State.tileClose_keepsMem, !State.finish_keepsMem, !State.front_cases, !State.withHandle_cases, Out.memIs]

theorem execTileAcq_keepsMem (f : Fields) (s : State) : Out.memIs s.mem (execTileAcq f s) := by
  unfold execTileAcq
  grind [!State.stall_keepsMem, !State.finish_keepsMem, !State.front_cases, !State.modMe_mem, !State.modCord_mem,
    !State.withHandle_cases, !State.modHandle_mem, !State.trap_keepsMem, Out.memIs]

theorem execTileRel_keepsMem (f : Fields) (s : State) : Out.memIs s.mem (execTileRel f s) := by
  unfold execTileRel
  grind [!State.stall_keepsMem, !State.finish_keepsMem, !State.front_cases, !State.withHandle_cases, !State.releaseEntry_keepsMem,
    !State.trap_keepsMem, Out.memIs]

theorem State.tileSplit_keepsMem (s : State) (w : Wave) (h : Handle) (k ix : Nat) : (s.tileSplit w h k ix).1.mem = s.mem := by
  unfold State.tileSplit
  grind [!State.writeRecord_keepsMem, !State.physStore_keepsMem, !State.translate_keepsMem, foldl_mem_or, foldl_fst_mem_or,
    foldl_snd_mem_or]

theorem execTileSplit_keepsMem (f : Fields) (s : State) : Out.memIs s.mem (execTileSplit f s) := by
  unfold execTileSplit
  grind [!State.finish_keepsMem, !State.take_cases, !State.front_cases, !State.tileSplit_keepsMem, !State.withHandle_cases,
    Out.memIs]

theorem execTileQry_keepsMem (f : Fields) (s : State) : Out.memIs s.mem (execTileQry f s) := by
  unfold execTileQry
  grind [!State.finish_keepsMem, !State.front_cases, Out.memIs]

end Sys2Proof.Machine
end

section
/-! What the functions of Sys2Proof/Machine/QueueInstr.lean leave of memory at home. -/

namespace Sys2Proof.Machine

set_option Elab.async false

theorem State.viaLocate_keepsMem (s : State) (v : Via) (kind : Nat) (l : List (Nat × Nat)) :
    (s.viaLocate v kind l).1.mem = s.mem := by
  unfold State.viaLocate
  grind [!State.locate_keepsMem]

theorem State.viaLoad_keepsMem (s : State) (v : Via) (va n : Nat) : (s.viaLoad v va n).1.mem = s.mem := by
  unfold State.viaLoad
  grind [!State.viaLocate_keepsMem, !andThen_cases, !State.modWave_mem, !State.useHome_keepsMem]

theorem State.settle_keepsMem (s : State) (core : Option Nat) (sec : Nat) : (s.settle core sec).mem = s.mem := by
  unfold State.settle
  grind [!State.acceptSector_keepsMem, !State.flushSector_keepsMem]

theorem State.viaStore_keepsMem (s : State) (v : Via) (va : Nat) (bs : List Byte) : (s.viaStore v va bs).1.mem = s.mem := by
  unfold State.viaStore
  grind [!State.viaLocate_keepsMem, !State.settle_keepsMem, !andThen_cases, !State.storePieces_keepsMem, foldl_mem_or,
    foldl_fst_mem_or, foldl_snd_mem_or]

theorem State.viaPeek_keepsMem (s : State) (v : Via) (va n : Nat) : (s.viaPeek v va n).1.mem = s.mem := by
  unfold State.viaPeek
  grind [!State.viaLocate_keepsMem, !State.settle_keepsMem, !andThen_cases, !State.modWave_mem]

theorem State.viaAtomic_keepsMem (s : State) (v : Via) (va n : Nat) (f : Nat → Nat) : (s.viaAtomic v va n f).1.mem = s.mem := by
  unfold State.viaAtomic
  grind [!State.viaLocate_keepsMem, !State.settle_keepsMem, !andThen_cases, !State.putHome_keepsMem, !State.modWave_mem,
    !State.useHome_keepsMem]

theorem State.putEntries_keepsMem (v : Via) (d : List Byte) (a1 : List (List Byte)) (a2 a3 : Nat) (a4 : State) :
    (State.putEntries v d a1 a2 a3 a4).1.mem = a4.mem := by
  fun_induction State.putEntries <;> grind [!State.notBefore_keepsMem, !State.viaStore_keepsMem, !andThen_cases, foldl_mem_or,
    foldl_fst_mem_or, foldl_snd_mem_or]

theorem State.ringAdd_keepsMem (s : State) (v : Via) (desc : Nat) (d : List Byte) (resv : Nat) (rs : List (List Byte)) :
    (s.ringAdd v desc d resv rs).1.mem = s.mem := by
  unfold State.ringAdd
  rcases State.whole_cases s _ with h | h
  · exact h
  · rw [h]
    refine andThen_mem_eq (s.viaLocate_keepsMem ..) fun t _ ht => ?_
    refine andThen_mem_eq ((t.viaLocate_keepsMem ..).trans ht) fun t _ ht => ?_
    refine andThen_mem_eq ((t.viaAtomic_keepsMem ..).trans ht) fun t _ ht => ?_
    refine andThen_mem_eq ((State.putEntries_keepsMem ..).trans ht) fun t _ ht => ?_
    refine andThen_mem_eq ((State.viaStore_keepsMem ..).trans ht) fun t ids ht => ?_
    grind [foldl_mem_or, !State.notBefore_keepsMem]

theorem State.enqueue_keepsMem (s : State) (tag q : Nat) (r : List Byte) : (s.enqueue tag q r).1.mem = s.mem := by
  unfold State.enqueue
  grind [!State.viaPeek_keepsMem, !State.viaLoad_keepsMem, !State.ringAdd_keepsMem, !andThen_cases]

theorem State.succRecord_keepsMem (s : State) (tag x : Nat) : (s.succRecord tag x).1.mem = s.mem := by
  unfold State.succRecord
  grind [!State.viaLoad_keepsMem]

theorem State.releaseSucc_keepsMem (s : State) (tag : Nat) (sup : Bool) (counter pa x : Nat) (r : Option (List Byte)) :
    (s.releaseSucc tag sup counter pa x r).1.mem = s.mem := by
  unfold State.releaseSucc
  grind [!State.post_mem, !State.enqueue_keepsMem, !andThen_cases, !State.viaAtomic_keepsMem]

theorem State.joinStep_keepsMem (s : State) (v : Via) (counter n : Nat) (inc : Bool) :
    (s.joinStep v counter n inc).1.mem = s.mem := by
  unfold State.joinStep
  grind [!State.viaPeek_keepsMem, !State.viaLocate_keepsMem, !State.whole_cases, !State.releaseSucc_keepsMem,
    !State.settle_keepsMem, !andThen_cases, !State.viaAtomic_keepsMem, !State.succRecord_keepsMem]

theorem State.joinDec_keepsMem (s : State) (tag counter : Nat) : (s.joinDec tag counter).1.mem = s.mem := by
  unfold State.joinDec
  grind [!State.post_mem, !State.joinStep_keepsMem, !State.faultLater_keepsMem]

theorem State.prioVia_keepsMem (s : State) (v : Via) (q : Nat) : (s.prioVia v q).1.mem = s.mem := by
  unfold State.prioVia
  grind [!State.viaLoad_keepsMem, !andThen_cases]

theorem State.ret_keepsMem (s : State) (f : Fields) (x : Nat) : Out.memIs s.mem (s.ret f x) := rfl

theorem State.recInvalid_keepsMem (s : State) (w : Wave) (code : Nat) : Out.memIs s.mem (s.recInvalid w code) := by
  unfold State.recInvalid
  grind [!State.trap_keepsMem, Out.memIs]

theorem State.pushLoop_keepsMem (s : State) (w : Wave) (f : Fields) (q : Nat) (r : List Byte) :
    Out.memIs s.mem (s.pushLoop w f q r) := by
  unfold State.pushLoop
  grind [!State.viaPeek_keepsMem, !State.ret_keepsMem, !State.viaLoad_keepsMem, !State.ringAdd_keepsMem, !State.take_cases,
    !State.modMe_mem, Out.memIs]

theorem execQpush_keepsMem (f : Fields) (s : State) : Out.memIs s.mem (execQpush f s) := by
  unfold execQpush
  grind [!State.ret_keepsMem, !State.stall_keepsMem, !State.prioVia_keepsMem, !State.viaLoad_keepsMem, !State.pushLoop_keepsMem,
    !State.recInvalid_keepsMem, !State.take_cases, !State.front_cases, Out.memIs]

theorem execQnotify_keepsMem (f : Fields) (s : State) : Out.memIs s.mem (execQnotify f s) := by
  unfold execQnotify
  grind [!State.stall_keepsMem, !State.finish_keepsMem, !State.front_cases, !State.modCtx_mem, Out.memIs]

theorem State.spawnEnter_keepsMem (s : State) (w : Wave) (f : Fields) (q : Nat) (r : List Byte) :
    Out.memIs s.mem (s.spawnEnter w f q r) := by
  unfold State.spawnEnter
  grind [Out.memIs, State.ret_memIs, !State.modMe_mem]

theorem execSpawn_keepsMem (f : Fields) (s : State) : Out.memIs s.mem (execSpawn f s) := by
  unfold execSpawn
  grind [!State.stall_keepsMem, !State.viaLoad_keepsMem, !State.recInvalid_keepsMem, !State.take_cases, !State.front_cases,
    !State.spawnEnter_keepsMem, Out.memIs]

theorem State.joinBy_keepsMem (s : State) (i : Instr) (f : Fields) (inc : Bool) : Out.memIs s.mem (s.joinBy i f inc) := by
  unfold State.joinBy
  grind [!State.ret_keepsMem, !State.stall_keepsMem, !State.take_cases, !State.front_cases, !State.joinStep_keepsMem,
    !State.trap_keepsMem, Out.memIs]

theorem execJoin_keepsMem (f : Fields) (s : State) : Out.memIs s.mem (execJoin f s) := by
  unfold execJoin
  grind [!State.joinBy_keepsMem, Out.memIs]

theorem execJoinInc_keepsMem (f : Fields) (s : State) : Out.memIs s.mem (execJoinInc f s) := by
  unfold execJoinInc
  grind [!State.joinBy_keepsMem, Out.memIs]

theorem State.emitAll_keepsMem (s : State) (v : Via) (desc : Nat) (d : List Byte) (resv join : Nat) (made : List (List Byte)) :
    (s.emitAll v desc d resv join made).1.mem = s.mem := by
  unfold State.emitAll
  grind [!State.whole_cases, !State.ringAdd_keepsMem, !andThen_cases, !State.joinStep_keepsMem]

theorem execEmit_keepsMem (f : Fields) (s : State) : Out.memIs s.mem (execEmit f s) := by
  refine front_memIs fun t w ht => ?_
  extract_lets tag v me r node
  split
  next code q valid _ =>
  extract_lets self lanes a
  split
  · exact State.ret_memIs ht f 0
  split
  · exact Out.memIs.of_eq (t.recInvalid_keepsMem ..) ht
  split
  · exact Out.memIs.of_eq (t.trap_keepsMem ..) ht
  split
  · exact State.ret_memIs ht f 1
  split
  · exact State.ret_memIs ht f 2
  refine take_memIs ((t.viaLoad_keepsMem ..).trans ht) fun u d hu => ?_
  split
  · exact State.ret_memIs hu f 4
  split
  · exact Out.memIs.of_eq (u.recInvalid_keepsMem ..) hu
  split
  · exact Out.memIs.of_eq u.stall_keepsMem hu
  refine take_memIs ((u.viaPeek_keepsMem ..).trans hu) fun u resv hu => ?_
  extract_lets join
  split
  · exact Out.memIs.of_eq u.stall_keepsMem hu
  refine take_memIs ((u.viaLocate_keepsMem ..).trans hu) fun u _ hu => ?_
  refine take_memIs ((u.viaLocate_keepsMem ..).trans hu) fun u _ hu => ?_
  refine take_memIs ((u.emitAll_keepsMem ..).trans hu) fun u _ hu => ?_
  exact State.ret_memIs hu f 0

theorem State.ringOfQueue_keepsMem (s : State) (v : Via) (q : Nat) : (s.ringOfQueue v q).1.mem = s.mem := by
  unfold State.ringOfQueue
  grind [!State.viaLoad_keepsMem, !andThen_cases]

theorem State.headEntry_keepsMem (s : State) (v : Via) (q : Nat) : (s.headEntry v q).1.mem = s.mem := by
  unfold State.headEntry
  grind [!State.viaPeek_keepsMem, !State.viaLoad_keepsMem, !andThen_cases, !State.ringOfQueue_keepsMem]

theorem State.popReads_keepsMem (v : Via) (x : Nat × Nat) (a1 a2 : Nat) (a3 : State) :
    (State.popReads v x a1 a2 a3).1.mem = a3.mem := by
  fun_induction State.popReads <;> grind [!State.viaLoad_keepsMem, !andThen_cases]

theorem State.popChecked_cases (s : State) (v : Via) (q n : Nat) (k : State → Out) :
    Out.memIs s.mem (s.popChecked v q n k) ∨ ∃ t, t.mem = s.mem ∧ s.popChecked v q n k = k t := by
  unfold State.popChecked
  grind [Out.memIs, !State.take_cases, !State.ringOfQueue_keepsMem, !State.viaPeek_keepsMem, !State.popReads_keepsMem]

theorem State.popLanes_keepsMem (v : Via) (q code : Nat) (a1 : List Nat) (a2 : State) :
    (State.popLanes v q code a1 a2).1.mem = a2.mem := by
  fun_induction State.popLanes <;> grind [!State.stopQueue_keepsMem, !State.joinDec_keepsMem, !andThen_cases,
    !State.viaAtomic_keepsMem, !State.headEntry_keepsMem]

theorem execNodePop_keepsMem (f : Fields) (s : State) : Out.memIs s.mem (execNodePop f s) := by
  unfold execNodePop
  grind [!State.whole_cases, !State.popChecked_cases, !State.recInvalid_keepsMem, !State.finish_keepsMem, !State.take_cases,
    !State.front_cases, !State.modMe_mem, !State.popLanes_keepsMem, !State.fillLanes_keepsMem, !State.headEntry_keepsMem,
    Out.memIs]

end Sys2Proof.Machine
end

section
/-! What the functions of Sys2Proof/Machine/Kernel.lean leave of memory at home. -/

namespace Sys2Proof.Machine

set_option Elab.async false

theorem State.ring_keepsMem (s : State) (tag q : Nat) : (s.ring tag q).1.mem = s.mem := by
  unfold State.ring
  grind [!State.waited_keepsMem, !State.setQueue_keepsMem, !State.faultLater_keepsMem, !State.headEntry_keepsMem]

theorem execDoorbell_keepsMem (tag q : Nat) (s : State) : Out.memIs s.mem (execDoorbell tag q s) := by
  unfold execDoorbell
  grind [!State.ring_keepsMem, Out.memIs]

theorem State.ringAgain_keepsMem (s : State) : (s.ringAgain).mem = s.mem := by
  unfold State.ringAgain
  grind [!State.ring_keepsMem, foldl_mem_or, foldl_fst_mem_or, foldl_snd_mem_or]

theorem State.mapQueue_keepsMem (s : State) (slot tag q : Nat) : (s.mapQueue slot tag q).mem = s.mem := by
  unfold State.mapQueue
  grind [!State.stopQueue_keepsMem, !State.ctxFault_keepsMem, !State.waited_keepsMem, !State.setQueue_keepsMem,
    !State.viaLocate_keepsMem, !State.viaLoad_keepsMem, !andThen_cases]

theorem execQueueMap_keepsMem (slot : Nat) (s : State) : Out.memIs s.mem (execQueueMap slot s) := by
  unfold execQueueMap
  grind [!State.mapQueue_keepsMem, Out.memIs]

theorem State.preempt_keepsMem (s : State) (tag : Nat) : (s.preempt tag).mem = s.mem := by
  unfold State.preempt
  grind [!State.modCtx_mem]

theorem State.meetSlot_keepsMem (s : State) (n : Nat) : (s.meetSlot n).2.mem = s.mem := by
  unfold State.meetSlot
  grind [!State.stopQueue_keepsMem, !State.waited_keepsMem, !State.viaLoad_keepsMem, !State.faultLater_keepsMem]

theorem execSliceEnd_keepsMem (slot : Nat) (s : State) : Out.memIs s.mem (execSliceEnd slot s) := by
  unfold execSliceEnd
  grind [!State.preempt_keepsMem, !State.setQueue_keepsMem, !State.mapQueue_keepsMem, !State.meetSlot_keepsMem, Out.memIs]

theorem execQueueResume_keepsMem (tag q : Nat) (s : State) : Out.memIs s.mem (execQueueResume tag q s) := by
  unfold execQueueResume
  grind [!State.setQueue_keepsMem, Out.memIs]

theorem State.readyCheck_keepsMem (s : State) (tag : Nat) : (s.readyCheck tag).mem = s.mem := by
  unfold State.readyCheck
  grind [!State.setCtx_keepsMem]

theorem State.idleCheck_keepsMem (s : State) (tag q : Nat) : (s.idleCheck tag q).mem = s.mem := by
  unfold State.idleCheck
  grind [!State.waited_keepsMem, !State.setQueue_keepsMem, !State.faultLater_keepsMem, !State.readyCheck_keepsMem,
    !State.headEntry_keepsMem]

theorem execRecordTake_keepsMem (slot : Nat) (s : State) : Out.memIs s.mem (execRecordTake slot s) := by
  unfold execRecordTake
  grind [!State.stopQueue_keepsMem, !State.ctxFault_keepsMem, !State.waited_keepsMem, !State.idleCheck_keepsMem,
    !State.descStore_keepsMem, !State.meetSlot_keepsMem, !State.readyCheck_keepsMem, !State.headEntry_keepsMem, Out.memIs]

theorem State.readKernel_keepsMem (s : State) (tag code : Nat) : (s.readKernel tag code).1.mem = s.mem := by
  unfold State.readKernel
  grind [!State.viaLoad_keepsMem]

theorem State.refuse_keepsMem (s : State) (r : Rec) (reason : Nat) : (s.refuse r reason).mem = s.mem := by
  unfold State.refuse
  grind [!State.stopQueue_keepsMem, !State.descStore_keepsMem, !State.readyCheck_keepsMem]

theorem execRecordExpand_keepsMem (slot : Nat) (s : State) : Out.memIs s.mem (execRecordExpand slot s) := by
  unfold execRecordExpand
  have hslot := s.meetSlot_keepsMem slot
  generalize (s.meetSlot slot).2 = t at hslot ⊢
  rw [← hslot]
  dsimp only
  split
  · rfl
  split
  · rfl
  split
  · rfl
  split
  · rfl
  split
  · exact State.refuse_keepsMem ..
  next x _ _ _ r _ _ _ _ =>
  have hkernel := t.readKernel_keepsMem x.tag (recCode r.bytes)
  have hbegin : ∀ (u : State) st k, u.mem = t.mem → (u.modRec r.uid fun y => { y with
      stage := st, kernel := k, grid := recCount r.bytes, buffer := none }).mem = t.mem := fun _ _ _ hu => hu
  split
  · rfl
  · rfl
  · rfl
  · split <;> rename_i e <;> rw [e] at hkernel
    · exact hbegin _ _ _ hkernel
    · exact (State.refuse_keepsMem ..).trans hkernel
    · exact (State.ctxFault_keepsMem ..).trans hkernel
    · rfl
    · exact (State.refuse_keepsMem ..).trans hkernel

theorem State.place_keepsMem (s : State) (r : Rec) (k : Kernel) (n core : Nat) (l : List (Nat × Berth)) (scratch : Nat) :
    (s.place r k n core l scratch).mem = s.mem := by
  unfold State.place
  grind [!State.modRec_mem, !State.setCtx_keepsMem, !State.startStreams_keepsMem, foldl_mem_or, foldl_fst_mem_or, foldl_snd_mem_or]

theorem execCordPlace_keepsMem (slot : Nat) (s : State) : Out.memIs s.mem (execCordPlace slot s) := by
  unfold execCordPlace
  grind [!State.place_keepsMem, Out.memIs]

theorem State.setCur_keepsMem (s : State) (was : Option WaveId) : (s.setCur was).mem = s.mem := rfl

theorem State.removeCord_keepsMem (s : State) (c : Cord) : (s.removeCord c).mem = s.mem := by
  unfold State.removeCord
  grind [!State.keepInvals_keepsMem, !State.modRec_mem, !State.setCur_keepsMem, foldl_mem_or, foldl_fst_mem_or, foldl_snd_mem_or]

theorem execCordRetire_keepsMem (uid : Nat) (s : State) : Out.memIs s.mem (execCordRetire uid s) := by
  unfold execCordRetire
  grind [!State.idleCheck_keepsMem, !State.removeCord_keepsMem, !State.releaseEntry_keepsMem, !State.readyCheck_keepsMem,
    Out.memIs, foldl_mem_or, foldl_fst_mem_or, foldl_snd_mem_or]

theorem execRecordRetire_keepsMem (uid : Nat) (s : State) : Out.memIs s.mem (execRecordRetire uid s) := by
  unfold execRecordRetire
  grind [!State.joinDec_keepsMem, !State.idleCheck_keepsMem, !State.readyCheck_keepsMem, Out.memIs]

theorem State.releaseHeld_keepsMem (s : State) (a : List (Nat × HeldSucc)) : (s.releaseHeld a).mem = s.mem := by
  fun_induction State.releaseHeld <;> grind [!State.waited_keepsMem, !State.enqueue_keepsMem, !State.faultLater_keepsMem]

theorem execSuccessorRelease_keepsMem (die : Nat) (s : State) : Out.memIs s.mem (execSuccessorRelease die s) := by
  unfold execSuccessorRelease
  grind [!State.releaseHeld_keepsMem, Out.memIs]

end Sys2Proof.Machine
end

section
/-! What the functions of Sys2Proof/Machine/Context.lean leave of memory at home. -/

namespace Sys2Proof.Machine

set_option Elab.async false

theorem execCtxCreate_keepsMem (tag blk : Nat) (s : State) : Out.memIs s.mem (execCtxCreate tag blk s) := by
  unfold execCtxCreate
  grind [!State.physStore_keepsMem, !State.modCtx_mem, !State.cmdStatus_keepsMem, Out.memIs]

theorem State.readBlock_keepsMem (s : State) (tag : Nat) : (s.readBlock tag).2.mem = s.mem := by
  unfold State.readBlock
  grind [!State.meetErrors_keepsMem, foldl_mem_or, foldl_fst_mem_or, foldl_snd_mem_or]

theorem execCtxCommit_keepsMem (tag blk : Nat) (s : State) : Out.memIs s.mem (execCtxCommit tag blk s) := by
  unfold execCtxCommit
  grind [!State.physStore_keepsMem, !State.readBlock_keepsMem, !State.modCtx_mem, !State.cmdStatus_keepsMem,
    !State.setCtx_keepsMem, Out.memIs]

theorem execCtxDestroy_keepsMem (tag blk : Nat) (s : State) : Out.memIs s.mem (execCtxDestroy tag blk s) := by
  unfold execCtxDestroy
  grind [!State.qpError_keepsMem, !State.dropCords_keepsMem, !State.dropRecords_keepsMem, !State.cmdStatus_keepsMem,
    !State.setCtx_keepsMem, !State.freeSlots_keepsMem, Out.memIs, foldl_mem_or, foldl_fst_mem_or, foldl_snd_mem_or]

theorem State.clearMailbox_keepsMem (s : State) (tag : Nat) : (s.clearMailbox tag).mem = s.mem := by
  unfold State.clearMailbox
  grind [!State.physStore_keepsMem, foldl_mem_or, foldl_fst_mem_or, foldl_snd_mem_or]

theorem State.releaseTenure_keepsMem (s : State) (r : RootId) (core : Nat) : (s.releaseTenure r core).mem = s.mem := by
  unfold State.releaseTenure
  grind [!State.dropCopies_keepsMem, !State.modHandle_mem, !State.writeBack_keepsMem]

theorem execDestroyComplete_keepsMem (tag : Nat) (s : State) : Out.memIs s.mem (execDestroyComplete tag s) := by
  unfold execDestroyComplete
  grind [!State.post_mem, !State.modQp_mem, !State.releaseTenure_keepsMem, !State.dropHandle_keepsMem, !State.qpComplete_keepsMem,
    !State.clearMailbox_keepsMem, !State.setCtx_keepsMem, Out.memIs, foldl_mem_or, foldl_fst_mem_or, foldl_snd_mem_or]

theorem execInval_keepsMem (tag : Nat) (addr len : Word64) (blk : Nat) (s : State) :
    Out.memIs s.mem (execInval tag addr len blk s) := by
  unfold execInval
  grind [!State.cmdStatus_keepsMem, Out.memIs]

theorem State.saveErrors_keepsMem (s : State) (c : Cord) : (s.saveErrors c).2.mem = s.mem := by
  unfold State.saveErrors
  grind [!State.takeFlaws_keepsMem]

theorem State.takeImage_keepsMem (s : State) (uid : Nat) : (s.takeImage uid).2.mem = s.mem := by
  unfold State.takeImage
  grind [!State.leaveSlot_keepsMem, !State.releaseEntry_keepsMem, !State.setCur_keepsMem, foldl_mem_or, foldl_fst_mem_or,
    foldl_snd_mem_or]

theorem State.writeImages_keepsMem (tag : Nat) (a1 : List Image) (a2 : Nat) (a3 : State) :
    (State.writeImages tag a1 a2 a3).1.mem = a3.mem := by
  fun_induction State.writeImages <;> grind [!State.viaStore_keepsMem, !andThen_cases]

theorem State.saveContext_keepsMem {s t0 : State} (h : t0.mem = s.mem) (tag : Nat) : (s.saveContext tag t0).mem = s.mem := by
  unfold State.saveContext
  extract_lets c cords taken images t kids size
  have ht : t.mem = s.mem := foldl_snd_mem (fun p c => by grind [!State.takeImage_keepsMem]) cords ([], s)
  have hfail := fun reason => (t0.ctxFault_keepsMem tag reason).trans h
  split
  · exact hfail _
  have himages := (State.writeImages_keepsMem tag images c.savebase t).trans ht
  split <;> rename_i e <;> rw [e] at himages
  · next u images fin =>
    have hkids := (u.viaStore_keepsMem (schedVia tag) fin (kids.flatMap fun r => r.bytes)).trans himages
    split <;> rename_i e <;> rw [e] at hkids
    · exact (State.freeSlots_keepsMem ..).trans ((State.setCtx_keepsMem ..).trans ((State.modCtx_mem ..).trans hkids))
    · exact hfail _
    · exact hfail _
    · exact h
  · exact hfail _
  · exact hfail _
  · exact h

theorem execDrainEnd_keepsMem (tag : Nat) (s : State) : Out.memIs s.mem (execDrainEnd tag s) := by
  unfold execDrainEnd
  grind [!State.dropGather_keepsMem, !State.ctxFault_keepsMem, !State.saveContext_keepsMem, !State.saveErrors_keepsMem, Out.memIs,
    foldl_mem_or, foldl_fst_mem_or, foldl_snd_mem_or]

theorem execDrainTimeout_keepsMem (tag : Nat) (s : State) : Out.memIs s.mem (execDrainTimeout tag s) := by
  unfold execDrainTimeout
  grind [!State.ctxFault_keepsMem, Out.memIs]

theorem execContextResume_keepsMem (tag : Nat) (s : State) : Out.memIs s.mem (execContextResume tag s) := by
  unfold execContextResume
  grind [!State.ctxFault_keepsMem, !State.viaLoad_keepsMem, !State.modCtx_mem, !State.setCtx_keepsMem, Out.memIs, foldl_mem_or,
    foldl_fst_mem_or, foldl_snd_mem_or]

theorem State.restoreCord_keepsMem (s : State) (m : Image) (core : Nat) (l : List (Nat × Berth)) (scratch : Nat) :
    (s.restoreCord m core l scratch).mem = s.mem := rfl

theorem State.imageGood_keepsMem (s : State) (tag : Nat) (m : Image) : (s.imageGood tag m).1.mem = s.mem := by
  unfold State.imageGood
  grind [!State.viaLocate_keepsMem, !andThen_cases]

theorem execCordRestore_keepsMem (tag : Nat) (s : State) : Out.memIs s.mem (execCordRestore tag s) := by
  unfold execCordRestore
  dsimp only
  split
  · exact State.reacquire_keepsMem ..
  split
  · rfl
  split
  · rfl
  split
  · rfl
  next m _ _ _ _ _ _ _ =>
  have hgood := s.imageGood_keepsMem tag m
  split <;> rename_i e <;> rw [e] at hgood
  · exact (State.ctxFault_keepsMem ..).trans hgood
  · exact (State.ctxFault_keepsMem ..).trans hgood
  · exact hgood
  · exact (State.ctxFault_keepsMem ..).trans hgood
  · grind [Out.memIs, !State.restoreCord_keepsMem, !State.modCtx_mem, !State.setCtx_keepsMem, !State.haltsAgain_keepsMem,
    !State.reacquire_keepsMem, !State.ctxFault_keepsMem, !State.waited_keepsMem]

theorem execSleepDeadline_keepsMem (id : WaveId) (s : State) : Out.memIs s.mem (execSleepDeadline id s) := rfl

theorem State.wakeEntry_keepsMem (s : State) (value : Word64) : (s.wakeEntry value).1.mem = s.mem := by
  unfold State.wakeEntry
  grind [!State.waited_keepsMem, !State.viaLocate_keepsMem, !State.viaLoad_keepsMem, !andThen_cases, !State.storePieces_keepsMem,
    !State.modCtx_mem, !State.faultLater_keepsMem]

theorem execNkwake_keepsMem (value : Word64) (s : State) : Out.memIs s.mem (execNkwake value s) := by
  unfold execNkwake
  grind [!State.wakeEntry_keepsMem, Out.memIs]

theorem State.wakeAgain_keepsMem (s : State) : (s.wakeAgain).mem = s.mem := by
  unfold State.wakeAgain
  grind [!State.wakeEntry_keepsMem, foldl_mem_or, foldl_fst_mem_or, foldl_snd_mem_or]

theorem execEventPost_keepsMem (die : Nat) (s : State) : Out.memIs s.mem (execEventPost die s) := by
  unfold execEventPost
  grind [!State.ctxFault_keepsMem, !State.interrupt_keepsMem, !State.ringPost_keepsMem, Out.memIs]

end Sys2Proof.Machine
end

section
/-! What the functions of Sys2Proof/Machine/Rays.lean leave of memory at home. -/

namespace Sys2Proof.Machine

set_option Elab.async false

theorem State.unitLease_keepsMem (s : State) (pa : Nat) (e : Word64) : (s.unitLease pa e).mem = s.mem := by
  unfold State.unitLease
  grind [!State.modLease_mem]

theorem State.unitLoad_keepsMem (s : State) (r : Reader) (va n : Nat) : (s.unitLoad r va n).1.mem = s.mem := by
  unfold State.unitLoad
  grind [!State.locate_keepsMem, !State.unitLease_keepsMem, !andThen_cases, !State.useHome_keepsMem, foldl_mem_or,
    foldl_fst_mem_or, foldl_snd_mem_or]

theorem State.streamField_keepsMem (s : State) (r : Reader) (va k n : Nat) : (s.streamField r va k n).1.mem = s.mem := by
  unfold State.streamField
  grind [!State.unitLoad_keepsMem, !andThen_cases]

theorem State.corners_keepsMem (s : State) (r : Reader) (rec : Nat) (h : List Byte) (j : Nat) :
    (s.corners r rec h j).1.mem = s.mem := by
  unfold State.corners
  grind [!State.streamField_keepsMem, !andThen_cases]

theorem State.nodeAt_keepsMem (s : State) (r : Reader) (base count i : Nat) : (s.nodeAt r base count i).1.mem = s.mem := by
  unfold State.nodeAt
  grind [!State.unitLoad_keepsMem, !andThen_cases]

theorem State.nodeTris_keepsMem (s : State) (rd : Reader) (ray : Ray) (cull : Nat) (any : Bool) (rec k : Nat) (h : List Byte)
    (a1 : List Nat) (a2 : Found) :
    (s.nodeTris rd ray cull any rec k h a1 a2).1.mem = s.mem := by
  fun_induction State.nodeTris <;> grind [!State.corners_keepsMem]

theorem State.travRecord_keepsMem (rd : Reader) (ray : Ray) (cull : Nat) (any : Bool) (rec k : Nat) (h : List Byte) (a1 : Nat)
    (a2 : Trav) (a3 : State) :
    (State.travRecord rd ray cull any rec k h a1 a2 a3).1.mem = a3.mem := by
  fun_induction State.travRecord <;> grind [!State.nodeTris_keepsMem, !andThen_cases, !State.nodeAt_keepsMem]

theorem State.travCluster_keepsMem (s : State) (rd : Reader) (ray : Ray) (cull : Nat) (any : Bool) (out nsel k : Nat) (f : Found) :
    (s.travCluster rd ray cull any out nsel k f).1.mem = s.mem := by
  unfold State.travCluster
  grind [!State.unitLoad_keepsMem, !State.travRecord_keepsMem, !andThen_cases]

theorem State.travTop_keepsMem (rd : Reader) (ray : Ray) (cull : Nat) (any : Bool) (sc : Scene) (a1 : Nat) (a2 : Trav)
    (a3 : State) :
    (State.travTop rd ray cull any sc a1 a2 a3).1.mem = a3.mem := by
  fun_induction State.travTop <;> grind [!andThen_cases, !State.nodeAt_keepsMem, !State.travCluster_keepsMem]

theorem State.traverse_keepsMem (s : State) (rd : Reader) (ray : Ray) (cull : Nat) (any : Bool) (sc : Scene) :
    (s.traverse rd ray cull any sc).1.mem = s.mem := by
  unfold State.traverse
  grind [!State.travTop_keepsMem]

theorem State.unitLanes_cases (s : State) (w : Wave) (f : Fields) (n : Nat) (one : State → Nat → State × Acc (List Word)) :
    Out.memIs s.mem (s.unitLanes w f n one) ∨ ∃ t l, (one t l).1.mem ≠ t.mem := by
  unfold State.unitLanes
  grind [Out.memIs, foldl_fst_mem_or, !State.trap_keepsMem, !State.ctxFault_keepsMem, !State.stall_keepsMem,
    !State.fillLanes_keepsMem]

theorem execRtBox_keepsMem (f : Fields) (s : State) : Out.memIs s.mem (execRtBox f s) := by
  unfold execRtBox
  grind [!State.unitLoad_keepsMem, !State.unitLanes_cases, !andThen_cases, !State.front_cases, Out.memIs]

theorem execRtTri_keepsMem (f : Fields) (s : State) : Out.memIs s.mem (execRtTri f s) := by
  unfold execRtTri
  grind [!State.corners_keepsMem, !State.unitLoad_keepsMem, !State.unitLanes_cases, !andThen_cases, !State.front_cases, Out.memIs]

theorem execRtTriReg_keepsMem (f : Fields) (s : State) : Out.memIs s.mem (execRtTriReg f s) := by
  unfold execRtTriReg
  grind [!State.unitLanes_cases, !State.front_cases, Out.memIs]

theorem execRtTrace_keepsMem (f : Fields) (s : State) : Out.memIs s.mem (execRtTrace f s) := by
  unfold execRtTrace
  grind [!State.unitLoad_keepsMem, !State.unitLanes_cases, !andThen_cases, !State.front_cases, !State.traverse_keepsMem, Out.memIs]

end Sys2Proof.Machine
end

section
/-! What the functions of Sys2Proof/Machine/CutEngine.lean leave of memory at home. -/

namespace Sys2Proof.Machine

set_option Elab.async false

theorem mapUntil_cases {α : Type} (one : State → Nat → State × Acc (α ⊕ Nat)) (l : List Nat) (s : State) :
    (mapUntil one l s).1.mem = s.mem ∨ ∃ t n, (one t n).1.mem ≠ t.mem := by
  induction l generalizing s with
  | nil => exact .inl rfl
  | cons n rest ih =>
    rw [mapUntil]
    grind [!andThen_cases]

theorem mapUntil_mem {α : Type} {one : State → Nat → State × Acc (α ⊕ Nat)} (h : ∀ t n, (one t n).1.mem = t.mem) (l : List Nat)
    (s : State) : (mapUntil one l s).1.mem = s.mem := (mapUntil_cases one l s).resolve_right fun ⟨t, n, e⟩ => e (h t n)

theorem State.readSet_keepsMem (rd : Reader) (g : Graph) (s : State) (n : Nat) : (State.readSet rd g s n).1.mem = s.mem := by
  unfold State.readSet
  grind [!State.unitLoad_keepsMem, !andThen_cases]

theorem State.readCdir_keepsMem (rd : Reader) (g : Graph) (s : State) (c : Nat) : (State.readCdir rd g s c).1.mem = s.mem := by
  unfold State.readCdir
  grind [!State.unitLoad_keepsMem, !andThen_cases]

theorem State.readMember_keepsMem (rd : Reader) (g : Graph) (sets : List MergeSet) (m : MergeSet) (page : Nat) (s : State)
    (c : Nat) :
    (State.readMember rd g sets m page s c).1.mem = s.mem := by
  unfold State.readMember
  grind [!State.unitLoad_keepsMem, !State.readCdir_keepsMem, !andThen_cases]

theorem State.readMembers_keepsMem (rd : Reader) (g : Graph) (sets : List MergeSet) (s : State) (n : Nat) :
    (State.readMembers rd g sets s n).1.mem = s.mem := by
  unfold State.readMembers
  grind [!State.unitLoad_keepsMem, !mapUntil_cases, !andThen_cases, !State.readMember_keepsMem]

theorem State.cutCompute_keepsMem (s : State) (rd : Reader) (addr : Nat) (b : List Byte) :
    (s.cutCompute rd addr b).1.mem = s.mem := by
  unfold State.cutCompute
  dsimp only
  split
  · rfl
  refine andThen_mem_eq (s.unitLoad_keepsMem ..) fun t vb ht => ?_
  split
  · exact ht
  refine andThen_mem_eq ((t.unitLoad_keepsMem ..).trans ht) fun t gb ht => ?_
  split
  · exact ht
  next g _ =>
  refine andThen_mem_eq ((mapUntil_mem (fun t n => t.readSet_keepsMem rd g n) ..).trans ht) fun t x ht => ?_
  split
  · exact ht
  next sets =>
  refine andThen_mem_eq ((mapUntil_mem (fun t n => t.readCdir_keepsMem rd g n) ..).trans ht) fun t x ht => ?_
  split
  · exact ht
  refine andThen_mem_eq ((mapUntil_mem (fun t n => t.readMembers_keepsMem rd g sets n) ..).trans ht) fun t x ht => ?_
  split <;> exact ht

theorem State.cutStore_keepsMem (s : State) (rd : Reader) (va : Nat) (bs : List Byte) : (s.cutStore rd va bs).1.mem = s.mem := by
  unfold State.cutStore
  grind [!State.hwStore_keepsMem]

/-- A step of a cut run ends as what came before, or as the step. -/
theorem CutRun.go_cases (x : State × CutRun × Acc Unit) (k : State → State × Acc (CutRun → CutRun)) :
    (CutRun.go x k).1 = x.1 ∨ (CutRun.go x k).1 = (k x.1).1 := by
  unfold CutRun.go
  grind

theorem CutRun.go_mem {x : State × CutRun × Acc Unit} {k : State → State × Acc (CutRun → CutRun)} {m : List Host.Cell} (hx : x.1.mem = m)
    (hk : ∀ t, t.mem = m → (k t).1.mem = m) : (CutRun.go x k).1.mem = m := by
  rcases CutRun.go_cases x k with e | e
  · exact e ▸ hx
  · exact e ▸ hk _ hx

theorem State.cutRequest_keepsMem (rd : Reader) (ring page set : Nat) (x : State × CutRun × Acc Unit) :
    (State.cutRequest rd ring page set x).1.mem = x.1.mem := by
  unfold State.cutRequest
  split
  · next s r _ =>
    dsimp only
    split
    · next e =>
      have ht := mem_of_andThen e (s.unitLoad_keepsMem rd ring 32) fun t d ht => andThen_mem_eq ((State.locate_keepsMem ..).trans ht) fun _ _ h => h
      split
      · exact ht
      · have hgo : ∀ y : State × CutRun × Acc Unit, y.1.mem = s.mem → (match y with
            | (s, r, .ok _) => (s, { r with posted := r.posted + 1 }, .ok ())
            | y => y : State × CutRun × Acc Unit).1.mem = s.mem := fun y hy => by split <;> exact hy
        refine hgo _ (CutRun.go_mem (CutRun.go_mem (CutRun.go_mem ht fun t h => ?_) fun t h => ?_) fun t h => ?_)
        · exact andThen_mem_eq ((State.hwAtomic_keepsMem ..).trans h) fun _ _ h => h
        · exact andThen_mem_eq ((State.cutStore_keepsMem ..).trans h) fun _ _ h => h
        · exact andThen_mem_eq ((State.cutStore_keepsMem ..).trans h) fun u mark h => (foldl_mem (fun s i => s.notBefore_keepsMem _ i) _ _).trans h
    all_goals
      next e =>
      exact mem_of_andThen e (s.unitLoad_keepsMem rd ring 32) fun t d ht => andThen_mem_eq ((State.locate_keepsMem ..).trans ht) fun _ _ h => h
  · rfl

theorem State.cutUndefined_keepsMem (s : State) (rd : Reader) (va n : Nat) : (s.cutUndefined rd va n).1.mem = s.mem := by
  unfold State.cutUndefined
  grind [!State.free_keepsMem, !andThen_cases, !State.cutStore_keepsMem, foldl_mem_or, foldl_fst_mem_or, foldl_snd_mem_or]

theorem State.cutEffects_keepsMem (s : State) (rd : Reader) (b : List Byte) (o : CutOut) :
    (s.cutEffects rd b o).1.mem = s.mem := by
  unfold State.cutEffects
  dsimp only
  have hput : ∀ (x : State × CutRun × Acc Unit) (p : Nat × List Byte), (CutRun.go x fun s =>
      andThen (s.cutStore rd p.1 p.2) fun s ids => (s, .ok (CutRun.wrote ids))).1.mem = x.1.mem := fun x p => by
    refine CutRun.go_mem rfl fun t h => ?_
    exact andThen_mem_eq ((t.cutStore_keepsMem rd p.1 p.2).trans h) fun _ _ h => h
  refine (foldl_fst_mem hput _ _).trans ?_
  split
  · rfl
  · have hreq : ∀ (x : State × CutRun × Acc Unit) (q : Nat × Nat),
        (State.cutRequest rd (jobRing b) q.1 q.2 x).1.mem = x.1.mem := fun x q => State.cutRequest_keepsMem rd _ q.1 q.2 x
    exact foldl_fst_mem hreq o.reqs (s, ⟨0, 0, []⟩, .ok ())

theorem State.cutCounts_keepsMem (s : State) (rd : Reader) (addr : Nat) (o : CutOut) (r : CutRun) :
    (s.cutCounts rd addr o r).1.mem = s.mem := by
  unfold State.cutCounts
  grind [!andThen_cases, !State.cutStore_keepsMem]

theorem State.jobRan_keepsMem (s : State) (j : CutJob) (code : Nat) (l : List Nat) (owed : Option (Nat × Nat)) :
    (s.jobRan j code l owed).mem = s.mem := rfl

theorem State.cutSpoil_keepsMem (s : State) (rd : Reader) (b : List Byte) (code : Nat) : (s.cutSpoil rd b code).1.mem = s.mem := by
  unfold State.cutSpoil
  grind [!State.cutUndefined_keepsMem, !andThen_cases]

theorem State.cutFinish_keepsMem (s : State) (j : CutJob) (o : CutOut) (r : CutRun) : (s.cutFinish j o r).1.mem = s.mem := by
  unfold State.cutFinish
  grind [!State.cutSpoil_keepsMem, !State.jobRan_keepsMem, !State.cutCounts_keepsMem, !andThen_cases]

theorem State.cutJob_keepsMem (s : State) (j : CutJob) : (s.cutJob j).1.mem = s.mem := by
  unfold State.cutJob
  grind [!State.cutCompute_keepsMem, !State.cutFinish_keepsMem, !State.cutEffects_keepsMem]

theorem execCutJobRun_keepsMem (die : Nat) (s : State) : Out.memIs s.mem (execCutJobRun die s) := by
  unfold execCutJobRun
  grind [!State.ctxFault_keepsMem, !State.waited_keepsMem, !State.cutJob_keepsMem, Out.memIs]

theorem execCutJobStatus_keepsMem (die : Nat) (s : State) : Out.memIs s.mem (execCutJobStatus die s) := by
  unfold execCutJobStatus
  split
  · rfl
  next j _ =>
  extract_lets rd
  split
  · rename_i owed _
    have howed : owed.1.mem = s.mem := by
      simp only [owed]
      split
      · rfl
      · exact State.cutCounts_keepsMem ..
    split <;> rename_i e <;> have ht := mem_of_andThen e howed fun t c ht =>
      andThen_mem_eq ((t.cutStore_keepsMem rd (j.addr + 0x50) (bytesOfNat 8 s.time)).trans ht) fun t a ht =>
      andThen_mem_eq ((t.cutStore_keepsMem rd (j.addr + 0x3C) (bytesOfNat 4 j.code)).trans ht) fun t b ht =>
      (foldl_mem (fun u i => u.notBefore_keepsMem (((c ++ a).map u.ctimeOf).foldl max 0) i) b t).trans ht
    · exact ht
    · rfl
    · exact (State.ctxFault_keepsMem ..).trans ht
    · exact ht
  · grind [Out.memIs, !State.joinDec_keepsMem]

theorem State.addJob_keepsMem (s : State) (die tag addr : Nat) (sup : Bool) (b : List Byte) :
    (s.addJob die tag addr sup b).mem = s.mem := rfl

theorem State.cutEnter_keepsMem (s : State) (w : Wave) (f : Fields) (addr : Nat) (b : List Byte) :
    Out.memIs s.mem (s.cutEnter w f addr b) := by
  unfold State.cutEnter
  grind [!State.ret_keepsMem, !State.modMe_mem, !State.addJob_keepsMem, Out.memIs]

theorem execCutGo_keepsMem (f : Fields) (s : State) : Out.memIs s.mem (execCutGo f s) := by
  unfold execCutGo
  grind [!State.ret_keepsMem, !State.stall_keepsMem, !State.viaLoad_keepsMem, !State.take_cases, !State.front_cases,
    !State.cutEnter_keepsMem, !State.trap_keepsMem, Out.memIs]

theorem State.cutServed_keepsMem (s : State) (c : CutWait) : (s.cutServed c).mem = s.mem := rfl

theorem State.cutTake_keepsMem (s : State) (c : CutWait) (b : List Byte) : (s.cutTake c b).mem = s.mem := by
  unfold State.cutTake
  grind [!State.cutServed_keepsMem, !State.cmdStatus_keepsMem, !State.addJob_keepsMem]

theorem State.cutAgain_keepsMem (s : State) (c : CutWait) : (s.cutAgain c).mem = s.mem := by
  unfold State.cutAgain
  grind [!State.ctxFault_keepsMem, !State.waited_keepsMem, !State.cutServed_keepsMem, !State.viaLoad_keepsMem,
    !State.cutTake_keepsMem, !State.cmdStatus_keepsMem]

theorem State.cutSubmit_keepsMem (s : State) (c : CutWait) : (s.cutSubmit c).mem = s.mem := by
  unfold State.cutSubmit
  grind [!State.cutAgain_keepsMem, !State.cmdStatus_keepsMem]

theorem execCutSubmit_keepsMem (tag : Nat) (addr : Word64) (blk : Nat) (s : State) :
    Out.memIs s.mem (execCutSubmit tag addr blk s) := by
  unfold execCutSubmit
  grind [!State.cutSubmit_keepsMem, Out.memIs]

end Sys2Proof.Machine
end

section
/-! What the functions of Sys2Proof/Machine/Ports.lean leave of memory at home. -/

namespace Sys2Proof.Machine

set_option Elab.async false

theorem State.hostAnswer_keepsMem (s : State) (port : Nat) (bs : List Byte) : (s.hostAnswer port bs).mem = s.mem := rfl

theorem State.bar0Write_keepsMem (s : State) (port off : Nat) (bs : List Byte) : (s.bar0Write port off bs).mem = s.mem := by
  unfold State.bar0Write
  split
  · rfl
  split
  · rfl
  · refine foldl_mem (fun t a => ?_) _ _
    split
    · next r _ =>
      have h := execRegisterWrite_keepsMem r (t.bar0Word r a off bs) t
      split <;> rename_i e
      · rw [e] at h
        exact h
      · rfl
    · rfl

theorem State.bar0Doorbell_keepsMem (s : State) (port tag q : Nat) : (s.bar0Doorbell port tag q).mem = s.mem := by
  have h := execDoorbell_keepsMem tag q s
  unfold State.bar0Doorbell
  split
  · rfl
  · split <;> rename_i e
    · rw [e] at h
      exact h
    · rfl

theorem State.hostPerform_keepsMem (s : State) (port : Nat) (r : HostReq) : (s.hostPerform port r).1.mem = s.mem := by
  cases r with
  | atomic a =>
    unfold State.hostPerform
    grind [!State.viaAtomic_keepsMem, !State.hostAnswer_keepsMem, !State.ctxFault_keepsMem, !State.waited_keepsMem]
  | access a =>
    cases a with
    | read va n =>
      unfold State.hostPerform
      grind [!State.viaLoad_keepsMem, !State.hostAnswer_keepsMem, !State.ctxFault_keepsMem, !State.waited_keepsMem]
    | write va bs =>
      unfold State.hostPerform
      grind [!State.viaLocate_keepsMem, !State.storePieces_keepsMem, !State.ctxFault_keepsMem, !State.waited_keepsMem]
    | bar0Read off n => exact State.hostAnswer_keepsMem ..
    | bar0Write off bs =>
      simp only [State.hostPerform]
      split
      · rfl
      · exact State.bar0Write_keepsMem ..
    | doorbell tag q => exact State.bar0Doorbell_keepsMem ..
    | resize n => simp only [State.hostPerform]; split <;> rfl

theorem State.serveHost_keepsMem (port : Nat) (a1 : List HostReq) (a2 : State) : (State.serveHost port a1 a2).mem = a2.mem := by
  fun_induction State.serveHost <;> grind [!State.hostPerform_keepsMem]

theorem State.hostReceive_keepsMem (s : State) (port : Nat) (r : HostReq) : (s.hostReceive port r).mem = s.mem := by
  unfold State.hostReceive
  grind [!State.serveHost_keepsMem]

theorem execHostBar2Access_keepsMem (port : Nat) (a : HostAccess) (s : State) : Out.memIs s.mem (execHostBar2Access port a s) := by
  unfold execHostBar2Access
  grind [!State.hostReceive_keepsMem, Out.memIs]

theorem execHostAtomicop_keepsMem (port : Nat) (a : HostAtomic) (s : State) : Out.memIs s.mem (execHostAtomicop port a s) := by
  unfold execHostAtomicop
  grind [!State.hostReceive_keepsMem, Out.memIs]

theorem State.portCmd_keepsMem (s : State) (p blk : Nat) (ok : PortState → Bool) (f : PeerPort → PeerPort) :
    Out.memIs s.mem (s.portCmd p blk ok f) := by
  unfold State.portCmd
  grind [!State.cmdStatus_keepsMem, !State.portTo_mem, Out.memIs]

theorem execPortEnable_keepsMem (port blk : Nat) (s : State) : Out.memIs s.mem (execPortEnable port blk s) := by
  unfold execPortEnable
  grind [!State.portCmd_keepsMem, Out.memIs]

theorem execPortDisable_keepsMem (port blk : Nat) (s : State) : Out.memIs s.mem (execPortDisable port blk s) := by
  unfold execPortDisable
  grind [!State.portCmd_keepsMem, Out.memIs]

theorem execPortQuiesce_keepsMem (port blk : Nat) (s : State) : Out.memIs s.mem (execPortQuiesce port blk s) := by
  unfold execPortQuiesce
  grind [!State.portCmd_keepsMem, Out.memIs]

theorem execPortResume_keepsMem (port blk : Nat) (s : State) : Out.memIs s.mem (execPortResume port blk s) := by
  unfold execPortResume
  grind [!State.portCmd_keepsMem, Out.memIs]

theorem execPortRetrain_keepsMem (port blk : Nat) (s : State) : Out.memIs s.mem (execPortRetrain port blk s) := by
  unfold execPortRetrain
  grind [!State.portCmd_keepsMem, Out.memIs]

theorem execLinkUp_keepsMem (port width : Nat) (s : State) : Out.memIs s.mem (execLinkUp port width s) := by
  unfold execLinkUp
  grind [!State.portTo_mem, Out.memIs]

theorem execTrainingTimeout_keepsMem (port : Nat) (s : State) : Out.memIs s.mem (execTrainingTimeout port s) := by
  unfold execTrainingTimeout
  grind [!State.portTo_mem, Out.memIs]

theorem execVersionNegotiation_keepsMem (port major minor peer : Nat) (s : State) :
    Out.memIs s.mem (execVersionNegotiation port major minor peer s) := by
  unfold execVersionNegotiation
  grind [!State.portTo_mem, Out.memIs]

theorem State.portError_keepsMem (s : State) (port : Nat) : (s.portError port).mem = s.mem := by
  unfold State.portError
  grind [!State.portTo_mem]

theorem execLaneLoss_keepsMem (port width : Nat) (s : State) : Out.memIs s.mem (execLaneLoss port width s) := by
  unfold execLaneLoss
  grind [!State.portError_keepsMem, !State.portTo_mem, Out.memIs]

theorem execReplayLimitExceeded_keepsMem (port : Nat) (s : State) : Out.memIs s.mem (execReplayLimitExceeded port s) := by
  unfold execReplayLimitExceeded
  grind [!State.portError_keepsMem, Out.memIs]

end Sys2Proof.Machine
end

section
/-! What the functions of Sys2Proof/Machine/Link.lean leave of memory at home. -/

namespace Sys2Proof.Machine

set_option Elab.async false

theorem State.qpNum_keepsMem (s : State) (qpn off n x : Nat) : (s.qpNum qpn off n x).mem = s.mem := by
  unfold State.qpNum
  grind [!State.qpPut_keepsMem]

/-- A change of a queue pair leaves memory where its effect does. -/
theorem State.qpModify_memIs {f : State → State} (hf : ∀ s, (f s).mem = s.mem) (s : State) (qpn blk : Nat) (ok : List Byte → Bool) :
    Out.memIs s.mem (s.qpModify qpn blk ok f) := by
  unfold State.qpModify
  split
  · exact s.cmdStatus_keepsMem blk _
  split
  · exact ((f s).cmdStatus_keepsMem blk _).trans (hf s)
  · exact s.cmdStatus_keepsMem blk _

theorem execQpModifyInit_keepsMem (qpn blk : Nat) (s : State) : Out.memIs s.mem (execQpModifyInit qpn blk s) := by
  unfold execQpModifyInit
  refine State.qpModify_memIs (fun t => ?_) s qpn blk _
  exact (State.qpSetState_keepsMem ..).trans (State.modQp_mem ..)

theorem execQpModifyReady_keepsMem (qpn blk : Nat) (s : State) : Out.memIs s.mem (execQpModifyReady qpn blk s) := by
  unfold execQpModifyReady
  refine State.qpModify_memIs (fun t => ?_) s qpn blk _
  exact State.qpSetState_keepsMem ..

theorem execQpModifyActive_keepsMem (qpn blk : Nat) (s : State) : Out.memIs s.mem (execQpModifyActive qpn blk s) := by
  unfold execQpModifyActive
  refine State.qpModify_memIs (fun t => ?_) s qpn blk _
  exact (State.qpSetState_keepsMem ..).trans (State.modQp_mem ..)

theorem execQpModifyDrain_keepsMem (qpn blk : Nat) (s : State) : Out.memIs s.mem (execQpModifyDrain qpn blk s) := by
  unfold execQpModifyDrain
  refine State.qpModify_memIs (fun t => ?_) s qpn blk _
  exact (State.qpSetState_keepsMem ..).trans (State.modQp_mem ..)

theorem execQpModifyReset_keepsMem (qpn blk : Nat) (s : State) : Out.memIs s.mem (execQpModifyReset qpn blk s) := by
  unfold execQpModifyReset
  refine State.qpModify_memIs (fun t => ?_) s qpn blk _
  grind [!State.qpNum_keepsMem, !State.qpSetState_keepsMem, !State.qpPut_keepsMem]

theorem execQpDrained_keepsMem (qpn : Nat) (s : State) : Out.memIs s.mem (execQpDrained qpn s) := by
  unfold execQpDrained
  grind [!State.qpSetState_keepsMem, !State.qpComplete_keepsMem, Out.memIs]

theorem State.qpFail_keepsMem (s : State) (qpn idx st : Nat) : (s.qpFail qpn idx st).mem = s.mem := by
  unfold State.qpFail
  grind [!State.qpError_keepsMem]

theorem State.qpEmit_keepsMem (s : State) (qpn op aop size len raddr o1 o2 : Nat) (data : List Byte) :
    (s.qpEmit qpn op aop size len raddr o1 o2 data).2.mem = s.mem := by
  unfold State.qpEmit
  grind [!State.qpNum_keepsMem, !State.modQp_mem]

theorem State.modReq_keepsMem (s : State) (qpn idx : Nat) (f : QpReq → QpReq) : (s.modReq qpn idx f).mem = s.mem := by
  unfold State.modReq
  grind [!State.modQp_mem]

theorem State.qpStart_keepsMem (s : State) (qpn : Nat) (r : QpReq) : (s.qpStart qpn r).1.mem = s.mem := by
  unfold State.qpStart
  grind [!State.ctxFault_keepsMem, !State.waited_keepsMem, !State.viaLoad_keepsMem, !State.qpFail_keepsMem,
    !State.qpEmit_keepsMem, !State.modReq_keepsMem]

theorem State.qpSend_keepsMem (qpn a1 : Nat) (a2 : State) : (State.qpSend qpn a1 a2).mem = a2.mem := by
  fun_induction State.qpSend <;> grind [!State.qpEmit_keepsMem, !State.modReq_keepsMem, !State.qpStart_keepsMem]

theorem State.qpAdvance_keepsMem (s : State) (qpn : Nat) : (s.qpAdvance qpn).mem = s.mem := by
  unfold State.qpAdvance
  grind [!State.qpComplete_keepsMem, !State.qpSend_keepsMem]

theorem State.qpPublished_keepsMem (s : State) (qpn : Nat) : (s.qpPublished qpn).1.mem = s.mem := by
  unfold State.qpPublished
  grind [!State.viaLoad_keepsMem, !andThen_cases]

theorem State.qpTake_keepsMem (s : State) (qpn : Nat) (err : Bool) : (s.qpTake qpn err).1.mem = s.mem := by
  unfold State.qpTake
  grind [!State.viaStore_keepsMem, !State.modQp_mem, !State.qpPublished_keepsMem, !andThen_cases]

theorem execWorkRequestTake_keepsMem (qpn : Nat) (s : State) : Out.memIs s.mem (execWorkRequestTake qpn s) := by
  unfold execWorkRequestTake
  grind [!State.ctxFault_keepsMem, !State.waited_keepsMem, !State.qpTake_keepsMem, !State.qpAdvance_keepsMem, Out.memIs]

theorem State.qpAnswer_keepsMem (s : State) (qpn : Nat) (r : QpReq) (a : Ack) : (s.qpAnswer qpn r a).1.mem = s.mem := by
  unfold State.qpAnswer
  grind [!State.ctxFault_keepsMem, !State.waited_keepsMem, !State.viaStore_keepsMem, !State.qpFail_keepsMem, !State.modReq_keepsMem]

theorem State.ackGo_keepsMem (s : State) (qpn : Nat) (a : Ack) : (s.ackGo qpn a).mem = s.mem := by
  unfold State.ackGo
  grind [!State.modQp_mem, !State.qpAnswer_keepsMem, !State.qpAdvance_keepsMem]

theorem execAckReceive_keepsMem (qpn : Nat) (a : Ack) (s : State) : Out.memIs s.mem (execAckReceive qpn a s) := by
  unfold execAckReceive
  grind [!State.modQp_mem, !State.ackGo_keepsMem, Out.memIs]

theorem State.qpResend_keepsMem (s : State) (qpn : Nat) (p : SentPacket → Bool) : (s.qpResend qpn p).mem = s.mem := by
  unfold State.qpResend
  grind [!State.modQp_mem]

theorem execSequenceNak_keepsMem (qpn : Nat) (epsn : BitVec 24) (s : State) : Out.memIs s.mem (execSequenceNak qpn epsn s) := by
  unfold execSequenceNak
  grind [!State.qpResend_keepsMem, Out.memIs]

theorem State.qpFailOldest_keepsMem (s : State) (qpn st : Nat) : (s.qpFailOldest qpn st).mem = s.mem := by
  unfold State.qpFailOldest
  grind [!State.qpFail_keepsMem]

theorem execAckTimeout_keepsMem (qpn : Nat) (s : State) : Out.memIs s.mem (execAckTimeout qpn s) := by
  unfold execAckTimeout
  grind [!State.qpResend_keepsMem, !State.modQp_mem, !State.qpFailOldest_keepsMem, Out.memIs]

theorem execReceiverNotReady_keepsMem (qpn : Nat) (s : State) : Out.memIs s.mem (execReceiverNotReady qpn s) := by
  unfold execReceiverNotReady
  grind [!State.qpResend_keepsMem, !State.modQp_mem, !State.qpFailOldest_keepsMem, !State.qpAdvance_keepsMem, Out.memIs]

theorem State.qpReply_keepsMem (s : State) (qpn : Nat) (a : Answer) : (s.qpReply qpn a).mem = s.mem := by
  unfold State.qpReply
  grind [!State.modQp_mem]

theorem State.packetAtomic_keepsMem (s : State) (v : Via) (p : Packet) : (s.packetAtomic v p).1.mem = s.mem := by
  unfold State.packetAtomic
  grind [!State.viaLocate_keepsMem, !andThen_cases, !State.putHome_keepsMem]

theorem State.packetPerform_keepsMem (s : State) (b : List Byte) (p : Packet) : (s.packetPerform b p).1.mem = s.mem := by
  unfold State.packetPerform
  grind [!State.viaStore_keepsMem, !State.viaLoad_keepsMem, !andThen_cases, !State.packetAtomic_keepsMem]

theorem State.packetRun_keepsMem (s : State) (qpn : Nat) (p : Packet) : (s.packetRun qpn p).1.mem = s.mem := by
  unfold State.packetRun
  grind [!State.ctxFault_keepsMem, !State.waited_keepsMem, !State.qpNum_keepsMem, !State.modQp_mem, !State.qpReply_keepsMem,
    !State.packetPerform_keepsMem]

theorem State.packetAgain_keepsMem (s : State) (qpn : Nat) (p : Packet) : (s.packetAgain qpn p).1.mem = s.mem := by
  unfold State.packetAgain
  grind [!State.ctxFault_keepsMem, !State.waited_keepsMem, !State.qpReply_keepsMem, !State.packetPerform_keepsMem]

theorem State.packetMeet_keepsMem (s : State) (qpn : Nat) (p : Packet) : (s.packetMeet qpn p).1.mem = s.mem := by
  unfold State.packetMeet
  grind [!State.packetRun_keepsMem, !State.qpReply_keepsMem, !State.packetAgain_keepsMem]

theorem execPacketReceive_keepsMem (port qpn : Nat) (p : Packet) (s : State) :
    Out.memIs s.mem (execPacketReceive port qpn p s) := by
  unfold execPacketReceive
  grind [!State.packetMeet_keepsMem, !State.qpReply_keepsMem, Out.memIs]

theorem State.releaseHeldPkts_keepsMem (die qpn : Nat) (a1 : List HeldPacket) (a2 : State) :
    (State.releaseHeldPkts die qpn a1 a2).mem = a2.mem := by
  fun_induction State.releaseHeldPkts <;> grind [!State.packetMeet_keepsMem]

theorem execQpContextFetch_keepsMem (die qpn : Nat) (s : State) : Out.memIs s.mem (execQpContextFetch die qpn s) := by
  unfold execQpContextFetch
  grind [!State.modQp_mem, !State.releaseHeldPkts_keepsMem, Out.memIs]

theorem State.endAnswers_keepsMem (s : State) : (s.endAnswers).mem = s.mem := by
  unfold State.endAnswers
  grind [!State.modQp_mem, !State.qpReply_keepsMem, foldl_mem_or, foldl_fst_mem_or, foldl_snd_mem_or]

theorem State.postEnter_keepsMem (s : State) (w : Wave) (f : Fields) (q : Nat) (r : List Byte) :
    Out.memIs s.mem (s.postEnter w f q r) := by
  unfold State.postEnter
  grind [!State.viaPeek_keepsMem, !State.ret_keepsMem, !State.viaLoad_keepsMem, !State.ringAdd_keepsMem, !State.take_cases,
    !State.modMe_mem, Out.memIs]

theorem execQpPost_keepsMem (f : Fields) (s : State) : Out.memIs s.mem (execQpPost f s) := by
  unfold execQpPost
  grind [!State.ret_keepsMem, !State.stall_keepsMem, !State.viaLoad_keepsMem, !State.take_cases, !State.front_cases,
    !State.postEnter_keepsMem, Out.memIs]

end Sys2Proof.Machine
end

section
/-! What the functions of Sys2Proof/Machine/Collective.lean leave of memory at home. -/

namespace Sys2Proof.Machine

set_option Elab.async false

theorem State.commCreate_keepsMem (s : State) (tag index rank timeout blk : Nat) (ids : List Nat) :
    (s.commCreate tag index rank timeout blk ids).mem = s.mem := by
  unfold State.commCreate
  grind [!State.cmdStatus_keepsMem]

theorem execCommCreate_keepsMem (tag index list n rank timeout blk : Nat) (s : State) :
    Out.memIs s.mem (execCommCreate tag index list n rank timeout blk s) := by
  unfold execCommCreate
  grind [!State.waited_keepsMem, !State.commCreate_keepsMem, !State.cmdStatus_keepsMem, !State.locatePhys_keepsMem, Out.memIs]

theorem State.modColl_keepsMem (s : State) (id : Nat) (f : Collect → Collect) : (s.modColl id f).mem = s.mem := rfl

theorem State.collEndBy_keepsMem (s : State) (c : Collect) (n status : Nat) (ids : List Nat) :
    (s.collEndBy c n status ids).1.mem = s.mem := by
  unfold State.collEndBy
  grind [!State.modColl_keepsMem, !State.cutUndefined_keepsMem, !andThen_cases]

theorem State.collEnd_keepsMem (s : State) (c : Collect) (n status : Nat) (ids : List Nat) :
    (s.collEnd c n status ids).mem = s.mem := by
  unfold State.collEnd
  grind [!State.ctxFault_keepsMem, !State.waited_keepsMem, !State.collEndBy_keepsMem]

theorem State.collPerform_keepsMem (s : State) (c : Collect) (m : Comm) (ranks : List RankInput) :
    (s.collPerform c m ranks).mem = s.mem := by
  unfold State.collPerform
  grind [!State.ctxFault_keepsMem, !State.waited_keepsMem, !State.unitLoad_keepsMem, !State.collEnd_keepsMem,
    !State.cutStore_keepsMem]

theorem execCollectiveRun_keepsMem (id : Nat) (ranks : List RankInput) (s : State) :
    Out.memIs s.mem (execCollectiveRun id ranks s) := by
  have hends : ∀ (c : Collect) (n st : Nat), Out.memIs s.mem (.next (s.collEnd c n st [])) := fun c n st => s.collEnd_keepsMem c n st []
  unfold execCollectiveRun
  split
  · rfl
  split
  · rfl
  dsimp only
  refine Out.memIs_ite rfl (Out.memIs_ite (hends ..) (Out.memIs_ite (hends ..) (Out.memIs_ite rfl ?_)))
  exact Out.memIs_ite (hends ..) (Out.memIs_ite (hends ..) (Out.memIs_ite (hends ..) (s.collPerform_keepsMem ..)))

theorem execCollectiveTimeout_keepsMem (id : Nat) (s : State) : Out.memIs s.mem (execCollectiveTimeout id s) := by
  unfold execCollectiveTimeout
  grind [!State.collEnd_keepsMem, Out.memIs]

theorem execCollectiveComplete_keepsMem (id : Nat) (s : State) : Out.memIs s.mem (execCollectiveComplete id s) := by
  unfold execCollectiveComplete
  split
  · rfl
  next c _ =>
  split
  · rfl
  next st _ =>
  refine Out.memIs_ite rfl ?_
  dsimp only
  have hdone := s.cutStore_keepsMem (collReader c) (c.addr + 0x28) (bytesOfNat 8 s.time)
  split <;> rename_i e <;> rw [e] at hdone
  · exact rfl
  · exact (State.ctxFault_keepsMem ..).trans hdone
  · exact (State.modColl_keepsMem ..).trans hdone
  next t a =>
  have hstatus := (t.cutStore_keepsMem (collReader c) (c.addr + 0x20) (bytesOfNat 4 st)).trans hdone
  split <;> rename_i e <;> rw [e] at hstatus
  · exact (State.modColl_keepsMem ..).trans ((foldl_mem (fun s i => s.notBefore_keepsMem _ i) _ _).trans hstatus)
  · rfl
  · exact (State.ctxFault_keepsMem ..).trans hstatus
  · exact (State.modColl_keepsMem ..).trans hstatus

theorem State.collAdd_keepsMem (s : State) (w : Wave) (addr : Nat) (d : List Byte) : (s.collAdd w addr d).1.mem = s.mem := by
  unfold State.collAdd
  grind [!State.whole_cases, !State.collEndBy_keepsMem]

theorem execColl_keepsMem (f : Fields) (s : State) : Out.memIs s.mem (execColl f s) := by
  unfold execColl
  grind [!State.stall_keepsMem, !State.viaLoad_keepsMem, !State.finish_keepsMem, !State.take_cases, !State.front_cases,
    !State.collAdd_keepsMem, !State.trap_keepsMem, Out.memIs]

theorem execCollWait_keepsMem (f : Fields) (s : State) : Out.memIs s.mem (execCollWait f s) := by
  unfold execCollWait
  grind [!State.stall_keepsMem, !State.finish_keepsMem, !State.front_cases, Out.memIs]

end Sys2Proof.Machine
end

section
/-! What the functions of Sys2Proof/Machine/FrameFront.lean leave of memory at home. -/

namespace Sys2Proof.Machine

set_option Elab.async false

theorem State.tracePixel_keepsMem (s : State) (rd : Reader) (sc : Scene) (ray : Ray) : (s.tracePixel rd sc ray).1.mem = s.mem := by
  unfold State.tracePixel
  grind [!State.unitLoad_keepsMem, !andThen_cases, !State.traverse_keepsMem]

theorem State.reuse_keepsMem (s : State) (rd : Reader) (b : List Byte) (dir : List Word64) (x y : Nat) (p : PixelHit) :
    (s.reuse rd b dir x y p).1.mem = s.mem := by
  unfold State.reuse
  grind [!State.unitLoad_keepsMem, !andThen_cases]

theorem State.frontPut_keepsMem (rd : Reader) (va : Nat) (bs : List Byte) (x : State × FrontRun × Acc Unit) :
    (State.frontPut rd va bs x).1.mem = x.1.mem := by
  unfold State.frontPut
  grind [!State.cutStore_keepsMem]

theorem State.frontPixel_keepsMem (rd : Reader) (b : List Byte) (sc : Scene) (s : State) (r : FrontRun) (x y : Nat) :
    (State.frontPixel rd b sc s r x y).1.mem = s.mem := by
  unfold State.frontPixel
  grind [!State.frontPut_keepsMem, !andThen_cases, !State.reuse_keepsMem, !State.tracePixel_keepsMem]

theorem State.frontPixels_keepsMem (tag : Nat) (b : List Byte) (sc : Scene) (a1 : List (Nat × Nat)) (a2 : FrontRun) (a3 : State) :
    (State.frontPixels tag b sc a1 a2 a3).1.mem = a3.mem := by
  fun_induction State.frontPixels <;> grind [!State.frontPixel_keepsMem]

theorem State.frontRan_keepsMem (s : State) (rec : Nat) (k : Option Kernel) (status : Nat) (r : FrontRun) :
    (s.frontRan rec k status r).mem = s.mem := by
  unfold State.frontRan
  grind [!State.modRec_mem]

theorem State.frontRun_keepsMem {s0 s : State} (h0 : s0.mem = s.mem) (rec tag frame : Nat) (rd : Reader) (b : List Byte) :
    (s0.frontRun s rec tag frame rd b).mem = s.mem := by
  have hran : ∀ (t : State) k st r, t.mem = s.mem → (t.frontRan rec k st r).mem = s.mem := fun t k st r h =>
    (t.frontRan_keepsMem rec k st r).trans h
  have hbad : ∀ t : State, t.mem = s.mem → (t.ctxFault tag 0x50).mem = s.mem := fun t h => (t.ctxFault_keepsMem tag 0x50).trans h
  unfold State.frontRun
  dsimp only
  split
  · exact hran _ _ _ _ rfl
  have hkernel := s.readKernel_keepsMem tag (ppHitcode b)
  split <;> rename_i e <;> rw [e] at hkernel
  · exact hran _ _ _ _ hkernel
  · exact hbad _ hkernel
  · exact h0
  · exact hran _ _ _ _ hkernel
  next t k =>
  have hscene := (t.unitLoad_keepsMem rd (ppScene b) 32).trans hkernel
  split <;> rename_i e <;> rw [e] at hscene
  · exact hran _ _ _ _ hscene
  · exact hbad _ hscene
  · exact h0
  next u sc =>
  have hpixels := (State.frontPixels_keepsMem tag b (sceneOf sc) (pixels (ppWidth b) (ppHeight b)) ⟨0, false, []⟩ u).trans hscene
  split <;> rename_i e <;> rw [e] at hpixels
  · exact hran _ _ _ _ hpixels
  · exact hran _ _ _ _ hpixels
  · exact hbad _ hpixels
  · exact h0

theorem execRaygenRun_keepsMem (rec : Nat) (s : State) : Out.memIs s.mem (execRaygenRun rec s) := by
  unfold execRaygenRun
  split
  · rfl
  next r _ =>
  refine Out.memIs_ite rfl ?_
  have hload := s.unitLoad_keepsMem (frontReader 0 r.tag) (recFrame r.bytes) 256
  dsimp only
  split <;> rename_i e <;> rw [e] at hload
  · exact (State.frontRun_keepsMem hload.symm ..).trans hload
  · exact (State.frontRan_keepsMem ..).trans hload
  · exact (State.ctxFault_keepsMem ..).trans hload
  · exact (State.waited_keepsMem ..)

theorem State.frontStatus_keepsMem (s : State) (rd : Reader) (frame status count : Nat) :
    (s.frontStatus rd frame status count).1.mem = s.mem := by
  unfold State.frontStatus
  grind [!State.notBefore_keepsMem, !andThen_cases, !State.cutStore_keepsMem, foldl_mem_or, foldl_fst_mem_or, foldl_snd_mem_or]

theorem State.frontEnd_keepsMem (s : State) (rec count : Nat) : (s.frontEnd rec count).mem = s.mem := by
  unfold State.frontEnd
  grind [!State.modRec_mem]

theorem execRaygenComplete_keepsMem (rec : Nat) (s : State) : Out.memIs s.mem (execRaygenComplete rec s) := by
  unfold execRaygenComplete
  grind [!State.ctxFault_keepsMem, !State.waited_keepsMem, !State.frontEnd_keepsMem, !State.modRec_mem,
    !State.frontStatus_keepsMem, Out.memIs]

end Sys2Proof.Machine
end

section
/-! What the functions of Sys2Proof/Machine/Rv64.lean leave of memory at home. -/

namespace Sys2Proof.Machine

set_option Elab.async false

theorem State.hartDone_keepsMem (s : State) (h : Nat) (f : Hart → Hart) : (s.hartDone h f).mem = s.mem := by
  unfold State.hartDone
  grind [!State.modHart_mem]

end Sys2Proof.Machine
end

section
/-! What the functions of Sys2Proof/Machine/Kindling.lean leave of memory at home. -/

namespace Sys2Proof.Machine

set_option Elab.async false

theorem State.hartLeaf_keepsMem (s : State) (h tag va : Nat) : (s.hartLeaf h tag va).2.mem = s.mem := by
  unfold State.hartLeaf
  grind [!State.meetTlb_keepsMem, !State.walkBy_keepsMem]

theorem State.locate14_keepsMem (s : State) (h : Nat) (x : Hart) (p : HPriv) (tag kind : Nat) (a : List (Nat × Nat)) :
    (s.locate14 h x p tag kind a).1.mem = s.mem := by
  fun_induction State.locate14 <;> grind [!State.locate_keepsMem, !State.askTouch_keepsMem, !State.hartLeaf_keepsMem,
    !hartThen_cases]

theorem State.locateCtx_keepsMem (s : State) (h : Nat) (p : HPriv) (kind va n : Nat) :
    (s.locateCtx h p kind va n).1.mem = s.mem := by
  unfold State.locateCtx
  grind [!State.locate14_keepsMem, !State.modCtx_mem]

/-- A walk leaves memory unless a read or a fault does not. -/
theorem svWalk_cases (rd : State → Nat → State × HAcc Word64) (fault : State → State × HAcc (Word64 × Nat)) (level table va : Nat)
    (s : State) : (svWalk rd fault level table va s).1.mem = s.mem ∨ (∃ t n, (rd t n).1.mem ≠ t.mem) ∨ ∃ t, (fault t).1.mem ≠ t.mem := by
  induction level generalizing table va s with
  | zero => unfold svWalk; grind
  | succ level ih =>
    unfold svWalk
    grind [!hartThen_cases]

theorem svWalk_mem {rd : State → Nat → State × HAcc Word64} {fault : State → State × HAcc (Word64 × Nat)}
    (hrd : ∀ t n, (rd t n).1.mem = t.mem) (hfault : ∀ t, (fault t).1.mem = t.mem) (level table va : Nat) (s : State) :
    (svWalk rd fault level table va s).1.mem = s.mem := by
  rcases svWalk_cases rd fault level table va s with h | ⟨t, n, h⟩ | ⟨t, h⟩
  · exact h
  · exact absurd (hrd t n) h
  · exact absurd (hfault t) h

theorem State.svRead_keepsMem (s : State) (h pa : Nat) : (s.svRead h pa).1.mem = s.mem := by
  unfold State.svRead
  grind [!hartThen_cases, !State.locatePhys_keepsMem]

theorem State.guestPa_keepsMem (s : State) (h kind va gpa : Nat) : (s.guestPa h kind va gpa).1.mem = s.mem := by
  unfold State.guestPa
  grind [!svWalk_cases, !State.svRead_keepsMem, !hartThen_cases]

theorem State.svPaOf_keepsMem (s : State) (h : Nat) (w : Who) (kind va : Nat) : (s.svPaOf h w kind va).1.mem = s.mem := by
  have hguest : ∀ (t : State) (kind gpa : Nat), (if w.2 then t.guestPa h kind va gpa else ((t, .ok gpa) : State × HAcc Nat)).1.mem = t.mem :=
    fun t kind gpa => by
      split
      · exact t.guestPa_keepsMem h kind va gpa
      · rfl
  unfold State.svPaOf
  extract_lets x at_ guest n fault rd
  split
  · exact hguest s kind va
  split
  · rfl
  refine hartThen_mem (svWalk_mem (fun t a => ?_) (fun _ => rfl) ..) fun t r ht => ?_
  · exact hartThen_mem (hguest t 0 a) fun u pa hu => (u.svRead_keepsMem h pa).trans hu
  · split
    · exact (hguest ..).trans ht
    · exact ht

theorem State.locateSv_keepsMem (s : State) (h : Nat) (w : Who) (kind : Nat) (a : List (Nat × Nat)) :
    (s.locateSv h w kind a).1.mem = s.mem := by
  fun_induction State.locateSv <;> grind [!State.svPaOf_keepsMem, !hartThen_cases, !State.locatePhys_keepsMem]

theorem State.hartLocate_keepsMem (s : State) (h : Nat) (w : Who) (kind va n : Nat) :
    (s.hartLocate h w kind va n).1.mem = s.mem := by
  unfold State.hartLocate
  grind [!State.locateCtx_keepsMem, !State.locatePhys_keepsMem, !State.locateSv_keepsMem]

theorem State.hartFault_keepsMem (s : State) (h : Nat) (w : Who) (cause va : Nat) (gpa : Option Nat) :
    Out.memIs s.mem (s.hartFault h w cause va gpa) := by
  unfold State.hartFault
  grind [!State.modHart_mem, Out.memIs]

/-- An access of a hart leaves memory, or what follows it runs in a state of the same memory. -/
theorem State.hartAccess_cases (s : State) (h : Nat) (w : Who) (kind va n cause : Nat)
    (k : State → List (Nat × Nat × Word64) → Out) (bad : State → Out) :
    Out.memIs s.mem (s.hartAccess h w kind va n cause k bad) ∨
      (∃ t l, t.mem = s.mem ∧ s.hartAccess h w kind va n cause k bad = k t l) ∨
      ∃ t, t.mem = s.mem ∧ s.hartAccess h w kind va n cause k bad = bad t := by
  unfold State.hartAccess
  grind [Out.memIs, !State.hartLocate_keepsMem, !State.hartFault_keepsMem, !State.faultLater_keepsMem, !State.waited_keepsMem]

theorem State.hartAccess_memIs {s : State} {h : Nat} {w : Who} {kind va n cause : Nat} {k : State → List (Nat × Nat × Word64) → Out}
    {bad : State → Out} (hk : ∀ t l, t.mem = s.mem → Out.memIs s.mem (k t l)) (hbad : ∀ t, t.mem = s.mem → Out.memIs s.mem (bad t)) :
    Out.memIs s.mem (s.hartAccess h w kind va n cause k bad) := by
  rcases s.hartAccess_cases h w kind va n cause k bad with e | ⟨t, l, ht, e⟩ | ⟨t, ht, e⟩
  · exact e
  · exact e ▸ hk t l ht
  · exact e ▸ hbad t ht

theorem State.hartFree_keepsMem (s : State) (h : Nat) (put : Hart → Word64 → Hart) : Out.memIs s.mem (s.hartFree h put) := by
  unfold State.hartFree
  grind [!State.free_keepsMem, !State.hartDone_keepsMem, Out.memIs]

theorem State.hartIllegal_keepsMem (s : State) (h : Nat) (insn : Word64) : Out.memIs s.mem (s.hartIllegal h insn) := by
  unfold State.hartIllegal
  grind [!State.modHart_mem, Out.memIs]

theorem State.hartBytes_keepsMem (s : State) (h : Nat) (l : List (Nat × Nat × Word64)) : (s.hartBytes h l).2.mem = s.mem := by
  unfold State.hartBytes
  grind [!State.unitLease_keepsMem, foldl_mem_or, foldl_fst_mem_or, foldl_snd_mem_or]

theorem State.hartLoadTo_keepsMem (s : State) (h : Nat) (w : Who) (kind : Nat) (va : Word64) (n : Nat)
    (put : Hart → Word64 → Hart) :
    Out.memIs s.mem (s.hartLoadTo h w kind va n put) := by
  unfold State.hartLoadTo
  grind [!State.hartAccess_cases, !State.hartDone_keepsMem, !State.hartFree_keepsMem, !State.hartBytes_keepsMem, Out.memIs]

theorem State.hartLoadAs_keepsMem (s : State) (h : Nat) (w : Who) (kind : Nat) (rd : BitVec 5) (va : Word64) (log2 : Nat)
    (signed : Bool) :
    Out.memIs s.mem (s.hartLoadAs h w kind rd va log2 signed) := by
  unfold State.hartLoadAs
  grind [!State.hartLoadTo_keepsMem, Out.memIs]

theorem State.hartWrite_keepsMem (s : State) (h : Nat) (w : Who) (l : List (Nat × Nat × Word64)) (bs : List Byte) :
    (s.hartWrite h w l bs).mem = s.mem := by
  unfold State.hartWrite
  grind [!State.storePieces_keepsMem]

theorem State.hartStoreOf_keepsMem (s : State) (h : Nat) (w : Who) (va : Word64) (bs : List Byte) :
    Out.memIs s.mem (s.hartStoreOf h w va bs) := by
  unfold State.hartStoreOf
  grind [!State.hartWrite_keepsMem, !State.hartAccess_cases, !State.hartDone_keepsMem, Out.memIs]

theorem State.hartStoreAs_keepsMem (s : State) (h : Nat) (w : Who) (rs : BitVec 5) (va : Word64) (log2 : Nat) :
    Out.memIs s.mem (s.hartStoreAs h w rs va log2) := by
  unfold State.hartStoreAs
  grind [!State.hartStoreOf_keepsMem, Out.memIs]

theorem State.hartLoad_keepsMem (s : State) (h : Nat) (rd : BitVec 5) (va : Word64) (log2 : Nat) (signed : Bool) :
    Out.memIs s.mem (s.hartLoad h rd va log2 signed) := by
  unfold State.hartLoad
  grind [!State.hartLoadAs_keepsMem, Out.memIs]

theorem State.hartStore_keepsMem (s : State) (h : Nat) (rs : BitVec 5) (va : Word64) (log2 : Nat) :
    Out.memIs s.mem (s.hartStore h rs va log2) := by
  unfold State.hartStore
  grind [!State.hartStoreAs_keepsMem, Out.memIs]

theorem State.hartFlush_keepsMem (s : State) (h : Nat) : (s.hartFlush h).mem = s.mem := by
  unfold State.hartFlush
  grind [!State.acceptOr_keepsMem, foldl_mem_or, foldl_fst_mem_or, foldl_snd_mem_or]

/-- The same for an access at home. -/
theorem State.hartHome_cases (s : State) (h kind n cause align : Nat) (va : Word64) (k : State → Nat → Word64 → Nat → Out)
    (bad : State → Out) :
    Out.memIs s.mem (s.hartHome h kind n cause align va k bad) ∨
      (∃ t pa e old, t.mem = s.mem ∧ s.hartHome h kind n cause align va k bad = k t pa e old) ∨
      ∃ t, t.mem = s.mem ∧ s.hartHome h kind n cause align va k bad = bad t := by
  unfold State.hartHome
  grind [Out.memIs, !State.hartAccess_cases, !State.modHart_mem, !State.hartFlush_keepsMem]

theorem State.hartPut_keepsMem (s : State) (h pa n v : Nat) (e : Word64) : (s.hartPut h pa n v e).mem = s.mem := by
  unfold State.hartPut
  grind [!State.putHome_keepsMem]

theorem State.hartAmo_keepsMem (s : State) (h : Nat) (op : AmoOp) (rd rs : BitVec 5) (va : Word64) (wide : Bool) :
    Out.memIs s.mem (s.hartAmo h op rd rs va wide) := by
  unfold State.hartAmo
  grind [!State.hartPut_keepsMem, !State.hartDone_keepsMem, !State.hartFree_keepsMem, !State.hartHome_cases, Out.memIs]

theorem State.hartLr_keepsMem (s : State) (h : Nat) (rd : BitVec 5) (va : Word64) (wide : Bool) :
    Out.memIs s.mem (s.hartLr h rd va wide) := by
  unfold State.hartLr
  grind [!State.hartDone_keepsMem, !State.hartFree_keepsMem, !State.hartHome_cases, Out.memIs]

theorem State.hartSc_keepsMem (s : State) (h : Nat) (rd rs : BitVec 5) (va : Word64) (wide : Bool) :
    Out.memIs s.mem (s.hartSc h rd rs va wide) := by
  unfold State.hartSc
  grind [!State.hartPut_keepsMem, !State.hartDone_keepsMem, !State.hartFree_keepsMem, !State.hartHome_cases, Out.memIs]

theorem State.tableDone_keepsMem (s : State) (l : List (Nat × Nat × Word64)) (bs : List Byte) (blk : Nat) :
    (s.tableDone l bs blk).mem = s.mem := by
  unfold State.tableDone
  grind [!State.storePieces_keepsMem, !State.cmdStatus_keepsMem]

theorem State.tableTo_keepsMem (s : State) (dest blk : Nat) (bs : List Byte) : Out.memIs s.mem (s.tableTo dest blk bs) := by
  unfold State.tableTo
  grind [!State.waited_keepsMem, !State.cmdStatus_keepsMem, !State.tableDone_keepsMem, !State.locatePhys_keepsMem, Out.memIs]

theorem execRetireRead_keepsMem (dest blk : Nat) (s : State) : Out.memIs s.mem (execRetireRead dest blk s) := by
  unfold execRetireRead
  grind [!State.tableTo_keepsMem, Out.memIs]

theorem execHbmMap_keepsMem (dest blk : Nat) (s : State) : Out.memIs s.mem (execHbmMap dest blk s) := by
  unfold execHbmMap
  grind [!State.tableTo_keepsMem, Out.memIs]

/-- The same for the address of a command's argument. -/
theorem State.cmdAt_cases (s : State) (h va n blk : Nat) (k : State → List (Nat × Nat × Word64) → State) :
    CmdOut.memIs s.mem (s.cmdAt h va n blk k) ∨ ∃ t l, (k t l).mem ≠ t.mem := by
  unfold State.cmdAt
  grind [Out.memIs, !State.hartLocate_keepsMem, !State.waited_keepsMem, !State.faultLater_keepsMem, !State.cmdStatus_keepsMem,
    CmdOut.memIs]

theorem State.cmdTable_keepsMem (s : State) (h va blk : Nat) (bs : List Byte) :
    CmdOut.memIs s.mem (s.cmdTable h va blk bs) :=
  (s.cmdAt_cases h va bs.length blk _).resolve_right fun ⟨t, l, e⟩ => e (t.tableDone_keepsMem l bs blk)

theorem CmdOut.memIs_some {s : State} {o : Out} {m : List Host.Cell} (h : s.mem = m) (ho : Out.memIs m o) :
    CmdOut.memIs m (s, some o) := ⟨h, fun _ e => Option.some.inj e ▸ ho⟩

theorem State.command_keepsMem (s : State) (h blk : Nat) (b : List Byte) : CmdOut.memIs s.mem (s.command h blk b) := by
  have hno : ∀ st, CmdOut.memIs s.mem (s, some (.next (s.cmdStatus blk st))) := fun st =>
    CmdOut.memIs_some rfl (s.cmdStatus_keepsMem blk st)
  have hctx : ∀ (tag : Nat) (x : CmdOut), CmdOut.memIs s.mem x →
      CmdOut.memIs s.mem (if Config.contexts ≤ tag then (s, some (.next (s.cmdStatus blk stBadCmd))) else x) :=
    fun tag x hx => by split; exacts [hno _, hx]
  unfold State.command
  extract_lets tag arg run no ctx
  split
  · exact hno _
  split
  · exact hctx _ _ (CmdOut.memIs_some rfl (execCtxCreate_keepsMem ..))
  · exact hctx _ _ (CmdOut.memIs_some rfl (execCtxCommit_keepsMem ..))
  · exact hctx _ _ (CmdOut.memIs_some rfl (execCtxDestroy_keepsMem ..))
  · exact hctx _ _ (CmdOut.memIs_some rfl (execInval_keepsMem ..))
  · split
    · exact CmdOut.memIs_some rfl (execQpModifyReset_keepsMem ..)
    · exact CmdOut.memIs_some rfl (execQpModifyInit_keepsMem ..)
    · exact CmdOut.memIs_some rfl (execQpModifyReady_keepsMem ..)
    · exact CmdOut.memIs_some rfl (execQpModifyActive_keepsMem ..)
    · exact CmdOut.memIs_some rfl (execQpModifyDrain_keepsMem ..)
    · exact hno _
    · exact hno _
  · split
    · exact hno _
    split
    · exact ⟨rfl, fun _ e => nomatch e⟩
    split
    · exact CmdOut.memIs_some rfl (execPortEnable_keepsMem ..)
    · exact CmdOut.memIs_some rfl (execPortDisable_keepsMem ..)
    · exact CmdOut.memIs_some rfl (execPortQuiesce_keepsMem ..)
    · exact CmdOut.memIs_some rfl (execPortResume_keepsMem ..)
    · exact CmdOut.memIs_some rfl (execPortRetrain_keepsMem ..)
    · exact hno _
  · refine hctx _ _ ?_
    split
    · exact hno _
    · exact (s.cmdAt_cases h (arg 1) (arg 2) blk _).resolve_right fun ⟨t, l, e⟩ => e (State.commCreate_keepsMem ..)
  · exact hctx _ _ (CmdOut.memIs_some rfl (State.cutSubmit_keepsMem ..))
  · exact State.cmdTable_keepsMem ..
  · exact State.cmdTable_keepsMem ..
  · exact hno _

theorem State.nkcmd_keepsMem (s : State) (h : Nat) (va : Word64) : CmdOut.memIs s.mem (s.nkcmd h va) := by
  have hfound := s.hartLocate_keepsMem h (s.hart h).commands 0 va.toNat 64
  unfold State.nkcmd
  split <;> rename_i e <;> rw [e] at hfound
  · rw [← hfound]
    dsimp only
    split
    · exact CmdOut.memIs_some rfl (State.cmdStatus_keepsMem ..)
    · exact State.command_keepsMem ..
  · exact ⟨rfl, fun _ e => nomatch e⟩
  · exact CmdOut.memIs_some hfound ((State.faultLater_keepsMem ..).trans hfound)
  · exact CmdOut.memIs_some hfound hfound

theorem State.csrWrite_keepsMem (s : State) (h : Nat) (csr : NkCsr) (v : Word64) (up : Hart → Hart) :
    Out.memIs s.mem (s.csrWrite h csr v up) := by
  have hthen : ∀ o : Out, Out.memIs s.mem o → Out.memIs s.mem (o.then fun s => s.hartDone h up) := fun o ho => by
    cases o with
    | next t => exact (State.hartDone_keepsMem ..).trans ho
    | fault | refused => trivial
  unfold State.csrWrite
  split
  · exact State.hartDone_keepsMem _ h up
  · exact State.hartDone_keepsMem _ h up
  · exact State.hartDone_keepsMem _ h up
  · exact State.hartDone_keepsMem _ h up
  · obtain ⟨hm, ho⟩ := s.nkcmd_keepsMem h v
    refine Out.memIs_ite rfl ?_
    split <;> rename_i e <;> rw [e] at hm ho
    · exact hm
    · exact hthen _ (ho _ rfl)
  · exact Out.memIs_ite rfl (hthen _ (execNkwake_keepsMem v s))

theorem State.csrInsn_keepsMem (s : State) (h : Nat) (insn : Word64) (n : Nat) (op : CsrOp) (v : Word64) (write : Bool)
    (rd : BitVec 5) :
    Out.memIs s.mem (s.csrInsn h insn n op v write rd) := by
  unfold State.csrInsn
  grind [!State.csrWrite_keepsMem, !State.modHart_mem, !State.hartDone_keepsMem, !State.hartFree_keepsMem, Out.memIs]

theorem State.sfence_keepsMem (s : State) (h : Nat) (va : Option Word64) (asid : Option (BitVec 16)) :
    (s.sfence h va asid).mem = s.mem := rfl

theorem State.hartSfence_keepsMem (s : State) (h : Nat) (insn : Word64) (va : Option Word64) (asid : Option (BitVec 16)) :
    Out.memIs s.mem (s.hartSfence h insn va asid) := by
  unfold State.hartSfence
  grind [!State.modHart_mem, !State.hartDone_keepsMem, !State.sfence_keepsMem, Out.memIs]

theorem State.hartFence_keepsMem (s : State) (h : Nat) (predWrites : Bool) : (s.hartFence h predWrites).mem = s.mem := by
  unfold State.hartFence
  grind [!State.hartDone_keepsMem]

theorem State.hartSystem_keepsMem (s : State) (h : Nat) (insn : Word64) (w : Word) : Out.memIs s.mem (s.hartSystem h insn w) := by
  unfold State.hartSystem
  grind [!State.modHart_mem, !State.hartDone_keepsMem, !State.hartSfence_keepsMem, Out.memIs]

theorem State.hartGuest_keepsMem (s : State) (h : Nat) (insn : Word64) (w : Word) : Out.memIs s.mem (s.hartGuest h insn w) := by
  unfold State.hartGuest
  grind [!State.hartStoreAs_keepsMem, !State.hartLoadAs_keepsMem, !State.modHart_mem, !State.hartDone_keepsMem,
    !State.hartIllegal_keepsMem, Out.memIs]

theorem State.hartCbo_keepsMem (s : State) (h : Nat) (insn : Word64) (k : Nat) (va : Word64) :
    Out.memIs s.mem (s.hartCbo h insn k va) := by
  have hcheck : Out.memIs s.mem (s.hartAccess h (s.hart h).who 0 (va &&& ~~~63).toNat 64 15 (fun s _ => .next (s.hartDone h id))
      fun s => .next (s.hartDone h id)) :=
    State.hartAccess_memIs (fun t _ ht => (t.hartDone_keepsMem h id).trans ht) fun t ht => (t.hartDone_keepsMem h id).trans ht
  have hill := s.hartIllegal_keepsMem h insn
  unfold State.hartCbo
  dsimp only
  refine Out.memIs_ite hill (Out.memIs_ite (s.modHart_mem h _) ?_)
  split
  · exact hcheck
  · exact hcheck
  · exact hcheck
  · exact s.hartStoreOf_keepsMem ..
  · exact hill

theorem State.hartResult_keepsMem (s : State) (h : Nat) (insn : Word64) (rd : BitVec 5) (v : Option Word64) :
    Out.memIs s.mem (s.hartResult h insn rd v) := by
  unfold State.hartResult
  grind [!State.hartDone_keepsMem, !State.hartIllegal_keepsMem, Out.memIs]

theorem State.hartMade_keepsMem (s : State) (h : Nat) (insn : Word64) (x : Option Hart) :
    Out.memIs s.mem (s.hartMade h insn x) := by
  unfold State.hartMade
  grind [!State.hartDone_keepsMem, !State.hartIllegal_keepsMem, Out.memIs]

theorem State.hartJump_keepsMem (s : State) (h : Nat) (rd : BitVec 5) (target : Word64) :
    Out.memIs s.mem (s.hartJump h rd target) := by
  unfold State.hartJump
  grind [!State.modHart_mem, Out.memIs]

theorem State.vecAccess_keepsMem (s : State) (h : Nat) (store ff : Bool) (a : List VElem) :
    Out.memIs s.mem (s.vecAccess h store ff a) := by
  fun_induction State.vecAccess <;> grind [!State.hartWrite_keepsMem, !State.waited_keepsMem, !State.hartFault_keepsMem,
    !State.hartLocate_keepsMem, !State.free_keepsMem, !State.modHart_mem, !State.hartDone_keepsMem, !State.hartBytes_keepsMem,
    !State.faultLater_keepsMem, Out.memIs]

theorem State.hartVecMem_keepsMem (s : State) (h : Nat) (insn : Word64) (w : Word) : Out.memIs s.mem (s.hartVecMem h insn w) := by
  unfold State.hartVecMem
  grind [!State.hartIllegal_keepsMem, !State.vecAccess_keepsMem, Out.memIs]

theorem State.hartFpMem_keepsMem (s : State) (h : Nat) (insn : Word64) (w : Word) : Out.memIs s.mem (s.hartFpMem h insn w) := by
  unfold State.hartFpMem
  grind [!State.hartStoreOf_keepsMem, !State.hartLoadTo_keepsMem, !State.hartIllegal_keepsMem, !State.hartVecMem_keepsMem,
    Out.memIs]

theorem State.hartMisc_keepsMem (s : State) (h : Nat) (insn : Word64) (w : Word) : Out.memIs s.mem (s.hartMisc h insn w) := by
  unfold State.hartMisc
  grind [!State.hartCbo_keepsMem, !State.hartDone_keepsMem, !State.hartIllegal_keepsMem, !State.hartFence_keepsMem, Out.memIs]

theorem State.hartAtomic_keepsMem (s : State) (h : Nat) (insn : Word64) (w : Word) : Out.memIs s.mem (s.hartAtomic h insn w) := by
  unfold State.hartAtomic
  grind [!State.hartLr_keepsMem, !State.hartAmo_keepsMem, !State.hartIllegal_keepsMem, !State.hartSc_keepsMem, Out.memIs]

theorem State.hartSys_keepsMem (s : State) (h : Nat) (insn : Word64) (w : Word) : Out.memIs s.mem (s.hartSys h insn w) := by
  unfold State.hartSys
  grind [!State.csrInsn_keepsMem, !State.hartSystem_keepsMem, !State.hartGuest_keepsMem, Out.memIs]

theorem State.hartWord_keepsMem (s : State) (h : Nat) (insn : Word64) (w : Word) : Out.memIs s.mem (s.hartWord h insn w) := by
  unfold State.hartWord
  grind [!State.hartAtomic_keepsMem, !State.hartJump_keepsMem, !State.hartSys_keepsMem, !State.hartFpMem_keepsMem,
    !State.hartMade_keepsMem, !State.hartLoad_keepsMem, !State.modHart_mem, !State.hartDone_keepsMem, !State.hartIllegal_keepsMem,
    !State.hartMisc_keepsMem, !State.hartResult_keepsMem, !State.hartStore_keepsMem, Out.memIs]

theorem State.hartInsn_keepsMem (s : State) (h n : Nat) : Out.memIs s.mem (s.hartInsn h n) := by
  unfold State.hartInsn
  grind [!State.modHart_mem, !State.hartIllegal_keepsMem, !State.hartWord_keepsMem, Out.memIs]

theorem State.hartParcel_cases (s : State) (h : Nat) (va : Word64) (k : State → Nat → Out) :
    Out.memIs s.mem (s.hartParcel h va k) ∨ ∃ t v, t.mem = s.mem ∧ s.hartParcel h va k = k t v := by
  unfold State.hartParcel
  grind [Out.memIs, !State.hartAccess_cases, !State.hartBytes_keepsMem, !State.free_keepsMem]

theorem State.hartRun_keepsMem (s : State) (h : Nat) : Out.memIs s.mem (s.hartRun h) := by
  unfold State.hartRun
  grind [!State.modHart_mem, !State.hartInsn_keepsMem, !State.hartParcel_cases, Out.memIs]

theorem execKindlingInstruction_keepsMem (h : Nat) (op : HartOp) (s : State) :
    Out.memIs s.mem (execKindlingInstruction h op s) := by
  unfold execKindlingInstruction
  grind [!State.hartRun_keepsMem, !State.hartAmo_keepsMem, !State.hartLoad_keepsMem, !State.modHart_mem,
    !State.hartSfence_keepsMem, !State.hartInsn_keepsMem, !State.hartStore_keepsMem, !State.hartFence_keepsMem, Out.memIs]

end Sys2Proof.Machine
end

section
/-! What the functions of Sys2Proof/Machine/Power.lean leave of memory at home. -/

namespace Sys2Proof.Machine

set_option Elab.async false

theorem execDroopDetect_keepsMem (rick : Nat) (s : State) : Out.memIs s.mem (execDroopDetect rick s) := rfl

theorem execDroopRecover_keepsMem (rick : Nat) (s : State) : Out.memIs s.mem (execDroopRecover rick s) := by
  unfold execDroopRecover
  grind [Out.memIs]

theorem State.clockTo_keepsMem (s : State) (mhz : Nat) : (s.clockTo mhz).mem = s.mem := by
  unfold State.clockTo
  grind

theorem execClockStepDown_keepsMem (s : State) : Out.memIs s.mem (execClockStepDown s) := by
  unfold execClockStepDown
  grind [!State.clockTo_keepsMem, Out.memIs]

theorem execClockStepUp_keepsMem (s : State) : Out.memIs s.mem (execClockStepUp s) := by
  unfold execClockStepUp
  split
  · refine Out.memIs_next _ _ ▸ ?_
    split
    · exact s.clockTo_keepsMem _
    · rfl
  · rfl

theorem State.refresh_keepsMem (s : State) : (s.refresh).mem = s.mem := by
  unfold State.refresh
  grind

theorem execTelemetryRefresh_keepsMem (t : Telemetry) (s : State) : Out.memIs s.mem (execTelemetryRefresh t s) := by
  unfold execTelemetryRefresh
  grind [!State.refresh_keepsMem, Out.memIs]

theorem execThermtrip_keepsMem (s : State) : Out.memIs s.mem (execThermtrip s) := by
  unfold execThermtrip
  split <;> rfl

theorem execD3hotTransition_keepsMem (port : Nat) (into : Bool) (s : State) :
    Out.memIs s.mem (execD3hotTransition port into s) := rfl

theorem execLinkL1Transition_keepsMem (port : Nat) (into : Bool) (s : State) :
    Out.memIs s.mem (execLinkL1Transition port into s) := rfl

end Sys2Proof.Machine
end

section
/-! What the functions of Sys2Proof/Machine/Boot.lean leave of memory at home. -/

namespace Sys2Proof.Machine

set_option Elab.async false

theorem execMeasurementExtend_keepsMem (r : Nat) (x : List Byte) (s : State) : Out.memIs s.mem (execMeasurementExtend r x s) := by
  unfold execMeasurementExtend
  split <;> rfl

theorem execRecoveryImageWrite_keepsMem (image : List Byte) (s : State) : Out.memIs s.mem (execRecoveryImageWrite image s) := by
  unfold execRecoveryImageWrite
  split <;> rfl

theorem execSpdmGetMeasurements_keepsMem (r : SpdmRequest) (s : State) : Out.memIs s.mem (execSpdmGetMeasurements r s) := by
  unfold execSpdmGetMeasurements
  split <;> rfl

theorem execPldmFirmwareUpdate_keepsMem (u : FirmwareUpdate) (s : State) : Out.memIs s.mem (execPldmFirmwareUpdate u s) := by
  unfold execPldmFirmwareUpdate
  split <;> rfl

theorem execPldmSetLimit_keepsMem (l : LimitName) (value : Nat) (s : State) : Out.memIs s.mem (execPldmSetLimit l value s) := by
  unfold execPldmSetLimit
  grind [Out.memIs]

end Sys2Proof.Machine
end

section
/-! What the functions of Sys2Proof/Machine/Events.lean leave of memory at home. -/

namespace Sys2Proof.Machine

set_option Elab.async false

theorem execWriteAcceptance_keepsMem (id : Nat) (s : State) : Out.memIs s.mem (execWriteAcceptance id s) := by
  unfold execWriteAcceptance
  grind [!State.acceptOr_keepsMem, !State.settleRel_keepsMem, Out.memIs]

theorem State.acknowledge_keepsMem (s : State) (id : Nat) : (s.acknowledge id).mem = s.mem := rfl

theorem execLeaseExpiry_keepsMem (core sector : Nat) (s : State) : Out.memIs s.mem (execLeaseExpiry core sector s) := rfl

theorem execLongLatencyFill_keepsMem (id : Nat) (s : State) : Out.memIs s.mem (execLongLatencyFill id s) := by
  unfold execLongLatencyFill
  grind [!State.modWave_mem, Out.memIs]

theorem execIllegalOp_keepsMem (bits : BitVec 128) (s : State) : Out.memIs s.mem (execIllegalOp bits s) := by
  unfold execIllegalOp
  grind [!State.trap_keepsMem, Out.memIs]

end Sys2Proof.Machine
end

section
/-! What the functions of Sys2Proof/Machine/Matrix.lean leave of memory at home. -/

namespace Sys2Proof.Machine

set_option Elab.async false

theorem execMosRsv_keepsMem (f : Fields) (s : State) : Out.memIs s.mem (execMosRsv f s) := by
  unfold execMosRsv
  refine front_memIs fun t w ht => ?_
  dsimp only
  exact Out.memIs_ite ht (Out.memIs_ite ht (Out.memIs_ite ht ht))

theorem execMosRel_keepsMem (f : Fields) (s : State) : Out.memIs s.mem (execMosRel f s) := by
  unfold execMosRel
  refine front_memIs fun t w ht => ?_
  dsimp only
  split
  · exact (t.trap_keepsMem ..).of_eq ht
  · exact State.heldFault_memIs ht (Out.memIs_ite (t.stall_keepsMem.of_eq ht) ht)

theorem execMosWr_keepsMem (f : Fields) (s : State) : Out.memIs s.mem (execMosWr f s) := by
  unfold execMosWr
  refine front_memIs fun t w ht => ?_
  have htrap : ∀ c m i, Out.memIs s.mem (t.trap c m i) := fun c m i => (t.trap_keepsMem c m i).of_eq ht
  dsimp only
  split
  · exact ht
  split
  · exact htrap ..
  refine Out.memIs_ite (htrap ..) ?_
  split
  · exact htrap ..
  · refine State.heldFault_memIs ht (Out.memIs_ite (t.stall_keepsMem.of_eq ht) ?_)
    exact State.finish_memIs ((t.modRange_mem _ _).trans ht) f id

theorem State.probeReads_keepsMem (w : Wave) (a1 : List Nat) (a2 : State) : (State.probeReads w a1 a2).1.mem = a2.mem := by
  fun_induction State.probeReads <;> grind [!State.translate_keepsMem]

theorem execMosFill_keepsMem (f : Fields) (s : State) : Out.memIs s.mem (execMosFill f s) := by
  unfold execMosFill
  grind [!State.stall_keepsMem, !State.modRange_mem, !State.finish_keepsMem, !State.take_cases, !State.probeReads_keepsMem,
    !State.front_cases, !State.trap_keepsMem, Out.memIs]

theorem execMmaOperationComplete_keepsMem (core side : Nat) (s : State) : Out.memIs s.mem (execMmaOperationComplete core side s) := by
  unfold execMmaOperationComplete
  split
  · rfl
  next o _ =>
  dsimp only
  have hreaders := fun t : State => foldl_mem (fun (s : State) (m : MmaMember) => s.reader_keepsMem m.wave m.f (· - 1)) o.members t
  refine (hreaders _).trans (foldl_mem (fun t m => ?_) o.members s)
  split
  · rfl
  next w _ =>
  split
  · rfl
  next rg _ =>
  have herr := t.mosErrors_keepsMem rg
  split <;> rename_i e <;> rw [e] at herr
  · exact (State.faultLater_keepsMem ..).trans herr
  next u =>
  have hread := (u.readErrors_keepsMem w [(m.f.d, 16)]).trans herr
  split <;> rename_i e <;> rw [e] at hread
  · exact (State.faultLater_keepsMem ..).trans hread
  · exact (State.modWave_mem ..).trans hread

theorem State.gatherFull_keepsMem (s : State) (cord g : Nat) : (s.gatherFull cord g).mem = s.mem := by
  unfold State.gatherFull
  grind [!State.breakGather_keepsMem, !State.setGather_keepsMem, !State.modWave_mem, foldl_mem_or, foldl_fst_mem_or,
    foldl_snd_mem_or]

theorem State.quartetTrap_keepsMem (s : State) (w : Wave) (g i : Nat) : Out.memIs s.mem (s.quartetTrap w g i) := by
  unfold State.quartetTrap
  grind [!State.trapWith_cases, !State.setGather_keepsMem, Out.memIs]

theorem State.mma_keepsMem (s : State) (i : Fields → Instr) (f : Fields) (sp : Bool) : Out.memIs s.mem (s.mma i f sp) := by
  unfold State.mma
  refine front_memIs fun t w ht => ?_
  have htrap : ∀ c m i, Out.memIs s.mem (t.trap c m i) := fun c m i => (t.trap_keepsMem c m i).of_eq ht
  have hquartet : ∀ g i, Out.memIs s.mem (t.quartetTrap w g i) := fun g i => (t.quartetTrap_keepsMem w g i).of_eq ht
  dsimp only
  refine Out.memIs_ite (hquartet ..) ?_
  split
  · exact htrap ..
  refine Out.memIs_ite (htrap ..) (Out.memIs_ite (htrap ..) (State.heldFault_memIs ht (Out.memIs_ite (t.stall_keepsMem.of_eq ht) ?_)))
  split
  · exact hquartet ..
  · exact (State.gatherFull_keepsMem ..).trans ((State.modMe_mem ..).trans ((State.setGather_keepsMem ..).trans ((t.reader_keepsMem ..).trans ht)))

theorem execMma_keepsMem (f : Fields) (s : State) : Out.memIs s.mem (execMma f s) := by
  unfold execMma
  grind [!State.mma_keepsMem, Out.memIs]

theorem execMmaSp_keepsMem (f : Fields) (s : State) : Out.memIs s.mem (execMmaSp f s) := by
  unfold execMmaSp
  grind [!State.mma_keepsMem, Out.memIs]

end Sys2Proof.Machine
end

section
/-! What the functions of Sys2Proof/Machine/Repeat.lean leave of memory at home. -/

namespace Sys2Proof.Machine

set_option Elab.async false

theorem repeated_keepsMem (i : Instr) (s : State) : Out.memIs s.mem (repeated i s) := by
  unfold repeated
  grind [!execF2i_keepsMem, !execMatchLanes_keepsMem, !execFldexp_keepsMem, !execVBfe_keepsMem, !execScan_keepsMem,
    !execVShl_keepsMem, !execSShr_keepsMem, !execFsub_keepsMem, !execDminmax_keepsMem, !execSMin_keepsMem, !execDcmp_keepsMem,
    !execFrsq_keepsMem, !execDadd_keepsMem, !execFmul_keepsMem, !execFclass_keepsMem, !execVXor_keepsMem, !execFmin_keepsMem,
    !execFqni_keepsMem, !execSXor_keepsMem, !execVCmp_keepsMem, !execSMov_keepsMem, !execVMulh_keepsMem, !execFexp2f_keepsMem,
    !execSBfe_keepsMem, !execPrmt_keepsMem, !execSPopc_keepsMem, !execShflDown_keepsMem, !execVMul_keepsMem, !execSMul_keepsMem,
    !execLdS_keepsMem, !execFlog2_keepsMem, !execVSar_keepsMem, !execCLop_keepsMem, !execVBfi_keepsMem, !execFadd_keepsMem,
    !execSSar_keepsMem, !execShflXor_keepsMem, !execVOr_keepsMem, !execDmul_keepsMem, !execXaRnd_keepsMem, !execDot4_keepsMem,
    !execSShl_keepsMem, !execVMin_keepsMem, !execFfrexp_keepsMem, !execVShr_keepsMem, !execSCmp_keepsMem, !execI2f_keepsMem,
    !execFrnd_keepsMem, !execVSel_keepsMem, !execFdqni_keepsMem, !execSRot_keepsMem, !execSAndn_keepsMem, !execSSub_keepsMem,
    !execFcvt_keepsMem, !execFmax_keepsMem, !execSMax_keepsMem, !execWrlane_keepsMem, !execRedux_keepsMem, !execDfma_keepsMem,
    !execFsinr_keepsMem, !execSBfi_keepsMem, !execSAnd_keepsMem, !execSOr_keepsMem, !execSMulh_keepsMem, !execReduxF_keepsMem,
    !execSClz_keepsMem, !execVAndn_keepsMem, !execVAdd64_keepsMem, !execVPopc_keepsMem, !execShflIdx_keepsMem, !execVAdd_keepsMem,
    !execVAnd_keepsMem, !execSSel_keepsMem, !execVMax_keepsMem, !execVAbs_keepsMem, !execStS_keepsMem, !execVRot_keepsMem,
    !execMad_keepsMem, !execFrcp_keepsMem, !execFcosr_keepsMem, !execSAdd_keepsMem, !execRdlane_keepsMem, !execFfma_keepsMem,
    !execSMovi_keepsMem, !execLdK_keepsMem, !execXaAdd_keepsMem, !execMadw_keepsMem, !execVSub_keepsMem, !execFcmp_keepsMem,
    !execVClz_keepsMem, !execVBrev_keepsMem, !execSAdd64_keepsMem, !State.trap_keepsMem, !execFsqrt_keepsMem, !execFdot2_keepsMem,
    !execShflUp_keepsMem, Out.memIs]

theorem execRepIteration_keepsMem (op : BitVec 8) (f : Fields) (s : State) : Out.memIs s.mem (execRepIteration op f s) := by
  unfold execRepIteration
  grind [!repeated_keepsMem, !State.trap_keepsMem, Out.memIs]

end Sys2Proof.Machine
end

section
/-! What the functions of Sys2Proof/Machine/Texture.lean leave of memory at home. -/

namespace Sys2Proof.Machine

set_option Elab.async false

theorem State.texel_keepsMem (s : State) (rd : Reader) (r : TexRec) (l x y z : Nat) : (s.texel rd r l x y z).1.mem = s.mem := by
  unfold State.texel
  grind [!State.unitLoad_keepsMem, !andThen_cases]

theorem State.texelAt_keepsMem (s : State) (rd : Reader) (r : TexRec) (l : Nat) (x y z : ℤ) :
    (s.texelAt rd r l x y z).1.mem = s.mem := by
  unfold State.texelAt
  grind [!State.texel_keepsMem]

theorem State.lod_keepsMem (s : State) (r : TexRec) (lam : Word64) : (s.lod r lam).2.mem = s.mem := by
  unfold State.lod
  grind [!State.free_keepsMem]

theorem State.quad_keepsMem (s : State) (rd : Reader) (r : TexRec) (l : Nat) (a : TexArg) (z : ℤ) :
    (s.quad rd r l a z).1.mem = s.mem := by
  unfold State.quad
  grind [!State.texelAt_keepsMem, !andThen_cases]

theorem State.bilinear_keepsMem (s : State) (rd : Reader) (r : TexRec) (l : Nat) (a : TexArg) :
    (s.bilinear rd r l a).1.mem = s.mem := by
  unfold State.bilinear
  grind [!State.quad_keepsMem, !andThen_cases]

theorem State.nearest_keepsMem (s : State) (rd : Reader) (r : TexRec) (l : Nat) (a : TexArg) :
    (s.nearest rd r l a).1.mem = s.mem := by
  unfold State.nearest
  grind [!State.texelAt_keepsMem]

theorem State.sample_keepsMem (s : State) (rd : Reader) (r : TexRec) (a : TexArg) (lam : Word64) :
    (s.sample rd r a lam).1.mem = s.mem := by
  unfold State.sample
  grind [!andThen_cases, !State.bilinear_keepsMem, !State.nearest_keepsMem, !State.lod_keepsMem]

theorem State.gather_keepsMem (s : State) (rd : Reader) (r : TexRec) (a : TexArg) (lam : Word64) (ch : Nat) :
    (s.gather rd r a lam ch).1.mem = s.mem := by
  unfold State.gather
  grind [!State.quad_keepsMem, !State.free_keepsMem, !andThen_cases, !State.lod_keepsMem]

theorem State.fetchTexel_keepsMem (s : State) (rd : Reader) (r : TexRec) (x y z l : ℤ) :
    (s.fetchTexel rd r x y z l).1.mem = s.mem := by
  unfold State.fetchTexel
  grind [!State.texel_keepsMem]

theorem State.laneRecord_keepsMem (s : State) (rd : Reader) (heap : Nat) (idx : Word64) :
    (s.laneRecord rd heap idx).1.mem = s.mem := by
  unfold State.laneRecord
  grind [!State.unitLoad_keepsMem]

theorem execTexSmp_keepsMem (f : Fields) (s : State) : Out.memIs s.mem (execTexSmp f s) := by
  unfold execTexSmp
  grind [!State.sample_keepsMem, !State.laneRecord_keepsMem, !State.unitLanes_cases, !andThen_cases, !State.front_cases, Out.memIs]

theorem execTexGthr_keepsMem (f : Fields) (s : State) : Out.memIs s.mem (execTexGthr f s) := by
  unfold execTexGthr
  grind [!State.laneRecord_keepsMem, !State.unitLanes_cases, !andThen_cases, !State.front_cases, !State.gather_keepsMem, Out.memIs]

theorem execTexLd_keepsMem (f : Fields) (s : State) : Out.memIs s.mem (execTexLd f s) := by
  unfold execTexLd
  grind [!State.laneRecord_keepsMem, !State.unitLanes_cases, !andThen_cases, !State.front_cases, !State.fetchTexel_keepsMem,
    Out.memIs]

theorem execRecLd_keepsMem (f : Fields) (s : State) : Out.memIs s.mem (execRecLd f s) := by
  unfold execRecLd
  grind [!State.laneRecord_keepsMem, !State.unitLanes_cases, !andThen_cases, !State.front_cases, Out.memIs]

end Sys2Proof.Machine
end

section
/-! What the functions of Sys2Proof/Machine/Issue.lean leave of memory at home. -/

namespace Sys2Proof.Machine

set_option Elab.async false

theorem State.issued_keepsMem (s : State) (id : WaveId) : (s.issued id).mem = s.mem := by
  unfold State.issued
  grind [!State.dropAnswers_keepsMem]

end Sys2Proof.Machine
end

section
/-! What the functions of Sys2Proof/Machine/Due.lean leave of memory at home. -/

namespace Sys2Proof.Machine

set_option Elab.async false

theorem State.grantGrow_keepsMem (s : State) (id : WaveId) : (s.grantGrow id).mem = s.mem := by
  unfold State.grantGrow
  grind [!State.modWave_mem]

theorem State.settleGrow_keepsMem (s : State) : (s.settleGrow).mem = s.mem := by
  unfold State.settleGrow
  grind [!State.grantGrow_keepsMem, !State.growFail_keepsMem, foldl_mem_or, foldl_fst_mem_or, foldl_snd_mem_or]

theorem State.settleBad_keepsMem (s : State) : (s.settleBad).mem = s.mem := by
  unfold State.settleBad
  grind [!State.ctxFault_keepsMem, foldl_mem_or, foldl_fst_mem_or, foldl_snd_mem_or]

theorem State.settleFaults_keepsMem (s : State) : (s.settleFaults).mem = s.mem := by
  unfold State.settleFaults
  grind [!State.ctxFault_keepsMem, foldl_mem_or, foldl_fst_mem_or, foldl_snd_mem_or]

theorem State.settleReady_keepsMem (s : State) : (s.settleReady).mem = s.mem := by
  unfold State.settleReady
  grind [!State.readyCheck_keepsMem, foldl_mem_or, foldl_fst_mem_or, foldl_snd_mem_or]

theorem State.after_keepsMem (s : State) : (s.after).mem = s.mem := by
  unfold State.after
  grind [!State.settleBad_keepsMem, !State.settleRel_keepsMem, !State.settleReady_keepsMem, !State.settleFaults_keepsMem,
    !State.fitDirectory_keepsMem, !State.settleGrow_keepsMem]

end Sys2Proof.Machine
end

section
/-! Every step keeps memory canonical (R232, R233): only completions, a reset, the removal of power and a pool host's snoop change
memory at home, and these write cells in their order. -/

namespace Sys2Proof.Machine

/-- An outcome whose next state has canonical memory. -/
def Out.canonical (o : Out) : Prop := o.holds fun t => Memory.wf t.mem = true

theorem Out.canonical_next {t : State} : Out.canonical (.next t) ↔ Memory.wf t.mem = true := Iff.rfl

theorem Out.memIs.canonical {m : List Host.Cell} {o : Out} (h : Out.memIs m o) (hm : Memory.wf m = true) : o.canonical := by
  cases o with
  | next t => exact (congrArg Memory.wf h).trans hm
  | fault => trivial
  | refused => trivial

theorem Out.canonical_ite {p : Prop} [Decidable p] {a b : Out} (ha : a.canonical) (hb : b.canonical) : Out.canonical (if p then a else b) := by
  split
  · exact ha
  · exact hb

/-! ### What changes memory -/

section
variable {s : State} (hs : Memory.wf s.mem = true)
include hs

theorem State.complete_canonical (id : Nat) : Memory.wf (s.complete id).mem = true := by
  unfold State.complete
  split
  · exact hs
  · exact foldCells_wf _ _ _ hs

theorem execWriteCompletion_canonical (id : Nat) : (execWriteCompletion id s).canonical := by
  unfold execWriteCompletion
  split
  · rw [Out.canonical_next]
    split
    · exact State.complete_canonical hs id
    · exact hs
  · exact hs

theorem execPoolWriteAcknowledge_canonical (id : Nat) : (execPoolWriteAcknowledge id s).canonical := by
  have hack : Memory.wf (s.acknowledge id).mem = true := (congrArg Memory.wf (s.acknowledge_keepsMem id)).trans hs
  unfold execPoolWriteAcknowledge
  split
  · refine Out.canonical_ite ?_ hs
    rw [Out.canonical_next]
    split
    · exact State.complete_canonical hack id
    · exact hack
  · exact hs

omit hs in
/-- A reset clears memory, and lays a boot image in it (R430). -/
theorem execReset_canonical (s : State) : (execReset s).canonical := by
  unfold execReset
  exact Out.canonical_ite (cellsSet_wf [] _ rfl) (rfl : Memory.wf [] = true)

omit hs in
theorem execPowerRemoval_canonical (s : State) : (execPowerRemoval s).canonical := reset_mem_wf

theorem execBackInvalidationSnoop_canonical (p : PoolSnoop) : (execBackInvalidationSnoop p s).canonical := by
  unfold execBackInvalidationSnoop
  rw [Out.canonical_next]
  split
  · exact hs
  · exact cellsSet_wf _ _ hs

theorem exec_canonical (i : Instr) : Out.canonical (exec i s) := by
  have keeps {o : Out} (h : Out.memIs s.mem o) : o.canonical := h.canonical hs
  exact match i with
    | .nop f => keeps (execNop_keepsMem f s)
    | .trap f => keeps (execTrap_keepsMem f s)
    | .tret f => keeps (execTret_keepsMem f s)
    | .upcall f => keeps (execUpcall_keepsMem f s)
    | .sysRd f => keeps (execSysRd_keepsMem f s)
    | .sysWr f => keeps (execSysWr_keepsMem f s)
    | .sleep f => keeps (execSleep_keepsMem f s)
    | .sleepDeadline w => keeps (execSleepDeadline_keepsMem w s)
    | .bra f => keeps (execBra_keepsMem f s)
    | .brez f => keeps (execBrez_keepsMem f s)
    | .brx f => keeps (execBrx_keepsMem f s)
    | .ret f => keeps (execRet_keepsMem f s)
    | .call f => keeps (execCall_keepsMem f s)
    | .exit f => keeps (execExit_keepsMem f s)
    | .rep f => keeps (execRep_keepsMem f s)
    | .repIteration op f => keeps (execRepIteration_keepsMem op f s)
    | .loopPin f => keeps (execLoopPin_keepsMem f s)
    | .loopEnd f => keeps (execLoopEnd_keepsMem f s)
    | .yield f => keeps (execYield_keepsMem f s)
    | .kAnd f => keeps (execKAnd_keepsMem f s)
    | .kOr f => keeps (execKOr_keepsMem f s)
    | .kXor f => keeps (execKXor_keepsMem f s)
    | .kAndn f => keeps (execKAndn_keepsMem f s)
    | .kNot f => keeps (execKNot_keepsMem f s)
    | .kMov f => keeps (execKMov_keepsMem f s)
    | .kLd f => keeps (execKLd_keepsMem f s)
    | .kSt f => keeps (execKSt_keepsMem f s)
    | .kPopc f => keeps (execKPopc_keepsMem f s)
    | .kFirst f => keeps (execKFirst_keepsMem f s)
    | .kTestAny f => keeps (execKTestAny_keepsMem f s)
    | .kTestAll f => keeps (execKTestAll_keepsMem f s)
    | .movxRd f => keeps (execMovxRd_keepsMem f s)
    | .movxWr f => keeps (execMovxWr_keepsMem f s)
    | .xset f => keeps (execXset_keepsMem f s)
    | .xadd f => keeps (execXadd_keepsMem f s)
    | .regGrow f => keeps (execRegGrow_keepsMem f s)
    | .regShrink f => keeps (execRegShrink_keepsMem f s)
    | .feWait f => keeps (execFeWait_keepsMem f s)
    | .feWaitAll f => keeps (execFeWaitAll_keepsMem f s)
    | .icInv f => keeps (execIcInv_keepsMem f s)
    | .grpInfo f => keeps (execGrpInfo_keepsMem f s)
    | .sAdd f => keeps (execSAdd_keepsMem f s)
    | .sSub f => keeps (execSSub_keepsMem f s)
    | .sMul f => keeps (execSMul_keepsMem f s)
    | .sMulh f => keeps (execSMulh_keepsMem f s)
    | .sAnd f => keeps (execSAnd_keepsMem f s)
    | .sOr f => keeps (execSOr_keepsMem f s)
    | .sXor f => keeps (execSXor_keepsMem f s)
    | .sAndn f => keeps (execSAndn_keepsMem f s)
    | .sShl f => keeps (execSShl_keepsMem f s)
    | .sShr f => keeps (execSShr_keepsMem f s)
    | .sSar f => keeps (execSSar_keepsMem f s)
    | .sRot f => keeps (execSRot_keepsMem f s)
    | .sMin f => keeps (execSMin_keepsMem f s)
    | .sMax f => keeps (execSMax_keepsMem f s)
    | .sCmp f => keeps (execSCmp_keepsMem f s)
    | .sSel f => keeps (execSSel_keepsMem f s)
    | .sMov f => keeps (execSMov_keepsMem f s)
    | .sMovi f => keeps (execSMovi_keepsMem f s)
    | .sBfe f => keeps (execSBfe_keepsMem f s)
    | .sBfi f => keeps (execSBfi_keepsMem f s)
    | .sPopc f => keeps (execSPopc_keepsMem f s)
    | .sClz f => keeps (execSClz_keepsMem f s)
    | .sAdd64 f => keeps (execSAdd64_keepsMem f s)
    | .cLop f => keeps (execCLop_keepsMem f s)
    | .vAdd f => keeps (execVAdd_keepsMem f s)
    | .vSub f => keeps (execVSub_keepsMem f s)
    | .vMul f => keeps (execVMul_keepsMem f s)
    | .vMulh f => keeps (execVMulh_keepsMem f s)
    | .mad f => keeps (execMad_keepsMem f s)
    | .madw f => keeps (execMadw_keepsMem f s)
    | .vAnd f => keeps (execVAnd_keepsMem f s)
    | .vOr f => keeps (execVOr_keepsMem f s)
    | .vXor f => keeps (execVXor_keepsMem f s)
    | .vAndn f => keeps (execVAndn_keepsMem f s)
    | .vShl f => keeps (execVShl_keepsMem f s)
    | .vShr f => keeps (execVShr_keepsMem f s)
    | .vSar f => keeps (execVSar_keepsMem f s)
    | .vRot f => keeps (execVRot_keepsMem f s)
    | .vMin f => keeps (execVMin_keepsMem f s)
    | .vMax f => keeps (execVMax_keepsMem f s)
    | .vAbs f => keeps (execVAbs_keepsMem f s)
    | .vCmp f => keeps (execVCmp_keepsMem f s)
    | .vSel f => keeps (execVSel_keepsMem f s)
    | .vBfe f => keeps (execVBfe_keepsMem f s)
    | .vBfi f => keeps (execVBfi_keepsMem f s)
    | .vPopc f => keeps (execVPopc_keepsMem f s)
    | .vClz f => keeps (execVClz_keepsMem f s)
    | .vBrev f => keeps (execVBrev_keepsMem f s)
    | .vAdd64 f => keeps (execVAdd64_keepsMem f s)
    | .prmt f => keeps (execPrmt_keepsMem f s)
    | .dot4 f => keeps (execDot4_keepsMem f s)
    | .shflIdx f => keeps (execShflIdx_keepsMem f s)
    | .shflXor f => keeps (execShflXor_keepsMem f s)
    | .shflUp f => keeps (execShflUp_keepsMem f s)
    | .shflDown f => keeps (execShflDown_keepsMem f s)
    | .rdlane f => keeps (execRdlane_keepsMem f s)
    | .wrlane f => keeps (execWrlane_keepsMem f s)
    | .matchLanes f => keeps (execMatchLanes_keepsMem f s)
    | .redux f => keeps (execRedux_keepsMem f s)
    | .scan f => keeps (execScan_keepsMem f s)
    | .fadd f => keeps (execFadd_keepsMem f s)
    | .fsub f => keeps (execFsub_keepsMem f s)
    | .fmul f => keeps (execFmul_keepsMem f s)
    | .ffma f => keeps (execFfma_keepsMem f s)
    | .fmin f => keeps (execFmin_keepsMem f s)
    | .fmax f => keeps (execFmax_keepsMem f s)
    | .fcmp f => keeps (execFcmp_keepsMem f s)
    | .fclass f => keeps (execFclass_keepsMem f s)
    | .frnd f => keeps (execFrnd_keepsMem f s)
    | .dadd f => keeps (execDadd_keepsMem f s)
    | .dmul f => keeps (execDmul_keepsMem f s)
    | .dfma f => keeps (execDfma_keepsMem f s)
    | .dcmp f => keeps (execDcmp_keepsMem f s)
    | .dminmax f => keeps (execDminmax_keepsMem f s)
    | .fcvt f => keeps (execFcvt_keepsMem f s)
    | .f2i f => keeps (execF2i_keepsMem f s)
    | .i2f f => keeps (execI2f_keepsMem f s)
    | .fldexp f => keeps (execFldexp_keepsMem f s)
    | .ffrexp f => keeps (execFfrexp_keepsMem f s)
    | .fexp2f f => keeps (execFexp2f_keepsMem f s)
    | .flog2 f => keeps (execFlog2_keepsMem f s)
    | .frcp f => keeps (execFrcp_keepsMem f s)
    | .frsq f => keeps (execFrsq_keepsMem f s)
    | .fsqrt f => keeps (execFsqrt_keepsMem f s)
    | .fsinr f => keeps (execFsinr_keepsMem f s)
    | .fcosr f => keeps (execFcosr_keepsMem f s)
    | .fdot2 f => keeps (execFdot2_keepsMem f s)
    | .fqni f => keeps (execFqni_keepsMem f s)
    | .fdqni f => keeps (execFdqni_keepsMem f s)
    | .reduxF f => keeps (execReduxF_keepsMem f s)
    | .xaAdd f => keeps (execXaAdd_keepsMem f s)
    | .xaRnd f => keeps (execXaRnd_keepsMem f s)
    | .ld f => keeps (execLd_keepsMem f s)
    | .st f => keeps (execSt_keepsMem f s)
    | .ldK f => keeps (execLdK_keepsMem f s)
    | .sLd f => keeps (execSLd_keepsMem f s)
    | .sSt f => keeps (execSSt_keepsMem f s)
    | .ldS f => keeps (execLdS_keepsMem f s)
    | .stS f => keeps (execStS_keepsMem f s)
    | .atom f => keeps (execAtom_keepsMem f s)
    | .atomS f => keeps (execAtomS_keepsMem f s)
    | .red f => keeps (execRed_keepsMem f s)
    | .fence f => keeps (execFence_keepsMem f s)
    | .acqRs f => keeps (execAcqRs_keepsMem f s)
    | .pref f => keeps (execPref_keepsMem f s)
    | .discard f => keeps (execDiscard_keepsMem f s)
    | .cpy f => keeps (execCpy_keepsMem f s)
    | .cpyBox f => keeps (execCpyBox_keepsMem f s)
    | .cpyClose f => keeps (execCpyClose_keepsMem f s)
    | .cpyWait f => keeps (execCpyWait_keepsMem f s)
    | .copyPiece c piece => keeps (execCopyPiece_keepsMem c piece s)
    | .copyBatchComplete c => keeps (execCopyBatchComplete_keepsMem c s)
    | .strmDef f => keeps (execStrmDef_keepsMem f s)
    | .strmGo f => keeps (execStrmGo_keepsMem f s)
    | .strmStop f => keeps (execStrmStop_keepsMem f s)
    | .streamElementFetch w id => keeps (execStreamElementFetch_keepsMem w id s)
    | .tileOpen f => keeps (execTileOpen_keepsMem f s)
    | .tileClose f => keeps (execTileClose_keepsMem f s)
    | .tileAcq f => keeps (execTileAcq_keepsMem f s)
    | .tileRel f => keeps (execTileRel_keepsMem f s)
    | .tileSplit f => keeps (execTileSplit_keepsMem f s)
    | .tileQry f => keeps (execTileQry_keepsMem f s)
    | .tenureGrant root => keeps (execTenureGrant_keepsMem root s)
    | .tenureRenew root core => keeps (execTenureRenew_keepsMem root core s)
    | .tenureExpiry root core => keeps (execTenureExpiry_keepsMem root core s)
    | .leaseExpiry core sector => keeps (execLeaseExpiry_keepsMem core sector s)
    | .writeCompletion id => execWriteCompletion_canonical hs id
    | .longLatencyFill id => keeps (execLongLatencyFill_keepsMem id s)
    | .pgProbe f => keeps (execPgProbe_keepsMem f s)
    | .pgInvVa f => keeps (execPgInvVa_keepsMem f s)
    | .pgInvCtx f => keeps (execPgInvCtx_keepsMem f s)
    | .invalidationComplete id => keeps (execInvalidationComplete_keepsMem id s)
    | .pgSync f => keeps (execPgSync_keepsMem f s)
    | .bar f => keeps (execBar_keepsMem f s)
    | .barArv f => keeps (execBarArv_keepsMem f s)
    | .barWait f => keeps (execBarWait_keepsMem f s)
    | .barDev f => keeps (execBarDev_keepsMem f s)
    | .barDrainComplete cord g => keeps (execBarDrainComplete_keepsMem cord g s)
    | .qpush f => keeps (execQpush_keepsMem f s)
    | .qnotify f => keeps (execQnotify_keepsMem f s)
    | .spawn f => keeps (execSpawn_keepsMem f s)
    | .join f => keeps (execJoin_keepsMem f s)
    | .joinInc f => keeps (execJoinInc_keepsMem f s)
    | .emit f => keeps (execEmit_keepsMem f s)
    | .nodePop f => keeps (execNodePop_keepsMem f s)
    | .mosRsv f => keeps (execMosRsv_keepsMem f s)
    | .mosRel f => keeps (execMosRel_keepsMem f s)
    | .mosWr f => keeps (execMosWr_keepsMem f s)
    | .mosFill f => keeps (execMosFill_keepsMem f s)
    | .mosFillComplete id => keeps (execMosFillComplete_keepsMem id s)
    | .mma f => keeps (execMma_keepsMem f s)
    | .mmaSp f => keeps (execMmaSp_keepsMem f s)
    | .mmaOperationComplete core side => keeps (execMmaOperationComplete_keepsMem core side s)
    | .rtBox f => keeps (execRtBox_keepsMem f s)
    | .rtTri f => keeps (execRtTri_keepsMem f s)
    | .rtTriReg f => keeps (execRtTriReg_keepsMem f s)
    | .rtTrace f => keeps (execRtTrace_keepsMem f s)
    | .texSmp f => keeps (execTexSmp_keepsMem f s)
    | .texLd f => keeps (execTexLd_keepsMem f s)
    | .texGthr f => keeps (execTexGthr_keepsMem f s)
    | .recLd f => keeps (execRecLd_keepsMem f s)
    | .cutGo f => keeps (execCutGo_keepsMem f s)
    | .cutJobRun die => keeps (execCutJobRun_keepsMem die s)
    | .cutJobStatus die => keeps (execCutJobStatus_keepsMem die s)
    | .rgnIn f => keeps (execRgnIn_keepsMem f s)
    | .rgnOut f => keeps (execRgnOut_keepsMem f s)
    | .brk f => keeps (execBrk_keepsMem f s)
    | .prog f => keeps (execProg_keepsMem f s)
    | .qpPost f => keeps (execQpPost_keepsMem f s)
    | .coll f => keeps (execColl_keepsMem f s)
    | .collWait f => keeps (execCollWait_keepsMem f s)
    | .pair p => keeps (execPair_keepsMem p s)
    | .illegalOp bits => keeps (execIllegalOp_keepsMem bits s)
    | .breakpointMatch w => keeps (execBreakpointMatch_keepsMem w s)
    | .stopTakesEffect w => keeps (execStopTakesEffect_keepsMem w s)
    | .resumeContinue w => keeps (execResumeContinue_keepsMem w s)
    | .resumeDeliver w => keeps (execResumeDeliver_keepsMem w s)
    | .resumeStep w => keeps (execResumeStep_keepsMem w s)
    | .sample core => keeps (execSample_keepsMem core s)
    | .registerWrite r value => keeps (execRegisterWrite_keepsMem r value s)
    | .freeze => keeps (execFreeze_keepsMem s)
    | .pldmFreeze => keeps (execPldmFreeze_keepsMem s)
    | .ctxCreate tag blk => keeps (execCtxCreate_keepsMem tag blk s)
    | .ctxCommit tag blk => keeps (execCtxCommit_keepsMem tag blk s)
    | .ctxDestroy tag blk => keeps (execCtxDestroy_keepsMem tag blk s)
    | .destroyComplete tag => keeps (execDestroyComplete_keepsMem tag s)
    | .inval tag addr len blk => keeps (execInval_keepsMem tag addr len blk s)
    | .qpModifyInit qpn blk => keeps (execQpModifyInit_keepsMem qpn blk s)
    | .qpModifyReady qpn blk => keeps (execQpModifyReady_keepsMem qpn blk s)
    | .qpModifyActive qpn blk => keeps (execQpModifyActive_keepsMem qpn blk s)
    | .qpModifyDrain qpn blk => keeps (execQpModifyDrain_keepsMem qpn blk s)
    | .qpModifyReset qpn blk => keeps (execQpModifyReset_keepsMem qpn blk s)
    | .qpDrained qpn => keeps (execQpDrained_keepsMem qpn s)
    | .portEnable port blk => keeps (execPortEnable_keepsMem port blk s)
    | .portDisable port blk => keeps (execPortDisable_keepsMem port blk s)
    | .portQuiesce port blk => keeps (execPortQuiesce_keepsMem port blk s)
    | .portResume port blk => keeps (execPortResume_keepsMem port blk s)
    | .portRetrain port blk => keeps (execPortRetrain_keepsMem port blk s)
    | .linkUp port width => keeps (execLinkUp_keepsMem port width s)
    | .trainingTimeout port => keeps (execTrainingTimeout_keepsMem port s)
    | .versionNegotiation port major minor peer => keeps (execVersionNegotiation_keepsMem port major minor peer s)
    | .laneLoss port width => keeps (execLaneLoss_keepsMem port width s)
    | .replayLimitExceeded port => keeps (execReplayLimitExceeded_keepsMem port s)
    | .commCreate tag index list n rank timeout blk => keeps (execCommCreate_keepsMem tag index list n rank timeout blk s)
    | .cutSubmit tag addr blk => keeps (execCutSubmit_keepsMem tag addr blk s)
    | .retireRead dest blk => keeps (execRetireRead_keepsMem dest blk s)
    | .hbmMap dest blk => keeps (execHbmMap_keepsMem dest blk s)
    | .nkwake value => keeps (execNkwake_keepsMem value s)
    | .eventPost die => keeps (execEventPost_keepsMem die s)
    | .doorbell tag q => keeps (execDoorbell_keepsMem tag q s)
    | .queueMap slot => keeps (execQueueMap_keepsMem slot s)
    | .sliceEnd slot => keeps (execSliceEnd_keepsMem slot s)
    | .recordTake slot => keeps (execRecordTake_keepsMem slot s)
    | .recordExpand slot => keeps (execRecordExpand_keepsMem slot s)
    | .cordPlace slot => keeps (execCordPlace_keepsMem slot s)
    | .cordRetire cord => keeps (execCordRetire_keepsMem cord s)
    | .recordRetire rec => keeps (execRecordRetire_keepsMem rec s)
    | .successorRelease die => keeps (execSuccessorRelease_keepsMem die s)
    | .queueResume tag q => keeps (execQueueResume_keepsMem tag q s)
    | .drainEnd tag => keeps (execDrainEnd_keepsMem tag s)
    | .drainTimeout tag => keeps (execDrainTimeout_keepsMem tag s)
    | .contextResume tag => keeps (execContextResume_keepsMem tag s)
    | .cordRestore tag => keeps (execCordRestore_keepsMem tag s)
    | .raygenRun rec => keeps (execRaygenRun_keepsMem rec s)
    | .raygenComplete rec => keeps (execRaygenComplete_keepsMem rec s)
    | .collectiveRun id ranks => keeps (execCollectiveRun_keepsMem id ranks s)
    | .collectiveComplete id => keeps (execCollectiveComplete_keepsMem id s)
    | .collectiveTimeout id => keeps (execCollectiveTimeout_keepsMem id s)
    | .workRequestTake qpn => keeps (execWorkRequestTake_keepsMem qpn s)
    | .packetReceive port qpn p => keeps (execPacketReceive_keepsMem port qpn p s)
    | .ackReceive qpn a => keeps (execAckReceive_keepsMem qpn a s)
    | .sequenceNak qpn epsn => keeps (execSequenceNak_keepsMem qpn epsn s)
    | .ackTimeout qpn => keeps (execAckTimeout_keepsMem qpn s)
    | .receiverNotReady qpn => keeps (execReceiverNotReady_keepsMem qpn s)
    | .qpContextFetch die qpn => keeps (execQpContextFetch_keepsMem die qpn s)
    | .hostBar2Access port a => keeps (execHostBar2Access_keepsMem port a s)
    | .hostAtomicop port a => keeps (execHostAtomicop_keepsMem port a s)
    | .backInvalidationSnoop sector => execBackInvalidationSnoop_canonical hs sector
    | .reset => execReset_canonical s
    | .recoveryImageWrite image => keeps (execRecoveryImageWrite_keepsMem image s)
    | .spdmGetMeasurements index => keeps (execSpdmGetMeasurements_keepsMem index s)
    | .pldmSetLimit l value => keeps (execPldmSetLimit_keepsMem l value s)
    | .pldmFirmwareUpdate image => keeps (execPldmFirmwareUpdate_keepsMem image s)
    | .droopDetect rick => keeps (execDroopDetect_keepsMem rick s)
    | .droopRecover rick => keeps (execDroopRecover_keepsMem rick s)
    | .clockStepDown => keeps (execClockStepDown_keepsMem s)
    | .clockStepUp => keeps (execClockStepUp_keepsMem s)
    | .telemetryRefresh t => keeps (execTelemetryRefresh_keepsMem t s)
    | .thermtrip => keeps (execThermtrip_keepsMem s)
    | .powerRemoval => execPowerRemoval_canonical s
    | .writeAcceptance id => keeps (execWriteAcceptance_keepsMem id s)
    | .poolWriteAcknowledge id => execPoolWriteAcknowledge_canonical hs id
    | .kindlingInstruction hart op => keeps (execKindlingInstruction_keepsMem hart op s)
    | .measurementExtend r x => keeps (execMeasurementExtend_keepsMem r x s)
    | .d3hotTransition port into => keeps (execD3hotTransition_keepsMem port into s)
    | .linkL1Transition port into => keeps (execLinkL1Transition_keepsMem port into s)

end

/-! ### A turn -/

section
variable {s : State} (hs : Memory.wf s.mem = true)
include hs

theorem State.trap_canonical (c : Nat) (m : Mask) (i : Word64) : (s.trap c m i).canonical := (s.trap_keepsMem c m i).canonical hs

theorem State.run_canonical (w : Wave) (b : BitVec 128) : (s.run w b).canonical := by
  unfold State.run
  refine Out.canonical_ite (State.trap_canonical ((congrArg Memory.wf (s.modMe_mem _)).trans hs) ..) ?_
  split
  · exact State.trap_canonical hs ..
  · refine Out.canonical_ite (exec_canonical hs _) ?_
    split
    · exact exec_canonical hs _
    · exact exec_canonical hs _

theorem State.fetchRun_canonical : s.fetchRun.canonical := by
  unfold State.fetchRun
  split
  · exact hs
  next w _ =>
  rcases s.fetch_cases w (fun s bs =>
    let off := w.pc.toNat % 32
    let b := blockBits bs off
    if splits bs off then s.trap 0x03 w.exec (b.setWidth 64) else s.run w b) with h | ⟨t, bs, ht, h⟩
  · exact h.canonical hs
  · have hm : Memory.wf t.mem = true := (congrArg Memory.wf ht).trans hs
    rw [h]
    exact Out.canonical_ite (State.trap_canonical hm ..) (State.run_canonical hm ..)

theorem State.issue_canonical (id : WaveId) : (s.issue id).canonical := by
  unfold State.issue
  split
  · exact hs
  next w _ =>
  refine Out.canonical_ite hs ?_
  extract_lets t
  have ht : Memory.wf t.mem = true := (congrArg Memory.wf (State.modMe_mem ..)).trans hs
  split
  · next u hu => exact (congrArg Memory.wf (t.debugHalt_keepsMem w u hu)).trans ht
  have hrun := State.fetchRun_canonical ht
  split
  · next u hu =>
    rw [hu, Out.canonical_next] at hrun
    refine Out.canonical_ite ?_ (Out.canonical_ite ?_ ?_)
    · exact (congrArg Memory.wf (u.issued_keepsMem id)).trans hrun
    · exact (congrArg Memory.wf (t.trialHold_keepsMem w)).trans ht
    · exact (congrArg Memory.wf ((State.issued_keepsMem ..).trans (u.trialIssue_keepsMem t w))).trans hrun
  · exact hrun

theorem State.turn_canonical (x : Turn) : (s.turn x).canonical := by
  unfold State.turn
  extract_lets t
  have ht : Memory.wf t.mem = true := by
    simp only [t]
    split
    · exact hs
    · exact (congrArg Memory.wf (s.pass_keepsMem _)).trans hs
  refine Out.canonical_ite ht ?_
  split
  · exact exec_canonical ht _
  · exact State.issue_canonical ht _

end

/-! ### What is due -/

/-- What is due, if anything is, has canonical memory. -/
def dueCanonical (o : Option State) : Prop := (o.all fun t => Memory.wf t.mem) = true

theorem dueCanonical.orElse {a b : Option State} (ha : dueCanonical a) (hb : dueCanonical b) : dueCanonical (a <|> b) := by
  cases a with
  | none => exact hb
  | some t => exact ha

theorem State.progress_canonical {s : State} {o : Out} (h : o.canonical) : dueCanonical (s.progress o) := by
  cases o with
  | next t =>
    unfold State.progress
    dsimp only
    split
    · rfl
    · exact h
  | fault => rfl
  | refused => rfl

theorem State.firstDue_canonical {α : Type} {s : State} {l : List α} {f : α → Out} (h : ∀ a, (f a).canonical) :
    dueCanonical (s.firstDue l f) := by
  induction l with
  | nil => rfl
  | cons a l ih =>
    have ha := State.progress_canonical (s := s) (h a)
    rw [State.firstDue, List.findSome?_cons]
    split <;> rename_i e
    · rwa [e] at ha
    · exact ih

/-- A list of events that change no memory is due. -/
theorem State.firstDue_keeps {α : Type} {s : State} {l : List α} {f : α → Out} (hs : Memory.wf s.mem = true)
    (h : ∀ a, Out.memIs s.mem (f a)) : dueCanonical (s.firstDue l f) := State.firstDue_canonical fun a => (h a).canonical hs

section
variable {s : State} (hs : Memory.wf s.mem = true)
include hs

theorem State.progress_keeps {o : Out} (h : Out.memIs s.mem o) : dueCanonical (s.progress o) := State.progress_canonical (h.canonical hs)

theorem State.dueMemory_canonical : dueCanonical s.dueMemory := by
  unfold State.dueMemory
  refine .orElse (State.firstDue_canonical fun w => execWriteCompletion_canonical hs w.id) ?_
  refine .orElse (State.firstDue_keeps hs fun w => execWriteAcceptance_keepsMem w.id s) ?_
  refine .orElse (State.firstDue_canonical fun w => execPoolWriteAcknowledge_canonical hs w.id) ?_
  refine .orElse (State.firstDue_keeps hs fun l => execLeaseExpiry_keepsMem l.core l.pa s) ?_
  refine .orElse (State.firstDue_keeps hs fun f => execLongLatencyFill_keepsMem f.id s) ?_
  refine .orElse (State.firstDue_keeps hs fun t => s.serveTouch_keepsMem t) ?_
  exact .orElse (State.progress_keeps hs s.ringAgain_keepsMem) (State.progress_keeps hs s.wakeAgain_keepsMem)

theorem State.dueTenure_canonical : dueCanonical s.dueTenure := by
  unfold State.dueTenure
  refine .orElse (State.firstDue_keeps hs fun h => execTenureGrant_keepsMem h.id s) ?_
  exact .orElse (State.firstDue_keeps hs fun x => execTenureExpiry_keepsMem x.1 x.2 s)
    (State.firstDue_keeps hs fun x => execTenureRenew_keepsMem x.1 x.2 s)

theorem State.dueInval_canonical : dueCanonical s.dueInval := by
  unfold State.dueInval
  exact .orElse (State.firstDue_keeps hs fun i => execInvalidationComplete_keepsMem i.id s) (State.progress_keeps hs s.endCommands_keepsMem)

theorem State.dueCopies_canonical : dueCanonical s.dueCopies := by
  unfold State.dueCopies
  exact .orElse (State.firstDue_keeps hs fun x => execCopyPiece_keepsMem x.1 x.2 s)
    (State.firstDue_keeps hs fun c => execCopyBatchComplete_keepsMem c s)

/-- The drains of a cord's barrier groups. -/
theorem State.dueDrains_canonical (c : Cord) :
    Out.canonical ((c.bars.findSome? fun b => s.progress (execBarDrainComplete c.uid b.group s)).elim (.next s) .next) := by
  have hdue := State.firstDue_keeps (l := c.bars) hs fun b => execBarDrainComplete_keepsMem c.uid b.group s
  rw [State.firstDue] at hdue
  cases h : c.bars.findSome? fun b => s.progress (execBarDrainComplete c.uid b.group s) with
  | none => exact hs
  | some t => rwa [h] at hdue

theorem State.dueEngines_canonical : dueCanonical s.dueEngines := by
  unfold State.dueEngines
  refine .orElse (State.firstDue_canonical (State.dueDrains_canonical hs)) ?_
  refine .orElse (State.dueCopies_canonical hs) ?_
  refine .orElse (State.firstDue_keeps hs fun x => execStreamElementFetch_keepsMem x.1 x.2 s) ?_
  exact .orElse (State.firstDue_keeps hs fun f => execMosFillComplete_keepsMem f.id s)
    (State.firstDue_keeps hs fun o => execMmaOperationComplete_keepsMem o.core o.side s)

theorem State.dueJobs_canonical : dueCanonical s.dueJobs := by
  unfold State.dueJobs
  refine .orElse (State.firstDue_keeps hs fun d => execCutJobStatus_keepsMem d s) ?_
  refine .orElse (State.firstDue_keeps hs fun d => execCutJobRun_keepsMem d s) ?_
  refine .orElse (State.firstDue_keeps hs fun c => s.cutAgain_keepsMem c) ?_
  exact .orElse (State.firstDue_keeps hs fun r => execRaygenRun_keepsMem r.uid s)
    (State.firstDue_keeps hs fun r => execRaygenComplete_keepsMem r.uid s)

theorem State.dueQueues_canonical : dueCanonical s.dueQueues := by
  unfold State.dueQueues
  refine .orElse (State.firstDue_keeps hs fun n => execRecordExpand_keepsMem n s) ?_
  refine .orElse (State.firstDue_keeps hs fun n => execCordPlace_keepsMem n s) ?_
  refine .orElse (State.firstDue_keeps hs fun c => execCordRetire_keepsMem c.uid s) ?_
  refine .orElse (State.firstDue_keeps hs fun r => execRecordRetire_keepsMem r.uid s) ?_
  refine .orElse (State.firstDue_keeps hs fun d => execSuccessorRelease_keepsMem d s) ?_
  refine .orElse (State.firstDue_keeps hs fun n => execSliceEnd_keepsMem n s) ?_
  exact .orElse (State.firstDue_keeps hs fun n => execRecordTake_keepsMem n s)
    (State.firstDue_keeps hs fun n => execQueueMap_keepsMem n s)

theorem State.dueContexts_canonical : dueCanonical s.dueContexts := by
  unfold State.dueContexts
  refine .orElse (State.firstDue_keeps hs fun t => execDrainTimeout_keepsMem t s) ?_
  refine .orElse (State.firstDue_keeps hs fun t => execDrainEnd_keepsMem t s) ?_
  refine .orElse (State.firstDue_keeps hs fun t => execContextResume_keepsMem t s) ?_
  refine .orElse (State.firstDue_keeps hs fun t => execCordRestore_keepsMem t s) ?_
  exact .orElse (State.firstDue_keeps hs fun t => execDestroyComplete_keepsMem t s)
    (State.firstDue_keeps hs fun d => execEventPost_keepsMem d s)

theorem State.dueLink_canonical : dueCanonical s.dueLink := by
  unfold State.dueLink
  refine .orElse (State.firstDue_keeps hs fun x => State.serveHost_keepsMem x.2 x.1.held s) ?_
  refine .orElse (State.firstDue_keeps hs fun h => execQpContextFetch_keepsMem (h.port / 8) h.qpn s) ?_
  refine .orElse (State.progress_keeps hs s.endAnswers_keepsMem) ?_
  refine .orElse (State.firstDue_keeps hs fun x => s.ackGo_keepsMem x.1 x.2) ?_
  refine .orElse (State.firstDue_keeps hs fun n => execReceiverNotReady_keepsMem n s) ?_
  refine .orElse (State.firstDue_keeps hs fun n => execAckTimeout_keepsMem n s) ?_
  refine .orElse (State.firstDue_keeps hs fun n => execWorkRequestTake_keepsMem n s) ?_
  refine .orElse (State.firstDue_keeps hs fun n => execQpDrained_keepsMem n s) ?_
  refine .orElse (State.firstDue_keeps hs fun c => execCollectiveRun_keepsMem c.id [] s) ?_
  refine .orElse (State.firstDue_keeps hs fun c => execCollectiveTimeout_keepsMem c.id s) ?_
  exact .orElse (State.firstDue_keeps hs fun c => execCollectiveComplete_keepsMem c.id s)
    (State.firstDue_keeps hs fun p => execTrainingTimeout_keepsMem p s)

theorem State.dueWaves_canonical : dueCanonical s.dueWaves := by
  unfold State.dueWaves
  exact State.firstDue_keeps hs fun w => execSleepDeadline_keepsMem w.id s

/-- The samples of the debug unit. -/
theorem State.dueSamples_canonical :
    dueCanonical (if s.dbgDies.all fun d => d.sampper == 0 then none else s.firstDue (List.range Config.cores) fun c => execSample c s) := by
  split
  · rfl
  · exact State.firstDue_keeps hs fun c => execSample_keepsMem c s

theorem State.dueTimers_canonical : dueCanonical s.dueTimers := by
  unfold State.dueTimers
  refine .orElse (State.firstDue_keeps hs fun c => s.resumeAgain_keepsMem c) ?_
  refine .orElse (State.firstDue_keeps hs fun d => execDroopRecover_keepsMem d.rick s) ?_
  refine .orElse (State.progress_keeps hs s.refresh_keepsMem) ?_
  refine .orElse (State.progress_keeps hs (execThermtrip_keepsMem s)) ?_
  refine .orElse (State.dueSamples_canonical hs) ?_
  exact .orElse (State.progress_keeps hs (execClockStepDown_keepsMem s)) (State.progress_keeps hs (execClockStepUp_keepsMem s))

theorem State.due_canonical : dueCanonical s.due := by
  unfold State.due
  refine .orElse (State.dueMemory_canonical hs) (.orElse (State.dueTenure_canonical hs) (.orElse (State.dueInval_canonical hs) ?_))
  refine .orElse (State.dueWaves_canonical hs) (.orElse (State.dueEngines_canonical hs) (.orElse (State.dueJobs_canonical hs) ?_))
  refine .orElse (State.dueQueues_canonical hs) (.orElse (State.dueContexts_canonical hs) (.orElse (State.dueLink_canonical hs) ?_))
  exact State.dueTimers_canonical hs

/-! ### A step -/

theorem State.idleTurn_canonical : s.idleTurn.canonical := by
  unfold State.idleTurn
  have hdue := State.due_canonical hs
  split
  · next e => rwa [e] at hdue
  extract_lets t
  have ht : Memory.wf t.mem = true := (congrArg Memory.wf (s.pass_keepsMem _)).trans hs
  split
  · exact State.issue_canonical ht _
  · exact ht

theorem State.advance_canonical : s.advance.canonical := by
  unfold State.advance
  split
  · next x rest _ => exact State.turn_canonical (s := { s with agenda := rest }) hs x
  · exact Out.canonical_ite hs (State.idleTurn_canonical hs)

theorem step_canonical : Out.canonical (step s) := by
  have hadvance := State.advance_canonical hs
  unfold step
  cases h : s.advance with
  | next t =>
    rw [h, Out.canonical_next] at hadvance
    exact (congrArg Memory.wf t.after_keepsMem).trans hadvance
  | fault => trivial
  | refused => trivial

end

/-- Settles O10: a turn does an instruction, an event or what is due, of which only completions, resets, the removal of power and a
pool host's snoop change memory, each by cells set in their order; what ends a turn changes none. -/
theorem stepKeepsMemoryCanonical : Obligations.StepKeepsMemoryCanonical := fun _ hs => step_canonical hs

end Sys2Proof.Machine
end

section
/-! Fresh names of writes (R230, R232): a completion only takes writes from the list. -/

namespace Sys2Proof.Machine

theorem State.complete_namesFresh {s : State} (h : namesFresh s) (id : Nat) : namesFresh (s.complete id) := by
  unfold State.complete
  split
  · exact h
  · exact namesFresh_of_subset h (h.1.sublist (List.filter_sublist.map _))
      (fun x hx => ⟨x, List.mem_of_mem_filter hx, rfl⟩) (Nat.le_refl _)

/-- Settles O34: nothing has a name at reset, a new write takes the next name, and acceptance and completion give none. -/
theorem writeNamesStayFresh : Obligations.WriteNamesStayFresh :=
  ⟨⟨List.nodup_nil, fun _ hx => absurd hx List.not_mem_nil⟩, fun _ h =>
    ⟨State.newWrite_namesFresh h, State.acceptAs_namesFresh h, State.complete_namesFresh h⟩⟩

end Sys2Proof.Machine
end

section
/-! Acceptance of a write (R232, R236, R250, R252): its completion time, the lease of its tile, the writers that receive the
time, and the bytes at home before it. -/

namespace Sys2Proof.Machine

section
variable {s : State} {w : Write} {id : Nat}

theorem State.returnTime_writes (s : State) (id c : Nat) : (s.returnTime id c).writes = s.writes := rfl

/-- A completion time reaches the waves that wait for it (R237). -/
theorem State.returnTime_watcher {s : State} {id c i : Nat} {w v : Wave} (hw : s.waves[i]? = some w)
    (hv : (s.returnTime id c).waves[i]? = some v) (h : id ∈ w.watch) : c ≤ v.horizon ∧ v.watch = w.watch.erase id := by
  simp only [State.returnTime, List.getElem?_map, hw, Option.map_some, Option.some.injEq, List.contains_iff_mem.2 h,
    if_true] at hv
  subst hv
  have hraise : c ≤ (w.raise c).horizon := Nat.le_max_right ..
  dsimp only
  split <;> split <;> try split
  all_goals exact ⟨hraise, rfl⟩

/-- The tile of a lease that is changed has the changed lease. -/
theorem State.modLease_find (s : State) (t : LeaseTile) (c : Nat) :
    (((s.modLease t fun l => { l with clast := c }).leases.find? fun l => l.tile == t).map fun l => l.clast) = some c := by
  unfold State.modLease
  split
  · next h =>
    have hfind := find?_modWhere s.leases (fun l => l.tile == t) (fun l => { l with clast := c }) fun _ => rfl
    dsimp only
    rw [hfind]
    obtain ⟨l, hl⟩ := Option.isSome_iff_exists.1 (List.find?_isSome.2 (List.any_eq_true.1 h))
    simp [hl]
  · next h =>
    have hnone : s.leases.find? (fun l => l.tile == t) = none := by simpa using h
    simp [List.find?_append, hnone]

theorem State.accepting_frame (contends : Bool) : (s.accepting contends w).mem = s.mem ∧ (s.accepting contends w).time = s.time ∧
    (s.accepting contends w).waves = s.waves := by
  have hport : ∀ a c, (s.raisePort a c).mem = s.mem ∧ (s.raisePort a c).time = s.time ∧ (s.raisePort a c).waves = s.waves := by
    intro a c; unfold State.raisePort; split <;> exact ⟨rfl, rfl, rfl⟩
  have hcontend : ∀ (t : State) pa core b, (t.contend pa core b).mem = t.mem ∧ (t.contend pa core b).time = t.time ∧
      (t.contend pa core b).waves = t.waves := by
    intro t pa core b; unfold State.contend; split <;> exact ⟨rfl, rfl, rfl⟩
  unfold State.accepting
  dsimp only
  rw [State.modLease_mem, State.modLease_time, State.modLease_waves]
  cases contends
  · exact hport ..
  · obtain ⟨hm, ht, hw⟩ := hcontend ((s.raisePort w.agent (s.acceptTime w)).dropResv w)
      ((w.bytes.head?.map fun c => c.1).getD 0) w.core true
    obtain ⟨hm', ht', hw'⟩ := hport w.agent (s.acceptTime w)
    exact ⟨hm.trans hm', ht.trans ht', hw.trans hw'⟩

/-- What a byte at home reads depends on the writes that have completed, in their order (R233). -/
theorem State.homeByte_of_done {t : State} (hm : t.mem = s.mem) (ht : t.time = s.time)
    (hw : t.writes.filter (fun x => x.doneAt s.time) = s.writes.filter fun x => x.doneAt s.time) (a : Nat) :
    t.homeByte a = s.homeByte a := by
  have hfold : ∀ (l : List Write) (b : Byte), l.foldl (fun b w => if w.doneAt s.time then (w.byte a).getD b else b) b =
      (l.filter fun x => x.doneAt s.time).foldl (fun b w => (w.byte a).getD b) b := fun l b => (List.foldl_filter ..).symm
  simp only [State.homeByte, ht, hm, hfold, hw]

theorem Write.not_doneAt_of_open {x : Write} (h : x.ctime = none) (n : Nat) : x.doneAt n = false := by
  simp [Write.doneAt, h]

/-- A write accepted for a later time joins no completed write. -/
theorem acceptedAt_done {l : List Write} {c n : Nat} (hw : w.ctime = none) (hid : ∀ y ∈ l, y.id = w.id → y = w) (hc : n < c) :
    (acceptedAt l w c).filter (fun x => x.doneAt n) = l.filter fun x => x.doneAt n := by
  have hnew : Write.doneAt { w with ctime := some c } n = false := by simp [Write.doneAt, hc]
  rw [acceptedAt, List.filter_append, List.filter_append, List.filter_cons_of_neg (by simp [hnew]), List.filter_nil,
    List.append_nil, List.filter_filter, List.filter_filter, List.filter_filter, List.filter_filter]
  have hopen : l.filter (fun x => x.doneAt n && x.ctime.isNone && x.id != w.id) = [] := by
    rw [List.filter_eq_nil_iff]
    intro x _
    cases hx : x.ctime with
    | none => simp [Write.not_doneAt_of_open hx]
    | some _ => simp
  rw [hopen, List.append_nil]
  refine List.filter_congr fun x hx => ?_
  cases hd : x.doneAt n with
  | false => simp
  | true =>
    have hsome : x.ctime.isSome = true := by
      cases ho : x.ctime with
      | none => simp [Write.not_doneAt_of_open ho] at hd
      | some _ => rfl
    have hne : x.id ≠ w.id := fun e => by simp [hid x hx e, hw] at hsome
    simp [hsome, hne]

/-- The write that has just been accepted is the write of its name. -/
theorem acceptedAt_find (l : List Write) (c : Nat) :
    (acceptedAt l w c).find? (fun x => x.id == w.id) = some { w with ctime := some c } := by
  have hrest : ((l.filter fun x => x.id != w.id).filter fun x => x.ctime.isSome).find? (fun x => x.id == w.id) = none := by
    simp
  rw [acceptedAt, List.append_assoc, List.find?_append, hrest]
  simp

end

/-- A write that may be accepted is accepted by its event, where no release is due (R232). -/
theorem exec_writeAcceptance {s : State} {id : Nat} {x : Write} (h : s.write id = some x) (hc : s.canAccept x = true)
    (hrel : s.settleRel = s) : exec (.writeAcceptance id) s = .next (s.acceptAs true id) := by
  change Host.Outcome.next (s.settleRel.acceptOr id) = _
  rw [hrel, State.acceptOr, h]
  simp only [hc, if_true]
  rfl

theorem State.canAccept_open {s : State} {x : Write} (h : s.canAccept x = true) : x.ctime = none := by
  simp only [State.canAccept, State.reaches, Bool.and_eq_true, Option.isNone_iff_eq_none] at h
  exact h.1.1.1

/-- A write to a poisoned sector leaves the list, and its context is to fault (R252). -/
theorem acceptance_poisoned {s : State} {id : Nat} {x : Write} (h : s.write id = some x) (hc : s.canAccept x = true)
    (hrel : s.settleRel = s) (hp : s.poison.contains x.sector = true) :
    Out.ends (exec (.writeAcceptance id) s) fun t =>
      t.write id = none ∧ (∀ g, x.tag = some g → g ∈ t.ctxBad) ∧ t.mem = s.mem := by
  have hopen : x.ctime.isSome = false := by simp [State.canAccept_open hc]
  rw [exec_writeAcceptance h hc hrel]
  simp only [State.acceptAs, h, hopen, hp, Bool.false_eq_true, if_false, if_true]
  refine ⟨?_, fun g hg => ?_, rfl⟩
  · simp [State.write, State.returnTime_writes]
  · exact List.mem_append_right _ (by simp [hg])

/-- Settles O36: in a poisoned sector the write goes; in a sound one it receives its time with its tile and its writers. -/
theorem acceptanceGivesCompletionTime : Obligations.AcceptanceGivesCompletionTime := by
  intro s id x h hc hid hrel
  refine ⟨acceptance_poisoned h hc hrel, fun hp => ?_⟩
  intro pa e c
  have hopen := State.canAccept_open hc
  have htime : s.acceptTime x = c := by simp only [State.acceptTime, c, e, pa]; split <;> rfl
  obtain ⟨hm, ht, hv⟩ := State.accepting_frame (s := s) (w := x) true
  have hname := State.write_id h
  rw [exec_writeAcceptance h hc hrel, State.acceptAs_eq true h (by simp [hopen]) hp, (State.accepting_sameWrites true).1, htime]
  refine ⟨?_, hm, ht, ?_, fun i w v hw hv' => State.returnTime_watcher (hv ▸ hw) hv', fun hlt => ?_⟩
  · rw [State.write, State.returnTime_writes, ← hname]; exact acceptedAt_find ..
  · have hlease := State.modLease_find ((((s.raisePort x.agent (s.acceptTime x)).dropResv x).contend pa x.core true))
      (s.tileOf pa x.grain) c
    rw [← htime] at hlease ⊢
    exact hlease
  · exact State.homeByte_of_done hm ht (acceptedAt_done hopen (fun y hy e => hid y hy (e.trans hname)) hlt)

end Sys2Proof.Machine
end

section
/-! A completion moves values to memory and changes none (R231 to R233, R249): the writes that it moves are the first of their
sector, so that a byte at home meets the same values in the same order as before. -/

namespace Sys2Proof.Machine

/-! ### A byte after writes at distinct addresses -/

theorem cellGet_cellsSet {m bs : List Host.Cell} (hm : Memory.wf m = true) (hd : (bs.map fun c => c.1).Nodup) (a : Nat) :
    cellGet (cellsSet m bs) a = ((bs.find? fun c => c.1 == a).map fun c => c.2).getD (cellGet m a) := by
  induction bs generalizing m with
  | nil => rfl
  | cons c r ih =>
    obtain ⟨hc, hr⟩ := List.nodup_cons.1 (by simpa using hd : (c.1 :: r.map fun c => c.1).Nodup)
    have hstep : cellGet (cellsSet m (c :: r)) a = cellGet (cellsSet (cellSet m c.1 c.2) r) a := rfl
    rw [hstep, ih (cellSet_wf m _ _ hm) hr, readAfterWrite m _ _ _ hm]
    by_cases ha : c.1 = a
    · have hnone : r.find? (fun d => d.1 == a) = none := by
        rw [List.find?_eq_none]
        intro d hd' he
        exact hc (List.mem_map.2 ⟨d, hd', (by simpa using he : d.1 = a).trans ha.symm⟩)
      simp [ha, hnone]
    · simp [ha]

/-- The value of a byte after writes, in their order. -/
def byteAfter (a : Nat) (l : List Write) (b : Byte) : Byte := l.foldl (fun b w => (w.byte a).getD b) b

theorem cellGet_foldCells {l : List Write} {m : List Host.Cell} (hm : Memory.wf m = true)
    (hd : ∀ x ∈ l, (x.bytes.map fun c => c.1).Nodup) (a : Nat) :
    cellGet (l.foldl (fun m x => cellsSet m x.bytes) m) a = byteAfter a l (cellGet m a) := by
  induction l generalizing m with
  | nil => rfl
  | cons x r ih =>
    rw [List.foldl_cons, ih (cellsSet_wf m _ hm) fun y hy => hd y (List.mem_cons_of_mem _ hy),
      cellGet_cellsSet hm (hd x (List.mem_cons_self ..))]
    rfl

/-! ### The writes of one sector -/

theorem State.homeByte_eq (s : State) (a : Nat) :
    s.homeByte a = byteAfter a (s.writes.filter fun x => x.doneAt s.time) (cellGet s.mem a) := by
  rw [State.homeByte, byteAfter, List.foldl_filter]

/-- Only writes of a byte's own sector give it a value. -/
theorem byteAfter_sector {l : List Write} (h : ∀ x ∈ l, ∀ c ∈ x.bytes, sectorBase c.1 = x.sector) (a : Nat) (b : Byte) :
    byteAfter a l b = byteAfter a (l.filter fun x => x.sector == sectorBase a) b := by
  induction l generalizing b with
  | nil => rfl
  | cons x r ih =>
    have hr := ih fun y hy => h y (List.mem_cons_of_mem _ hy)
    by_cases hx : x.sector = sectorBase a
    · rw [List.filter_cons_of_pos (by simpa using hx)]
      exact hr _
    · have hnone : x.bytes.find? (fun c => c.1 == a) = none := by
        rw [List.find?_eq_none]
        intro c hc he
        exact hx ((h x (List.mem_cons_self ..) c hc).symm.trans (congrArg sectorBase (by simpa using he : c.1 = a)))
      rw [List.filter_cons_of_neg (by simpa using hx), ← hr]
      simp [byteAfter, Write.byte, hnone]

/-! ### What a completion moves -/

/-- The writes whose bytes the completion of w moves into memory (R232, R239, R249). -/
def State.moved (s : State) (w : Write) : List Write :=
  ((((s.writes.takeWhile fun x => x.id != w.id) ++ [w]).filter fun x => x.sector == w.sector).takeWhile
    fun x => x.doneAt s.time && x.acked)

theorem State.complete_eq {s : State} {id : Nat} {w : Write} (h : s.write id = some w) :
    (s.complete id).mem = (s.moved w).foldl (fun m x => cellsSet m x.bytes) s.mem ∧
      (s.complete id).writes = s.writes.filter (fun x => !((s.moved w).any fun y => y.id == x.id)) ∧
      (s.complete id).time = s.time := by
  simp only [State.complete, h, State.moved, State.write_id h]
  exact ⟨trivial, trivial, trivial⟩

section
variable {s : State} {w : Write} {id : Nat}

/-- They come first among the writes of their sector. -/
theorem State.moved_prefix (h : s.write id = some w) :
    s.moved w <+: s.writes.filter fun x => x.sector == w.sector := by
  have hupto : (s.writes.takeWhile fun x => x.id != w.id) ++ [w] <+: s.writes := by
    obtain ⟨l, r, hl, hr⟩ := List.find?_eq_some_iff_append.1 h |>.2
    have hid := State.write_id h
    have htake : s.writes.takeWhile (fun x => x.id != w.id) = l := by
      rw [hl, List.takeWhile_append_of_pos fun x hx => by simpa [hid] using hr x hx]
      simp
    exact ⟨r, by rw [htake, hl, List.append_assoc]; rfl⟩
  exact (List.takeWhile_prefix _).trans (hupto.filter _)

theorem State.moved_done {x : Write} (hx : x ∈ s.moved w) : x.doneAt s.time = true ∧ x.sector = w.sector := by
  have hdone := List.mem_takeWhile_imp hx
  have hsec := (List.mem_filter.1 ((List.takeWhile_prefix _).subset hx)).2
  simp only [Bool.and_eq_true] at hdone
  exact ⟨hdone.1, by simpa using hsec⟩

/-- What the completion leaves of the writes of a sector: of its own, those after the ones that it moves; of another, all. -/
theorem State.complete_sector (h : s.write id = some w) (hn : (s.writes.map fun x => x.id).Nodup) (sec : Nat) :
    s.writes.filter (fun x => x.sector == sec) = (s.moved w).filter (fun x => x.sector == sec) ++
      (s.complete id).writes.filter fun x => x.sector == sec := by
  obtain ⟨-, hw, -⟩ := State.complete_eq h
  have hinj : ∀ x ∈ s.writes, ∀ y ∈ s.moved w, y.id = x.id → y = x := fun x hx y hy e =>
    List.inj_on_of_nodup_map hn (List.mem_of_mem_filter ((State.moved_prefix h).subset hy)) hx e
  by_cases hsec : sec = w.sector
  · subst hsec
    obtain ⟨r, hr⟩ := State.moved_prefix h
    have hall : (s.moved w).filter (fun x => x.sector == w.sector) = s.moved w :=
      List.filter_eq_self.2 fun x hx => by simpa using (State.moved_done hx).2
    have hnd : ((s.moved w ++ r).map fun x => x.id).Nodup := hr ▸ hn.sublist (List.filter_sublist.map _)
    rw [hall, hw, List.filter_filter, ← hr]
    congr 1
    have hcomm : s.writes.filter (fun x => x.sector == w.sector && !((s.moved w).any fun y => y.id == x.id)) =
        (s.moved w ++ r).filter fun x => !((s.moved w).any fun y => y.id == x.id) := by
      rw [hr, List.filter_filter]
      exact List.filter_congr fun x _ => Bool.and_comm ..
    rw [hcomm, List.filter_append]
    have hgone : (s.moved w).filter (fun x => !((s.moved w).any fun y => y.id == x.id)) = [] := by
      rw [List.filter_eq_nil_iff]
      intro x hx
      simpa using ⟨x, hx, rfl⟩
    have hkeep : r.filter (fun x => !((s.moved w).any fun y => y.id == x.id)) = r := by
      rw [List.filter_eq_self]
      intro x hx
      rw [List.map_append, List.nodup_append] at hnd
      simp only [Bool.not_eq_true', List.any_eq_false, beq_iff_eq]
      exact fun y hy e => hnd.2.2 _ (List.mem_map_of_mem hy) _ (List.mem_map_of_mem hx) e
    rw [hgone, hkeep, List.nil_append]
  · have hnone : (s.moved w).filter (fun x => x.sector == sec) = [] := by
      rw [List.filter_eq_nil_iff]
      intro x hx he
      exact hsec ((by simpa using he : x.sector = sec).symm.trans (State.moved_done hx).2)
    rw [hnone, List.nil_append, hw, List.filter_filter]
    refine List.filter_congr fun x hx => ?_
    cases he : x.sector == sec with
    | false => rfl
    | true =>
      simp only [Bool.true_and, Bool.true_eq, Bool.not_eq_true', List.any_eq_false, beq_iff_eq]
      intro y hy e
      rw [← hinj x hx y hy e, (State.moved_done hy).2] at he
      exact hsec (by simpa using he : w.sector = sec).symm

end

/-! ### Bytes at home -/

/-- What the statement asks of the list of writes: distinct names, and each write with distinct bytes of one sector. -/
def State.orderly (s : State) : Prop :=
  (s.writes.map fun x => x.id).Nodup ∧
    ∀ x ∈ s.writes, (x.bytes.map fun c => c.1).Nodup ∧ ∀ c ∈ x.bytes, sectorBase c.1 = x.sector

theorem State.complete_homeByte {s : State} (h : s.orderly) (hm : Memory.wf s.mem = true) (id a : Nat) :
    (s.complete id).homeByte a = s.homeByte a := by
  obtain ⟨hn, hx⟩ := h
  cases hw : s.write id with
  | none => rw [State.complete, hw]
  | some w =>
    obtain ⟨hmem, hwrites, htime⟩ := State.complete_eq hw
    have hsub : ∀ x ∈ s.moved w, x ∈ s.writes := fun x hx' =>
      List.mem_of_mem_filter ((State.moved_prefix hw).subset hx')
    have hsec : ∀ x ∈ s.writes, ∀ c ∈ x.bytes, sectorBase c.1 = x.sector := fun x hx' => (hx x hx').2
    have hcell : cellGet (s.complete id).mem a =
        byteAfter a ((s.moved w).filter fun x => x.sector == sectorBase a) (cellGet s.mem a) := by
      rw [hmem, cellGet_foldCells hm fun x hx' => (hx x (hsub x hx')).1]
      exact byteAfter_sector (fun x hx' => hsec x (hsub x hx')) a _
    have hall : ((s.moved w).filter fun x => x.sector == sectorBase a).filter (fun x => x.doneAt s.time) =
        (s.moved w).filter fun x => x.sector == sectorBase a :=
      List.filter_eq_self.2 fun x hx' => (State.moved_done (List.mem_of_mem_filter hx')).1
    have hsplit := congrArg (List.filter fun x : Write => x.doneAt s.time) (State.complete_sector hw hn (sectorBase a))
    rw [List.filter_append, hall, List.filter_filter, List.filter_filter] at hsplit
    rw [State.homeByte_eq, State.homeByte_eq, hcell, htime,
      byteAfter_sector (l := s.writes.filter _) fun x hx' => hsec x (List.mem_of_mem_filter hx'),
      byteAfter_sector fun x hx' => hsec x (List.mem_of_mem_filter (hwrites ▸ List.mem_of_mem_filter hx')),
      List.filter_filter, List.filter_filter]
    simp only [Bool.and_comm (Write.doneAt _ _)] at hsplit
    rw [hsplit, byteAfter, byteAfter, byteAfter, List.foldl_append]

/-- An acknowledgement changes no more of a write than that it has been acknowledged (R249). -/
theorem State.acknowledge_homeByte (s : State) (id a : Nat) : (s.acknowledge id).homeByte a = s.homeByte a := by
  simp only [State.homeByte, State.acknowledge, modWhere, List.foldl_map]
  congr 1
  funext b w
  split <;> rfl

theorem State.acknowledge_orderly {s : State} (h : s.orderly) (id : Nat) : (s.acknowledge id).orderly := by
  have hkeep : ∀ x : Write, (if x.id == id then { x with acked := true } else x).id = x.id ∧
      (if x.id == id then { x with acked := true } else x).bytes = x.bytes := fun x => by split <;> exact ⟨rfl, rfl⟩
  refine ⟨?_, fun x hx => ?_⟩
  · have hids : (s.acknowledge id).writes.map (fun x => x.id) = s.writes.map fun x => x.id := by
      simp only [State.acknowledge, modWhere, List.map_map]
      exact List.map_congr_left fun x _ => (hkeep x).1
    rw [hids]
    exact h.1
  · obtain ⟨y, hy, rfl⟩ := List.mem_map.1 hx
    simp only [Write.sector, (hkeep y).2]
    exact h.2 y hy

/-- Settles O38: by what a completion moves, and because an acknowledgement and the end of a lease touch no byte. -/
theorem completionChangesNoValue : Obligations.CompletionChangesNoValue := by
  intro s id hfresh hbytes hm
  have h : s.orderly := ⟨hfresh.1, hbytes⟩
  refine ⟨?_, ?_, fun _ _ => rfl⟩
  · change Out.ends (execWriteCompletion id s) _
    unfold execWriteCompletion
    split
    · split
      · exact State.complete_homeByte h hm id
      · exact fun _ => rfl
    · exact fun _ => rfl
  · change Out.ends (execPoolWriteAcknowledge id s) _
    unfold execPoolWriteAcknowledge
    split
    · split
      · dsimp only
        split
        · exact fun a => (State.complete_homeByte (State.acknowledge_orderly h id) hm id a).trans (s.acknowledge_homeByte id a)
        · exact s.acknowledge_homeByte id
      · exact fun _ => rfl
    · exact fun _ => rfl

end Sys2Proof.Machine
end

section
/-! The faults of a translation (R252, R296 to R306). A walk that has met no poisoned sector
ends as it did when it is made again: the errors of what it reads are gone, and its walk cache only spares it tables. -/

namespace Sys2Proof.Machine

/-! ### A walk made again -/

/-- The tables, the directory of contexts and the walk caches are as they were. -/
def State.sameTables (s t : State) : Prop := t.mem = s.mem ∧ t.writes = s.writes ∧ t.ctxs = s.ctxs ∧ t.walks = s.walks

theorem State.sameTables_refl (s : State) : s.sameTables s := ⟨rfl, rfl, rfl, rfl⟩

theorem State.sameTables.trans {s t u : State} (h : s.sameTables t) (h' : t.sameTables u) : s.sameTables u := by
  obtain ⟨hm, hw, hc, hl⟩ := h
  obtain ⟨hm', hw', hc', hl'⟩ := h'
  exact ⟨hm'.trans hm, hw'.trans hw, hc'.trans hc, hl'.trans hl⟩

/-- No error lies in a sector of memory, and it is not poisoned. -/
def State.soundAt (s : State) (sec : Nat) : Prop :=
  s.poison.contains sec = false ∧ ∀ f ∈ s.flaws, ∀ p, f.place = .sector p → sectorBase p ≠ sec

/-- What meeting the errors of a sector can change: errors go, and its own sector may be poisoned. -/
def State.metAt (s t : State) (sec : Nat) : Prop :=
  s.sameTables t ∧ (∀ f ∈ t.flaws, f ∈ s.flaws) ∧ ∀ p ∈ t.poison, p ∈ s.poison ∨ p = sec

section
variable {s t : State} {tag pa : Nat}

theorem sectorBase_idem (a : Nat) : sectorBase (sectorBase a) = sectorBase a := by unfold sectorBase; omega

/-- One error met (R15, R16). -/
theorem State.poisonSector_metAt (s : State) (tag sec : Nat) : s.metAt (s.poisonSector tag (sectorBase sec)) (sectorBase sec) := by
  refine ⟨⟨rfl, rfl, rfl, rfl⟩, fun _ h => h, fun p hp => ?_⟩
  change p ∈ (if s.poison.contains _ then s.poison else s.poison ++ [_]) at hp
  rw [sectorBase_idem] at hp
  split at hp
  · exact .inl hp
  · simpa using hp

theorem State.metAt.trans {s t u : State} {sec : Nat} (h : s.metAt t sec) (h' : t.metAt u sec) : s.metAt u sec :=
  ⟨h.1.trans h'.1, fun f hf => h.2.1 f (h'.2.1 f hf), fun p hp => (h'.2.2 p hp).elim (h.2.2 p) .inr⟩

theorem State.metAt_of_fields {s t : State} (h : s.sameTables t) (hf : ∀ f ∈ t.flaws, f ∈ s.flaws) (hp : t.poison = s.poison)
    (sec : Nat) : s.metAt t sec := ⟨h, hf, fun _ h => .inl (hp ▸ h)⟩

theorem State.meetErrors_metAt (s : State) (tag pa : Nat) : s.metAt (s.meetErrors none tag pa).2 (sectorBase pa) := by
  have hkeep : ∀ t : State, t.metAt t (sectorBase pa) := fun t => State.metAt_of_fields t.sameTables_refl (fun _ h => h) rfl _
  unfold State.meetErrors
  dsimp only
  refine List.foldlRecOn (motive := fun t => s.metAt t (sectorBase pa)) _ _ ?_ fun t ht f _ => ht.trans ?_
  · split
    · exact hkeep s
    · exact ⟨s.sameTables_refl, fun _ h => List.mem_of_mem_filter h, fun _ h => .inl h⟩
  · split
    · exact hkeep t
    · split
      · split
        · exact t.poisonSector_metAt _ _
        · exact hkeep t
      · exact hkeep t
      · exact t.poisonSector_metAt _ _

/-- A sound sector has no error to meet. -/
theorem State.soundAt.meetErrors (h : s.soundAt (sectorBase pa)) (tag : Nat) : s.meetErrors none tag pa = (false, s) := by
  obtain ⟨hp, hf⟩ := h
  unfold State.meetErrors
  extract_lets sec here found die s' u
  have hnone : found = [] := by
    rw [List.filter_eq_nil_iff]
    intro f hm
    cases hplace : f.place <;> simp [here, hplace]
    exact hf f hm _ hplace
  have hs' : s' = s := if_pos (by rw [hnone]; rfl)
  have hu : u = s := by simp only [u, hnone, List.foldl_nil, hs']
  rw [hu]
  exact Prod.ext hp rfl

/-- Where errors have been met and the sector is not poisoned, it is sound (R16, R252). -/
theorem State.meetErrors_soundAt (h : (s.meetErrors none tag pa).1 = false) :
    (s.meetErrors none tag pa).2.soundAt (sectorBase pa) := by
  refine ⟨h, ?_⟩
  unfold State.meetErrors
  dsimp only
  refine List.foldlRecOn (motive := fun t : State => ∀ f ∈ t.flaws, ∀ p, f.place = .sector p → sectorBase p ≠ sectorBase pa)
    _ _ ?_ fun t ht f _ => ?_
  · intro f hf p hp he
    split at hf
    · next hempty =>
      have := (List.filter_eq_nil_iff.1 (List.isEmpty_iff.1 hempty)) f hf
      simp [hp, he] at this
    · have := (List.mem_filter.1 hf).2
      simp [hp, he] at this
  · split
    · exact ht
    · split
      · split <;> exact ht
      · exact ht
      · exact ht

/-- Meeting the errors of a sector that does not become poisoned leaves every sound sector sound. -/
theorem State.metAt.soundAt {sec sec' : Nat} (h : s.metAt t sec) (hp : t.poison.contains sec = false) (hs : s.soundAt sec') :
    t.soundAt sec' := by
  obtain ⟨-, hflaws, hpoison⟩ := h
  refine ⟨?_, fun f hf => hs.2 f (hflaws f hf)⟩
  by_contra hc
  have hm : sec' ∈ t.poison := by simpa using hc
  rcases hpoison _ hm with hm' | rfl
  · simpa [hm'] using hs.1
  · simp [hm] at hp

/-- The errors of a list of reads, met one after another; true where one of them found its sector poisoned (R252). -/
def State.meetReads (tag : Nat) (l : List Nat) (p : Bool × State) : Bool × State :=
  l.foldl (fun p a => (p.1 || (p.2.meetErrors none tag a).1, (p.2.meetErrors none tag a).2)) p

theorem State.meetReads_sound {l : List Nat} {p : Bool × State} (h : (State.meetReads tag l p).1 = false) :
    p.1 = false ∧ p.2.sameTables (State.meetReads tag l p).2 ∧
      (∀ sec, p.2.soundAt sec → (State.meetReads tag l p).2.soundAt sec) ∧
      ∀ a ∈ l, (State.meetReads tag l p).2.soundAt (sectorBase a) := by
  induction l generalizing p with
  | nil => exact ⟨h, p.2.sameTables_refl, fun _ h => h, fun a ha => absurd ha List.not_mem_nil⟩
  | cons a l ih =>
    obtain ⟨hbad, htables, hsound, hreads⟩ := ih h
    obtain ⟨hp, ha⟩ := Bool.or_eq_false_iff.1 hbad
    have hmet := p.2.meetErrors_metAt tag a
    refine ⟨hp, hmet.1.trans htables, fun sec hs => hsound sec (hmet.soundAt ha hs), fun b hb => ?_⟩
    rcases List.mem_cons.1 hb with rfl | hb
    · exact hsound _ (State.meetErrors_soundAt ha)
    · exact hreads b hb

theorem State.meetReads_of_sound {l : List Nat} (h : ∀ a ∈ l, s.soundAt (sectorBase a)) :
    State.meetReads tag l (false, s) = (false, s) := by
  induction l with
  | nil => rfl
  | cons a l ih =>
    have ha := (h a (List.mem_cons_self ..)).meetErrors tag
    change State.meetReads tag l (false || (s.meetErrors none tag a).1, (s.meetErrors none tag a).2) = _
    rw [ha]
    exact ih fun b hb => h b (List.mem_cons_of_mem _ hb)

end

/-! ### The tables of a walk -/

/-- What a walk reads from a table of a level on (R302). -/
def walkReads (rd : Nat → Word64) (va level table : Nat) : List Nat :=
  ((level, table) :: walkTables rd va level table).flatMap fun x => tableReads rd va x.1 x.2

/-- A walk that goes on from a table that it passes ends where it would have ended, and reads nothing else (R303). -/
theorem walk_onwards {rd : Nat → Word64} {va level table : Nat} {x : Nat × Nat}
    (h : x ∈ (level, table) :: walkTables rd va level table) :
    walkFrom rd va x.1 x.2 = walkFrom rd va level table ∧
      ∀ a ∈ walkReads rd va x.1 x.2, a ∈ walkReads rd va level table := by
  induction level generalizing table with
  | zero =>
    obtain rfl : x = (0, table) := by simpa [walkTables] using h
    exact ⟨rfl, fun _ h => h⟩
  | succ level ih =>
    rcases List.mem_cons.1 h with rfl | h
    · exact ⟨rfl, fun _ h => h⟩
    · let e := rd (table + 8 * (va / 2 ^ (12 + 9 * level) % 512))
      by_cases hstop : (pteLeaf e || !pteV e || tableBad e (level + 1)) = true
      · have hnil : walkTables rd va (level + 1) table = [] := by rw [walkTables]; exact if_pos hstop
        rw [hnil] at h
        exact absurd h List.not_mem_nil
      · have htables : walkTables rd va (level + 1) table = (level, pteFrame e) :: walkTables rd va level (pteFrame e) := by
          rw [walkTables]; exact if_neg hstop
        obtain ⟨hwalk, hreads⟩ := ih (htables ▸ h)
        have hfrom : walkFrom rd va (level + 1) table = walkFrom rd va level (pteFrame e) := by
          simp only [Bool.or_eq_true, not_or, Bool.not_eq_true] at hstop
          obtain ⟨⟨hleaf, hv⟩, hbad⟩ := hstop
          rw [walkFrom]
          simp only [e] at hleaf hv hbad
          simp only [hleaf, hv, hbad, Bool.false_eq_true, if_false]
          rfl
        refine ⟨hwalk.trans hfrom.symm, fun a ha => ?_⟩
        have hmem := hreads a ha
        rw [walkReads, htables, List.flatMap_cons]
        exact List.mem_append_right _ hmem

theorem State.sameTables.readEntry {s t : State} (h : s.sameTables t) : t.readEntry = s.readEntry := by
  obtain ⟨hm, hw, -, -⟩ := h
  funext pa
  simp only [State.readEntry, State.latestBytes, State.latestByte, hm, hw]

section
variable {s t : State} {unit tag va level table : Nat}

theorem State.walkOver_eq (s : State) (tag va level table : Nat) : s.walkOver tag va level table =
    let r := State.meetReads tag (walkReads s.readEntry (vaBits va) level table) (false, s)
    (if r.1 then none else some (walkFrom s.readEntry (vaBits va) level table, walkTables s.readEntry (vaBits va) level table), r.2) := by
  have h : ∀ r : Bool × State, (if r.1 = true then (none, r.2) else
      (some (walkFrom s.readEntry (vaBits va) level table, walkTables s.readEntry (vaBits va) level table), r.2)) =
      (if r.1 then none else some (walkFrom s.readEntry (vaBits va) level table, walkTables s.readEntry (vaBits va) level table), r.2) :=
    fun r => by split <;> simp_all
  exact h _

/-- A walk that meets no poisoned sector. -/
theorem State.walkOver_some {x : WalkEnd × List (Nat × Nat)} (h : s.walkOver tag va level table = (some x, t)) :
    x = (walkFrom s.readEntry (vaBits va) level table, walkTables s.readEntry (vaBits va) level table) ∧ s.sameTables t ∧
      ∀ a ∈ walkReads s.readEntry (vaBits va) level table, t.soundAt (sectorBase a) := by
  rw [State.walkOver_eq] at h
  dsimp only at h
  split at h
  · cases h
  · next hsound =>
    obtain ⟨hx, rfl⟩ := Prod.mk.inj h
    obtain ⟨-, htables, -, hreads⟩ := State.meetReads_sound (by simpa using hsound)
    exact ⟨(Option.some.inj hx).symm, htables, hreads⟩

theorem State.walkOver_of_sound (h : ∀ a ∈ walkReads s.readEntry (vaBits va) level table, s.soundAt (sectorBase a)) :
    s.walkOver tag va level table =
      (some (walkFrom s.readEntry (vaBits va) level table, walkTables s.readEntry (vaBits va) level table), s) := by
  rw [State.walkOver_eq, State.meetReads_of_sound h]
  rfl

theorem State.fillWalks_soundAt (l : List (Nat × Nat)) (sec : Nat) : (s.fillWalks unit tag va l).soundAt sec ↔ s.soundAt sec :=
  Iff.rfl

/-- With the tables of a walk in its cache, a unit starts from one of them or from where it started before (R303). -/
theorem State.walkStart_fillWalks (hc : t.ctxs = s.ctxs) (hw : t.walks = s.walks) (below : List (Nat × Nat)) :
    (t.fillWalks unit tag va below).walkStart unit tag va ∈ s.walkStart unit tag va :: below := by
  have hold : t.walks.foldl (fun p x => if x.covers unit tag va ∧ x.level < p.1 then (x.level, x.frame) else p)
      (5, (t.ctx tag).ptroot) = s.walkStart unit tag va := by rw [hw, State.ctx, hc]; rfl
  rw [State.walkStart]
  change (t.walks ++ _).foldl _ (5, (t.ctx tag).ptroot) ∈ _
  rw [List.foldl_append, hold]
  refine List.foldlRecOn (motive := fun p => p ∈ s.walkStart unit tag va :: below) _ _ (List.mem_cons_self ..) fun p hp x hx => ?_
  split
  · obtain ⟨y, hy, rfl⟩ := List.mem_map.1 hx
    exact List.mem_cons_of_mem _ hy
  · exact hp

/-- A walk of a unit, made again at once, ends as it did (R302, R303). -/
theorem State.walkBy_again {e : WalkEnd} (h : s.walkBy unit tag va = (some e, t)) : (t.walkBy unit tag va).1 = some e := by
  unfold State.walkBy at h
  split at h
  · cases h
  next w below u hover =>
  obtain ⟨hw, ht⟩ := Prod.mk.inj h
  obtain ⟨hx, htables, hsound⟩ := State.walkOver_some hover
  obtain ⟨hfrom, hbelow⟩ := Prod.mk.inj hx
  obtain ⟨-, -, hctxs, hwalks⟩ := id htables
  have hread : t.readEntry = s.readEntry := ht ▸ (htables.readEntry : (u.fillWalks unit tag va below).readEntry = _)
  have hstart : t.walkStart unit tag va ∈ s.walkStart unit tag va :: below :=
    ht ▸ State.walkStart_fillWalks hctxs hwalks below
  have hsound' : ∀ a ∈ walkReads s.readEntry (vaBits va) (s.walkStart unit tag va).1 (s.walkStart unit tag va).2,
      t.soundAt (sectorBase a) := fun a ha => ht ▸ (State.fillWalks_soundAt below _).2 (hsound a ha)
  rw [hbelow] at hstart
  obtain ⟨hsame, hreads⟩ := walk_onwards (level := (s.walkStart unit tag va).1) (table := (s.walkStart unit tag va).2) hstart
  have hover' := State.walkOver_of_sound (s := t) (tag := tag) (va := va) (level := (t.walkStart unit tag va).1)
    (table := (t.walkStart unit tag va).2) (by rw [hread]; exact fun a ha => hsound' a (hreads a ha))
  rw [State.walkBy, hover', hread, hsame, ← hfrom]
  exact hw

end

/-! ### Translations (R296, R305, R306) -/

section
variable {s t : State} {unit tag die kind va : Nat} {sup : Bool}

theorem State.translate_noncanonical (h : canonical (BitVec.ofNat 64 va) = false) :
    s.translate unit tag die sup kind va = (.fault 0x20 0, s) := by
  simp [State.translate, State.translateNoFt, h]

/-- Where no cached translation covers the address, it is walked (R299, R303). -/
theorem State.translateNoFt_walks (h : canonical (BitVec.ofNat 64 va) = true) (hn : ∀ t ∈ s.tlb, t.covers unit tag va = false) :
    s.translateNoFt unit tag sup kind va = s.walkLeaf unit tag sup kind va := by
  have hany : ∀ p : TlbEntry → Bool, (s.tlb.any fun x => x.covers unit tag va && p x) = false := fun p => by
    rw [List.any_eq_false]; intro x hx; simp [hn x hx]
  have hmeet : s.meetTlb unit tag va = s := by
    unfold State.meetTlb
    refine if_neg ?_
    rw [Bool.not_eq_true, List.any_eq_false]
    intro f _
    dsimp only
    split
    · simp [hany]
    · simp
  have hfind : s.tlb.find? (fun t => t.covers unit tag va) = none := by
    rw [List.find?_eq_none]; intro x hx; simp [hn x hx]
  simp only [State.translateNoFt, h, hmeet, hfind]
  simp

/-- A fault of a walk that is not to be served by first touch is the translation's (R306). -/
theorem State.translate_fault {e : WalkEnd} {c p : Nat} (h : canonical (BitVec.ofNat 64 va) = true)
    (hn : ∀ t ∈ s.tlb, t.covers unit tag va = false) (hw : s.walkBy unit tag va = (some e, t)) (hanon : e.kind ≠ .anon)
    (hf : s.walkLeaf unit tag sup kind va = (.fault c p, t)) : (s.translate unit tag die sup kind va).1 = .fault c p := by
  have hagain := State.walkBy_again hw
  unfold State.translate
  rw [State.translateNoFt_walks h hn, hf]
  simp only [h, Bool.not_true, Bool.false_eq_true, if_false]
  split
  · next e' => rw [e'] at hagain; cases hagain
  · next w u e' =>
    rw [e'] at hagain
    obtain rfl := Option.some.inj hagain
    rw [if_pos (.inl hanon)]

end

theorem translationFaults : Claim.TranslationFaults := by
  intro s unit tag die kind va sup r
  refine ⟨State.translate_noncanonical, fun h hn => ⟨fun hw => ?_, fun e he => ?_⟩⟩
  · obtain ⟨t, hw⟩ : ∃ t, s.walkBy unit tag va = (none, t) := ⟨_, Prod.ext hw rfl⟩
    simp only [r, State.translate, State.translateNoFt_walks h hn, State.walkLeaf, hw]
  · obtain ⟨t, hw⟩ : ∃ t, s.walkBy unit tag va = (some e, t) := ⟨_, Prod.ext he rfl⟩
    refine ⟨fun hlines => ?_, fun hk hp => ?_, fun hk hanon => ?_, fun hk hp => ?_⟩
    · have hstart : s.walkStart unit tag va = (5, (s.ctx tag).ptroot) := by
        refine List.foldlRecOn (motive := fun p => p = (5, (s.ctx tag).ptroot)) _ _ rfl fun p hp x hx => ?_
        rw [if_neg fun hc => by simp [hlines x hx] at hc, hp]
      unfold State.walkBy at hw
      rw [hstart] at hw
      split at hw
      · cases hw
      · next hover =>
        obtain ⟨hx, -, -⟩ := State.walkOver_some hover
        rw [← Option.some.inj (Prod.mk.inj hw).1, (Prod.mk.inj hx).1]
        rfl
    · refine State.translate_fault h hn hw (by simp [hk]) ?_
      simp [State.walkLeaf, hw, hk, State.useLeaf, hp]
    · refine State.translate_fault h hn hw hanon ?_
      simp [State.walkLeaf, hw, hk]
    · have hleaf : (s.walkLeaf unit tag sup kind va).1 = .ok (leafPa (e.entry ||| 0x200 ||| (if kind = 1 ∨ kind = 3 then 0x400 else 0)) va)
          (e.entry ||| 0x200 ||| (if kind = 1 ∨ kind = 3 then 0x400 else 0)) := by
        simp only [State.walkLeaf, hw, hk, if_true, State.useLeaf, hp]
        simp
      simp only [r, State.translate, State.translateNoFt_walks h hn]
      split
      · next e' => rw [e'] at hleaf; cases hleaf
      · exact hleaf

end Sys2Proof.Machine
end

section
/-! The statement of the page instructions that fails where two invalidations of one wave share a name (log 1): the end of one
records the same time in both, and the statement says that each keeps the later of its own time and the writes'. -/

namespace Sys2Proof.Machine

/-- A device whose one wave has two invalidations of the name 0, of which the second waits until time 7. -/
def sharedInval : State :=
  { State.reset with waves := [{ (default : Wave) with invals := [⟨0, 0, none, [], false, 0⟩, ⟨0, 0, none, [], false, 7⟩] }] }

/-- The times until which the invalidations of a next state wait. -/
def Out.invalTimes (o : Out) : List Nat := match o with | .next t => t.allInvals.map Inval.upto | _ => []

/-- Refutes O41: the completion of the first invalidation sets the second's time to 0, where the statement keeps 7. Its other
half, about the causes of translation faults, holds: `translationFaults`. -/
theorem not_pagesTranslate : ¬ Obligations.PagesTranslate := by
  intro h
  obtain ⟨-, -, -, -, -, -, hcomplete⟩ := h.1 sharedInval default default
  have hend := hcomplete 0 ⟨0, 0, none, [], false, 0⟩ (by decide +kernel) rfl
  exact absurd (congrArg Out.invalTimes hend) (by decide +kernel)

end Sys2Proof.Machine
end

section
/-! Collectives (R417 to R422): the commands and instructions, a collective's end, and what it gives. -/

namespace Sys2Proof.Machine

/-! ### COMM_CREATE and COLL.WAIT -/

theorem commBad_eq_false_iff {index n rank timeout : Nat} : commBad index n rank timeout = false ↔
    index < 64 ∧ 2 ≤ n ∧ n ≤ 256 ∧ rank < n ∧ 1000 ≤ timeout ∧ timeout ≤ 10000000 := by
  simp only [commBad, Bool.or_eq_false_iff, decide_eq_false_iff_not, not_le, not_lt, and_assoc]

theorem commBad_eq_true_iff {index n rank timeout : Nat} : commBad index n rank timeout = true ↔
    64 ≤ index ∨ n < 2 ∨ 256 < n ∨ n ≤ rank ∨ timeout < 1000 ∨ 10000000 < timeout := by
  simp [commBad, or_assoc]

/-- The first collective that is not DONE has the first status that is not DONE, where every collective has a status. -/
theorem find?_status {l : List Collect} (h : ∀ c ∈ l, c.status ≠ none) :
    ((l.find? fun c => c.status != some 1).bind fun c => c.status) = (l.filterMap fun c => c.status).find? fun x => x != 1 := by
  induction l with
  | nil => rfl
  | cons c l ih =>
    obtain ⟨hc, hl⟩ := List.forall_mem_cons.1 h
    obtain ⟨x, hx⟩ := Option.ne_none_iff_exists'.1 hc
    rw [List.filterMap_cons_some hx, List.find?_cons, List.find?_cons, ← ih hl]
    by_cases h1 : x = 1
    · rw [hx, h1]
      rfl
    · have hstat : (some x != some 1) = true := by simp [h1]
      have hnum : (x != 1) = true := by simp [h1]
      rw [hx, hstat, hnum]
      exact hx

/-! ### A collective's run -/

section
variable {s t u : State} {id : Nat} {c : Collect} {m : Comm} {ranks : List RankInput}

/-- A collective that is its communicator's first without an outcome runs by the order of statuses of log 37. -/
theorem exec_collectiveRun (hc : s.coll id = some c) (hm : s.comm c.tag (collComm c.bytes) = some m) (ho : c.outcome = none)
    (hfirst : ∀ x ∈ s.colls, x.tag = c.tag → collComm x.bytes = m.index → x.outcome = none → c.seq ≤ x.seq) :
    exec (.collectiveRun id ranks) s =
      if s.collCut c m = true ∨ ∃ r ∈ ranks, r.rank ≠ m.rank ∧ r.ends = some 4 then .next (s.collEnd c m.ids.length 4 [])
      else if ∃ r ∈ ranks, r.rank ≠ m.rank ∧ r.ends = some 3 then .next (s.collEnd c m.ids.length 3 [])
      else if ranksWhole c.bytes m ranks = false then .next s
      else if ∃ r ∈ ranks, r.rank ≠ m.rank ∧ collDescBad m.ids.length r.desc = true then .next (s.collEnd c m.ids.length 6 [])
      else if ∃ r ∈ ranks, r.rank ≠ m.rank ∧ collAgree c.bytes r.desc = false then .next (s.collEnd c m.ids.length 2 [])
      else if ∃ r ∈ ranks, r.rank ≠ m.rank ∧ r.fault = true then .next (s.collEnd c m.ids.length 5 [])
      else .next (s.collPerform c m ranks) := by
  have hall : (s.colls.all fun x => !(x.tag == c.tag && collComm x.bytes == m.index && x.outcome.isNone && decide (x.seq < c.seq))) = true := by
    simp only [List.all_eq_true, Bool.not_eq_true', Bool.and_eq_false_imp, Bool.and_eq_true, beq_iff_eq, Option.isNone_iff_eq_none,
      decide_eq_false_iff_not, not_lt, and_imp]
    exact hfirst
  have happart : (!(ranks.all fun r => r.rank == m.rank || collAgree c.bytes r.desc)) = true ↔
      ∃ r ∈ ranks, r.rank ≠ m.rank ∧ collAgree c.bytes r.desc = false := by simp
  change execCollectiveRun id ranks s = _
  simp only [execCollectiveRun, hc, hm, ho, hall, happart, Option.isSome_none, Bool.not_true, Bool.or_self, Bool.false_eq_true, if_false,
    Bool.or_eq_true, List.any_eq_true, Bool.and_eq_true, bne_iff_ne, beq_iff_eq, Bool.not_eq_true']

/-- The elements that a rank brings to a collective's result: its own from memory, the others' from outside. -/
theorem State.collPerform_done {bs : List Byte} {ids : List Nat} (hc : s.coll id = some c)
    (hload : s.unitLoad (collReader c) (collSrc c.bytes) (collCount c.bytes * collElem c.bytes) = (t, .ok bs)) :
    let src := tabulate m.ids.length fun i => if i = m.rank then elemsOf (collElem c.bytes) bs
      else ((ranks.find? fun r => r.rank == i).map fun r => r.data).getD []
    t.cutStore (collReader c) (collDst c.bytes)
      ((collResult c.bytes m.rank m.ids.length src).flatMap fun x => bytesOfNat (collElem c.bytes) x.toNat) = (u, .ok ids) →
    s.collPerform c m ranks = u.modColl id fun x => { x with outcome := some 1, writes := ids } := by
  intro src hstore
  have hid : c.id = id := by simpa using List.find?_some hc
  simp only [State.collPerform, hload]
  simp only [src] at hstore
  simp only [hstore, State.collEnd, State.collEndBy, if_true, andThen, List.append_nil, hid]

theorem State.collPerform_fault {x p a : Nat}
    (hload : s.unitLoad (collReader c) (collSrc c.bytes) (collCount c.bytes * collElem c.bytes) = (t, .fault x p a)) :
    s.collPerform c m ranks = t.collEnd c m.ids.length 5 [] := by
  simp only [State.collPerform, hload]

theorem exec_collectiveTimeout (hc : s.coll id = some c) (hm : s.comm c.tag (collComm c.bytes) = some m) (ho : c.outcome = none)
    (ht : c.joined + m.timeout ≤ s.time) : exec (.collectiveTimeout id) s = .next (s.collEnd c m.ids.length 3 []) := by
  change execCollectiveTimeout id s = _
  simp only [execCollectiveTimeout, hc, hm, ho, Option.isNone_none, ht, and_self, if_true]

theorem exec_collectiveComplete {st : Nat} {a b : List Nat} (hc : s.coll id = some c) (ho : c.outcome = some st) (hst : c.status = none)
    (hacked : s.allAcked c.writes = true) (hdone : s.cutStore (collReader c) (c.addr + 0x28) (bytesOfNat 8 s.time) = (t, .ok a))
    (hstatus : t.cutStore (collReader c) (c.addr + 0x20) (bytesOfNat 4 st) = (u, .ok b)) :
    exec (.collectiveComplete id) s = .next ((b.foldl (fun s i => s.notBefore ((a.map s.ctimeOf).foldl max 0) i) u).modColl id
      fun x => { x with status := some st }) := by
  change execCollectiveComplete id s = _
  simp only [execCollectiveComplete, hc, ho, hst, hacked, hdone, hstatus, Option.isSome_none, Bool.not_true, Bool.or_self,
    Bool.false_eq_true, if_false]

end

/-! ### The instructions -/

section
variable {s t u : State} {w : Wave} {f : Fields}

/-- COLL once its checks have passed (R421). -/
theorem exec_coll (h : s.runs w (.coll f) f .dest false = true) :
    let addr := s.readS w (.int 64) f.a + (f.ext.extractLsb' 0 32).signExtend 64
    exec (.coll f) s = if s.releasedAt w 2 = false then s.stall
      else if canonical addr = false then s.trap 0x20 w.exec (pageInfo addr.toNat 0 0)
      else if 4 ≤ ((s.collsOf w).filter fun c => c.status.isNone).length then s.stall
      else State.take (s.viaLoad (s.wavesVia w) addr.toNat 64) 0 fun s d =>
        State.take (s.collAdd w addr.toNat d) 1 fun s _ => s.finish f fun x =>
          { x with nextColl := x.nextColl + 1 }.putS f.d (x.nextColl.setWidth 64) := by
  intro addr
  change execColl f s = _
  rw [execColl, State.front_runs _ h]
  simp only [Bool.not_eq_true', addr]

theorem exec_collWait (h : s.runs w (.collWait f) f .dest false = true) :
    let mine := (s.collsOf w).filter fun c => f.m.getLsbD 0 || decide ((lo32 (s.scalB w (.int 32) false f) - c.number).toNat < 2 ^ 31)
    exec (.collWait f) s = if ∃ c ∈ mine, c.status = none then s.stall
      else .next (s.setMe ((w.putS f.d (BitVec.ofNat 64 (((mine.find? fun c => c.status != some 1).bind fun c => c.status).getD 0))).after f)) := by
  intro mine
  change execCollWait f s = _
  rw [execCollWait, State.front_runs _ h]
  simp only [List.any_eq_true, Option.isNone_iff_eq_none, State.finish_eq s w f _ (State.runs_me h), mine]

end

theorem collectivesComplete : Claim.CollectivesComplete := by
  intro s w f mine
  refine ⟨fun tag i list n rank timeout blk t p hi h2 hn hr ht ht' hp => ?_, fun tag i list n rank timeout blk hbad => ?_, fun h => ?_,
    fun h => ⟨fun hc => ?_, fun hc => ?_⟩, fun id c m hc hm => ⟨exec_collectiveTimeout hc hm, fun ranks ho hfirst => ?_⟩,
    fun id c st t u a b => exec_collectiveComplete⟩
  · have hgood := commBad_eq_false_iff.2 ⟨hi, h2, hn, hr, ht, ht'⟩
    change execCommCreate tag i list n rank timeout blk s = _
    simp only [execCommCreate, hgood, Bool.false_eq_true, if_false, hp]
    rfl
  · change execCommCreate tag i list n rank timeout blk s = _
    rw [execCommCreate, if_pos (commBad_eq_true_iff.2 hbad)]
  · intro addr open_
    refine ⟨fun hr => ?_, fun hr hc => ?_, fun hr hc ho => ?_, fun t d u hr hc ho hload hadd => ?_⟩
    · simp only [exec_coll h, hr, if_true]
    · rw [exec_coll h, if_neg (by simp [hr]), if_pos hc]
    · rw [exec_coll h, if_neg (by simp [hr]), if_neg (by simpa [addr] using hc), if_pos ho]
    · rw [exec_coll h, if_neg (by simp [hr]), if_neg (by simpa [addr] using hc), if_neg (by simpa [open_] using ho), hload]
      simp only [addr] at hadd
      simp only [State.take, hadd]
      rfl
  · rw [exec_collWait h, if_pos hc]
  · rw [exec_collWait h, if_neg (by rintro ⟨c, hm, hn⟩; exact hc c hm hn), find?_status hc]
  · intro ends wrong apart failed ended
    have hrun := exec_collectiveRun (ranks := ranks) hc hm ho hfirst
    refine ⟨fun h4 => ?_, fun hcut h4 h3 => ?_, fun hcut h4 h3 hw => ?_⟩
    · exact hrun.trans (if_pos h4)
    · exact (hrun.trans (if_neg (by simp [hcut]; simpa [ended] using h4))).trans (if_pos h3)
    · rw [if_neg (by rintro (h | h); exacts [by simp [hcut] at h, h4 h]), if_neg h3, if_neg (by simp [hw])] at hrun
      refine ⟨fun h6 => hrun.trans (if_pos h6), fun h6 h2 => ?_, fun h6 h2 h5 => ?_, fun h6 h2 h5 t x p a hload => ?_,
        fun h6 h2 h5 t bs u ids hload => ?_⟩
      · exact (hrun.trans (if_neg h6)).trans (if_pos h2)
      all_goals rw [if_neg h6, if_neg h2] at hrun
      · exact hrun.trans (if_pos h5)
      all_goals rw [if_neg h5] at hrun
      · rw [hrun, State.collPerform_fault hload]
      · intro src hstore
        rw [hrun, State.collPerform_done hc hload hstore]

/-! ### What a collective gives (R419) -/

theorem getD_tabulate {α : Type} {n i : Nat} (f : Nat → α) (d : α) (h : i < n) : (tabulate n f).getD i d = f i := by
  rw [List.getD_eq_getElem?_getD, tabulate_get? n i f h, Option.getD_some]

theorem readInt_emod (sg : Bool) (x : Nat) : readInt sg 32 x % 2 ^ 32 = x % 2 ^ 32 := by
  unfold readInt
  cases sg <;> simp only [Bool.false_and, Bool.true_and, Bool.false_eq_true, if_false] <;> grind

/-- One step of a sum of 32-bit integers. -/
theorem collStep_sum (a b : Word64) : (collStep 0x2 0 a b).toNat = (a.toNat + b.toNat) % 2 ^ 32 := by
  have hx := readInt_emod true a.toNat
  have hy := readInt_emod true b.toNat
  simp only [collStep, tyWidth, tySigned, BitVec.toNat_ofNat, if_true, Nat.reduceLeDiff, if_false, decide_true]
  omega

theorem foldl_collStep_sum (l : List Word64) (a : Word64) (ha : a.toNat < 2 ^ 32) :
    (l.foldl (collStep 0x2 0) a).toNat = (l.map BitVec.toNat).foldl (· + ·) a.toNat % 2 ^ 32 := by
  induction l generalizing a with
  | nil => exact (Nat.mod_eq_of_lt ha).symm
  | cons b l ih =>
    have hsum := collStep_sum a b
    have hshift (x : Nat) : (l.map BitVec.toNat).foldl (· + ·) x = x + (l.map BitVec.toNat).foldl (· + ·) 0 :=
      List.foldl_assoc (op := (· + ·)) (a₁ := x) (a₂ := 0)
    rw [List.foldl_cons, ih _ (hsum ▸ Nat.mod_lt _ (by decide)), hsum, List.map_cons, List.foldl_cons, hshift,
      hshift (a.toNat + b.toNat), Nat.mod_add_mod]

theorem collReduce_sum {d : List Byte} {l : List Word64} (hty : collTy d = 0x2) (hop : collRop d = 0) (hmode : collMode d = 0)
    (hl : ∀ a ∈ l, a.toNat < 2 ^ 32) (hne : l ≠ []) : (collReduce d l).toNat = (l.map BitVec.toNat).foldl (· + ·) 0 % 2 ^ 32 := by
  obtain ⟨a, l, rfl⟩ := List.exists_cons_of_ne_nil hne
  simp only [collReduce, hmode, hty, hop, Nat.zero_ne_one, if_false]
  rw [foldl_collStep_sum l a (hl a List.mem_cons_self), List.map_cons, List.foldl_cons, Nat.zero_add]

theorem collectiveResults : Claim.CollectiveResults := by
  intro d r n i src hi hne
  refine ⟨fun h => ?_, fun h hty hop hmode hsrc => ?_, fun h hi => ?_, fun h => ?_, fun h => ?_⟩
  all_goals simp only [collResult, h]
  · exact tabulate_length _ _
  · have hlt : ∀ a ∈ src.map fun x => x.getD i 0, a.toNat < 2 ^ 32 := by
      intro a ha
      obtain ⟨x, hx, rfl⟩ := List.mem_map.1 ha
      by_cases hix : i < x.length
      · rw [List.getD_eq_getElem _ _ hix]
        exact hsrc x hx _ (List.getElem_mem hix)
      · rw [List.getD_eq_default _ _ (not_lt.1 hix)]
        decide
    rw [getD_tabulate _ _ hi, collReduce_sum hty hop hmode hlt (by simpa using hne), List.map_map]
    rfl
  · exact getD_tabulate _ _ hi

/-- Settles O56: each clause is the command's, instruction's or event's own equation; the results are read off element by element. -/
theorem collectivesEnd : Obligations.CollectivesEnd := ⟨collectivesComplete, collectiveResults⟩

end Sys2Proof.Machine
end

section
/-! A kindling hart's state and the fields of an instruction's word (R424). -/

namespace Sys2Proof.Machine

/-! ### The hart -/

theorem modAt_modAt {α : Type} (l : List α) (i : Nat) (f g : α → α) : modAt (modAt l i f) i g = modAt l i fun a => g (f a) := by
  induction l generalizing i with
  | nil => rfl
  | cons a l ih => cases i with
    | zero => rfl
    | succ i => simp only [modAt, ih]

theorem getD_modAt {α : Type} (l : List α) (i : Nat) (f : α → α) (d : α) :
    (modAt l i f).getD i d = f (l.getD i d) ∨ (modAt l i f).getD i d = l.getD i d := by
  induction l generalizing i with
  | nil => exact .inr rfl
  | cons a l ih => cases i with
    | zero => exact .inl rfl
    | succ i => simpa only [modAt, List.getD_cons_succ] using ih i

section
variable {s t : State} {h : Nat}

theorem State.modHart_modHart (f g : Hart → Hart) : (s.modHart h f).modHart h g = s.modHart h fun x => g (f x) := by
  simp only [State.modHart, modAt_modAt]

/-- What a change of a hart leaves unchanged in it. -/
theorem State.hart_modHart_keeps {α : Type} {f : Hart → Hart} (p : Hart → α) (hp : ∀ x, p (f x) = p x) :
    p ((s.modHart h f).hart h) = p (s.hart h) := by
  rcases getD_modAt s.harts h f (Hart.reset 0) with e | e
  · exact (congrArg p e).trans (hp _)
  · exact congrArg p e

/-- The hart stands at an instruction of 32 bits. -/
def State.hartLong (s : State) (h : Nat) : Prop := s.modHart h (fun x => { x with ilen := 4 }) = s

theorem State.hartLong_start (f : Hart → Hart) : (s.modHart h fun x => { f x with ilen := 4 }).hartLong h :=
  State.modHart_modHart _ _

/-- An instruction of 32 bits runs by its word. -/
theorem State.hartInsn_long (hs : s.hartLong h) {n : Nat} (hn : n % 4 = 3) (hlt : n < 2 ^ 32) :
    s.hartInsn h n = s.hartWord h (BitVec.ofNat 64 n) (BitVec.ofNat 32 n) := by
  rw [State.hartInsn, if_pos hn]
  refine (congrArg (State.hartWord · h _ _) hs).trans ?_
  rw [show 8 * 4 = 32 from rfl, Nat.mod_eq_of_lt hlt]

end

/-! ### CSRs -/

section
variable {x : Hart} {n : Nat} {write : Bool}

theorem Hart.csr_congr {y : Hart} (h : x.csrs = y.csrs) (n : Nat) : x.csr n = y.csr n := by rw [Hart.csr, Hart.csr, h]

theorem Hart.csr_setCsr (x : Hart) (n m : Nat) (v : Word64) : (x.setCsr n v).csr m = if m = n then v else x.csr m := by
  simp only [Hart.csr, Hart.setCsr, List.find?_append, List.find?_filter]
  by_cases hmn : m = n
  · subst hmn
    rw [List.find?_eq_none.2 fun c _ => by simp]
    simp
  · have hsame : (fun c : Nat × Word64 => decide ((c.1 != n) = true ∧ (c.1 == m) = true)) = fun c => c.1 == m := by
      funext c
      by_cases hc : c.1 = m <;> simp_all
    have hlast : [(n, v)].find? (fun c => c.1 == m) = none := by simp [Ne.symm hmn]
    simp_all

/-- A trap from M-mode is taken in M-mode, and saves the PC, the cause and the value (R425). -/
theorem Hart.raised_of_m (hm : x.priv = .m) (c : Nat) (v : Word64) :
    let y := x.raised c v
    y.priv = .m ∧ y.csr 0x341 = x.pc ∧ y.csr 0x342 = BitVec.ofNat 64 c ∧ y.csr 0x343 = v ∧ y.pc = x.csr 0x305 &&& ~~~3 := by
  have hto : x.trapTo false c = .m := by simp [Hart.trapTo, hm]
  let z := (((x.setCsr 0x341 x.pc).setCsr 0x342 (BitVec.ofNat 64 c)).setCsr 0x343 v).modCsr 0x300 fun v =>
    setField (setField (setField (setField (setField v 7 7 (v.toNat / 8)) 3 3 0) 12 11 x.priv.code) 39 39 (bitNat x.virt)) 38 38 (bitNat false)
  have hcsrs : (x.raised c v).csrs = (z.setCsr 0x34B 0).csrs := by
    simp [Hart.raised, Hart.enter, hto, z, Hart.setCsr, Hart.modCsr, Hart.csr, bitNat]
  have hregs : (x.raised c v).priv = .m ∧ (x.raised c v).pc = vectored (x.csr 0x305) false c := by
    simp only [Hart.raised, Hart.enter, hto]
    exact ⟨trivial, rfl⟩
  obtain ⟨hpriv, hpc⟩ := hregs
  refine ⟨hpriv, ?_, ?_, ?_, by simp [hpc, vectored]⟩
  all_goals simp [Hart.csr_congr hcsrs, z, Hart.modCsr, Hart.csr_setCsr]

theorem Hart.setReg_zero (x : Hart) (v : Word64) : x.setReg 0 v = x := rfl

theorem nkOf_nkNum (c : NkCsr) : nkOf (nkNum c) = some c := by cases c <;> rfl

theorem nkNum_range (c : NkCsr) : 0x5C0 ≤ nkNum c ∧ nkNum c ≤ 0x5C5 := by cases c <;> decide

/-- The custom registers are illegal in U-mode and for a guest, and in no other mode (R427). -/
theorem Hart.csrRefused_custom (hn : 0x5C0 ≤ n ∧ n ≤ 0x5C5) :
    x.csrRefused n write = if x.priv = .m then none else if x.priv = .u ∨ x.virt then some 2 else none := by
  have h1 : n / 1024 ≠ 3 := by omega
  have h2 : ¬ (1 ≤ n ∧ n ≤ 3 ∧ x.fpOff = true) := by omega
  have h3 : [8, 9, 0xA, 0xF, 0xC20, 0xC21, 0xC22].contains n = false := by
    simp only [List.contains_eq_mem, decide_eq_false_iff_not, List.mem_cons, List.not_mem_nil, or_false]
    omega
  have h4 : n ≠ 0x14D ∧ n ≠ 0x24D := by omega
  have h5 : n / 256 % 4 ≠ 3 := by omega
  have h6 : n / 32 ≠ 0xC00 / 32 := by omega
  simp only [Hart.csrRefused, h1, h2, h3, h4.1, h4.2, h5, h6, hn, and_false, false_and, Bool.false_eq_true, or_self, if_false,
    decide_false, Bool.false_and, and_self, if_true]

theorem Hart.csrRefused_satp (hv : x.virt = false) (hp : x.priv = .m ∨ (x.priv = .s ∧ x.bit 0x300 20 = false)) :
    x.csrRefused 0x180 true = none := by
  rcases hp with hm | ⟨hs, ht⟩
  · simp [Hart.csrRefused, hm]
  · simp [Hart.csrRefused, hs, hv, ht]

theorem Hart.csrRefused_of_m (hm : x.priv = .m) (hn : n = 0xC01 ∨ n = 0xF14) : x.csrRefused n false = none := by
  rcases hn with rfl | rfl <;> simp [Hart.csrRefused, hm]

end

/-! ### The fields of a word -/

theorem insnBits_ofNat {n hi lo : Nat} (hn : n < 2 ^ 32) : insnBits (BitVec.ofNat 32 n) hi lo = n / 2 ^ lo % 2 ^ (hi + 1 - lo) := by
  rw [insnBits, BitVec.toNat_ofNat, Nat.mod_eq_of_lt hn]

theorem csrWord_eq {n f3 rs1 rd : Nat} (hn : n < 4096) (h3 : f3 < 8) (h1 : rs1 < 32) (hd : rd < 32) :
    csrWord n f3 rs1 rd = 0x73 + rd * 2 ^ 7 + f3 * 2 ^ 12 + rs1 * 2 ^ 15 + n * 2 ^ 20 := by
  rw [csrWord, rvI, BitVec.toNat_ofNat]
  omega

section
variable {s t : State} {h n : Nat}

/-- A CSR that is written, and one that is only read, by the word of its instruction. -/
theorem State.hartInsn_csrrw (hs : s.hartLong h) (hn : n < 4096) (r : BitVec 5) :
    s.hartInsn h (csrWord n 1 r.toNat 0) = s.csrInsn h (BitVec.ofNat 64 (csrWord n 1 r.toNat 0)) n .rw ((s.hart h).reg r) true 0 := by
  have hr := r.isLt
  have hw := csrWord_eq hn (f3 := 1) (by decide) hr (rd := 0) (by decide)
  have hlt : csrWord n 1 r.toNat 0 < 2 ^ 32 := by omega
  rw [State.hartInsn_long hs (by omega) hlt]
  have h0 : insnBits (BitVec.ofNat 32 (csrWord n 1 r.toNat 0)) 6 0 = 0x73 := by rw [insnBits_ofNat hlt]; omega
  have h1 : insnBits (BitVec.ofNat 32 (csrWord n 1 r.toNat 0)) 14 12 = 1 := by rw [insnBits_ofNat hlt]; omega
  have h2 : insnBits (BitVec.ofNat 32 (csrWord n 1 r.toNat 0)) 31 20 = n := by rw [insnBits_ofNat hlt]; omega
  have h3 : insnBits (BitVec.ofNat 32 (csrWord n 1 r.toNat 0)) 19 15 = r.toNat := by rw [insnBits_ofNat hlt]; omega
  have h4 : insnBits (BitVec.ofNat 32 (csrWord n 1 r.toNat 0)) 11 7 = 0 := by rw [insnBits_ofNat hlt]; omega
  simp only [State.hartWord, h0, State.hartSys, h1, h2, h3, h4, BitVec.ofNat_toNat, BitVec.setWidth_eq]
  rfl

theorem State.hartInsn_csrr (hs : s.hartLong h) (hn : n < 4096) (d : BitVec 5) :
    s.hartInsn h (csrWord n 2 0 d.toNat) = s.csrInsn h (BitVec.ofNat 64 (csrWord n 2 0 d.toNat)) n .rs 0 false d := by
  have hd := d.isLt
  have hw := csrWord_eq hn (f3 := 2) (by decide) (rs1 := 0) (by decide) hd
  have hlt : csrWord n 2 0 d.toNat < 2 ^ 32 := by omega
  rw [State.hartInsn_long hs (by omega) hlt]
  have h0 : insnBits (BitVec.ofNat 32 (csrWord n 2 0 d.toNat)) 6 0 = 0x73 := by rw [insnBits_ofNat hlt]; omega
  have h1 : insnBits (BitVec.ofNat 32 (csrWord n 2 0 d.toNat)) 14 12 = 2 := by rw [insnBits_ofNat hlt]; omega
  have h2 : insnBits (BitVec.ofNat 32 (csrWord n 2 0 d.toNat)) 31 20 = n := by rw [insnBits_ofNat hlt]; omega
  have h3 : insnBits (BitVec.ofNat 32 (csrWord n 2 0 d.toNat)) 19 15 = 0 := by rw [insnBits_ofNat hlt]; omega
  have h4 : insnBits (BitVec.ofNat 32 (csrWord n 2 0 d.toNat)) 11 7 = d.toNat := by rw [insnBits_ofNat hlt]; omega
  simp only [State.hartWord, h0, State.hartSys, h1, h2, h3, h4, BitVec.ofNat_toNat, BitVec.setWidth_eq]
  rfl

end

end Sys2Proof.Machine
end

section
/-! The words that stand for the standard's instructions (log 25). -/

namespace Sys2Proof.Machine

theorem toNat_append_eq {m n : Nat} (x : BitVec m) (y : BitVec n) : (x ++ y).toNat = x.toNat * 2 ^ n + y.toNat := by
  rw [BitVec.toNat_append, Nat.shiftLeft_eq, Nat.mul_comm, Nat.two_pow_add_eq_or_of_lt y.isLt]

section
variable {s t : State} {h n : Nat} {insn : Word64} {w : Word}

/-! ### By the fields of a word -/

theorem State.hartWord_lui (h0 : insnBits w 6 0 = 0x37) :
    s.hartWord h insn w = .next (s.hartDone h fun y => y.setReg (BitVec.ofNat 5 (insnBits w 11 7)) (immU w)) := by
  simp only [State.hartWord, h0, State.hartResult]

theorem State.hartWord_addi (h0 : insnBits w 6 0 = 0x13) (h3 : insnBits w 14 12 = 0) :
    s.hartWord h insn w = .next (s.hartDone h fun y => y.setReg (BitVec.ofNat 5 (insnBits w 11 7))
      ((s.hart h).reg (BitVec.ofNat 5 (insnBits w 19 15)) + immI w)) := by
  simp only [State.hartWord, h0, h3, State.hartResult, rvOpImm, aluOp, immI, immOf, Bool.false_eq_true, if_false]

theorem State.hartWord_beq (h0 : insnBits w 6 0 = 0x63) (h3 : insnBits w 14 12 = 0) :
    s.hartWord h insn w =
      .next (if (s.hart h).reg (BitVec.ofNat 5 (insnBits w 19 15)) = (s.hart h).reg (BitVec.ofNat 5 (insnBits w 24 20))
        then s.modHart h fun y => { y with pc := y.pc + immB w } else s.hartDone h id) := by
  simp only [State.hartWord, h0, h3, branchTaken, beq_iff_eq]

theorem State.hartWord_add (h0 : insnBits w 6 0 = 0x33) (h3 : insnBits w 14 12 = 0) (h7 : insnBits w 31 25 = 0) :
    s.hartWord h insn w = .next (s.hartDone h fun y => y.setReg (BitVec.ofNat 5 (insnBits w 11 7))
      ((s.hart h).reg (BitVec.ofNat 5 (insnBits w 19 15)) + (s.hart h).reg (BitVec.ofNat 5 (insnBits w 24 20)))) := by
  simp only [State.hartWord, h0, h3, h7, State.hartResult, rvOp, aluOp, Bool.false_eq_true, if_false]

/-! ### By the words themselves -/

theorem State.hartInsn_lui (hs : s.hartLong h) (u : BitVec 20) (rd : BitVec 5) (hn : n = u.toNat * 2 ^ 12 + rd.toNat * 2 ^ 7 + 0x37) :
    s.hartInsn h n = .next (s.hartDone h fun y => y.setReg rd ((u ++ (0 : BitVec 12)).signExtend 64)) := by
  have hu := u.isLt
  have hd := rd.isLt
  have hlt : n < 2 ^ 32 := by omega
  have h0 : insnBits (BitVec.ofNat 32 n) 6 0 = 0x37 := by rw [insnBits_ofNat hlt]; omega
  have h1 : insnBits (BitVec.ofNat 32 n) 31 12 = u.toNat := by rw [insnBits_ofNat hlt]; omega
  have h2 : insnBits (BitVec.ofNat 32 n) 11 7 = rd.toNat := by rw [insnBits_ofNat hlt]; omega
  have himm : BitVec.ofNat 32 (u.toNat * 2 ^ 12) = u ++ (0 : BitVec 12) :=
    BitVec.eq_of_toNat_eq (by rw [toNat_append_eq, BitVec.toNat_ofNat]; simp only [BitVec.ofNat_eq_ofNat, BitVec.toNat_ofNat]; omega)
  rw [State.hartInsn_long hs (by omega) hlt, State.hartWord_lui h0, immU, h1, h2, immOf, himm, BitVec.ofNat_toNat, BitVec.setWidth_eq]

theorem State.hartInsn_addi (hs : s.hartLong h) (i : BitVec 12) (a rd : BitVec 5)
    (hn : n = i.toNat * 2 ^ 20 + a.toNat * 2 ^ 15 + rd.toNat * 2 ^ 7 + 0x13) :
    s.hartInsn h n = .next (s.hartDone h fun y => y.setReg rd ((s.hart h).reg a + i.signExtend 64)) := by
  have hi := i.isLt
  have ha := a.isLt
  have hd := rd.isLt
  have hlt : n < 2 ^ 32 := by omega
  have h0 : insnBits (BitVec.ofNat 32 n) 6 0 = 0x13 := by rw [insnBits_ofNat hlt]; omega
  have h1 : insnBits (BitVec.ofNat 32 n) 31 20 = i.toNat := by rw [insnBits_ofNat hlt]; omega
  have h2 : insnBits (BitVec.ofNat 32 n) 11 7 = rd.toNat := by rw [insnBits_ofNat hlt]; omega
  have h3 : insnBits (BitVec.ofNat 32 n) 14 12 = 0 := by rw [insnBits_ofNat hlt]; omega
  have h4 : insnBits (BitVec.ofNat 32 n) 19 15 = a.toNat := by rw [insnBits_ofNat hlt]; omega
  rw [State.hartInsn_long hs (by omega) hlt, State.hartWord_addi h0 h3, immI, h1, h2, h4, immOf]
  simp only [BitVec.ofNat_toNat, BitVec.setWidth_eq]

theorem immB_eight {a b : BitVec 5} (hn : n = b.toNat * 2 ^ 20 + a.toNat * 2 ^ 15 + 8 * 2 ^ 7 + 0x63) : immB (BitVec.ofNat 32 n) = 8 := by
  have ha := a.isLt
  have hb := b.isLt
  have hlt : n < 2 ^ 32 := by omega
  have h1 : insnBits (BitVec.ofNat 32 n) 31 31 = 0 := by rw [insnBits_ofNat hlt]; omega
  have h2 : insnBits (BitVec.ofNat 32 n) 7 7 = 0 := by rw [insnBits_ofNat hlt]; omega
  have h3 : insnBits (BitVec.ofNat 32 n) 30 25 = 0 := by rw [insnBits_ofNat hlt]; omega
  have h4 : insnBits (BitVec.ofNat 32 n) 11 8 = 4 := by rw [insnBits_ofNat hlt]; omega
  rw [immB, h1, h2, h3, h4]
  rfl

theorem State.hartInsn_beq (hs : s.hartLong h) (a b : BitVec 5) (hn : n = b.toNat * 2 ^ 20 + a.toNat * 2 ^ 15 + 8 * 2 ^ 7 + 0x63) :
    s.hartInsn h n =
      .next (if (s.hart h).reg a = (s.hart h).reg b then s.modHart h fun y => { y with pc := y.pc + 8 } else s.hartDone h id) := by
  have ha := a.isLt
  have hb := b.isLt
  have hlt : n < 2 ^ 32 := by omega
  have h0 : insnBits (BitVec.ofNat 32 n) 6 0 = 0x63 := by rw [insnBits_ofNat hlt]; omega
  have h1 : insnBits (BitVec.ofNat 32 n) 14 12 = 0 := by rw [insnBits_ofNat hlt]; omega
  have h2 : insnBits (BitVec.ofNat 32 n) 19 15 = a.toNat := by rw [insnBits_ofNat hlt]; omega
  have h3 : insnBits (BitVec.ofNat 32 n) 24 20 = b.toNat := by rw [insnBits_ofNat hlt]; omega
  rw [State.hartInsn_long hs (by omega) hlt, State.hartWord_beq h0 h1, immB_eight hn, h2, h3]
  simp only [BitVec.ofNat_toNat, BitVec.setWidth_eq]

theorem rvR_add (b rd : Nat) : rvR 0 b 0 0 rd 0x33 = BitVec.ofNat 32 (0x33 + rd * 2 ^ 7 + b * 2 ^ 20) := by
  refine congrArg (BitVec.ofNat 32) (?_ : 0x33 + rd * 2 ^ 7 + 0 * 2 ^ 12 + 0 * 2 ^ 15 + b * 2 ^ 20 + 0 * 2 ^ 25 = _)
  omega

/-- C.MV is ADD of x0 and its source. -/
theorem rvcExpand_mv {rd b : Nat} (hn : n = 8 * 2 ^ 12 + rd * 2 ^ 7 + b * 2 ^ 2 + 2) (hd : rd < 32) (hb : b < 32) (hb0 : b ≠ 0) :
    rvcExpand n = some (rvR 0 b 0 0 rd 0x33) := by
  have h0 : n % 4 = 2 := by omega
  have h1 : n / 2 ^ 13 % 2 ^ (15 + 1 - 13) = 4 := by omega
  have h2 : n / 2 ^ 12 % 2 ^ (12 + 1 - 12) = 0 := by omega
  have h3 : n / 2 ^ 2 % 2 ^ (6 + 1 - 2) = b := by omega
  have h4 : n / 2 ^ 7 % 2 ^ (11 + 1 - 7) = rd := by omega
  simp only [rvcExpand, h0, rvcStack, parcel, h1, h2, h3, h4, hb0, decide_false]

theorem exists_rvcExpand_mv {rd b : Nat} (hn : n = 8 * 2 ^ 12 + rd * 2 ^ 7 + b * 2 ^ 2 + 2) (hd : rd < 32) (hb : b < 32) (hb0 : b ≠ 0) :
    ∃ m, rvcExpand n = some (BitVec.ofNat 32 m) ∧ m = 0x33 + rd * 2 ^ 7 + b * 2 ^ 20 := by
  obtain ⟨m, hm⟩ : ∃ m, m = 0x33 + rd * 2 ^ 7 + b * 2 ^ 20 := ⟨_, rfl⟩
  refine ⟨m, ?_, hm⟩
  rw [rvcExpand_mv hn hd hb hb0, rvR_add, hm]

/-- The fields of ADD's word. -/
theorem insnBits_add {rd b : Nat} (hd : rd < 32) (hb : b < 32) (hn : n = 0x33 + rd * 2 ^ 7 + b * 2 ^ 20) :
    insnBits (BitVec.ofNat 32 n) 6 0 = 0x33 ∧ insnBits (BitVec.ofNat 32 n) 14 12 = 0 ∧ insnBits (BitVec.ofNat 32 n) 31 25 = 0 ∧
      insnBits (BitVec.ofNat 32 n) 19 15 = 0 ∧ insnBits (BitVec.ofNat 32 n) 24 20 = b ∧ insnBits (BitVec.ofNat 32 n) 11 7 = rd := by
  have hlt : n < 2 ^ 32 := by omega
  simp only [insnBits_ofNat hlt]
  omega

/-- An instruction of 16 bits runs as the one whose spelling it is. -/
theorem State.hartInsn_short (hn : n % 4 ≠ 3) (hlt : n < 65536) (hx : rvcExpand n = some w) :
    s.hartInsn h n = (s.modHart h fun x => { x with ilen := 2 }).hartWord h (BitVec.ofNat 64 n) w := by
  rw [State.hartInsn, if_neg hn, Nat.mod_eq_of_lt hlt, hx]
  exact congrArg (fun m => State.hartWord _ h (BitVec.ofNat 64 m) w) (Nat.mod_eq_of_lt hlt)

/-- A sum with x0 that an instruction of 16 bits writes. -/
theorem State.hartDone_mv (rd b : BitVec 5) :
    (s.modHart h fun x => { x with ilen := 2 }).hartDone h (fun y => y.setReg rd
      (((s.modHart h fun x => { x with ilen := 2 }).hart h).reg 0 + ((s.modHart h fun x => { x with ilen := 2 }).hart h).reg b)) =
    s.modHart h fun y => { y.setReg rd ((s.hart h).reg b) with pc := y.pc + 2, ilen := 2 } := by
  have hreg : ((s.modHart h fun x => { x with ilen := 2 }).hart h).reg b = (s.hart h).reg b :=
    State.hart_modHart_keeps (fun x => x.reg b) fun x => rfl
  have hzero : ((s.modHart h fun x => { x with ilen := 2 }).hart h).reg 0 = 0#64 := rfl
  rw [hreg, hzero, BitVec.zero_add, State.hartDone, State.modHart_modHart]
  congr 1
  funext y
  unfold Hart.setReg
  split <;> rfl

theorem State.hartInsn_mv (rd b : BitVec 5) (hb : b ≠ 0) (hn : n = 8 * 2 ^ 12 + rd.toNat * 2 ^ 7 + b.toNat * 2 ^ 2 + 2) :
    s.hartInsn h n = .next (s.modHart h fun y => { y.setReg rd ((s.hart h).reg b) with pc := y.pc + 2, ilen := 2 }) := by
  have hd := rd.isLt
  have hb' := b.isLt
  have hb0 : b.toNat ≠ 0 := fun e => hb (BitVec.eq_of_toNat_eq e)
  obtain ⟨m, hx, hm⟩ := exists_rvcExpand_mv hn hd hb' hb0
  obtain ⟨h0, h1, h2, h3, h4, h5⟩ := insnBits_add hd hb' hm
  rw [State.hartInsn_short (by omega) (by omega) hx, State.hartWord_add h0 h1 h2, h3, h4, h5, BitVec.ofNat_toNat,
    BitVec.setWidth_eq, BitVec.ofNat_toNat, BitVec.setWidth_eq]
  exact congrArg _ (State.hartDone_mv rd b)

end

end Sys2Proof.Machine
end

section
/-! Every word outside SYSTEM has an effect (log 25): each of a hart's functions ends in a next state. -/

namespace Sys2Proof.Machine

/-- An outcome that is a next state. -/
def Out.goes (o : Out) : Prop := ∃ t, o = .next t

theorem Out.goes_ite {p : Prop} [Decidable p] {a b : Out} (ha : a.goes) (hb : b.goes) : Out.goes (if p then a else b) := by
  split
  · exact ha
  · exact hb

section
variable (s : State) (h : Nat)

theorem State.hartIllegal_goes (insn : Word64) : (s.hartIllegal h insn).goes := ⟨_, rfl⟩

theorem State.hartResult_goes (insn : Word64) (rd : BitVec 5) (v : Option Word64) : (s.hartResult h insn rd v).goes := by
  cases v <;> exact ⟨_, rfl⟩

theorem State.hartMade_goes (insn : Word64) (x : Option Hart) : (s.hartMade h insn x).goes := by
  cases x <;> exact ⟨_, rfl⟩

theorem State.hartAccess_goes (w : Who) (kind va n cause : Nat) {k : State → List (Nat × Nat × Word64) → Out} {bad : State → Out}
    (hk : ∀ t l, (k t l).goes) (hbad : ∀ t, (bad t).goes) : (s.hartAccess h w kind va n cause k bad).goes := by
  unfold State.hartAccess
  split
  · exact hk _ _
  · exact ⟨_, rfl⟩
  · exact ⟨_, rfl⟩
  · exact hbad _
  · exact ⟨_, rfl⟩
  · exact ⟨_, rfl⟩

theorem State.hartLoadTo_goes (w : Who) (kind : Nat) (va : Word64) (n : Nat) (put : Hart → Word64 → Hart) :
    (s.hartLoadTo h w kind va n put).goes := s.hartAccess_goes h w kind _ n 13 (fun _ _ => ⟨_, rfl⟩) fun _ => ⟨_, rfl⟩

theorem State.hartLoad_goes (rd : BitVec 5) (va : Word64) (log2 : Nat) (signed : Bool) : (s.hartLoad h rd va log2 signed).goes := by
  unfold State.hartLoad State.hartLoadAs
  exact s.hartLoadTo_goes h _ 0 va _ _

theorem State.hartStoreOf_goes (w : Who) (va : Word64) (bs : List Byte) : (s.hartStoreOf h w va bs).goes :=
  s.hartAccess_goes h w 1 _ _ 15 (fun _ _ => ⟨_, rfl⟩) fun _ => ⟨_, rfl⟩

theorem State.hartHome_goes (kind n cause align : Nat) (va : Word64) {k : State → Nat → Word64 → Nat → Out} {bad : State → Out}
    (hk : ∀ t pa e old, (k t pa e old).goes) (hbad : ∀ t, (bad t).goes) : (s.hartHome h kind n cause align va k bad).goes := by
  unfold State.hartHome
  split
  · exact ⟨_, rfl⟩
  · refine s.hartAccess_goes h _ kind _ n cause (fun t l => ?_) hbad
    obtain ⟨pa, m, e⟩ := l.headD default
    dsimp only
    split
    · exact hk _ _ _ _
    · exact ⟨_, rfl⟩

theorem State.hartAmo_goes (op : AmoOp) (rd rs : BitVec 5) (va : Word64) (wide : Bool) : (s.hartAmo h op rd rs va wide).goes := by
  unfold State.hartAmo
  exact s.hartHome_goes h 3 _ 15 6 va (fun _ _ _ _ => ⟨_, rfl⟩) fun _ => ⟨_, rfl⟩

theorem State.hartLr_goes (rd : BitVec 5) (va : Word64) (wide : Bool) : (s.hartLr h rd va wide).goes := by
  unfold State.hartLr
  exact s.hartHome_goes h 0 _ 13 4 va (fun _ _ _ _ => ⟨_, rfl⟩) fun _ => ⟨_, rfl⟩

theorem State.hartSc_goes (rd rs : BitVec 5) (va : Word64) (wide : Bool) : (s.hartSc h rd rs va wide).goes := by
  unfold State.hartSc
  exact s.hartHome_goes h 1 _ 15 6 va (fun _ _ _ _ => ⟨_, rfl⟩) fun _ => ⟨_, rfl⟩

theorem State.hartAtomic_goes (insn : Word64) (w : Word) : (s.hartAtomic h insn w).goes := by
  unfold State.hartAtomic
  refine Out.goes_ite (s.hartIllegal_goes h insn) ?_
  split
  · exact Out.goes_ite (s.hartLr_goes h _ _ _) (s.hartIllegal_goes h insn)
  · exact s.hartSc_goes h _ _ _ _
  · split
    · exact s.hartAmo_goes h _ _ _ _ _
    · exact s.hartIllegal_goes h insn

theorem State.hartCbo_goes (insn : Word64) (k : Nat) (va : Word64) : (s.hartCbo h insn k va).goes := by
  unfold State.hartCbo
  dsimp only
  refine Out.goes_ite (s.hartIllegal_goes h insn) (Out.goes_ite ⟨_, rfl⟩ ?_)
  have hcheck := s.hartAccess_goes h (s.hart h).who 0 (va &&& ~~~63).toNat 64 15 (fun t _ => ⟨t.hartDone h id, rfl⟩) fun t => ⟨t.hartDone h id, rfl⟩
  split
  · exact hcheck
  · exact hcheck
  · exact hcheck
  · exact s.hartStoreOf_goes h _ _ _
  · exact s.hartIllegal_goes h insn

theorem State.hartMisc_goes (insn : Word64) (w : Word) : (s.hartMisc h insn w).goes := by
  unfold State.hartMisc
  split
  · exact Out.goes_ite ⟨_, rfl⟩ ⟨_, rfl⟩
  · exact ⟨_, rfl⟩
  · exact Out.goes_ite (s.hartCbo_goes h insn _ _) (s.hartIllegal_goes h insn)
  · exact s.hartIllegal_goes h insn

theorem State.vecAccess_goes (store ff : Bool) (l : List VElem) (s : State) : (s.vecAccess h store ff l).goes := by
  induction l generalizing s with
  | nil => exact ⟨_, rfl⟩
  | cons e rest ih =>
    unfold State.vecAccess
    dsimp only
    split
    · exact Out.goes_ite (ih _) (ih _)
    · exact Out.goes_ite (ih _) (ih _)
    · exact ⟨_, rfl⟩
    · exact Out.goes_ite ⟨_, rfl⟩ ⟨_, rfl⟩
    · exact Out.goes_ite ⟨_, rfl⟩ ⟨_, rfl⟩
    · exact Out.goes_ite ⟨_, rfl⟩ ⟨_, rfl⟩

theorem State.hartVecMem_goes (insn : Word64) (w : Word) : (s.hartVecMem h insn w).goes := by
  unfold State.hartVecMem
  dsimp only
  split
  · exact State.vecAccess_goes h _ _ _ s
  · exact s.hartIllegal_goes h insn

theorem State.hartFpMem_goes (insn : Word64) (w : Word) : (s.hartFpMem h insn w).goes := by
  unfold State.hartFpMem
  dsimp only
  split
  · exact Out.goes_ite (s.hartIllegal_goes h insn) (s.hartVecMem_goes h insn w)
  · exact Out.goes_ite (s.hartIllegal_goes h insn) (Out.goes_ite (s.hartStoreOf_goes h _ _ _) (s.hartLoadTo_goes h _ _ _ _ _))

theorem State.hartWord_goes (insn : Word64) {w : Word} (hw : insnBits w 6 0 ≠ 0x73) : (s.hartWord h insn w).goes := by
  have hno := s.hartIllegal_goes h insn
  have hresult := s.hartResult_goes h insn (BitVec.ofNat 5 (insnBits w 11 7))
  unfold State.hartWord
  dsimp only
  split
  · exact hresult _
  · exact hresult _
  · exact ⟨_, rfl⟩
  · exact Out.goes_ite ⟨_, rfl⟩ hno
  · split
    · exact ⟨_, rfl⟩
    · exact hno
  · exact Out.goes_ite hno (s.hartLoad_goes h _ _ _ _)
  · exact Out.goes_ite (s.hartStoreOf_goes h _ _ _) hno
  · exact hresult _
  · exact hresult _
  · exact hresult _
  · exact Out.goes_ite (hresult _) (hresult _)
  · exact s.hartMisc_goes h insn w
  · exact s.hartAtomic_goes h insn w
  · exact absurd ‹_› hw
  · exact s.hartFpMem_goes h insn w
  · exact s.hartFpMem_goes h insn w
  · exact s.hartMade_goes h insn _
  · exact s.hartMade_goes h insn _
  · exact s.hartMade_goes h insn _
  · exact s.hartMade_goes h insn _
  · exact s.hartMade_goes h insn _
  · exact s.hartMade_goes h insn _
  · exact hno

end

end Sys2Proof.Machine
end

section
/-! What a kindling hart's instruction does (R243, R250, R424 to R427), and the commands that write tables (R315, R428). -/

namespace Sys2Proof.Machine

/-! ### Accesses -/

section
variable {s t : State} {h n cause align : Nat} {w : Who} {kind va : Nat} {k : State → List (Nat × Nat × Word64) → Out} {bad : State → Out}

theorem State.hartAccess_ok {l : List (Nat × Nat × Word64)} (hl : s.hartLocate h w kind va n = (t, .ok l)) :
    s.hartAccess h w kind va n cause k bad = k t l := by rw [State.hartAccess, hl]

theorem State.hartAccess_page {a : Nat} (hl : s.hartLocate h w kind va n = (t, .page a)) :
    s.hartAccess h w kind va n cause k bad = .next (t.modHart h fun y => y.enter false cause ⟨BitVec.ofNat 64 a, 0, w.2⟩) := by
  rw [State.hartAccess, hl]
  rfl

theorem State.hartAccess_guest {a g : Nat} (hl : s.hartLocate h w kind va n = (t, .guest a g)) :
    s.hartAccess h w kind va n cause k bad = .next (t.modHart h fun y => y.enter false (cause + 8) ⟨BitVec.ofNat 64 a, g, true⟩) := by
  rw [State.hartAccess, hl]
  rfl

theorem State.hartAccess_absent (hl : s.hartLocate h w kind va n = (t, .absent)) :
    s.hartAccess h w kind va n cause k bad =
      .next (t.modHart h fun y => y.enter false (accessCause cause) ⟨BitVec.ofNat 64 va, 0, w.2⟩) := by
  rw [State.hartAccess, hl]
  rfl

theorem State.hartAccess_bad {tag : Nat} (hl : s.hartLocate h w kind va n = (t, .bad (some tag))) :
    s.hartAccess h w kind va n cause k bad = bad (t.faultLater tag) := by rw [State.hartAccess, hl]

theorem State.hartHome_misaligned {va : Word64} {k : State → Nat → Word64 → Nat → Out} (hn : va.toNat % n ≠ 0) :
    s.hartHome h kind n cause align va k bad = .next (s.modHart h fun x => x.raised align va) := by rw [State.hartHome, if_pos hn]

theorem State.hartHome_aligned {va : Word64} {k : State → Nat → Word64 → Nat → Out} (hn : va.toNat % n = 0) :
    s.hartHome h kind n cause align va k bad = s.hartAccess h (s.hart h).who kind va.toNat n cause
      (fun s l =>
        if (s.hartFlush h).hartFlushed h then
          k ((s.hartFlush h).modHart h fun x => { x with hold := max x.hold ((s.hartFlush h).completesAt h (l.headD default).1 n) })
            (l.headD default).1 (l.headD default).2.2 (natOfBytes ((s.hartFlush h).latestBytes (l.headD default).1 n))
        else .next (s.hartFlush h))
      bad := by
  rw [State.hartHome, if_neg (by omega)]

end

/-- A loaded value is extended the same from a register as from memory. -/
theorem hartExtend_toNat {n : Nat} (hn : n ≤ 8) (signed : Bool) (v : Nat) :
    hartExtend signed n (BitVec.ofNat 64 v).toNat = hartExtend signed n v := by
  have hdvd : 2 ^ (8 * n) ∣ 2 ^ 64 := Nat.pow_dvd_pow 2 (by omega)
  have hmod : v % 2 ^ 64 % 2 ^ (8 * n) = v % 2 ^ (8 * n) := Nat.mod_mod_of_dvd v hdvd
  have hbits : BitVec.ofNat (8 * n) (v % 2 ^ 64) = BitVec.ofNat (8 * n) v := BitVec.eq_of_toNat_eq (by rw [BitVec.toNat_ofNat, BitVec.toNat_ofNat, hmod])
  rw [hartExtend, hartExtend, BitVec.toNat_ofNat, hmod, hbits]

section
variable {s t : State} {h : Nat}

theorem State.hartLoad_eq {k : Nat} (hk : k < 4) (rd : BitVec 5) (va : Word64) (signed : Bool) :
    s.hartLoad h rd va k signed = s.hartAccess h (s.hart h).who 0 va.toNat (2 ^ k) 13
      (fun t l => .next ((t.hartBytes h l).2.hartDone h fun y => y.setReg rd (hartExtend signed (2 ^ k) (t.hartBytes h l).1)))
      (fun t => .next (t.free.2.hartDone h fun y => y.setReg rd (hartExtend signed (2 ^ k) t.free.1.toNat))) := by
  have hn : 2 ^ k ≤ 8 := Nat.pow_le_pow_right (n := 2) (by decide) (by omega : k ≤ 3)
  rw [State.hartLoad, State.hartLoadAs, Nat.mod_eq_of_lt hk, State.hartLoadTo]
  simp only [hartExtend_toNat hn]
  rfl

theorem State.hartStore_eq {k : Nat} (hk : k < 4) (rs : BitVec 5) (va : Word64) :
    s.hartStore h rs va k = s.hartAccess h (s.hart h).who 1 va.toNat (2 ^ k) 15
      (fun t l => .next ((t.storePieces (.hart h) (t.hartTag h (s.hart h).who) none false l
        (bytesOfNat (2 ^ k) ((s.hart h).reg rs).toNat)).2.hartDone h id))
      (fun t => .next (t.hartDone h id)) := by
  rw [State.hartStore, State.hartStoreAs, Nat.mod_eq_of_lt hk, State.hartStoreOf, bytesOfNat_length]
  rfl

/-- An AMO that is located: it waits for the hart's own writes, and then reads and writes at home (R243, R250). -/
theorem State.hartAmo_located {op : AmoOp} {rd rs : BitVec 5} {va : Word64} {wide : Bool} {n pa m : Nat} {e : Word64}
    {l : List (Nat × Nat × Word64)} (hn : n = if wide then 8 else 4) (ha : va.toNat % n = 0)
    (hl : s.hartLocate h (s.hart h).who 3 va.toNat n = (t, .ok ((pa, m, e) :: l))) :
    let u := t.hartFlush h
    let v := u.modHart h fun y => { y with hold := max y.hold (u.completesAt h pa n) }
    let old := natOfBytes (v.latestBytes pa n)
    s.hartAmo h op rd rs va wide = if u.hartFlushed h then
      .next ((v.putHome (.hart h) (v.hartTag h (v.hart h).who) none pa e (bytesOfNat n (amoNew op n old ((v.hart h).reg rs).toNat))).2.hartDone h
        fun y => y.setReg rd (hartExtend true n old)) else .next u := by
  subst hn
  intro u v old
  rw [State.hartAmo, State.hartHome_aligned ha, State.hartAccess_ok hl]
  rfl

end

/-! ### CSR instructions -/

section
variable {s : State} {h n : Nat} {c : NkCsr} {insn v : Word64} {rd : BitVec 5} {write : Bool} {op : CsrOp}

theorem State.csrInsn_custom (hr : (s.hart h).csrRefused (nkNum c) write = none) :
    s.csrInsn h insn (nkNum c) op v write rd =
      if write then s.csrWrite h c (op.value (s.csrValue h c) v) fun x => x.setReg rd (s.csrValue h c)
      else .next (s.hartDone h fun x => x.setReg rd (s.csrValue h c)) := by
  have hhas : (s.hart h).hasCsr h (nkNum c) = true := by simp [Hart.hasCsr, nkOf_nkNum]
  simp only [State.csrInsn, hhas, if_true, hr, nkOf_nkNum]

theorem State.csrInsn_refused {e : Nat} (hhas : (s.hart h).hasCsr h n = true) (hr : (s.hart h).csrRefused n write = some e) :
    s.csrInsn h insn n op v write rd = .next (s.modHart h fun x => x.raised e insn) := by
  simp only [State.csrInsn, hhas, if_true, hr]

/-- A standard CSR that the hart holds and may name. -/
theorem State.csrInsn_standard {old : Word64} (hn : nkOf n = none) (hv : (s.hart h).virt = false) (hf : freeCounter n = false)
    (hhas : ((s.hart h).csrGet h 0 n).isSome = true) (hget : (s.hart h).csrGet h s.time n = some old)
    (hr : (s.hart h).csrRefused n write = none) :
    s.csrInsn h insn n op v write rd =
      .next (s.hartDone h fun x => (if write then x.csrPut n (op.value old v) else x).setReg rd old) := by
  have hhas : (s.hart h).hasCsr h n = true := by simp [Hart.hasCsr, hhas]
  have hfor : csrFor (s.hart h).virt n = n := by simp [csrFor, hv]
  simp only [State.csrInsn, hhas, if_true, hr, hn, hfor, hf, Bool.false_eq_true, if_false, hget, Option.getD_some]

end

theorem satpTaken_iff (v : Word64) : satpTaken 0x180 v = true ↔
    v.toNat / 2 ^ 60 ∈ [0, 8, 9, 10] ∨ (v.toNat / 2 ^ 60 = 14 ∧ v.toNat / 2 ^ 56 % 16 = 0) := by
  have hv := v.isLt
  have hmode : satpMode v = v.toNat / 2 ^ 60 := by
    rw [satpMode, bits64]
    omega
  simp [satpTaken, hmode, bits64, or_assoc]

section
variable {s : State} {h : Nat} {insn : Word64}

/-- A branch that is taken or not. -/
theorem State.hartDone_branch (p : Prop) [Decidable p] :
    (if p then s.modHart h fun y => { y with pc := y.pc + 8 } else s.hartDone h id) =
      s.modHart h fun y => { y with pc := y.pc + if p then 8 else BitVec.ofNat 64 y.ilen } := by
  by_cases hp : p
  · simp only [hp, if_true]
  · simp only [hp, if_false]
    rfl

theorem State.hartInsn_word (hs : s.hartLong h) {w : Word} (hw : w.toNat % 4 = 3) :
    s.hartInsn h w.toNat = s.hartWord h (BitVec.ofNat 64 w.toNat) w := by
  rw [State.hartInsn_long hs hw w.isLt, BitVec.ofNat_toNat (x := w) (m := 32), BitVec.setWidth_eq]

theorem State.hartWord_system {w : Word} (h0 : insnBits w 6 0 = 0x73) (h3 : insnBits w 14 12 = 0) :
    s.hartWord h insn w = s.hartSystem h insn w := by
  simp only [State.hartWord, h0, State.hartSys, h3]

theorem State.hartSystem_ecall (hm : (s.hart h).priv = .m) : s.hartSystem h insn 0x00000073 = .next (s.modHart h fun x => x.raised 11 0) := by
  simp [State.hartSystem, hm]

theorem State.hartSystem_mret (hm : (s.hart h).priv = .m) : s.hartSystem h insn 0x30200073 = .next (s.modHart h Hart.mret) := by
  simp [State.hartSystem, hm]

end

/-! ### A hart's instructions -/

/-- What an event of a hart that executes comes to, at the hart that has woken (R424). -/
def State.hartOp (s : State) (h : Nat) : HartOp → Out
  | .load rd va log2 signed => s.hartLoad h rd va log2 signed
  | .store rs va log2 => s.hartStore h rs va log2
  | .amo op rd rs va wide => s.hartAmo h op rd rs va wide
  | .fence w => .next (s.hartFence h w)
  | .sfenceVma va asid => s.hartSfence h 0x12000073 va asid
  | .writeSatp rs => s.hartInsn h (csrWord 0x180 1 rs.toNat 0)
  | .readTime rd => s.hartInsn h (csrWord 0xC01 2 0 rd.toNat)
  | .readHartid rd => s.hartInsn h (csrWord 0xF14 2 0 rd.toNat)
  | .csrWrite csr rs => s.hartInsn h (csrWord (nkNum csr) 1 rs.toNat 0)
  | .csrRead csr rd => s.hartInsn h (csrWord (nkNum csr) 2 0 rd.toNat)
  | .standard w => s.hartInsn h w.toNat
  | .run => s.hartRun h

theorem exec_kindling {o : State} {h : Nat} (hh : h < 32) (hhold : (o.hart h).hold ≤ o.time)
    (hwake : (o.hart h).wfi = false ∨ (o.hart h).pending o.time &&& (o.hart h).csr 0x304 ≠ 0) (op : HartOp) :
    exec (.kindlingInstruction h op) o = (o.modHart h fun y => { y with wfi := false, ilen := 4 }).hartOp h op := by
  have hgo : ¬ (Config.harts ≤ h ∨ o.time < (o.hart h).hold ∨ ((o.hart h).wfi = true ∧ (o.hart h).pending o.time &&& (o.hart h).csr 0x304 = 0)) := by
    have hharts : Config.harts = 32 := rfl
    rintro (e | e | ⟨e, e'⟩)
    · omega
    · omega
    · rcases hwake with hw | hw
      · exact absurd (hw.symm.trans e) Bool.false_ne_true
      · exact hw e'
  change execKindlingInstruction h op o = _
  rw [execKindlingInstruction, if_neg hgo]
  cases op <;> rfl

section
variable {s t : State} {h : Nat}

theorem State.hartReleased_iff : s.hartReleased h = true ↔ (s.hart h).watch = [] ∧ (s.hart h).horizon ≤ s.time := by
  simp [State.hartReleased]

theorem State.hartFence_waits (hq : ¬ ((s.hart h).watch = [] ∧ (s.hart h).horizon ≤ s.time)) : s.hartFence h true = s := by
  simp [State.hartFence, Bool.eq_false_iff.2 (mt State.hartReleased_iff.1 hq)]

theorem State.hartFence_done {b : Bool} (hq : b = false ∨ ((s.hart h).watch = [] ∧ (s.hart h).horizon ≤ s.time)) :
    s.hartFence h b = s.hartDone h id := by
  rcases hq with rfl | hq
  · rfl
  · simp [State.hartFence, State.hartReleased_iff.2 hq]

/-- SFENCE.VMA drops translations of its hart only, and all of them where it names neither address nor ASID (R426). -/
theorem State.sfence_drops (va : Option Word64) (asid : Option (BitVec 16)) :
    let t := s.sfence h va asid
    (∀ e ∈ t.tlb, e ∈ s.tlb) ∧ (∀ e ∈ s.tlb, e.unit ≠ unitHart h → e ∈ t.tlb) ∧
      (∀ e ∈ t.walks, e ∈ s.walks) ∧ (∀ e ∈ s.walks, e.unit ≠ unitHart h → e ∈ t.walks) ∧
      (va = none → asid = none → (∀ e ∈ t.tlb, e.unit ≠ unitHart h) ∧ ∀ e ∈ t.walks, e.unit ≠ unitHart h) := by
  refine ⟨fun e he => List.mem_of_mem_filter he, fun e he hu => List.mem_filter.2 ⟨he, ?_⟩,
    fun e he => List.mem_of_mem_filter he, fun e he hu => List.mem_filter.2 ⟨he, ?_⟩, ?_⟩
  · simp [hu]
  · simp [hu]
  · rintro rfl rfl
    exact ⟨fun e he => by simpa using (List.mem_filter.1 he).2, fun e he => by simpa using (List.mem_filter.1 he).2⟩

theorem State.hartSfence_of_host {va : Option Word64} {asid : Option (BitVec 16)} {insn : Word64} (hv : (s.hart h).virt = false)
    (hp : (s.hart h).priv = .m ∨ ((s.hart h).priv = .s ∧ (s.hart h).bit 0x300 20 = false)) :
    s.hartSfence h insn va asid = .next ((s.sfence h va asid).hartDone h id) := by
  rcases hp with hm | ⟨hs, ht⟩
  · simp [State.hartSfence, hv, hm]
  · simp [State.hartSfence, hv, hs, ht]

end

theorem kindlingInstructionsComplete : Claim.KindlingInstructionsComplete := by
  intro o h hh hhold hwake s x run done quiet faults guestFaults ext
  have hs : s.hartLong h := State.hartLong_start fun y => { y with wfi := false }
  have hrun : ∀ op, run op = s.hartOp h op := exec_kindling hh hhold hwake
  have hquiet : s.hartReleased h = true ↔ quiet := State.hartReleased_iff
  have hnot : ¬ quiet → s.hartReleased h = false := fun hq => Bool.eq_false_iff.2 (mt hquiet.1 hq)
  have hnk (c : NkCsr) : nkNum c < 4096 := by have := nkNum_range c; omega
  refine ⟨fun rd va k signed t hk => ?_, fun rs va k t hk => ?_, fun op rd rs va wide t => ?_, fun b hb => ?_, fun hq => ?_,
    fun hm hv rd => ?_, fun hv hp => ?_, fun hp c r => ?_, fun hv hp => ⟨fun rs => ?_, fun va asid => ?_⟩, fun v => rfl, fun c hc => ?_,
    fun t hc => ?_, fun rd a b i u => ?_, fun w hw h73 => ?_, fun hm => ?_, fun hm y c v hy => hy ▸ Hart.raised_of_m hm c v⟩
  · rw [hrun, State.hartOp, State.hartLoad_eq hk]
    exact ⟨fun l => State.hartAccess_ok, fun a => State.hartAccess_page, fun a g => State.hartAccess_guest, State.hartAccess_absent,
      fun tag => State.hartAccess_bad⟩
  · rw [hrun, State.hartOp, State.hartStore_eq hk]
    exact ⟨fun l => State.hartAccess_ok, fun a => State.hartAccess_page, fun a g => State.hartAccess_guest, State.hartAccess_absent⟩
  · intro n found amo
    have hamo : amo = s.hartAmo h op rd rs va wide := hrun _
    refine ⟨fun hn => ?_, fun hn => ⟨fun pa m e l hl => ?_, fun a hl => ?_, fun hl => ?_⟩⟩
    · rw [hamo, State.hartAmo]
      exact State.hartHome_misaligned hn
    · have hl' := State.hartAmo_located (op := op) (rd := rd) (rs := rs) rfl hn hl
      exact ⟨fun hf => hamo.trans (hl'.trans (if_neg (by simp [hf]))), fun hf => hamo.trans (hl'.trans (if_pos hf))⟩
    · rw [hamo, State.hartAmo, State.hartHome_aligned hn]
      exact State.hartAccess_page hl
    · rw [hamo, State.hartAmo, State.hartHome_aligned hn]
      exact State.hartAccess_absent hl
  · rw [hrun, State.hartOp, State.hartFence_done hb]
    rfl
  · rw [hrun, State.hartOp, State.hartFence_waits hq]
  · have htime : x.csrGet h s.time 0xC01 = some (BitVec.ofNat 64 s.time) := by simp [Hart.csrGet, hv]
    constructor
    · rw [hrun, State.hartOp, State.hartInsn_csrr hs (by decide), State.csrInsn_standard rfl hv (by decide) rfl htime
        (Hart.csrRefused_of_m hm (.inl rfl))]
      rfl
    · rw [hrun, State.hartOp, State.hartInsn_csrr hs (by decide), State.csrInsn_standard rfl hv (by decide) rfl rfl
        (Hart.csrRefused_of_m hm (.inr rfl))]
      rfl
  · have hfree (c : NkCsr) (wr : Bool) : x.csrRefused (nkNum c) wr = none := by
      rw [Hart.csrRefused_custom (nkNum_range c)]
      simp [hv, hp]
    have hwrite (c : NkCsr) (rs : BitVec 5) : run (.csrWrite c rs) = s.csrWrite h c (x.reg rs) id := by
      rw [hrun, State.hartOp, State.hartInsn_csrrw hs (hnk c), State.csrInsn_custom (hfree c true)]
      rfl
    have hread (c : NkCsr) (rd : BitVec 5) : run (.csrRead c rd) = done s fun y => y.setReg rd (s.csrValue h c) := by
      rw [hrun, State.hartOp, State.hartInsn_csrr hs (hnk c), State.csrInsn_custom (hfree c false)]
      rfl
    simp only [hwrite, hread]
    refine ⟨fun rs => rfl, fun rs => rfl, fun rs => rfl, fun rs => rfl, fun c hc rs hq => ?_, fun rs t hq ht => ?_, fun rs t u hq ht => ?_,
      fun rs u hq ht => ?_, fun rd => rfl, fun rd => rfl, fun rd => rfl, fun rd => rfl, fun rd c hc => ?_⟩
    · obtain rfl | rfl : c = .nkcmd ∨ c = .nkwake := by simpa using hc
      · simp [State.csrWrite, hnot hq]
      · simp [State.csrWrite, hnot hq]
    · have ht : execNkwake (x.reg rs) s = .next t := ht
      simp only [State.csrWrite, hquiet.2 hq, ht]
      rfl
    · simp only [State.csrWrite, hquiet.2 hq, ht]
      rfl
    · simp only [State.csrWrite, hquiet.2 hq, ht]
      rfl
    · obtain rfl | rfl : c = .nkcmd ∨ c = .nkwake := by simpa using hc
      · rfl
      · rfl
  · have hno (wr : Bool) : x.csrRefused (nkNum c) wr = some 2 := by
      rw [Hart.csrRefused_custom (nkNum_range c)]
      rcases hp with hu | ⟨hs', hv⟩
      · simp [hu]
      · simp [hs', hv]
    have hhas : x.hasCsr h (nkNum c) = true := by simp [Hart.hasCsr, nkOf_nkNum]
    constructor
    · rw [hrun, State.hartOp, State.hartInsn_csrrw hs (hnk c), State.csrInsn_refused hhas (hno true)]
    · rw [hrun, State.hartOp, State.hartInsn_csrr hs (hnk c), State.csrInsn_refused hhas (hno false)]
  · rw [hrun, State.hartOp, State.hartInsn_csrrw hs (by decide), State.csrInsn_standard rfl hv (by decide) rfl rfl (Hart.csrRefused_satp hv hp)]
    refine congrArg (fun f => (.next (s.hartDone h f) : Out)) (funext fun y => ?_)
    simp only [if_true, Hart.setReg_zero, Hart.csrPut, CsrOp.value, satpTaken_iff, x]
  · rw [hrun, State.hartOp, State.hartSfence_of_host hv hp]
    exact State.sfence_drops va asid
  · rw [hrun, State.hartOp, State.hartRun, hc]
  · intro found
    have hstart : run .run = s.hartParcel h x.pc fun s lo =>
        if lo % 4 = 3 then s.hartParcel h (x.pc + 2) fun s hi => s.hartInsn h (lo + 65536 * hi) else s.hartInsn h lo := by
      rw [hrun, State.hartOp, State.hartRun, hc]
    refine ⟨fun l lo u hl hlo => ⟨fun h3 => ?_, fun v l' hi w h3 hl' hhi => ?_⟩, fun a hl => ?_, fun hl => ?_⟩
    all_goals rw [hstart, State.hartParcel]
    · refine (State.hartAccess_ok hl).trans ?_
      rw [hlo]
      exact if_neg h3
    · refine (State.hartAccess_ok hl).trans ?_
      rw [hlo]
      refine (if_pos h3).trans ?_
      rw [State.hartParcel]
      refine (State.hartAccess_ok hl').trans ?_
      rw [hhi]
    · exact State.hartAccess_page hl
    · rw [State.hartAccess_absent hl, BitVec.ofNat_toNat, BitVec.setWidth_eq]
      rfl
  · simp only [hrun, State.hartOp]
    refine ⟨?_, ?_, ?_, fun hd hb => ?_⟩
    · exact State.hartInsn_lui hs u rd (by simp only [toNat_append_eq, BitVec.ofNat_eq_ofNat, BitVec.toNat_ofNat]; omega)
    · exact State.hartInsn_addi hs i a rd (by simp only [toNat_append_eq, BitVec.ofNat_eq_ofNat, BitVec.toNat_ofNat]; omega)
    · rw [State.hartInsn_beq hs a b (by simp only [toNat_append_eq, BitVec.ofNat_eq_ofNat, BitVec.toNat_ofNat]; omega)]
      exact congrArg _ (State.hartDone_branch _)
    · exact State.hartInsn_mv rd b hb (by simp only [toNat_append_eq, BitVec.ofNat_eq_ofNat, BitVec.toNat_ofNat]; omega)
  · rw [hrun, State.hartOp, State.hartInsn_word hs hw]
    exact s.hartWord_goes h _ (by simpa [insnBits] using h73)
  · simp only [hrun, State.hartOp]
    constructor
    · rw [State.hartInsn_word hs (by decide), State.hartWord_system (by decide) (by decide), State.hartSystem_ecall hm]
    · rw [State.hartInsn_word hs (by decide), State.hartWord_system (by decide) (by decide), State.hartSystem_mret hm]

theorem State.tableTo_ok {s t : State} {dest blk : Nat} {bs : List Byte} {l : List (Nat × Nat × Word64)} {n : Nat} (hn : bs.length = n)
    (hl : s.locatePhys 1 (piecesOf dest n) = (t, .ok l)) :
    s.tableTo dest blk bs = .next ((t.storePieces .engine none none true l bs).2.cmdStatus blk 0) := by
  rw [State.tableTo, hn, hl]
  rfl

theorem State.tableTo_absent {s t : State} {dest blk : Nat} {bs : List Byte} {n : Nat} (hn : bs.length = n)
    (hl : s.locatePhys 1 (piecesOf dest n) = (t, .absent)) : s.tableTo dest blk bs = .next (t.cmdStatus blk stFault) := by
  rw [State.tableTo, hn, hl]

theorem length_flatMap_bytesOfNat (l : List Nat) (f : Nat → Nat) (n : Nat) : (l.flatMap fun i => bytesOfNat n (f i)).length = l.length * n := by
  simp [List.length_flatMap, bytesOfNat_length]

theorem tableCommandsComplete : Claim.TableCommandsComplete := by
  intro s dest blk t
  have hretire : s.retireBytes.length = 2048 := by rw [State.retireBytes, length_flatMap_bytesOfNat _ (fun i => s.retired.getD i 0), List.length_range]
  have hhbm : hbmBytes.length = 512 := by rw [hbmBytes, length_flatMap_bytesOfNat _ (fun i => (Config.hbmHomed i).toNat), List.length_range]
  have hr : exec (.retireRead dest blk) s = s.tableTo dest blk s.retireBytes := rfl
  have hm : exec (.hbmMap dest blk) s = s.tableTo dest blk hbmBytes := rfl
  rw [hr, hm]
  exact ⟨fun l hl => State.tableTo_ok hretire hl, fun l hl => State.tableTo_ok hhbm hl, fun hl => State.tableTo_absent hretire hl,
    fun hl => State.tableTo_absent hhbm hl⟩

/-- Settles O59: each clause is the equation of the hart's instruction or register, or of the command, that it names. -/
theorem kindlingComplete : Obligations.KindlingComplete := ⟨kindlingInstructionsComplete, tableCommandsComplete⟩

end Sys2Proof.Machine
end

section
/-! Scratchpad accesses and the atomics on it (R15, R263, R270, R271, R276). -/

namespace Sys2Proof.Machine

/-! ### The check of the span -/

/-- The k bytes of every active lane lie in the span of its cord (R271). -/
def State.inSpan (s : State) (w : Wave) (k : Nat) (offs : List Int) : Prop :=
  ∀ i ∈ lanesOf w.exec, 0 ≤ offs.getD i 0 ∧ offs.getD i 0 + k ≤ (s.cordOf w).kernel.scratch

theorem spadOk_iff {size n : Nat} {o : Int} : spadOk size n o = true ↔ 0 ≤ o ∧ o + n ≤ size := by
  simp [spadOk]

/-- The check finds no active lane outside the span exactly where they all lie in it. -/
theorem State.inSpan_iff {s : State} {w : Wave} {n : Nat} {offs : List Int} : s.inSpan w n offs ↔
    ((lanesOf w.exec).filter fun l => !spadOk (s.cordOf w).kernel.scratch n (offs.getD l 0)) = [] := by
  simp only [State.inSpan, List.filter_eq_nil_iff, Bool.not_eq_true', Bool.not_eq_false, spadOk_iff]

section
variable {s t : State} {w : Wave} {f : Fields} {n : Nat} {offs : List Int}

theorem State.spadChecked_inside (hin : s.inSpan w n offs) (he : s.spadLaneErrors w n offs = (false, t)) (k : State → Out) :
    s.spadChecked w n offs k = k t := by
  simp only [State.spadChecked, Wave.spadTrap, State.inSpan_iff.1 hin, he]

theorem State.spadChecked_outside (hout : ¬ s.inSpan w n offs) (k : State → Out) :
    ∃ m info, s.spadChecked w n offs k = s.trap 0x28 m info := by
  obtain ⟨l, rest, hl⟩ := List.exists_cons_of_ne_nil (mt State.inSpan_iff.2 hout)
  refine ⟨maskOf (l :: rest), BitVec.ofNat 64 ((offs.getD l 0) % 2 ^ 19).toNat, ?_⟩
  simp only [State.spadChecked, Wave.spadTrap, hl]

/-! ### LD.S and ST.S -/

/-- What LD.S gives each active lane: the bytes of its place in the span (R270). -/
def State.spadLoaded (t : State) (w : Wave) (f : Fields) (offs : List Int) : List (Nat × List Word) :=
  (lanesOf w.exec).map fun i => (i, loadWords f.msize f.sx (cellsGet (t.cordOf w).scratch (offs.getD i 0).toNat (2 ^ f.msize)))

theorem exec_ldS (h : s.runs w (.ldS f) f .dest false = true) : exec (.ldS f) s =
    s.spadChecked w (2 ^ f.msize) (s.spadOffs w f) fun t =>
      .next (t.sent f w.exec (lanesFrom (2 ^ (f.msize - 2)) (t.spadLoaded w f (s.spadOffs w f)))) := by
  change execLdS f s = _
  rw [execLdS, State.front_runs _ h]
  simp only [State.fillLanes_eq_sent]
  rfl

/-- The operand whose lanes ST.S stores, by its width. -/
def spadData (f : Fields) : Opnd := if f.isW then f.d else f.c

theorem exec_stS (h : s.runs w (.stS f) f (if f.isW then .src (f.pol.getLsbD 2) else .dest) false = true) :
    let data := s.dataLanes w f.msize (nthPop [f.a] (spadData f)) (spadData f)
    exec (.stS f) s = s.spadChecked w (2 ^ f.msize) (s.spadOffs w f) fun t =>
      .next ((t.modCord w.cord fun c => c.spadPut ((lanesOf w.exec).flatMap fun i =>
        cellsAt ((s.spadOffs w f).getD i 0).toNat (data.getD i []))).ended f) := by
  change execStS f s = _
  rw [execStS, State.front_runs _ h]
  rfl

/-! ### ATOM.S -/

/-- One lane of ATOM.S acts on a cord: the cord after it, and the old values of the lanes so far with the lane's own (R276). -/
def Cord.spadAtom (m bits aop : Nat) (offs : List Int) (data : List Nat) (p : Cord × List (Nat × Nat)) (i : Nat) :
    Cord × List (Nat × Nat) :=
  let a := (offs.getD i 0).toNat
  let old := natOfBytes (p.1.spadGet a m)
  (p.1.spadPut (cellsAt a (bytesOfNat m (atomNew aop bits old (data.getD i 0) 0))), p.2 ++ [(i, old)])

/-- Lanes that act one after another are served in that order, each on what the one before it left. -/
theorem spadServed_foldl (m bits aop : Nat) (offs : List Int) (data : List Nat) (l : List Nat) (p : Cord × List (Nat × Nat)) :
    ∃ r, (l.foldl (Cord.spadAtom m bits aop offs data) p).2 = p.2 ++ r ∧
      spadServed m bits aop offs data l p.1 r (l.foldl (Cord.spadAtom m bits aop offs data) p).1 := by
  induction l generalizing p with
  | nil => exact ⟨[], by simp, rfl, rfl⟩
  | cons i rest ih =>
    obtain ⟨q, hq, hserved⟩ := ih (Cord.spadAtom m bits aop offs data p i)
    refine ⟨(i, natOfBytes (p.1.spadGet (offs.getD i 0).toNat m)) :: q, ?_, q, rfl, hserved⟩
    rw [List.foldl_cons, hq]
    simp [Cord.spadAtom]

/-- The offsets of ATOM.S (R263). -/
def State.atomOffs (s : State) (w : Wave) (f : Fields) : List Int := (s.srcA w (.int 32) f).map fun x => (x.toNat : Int) + f.off

/-- ATOM.S in the span, each lane within 32 aligned bytes, ends with the cord and the old values that its lanes leave. -/
theorem exec_atomS (h : s.runs w (.atomS f) f .dest false = true) (hin : s.inSpan w (atomBytes f.aop f.msize) (s.atomOffs w f))
    (hal : ∀ i ∈ lanesOf w.exec, (s.atomOffs w f).getD i 0 % 32 + atomBytes f.aop f.msize ≤ 32)
    (he : s.spadLaneErrors w (atomBytes f.aop f.msize) (s.atomOffs w f) = (false, t)) :
    let r := (lanesOf w.exec).foldl (Cord.spadAtom (atomBytes f.aop f.msize) (8 * 2 ^ f.msize) f.aop (s.atomOffs w f) (t.atomData w f))
      (t.cordOf w, [])
    exec (.atomS f) s = .next ((t.modCord w.cord fun _ => r.1).sent f w.exec (lanesFrom (2 ^ (f.msize - 2))
      (r.2.map fun x => (x.1, loadWords f.msize false (bytesOfNat (2 ^ f.msize) x.2))))) := by
  have haligned : ((lanesOf w.exec).filter fun l =>
      decide (32 < ((s.atomOffs w f).getD l 0 % 32).toNat + atomBytes f.aop f.msize)) = [] := by
    refine List.filter_eq_nil_iff.2 fun i hi => ?_
    have := hal i hi
    rw [decide_eq_true_eq]
    omega
  have hout := State.inSpan_iff.1 hin
  unfold State.atomOffs at haligned hout he
  change execAtomS f s = _
  rw [execAtomS, State.front_runs _ h]
  simp only [haligned, hout, he, List.map_nil, List.append_nil, pickTrap, State.fillLanes_eq_sent]
  rfl

end

/-- Settles O32: the check of the span passes or traps, and the lanes of ATOM.S act in the order of the fold over them. -/
theorem scratchpadInstructionsComplete : Obligations.ScratchpadInstructionsComplete := by
  intro s t w f
  refine ⟨fun h hin he => ?_, fun h hin he => ?_, fun h hout => ?_, fun h hin hal he => ?_⟩
  · exact (exec_ldS h).trans (State.spadChecked_inside hin he _)
  · exact (exec_stS h).trans (State.spadChecked_inside hin he _)
  · rw [exec_ldS h]
    exact State.spadChecked_outside hout _
  · obtain ⟨r, hr, hserved⟩ := spadServed_foldl (atomBytes f.aop f.msize) (8 * 2 ^ f.msize) f.aop (s.atomOffs w f) (t.atomData w f)
      (lanesOf w.exec) (t.cordOf w, [])
    rw [exec_atomS h hin hal he, hr]
    exact ⟨_, r, hserved, rfl⟩

end Sys2Proof.Machine
end

section
/-! Streams: STRM.DEF, STRM.GO, STRM.STOP, and a fetch whose elements are all readable (R291 to R294). -/

namespace Sys2Proof.Machine

section
variable {s t : State} {w : Wave} {f : Fields}

/-! ### Instructions -/

/-- The wave after STRM.DEF of stream `id`: its former walk has ended, and it has the new record (R294). -/
def Wave.defStream (w : Wave) (id : Nat) (b : List Byte) : Wave :=
  { w.stopStream id with
    streams := ((w.stopStream id).streams.filter fun x => x.id != id) ++ [(⟨id, b, .stopped, false, none, 0, []⟩ : Stream)] }

theorem exec_strmDef {b : List Byte} (h : s.runs w (.strmDef f) f .dest false = true)
    (hl : s.waveLoad w w.sup (s.readS w (.int 64) f.a).toNat 64 0 = (t, .ok b)) : exec (.strmDef f) s =
    if strmValid (w.streams.map fun x => (x.id, x.bytes)) (f.ebits 2 0) b = true then
      .next (t.modMe fun x => (x.defStream (f.ebits 2 0) b).after f)
    else t.trap 0x2A w.exec (streamInfo 0 false 3 0) := by
  change execStrmDef f s = _
  rw [execStrmDef, State.front_runs _ h]
  simp only [hl, State.take]
  cases strmValid (w.streams.map fun x => (x.id, x.bytes)) (f.ebits 2 0) b <;> rfl

/-- The walk of a stream starts at element 0 with its base, its queue empty (R292, R294). -/
def Wave.goStream (w : Wave) (id : Nat) (rec : List Byte) (base : Nat) : Wave :=
  { w with q := modAt w.q (strmQueue rec) fun _ => [] }.modStream id fun y =>
    { y with run := .running, sup := w.sup, base := some base, pos := 0, part := [] }

/-- The state after STRM.GO has read the base. -/
def State.goneStream (s : State) (wid : WaveId) (f : Fields) (id : Nat) (rec : List Byte) (base : Nat) : State :=
  (s.startIndex wid id).modMe fun w => (w.goStream id rec base).after f

theorem exec_strmGo {x : Stream} (h : s.runs w (.strmGo f) f .dest false = true)
    (hx : (w.streams.find? fun x => x.id == (s.readS w (.int 32) f.a).toNat) = some x) :
    let start := fun (t : State) (base : Nat) => Host.Outcome.next (t.goneStream w.id f (s.readS w (.int 32) f.a).toNat x.bytes base)
    exec (.strmGo f) s = if strmFlag x.bytes 1 = true then
        State.take (s.waveLoad w w.sup ((s.cordOf w).frame + numAt x.bytes 0 2) 8 0) 0 fun t bs => start t (natOfBytes bs)
      else start s (numAt x.bytes 0 8) := by
  change execStrmGo f s = _
  rw [execStrmGo, State.front_runs _ h]
  simp only [hx]
  rfl

theorem exec_strmStop (h : s.runs w (.strmStop f) f .dest false = true) :
    exec (.strmStop f) s = .next (s.setMe ((w.stopStream (s.readS w (.int 32) f.a).toNat).after f)) := by
  change execStrmStop f s = _
  rw [execStrmStop, State.front_runs _ h]
  exact s.finish_eq w f _ (State.runs_me h)

/-! ### A fetch -/

/-- The bases of a stream and of its index streams have been read (R292). -/
def State.chainStarted (s : State) (wid : WaveId) (w : Wave) (n : Nat) : State :=
  (w.indexChain 9 n).foldl (fun s i => s.startStream wid i) s

theorem exec_streamElementFetch {wid : WaveId} {n : Nat} {x y z} {u : State} {l : List Nat} (hw : s.waveAt wid = some w)
    (hx : (w.streams.find? fun x => x.id == n) = some x) (hroom : w.streamRoom x = true)
    (hy : (s.chainStarted wid w n).waveAt wid = some y) (hz : (y.streams.find? fun x => x.id == n) = some z)
    (hroom' : y.streamRoom z = true) (hbase : strmFlag z.bytes 1 = true → z.base.isSome = true)
    (he : State.elems y z (96 - z.part.length) z.pos (s.chainStarted wid w n) = (u, l, none)) :
    exec (.streamElementFetch wid n) s = .next (u.modWave wid fun y => y.takeElems z l) := by
  have hready : (strmFlag z.bytes 1 && z.base.isNone) = false := by
    cases hflag : strmFlag z.bytes 1
    · rfl
    · simpa using hbase hflag
  have hstop : (!y.streamRoom z || (strmFlag z.bytes 1 && z.base.isNone)) = false := by rw [hroom', hready]; rfl
  unfold State.chainStarted at hy he
  change execStreamElementFetch wid n s = _
  simp only [execStreamElementFetch, hw, hx, hroom, Bool.not_true, Bool.false_eq_true, if_false, hy, Option.bind_some, hz,
    Option.map_some, hstop]
  rw [show laneCount = 96 from rfl, he]

end

/-- Settles O40: one lemma for each instruction, and one for a fetch that nothing stops. -/
theorem streamsComplete : Obligations.StreamsComplete := by
  intro s w f
  refine ⟨fun t b h hl => ⟨fun hv => ?_, fun hv => ?_⟩, fun x h hx hflag => ?_, fun x t bs h hx hflag hl => ?_, exec_strmStop,
    fun wid n x y z u l hw hx hroom hy hz hroom' hbase he => exec_streamElementFetch hw hx hroom hy hz hroom' hbase he⟩
  · exact (exec_strmDef h hl).trans (if_pos hv)
  · exact (exec_strmDef h hl).trans (if_neg (Bool.eq_false_iff.1 hv))
  · exact (exec_strmGo h hx).trans (if_neg (Bool.eq_false_iff.1 hflag))
  · rw [exec_strmGo h hx, if_pos hflag, hl]
    rfl

end Sys2Proof.Machine
end

section
/-! The base case of the memory's canonical form (R430). -/

namespace Sys2Proof.Machine

/-- Settles O6: reset leaves no page of memory written, and an empty memory is canonical. -/
theorem resetMemoryIsCanonical : Obligations.ResetMemoryIsCanonical := rfl

end Sys2Proof.Machine
end

section
/-! Rays and textures (R380 to R394): a unit that serves every lane sends their words to D; the traversal's tests refuse a ray
that R381 calls dead. -/

namespace Sys2Proof.Machine

/-! ### A unit that serves its lanes (R62, R380) -/

section
variable {one : State → Nat → State × Acc (List Word)}

/-- A unit that serves every lane ends in the state after the last, with each lane's words in order. -/
theorem foldl_lanesServed {ls : List Nat} {s t : State} {r : List (Nat × List Word)} (h : lanesServed one ls s r t)
    (acc : List (Nat × Acc (List Word))) :
    ls.foldl (fun (p : State × List (Nat × Acc (List Word))) l => ((one p.1 l).1, p.2 ++ [(l, (one p.1 l).2)])) (s, acc) =
      (t, acc ++ r.map fun x => (x.1, .ok x.2)) := by
  induction ls generalizing s r acc with
  | nil =>
    obtain ⟨rfl, rfl⟩ := h
    simp
  | cons l ls ih =>
    obtain ⟨v, u, q, hone, rfl, hrest⟩ := h
    simp only [List.foldl_cons, hone, ih hrest, List.map_cons, List.append_assoc, List.singleton_append]

/-- Lanes that are served neither trap nor wait nor meet a poisoned sector: their words set out for D (R151). -/
theorem State.unitLanes_served {s t : State} {w : Wave} {r : List (Nat × List Word)} (f : Fields) (n : Nat)
    (h : lanesServed one (lanesOf w.exec) s r t) : s.unitLanes w f n one = .next (t.sent f w.exec (lanesFrom n r)) := by
  have hfold := foldl_lanesServed h []
  simp only [List.nil_append] at hfold
  unfold State.unitLanes
  simp only [hfold]
  simpa [List.filterMap_map, Function.comp_def, pickTrap] using t.fillLanes_eq_sent f _ _

/-- A unit that answers every lane at once serves its lanes in the state as it is. -/
theorem lanesServed_pure (words : Nat → List Word) (ls : List Nat) (s : State) :
    lanesServed (fun s l => (s, .ok (words l))) ls s (ls.map fun l => (l, words l)) s := by
  induction ls with
  | nil => exact ⟨rfl, rfl⟩
  | cons l ls ih => exact ⟨_, _, _, rfl, rfl, ih⟩

end

/-- Settles O46: past its checks each instruction is its unit at work on the active lanes. -/
theorem rayAndTextureInstructionsComplete : Obligations.RayAndTextureInstructionsComplete := by
  intro s t w f r
  refine ⟨fun h hl => ?_, fun h hl => ?_, fun h => ?_, fun h hl => ?_, fun h hl => ?_, fun h hl => ?_, fun h hl => ?_, fun h hl => ?_⟩
  · exact (State.front_runs _ h).trans (State.unitLanes_served f 5 hl)
  · exact (State.front_runs _ h).trans (State.unitLanes_served f 4 hl)
  · exact (State.front_runs _ h).trans (State.unitLanes_served f 4 (lanesServed_pure _ _ s))
  · exact (State.front_runs _ h).trans (State.unitLanes_served f 5 hl)
  · exact (State.front_runs _ h).trans (State.unitLanes_served f 4 hl)
  · exact (State.front_runs _ h).trans (State.unitLanes_served f 4 hl)
  · exact (State.front_runs _ h).trans (State.unitLanes_served f 4 hl)
  · exact (State.front_runs _ h).trans (State.unitLanes_served f _ hl)

/-! ### Rays that hit nothing (R381) -/

theorem Ray.dead_iff (r : Ray) : r.dead = true ↔
    (∃ x ∈ r.o ++ r.d ++ [r.tmin, r.tmax], (f32v x).isNan = true) ∨ ∀ x ∈ r.d, (f32v x).isZero = true := by
  simp only [Ray.dead, Bool.or_eq_true, List.any_eq_true, List.all_eq_true]

theorem boxChild_dead {r : Ray} (h : r.dead = true) (n : List Byte) (c : Nat) : boxChild r n c = none := by
  simp [boxChild, h]

theorem hitChildren_dead {r : Ray} (h : r.dead = true) (n : List Byte) : hitChildren r n = [] := by
  simp only [hitChildren, boxChild_dead h]
  rfl

theorem triTest_dead {r : Ray} (h : r.dead = true) (cull : Nat) (corners : List (List Word64)) : triTest cull r corners = none := by
  simp [triTest, h]

/-- The operand A of a well-formed instruction fits the role that its entry gives A. -/
theorem role_of_wf {i : Instr} {g : Sig} {op : BitVec 8} {f : Fields} (ho : i.opFields = some (op, f)) (hs : i.sig = some g)
    (h : i.wf = true) : g.a.ok f.a = true := by
  obtain ⟨-, g', hg, hok⟩ := (wf_iff_of_opFields ho).1 h
  obtain rfl : g' = g := Option.some.inj (hg.symm.trans hs)
  simp only [Sig.ok, Bool.and_eq_true] at hok
  tauto

theorem ray_in_range {r : BitVec 8} (h : (Role.vblk 8 1 false).ok (.v r) = true) : r.toNat ≤ 248 := by
  simp only [Role.ok, Bool.and_eq_true, decide_eq_true_eq] at h
  omega

/-- Settles O47: a dead ray misses every child's box and fails the triangle test before its distance is looked at. -/
theorem deadRaysHitNothing : Obligations.DeadRaysHitNothing := by
  refine ⟨fun w r l => rfl, fun f r ha i hi hwf => ?_, fun r n cull corners h => ?_⟩
  · simp only [List.mem_cons, List.not_mem_nil, or_false] at hi
    have hrole : (Role.vblk 8 1 false).ok f.a = true := by
      rcases hi with rfl | rfl | rfl | rfl <;> exact role_of_wf rfl rfl hwf
    exact ray_in_range (ha ▸ hrole)
  · have hdead := r.dead_iff.2 h
    exact ⟨hitChildren_dead hdead n, triTest_dead hdead cull corners⟩

end Sys2Proof.Machine
end

section
/-! The cut engine's selection (R369, R370): membership of the sorted list, and the recursion of ref over a graph's sets. -/

namespace Sys2Proof.Machine

/-! ### Sorted lists -/

/-- One insertion of `sortBy` adds one entry. -/
theorem mem_insertBy {α : Type} (key : α → Nat) (x y : α) (l : List α) :
    y ∈ (l.takeWhile fun z => decide (key z < key x)) ++ [x] ++ (l.dropWhile fun z => decide (key z < key x)) ↔ y = x ∨ y ∈ l := by
  have hl : y ∈ l ↔ y ∈ (l.takeWhile fun z => decide (key z < key x)) ∨ y ∈ (l.dropWhile fun z => decide (key z < key x)) := by
    rw [← List.mem_append, List.takeWhile_append_dropWhile]
  rw [hl]
  simp only [List.mem_append, List.mem_singleton]
  tauto

theorem mem_sortBy {α : Type} (key : α → Nat) (y : α) (l : List α) : y ∈ sortBy key l ↔ y ∈ l := by
  induction l with
  | nil => rfl
  | cons x l ih => exact ((mem_insertBy key x y (sortBy key l)).trans (by rw [ih])).trans List.mem_cons.symm

/-! ### The refs of a graph (R369) -/

section
variable {v : View}

/-- ref of a set from those of the sets before it. -/
def refOf (v : View) (refs : List Bool) (m : MergeSet) : Bool := setTest v m && m.res && m.outs.all fun o => refs.getD o false

theorem refAll_append (sets : List MergeSet) (m : MergeSet) :
    refAll v (sets ++ [m]) = refAll v sets ++ [refOf v (refAll v sets) m] := by
  simp [refAll, refOf, List.foldl_append]

theorem refAll_length (sets : List MergeSet) : (refAll v sets).length = sets.length := by
  induction sets using List.reverseRecOn with
  | nil => rfl
  | append_singleton sets m ih => rw [refAll_append, List.length_append, ih, List.length_append]; rfl

/-- Later sets leave the ref of an earlier one as it is. -/
theorem refAll_getD_of_lt {sets : List MergeSet} {o : Nat} (rest : List MergeSet) (h : o < sets.length) :
    (refAll v (sets ++ rest)).getD o false = (refAll v sets).getD o false := by
  induction rest using List.reverseRecOn with
  | nil => rw [List.append_nil]
  | append_singleton rest m ih =>
    have hlen : o < (refAll v (sets ++ rest)).length := by rw [refAll_length, List.length_append]; omega
    rw [← List.append_assoc, refAll_append, List.getD_append _ _ _ _ hlen, ih]

/-- ref of a set whose outputs' sets all come before it. -/
theorem refAll_getD {sets : List MergeSet} {g : Nat} {m : MergeSet} (hm : sets[g]? = some m) (hout : ∀ o ∈ m.outs, o < g) :
    (refAll v sets).getD g false = refOf v (refAll v sets) m := by
  obtain ⟨hg, rfl⟩ := List.getElem?_eq_some_iff.1 hm
  have hsplit : sets = (sets.take g ++ [sets[g]]) ++ sets.drop (g + 1) := by simp
  have hlen : (sets.take g).length = g := by simp; omega
  have hbefore : ∀ o ∈ sets[g].outs, (refAll v sets).getD o false = (refAll v (sets.take g)).getD o false := by
    intro o ho
    have hprefix := refAll_getD_of_lt (v := v) (o := o) (sets.drop g) (by rw [hlen]; exact hout o ho)
    rwa [List.take_append_drop] at hprefix
  have hself : (refAll v sets).getD g false = refOf v (refAll v (sets.take g)) sets[g] := by
    rw [congrArg (refAll v) hsplit, refAll_getD_of_lt _ (by simp; omega), refAll_append,
      List.getD_append_right _ _ _ _ (by rw [refAll_length]; omega), refAll_length, hlen, Nat.sub_self]
    rfl
  rw [hself]
  have hall : (sets[g].outs.all fun o => (refAll v (sets.take g)).getD o false) = sets[g].outs.all fun o => (refAll v sets).getD o false := by
    rw [Bool.eq_iff_iff, List.all_eq_true, List.all_eq_true]
    exact forall₂_congr fun o ho => by rw [hbefore o ho]
  simp only [refOf, hall]

end

/-- Settles O58: selection filters by R370, and sorting keeps what is selected. -/
theorem cutSelectsTheFrontier : Obligations.CutSelectsTheFrontier := by
  intro v sets cs c
  refine ⟨?_, fun g m hm hout => ?_⟩
  · simp only [selectOf, mem_sortBy, List.mem_filter, Bool.and_eq_true, Bool.or_eq_true, beq_iff_eq, Bool.not_eq_true', noProd,
      Bool.not_eq_true]
  · simp only [refAll_getD hm hout, refOf, Bool.and_eq_true, List.all_eq_true, and_assoc]

end Sys2Proof.Machine
end

section
/-! Cut jobs (R373 to R378): submission, the job's run, and its end; the frame front's run and its end (R395 to R399). -/

namespace Sys2Proof.Machine

/-! ### Submission (R378, R428) -/

section
variable {s t : State} {w : Wave} {f : Fields}

/-- The address of CUT.GO's block. -/
def State.cutAddr (s : State) (w : Wave) (f : Fields) : Word64 :=
  s.readS w (.int 64) f.a + (lo32 (s.scalB w (.int 32) true f)).signExtend 64

theorem exec_cutGo_again {b : List Byte} (h : s.runs w (.cutGo f) f .dest false = true) (hb : w.wait = .push b) :
    exec (.cutGo f) s = s.cutEnter w f (s.cutAddr w f).toNat b := by
  change execCutGo f s = _
  rw [execCutGo, State.front_runs _ h]
  simp only [hb, State.cutAddr]

theorem exec_cutGo_first (h : s.runs w (.cutGo f) f .dest false = true) (hb : ∀ b, w.wait ≠ .push b) : exec (.cutGo f) s =
      if !s.released w then s.stall
      else if !canonical (s.cutAddr w f) then s.trap 0x20 w.exec (pageInfo (s.cutAddr w f).toNat 0 0)
      else if (s.cutAddr w f).toNat % 128 ≠ 0 then s.ret f 2
      else State.take (s.viaLoad (s.wavesVia w) (s.cutAddr w f).toNat 128) 0 fun u b => u.cutEnter w f (s.cutAddr w f).toNat b := by
  change execCutGo f s = _
  rw [execCutGo, State.front_runs _ h]
  dsimp only
  split
  · next b hw => exact absurd hw (hb b)
  · rfl

/-- A block that has been read: the die's queue has room, or it has none (R378). -/
theorem State.cutEnter_room (addr : Nat) (b : List Byte) (h : t.queuedJobs w.die < 16) :
    t.cutEnter w f addr b = (t.addJob w.die (t.tagOf w) addr w.sup b).ret f 0 :=
  if_neg (not_le.2 h)

theorem State.cutEnter_full (addr : Nat) (b : List Byte) (h : 16 ≤ t.queuedJobs w.die) :
    t.cutEnter w f addr b = if f.m.getLsbD 0 then .next (t.modMe fun w => { w with wait := .push b }) else t.ret f 1 :=
  if_pos h

end

section
variable {s t : State} {tag : Nat} {a : Word64} {blk : Nat}

/-- A context whose tables are in use (log 24). -/
def State.inUse (s : State) (tag : Nat) : Prop :=
  (s.ctx tag).st = .ready ∨ (s.ctx tag).st = .running ∨ (s.ctx tag).st = .preempted

/-- CUT_SUBMIT's wait, and the state in which it waits. -/
def cutWaitOf (tag : Nat) (a : Word64) (blk : Nat) : CutWait := ⟨0, tag, a, blk, none⟩
def State.cutWaiting (s : State) (c : CutWait) : State := { s with cutWaits := s.cutWaits ++ [c] }

theorem exec_cutSubmit_unaligned (hu : s.inUse tag) (ha : a.toNat % 128 ≠ 0) :
    exec (.cutSubmit tag a blk) s = .next (s.cmdStatus blk 4) :=
  congrArg Host.Outcome.next (if_pos ⟨hu, ha⟩)

theorem exec_cutSubmit_unused (hu : ¬ s.inUse tag) : exec (.cutSubmit tag a blk) s =
    .next (((s.cutWaiting (cutWaitOf tag a blk)).cutServed (cutWaitOf tag a blk)).cmdStatus blk 1) :=
  congrArg Host.Outcome.next ((if_neg fun h => hu h.1).trans (if_pos hu))

/-- An aligned block of a context in use waits to be read, in supervisor state. -/
theorem exec_cutSubmit_aligned (ha : a.toNat % 128 = 0) : exec (.cutSubmit tag a blk) s =
    .next ((s.cutWaiting (cutWaitOf tag a blk)).cutAgain (cutWaitOf tag a blk)) :=
  congrArg Host.Outcome.next (if_neg fun h => h.2 ha)

section
variable {c : CutWait} (hu : s.inUse c.tag) (hb : c.bytes = none)
include hu hb

theorem State.cutAgain_read {b : List Byte}
    (hl : s.viaLoad ⟨unitCut c.die, c.tag, c.die, true, .engine, none⟩ c.addr.toNat 128 = (t, .ok b)) : s.cutAgain c =
      { t with cutWaits := modWhere t.cutWaits (· == c) fun _ => { c with bytes := some b } }.cutTake { c with bytes := some b } b := by
  unfold State.inUse at hu
  simp only [State.cutAgain, hu, not_true, if_false, hb, hl]

theorem State.cutAgain_fault {x p y : Nat}
    (hl : s.viaLoad ⟨unitCut c.die, c.tag, c.die, true, .engine, none⟩ c.addr.toNat 128 = (t, .fault x p y)) :
    s.cutAgain c = (t.cutServed c).cmdStatus c.blk stFault := by
  unfold State.inUse at hu
  simp only [State.cutAgain, hu, not_true, if_false, hb, hl]

theorem State.cutAgain_wait
    (hl : s.viaLoad ⟨unitCut c.die, c.tag, c.die, true, .engine, none⟩ c.addr.toNat 128 = (t, .wait)) :
    s.cutAgain c = s.waited t := by
  unfold State.inUse at hu
  simp only [State.cutAgain, hu, not_true, if_false, hb, hl]

end

theorem State.cutTake_room {c : CutWait} {b : List Byte} (h : t.queuedJobs c.die < 16) :
    t.cutTake c b = ((t.cutServed c).addJob c.die c.tag c.addr.toNat true b).cmdStatus c.blk stOk :=
  if_neg (not_le.2 h)

theorem State.cutTake_full {c : CutWait} {b : List Byte} (h : 16 ≤ t.queuedJobs c.die) : t.cutTake c b = t :=
  if_pos h

end

/-! ### A job's result (R373 to R375) -/

section
variable {s t u : State} {rd : Reader} {a : Nat} {b vb gb : List Byte} {v : View}

theorem State.cutCompute_reserved (hz : zeroAt b 0x60 32 = false) : s.cutCompute rd a b = (s, .ok (cutFail 5 a)) :=
  if_pos (by rw [hz]; rfl)

theorem State.cutCompute_badView (hz : zeroAt b 0x60 32 = true) (hv : s.unitLoad rd (numAt b 8 8) 32 = (t, .ok vb))
    (hview : viewOf vb (BitVec.ofNat 64 (numAt b 0x38 4)) = none) :
    s.cutCompute rd a b = (t, .ok (cutFail 5 (numAt b 8 8))) := by
  simp only [State.cutCompute, hz, Bool.not_true, Bool.false_eq_true, if_false, hv, andThen, hview]

theorem State.cutCompute_badGraph (hz : zeroAt b 0x60 32 = true) (hv : s.unitLoad rd (numAt b 8 8) 32 = (t, .ok vb))
    (hview : viewOf vb (BitVec.ofNat 64 (numAt b 0x38 4)) = some v) (hg : t.unitLoad rd (numAt b 0 8) 64 = (u, .ok gb))
    (hgraph : graphOf gb = none) : s.cutCompute rd a b = (u, .ok (cutFail 4 (numAt b 0 8))) := by
  simp only [State.cutCompute, hz, Bool.not_true, Bool.false_eq_true, if_false, hv, andThen, hview, hg, hgraph]

/-- The code of a valid graph and view (R375): a bad sphere, an OUT that is too small, NODES that are too small, or done. -/
theorem cutResult_code (b : List Byte) (v : View) (sets : List MergeSet) (cs : List Cluster) :
    let sel := selectOf (refAll v sets) cs
    ((∃ c ∈ sel, sphereBad c.sphere = true) → (cutResult b v sets cs).code = 4) ∧
    ((∀ c ∈ sel, sphereBad c.sphere = false) → (cutResult b v sets cs).code =
      if jobOutmax b < sel.length then 2 else if jobNodemax b < (buildNodes sel).length then 3 else 1) := by
  intro sel
  unfold cutResult
  refine ⟨fun ⟨c, hc, hbad⟩ => ?_, fun hgood => ?_⟩
  · have hsome : (sel.find? fun c => sphereBad c.sphere).isSome = true := List.find?_isSome.2 ⟨c, hc, hbad⟩
    obtain ⟨x, hx⟩ := Option.isSome_iff_exists.1 hsome
    simp only [sel] at hx
    simp only [hx]
    rfl
  · have hnone : (sel.find? fun c => sphereBad c.sphere) = none :=
      List.find?_eq_none.2 fun c hc => by simp [hgood c hc]
    simp only [sel] at hnone
    simp only [hnone, sel]
    split
    · rfl
    · split <;> rfl

end

/-! ### A job's run and its end (R375, R376) -/

section
variable {s t u v x y : State} {die : Nat} {j : CutJob} {o : CutOut} {r : CutRun}

/-- A free engine runs the job that came first. -/
theorem exec_cutJobRun (hj : (s.jobs.find? fun j => j.die == die && !j.ran) = some j)
    (hfree : (s.jobs.filter fun j => j.die == die && j.ran && !j.posted).length < 2) (hrun : s.cutJob j = (u, .ok ())) :
    exec (.cutJobRun die) s = .next u := by
  change execCutJobRun die s = _
  simp only [execCutJobRun, hj, if_neg (not_le.2 hfree), hrun]

theorem State.cutJob_unread {a b c : Nat} (hc : s.cutCompute (State.jobReader j) j.addr j.bytes = (t, .fault a b c)) :
    s.cutJob j = t.cutFinish j (cutFail 6 c) ⟨0, 0, []⟩ := by
  simp only [State.cutJob, hc]

theorem State.cutJob_unwritten {a b c : Nat} (hc : s.cutCompute (State.jobReader j) j.addr j.bytes = (t, .ok o))
    (he : t.cutEffects (State.jobReader j) j.bytes o = (u, r, .fault a b c)) : s.cutJob j = u.cutFinish j (cutFail 6 c) r := by
  simp only [State.cutJob, hc, he]

theorem State.cutJob_written (hc : s.cutCompute (State.jobReader j) j.addr j.bytes = (t, .ok o))
    (he : t.cutEffects (State.jobReader j) j.bytes o = (u, r, .ok ())) : s.cutJob j = u.cutFinish j o r := by
  simp only [State.cutJob, hc, he]

/-- A job that is done leaves neither OUT nor NODES undefined. -/
theorem State.cutSpoil_done (rd : Reader) (b : List Byte) : s.cutSpoil rd b 1 = (s, .ok []) := rfl

/-- NODES that are too small are all that is undefined. -/
theorem State.cutSpoil_nodes {rd : Reader} {b : List Byte} {p : List Nat}
    (h : s.cutUndefined rd (numAt b 0x20 8) (128 * jobNodemax b) = (t, .ok p)) : s.cutSpoil rd b 3 = (t, .ok p) := by
  simp only [State.cutSpoil, andThen, Nat.reduceEqDiff, or_true, if_true, if_false, h, List.nil_append]

theorem State.cutFinish_counted {p c : List Nat} (hs : s.cutSpoil (State.jobReader j) j.bytes o.code = (v, .ok p))
    (hc : v.cutCounts (State.jobReader j) j.addr o r = (x, .ok c)) :
    s.cutFinish j o r = (x.jobRan j o.code (r.writes ++ p ++ c) none, .ok ()) := by
  simp only [State.cutFinish, hs, andThen, hc]

theorem State.cutFinish_uncounted {p q : List Nat} {a b c : Nat}
    (hs : s.cutSpoil (State.jobReader j) j.bytes o.code = (v, .ok p))
    (hc : v.cutCounts (State.jobReader j) j.addr o r = (x, .fault a b c))
    (hq : x.cutSpoil (State.jobReader j) j.bytes 6 = (y, .ok q)) :
    s.cutFinish j o r = (y.jobRan j 6 (r.writes ++ p ++ q) (some (r.posted, r.drops)), .ok ()) := by
  simp only [State.cutFinish, hs, andThen, hc, hq]

theorem exec_cutJobStatus_posts {a b : List Nat}
    (hj : (s.jobs.find? fun j => j.die == die && j.ran && s.allDone j.writes) = some j) (hp : j.posted = false)
    (ho : j.owed = none) (ha : s.cutStore (State.jobReader j) (j.addr + 0x50) (bytesOfNat 8 s.time) = (t, .ok a))
    (hb : t.cutStore (State.jobReader j) (j.addr + 0x3C) (bytesOfNat 4 j.code) = (u, .ok b)) :
    let v := b.foldl (fun s i => s.notBefore ((a.map s.ctimeOf).foldl max 0) i) u
    let l := v.jobs.map fun x => if x.id = j.id then { x with posted := true, writes := a ++ b } else x
    exec (.cutJobStatus die) s = .next { v with jobs := l } := by
  intro v l
  change execCutJobStatus die s = _
  simp only [execCutJobStatus, hj, hp, ho, Bool.not_false, if_true, andThen, ha, hb, List.nil_append, l, v]

theorem exec_cutJobStatus_joins (hj : (s.jobs.find? fun j => j.die == die && j.ran && s.allDone j.writes) = some j)
    (hp : j.posted = true) (ht : s.joinDec j.tag (jobJoin j.bytes) = (t, true)) :
    exec (.cutJobStatus die) s = .next { t with jobs := t.jobs.filter fun x => x.id != j.id } := by
  change execCutJobStatus die s = _
  simp only [execCutJobStatus, hj, hp, Bool.not_true, Bool.false_eq_true, if_false, ht, if_true]

end

theorem cutJobsComplete : Claim.CutJobsComplete := by
  intro s w f addr put add
  refine ⟨fun h => ?_, fun tag a blk => ?_, fun rd a b => ⟨State.cutCompute_reserved, fun t vb hz hv =>
      ⟨State.cutCompute_badView hz hv, fun v u gb hview hg hgraph => State.cutCompute_badGraph hz hv hview hg hgraph⟩⟩,
    fun b v sets cs => ?_, fun die j hj hfree => ?_, fun j o r v p hs => ⟨fun ho => ?_, fun x c => State.cutFinish_counted hs,
      fun x a b c y q => State.cutFinish_uncounted hs⟩,
    fun die j t o u r hj hfree hc he => ?_,
    fun die j hj => ⟨fun t u a b hp ho ha hb => exec_cutJobStatus_posts hj hp ho ha hb, fun t => exec_cutJobStatus_joins hj⟩⟩
  · intro enters first
    have henters : ∀ (t : State) (b : List Byte), exec (.cutGo f) s = t.cutEnter w f (s.cutAddr w f).toNat b → enters t b :=
      fun t b he => ⟨fun hroom => he.trans (State.cutEnter_room _ b hroom), fun hfull => he.trans (State.cutEnter_full _ b hfull)⟩
    refine ⟨fun b hb => henters s b (exec_cutGo_again h hb), fun hb hr => (exec_cutGo_first h hb).trans (if_pos (by simp [hr])),
      fun hb hr => ?_⟩
    have hgo := exec_cutGo_first h hb
    rw [if_neg (by simp [hr])] at hgo
    refine ⟨fun hc => hgo.trans (if_pos ((congrArg not hc).trans rfl)), fun hc ha => ?_, fun t b hc ha hl => henters t b ?_⟩
    all_goals
      replace hc : canonical (s.cutAddr w f) = true := hc
      rw [if_neg (by simp [hc])] at hgo
    · exact hgo.trans (if_pos ha)
    · exact (hgo.trans (if_neg (not_not.2 ha))).trans (congrArg (fun r => State.take r 0 fun u b => u.cutEnter w f addr.toNat b) hl)
  · intro st c s1 look
    refine ⟨fun hu ha => ?_, exec_cutSubmit_unaligned, exec_cutSubmit_unused⟩
    have hgo := exec_cutSubmit_aligned (s := s) (tag := tag) (blk := blk) ha
    refine ⟨fun t b hl => ?_, fun t x p y hl => hgo.trans (congrArg Host.Outcome.next (State.cutAgain_fault (s := s1) (c := c) hu rfl hl)),
      fun t hl => hgo.trans (congrArg Host.Outcome.next (State.cutAgain_wait (s := s1) (c := c) hu rfl hl))⟩
    have hread := hgo.trans (congrArg Host.Outcome.next (State.cutAgain_read (s := s1) (c := c) hu rfl hl))
    exact ⟨fun hroom => hread.trans (congrArg Host.Outcome.next (State.cutTake_room hroom)),
      fun hfull => hread.trans (congrArg Host.Outcome.next (State.cutTake_full hfull))⟩
  · intro sel code
    refine ⟨(cutResult_code b v sets cs).1, fun hgood => ?_⟩
    have hcode := (cutResult_code b v sets cs).2 hgood
    exact ⟨fun hlt => hcode.trans (if_pos hlt), fun hle => hcode.trans (if_neg (not_lt.2 hle))⟩
  · exact ⟨fun t u a b c hc hf => exec_cutJobRun hj hfree ((State.cutJob_unread hc).trans hf),
      fun t o u r v a b c hc he hf => exec_cutJobRun hj hfree ((State.cutJob_unwritten hc he).trans hf)⟩
  · rw [ho, State.cutSpoil_done] at hs
    simp only [Prod.mk.injEq, Acc.ok.injEq] at hs
    exact ⟨hs.1.symm, hs.2.symm⟩
  · intro gone
    have hrun : ∀ (v : State), u.cutFinish j o r = (v, .ok ()) → exec (.cutJobRun die) s = .next v :=
      fun v hf => exec_cutJobRun hj hfree ((State.cutJob_written hc he).trans hf)
    refine ⟨hrun, fun v c ho hcnt => ?_, fun v p x c ho hund hcnt => ?_⟩
    · have hf := State.cutFinish_counted (by rw [ho]; exact State.cutSpoil_done _ _) hcnt
      rw [List.append_nil] at hf
      exact hrun _ hf
    · have hf := State.cutFinish_counted (by rw [ho]; exact State.cutSpoil_nodes hund) hcnt
      rw [List.append_assoc] at hf
      exact hrun _ hf

/-! ### The frame front (R395 to R399) -/

section
variable {s t : State} {rec : Nat} {r : Rec}

theorem exec_raygenRun_read {b : List Byte} (hr : s.recOf rec = some r) (hst : r.stage = .raygen)
    (hb : s.unitLoad (frontReader 0 r.tag) (recFrame r.bytes) 256 = (t, .ok b)) :
    exec (.raygenRun rec) s = .next (s.frontRun t rec r.tag (recFrame r.bytes) (frontReader 0 r.tag) b) := by
  change execRaygenRun rec s = _
  simp only [execRaygenRun, hr, hst, ne_eq, not_true_eq_false, if_false, hb]

theorem exec_raygenRun_unread {c p a : Nat} (hr : s.recOf rec = some r) (hst : r.stage = .raygen)
    (hb : s.unitLoad (frontReader 0 r.tag) (recFrame r.bytes) 256 = (t, .fault c p a)) :
    exec (.raygenRun rec) s = .next (t.frontRan rec none 4 ⟨0, false, []⟩) := by
  change execRaygenRun rec s = _
  simp only [execRaygenRun, hr, hst, ne_eq, not_true_eq_false, if_false, hb]

theorem exec_raygenComplete_ends {count h : Nat} {writes : List Nat} (hr : s.recOf rec = some r)
    (hst : r.stage = .raygenRan 0 count writes h) (hd : s.allDone writes = true) :
    exec (.raygenComplete rec) s = .next (s.frontEnd rec count) := by
  change execRaygenComplete rec s = _
  simp only [execRaygenComplete, hr, hst, hd, Bool.not_true, Bool.false_eq_true, if_false, if_true]

theorem exec_raygenComplete_reports {status count h : Nat} {writes ids : List Nat} (hr : s.recOf rec = some r)
    (hst : r.stage = .raygenRan status count writes h) (hd : s.allDone writes = true) (hne : status ≠ 0)
    (hs : s.frontStatus (frontReader 0 r.tag) (recFrame r.bytes) status count = (t, .ok ids)) :
    exec (.raygenComplete rec) s = .next (t.modRec rec fun x => { x with stage := .raygenRan 0 (if status ≤ 2 then count else 0) ids 0 }) := by
  change execRaygenComplete rec s = _
  simp only [execRaygenComplete, hr, hst, hd, Bool.not_true, Bool.false_eq_true, if_false, if_neg hne, hs]

end

theorem frameFrontCompletes : Claim.FrameFrontCompletes := by
  intro s rec r hr rd frame
  refine ⟨fun hst => ⟨fun t b => exec_raygenRun_read hr hst, fun t c p a => exec_raygenRun_unread hr hst⟩,
    fun status count writes h hst hd => ⟨fun h0 => ?_, fun t ids hne hs => exec_raygenComplete_reports hr hst hd hne hs⟩⟩
  subst h0
  exact exec_raygenComplete_ends hr hst hd

/-- Settles O57: each clause is the equation of one step of a job's or a record's life. -/
theorem cutJobsAndFrameFrontComplete : Obligations.CutJobsAndFrameFrontComplete := ⟨cutJobsComplete, frameFrontCompletes⟩

end Sys2Proof.Machine
end

section
/-! Boot, measurement, management and power (R401, R430 to R433, R447 to R451). -/

namespace Sys2Proof.Machine

/-! ### Measurement registers (R431) -/

theorem Boot.extend_meas_same (b : Boot) {r : Nat} (x : List Byte) (hr : r < b.meas.length) :
    (b.extend r x).meas.getD r [] = shake256 (b.meas.getD r [] ++ x) := by
  simp only [Boot.extend, List.getD_eq_getElem?_getD, modAt_get?, if_true, List.getElem?_eq_getElem hr, Option.map_some,
    Option.getD_some]

theorem Boot.extend_meas_other (b : Boot) {r i : Nat} (x : List Byte) (hi : i ≠ r) :
    (b.extend r x).meas.getD i [] = b.meas.getD i [] := by
  simp only [Boot.extend, List.getD_eq_getElem?_getD, modAt_get?, if_neg hi.symm]

theorem measurementExtends : Claim.MeasurementExtends := by
  intro s r x hlen
  refine ⟨fun h3 h7 => ?_, fun h => ?_⟩
  · change Out.ends (.next (if 3 ≤ r ∧ r ≤ 7 then { s with boot := s.boot.extend r x } else s)) _
    rw [if_pos ⟨h3, h7⟩]
    exact ⟨Boot.extend_meas_same _ _ (by omega), fun i hi => Boot.extend_meas_other _ _ hi, rfl⟩
  · exact congrArg Host.Outcome.next (if_neg (by omega))

/-! ### Reset and boot (R401, R430) -/

/-- The source is sound and the HBM trains: the ROM ends at the image's entry point. -/
def State.boots (s : State) : Bool := Config.hbmTrains s.serial && bootPasses s.boot s.bootSource

theorem exec_reset_boots {s : State} (h : s.boots = true) :
    exec .reset s = .next { s.afterReset with
      mem := cellsSet [] (cellsAt (Config.imageBase % hbmEnd) (imageOf s.bootSource))
      hosts := hostModes (imageOf s.bootSource) s.afterReset.hosts
      boot := ((s.afterReset.boot.extend 0 s.boot.romHash).extend 1 s.boot.keyHash).extend 2 (shake256 (imageOf s.bootSource))
      harts := modAt s.afterReset.harts 0 fun h =>
        { h with pc := BitVec.ofNat 64 (Config.imageBase % hbmEnd + numAt s.bootSource 0x10 8), priv := .m } } :=
  if_pos h

theorem exec_reset_recovers {s : State} (h : s.boots = false) :
    exec .reset s = .next { s.afterReset with boot := { s.afterReset.boot with recovery := true } } :=
  if_neg (by rw [← Bool.not_eq_true] at h; exact h)

theorem State.afterReset_hart (s : State) {h : Nat} {x : Hart} (hx : s.afterReset.harts[h]? = some x) : x = Hart.reset h := by
  replace hx : ((List.range 32).map Hart.reset)[h]? = some x := hx
  rw [List.getElem?_map, Option.map_eq_some_iff] at hx
  obtain ⟨n, hn, rfl⟩ := hx
  rw [List.getElem?_eq_some_iff] at hn
  obtain ⟨hlt, rfl⟩ := hn
  rw [List.getElem_range]

theorem State.afterReset_host (s : State) {p : Nat} {k : HostPort} (hk : s.afterReset.hosts[p]? = some k) : k.mode = .pcie := by
  replace hk : (s.hosts.map fun h => { HostPort.reset with bar2 := h.bar2 })[p]? = some k := hk
  rw [List.getElem?_map, Option.map_eq_some_iff] at hk
  obtain ⟨h, -, rfl⟩ := hk
  rfl

theorem hostModes_get? (img : List Byte) (hosts : List HostPort) {p : Nat} {k : HostPort}
    (hk : (hostModes img hosts)[p]? = some k) : k.mode = if Config.hostCxl img p then .cxl else .pcie := by
  rw [hostModes, List.getElem?_map, Option.map_eq_some_iff] at hk
  obtain ⟨x, hx, rfl⟩ := hk
  rw [List.getElem?_zipIdx, Option.map_eq_some_iff] at hx
  obtain ⟨y, -, rfl⟩ := hx
  simp

/-- Registers 0 to 2 after the ROM has extended each once, from what reset leaves. -/
theorem bootMeasurements {b : Boot} (hb : b.meas = List.replicate 8 (List.replicate 64 0)) (x y z : List Byte) {i : Nat}
    (hi : i < 8) : (((b.extend 0 x).extend 1 y).extend 2 z).meas.getD i [] =
      if i < 3 then shake256 (List.replicate 64 0 ++ [x, y, z].getD i []) else List.replicate 64 0 := by
  have hlen : b.meas.length = 8 := by rw [hb]; rfl
  have hzero : ∀ j, j < 8 → b.meas.getD j [] = List.replicate 64 0 := by
    intro j hj
    rw [hb, List.getD_eq_getElem _ _ (by simpa using hj), List.getElem_replicate]
  have hlen1 : (b.extend 0 x).meas.length = 8 := (modAt_length _ _ _).trans hlen
  have hlen2 : ((b.extend 0 x).extend 1 y).meas.length = 8 := (modAt_length _ _ _).trans hlen1
  match i, hi with
  | 0, _ =>
    rw [Boot.extend_meas_other _ _ (by decide), Boot.extend_meas_other _ _ (by decide), Boot.extend_meas_same _ _ (by omega),
      hzero 0 (by decide)]
    rfl
  | 1, _ =>
    rw [Boot.extend_meas_other _ _ (by decide), Boot.extend_meas_same _ _ (by omega), Boot.extend_meas_other _ _ (by decide),
      hzero 1 (by decide)]
    rfl
  | 2, _ =>
    rw [Boot.extend_meas_same _ _ (by omega), Boot.extend_meas_other _ _ (by decide), Boot.extend_meas_other _ _ (by decide),
      hzero 2 (by decide)]
    rfl
  | n + 3, hn =>
    rw [Boot.extend_meas_other _ _ (by omega), Boot.extend_meas_other _ _ (by omega), Boot.extend_meas_other _ _ (by omega),
      hzero _ hn, if_neg (by omega)]

/-! ### Recovery and management (R432, R433) -/

section
variable {s : State}

theorem exec_recoveryImageWrite_refused (img : List Byte)
    (h : s.boot.recovery = false ∨ ∃ k, s.hosts[0]? = some k ∧ k.d3hot = true) : exec (.recoveryImageWrite img) s = .next s := by
  refine congrArg Host.Outcome.next (if_neg ?_)
  rcases h with h | ⟨k, hk, hd⟩
  · simp [h]
  · simp [hk, hd]

theorem exec_recoveryImageWrite_flash (img : List Byte) (h : s.boot.recovery = true)
    (hd : ∀ k, s.hosts[0]? = some k → k.d3hot = false) :
    exec (.recoveryImageWrite img) s = .next { s with boot := { s.boot with flash := img } } := by
  have hopen : ((s.hosts[0]?).any fun h => h.d3hot) = false := by
    cases hk : s.hosts[0]? with
    | none => rfl
    | some k => exact hd k hk
  exact congrArg Host.Outcome.next (if_pos (by rw [h, hopen]; rfl))

theorem State.mgmtOpen_of {via : MgmtPort} (h : via = .i2c ∨ ∃ p k, via = .vdm p ∧ s.hosts[p]? = some k ∧ k.mode = .pcie) :
    s.mgmtOpen via = true := by
  rcases h with rfl | ⟨p, k, rfl, hk, hm⟩
  · rfl
  · simp [State.mgmtOpen, hk, hm]

theorem State.mgmtOpen_cxl {p : Nat} {k : HostPort} (hk : s.hosts[p]? = some k) (hm : k.mode = .cxl) :
    s.mgmtOpen (.vdm p) = false := by
  simp [State.mgmtOpen, hk, hm]

theorem exec_pldmFirmwareUpdate (via : MgmtPort) (img : List Byte) : exec (.pldmFirmwareUpdate ⟨via, img⟩) s =
    .next (if s.mgmtOpen via = true then { s with boot := { s.boot with flash := img } } else s) := rfl

theorem exec_spdmGetMeasurements {via : MgmtPort} {v n : Nat} (ho : s.mgmtOpen via = true) (hv : v ∈ [0x12, 0x13]) (hn : n < 8) :
    exec (.spdmGetMeasurements ⟨via, v, n + 1⟩) s = .next { s with boot := { s.boot with
      answer := some ⟨v, .pciSig, .kolez, [], [.falcon1024], [.shake256], Config.identityKey (shake256 s.boot.uds), s.boot.meas.getD n []⟩ } } := by
  have hm : s.boot.measurements (n + 1) = s.boot.meas.getD n [] := by
    rw [Boot.measurements, if_neg (by omega), if_neg (by omega), Nat.add_sub_cancel]
  change Host.Outcome.next (if s.mgmtOpen via = true ∧ v ∈ spdmVersions then _ else s) = _
  rw [if_pos ⟨ho, hv⟩, hm]
  rfl

theorem exec_spdmGetMeasurements_closed {via : MgmtPort} (v n : Nat) (ho : s.mgmtOpen via = false) :
    exec (.spdmGetMeasurements ⟨via, v, n⟩) s = .next s :=
  congrArg Host.Outcome.next (if_neg (by simp [ho]))

end

/-- What the ROM's checks need of a source (R430, steps 2 to 5). -/
theorem bootPasses_eq_true {b : Boot} {src : List Byte} (h : bootPasses b src = true) :
    numAt src 0 8 = 0x4B5A373420494D47 ∧ b.secver ≤ numAt src 0xC 4 ∧ shake256 ((src.drop 0x18).take 1793) = b.keyHash ∧
      falconValid ((src.drop 0x18).take 1793) ((src.drop 0x719).take 1280) (shake256 (imageOf src)) = true := by
  simp only [bootPasses, Bool.and_eq_true, beq_iff_eq, decide_eq_true_eq] at h
  obtain ⟨⟨⟨⟨hmagic, -⟩, hkey⟩, hsig⟩, hver⟩ := h
  exact ⟨hmagic, hver, hkey, hsig⟩

theorem bootCompletes : Claim.BootCompletes := by
  intro s b src ok zero
  have hsrc : src = s.bootSource := rfl
  have hok : ok = s.boots := rfl
  clear_value src ok
  subst hsrc hok
  refine ⟨?_, fun img => ⟨exec_recoveryImageWrite_refused img, exec_recoveryImageWrite_flash img⟩, fun via hvia => ?_,
    fun p k hk hm => ?_, fun src h => ?_, fun src h => ?_, fun src h => ?_, fun src h => ?_⟩
  · cases hb : s.boots
    · rw [exec_reset_recovers hb]
      refine ⟨rfl, rfl, rfl, rfl, rfl, rfl, rfl, ⟨Hart.reset 0, rfl, rfl, rfl, rfl⟩, fun h x h1 hx => ?_, fun p k hk => ?_,
        fun i hi => ?_, rfl, rfl, rfl⟩
      · rw [s.afterReset_hart hx]
        exact decide_eq_true (by omega)
      · exact s.afterReset_host hk
      · have hzero := (List.getElem?_replicate (a := List.replicate 64 (0 : Byte)) (n := 8) (i := i)).trans (if_pos hi)
        exact (List.getD_eq_getElem?_getD ..).trans (congrArg (Option.getD · []) hzero)
    · rw [exec_reset_boots hb]
      refine ⟨rfl, rfl, rfl, rfl, rfl, rfl, rfl, ⟨_, rfl, rfl, rfl, rfl⟩, fun h x h1 hx => ?_, fun p k hk => ?_, fun i hi => ?_,
        rfl, rfl, rfl⟩
      · rw [modAt_get?, if_neg (by omega)] at hx
        rw [s.afterReset_hart hx]
        exact decide_eq_true (by omega)
      · simpa using hostModes_get? _ _ hk
      · exact (bootMeasurements (b := s.afterReset.boot) rfl _ _ _ hi).trans (if_congr (by simp) rfl rfl)
  · have hopen := State.mgmtOpen_of hvia
    refine ⟨fun img => ?_, fun v hv n hn => exec_spdmGetMeasurements hopen hv hn⟩
    rw [exec_pldmFirmwareUpdate, if_pos hopen]
  · have hclosed := State.mgmtOpen_cxl hk hm
    refine ⟨fun img => ?_, fun v n => exec_spdmGetMeasurements_closed v n hclosed⟩
    rw [exec_pldmFirmwareUpdate, if_neg (by simp [hclosed])]
  all_goals
    by_contra hp
    obtain ⟨hmagic, hver, hkey, hsig⟩ := bootPasses_eq_true (Bool.not_eq_false _ ▸ hp)
  · exact h hmagic
  · exact absurd hver (not_le.2 h)
  · exact h hkey
  · rw [hsig] at h
    exact Bool.noConfusion h

/-! ### Steps of the clock (R448) -/

section
variable {s : State}

/-- 100 us have passed since the last step. -/
def Power.stepFree (p : Power) (now : Nat) : Prop := ∀ t, p.lastStep = some t → t + 100000 ≤ now

theorem State.clockTo_steps {mhz : Nat} (hfree : s.power.stepFree s.time) (hlo : 600 ≤ mhz) (hhi : mhz ≤ 1500) :
    s.clockTo mhz = { s with power := { s.power with clockMHz := mhz, lastStep := some s.time } } := by
  unfold Power.stepFree at hfree
  unfold State.clockTo
  cases hl : s.power.lastStep with
  | none => simp [hlo, hhi]
  | some t => simp [hlo, hhi, hfree t hl]

theorem State.clockTo_early {mhz : Nat} (hfree : ¬ s.power.stepFree s.time) : s.clockTo mhz = s := by
  unfold Power.stepFree at hfree
  push Not at hfree
  obtain ⟨t, hl, ht⟩ := hfree
  simp [State.clockTo, hl, not_le.2 ht]

theorem exec_clockStepDown_waits (h : ¬ s.power.stepFree s.time ∨ s.power.exceeded s.time = false) :
    exec .clockStepDown s = .next s := by
  refine congrArg Host.Outcome.next ?_
  rcases h with h | h
  · exact ite_eq_right_iff.2 fun _ => State.clockTo_early h
  · exact if_neg (by simp [h])

theorem exec_clockStepUp_due {since : Nat} (hs : s.power.heldSince = some since) (ht : since + 10000000 ≤ s.time)
    (hw : s.power.within s.time = true) : exec .clockStepUp s = .next (s.clockTo (s.power.clockMHz + 25)) := by
  change execClockStepUp s = _
  rw [execClockStepUp, hs]
  exact congrArg Host.Outcome.next (if_pos ⟨ht, hw⟩)

theorem exec_clockStepUp_waits (h : ¬ s.power.stepFree s.time ∨ s.power.within s.time = false ∨
    ∀ t, s.power.heldSince = some t → s.time < t + 10000000) : exec .clockStepUp s = .next s := by
  change execClockStepUp s = _
  unfold execClockStepUp
  cases hs : s.power.heldSince with
  | none => rfl
  | some t =>
    refine congrArg Host.Outcome.next ?_
    rcases h with h | h | h
    · exact ite_eq_right_iff.2 fun _ => State.clockTo_early h
    · exact if_neg (by simp [h])
    · exact if_neg (by have := h t hs; omega)

/-! ### Limits (R448) -/

/-- One sample, of this instant, is its own average. -/
theorem Power.window_one {p : Power} {now : Nat} {x : Telemetry} (n : Nat) (hp : p.samples = [(now, x)]) (hn : 0 < n) :
    p.window now n = (x.power, 1) := by
  simp [Power.window, hp, hn]

theorem Power.exceeded_one {p : Power} {now : Nat} {x : Telemetry} (hp : p.samples = [(now, x)])
    (h : p.psust < x.power ∨ p.ppeak < x.power) : p.exceeded now = true := by
  simp only [Power.exceeded, Power.window_one 1000000000 hp (by decide), Power.window_one 10000000 hp (by decide), Nat.mul_one,
    Bool.or_eq_true, decide_eq_true_eq]
  exact Or.inl h

/-- A limit is set to what lies within its range and changes something. -/
theorem exec_setLimit {via : MgmtPort} {l : PowerLimit} {v : Nat} {q : Power} (ho : s.mgmtOpen via = true)
    (hq : s.power.setLimit l v = q) (hne : q ≠ s.power) :
    exec (.pldmSetLimit ⟨via, .set l⟩ v) s = .next { s with power := q.judge s.time } := by
  subst hq
  change execPldmSetLimit _ _ _ = _
  simp only [execPldmSetLimit, ho, Bool.not_true, Bool.false_eq_true, if_false, if_neg hne]

theorem exec_setLimit_same {via : MgmtPort} {l : PowerLimit} {v : Nat} (ho : s.mgmtOpen via = true)
    (hq : s.power.setLimit l v = s.power) : exec (.pldmSetLimit ⟨via, .set l⟩ v) s = .next s := by
  change execPldmSetLimit _ _ _ = _
  simp only [execPldmSetLimit, ho, Bool.not_true, Bool.false_eq_true, if_false, hq, if_true]

/-- A limit with a range: taken within it where that changes something, and otherwise refused. -/
theorem setLimit_ranged {via : MgmtPort} {l : PowerLimit} {v lo hi : Nat} {q : Power} (ho : s.mgmtOpen via = true)
    (hset : s.power.setLimit l v = if lo ≤ v ∧ v ≤ hi then q else s.power) (hheld : q.heldSince = s.power.heldSince) :
    (lo ≤ v ∧ v ≤ hi ∧ q ≠ s.power → exec (.pldmSetLimit ⟨via, .set l⟩ v) s = .next { s with power := { q with
        heldSince := if q.within s.time then some (s.power.heldSince.getD s.time) else none } }) ∧
      (v < lo ∨ hi < v ∨ q = s.power → exec (.pldmSetLimit ⟨via, .set l⟩ v) s = .next s) := by
  refine ⟨fun ⟨hlo, hhi, hne⟩ => ?_, fun h => exec_setLimit_same ho ?_⟩
  · rw [exec_setLimit ho (hset.trans (if_pos ⟨hlo, hhi⟩)) hne, Power.judge, hheld]
  · rw [hset]
    split
    · rcases h with h | h | h
      · omega
      · omega
      · exact h
    · rfl

theorem exec_pldm_reads {via : MgmtPort} {x : PldmItem} {v : Nat} (ho : s.mgmtOpen via = true) :
    (∀ l, x = .get l → exec (.pldmSetLimit ⟨via, x⟩ v) s = .next { s with power := { s.power with answer := some (s.power.limit l) } }) ∧
    (x = .power → exec (.pldmSetLimit ⟨via, x⟩ v) s = .next { s with power := { s.power with answer := some s.power.telemetry.power } }) ∧
    (x = .clock → exec (.pldmSetLimit ⟨via, x⟩ v) s = .next { s with power := { s.power with answer := some s.power.telemetryClock } }) ∧
    (∀ n, x = .rail n → exec (.pldmSetLimit ⟨via, x⟩ v) s = .next { s with power := { s.power with answer := s.power.telemetry.rails[n]? } }) ∧
    (∀ n, x = .temp n → exec (.pldmSetLimit ⟨via, x⟩ v) s = .next { s with power := { s.power with answer := s.power.telemetry.temps[n]? } }) := by
  have hread : execPldmSetLimit ⟨via, x⟩ v s = exec (.pldmSetLimit ⟨via, x⟩ v) s := rfl
  simp only [← hread, execPldmSetLimit, ho, Bool.not_true, Bool.false_eq_true, if_false]
  refine ⟨?_, ?_, ?_, ?_, ?_⟩ <;> (intros; subst_vars; rfl)

theorem exec_pldmSetLimit_closed {via : MgmtPort} (l : PldmItem) (v : Nat) (ho : s.mgmtOpen via = false) :
    exec (.pldmSetLimit ⟨via, l⟩ v) s = .next s := by
  change execPldmSetLimit _ _ _ = _
  simp only [execPldmSetLimit, ho, Bool.not_false, if_true]

/-! ### Telemetry and THERMTRIP (R448, R450) -/

theorem exec_telemetryRefresh_due (x : Telemetry) (h : s.power.samples = [] ∨ s.power.telemetryAt + 1000000 ≤ s.time) :
    exec (.telemetryRefresh x) s = .next { s with power := { s.power with sensors := some x }.measure x s.time } := by
  refine congrArg Host.Outcome.next (if_pos ?_)
  rcases h with h | h <;> simp [h]

theorem exec_telemetryRefresh_early (x : Telemetry) (h : s.power.samples ≠ []) (ht : s.time < s.power.telemetryAt + 1000000) :
    exec (.telemetryRefresh x) s = .next { s with power := { s.power with sensors := some x } } := by
  refine congrArg Host.Outcome.next (if_neg ?_)
  simp [h, ht]

theorem foldl_max_le {l : List Nat} {a n : Nat} (ha : a ≤ n) (h : ∀ x ∈ l, x ≤ n) : l.foldl max a ≤ n := by
  induction l generalizing a with
  | nil => exact ha
  | cons b l ih =>
    obtain ⟨hb, hl⟩ := List.forall_mem_cons.1 h
    exact ih (Nat.max_le.2 ⟨ha, hb⟩) hl

theorem exec_thermtrip_stops (h : ∃ x ∈ s.power.telemetry.temps, 110 < x) :
    exec .thermtrip s = .next { s with frozen := true, tripped := true } := by
  obtain ⟨x, hx, hhot⟩ := h
  exact congrArg Host.Outcome.next (if_pos (lt_of_lt_of_le hhot (le_foldl_max 0 hx)))

theorem exec_thermtrip_cool (h : ∀ x ∈ s.power.telemetry.temps, x ≤ 110) : exec .thermtrip s = .next s :=
  congrArg Host.Outcome.next (if_neg (not_lt.2 (foldl_max_le (Nat.zero_le _) h)))

end

theorem powerEventsComplete : Claim.PowerEventsComplete := by
  intro s p free others
  refine ⟨fun r => rfl, fun r h => ?_, fun r d hd => ?_, fun he hf hlo hhi => ?_, fun since hs ht hw hf hlo hhi => ?_,
    exec_clockStepDown_waits, exec_clockStepUp_waits, fun h => ?_, fun x => Power.exceeded_one, fun via ho => ?_,
    fun via l v => exec_pldmSetLimit_closed l v, fun x => ⟨fun h => ?_, exec_telemetryRefresh_early x⟩, exec_thermtrip_stops,
    exec_thermtrip_cool, fun port b => rfl, fun port b => rfl, ⟨rfl, rfl, rfl, rfl, rfl, rfl, rfl, rfl, rfl, rfl⟩⟩
  · have hnone : (s.power.droop.find? fun d => d.rick == r) = none := by simpa [List.find?_eq_none] using h
    change execDroopRecover r s = _
    simp only [execDroopRecover, hnone]
  · have hrec : exec (.droopRecover r) s = execDroopRecover r s := rfl
    rw [hrec, execDroopRecover, hd]
    refine ⟨fun hn => ?_, fun n hn => ⟨fun hlt => ?_, fun hle => ?_⟩⟩ <;> simp only [hn]
    · rfl
    · exact if_neg (not_le.2 hlt)
    · exact if_pos hle
  · exact congrArg Host.Outcome.next ((if_pos he).trans (State.clockTo_steps hf (Nat.le_sub_of_add_le hlo)
      (Nat.sub_le_of_le_add hhi)))
  · exact (exec_clockStepUp_due hs ht hw).trans (congrArg Host.Outcome.next
      (State.clockTo_steps hf (Nat.add_le_add_right hlo 25) (Nat.add_le_add_right hhi 25)))
  · simp only [Power.exceeded, Bool.or_eq_true, decide_eq_true_eq]
    exact Or.inr h
  · intro say sets v
    refine ⟨setLimit_ranged ho rfl rfl, setLimit_ranged ho rfl rfl, setLimit_ranged ho rfl rfl, exec_setLimit_same ho rfl,
      (exec_pldm_reads ho).1 .psust rfl, (exec_pldm_reads ho).1 .ppeak rfl, (exec_pldm_reads ho).1 .tstep rfl,
      (exec_pldm_reads ho).1 .ttrip rfl, (exec_pldm_reads ho).2.1 rfl, (exec_pldm_reads ho).2.2.1 rfl, fun n =>
      ⟨(exec_pldm_reads ho).2.2.2.1 n rfl, (exec_pldm_reads ho).2.2.2.2 n rfl⟩⟩
  · rw [exec_telemetryRefresh_due x h]
    exact ⟨rfl, rfl, rfl, rfl, rfl, rfl, rfl⟩

/-- Settles O60: each event's own equation, with the measurement registers followed through the ROM's three extends. -/
theorem bootAndPowerComplete : Obligations.BootAndPowerComplete := ⟨measurementExtends, bootCompletes, powerEventsComplete⟩

end Sys2Proof.Machine
end

section
/-! Queue pairs (R407 to R416, R423, R428): MODIFY, the requester's and the responder's steps, and QP.POST. -/

namespace Sys2Proof.Machine

/-! ### A queue pair's own state -/

/-- What was done to a queue pair's own state is read back. -/
theorem State.modQp_qp (s : State) (n : Nat) (f : Qp → Qp) (hf : ∀ q, (f q).qpn = q.qpn) : (s.modQp n f).qp n = f (s.qp n) := by
  have hkeep : ∀ q, ((f q).qpn == n) = (q.qpn == n) := fun q => by rw [hf]
  unfold State.qp State.modQp
  split
  · next h =>
    obtain ⟨q, hq, hn⟩ := List.any_eq_true.1 h
    have hsome : (s.qps.find? fun q => q.qpn == n).isSome := List.find?_isSome.2 ⟨q, hq, hn⟩
    obtain ⟨x, hx⟩ := Option.isSome_iff_exists.1 hsome
    rw [find?_modWhere s.qps (fun q => q.qpn == n) f hkeep, hx]
    rfl
  · next h =>
    have hnone : (s.qps.find? fun q => q.qpn == n) = none :=
      List.find?_eq_none.2 fun q hq hn => h (List.any_eq_true.2 ⟨q, hq, hn⟩)
    have hempty : ((f (Qp.empty n)).qpn == n) = true := (hkeep _).trans (beq_self_eq_true n)
    simp only [List.find?_append, hnone, List.find?_cons, hempty, Option.none_or, Option.getD_some, Option.getD_none]

@[simp] theorem State.modQp_heldPkts (s : State) (n : Nat) (f : Qp → Qp) : (s.modQp n f).heldPkts = s.heldPkts := by
  unfold State.modQp; split <;> rfl

/-! ### MODIFY (R408) -/

section
variable {s : State} {q blk : Nat} {good : List Byte → Bool} {g : State → State}

theorem State.qpModify_outside (hq : 2 ^ 20 ≤ q) : s.qpModify q blk good g = .next (s.cmdStatus blk 4) := if_pos hq

theorem State.qpModify_eq (hq : q < 2 ^ 20) : s.qpModify q blk good g =
    if good (s.qpBytes q) then .next ((g s).cmdStatus blk 0) else .next (s.cmdStatus blk 1) := if_neg (Nat.not_le.2 hq)

/-- A transition from one state only. -/
theorem State.qpModify_from (k : Nat) (hq : q < 2 ^ 20) : s.qpModify q blk (fun b => qpState b == k) g =
    if qpState (s.qpBytes q) = k then .next ((g s).cmdStatus blk 0) else .next (s.cmdStatus blk 1) :=
  (State.qpModify_eq hq).trans (if_congr beq_iff_eq rfl rfl)

end

/-- A context that INIT takes: RESET, its reserved fields clear, its owner ready or running (R407, R408). -/
def State.qpInitable (s : State) (b : List Byte) : Bool :=
  qpState b == 0 && !qpReserved b && ((s.ctx (qpTag b)).st == .ready || (s.ctx (qpTag b)).st == .running)

theorem State.qpInitable_iff (s : State) (b : List Byte) : s.qpInitable b = true ↔
    qpState b = 0 ∧ qpReserved b = false ∧ ((s.ctx (qpTag b)).st = .ready ∨ (s.ctx (qpTag b)).st = .running) := by
  simp only [State.qpInitable, Bool.and_eq_true, Bool.or_eq_true, beq_iff_eq, Bool.not_eq_true', and_assoc]

section
variable (s : State) (q blk : Nat)

theorem exec_qpModifyInit : exec (.qpModifyInit q blk) s =
    s.qpModify q blk s.qpInitable fun s => (s.modQp q fun _ => Qp.empty q).qpSetState q 1 := rfl

theorem exec_qpModifyReady : exec (.qpModifyReady q blk) s =
    s.qpModify q blk (fun b => qpState b == 1) fun s => s.qpSetState q 2 := rfl

theorem exec_qpModifyActive : exec (.qpModifyActive q blk) s =
    s.qpModify q blk (fun b => qpState b == 2) fun s => (s.modQp q fun x => { x with port := s.qpPort q }).qpSetState q 3 := rfl

theorem exec_qpModifyDrain : exec (.qpModifyDrain q blk) s =
    s.qpModify q blk (fun b => qpState b == 3) fun s => (s.modQp q fun x => { x with drainTo := s.qpPosted q }).qpSetState q 4 := rfl

/-- The queue pair's hardware fields and its own state are cleared. -/
def State.qpCleared (s : State) (q : Nat) : State :=
  let t := ((s.qpPut q 1 [0]).qpPut q 8 [0, 0, 0]).qpPut q 12 [0, 0, 0]
  { t with qps := t.qps.filter fun x => x.qpn != q, heldPkts := t.heldPkts.filter fun h => h.qpn != q }

theorem exec_qpModifyReset : exec (.qpModifyReset q blk) s =
    s.qpModify q blk (fun b => qpState b == 5) fun s => (s.qpCleared q).qpSetState q 0 := rfl

end

theorem queuePairStatesComplete : Claim.QueuePairStatesComplete := by
  intro s q blk b st live bad ok
  refine ⟨fun hq => ⟨fun h0 hr hl => ?_, fun hno => ?_, ?_, ?_, ?_, fun h5 => ?_, fun h5 => ?_⟩, fun hq i hi => ?_,
    fun h4 hreqs hto hany => ?_⟩
  · rw [exec_qpModifyInit, State.qpModify_eq hq, if_pos ((s.qpInitable_iff b).2 ⟨h0, hr, hl⟩)]
  · rw [exec_qpModifyInit, State.qpModify_eq hq, if_neg]
    intro hc
    obtain ⟨h0, hr, hl⟩ := (s.qpInitable_iff b).1 hc
    rcases hno with h | h | h
    · exact h h0
    · exact absurd (h.symm.trans hr) (by decide)
    · exact h hl
  · rw [exec_qpModifyReady, State.qpModify_from 1 hq]
    rfl
  · rw [exec_qpModifyActive, State.qpModify_from 2 hq]
    rfl
  · rw [exec_qpModifyDrain, State.qpModify_from 3 hq]
    rfl
  · rw [exec_qpModifyReset, State.qpModify_from 5 hq]
    exact if_pos h5
  · rw [exec_qpModifyReset, State.qpModify_from 5 hq]
    exact if_neg h5
  · simp only [List.mem_cons, List.not_mem_nil, or_false] at hi
    rcases hi with rfl | rfl | rfl | rfl | rfl
    · rw [exec_qpModifyInit, State.qpModify_outside hq]
    · rw [exec_qpModifyReady, State.qpModify_outside hq]
    · rw [exec_qpModifyActive, State.qpModify_outside hq]
    · rw [exec_qpModifyDrain, State.qpModify_outside hq]
    · rw [exec_qpModifyReset, State.qpModify_outside hq]
  · exact congrArg Host.Outcome.next (if_pos ⟨h4, hreqs, hto, hany⟩)

/-! ### The requester (R409, R412 to R415) -/

section
variable {s t : State} {n : Nat}

/-- A pair whose published requests are taken (log 36). -/
def State.qpTakes (s : State) (n st : Nat) : Prop :=
  st = 3 ∨ st = 5 ∨ (st = 4 ∧ s.qpHead n < (s.qp n).drainTo)

theorem exec_workRequestTake (ho : (s.qpAdvance n).qpTakes n (qpState (s.qpBytes n)))
    (hq : ∃ x ∈ (s.qpAdvance n).qps, x.qpn = n) (ht : (s.qpAdvance n).qpTake n (qpState (s.qpBytes n) == 5) = (t, .ok true)) :
    exec (.workRequestTake n) s = .next (t.qpAdvance n) := by
  change execWorkRequestTake n s = _
  have hany : ((s.qpAdvance n).qps.any fun q => q.qpn == n) = true := by simpa using hq
  have hopen : (qpState (s.qpBytes n) == 3 || qpState (s.qpBytes n) == 5 ||
      (qpState (s.qpBytes n) == 4 && decide ((s.qpAdvance n).qpHead n < ((s.qpAdvance n).qp n).drainTo))) = true := by
    simpa [State.qpTakes, or_assoc] using ho
  simp only [execWorkRequestTake, hany, hopen, ht, Bool.not_true, Bool.or_self, Bool.false_eq_true, if_false]

/-- The packet that an answer is for no longer awaits one (R412, R414, R415). -/
def State.qpHeard (s : State) (n : Nat) (a : Ack) : State :=
  (s.modQp n fun q => { q with unacked := q.unacked.filter fun x => x.p.psn != a.psn, retries := 0, rnr := 0 }).modQp n
    fun q => { q with acks := q.acks.erase a }

theorem State.qpHeard_reqs (s : State) (n : Nat) (a : Ack) : ((s.qpHeard n a).qp n).reqs = (s.qp n).reqs := by
  unfold State.qpHeard
  rw [State.modQp_qp _ n _ (by intro q; rfl), State.modQp_qp s n _ (by intro q; rfl)]

/-- An answer goes to the request that its packet is of. -/
theorem exec_ackReceive {a : Ack} {r : QpReq} (hu : ∃ x ∈ (s.qp n).unacked, x.p.psn = a.psn)
    (hr : ((s.qp n).reqs.find? fun r => r.status.isNone && (r.psn == some a.psn || r.flagPsn == some a.psn)) = some r) :
    exec (.ackReceive n a) s = .next
      (if ((s.qpHeard n a).qpAnswer n r a).2 = true then ((s.qpHeard n a).qpAnswer n r a).1.qpAdvance n
       else ((s.qpHeard n a).qpAnswer n r a).1.modQp n fun q => { q with acks := a :: q.acks }) := by
  change execAckReceive n a s = _
  have hany : ((s.qp n).unacked.any fun x => x.p.psn == a.psn) = true := by simpa using hu
  rw [← s.qpHeard_reqs n a] at hr
  simp only [execAckReceive, hany, Bool.not_true, Bool.false_eq_true, if_false, State.ackGo]
  rw [State.qpHeard] at hr ⊢
  simp only [hr]
  congr 1
  split
  · next t h => rw [h, if_pos rfl]
  · next t h => rw [h, if_neg Bool.false_ne_true]

/-- An answer to a write, and a refusal, store nothing: they do not wait. -/
theorem State.qpAnswer_now {a : Ack} {r : QpReq} (h : a.refused = true ∨ wrOp r.bytes = 1 ∨ wrOp r.bytes = 2) :
    (s.qpAnswer n r a).2 = true := by
  unfold State.qpAnswer
  cases hr : a.refused with
  | true => rfl
  | false =>
    rcases h with h | h | h
    · rw [hr] at h; cases h
    · simp [h]
    · simp [h]

/-- A store whose place is found is made. -/
theorem State.viaStore_located {v : Via} {va : Nat} {bs : List Byte} {l : List (Nat × Nat × Word64)}
    (h : s.viaLocate v 1 (piecesOf va bs.length) = (t, .ok l)) : ∃ u ids, s.viaStore v va bs = (u, .ok ids) := by
  simp only [State.viaStore, h, andThen]
  exact ⟨_, _, rfl⟩

/-- An answer with data does not wait where its local place is found. -/
theorem State.qpAnswer_stored {a : Ack} {r : QpReq} {l : List (Nat × Nat × Word64)} (h : a.refused = false) (h1 : wrOp r.bytes ≠ 1)
    (h2 : wrOp r.bytes ≠ 2) (hl : s.viaLocate (qpDataVia (s.qpBytes n)) 1
      (piecesOf (wrLaddr r.bytes) (if wrOp r.bytes = 3 then a.data.length else 2 ^ wrSize r.bytes)) = (t, .ok l)) :
    (s.qpAnswer n r a).2 = true := by
  have hstore : ∀ bs : List Byte, bs.length = (if wrOp r.bytes = 3 then a.data.length else 2 ^ wrSize r.bytes) →
      ∃ u ids, s.viaStore (qpDataVia (s.qpBytes n)) (wrLaddr r.bytes) bs = (u, .ok ids) := fun bs hlen =>
    State.viaStore_located (hlen ▸ hl)
  unfold State.qpAnswer
  simp only [h, Bool.false_eq_true, if_false]
  split
  · next h' => exact absurd h' h1
  · next h' => exact absurd h' h2
  · next h3 =>
    obtain ⟨u, ids, he⟩ := hstore a.data (if_pos h3).symm
    rw [he]
  · next h3 =>
    obtain ⟨u, ids, he⟩ := hstore _ ((bytesOfNat_length _ _).trans (if_neg h3).symm)
    rw [he]

theorem exec_ackTimeout {x : SentPacket} (hx : (s.qp n).unacked.head? = some x) (hb : (s.qp n).backoff = none)
    (ht : x.sent + 1000 * qpAckto (s.qpBytes n) ≤ s.time) : exec (.ackTimeout n) s =
      if (s.qp n).retries < qpRetry (s.qpBytes n) then
        .next ((s.modQp n fun q => { q with retries := q.retries + 1 }).qpResend n fun _ => true)
      else .next (s.qpFailOldest n 3) := by
  change execAckTimeout n s = _
  have hno : ¬ ((s.qp n).backoff.isSome = true ∨ s.time < x.sent + 1000 * qpAckto (s.qpBytes n)) := by
    simp [hb, ht]
  simp only [execAckTimeout, hx, if_neg hno]

theorem exec_receiverNotReady_starts (hu : (s.qp n).unacked ≠ []) (hb : (s.qp n).backoff = none) : exec (.receiverNotReady n) s =
    if qpRnrlim (s.qpBytes n) ≠ 15 ∧ qpRnrlim (s.qpBytes n) ≤ (s.qp n).rnr then .next (s.qpFailOldest n 4)
    else .next (s.modQp n fun q => { q with backoff := some (s.time + 1000 * 2 ^ min q.rnr 10), rnr := q.rnr + 1 }) := by
  change execReceiverNotReady n s = _
  simp only [execReceiverNotReady, if_neg (mt List.isEmpty_iff.1 hu), hb]

theorem exec_receiverNotReady_ends {k : Nat} (hu : (s.qp n).unacked ≠ []) (hb : (s.qp n).backoff = some k) (hk : k ≤ s.time) :
    exec (.receiverNotReady n) s =
      .next (((s.modQp n fun q => { q with backoff := none }).qpResend n fun _ => true).qpAdvance n) := by
  change execReceiverNotReady n s = _
  simp only [execReceiverNotReady, if_neg (mt List.isEmpty_iff.1 hu), hb, if_neg (not_lt.2 hk)]

end

/-! ### Packets and contexts at a die (R407, R415) -/

section
variable {s t : State} {n port die : Nat} {p : Packet}

/-- A packet waits in its port's buffer, which holds 64 (R415). -/
def State.holdPacket (s : State) (port n : Nat) (p : Packet) : State :=
  if 64 ≤ (s.heldPkts.filter fun h => h.port == port).length then s.qpReply n (.rnr p.psn)
  else { s with heldPkts := s.heldPkts ++ [(⟨port, n, p⟩ : HeldPacket)] }

/-- A packet at an open port, with none of its pair held there before it. -/
theorem exec_packetReceive (ho : (s.port port).open_ = true) (hn : n < 2 ^ 20) (hh : ∀ h ∈ s.heldPkts, ¬ (h.port = port ∧ h.qpn = n)) :
    exec (.packetReceive port n p) s = .next
      (if s.qpCached (port / 8) n = false then s.holdPacket port n p
       else if (s.packetMeet n p).2 = true then (s.packetMeet n p).1 else (s.packetMeet n p).1.holdPacket port n p) := by
  have hopen : ¬ ((!(s.port port).open_ || decide (2 ^ 20 ≤ n)) = true) := by
    simpa [ho] using hn
  have hfirst : (s.heldPkts.any fun h => h.port == port && h.qpn == n) = false := by simpa using hh
  change execPacketReceive port n p s = _
  rw [execPacketReceive, if_neg hopen]
  simp only [hfirst, Bool.false_eq_true, false_or, Bool.not_eq_true']
  split
  · rfl
  · split
    · next h => rw [h, if_pos rfl]
    · next h => rw [h, if_neg Bool.false_ne_true]; rfl

theorem State.releaseHeldPkts_nil (s : State) : State.releaseHeldPkts die n [] s = s := rfl

/-- The context enters the die's cache. -/
def State.qpFetched (s : State) (die n : Nat) : State :=
  s.modQp n fun q => { q with cached := if q.cached.contains die then q.cached else q.cached ++ [die] }

theorem State.qpFetched_cached (s : State) (die n : Nat) : (s.qpFetched die n).qpCached die n = true := by
  rw [State.qpCached, State.qpFetched, State.modQp_qp s n _ (by intro q; rfl)]
  split
  · next h => exact h
  · simp

theorem exec_qpContextFetch (h : s.qpCached die n = true ∨ (s.qps.filter fun q => q.cached.contains die).length < 4096)
    (hh : s.heldPkts = []) : exec (.qpContextFetch die n) s = .next (s.qpFetched die n) := by
  change execQpContextFetch die n s = _
  simp only [execQpContextFetch, if_pos h, State.modQp_heldPkts, hh, State.releaseHeldPkts_nil]
  rfl

end

theorem queuePairTrafficCompletes : Claim.QueuePairTrafficCompletes := by
  intro s n q b
  refine ⟨fun t ho hq ht => exec_workRequestTake ho hq ht, fun a r hu hr => ?_, fun epsn => rfl, fun x hx hb ht => ?_, fun hu => ?_,
    fun port p ho hn hh => ?_, fun die hc hh => ?_, fun die _ hroom hh => exec_qpContextFetch (.inr hroom) hh⟩
  · intro t u
    have hgo := exec_ackReceive hu hr
    exact ⟨fun h => hgo.trans (congrArg Host.Outcome.next (if_pos h)),
      fun h => hgo.trans (congrArg Host.Outcome.next (if_neg (Bool.eq_false_iff.1 h))), State.qpAnswer_now,
      fun l v h h1 h2 hl => State.qpAnswer_stored h h1 h2 hl⟩
  · have hgo := exec_ackTimeout hx hb ht
    exact ⟨fun h => hgo.trans (if_pos h), fun h => hgo.trans (if_neg (not_lt.2 h))⟩
  · refine ⟨fun hb h => (exec_receiverNotReady_starts hu hb).trans (if_neg fun hc => ?_),
      fun hb h1 h2 => (exec_receiverNotReady_starts hu hb).trans (if_pos ⟨h1, h2⟩), fun t hb ht => exec_receiverNotReady_ends hu hb ht⟩
    exact h.elim hc.1 (not_lt.2 hc.2)
  · have hgo := exec_packetReceive (p := p) ho hn hh
    refine ⟨fun hc hroom => ?_, fun hc hfull => ?_, fun t hc hm => ?_, fun t hc hm => ?_⟩
    · rw [hgo, if_pos hc, State.holdPacket, if_neg (not_le.2 hroom)]
    · rw [hgo, if_pos hc, State.holdPacket, if_pos hfull]
    · rw [hgo, if_neg (Bool.not_eq_false _ ▸ hc), hm, if_pos rfl]
    · rw [hgo, if_neg (Bool.not_eq_false _ ▸ hc), hm, if_neg Bool.false_ne_true]
      rfl
  · rw [exec_qpContextFetch (.inl hc) hh]
    exact ⟨s.modQp_mem n _, s.qpFetched_cached die n⟩

/-! ### The responder (R412, R414) -/

section
variable {s t : State} {n : Nat} {p : Packet}

/-- A packet meets a pair that receives: its turn, the future, or a duplicate. -/
theorem State.packetMeet_receives (h : qpState (s.qpBytes n) ∈ [2, 3, 4]) : s.packetMeet n p =
    if p.psn = BitVec.ofNat 24 (qpEpsn (s.qpBytes n)) then s.packetRun n p
    else if (p.psn - BitVec.ofNat 24 (qpEpsn (s.qpBytes n))).toNat < 2 ^ 23 then
      (s.qpReply n (.seqNak (BitVec.ofNat 24 (qpEpsn (s.qpBytes n)))), true)
    else s.packetAgain n p := by
  simp only [List.mem_cons, List.not_mem_nil, or_false] at h
  unfold State.packetMeet
  rcases h with h | h | h <;> simp only [h]

theorem State.packetAgain_write (hp : ∀ x ∈ (s.qp n).pending, x.1 ≠ p.psn) (h3 : p.op.toNat ≠ 3) (h4 : p.op.toNat ≠ 4) :
    s.packetAgain n p = (s.qpReply n (ackOk p.psn [] 0), true) := by
  have hnone : ((s.qp n).pending.any fun x => x.1 == p.psn) = false := by simpa using hp
  unfold State.packetAgain
  simp only [hnone, Bool.false_eq_true, if_false]

theorem State.packetAgain_atomic {x : BitVec 24 × Word64} (hp : ∀ x ∈ (s.qp n).pending, x.1 ≠ p.psn) (h4 : p.op.toNat = 4)
    (hx : ((s.qp n).results.find? fun x => x.1 == p.psn) = some x) :
    s.packetAgain n p = (s.qpReply n (ackOk p.psn [] x.2), true) := by
  have hnone : ((s.qp n).pending.any fun x => x.1 == p.psn) = false := by simpa using hp
  unfold State.packetAgain
  simp only [hnone, Bool.false_eq_true, if_false, h4, hx]

end

section
variable {s t : State} {n : Nat} {p : Packet}

/-- The state in which a packet has performed: EPSN is past it, and an ATOMIC's old value is kept (R412, R414). -/
def State.packetDone (t : State) (n epsn : Nat) (p : Packet) (old : Word64) : State :=
  let u := t.qpPut n 12 (bytesOfNat 3 ((epsn + 1) % 2 ^ 24))
  if p.op = 4 then u.modQp n fun q => { q with results := (q.results ++ [(p.psn, old)]).drop (q.results.length - 15) } else u

theorem State.packetRun_performs {data : List Byte} {old : Word64} {ids : List Nat}
    (h : s.packetPerform (s.qpBytes n) p = (t, .ok (data, old, ids))) : s.packetRun n p =
      (if ids.isEmpty then (t.packetDone n (qpEpsn (s.qpBytes n)) p old).qpReply n (ackOk p.psn data old)
       else (t.packetDone n (qpEpsn (s.qpBytes n)) p old).modQp n fun q => { q with pending := q.pending ++ [(p.psn, ids)] }, true) := by
  unfold State.packetRun
  simp only [h]
  rfl

theorem State.packetRun_refused {c l a : Nat} (h : s.packetPerform (s.qpBytes n) p = (t, .fault c l a)) :
    s.packetRun n p = (t.qpReply n (ackRefused p.psn), true) := by
  unfold State.packetRun
  simp only [h]

theorem State.packetMeet_refuses (h : qpState (s.qpBytes n) = 5) : s.packetMeet n p = (s.qpReply n (ackRefused p.psn), true) := by
  unfold State.packetMeet
  simp only [h]

end

theorem responderAnswersInSequence : Claim.ResponderAnswersInSequence := by
  intro s n p b e
  refine ⟨fun hst => ⟨fun he => ?_, fun he hlt => ?_, fun hle hp => ?_⟩, State.packetMeet_refuses, fun t x y z hrun => ⟨fun hz => ?_, fun hz => ?_⟩,
    fun t c l a => State.packetRun_refused⟩
  · rw [State.packetMeet_receives hst, if_pos he]
  · rw [State.packetMeet_receives hst, if_neg he, if_pos hlt]
  · have he : p.psn ≠ e := fun he => by simp [he] at hle
    have hmeet : s.packetMeet n p = s.packetAgain n p := by
      rw [State.packetMeet_receives hst, if_neg he, if_neg (not_lt.2 hle)]
    exact ⟨fun h3 h4 => hmeet.trans (State.packetAgain_write hp h3 h4), fun x h4 hx => hmeet.trans (State.packetAgain_atomic hp h4 hx)⟩
  · rw [State.packetRun_performs hrun, if_pos (List.isEmpty_iff.2 hz)]
    rfl
  · rw [State.packetRun_performs hrun, if_neg (mt List.isEmpty_iff.1 hz)]
    rfl

/-! ### QP.POST (R416) -/

section
variable {s t : State} {w : Wave} {f : Fields}

/-- What a post makes of the send queue's ring that it has read. -/
theorem State.postEnter_samePlaces (h : s.samePlaces t) {q : Nat} {r : List Byte} {s2 s3 : State} {d : List Byte} {resv : Nat}
    (hd : t.viaLoad (s.wavesVia w) (qpSq (t.qpBytes q)) 64 = (s2, .ok d))
    (hp : s2.viaPeek (s.wavesVia w) (qpSq (t.qpBytes q) + 0x10) 8 = (s3, .ok resv)) : t.postEnter w f q r =
      if 2 ^ descLog2 d ≤ resv - descHead d then
        (if f.m.getLsbD 0 then .next (s3.modMe fun y => { y with wait := .push r }) else s3.ret f 1)
      else State.take (s3.ringAdd (s.wavesVia w) (qpSq (t.qpBytes q)) d resv [r]) 1 fun s _ => s.ret f 0 := by
  simp only [State.postEnter, h.wavesVia w, hd, hp, State.take]

theorem exec_qpPost_again {r : List Byte} (h : s.runs w (.qpPost f) f .dest false = true) (hw : w.wait = .push r) :
    exec (.qpPost f) s = s.postEnter w f (s.natB w f) r := by
  change execQpPost f s = _
  rw [execQpPost, State.front_runs _ h]
  simp only [hw]

theorem exec_qpPost_first (h : s.runs w (.qpPost f) f .dest false = true) (hw : ∀ r, w.wait ≠ .push r) :
    exec (.qpPost f) s =
      if !s.released w then s.stall
      else if 2 ^ 20 ≤ s.natB w f ∨ qpTag (s.qpBytes (s.natB w f)) ≠ s.tagOf w then s.ret f 3
      else if qpState (s.qpBytes (s.natB w f)) ≠ 3 then s.ret f 2
      else if (s.readS w (.int 64) f.a).toNat % 64 ≠ 0 then s.ret f 4
      else State.take (s.viaLoad (s.wavesVia w) (s.readS w (.int 64) f.a).toNat 64) 0 fun t r =>
        if wrBad r then t.ret f 4 else t.postEnter w f (s.natB w f) r := by
  change execQpPost f s = _
  rw [execQpPost, State.front_runs _ h]
  split
  · next r hq => exact absurd hq (hw r)
  · rfl

end

theorem qpPostCompletes : Claim.QpPostCompletes := by
  intro s w f h v q a b put posts first
  have henters : ∀ (s1 : State) (r : List Byte), s.samePlaces s1 → exec (.qpPost f) s = s1.postEnter w f q r → posts s1 r := by
    intro s1 r hsame he s2 d s3 resv hd hp
    have hring := he.trans (State.postEnter_samePlaces (f := f) hsame hd hp)
    refine ⟨fun hfull => hring.trans (if_pos hfull), fun s4 hroom hadd => hring.trans ((if_neg (Nat.not_le.2 hroom)).trans ?_)⟩
    rw [hadd]
    rfl
  refine ⟨fun r hr => henters s r s.samePlaces_refl (exec_qpPost_again h hr), fun hw hr => ?_, fun hw hr hq => ?_,
    fun hw hr hq ht => ?_⟩
  all_goals have hpost := exec_qpPost_first h hw
  · exact hpost.trans (if_pos (by simp [hr]))
  all_goals rw [if_neg (by simp [hr])] at hpost
  · exact hpost.trans (if_pos hq)
  rw [if_neg fun hc => hc.elim (Nat.not_le.2 hq) fun hne => hne ht] at hpost
  refine ⟨fun hst => hpost.trans (if_pos hst), fun hst ha => ?_, fun s1 r hst ha hl => ?_⟩
  all_goals rw [if_neg (not_not.2 hst)] at hpost
  · exact hpost.trans (if_pos ha)
  rw [if_neg (not_not.2 ha), hl] at hpost
  have hsame : s.samePlaces s1 := by
    have hload := s.viaLoad_samePlaces v a 64
    rwa [hl] at hload
  exact ⟨fun hbad => hpost.trans (if_pos hbad), fun hgood => henters s1 r hsame (hpost.trans (if_neg (Bool.eq_false_iff.1 hgood)))⟩

/-- Settles O55: each clause is the equation of one step of a queue pair. -/
theorem queuePairsComplete : Obligations.QueuePairsComplete :=
  ⟨queuePairStatesComplete, queuePairTrafficCompletes, responderAnswersInSequence, qpPostCompletes⟩

end Sys2Proof.Machine
end

section
/-! The end of a matrix operation (R349 to R351, R357): what its flaws do to a member whose accumulators are named in a file other
than v. -/

namespace Sys2Proof.Machine

/-! ### A member whose D is an s register -/

/-- A wave with one v register, which awaits its accumulators. -/
def mmaFlawedWave : Wave := { (default : Wave) with v := [⟨[], some 0⟩] }

/-- An MMA of that wave whose D is s0. -/
def mmaFlawedMember : MmaMember := { (default : MmaMember) with wave := mmaFlawedWave.id, f := { (default : Fields) with d := .s 0 } }

/-- A device with that member's operation in flight, and an error that cannot be corrected in the wave's s0. -/
def mmaFlawedState : State :=
  { State.reset with
    waves := [mmaFlawedWave]
    ranges := [{ (default : MosRange) with
      core := mmaFlawedWave.core, side := sideOf mmaFlawedWave.id.part, cord := mmaFlawedWave.cord
      start := 256 * mmaFlawedMember.f.ebits 15 8 }]
    flaws := [⟨.sreg mmaFlawedWave.id 0, false⟩]
    mmaOps := [⟨0, 0, 0, [mmaFlawedMember]⟩] }

/-- The operation ends without writing the member's accumulators: its register is not full. -/
theorem mmaFlawedState_ends : Out.ends (exec (.mmaOperationComplete 0 0) mmaFlawedState) fun t =>
    (t.waveAt mmaFlawedWave.id).map (fun w => w.full 0) = some false := rfl

/-- What the operation would write makes the register full. -/
theorem mmaFlawedWave_written (ms : List MmaMember) (rg : MosRange) :
    (mmaFlawedWave.mmaWrite ms mmaFlawedMember rg).full 0 = true := by
  unfold Wave.mmaWrite Wave.full
  rw [Wave.markFull_vReg, if_pos ⟨Nat.le_refl _, by decide⟩]
  rfl

/-- Refutes O45: the clause on the end of an operation keeps errors out of the ranges and the v registers only, but the
accumulators are read through D, whatever file it names: with D = s0 and an error in s0 the context faults and nothing is
written. -/
theorem not_matrixInstructionsEnd : ¬ Obligations.MatrixInstructionsEnd := by
  rintro ⟨hmatrix, -⟩
  obtain ⟨-, -, -, -, -, -, hop, -⟩ := hmatrix mmaFlawedState mmaFlawedWave default
  have hplaces : ∀ x ∈ mmaFlawedState.flaws, (∀ c d k, x.place ≠ .mos c d k) ∧ ∀ v n l, x.place ≠ .vreg v n l := by
    simp [mmaFlawedState]
  have hends := hop 0 0 _ rfl (List.nodup_singleton _) hplaces
  have hkept := mmaFlawedState_ends
  revert hends hkept
  cases exec (.mmaOperationComplete 0 0) mmaFlawedState with
  | next t =>
    rintro ⟨-, -, hwrites, -, -⟩ hkept
    have hwrite := hwrites mmaFlawedMember (List.mem_singleton.2 rfl) mmaFlawedWave _ rfl rfl
    change (t.waveAt mmaFlawedMember.wave).map (fun w => w.full 0) = some false at hkept
    rw [hwrite] at hkept
    exact absurd hkept (by simp [mmaFlawedWave_written])
  | _ => exact fun hends => hends.elim

end Sys2Proof.Machine
end

section
/-! What an access to memory leaves alone, whatever it meets on its way: the debug registers of the cores, which waves there are
and how they halted, and which cores hold tenures on a root (R15 to R17, R229 to R240, R296 to R310, R324 to R326). -/

namespace Sys2Proof.Machine

/-- A wave's name, and its last halt (R446). -/
def Wave.face (w : Wave) : WaveId × Bool × (Nat × Nat × Word64) := (w.id, w.halted, w.haltAs)

/-- A root, and the cores that hold tenures on it (R325). -/
def Handle.holders (h : Handle) : RootId × List Nat := (h.id, h.tenures.map fun t => t.core)

/-- The debug registers of the cores, the faces of the waves and the holders of the roots. -/
def State.look (s : State) : List DbgCore × List (WaveId × Bool × (Nat × Nat × Word64)) × List (RootId × List Nat) :=
  (s.dbgCores, s.waves.map Wave.face, s.handles.map Handle.holders)

/-! ### Lists -/

/-- A change of some entries that a reading does not see. -/
theorem map_modWhere {α β : Type} (g : α → β) {f : α → α} (h : ∀ a, g (f a) = g a) (l : List α) (p : α → Bool) :
    (modWhere l p f).map g = l.map g := by
  unfold modWhere
  rw [List.map_map]
  refine List.map_congr_left fun a _ => ?_
  dsimp only [Function.comp]
  split
  · exact h a
  · rfl

/-- A fold of steps that each keep what is looked at. -/
theorem foldl_look {α β : Type} (get : β → State) (one : β → α → β) (h : ∀ b a, (get (one b a)).look = (get b).look) (l : List α)
    (b : β) : (get (l.foldl one b)).look = (get b).look := foldl_keeps (fun b => (get b).look) one h l b

/-! ### Changes of one wave or one root -/

theorem State.modWave_look (s : State) (id : WaveId) {f : Wave → Wave} (h : ∀ w, (f w).face = w.face) : (s.modWave id f).look = s.look := by
  simp only [State.look, State.modWave, map_modWhere Wave.face h]

theorem State.modHandle_look (s : State) (r : RootId) {f : Handle → Handle} (h : ∀ x, (f x).holders = x.holders) :
    (s.modHandle r f).look = s.look := by
  simp only [State.look, State.modHandle, map_modWhere Handle.holders h]

/-! ### Writes -/

theorem State.contend_look (s : State) (pa : Nat) (core : Option Nat) (write : Bool) : (s.contend pa core write).look = s.look := by
  unfold State.contend
  split
  · refine s.modHandle_look _ fun x => ?_
    exact congrArg (Prod.mk _) (map_modWhere (fun t : Tenure => t.core) (by intro t; rfl) _ _)
  · rfl

theorem State.enter_look (s : State) (pa : Nat) : (s.enter pa).look = s.look := by
  unfold State.enter
  split
  · split
    · rfl
    · exact s.modHandle_look _ fun _ => rfl
  · rfl

theorem State.modLease_look (s : State) (t : LeaseTile) (f : Lease → Lease) : (s.modLease t f).look = s.look := by
  unfold State.modLease
  split <;> rfl

theorem State.newWrite_look (s : State) (agent : Agent) (tag core : Option Nat) (bytes : List Host.Cell) (grain : Nat)
    (cache : CacheMode) (pool : Bool) (bells : List Instr) : (s.newWrite agent tag core bytes grain cache pool bells).2.look = s.look := by
  unfold State.newWrite
  split
  · exact State.modWave_look _ _ fun _ => rfl
  · rfl
  · rfl

/-- A completion time that a wave receives leaves its face. -/
theorem State.returnTime_look (s : State) (id c : Nat) : (s.returnTime id c).look = s.look := by
  have hwatch : ∀ w : Wave, (if w.watch.contains id then { w.raise c with watch := w.watch.erase id } else w).face = w.face :=
    fun w => by split <;> rfl
  have hend : ∀ w : Wave, (if w.endSet.contains id then { w with endH := max w.endH c, endSet := w.endSet.erase id } else w).face =
      w.face := fun w => by split <;> rfl
  have hacq : ∀ w : Wave, (match w.wait with
      | .acq ids h => if ids.contains id then { w with wait := .acq (ids.erase id) (max h c) } else w
      | _ => w).face = w.face := fun w => by
    split
    · split <;> rfl
    · rfl
  simp only [State.look, State.returnTime, List.map_map]
  exact congrArg (fun l => (_, l, _)) (List.map_congr_left fun w _ => (hacq _).trans ((hend _).trans (hwatch w)))

theorem State.raisePort_look (s : State) (a : Agent) (c : Nat) : (s.raisePort a c).look = s.look := by
  unfold State.raisePort
  split <;> rfl

theorem State.acceptAs_look (contends : Bool) (s : State) (id : Nat) : (State.acceptAs contends s id).look = s.look := by
  have hreturn : ∀ (t : State) (l : List Write) (c : Nat), (State.returnTime { t with writes := l } id c).look = t.look :=
    fun t l c => State.returnTime_look { t with writes := l } id c
  unfold State.acceptAs
  split
  · rfl
  · split
    · rfl
    · split
      · exact State.returnTime_look _ _ _
      · refine (hreturn _ _ _).trans ((State.modLease_look _ _ _).trans ?_)
        cases contends
        · exact s.raisePort_look _ _
        · exact (State.contend_look _ _ _ _).trans (s.raisePort_look _ _)

theorem State.notBefore_look (s : State) (t id : Nat) : (s.notBefore t id).look = s.look := by
  have hraise : ∀ (u : State) (w : Write), (match w.agent with | .wave x => u.modWave x fun y => y.raise t | _ => u).look = u.look :=
    fun u w => by
      split
      · exact u.modWave_look _ fun _ => rfl
      · rfl
  unfold State.notBefore
  split
  · rfl
  · next w _ =>
    dsimp only
    split
    · rfl
    · exact (hraise _ w).trans (State.modLease_look _ _ _)

theorem State.contendWrite_look (s : State) (w : Write) : (s.contendWrite w).look = s.look := by
  unfold State.contendWrite
  split
  · refine foldl_look id _ (fun t c => ?_) _ _
    dsimp only [id]
    split
    · exact t.contend_look _ _ _
    · rfl
  · rfl

theorem State.acceptSector_look (s : State) (core sector : Nat) : (s.acceptSector core sector).look = s.look :=
  foldl_look id (fun (t : State) (w : Write) => t.acceptNow w.id) (fun t w => State.acceptAs_look true t w.id) _ s

theorem State.acceptOr_look (s : State) (id : Nat) : (s.acceptOr id).look = s.look := by
  unfold State.acceptOr
  split
  · split
    · exact State.acceptAs_look true s id
    · exact s.contendWrite_look _
  · rfl

/-! ### Errors -/

theorem State.takeFlaws_look (s : State) (die : Nat) (here : FlawPlace → Bool) : (s.takeFlaws die here).2.look = s.look := by
  obtain ⟨flaws, corrected, h⟩ := s.takeFlaws_eq die here
  rw [h]
  rfl

theorem State.faultLater_look (s : State) (tag : Nat) : (s.faultLater tag).look = s.look := by
  unfold State.faultLater
  split <;> rfl

theorem State.meetErrors_look (s : State) (core : Option Nat) (tag pa : Nat) : (s.meetErrors core tag pa).2.look = s.look := by
  unfold State.meetErrors
  dsimp only
  refine (foldl_look id _ (fun t f => ?_) _ _).trans ?_
  · dsimp only [id]
    split
    · rfl
    · split
      · split <;> rfl
      · rfl
      · rfl
  · dsimp only [id]
    split <;> rfl

/-! ### Translation -/

theorem State.setEntry_look (s : State) (tag pa : Nat) (e : Word64) : (s.setEntry tag pa e).look = s.look :=
  (State.acceptAs_look false (s.newWrite .engine (some tag) none (cellsAt pa (bytesOfNat 8 e.toNat)) 32 .normal false []).2 _).trans
    (s.newWrite_look ..)

theorem State.walkOver_look (s : State) (tag va level table : Nat) : (s.walkOver tag va level table).2.look = s.look := by
  have h := foldl_look Prod.snd (fun (p : Bool × State) a =>
    (p.1 || (p.2.meetErrors none tag a).1, (p.2.meetErrors none tag a).2)) (fun p a => p.2.meetErrors_look none tag a)
    (((level, table) :: walkTables s.readEntry (vaBits va) level table).flatMap fun x => tableReads s.readEntry (vaBits va) x.1 x.2)
    (false, s)
  unfold State.walkOver
  dsimp only
  split <;> exact h

theorem State.walkBy_look (s : State) (unit tag va : Nat) : (s.walkBy unit tag va).2.look = s.look := by
  have h := s.walkOver_look tag va (s.walkStart unit tag va).1 (s.walkStart unit tag va).2
  unfold State.walkBy
  split <;> next e => rw [e] at h; exact h

theorem State.useLeaf_look (s : State) (unit tag : Nat) (sup : Bool) (kind va : Nat) (w : WalkEnd) :
    (s.useLeaf unit tag sup kind va w).2.look = s.look := by
  have hset : ∀ e, (if e = w.entry then s else s.setEntry tag w.slot e).look = s.look := fun e => by
    split
    · rfl
    · exact s.setEntry_look _ _ _
  unfold State.useLeaf
  split
  · rfl
  · exact hset _

theorem State.walkLeaf_look (s : State) (unit tag : Nat) (sup : Bool) (kind va : Nat) :
    (s.walkLeaf unit tag sup kind va).2.look = s.look := by
  have h := s.walkBy_look unit tag va
  unfold State.walkLeaf
  grind [!State.useLeaf_look]

theorem State.translateNoFt_look (s : State) (unit tag : Nat) (sup : Bool) (kind va : Nat) :
    (s.translateNoFt unit tag sup kind va).2.look = s.look := by
  have hmeet : (s.meetTlb unit tag va).look = s.look := by
    unfold State.meetTlb; dsimp only; split <;> rfl
  unfold State.translateNoFt
  split
  · rfl
  · dsimp only
    split
    · split
      · exact hmeet
      · exact (State.walkLeaf_look { s.meetTlb unit tag va with tlb := _ } _ _ _ _ _).trans hmeet
    · exact (State.walkLeaf_look _ _ _ _ _ _).trans hmeet

theorem State.askTouch_look (s : State) (unit tag die kind va : Nat) (w : WalkEnd) :
    (s.askTouch unit tag die kind va w).2.look = s.look := by
  unfold State.askTouch
  dsimp only
  split
  · dsimp only; split <;> rfl
  · split <;> rfl

theorem State.translate_look (s : State) (unit tag die : Nat) (sup : Bool) (kind va : Nat) :
    (s.translate unit tag die sup kind va).2.look = s.look := by
  have h := s.translateNoFt_look unit tag sup kind va
  unfold State.translate
  grind [!State.walkBy_look, !State.askTouch_look]

/-! ### Accesses -/

theorem State.l1Serve_look (s : State) (core : Option Nat) (tag : Nat) (sup : Bool) (kind va : Nat) :
    (s.l1Serve core tag sup kind va).2.look = s.look := by
  unfold State.l1Serve
  split
  · rfl
  · split
    · rfl
    · split
      · rfl
      · dsimp only
        split
        · rfl
        · split <;> next e => exact (congrArg (fun x => x.2.look = s.look) e).mp (s.takeFlaws_look _ _)

theorem State.atHome_look (s : State) (tag : Nat) (core : Option Nat) (write : Bool) (pa : Nat) :
    (s.atHome tag core write pa).1.look = s.look := by
  have h := s.meetErrors_look core tag pa
  unfold State.atHome
  grind [!State.contend_look, !State.enter_look]

theorem State.locate_look (s : State) (unit tag die : Nat) (sup : Bool) (kind : Nat) (core : Option Nat) (l : List (Nat × Nat)) :
    (s.locate unit tag die sup kind core l).1.look = s.look := by
  fun_induction State.locate <;> grind [!State.translate_look, !State.l1Serve_look, !andThen_cases, !State.atHome_look]

theorem State.useHome_look (s : State) (hint : Nat) (l : List (Nat × Nat × Word64)) : (s.useHome hint l).look = s.look := by
  refine foldl_look id _ (fun t p => ?_) l s
  dsimp only [id]
  unfold State.useL2
  split
  · rfl
  · split
    · rfl
    · unfold State.fitL2
      dsimp only
      split
      · rfl
      · split <;> rfl

theorem State.hwLoad_look (s : State) (unit tag die : Nat) (sup : Bool) (va n : Nat) : (s.hwLoad unit tag die sup va n).1.look = s.look := by
  unfold State.hwLoad State.hwLoadHint
  grind [!State.locate_look, !andThen_cases, !State.useHome_look]

theorem State.storePieces_look (s : State) (agent : Agent) (tag core : Option Nat) (now : Bool) (l : List (Nat × Nat × Word64))
    (bs : List Byte) : (s.storePieces agent tag core now l bs).2.look = s.look := by
  have hnew : ∀ (t : State) pa e bs, (t.enterWrite agent tag core pa e bs).2.look = t.look := fun t _ _ _ => t.newWrite_look ..
  have hnow : ∀ (t : State) id, (t.acceptNow id).look = t.look := State.acceptAs_look true
  fun_induction State.storePieces <;> grind [!State.useHome_look]

theorem State.hwStore_look (s : State) (agent : Agent) (unit tag die : Nat) (sup : Bool) (va : Nat) (bs : List Byte) :
    (s.hwStore agent unit tag die sup va bs).1.look = s.look := by
  unfold State.hwStore
  grind [!State.locate_look, !andThen_cases, !State.storePieces_look]

theorem andThen_look {α β : Type} {r : State × Acc α} {k : State → α → State × Acc β} {s : State} (hr : r.1.look = s.look)
    (hk : ∀ t a, t.look = s.look → (k t a).1.look = s.look) : (andThen r k).1.look = s.look := by
  obtain ⟨t, a | _ | _ | _⟩ := r
  · exact hk t a hr
  all_goals exact hr

theorem State.ringPost_look (s : State) (unit tag die desc esz : Nat) (entry : List Byte) :
    (s.ringPost unit tag die desc esz entry).1.look = s.look := by
  unfold State.ringPost
  refine andThen_look (s.hwLoad_look ..) fun t d ht => ?_
  dsimp only
  split
  · exact ht
  · refine andThen_look ((t.locate_look ..).trans ht) fun t _ ht => ?_
    refine andThen_look ((t.hwStore_look ..).trans ht) fun t i ht => ?_
    refine andThen_look ((t.hwStore_look ..).trans ht) fun t j ht => ?_
    exact (foldl_look id _ (fun u x => u.notBefore_look _ x) j t).trans ht

/-! ### Records and write-backs -/

theorem State.record_look (s : State) (w : Wave) (kind st bp : Nat) (blame : Word64) : (s.record w kind st bp blame).look = s.look := by
  have hpost := s.ringPost_look unitSched 0 w.die (s.dbgDies.getD w.die ⟨0, 0, 0⟩).ring.toNat 64 (s.recordBytes w kind st bp blame)
  unfold State.record
  dsimp only
  split
  · rfl
  · split
    · next e => rw [e] at hpost; exact hpost
    · next t r _ e =>
      rw [e] at hpost
      refine Eq.trans ?_ hpost
      change (if (r == .bad) = true then t.faultLater 0 else t).look = t.look
      split
      · exact t.faultLater_look 0
      · rfl

theorem State.sendBack_look (s : State) (core : Nat) (d : Dirty) (bs : List Host.Cell) : (s.sendBack core d bs).2.look = s.look := by
  have hmod : ∀ (t : State) (id : Nat) (f : Write → Write), (t.modWrite id f).look = t.look := fun _ _ _ => rfl
  have hpoison : ∀ (t : State) (tag pa : Nat), (t.poisonSector tag pa).look = t.look := fun _ _ _ => rfl
  unfold State.sendBack
  dsimp only
  split
  · next t e =>
    have hflaws : t.look = s.look := (congrArg (fun x => x.2.look = s.look) e).mp (s.takeFlaws_look _ _)
    exact (State.faultLater_look _ _).trans ((hpoison _ _ _).trans hflaws)
  · next t e =>
    have hflaws : t.look = s.look := (congrArg (fun x => x.2.look = s.look) e).mp (s.takeFlaws_look _ _)
    split
    · exact (State.faultLater_look _ _).trans hflaws
    · exact (State.acceptOr_look _ _).trans ((hmod _ _ _).trans ((State.newWrite_look ..).trans ((t.acceptSector_look _ _).trans hflaws)))

theorem State.writeBack_look (s : State) (core : Nat) (r : RootId) : (s.writeBack core r).2.look = s.look := by
  unfold State.writeBack State.writeBackIf
  refine (foldl_look Prod.snd _ (fun p d => ?_) _ _).trans rfl
  refine foldl_look Prod.snd _ (fun q bs => ?_) _ p
  exact q.2.sendBack_look _ _ _

end Sys2Proof.Machine
end

section
/-! Explicit tiles (R334 to R340): the tile instructions; the tenures that are granted, renewed and ended (R325 to R328). -/

namespace Sys2Proof.Machine

section
variable {s t : State} {w : Wave} {f : Fields}

/-- The handle that a tile instruction names. -/
def State.tileNamed (s : State) (w : Wave) (f : Fields) : Option Handle := s.openHandle (s.tagOf w) (lo32 (s.readS w (.int 32) f.a))

/-- What an instruction does to an open handle, or TILE_STALE (R334). -/
theorem State.withHandle_open {h : Handle} {k : Handle → Out} (hh : s.tileNamed w f = some h) : s.withHandle w f k = k h := by
  unfold State.withHandle
  rw [State.tileNamed] at hh
  simp only [hh]

theorem State.withHandle_stale {k : Handle → Out} (hh : s.tileNamed w f = none) :
    s.withHandle w f k = s.trap 0x30 w.exec ((lo32 (s.readS w (.int 32) f.a)).setWidth 64) := by
  unfold State.withHandle
  rw [State.tileNamed] at hh
  simp only [hh]

/-! ### TILE.OPEN -/

theorem exec_tileOpen {b : List Byte} (h : s.runs w (.tileOpen f) f .dest false = true)
    (hl : s.waveLoad w w.sup (s.readS w (.int 64) f.a).toNat 64 0 = (t, .ok b)) : exec (.tileOpen f) s =
      State.take (t.tileOpen w b (footHandle b (f.ebits 2 0) (f.ebits 5 3) (f.ebits 8 6) (f.ebits 10 9 + 1))) 0 fun s r =>
        s.finish f fun w => w.putS f.d (pair32 (if r.1 ≤ 1 then r.2.value else 0) (BitVec.ofNat 32 r.1)) := by
  change execTileOpen f s = _
  rw [execTileOpen, State.front_runs _ h, hl]
  rfl

/-! ### TILE.CLOSE and TILE.QRY -/

theorem exec_tileClose (h : s.runs w (.tileClose f) f .dest false = true) : exec (.tileClose f) s =
    s.withHandle w f fun x => (s.tileClose x).2.ret f (s.tileClose x).1 := by
  change execTileClose f s = _
  rw [execTileClose, State.front_runs _ h]
  rfl

theorem exec_tileQry (h : s.runs w (.tileQry f) f .dest false = true) : exec (.tileQry f) s =
    s.ret f (match s.tileNamed w f with | some x => s.tileQuery w x (f.mbits 2 0) | none => 0) := by
  change execTileQry f s = _
  rw [execTileQry, State.front_runs _ h]
  rfl

/-! ### TILE.ACQ -/

/-- The mode that TILE.ACQ asks for. -/
def acqMode (f : Fields) : TenMode := if f.m = 1 then .w else .r

/-- The entry of the wave's cord for the root of a handle. -/
def State.entryFor (s : State) (w : Wave) (h : Handle) : Option TenEntry :=
  (s.cordOf w).tenures.find? fun t => t.root == (s.rootHandle h).id

/-- The cord holds the root strongly enough. -/
def State.entryHeld (s : State) (w : Wave) (f : Fields) (h : Handle) : Bool :=
  match s.entryFor w h with
  | some t => t.lapsed.isNone && (t.mode == TenMode.w || t.mode == acqMode f)
  | none => false

/-- A request for the root waits in its queue (R328, R337). -/
def State.tenureAsked (s : State) (w : Wave) (f : Fields) (r : RootId) : State :=
  (s.modHandle r fun h => { h.contendReq w.core (acqMode f) with
    reqs := h.reqs ++ [⟨w.id, w.cord, w.core, acqMode f⟩], dir := true, used := s.serial }).modMe
      fun w => { w with wait := .tile r f.d (fieldsBytes f) }

theorem exec_tileAcq {h : Handle} (hr : s.runs w (.tileAcq f) f .dest false = true) (hh : s.tileNamed w f = some h) :
    exec (.tileAcq f) s =
      if (s.rootHandle h).orphan then s.trap 0x31 w.exec ((lo32 (s.readS w (.int 32) f.a)).setWidth 64)
      else if s.entryHeld w f h then s.ret f 0
      else if acqMode f = TenMode.w ∧ (s.rootHandle h).ro then s.ret f 12
      else if 32 ≤ (s.cordOf w).tenures.length ∧ (s.entryFor w h).isNone then s.ret f 13
      else if (s.rootHandle h).tenures.any fun t => t.core == w.core && (t.mode == TenMode.w || t.mode == acqMode f) then
        (s.modCord w.cord fun c => c.hold (s.rootHandle h).id (acqMode f)).finish f
          fun y => { y.putS f.d 0 with hold := max y.hold (s.leaseOf (.root (s.rootHandle h).id)).2 }
      else if !(s.rootHandle h).dir && s.sliceFull (s.rootHandle h).home then s.stall
      else .next (s.tenureAsked w f (s.rootHandle h).id) := by
  change execTileAcq f s = _
  rw [execTileAcq, State.front_runs _ hr, State.withHandle_open hh]
  rfl

/-! ### TILE.REL -/

theorem exec_tileRel_entry {h : Handle} {e : TenEntry} (hr : s.runs w (.tileRel f) f .dest false = true)
    (hh : s.tileNamed w f = some h) (he : s.entryFor w h = some e) : exec (.tileRel f) s =
      if !(s.unreleasedOf w.id).isEmpty then s.stall
      else (s.releaseEntry (s.cordOf w) e).2.finish f fun y => y.raise (s.releaseEntry (s.cordOf w) e).1 := by
  change execTileRel f s = _
  rw [execTileRel, State.front_runs _ hr, State.withHandle_open hh]
  rw [State.entryFor] at he
  simp only [he]

theorem exec_tileRel_none {h : Handle} (hr : s.runs w (.tileRel f) f .dest false = true) (hh : s.tileNamed w f = some h)
    (he : s.entryFor w h = none) :
    exec (.tileRel f) s = s.trap 0x32 w.exec ((lo32 (s.readS w (.int 32) f.a)).setWidth 64) := by
  change execTileRel f s = _
  rw [execTileRel, State.front_runs _ hr, State.withHandle_open hh]
  rw [State.entryFor] at he
  simp only [he]

/-! ### TILE.SPLIT -/

theorem exec_tileSplit {h : Handle} (hr : s.runs w (.tileSplit f) f .dest false = true) (hh : s.tileNamed w f = some h) :
    exec (.tileSplit f) s =
      if s.splitStatus w h (f.mbits 1 0) (s.natB w f) = 0 then
        State.take (s.tileSplit w h (f.mbits 1 0) (s.natB w f)) 1 fun s r => match r with
          | some (p0, p1) => s.finish f fun w => w.putS f.d (pair32 p0.value p1.value)
          | none => s.finish f fun w => w.putS f.d (pair32 0 (BitVec.ofNat 32 6))
      else s.finish f fun y => y.putS f.d (pair32 0 (BitVec.ofNat 32 (s.splitStatus w h (f.mbits 1 0) (s.natB w f)))) := by
  change execTileSplit f s = _
  rw [execTileSplit, State.front_runs _ hr, State.withHandle_open hh]
  dsimp only
  split
  · next h0 => exact (if_pos h0).symm
  · next h0 => rw [if_neg h0]

end

/-! ### A request for a tenure -/

theorem State.modHandle_handle (s : State) (r : RootId) (g : Handle → Handle) (hg : ∀ h, (g h).id = h.id) :
    (s.modHandle r g).handle r = (s.handle r).map g :=
  find?_modWhere _ _ _ fun h => by simp only [hg]

theorem State.tenureAsked_me {s : State} {w : Wave} (f : Fields) (r : RootId) (h : s.me = some w) :
    (s.tenureAsked w f r).me = some { w with wait := .tile r f.d (fieldsBytes f) } := by
  have hme : (s.modHandle r fun h => { h.contendReq w.core (acqMode f) with
      reqs := h.reqs ++ [⟨w.id, w.cord, w.core, acqMode f⟩], dir := true, used := s.serial }).me = some w := h
  rw [State.tenureAsked, State.modMe_eq _ w _ hme, State.setMe_me _ w _ hme]

theorem State.tenureAsked_reqs {s : State} {w : Wave} (f : Fields) {r : RootId} {x : Handle} (hx : s.handle r = some x) :
    ((s.tenureAsked w f r).handle r).map (fun y => y.reqs) = some (x.reqs ++ [⟨w.id, w.cord, w.core, acqMode f⟩]) := by
  have h := s.modHandle_handle r (fun h => { h.contendReq w.core (acqMode f) with
    reqs := h.reqs ++ [⟨w.id, w.cord, w.core, acqMode f⟩], dir := true, used := s.serial }) fun _ => rfl
  rw [hx] at h
  exact congrArg (Option.map fun y => y.reqs) h

section
variable {s : State} {w : Wave} {f : Fields} {h : Handle}

theorem exec_tileAcq_held {e : TenEntry} (hr : s.runs w (.tileAcq f) f .dest false = true) (hh : s.tileNamed w f = some h)
    (ho : (s.rootHandle h).orphan = false) (he : s.entryFor w h = some e) (hl : e.lapsed = none)
    (hm : e.mode = .w ∨ e.mode = acqMode f) : exec (.tileAcq f) s = s.ret f 0 := by
  have hheld : s.entryHeld w f h = true := by simp [State.entryHeld, he, hl, hm]
  rw [exec_tileAcq hr hh, if_neg (Bool.eq_false_iff.1 ho), if_pos hheld]

theorem State.entryHeld_none (he : s.entryFor w h = none) : s.entryHeld w f h = false := by
  simp only [State.entryHeld, he]

theorem exec_tileAcq_readOnly (hr : s.runs w (.tileAcq f) f .dest false = true) (hh : s.tileNamed w f = some h)
    (ho : (s.rootHandle h).orphan = false) (he : s.entryFor w h = none) (hm : acqMode f = .w) (hro : (s.rootHandle h).ro = true) :
    exec (.tileAcq f) s = s.ret f 12 := by
  rw [exec_tileAcq hr hh, if_neg (Bool.eq_false_iff.1 ho), if_neg (Bool.eq_false_iff.1 (State.entryHeld_none he)), if_pos ⟨hm, hro⟩]

theorem exec_tileAcq_asks (hr : s.runs w (.tileAcq f) f .dest false = true) (hh : s.tileNamed w f = some h)
    (ho : (s.rootHandle h).orphan = false) (he : s.entryFor w h = none) (hm : acqMode f = .r ∨ (s.rootHandle h).ro = false)
    (hlen : (s.cordOf w).tenures.length < 32) (hcore : ∀ t ∈ (s.rootHandle h).tenures, t.core ≠ w.core)
    (hdir : (s.rootHandle h).dir = true ∨ s.sliceFull (s.rootHandle h).home = false) :
    exec (.tileAcq f) s = .next (s.tenureAsked w f (s.rootHandle h).id) := by
  have hwrites : ¬ (acqMode f = .w ∧ (s.rootHandle h).ro = true) := by
    rintro ⟨hw, hro⟩
    rcases hm with hm | hm
    · rw [hw] at hm; cases hm
    · rw [hro] at hm; cases hm
  have hroom : ¬ (32 ≤ (s.cordOf w).tenures.length ∧ (s.entryFor w h).isNone = true) := fun hc => not_lt.2 hc.1 hlen
  have hother : ¬ ((s.rootHandle h).tenures.any fun t => t.core == w.core && (t.mode == TenMode.w || t.mode == acqMode f)) = true := by
    rintro hc
    obtain ⟨t, ht, hc⟩ := List.any_eq_true.1 hc
    exact hcore t ht (beq_iff_eq.1 (Bool.and_eq_true_iff.1 hc).1)
  have hentry : ¬ (!(s.rootHandle h).dir && s.sliceFull (s.rootHandle h).home) = true := by
    rcases hdir with hd | hd <;> simp [hd]
  rw [exec_tileAcq hr hh, if_neg (Bool.eq_false_iff.1 ho), if_neg (Bool.eq_false_iff.1 (State.entryHeld_none he)), if_neg hwrites,
    if_neg hroom, if_neg hother, if_neg hentry]

end

theorem tileInstructionsComplete : Claim.TileInstructionsComplete := by
  intro s w f v m put
  refine ⟨fun t b h hl => ⟨fun u st x hr => ?_, fun u hr => ?_⟩, fun hstale => ⟨fun h => ?_, fun h => ?_, fun h => ?_⟩,
    fun h hopen => ⟨fun hr => ?_, fun hr => ?_, fun e hr he => ⟨fun hun => ?_, fun hun => ?_⟩, fun hr he => ?_,
      fun hr horph => ⟨fun e he hl hm => ?_, fun he hm hro => ?_, fun he hm hlen hcore hdir => ?_⟩,
      fun hr horph => ?_, fun hr => ⟨fun hst => ?_, fun p t hst hsplit => ?_⟩⟩⟩
  · rw [exec_tileOpen h hl, show t.tileOpen w b _ = _ from hr]
    rfl
  · rw [exec_tileOpen h hl, show t.tileOpen w b _ = _ from hr]
    rfl
  · exact (exec_tileClose h).trans (State.withHandle_stale hstale)
  · change execTileAcq f s = _
    rw [execTileAcq, State.front_runs _ h]
    exact State.withHandle_stale hstale
  · rw [exec_tileQry h, show s.tileNamed w f = none from hstale]
    rfl
  · exact (exec_tileClose hr).trans (State.withHandle_open hopen)
  · rw [exec_tileQry hr, show s.tileNamed w f = some h from hopen]
    rfl
  · rw [exec_tileRel_entry hr hopen he, hun]
    rfl
  · exact (exec_tileRel_entry hr hopen he).trans (if_pos (by simp [hun]))
  · exact exec_tileRel_none hr hopen he
  · exact exec_tileAcq_held hr hopen horph he hl hm
  · exact exec_tileAcq_readOnly hr hopen horph he hm hro
  · rw [exec_tileAcq_asks hr hopen horph he hm hlen hcore hdir]
    exact ⟨State.tenureAsked_me f _ (State.runs_me hr), fun x hx => State.tenureAsked_reqs f hx⟩
  · exact (exec_tileAcq hr hopen).trans (if_pos horph)
  · exact (exec_tileSplit hr hopen).trans (if_neg hst)
  · rw [exec_tileSplit hr hopen, if_pos hst, hsplit]
    rfl

/-! ### Tenures over time (R325 to R328) -/

section
variable {s t : State} {r : RootId} {h : Handle}

/-- A lone request that may be granted is granted (R328). -/
theorem exec_tenureGrant_lone {q : TenReq} (hs : s.handle r = some h) (hq : h.reqs = [q]) (hg : s.mayGrant h = true) :
    exec (.tenureGrant r) s = .next (s.grantOne r q) := by
  change execTenureGrant r s = _
  simp only [execTenureGrant, hs, Option.map_some, Option.getD_some, hq, List.length_singleton, State.grantLoop, hg, Bool.not_true,
    Bool.false_eq_true, if_false, ite_self]

/-- A wave whose wait for a root's tenure ends: D is 0, and it issues once %time has reached CLAST (R337). -/
def Wave.granted (r : RootId) (clast : Nat) (w : Wave) : Wave :=
  match w.wait with
  | .tile x d len => if x = r then { (w.putS d 0).next len with hold := max w.hold clast } else w
  | _ => w

theorem Wave.next_id (w : Wave) (n : Nat) : (w.next n).id = w.id := by
  obtain ⟨rep, pc, jumped, loop, loopSup, h⟩ := w.next_eq n
  rw [h]

theorem Wave.putS_id (w : Wave) (d : Opnd) (x : Word64) : (w.putS d x).id = w.id := by
  obtain ⟨s, h⟩ := w.putS_eq d x
  rw [h]

theorem Wave.granted_id (r : RootId) (clast : Nat) (w : Wave) : (w.granted r clast).id = w.id := by
  unfold Wave.granted
  split
  · split
    · exact (Wave.next_id _ _).trans (w.putS_id _ _)
    · rfl
  · rfl

theorem Handle.contendReqs_id (l : List TenReq) (h : Handle) : (l.foldl (fun h x => h.contendReq x.core x.mode) h).id = h.id :=
  foldl_keeps (fun h : Handle => h.id) (fun (h : Handle) (x : TenReq) => h.contendReq x.core x.mode) (fun _ _ => rfl) l h

/-- A root whose first request has been granted; the requests behind it contend the tenure (R326, R328). -/
def Handle.granted (q : TenReq) (now used : Nat) (h : Handle) : Handle :=
  (h.reqs.drop 1).foldl (fun h x => h.contendReq x.core x.mode)
    { h.grant q.core q.mode now with reqs := h.reqs.drop 1, dir := true, used := used }

/-- A wave's request is granted: the wave, and the root. -/
theorem State.grantOne_wave (s : State) (r : RootId) (q : TenReq) (hp : q.wave.part ≠ Config.partitions) :
    (s.grantOne r q).waveAt q.wave = (s.waveAt q.wave).map (Wave.granted r (s.leaseOf (.root r)).2) ∧
    (s.grantOne r q).handle r = (s.handle r).map (Handle.granted q s.time s.serial) := by
  unfold State.grantOne
  dsimp only
  rw [if_neg hp]
  refine ⟨State.modWave_waveAt _ q.wave (Wave.granted r (s.leaseOf (.root r)).2) (Wave.granted_id r _), ?_⟩
  refine (State.modHandle_handle _ r _ fun h => Handle.contendReqs_id h.reqs h).trans ?_
  refine (congrArg _ (State.modHandle_handle s r _ (by intro h; rfl))).trans ?_
  rw [Option.map_map]
  rfl

end

/-- The roots' holders tell a root's. -/
theorem State.handle_holders {s t : State} (h : t.look = s.look) (r : RootId) :
    (t.handle r).map Handle.holders = (s.handle r).map Handle.holders := by
  have hlist : t.handles.map Handle.holders = s.handles.map Handle.holders := congrArg (fun x => x.2.2) h
  have hfind : ∀ u : State, (u.handle r).map Handle.holders = (u.handles.map Handle.holders).find? fun x => x.1 == r := fun u => by
    rw [List.find?_map]
    rfl
  rw [hfind, hfind, hlist]

/-- A root without the tenures of a core. -/
def Handle.without (core : Nat) (h : Handle) : Handle := { h with tenures := h.tenures.filter fun t => t.core != core }

/-- A tenure that ends leaves its core no tenure on the root: its write-back gives none (R327). -/
theorem State.endTenure_holders {s : State} {r : RootId} {core : Nat} {x : Handle} (hx : (s.endTenure r core).handle r = some x) :
    ∀ y ∈ x.tenures, y.core ≠ core := by
  have hlook : ∃ u : State, (s.endTenure r core).look = (u.modHandle r (Handle.without core)).look :=
    ⟨_, State.writeBack_look (State.modHandle _ r (Handle.without core)) core r⟩
  obtain ⟨u, hlook⟩ := hlook
  have hroot := State.handle_holders hlook r
  rw [hx, State.modHandle_handle u r (Handle.without core) fun _ => rfl, Option.map_map] at hroot
  obtain ⟨h, -, hh⟩ := Option.map_eq_some_iff.1 hroot.symm
  have hcores : x.tenures.map (fun t => t.core) = (h.without core).tenures.map fun t => t.core := (congrArg Prod.snd hh).symm
  intro y hy
  have hmem := List.mem_map_of_mem (f := fun t : Tenure => t.core) hy
  rw [hcores] at hmem
  obtain ⟨z, hz, hzy⟩ := List.mem_map.1 hmem
  have hne := (List.mem_filter.1 hz).2
  rw [← hzy]
  exact bne_iff_ne.1 hne

theorem exec_tenureExpiry {s : State} {r : RootId} {core : Nat} {h : Handle} (hs : s.handle r = some h)
    (hy : ∃ y ∈ h.tenures, y.core = core ∧ y.contended = true ∧ y.expiry ≤ s.time) :
    exec (.tenureExpiry r core) s = .next (s.endTenure r core) := by
  have hdue : (h.tenures.any fun t => t.core == core && t.contended && decide (t.expiry ≤ s.time)) = true := by
    simpa [and_assoc] using hy
  change execTenureExpiry r core s = _
  simp only [execTenureExpiry, hs, hdue, if_true]

theorem exec_tenureRenew_tenures {s : State} {r : RootId} (core : Nat) {h : Handle} (hs : s.handle r = some h) :
    Out.ends (exec (.tenureRenew r core) s) fun t => (t.handle r).map (fun x => x.tenures) =
      some (modWhere h.tenures (fun t => t.core == core && h.nearExpiry t s.time) fun t => { t with expiry := s.time + h.len t.mode }) := by
  have hroot := s.modHandle_handle r (fun h => { h with
    tenures := modWhere h.tenures (fun t => t.core == core && h.nearExpiry t s.time) fun t => { t with expiry := s.time + h.len t.mode } })
    fun _ => rfl
  rw [hs] at hroot
  exact congrArg (Option.map fun x => x.tenures) hroot

theorem tenureEventsComplete : Claim.TenureEventsComplete := by
  intro s r h hs
  refine ⟨fun q hq hg hp => ?_, fun core => ?_, fun core hy => ?_⟩
  · rw [exec_tenureGrant_lone hs hq hg]
    obtain ⟨hwave, hhandle⟩ := s.grantOne_wave r q hp
    have hone : h.granted q s.time s.serial = { h.grant q.core q.mode s.time with reqs := [], dir := true, used := s.serial } := by
      rw [Handle.granted, hq]
      rfl
    rw [hs, Option.map_some, hone] at hhandle
    refine ⟨_, hhandle, rfl, ⟨_, rfl, ?_⟩, fun w d len hw hwait => ?_⟩
    · split
      · exact .inl rfl
      · exact .inr rfl
    · rw [hwave, hw, Option.map_some, Wave.granted, hwait]
      exact congrArg some (if_pos rfl)
  · refine (exec_tenureRenew_tenures core hs).trans (congrArg some (List.map_congr_left fun y _ => if_congr ?_ rfl rfl))
    simp [Handle.nearExpiry]
  · rw [exec_tenureExpiry hs hy]
    exact fun x hx => State.endTenure_holders hx

/-- Settles O42: the equation of each tile instruction, and what a grant, a renewal and an expiry leave of the root's tenures. -/
theorem tilesAndTenuresComplete : Obligations.TilesAndTenuresComplete := ⟨tileInstructionsComplete, tenureEventsComplete⟩

end Sys2Proof.Machine
end

section
/-! Measurement and debug (R435 to R446): the debug registers of a slot, the debug instructions, halts and resumptions, samples,
the debugger's part in an issue, waves that leave their slots, and the frozen device. -/

namespace Sys2Proof.Machine

/-! ### Bits of the debug registers (R437) -/

theorem bitClear_getLsbD (x : Word64) (m n : Nat) : (bitClear x m).getLsbD n = (x.getLsbD n && !decide (n = m)) := by
  simp only [bitClear, BitVec.getLsbD_and, BitVec.getLsbD_not, BitVec.getLsbD_shiftLeft, BitVec.getLsbD_one]
  by_cases hn : n < 64
  · simp only [hn, decide_true, Bool.true_and]
    by_cases h : n = m
    · subst h; simp
    · have hm : (decide (n < m) = false → decide (n - m = 0) = false) := by simp; omega
      cases hd : decide (n < m) with
      | true => simp [h]
      | false => simp [h, hm hd]
  · simp [BitVec.getLsbD_of_ge x n (by omega)]

theorem bitSet_getLsbD (x : Word64) (m n : Nat) : (bitSet x m).getLsbD n = (x.getLsbD n || (decide (n = m) && decide (n < 64))) := by
  simp only [bitSet, BitVec.getLsbD_or, BitVec.getLsbD_shiftLeft, BitVec.getLsbD_one]
  congr 1
  by_cases hn : n < 64
  · by_cases h : n = m
    · subst h; simp [hn]
    · simp [hn, h]; omega
  · simp [hn]

/-- A part of a core's debug registers that a change leaves alone. -/
theorem State.modDbg_keeps {α : Type} (get : DbgCore → α) (s : State) (c k : Nat) (f : DbgCore → DbgCore) (hf : ∀ d, get (f d) = get d) :
    get ((s.modDbg c f).dbg k) = get (s.dbg k) := by
  simp only [State.dbg, State.modDbg, List.getD_eq_getElem?_getD, modAt_get?]
  split
  · cases s.dbgCores[k]? with
    | none => rfl
    | some d => exact hf d
  · rfl

/-- A change that leaves the registers of reset as they are is seen on the core that it is made on. -/
theorem State.modDbg_dbg (s : State) (c k : Nat) (f : DbgCore → DbgCore) (hf : f DbgCore.reset = DbgCore.reset) :
    (s.modDbg c f).dbg k = if c = k then f (s.dbg k) else s.dbg k := by
  simp only [State.dbg, State.modDbg, List.getD_eq_getElem?_getD, modAt_get?]
  split
  · cases s.dbgCores[k]? with
    | none => exact hf.symm
    | some d => rfl
  · rfl

/-! ### Waves that leave their slots (R446) -/

/-- What a wave's leaving does to the registers of its core. -/
def DbgCore.leave (d : DbgCore) (n : Nat) : DbgCore :=
  let d := if d.stopreq.getLsbD n then { d with stopreq := bitClear d.stopreq n, cancelled := bitSet d.cancelled n } else d
  { d with halted := bitClear d.halted n }

theorem State.leaveSlot_dbg (s : State) (id : WaveId) (k : Nat) :
    (s.leaveSlot id).dbg k = if id.core = k then (s.dbg k).leave (slotNum id) else s.dbg k := by
  have hreset : (fun d : DbgCore => { d with halted := bitClear d.halted (slotNum id) }) DbgCore.reset = DbgCore.reset := by
    simp [DbgCore.reset, bitClear]
  rw [State.leaveSlot, State.modDbg_dbg _ _ _ _ hreset, State.cancelStop, State.modDbg_dbg _ _ _ _ (by simp [DbgCore.reset])]
  split <;> rfl

/-- A stop request that was pending is pending, or has been cancelled. -/
def DbgCore.accounts (d d0 : DbgCore) (n : Nat) : Prop :=
  d0.stopreq.getLsbD n = true → d.stopreq.getLsbD n = true ∨ d.cancelled.getLsbD n = true

/-- No stop request and no halt is left in a slot. -/
def DbgCore.free (d : DbgCore) (n : Nat) : Prop := d.stopreq.getLsbD n = false ∧ d.halted.getLsbD n = false

/-- The bits of the registers after a wave has left slot m. -/
theorem DbgCore.leave_bits (d : DbgCore) (m n : Nat) :
    (d.leave m).stopreq.getLsbD n = (d.stopreq.getLsbD n && !decide (n = m)) ∧
    (d.leave m).halted.getLsbD n = (d.halted.getLsbD n && !decide (n = m)) ∧
    (d.leave m).cancelled.getLsbD n = (d.cancelled.getLsbD n || (d.stopreq.getLsbD n && decide (n = m))) := by
  unfold DbgCore.leave
  dsimp only
  split
  · next h =>
    refine ⟨bitClear_getLsbD _ _ _, bitClear_getLsbD _ _ _, ?_⟩
    dsimp only
    rw [bitSet_getLsbD]
    by_cases hn : n = m
    · subst hn
      have hlt : n < 64 := BitVec.lt_of_getLsbD h
      simp [h, hlt]
    · simp [hn]
  · next h =>
    refine ⟨?_, bitClear_getLsbD _ _ _, ?_⟩
    · by_cases hn : n = m
      · subst hn; simp [h]
      · simp [hn]
    · by_cases hn : n = m
      · subst hn; simp [h]
      · simp [hn]

theorem DbgCore.leave_accounts {d d0 : DbgCore} {n : Nat} (m : Nat) (h : d.accounts d0 n) : (d.leave m).accounts d0 n := by
  obtain ⟨hstop, -, hcancel⟩ := d.leave_bits m n
  intro h0
  rw [hstop, hcancel]
  rcases h h0 with h | h
  · by_cases hn : n = m
    · subst hn; simp [h]
    · simp [h, hn]
  · simp [h]

theorem DbgCore.leave_free (d : DbgCore) (n : Nat) : (d.leave n).free n := by
  obtain ⟨hstop, hhalt, -⟩ := d.leave_bits n n
  simp [DbgCore.free, hstop, hhalt]

theorem DbgCore.leave_keeps_free {d : DbgCore} {n : Nat} (m : Nat) (h : d.free n) : (d.leave m).free n := by
  obtain ⟨hstop, hhalt, -⟩ := d.leave_bits m n
  simp [DbgCore.free, hstop, hhalt, h.1, h.2]

/-- Waves leave their slots one after another: what the registers of a core account for. -/
theorem State.leaveSlots_accounts {d0 : DbgCore} {core n : Nat} (l : List Wave) (s : State) (h : (s.dbg core).accounts d0 n) :
    ((l.foldl (fun s w => s.leaveSlot w.id) s).dbg core).accounts d0 n := by
  induction l generalizing s with
  | nil => exact h
  | cons w l ih =>
    refine ih _ ?_
    rw [State.leaveSlot_dbg]
    split
    · exact DbgCore.leave_accounts _ h
    · exact h

theorem State.leaveSlots_keep_free {core n : Nat} (l : List Wave) (s : State) (h : (s.dbg core).free n) :
    ((l.foldl (fun s w => s.leaveSlot w.id) s).dbg core).free n := by
  induction l generalizing s with
  | nil => exact h
  | cons w l ih =>
    refine ih _ ?_
    rw [State.leaveSlot_dbg]
    split
    · exact DbgCore.leave_keeps_free _ h
    · exact h

theorem State.leaveSlots_free {w : Wave} {l : List Wave} (hw : w ∈ l) (s : State) :
    ((l.foldl (fun s w => s.leaveSlot w.id) s).dbg w.id.core).free (slotNum w.id) := by
  induction l generalizing s with
  | nil => cases hw
  | cons x l ih =>
    rcases List.mem_cons.1 hw with rfl | hw
    · refine State.leaveSlots_keep_free l _ ?_
      rw [State.leaveSlot_dbg, if_pos rfl]
      exact DbgCore.leave_free _ _
    · exact ih hw _

/-- The slot of a wave that leaves has no HALTED bit and no stop request, and one that was pending is cancelled (R446). -/
theorem State.leaveSlots_gone {w : Wave} {l : List Wave} (hw : w ∈ l) (s : State) :
    let d := (l.foldl (fun s w => s.leaveSlot w.id) s).dbg w.id.core
    d.stopreq.getLsbD (slotNum w.id) = false ∧ d.halted.getLsbD (slotNum w.id) = false ∧
      ((s.dbg w.id.core).stopreq.getLsbD (slotNum w.id) = true → d.cancelled.getLsbD (slotNum w.id) = true) := by
  have hacc := State.leaveSlots_accounts (core := w.id.core) (n := slotNum w.id) l s Or.inl
  obtain ⟨hstop, hhalt⟩ := State.leaveSlots_free hw s
  refine ⟨hstop, hhalt, fun h => (hacc h).resolve_left ?_⟩
  rw [hstop]
  exact Bool.false_ne_true

theorem State.dropCords_gone {s : State} {w : Wave} {tag : Nat} (hw : w ∈ s.waves) (hc : ∃ c ∈ s.cords, c.uid = w.cord ∧ c.tag = tag) :
    let d := (s.dropCords tag).dbg w.id.core
    d.stopreq.getLsbD (slotNum w.id) = false ∧ d.halted.getLsbD (slotNum w.id) = false ∧
      ((s.dbg w.id.core).stopreq.getLsbD (slotNum w.id) = true → d.cancelled.getLsbD (slotNum w.id) = true) :=
  State.leaveSlots_gone (List.mem_filter.2 ⟨hw, by simpa using hc⟩) s

theorem State.takeImage_gone {s : State} {w : Wave} {c : Cord} (hw : w ∈ s.waves) (hc : s.cordAt w.cord = some c) (ht : c.tenures = []) :
    let d := (s.takeImage w.cord).2.dbg w.id.core
    d.stopreq.getLsbD (slotNum w.id) = false ∧ d.halted.getLsbD (slotNum w.id) = false ∧
      ((s.dbg w.id.core).stopreq.getLsbD (slotNum w.id) = true → d.cancelled.getLsbD (slotNum w.id) = true) := by
  have hgone := State.leaveSlots_gone (List.mem_filter.2 ⟨hw, by simp⟩ : w ∈ s.waves.filter fun x => x.cord == w.cord) s
  have htake : ((s.takeImage w.cord).2.dbgCores) =
      ((s.waves.filter fun x => x.cord == w.cord).foldl (fun s w => s.leaveSlot w.id) s).dbgCores := by
    unfold State.takeImage
    simp only [hc, ht, List.foldl_nil]
    rfl
  simp only [State.dbg] at hgone ⊢
  rw [htake]
  exact hgone

/-! ### Debug instructions (R436, R440, R443) -/

section
variable {s : State} {w : Wave} {f : Fields}

/-- A wave with a region pushed (R435, R436). -/
def Wave.pushRegion (w : Wave) (f : Fields) : Wave :=
  { w with
    regions := if w.rgndepth.toNat < 16 then w.regions.take w.rgndepth.toNat ++ [f.imm.setWidth 16] else w.regions
    rgndepth := if w.rgndepth.toNat < 65535 then w.rgndepth + 1 else w.rgndepth }

theorem exec_rgnIn (h : s.runs w (.rgnIn f) f .dest false = true) : exec (.rgnIn f) s =
    .next (((s.setMe (w.pushRegion f)).trace (w.pushRegion f) 1).modMe fun y => y.after f) := by
  have hme := State.runs_me h
  change execRgnIn f s = _
  rw [execRgnIn, State.front_runs _ h]
  change (((s.modMe fun w => w.pushRegion f).me.map fun w => (s.modMe fun w => w.pushRegion f).trace w 1).getD
    (s.modMe fun w => w.pushRegion f)).finish f id = _
  rw [s.modMe_eq w _ hme, State.setMe_me s w _ hme]
  rfl

theorem exec_rgnOut (h : s.runs w (.rgnOut f) f .dest false = true) : exec (.rgnOut f) s =
    if w.rgndepth.toNat = 0 then s.trap 0x48 w.exec ((f.imm.setWidth 16).setWidth 64)
    else if w.rgndepth.toNat ≤ 16 ∧ w.regions.getD (w.rgndepth.toNat - 1) 0 ≠ f.imm.setWidth 16 then
      s.trap 0x48 w.exec ((f.imm.setWidth 16).setWidth 64 + (w.regions.getD (w.rgndepth.toNat - 1) 0).setWidth 64 <<< 16)
    else (s.trace w 2).finish f fun y => { y with rgndepth := y.rgndepth - 1, regions := y.regions.take (w.rgndepth.toNat - 1) } := by
  change execRgnOut f s = _
  rw [execRgnOut, State.front_runs _ h]

theorem exec_brk (h : s.runs w (.brk f) f .dest false = true) : exec (.brk f) s =
    if w.sup then .next (s.setMe (w.after f))
    else if dbgHalten (s.dbg w.core) && decide (dbgTag (s.dbg w.core) = s.tagOf w) then .next (s.haltWave w 1 0 8)
    else s.trap 0x06 w.exec 8 := by
  change execBrk f s = _
  rw [execBrk, State.front_runs _ h, State.finish_eq s w f id (State.runs_me h)]
  rfl

/-- A count of PROG, made in a trial of the wave's context (R443). -/
def State.progCount (s : State) (w : Wave) (n : Nat) : State :=
  if s.trialOf w then { s with trial := { s.trial with prog := modAt s.trial.prog n (· + 1) } } else s

theorem State.progCount_me (w : Wave) (n : Nat) (h : s.me = some w) : (s.progCount w n).me = some w := by
  unfold State.progCount
  split <;> exact h

theorem exec_prog (h : s.runs w (.prog f) f .dest false = true) : exec (.prog f) s =
    .next ((s.progCount w ((s.readS w (.int 32) f.a).toNat % 8)).setMe (w.after f)) := by
  change execProg f s = _
  rw [execProg, State.front_runs _ h]
  exact State.finish_eq _ w f id (State.progCount_me w _ (State.runs_me h))

end

theorem debugInstructionsComplete : Claim.DebugInstructionsComplete := by
  intro s w f d depth name top pushed
  refine ⟨exec_rgnIn, fun h => ⟨fun h0 => ?_, fun h0 hd ht => ?_, fun h0 ht => ?_⟩,
    fun h => ⟨fun hs => ?_, fun hs hh ht => ?_, fun hs hh => ?_⟩, exec_prog⟩
  · exact (exec_rgnOut h).trans (if_pos h0)
  · exact (exec_rgnOut h).trans ((if_neg h0).trans (if_pos ⟨hd, ht⟩))
  · refine (exec_rgnOut h).trans ((if_neg h0).trans (if_neg fun hc => ?_))
    exact ht.elim (not_lt.2 hc.1) hc.2
  · exact (exec_brk h).trans (if_pos hs)
  · refine (exec_brk h).trans ((if_neg (Bool.eq_false_iff.1 hs)).trans (if_pos ?_))
    exact Bool.and_eq_true_iff.2 ⟨hh, decide_eq_true ht⟩
  · refine (exec_brk h).trans ((if_neg (Bool.eq_false_iff.1 hs)).trans (if_neg fun hc => ?_))
    obtain ⟨h1, h2⟩ := Bool.and_eq_true_iff.1 hc
    exact hh.elim (fun h => absurd (h1.symm.trans h) (by decide)) fun h => h (of_decide_eq_true h2)

/-! ### Halts (R438 to R441) -/

section
variable {s : State} {id : WaveId} {w : Wave}

theorem exec_breakpointMatch {m : Nat × Bool} (hw : s.waveAt id = some w) (hi : s.canIssue w = true) (he : w.exempt = false)
    (hm : s.bpMatch w = some m) : exec (.breakpointMatch id) s = .next (s.haltBp w m) := by
  change execBreakpointMatch id s = _
  simp only [execBreakpointMatch, hw, hi, he, hm, Bool.not_false, Bool.and_self, if_true]

theorem exec_stopTakesEffect (hw : s.waveAt id = some w) (hi : s.canIssue w = true) (hn : s.stopNow w = true) :
    exec (.stopTakesEffect id) s = .next (s.haltStop w) := by
  change execStopTakesEffect id s = _
  simp only [execStopTakesEffect, hw, hi, hn, Bool.and_self, if_true]

/-- What is looked at of a wave: its last halt. -/
theorem State.waveAt_face {t u : State} (h : u.look = t.look) (id : WaveId) :
    (u.waveAt id).map Wave.face = (t.waveAt id).map Wave.face := by
  have hlist : u.waves.map Wave.face = t.waves.map Wave.face := congrArg (fun x => x.2.1) h
  have hfind : ∀ v : State, (v.waveAt id).map Wave.face = (v.waves.map Wave.face).find? fun x => x.1 == id := fun v => by
    rw [List.find?_map]
    rfl
  rw [hfind, hfind, hlist]

/-- The wave of a halt, once its HALTED bit is set (R439). -/
def Wave.halting (st bp : Nat) (info : Word64) (w : Wave) : Wave :=
  { w with halted := true, haltAs := (st, bp, info), stepOnce := false, exempt := false, wait := Wait.none }

theorem State.halted_look (t : State) (w : Wave) (st bp : Nat) (info : Word64) : (t.halted w st bp info).look =
    ((t.modWave w.id (Wave.halting st bp info)).modDbg w.core fun d => { d with halted := bitSet d.halted (slotNum w.id) }).look := by
  have hmsix : ∀ (u : State) (die vector : Nat), (u.msix die vector).look = u.look := fun _ _ _ => rfl
  have hint : ∀ (u : State) (hart ident : Nat), (u.interrupt hart ident).look = u.look := fun _ _ _ => rfl
  exact (hint _ _ _).trans ((hmsix _ _ _).trans (State.record_look _ w 3 st bp 0))

/-- A wave that has halted, with the record of its halt. -/
theorem State.halted_wave (t : State) (w : Wave) (st bp : Nat) (info : Word64) (h : (t.waveAt w.id).isSome = true) :
    ∃ x, (t.halted w st bp info).waveAt w.id = some x ∧ x.halted = true ∧ x.haltAs = (st, bp, info) := by
  obtain ⟨y, hy⟩ := Option.isSome_iff_exists.1 h
  have hmod : ((t.modWave w.id (Wave.halting st bp info)).modDbg w.core fun d =>
      { d with halted := bitSet d.halted (slotNum w.id) }).waveAt w.id = some (y.halting st bp info) := by
    refine (t.modWave_waveAt w.id (Wave.halting st bp info) fun _ => rfl).trans ?_
    rw [hy]
    rfl
  have hface := State.waveAt_face (t.halted_look w st bp info) w.id
  rw [hmod] at hface
  obtain ⟨x, hx, hxy⟩ := Option.map_eq_some_iff.1 hface
  exact ⟨x, hx, congrArg (fun p => p.2.1) hxy, congrArg (fun p => p.2.2) hxy⟩

/-- A halt leaves the stop requests of its core. -/
theorem State.halted_stopreq (t : State) (w : Wave) (st bp : Nat) (info : Word64) :
    ((t.halted w st bp info).dbg w.core).stopreq = (t.dbg w.core).stopreq := by
  have hcores := congrArg (fun x => x.1) (t.halted_look w st bp info)
  have hkeep := (t.modWave w.id (Wave.halting st bp info)).modDbg_keeps (fun d => d.stopreq) w.core w.core
    (fun d => { d with halted := bitSet d.halted (slotNum w.id) }) fun _ => rfl
  exact (congrArg (fun l : List DbgCore => (l.getD w.core DbgCore.reset).stopreq) hcores).trans hkeep

theorem State.haltFrame_ok {q t : State} {info : Word64} (hr : s.readErrors w frameReads = (false, q))
    (hs : q.waveStore w true (q.trapArea w) (w.trapFrame 6 w.exec info) = (t, .ok ())) (st bp : Nat) :
    s.haltWave w st bp info = t.halted w st bp info := by
  unfold State.haltWave State.haltFrame
  simp only [hr, hs]

/-! ### Resumptions (R439) -/

/-- A halted wave whose frame has been read goes on. -/
theorem State.resume_read {t : State} {fr : List Byte} {mode : Nat} {k : Wave → List Byte → Wave} (hw : s.waveAt id = some w)
    (hh : w.halted = true) (hl : s.waveLoad w true (s.trapArea w) 200 0 = (t, .ok fr)) : s.resume id mode k =
      (t.modWave id fun x => k { x.leaveTrap fr with halted := false } fr).modDbg id.core
        fun d => { d with halted := bitClear d.halted (slotNum id) } := by
  simp only [State.resume, hw, hh, hl, Bool.not_true, Bool.false_eq_true, if_false]

theorem State.resume_waits {t : State} {mode : Nat} {k : Wave → List Byte → Wave} (hw : s.waveAt id = some w)
    (hh : w.halted = true) (hl : s.waveLoad w true (s.trapArea w) 200 0 = (t, .wait)) : s.resume id mode k =
      t.modDbg id.core fun d => { d with resumes := d.resumes ++ [BitVec.ofNat 64 (slotNum id + 256 * mode)] } := by
  simp only [State.resume, hw, hh, hl, Bool.not_true, Bool.false_eq_true, if_false]

theorem exec_resumeContinue (s : State) (id : WaveId) : exec (.resumeContinue id) s =
    .next (s.resume id 0 fun w _ => { w with exempt := true, stepOnce := false }) := rfl

theorem exec_resumeStep (s : State) (id : WaveId) : exec (.resumeStep id) s =
    .next (s.resume id 2 fun w _ => { w with exempt := true, stepOnce := true }) := rfl

theorem exec_resumeDeliver (s : State) (id : WaveId) : exec (.resumeDeliver id) s =
    .next (s.resume id 1 fun w fr => { w with exempt := false, stepOnce := false }.enterTrap (s.ctx (s.tagOf w)).trapvec 6
      (BitVec.ofNat 96 (numAt fr 0x18 12)) (BitVec.ofNat 64 (numAt fr 8 8))) := rfl

/-! ### Samples (R442) -/

theorem State.sampPeriod_eq (s : State) (die : Nat) : s.sampPeriod die =
    if (s.dbgDies.getD die ⟨0, 0, 0⟩).sampper.toNat = 0 then 0 else max 1000 (s.dbgDies.getD die ⟨0, 0, 0⟩).sampper.toNat := rfl

/-- No sample is due: sampling is off, or the period has not passed. -/
theorem exec_sample_early {core n : Nat} (hn : n = (s.dbgDies.getD (dieOf core) ⟨0, 0, 0⟩).sampper.toNat)
    (h : n = 0 ∨ s.time < (s.dbg core).sampled + n ∨ s.time < (s.dbg core).sampled + 1000) : exec (.sample core) s = .next s := by
  refine if_pos ?_
  rw [State.sampPeriod_eq, ← hn]
  split
  · exact .inl rfl
  · right; omega

/-- The slot next in rotation holds the wave that the sample takes. -/
theorem State.sampled_next {core : Nat} (hw : w ∈ s.waves) (hc : w.id.core = core) (hnext : (s.dbg core).next = slotNum w.id)
    (hlt : slotNum w.id < 64) (he : w.wait ≠ .ended)
    (huniq : ∀ x ∈ s.waves, x.id.core = core → slotNum x.id = slotNum w.id → x = w) : s.sampled core = some w := by
  have hfirst : s.waves.find? (fun x => x.core == core && slotNum x.id == slotNum w.id && x.wait != .ended) = some w := by
    have hsome : (s.waves.find? fun x => x.core == core && slotNum x.id == slotNum w.id && x.wait != .ended).isSome = true :=
      List.find?_isSome.2 ⟨w, hw, by simp [Wave.core, hc, he]⟩
    obtain ⟨x, hx⟩ := Option.isSome_iff_exists.1 hsome
    have htest := List.find?_some hx
    simp only [Bool.and_eq_true, beq_iff_eq] at htest
    obtain ⟨⟨hcore, hslot⟩, -⟩ := htest
    rw [hx, huniq x (List.mem_of_find?_eq_some hx) hcore hslot]
  have hlist : (List.range 64).map (fun i => ((s.dbg core).next + i) % 64) =
      slotNum w.id :: ((List.range 63).map fun i => ((s.dbg core).next + (i + 1)) % 64) := by
    rw [List.range_succ_eq_map, List.map_cons, List.map_map, hnext, Nat.add_zero, Nat.mod_eq_of_lt hlt]
    rfl
  rw [State.sampled, hlist, List.findSome?_cons, hfirst]

theorem exec_sample_due {core n : Nat} (hn : n = (s.dbgDies.getD (dieOf core) ⟨0, 0, 0⟩).sampper.toNat) (hpos : n ≠ 0)
    (hperiod : (s.dbg core).sampled + n ≤ s.time) (hmin : (s.dbg core).sampled + 1000 ≤ s.time)
    (hw : (s.modDbg core fun d => { d with sampled := s.time }).sampled core = some w) : exec (.sample core) s =
      let u := s.modDbg core fun d => { d with sampled := s.time }
      .next ((u.modDbg core fun d => { d with next := (slotNum w.id + 1) % 64 }).record w 0 (u.sampleState w).1 0 (u.sampleState w).2) := by
  have hdue : ¬ (s.sampPeriod (dieOf core) = 0 ∨ s.time < (s.dbg core).sampled + s.sampPeriod (dieOf core)) := by
    rw [State.sampPeriod_eq, ← hn, if_neg hpos]
    omega
  change execSample core s = _
  simp only [execSample, if_neg hdue, hw]

/-! ### A wave's turn, as the debug unit sees it (R438 to R443) -/

/-- The state in which a wave that may take its turn does so. -/
def State.turnOf (s : State) (id : WaveId) : State :=
  { s with cur := s.indexOf id, serial := s.serial + 1 }.modMe fun w => { w with yield := Option.none }

theorem State.issue_run {t : State} (hw : s.waveAt id = some w) (hm : s.mayTurn w = true)
    (hd : (s.turnOf id).debugHalt w = none) (hf : (s.turnOf id).fetchRun = .next t) : s.issue id = .next
      (if t.hasIssued id = false then t.issued id
       else if (s.turnOf id).trialHolds w then (s.turnOf id).trialHold w
       else (t.trialIssue (s.turnOf id) w).issued id) := by
  simp only [State.issue, hw, hm, Bool.not_true, Bool.false_eq_true, if_false]
  rw [← State.turnOf]
  simp only [hd, hf]
  cases hi : t.hasIssued id with
  | false => rfl
  | true =>
    simp only [Bool.not_true, Bool.false_eq_true, if_false, Bool.true_eq_false]
    split <;> rfl

end

/-! ### The read-out (R442, R445) -/

/-- The bytes of a record before its last ones are those of the read-out. -/
theorem State.waveDump_eq (s : State) (w : Wave) : s.waveDump w =
    bytesOfNat 8 s.time ++ bytesOfNat 8 w.pc.toNat ++ bytesOfNat 8 (s.sampleState w).2.toNat ++ w.topRegions ++
    bytesOfNat 2 w.rgndepth.toNat ++ bytesOfNat 2 (s.tagOf w) ++ bytesOfNat 1 w.core ++ bytesOfNat 1 (slotNum w.id) ++
    bytesOfNat 1 0 ++ bytesOfNat 1 (s.sampleState w).1 ++ bytesOfNat 4 (s.cordOf w).cordid ++ bytesOfNat 1 w.index := by
  have hregions : w.topRegions.length = 8 := by
    simp [Wave.topRegions, tabulate, bytesOfNat_length, List.length_flatten, Function.comp_def]
  change List.take 0x2D (s.recordBytes w 0 (s.sampleState w).1 0 (s.sampleState w).2) = _
  unfold State.recordBytes
  rw [List.take_append_of_le_length (by simp [bytesOfNat_length, hregions]), List.take_append_of_le_length (by simp [bytesOfNat_length, hregions])]
  exact List.take_of_length_le (by simp [bytesOfNat_length, hregions])

theorem debugEventsComplete : Claim.DebugEventsComplete := by
  intro s id w hw
  have hmem : w ∈ s.waves := List.mem_of_find?_eq_some hw
  refine ⟨fun m hi he hm => exec_breakpointMatch hw hi he hm, fun hi hn => exec_stopTakesEffect hw hi hn, fun t fr hh hl => ⟨?_, ?_, ?_⟩,
    fun q t st bp info hid hs hr hst hat => ?_, fun t hh hl => ?_, fun core h => exec_sample_early rfl h,
    fun core hn h1 h2 hc hnext he hu hlt hid => ?_, fun c x => ⟨rfl, rfl, rfl, rfl, rfl, rfl, rfl⟩, fun hm => ?_,
    fun tag n hcord hid => ⟨?_, fun c hc ht => ?_⟩, rfl, rfl, List.map_congr_left fun x _ => s.waveDump_eq x⟩
  · rw [exec_resumeContinue, State.resume_read hw hh hl]
  · rw [exec_resumeStep, State.resume_read hw hh hl]
  · rw [exec_resumeDeliver, State.resume_read hw hh hl]
  · subst hid
    have hhalt := State.haltFrame_ok hr hst
    obtain ⟨x, hx, hhalted, has⟩ := t.halted_wave w st bp info hat
    rw [hhalt]
    refine ⟨⟨x, hx, hhalted, has⟩, t.halted_stopreq w st bp info, ?_⟩
    rintro rfl rfl rfl
    unfold State.haltStop
    dsimp only
    rw [hhalt, hx]
    exact if_pos hhalted
  · rw [exec_resumeContinue, State.resume_waits hw hh hl]
    rfl
  · subst hid
    have hkeep := s.modDbg_keeps (fun d => d.next) core core (fun d => { d with sampled := s.time }) fun _ => rfl
    exact exec_sample_due rfl hn h1 h2 (State.sampled_next hmem hc (hkeep.trans hnext.symm) hlt he hu)
  · intro u t hd hf
    have hrun := State.issue_run hw hm hd hf
    refine ⟨fun hi => hrun.trans ?_, fun hi ht => hrun.trans ?_, fun hi ht => hrun.trans ?_⟩
    · rw [if_pos hi]
    · rw [if_neg (by simp [hi])]
      exact congrArg Host.Outcome.next (if_pos ht)
    · rw [if_neg (by simp [hi])]
      exact congrArg Host.Outcome.next (if_neg (Bool.eq_false_iff.1 ht))
  · subst hid
    obtain ⟨rfl, hc⟩ := hcord
    exact State.dropCords_gone hmem hc
  · subst hid
    obtain ⟨rfl, -⟩ := hcord
    exact State.takeImage_gone hmem hc ht

/-! ### The frozen device (R445) -/

theorem State.acts_frozen {s : State} {x : Work} (hf : s.frozen = true) (hr : x ≠ .event .reset) (hp : x ≠ .event .powerRemoval) :
    s.acts x = false := by
  unfold State.acts
  split
  · exact absurd rfl hr
  · exact absurd rfl hp
  · rw [hf]; rfl

theorem State.after_frozen {s : State} (hf : s.frozen = true) : s.after = s := if_pos hf

/-- A turn that does not act leaves a frozen device as it is. -/
theorem State.turn_frozen {s : State} {x : Turn} (hf : s.frozen = true) (hr : x.work ≠ .event .reset)
    (hp : x.work ≠ .event .powerRemoval) : s.turn x = .next s := by
  simp only [State.turn, if_pos hf, State.acts_frozen hf hr hp, Bool.not_false, if_true]

theorem frozenDeviceStops : Claim.FrozenDeviceStops := by
  intro s hf
  refine ⟨fun ha => ?_, fun x rest ha hr hp => ?_⟩
  · have hadvance : s.advance = .next s := by
      simp only [State.advance, ha, hf, if_true]
    rw [step, hadvance, Out.andAlso, State.after_frozen hf]
  · have hadvance : s.advance = .next { s with agenda := rest } := by
      unfold State.advance
      rw [ha]
      exact State.turn_frozen hf hr hp
    rw [step, hadvance, Out.andAlso]
    exact congrArg Host.Outcome.next (State.after_frozen hf)

/-- Settles O48: the equation of each debug instruction and event, what a halt and a wave's leaving do to the registers of their
core, and a frozen device's turn. -/
theorem debugComplete : Obligations.DebugComplete := ⟨debugInstructionsComplete, debugEventsComplete, frozenDeviceStops⟩

end Sys2Proof.Machine
end
